-- ==== Sys2Proof/Word.lean ====
section
/-! DEFINITION. The words of the machine and their plainest arithmetic: 32-bit registers and instruction words
(R73, R87), bytes, and the reading of a bit pattern as a natural or a two's-complement number (R30). -/

namespace Sys2Proof

/-- A 32-bit register or instruction word (R73, R87). -/
abbrev Word := BitVec 32

/-- One byte of memory. -/
abbrev Byte := BitVec 8

/-- A 7-bit operand field D, A or B (R87). -/
abbrev Fld := BitVec 7

/-- `natural(x, n)` of R30: the low n bits of x as a natural number. -/
def natBits (n x : Nat) : Nat := x % 2 ^ n

/-- `signed(x, n)` of R30: the low n bits of x as a two's-complement number. -/
def intBits (n x : Nat) : Int :=
  let v := x % 2 ^ n
  if 2 * v < 2 ^ n then (v : Int) else (v : Int) - (2 ^ n : Nat)

/-- The n-bit pattern of an integer, that is the integer modulo 2^n. -/
def wrapInt (n : Nat) (x : Int) : Nat := (x % ((2 ^ n : Nat) : Int)).toNat

/-- x[h:l] of R30: bits h down to l of x as a natural number. -/
def bitsOf (h l x : Nat) : Nat := (x >>> l) % 2 ^ (h + 1 - l)

/-- The little-endian bytes of x, n of them (R17, R31). -/
def toBytes : Nat → Nat → List Byte
  | 0, _ => []
  | n + 1, x => BitVec.ofNat 8 x :: toBytes n (x / 256)

/-- The natural number whose little-endian bytes these are. -/
def ofBytes : List Byte → Nat
  | [] => 0
  | b :: bs => b.toNat + 256 * ofBytes bs

/-- The 32-bit words of x, low word first, n of them (R78). -/
def toWords : Nat → Nat → List Word
  | 0, _ => []
  | n + 1, x => BitVec.ofNat 32 x :: toWords n (x / 2 ^ 32)

/-- The natural number whose 32-bit words these are, low word first (R78). -/
def ofWords : List Word → Nat
  | [] => 0
  | w :: ws => w.toNat + 2 ^ 32 * ofWords ws

end Sys2Proof
end

