-- ==== Sys2Proof/Config.lean ====
section
/-! DEFINITION. The values that the manual leaves open (opaque constants: nothing can evaluate them) and the fixed
figures of one EO-S4600 module (R1). A free value is applied to the counter of the package that reads it. -/

namespace Sys2Proof.Config

/-- Free value: a byte of an SRAM bank after a switch into PAD or FIFO mode (R202: "the bank's bytes are undefined"). -/
opaque freeByte : Nat → Byte

/-- Free value: the Ed25519 and ML-DSA-65 signatures over a report or receipt (R320, R327): no key is given. -/
opaque signature : Nat → Nat

/-- Free value: the die whose L2 is home of a physical line (R195: a hash fixed at package start, not given). -/
opaque homeDie : Nat → Nat

/-- Free value: the key that the system cores make for a world, the same on every package (R209). -/
opaque worldKey : Nat → Nat

/-- Free value: the address of the record or descriptor of a command that system software or the host submits (R328): the event does not carry it. -/
opaque commandRef : Nat → Nat

/-- Free value: whether a command asks for an interrupt at its end (R323): the event does not carry it. -/
opaque asksNotice : Nat → Bool

/-- Bytes of the package's memory: 16 stacks of 24 GiB (R1). -/
def memBytes : Nat := 16 * 24 * 2 ^ 30
/-- 64-byte lines of a die's L2 of 128 MiB, those that a manifest carve-out takes, and those of an SRAM bank (R1, R193, R294). -/
def l2Lines : Nat := 2 ^ 21
def carveLines : Nat := 2 ^ 15
def bankLines : Nat := 4096
/-- Bytes of the boot flash, and system cores (R1, R318). -/
def flashBytes : Nat := 512 * 2 ^ 20
def systemCores : Nat := 8
/-- Package time granted to a cached copy (R229). -/
def lease : Nat := 1024
/-- Cycles after which the oldest entry of a berth yields a gang (R54). -/
def berthAge : Nat := 64
/-- Cycles for which a YIELD lasts (R70, R469). -/
def yieldCycles : Nat := 256
/-- Cycles per unit of a rejoin timeout (R59). -/
def timeoutUnit : Nat := 64
/-- Window of the departure counters (R298). -/
def departureWindow : Nat := 16384
/-- Window of the load cap (R71). -/
def loadWindow : Nat := 4096
/-- Entries of a decision queue (R50). -/
def dqSize : Nat := 64
/-- Entries of a region store buffer (R221). -/
def rsbSize : Nat := 8
/-- Entries of a context stack (R73). -/
def ctxSize : Nat := 16
/-- Live divergence records of a team (R57). -/
def divRecords : Nat := 512
/-- Berths of a partition (R53). -/
def berths : Nat := 32
/-- The gang id of every pilot (R52, R54). -/
def pilotGang : Nat := 0x1FF
/-- The ids from here on name threads that left their gangs while they were blocked (R56): no gang has one. -/
def loneGang : Nat := 0x200
/-- Entries of a FIFO bank (R199). -/
def fifoSize : Nat := 16384
/-- Bytes of an SRAM bank (R196). -/
def bankBytes : Nat := 262144
/-- 32-byte granules of an SRAM bank. -/
def bankGranules : Nat := 8192
/-- Jobs that a team's scheduler holds (R247). -/
def jobSlots : Nat := 64
/-- Entries of the endorsement table (R133). -/
def endorseSize : Nat := 1024
/-- Entries of a sparsity queue (R185). -/
def sparsitySize : Nat := 512
/-- Entries of the label table (R106). -/
def labelEntries : Nat := 65536
/-- Entries of a die's label cache (R108). -/
def labelCache : Nat := 8192
/-- Victim tags of a core (R71). -/
def victimTags : Nat := 512
/-- Core TLB entries (R217). -/
def tlbEntries : Nat := 2048
/-- Registers of a partition (R43). -/
def partRegs : Nat := 65536
/-- Entries of a die's manifest carve-out (R294). -/
def carveEntries : Nat := 131072

end Sys2Proof.Config
end

