-- ==== Sys2Proof/Syntax.lean ====
section
/-! DEFINITION. The instructions of the Skoivo and the events of its hardware and system software: one constructor of
`Instr` for every row of spec/opcode_table.json, and the operand forms that they carry (R87 to R103). The first 114
constructors are instruction words; the other 82 are the table's events, which have no encoding. -/

namespace Sys2Proof

/-- The types of the integer group (R89). -/
inductive ITy where
  | n32 | i32 | n64 | i64
  deriving DecidableEq, Repr

/-- The types of the logic group (R89). -/
inductive LTy where
  | n32 | n64
  deriving DecidableEq, Repr

/-- The types of the floating-point group (R89). -/
inductive FTy where
  | f32 | f64 | h16 | b16
  deriving DecidableEq, Repr

/-- The B operand of an ALU form (R88, R89): a register field, a 7-bit immediate, or an s-register. -/
inductive BOp where
  | reg (f : Fld)
  | imm (k : BitVec 7)
  | sreg (b : BitVec 7)
  deriving DecidableEq, Repr

/-- A two-source ALU form. `lit` is the operand literal, present exactly when a source field holds 126 (R83). -/
structure Alu (T : Type) where
  ty  : T
  d   : Fld
  a   : Fld
  b   : BOp
  lit : Option Word
  deriving DecidableEq, Repr

/-- A single-source ALU form: its source stands in B and A is 0 (R89). -/
structure Un (T : Type) where
  ty  : T
  d   : Fld
  b   : BOp
  lit : Option Word
  deriving DecidableEq, Repr

/-- Conditions of CMP and FCMP (R358, R384). -/
inductive Cond where
  | eq | ne | lt | ge
  deriving DecidableEq, Repr

/-- A comparison: condition and predicate stand in D (R358, R384). -/
structure CmpOp (T : Type) where
  ty  : T
  c   : Cond
  p   : BitVec 5
  a   : Fld
  b   : BOp
  lit : Option Word
  deriving DecidableEq, Repr

/-- FSF's functions (R389). -/
inductive SFn where
  | rcp | rsq | sqrt | ex2 | lg2 | sin | cos
  deriving DecidableEq, Repr

/-- FRND's directions (R388). -/
inductive RDir where
  | rm | rne | rtz | rdn | rup | rna
  deriving DecidableEq, Repr

/-- PMOV's forms (R419). -/
inductive PmovOp where
  | toReg (d : Fld) (p : BitVec 5)
  | toPred (p : BitVec 5) (b : Fld) (lit : Option Word)
  | save (d : Fld)
  | load (b : Fld) (lit : Option Word)
  deriving DecidableEq, Repr

/-- SHFL's modes (R444). -/
inductive ShMode where
  | idx | up | down | xor
  deriving DecidableEq, Repr

/-- VOTE's modes with their destination (R458). -/
inductive VoteOp where
  | all (p : BitVec 5)
  | any (p : BitVec 5)
  | eq (p : BitVec 5)
  | ballot (d : Fld)
  deriving DecidableEq, Repr

/-- The operations of RDX and SCAN (R425, R441). -/
inductive RedOp where
  | add | min | max | and | or | xor
  deriving DecidableEq, Repr

/-- The types of RDX and SCAN: integer, or floating when minor[3] = 1 (R425). -/
inductive RTy where
  | int (t : ITy)
  | f32
  | f64
  deriving DecidableEq, Repr

/-- The word offset of BRC, BDQ and CALL: 14 bits in A:B, or the offset literal (R92). -/
inductive BrOff where
  | short (o : BitVec 14)
  | long (o : Word)
  deriving DecidableEq, Repr

/-- Cache policies (R91). -/
inductive Policy where
  | cc | l2 | st
  deriving DecidableEq, Repr

/-- Memory orders (R91). -/
inductive MemOrder where
  | plain | acq | rel | acqrel
  deriving DecidableEq, Repr

/-- Scopes of an order, and of FENCE (R235, R385). -/
inductive Scope where
  | pkg | team | thread
  deriving DecidableEq, Repr

/-- Scopes of BAR (R348). -/
inductive BarScope where
  | team | die | pkg
  deriving DecidableEq, Repr

/-- Widths of the memory class (R400, R448); `s8` and `s16` are the sign-extended .i8 and .i16. -/
inductive Width where
  | w8 | w16 | w32 | w64 | w128 | s8 | s16
  deriving DecidableEq, Repr

/-- A memory form with policy, order and scope (R91, R235). `x` is its width or operation. -/
structure MemOp (T : Type) where
  x      : T
  d      : Fld
  a      : Fld
  policy : Policy
  order  : MemOrder
  scope  : Scope
  lit    : Option Word
  off    : Option Word
  deriving DecidableEq, Repr

/-- A scratchpad form: data register, base and offset literal (R341, R386, R400). -/
structure PadOp where
  d   : Fld
  a   : Fld
  lit : Option Word
  off : Option Word
  deriving DecidableEq, Repr

/-- SRAM bank modes (R196, R347). -/
inductive BankMode where
  | cache | pad | fifo
  deriving DecidableEq, Repr

/-- The operations of ATOM (R342), in the order of their minors. -/
inductive AtomOp where
  | add32 | mins32 | minn32 | maxs32 | maxn32 | and32 | or32 | xor32 | exch32 | cas32 | addf32
  | add64 | mins64 | maxs64 | exch64 | cas64
  deriving DecidableEq, Repr

/-- The operations of ATOMX (R345). -/
inductive AtomxOp where
  | cas | exch
  deriving DecidableEq, Repr

/-- The operations of RED (R430), in the order of their minors. -/
inductive RedAt where
  | add32 | mins32 | minn32 | maxs32 | maxn32 | and32 | or32 | xor32 | and64 | or64 | addf32
  | add64 | mins64 | maxs64 | xor64
  deriving DecidableEq, Repr

/-- LGET's sources (R405). -/
inductive LgetSrc where
  | one (b : BOp)
  | pair (b : BOp)
  | pred (p : BitVec 5)
  deriving DecidableEq, Repr

/-- Formats of MMA (R409); MMASP admits the first four. -/
inductive MFmt where
  | b16 | h16 | e4m3 | e5m2 | q4 | f32 | c32
  deriving DecidableEq, Repr

/-- Formats of MMASP (R409). -/
inductive SFmt where
  | b16 | h16 | e4m3 | e5m2
  deriving DecidableEq, Repr

/-- The forms of ACCLD (R336). -/
inductive LdForm where
  | f32 | c32 | c32rnd
  deriving DecidableEq, Repr

/-- The forms of ACCST (R336). -/
inductive StForm where
  | f32 | b16 | h16 | c32 | c32rnd
  deriving DecidableEq, Repr

/-- SIGN's row operand (R446). -/
inductive SignRow where
  | imm (q : BitVec 8)
  | sreg (b : BitVec 7)
  deriving DecidableEq, Repr

/-! ### Operands of the events -/

/-- A gang, named by its core and its gang id; a pilot by its core and its team (R52, R54). -/
structure GangRef where
  core : Nat
  id   : Nat
  team : Nat
  deriving DecidableEq, Repr

/-- Bytes and granule labels (owner masks) that the loader or the system cores place at physical addresses (R13, R479). -/
structure Placement where
  bytes  : List (Nat × Byte)
  labels : List (Nat × Nat)
  deriving DecidableEq, Repr

/-- What a new world holds (R321). Masks and maps are the system cores' choice; `clusters` gives the admitted clusters, each as its logical and its
physical number (R7). -/
structure WorldSpec where
  id        : Nat
  caps      : Nat
  clusters  : List (Nat × Nat)
  banks     : List (Nat × Nat × Nat)
  queues    : List Nat
  manifests : List Nat
  peers     : List (Nat × Nat)
  debug     : Bool
  deriving DecidableEq, Repr

/-- System-software writes to tables and registers that have no row of their own (R321 and the rule at each). A `migrate` of size 0 says that the peer
has no free frame for the page (R216); its last argument names the page-table entries that the move rewrites, each by package and address. -/
inductive SysWrite where
  | place (p : Placement)
  | frame (f world : Nat)
  | installCode (pa words : Nat)
  | space (id gen root world : Nat)
  | worldSpace (world space : Nat)
  | trapVec (world v : Nat)
  | pilotVec (world v : Nat)
  | recordArea (world pa va : Nat)
  | trapBlocks (world pa va : Nat)
  | caps (world mask : Nat)
  | launchCeiling (world mask : Nat)
  | peer (world logical phys state : Nat)
  | scopeTraps (world : Nat) (on : Bool)
  | queueBase (phys base cap : Nat)
  | share (world units spillBase spillUnits : Nat)
  | carveOut (on : Bool)
  | labelBase (pa : Nat)
  | labelEntry (idx mask : Nat)
  | fuse (development : Bool)
  | interruptTarget (world cls : Nat) (host : Bool) (target : Nat)
  | firmwareKey (ed ml : Nat)
  | retireFrame (f : Nat)
  | swapManifest (world logical phys : Nat)
  | flush (space : Nat)
  | claimTeam (team : Nat) (on : Bool)
  | resumeHalted (team lid : Nat)
  | sworld (w : Nat)
  | flashImage (k copy hash ed ml : Nat)
  | clusters (world : Nat) (cs : List (Nat × Nat))
  | queues (world : Nat) (qs : List Nat)
  | migrate (world page size peer frame : Nat) (entries : List (Nat × Nat))
  deriving DecidableEq, Repr

/-- The instructions and events: one constructor for each row of spec/opcode_table.json. -/
inductive Instr where
  | nop
  | add (o : Alu ITy)
  | addc (o : Alu Unit)
  | isub (o : Alu ITy)
  | imul (o : Alu ITy)
  | imad (o : Alu ITy)
  | iabs (wide : Bool) (o : Un Unit)
  | imin (o : Alu ITy)
  | imax (o : Alu ITy)
  | cmp (o : CmpOp ITy)
  | lea (o : Alu (BitVec 2))
  | mov (o : Alu ITy)
  | movl (ty : ITy) (d : Fld) (k : BitVec 14)
  | and (o : Alu LTy)
  | andn (o : Alu LTy)
  | or (o : Alu LTy)
  | xor (o : Alu LTy)
  | shl (o : Alu LTy)
  | shr (o : Alu LTy)
  | sar (o : Alu LTy)
  | rol (o : Alu LTy)
  | bfx (o : Alu ITy)
  | bfi (o : Alu LTy)
  | popc (o : Un LTy)
  | clz (o : Un LTy)
  | brev (o : Un LTy)
  | prmb (o : Alu Unit)
  | fadd (o : Alu FTy)
  | fmul (o : Alu FTy)
  | ffma (o : Alu FTy)
  | fmin (o : Alu FTy)
  | fmax (o : Alu FTy)
  | fcmp (o : CmpOp Bool)
  | fsf (fn : SFn) (o : Un FTy)
  | frnd (dir : RDir) (o : Un FTy)
  | twosum (o : Alu Unit)
  | twoprd (o : Alu Unit)
  | cfma (d a b : Fld)
  | cvt (code : BitVec 7) (e : BitVec 2) (o : Un Unit)
  | qpack (d a b : Fld) (j : BitVec 2)
  | qunpk (d a b : Fld) (k j : BitVec 2) (lit : Option Word)
  | trap (code : BitVec 7)
  | eretResume
  | eretRestart
  | eretSkip
  | mfsr (d : Fld) (n : BitVec 7)
  | mtsr (a : Fld) (n : BitVec 7) (lit : Option Word)
  | bkpt (code : BitVec 7)
  | snap
  | time (d : Fld) (wait : Bool)
  | sel (sense : Bool) (p : BitVec 5) (o : Un LTy)
  | plop (pd pa pb : BitVec 5) (tt : BitVec 4)
  | pmov (op : PmovOp)
  | shfl (o : Alu ShMode)
  | vote (op : VoteOp) (sense : Bool) (ps : BitVec 5)
  | rdx (op : RedOp) (ty : RTy) (d b : Fld) (lit : Option Word)
  | scan (excl : Bool) (op : RedOp) (ty : RTy) (d b : Fld) (lit : Option Word)
  | bra (off : BitVec 21)
  | brc (sense : Bool) (p : BitVec 5) (off : BrOff)
  | bdq (sense : Bool) (off : BrOff)
  | jmpi (a : Fld)
  | call (d : Fld) (off : BrOff)
  | ret (a : Fld)
  | reform (b : BOp) (lit : Option Word)
  | exit
  | killTeam
  | killGrid
  | yield
  | bar (lanes : Bool) (scope : BarScope)
  | launch (a : Fld) (q : BitVec 4) (lit : Option Word)
  | cont (a : Fld) (q : BitVec 4) (lit : Option Word)
  | dqpush (b : BOp) (rel : Bool) (lit : Option Word)
  | dqpop (d : Fld)
  | winb (w : BitVec 4)
  | ld (m : MemOp Width)
  | st (m : MemOp Width)
  | lds (w : Width) (m : PadOp)
  | sts (w : Width) (m : PadOp)
  | fpush (w : Width) (m : PadOp)
  | fpop (w : Width) (m : PadOp)
  | bank (try_ : Option (BitVec 5)) (b : BitVec 5) (mode : BankMode)
  | fence (scope : Scope)
  | tlfence
  | disc (m : PadOp)
  | arm (m : PadOp)
  | await (m : PadOp)
  | xacq
  | xrel
  | atom (m : MemOp AtomOp)
  | atomx (m : MemOp AtomxOp)
  | red (m : MemOp RedAt)
  | rgn
  | rgnc
  | lget (d : Fld) (src : LgetSrc) (lit : Option Word)
  | ljoin (wide : Bool) (o : Alu Unit)
  | lceil (b : BOp) (lit : Option Word)
  | endo (a : Fld)
  | decl (wide : Bool) (o : Alu Unit)
  | mma (fmt : MFmt) (tile : BitVec 6) (k : BitVec 4) (a b : BitVec 5) (lit : Option Word)
  | mmasp (fmt : SFmt) (q : BitVec 2) (tile : BitVec 6) (k : BitVec 4) (a b : BitVec 5)
  | accld (form : LdForm) (tile : BitVec 6) (a : Fld) (k : BitVec 4)
  | accst (form : StForm) (d : Fld) (tile : BitVec 6) (k : BitVec 4)
  | sign (k : BitVec 4) (row : SignRow)
  | jwait (f : BitVec 4)
  | tide (d : Fld)
  | cpy (a : Fld) (rel : Bool) (lit : Option Word)
  | cpym (a b : Fld) (rel : Bool) (lit : Option Word)
  | coll (tile : Option (BitVec 6)) (a : Fld) (rel : Bool) (lit : Option Word)
  | xperm (a : Fld) (rel : Bool) (lit : Option Word)
  | recBegin (m : BitVec 4) (a b : Fld) (lit : Option Word)
  | recEnd (m : BitVec 4)
  | recPlay (m : BitVec 4) (b : Fld) (lit : Option Word)
  | recDrop (m : BitVec 4)
  | recq (d : Fld) (m : BitVec 4)
  | clauseIssue (g : GangRef)
  | longLatencyComplete (acc : Nat)
  | berthEmptyFile (core part : Nat)
  | berthAgeExpiry (core part : Nat)
  | gangIdFree (core : Nat)
  | blockedMemberTimeout (g : GangRef)
  | rejoinTimerExpiry (team rec : Nat)
  | yieldExpiry (team lid : Nat)
  | loadCapWindowEnd (core : Nat)
  | labelCacheMissDone (g : GangRef)
  | quayQueueRoom (q : Nat)
  | dispatchDecision (cluster : Nat)
  | teamRetire (team : Nat)
  | roundIssue (team k : Nat)
  | roundComplete (round : Nat)
  | sparsityEntryArrive (core part q : Nat)
  | fifoEntryArrive (cluster bank : Nat)
  | fifoRoom (cluster bank : Nat)
  | bankWritebackDone (cluster bank : Nat)
  | awaitRelease (team lid : Nat)
  | storeArriveHome (acc : Nat)
  | wctReached (line : Nat)
  | fillServe (acc : Nat) (evict : List Nat)
  | leaseEnd (cluster line : Nat)
  | keySweepLine (world : Nat)
  | pageResident (team lid : Nat)
  | pageDeliver (team lid : Nat)
  | trapEntry (team lid : Nat)
  | uncorrectableArrive (acc : Nat)
  | preempt (team : Nat)
  | preemptSaveDone (team : Nat)
  | resume (team : Nat) (cores : List Nat)
  | schedulerRoom (team : Nat)
  | jobSegmentDone (job : Nat)
  | jobComplete (job : Nat)
  | collHeaderRound (gid seq : Nat)
  | collContribution (job : Nat)
  | mergeRecordAccept (k : Nat)
  | bulkWriteAccept (k : Nat)
  | recordAck (k : Nat)
  | packageArrive (world : Nat)
  | arrivalMessage (k : Nat)
  | releaseMessage (k : Nat)
  | applyDone (world : Nat)
  | tideClose (world : Nat)
  | deliverySend (k : Nat)
  | deliveryEnter (k : Nat)
  | departureWindowClear
  | packetReceive (src seq : Nat)
  | laneErasure (port : Nat)
  | linkRetire (port : Nat)
  | slotStart (port : Nat)
  | slotTableWrite (port idx dest guard len : Nat) (v : Bool)
  | circuitChange (peers : List (Nat × Nat)) (tables : List (Nat × Nat × Nat × Nat))
  | drainMarkerAck
  | relock
  | tugFirmwareDownload (port version : Nat) (ed ml : Bool)
  | tugFault (port : Nat)
  | groupTableChange (id gen rank world : Nat) (members : Nat × List Nat)
  | drainRound (id : Nat)
  | launchCommand (world queue record : Nat) (tideBound : Bool) (image : Placement)
  | keyRotation (world key : Nat)
  | spaceIdBinding (id gen root world : Nat)
  | shootdown (space lo pages : Nat)
  | shootdownDrainDone (seq : Nat)
  | worldReset (world : Nat)
  | scrub (lo frames : Nat)
  | scrubReceipt (seq : Nat)
  | worldCreate (w : WorldSpec)
  | domainForm (world : Nat) (members groups : List Nat)
  | attestationReport (nonce world : Nat)
  | crashDump (flash : Bool)
  | debugRequest (world kind : Nat)
  | packageReset
  | dieReset (die : Nat)
  | snapctlWrite (v : Word)
  | snapPin
  | qosShareChange (world kind unit weight : Nat)
  | bankTransfer (cluster bank world logical : Nat)
  | sysTableWrite (w : SysWrite)
  | memoryFault (pa : Nat) (label : Bool)
  | instrSnapshotLatch
  deriving DecidableEq, Repr

end Sys2Proof
end

