-- ==== Sys2Proof/WellFormed.lean ====
section
/-! DEFINITION. Which instructions the encoding admits: the field values that no rule makes ILLOP (R78, R79, R83, R84,
R89, R91 and each entry of the instruction reference), the same in lane and in pilot code. What is illegal only in
pilot code (R80) or only by the place in the clause is checked when the instruction executes. -/

namespace Sys2Proof

/-- A source field of n 32-bit registers (R78, R79): registers aligned to n, or a latch, zero, dq or the literal. -/
def Fld.srcOk (n : Nat) (f : Fld) : Bool :=
  let k := f.toNat
  if k < 120 then k % n == 0 else k ≤ 123 || k == 126

/-- A destination field of n 32-bit registers (R78, R79): registers aligned to n, or a latch or zero. -/
def Fld.dstOk (n : Nat) (f : Fld) : Bool :=
  let k := f.toNat
  if k < 120 then k % n == 0 else k ≤ 122

/-- A field that must name n registers of the main or operand file or of the pilot's bank. -/
def Fld.regOk (n : Nat) (f : Fld) : Bool := f.toNat < 120 && f.toNat % n == 0

/-- A destination that is registers or zero, never a latch. -/
def Fld.regOrZero (n : Nat) (f : Fld) : Bool := f.regOk n || f.toNat == 122

def Fld.isLit (f : Fld) : Bool := f.toNat == 126

/-- A predicate number 0 to 23 (R84). -/
def predOk (p : BitVec 5) : Bool := p.toNat < 24

def BOp.ok (n : Nat) : BOp → Bool
  | .reg f => f.srcOk n
  | .imm _ => true
  | .sreg b => b.toNat % n == 0

def BOp.isLit : BOp → Bool
  | .reg f => f.isLit
  | _ => false

def BOp.isImm : BOp → Bool
  | .imm _ => true
  | _ => false

def BOp.isSreg : BOp → Bool
  | .sreg _ => true
  | _ => false

/-- 32-bit registers of one operand of the type (R78, R89). -/
def ITy.regs : ITy → Nat
  | .n32 | .i32 => 1
  | .n64 | .i64 => 2

def LTy.regs : LTy → Nat
  | .n32 => 1
  | .n64 => 2

def FTy.regs : FTy → Nat
  | .f64 => 2
  | _ => 1

def RTy.regs : RTy → Nat
  | .int t => t.regs
  | .f32 => 1
  | .f64 => 2

def Width.bytes : Width → Nat
  | .w8 | .s8 => 1
  | .w16 | .s16 => 2
  | .w32 => 4
  | .w64 => 8
  | .w128 => 16

def Width.regs : Width → Nat
  | .w64 => 2
  | .w128 => 4
  | _ => 1

def Width.signed : Width → Bool
  | .s8 | .s16 => true
  | _ => false

/-- Bytes of an ATOM's access (R342). -/
def AtomOp.bytes : AtomOp → Nat
  | .add64 | .mins64 | .maxs64 | .exch64 | .cas64 => 8
  | _ => 4

/-- Registers that D names for an ATOM: the operand, or expected and new (R342). -/
def AtomOp.regs : AtomOp → Nat
  | .cas32 => 2
  | .cas64 => 4
  | o => o.bytes / 4

def RedAt.bytes : RedAt → Nat
  | .and64 | .or64 | .add64 | .mins64 | .maxs64 | .xor64 => 8
  | _ => 4

/-- A two-source form whose D, A and B cover the given numbers of registers; `dsrc` when D is a source too (R83). -/
def Alu.ok {T : Type} (o : Alu T) (nd na nb : Nat) (dsrc : Bool := false) : Bool :=
  o.d.dstOk nd && o.a.srcOk na && o.b.ok nb && (o.lit.isSome == (o.a.isLit || o.b.isLit || (dsrc && o.d.isLit)))

def Un.ok {T : Type} (o : Un T) (nd nb : Nat) : Bool :=
  o.d.dstOk nd && o.b.ok nb && (o.lit.isSome == o.b.isLit)

def CmpOp.ok {T : Type} (o : CmpOp T) (n : Nat) : Bool :=
  predOk o.p && o.a.srcOk n && o.b.ok n && (o.lit.isSome == (o.a.isLit || o.b.isLit))

/-- The base of a memory form: an even register of the main or operand file or of the bank (R91). -/
def baseOk (a : Fld) : Bool := a.regOk 2

/-- Order and scope of a memory form: with plain order the scope field is .pkg (R235). -/
def MemOp.scopeOk {T : Type} (m : MemOp T) : Bool := m.order != .plain || m.scope == .pkg

def litIf (f : Fld) (l : Option Word) : Bool := l.isSome == f.isLit

/-- CVT's code (R368): widths in registers of the destination and the source, whether D is read, whether the source
may be an immediate, and whether the code with these element selects is legal. -/
structure CvtShape where
  nd : Nat
  nb : Nat
  dsrc : Bool
  imm : Bool
  legal : Bool
  deriving DecidableEq, Repr

/-- Elements per register of the narrow formats (R368). -/
def narrowCount (n : Nat) : Nat := if n < 4 then 4 else if n < 6 then 2 else if n == 6 then 8 else 0

def cvtShape (code : BitVec 7) (e : BitVec 2) : CvtShape :=
  let c := code.toNat
  if c < 64 then
    let t := c / 8
    let s := c % 8
    let packedT := 6 ≤ t
    let packedS := 6 ≤ s
    { nd := if t == 2 || t == 3 || t == 5 then 2 else 1
      nb := if s == 2 || s == 3 || s == 5 then 2 else 1
      dsrc := packedT
      imm := s < 2
      legal := (packedT || e.toNat / 2 == 0) && (packedS || e.toNat % 2 == 0) }
  else
    let n := (c / 4) % 8
    let toF := (c / 32) % 2 == 1
    let el := 4 * (c % 2) + e.toNat
    { nd := 1, nb := 1, dsrc := !toF, imm := false
      legal := (c / 2) % 2 == 0 && el < narrowCount n && !(toF && n == 6) }

/-- FSF's functions on .f64: sqrt only (R389). -/
def fsfOk (fn : SFn) (t : FTy) : Bool := t != .f64 || fn == .sqrt

def RedOp.isLogic : RedOp → Bool
  | .and | .or | .xor => true
  | _ => false

def rdxOk (op : RedOp) : RTy → Bool
  | .int _ => true
  | _ => !op.isLogic

/-- Registers of an MMA operand (R169, R409). -/
def MFmt.regs : MFmt → Nat
  | .f32 | .c32 => 4
  | _ => 8

/-- A lathe base field ÷ 4 of n registers (R409). -/
def latheBase (n : Nat) (b : BitVec 5) : Bool := b.toNat < 30 && (4 * b.toNat) % n == 0

/-- Scale registers of the .q4 control literal (R410). -/
def q4LitOk (w : Word) : Bool := w.toNat / 2 ^ 25 < 120 && (w.toNat / 2 ^ 16) % 128 < 120

def LdForm.regs : LdForm → Nat
  | .c32rnd => 4
  | _ => 8

def StForm.regs : StForm → Nat
  | .f32 | .c32 => 8
  | _ => 4

def PmovOp.ok : PmovOp → Bool
  | .toReg d p => d.dstOk 1 && predOk p
  | .toPred p b l => predOk p && b.srcOk 1 && litIf b l
  | .save d => d.dstOk 1
  | .load b l => b.srcOk 1 && litIf b l

def VoteOp.ok : VoteOp → Bool
  | .all p | .any p | .eq p => predOk p
  | .ballot d => d.dstOk 1

/-- The numbers of R103's table. -/
def srKnown (n : Nat) : Bool := n ≤ 0x11 || (0x20 ≤ n && n ≤ 0x27)

/-- The special registers that R103 lists as 64 bits wide. -/
def srWide (n : Nat) : Bool :=
  n == 0x04 || n == 0x05 || n == 0x0B || n == 0x11 || n == 0x21 || n == 0x22 || n == 0x25 || n == 0x27

def LgetSrc.ok (l : Option Word) : LgetSrc → Bool
  | .one b => b.ok 1 && !b.isImm && l.isSome == b.isLit
  | .pair b => b.ok 2 && !b.isImm && l.isSome == b.isLit
  | .pred p => predOk p && l.isNone

/-- Widths of a FIFO access (R386). -/
def Width.fifoOk : Width → Bool
  | .w32 | .w64 | .w128 => true
  | _ => false

def optLit (need : Bool) (l : Option Word) : Bool := l.isSome == need

/-- An instruction that the encoding admits. Events are always well formed: they have no encoding. -/
def Instr.wf : Instr → Bool
  | .add o | .isub o | .imul o | .imin o | .imax o => o.ok o.ty.regs o.ty.regs o.ty.regs
  | .imad o => o.ok o.ty.regs o.ty.regs o.ty.regs true
  | .addc o => o.ok 2 1 1 && o.d.toNat ≤ 118
  | .iabs w o => o.ok (if w then 2 else 1) (if w then 2 else 1)
  | .cmp o => o.ok o.ty.regs
  | .lea o => o.ok 2 2 1 && o.d.toNat % 2 == 0 && o.a.toNat % 2 == 0
  | .mov o =>
    (if o.b.isSreg then o.d.dstOk o.ty.regs && o.a.srcOk o.ty.regs && o.b.ok o.ty.regs && litIf o.a o.lit
     else o.a.toNat == 0 && o.d.dstOk o.ty.regs && o.b.ok o.ty.regs && o.lit.isSome == o.b.isLit)
  | .movl ty d _ => d.dstOk ty.regs
  | .and o | .andn o | .or o | .xor o => o.ok o.ty.regs o.ty.regs o.ty.regs
  | .shl o | .shr o | .sar o | .rol o => o.ok o.ty.regs o.ty.regs 1
  | .bfx o => o.ok o.ty.regs o.ty.regs 1
  | .bfi o => o.ok o.ty.regs o.ty.regs 1 true
  | .popc o | .clz o | .brev o => o.ok o.ty.regs o.ty.regs
  | .prmb o => o.ok 1 2 1
  | .fadd o | .fmul o | .fmin o | .fmax o => o.ok o.ty.regs o.ty.regs o.ty.regs
  | .ffma o => o.ok o.ty.regs o.ty.regs o.ty.regs true
  | .fcmp o => o.ok (if o.ty then 2 else 1)
  | .fsf fn o => o.ok o.ty.regs o.ty.regs && fsfOk fn o.ty
  | .frnd _ o => o.ok o.ty.regs o.ty.regs
  | .twosum o | .twoprd o => o.ok 2 1 1 && o.d.toNat < 120
  | .cfma d a b => d.regOk 2 && a.regOk 2 && b.regOrZero 2
  | .cvt c e o =>
    let s := cvtShape c e
    s.legal && (!o.b.isImm || s.imm) && o.d.dstOk s.nd && o.b.ok s.nb
      && o.lit.isSome == (o.b.isLit || (s.dsrc && o.d.isLit))
  | .qpack d a b _ => d.dstOk 1 && a.srcOk 8 && !a.isLit && b.srcOk 1 && b.toNat < 123
  | .qunpk d a b _ _ l => d.dstOk 2 && a.srcOk 1 && b.srcOk 1 && b.toNat < 123 && litIf a l
  | .mfsr d n => srKnown n.toNat && (d.toNat < 120 || d.toNat == 122) && !(srWide n.toNat && d.toNat % 2 == 1)
  | .mtsr a n l =>
    srKnown n.toNat && (if srWide n.toNat then a.srcOk 2 else a.srcOk 1) && a.toNat != 123 && litIf a l
  | .time d _ => d.regOrZero 2
  | .sel _ p o =>
    predOk p && o.d.dstOk o.ty.regs && o.b.ok o.ty.regs && o.lit.isSome == (o.b.isLit || o.d.isLit)
  | .plop a b c _ => predOk a && predOk b && predOk c
  | .pmov op => op.ok
  | .shfl o => o.ok 1 1 1
  | .vote op _ p => op.ok && predOk p
  | .rdx op ty d b l => rdxOk op ty && d.dstOk ty.regs && b.srcOk ty.regs && litIf b l
  | .scan _ op ty d b l => rdxOk op ty && d.dstOk ty.regs && b.srcOk ty.regs && litIf b l
  | .brc _ p _ => predOk p
  | .jmpi a | .ret a => a.regOk 2
  | .call d _ => d.regOrZero 2
  | .reform b l => b.ok 1 && l.isSome == b.isLit
  | .launch a _ l | .cont a _ l => a.srcOk 2 && litIf a l
  | .dqpush b _ l => b.ok 1 && !b.isSreg && (match b with | .reg f => !(112 ≤ f.toNat && f.toNat ≤ 121) | _ => true)
      && l.isSome == b.isLit
  | .dqpop d => d.regOrZero 1
  | .ld m => m.d.regOrZero m.x.regs && baseOk m.a && m.scopeOk && m.order != .rel && m.lit.isNone
  | .st m => m.d.srcOk m.x.regs && !(m.d.isLit && m.x == .w128) && !m.x.signed && baseOk m.a && m.scopeOk
      && m.order != .acq && litIf m.d m.lit
  | .lds w m => m.d.regOrZero w.regs && baseOk m.a && m.lit.isNone
  | .sts w m => m.d.srcOk w.regs && !(m.d.isLit && w == .w128) && !w.signed && baseOk m.a && litIf m.d m.lit
  | .fpush w m => m.d.regOk w.regs && w.fifoOk && baseOk m.a && m.lit.isNone
  | .fpop w m => m.d.regOrZero w.regs && w.fifoOk && baseOk m.a && m.lit.isNone
  | .bank t _ _ => match t with | some p => predOk p | none => true
  | .disc m => m.d.regOk 1 && baseOk m.a && m.lit.isNone
  | .arm m | .await m => m.d.srcOk 1 && baseOk m.a && litIf m.d m.lit
  | .atom m => m.d.regOk m.x.regs && baseOk m.a && m.scopeOk && m.lit.isNone
  | .atomx m =>
    m.d.regOk 4 && (m.x == .exch || (m.d.toNat + 8 ≤ 112 || (112 ≤ m.d.toNat && m.d.toNat + 8 ≤ 120)))
      && baseOk m.a && m.scopeOk && m.lit.isNone
  | .red m => m.d.regOrZero (m.x.bytes / 4) && baseOk m.a && m.scopeOk && (m.order == .plain || m.order == .rel)
      && m.lit.isNone
  | .lget d s l => d.dstOk 1 && s.ok l
  | .ljoin w o => o.ok (if w then 2 else 1) (if w then 2 else 1) 1 && !o.b.isImm
  | .lceil b l => b.ok 1 && !b.isImm && l.isSome == b.isLit
  | .endo a => a.regOk 4
  | .decl w o => o.ok (if w then 2 else 1) (if w then 2 else 1) 1 && o.d.toNat < 120 && o.a.toNat < 123 && !o.b.isImm
      && (!w || (o.d.toNat % 2 == 0 && o.a.toNat % 2 == 0))
  | .mma f _ _ a b l => latheBase f.regs a && latheBase f.regs b
      && (match l with | some w => f == .q4 && q4LitOk w | none => f != .q4)
  | .mmasp _ _ _ _ a b => latheBase 4 a && latheBase 8 b
  | .accld f _ a _ => a.regOk f.regs || a.toNat == 122
  | .accst f d _ _ => d.regOk f.regs
  | .jwait f => f.toNat < 12
  | .tide d => d.regOrZero 2
  | .cpy a _ l | .xperm a _ l | .coll _ a _ l => a.srcOk 2 && litIf a l
  | .cpym a b _ l => a.srcOk 2 && b.srcOk 2 && l.isSome == (a.isLit || b.isLit)
  | .recBegin _ a b l => a.srcOk 2 && b.srcOk 1 && l.isSome == (a.isLit || b.isLit)
  | .recPlay _ b l => b.srcOk 1 && litIf b l
  | .recq d _ => d.regOrZero 4
  | _ => true

/-- The well-formed instructions, as a proposition. -/
abbrev Instr.WellFormed (i : Instr) : Prop := i.wf = true

end Sys2Proof
end

