-- ==== Sys2Proof/Decode.lean ====
section
/-! DEFINITION. Decoding and encoding of instruction words (R87 to R94, R102 and each entry's encoding table). The
decoder is total on any list of words and rejects by name, in the order of R104's steps 1 to 3. -/

namespace Sys2Proof

/-- Why a word is not an instruction; every one of these is ILLOP when the word executes (R104). -/
inductive DecodeErr where
  /-- R104 step 1: an unassigned major opcode, or major 0x00 with a non-zero field. -/
  | unassigned
  /-- R104 step 2: a reserved minor, type or order. -/
  | minor
  /-- R104 step 3: a reserved or misaligned register field, a predicate field of 24 to 31, or a reserved bit. -/
  | field
  /-- The words end before the instruction's literals; a clause with such an end fails R96 before it issues. -/
  | truncated
  deriving DecidableEq, Repr

/-- The fields of an instruction word (R87). -/
structure Raw where
  d     : BitVec 7
  a     : BitVec 7
  b     : BitVec 7
  major : BitVec 7
  minor : BitVec 4
  deriving DecidableEq, Repr

def Raw.ofWord (w : Word) : Raw :=
  { d := w.extractLsb' 25 7, a := w.extractLsb' 18 7, b := w.extractLsb' 11 7
    major := w.extractLsb' 4 7, minor := w.extractLsb' 0 4 }

def Raw.toWord (r : Raw) : Word := r.d ++ r.a ++ r.b ++ r.major ++ r.minor

/-- minor[3] and minor[2] of an ALU form (R89). -/
def Raw.imm (r : Raw) : Bool := r.minor.getLsbD 3
def Raw.sreg (r : Raw) : Bool := r.minor.getLsbD 2
/-- minor[1:0]. -/
def Raw.m2 (r : Raw) : BitVec 2 := r.minor.extractLsb' 0 2
def Raw.m3 (r : Raw) : BitVec 3 := r.minor.extractLsb' 0 3
/-- A:B as 14 bits, A high. -/
def Raw.ab (r : Raw) : BitVec 14 := r.a ++ r.b

def Raw.bReg (r : Raw) : Bool := !r.imm && !r.sreg

/-- Whether the instruction's operand literal follows it: some field that names a source operand holds 126, or the word
is an MMA of format .q4 (R83, R410). -/
def Raw.opLit (r : Raw) : Bool :=
  let a := Fld.isLit r.a
  let b := Fld.isLit r.b
  let d := Fld.isLit r.d
  let br := r.bReg && b
  match r.major.toNat with
  | 0x01 | 0x02 | 0x03 | 0x04 | 0x07 | 0x08 | 0x09 | 0x0A | 0x10 | 0x11 | 0x12 | 0x13 | 0x14 | 0x15 | 0x16 | 0x17
  | 0x18 | 0x1D | 0x20 | 0x21 | 0x23 | 0x24 | 0x25 | 0x28 | 0x29 | 0x3B => a || br
  | 0x05 | 0x19 | 0x22 => a || br || d
  | 0x06 | 0x1A | 0x1B | 0x1C | 0x26 | 0x27 | 0x46 | 0x4D | 0x6A => br
  | 0x0B => br || (r.sreg && !r.imm && a)
  | 0x2A => a || b || d
  | 0x2B => br || ((cvtShape r.a r.m2).dsrc && d)
  | 0x2C | 0x2D => a || b
  | 0x33 | 0x43 | 0x45 | 0x4B | 0x4C | 0x50 | 0x52 | 0x55 | 0x6B | 0x72 | 0x78 | 0x7A | 0x7B => a
  | 0x38 => br || d
  | 0x3A => (r.minor == 1 || r.minor == 3) && b
  | 0x3D | 0x3E => b
  | 0x51 | 0x53 | 0x54 | 0x59 | 0x5A | 0x5B | 0x60 | 0x61 | 0x62 => a || d
  | 0x68 => br && r.m2.toNat < 2
  | 0x69 | 0x6C => a || br
  | 0x70 => r.m3 == 4
  | 0x79 => a || b
  | 0x7C => (r.m2 == 0 && (a || b)) || (r.m2 == 2 && b)
  | _ => false

/-- Whether an offset literal follows: a memory form with B[2] = 1, or a branch with minor[3] = 1 (R83). -/
def Raw.offLit (r : Raw) : Bool :=
  match r.major.toNat with
  | 0x50 | 0x51 | 0x52 | 0x53 | 0x54 | 0x55 | 0x59 | 0x5A | 0x5B | 0x60 | 0x61 | 0x62 => r.b.getLsbD 2
  | 0x41 | 0x42 | 0x44 => r.imm
  | _ => false

/-- Words of the instruction, its literals included (R83). -/
def Raw.size (r : Raw) : Nat := 1 + r.opLit.toNat + r.offLit.toNat

/-- The assigned major opcodes (R102), 0x00 apart. -/
def majorAssigned (m : Nat) : Bool :=
  (0x01 ≤ m && m ≤ 0x0C) || (0x10 ≤ m && m ≤ 0x1D) || (0x20 ≤ m && m ≤ 0x2D) || (0x30 ≤ m && m ≤ 0x36)
    || (0x38 ≤ m && m ≤ 0x3E) || (0x40 ≤ m && m ≤ 0x5D) || (0x60 ≤ m && m ≤ 0x64) || (0x68 ≤ m && m ≤ 0x6C)
    || (0x70 ≤ m && m ≤ 0x76) || (0x78 ≤ m && m ≤ 0x7D)

/-! ### Field readers -/

def iTy (m : BitVec 2) : ITy :=
  match m.toNat with
  | 0 => .n32
  | 1 => .i32
  | 2 => .n64
  | _ => .i64

def lTy (m : BitVec 2) : Option LTy :=
  match m.toNat with
  | 0 => some .n32
  | 2 => some .n64
  | _ => none

def fTy (m : BitVec 2) : FTy :=
  match m.toNat with
  | 0 => .f32
  | 1 => .f64
  | 2 => .h16
  | _ => .b16

/-- B of an ALU form; none when minor[3] and minor[2] are both set (R89). -/
def Raw.bop (r : Raw) : Option BOp :=
  if r.imm then (if r.sreg then none else some (.imm r.b)) else some (if r.sreg then .sreg r.b else .reg r.b)

def cond4 (c : BitVec 2) : Cond :=
  match c.toNat with
  | 0 => .eq
  | 1 => .ne
  | 2 => .lt
  | _ => .ge

def policy3 (p : BitVec 2) : Option Policy :=
  match p.toNat with
  | 0 => some .cc
  | 1 => some .l2
  | 2 => some .st
  | _ => none

def order4 (o : BitVec 2) : MemOrder :=
  match o.toNat with
  | 0 => .plain
  | 1 => .acq
  | 2 => .rel
  | _ => .acqrel

def scope3 (s : BitVec 2) : Option Scope :=
  match s.toNat with
  | 0 => some .pkg
  | 1 => some .team
  | 2 => some .thread
  | _ => none

def width7 (m : BitVec 4) : Option Width :=
  match m.toNat with
  | 0 => some .w8
  | 1 => some .w16
  | 2 => some .w32
  | 3 => some .w64
  | 4 => some .w128
  | 8 => some .s8
  | 9 => some .s16
  | _ => none

def atomOp (m : BitVec 4) : AtomOp :=
  match m.toNat with
  | 0 => .add32 | 1 => .mins32 | 2 => .minn32 | 3 => .maxs32 | 4 => .maxn32 | 5 => .and32 | 6 => .or32 | 7 => .xor32
  | 8 => .exch32 | 9 => .cas32 | 10 => .addf32 | 11 => .add64 | 12 => .mins64 | 13 => .maxs64 | 14 => .exch64
  | _ => .cas64

def redAt (m : BitVec 4) : Option RedAt :=
  match m.toNat with
  | 0 => some .add32 | 1 => some .mins32 | 2 => some .minn32 | 3 => some .maxs32 | 4 => some .maxn32
  | 5 => some .and32 | 6 => some .or32 | 7 => some .xor32 | 8 => some .and64 | 9 => some .or64 | 10 => some .addf32
  | 11 => some .add64 | 12 => some .mins64 | 13 => some .maxs64 | 14 => some .xor64
  | _ => none

def redOp (m : BitVec 3) : Option RedOp :=
  match m.toNat with
  | 0 => some .add | 1 => some .min | 2 => some .max | 3 => some .and | 4 => some .or | 5 => some .xor
  | _ => none

def sFn (m : BitVec 3) : Option SFn :=
  match m.toNat with
  | 0 => some .rcp | 1 => some .rsq | 2 => some .sqrt | 3 => some .ex2 | 4 => some .lg2 | 5 => some .sin | 6 => some .cos
  | _ => none

def rDir (m : BitVec 3) : Option RDir :=
  match m.toNat with
  | 0 => some .rm | 1 => some .rne | 2 => some .rtz | 3 => some .rdn | 4 => some .rup | 5 => some .rna
  | _ => none

def mFmt (m : BitVec 3) : Option MFmt :=
  match m.toNat with
  | 0 => some .b16 | 1 => some .h16 | 2 => some .e4m3 | 3 => some .e5m2 | 4 => some .q4 | 5 => some .f32 | 6 => some .c32
  | _ => none

def sFmt (m : BitVec 2) : SFmt :=
  match m.toNat with
  | 0 => .b16 | 1 => .h16 | 2 => .e4m3
  | _ => .e5m2

def shMode (m : BitVec 2) : ShMode :=
  match m.toNat with
  | 0 => .idx | 1 => .up | 2 => .down
  | _ => .xor

def rTy (f : Bool) (m : BitVec 2) : Option RTy :=
  if f then (match m.toNat with | 0 => some .f32 | 1 => some .f64 | _ => none) else some (.int (iTy m))

def bankMode (m : BitVec 2) : Option BankMode :=
  match m.toNat with
  | 0 => some .cache | 1 => some .pad | 2 => some .fifo
  | _ => none

def barScope (m : BitVec 2) : Option BarScope :=
  match m.toNat with
  | 0 => some .team | 1 => some .die | 2 => some .pkg
  | _ => none

def ldForm (m : BitVec 4) : Option LdForm :=
  match m.toNat with
  | 0 => some .f32 | 1 => some .c32 | 2 => some .c32rnd
  | _ => none

def stForm (m : BitVec 4) : Option StForm :=
  match m.toNat with
  | 0 => some .f32 | 1 => some .b16 | 2 => some .h16 | 3 => some .c32 | 4 => some .c32rnd
  | _ => none

/-! ### Building an instruction from its fields -/

/-- The low 5 and the high 2 bits of a 7-bit field. -/
def lo5 (f : BitVec 7) : BitVec 5 := f.extractLsb' 0 5
def hi2 (f : BitVec 7) : BitVec 2 := f.extractLsb' 5 2

abbrev Built := Except DecodeErr Instr

def needZero (c : Bool) (k : Built) : Built := if c then k else .error .field

def alu (r : Raw) (l : Option Word) {T : Type} (ty : Option T) (k : Alu T → Instr) : Built :=
  match ty, r.bop with
  | some t, some b => .ok (k { ty := t, d := r.d, a := r.a, b := b, lit := l })
  | _, _ => .error .minor

def un (r : Raw) (l : Option Word) {T : Type} (ty : Option T) (k : Un T → Instr) : Built :=
  match ty, r.bop with
  | some t, some b => .ok (k { ty := t, d := r.d, b := b, lit := l })
  | _, _ => .error .minor

/-- A single-source form requires A = 0 (R89). -/
def un0 (r : Raw) (l : Option Word) {T : Type} (ty : Option T) (k : Un T → Instr) : Built :=
  match un r l ty k with
  | .ok i => needZero (r.a == 0) (.ok i)
  | e => e

def cmpOp (r : Raw) (l : Option Word) {T : Type} (ty : Option T) (k : CmpOp T → Instr) : Built :=
  match ty, r.bop with
  | some t, some b => .ok (k { ty := t, c := cond4 (hi2 r.d), p := lo5 r.d, a := r.a, b := b, lit := l })
  | _, _ => .error .minor

/-- A type that must be minor[1:0] = 0b00. -/
def only0 (r : Raw) : Option Unit := if r.m2 == 0 then some () else none

def memOp (r : Raw) (l o : Option Word) {T : Type} (x : Option T) (k : MemOp T → Instr) : Built :=
  match x, scope3 (r.b.extractLsb' 0 2) with
  | some x, some s =>
    (match policy3 (hi2 r.b) with
     | some p => .ok (k { x := x, d := r.d, a := r.a, policy := p, order := order4 (r.b.extractLsb' 3 2), scope := s,
                          lit := l, off := o })
     | none => .error .field)
  | _, _ => .error .minor

/-- A scratchpad form: B[6:3] and B[1:0] are 0. -/
def padOp (r : Raw) (l o : Option Word) (k : PadOp → Instr) : Built :=
  needZero (r.b.extractLsb' 3 4 == 0 && r.b.extractLsb' 0 2 == 0) (.ok (k { d := r.d, a := r.a, lit := l, off := o }))

def minor0 (r : Raw) (k : Built) : Built := if r.minor == 0 then k else .error .minor

/-- The word offset of BRC, BDQ and CALL (R92): minor[2:0] is 0, and A and B are 0 in the literal form. -/
def brOff (r : Raw) (o : Option Word) (k : BrOff → Instr) : Built :=
  if r.m3 != 0 then .error .minor
  else match o with
    | some w => needZero (r.ab == 0) (.ok (k (.long w)))
    | none => .ok (k (.short r.ab))

/-- A word whose only non-zero field is its major opcode. -/
def bare (r : Raw) (k : Instr) : Built :=
  if r.minor != 0 then .error .minor else needZero (r.d == 0 && r.a == 0 && r.b == 0) (.ok k)

/-- A job instruction: B = 0 and minor[0] is .rel (R359, R364, R465). -/
def jobOp (r : Raw) (k : Bool → Instr) : Built :=
  if r.minor.extractLsb' 1 3 != 0 then .error .minor else .ok (k (r.minor.getLsbD 0))

/-- The instruction that the fields, the operand literal and the offset literal make, before the checks of
`Instr.wf`. -/
def build (r : Raw) (l o : Option Word) : Built :=
  match r.major.toNat with
  | 0x00 => if r.d == 0 && r.a == 0 && r.b == 0 && r.minor == 0 then .ok .nop else .error .unassigned
  | 0x01 => alu r l (some (iTy r.m2)) .add
  | 0x02 => alu r l (only0 r) .addc
  | 0x03 => alu r l (some (iTy r.m2)) .isub
  | 0x04 => alu r l (some (iTy r.m2)) .imul
  | 0x05 => alu r l (some (iTy r.m2)) .imad
  | 0x06 => if r.minor.getLsbD 0 then un0 r l (some ()) (.iabs (r.minor.getLsbD 1)) else .error .minor
  | 0x07 => alu r l (some (iTy r.m2)) .imin
  | 0x08 => alu r l (some (iTy r.m2)) .imax
  | 0x09 => cmpOp r l (some (iTy r.m2)) .cmp
  | 0x0A => alu r l (some r.m2) .lea
  | 0x0B => alu r l (some (iTy r.m2)) .mov
  | 0x0C => if r.minor.extractLsb' 2 2 == 0 then .ok (.movl (iTy r.m2) r.d r.ab) else .error .minor
  | 0x10 => alu r l (lTy r.m2) .and
  | 0x11 => alu r l (lTy r.m2) .andn
  | 0x12 => alu r l (lTy r.m2) .or
  | 0x13 => alu r l (lTy r.m2) .xor
  | 0x14 => alu r l (lTy r.m2) .shl
  | 0x15 => alu r l (lTy r.m2) .shr
  | 0x16 => alu r l (lTy r.m2) .sar
  | 0x17 => alu r l (lTy r.m2) .rol
  | 0x18 => alu r l (some (iTy r.m2)) .bfx
  | 0x19 => alu r l (lTy r.m2) .bfi
  | 0x1A => un0 r l (lTy r.m2) .popc
  | 0x1B => un0 r l (lTy r.m2) .clz
  | 0x1C => un0 r l (lTy r.m2) .brev
  | 0x1D => alu r l (only0 r) .prmb
  | 0x20 => alu r l (some (fTy r.m2)) .fadd
  | 0x21 => alu r l (some (fTy r.m2)) .fmul
  | 0x22 => alu r l (some (fTy r.m2)) .ffma
  | 0x23 => alu r l (some (fTy r.m2)) .fmin
  | 0x24 => alu r l (some (fTy r.m2)) .fmax
  | 0x25 => cmpOp r l (if r.minor.getLsbD 1 then none else some (r.minor.getLsbD 0)) .fcmp
  | 0x26 =>
    (match sFn (r.a.extractLsb' 0 3) with
     | some f => needZero (r.a.extractLsb' 3 4 == 0) (un r l (some (fTy r.m2)) (.fsf f))
     | none => .error .field)
  | 0x27 =>
    (match rDir (r.a.extractLsb' 0 3) with
     | some f => needZero (r.a.extractLsb' 3 4 == 0) (un r l (some (fTy r.m2)) (.frnd f))
     | none => .error .field)
  | 0x28 => alu r l (only0 r) .twosum
  | 0x29 => alu r l (only0 r) .twoprd
  | 0x2A => minor0 r (.ok (.cfma r.d r.a r.b))
  | 0x2B => un r l (some ()) (.cvt r.a r.m2)
  | 0x2C => if r.minor.extractLsb' 2 2 == 0 then .ok (.qpack r.d r.a r.b r.m2) else .error .minor
  | 0x2D => .ok (.qunpk r.d r.a r.b (r.minor.extractLsb' 2 2) r.m2 l)
  | 0x30 => minor0 r (needZero (r.d == 0 && r.a == 0) (.ok (.trap r.b)))
  | 0x31 =>
    (match r.minor.toNat with
     | 0 => needZero (r.d == 0 && r.a == 0 && r.b == 0) (.ok .eretResume)
     | 1 => needZero (r.d == 0 && r.a == 0 && r.b == 0) (.ok .eretRestart)
     | 2 => needZero (r.d == 0 && r.a == 0 && r.b == 0) (.ok .eretSkip)
     | _ => .error .minor)
  | 0x32 => minor0 r (needZero (r.a == 0) (.ok (.mfsr r.d r.b)))
  | 0x33 => minor0 r (needZero (r.d == 0) (.ok (.mtsr r.a r.b l)))
  | 0x34 => minor0 r (needZero (r.d == 0 && r.a == 0) (.ok (.bkpt r.b)))
  | 0x35 => bare r .snap
  | 0x36 =>
    if r.minor.extractLsb' 1 3 != 0 then .error .minor
    else needZero (r.a == 0 && r.b == 0) (.ok (.time r.d (r.minor.getLsbD 0)))
  | 0x38 =>
    needZero (!r.a.getLsbD 6) (un r l (lTy r.m2) (.sel (r.a.getLsbD 5) (lo5 r.a)))
  | 0x39 =>
    needZero (hi2 r.d == 0 && hi2 r.a == 0 && hi2 r.b == 0) (.ok (.plop (lo5 r.d) (lo5 r.a) (lo5 r.b) r.minor))
  | 0x3A =>
    (match r.minor.toNat with
     | 0 => needZero (r.a == 0 && hi2 r.b == 0) (.ok (.pmov (.toReg r.d (lo5 r.b))))
     | 1 => needZero (r.a == 0 && hi2 r.d == 0) (.ok (.pmov (.toPred (lo5 r.d) r.b l)))
     | 2 => needZero (r.a == 0 && r.b == 0) (.ok (.pmov (.save r.d)))
     | 3 => needZero (r.a == 0 && r.d == 0) (.ok (.pmov (.load r.b l)))
     | _ => .error .minor)
  | 0x3B => alu r l (some (shMode r.m2)) .shfl
  | 0x3C =>
    if r.minor.extractLsb' 2 2 != 0 then .error .minor
    else
      let s := r.b.getLsbD 5
      let p := lo5 r.b
      needZero (r.a == 0 && !r.b.getLsbD 6)
        (match r.m2.toNat with
         | 0 => needZero (hi2 r.d == 0) (.ok (.vote (.all (lo5 r.d)) s p))
         | 1 => needZero (hi2 r.d == 0) (.ok (.vote (.any (lo5 r.d)) s p))
         | 2 => needZero (hi2 r.d == 0) (.ok (.vote (.eq (lo5 r.d)) s p))
         | _ => .ok (.vote (.ballot r.d) s p))
  | 0x3D =>
    (match rTy r.imm r.m2, r.sreg with
     | some t, false =>
       (match redOp (r.a.extractLsb' 0 3) with
        | some op => needZero (r.a.extractLsb' 3 4 == 0) (.ok (.rdx op t r.d r.b l))
        | none => .error .field)
     | _, _ => .error .minor)
  | 0x3E =>
    (match rTy r.imm r.m2, r.sreg with
     | some t, false =>
       (match redOp (r.a.extractLsb' 0 3) with
        | some op => needZero (r.a.extractLsb' 4 3 == 0) (.ok (.scan (r.a.getLsbD 3) op t r.d r.b l))
        | none => .error .field)
     | _, _ => .error .minor)
  | 0x40 => minor0 r (.ok (.bra (r.d ++ r.a ++ r.b)))
  | 0x41 => needZero (!r.d.getLsbD 6) (brOff r o (.brc (r.d.getLsbD 5) (lo5 r.d)))
  | 0x42 => needZero (!r.d.getLsbD 6 && lo5 r.d == 0) (brOff r o (.bdq (r.d.getLsbD 5)))
  | 0x43 => minor0 r (needZero (r.d == 0 && r.b == 0) (.ok (.jmpi r.a)))
  | 0x44 => brOff r o (.call r.d)
  | 0x45 => minor0 r (needZero (r.d == 0 && r.b == 0) (.ok (.ret r.a)))
  | 0x46 =>
    (match only0 r, r.bop with
     | some _, some b => needZero (r.d == 0 && r.a == 0) (.ok (.reform b l))
     | _, _ => .error .minor)
  | 0x47 => bare r .exit
  | 0x48 =>
    (match r.minor.toNat with
     | 0 => needZero (r.d == 0 && r.a == 0 && r.b == 0) (.ok .killTeam)
     | 1 => needZero (r.d == 0 && r.a == 0 && r.b == 0) (.ok .killGrid)
     | _ => .error .minor)
  | 0x49 => bare r .yield
  | 0x4A =>
    (match barScope r.m2, r.imm with
     | some s, false => needZero (r.d == 0 && r.a == 0 && r.b == 0) (.ok (.bar r.sreg s))
     | _, _ => .error .minor)
  | 0x4B => minor0 r (needZero (r.d == 0 && r.b.extractLsb' 4 3 == 0) (.ok (.launch r.a (r.b.extractLsb' 0 4) l)))
  | 0x4C => minor0 r (needZero (r.d == 0 && r.b.extractLsb' 4 3 == 0) (.ok (.cont r.a (r.b.extractLsb' 0 4) l)))
  | 0x4D =>
    if r.sreg || r.minor.getLsbD 1 then .error .minor
    else needZero (r.d == 0 && r.a == 0)
      (.ok (.dqpush (if r.imm then .imm r.b else .reg r.b) (r.minor.getLsbD 0) l))
  | 0x4E => minor0 r (needZero (r.a == 0 && r.b == 0) (.ok (.dqpop r.d)))
  | 0x4F =>
    minor0 r (needZero (r.d == 0 && r.a == 0 && r.b.extractLsb' 0 3 == 0) (.ok (.winb (r.b.extractLsb' 3 4))))
  | 0x50 => memOp r l o (width7 r.minor) .ld
  | 0x51 => memOp r l o (width7 r.minor) .st
  | 0x52 => (match width7 r.minor with | some w => padOp r l o (.lds w) | none => .error .minor)
  | 0x53 => (match width7 r.minor with | some w => padOp r l o (.sts w) | none => .error .minor)
  | 0x54 => (match width7 r.minor with | some w => padOp r l o (.fpush w) | none => .error .minor)
  | 0x55 => (match width7 r.minor with | some w => padOp r l o (.fpop w) | none => .error .minor)
  | 0x56 =>
    (match bankMode r.m2, r.imm with
     | some m, false =>
       needZero (hi2 r.d == 0 && hi2 r.a == 0 && r.b == 0 && (r.sreg || lo5 r.d == 0))
         (.ok (.bank (if r.sreg then some (lo5 r.d) else none) (lo5 r.a) m))
     | _, _ => .error .minor)
  | 0x57 =>
    (match scope3 r.m2 with
     | some s => if r.minor.extractLsb' 2 2 != 0 then .error .minor
                 else needZero (r.d == 0 && r.a == 0 && r.b == 0) (.ok (.fence s))
     | none => .error .minor)
  | 0x58 => bare r .tlfence
  | 0x59 => minor0 r (padOp r l o .disc)
  | 0x5A => minor0 r (padOp r l o .arm)
  | 0x5B => minor0 r (padOp r l o .await)
  | 0x5C => bare r .xacq
  | 0x5D => bare r .xrel
  | 0x60 => memOp r l o (some (atomOp r.minor)) .atom
  | 0x61 => memOp r l o (match r.minor.toNat with | 0 => some AtomxOp.cas | 1 => some .exch | _ => none) .atomx
  | 0x62 => memOp r l o (redAt r.minor) .red
  | 0x63 => bare r .rgn
  | 0x64 => bare r .rgnc
  | 0x68 =>
    if r.imm then .error .minor
    else needZero (r.a == 0)
      (match r.m2.toNat with
       | 0 => .ok (.lget r.d (.one (if r.sreg then .sreg r.b else .reg r.b)) l)
       | 1 => .ok (.lget r.d (.pair (if r.sreg then .sreg r.b else .reg r.b)) l)
       | 2 => if r.sreg then .error .minor else needZero (hi2 r.b == 0) (.ok (.lget r.d (.pred (lo5 r.b)) l))
       | _ => .error .minor)
  | 0x69 =>
    if r.imm || r.minor.getLsbD 1 then .error .minor
    else alu r l (some ()) (.ljoin (r.minor.getLsbD 0))
  | 0x6A =>
    if r.imm || r.m2 != 0 then .error .minor
    else needZero (r.d == 0 && r.a == 0) (.ok (.lceil (if r.sreg then .sreg r.b else .reg r.b) l))
  | 0x6B => minor0 r (needZero (r.d == 0 && r.b == 0) (.ok (.endo r.a)))
  | 0x6C =>
    if r.imm || r.minor.getLsbD 1 then .error .minor
    else alu r l (some ()) (.decl (r.minor.getLsbD 0))
  | 0x70 =>
    (match mFmt r.m3, r.imm with
     | some f, false =>
       needZero (!r.d.getLsbD 6) (.ok (.mma f (r.d.extractLsb' 0 6) (hi2 r.a ++ hi2 r.b) (lo5 r.a) (lo5 r.b) l))
     | _, _ => .error .minor)
  | 0x71 =>
    needZero (!r.d.getLsbD 6)
      (.ok (.mmasp (sFmt r.m2) (r.minor.extractLsb' 2 2) (r.d.extractLsb' 0 6) (hi2 r.a ++ hi2 r.b) (lo5 r.a) (lo5 r.b)))
  | 0x72 =>
    (match ldForm r.minor with
     | some f => needZero (!r.d.getLsbD 6 && r.b.extractLsb' 4 3 == 0)
         (.ok (.accld f (r.d.extractLsb' 0 6) r.a (r.b.extractLsb' 0 4)))
     | none => .error .minor)
  | 0x73 =>
    (match stForm r.minor with
     | some f => needZero (!r.a.getLsbD 6 && r.b.extractLsb' 4 3 == 0)
         (.ok (.accst f r.d (r.a.extractLsb' 0 6) (r.b.extractLsb' 0 4)))
     | none => .error .minor)
  | 0x74 =>
    if r.imm || r.m2 != 0 then .error .minor
    else needZero (r.d.extractLsb' 4 3 == 0 && r.a.extractLsb' 1 6 == 0 && !(r.sreg && r.a.getLsbD 0))
      (.ok (.sign (r.d.extractLsb' 0 4) (if r.sreg then .sreg r.b else .imm (r.a.extractLsb' 0 1 ++ r.b))))
  | 0x75 =>
    minor0 r (needZero (r.d == 0 && r.a == 0 && r.b.extractLsb' 4 3 == 0) (.ok (.jwait (r.b.extractLsb' 0 4))))
  | 0x76 => minor0 r (needZero (r.a == 0 && r.b == 0) (.ok (.tide r.d)))
  | 0x78 => needZero (r.d == 0 && r.b == 0) (jobOp r (fun x => .cpy r.a x l))
  | 0x79 => needZero (r.d == 0) (jobOp r (fun x => .cpym r.a r.b x l))
  | 0x7A =>
    needZero (r.b == 0)
      (if r.d == 127 then jobOp r (fun x => .coll none r.a x l)
       else needZero (!r.d.getLsbD 6) (jobOp r (fun x => .coll (some (r.d.extractLsb' 0 6)) r.a x l)))
  | 0x7B => needZero (r.d == 0 && r.b == 0) (jobOp r (fun x => .xperm r.a x l))
  | 0x7C =>
    if r.minor.extractLsb' 2 2 != 0 then .error .minor
    else
      let m := r.d.extractLsb' 0 4
      needZero (r.d.extractLsb' 4 3 == 0)
        (match r.m2.toNat with
         | 0 => .ok (.recBegin m r.a r.b l)
         | 1 => needZero (r.a == 0 && r.b == 0) (.ok (.recEnd m))
         | 2 => needZero (r.a == 0) (.ok (.recPlay m r.b l))
         | _ => needZero (r.a == 0 && r.b == 0) (.ok (.recDrop m)))
  | 0x7D => minor0 r (needZero (r.a == 0 && r.b.extractLsb' 4 3 == 0) (.ok (.recq r.d (r.b.extractLsb' 0 4))))
  | _ => .error .unassigned

/-- Takes the literal words of an instruction off the list: operand literal first, then offset literal (R83). -/
def takeLits (op off : Bool) (ws : List Word) : Option (Option Word × Option Word × List Word) :=
  match op, off, ws with
  | false, false, ws => some (none, none, ws)
  | true, false, l :: ws => some (some l, none, ws)
  | false, true, o :: ws => some (none, some o, ws)
  | true, true, l :: o :: ws => some (some l, some o, ws)
  | _, _, _ => none

/-- The instruction at the head of a list of words, and the words after it and its literals. -/
def decode : List Word → Except DecodeErr (Instr × List Word)
  | [] => .error .truncated
  | w :: ws =>
    let r := Raw.ofWord w
    match takeLits r.opLit r.offLit ws with
    | none => .error .truncated
    | some (l, o, rest) =>
      match build r l o with
      | .error e => .error e
      | .ok i => if i.wf then .ok (i, rest) else .error .field

/-- The instruction read from a word that the opcode table numbers: the table gives every row 32 bits, and each later
word of the instruction (its literals) is zero. -/
def decodeTableWord (nbits w : Nat) : Option Instr :=
  if nbits ≤ 32 then
    match decode [BitVec.ofNat 32 w, 0, 0] with
    | .ok (i, _) => some i
    | .error _ => none
  else none

/-! ### The encoder -/

def BOp.enc : BOp → BitVec 7
  | .reg f => f
  | .imm k => k
  | .sreg b => b

/-- minor[3:2] of an ALU form. -/
def BOp.top : BOp → BitVec 2
  | .reg _ => 0b00#2
  | .imm _ => 0b10#2
  | .sreg _ => 0b01#2

def ITy.enc : ITy → BitVec 2
  | .n32 => 0 | .i32 => 1 | .n64 => 2 | .i64 => 3
def LTy.enc : LTy → BitVec 2
  | .n32 => 0 | .n64 => 2
def FTy.enc : FTy → BitVec 2
  | .f32 => 0 | .f64 => 1 | .h16 => 2 | .b16 => 3
def Cond.enc : Cond → BitVec 2
  | .eq => 0 | .ne => 1 | .lt => 2 | .ge => 3
def Policy.enc : Policy → BitVec 2
  | .cc => 0 | .l2 => 1 | .st => 2
def MemOrder.enc : MemOrder → BitVec 2
  | .plain => 0 | .acq => 1 | .rel => 2 | .acqrel => 3
def Scope.enc : Scope → BitVec 2
  | .pkg => 0 | .team => 1 | .thread => 2
def Width.enc : Width → BitVec 4
  | .w8 => 0 | .w16 => 1 | .w32 => 2 | .w64 => 3 | .w128 => 4 | .s8 => 8 | .s16 => 9
def AtomOp.enc : AtomOp → BitVec 4
  | .add32 => 0 | .mins32 => 1 | .minn32 => 2 | .maxs32 => 3 | .maxn32 => 4 | .and32 => 5 | .or32 => 6 | .xor32 => 7
  | .exch32 => 8 | .cas32 => 9 | .addf32 => 10 | .add64 => 11 | .mins64 => 12 | .maxs64 => 13 | .exch64 => 14
  | .cas64 => 15
def AtomxOp.enc : AtomxOp → BitVec 4
  | .cas => 0 | .exch => 1
def RedAt.enc : RedAt → BitVec 4
  | .add32 => 0 | .mins32 => 1 | .minn32 => 2 | .maxs32 => 3 | .maxn32 => 4 | .and32 => 5 | .or32 => 6 | .xor32 => 7
  | .and64 => 8 | .or64 => 9 | .addf32 => 10 | .add64 => 11 | .mins64 => 12 | .maxs64 => 13 | .xor64 => 14
def RedOp.enc : RedOp → BitVec 3
  | .add => 0 | .min => 1 | .max => 2 | .and => 3 | .or => 4 | .xor => 5
def SFn.enc : SFn → BitVec 3
  | .rcp => 0 | .rsq => 1 | .sqrt => 2 | .ex2 => 3 | .lg2 => 4 | .sin => 5 | .cos => 6
def RDir.enc : RDir → BitVec 3
  | .rm => 0 | .rne => 1 | .rtz => 2 | .rdn => 3 | .rup => 4 | .rna => 5
def MFmt.enc : MFmt → BitVec 3
  | .b16 => 0 | .h16 => 1 | .e4m3 => 2 | .e5m2 => 3 | .q4 => 4 | .f32 => 5 | .c32 => 6
def SFmt.enc : SFmt → BitVec 2
  | .b16 => 0 | .h16 => 1 | .e4m3 => 2 | .e5m2 => 3
def ShMode.enc : ShMode → BitVec 2
  | .idx => 0 | .up => 1 | .down => 2 | .xor => 3
def BankMode.enc : BankMode → BitVec 2
  | .cache => 0 | .pad => 1 | .fifo => 2
def BarScope.enc : BarScope → BitVec 2
  | .team => 0 | .die => 1 | .pkg => 2
def LdForm.enc : LdForm → BitVec 4
  | .f32 => 0 | .c32 => 1 | .c32rnd => 2
def StForm.enc : StForm → BitVec 4
  | .f32 => 0 | .b16 => 1 | .h16 => 2 | .c32 => 3 | .c32rnd => 4
/-- minor of RDX and SCAN: the floating bit, a zero, and the type (R425). -/
def RTy.enc : RTy → BitVec 4
  | .int t => 0b00#2 ++ t.enc
  | .f32 => 0b1000
  | .f64 => 0b1001

def bit1 (b : Bool) : BitVec 1 := BitVec.ofBool b

/-- The fields of an ALU form. -/
def Alu.raw {T : Type} (o : Alu T) (major : BitVec 7) (ty : BitVec 2) : Raw :=
  { d := o.d, a := o.a, b := o.b.enc, major := major, minor := o.b.top ++ ty }
def Un.raw {T : Type} (o : Un T) (major a : BitVec 7) (ty : BitVec 2) : Raw :=
  { d := o.d, a := a, b := o.b.enc, major := major, minor := o.b.top ++ ty }
def CmpOp.raw {T : Type} (o : CmpOp T) (major : BitVec 7) (ty : BitVec 2) : Raw :=
  { d := o.c.enc ++ o.p, a := o.a, b := o.b.enc, major := major, minor := o.b.top ++ ty }
def MemOp.raw {T : Type} (m : MemOp T) (major : BitVec 7) (x : BitVec 4) : Raw :=
  { d := m.d, a := m.a, b := m.policy.enc ++ m.order.enc ++ bit1 m.off.isSome ++ m.scope.enc, major := major, minor := x }
def PadOp.raw (m : PadOp) (major : BitVec 7) (x : BitVec 4) : Raw :=
  { d := m.d, a := m.a, b := 0b0000#4 ++ bit1 m.off.isSome ++ 0b00#2, major := major, minor := x }

def rawOf (d a b major : BitVec 7) (minor : BitVec 4) : Raw := { d, a, b, major, minor }

def BrOff.ab : BrOff → BitVec 14
  | .short o => o
  | .long _ => 0
def BrOff.lit : BrOff → Option Word
  | .short _ => none
  | .long w => some w
/-- The fields of BRC, BDQ and CALL. -/
def BrOff.raw (o : BrOff) (d major : BitVec 7) : Raw :=
  rawOf d (o.ab.extractLsb' 7 7) (o.ab.extractLsb' 0 7) major (bit1 o.lit.isSome ++ 0b000#3)

/-- The fields, the operand literal and the offset literal of an instruction; none for an event, which has no word. -/
def Instr.raw : Instr → Option (Raw × Option Word × Option Word)
  | .nop => some (rawOf 0 0 0 0x00 0, none, none)
  | .add o => some (o.raw 0x01 o.ty.enc, o.lit, none)
  | .addc o => some (o.raw 0x02 0, o.lit, none)
  | .isub o => some (o.raw 0x03 o.ty.enc, o.lit, none)
  | .imul o => some (o.raw 0x04 o.ty.enc, o.lit, none)
  | .imad o => some (o.raw 0x05 o.ty.enc, o.lit, none)
  | .iabs w o => some (o.raw 0x06 0 (bit1 w ++ 1#1), o.lit, none)
  | .imin o => some (o.raw 0x07 o.ty.enc, o.lit, none)
  | .imax o => some (o.raw 0x08 o.ty.enc, o.lit, none)
  | .cmp o => some (o.raw 0x09 o.ty.enc, o.lit, none)
  | .lea o => some (o.raw 0x0A o.ty, o.lit, none)
  | .mov o => some (o.raw 0x0B o.ty.enc, o.lit, none)
  | .movl ty d k => some (rawOf d (k.extractLsb' 7 7) (k.extractLsb' 0 7) 0x0C (0b00#2 ++ ty.enc), none, none)
  | .and o => some (o.raw 0x10 o.ty.enc, o.lit, none)
  | .andn o => some (o.raw 0x11 o.ty.enc, o.lit, none)
  | .or o => some (o.raw 0x12 o.ty.enc, o.lit, none)
  | .xor o => some (o.raw 0x13 o.ty.enc, o.lit, none)
  | .shl o => some (o.raw 0x14 o.ty.enc, o.lit, none)
  | .shr o => some (o.raw 0x15 o.ty.enc, o.lit, none)
  | .sar o => some (o.raw 0x16 o.ty.enc, o.lit, none)
  | .rol o => some (o.raw 0x17 o.ty.enc, o.lit, none)
  | .bfx o => some (o.raw 0x18 o.ty.enc, o.lit, none)
  | .bfi o => some (o.raw 0x19 o.ty.enc, o.lit, none)
  | .popc o => some (o.raw 0x1A 0 o.ty.enc, o.lit, none)
  | .clz o => some (o.raw 0x1B 0 o.ty.enc, o.lit, none)
  | .brev o => some (o.raw 0x1C 0 o.ty.enc, o.lit, none)
  | .prmb o => some (o.raw 0x1D 0, o.lit, none)
  | .fadd o => some (o.raw 0x20 o.ty.enc, o.lit, none)
  | .fmul o => some (o.raw 0x21 o.ty.enc, o.lit, none)
  | .ffma o => some (o.raw 0x22 o.ty.enc, o.lit, none)
  | .fmin o => some (o.raw 0x23 o.ty.enc, o.lit, none)
  | .fmax o => some (o.raw 0x24 o.ty.enc, o.lit, none)
  | .fcmp o => some (o.raw 0x25 (0#1 ++ bit1 o.ty), o.lit, none)
  | .fsf fn o => some (o.raw 0x26 (0b0000#4 ++ fn.enc) o.ty.enc, o.lit, none)
  | .frnd dir o => some (o.raw 0x27 (0b0000#4 ++ dir.enc) o.ty.enc, o.lit, none)
  | .twosum o => some (o.raw 0x28 0, o.lit, none)
  | .twoprd o => some (o.raw 0x29 0, o.lit, none)
  | .cfma d a b => some (rawOf d a b 0x2A 0, none, none)
  | .cvt c e o => some (o.raw 0x2B c e, o.lit, none)
  | .qpack d a b j => some (rawOf d a b 0x2C (0b00#2 ++ j), none, none)
  | .qunpk d a b k j l => some (rawOf d a b 0x2D (k ++ j), l, none)
  | .trap c => some (rawOf 0 0 c 0x30 0, none, none)
  | .eretResume => some (rawOf 0 0 0 0x31 0, none, none)
  | .eretRestart => some (rawOf 0 0 0 0x31 1, none, none)
  | .eretSkip => some (rawOf 0 0 0 0x31 2, none, none)
  | .mfsr d n => some (rawOf d 0 n 0x32 0, none, none)
  | .mtsr a n l => some (rawOf 0 a n 0x33 0, l, none)
  | .bkpt c => some (rawOf 0 0 c 0x34 0, none, none)
  | .snap => some (rawOf 0 0 0 0x35 0, none, none)
  | .time d w => some (rawOf d 0 0 0x36 (0b000#3 ++ bit1 w), none, none)
  | .sel s p o => some (o.raw 0x38 (0#1 ++ bit1 s ++ p) o.ty.enc, o.lit, none)
  | .plop pd pa pb tt => some (rawOf (0b00#2 ++ pd) (0b00#2 ++ pa) (0b00#2 ++ pb) 0x39 tt, none, none)
  | .pmov (.toReg d p) => some (rawOf d 0 (0b00#2 ++ p) 0x3A 0, none, none)
  | .pmov (.toPred p b l) => some (rawOf (0b00#2 ++ p) 0 b 0x3A 1, l, none)
  | .pmov (.save d) => some (rawOf d 0 0 0x3A 2, none, none)
  | .pmov (.load b l) => some (rawOf 0 0 b 0x3A 3, l, none)
  | .shfl o => some (o.raw 0x3B o.ty.enc, o.lit, none)
  | .vote (.all p) s ps => some (rawOf (0b00#2 ++ p) 0 (0#1 ++ bit1 s ++ ps) 0x3C 0, none, none)
  | .vote (.any p) s ps => some (rawOf (0b00#2 ++ p) 0 (0#1 ++ bit1 s ++ ps) 0x3C 1, none, none)
  | .vote (.eq p) s ps => some (rawOf (0b00#2 ++ p) 0 (0#1 ++ bit1 s ++ ps) 0x3C 2, none, none)
  | .vote (.ballot d) s ps => some (rawOf d 0 (0#1 ++ bit1 s ++ ps) 0x3C 3, none, none)
  | .rdx op ty d b l => some (rawOf d (0b0000#4 ++ op.enc) b 0x3D ty.enc, l, none)
  | .scan e op ty d b l => some (rawOf d (0b000#3 ++ bit1 e ++ op.enc) b 0x3E ty.enc, l, none)
  | .bra o => some (rawOf (o.extractLsb' 14 7) (o.extractLsb' 7 7) (o.extractLsb' 0 7) 0x40 0, none, none)
  | .brc s p o => some (o.raw (0#1 ++ bit1 s ++ p) 0x41, none, o.lit)
  | .bdq s o => some (o.raw (0#1 ++ bit1 s ++ 0#5) 0x42, none, o.lit)
  | .jmpi a => some (rawOf 0 a 0 0x43 0, none, none)
  | .call d o => some (o.raw d 0x44, none, o.lit)
  | .ret a => some (rawOf 0 a 0 0x45 0, none, none)
  | .reform b l => some (rawOf 0 0 b.enc 0x46 (b.top ++ 0b00#2), l, none)
  | .exit => some (rawOf 0 0 0 0x47 0, none, none)
  | .killTeam => some (rawOf 0 0 0 0x48 0, none, none)
  | .killGrid => some (rawOf 0 0 0 0x48 1, none, none)
  | .yield => some (rawOf 0 0 0 0x49 0, none, none)
  | .bar l s => some (rawOf 0 0 0 0x4A (0#1 ++ bit1 l ++ s.enc), none, none)
  | .launch a q l => some (rawOf 0 a (0b000#3 ++ q) 0x4B 0, l, none)
  | .cont a q l => some (rawOf 0 a (0b000#3 ++ q) 0x4C 0, l, none)
  | .dqpush b rel l => some (rawOf 0 0 b.enc 0x4D (b.top ++ 0#1 ++ bit1 rel), l, none)
  | .dqpop d => some (rawOf d 0 0 0x4E 0, none, none)
  | .winb w => some (rawOf 0 0 (w ++ 0b000#3) 0x4F 0, none, none)
  | .ld m => some (m.raw 0x50 m.x.enc, m.lit, m.off)
  | .st m => some (m.raw 0x51 m.x.enc, m.lit, m.off)
  | .lds w m => some (m.raw 0x52 w.enc, m.lit, m.off)
  | .sts w m => some (m.raw 0x53 w.enc, m.lit, m.off)
  | .fpush w m => some (m.raw 0x54 w.enc, m.lit, m.off)
  | .fpop w m => some (m.raw 0x55 w.enc, m.lit, m.off)
  | .bank t b m =>
    some (rawOf (0b00#2 ++ t.getD 0) (0b00#2 ++ b) 0 0x56 (0#1 ++ bit1 t.isSome ++ m.enc), none, none)
  | .fence s => some (rawOf 0 0 0 0x57 (0b00#2 ++ s.enc), none, none)
  | .tlfence => some (rawOf 0 0 0 0x58 0, none, none)
  | .disc m => some (m.raw 0x59 0, m.lit, m.off)
  | .arm m => some (m.raw 0x5A 0, m.lit, m.off)
  | .await m => some (m.raw 0x5B 0, m.lit, m.off)
  | .xacq => some (rawOf 0 0 0 0x5C 0, none, none)
  | .xrel => some (rawOf 0 0 0 0x5D 0, none, none)
  | .atom m => some (m.raw 0x60 m.x.enc, m.lit, m.off)
  | .atomx m => some (m.raw 0x61 m.x.enc, m.lit, m.off)
  | .red m => some (m.raw 0x62 m.x.enc, m.lit, m.off)
  | .rgn => some (rawOf 0 0 0 0x63 0, none, none)
  | .rgnc => some (rawOf 0 0 0 0x64 0, none, none)
  | .lget d (.one b) l => some (rawOf d 0 b.enc 0x68 (b.top ++ 0b00#2), l, none)
  | .lget d (.pair b) l => some (rawOf d 0 b.enc 0x68 (b.top ++ 0b01#2), l, none)
  | .lget d (.pred p) l => some (rawOf d 0 (0b00#2 ++ p) 0x68 0b0010, l, none)
  | .ljoin w o => some (o.raw 0x69 (0#1 ++ bit1 w), o.lit, none)
  | .lceil b l => some (rawOf 0 0 b.enc 0x6A (b.top ++ 0b00#2), l, none)
  | .endo a => some (rawOf 0 a 0 0x6B 0, none, none)
  | .decl w o => some (o.raw 0x6C (0#1 ++ bit1 w), o.lit, none)
  | .mma f t k a b l =>
    some (rawOf (0#1 ++ t) (k.extractLsb' 2 2 ++ a) (k.extractLsb' 0 2 ++ b) 0x70 (0#1 ++ f.enc), l, none)
  | .mmasp f q t k a b =>
    some (rawOf (0#1 ++ t) (k.extractLsb' 2 2 ++ a) (k.extractLsb' 0 2 ++ b) 0x71 (q ++ f.enc), none, none)
  | .accld f t a k => some (rawOf (0#1 ++ t) a (0b000#3 ++ k) 0x72 f.enc, none, none)
  | .accst f d t k => some (rawOf d (0#1 ++ t) (0b000#3 ++ k) 0x73 f.enc, none, none)
  | .sign k (.imm q) => some (rawOf (0b000#3 ++ k) (0b000000#6 ++ q.extractLsb' 7 1) (q.extractLsb' 0 7) 0x74 0, none, none)
  | .sign k (.sreg b) => some (rawOf (0b000#3 ++ k) 0 b 0x74 0b0100, none, none)
  | .jwait f => some (rawOf 0 0 (0b000#3 ++ f) 0x75 0, none, none)
  | .tide d => some (rawOf d 0 0 0x76 0, none, none)
  | .cpy a rel l => some (rawOf 0 a 0 0x78 (0b000#3 ++ bit1 rel), l, none)
  | .cpym a b rel l => some (rawOf 0 a b 0x79 (0b000#3 ++ bit1 rel), l, none)
  | .coll (some t) a rel l => some (rawOf (0#1 ++ t) a 0 0x7A (0b000#3 ++ bit1 rel), l, none)
  | .coll none a rel l => some (rawOf 127 a 0 0x7A (0b000#3 ++ bit1 rel), l, none)
  | .xperm a rel l => some (rawOf 0 a 0 0x7B (0b000#3 ++ bit1 rel), l, none)
  | .recBegin m a b l => some (rawOf (0b000#3 ++ m) a b 0x7C 0, l, none)
  | .recEnd m => some (rawOf (0b000#3 ++ m) 0 0 0x7C 1, none, none)
  | .recPlay m b l => some (rawOf (0b000#3 ++ m) 0 b 0x7C 2, l, none)
  | .recDrop m => some (rawOf (0b000#3 ++ m) 0 0 0x7C 3, none, none)
  | .recq d m => some (rawOf d 0 (0b000#3 ++ m) 0x7D 0, none, none)
  | _ => none

/-- The words of an instruction: its word, then the operand literal, then the offset literal (R83). -/
def encode (i : Instr) : Option (List Word) :=
  match i.raw with
  | some (r, l, o) => some (r.toWord :: (l.toList ++ o.toList))
  | none => none

/-- The instructions that have a word: the first 114 constructors. -/
def Instr.isWord (i : Instr) : Bool := i.raw.isSome

/-- Words of an instruction in its clause; 0 for an event. -/
def Instr.size (i : Instr) : Nat := ((encode i).getD []).length

end Sys2Proof
end

