-- ==== Sys2Proof/Machine/State.lean ====
section
/-! DEFINITION. The state of the machine, as plain data: the package in focus with everything the manual gives it
(threads, gangs, clauses, teams, labels, memory, worlds, tides, manifests, fabric), the other packages of the pod, and
the packets in flight between them; and the machine right after reset. Physical memory is `Package.mem`, a list of
(address, byte) pairs in one canonical form; labels are indices into `Package.labels`. -/

namespace Sys2Proof.Machine

/-- A label: an index into the package's label table (R106). -/
abbrev Lbl := BitVec 16

/-- An owner set (R105): bit k is set when owner k is a member. -/
abbrev Mask := BitVec 128

/-- Reasons for which a step stops the machine with a fault. -/
inductive Fault where
  /-- Raised by an event that names a physical address beyond the package's memory (R1: 384 GiB): LAUNCH_COMMAND, SYS_TABLE_WRITE,
  SCRUB, MEMORY_FAULT. Safe: the machine stops, and no such address exists. -/
  | noSuchAddress (pa : Nat)
  deriving DecidableEq, Repr

/-- Reasons for which a step is refused. -/
inductive Refusal where
  /-- Raised by an arm of `exec` whose instruction has no meaning yet. Safe: the machine stops. -/
  | notModelled (mnemonic : String)
  deriving DecidableEq, Repr

/-! ### Values with labels -/

/-- A 32-bit register with its label (R112). -/
structure LReg where
  val : Word
  lbl : Lbl
  deriving DecidableEq, Repr

/-- A predicate with its label (R112). -/
structure LBit where
  val : Bool
  lbl : Lbl
  deriving DecidableEq, Repr

/-- A latch x0 or x1: the full result of one instruction (R82); `regs` is 0 while nothing was written. -/
structure Latch where
  regs : Nat
  val  : Nat
  lbl  : Lbl
  deriving DecidableEq, Repr

/-- A context-stack entry (R124); `cam` is none for NOREJ = 1. -/
structure CtxEntry where
  cam    : Option Nat
  target : BitVec 32
  lbl    : Lbl
  deriving DecidableEq, Repr

/-- A continuation point: the header of a clause, and the instruction inside it when the clause is continued from that
instruction (R257, R258). -/
structure Point where
  hdr : Nat
  mid : Option Nat
  deriving DecidableEq, Repr

/-- A storage location of an instruction's result after the window is applied (R75, R79, R80). -/
inductive Dst where
  | main (i : Nat)
  | op (k : Nat)
  | sreg (k : Nat)
  | latch (k : Bool)
  | discard
  deriving DecidableEq, Repr

/-! ### Traps (R251 to R257) -/

inductive Cause where
  | illop | illclause | align | page | prot | owner | lblStore | lblBranch | lblMsg | declUnendorsed | ctxOverflow
  | window | xset | scopeMismatch | unreachablePeer | podRule | rsbOverflow | dqMisuse | depth | bkpt | soft
  | uncorrectable
  deriving DecidableEq, Repr

/-- What a trap will write into the trap registers, and the points of R257; `vmask` holds the owners of
the trapping access's address operand (R408). -/
structure TrapReq where
  cause  : Cause
  pc     : Nat
  va     : Nat
  vmask  : Mask
  lbl    : Lbl
  aux    : Nat
  resume : Point
  skip   : Option Point
  deriving DecidableEq, Repr

/-- The trap registers 0x20 to 0x24 (R103). -/
structure TrapRegs where
  cause : Word
  pc    : Nat
  va    : Nat
  vmask : Mask
  lbl   : Lbl
  aux   : Word
  deriving DecidableEq, Repr

/-- Trap mode: the hardware-held save of R252, the value of TRAPPC at entry and the points of R257. `guard` is the guard label of the
clause that trapped, `wnext` and `yielding` what a WINB and a YIELD of that clause leave for its end (R76, R469). -/
structure TrapSave where
  ops      : List LReg
  x0       : Latch
  x1       : Latch
  ctx      : List CtxEntry
  cause    : Cause
  pc       : Nat
  resume   : Point
  skip     : Option Point
  guard    : Lbl
  wnext    : Option Nat
  yielding : Bool
  deriving DecidableEq, Repr

/-- Translation of one page (R213, R217), as a TLB holds it. -/
structure Xlat where
  space  : Nat
  gen    : Nat
  vpage  : Nat
  size   : Nat
  frame  : Nat
  r      : Bool
  w      : Bool
  x      : Bool
  mode   : Nat
  rule   : Nat
  grow   : Bool
  peer   : Nat
  label  : Lbl
  mthr   : Nat
  pte    : Nat
  deriving DecidableEq, Repr

/-! ### Regions (R220 to R226) -/

/-- A region-store-buffer entry (R221, R253); `amask` holds the owners of the store's address operand (R408), and the accesses that precede the
store in program order have identifiers below `since` (R242). -/
structure RsbEntry where
  addr   : Nat
  data   : Nat
  width  : Nat
  need   : Lbl
  amask  : Mask
  pad    : Bool
  policy : Policy
  rel    : Bool
  scope  : Scope
  since  : Nat
  deriving DecidableEq, Repr

/-- Where a checked entry goes: a scratchpad bank, or a page with its address and home. -/
inductive Target where
  | pad (cluster phys off : Nat)
  | mem (x : Xlat) (pa : Nat) (home : Option Nat)
  deriving DecidableEq, Repr

/-- The operation of a held closing atomic: an ATOM, an ATOMX or a RED with its operands read (R222). -/
inductive AtomKind where
  | atom (op : AtomOp)
  | atomx (op : AtomxOp)
  | red (op : RedAt)
  deriving DecidableEq, Repr

/-- An atomic with its operands (R222, R343). -/
structure HeldAtomic where
  kind   : AtomKind
  va     : Nat
  arg    : Nat
  arg2   : Nat
  need   : Mask
  low    : Mask
  dst    : Dst
  order  : MemOrder
  scope  : Scope
  policy : Policy
  flag   : Option Nat
  deriving DecidableEq, Repr

/-- An entry that has passed its checks at RGNC, with the scope that it still records when it is released (R241, R242). -/
structure Checked where
  entry  : RsbEntry
  target : Target
  scope  : Option Scope
  deriving DecidableEq, Repr

/-- A region whose RGNC has passed its checks (R436): the access of the RGNC, the entries still to be released, in buffer order, and the page, the
address and the home of the closing atomic, with the core that translated it and that core's translation epoch (R219). -/
structure Release where
  acc     : Nat
  todo    : List Checked
  closing : Option (Xlat × Nat × Option Nat)
  core    : Nat
  epoch   : Nat
  deriving DecidableEq, Repr

/-- An open region: RGNPC, the store buffer in buffer order and the held atomic (R220 to R222), and the release that its RGNC has under way
(R223). -/
structure Region where
  pc      : Nat
  rsb     : List RsbEntry
  held    : Option HeldAtomic
  release : Option Release
  deriving DecidableEq, Repr

/-! ### Threads -/

/-- A deferred error that has reached the core (R260): the consuming instruction, its address and the owners of its address operand, TRAPAUX,
and whether the instruction ran in trap mode. -/
structure DefErr where
  pc      : Nat
  va      : Nat
  vmask   : Mask
  aux     : Nat
  trapped : Bool
  deriving DecidableEq, Repr

/-- Where a thread is. -/
inductive TStatus where
  /-- In the filing queue or a berth (R53). -/
  | filed
  /-- In the gang of its team with this core and id (R54, R55). -/
  | gang (core id : Nat)
  /-- Parked at a divergence record (R59). -/
  | parked (rec : Nat)
  /-- In the fault berth (R224, R258): the address waited for, whether in a region, whether a fetch, and the trapping
  point for R259. -/
  | faulted (va : Nat) (vmask : Mask) (region fetch : Bool)
  /-- Trapped, waiting for its outstanding instructions (R252 step 2). -/
  | trapping (r : TrapReq)
  /-- Halted by device debug (R332, R351). -/
  | halted
  /-- Exited or killed (R46, R265). -/
  | dead
  deriving DecidableEq, Repr

/-- A lane thread, or the pilot, which is the thread of local id 0 (R32, R73). The pilot's main registers are its team's
s-registers. `wnext` is the base that WINB set for the clauses that follow (R76), `frm` the header of the clause that led
to `point` (R97), `yielding` a YIELD whose clause has not ended (R469), `dqIdx` the index of the next entry to consume
(R49), `podSeq` the pod writes that the thread has made in the step `podStep` (R275), `wctAll` and `wctFar` the latest WCT of the thread's
writes and of those that are not .cc stores (R237), `arrived`
whether the thread waits in TIDE (R288), `after` the earliest time of its next clause (R447), `errs` the deferred errors that it takes before
its next clause (R260), `dying` whether a kill waits for the end of its clause (R265). -/
structure Thread where
  lid      : Nat
  status   : TStatus
  point    : Point
  regs     : List LReg
  ops      : List LReg
  preds    : List LBit
  flags    : List Nat
  ctx      : List CtxEntry
  wbase    : Nat
  wnext    : Option Nat
  fpctl    : Word
  flagsLbl : Lbl
  seed     : Word
  seedLbl  : Lbl
  region   : Option Region
  trapRegs : TrapRegs
  trap     : Option TrapSave
  x0       : Latch
  x1       : Latch
  guardLbl : Lbl
  dqIdx    : Nat
  podSeq   : Nat
  podStep  : Nat
  wctAll   : Nat
  wctFar   : Nat
  frm      : Nat
  yielding : Bool
  yieldTo  : Nat
  arrived  : Bool
  after    : Nat
  errs     : List DefErr
  dying    : Bool
  deriving DecidableEq, Repr

/-! ### Gangs, berths and clauses -/

/-- Why a thread of a gang holds its instruction or its next clause (R64, R200, R237 and the entries). -/
inductive Stall where
  | none
  | dq | dqFull | quay (q : Nat) | fifo (cluster bank : Nat) | scheduler | xset | jwait | await | bar | bank (cluster bank : Nat)
  | memory | sign | lock | peer | lceil | exit | other
  deriving DecidableEq, Repr

/-- A clause that is being issued: the words still to run, the instruction now running, its threads (R96 to R99), and the
package time at which it issued. `ran` lists threads in which an instruction that the gang still holds has taken its effect (R242), each with
the instruction's address. -/
structure Issue where
  core    : Nat
  id      : Nat
  team    : Nat
  hdr     : Nat
  hdrWord : Word
  pc      : Nat
  cur     : Nat
  curWords : List Word
  words   : List Word
  active  : List Nat
  idle    : List Nat
  vec     : Nat
  long    : Nat
  time    : Nat
  sregs   : List LReg
  ran     : List (Nat × Nat)
  deriving DecidableEq, Repr

/-- A gang (R54, R55); a pilot is a gang of one thread with id 0x1FF (R52), and a record of id 0x200 or more is no gang but a thread that
left its gang while it was blocked and waits to be filed (R56). `since` gives the blocked members, each with the instruction that holds it
and the time since when. -/
structure Gang where
  core    : Nat
  part    : Nat
  id      : Nat
  team    : Nat
  lids    : List Nat
  point   : Point
  held    : Option Issue
  stall   : Stall
  blocked : List Nat
  since   : List (Nat × Nat × Nat)
  yieldTo : Nat
  deriving DecidableEq, Repr

/-- A thread in a berth or in the filing queue, with the time from which its age counts (R53). -/
structure BerthEntry where
  team  : Nat
  lid   : Nat
  point : Point
  key   : BitVec 16
  since : Nat
  deriving DecidableEq, Repr

/-- A partition's berths and filing queue (R53). Entries of one team, point and key form one berth. -/
structure Partition where
  core   : Nat
  part   : Nat
  berths : List BerthEntry
  queue  : List BerthEntry
  deriving DecidableEq, Repr

/-- A divergence record (R57 to R60). `left` is the time left of its timer while the team is not resident. -/
structure DivRec where
  id      : Nat
  cam     : Nat
  named   : List Nat
  parked  : List Nat
  expires : Option Nat
  left    : Option Nat
  deriving DecidableEq, Repr

/-- An entry of the rejoin CAM (R38). -/
structure CamEntry where
  vmask   : Nat
  pmask   : Nat
  timeout : Nat
  branch  : Nat
  target  : Nat
  deriving DecidableEq, Repr

/-- A sign-off register (R172), with what each signer gave the current round. -/
inductive SignState where
  | idle | armed | collecting
  deriving DecidableEq, Repr

/-- What one thread gave a round when it signed: its registers as they stood, its tied flag, the registers that an ACCST
writes, the registers that are locked (R176), the instruction and where the thread goes on after it (R110), whether it signed in trap mode (R256), and the owners of all of these with its context and guard. For .q4, `scale`
holds SA, SB and the s-registers TA and TB as its clause sampled them (R175). -/
structure Signature where
  lid   : Nat
  flag  : Option Nat
  a     : List LReg
  b     : List LReg
  scale : List LReg
  dst   : List Dst
  locks : List Dst
  pc    : Nat
  resume : Point
  trapped : Bool
  mask  : Mask
  deriving DecidableEq, Repr

/-- The lathe operation of a round (R169, R184). -/
inductive LatheOp where
  | mma (fmt : MFmt) (tile : Nat) (sa sb ja jb : Nat)
  | mmasp (fmt : SFmt) (q tile : Nat)
  | accld (form : LdForm) (tile : Nat) (zero : Bool)
  | accst (form : StForm) (tile : Nat)
  deriving DecidableEq, Repr

structure SignReg where
  keyLit  : Word
  keyWord : Word
  row     : Nat
  round   : Nat
  state   : SignState
  signed  : BitVec 32
  expect  : BitVec 32
  op      : Option LatheOp
  sigs    : List Signature
  deriving DecidableEq, Repr

/-- A round that has issued and has not taken effect (R175, R189), with the package time and the sign-off register of its issue.
`read` says that the lathe has read its registers (R176), `popped` holds the sparsity entries that it has popped, and `stop`
that it stalls at an empty queue (R188). -/
structure Round where
  id     : Nat
  time   : Nat
  k      : Nat
  team   : Nat
  core   : Nat
  part   : Nat
  row    : Nat
  op     : LatheOp
  expect : BitVec 32
  sigs   : List Signature
  read   : Bool
  popped : List (Nat × Lbl)
  stop   : Bool
  deriving DecidableEq, Repr

/-- An accumulator tile of a team in one partition (R181, R182). A tile not listed is +0 with the public label. -/
structure Tile where
  core  : Nat
  part  : Nat
  idx   : Nat
  words : List Word
  lbl   : Lbl
  deriving DecidableEq, Repr

/-- The extended set of a pair of buddies, kept under the lower local id of the pair (R74). -/
structure ExtBlock where
  base   : Nat
  regs   : List LReg
  holder : Option Nat
  deriving DecidableEq, Repr

/-- A decision queue: the entries not yet freed and the number freed before them (R49, R50). -/
structure DQ where
  freed   : Nat
  entries : List LReg
  deriving DecidableEq, Repr

/-- A thread that waits at BAR (R239, R348). -/
structure BarWait where
  lid   : Nat
  lanes : Bool
  deriving DecidableEq, Repr

/-- Residence of a team (R261 to R263), or its halt by device debug (R332). -/
inductive Residence where
  | resident | saving | saved | halted
  deriving DecidableEq, Repr

/-- An FPOP pop withdrawn at pre-emption (R264). -/
structure SavedPop where
  acc     : Nat
  logical : Nat
  deriving DecidableEq, Repr

/-- A sparsity entry saved at pre-emption (R187). -/
structure SavedSparse where
  row  : Nat
  q    : Nat
  pos  : Nat
  lbl  : Lbl
  deriving DecidableEq, Repr

/-- A team: one pilot and its lane threads (R32). `threads` holds the pilot first. `lceils` holds the ceilings that LCEILs have named and that
do not hold yet, in order, each with the threads of its clause (R129), and `contAt` the time and the local id of the CONT whose record `cont`
holds (R362). -/
structure Team where
  id        : Nat
  tag       : Nat
  world     : Nat
  space     : Nat
  grid      : Nat
  index     : Nat
  record    : Nat
  recordVa  : Nat
  recordPa  : Option Nat
  kdesc     : Nat
  nregs     : Nat
  nx        : Nat
  lane      : Nat
  cam       : List CamEntry
  ceiling   : Lbl
  lceils    : List (List Nat × Lbl)
  cluster   : Nat
  cores     : List Nat
  threads   : List Thread
  sregs     : List LReg
  ext       : List ExtBlock
  dq        : DQ
  divs      : List DivRec
  signs     : List SignReg
  tiles     : List Tile
  bars      : List BarWait
  cont      : Option (Nat × Nat × Nat)
  contAt    : Nat × Nat
  join      : Nat
  ended     : Bool
  killed    : Bool
  tideBound : Bool
  residence : Residence
  saved     : List BerthEntry
  pops      : List SavedPop
  sparse    : List SavedSparse
  frameBase : Option Nat
  frameVa   : Nat
  debugStop : Bool
  deriving DecidableEq, Repr

/-- A grid: an accepted continuation record with the place in its queue's ring where it was written (R39), its live fields (R35, R41), the number of bound chunks still to complete and
its SEQ (R316), and the time from which its teams may start (R479). -/
structure Grid where
  id        : Nat
  record    : Nat
  world     : Nat
  queue     : Nat
  journal   : Nat
  slot      : Nat
  next      : Nat
  left      : Nat
  parent    : Option Nat
  queued    : Bool
  tideBound : Bool
  seq       : Option Nat
  chunks    : Nat
  ready     : Nat
  deriving DecidableEq, Repr

/-! ### Memory and its homes -/

/-- What made a write (R230, R292, R295). -/
inductive WriteKind where
  | store | atomic | disc | engine
  deriving DecidableEq, Repr

/-- A write that a home has not yet made visible (R230): its bytes, the granule labels that it changes (R13, R118), its WCT once it
has arrived, its policy (R234) and the cluster cache that accepted it (`cc`), the
scope that it records (R241), its key slot (R210), the core that translated it with that core's translation epoch (R219), the page-table entry
whose DEAD it clears, and for DISC the page and the page-table entry (R227); a scrub of a whole frame is such a write of kind engine (R325). `acc` is the outstanding access that it belongs to. -/
structure Write where
  id      : Nat
  acc     : Nat
  line    : Nat
  cells   : List Host.Cell
  grow    : List (Nat × Lbl)
  wct     : Option Nat
  kind    : WriteKind
  team    : Nat
  lid     : Nat
  world   : Nat
  cluster : Nat
  policy  : Policy
  cc      : Bool
  scope   : Option Scope
  key     : Nat
  core    : Nat
  epoch   : Nat
  pte     : Option Nat
  disc    : Option (Nat × Nat)
  deriving DecidableEq, Repr

/-- A copy of a line in a cluster cache (R229, R295): the world that it is tagged with (R197), lease end, the core and gang whose load brought it
(R71), the manifest and read mark of a delivered copy, whether it is a copy of a pod line (R271), and whether it is a POD-CACHED one, which
has no lease. -/
structure Copy where
  cluster   : Nat
  world     : Nat
  lease     : Nat
  core      : Nat
  gang      : Nat
  delivered : Option Nat
  read      : Bool
  pod       : Bool
  free      : Bool
  deriving DecidableEq, Repr

/-- A copy of a pod line of another package (R271, R297): its home, the step whose loads it serves, and its 64 bytes. One in a cluster cache
names its cluster and the end of its lease; one in the L2, of a POD-CACHED page or delivered after a tide, has neither. -/
structure PodCopy where
  world   : Nat
  home    : Nat
  line    : Nat
  step    : Nat
  cluster : Option Nat
  lease   : Nat
  val     : Nat
  deriving DecidableEq, Repr

/-- What the home keeps for a line (R229, R240, R292). Lines not listed have `inL2 = false` and no copy. -/
structure Line where
  addr   : Nat
  inL2   : Bool
  maxl   : Nat
  last   : Nat
  copies : List Copy
  scope  : Option Scope
  tag    : Nat
  writer : Option Nat
  deriving DecidableEq, Repr

/-- An entry of a table that a die's walk cache holds (R217): the lowest virtual bit that its level indexes, the part of the virtual address
from there up, the entry and its address. -/
structure WalkLine where
  die   : Nat
  space : Nat
  gen   : Nat
  shift : Nat
  idx   : Nat
  pte   : Nat
  entry : Nat
  deriving DecidableEq, Repr

/-- Where an outstanding load stands (R229, R230). -/
inductive LStage where
  | sent
  | waiting (w : Nat)
  /-- Answered by a delivery when that enters the cluster cache (R304). -/
  | delivery (d : Nat)
  | served (val : Nat) (mask : Mask)
  | bad (aux : Nat)
  deriving DecidableEq, Repr

/-- An outstanding LD: its address, physical address and bytes, policy, whether it acquires, the scope that it still records
(R241), its destination, the owners of its base, Ctx and guard, the bytes read from the region store buffer by their place in
the access (R221), the remote home, and how far it is. -/
structure LoadOp where
  va     : Nat
  pa     : Nat
  n      : Nat
  policy : Policy
  acq    : Bool
  scope  : Option Scope
  dst    : Dst
  regs   : Nat
  signed : Bool
  mask   : Mask
  ovl   : List (Nat × Byte)
  mode   : Nat
  step   : Option Nat
  peer   : Option Nat
  stage  : LStage
  deriving DecidableEq, Repr

/-- A result that is known: it is written when it completes, from the package time `ready` on; `fp` holds the exceptions that a floating-point
instruction raises in FLAGS, `span` the bytes of an atomic. -/
structure LateOp where
  dst   : Dst
  regs  : Nat
  val   : Nat
  lbl   : Lbl
  fp    : Option Nat
  ready : Nat
  acq   : Bool
  span  : Option (Nat × Nat)
  deriving DecidableEq, Repr

/-- What an outstanding long-latency instruction of a thread still does (R101). -/
inductive AccOp where
  | load (o : LoadOp)
  | result (o : LateOp)
  /-- FPOP waiting at its bank (R200). -/
  | pop (bank : Nat) (dst : Dst) (bytes : Nat) (mask : Mask)
  /-- ST, RED, DISC: completes when each write has its WCT. -/
  | store
  /-- A pod write, or a region's pod entries: completes when each record is accepted (R273). -/
  | pod (left : Nat)
  /-- TIDE: its destination, and the label of its context and guard (R288). -/
  | tide (dst : Dst) (lbl : Lbl)
  /-- RGNC: completes when its region is released, the writes have WCTs, the records are accepted and the access of the closing atomic is done
  (R242). -/
  | rgnc (left : Nat) (closing : Option Nat)
  deriving DecidableEq, Repr

/-- An outstanding access or long-latency instruction. `epoch` is the core's translation epoch (R219); `hdr` and `pc` are the addresses of its clause
and of its instruction. -/
structure Acc where
  id      : Nat
  team    : Nat
  lid     : Nat
  core    : Nat
  cluster : Nat
  gang    : Nat
  flag    : Option Nat
  hdr     : Nat
  pc      : Nat
  resume  : Point
  trapped : Bool
  epoch   : Nat
  killed  : Bool
  op      : AccOp
  deriving DecidableEq, Repr

/-- An entry of a FIFO bank (R199). -/
structure FifoEntry where
  bytes : Nat
  val   : Nat
  lbl   : Lbl
  deriving DecidableEq, Repr

/-- A physical SRAM bank (R196) that has left CACHE mode since it was last cleared; in CACHE mode it holds only the labels of its granules (R202). A byte not listed reads the free byte
`Config.freeByte (free + offset)`, and a granule not listed has the public label. `pushed` lists the labels of the entries pushed since the bank
entered FIFO mode: a granule of the bank may hold the bits of such an entry when the bank leaves it (R202). -/
structure Bank where
  cluster : Nat
  phys    : Nat
  mode    : BankMode
  cells   : List Host.Cell
  free    : Nat
  labels  : List (Nat × Lbl)
  fifo    : List FifoEntry
  pushed  : List Lbl
  deriving DecidableEq, Repr

/-- A core's load cap with the start of its window, victim tags, translation epoch, TLB and last-page registers (R71, R72, R217, R219). The
register of load-store lane l of partition q is `lanes` at 32q + l. -/
structure Core where
  id     : Nat
  win    : Nat
  cap    : Nat
  loads  : Nat
  lost   : Nat
  tags   : List (Nat × Nat)
  epoch  : Nat
  tlb    : List Xlat
  lanes  : List (Nat × Xlat)
  deriving DecidableEq, Repr

/-- A pipe of a partition that a clause takes in the present cycle: V0, V1, M and C are 0 to 3 (R1, R70, R100). -/
structure PipeUse where
  core : Nat
  part : Nat
  pipe : Nat
  id   : Nat
  team : Nat
  deriving DecidableEq, Repr

/-- A sparsity queue of a partition: its team and entries (R185, R187). -/
structure SparseQ where
  core    : Nat
  part    : Nat
  q       : Nat
  team    : Nat
  entries : List (Nat × Lbl)
  deriving DecidableEq, Repr

/-! ### Jobs (R244 to R249) -/

inductive JobKind where
  | cpy | cpym (mask : Nat) | coll (tile : Option Nat) | xperm | chunk
  deriving DecidableEq, Repr

/-- Bytes of a job that an arrival word still has to count, and the writes that must be visible before (R205). -/
structure Arrival where
  bytes  : Nat
  writes : List Nat
  deriving DecidableEq, Repr

/-- An accepted job that is not complete. `trapped` says that its thread was in trap mode (R256). `card` is the 512-bit card as read at acceptance, `mask` the owners of the job label
(R123), `after` the earlier jobs that R247 puts before it, with whether only their reads are waited for. `seg` is the next
segment, `got` the later ones that are done, `dest` the next destination segment of a collective; `done` says that no access is
still to be made and `posted` that STATUS is on its way. `left` counts writes to pod pages that are not acknowledged, `epoch` is the core's
translation epoch of the oldest of them (R219), and `podSeq`, `seqs`, `teamIdx` and `depth` rank its pod writes (R275, R289): `podSeq` is the first
of the SEQ values that it reserved and `seqs` how many of them are for its data. `step` is the step of its latest pod writes (R317). The rest is a collective's: the group, SEQ and
hash (R315), whether its header is sent and its header round closed, the chunk's index and grid, and the contribution of a tile
or chunk (R316, R360). -/
structure Job where
  id       : Nat
  kind     : JobKind
  team     : Nat
  lid      : Nat
  world    : Nat
  space    : Nat
  cluster  : Nat
  core     : Nat
  flag     : Option Nat
  trapped  : Bool
  cardVa   : Nat
  card     : Nat
  mask     : Mask
  ceiling  : Mask
  after    : List (Nat × Bool)
  seg      : Nat
  got      : List Nat
  dest     : Nat
  done     : Bool
  posted   : Bool
  status   : Nat
  arrivals : List Arrival
  left     : Nat
  step     : Nat
  podSeq   : Nat
  seqs     : Nat
  epoch    : Nat
  teamIdx  : Nat
  depth    : Nat
  layout   : Option Nat
  gid      : Nat
  gen      : Nat
  seq      : Nat
  hash     : Word
  sent     : Bool
  opened   : Bool
  index    : Nat
  grid     : Option Nat
  data     : List Word
  deriving DecidableEq, Repr

/-- A layout record held in a die's layout cache (R250). -/
structure LayoutLine where
  die   : Nat
  world : Nat
  addr  : Nat
  val   : Nat
  deriving DecidableEq, Repr

/-! ### Worlds, domains and tides -/

inductive PeerState where
  | reachable | quiescing | absent
  deriving DecidableEq, Repr

structure Peer where
  logical : Nat
  phys    : Nat
  state   : PeerState
  deriving DecidableEq, Repr

/-- A merge record (R275); `mask` is the owner mask that it carries, `grid` the grid of its writer on the writer's package, which tells threads
apart that are equal in every field (R277, R278), and `ord` its place in the receiver's order of acceptance (R277). The last two are the model's
own. -/
structure MergeRec where
  step  : Nat
  pkg   : Nat
  team  : Nat
  lid   : Nat
  depth : Nat
  seq   : Nat
  rule  : Nat
  emask : Nat
  pa    : Nat
  lbl   : Lbl
  val   : Nat
  mask  : Mask
  grid  : Nat
  ord   : Nat
  deriving DecidableEq, Repr

/-- A bulk write of at most 256 bytes into the shadow half of a page (R279); `spill` says that its receiver keeps it in the spill half (R483). -/
structure Bulk where
  step : Nat
  pkg  : Nat
  page : Nat
  size : Nat
  off  : Nat
  data : List Byte
  mask : Mask
  spill : Bool
  deriving DecidableEq, Repr

inductive TideState where
  | running | arrived | applying | closing
  deriving DecidableEq, Repr

/-- Lowest logical package that reported each cause (R282). -/
structure Causes where
  overflow : Option Nat
  conflict : Option Nat
  reset    : Option Nat
  deriving DecidableEq, Repr

/-- A SHADOW page at its home: its live bit, who first bulk-wrote it in the current step, and whether a second package has (R279, R280). -/
structure Shadow where
  page   : Nat
  size   : Nat
  live   : Bool
  writer : Option Nat
  clash  : Bool
  deriving DecidableEq, Repr

/-- A world's tide domain on this package (R267, R284): the physical package and the dragonfly group of each member by logical
number, the step and its state, the causes that this package reports, the records sent and not acknowledged. `members` and
`merged` are the arrivals that the package holds as a combiner, `roots`, `rootMerged` and `rootStep` those that it holds as the
root (R282). `recs` and `spill` hold the records of the step in the buffer and the spill area, the `next` fields what belongs to the
step after it, `lost` the records discarded, and `status` and `origin` what the last release said. -/
structure Tide where
  size       : Nat
  me         : Nat
  phys       : List Nat
  groups     : List Nat
  step       : Nat
  state      : TideState
  causes     : Causes
  nextCauses : Causes
  unacked    : Nat
  members    : List Nat
  merged     : Causes
  roots      : List Nat
  rootMerged : Causes
  rootStep   : Nat
  status     : Nat
  origin     : Nat
  lost       : Nat
  nextLost   : Nat
  recs       : List MergeRec
  spill      : List MergeRec
  nextRecs   : List MergeRec
  nextSpill  : List MergeRec
  nextBulk   : List Bulk
  deriving DecidableEq, Repr

/-- Where an interrupt goes (R323): to the system cores, with the IMSIC identity that a world names, or to the host, with an MSI-X vector. -/
inductive IntTarget where
  | system
  | imsic (id : Nat)
  | msix (vector : Nat)
  deriving DecidableEq, Repr

/-- A world (R321). `clusters` maps logical to physical clusters, `banks` a cluster and a logical bank to its physical bank,
`queues` and `manifests` the logical numbers to the physical ones (R7). `served` counts the threads dispatched on a cluster, and
`waiting` lists the clusters at whose last decision the world had a record that could run (R40). -/
structure World where
  id         : Nat
  caps       : Mask
  clusters   : List (Nat × Nat)
  banks      : List (Nat × Nat × Nat)
  queues     : List Nat
  manifests  : List (Nat × Nat)
  peers      : List Peer
  debug      : Bool
  space      : Nat
  trapVec    : Nat
  pilotVec   : Nat
  recordArea : Nat
  recordVa   : Nat
  trapBlocks : Option Nat
  frameVa    : Nat
  launchCeil : Lbl
  keys       : List (Option Nat)
  epoch      : Nat
  sweep      : Option Nat
  scopeTraps : Bool
  mismatches : Nat
  mismatchLog : List (Nat × Nat × Nat)
  faultLog   : List (Nat × Nat × Nat × Nat × Nat)
  weights    : List (Nat × Nat)
  memWeights : List (Nat × Nat)
  allowances : List (Nat × Nat)
  served     : List (Nat × Nat)
  waiting    : List Nat
  share      : Nat
  spillBase  : Nat
  spillUnits : Nat
  targets    : List (Nat × IntTarget)
  shadows    : List Shadow
  tide       : Option Tide
  resetting  : Bool
  deriving DecidableEq, Repr

/-- A bound address space (R218). -/
structure Space where
  id      : Nat
  gen     : Nat
  root    : Nat
  world   : Nat
  flushed : Bool
  deriving DecidableEq, Repr

/-- A shootdown in progress (R219). -/
structure Shoot where
  seq   : Nat
  space : Nat
  lo    : Nat
  pages : Nat
  epochs : List (Nat × Nat)
  deriving DecidableEq, Repr

/-- An entry of the endorsement table (R133). -/
structure Endorse where
  uses   : Nat
  frm    : Lbl
  dest     : Lbl
  world  : Nat
  owner  : Nat
  issuer : Nat
  deriving DecidableEq, Repr

/-! ### Queues and journals -/

/-- A quay queue (R39): grids in order, head first. -/
structure Quay where
  phys  : Nat
  base  : Nat
  cap   : Nat
  items : List Nat
  tail  : Nat
  deriving DecidableEq, Repr

/-- A journal entry (R328); `state` is 0 accepted, 1 started, 2 retired, 3 aborted, 4 rejected. `queue` is the quay queue,
or 64 + the world for a system command queue; `notice` says that the command asked for an interrupt at its end (R323). -/
structure JEntry where
  queue  : Nat
  seq    : Nat
  tacc   : Nat
  tend   : Nat
  ref    : Nat
  detail : Nat
  kind   : Nat
  world  : Nat
  state  : Nat
  notice : Bool
  deriving DecidableEq, Repr

/-! ### Manifests (R290 to R304) -/

inductive ManState where
  | empty | recording | recorded | playing | suspended
  deriving DecidableEq, Repr

/-- A manifest entry (R293). -/
structure ManEntry where
  line : Nat
  kind : Bool
  prod : Nat
  cons : List Nat
  amb  : Bool
  deriving DecidableEq, Repr

/-- A delivery that has been decided (R295), with the clusters that it has not entered yet; `man` is the manifest that counts it,
none after REC.drop or REC.begin has acted on that manifest (R299, R428). -/
structure Delivery where
  id     : Nat
  man    : Option Nat
  line   : Nat
  wct    : Nat
  dests  : List Nat
  sent   : Bool
  deriving DecidableEq, Repr

/-- A manifest (R290, R300, R302): its space, the frames of its range, each with the number of its 64 KiB page, the mapping of each page of the
range as REC.begin found it (R301), its entries, counters and thresholds, and the time at which it became SUSPENDED. -/
structure Manifest where
  phys    : Nat
  world   : Nat
  state   : ManState
  space   : Nat
  frames  : List (Nat × Nat)
  maps    : List (Nat × Xlat)
  entries : List ManEntry
  cause   : Nat
  ovf     : Bool
  deliv   : Nat
  hits    : Nat
  misses  : Nat
  unread  : Nat
  mth     : Nat
  uth     : Nat
  suspAt  : Nat
  deriving DecidableEq, Repr

/-! ### Fabric -/

/-- A header that a tug holds for a collective (R315): SEQ, the sender's rank, hash and failure bit (R361). -/
structure CollHead where
  seq  : Nat
  rank : Nat
  hash : Word
  fail : Bool
  deriving DecidableEq, Repr

/-- A contribution that a tug holds (R314, R315): its SEQ, the sender's rank and operation hash, the place in the piece, the bytes and their
owners. -/
structure CollData where
  seq  : Nat
  rank : Nat
  hash : Word
  off  : Nat
  data : List Byte
  mask : Mask
  deriving DecidableEq, Repr

/-- An entry of the group table (R313), with the headers and contributions that the tugs hold for it. `mlist` is the address of the member
list in memory and `members` what it held when the entry became live: the logical packages by rank; `acks` lists the members whose drain marker is not acknowledged. -/
structure Group where
  id      : Nat
  seq     : Nat
  rank    : Nat
  world   : Nat
  state   : Nat
  gen     : Nat
  used    : Nat
  members : List Nat
  mlist   : Nat
  acks    : List Nat
  heads   : List CollHead
  datas   : List CollData
  deriving DecidableEq, Repr

/-- A slot of an optical port's slot table (R309). -/
structure Slot where
  port  : Nat
  idx   : Nat
  dest  : Nat
  guard : Nat
  len   : Nat
  v     : Bool
  deriving DecidableEq, Repr

/-- The remote loads of a MIGRATE page, counted at its home: the kept peer, the 16-bit saturating count and MTHR (R216). -/
structure MigCount where
  page  : Nat
  world : Nat
  peer  : Nat
  count : Nat
  mthr  : Nat
  deriving DecidableEq, Repr

/-- What a fabric packet carries. -/
inductive Msg where
  | record (r : MergeRec) (acc : Nat)
  | bulk (b : Bulk) (job : Nat)
  | ack (acc step : Nat) (overflow conflict : Bool)
  /-- The refusal of a contribution to a collective (R131). -/
  | refused (job : Nat)
  /-- A load with the mode of its page, the scope and team tag that it records (R241), and the WCT for which it waits at its home or 0 (R230). -/
  | loadReq (acc pa n mode : Nat) (step : Option Nat) (page mthr : Nat) (scope : Option Scope) (tag wait : Nat)
  /-- Its answer: the bytes and their owners, TRAPAUX of an error or 0, and the whole line where it may be cached (R271). -/
  | loadResp (acc : Nat) (val : Nat) (mask : Mask) (bad : Nat) (line : Option Nat)
  | arrive (logical : Nat) (fromGroup : Bool) (step : Nat) (c : Causes)
  | lateReset (logical step : Nat)
  | release (toGroup : Bool) (step status origin : Nat)
  | podLine (line step val : Nat)
  | header (gid gen : Nat) (h : CollHead)
  | contribution (gid gen job : Nat) (d : CollData)
  | drain (gid : Nat)
  | drainAck (gid : Nat)
  | peerDrain (peer : Nat)
  | peerDrainAck (peer : Nat)
  deriving DecidableEq, Repr

/-- A packet between packages, by physical package numbers; `seq` numbers the packets of one source, and `key` is the key-epoch bit that the
world's data has at the source (R305). -/
structure Packet where
  src   : Nat
  dst   : Nat
  seq   : Nat
  world : Nat
  key   : Nat
  msg   : Msg
  deriving DecidableEq, Repr

/-- A fabric port with its tug (R306, R309, R310, R312). An optical port's `start` is the package time at which its slot began, `queue` its send
queues in order of arrival, and `used` the 64-byte units that each world has sent in the slot. -/
structure Port where
  id       : Nat
  erasures : Nat
  retired  : Bool
  slots    : List Slot
  pending  : List Slot
  slot     : Nat
  start    : Nat
  queue    : List Packet
  used     : List (Nat × Nat)
  firmware : Nat
  stale    : Nat
  deriving DecidableEq, Repr

/-- A circuit change in progress (R311): the peers waited for and the tables to install. -/
structure Circuit where
  journal : Nat
  peers   : List Nat
  tables  : List (Nat × Nat × Nat)
  dark    : Bool
  deriving DecidableEq, Repr

/-! ### System software -/

/-- The event class of an interrupt (R323). -/
inductive IntClass where
  | labelFull | doubleTrap | erasure | linkRetire | tugFault | journal | snapshot
  deriving DecidableEq, Repr

/-- A copy of a boot image in the flash (R319): its hash, and the firmware keys under which its Ed25519 and its ML-DSA-65 signature verify. -/
structure FlashImage where
  idx  : Nat
  copy : Nat
  hash : Nat
  ed   : Nat
  ml   : Nat
  deriving DecidableEq, Repr

/-- What a system core does (R319): it is held in reset, it runs the boot ROM, or it runs the system software. -/
inductive SysCore where
  | held | rom | running
  deriving DecidableEq, Repr

/-- What the snapshot registers of the blocks hold after a trigger (R330, R331): the time, the sources, and the state of the cores, of the clusters'
SRAM, of the job engines, of the manifests and of the fabric ports. Each bank stands with the world that holds it. -/
structure Snapshot where
  time    : Nat
  sources : List Nat
  teams   : List Team
  gangs   : List Gang
  parts   : List Partition
  cores   : List Core
  rounds  : List Round
  sparse  : List SparseQ
  accs    : List Acc
  writes  : List Write
  jobs    : List Job
  banks   : List (Nat × Bank)
  mans    : List Manifest
  ports   : List Port
  deriving DecidableEq, Repr

/-- A scrub receipt (R327). -/
structure Receipt where
  rnum    : Nat
  world   : Nat
  pkg     : Nat
  meas    : Nat
  nframes : Nat
  tstart  : Nat
  tend    : Nat
  excl    : List (Nat × Nat)
  xhash   : Nat
  sigEd   : Nat
  sigMl   : Nat
  deriving DecidableEq, Repr

/-- A scrub whose receipt is not issued yet, with its writes: none while the scrub of a world reset has not begun. -/
structure ScrubRun where
  seq     : Nat
  journal : Nat
  world   : Nat
  tstart  : Nat
  nframes : Nat
  excl    : List (Nat × Nat)
  writes  : Option (List Nat)
  deriving DecidableEq, Repr

/-- An attestation report (R320): `fuse` is the debug fuse and `keys` the firmware keys that the fuses hold. -/
structure Report where
  nonce : Nat
  mrs   : List Nat
  fuse  : Bool
  keys  : Nat × Nat
  pkg   : Nat
  world : Option (Bool × Mask)
  sigEd : Nat
  sigMl : Nat
  deriving DecidableEq, Repr

/-- A crash dump (R333), in the host's buffer or in the flash: the numbers of the frames omitted, the bytes of the others, the teams whose register state
is included, the key slots of the worlds that are not protected, and what the snapshot registers show. -/
structure Dump where
  toFlash : Bool
  omitted : List Nat
  mem     : List Host.Cell
  teams   : List Team
  keys    : List (Nat × List (Option Nat))
  snaps   : List Snapshot
  deriving DecidableEq, Repr

/-- Boot, attestation, debug and interrupts (R318 to R333). `keyId` is the pair of firmware keys that the fuses hold: Ed25519 and ML-DSA-65. -/
structure System where
  cores     : List SysCore
  mrs       : List Nat
  bootHalt  : Option Nat
  booted    : Bool
  flash     : List FlashImage
  keyId     : Nat × Nat
  devFuse   : Bool
  snapctl   : Word
  sworld    : Nat
  snapAt    : List Nat
  snaps     : List Snapshot
  ints      : List (IntClass × Nat × IntTarget)
  reports   : List Report
  receipts  : List Receipt
  scrubs    : List ScrubRun
  dumps     : List Dump
  retired   : List (Nat × Nat)
  console   : List Bool
  deriving DecidableEq, Repr

/-! ### The package -/

/-- One package: everything that one EO-S4600 module holds (R1). `freed` lists the clusters that a team has left in the present cycle (R40). `moves` lists the moves of MIGRATE pages that the homes asked
of the system cores: world, page and peer (R216). `homeAt` is 0, or one more than the last cycle in which a write or a transfer reached a home
(R300). `draws` counts the free values read; `picks` resolves
the selections that the manual leaves open (which free gang id, team tag or TLB entry is taken): each selection takes its
head, and 0 when it is exhausted. Both are the model's own fields. -/
structure Package where
  phys      : Nat
  now       : Nat
  agenda    : List Instr
  inbox     : List Packet
  out       : List Packet
  sent      : Nat
  draws     : Nat
  picks     : List Nat
  nextId    : Nat
  issue     : Option Issue
  issued    : List (Nat × Nat × Nat)
  pipes     : List PipeUse
  freed     : List Nat
  teams     : List Team
  gangs     : List Gang
  parts     : List Partition
  cores     : List Core
  rounds    : List Round
  sparse    : List SparseQ
  grids     : List Grid
  quays     : List Quay
  journal   : List JEntry
  jobs      : List Job
  accs      : List Acc
  writes    : List Write
  lines     : List Line
  horizons  : List (Nat × Nat)
  mem       : List Host.Cell
  glabels   : List (Nat × Lbl)
  epochs    : List Nat
  bad       : List Nat
  owners    : List (Nat × Nat)
  code      : List (Nat × BitVec 16)
  banks     : List Bank
  layouts   : List LayoutLine
  labels    : List (Nat × Mask)
  labelBase : Option Nat
  endorse   : List (Nat × Endorse)
  worlds    : List World
  spaces    : List Space
  shoots    : List Shoot
  walks     : List WalkLine
  pods      : List PodCopy
  mans      : List Manifest
  dels      : List Delivery
  carveOut  : Bool
  groups    : List Group
  ports     : List Port
  circuit   : Option Circuit
  migrate   : List MigCount
  moves     : List (Nat × Nat × Nat)
  homeAt    : Nat
  sys       : System
  deriving DecidableEq, Repr

/-- The machine: the package in focus, the other packages of the pod, the packets that the fabric has accepted and not
delivered, and the sequence of choices among events that the manual leaves unordered (R470): the head says which enabled
event comes next. `choices` is the model's own field; when it is exhausted, the first enabled event comes next. -/
structure State where
  here    : Package
  others  : List Package
  net     : List Packet
  choices : List Nat
  deriving DecidableEq, Repr

/-! ### Reset -/

/-- A register that no program has written: 0 with the public label. -/
def LReg.zero : LReg := { val := 0, lbl := 0 }
def LBit.zero : LBit := { val := false, lbl := 0 }
def Latch.empty : Latch := { regs := 0, val := 0, lbl := 0 }
def TrapRegs.zero : TrapRegs := { cause := 0, pc := 0, va := 0, vmask := 0, lbl := 0, aux := 0 }

def SignReg.idle : SignReg :=
  { keyLit := 0, keyWord := 0, row := 0, round := 0, state := .idle, signed := 0, expect := 0, op := none, sigs := [] }

/-- A manifest at package reset (R300). -/
def Manifest.reset (k : Nat) : Manifest :=
  { phys := k, world := 0, state := .empty, space := 0, frames := [], maps := [], entries := [], cause := 0, ovf := false, deliv := 0, hits := 0
    misses := 0, unread := 0, mth := 0, uth := 0, suspAt := 0 }

/-- The system block after package reset, before the boot ROM has run: one system core runs it, and the others are held in reset (R319). -/
def System.reset : System :=
  { cores := .rom :: List.replicate 7 .held, mrs := [0, 0, 0, 0], bootHalt := none, booted := false, flash := [], keyId := (0, 0), devFuse := false, snapctl := 0
    sworld := 0, snapAt := [], snaps := [], ints := [], reports := [], receipts := [], scrubs := [], dumps := [], retired := []
    console := [] }

/-- A package after package reset (R324): no world, team, key or manifest; label entry 0 live and public, entry 0xFFFF
reserved (R107: it is never listed here); every bank in CACHE mode (R196: banks are listed only in another mode). -/
def Package.reset : Package :=
  { phys := 0, now := 0, agenda := [], inbox := [], out := [], sent := 0, draws := 0, picks := [], nextId := 0, issue := none
    issued := [], pipes := [], freed := [], teams := [], gangs := [], parts := [], cores := [], rounds := [], sparse := [], grids := [], quays := []
    journal := [], jobs := [], accs := [], writes := [], lines := [], horizons := [], mem := [], glabels := []
    epochs := [], bad := [], owners := [], code := [], banks := [], layouts := [], labels := [(0, 0)], labelBase := none, endorse := []
    worlds := [], spaces := [], shoots := [], walks := [], pods := [], mans := [], dels := [], carveOut := false, groups := [], ports := []
    circuit := none, migrate := [], moves := [], homeAt := 0, sys := System.reset }

/-- The machine right after reset: one package, in the state of a package reset. -/
def State.reset : State := { here := Package.reset, others := [], net := [], choices := [] }

end Sys2Proof.Machine
end

