-- ==== Sys2Proof/Machine/Base.lean ====
section
/-! DEFINITION. Accessors of the state: sparse tables in canonical form, list updates, the label table, threads, gangs
and the layout of a team on its cores. -/

namespace Sys2Proof.Machine

/-! ### Sparse tables: strictly rising keys, no entry equal to the default -/

/-- The value at a key, `d` where it is not listed. -/
def spGet {α : Type} (d : α) : List (Nat × α) → Nat → α
  | [], _ => d
  | (b, w) :: m, a => if a = b then w else spGet d m a

/-- The table with the value at a key replaced, in canonical form. -/
def spSet {α : Type} [DecidableEq α] (d : α) : List (Nat × α) → Nat → α → List (Nat × α)
  | [], a, v => if v = d then [] else [(a, v)]
  | (b, w) :: m, a, v =>
    if a < b then (if v = d then (b, w) :: m else (a, v) :: (b, w) :: m)
    else if a = b then (if v = d then m else (a, v) :: m)
    else (b, w) :: spSet d m a v

/-- The entry at a key, where it is listed. -/
def spFind {α : Type} : List (Nat × α) → Nat → Option α
  | [], _ => none
  | (b, w) :: m, a => if a = b then some w else spFind m a

/-- The table with an entry written, whatever its value. -/
def spPut {α : Type} : List (Nat × α) → Nat → α → List (Nat × α)
  | [], a, v => [(a, v)]
  | (b, w) :: m, a, v =>
    if a < b then (a, v) :: (b, w) :: m
    else if a = b then (a, v) :: m
    else (b, w) :: spPut m a v

/-- The canonical form above a lower bound: keys strictly rising from `lo` on, no value equal to the default. -/
def spWfFrom {α : Type} [DecidableEq α] (d : α) (lo : Nat) : List (Nat × α) → Bool
  | [] => true
  | (b, w) :: m => decide (lo ≤ b) && decide (w ≠ d) && spWfFrom d (b + 1) m

def spWf {α : Type} [DecidableEq α] (d : α) (m : List (Nat × α)) : Bool := spWfFrom d 0 m

/-- The canonical form of memory (R193): strictly rising addresses, no byte equal to 0, which an unlisted byte reads. -/
def Memory.wf (m : List Host.Cell) : Bool := spWf (0 : Byte) m

/-! ### Lists -/

/-- The list with `f` applied to the entries that satisfy `c`. -/
def mapIf {α : Type} (c : α → Bool) (f : α → α) (l : List α) : List α := l.map (fun x => if c x then f x else x)

/-- The entries that differ from `k`. -/
def without (k : Nat) (l : List Nat) : List Nat := l.filter (· != k)

/-- The number k put at the end of a list of distinct numbers. -/
def adjoin (k : Nat) (l : List Nat) : List Nat := if l.contains k then l else l ++ [k]

/-- The list in ascending order of a key; equal keys keep their order. -/
def insertBy {α : Type} (key : α → Nat) (x : α) : List α → List α
  | [] => [x]
  | y :: ys => if key x < key y then x :: y :: ys else y :: insertBy key x ys

def sortBy {α : Type} (key : α → Nat) (l : List α) : List α := l.foldl (fun acc x => insertBy key x acc) []

/-- The least number in [lo, lo + fuel) that the predicate rejects as taken. -/
def firstFree (taken : Nat → Bool) (lo : Nat) : Nat → Option Nat
  | 0 => none
  | fuel + 1 => if taken lo then firstFree taken (lo + 1) fuel else some lo

/-- The entry of a list that has the least key; the first of equal ones. -/
def leastBy {α : Type} (key : α → Nat) : List α → Option α
  | [] => none
  | x :: xs =>
    match leastBy key xs with
    | none => some x
    | some y => if key y < key x then some y else some x

/-- Package time (R3): the 64-bit counter of cycles. `now` counts the cycles themselves, so that deadlines stay in order where the counter
wraps (DESIGN CHOICE: the spec does not say what a wrap does to the times stated in cycles). -/
def Package.time (p : Package) : Nat := p.now % 2 ^ 64

/-! ### The label table (R105 to R111) -/

/-- The owner set of a label; a label that names no live entry has no owner of its own (R111). -/
def Package.maskOf (p : Package) (l : Lbl) : Mask := ((p.labels.find? (fun e => e.1 == l.toNat)).map (·.2)).getD 0

/-- Whether an index names a live entry. -/
def Package.live (p : Package) (l : Nat) : Bool := p.labels.any (fun e => e.1 == l)

/-- The live index of an owner set. -/
def Package.findMask (p : Package) (m : Mask) : Option Nat := (p.labels.find? (fun e => e.2 == m)).map (·.1)

/-- The free entry of lowest index, in a table sorted by index; 0xFFFF is never free (R106, R108). -/
def freeIndex : Nat → List (Nat × Mask) → Nat
  | n, [] => n
  | n, (k, _) :: es => if n = k then freeIndex (n + 1) es else n

/-- The label of an owner set: its live entry, or the free entry of lowest index made live (R108); none when a new entry
is needed and none is free (R110). -/
def Package.labelFor (p : Package) (m : Mask) : Option (Lbl × Package) :=
  match p.findMask m with
  | some k => some (BitVec.ofNat 16 k, p)
  | none =>
    let k := freeIndex 0 p.labels
    if k < 0xFFFF then some (BitVec.ofNat 16 k, { p with labels := insertBy (·.1) (k, m) p.labels }) else none

/-- Dominates (R31) on owner sets: a contains b. -/
def dominates (a b : Mask) : Bool := a &&& b == b

/-- Join (R31) of the owner sets of labels. -/
def Package.joinOf (p : Package) (ls : List Lbl) : Mask := ls.foldl (fun m l => m ||| p.maskOf l) 0

/-! ### Teams and threads -/

/-- A thread named by its team and local id. -/
structure Who where
  team : Nat
  lid  : Nat
  deriving DecidableEq, Repr

def Package.team? (p : Package) (t : Nat) : Option Team := p.teams.find? (fun tm => tm.id == t)

def Package.setTeam (p : Package) (t : Nat) (f : Team → Team) : Package :=
  { p with teams := mapIf (fun tm => tm.id == t) f p.teams }

def Team.thread? (tm : Team) (lid : Nat) : Option Thread := tm.threads.find? (fun th => th.lid == lid)

def Team.setThread (tm : Team) (lid : Nat) (f : Thread → Thread) : Team :=
  { tm with threads := mapIf (fun th => th.lid == lid) f tm.threads }

def Package.thread? (p : Package) (w : Who) : Option Thread := (p.team? w.team).bind (fun tm => tm.thread? w.lid)

def Package.setThread (p : Package) (w : Who) (f : Thread → Thread) : Package :=
  p.setTeam w.team (fun tm => tm.setThread w.lid f)

def Package.world? (p : Package) (w : Nat) : Option World := p.worlds.find? (fun x => x.id == w)

def Package.setWorld (p : Package) (w : Nat) (f : World → World) : Package :=
  { p with worlds := mapIf (fun x => x.id == w) f p.worlds }

/-- A live thread has neither exited nor been killed. -/
def Thread.live (th : Thread) : Bool := th.status != .dead

/-- The local id 0 is the pilot's (R32). -/
def Who.isPilot (w : Who) : Bool := w.lid == 0

/-- Ctx(t) as an owner set (R31). -/
def Thread.ctxMask (th : Thread) (p : Package) : Mask := p.joinOf (th.ctx.map (·.lbl))

/-- Team row of a lane thread (R43). -/
def rowOf (lid : Nat) : Nat := (lid - 1) / 32

/-- Lane of a thread (R34, R43). -/
def laneOf (lid : Nat) : Nat := lid % 32

/-- The lane thread of row q and lane l (R170). -/
def lidOf (q l : Nat) : Nat := 32 * q + (if l = 0 then 32 else l)

/-- Cores that a team occupies. -/
def Team.c (tm : Team) : Nat := if tm.cores.length = 0 then 1 else tm.cores.length

/-- The core, partition and register row of a team row (R43). -/
def Team.rowCore (tm : Team) (q : Nat) : Nat := tm.cores.getD (q % tm.c) 0
def Team.rowPart (tm : Team) (q : Nat) : Nat := (q / tm.c) % 4
def Team.rowReg (tm : Team) (q : Nat) : Nat := q / (4 * tm.c)

/-- The team row that a partition holds first. -/
def Team.rowIn (tm : Team) (core part : Nat) : Nat :=
  ((List.range 256).find? (fun q => tm.rowCore q == core && tm.rowPart q == part)).getD 0

/-- Core and partition of a thread; the pilot's are those of team row 0 (R52). -/
def Team.coreOf (tm : Team) (lid : Nat) : Nat := if lid = 0 then tm.rowCore 0 else tm.rowCore (rowOf lid)
def Team.partOf (tm : Team) (lid : Nat) : Nat := if lid = 0 then tm.rowPart 0 else tm.rowPart (rowOf lid)

/-- The local id that a thread's buddy would have (R44). -/
def Team.buddyId (tm : Team) (lid : Nat) : Nat :=
  if tm.rowReg (rowOf lid) % 2 = 0 then lid + 128 * tm.c else lid - 128 * tm.c

/-- The lower local id of a thread and its buddy, under which the extended set is kept (R44, R74). -/
def Team.extBase (tm : Team) (lid : Nat) : Nat :=
  if tm.rowReg (rowOf lid) % 2 = 0 then lid else lid - 128 * tm.c

def Team.extBlock? (tm : Team) (lid : Nat) : Option ExtBlock := tm.ext.find? (fun e => e.base == tm.extBase lid)

/-- Whether a thread holds the extended set (R74). -/
def Team.holdsExt (tm : Team) (lid : Nat) : Bool :=
  match tm.extBlock? lid with
  | some e => e.holder == some lid
  | none => false

/-- Live lane threads of a team. -/
def Team.liveLanes (tm : Team) : List Thread := tm.threads.filter (fun th => th.lid != 0 && th.live)

def Team.pilotLive (tm : Team) : Bool := tm.threads.any (fun th => th.lid == 0 && th.live)

/-- Global id of R33, with the launch depth that breaks ties below it. -/
def Team.globalId (tm : Team) (lid : Nat) : Nat := tm.index * 2 ^ 14 + lid

/-- Fields of a continuation record (R35). -/
def recDepth (r : Nat) : Nat := bitsOf 399 396 r
def recWorld (r : Nat) : Nat := bitsOf 405 400 r
def recCeiling (r : Nat) : Nat := bitsOf 423 408 r
def recPrio (r : Nat) : Nat := bitsOf 426 424 r
def recCores (r : Nat) : Nat := bitsOf 395 394 r + 1
def recTx (r : Nat) : Nat := bitsOf 365 352 r
def recTy (r : Nat) : Nat := bitsOf 379 366 r
def recTz (r : Nat) : Nat := bitsOf 393 380 r
def recGx (r : Nat) : Nat := bitsOf 319 288 r
def recGy (r : Nat) : Nat := bitsOf 335 320 r
def recGz (r : Nat) : Nat := bitsOf 351 336 r
def recNext (r : Nat) : Nat := bitsOf 287 256 r
def recLeft (r : Nat) : Nat := bitsOf 255 224 r
def recJoin (r : Nat) : Nat := bitsOf 223 192 r
def recParent (r : Nat) : Nat := bitsOf 191 128 r
def recFrame (r : Nat) : Nat := bitsOf 127 64 r
def recKdesc (r : Nat) : Nat := bitsOf 63 0 r
def recCbound (r : Nat) : Bool := bitsOf 454 454 r == 1
def recCtile (r : Nat) : Nat := bitsOf 453 448 r
def recChandle (r : Nat) : Nat := bitsOf 447 432 r
def recCcard (r : Nat) : Nat := bitsOf 511 455 r
/-- Lane threads of one team, and teams of the grid (R32). -/
def recThreads (r : Nat) : Nat := recTx r * recTy r * recTz r
def recTeams (r : Nat) : Nat := recGx r * recGy r * recGz r

/-- The record with the field at bits h to l replaced. -/
def setBits (h l v r : Nat) : Nat := r - (bitsOf h l r) * 2 ^ l + (v % 2 ^ (h + 1 - l)) * 2 ^ l

/-! ### Gangs -/

def Package.gang? (p : Package) (core id team : Nat) : Option Gang :=
  p.gangs.find? (fun g => g.core == core && g.id == id && (id != Config.pilotGang || g.team == team))

def Gang.is (g : Gang) (core id team : Nat) : Bool := g.core == core && g.id == id && (id != Config.pilotGang || g.team == team)

def Package.setGang (p : Package) (core id team : Nat) (f : Gang → Gang) : Package :=
  { p with gangs := mapIf (fun g => g.is core id team) f p.gangs }

/-- Whether a gang is a pilot's (R52). -/
def Gang.pilot (g : Gang) : Bool := g.id == Config.pilotGang

/-- Takes a thread out of its gang; a gang without threads dissolves (R55). -/
def Package.leaveGang (p : Package) (w : Who) : Package :=
  let gs := mapIf (fun g => g.team == w.team) (fun g => { g with lids := without w.lid g.lids, blocked := without w.lid g.blocked }) p.gangs
  { p with gangs := gs.filter (fun g => !g.lids.isEmpty) }

/-- One of `n` alternatives that the manual leaves open, and the package after the choice. -/
def Package.pick (p : Package) (n : Nat) : Nat × Package :=
  match p.picks with
  | [] => (0, p)
  | k :: ks => ((if n = 0 then 0 else k % n), { p with picks := ks })

/-- A new identifier for the model's own lists of accesses, writes, jobs, rounds and grids. -/
def Package.fresh (p : Package) : Nat × Package := (p.nextId, { p with nextId := p.nextId + 1 })

/-- Where an interrupt of a world and event class n goes: to the target that the world names for it, or to the system cores; one of world 0 always goes to
the system cores (R323). -/
def Package.intTarget (p : Package) (world n : Nat) : IntTarget :=
  if world = 0 then .system
  else ((p.world? world).bind (fun w => (w.targets.find? (fun t => t.1 == n)).map (·.2))).getD .system

/-- Raises an interrupt (R323): class and world. -/
def Package.interrupt (p : Package) (c : IntClass) (world : Nat) (n : Nat) : Package :=
  let target := p.intTarget world n
  { p with sys := { p.sys with ints := p.sys.ints ++ [(c, world, target)] } }

/-! ### Physical memory -/

def Package.byteAt (p : Package) (pa : Nat) : Byte := spGet 0 p.mem pa

/-- n bytes at a physical address, little-endian. -/
def Package.readPa (p : Package) (pa : Nat) : Nat → Nat
  | 0 => 0
  | n + 1 => (p.byteAt pa).toNat + 256 * p.readPa (pa + 1) n

def putBytes (m : List Host.Cell) (pa : Nat) : List Byte → List Host.Cell
  | [] => m
  | b :: bs => putBytes (spSet 0 m pa b) (pa + 1) bs

def putCells (m : List Host.Cell) : List Host.Cell → List Host.Cell
  | [] => m
  | (a, b) :: cs => putCells (spSet 0 m a b) cs

/-- The granule that contains a physical address, by number (R31). -/
def granuleOf (pa : Nat) : Nat := pa / 32

def Package.glabel (p : Package) (granule : Nat) : Lbl := spGet 0 p.glabels granule

/-- Granules that n bytes at an address touch. -/
def granules (pa n : Nat) : List Nat :=
  (List.range ((pa + n - 1) / 32 - pa / 32 + 1)).map (fun k => pa / 32 + k)

/-- The 64-byte line of a physical address, by number. -/
def lineOf (pa : Nat) : Nat := pa / 64

/-- A store to a code line clears its clause-start map (R97). -/
def clearCode (code : List (Nat × BitVec 16)) (line : Nat) : List (Nat × BitVec 16) := spSet 0 code line 0

/-- The frame ownership table; a frame that is not listed is the system's (R211). -/
def Package.ownerOf (p : Package) (pa : Nat) : Nat := spGet 0 p.owners (pa / 2 ^ 16)

/-- The current key epoch of a world (R209). -/
def Package.epochOf (p : Package) (world : Nat) : Nat := ((p.world? world).map (·.epoch)).getD 0

/-- The epoch with which a write to an address is encrypted: that of the frame's owner, world 63 for a commons frame (R209, R210). -/
def Package.keyAt (p : Package) (pa : Nat) : Nat := p.epochOf (p.ownerOf pa)

/-- The key-epoch bit of a sector (R194): the sectors listed carry 1. -/
def setEpoch (es : List Nat) (sector : Nat) (bit : Nat) : List Nat :=
  if bit = 1 then (if es.contains sector then es else insertBy id sector es) else without sector es

/-- Bytes written at once at their homes, without a WCT, under the current key (R210): trap frames, records written by hardware, applies. -/
def Package.pokeBytes (p : Package) (pa : Nat) (bs : List Byte) : Package :=
  { p with mem := putBytes p.mem pa bs
           epochs := (granules pa bs.length).foldl (fun es g => setEpoch es g (p.keyAt (32 * g))) p.epochs
           code := (List.range ((pa + bs.length - 1) / 64 - pa / 64 + 1)).foldl (fun c k => clearCode c (pa / 64 + k)) p.code }

def Package.poke (p : Package) (pa n v : Nat) : Package := p.pokeBytes pa (toBytes n v)

def Package.setGlabel (p : Package) (granule : Nat) (l : Lbl) : Package := { p with glabels := spSet 0 p.glabels granule l }

end Sys2Proof.Machine
end

