-- ==== Sys2Proof/Machine/Sched.lean ====
section
/-! DEFINITION. Filing of threads, berths and gangs (R53 to R56), divergence records (R57 to R63), the end of a clause, and
the end of a thread and of a team's body (R46, R174, R265, R380). -/

namespace Sys2Proof.Machine

/-! ### Berths and gangs -/

def BerthEntry.same (a b : BerthEntry) : Bool := a.team == b.team && a.point == b.point && a.key == b.key

/-- The berths that are in use: the first entry of each team, point and key. -/
def berthHeads : List BerthEntry → List BerthEntry
  | [] => []
  | e :: es => e :: (berthHeads es).filter (fun x => !x.same e)

def Package.partition (p : Package) (core part : Nat) : Partition :=
  (p.parts.find? (fun x => x.core == core && x.part == part)).getD { core, part, berths := [], queue := [] }

def Package.setPartition (p : Package) (x : Partition) : Package :=
  if p.parts.any (fun y => y.core == x.core && y.part == x.part) then
    { p with parts := mapIf (fun y => y.core == x.core && y.part == x.part) (fun _ => x) p.parts }
  else { p with parts := p.parts ++ [x] }

/-- Whether a berth of the key of an entry is in use. -/
def Partition.matches (x : Partition) (e : BerthEntry) : Bool := x.berths.any (fun y => y.same e)

/-- Whether a berth can take an entry: one with its key, or a free one (R53). -/
def Partition.takes (x : Partition) (e : BerthEntry) : Bool := x.matches e || decide ((berthHeads x.berths).length < Config.berths)

/-- A thread is placed in the berth that matches, in a free berth, or in the filing queue; a free berth goes to those who wait in the queue
first (R53). -/
def Partition.file (x : Partition) (e : BerthEntry) : Partition :=
  if x.matches e || (x.queue.isEmpty && x.takes e) then { x with berths := x.berths ++ [e] } else { x with queue := x.queue ++ [e] }

/-- The threads of the filing queue that a berth can take are filed, in arrival order (R53). -/
def Partition.drain (x : Partition) : Partition :=
  x.queue.foldl (fun x e => if x.takes e then { x with berths := x.berths ++ [e] } else { x with queue := x.queue ++ [e] })
    { x with queue := [] }

def Package.drainPart (p : Package) (core part : Nat) : Package :=
  let x := p.partition core part
  if x.queue.isEmpty then p else p.setPartition x.drain

/-- A thread blocked in the 256 cycles after its YIELD (R64). -/
def Thread.yieldBlocked (th : Thread) (now : Nat) : Bool := now < th.yieldTo

/-- R54 (b): the berth holds every live lane thread of the team in the partition that is neither parked, nor blocked, nor
in a gang. A thread in the fault berth is blocked (R224, R258); one that waits for its trap entry (R252) is not. -/
def Package.berthComplete (p : Package) (core part : Nat) (es : List BerthEntry) (team : Nat) : Bool :=
  match p.team? team with
  | none => false
  | some tm =>
    tm.liveLanes.all (fun th =>
      !(tm.coreOf th.lid == core && tm.partOf th.lid == part
          && (match th.status with | .filed => !th.yieldBlocked p.now | .trapping _ => true | _ => false))
        || es.any (fun e => e.lid == th.lid))

/-- The gang ids 0 to 510 that are free in a core (R54); the gang of the clause that is being issued keeps its id until the clause
ends. -/
def Package.freeGangIds (p : Package) (core : Nat) : List Nat :=
  (List.range 511).filter (fun k =>
    !p.gangs.any (fun g => g.core == core && g.id == k) && !p.issue.any (fun i => i.core == core && i.id == k))

/-- The oldest entry of each lane of a berth, in ascending lane order (R54). Of two entries of one lane that were filed in one cycle the first filed is
taken (DESIGN CHOICE: the spec does not say which of two of the same age goes first). -/
def oldestPerLane (es : List BerthEntry) : List BerthEntry :=
  (List.range 32).filterMap (fun l => leastBy (·.since) (es.filter (fun e => laneOf e.lid == l)))

/-- The berth of a key yields a gang, when an id is free (R54). It yields as long as one of its threads does (R469). -/
def Package.formGang (p : Package) (core part : Nat) (k : BerthEntry) : Package :=
  let x := p.partition core part
  let chosen := oldestPerLane (x.berths.filter (fun e => e.same k))
  let ids := p.freeGangIds core
  if ids.isEmpty || chosen.isEmpty then p
  else
    let (n, p) := p.pick ids.length
    let id := ids.getD n 0
    let lids := chosen.map (·.lid)
    let yieldTo := lids.foldl (fun m l => max m (((p.thread? ⟨k.team, l⟩).map (·.yieldTo)).getD 0)) 0
    let p := p.setPartition { x with berths := x.berths.filter (fun e => !(e.same k && lids.contains e.lid)) }
    let p := lids.foldl (fun p l => p.setThread ⟨k.team, l⟩ (fun th => { th with status := .gang core id })) p
    { p with gangs := p.gangs ++ [{ core, part, id, team := k.team, lids, point := k.point, held := none, stall := .none
                                    blocked := [], since := [], yieldTo }] }

/-- The first berth that yields a gang under R54 (a) or (b). -/
def Package.readyBerth (p : Package) (core part : Nat) : Option BerthEntry :=
  let x := p.partition core part
  (berthHeads x.berths).find? (fun k =>
    let es := x.berths.filter (fun e => e.same k)
    (List.range 32).all (fun l => es.any (fun e => laneOf e.lid == l)) || p.berthComplete core part es k.team)

/-- Berths yield gangs under R54 (a) and (b) while any does, and the filing queue fills the berths that empty (R53). -/
def Package.settlePart (core part : Nat) : Nat → Package → Package
  | 0, p => p
  | n + 1, p =>
    let p := p.drainPart core part
    match p.readyBerth core part with
    | some k => if (p.freeGangIds core).isEmpty then p else Package.settlePart core part n (p.formGang core part k)
    | none => p

/-- Gang formation in every partition that has berth entries. -/
def Package.settle (p : Package) : Package :=
  p.parts.foldl (fun p x => Package.settlePart x.core x.part
    ((p.partition x.core x.part).berths.length + (p.partition x.core x.part).queue.length + 1) p) p

/-- Files threads of a team, each at its point with its sort key, and lets the berths yield gangs (R53, R54). The pilot
continues as the gang of id 0x1FF (R52). -/
def Package.fileAll (p : Package) (team : Nat) (xs : List (Nat × Point × BitVec 16)) : Package :=
  match p.team? team with
  | none => p
  | some tm =>
    let p := xs.foldl (fun p x => p.leaveGang ⟨team, x.1⟩) p
    let p := xs.foldl (fun p (x : Nat × Point × BitVec 16) =>
      let core := tm.coreOf x.1
      let part := tm.partOf x.1
      if x.1 = 0 then
        let yieldTo := ((p.thread? ⟨team, 0⟩).map (·.yieldTo)).getD 0
        let p := p.setThread ⟨team, 0⟩ (fun th => { th with status := .gang core Config.pilotGang, point := x.2.1 })
        { p with gangs := p.gangs ++ [{ core, part, id := Config.pilotGang, team, lids := [0], point := x.2.1
                                        held := none, stall := .none, blocked := [], since := [], yieldTo }] }
      else
        let p := p.setThread ⟨team, x.1⟩ (fun th => { th with status := .filed, point := x.2.1 })
        p.setPartition ((p.partition core part).file { team, lid := x.1, point := x.2.1, key := x.2.2, since := p.now })) p
    p.settle

def Package.fileOne (p : Package) (w : Who) (pt : Point) : Package := p.fileAll w.team [(w.lid, pt, 0)]

/-- Takes a thread out of the berths and filing queues. -/
def Package.unfile (p : Package) (w : Who) : Package :=
  { p with parts := p.parts.map (fun x =>
      { x with berths := x.berths.filter (fun e => !(e.team == w.team && e.lid == w.lid))
               queue := x.queue.filter (fun e => !(e.team == w.team && e.lid == w.lid)) }) }

/-! ### Divergence records -/

/-- The address of a word offset from the descriptor of the team's kernel (R480). -/
def Team.addr (tm : Team) (off : Nat) : Nat := (tm.kdesc + 4 * off) % 2 ^ 64

/-- The index of the CAM entry whose BRANCH is the clause header (R57, R480). -/
def Team.camFor (tm : Team) (hdr : Nat) : Option Nat :=
  (List.range tm.cam.length).find? (fun k => match tm.cam[k]? with | some e => tm.addr e.branch == hdr | none => false)

/-- Releases a record: its parked threads are filed together at the rejoin address (R60). -/
def Package.releaseRec (p : Package) (team : Nat) (r : DivRec) : Package :=
  match p.team? team with
  | none => p
  | some tm =>
    let pt : Point := { hdr := tm.addr ((tm.cam[r.cam]?).map (·.target) |>.getD 0), mid := none }
    let p := p.setTeam team (fun tm => { tm with divs := tm.divs.filter (fun d => d.id != r.id) })
    p.fileAll team (r.parked.map (fun l => (l, pt, 0)))

/-- Releases every record all of whose named threads have parked (R60). -/
def Package.releaseDone (p : Package) (team : Nat) : Package :=
  match p.team? team with
  | none => p
  | some tm => (tm.divs.filter (fun r => r.named.all (fun l => r.parked.contains l))).foldl
      (fun p r => p.releaseRec team r) p

/-- Takes a thread out of every divergence record (R60). -/
def Package.leaveRecs (p : Package) (w : Who) : Package :=
  (p.setTeam w.team (fun tm => { tm with divs := tm.divs.map (fun r =>
    { r with named := without w.lid r.named, parked := without w.lid r.parked }) })).releaseDone w.team

/-- Parks a thread at a record; it leaves every record created later that names it (R59). -/
def Package.park (p : Package) (w : Who) (r : DivRec) : Package :=
  let p := p.leaveGang w
  let p := p.setThread w (fun th => { th with status := .parked r.id })
  p.setTeam w.team (fun tm =>
    let t := ((tm.cam[r.cam]?).map (·.timeout)).getD 0
    { tm with divs := tm.divs.map (fun d =>
      if d.id == r.id then
        { d with parked := adjoin w.lid d.parked
                 expires := if d.parked.isEmpty && t != 0 then some (p.now + Config.timeoutUnit * t) else d.expires }
      else if r.id < d.id then { d with named := without w.lid d.named }
      else d) })

/-! ### The clause that ends -/

/-- The header that follows a clause in sequence. -/
def Issue.nextHdr (iss : Issue) : Nat := (iss.hdr + 4 * (1 + bitsOf 11 9 iss.hdrWord.toNat)) % 2 ^ 64

/-- Whether one of some threads of a team stands inside a clause: the one that is being issued, or one that its gang holds. -/
def Package.midClause (p : Package) (team : Nat) (lids : List Nat) : Bool :=
  p.issue.any (fun i => i.team == team && lids.any (fun l => i.active.contains l || i.idle.contains l))
    || p.gangs.any (fun g => g.team == team && g.held.isSome && lids.any (fun l => g.lids.contains l))

/-- The ceiling after one that an LCEIL named begins to hold: it never rises. -/
def Package.lowered (p : Package) (now_ new : Lbl) : Lbl := if dominates (p.maskOf now_) (p.maskOf new) then new else now_

/-- The ceilings that LCEILs have named hold from the end of the LCEIL's own clause on (R129). -/
def Package.commitCeilings (p : Package) (team : Nat) : Package :=
  let ended := fun (e : List Nat × Lbl) => !p.midClause team e.1
  p.setTeam team (fun tm => { tm with ceiling := (tm.lceils.filter ended).foldl (fun c e => p.lowered c e.2) tm.ceiling
                                      lceils := tm.lceils.filter (fun e => !ended e) })

/-- The effects that a clause leaves for the clauses after it: the yield hint (R70), WINB's base (R76) and the header from
which the thread comes (R97). -/
def Thread.leaveClause (th : Thread) (hdr now : Nat) (hint : Bool) (next : Nat) : Thread :=
  { th with point := { hdr := next, mid := none }, frm := hdr
            wbase := th.wnext.getD th.wbase, wnext := none
            yieldTo := if hint || th.yielding then now + Config.yieldCycles else th.yieldTo
            yielding := false }

/-! ### The decision queue, sign-off registers and the end of a thread -/

/-- Frees the entries that every live lane thread has consumed (R50). -/
def Team.freeDQ (tm : Team) : Team :=
  match tm.liveLanes with
  | [] => { tm with dq := { freed := tm.dq.freed + tm.dq.entries.length, entries := [] } }
  | th :: ths =>
    let least := ths.foldl (fun m x => min m x.dqIdx) th.dqIdx
    let n := min (least - tm.dq.freed) tm.dq.entries.length
    { tm with dq := { freed := tm.dq.freed + n, entries := tm.dq.entries.drop n } }

/-- The register with a lane no longer expected (R174): a thread that exits had no pending signature, a killed one has its
signature withdrawn. -/
def SignReg.drop (s : SignReg) (lid : Nat) : SignReg :=
  if rowOf lid ≠ s.row ∨ s.state = .idle then s
  else
    let bit : BitVec 32 := 1#32 <<< laneOf lid
    let signed := s.signed &&& ~~~bit
    let expect := s.expect &&& ~~~bit
    let s := { s with signed, expect, sigs := s.sigs.filter (fun g => g.lid != lid) }
    if expect = 0 then { SignReg.idle with round := s.round, row := s.row }
    else if signed = 0 then { s with keyLit := 0, keyWord := 0, state := .armed, op := none }
    else s

/-- Whether a thread waits at XACQ for the extended set (R77). -/
def Package.waitsExt (p : Package) (team lid : Nat) : Bool :=
  p.gangs.any (fun g => g.team == team && g.held.isSome && g.stall == .xset && g.blocked.contains lid)

/-- A thread releases its extended set: it goes to a buddy that waits for it, whose XACQ then returns in the next cycle (R76, R463). -/
def Package.releaseExt (p : Package) (w : Who) : Package :=
  p.setTeam w.team (fun tm =>
    let next := if p.waitsExt w.team (tm.buddyId w.lid) then some (tm.buddyId w.lid) else none
    { tm with ext := mapIf (fun e => e.holder == some w.lid) (fun e => { e with holder := next }) tm.ext })

/-- When every counted thread of the barrier has arrived, all are released (R348). -/
def Team.openBar (tm : Team) : Team :=
  if tm.bars.isEmpty then tm
  else
    let pilotCounts := tm.bars.any (fun b => !b.lanes || b.lid == 0)
    let need := (tm.threads.filter (fun th => th.live && (th.lid != 0 || pilotCounts))).map (·.lid)
    if need.all (fun l => tm.bars.any (fun b => b.lid == l)) then { tm with bars := [] } else tm

/-- The team's body ends when its pilot and every lane thread have ended: it leaves its cluster, and JOIN is decremented (R46, R47). -/
def Package.bodyEnd (p : Package) (team : Nat) : Package :=
  match p.team? team with
  | none => p
  | some tm =>
    if tm.ended || tm.threads.any Thread.live then p
    else
      let p := { p.setTeam team (fun tm => { tm with ended := true, join := tm.join - 1, residence := .resident }) with freed := adjoin tm.cluster p.freed }
      match tm.recordPa with
      | some pa => p.poke (pa + 24) 4 (tm.join - 1)
      | none => p

/-- The end of a thread by EXIT or KILL (R380, R265): it leaves the DQ count, the divergence records, the sign-off
registers, the barrier and the arrival count of a TIDE, and releases its extended set; loads still outstanding write
nothing. -/
def Package.endThread (p : Package) (w : Who) : Package :=
  let p := (p.leaveGang w).unfile w
  let p := p.setThread w (fun th =>
    { th with status := .dead, region := none, trap := none, arrived := false, errs := [], dying := false })
  let p := { p with accs := p.accs.filterMap (fun (a : Acc) =>
    if a.team == w.team && a.lid == w.lid then
      (match a.op with
       | .store | .pod _ | .rgnc _ _ => some { a with killed := true, flag := none }
       | _ => none)
    else some a) }
  let p := (p.releaseExt w).setTeam w.team (fun tm =>
    (({ tm with signs := if w.lid = 0 then tm.signs else tm.signs.map (fun (s : SignReg) => s.drop w.lid)
                bars := tm.bars.filter (fun b => b.lid != w.lid)
                pops := tm.pops.filter (fun q => p.accs.any (fun a => a.id == q.acc)) }).freeDQ).openBar)
  let p := p.leaveRecs w
  (p.bodyEnd w.team).settle

/-- A job that a kill or a world reset ends before its completion: it completes ABORTED, whatever a segment of it has met (R246, R325). -/
def Job.abort (j : Job) : Job := if j.posted then j else { j with done := true, status := 6 }

/-- A body that has ended through kills ends its jobs: they complete ABORTED (R246, R265). -/
def Package.abortJobs (p : Package) (team : Nat) : Package :=
  if (p.team? team).any (fun tm => tm.ended) then { p with jobs := mapIf (fun j => j.team == team && j.kind != .chunk) Job.abort p.jobs }
  else p

/-- A thread is killed at once (R265). -/
def Package.killOne (p : Package) (w : Who) : Package := (p.endThread w).abortJobs w.team

/-- Why a thread is blocked in the sense of R64, as its gang notes it: the waits of R64, a flag that the wait mask names, a lathe lock (R176),
and the waits of R200, R201, R247 and R307; `held` says that the wait stands inside a clause, as a FENCE does. -/
def Stall.blocks (s : Stall) (held : Bool) : Bool :=
  match s with
  | .dq | .dqFull | .quay _ | .xset | .jwait | .await | .bar | .lock | .exit | .fifo _ _ | .bank _ _ | .scheduler | .peer => true
  | .memory => !held
  | _ => false

/-- Whether a thread stands inside a clause that its gang holds, and is neither blocked there nor in trap mode: a kill waits for the end of
its clause (R265). -/
def Package.inClause (p : Package) (w : Who) : Bool :=
  p.gangs.any (fun g => g.team == w.team && g.lids.contains w.lid && g.held.isSome && !(g.stall.blocks true && g.blocked.contains w.lid))
    && (p.thread? w).any (fun th => th.trap.isNone)

/-- Whether a gang may still try a clause in this cycle: its team is resident, or is being pre-empted and the gang stands inside a clause
(R261). -/
def Package.untried (p : Package) (g : Gang) : Bool :=
  !p.issued.contains (g.core, g.id, g.team) && (p.team? g.team).any (fun tm => tm.residence == .resident || (tm.residence == .saving && g.held.isSome))

/-- Whether a thread may still issue a clause in this cycle: what it then executes happens in the cycle of its kill, as a wider KILL does (R396). -/
def Package.mayIssue (p : Package) (w : Who) : Bool :=
  p.gangs.any (fun g => g.team == w.team && g.lids.contains w.lid && decide (g.id < Config.loneGang) && p.untried g)

/-- A thread is killed: at once, or at the end of the clause inside which it stands or that it may still issue in this cycle (R265, R396). -/
def Package.killThread (p : Package) (w : Who) : Package :=
  if p.inClause w || p.mayIssue w then p.setThread w (fun th => { th with dying := true }) else p.killOne w

/-- At the end of a cycle the kills take effect that waited only for a clause which its threads did not issue in the cycle (R265). -/
def Package.killIdle (p : Package) : Package :=
  p.teams.foldl (fun p tm => (tm.threads.filter (fun th => th.dying && th.live)).foldl (fun p th =>
    if p.inClause ⟨tm.id, th.lid⟩ then p else p.killOne ⟨tm.id, th.lid⟩) p) p

/-- The threads among some of a team whose kill has waited are killed now. -/
def Package.killDying (p : Package) (team : Nat) (lids : List Nat) : Package :=
  lids.foldl (fun p l => if (p.thread? ⟨team, l⟩).any (fun th => th.dying) then p.killOne ⟨team, l⟩ else p) p

/-- Kills every thread of a team (R265). -/
def Package.killTeam (p : Package) (team : Nat) : Package :=
  match p.team? team with
  | none => p
  | some tm =>
    let live := (tm.threads.filter Thread.live).map (·.lid)
    let p := p.setTeam team (fun tm => { tm with killed := true })
    let p := { p with issue := p.issue.filter (fun iss => iss.team != team) }
    live.foldl (fun p l => p.killThread ⟨team, l⟩) p

/-! ### The end of a clause -/

/-- Ends the clause that is being issued: `tgt` gives the next header of each active thread; the others go on in sequence.
The gang persists while its threads take the same next header and dissolves otherwise, or when `part` says so (R55, R433);
a thread of a gang that dissolves is filed with its key. The ceiling of its LCEIL holds from now on (R129), and kills that waited for the
clause take effect (R265). -/
def Package.endClauseWith (p : Package) (part : Bool) (tgt : Nat → Nat) (key : Nat → BitVec 16) : Package :=
  match p.issue with
  | none => p
  | some iss =>
    let hint := iss.hdrWord.getLsbD 0
    let next := fun l => if iss.active.contains l then tgt l else iss.nextHdr
    match p.gang? iss.core iss.id iss.team with
    | none => ({ p with issue := none }).commitCeilings iss.team
    | some g =>
      let yields := g.lids.any (fun l => match p.thread? ⟨iss.team, l⟩ with | some th => th.yielding | none => false)
      let p := { p with issue := none }
      let p := g.lids.foldl (fun p l =>
        p.setThread ⟨iss.team, l⟩ (fun th => th.leaveClause iss.hdr p.now hint (next l))) p
      let p := p.commitCeilings iss.team
      let first := next (g.lids.headD 0)
      let p :=
        if !part && g.lids.all (fun l => next l == first) then
          p.setGang iss.core iss.id iss.team (fun g =>
            { g with point := { hdr := first, mid := none }, held := none, stall := .none, blocked := [], since := []
                     yieldTo := if hint || yields then p.now + Config.yieldCycles else g.yieldTo })
        else p.fileAll iss.team (g.lids.map (fun l =>
          (l, { hdr := next l, mid := none }, if iss.active.contains l then key l else 0)))
      p.killDying iss.team g.lids

def Package.endClause (p : Package) (tgt : Nat → Nat) : Package := p.endClauseWith false tgt (fun _ => 0)

end Sys2Proof.Machine
end

