-- ==== Sys2Proof/Machine/Ops.lean ====
section
/-! DEFINITION. What every meaning is written over: the effect of an instruction on one thread and on each active thread of
its gang (R30), labels of results (R113), holding an instruction (R64), raising and taking a trap (R252, R253, R255) and
returning from it (R256, R257), and page faults (R224, R258). -/

namespace Sys2Proof.Machine

/-! ### Effects -/

/-- Why an instruction does not take effect in a thread. -/
inductive Stop where
  /-- Trap(CAUSE) of R31, with TRAPVA and the owners of its address operand (R408), TRAPLBL and TRAPAUX; `fp` is FPCTL with the label of its FLAGS when the exceptions of
  R150 set them first. -/
  | trap (cause : Cause) (va : Nat) (vmask : Mask) (lbl : Lbl) (aux : Nat) (fp : Option (Word × Lbl)) (p : Package)
  /-- The access takes PAGE (R214); `plain` says that it is handled under R258 even in an open region. -/
  | page (va : Nat) (vmask : Mask) (plain : Bool) (p : Package)
  /-- The thread is held at the instruction. -/
  | wait (s : Stall)
  /-- A load that is part of the instruction consumes an uncorrectable error: the instruction has no further effect in the thread, which
  takes UNCORRECTABLE before its next clause (R260). -/
  | deferred (va : Nat) (vmask : Mask) (aux : Nat) (p : Package)

/-- An effect on the package that may trap, take PAGE or hold the thread. -/
abbrev PM (α : Type) : Type := StateT Package (Except Stop) α

def stopWith {α : Type} (s : Stop) : PM α := fun _ => .error s

/-- Trap(CAUSE): no further effect of the instruction in the thread takes place (R31). -/
def trap {α : Type} (c : Cause) (va : Nat := 0) (lbl : Lbl := 0) (aux : Nat := 0) (vmask : Mask := 0) : PM α :=
  fun p => .error (.trap c va vmask lbl aux none p)

/-- PROT with its TRAPAUX code (R251). -/
def prot {α : Type} (aux : Nat) (va : Nat := 0) (vmask : Mask := 0) : PM α := trap .prot va 0 aux vmask

def pageStop {α : Type} (va : Nat) (vmask : Mask) : PM α := fun p => .error (.page va vmask false p)

/-- Holds the thread at the instruction. -/
def waitFor {α : Type} (s : Stall) : PM α := stopWith (.wait s)

/-- Holds the thread unless the condition holds. -/
def await (c : Bool) (s : Stall) : PM Unit := if c then pure () else waitFor s

def thr (w : Who) : PM Thread := fun p =>
  match p.thread? w with
  | some th => .ok (th, p)
  | none => .error (.wait .other)

def teamOf (w : Who) : PM Team := fun p =>
  match p.team? w.team with
  | some tm => .ok (tm, p)
  | none => .error (.wait .other)

def worldOf (w : Who) : PM World := fun p =>
  match (p.team? w.team).bind (fun tm => p.world? tm.world) with
  | some x => .ok (x, p)
  | none => .error (.wait .other)

def theIssue : PM Issue := fun p =>
  match p.issue with
  | some i => .ok (i, p)
  | none => .error (.wait .other)

def setThr (w : Who) (f : Thread → Thread) : PM Unit := modify (fun p => p.setThread w f)
def setTeam (w : Who) (f : Team → Team) : PM Unit := modify (fun p => p.setTeam w.team f)

/-- A new identifier. -/
def freshId : PM Nat := modifyGet Package.fresh

/-- The label of an owner set; when a new entry is needed and none is free, PROT with TRAPAUX = 3 and the system cores'
interrupt (R108, R110). -/
def mkLabel (m : Mask) : PM Lbl := fun p =>
  match p.labelFor m with
  | some (l, p) => .ok (l, p)
  | none => .error (.trap .prot 0 0 0 3 none (p.interrupt .labelFull 0 0))

def maskOf (l : Lbl) : PM Mask := fun p => .ok (p.maskOf l, p)

/-- The owners that every result carries beside those of its sources: Ctx(t) and the guard label (R29, R113). -/
def env (w : Who) : PM Mask := do
  let th ← thr w
  let p ← get
  pure (th.ctxMask p ||| p.maskOf th.guardLbl)

def ceilingOf (w : Who) : PM Mask := do
  let tm ← teamOf w
  maskOf tm.ceiling

/-! ### The instructions of a clause, read from their words -/

/-- Vector-pipe instructions (R100). -/
def isVec (r : Raw) : Bool :=
  let m := r.major.toNat
  (0x01 ≤ m && m ≤ 0x0C) || (0x10 ≤ m && m ≤ 0x1D) || (0x20 ≤ m && m ≤ 0x2D) || (0x38 ≤ m && m ≤ 0x3E)
    || m == 0x68 || m == 0x69

/-- Long-latency instructions (R101). -/
def isLong (r : Raw) : Bool :=
  match r.major.toNat with
  | 0x26 | 0x3B | 0x3D | 0x3E | 0x50 | 0x51 | 0x52 | 0x55 | 0x60 | 0x61 | 0x62 | 0x64 | 0x70 | 0x71 | 0x72 | 0x73
  | 0x76 | 0x78 | 0x79 | 0x7A | 0x7B => true
  | _ => false

/-- MOV with minor[2] = 1 reads no A in lane code, where A must be 0 (R412): a value of 126 there calls for no literal (R83). -/
def deadLit (pilot : Bool) (r : Raw) : Bool := !pilot && r.major == 0x0B && r.sreg && !r.imm && Fld.isLit r.a

/-- Words of an instruction in pilot or lane code, its literals included (R83). -/
def sizeIn (pilot : Bool) (r : Raw) : Nat := if deadLit pilot r then 1 else r.size

/-- The words of a clause cut into instructions, each with its literals (R83). -/
def splitWords (pilot : Bool) : Nat → List Word → List (List Word)
  | 0, _ => []
  | _, [] => []
  | n + 1, w :: ws =>
    let k := sizeIn pilot (Raw.ofWord w)
    (w :: ws).take k :: splitWords pilot n ((w :: ws).drop k)

def headRaw (ws : List Word) : Raw := Raw.ofWord (ws.headD 0)

/-- The flag that the header ties to the clause's long-latency instruction of index n (R95). -/
def flagOfIndex (hdr : Word) (n : Nat) : Option Nat :=
  let f := if n = 0 then bitsOf 19 16 hdr.toNat else if n = 1 then bitsOf 15 12 hdr.toNat else 15
  if f < 12 then some f else none

/-- The flag tied to the instruction that runs. -/
def Issue.flag (i : Issue) : Option Nat := flagOfIndex i.hdrWord i.long

/-- Flags tied to long-latency instructions among some of a clause's words, the first of which has index n. -/
def tiedFlags (pilot : Bool) (hdr : Word) (n : Nat) (ws : List Word) : List Nat :=
  let longs := (splitWords pilot 8 ws).filter (fun x => isLong (headRaw x))
  (List.range longs.length).filterMap (fun k => flagOfIndex hdr (n + k))

/-- Whether the instruction that runs issues on V0 (R82). -/
def Issue.onV0 (i : Issue) : Bool := i.vec % 2 == 0

/-- Whether the instruction that runs is the last of its clause. -/
def Issue.last (i : Issue) : Bool := i.words.isEmpty

/-- The points at which a trap at the instruction that runs resumes and skips (R257). -/
def Issue.resume (i : Issue) : Point := { hdr := i.hdr, mid := some i.cur }
def Issue.skip (i : Issue) : Point :=
  if i.words.isEmpty then { hdr := i.nextHdr, mid := none } else { hdr := i.hdr, mid := some i.pc }

/-- The clause with the next instruction, of the given number of words, made the one that runs. -/
def Issue.advance (i : Issue) (n : Nat) : Issue :=
  { i with cur := i.pc, pc := i.pc + 4 * n, curWords := i.words.take n, words := i.words.drop n
           vec := if i.curWords.isEmpty then i.vec else i.vec + (isVec (headRaw i.curWords)).toNat
           long := if i.curWords.isEmpty then i.long else i.long + (isLong (headRaw i.curWords)).toNat }

/-- Whether the instruction that runs has taken its effect in a thread already, in a gang that still holds it. -/
def Issue.hasRun (i : Issue) (lid : Nat) : Bool := i.ran.contains (i.cur, lid)

/-- The clause as it stood before the instruction that runs. -/
def Issue.rewind (i : Issue) : Issue := { i with pc := i.cur, words := i.curWords ++ i.words, curWords := [] }

/-! ### Completion flags (R85) -/

def addFlag (k : Nat) (fs : List Nat) : List Nat := fs.set k (min 15 (fs.getD k 0 + 1))
def subFlag (k : Nat) (fs : List Nat) : List Nat := fs.set k (fs.getD k 0 - 1)

/-- The completion of an instruction tied to a flag decrements it. -/
def Package.flagDone (p : Package) (w : Who) : Option Nat → Package
  | some k => p.setThread w (fun th => { th with flags := subFlag k th.flags })
  | none => p

/-- A thread that leaves its clause early gives back the increments of the long-latency instructions that have not taken
effect in it (DEDUCED from R85 and R257: they are counted again when the clause continues). -/
def Thread.giveBack (th : Thread) (i : Issue) : Thread :=
  { th with flags := (tiedFlags (th.lid == 0) i.hdrWord i.long (i.curWords ++ i.words)).foldl (fun fs k => subFlag k fs) th.flags }

/-- Takes a thread out of the clause that is being issued; without threads the clause is over, and an LCEIL of it takes effect (R129). -/
def Package.dropActive (p : Package) (w : Who) : Package :=
  match p.issue with
  | some i =>
    if i.team == w.team then
      let active := without w.lid i.active
      let idle := without w.lid i.idle
      if active.isEmpty && idle.isEmpty then ({ p with issue := none }).commitCeilings i.team
      else { p with issue := some { i with active, idle } }
    else p
  | none => p

/-! ### Traps -/

def Cause.code : Cause → Nat
  | .illop => 0x01 | .illclause => 0x02 | .align => 0x03 | .page => 0x04 | .prot => 0x05 | .owner => 0x06
  | .lblStore => 0x07 | .lblBranch => 0x08 | .lblMsg => 0x09 | .declUnendorsed => 0x0A | .ctxOverflow => 0x0B
  | .window => 0x0C | .xset => 0x0D | .scopeMismatch => 0x0E | .unreachablePeer => 0x0F | .podRule => 0x10
  | .rsbOverflow => 0x11 | .dqMisuse => 0x12 | .depth => 0x13 | .bkpt => 0x14 | .soft => 0x15 | .uncorrectable => 0x16

/-- A double trap kills the thread, writes the fault log and raises the interrupt (R255). -/
def Package.doubleTrap (p : Package) (w : Who) (r : TrapReq) (outer : Cause) : Package :=
  match p.team? w.team with
  | none => p
  | some tm =>
    let p := p.setWorld tm.world (fun x =>
      { x with faultLog := x.faultLog ++ [(r.cause.code, r.pc, r.va, r.aux, outer.code)] })
    (p.interrupt .doubleTrap tm.world 1).killOne w

/-- The world that holds a bank; 0 for one that no world holds. -/
def Package.bankWorld (p : Package) (cluster phys : Nat) : Nat :=
  ((p.worlds.find? (fun x => x.banks.any (fun b => b.1 == cluster && b.2.2 == phys))).map (·.id)).getD 0

/-- What the snapshot registers of the blocks latch (R331). -/
def Package.latched (p : Package) (source : Nat) : Snapshot :=
  { time := p.time, sources := [source], teams := p.teams, gangs := p.gangs, parts := p.parts, cores := p.cores, rounds := p.rounds
    sparse := p.sparse, accs := p.accs, writes := p.writes, jobs := p.jobs, banks := p.banks.map (fun b => (p.bankWorld b.cluster b.phys, b))
    mans := p.mans, ports := p.ports }

/-- Latches a snapshot when SNAPCTL is armed (R330, R331): every block, the time and the source. Sources: 0 the pin, 1 SNAP, 2 a trap. Another trigger of
the same cycle adds its source. -/
def Package.snapshot (p : Package) (source : Nat) : Package :=
  let c := p.sys.snapctl
  if c.getLsbD 0 then
    let s := p.latched source
    ({ p with sys := { p.sys with snapctl := c &&& ~~~1#32, snaps := p.sys.snaps ++ [s] } }).interrupt .snapshot 0 6
  else
    match p.sys.snaps.getLast? with
    | some s =>
      if s.time == p.time && !s.sources.contains source then
        { p with sys := { p.sys with snaps := p.sys.snaps.dropLast ++ [{ s with sources := s.sources ++ [source] }] } }
      else p
    | none => p

/-- Whether a world's triggers count (R330). -/
def Package.snapCounts (p : Package) (world : Nat) : Bool :=
  match bitsOf 5 4 p.sys.snapctl.toNat with
  | 0 => true
  | 1 => world == p.sys.sworld
  | 2 => world != p.sys.sworld
  | _ => world == 0

/-- A trap is a trigger of source FAULT, whether it enters its handler or is a double trap (R330). -/
def Package.faultTrigger (p : Package) (world : Nat) (c : Cause) : Package :=
  if p.sys.snapctl.getLsbD 3 && bitsOf 31 24 p.sys.snapctl.toNat == c.code && p.snapCounts world then p.snapshot 2 else p

def RsbEntry.bits (e : RsbEntry) : Nat :=
  (e.addr % 2 ^ 64) * 2 ^ 192 + (e.data % 2 ^ 128) * 2 ^ 64 + e.need.toNat * 2 ^ 48
    + (if e.rel then e.scope.enc.toNat else 0) * 2 ^ 11 + (if e.pad then 0 else e.policy.enc.toNat) * 2 ^ 9
    + e.rel.toNat * 2 ^ 7 + e.pad.toNat * 2 ^ 6 + e.width % 32

/-- The eight registers that trap entry saves: o0 to o7, or the pilot's s256 to s263 (R252). -/
def Team.trapSaved (tm : Team) (th : Thread) : List LReg :=
  if th.lid = 0 then (tm.sregs.drop 256).take 8 else th.ops.take 8

/-- The 4096 bits of a trap frame (R253). -/
def frameBits (saved : List LReg) (x0 x1 : Latch) (pilot : Bool) (rsb : List RsbEntry) : Nat :=
  let field := fun (off width : Nat) (v : Nat) => (v % 2 ^ width) * 2 ^ off
  (List.range 8).foldl (fun acc k =>
    acc + field (256 * k) 256 ((rsb[k]?).map RsbEntry.bits |>.getD 0)
        + field (2048 + 32 * k) 32 ((saved[k]?).map (fun r => r.val.toNat) |>.getD 0)
        + field (2560 + 16 * k) 16 ((saved[k]?).map (fun r => r.lbl.toNat) |>.getD 0)) 0
    + (if pilot then 0 else field 2304 64 x0.val + field 2368 64 x1.val
        + field 2688 16 x0.lbl.toNat + field 2704 16 x1.lbl.toNat)

/-- Writes the trap frame through its physical frames, each granule with the join of the labels of what it holds (R253); none where the table
has no free entry for such a join, and nothing is written (R110). -/
def Package.writeFrame (p : Package) (pa : Nat) (tm : Team) (th : Thread) : Option Package :=
  let saved := tm.trapSaved th
  let rsb := match th.region with | some r => r.rsb | none => []
  match p.labelFor (p.joinOf (saved.map (·.lbl))) with
  | none => none
  | some (lo, p) =>
    match p.labelFor (p.joinOf (if th.lid = 0 then [] else [th.x0.lbl, th.x1.lbl])) with
    | none => none
    | some (lx, p) =>
      let p := p.poke pa 512 (frameBits saved th.x0 th.x1 (th.lid == 0) rsb)
      let p := (List.range 16).foldl (fun p k => p.setGlabel (granuleOf pa + k) 0) p
      let p := (List.range 8).foldl (fun p k => p.setGlabel (granuleOf pa + k) ((rsb[k]?).map (·.need) |>.getD 0)) p
      some ((p.setGlabel (granuleOf pa + 8) lo).setGlabel (granuleOf pa + 9) lx)

/-- Replaces the first registers of a list. -/
def setRegs (rs : List LReg) (k : Nat) : List LReg → List LReg
  | [] => rs
  | v :: vs => setRegs (rs.set k v) (k + 1) vs

/-- TAKING A TRAP (R252 steps 3 to 5): the trap registers, trap mode, the frame, the hardware-held save, the frame's address
in o0:o1 or s256:s257, and the thread filed at its vector. Without a vector or a frame block it is a double trap (R255), and so it is where the
label table is too full for the frame's labels (DEDUCED: the entry needs a join and cannot trap PROT as an instruction does, R110). -/
def Package.enterTrap (p : Package) (w : Who) (r : TrapReq) : Package :=
  match p.team? w.team, p.thread? w with
  | some tm, some th =>
    let p := p.faultTrigger tm.world r.cause
    let x := p.world? tm.world
    let vec := match x with
      | some x => if w.isPilot then x.pilotVec else x.trapVec
      | none => 0
    match tm.frameBase with
    | none => p.doubleTrap w r r.cause
    | some base =>
      if vec = 0 then p.doubleTrap w r r.cause
      else
        let pa := base + 512 * w.lid
        match p.writeFrame pa tm th with
        | none => (p.interrupt .labelFull 0 0).doubleTrap w r r.cause
        | some p =>
        let va := tm.frameVa + 512 * w.lid
        let addr : List LReg := [{ val := BitVec.ofNat 32 va, lbl := 0 }, { val := BitVec.ofNat 32 (va / 2 ^ 32), lbl := 0 }]
        let save : TrapSave := { ops := tm.trapSaved th, x0 := th.x0, x1 := th.x1, ctx := th.ctx, cause := r.cause, pc := r.pc
                                 resume := r.resume, skip := r.skip, guard := th.guardLbl, wnext := th.wnext, yielding := th.yielding }
        let p := p.setThread w (fun th =>
          { th with trapRegs := { cause := BitVec.ofNat 32 r.cause.code, pc := r.pc, va := r.va, vmask := r.vmask, lbl := r.lbl
                                  aux := BitVec.ofNat 32 r.aux }
                    trap := some save, frm := r.pc, wnext := none, yielding := false
                    ops := if w.isPilot then th.ops else setRegs th.ops 0 addr })
        let p := if w.isPilot then p.setTeam w.team (fun tm => { tm with sregs := setRegs tm.sregs 256 addr }) else p
        p.fileOne w { hdr := vec, mid := none }
  | _, _ => p

/-- Whether a pop stands in a bank's wait order: one that was withdrawn at pre-emption does not (R264). -/
def Package.popWaits (p : Package) (cluster bank : Nat) (a : Acc) : Bool :=
  a.cluster == cluster && (match a.op with | .pop b _ _ _ => b == bank | _ => false)
    && !p.teams.any (fun tm => tm.pops.any (fun q => q.acc == a.id))

/-- Whether a pop still waits for an entry: those that the FIFO holds go to the pops before it (R200, R252). -/
def Package.popStarved (p : Package) (a : Acc) (bank : Nat) : Bool :=
  let held := ((p.banks.find? (fun b => b.cluster == a.cluster && b.phys == bank)).map (·.fifo.length)).getD 0
  decide (held ≤ (p.accs.filter (fun x => p.popWaits a.cluster bank x && decide (x.id < a.id))).length)

/-- Whether an outstanding access is waited for before trap entry and before a pre-empted team is saved (R252 step 2, R261): not a pop that
still waits for an entry, nor a TIDE that is tied to a flag, nor a load that met an error before trap mode and writes nothing (R260). -/
def Package.accWaits (p : Package) (a : Acc) : Bool :=
  !a.killed && (match a.op with
    | .pop b _ _ _ => !p.popStarved a b
    | .tide _ _ => a.flag.isNone
    | .load o => (match o.stage with | .bad _ => a.trapped | _ => true)
    | _ => true)

/-- Whether an outstanding instruction of the thread is waited for before trap entry (R252 step 2). -/
def Package.trapWaits (p : Package) (w : Who) : Bool :=
  p.accs.any (fun a => a.team == w.team && a.lid == w.lid && p.accWaits a)
    || p.jobs.any (fun j => j.team == w.team && j.lid == w.lid && j.flag.isNone && j.kind != .chunk)
    || p.rounds.any (fun r => r.team == w.team && r.sigs.any (fun g => g.lid == w.lid && g.flag.isNone))
    || (p.team? w.team).any (fun tm => tm.signs.any (fun s => s.sigs.any (fun g => g.lid == w.lid && g.flag.isNone)))

/-- Whether a long-latency instruction that the thread issued in trap mode has not completed: ERET waits for every one (R256). -/
def Package.handlerWaits (p : Package) (w : Who) : Bool :=
  p.accs.any (fun a => a.team == w.team && a.lid == w.lid && !a.killed && a.trapped)
    || p.jobs.any (fun j => j.team == w.team && j.lid == w.lid && j.trapped && j.kind != .chunk)
    || p.rounds.any (fun r => r.team == w.team && r.sigs.any (fun g => g.lid == w.lid && g.trapped))
    || (p.team? w.team).any (fun tm => tm.signs.any (fun s => s.sigs.any (fun g => g.lid == w.lid && g.trapped)))

/-- RAISING A TRAP in a thread: it leaves its clause and gang, and takes the trap once its outstanding instructions have
completed (R252); in trap mode it is a double trap (R255). A thread whose kill waited for the end of its clause ends instead (R265). -/
def Package.raiseTrap (p : Package) (w : Who) (r : TrapReq) : Package :=
  match p.thread? w with
  | none => p
  | some th =>
    let p := match p.issue with
      | some i => if i.team == w.team && (i.active.contains w.lid) then p.setThread w (fun th => th.giveBack i) else p
      | none => p
    let p := ((p.dropActive w).leaveGang w).unfile w
    if th.dying then p.killOne w
    else match th.trap with
    | some t => (p.faultTrigger (((p.team? w.team).map (·.world)).getD 0) r.cause).doubleTrap w r t.cause
    | none =>
      if p.trapWaits w then (p.setThread w (fun th => { th with status := .trapping r, point := r.resume })).settle
      else p.enterTrap w r

/-- The trap request of a cause raised by the instruction that runs. -/
def Issue.request (i : Issue) (c : Cause) (va : Nat) (vmask : Mask) (lbl : Lbl) (aux : Nat) : TrapReq :=
  { cause := c, pc := i.cur, va := va, vmask := vmask, lbl := lbl, aux := aux, resume := i.resume, skip := some i.skip }

/-- A thread that takes PAGE at the instruction that runs is filed into the fault berth; in an open region outside trap
mode its region is aborted and it will start again at RGNPC, but for a PAGE that R258 handles in a region too (R224, R254, R258). -/
def Package.pageFault (p : Package) (w : Who) (va : Nat) (vmask : Mask) (plain : Bool) : Package :=
  match p.thread? w, p.issue with
  | some th, some i =>
    let p := p.setThread w (fun th => th.giveBack i)
    let p := ((p.dropActive w).leaveGang w)
    if th.dying then p.killOne w
    else match th.region, th.trap, plain with
    | some r, none, false =>
      p.setThread w (fun th => { th with status := .faulted va vmask true false, region := some { r with rsb := [], held := none, release := none }
                                         point := { hdr := r.pc, mid := none }, wbase := th.wnext.getD th.wbase, wnext := none })
    | _, _, _ => p.setThread w (fun th => { th with status := .faulted va vmask false false, point := i.resume })
  | _, _ => p

/-- A deferred error that has reached the core: the thread takes it before its next clause (R260). -/
def Package.noteError (p : Package) (w : Who) (e : DefErr) : Package := p.setThread w (fun th => { th with errs := th.errs ++ [e] })

/-- What a stopped effect leaves behind: labels that it allocated, the mismatch logs and interrupts. -/
def Package.keep (p stopped : Package) : Package :=
  { p with labels := stopped.labels, worlds := stopped.worlds, sys := { p.sys with ints := stopped.sys.ints } }

/-! ### One instruction for each active thread (R30) -/

/-- The outcome of an instruction over the threads of its gang. -/
inductive Ran (β : Type) where
  | done (p : Package) (out : List (Nat × β))
  | held (s : Stall)

/-- Runs a body in each of the threads, in ascending lane order. A thread that traps or takes PAGE leaves the clause, one that meets a
deferred error goes on without the instruction's effect; the others go on. When a thread must wait, the whole gang holds the instruction. -/
def foldThreads {β : Type} (body : Who → PM β) (team : Nat) : List Nat → Package → List (Nat × β) → Ran β
  | [], p, out => .done p out.reverse
  | l :: ls, p, out =>
    let w : Who := ⟨team, l⟩
    match body w p with
    | .ok (b, p') => foldThreads body team ls p' ((l, b) :: out)
    | .error (.trap c va vm lbl aux fp q) =>
      let p := p.keep q
      let p := match fp with
        | some (v, fl) => p.setThread w (fun th => { th with fpctl := v, flagsLbl := fl })
        | none => p
      let p := match p.issue with
        | some i => p.raiseTrap w (i.request c va vm lbl aux)
        | none => p
      foldThreads body team ls p out
    | .error (.page va vm plain q) => foldThreads body team ls ((p.keep q).pageFault w va vm plain) out
    | .error (.deferred va vm aux q) =>
      let p := p.keep q
      let p := match p.issue, p.thread? w with
        | some i, some th => p.noteError w { pc := i.cur, va, vmask := vm, aux, trapped := th.trap.isSome }
        | _, _ => p
      foldThreads body team ls p out
    | .error (.wait s) => .held s

def isWait {β : Type} : Except Stop (β × Package) → Bool
  | .error (.wait _) => true
  | _ => false

/-- Since when the blocked members of a gang have been blocked at an instruction (R56), or have waited for their turn at LCEIL (R399): those that were
there before keep their time. -/
def Gang.blockedSince (g : Gang) (s : Stall) (held : Bool) (at_ : Nat) (blocked : List Nat) (now : Nat) : List (Nat × Nat × Nat) :=
  if s.blocks held || s == .lceil then
    blocked.map (fun l => (g.since.find? (fun e => e.1 == l && e.2.1 == at_)).getD (l, at_, now))
  else []

/-- The gang holds the clause that runs, as it stood before its instruction. -/
def Gang.holding (g : Gang) (i : Issue) (s : Stall) (blocked : List Nat) (now : Nat) : Gang :=
  { g with held := some i.rewind, stall := s, since := g.blockedSince s true i.cur blocked now, blocked := blocked }

/-- Holds the instruction that runs: the gang keeps its clause as it stood before it, and gives its pipes free (R56, R64). A kill that waits
for the end of the clause takes effect in the threads that are blocked (R265). -/
def Package.hold (p : Package) (s : Stall) (blocked : List Nat) : Package :=
  match p.issue with
  | none => p
  | some i =>
    let p := { p with issue := none, pipes := p.pipes.filter (fun x => !(x.core == i.core && x.id == i.id && x.team == i.team)) }
    let p := p.setGang i.core i.id i.team (fun g => g.holding i s blocked p.now)
    if s.blocks true then p.killDying i.team blocked else p

/-- The effect of an instruction on each active thread, and then an effect on the package from what the threads gave. -/
def eachThen {β : Type} (body : Who → PM β) (after : List (Nat × β) → Package → Package) (p : Package) : Package :=
  match p.issue with
  | none => p
  | some i =>
    match foldThreads body i.team i.active p [] with
    | .done q out => after out q
    | .held s => p.hold s (i.active.filter (fun l => isWait (body ⟨i.team, l⟩ p)))

/-- The effect of an instruction on each active thread t in G (R30). -/
def each (body : Who → PM Unit) (p : Package) : Package := eachThen body (fun _ q => q) p

/-- The effect on each active thread, taken in ascending local id (R477), and then an effect on the package. -/
def eachByIdThen {β : Type} (body : Who → PM β) (after : List (Nat × β) → Package → Package) (p : Package) : Package :=
  match p.issue with
  | none => p
  | some i =>
    match foldThreads body i.team (sortBy id i.active) p [] with
    | .done q out => after out q
    | .held s => p.hold s (i.active.filter (fun l => isWait (body ⟨i.team, l⟩ p)))

def eachById (body : Who → PM Unit) (p : Package) : Package := eachByIdThen body (fun _ q => q) p

/-- The gang holds an instruction for those threads in which it is not over yet; the others are through with it. -/
def holdRest (s : Stall) (outs : List (Nat × Bool)) (p : Package) : Package :=
  let wait := (outs.filter (·.2)).map (·.1)
  if wait.isEmpty then p
  else
    let mark := fun (i : Issue) => { i with ran := i.ran ++ (outs.filter (fun o => !o.2)).map (fun o => (i.cur, o.1)) }
    ({ p with issue := p.issue.map mark }).hold s wait

/-- What each active thread reads, for the instructions that act across the gang (R120): the threads that trap at the
reading are not among them. -/
def peeks {β : Type} (read : Who → PM β) (p : Package) : List (Nat × β) :=
  match p.issue with
  | none => []
  | some i => i.active.filterMap (fun l => match read ⟨i.team, l⟩ p with | .ok (b, _) => some (l, b) | .error _ => none)

/-- An instruction across the gang: each active thread reads its sources, and its result is a function of what every active
thread reads. -/
def gather {β : Type} (read : Who → PM β) (write : List (Nat × β) → Who → β → PM Unit) (p : Package) : Package :=
  let u := peeks read p
  each (fun w => do let b ← read w; write u w b) p

/-- Lifts an effect on the package in focus to a step of the machine. -/
def lift (f : Package → Package) (s : State) : Host.Outcome State Fault Refusal := .next { s with here := f s.here }

/-! ### Returning from a trap (R256, R257) -/

/-- The forms of ERET. -/
inductive EretForm where
  | resume | restart | skip
  deriving DecidableEq, Repr

/-- RETURNING FROM A TRAP: the context stack, o0 to o7 and the latches come back from the hardware-held save, and the thread
leaves trap mode; answers the point at which it is filed, and the save. -/
def leaveTrap (w : Who) (form : EretForm) : PM (Point × TrapSave) := do
  let th ← thr w
  match th.trap with
  | none => prot 0x71
  | some t =>
    if form == .restart && th.region.isNone then prot 0x70
    else if form == .skip && t.cause == .illclause then prot 0x73
    else do
      let p ← get
      let i ← theIssue
      await (!p.handlerWaits w) .memory
      setThr w (fun th => { th with ctx := t.ctx, x0 := t.x0, x1 := t.x1, trap := none
                                    ops := if w.isPilot then th.ops else setRegs th.ops 0 t.ops })
      if w.isPilot then setTeam w (fun tm => { tm with sregs := setRegs tm.sregs 256 t.ops }) else pure ()
      match form, th.region with
      | .restart, some r =>
        setThr w (fun th => { th with region := some { r with rsb := [], held := none, release := none } })
        pure ({ hdr := r.pc, mid := none }, t)
      | f, _ =>
        setThr w (fun th => { th with frm := i.hdr })
        if th.trapRegs.pc != t.pc then pure ({ hdr := th.trapRegs.pc, mid := none }, t)
        else if f == .skip then pure (t.skip.getD t.resume, t) else pure (t.resume, t)

end Sys2Proof.Machine
end

