-- ==== Sys2Proof/Machine/Flags.lean ====
section
/-! DEFINITION. Floating formats, rounding and the five exceptions (R141 to R151): the decoding of a pattern, exact
values m · 2^e, the one rounding function with its flags, the basic operations on them, and FPCTL. -/

namespace Sys2Proof.Machine

/-- Raised exceptions in the order of TE: bit 4 NV, 3 DZ, 2 OF, 1 UF, 0 NX (R150). -/
abbrev Exc := BitVec 5

def excNV : Exc := 16
def excDZ : Exc := 8
def excOF : Exc := 4
def excUF : Exc := 2
def excNX : Exc := 1

/-- An IEEE format: exponent and fraction bits (R141). -/
structure Fmt where
  eb : Nat
  mb : Nat
  deriving DecidableEq, Repr

def Fmt.f32 : Fmt := ⟨8, 23⟩
def Fmt.f64 : Fmt := ⟨11, 52⟩
def Fmt.h16 : Fmt := ⟨5, 10⟩
def Fmt.b16 : Fmt := ⟨8, 7⟩

def Fmt.bits (F : Fmt) : Nat := 1 + F.eb + F.mb
def Fmt.bias (F : Fmt) : Int := (2 ^ (F.eb - 1) : Nat) - 1
/-- Exponent of the least bit of a subnormal. -/
def Fmt.qmin (F : Fmt) : Int := 1 - F.bias - F.mb
/-- Pattern of +∞ and of the canonical NaN (R141). -/
def Fmt.inf (F : Fmt) : Nat := (2 ^ F.eb - 1) * 2 ^ F.mb
def Fmt.nan (F : Fmt) : Nat := F.inf + 2 ^ (F.mb - 1)
def Fmt.signBit (F : Fmt) : Nat := 2 ^ (F.eb + F.mb)

/-- The value of a pattern: a NaN, signalling or not; an infinity; or (−1)^neg · m · 2^e, a zero when m = 0. -/
inductive FV where
  | nan (signalling : Bool)
  | inf (neg : Bool)
  | num (neg : Bool) (m : Nat) (e : Int)
  deriving DecidableEq, Repr

def FV.isNan : FV → Bool
  | .nan _ => true
  | _ => false

def FV.isSig : FV → Bool
  | .nan s => s
  | _ => false

def FV.isZero : FV → Bool
  | .num _ 0 _ => true
  | _ => false

def FV.neg : FV → Bool
  | .nan _ => false
  | .inf n => n
  | .num n _ _ => n

/-- The value of an IEEE pattern (R141). -/
def Fmt.decode (F : Fmt) (x : Nat) : FV :=
  let neg := (x / F.signBit) % 2 == 1
  let ef := (x / 2 ^ F.mb) % 2 ^ F.eb
  let fr := x % 2 ^ F.mb
  if ef = 2 ^ F.eb - 1 then
    if fr = 0 then .inf neg else .nan (fr / 2 ^ (F.mb - 1) == 0)
  else if ef = 0 then .num neg fr F.qmin
  else .num neg (2 ^ F.mb + fr) (F.qmin + ((ef : Int) - 1))

/-- Rounding directions (R146). -/
inductive RM where
  | rne | rtz | rdn | rup | rna
  deriving DecidableEq, Repr

def rmOf (n : Nat) : RM :=
  match n with
  | 1 => .rtz
  | 2 => .rdn
  | 3 => .rup
  | 4 => .rna
  | _ => .rne

/-- Whether the magnitude n + rem / 2^shift, with 0 ≤ rem < 2^shift, rounds up to n + 1. -/
def roundsUp (rm : RM) (neg : Bool) (n rem shift : Nat) : Bool :=
  if rem = 0 then false
  else match rm with
    | .rtz => false
    | .rdn => neg
    | .rup => !neg
    | .rna => 2 ^ shift ≤ 2 * rem
    | .rne => 2 ^ shift < 2 * rem || (2 * rem == 2 ^ shift && n % 2 == 1)

/-- m · 2^e rounded to a multiple of 2^q: the multiple, and whether it is exact. -/
def roundAt (rm : RM) (neg : Bool) (m : Nat) (e q : Int) : Nat × Bool :=
  if q ≤ e then (m * 2 ^ (e - q).toNat, true)
  else
    let s := (q - e).toNat
    let n := m / 2 ^ s
    let rem := m % 2 ^ s
    (if roundsUp rm neg n rem s then n + 1 else n, rem == 0)

/-- Round(x, F) for x = (−1)^neg · m · 2^e ≠ 0: the pattern and the exceptions OF, UF and NX (R147, R148). Tininess is
judged after rounding. -/
def Fmt.round (F : Fmt) (rm : RM) (neg : Bool) (m : Nat) (e : Int) : Nat × Exc :=
  let sign := if neg then F.signBit else 0
  if m = 0 then (sign, 0)
  else
    let top : Int := e + (Nat.log2 m : Nat)
    let q := max (top - F.mb) F.qmin
    let (n, exact) := roundAt rm neg m e q
    let mag := (q - F.qmin).toNat * 2 ^ F.mb + n
    if F.inf ≤ mag then
      let toInf := match rm with
        | .rne | .rna => true
        | .rtz => false
        | .rdn => neg
        | .rup => !neg
      (sign + (if toInf then F.inf else F.inf - 1), excOF ||| excNX)
    else
      let (n', _) := roundAt rm neg m e (top - F.mb)
      let tiny := decide ((if n' = 2 ^ (F.mb + 1) then top + 1 else top) < F.qmin + F.mb)
      (sign + mag, (if exact then 0 else excNX) ||| (if tiny && !exact then excUF else 0))

/-- A signed exact value m · 2^e. -/
structure Dy where
  m : Int
  e : Int
  deriving DecidableEq, Repr

def Dy.add (a b : Dy) : Dy :=
  let e := min a.e b.e
  { m := a.m * 2 ^ (a.e - e).toNat + b.m * 2 ^ (b.e - e).toNat, e }

def Dy.mul (a b : Dy) : Dy := { m := a.m * b.m, e := a.e + b.e }

def Dy.zero : Dy := { m := 0, e := 0 }

/-- The exact value of a finite number. -/
def FV.dy : FV → Dy
  | .num neg m e => { m := if neg then -(m : Int) else m, e }
  | _ => Dy.zero

/-- The sign of an exact zero sum: + except in RDN (R143). -/
def zeroSum (F : Fmt) (rm : RM) : Nat := if rm == .rdn then F.signBit else 0

/-- Round of an exact value; a zero takes the given pattern. -/
def Fmt.roundDy (F : Fmt) (rm : RM) (x : Dy) (z : Nat) : Nat × Exc :=
  if x.m = 0 then (z, 0) else F.round rm (decide (x.m < 0)) x.m.natAbs x.e

def nvIf (c : Bool) : Exc := if c then excNV else 0

/-- The sum of two values of which each is a product or a source, rounded once: used for FADD and the sum of FFMA. -/
def Fmt.sum (F : Fmt) (rm : RM) (a b : FV) : Nat × Exc :=
  match a, b with
  | .nan s, y => (F.nan, nvIf (s || y.isSig))
  | x, .nan s => (F.nan, nvIf (s || x.isSig))
  | .inf s, .inf t => if s == t then (F.inf + (if s then F.signBit else 0), 0) else (F.nan, excNV)
  | .inf s, _ => (F.inf + (if s then F.signBit else 0), 0)
  | _, .inf s => (F.inf + (if s then F.signBit else 0), 0)
  | x, y =>
    let z := if x.isZero && y.isZero && x.neg == y.neg then (if x.neg then F.signBit else 0) else zeroSum F rm
    F.roundDy rm (x.dy.add y.dy) z

/-- The exact product of two values, with the exceptions of R148. -/
def mulFV (a b : FV) : FV × Exc :=
  match a, b with
  | .nan s, y => (.nan false, nvIf (s || y.isSig))
  | x, .nan s => (.nan false, nvIf (s || x.isSig))
  | .inf s, y => if y.isZero then (.nan false, excNV) else (.inf (s != y.neg), 0)
  | x, .inf s => if x.isZero then (.nan false, excNV) else (.inf (x.neg != s), 0)
  | .num s m e, .num t n f => (.num (s != t) (m * n) (e + f), 0)

def Fmt.add (F : Fmt) (rm : RM) (a b : Nat) : Nat × Exc := F.sum rm (F.decode a) (F.decode b)

/-- A value delivered in a format without any operation but rounding. -/
def Fmt.deliver (F : Fmt) (rm : RM) : FV → Nat × Exc
  | .nan s => (F.nan, nvIf s)
  | .inf s => (F.inf + (if s then F.signBit else 0), 0)
  | .num s m e => F.round rm s m e

def Fmt.mul (F : Fmt) (rm : RM) (a b : Nat) : Nat × Exc :=
  let (p, x) := mulFV (F.decode a) (F.decode b)
  let (r, y) := F.deliver rm p
  (r, x ||| y)

/-- a · b + c rounded once. -/
def Fmt.fma (F : Fmt) (rm : RM) (a b c : Nat) : Nat × Exc :=
  let (p, x) := mulFV (F.decode a) (F.decode b)
  let (r, y) := F.sum rm p (F.decode c)
  (r, x ||| y)

/-- An integer as a pattern of the format, rounded. -/
def Fmt.ofInt (F : Fmt) (rm : RM) (v : Int) : Nat × Exc := F.roundDy rm { m := v, e := 0 } 0

/-- An f32 pattern widened exactly to f64 (R83). A signalling NaN is widened to the canonical quiet one, so that a literal raises no NV (DESIGN
CHOICE: the spec does not say how a NaN is widened). -/
def widen (x : Nat) : Nat := (Fmt.f64.deliver .rne (Fmt.f32.decode x)).1

def fmtOf : FTy → Fmt
  | .f32 => .f32
  | .f64 => .f64
  | .h16 => .h16
  | .b16 => .b16

/-- Elements per operand: two for the packed types (R142). -/
def elemsOf : FTy → Nat
  | .h16 | .b16 => 2
  | _ => 1

/-- Element k of an operand of the type. -/
def elemOf (t : FTy) (x k : Nat) : Nat :=
  match t with
  | .h16 | .b16 => (x / 65536 ^ k) % 65536
  | .f32 => x % 2 ^ 32
  | .f64 => x % 2 ^ 64

/-- The result made of the elements of k. -/
def buildOf (t : FTy) (f : Nat → Nat × Exc) : Nat × Exc :=
  match t with
  | .h16 | .b16 =>
    let (r0, x0) := f 0
    let (r1, x1) := f 1
    (r0 + 65536 * r1, x0 ||| x1)
  | _ => f 0

/-- A 7-bit immediate of a floating type: the integer −64 to 63 converted exactly, in both elements of a packed type
(R90, R142). -/
def immOf (t : FTy) (k : BitVec 7) : Nat :=
  let v := ((fmtOf t).ofInt .rne (intBits 7 k.toNat)).1
  match t with
  | .h16 | .b16 => v + 65536 * v
  | _ => v

/-! ### FPCTL (R146, R149, R150) -/

def rmOfCtl (fpctl : Word) : RM := rmOf (fpctl.toNat % 8)

/-- The current rounding mode of a thread (R147). -/
def rmode (w : Who) : PM RM := do
  let th ← thr w
  pure (rmOfCtl th.fpctl)

/-- Raises exceptions: they set their FLAGS bits, the result label joins the FLAGS label (R149), and an enabled one traps
SOFT (R150). -/
def raiseFp (w : Who) (x : Exc) (result : Lbl) : PM Unit := do
  let th ← thr w
  let p ← get
  let fl ← mkLabel (p.maskOf th.flagsLbl ||| p.maskOf result)
  let ctl := th.fpctl ||| BitVec.ofNat 32 (x.toNat * 8)
  let te : Exc := BitVec.ofNat 5 (th.fpctl.toNat / 256)
  if te &&& x != 0 then fun q => .error (.trap .soft 0 0 result (2 ^ 31 + x.toNat) (some (ctl, fl)) q)
  else setThr w (fun th => { th with fpctl := ctl, flagsLbl := fl })

end Sys2Proof.Machine
end

