-- ==== Sys2Proof/Machine/Operands.lean ====
section
/-! DEFINITION. Operand fields: their checks in the order of R104, reading a source field and writing a destination with its
label (R74 to R84, R113), predicates, and the decision queue as an operand (R22, R49, R50). -/

namespace Sys2Proof.Machine

/-- A field as an instruction uses it: registers that it covers, and whether it is a destination. -/
structure FieldUse where
  f   : Fld
  n   : Nat
  dst : Bool
  deriving DecidableEq, Repr

def src (f : Fld) (n : Nat) : FieldUse := { f, n, dst := false }
def dst (f : Fld) (n : Nat) : FieldUse := { f, n, dst := true }

/-- The use of the B operand of an ALU form: an immediate or an s-register is no field. -/
def srcB (b : BOp) (n : Nat) : List FieldUse :=
  match b with
  | .reg f => [src f n]
  | _ => []

/-- ILLOP with the instruction word in TRAPAUX (R251). -/
def illop {α : Type} : PM α := do
  let i ← theIssue
  trap .illop 0 0 (i.curWords.headD 0).toNat

/-- Field values that trap ILLOP in pilot code (R80), beside those that no code may hold. -/
def FieldUse.pilotBad (u : FieldUse) : Bool :=
  let k := u.f.toNat
  (112 ≤ k && k ≤ 121) || k == 124 || k == 125 || k == 127 || (u.dst && (k == 123 || k == 126))

/-- The main-file indices that a field covers at a window base (R75). -/
def FieldUse.indices (u : FieldUse) (wbase : Nat) : List Nat :=
  if u.f.toNat < 112 then (List.range u.n).map (fun k => wbase + u.f.toNat + k) else []

/-- Checks of the fields in the order of R104 steps 3 to 5: ILLOP of pilot code, DQ_MISUSE, WINDOW, then XSET. -/
def checkFields (w : Who) (us : List FieldUse) : PM Unit := do
  if w.isPilot then
    if us.any FieldUse.pilotBad then illop
    else if us.any (fun u => u.f.toNat == 123) then trap .dqMisuse 0 0 2
    else pure ()
  else do
    let th ← thr w
    let tm ← teamOf w
    let is := us.flatMap (fun u => u.indices th.wbase)
    match is.find? (fun i => tm.nregs + tm.nx ≤ i) with
    | some i => trap .window 0 0 i
    | none =>
      match is.find? (fun i => tm.nregs ≤ i && !tm.holdsExt w.lid) with
      | some i => trap .xset 0 0 i
      | none => pure ()

/-! ### Registers -/

/-- The s-bank of the clause that runs (R95). -/
def Issue.bank (i : Issue) : Nat := bitsOf 2 1 i.hdrWord.toNat

/-- The storage that a field names (R75, R79, R80). -/
def resolve (w : Who) (f : Fld) : PM Dst := do
  let k := f.toNat
  if w.isPilot then do
    let i ← theIssue
    pure (if k < 112 then .sreg (128 * i.bank + k) else .discard)
  else do
    let th ← thr w
    pure (if k < 112 then .main (th.wbase + k) else if k < 120 then .op (k - 112)
          else if k == 120 then .latch false else if k == 121 then .latch true else .discard)

/-- Register of a storage location, n places further on. -/
def regAt (tm : Team) (th : Thread) (d : Dst) (n : Nat) : LReg :=
  match d with
  | .main i =>
    if i + n < tm.nregs then th.regs.getD (i + n) LReg.zero
    else match tm.extBlock? th.lid with
      | some e => e.regs.getD (i + n - tm.nregs) LReg.zero
      | none => LReg.zero
  | .op k => th.ops.getD (k + n) LReg.zero
  | .sreg k => tm.sregs.getD (k + n) LReg.zero
  | _ => LReg.zero

/-- n registers from a location on. -/
def regsAt (tm : Team) (th : Thread) (d : Dst) (n : Nat) : List LReg := (List.range n).map (fun k => regAt tm th d k)

/-- Writes one register (R79). A discarded or latched result writes none here. -/
def Package.putReg (p : Package) (w : Who) (d : Dst) (n : Nat) (v : LReg) : Package :=
  match d with
  | .main i =>
    p.setTeam w.team (fun tm =>
      if i + n < tm.nregs then tm.setThread w.lid (fun th => { th with regs := th.regs.set (i + n) v })
      else { tm with ext := mapIf (fun e => e.base == tm.extBase w.lid)
                       (fun e => { e with regs := e.regs.set (i + n - tm.nregs) v }) tm.ext })
  | .op k => p.setThread w (fun th => { th with ops := th.ops.set (k + n) v })
  | .sreg k => p.setTeam w.team (fun tm => { tm with sregs := tm.sregs.set (k + n) v })
  | .latch _ => p
  | .discard => p

/-- Writes words to consecutive registers, each with the label (R113). -/
def Package.putRegs (p : Package) (w : Who) (d : Dst) (lbl : Lbl) : Nat → List Word → Package
  | _, [] => p
  | n, v :: vs => (p.putReg w d n { val := v, lbl }).putRegs w d lbl (n + 1) vs

/-- Writes an n-register result with its label. -/
def Package.putVal (p : Package) (w : Who) (d : Dst) (n v : Nat) (lbl : Lbl) : Package :=
  p.putRegs w d lbl 0 (toWords n v)

/-- The result of an instruction that is not a vector instruction. -/
def out (w : Who) (f : Fld) (n v : Nat) (lbl : Lbl) : PM Unit := do
  let d ← resolve w f
  modify (fun p => p.putVal w d n v lbl)

/-- The result of a vector instruction: its destination, and the latch of its pipe, which holds the full result (R82). -/
def vout (w : Who) (f : Fld) (n v : Nat) (lbl : Lbl) : PM Unit := do
  out w f n v lbl
  let i ← theIssue
  let l : Latch := { regs := n, val := v % 2 ^ (32 * n), lbl }
  setThr w (fun th => if i.onV0 then { th with x0 := l } else { th with x1 := l })

/-! ### Sources -/

/-- How a literal stands for a 64-bit operand (R83). -/
inductive Ext where
  | unsigned | signed | float
  deriving DecidableEq, Repr

def literal (e : Ext) (n : Nat) (x : Word) : Nat :=
  if n < 2 then x.toNat
  else match e with
    | .unsigned => x.toNat
    | .signed => wrapInt 64 (intBits 32 x.toNat)
    | .float => widen x.toNat

def valueOf (rs : List LReg) : Nat := ofWords (rs.map (·.val))

def labelsOf (rs : List LReg) : List Lbl := rs.map (·.lbl)

/-- Pops n entries of the decision queue for a lane thread (R22, R49, R50): it waits until they are there, or traps DQ_MISUSE
once the pilot has exited. -/
def popDQ (w : Who) (n : Nat) : PM (List LReg) := do
  let th ← thr w
  let tm ← teamOf w
  let k := th.dqIdx - tm.dq.freed
  if k + n ≤ tm.dq.entries.length then do
    setTeam w (fun tm => (tm.setThread w.lid (fun th => { th with dqIdx := th.dqIdx + n })).freeDQ)
    pure ((tm.dq.entries.drop k).take n)
  else if tm.pilotLive then waitFor .dq
  else trap .dqMisuse 0 0 3

/-- The value and owners of a source field of n registers (R79, R83). -/
def readField (w : Who) (n : Nat) (f : Fld) (lit : Option Word) (e : Ext := .unsigned) : PM (Nat × Mask) := do
  let th ← thr w
  let tm ← teamOf w
  let k := f.toNat
  let p ← get
  if k == 122 then pure (0, 0)
  else if k == 126 then pure (literal e n (lit.getD 0), 0)
  else if k == 123 then do
    let es ← popDQ w n
    pure (valueOf es, p.joinOf (labelsOf es))
  else if k == 120 then pure (th.x0.val % 2 ^ (32 * n), p.maskOf th.x0.lbl)
  else if k == 121 then pure (th.x1.val % 2 ^ (32 * n), p.maskOf th.x1.lbl)
  else do
    let d ← resolve w f
    let rs := regsAt tm th d n
    pure (valueOf rs, p.joinOf (labelsOf rs))

/-- The s-registers of a B field with minor[2] = 1: the pilot's own, or for a lane those sampled when the clause issued
(R80, R81). -/
def readSreg (w : Who) (n : Nat) (b : BitVec 7) : PM (Nat × Mask) := do
  let i ← theIssue
  let tm ← teamOf w
  let p ← get
  let rs := if w.isPilot then (tm.sregs.drop (128 * i.bank + b.toNat)).take n else (i.sregs.drop b.toNat).take n
  pure (valueOf rs, p.joinOf (labelsOf rs))

/-- The value and owners of the B operand; `imm` gives the value of an immediate (R90). -/
def readB (w : Who) (n : Nat) (b : BOp) (lit : Option Word) (imm : BitVec 7 → Nat) (e : Ext := .unsigned) :
    PM (Nat × Mask) :=
  match b with
  | .reg f => readField w n f lit e
  | .imm k => pure (imm k, 0)
  | .sreg s => readSreg w n s

/-- The immediate of an integer form: sign-extended for a signed type (R90). -/
def iImm (t : ITy) (k : BitVec 7) : Nat :=
  match t with
  | .i32 => wrapInt 32 (intBits 7 k.toNat)
  | .i64 => wrapInt 64 (intBits 7 k.toNat)
  | _ => k.toNat

/-- The immediate of a logic form: 0 to 127 (R90). -/
def lImm (k : BitVec 7) : Nat := k.toNat

/-- How literals stand for operands of an integer type (R83). -/
def iExt : ITy → Ext
  | .i64 => .signed
  | _ => .unsigned

/-- The label of a result: the owners of its sources, Ctx(t) and the guard (R29, R113). -/
def resultLabel (w : Who) (m : Mask) : PM Lbl := do
  let g ← env w
  mkLabel (m ||| g)

/-! ### Predicates (R84) -/

def readPred (w : Who) (q : BitVec 5) : PM (Bool × Mask) := do
  let th ← thr w
  let b := th.preds.getD q.toNat LBit.zero
  let m ← maskOf b.lbl
  pure (b.val, m)

def writePred (w : Who) (q : BitVec 5) (v : Bool) (lbl : Lbl) : PM Unit :=
  setThr w (fun th => { th with preds := th.preds.set q.toNat { val := v, lbl } })

/-! ### Long-latency instructions (R85, R101) -/

def Package.core? (p : Package) (c : Nat) : Option Core := p.cores.find? (fun x => x.id == c)

/-- A core as it is at reset (R71). -/
def Core.reset (c : Nat) : Core := { id := c, win := 0, cap := 64, loads := 0, lost := 0, tags := [], epoch := 0, tlb := [], lanes := [] }

def Package.coreOr (p : Package) (c : Nat) : Core := (p.core? c).getD (Core.reset c)

def Package.setCore (p : Package) (c : Nat) (f : Core → Core) : Package :=
  if (p.core? c).isSome then { p with cores := mapIf (fun x => x.id == c) f p.cores }
  else { p with cores := p.cores ++ [f (Core.reset c)] }

/-- The instruction that runs becomes outstanding in the thread, tied to its flag; answers its identifier. -/
def addAcc (w : Who) (op : AccOp) : PM Nat := do
  let i ← theIssue
  let tm ← teamOf w
  let th ← thr w
  let k ← freshId
  modify (fun p =>
    let core := tm.coreOf w.lid
    { p with accs := p.accs ++ [{ id := k, team := w.team, lid := w.lid, core, cluster := tm.cluster, gang := i.id
                                  flag := i.flag, hdr := i.hdr, pc := i.cur, resume := i.skip, trapped := th.trap.isSome
                                  epoch := (p.coreOr core).epoch, killed := false, op }] })
  pure k

/-- A long-latency result that is known: it is written when the instruction completes (R86, R101). `fp` holds the exceptions of a floating-point
instruction, which join the result label into the FLAGS label then, whether or not it raises one (R149, R151). -/
def lateResult (w : Who) (f : Fld) (n v : Nat) (lbl : Lbl) (fp : Option Exc := none) : PM Unit := do
  let d ← resolve w f
  let _ ← addAcc w (.result { dst := d, regs := n, val := v, lbl, fp := fp.map BitVec.toNat, ready := 0, acq := false, span := none })
  pure ()

/-- The exceptions of a long-latency floating instruction: an enabled one traps at the instruction, so that the trap is
precise (R150); the others set FLAGS when it completes (R151). -/
def lateFp (w : Who) (x : Exc) (result : Lbl) : PM Unit := do
  let th ← thr w
  let te : Exc := BitVec.ofNat 5 (th.fpctl.toNat / 256)
  if te &&& x != 0 then raiseFp w x result else pure ()

/-! ### The shapes of the ALU class -/

/-- A two-source form whose result is a function of A and B (R113). -/
def alu2 {T : Type} (w : Who) (o : Alu T) (nd na nb : Nat) (e : Ext) (imm : BitVec 7 → Nat) (f : Nat → Nat → Nat) :
    PM Unit := do
  checkFields w ([dst o.d nd, src o.a na] ++ srcB o.b nb)
  let (a, la) ← readField w na o.a o.lit e
  let (b, lb) ← readB w nb o.b o.lit imm e
  let lbl ← resultLabel w (la ||| lb)
  vout w o.d nd (f a b) lbl

/-- A form that reads D as well; sources are read in the order D, A, B (R22). -/
def alu3 {T : Type} (w : Who) (o : Alu T) (nd na nb : Nat) (e : Ext) (imm : BitVec 7 → Nat) (f : Nat → Nat → Nat → Nat) :
    PM Unit := do
  checkFields w ([dst o.d nd, src o.a na] ++ srcB o.b nb)
  let (d, ld) ← readField w nd o.d none e
  let (a, la) ← readField w na o.a o.lit e
  let (b, lb) ← readB w nb o.b o.lit imm e
  let lbl ← resultLabel w (ld ||| la ||| lb)
  vout w o.d nd (f d a b) lbl

/-- A single-source form (R89). -/
def alu1 {T : Type} (w : Who) (o : Un T) (nd nb : Nat) (e : Ext) (imm : BitVec 7 → Nat) (f : Nat → Nat) : PM Unit := do
  checkFields w ([dst o.d nd] ++ srcB o.b nb)
  let (b, lb) ← readB w nb o.b o.lit imm e
  let lbl ← resultLabel w lb
  vout w o.d nd (f b) lbl

/-- A form of the floating-point group: as `alu2`, `alu3` and `alu1`, with the exceptions of the operation (R149, R150). -/
def fpu2 (w : Who) (o : Alu FTy) (f : RM → Nat → Nat → Nat × Exc) : PM Unit := do
  let n := o.ty.regs
  checkFields w ([dst o.d n, src o.a n] ++ srcB o.b n)
  let (a, la) ← readField w n o.a o.lit .float
  let (b, lb) ← readB w n o.b o.lit (immOf o.ty) .float
  let lbl ← resultLabel w (la ||| lb)
  let rm ← rmode w
  let (r, x) := f rm a b
  raiseFp w x lbl
  vout w o.d n r lbl

def fpu3 (w : Who) (o : Alu FTy) (f : RM → Nat → Nat → Nat → Nat × Exc) : PM Unit := do
  let n := o.ty.regs
  checkFields w ([dst o.d n, src o.a n] ++ srcB o.b n)
  let (d, ld) ← readField w n o.d none .float
  let (a, la) ← readField w n o.a o.lit .float
  let (b, lb) ← readB w n o.b o.lit (immOf o.ty) .float
  let lbl ← resultLabel w (ld ||| la ||| lb)
  let rm ← rmode w
  let (r, x) := f rm d a b
  raiseFp w x lbl
  vout w o.d n r lbl

end Sys2Proof.Machine
end

