-- ==== Sys2Proof/Machine/Float.lean ====
section
/-! DEFINITION. Floating arithmetic (R381 to R384, R388), the error-free transforms (R161, R162, R456, R457) and complex
multiply-add (R164, R356). -/

namespace Sys2Proof.Machine

/-- vd ← Round(va + vb, T), on both elements of a packed type (R381). -/
def execFadd (o : Alu FTy) (s : State) : Host.Outcome State Fault Refusal :=
  lift (each (fun w => fpu2 w o (fun rm a b =>
    buildOf o.ty (fun k => (fmtOf o.ty).add rm (elemOf o.ty a k) (elemOf o.ty b k))))) s

/-- vd ← Round(va × vb, T) (R381). -/
def execFmul (o : Alu FTy) (s : State) : Host.Outcome State Fault Refusal :=
  lift (each (fun w => fpu2 w o (fun rm a b =>
    buildOf o.ty (fun k => (fmtOf o.ty).mul rm (elemOf o.ty a k) (elemOf o.ty b k))))) s

/-- vd ← Round(va × vb + vd, T), the exact sum rounded once (R381, R382). -/
def execFfma (o : Alu FTy) (s : State) : Host.Outcome State Fault Refusal :=
  lift (each (fun w => fpu3 w o (fun rm d a b =>
    buildOf o.ty (fun k => (fmtOf o.ty).fma rm (elemOf o.ty a k) (elemOf o.ty b k) (elemOf o.ty d k))))) s

/-- Order of two values that are no NaN: −0 stands below +0 (R383). -/
def lessFV (a b : FV) : Bool :=
  match a, b with
  | .inf s, y => s && y != .inf true
  | x, .inf t => !t && x != .inf false
  | x, y =>
    let d := x.dy.add { m := -y.dy.m, e := y.dy.e }
    if d.m = 0 then x.isZero && y.isZero && x.neg && !y.neg else decide (d.m < 0)

/-- FMIN (`max = false`) and FMAX of two patterns (R383). -/
def minMax (F : Fmt) (max : Bool) (a b : Nat) : Nat × Exc :=
  let x := F.decode a
  let y := F.decode b
  let nv := nvIf (x.isSig || y.isSig)
  if x.isNan then (if y.isNan then (F.nan, nv) else (b, nv))
  else if y.isNan then (a, nv)
  else if max then (if lessFV x y then b else a, 0)
  else (if lessFV y x then b else a, 0)

def execFmin (o : Alu FTy) (s : State) : Host.Outcome State Fault Refusal :=
  lift (each (fun w => fpu2 w o (fun _ a b =>
    buildOf o.ty (fun k => minMax (fmtOf o.ty) false (elemOf o.ty a k) (elemOf o.ty b k))))) s

def execFmax (o : Alu FTy) (s : State) : Host.Outcome State Fault Refusal :=
  lift (each (fun w => fpu2 w o (fun _ a b =>
    buildOf o.ty (fun k => minMax (fmtOf o.ty) true (elemOf o.ty a k) (elemOf o.ty b k))))) s

/-- A floating comparison and the exceptions it raises (R384). -/
def fcmpVal (F : Fmt) (c : Cond) (a b : Nat) : Bool × Exc :=
  let x := F.decode a
  let y := F.decode b
  if x.isNan || y.isNan then
    (match c with
     | .eq => (false, nvIf (x.isSig || y.isSig))
     | .ne => (true, nvIf (x.isSig || y.isSig))
     | _ => (false, excNV))
  else
    let zeros := x.isZero && y.isZero
    let lt := !zeros && lessFV x y
    let gt := !zeros && lessFV y x
    (match c with
     | .eq => (!lt && !gt, 0)
     | .ne => (lt || gt, 0)
     | .lt => (lt, 0)
     | .ge => (!lt, 0))

/-- The predicate becomes the comparison of va and vb (R384). -/
def execFcmp (o : CmpOp Bool) (s : State) : Host.Outcome State Fault Refusal :=
  let t : FTy := if o.ty then .f64 else .f32
  lift (each (fun w => do
    let n := t.regs
    checkFields w (src o.a n :: srcB o.b n)
    let (a, la) ← readField w n o.a o.lit .float
    let (b, lb) ← readB w n o.b o.lit (immOf t) .float
    let lbl ← resultLabel w (la ||| lb)
    let (r, x) := fcmpVal (fmtOf t) o.c a b
    raiseFp w x lbl
    writePred w o.p r lbl)) s

/-- The integral value nearest to x in a direction; it keeps the sign and never raises NX (R388). -/
def frndVal (F : Fmt) (rm : RM) (a : Nat) : Nat × Exc :=
  match F.decode a with
  | .nan s => (F.nan, nvIf s)
  | .inf _ => (a, 0)
  | .num neg m e =>
    if m = 0 then (a, 0)
    else
      let (n, _) := roundAt rm neg m e 0
      ((F.round .rne neg n 0).1, 0)

def rdirMode (d : RDir) (rm : RM) : RM :=
  match d with
  | .rm => rm
  | .rne => .rne
  | .rtz => .rtz
  | .rdn => .rdn
  | .rup => .rup
  | .rna => .rna

def execFrnd (dir : RDir) (o : Un FTy) (s : State) : Host.Outcome State Fault Refusal :=
  lift (each (fun w => do
    let n := o.ty.regs
    checkFields w (dst o.d n :: srcB o.b n)
    let (b, lb) ← readB w n o.b o.lit (immOf o.ty) .float
    let lbl ← resultLabel w lb
    let rm ← rmode w
    let (r, x) := buildOf o.ty (fun k => frndVal (fmtOf o.ty) (rdirMode dir rm) (elemOf o.ty b k))
    raiseFp w x lbl
    vout w o.d n r lbl)) s

/-! ### Error-free transforms -/

/-- An exact difference that is known to be representable, or its rounding, in f32; +0 when zero, also where a negative difference rounds to
zero (R162). -/
def restF32 (x : Dy) (r : Nat) : Nat × Exc :=
  let (e, exc) := Fmt.f32.roundDy .rne (x.add { m := -(Fmt.f32.decode r).dy.m, e := (Fmt.f32.decode r).dy.e }) 0
  (if e = Fmt.f32.signBit then 0 else e, exc)

/-- TwoSum(a, b) of R161 with the exceptions of R457. -/
def twoSum (a b : Nat) : Nat × Nat × Exc :=
  let x := Fmt.f32.decode a
  let y := Fmt.f32.decode b
  let (r, exc) := Fmt.f32.sum .rne x y
  match Fmt.f32.decode r with
  | .nan _ => (r, Fmt.f32.nan, exc &&& excNV)
  | .inf _ => (r, 0, exc &&& (excNV ||| excOF ||| (if exc &&& excOF != 0 then excNX else 0)))
  | _ => (r, (restF32 (x.dy.add y.dy) r).1, 0)

/-- TwoProd(a, b) of R162 with the exceptions of R457. -/
def twoProd (a b : Nat) : Nat × Nat × Exc :=
  let x := Fmt.f32.decode a
  let y := Fmt.f32.decode b
  let (q, e0) := mulFV x y
  let (r, e1) := Fmt.f32.deliver .rne q
  match Fmt.f32.decode r with
  | .nan _ => (r, Fmt.f32.nan, (e0 ||| e1) &&& excNV)
  | .inf _ => (r, 0, (e0 ||| e1) &&& (excNV ||| excOF ||| excNX))
  | _ =>
    let (rest, e2) := restF32 q.dy r
    (r, rest, (e1 &&& excNX) ||| (e2 &&& (excUF ||| excNX)))

/-- (vd, vd+1) ← the transform of va and vb, rounded to nearest even whatever FPCTL says (R457). -/
def eft (o : Alu Unit) (f : Nat → Nat → Nat × Nat × Exc) (w : Who) : PM Unit := do
  checkFields w ([dst o.d 2, src o.a 1] ++ srcB o.b 1)
  let (a, la) ← readField w 1 o.a o.lit
  let (b, lb) ← readB w 1 o.b o.lit (immOf .f32)
  let lbl ← resultLabel w (la ||| lb)
  let (r, e, x) := f a b
  raiseFp w x lbl
  vout w o.d 2 (r + 2 ^ 32 * e) lbl

def execTwosum (o : Alu Unit) (s : State) : Host.Outcome State Fault Refusal := lift (each (eft o twoSum)) s

def execTwoprd (o : Alu Unit) (s : State) : Host.Outcome State Fault Refusal := lift (each (eft o twoProd)) s

/-! ### Complex multiply-add -/

/-- Round of the exact sum of three values, two of them products with the exceptions that they raised (R164). -/
def sum3 (F : Fmt) (rm : RM) (p q : FV × Exc) (c : FV) : Nat × Exc :=
  let x := p.2 ||| q.2 ||| nvIf c.isSig
  let vs := [p.1, q.1, c]
  let pos := vs.any (fun v => v == .inf false)
  let neg := vs.any (fun v => v == .inf true)
  if pos && neg then (F.nan, x ||| excNV)
  else if vs.any FV.isNan then (F.nan, x)
  else
    if pos then (F.inf, x)
    else if neg then (F.inf + F.signBit, x)
    else
      let z := if vs.all (fun v => v.isZero && v.neg) then F.signBit
               else if vs.all (fun v => v.isZero && !v.neg) then 0 else zeroSum F rm
      let (r, y) := F.roundDy rm ((p.1.dy.add q.1.dy).add c.dy) z
      (r, x ||| y)

def negFV : FV → FV
  | .inf s => .inf (!s)
  | .num s m e => .num (!s) m e
  | v => v

/-- D ← A × B + D on complex values (R164). -/
def cfmaVal (rm : RM) (d a b : Nat) : Nat × Exc :=
  let re := fun (x : Nat) => Fmt.f32.decode (x % 2 ^ 32)
  let im := fun (x : Nat) => Fmt.f32.decode (x / 2 ^ 32 % 2 ^ 32)
  let (r, x) := sum3 .f32 rm (mulFV (re a) (re b)) (mulFV (negFV (im a)) (im b)) (re d)
  let (i, y) := sum3 .f32 rm (mulFV (re a) (im b)) (mulFV (im a) (re b)) (im d)
  (r + 2 ^ 32 * i, x ||| y)

def execCfma (d a b : Fld) (s : State) : Host.Outcome State Fault Refusal :=
  lift (each (fun w => do
    checkFields w [dst d 2, src a 2, src b 2]
    let (x, lx) ← readField w 2 d none
    let (y, ly) ← readField w 2 a none
    let (z, lz) ← readField w 2 b none
    let lbl ← resultLabel w (lx ||| ly ||| lz)
    let rm ← rmode w
    let (r, e) := cfmaVal rm x y z
    raiseFp w e lbl
    vout w d 2 r lbl)) s

end Sys2Proof.Machine
end

