-- ==== Sys2Proof/Machine/Convert.lean ====
section
/-! DEFINITION. Conversions: the narrow formats and their stochastic underflow (R141, R144, R152 to R160), CVT (R368, R369),
QPACK and QUNPK (R422 to R424). -/

namespace Sys2Proof.Machine

/-- A draw of a thread's generator (R153). -/
def draw (s : Word) : Word :=
  let s := s ^^^ (s <<< 13)
  let s := s ^^^ (s >>> 17)
  s ^^^ (s <<< 5)

/-- An 8-bit float format: exponent and fraction bits, the magnitude code of the largest finite value, the NaN produced. -/
structure Narrow where
  eb     : Nat
  mb     : Nat
  maxMag : Nat
  nan    : Nat
  deriving DecidableEq, Repr

def Narrow.e4m3 : Narrow := ⟨4, 3, 0x7F, 0x80⟩
def Narrow.e5m2 : Narrow := ⟨5, 2, 0x7B, 0x7F⟩
def Narrow.isE4 (N : Narrow) : Bool := N.eb == 4
def Narrow.fmt (N : Narrow) : Fmt := ⟨N.eb, N.mb⟩

/-- The value of an 8-bit code (R141). -/
def Narrow.decode (N : Narrow) (x : Nat) : FV :=
  let x := x % 256
  let neg := decide (128 ≤ x)
  let mag := x % 128
  if N.isE4 then
    if x = 0x80 then .nan false
    else
      let ef := mag / 8
      if ef = 0 then .num neg (mag % 8) (-9) else .num neg (8 + mag % 8) ((ef : Int) - 10)
  else if mag = 0x7C then .inf neg
  else if 0x7C < mag then .nan false
  else
    let ef := mag / 4
    if ef = 0 then .num neg (mag % 4) (-16) else .num neg (4 + mag % 4) ((ef : Int) - 17)

/-- A magnitude below the least of the format becomes that least magnitude or zero by the draw (R152): whether it does. -/
def stochUp (m : Nat) (e : Int) (least : Int) (r : Word) : Bool :=
  -- k = floor(|x| · 2^32 / 2^least)
  let sh := e + 32 - least
  let k := if 0 ≤ sh then m * 2 ^ sh.toNat else m / 2 ^ (-sh).toNat
  decide (r.toNat < k)

/-- Conversion of an f32 value to an 8-bit format under a draw r (R144, R152, R369). -/
def Narrow.ofFV (N : Narrow) (rm : RM) (r : Word) : FV → Nat × Exc
  | .nan s => (N.nan, nvIf s)
  | .inf neg => if N.isE4 then (if neg then 0xFF else 0x7F, excNV) else (if neg then 0xFC else 0x7C, 0)
  | .num neg m e =>
    let sign := if neg then 128 else 0
    let least := N.fmt.qmin
    if m = 0 then (if N.isE4 then 0 else sign, 0)
    else if e + (Nat.log2 m : Nat) < least then
      (if stochUp m e least r then (sign + 1, excUF ||| excNX) else (if N.isE4 then 0 else sign, excUF ||| excNX))
    else
      let top : Int := e + (Nat.log2 m : Nat)
      let q := max (top - N.mb) least
      let (n, exact) := roundAt rm neg m e q
      let mag := (q - least).toNat * 2 ^ N.mb + n
      if N.maxMag < mag then (sign + N.maxMag, excOF ||| excNX)
      else
        let (n', _) := roundAt rm neg m e (top - N.mb)
        let tiny := decide ((if n' = 2 ^ (N.mb + 1) then top + 1 else top) < least + N.mb)
        (sign + mag, if exact then 0 else excNX ||| (if tiny then excUF else 0))

/-- The rounding of a finite value to an integer: sign applied, and whether it is exact. -/
def roundInt (rm : RM) : FV → Int × Bool
  | .num neg m e => let (n, x) := roundAt rm neg m e 0; (if neg then -(n : Int) else n, x)
  | _ => (0, true)

/-- R160 for an exact y, a NaN or an infinity, under a draw: the nibble and its exceptions. -/
def q4Round (rm : RM) (r : Word) (y : FV) : Nat × Exc :=
  match y with
  | .nan _ => (0, excNV)
  | .inf neg => (wrapInt 4 (if neg then -7 else 7), excOF ||| excNX)
  | .num neg m e =>
    if m = 0 then (0, 0)
    else if e + (Nat.log2 m : Nat) < 0 then
      (if stochUp m e 0 r then (if neg then 15 else 1) else 0, excUF ||| excNX)
    else
      let (q, exact) := roundInt rm y
      if 7 < q.natAbs then (wrapInt 4 (if neg then -7 else 7), excOF ||| excNX)
      else (wrapInt 4 q, if exact then 0 else excNX)

/-- Conversion of a floating value to an integer of n bits (R148, R369). -/
def toIntVal (rm : RM) (signed : Bool) (n : Nat) (x : FV) : Nat × Exc :=
  let lo : Int := if signed then -(2 ^ (n - 1) : Nat) else 0
  let hi : Int := if signed then (2 ^ (n - 1) : Nat) - 1 else (2 ^ n : Nat) - 1
  match x with
  | .nan _ => (0, excNV)
  | .inf neg => (wrapInt n (if neg then lo else hi), excNV)
  | v =>
    let (q, exact) := roundInt rm v
    if q < lo then (wrapInt n lo, excNV)
    else if hi < q then (wrapInt n hi, excNV)
    else (wrapInt n q, if exact then 0 else excNX)

/-- The eight wide formats of CVT's codes (R368): an integer type, or a floating type. -/
def wideInt (k : Nat) : Option ITy :=
  match k with
  | 0 => some .i32 | 1 => some .n32 | 2 => some .i64 | 3 => some .n64
  | _ => none
def wideFmt (k : Nat) : Fmt :=
  match k with
  | 4 => .f32 | 5 => .f64 | 6 => .h16
  | _ => .b16

def iValOf (t : ITy) (x : Nat) : Int :=
  match t with
  | .n32 => natBits 32 x
  | .i32 => intBits 32 x
  | .n64 => natBits 64 x
  | .i64 => intBits 64 x

def isSigned : ITy → Bool
  | .i32 | .i64 => true
  | _ => false

/-- A wide conversion from format s to format t (R369). -/
def wideCvt (rm : RM) (t s : Nat) (x : Nat) : Nat × Exc :=
  match wideInt t, wideInt s with
  | some a, some b => (wrapInt (32 * a.regs) (iValOf b x), 0)
  | none, some b => (wideFmt t).ofInt rm (iValOf b x)
  | some a, none => toIntVal rm (isSigned a) (32 * a.regs) ((wideFmt s).decode x)
  | none, none => (wideFmt t).deliver rm ((wideFmt s).decode x)

/-- Bits of a narrow format's element (R142, R156). -/
def narrowBits (n : Nat) : Nat := if n < 4 then 8 else if n < 6 then 16 else 4

/-- An f32 value converted to narrow format n under a draw (R369). -/
def toNarrow (rm : RM) (r : Word) (n : Nat) (v : FV) : Nat × Exc :=
  match n with
  | 0 => Narrow.e4m3.ofFV rm r v
  | 1 => Narrow.e5m2.ofFV rm r v
  | 2 => toIntVal rm true 8 v
  | 3 => toIntVal rm false 8 v
  | 4 => toIntVal rm true 16 v
  | 5 => toIntVal rm false 16 v
  | _ => q4Round rm r v

/-- A narrow element converted to f32 (R369). -/
def fromNarrow (rm : RM) (n x : Nat) : Nat × Exc :=
  match n with
  | 0 => Fmt.f32.deliver rm (Narrow.e4m3.decode x)
  | 1 => Fmt.f32.deliver rm (Narrow.e5m2.decode x)
  | 2 => Fmt.f32.ofInt rm (intBits 8 x)
  | 3 => Fmt.f32.ofInt rm (natBits 8 x : Nat)
  | 4 => Fmt.f32.ofInt rm (intBits 16 x)
  | _ => Fmt.f32.ofInt rm (natBits 16 x : Nat)

/-- Whether a conversion to narrow format n takes a draw (R155). -/
def narrowDraws (n : Nat) : Bool := n == 0 || n == 1 || n == 6

/-- The element e of width b replaced in a register. -/
def setElem (b e v x : Nat) : Nat := setBits (b * e + b - 1) (b * e) v x

/-- The source operand of CVT and how its literal extends (R83). -/
def cvtExt (s : Nat) : Ext := if s == 2 then .signed else if s == 5 then .float else .unsigned

/-- CVT (R368, R369). -/
def execCvt (code : BitVec 7) (e : BitVec 2) (o : Un Unit) (s : State) : Host.Outcome State Fault Refusal :=
  let c := code.toNat
  let sh := cvtShape code e
  lift (each (fun w => do
    checkFields w (dst o.d sh.nd :: srcB o.b sh.nb)
    let (d, ld) ← if sh.dsrc then readField w 1 o.d o.lit else pure (0, 0)
    let (b, lb) ← readB w sh.nb o.b o.lit (fun k => if c % 8 = 0 then wrapInt 32 (intBits 7 k.toNat) else k.toNat) (cvtExt (c % 8))
    let th ← thr w
    let rm ← rmode w
    if c < 64 then do
      let t := c / 8
      let sf := c % 8
      let x := if 6 ≤ sf then (b / 65536 ^ (e.toNat % 2)) % 65536 else b
      let (r, exc) := wideCvt rm t sf x
      let lbl ← resultLabel w (ld ||| lb)
      raiseFp w exc lbl
      vout w o.d sh.nd (if 6 ≤ t then setElem 16 (e.toNat / 2) r d else r) lbl
    else do
      let n := (c / 4) % 8
      let el := 4 * (c % 2) + e.toNat
      if (c / 32) % 2 = 1 then do
        let (r, exc) := fromNarrow rm n ((b / 2 ^ (narrowBits n * el)) % 2 ^ narrowBits n)
        let lbl ← resultLabel w (ld ||| lb)
        raiseFp w exc lbl
        vout w o.d 1 r lbl
      else do
        let g := draw th.seed
        let ls ← maskOf th.seedLbl
        let (r, exc) := toNarrow rm g n (Fmt.f32.decode (b % 2 ^ 32))
        let lbl ← resultLabel w (ld ||| lb ||| (if narrowDraws n then ls else 0))
        raiseFp w exc lbl
        if narrowDraws n then setThr w (fun th => { th with seed := g }) else pure ()
        vout w o.d 1 (setElem (narrowBits n) el r d) lbl)) s

/-! ### q4 packing -/

/-- The exact value of an outlier nibble under OEXP (R157). With OEXP = 0 and M = 0 it is a zero with the sign bit s, so that {s = 1, M = 0} enters the
lathe's products as −0 (DESIGN CHOICE: R157 says only that the value is zero; QUNPK gives +0 by R423). -/
def outlier (oexp n : Nat) : FV :=
  let neg := decide (8 ≤ n % 16)
  let m := n % 8
  if oexp = 0 then .num neg m (-9) else .num neg (8 + m) ((oexp : Int) - 10)

/-- The values of the two elements of a pair byte (R157). -/
def q4Pair (oexp byte : Nat) : FV × FV :=
  let lo := byte % 16
  let hi := (byte / 16) % 16
  let small := fun (n : Nat) => (FV.num (decide (8 ≤ n)) (intBits 4 n).natAbs 0)
  if lo = 8 then (outlier oexp hi, .num false 0 0)
  else if hi = 8 then (.num false 0 0, outlier oexp lo)
  else (small lo, small hi)

/-- A finite value times 2^k. -/
def scaleFV (v : FV) (k : Int) : FV :=
  match v with
  | .num s m e => .num s m (e + k)
  | x => x

/-- The scale byte j of a register (R159). -/
def scaleByte (v j : Nat) : Nat := (v / 256 ^ j) % 256

def bexp (c : Nat) : Int := intBits 4 c

/-- A q4 value as an f32 pattern; zeros are +0 (R423). -/
def q4ToF32 (v : FV) : Nat := if v.isZero then 0 else (Fmt.f32.deliver .rne v).1

/-- QUNPK decodes pair k of vs under byte j of vc (R423). -/
def execQunpk (d a b : Fld) (k j : BitVec 2) (lit : Option Word) (s : State) : Host.Outcome State Fault Refusal :=
  lift (each (fun w => do
    checkFields w [dst d 2, src a 1, src b 1]
    let (x, lx) ← readField w 1 a lit
    let (c, lc) ← readField w 1 b none
    let lbl ← resultLabel w (lx ||| lc)
    let sc := scaleByte c j.toNat
    let (d0, d1) := q4Pair (sc / 16) (scaleByte x k.toNat)
    vout w d 2 (q4ToF32 (scaleFV d0 (bexp sc)) + 2 ^ 32 * q4ToF32 (scaleFV d1 (bexp sc))) lbl)) s

/-- Whether |a| ≥ |b| for values that are no NaN. -/
def magGe (a b : FV) : Bool :=
  match a, b with
  | .inf _, _ => true
  | _, .inf _ => false
  | x, y => decide (0 ≤ ({ m := (x.dy.m.natAbs : Int), e := x.dy.e : Dy }.add { m := -(y.dy.m.natAbs : Int), e := y.dy.e }).m)

/-- Whether an element counts as an outlier: |Round(y, integer)| > 7 (R424). -/
def isOutlier (rm : RM) (y : FV) : Bool :=
  match y with
  | .nan _ => false
  | .inf _ => true
  | v => decide (7 < (roundInt rm v).1.natAbs)

/-- M of an outlier and the exceptions it raises (R424). -/
def outlierM (oexp : Nat) (y : FV) : Nat × Exc :=
  match y with
  | .num _ m e =>
    -- 8 × |y| / 2^(OEXP−7) − 8
    let v : Dy := ({ m := (m : Int), e := e + 10 - oexp } : Dy).add { m := -8, e := 0 }
    if v.m < 0 then (0, excNX)
    else
      let (n, exact) := roundAt .rne false v.m.natAbs v.e 0
      if 7 < n then (7, excOF ||| excNX) else (n, if exact then 0 else excNX)
  | _ => (7, excOF ||| excNX)

/-- One pair of QPACK: its byte and its exceptions (R424). -/
def qpackPair (rm : RM) (oexp : Nat) (y0 y1 : FV) (r0 r1 : Word) : Nat × Exc :=
  if oexp ≠ 0 ∧ (isOutlier rm y0 || isOutlier rm y1) then
    let first := if y0.isNan then false else if y1.isNan then true else magGe y0 y1
    let o := if first then y0 else y1
    let mate := if first then y1 else y0
    let (m, x) := outlierM oexp o
    let tag := m + (if o.neg then 8 else 0)
    let xm := if mate.isNan then excNV else if mate.isZero then 0 else excNX
    (if first then 8 + 16 * tag else tag + 128, x ||| xm)
  else
    let (q0, x0) := q4Round rm r0 y0
    let (q1, x1) := q4Round rm r1 y1
    (q0 + 16 * q1, x0 ||| x1)

/-- QPACK packs eight f32 values into eight nibbles, with eight draws (R424). -/
def execQpack (d a b : Fld) (j : BitVec 2) (s : State) : Host.Outcome State Fault Refusal :=
  lift (each (fun w => do
    checkFields w [dst d 1, src a 8, src b 1]
    let (x, lx) ← readField w 8 a none
    let (c, lc) ← readField w 1 b none
    let th ← thr w
    let rm ← rmode w
    let ls ← maskOf th.seedLbl
    let sc := scaleByte c j.toNat
    let y := fun (e : Nat) => scaleFV (Fmt.f32.decode ((x / 2 ^ (32 * e)) % 2 ^ 32)) (-(bexp sc))
    let r := fun (e : Nat) => (List.range (e + 1)).foldl (fun v _ => draw v) th.seed
    let byte := fun (k : Nat) => qpackPair rm (sc / 16) (y (2 * k)) (y (2 * k + 1)) (r (2 * k)) (r (2 * k + 1))
    let lbl ← resultLabel w (lx ||| lc ||| ls)
    raiseFp w ((byte 0).2 ||| (byte 1).2 ||| (byte 2).2 ||| (byte 3).2) lbl
    setThr w (fun th => { th with seed := r 7 })
    vout w d 1 ((byte 0).1 + 256 * (byte 1).1 + 65536 * (byte 2).1 + 16777216 * (byte 3).1) lbl)) s

end Sys2Proof.Machine
end

