-- ==== Sys2Proof/Machine/Mem.lean ====
section
/-! DEFINITION. Memory as accesses see it: translation (R211 to R217), reachability (R307, R478), scope records (R240, R241),
the writes that a home holds and what a load or an atomic reads (R228 to R233), the conditions of release and fence (R237),
and merge records on pod pages (R130, R131, R272, R273, R275). -/

namespace Sys2Proof.Machine

/-! ### Translation -/

/-- What an access does with its page (R214). -/
inductive Use where
  | load | store | atomic | disc | fetch
  deriving DecidableEq, Repr

def Use.reads : Use → Bool
  | .load | .atomic => true
  | _ => false

def Use.writes : Use → Bool
  | .store | .atomic | .disc => true
  | _ => false

/-- Bits 63:57 all equal bit 56 (R212). -/
def canonical (va : Nat) : Bool := bitsOf 63 56 va == 0 || bitsOf 63 56 va == 0xFF

/-- The levels of a walk: lowest virtual bit indexed, and index bits (R212). -/
def walkLevels : List (Nat × Nat) := [(48, 9), (39, 9), (30, 9), (21, 9), (16, 5)]

/-- How a walk of the tables ends: PAGE, an illegal entry, or a leaf with its address and its lowest virtual bit. -/
inductive Walk where
  | page
  | bad
  | leaf (entry pte shift : Nat)
  deriving DecidableEq, Repr

/-- The walk from a table on (R212 to R214). DESIGN CHOICE: a valid entry of level 0 that is no leaf is illegal. -/
def Package.walkFrom (p : Package) (va : Nat) : List (Nat × Nat) → Nat → Walk
  | [], _ => .bad
  | (sh, w) :: ls, table =>
    let pte := table + 16 * bitsOf (sh + w - 1) sh va
    let e := p.readPa pte 16
    if e % 2 = 0 then .page
    else if bitsOf 6 6 e = 1 then (if 39 ≤ sh then .bad else .leaf e pte sh)
    else p.walkFrom va ls (bitsOf 47 9 e * 2 ^ 9)

/-- POD, POD-CACHED and SHADOW (R269). -/
def podMode (m : Nat) : Bool := m == 1 || m == 2 || m == 4

/-- A leaf as a translation; none where R214 or R279 makes it illegal. -/
def xlatOf (sp : Space) (va e pte shift : Nat) : Option Xlat :=
  let mode := bitsOf 95 93 e
  let rule := bitsOf 99 96 e
  let frame := bitsOf 47 16 e * 2 ^ 16
  let size := 2 ^ shift
  if 4 < mode || 9 < rule || (rule != 0) != podMode mode || 7 < bitsOf 91 88 e
      || frame % (if mode = 4 then 2 * size else size) != 0 then none
  else some { space := sp.id, gen := sp.gen, vpage := (va % 2 ^ 57) / size, size, frame
              r := e.testBit 3, w := e.testBit 4, x := e.testBit 5, mode, rule, grow := e.testBit 92
              peer := bitsOf 111 100 e, label := BitVec.ofNat 16 (bitsOf 127 112 e), mthr := bitsOf 91 88 e, pte }

def Xlat.pod (x : Xlat) : Bool := podMode x.mode

/-- The physical address, at the home, that a virtual address of the page has. -/
def Xlat.pa (x : Xlat) (va : Nat) : Nat := x.frame + (va % 2 ^ 57) % x.size

def Xlat.hits (x : Xlat) (sp : Space) (va : Nat) : Bool :=
  x.space == sp.id && x.gen == sp.gen && x.vpage == (va % 2 ^ 57) / x.size

/-- The walker sets ACC, and at a store DIRTY, in the entry that the translation came from (R213). -/
def Package.markPte (p : Package) (x : Xlat) (store : Bool) : Package :=
  let e := p.readPa x.pte 16
  if e.testBit 0 && e.testBit 6 && bitsOf 47 16 e * 2 ^ 16 == x.frame then
    let e' := setBits 9 9 1 e
    let e' := if store then setBits 10 10 1 e' else e'
    if e' = e then p else p.poke x.pte 16 e'
  else p

/-- The last-page register of a load-store lane takes a translation (R217). -/
def Package.setLane (p : Package) (core lane : Nat) (x : Xlat) : Package :=
  p.setCore core (fun c => { c with lanes := spPut c.lanes lane x })

/-- A translation kept in a core's TLB and in the lane's register; which entry a full TLB gives up is open (R217). -/
def Package.cacheXlat (p : Package) (core lane : Nat) (x : Xlat) : Package :=
  let p := p.setLane core lane x
  let c := p.coreOr core
  if c.tlb.length < Config.tlbEntries then p.setCore core (fun c => { c with tlb := c.tlb ++ [x] })
  else
    let (n, p) := p.pick c.tlb.length
    p.setCore core (fun c => { c with tlb := c.tlb.set n x })

/-- A translation that the core holds: in the register of the lane, which bypasses the TLB, or in the TLB (R217). -/
def Core.lookup (c : Core) (lane : Nat) (sp : Space) (va : Nat) : Option Xlat :=
  match (spFind c.lanes lane).filter (fun x => x.hits sp va) with
  | some x => some x
  | none => c.tlb.find? (fun x => x.hits sp va)

/-- The entry that a die's walk cache holds for a level of the walk of an address (R217). -/
def Package.walkLine (p : Package) (die : Nat) (sp : Space) (va shift : Nat) : Option WalkLine :=
  p.walks.find? (fun l => l.die == die && l.space == sp.id && l.gen == sp.gen && l.shift == shift && l.idx == (va % 2 ^ 57) / 2 ^ shift)

/-- The walk from a table on through a die's walk cache; answers the valid entries that were read from memory too. -/
def Package.walkVia (p : Package) (die : Nat) (sp : Space) (va : Nat) : List (Nat × Nat) → Nat → Walk × List WalkLine
  | [], _ => (.bad, [])
  | (sh, w) :: ls, table =>
    let at_ := table + 16 * bitsOf (sh + w - 1) sh va
    let kept := p.walkLine die sp va sh
    let pte := (kept.map (·.pte)).getD at_
    let e := (kept.map (·.entry)).getD (p.readPa at_ 16)
    if e % 2 = 0 then (.page, [])
    else
      let new := if kept.isSome then [] else [{ die, space := sp.id, gen := sp.gen, shift := sh, idx := (va % 2 ^ 57) / 2 ^ sh, pte, entry := e }]
      if bitsOf 6 6 e = 1 then ((if 39 ≤ sh then .bad else .leaf e pte sh), new)
      else
        let (r, ls') := p.walkVia die sp va ls (bitsOf 47 9 e * 2 ^ 9)
        (r, new ++ ls')

/-- The space in which a team's addresses are translated. -/
def Package.space? (p : Package) (id : Nat) : Option Space := p.spaces.find? (fun s => s.id == id)

/-- TAKING A TRANSLATION (R214, R217): from the lane's last-page register, the core's TLB, or a walk through the die's walk cache, with the
permission that the use needs. How many entries the walk cache keeps is open: a walk keeps what it read, or not. DESIGN CHOICE: in a space that
is not bound every address takes PAGE. -/
def translate (w : Who) (va : Nat) (vm : Mask) (use : Use) : PM Xlat := do
  let tm ← teamOf w
  let p ← get
  let core := tm.coreOf w.lid
  let lane := 32 * tm.partOf w.lid + laneOf w.lid
  match p.space? tm.space with
  | none => pageStop va vm
  | some sp =>
    let x ← match (p.coreOr core).lookup lane sp va with
      | some x => do
        modify (fun p => p.setLane core lane x)
        pure x
      | none =>
        let (r, read) := p.walkVia (core / 40) sp va walkLevels sp.root
        match r with
        | .page => pageStop va vm
        | .bad => prot 0x35 va vm
        | .leaf e pte sh =>
          match xlatOf sp va e pte sh with
          | none => prot 0x35 va vm
          | some x => do
            let keep ← modifyGet (fun p => p.pick 2)
            modify (fun p => if keep = 0 then { p with walks := p.walks ++ read } else p)
            modify (fun p => p.cacheXlat core lane x)
            pure x
    if use.reads && !x.r then prot 0x40 va vm
    else if use.writes && !x.w then prot 0x41 va vm
    else if use == .fetch && !x.x then prot 0x42 va vm
    else do
      modify (fun p => p.markPte x (use == .store || use == .atomic))
      pure x

/-! ### Peers and owners -/

/-- State and physical package of a logical peer of the world; for a pod page a peer that is no member of the world's
domain is absent (R307, R478). -/
def Package.peerOf (p : Package) (x : World) (pod : Bool) (peer : Nat) : PeerState × Nat :=
  match x.peers.find? (fun q => q.logical == peer) with
  | none => (.absent, 0)
  | some q =>
    if pod && x.tide.any (fun t => t.size ≤ peer) then (.absent, 0)
    else if q.phys == p.phys && q.state != .absent then (.reachable, q.phys) else (q.state, q.phys)

/-- The check of R307: none for a page homed on this package, some package for a remote one. -/
def reach (w : Who) (va : Nat) (vm : Mask) (x : Xlat) : PM (Option Nat) := do
  let wd ← worldOf w
  let p ← get
  if x.mode == 0 then pure none
  else match p.peerOf wd x.pod x.peer with
    | (.absent, _) => trap .unreachablePeer va 0 x.peer vm
    | (.quiescing, _) => waitFor .peer
    | (.reachable, k) => pure (if k == p.phys then none else some k)

/-- Whether a world's access to a frame passes the ownership check: its owner's, or a commons frame (R211). Beyond the package's memory there is
no frame to own (R1). -/
def Package.owns (p : Package) (world pa : Nat) : Bool :=
  decide (pa < Config.memBytes) && (p.ownerOf pa == world || p.ownerOf pa == 63)

/-- The ownership check at an access's home, this package or another one of the pod. -/
def Package.ownsAt (p : Package) (others : List Package) (home : Option Nat) (world pa : Nat) : Bool :=
  match home with
  | none => p.owns world pa
  | some k => (others.find? (fun q => q.phys == k)).all (fun q => q.owns world pa)

/-- Translation, reachability and ownership (R344 steps 5 to 7): the page, the physical address at the home, and the remote
home if any. `others` are the other packages of the pod, which hold the remote homes. -/
def access (others : List Package) (w : Who) (va : Nat) (vm : Mask) (use : Use) : PM (Xlat × Nat × Option Nat) := do
  let x ← translate w va vm use
  let home ← reach w va vm x
  let p ← get
  let tm ← teamOf w
  let pa := x.pa va
  if p.ownsAt others home tm.world pa then pure (x, pa, home) else trap .owner va 0 0 vm

/-! ### Lines -/

def Line.fresh (a : Nat) : Line :=
  { addr := a, inL2 := false, maxl := 0, last := 0, copies := [], scope := none, tag := 0, writer := none }

def Package.line (p : Package) (a : Nat) : Line := (p.lines.find? (fun l => l.addr == a)).getD (Line.fresh a)

/-- The line with its state replaced. -/
def Package.putLine (p : Package) (l : Line) : Package :=
  if p.lines.any (fun x => x.addr == l.addr) then { p with lines := mapIf (fun x => x.addr == l.addr) (fun _ => l) p.lines }
  else { p with lines := p.lines ++ [l] }

/-- Whether a write touches a line; DISC covers the lines of its page. -/
def Write.covers (x : Write) (line : Nat) : Bool :=
  x.line == line || x.disc.any (fun d => lineOf d.1 ≤ line && line < lineOf d.1 + 1024)

/-- The L2 of a line's home evicts it, unless a store to it is pending; a lease that still runs raises the die's horizon (R229). -/
def Package.evictL2 (p : Package) (line : Nat) : Package :=
  let l := p.line line
  if !l.inL2 || p.writes.any (fun x => x.covers line && x.wct.all (fun t => decide (p.now < t))) then p
  else
    let die := Config.homeDie line
    let p := p.putLine { l with inL2 := false, scope := none, tag := 0 }
    if p.now ≤ l.maxl then { p with horizons := spSet 0 p.horizons die (max (spGet 0 p.horizons die) l.maxl) } else p

/-- Room for one more line in the L2 of the die that a line number hashes to: when the L2 is full, another line or a copy of a line of another package
makes room; which one is open (R193, R271). A manifest carve-out leaves 126 MiB of the L2 as cache (R294). DEDUCED: a copy of another package's
line lies in the die that its line number hashes to, as a line of this package does. -/
def Package.roomDie (p : Package) (line : Nat) : Package :=
  let here := p.lines.filter (fun x => x.inL2 && Config.homeDie x.addr == Config.homeDie line)
  let pods := p.pods.filter (fun c => c.cluster.isNone && Config.homeDie c.line == Config.homeDie line)
  if here.length + pods.length < (if p.carveOut then Config.l2Lines - Config.carveLines else Config.l2Lines) then p
  else
    let (n, p) := p.pick (here.length + pods.length)
    match pods[n - here.length]? with
    | some c => if here.length ≤ n then { p with pods := p.pods.filter (· != c) } else p.evictL2 ((here.map (·.addr)).getD n 0)
    | none => p.evictL2 ((here.map (·.addr)).getD n 0)

/-- A line that enters its home's L2 finds room there (R193). -/
def Package.roomL2 (p : Package) (l : Line) : Package :=
  if !l.inL2 || p.lines.any (fun x => x.inL2 && x.addr == l.addr) then p else p.roomDie l.addr

def Package.setLine (p : Package) (l : Line) : Package := (p.roomL2 l).putLine l

/-- The line in its home's L2: a line that enters starts with MAXL equal to the die's horizon and no scope record (R229,
R240). -/
def Package.lineIn (p : Package) (a : Nat) : Line :=
  let l := p.line a
  if l.inL2 then l else { l with inL2 := true, maxl := spGet 0 p.horizons (Config.homeDie a), scope := none, tag := 0 }

/-! ### Scope records (R240, R241) -/

/-- A scope mismatch: a scope narrower than .pkg against another team's record. -/
def Line.mismatch (l : Line) (tag : Nat) (s : Scope) : Bool := s != .pkg && l.scope.isSome && l.tag != tag

/-- Counts and logs a mismatch: the address and both tags. -/
def Package.logMismatch (p : Package) (world pa recTag tag : Nat) : Package :=
  p.setWorld world (fun x => { x with mismatches := x.mismatches + 1, mismatchLog := x.mismatchLog ++ [(pa, recTag, tag)] })

/-- An acquire, release or atomic performed on a line: judged against the record, which it then replaces. -/
def Package.recordScope (p : Package) (world pa tag : Nat) (s : Scope) : Package :=
  let l := p.lineIn (lineOf pa)
  let p := if l.mismatch tag s then p.logMismatch world pa l.tag tag else p
  p.setLine { l with scope := some s, tag }

/-- With scope traps enabled a narrower access is checked at the home before it is performed: SCOPE_MISMATCH, or the record
is written now. Answers whether it was. -/
def scopeCheck (w : Who) (va pa : Nat) (vm : Mask) (s : Scope) : PM Bool := do
  let tm ← teamOf w
  let wd ← worldOf w
  let p ← get
  if wd.scopeTraps && s != .pkg then
    let l := p.lineIn (lineOf pa)
    if l.mismatch tm.tag s then
      fun p => .error (.trap .scopeMismatch va vm 0 (((l.scope.map (·.enc.toNat)).getD 3) + 4 * s.enc.toNat) none
        (p.logMismatch tm.world pa l.tag tm.tag))
    else do
      modify (fun p => p.recordScope tm.world pa tm.tag s)
      pure true
  else pure false

/-! ### Writes at their homes -/

/-- Whether a write covers a byte. -/
def Write.hasByte (x : Write) (a : Nat) : Bool :=
  x.cells.any (fun c => c.1 == a) || x.disc.any (fun d => d.1 ≤ a && a < d.1 + 65536)

def Write.overlaps (x : Write) (pa n : Nat) : Bool := (List.range n).any (fun k => x.hasByte (pa + k))

def Write.of (x : Write) (w : Who) : Bool := x.team == w.team && x.lid == w.lid && x.kind != .engine

/-- The largest WCT pending on a line, 0 where none is (R230). -/
def Package.pendingMax (p : Package) (line : Nat) : Nat :=
  p.writes.foldl (fun m x => if x.covers line then max m (x.wct.getD 0) else m) 0

/-- The WCT of a write that arrives at the line now (R230). -/
def Package.nextWct (p : Package) (line : Nat) : Nat :=
  let l := p.lineIn line
  max (max p.now l.maxl) (max l.last (p.pendingMax line)) + 1

/-- Writes in coherence order: by WCT, and after them those that have none yet, in the order in which they were made. -/
def coherent (ws : List Write) : List Write := sortBy (fun x => x.wct.getD (2 ^ 80 + x.id)) ws

/-- The value of a byte after a write. -/
def Write.put (x : Write) (a : Nat) (v : Byte) : Byte :=
  match x.cells.find? (fun c => c.1 == a) with
  | some c => c.2
  | none => if x.disc.any (fun d => d.1 ≤ a && a < d.1 + 65536) then 0 else v

/-- The 32 bytes of an entry of the label table (R107): STATE 1 for a live entry and 2 for the reserved one, and MASK. -/
def Package.labelEntry (p : Package) (idx : Nat) : Nat :=
  if idx = 0xFFFF then 2 * 2 ^ 128
  else match p.labels.find? (fun e => e.1 == idx) with
    | some e => 2 ^ 128 + e.2.toNat
    | none => 0

/-- The byte that the label table holds at an address, where it lies there (R107): the entries, not what stores may have left in the frame, for
no instruction writes the table. -/
def Package.tableByte (p : Package) (a : Nat) : Option Byte :=
  match p.labelBase with
  | none => none
  | some b => if b ≤ a && a < b + 2 ^ 21 then some (BitVec.ofNat 8 (p.labelEntry ((a - b) / 32) / 256 ^ ((a - b) % 32))) else none

/-- A byte of the stacks with some writes applied in order. -/
def Package.storedUnder (p : Package) (ws : List Write) (a : Nat) : Byte := ws.foldl (fun v x => x.put a v) (p.byteAt a)

/-- A byte as an access reads it, and a granule's label, with some writes applied in order. -/
def Package.byteUnder (p : Package) (ws : List Write) (a : Nat) : Byte := (p.tableByte a).getD (p.storedUnder ws a)

def Package.labelUnder (p : Package) (ws : List Write) (g : Nat) : Lbl :=
  ws.foldl (fun l x => match x.grow.find? (fun e => e.1 == g) with | some e => e.2 | none => l) (p.glabel g)

def Package.bytesUnder (p : Package) (ws : List Write) (a n : Nat) : List Byte :=
  (List.range n).map (fun k => p.byteUnder ws (a + k))

/-- What has arrived at the homes, in coherence order (R230): what an atomic reads and a label check sees. -/
def Package.arrived (p : Package) : List Write := coherent (p.writes.filter (fun x => x.wct.isSome))

/-- The label of a granule as its home holds it (R115, R118). -/
def Package.homeLabel (p : Package) (g : Nat) : Lbl := p.labelUnder p.arrived g

/-- Whether the cluster has a bank in CACHE mode (R197); banks are listed only in another mode. -/
def Package.hasCache (p : Package) (cluster : Nat) : Bool :=
  (p.banks.filter (fun b => b.cluster == cluster && b.mode != .cache)).length < 32

/-- The writes that a load of a thread sees (R231): its own earlier ones, those whose WCT has been reached, and under .cc
those that its cluster's cache has accepted. -/
def Package.seen (p : Package) (a : Acc) (cc : Bool) : List Write :=
  coherent (p.writes.filter (fun x =>
    if x.of ⟨a.team, a.lid⟩ then x.id < a.id
    else (match x.wct with | some t => t ≤ p.now | none => false)
      || (cc && x.cc && x.cluster == a.cluster)))

/-- Whether a load would see a granule torn (R119): an early write of its own or of its cluster that lies behind a growing update which it does not see
yet, or an atomic of its own whose old value it does not see. It is performed when the update is visible (DEDUCED). -/
def Package.torn (p : Package) (a : Acc) (pa n : Nat) (cc : Bool) : Bool :=
  let ws := p.seen a cc
  let early := ws.filter (fun x => !x.wct.any (fun t => decide (t ≤ p.now)) && (granules pa n).any (fun g => x.overlaps (32 * g) 32))
  early.any (fun x => x.kind == .atomic
    || p.writes.any (fun y => y.wct.any (fun t => decide (p.now < t ∧ t < x.wct.getD (t + 1))) && !ws.any (fun z => z.id == y.id)
        && y.grow.any (fun e => (granules pa n).contains e.1 && x.overlaps (32 * e.1) 32)))

/-! ### Order among a thread's own accesses -/

def Acc.of (a : Acc) (w : Who) : Bool := a.team == w.team && a.lid == w.lid

def spansMeet (a n b m : Nat) : Bool := a < b + m && b < a + n

/-- A load that its home or cache has not served yet. -/
def LoadOp.pending (o : LoadOp) : Bool :=
  match o.stage with
  | .sent => true
  | .waiting _ => true
  | .delivery _ => true
  | _ => false

/-- Whether an earlier load or atomic of the thread to overlapping bytes is still to be performed (R233). -/
def Package.earlierRead (p : Package) (w : Who) (before pa n : Nat) : Bool :=
  p.accs.any (fun a => a.of w && a.id < before && (match a.op with
    | .load o => o.peer.isNone && o.pending && spansMeet pa n o.pa o.n
    | .result o => o.span.any (fun q => spansMeet pa n q.1 q.2)
    | _ => false))

/-- Whether an earlier load of the thread of overlapping bytes is on its way to a remote home or back (R233). -/
def Package.earlierRemote (p : Package) (w : Who) (home : Option Nat) (pa n : Nat) : Bool :=
  home.isSome && p.accs.any (fun a => a.of w && (match a.op with
    | .load o => o.peer == home && o.pending && spansMeet pa n o.pa o.n
    | _ => false))

/-- An acquire of the thread that has not completed (R236). -/
def Package.acquiring (p : Package) (w : Who) : Bool :=
  p.accs.any (fun a => a.of w && (match a.op with
    | .load o => o.acq
    | .result o => o.acq
    | _ => false))

/-- Whether R237's conditions at a scope hold for every access of the thread made before `before`, and for what the RGNC `own` has released
(R242). An atomic has been accepted by its home when it has been made, and its WCT is the thread's. -/
def Package.settled (p : Package) (w : Who) (s : Scope) (before own : Nat) : Bool :=
  let th := p.thread? w
  let ws := p.writes.filter (fun x => x.of w && (decide (x.id < before) || x.acc == own))
  p.accs.all (fun a => !(a.of w && (decide (a.id < before) || a.id == own)) || (match a.op with
    | .load o => (match o.stage with | .bad _ => true | _ => false)
    | .result r => r.span.isSome
    | .pod _ => s == .thread
    | .rgnc left _ => s == .thread || left == 0
    | _ => true))
  && (match s with
    | .thread => ws.all (fun x => x.wct.isSome || x.cc)
    | .team => ws.all (fun x => x.wct.isSome || x.cc) && th.all (fun t => t.wctFar == 0 || decide (t.wctFar < p.now))
    | .pkg => ws.all (fun x => x.wct.isSome) && th.all (fun t => t.wctAll == 0 || decide (t.wctAll < p.now)))

def acquires : MemOrder → Bool
  | .acq | .acqrel => true
  | _ => false

def releases : MemOrder → Bool
  | .rel | .acqrel => true
  | _ => false

/-- No later access is performed before an acquire completes (R236). -/
def gate (w : Who) : PM Unit := do
  let p ← get
  await (!p.acquiring w) .memory

/-- The fence at a scope holds the thread until R237's conditions are met. -/
def fenceAt (w : Who) (s : Scope) : PM Unit := do
  let p ← get
  await (p.settled w s p.nextId p.nextId) .memory

def release (w : Who) (o : MemOrder) (s : Scope) : PM Unit := if releases o then fenceAt w s else pure ()

/-! ### Addresses and outstanding accesses -/

/-- The effective address and the owners of its base pair (R21, R91). -/
def effAddr (w : Who) (a : Fld) (off : Option Word) : PM (Nat × Mask) := do
  let (b, m) ← readField w 2 a none
  pure ((b + wrapInt 64 (intBits 32 ((off.getD 0).toNat))) % 2 ^ 64, m)

/-- Whether the thread's accesses go to its region store buffer (R221, R254). -/
def Thread.buffering (th : Thread) : Bool := th.region.isSome && th.trap.isNone

/-- PROT with TRAPAUX 0x50 after a held atomic (R222). -/
def noHeld (w : Who) (va : Nat) (vm : Mask) : PM Unit := do
  let th ← thr w
  if th.buffering && th.region.any (fun r => r.held.isSome) then prot 0x50 va vm else pure ()

/-- PROT with TRAPAUX 0x53 in a thread with an open region (R237, R250, R373, R387). -/
def noRegion (w : Who) (va : Nat := 0) (vm : Mask := 0) : PM Unit := do
  let th ← thr w
  if th.region.isSome then prot 0x53 va vm else pure ()

def Package.acc? (p : Package) (k : Nat) : Option Acc := p.accs.find? (fun a => a.id == k)

def Package.setAcc (p : Package) (k : Nat) (f : Acc → Acc) : Package := { p with accs := mapIf (fun a => a.id == k) f p.accs }

/-- An outstanding access with the flag that it is tied to. -/
def addAccFlag (w : Who) (flag : Option Nat) (op : AccOp) : PM Nat := do
  let k ← addAcc w op
  modify (fun p => p.setAcc k (fun a => { a with flag := flag }))
  pure k

/-- The instruction that runs completes at once: its flag is decremented. -/
def flagNow (w : Who) : PM Unit := do
  let i ← theIssue
  modify (fun p => p.flagDone w i.flag)

/-! ### Stores -/

/-- The element size of a merge rule (R272). -/
def elemSize (rule : Nat) : Nat := if rule == 3 || rule == 5 || rule == 6 then 8 else 4

/-- The RED operation that a merge rule admits (R272). -/
def redMatches (rule : Nat) (o : RedAt) : Bool :=
  match rule, o with
  | 3, .add64 => true
  | 4, .addf32 => true
  | 5, .mins64 => true
  | 6, .maxs64 => true
  | 7, .or32 => true
  | 7, .or64 => true
  | 8, .and32 => true
  | 8, .and64 => true
  | _, _ => false

/-- The checks of a store or RED up to step 8 (R344, R432, R450): the page, the address at its home, and the home. -/
def storeAccess (others : List Package) (w : Who) (va : Nat) (vm : Mask) (n : Nat) (red : Option RedAt) : PM (Xlat × Nat × Option Nat) := do
  if !canonical va then prot 0x30 va vm
  else if (if red.isSome then va % n != 0 else 64 < va % 64 + n) then trap .align va 0 n vm
  else do
    let (x, pa, home) ← access others w va vm (if red.isSome then .atomic else .store)
    let wd ← worldOf w
    if x.pod then
      if wd.tide.isNone then prot 0x80 va vm
      else if va % elemSize x.rule != 0 || n % elemSize x.rule != 0 then trap .align va 0 n vm
      else if red.any (fun o => !redMatches x.rule o) then trap .podRule va 0 2 vm
      else pure (x, pa, home)
    else if x.mode == 3 && home.isSome then prot 0x43 va vm
    else pure (x, pa, home)

/-- LBL_MSG: the page label first, then the team ceiling (R130, R131, R137). -/
def msgCheck (w : Who) (va : Nat) (vm : Mask) (x : Xlat) (need : Lbl) : PM Unit := do
  let m ← maskOf need
  let tm ← teamOf w
  let pl ← maskOf x.label
  let c ← maskOf tm.ceiling
  if !dominates pl m then trap .lblMsg va need x.label.toNat vm
  else if !dominates c m then trap .lblMsg va need tm.ceiling.toNat vm
  else pure ()

/-- LBL_STORE: every granule touched must dominate the need (R115); TRAPVA is the lowest failing granule, or at RGNC the
entry's address (R137). -/
def granuleCheck (w : Who) (va : Nat) (vm : Mask) (pa n : Nat) (need : Lbl) (atEntry : Bool) : PM Unit := do
  let p ← get
  let m ← maskOf need
  let _ ← thr w
  match (granules pa n).find? (fun g => !dominates (p.maskOf (p.homeLabel g)) m) with
  | some g => trap .lblStore (if atEntry then va else va / 32 * 32 + 32 * (g - pa / 32)) need (p.homeLabel g).toNat vm
  | none => pure ()

/-- The label check of a store to its page. -/
def storeLabel (w : Who) (va : Nat) (vm : Mask) (x : Xlat) (pa n : Nat) (need : Lbl) (atEntry : Bool := false) : PM Unit :=
  if x.pod then msgCheck w va vm x need else granuleCheck w va vm pa n need atEntry

/-- The need of a store: the owners of its data, of its base, Ctx(t) and the guard (R115). -/
def needOf (w : Who) (data base : Mask) : PM Lbl := resultLabel w (data ||| base)

/-- A write on its way to its home. -/
def addWrite (w : Who) (acc pa : Nat) (cells : List Host.Cell) (kind : WriteKind) (policy : Policy) (pte : Option Nat)
    (scope : Option Scope) (disc : Option (Nat × Nat)) : PM Unit := do
  let tm ← teamOf w
  let k ← freshId
  modify (fun p =>
    let x : Write := { id := k, acc, line := lineOf pa, cells, grow := [], wct := none, kind, team := w.team, lid := w.lid
                       world := tm.world, cluster := tm.cluster, policy, cc := policy == .cc && kind == .store && p.hasCache tm.cluster
                       scope, key := p.keyAt pa, core := tm.coreOf w.lid
                       epoch := (p.coreOr (tm.coreOf w.lid)).epoch, pte, disc }
    { p with writes := p.writes ++ [x] })

/-- The cells of n bytes of data at an address. -/
def cellsOf (pa n data : Nat) : List Host.Cell :=
  ((List.range n).zip (toBytes n data)).map (fun c => (pa + c.1, c.2))

/-- A packet handed to the fabric (R305). -/
def Package.send (p : Package) (dst world : Nat) (m : Msg) : Package :=
  { p with out := p.out ++ [{ src := p.phys, dst, seq := p.sent, world, key := p.epochOf world, msg := m }], sent := p.sent + 1 }

def Package.setTide (p : Package) (world : Nat) (f : Tide → Tide) : Package :=
  p.setWorld world (fun x => { x with tide := x.tide.map f })

/-- Who makes a pod write: what R277 ranks it by, and the grid (R275). -/
structure Writer where
  pkg   : Nat
  team  : Nat
  depth : Nat
  lid   : Nat
  grid  : Nat
  deriving DecidableEq, Repr

/-- The merge records of a pod write, one per doubleword (R273, R275). -/
def podRecords (step : Nat) (by_ : Writer) (seq rule pa n data : Nat) (mask : Mask) : List MergeRec :=
  let first := pa / 8
  (List.range ((pa + n - 1) / 8 - first + 1)).map (fun k =>
    let lo := 8 * (first + k)
    let present := fun (j : Nat) => pa ≤ lo + 4 * j && lo + 4 * j < pa + n
    let whole := data * 2 ^ (8 * (pa - 8 * first))
    { step, pkg := by_.pkg, team := by_.team, lid := by_.lid, depth := by_.depth, seq, rule
      emask := (present 0).toNat + 2 * (present 1).toNat
      pa := lo, lbl := 0, val := bitsOf (64 * k + 63) (64 * k) whole, mask, grid := by_.grid, ord := 0 })

/-- Lowest package that reports a cause (R282). -/
def lowest (k : Nat) : Option Nat → Option Nat
  | none => some k
  | some j => some (min j k)

/-- The step to which a pod write belongs that is issued now: once its package has arrived, the next tide is that of the step after it
(R269, R281). -/
def Tide.writeStep (t : Tide) : Nat := if t.state == .running then t.step else (t.step + 1) % 2 ^ 32

/-- SEQ of the thread's next pod write of a step: its earlier ones in that step (R275). -/
def Thread.seqIn (th : Thread) (step : Nat) : Nat := if th.podStep = step then th.podSeq else 0

/-- The thread's count of pod writes of a step, n further. -/
def Thread.countPod (th : Thread) (step n : Nat) : Thread := { th with podSeq := th.seqIn step + n, podStep := step }

/-- A refused write of this package: the cause OVERFLOW of the step, and the records lost (R275, R283, R287). -/
def Tide.refuse (t : Tide) (step n : Nat) : Tide :=
  if step = t.step then { t with causes := { t.causes with overflow := lowest t.me t.causes.overflow }, lost := t.lost + n }
  else { t with nextCauses := { t.nextCauses with overflow := lowest t.me t.nextCauses.overflow }, nextLost := t.nextLost + n }

/-- Sends a pod write: its merge records go to the page's home, this package included (R273). Answers how many were sent; the
16,777,216th pod write of a step is refused (R275). -/
def sendPod (w : Who) (acc : Nat) (x : Xlat) (pa n data : Nat) (need : Lbl) (home : Option Nat) : PM Nat := do
  let tm ← teamOf w
  let th ← thr w
  let wd ← worldOf w
  let m ← maskOf need
  match wd.tide with
  | none => pure 0
  | some t =>
    let step := t.writeStep
    let rs := podRecords step { pkg := t.me, team := tm.index, depth := recDepth tm.record, lid := w.lid, grid := tm.grid } (th.seqIn step)
      x.rule pa n data m
    setThr w (fun th => th.countPod step 1)
    if 16777215 ≤ th.seqIn step then do
      modify (fun p => p.setTide tm.world (fun t => t.refuse step rs.length))
      pure 0
    else do
      modify (fun p =>
        let p := rs.foldl (fun p r => p.send (home.getD p.phys) tm.world (.record r acc)) p
        p.setTide tm.world (fun t => { t with unacked := t.unacked + rs.length }))
      pure rs.length

/-! ### Manifests at the homes (R291 to R298) -/

def Package.man (p : Package) (phys : Nat) : Manifest := (p.mans.find? (fun m => m.phys == phys)).getD (Manifest.reset phys)

def Package.setMan (p : Package) (m : Manifest) : Package :=
  { p with mans := p.mans.filter (fun x => x.phys != m.phys) ++ [m] }

/-- Whether a frame belongs to the range of a manifest. -/
def Manifest.holds (m : Manifest) (frame : Nat) : Bool := m.frames.any (fun f => f.2 == frame)

/-- The manifest of a world whose range holds a line (R291). -/
def Package.manAt (p : Package) (world line : Nat) : Option Manifest :=
  p.mans.find? (fun m => m.world == world && m.holds (line / 1024))

/-- A manifest one of whose counters exceeds its threshold is SUSPENDED, with both causes when both do (R298). -/
def Manifest.judge (m : Manifest) (now : Nat) : Manifest :=
  let passed := (decide (m.mth < m.misses)).toNat + 2 * (decide (m.uth < m.unread)).toNat
  if passed = 0 then m else { m with state := .suspended, cause := passed, suspAt := now }

/-- A counter of a PLAYING manifest raised, or of one that another departure of this cycle has suspended (R298). -/
def Package.depart (p : Package) (phys : Nat) (miss : Bool) : Package :=
  let m := p.man phys
  if m.state != .playing && !(m.state == .suspended && m.suspAt == p.now) then p
  else p.setMan ((if miss then { m with misses := m.misses + 1 } else { m with unread := m.unread + 1 }).judge p.now)

/-- A write or a transfer has reached a home in this cycle (R300). -/
def Package.atHomes (p : Package) : Package := { p with homeAt := p.now + 1 }

/-- A delivered copy leaves a cluster cache: unread, it counts one unread delivery (R296). -/
def Package.copyLeaves (p : Package) (c : Copy) : Package :=
  match c.delivered with
  | some m => if c.read then p else p.depart m false
  | none => p

/-- Room for one more entry of a line in its die's carve-out (R294). -/
def Package.carveRoom (p : Package) (line : Nat) : Bool :=
  decide ((p.mans.foldl (fun n m => n + (m.entries.filter (fun e => Config.homeDie e.line == Config.homeDie line)).length) 0)
    < Config.carveEntries)

def Manifest.addEntry (m : Manifest) (room : Bool) (e : ManEntry) : Manifest :=
  if room then { m with entries := m.entries ++ [e] } else { m with ovf := true }

/-- A load of cluster c that reaches the home of a line (R292, R298): the transfer is recorded, or an unrecorded miss counts. -/
def Package.noteFill (p : Package) (world line c : Nat) : Package :=
  let p := p.atHomes
  match p.manAt world line with
  | none => p
  | some m =>
    let mine := fun (e : ManEntry) => e.line == line && !e.kind
    match m.state with
    | .recording =>
      (match (p.line line).writer with
      | none => p
      | some w =>
        if w = c then p
        else if m.entries.any mine then
          let add := fun (e : ManEntry) => { e with cons := adjoin c e.cons, amb := e.amb || e.prod != w }
          p.setMan { m with entries := mapIf mine add m.entries }
        else p.setMan (m.addEntry (p.carveRoom line) { line, kind := false, prod := w, cons := [c], amb := false }))
    | .playing | .suspended => if m.entries.any (fun e => mine e && e.cons.contains c) then p else p.depart m.phys true
    | _ => p

/-- A remote read of a pod line that reaches its home from a logical package (R297, R298). -/
def Package.noteRemote (p : Package) (world line reader : Nat) : Package :=
  let p := p.atHomes
  match p.manAt world line with
  | none => p
  | some m =>
    let mine := fun (e : ManEntry) => e.line == line && e.kind && e.cons.contains reader
    match m.state with
    | .recording =>
      if m.entries.any mine then p
      else p.setMan (m.addEntry (p.carveRoom line) { line, kind := true, prod := 0, cons := [reader], amb := false })
    | .playing | .suspended => if m.entries.any mine then p else p.depart m.phys true
    | _ => p

/-! ### Copies in the cluster caches -/

/-- A cluster loses its copy of a line. -/
def Package.dropCopy (p : Package) (line cluster : Nat) : Package :=
  let l := p.line line
  match l.copies.find? (fun c => c.cluster == cluster) with
  | none => p
  | some c => (p.setLine { l with copies := l.copies.filter (fun x => x.cluster != cluster) }).copyLeaves c

/-- Every cluster loses its copy of a line. -/
def Package.dropLine (p : Package) (line : Nat) : Package :=
  ((p.line line).copies.map (·.cluster)).foldl (fun p c => p.dropCopy line c) p

/-- What a store or an atomic does to the copy of its own cluster (R234, R296): another policy than .cc invalidates it, and a delivered copy is
replaced by a .cc store. -/
def Package.storeCopy (p : Package) (x : Write) : Package :=
  if x.kind != .store && x.kind != .atomic then p
  else if x.policy != .cc || (x.kind == .store && !x.cc) then p.dropCopy x.line x.cluster
  else if x.kind == .atomic then p
  else
    let l := p.line x.line
    match l.copies.find? (fun c => c.cluster == x.cluster) with
    | none => p
    | some c =>
      let plain := fun (c : Copy) => if c.cluster == x.cluster then { c with delivered := none } else c
      (p.setLine { l with copies := l.copies.map plain }).copyLeaves c

/-- The largest WCT pending on a line (R230); 0 where none is. -/
def Package.pendingWct (p : Package) (line : Nat) : Nat :=
  p.writes.foldl (fun m x => if x.covers line && x.wct.any (fun t => decide (p.now < t)) then max m (x.wct.getD 0) else m) 0

/-! ### Atomics at the home -/

/-- RoundNE(a + b, f32) with the NaNs and zeros of R143. -/
def addF32 (a b : Nat) : Nat := (Fmt.f32.add .rne a b).1

def minS (n a b : Nat) : Nat := if intBits n a ≤ intBits n b then a else b
def maxS (n a b : Nat) : Nat := if intBits n a ≤ intBits n b then b else a

/-- The new value of R342; none where a compare-and-swap fails. -/
def atomVal (o : AtomOp) (old x y : Nat) : Option Nat :=
  match o with
  | .add32 => some ((old + x) % 2 ^ 32)
  | .mins32 => some (minS 32 old x)
  | .minn32 => some (min old x)
  | .maxs32 => some (maxS 32 old x)
  | .maxn32 => some (max old x)
  | .and32 => some (old &&& x)
  | .or32 => some (old ||| x)
  | .xor32 => some (old ^^^ x)
  | .exch32 => some x
  | .cas32 => if old = x then some y else none
  | .addf32 => some (addF32 old x)
  | .add64 => some ((old + x) % 2 ^ 64)
  | .mins64 => some (minS 64 old x)
  | .maxs64 => some (maxS 64 old x)
  | .exch64 => some x
  | .cas64 => if old = x then some y else none

/-- The new value of R430. -/
def redVal (o : RedAt) (old x : Nat) : Nat :=
  match o with
  | .add32 => (old + x) % 2 ^ 32
  | .mins32 => minS 32 old x
  | .minn32 => min old x
  | .maxs32 => maxS 32 old x
  | .maxn32 => max old x
  | .and32 => old &&& x
  | .or32 => old ||| x
  | .xor32 => old ^^^ x
  | .and64 => old &&& x
  | .or64 => old ||| x
  | .addf32 => addF32 old x
  | .add64 => (old + x) % 2 ^ 64
  | .mins64 => minS 64 old x
  | .maxs64 => maxS 64 old x
  | .xor64 => old ^^^ x

/-- Bytes of an atomic's access. -/
def AtomKind.bytes : AtomKind → Nat
  | .atom o => o.bytes
  | .atomx _ => 16
  | .red o => o.bytes

/-- Its new value (R342, R345, R430). -/
def AtomKind.apply (k : AtomKind) (old x y : Nat) : Option Nat :=
  match k with
  | .atom o => atomVal o old x y
  | .atomx .cas => if old = x then some y else none
  | .atomx .exch => some x
  | .red o => some (redVal o old x)

def AtomKind.isRed : AtomKind → Bool
  | .red _ => true
  | _ => false

/-- Whether the atomic records its scope: every ATOM and ATOMX, and a RED that is not plain (R241, R432). -/
def HeldAtomic.records (h : HeldAtomic) : Bool := !h.kind.isRed || h.order != .plain

/-- The checks of R344 steps 3 to 8 for an atomic. -/
def atomicAccess (others : List Package) (w : Who) (h : HeldAtomic) (vm : Mask) : PM (Xlat × Nat × Option Nat) :=
  match h.kind with
  | .red o => storeAccess others w h.va vm o.bytes (some o)
  | k => do
    if !canonical h.va then prot 0x30 h.va vm
    else if h.va % k.bytes != 0 then trap .align h.va 0 k.bytes vm
    else do
      let (x, pa, home) ← access others w h.va vm .atomic
      if x.pod then trap .podRule h.va 0 1 vm
      else if x.mode == 3 && home.isSome then prot 0x43 h.va vm
      else pure (x, pa, home)

/-- Whether an RGNC of another thread has passed the check of its closing atomic on a granule and has not performed it yet: a growing update waits
for that, so that the check still holds then (DEDUCED from R118 and R223, by which RGNC traps with every entry held or not at all). -/
def Package.reserved (p : Package) (w : Who) (g : Nat) : Bool :=
  p.teams.any (fun tm => tm.threads.any (fun th => !(tm.id == w.team && th.lid == w.lid)
    && th.region.any (fun r => r.release.any (fun x => x.closing.any (fun c => !podMode c.1.mode && granuleOf c.2.1 == g)))))

/-- R118 in the atomic step of the home: the label of the granule as it stands and, when it must grow, the label that it
grows to. ATOMX never grows (R345). A stored label that names no live entry has no owner of its own here (DESIGN CHOICE: R111 speaks of loads
alone). -/
def growCheck (w : Who) (h : HeldAtomic) (vm : Mask) (grow : Bool) (pa : Nat) : PM (Lbl × Option Lbl) := do
  let p ← get
  let tm ← teamOf w
  let g := granuleOf pa
  let old := p.homeLabel g
  let om ← maskOf old
  let c ← maskOf tm.ceiling
  if dominates om h.need then pure (old, none)
  else do
    let need ← mkLabel h.need
    let grows := match h.kind with | .atomx _ => false | _ => grow
    if grows && dominates c (om ||| h.need) then do
      await (!p.reserved w g) .memory
      let l ← mkLabel (om ||| h.need)
      pure (old, some l)
    else trap .lblStore (h.va / 32 * 32) need old.toNat vm

/-- Whether the thread's own earlier accesses to these bytes let an atomic be performed now (R233). -/
def Package.atomReady (p : Package) (w : Who) (before pa n : Nat) : Bool :=
  !p.earlierRead w before pa n && !p.writes.any (fun x => x.of w && x.id < before && x.wct.isNone && x.overlaps pa n)

/-- A write that arrived is noted at its line and in its thread: the latest WCT, the last writer while a manifest of the world
holds the frame (R292), and the thread's latest WCTs. A .st store does not allocate the line (R234). -/
def Package.noteWct (p : Package) (x : Write) (wct : Nat) : Package :=
  let l := p.lineIn x.line
  let kept := (x.kind == .store || x.kind == .atomic) && p.mans.any (fun m => m.world == x.world && m.frames.any (fun (f : Nat × Nat) => f.2 == x.line / 1024))
  let writer := fun (l : Line) => if kept then some x.cluster else l.writer
  let p := (if x.policy == .st && !(p.line x.line).inL2 then p.putLine { p.line x.line with last := wct, writer := writer (p.line x.line) }
    else p.setLine { l with last := wct, writer := writer l }).atHomes
  if x.kind == .engine then p
  else p.setThread ⟨x.team, x.lid⟩ (fun th =>
    { th with wctAll := max th.wctAll wct, wctFar := if x.cc then th.wctFar else max th.wctFar wct })

/-- PERFORMING AN ATOMIC at its home, as one step that receives its WCT (R230, R343): answers the old value and the WCT. -/
def Package.atHome (p : Package) (w : Who) (h : HeldAtomic) (acc pa : Nat) (pte : Option Nat) (grow : Option Lbl) (recorded : Bool) :
    Package × Nat × Nat :=
  match p.team? w.team with
  | none => (p, 0, 0)
  | some tm =>
    let n := h.kind.bytes
    let old := ofBytes (p.bytesUnder p.arrived pa n)
    let wct := p.nextWct (lineOf pa)
    let (id, p) := p.fresh
    let x : Write := { id, acc, line := lineOf pa
                       cells := match h.kind.apply old h.arg h.arg2 with | some v => cellsOf pa n v | none => []
                       grow := (grow.map (fun l => (granuleOf pa, l))).toList, wct := some wct, kind := .atomic, team := w.team, lid := w.lid
                       world := tm.world, cluster := tm.cluster, policy := h.policy, cc := false, scope := none
                       key := p.keyAt pa, core := tm.coreOf w.lid, epoch := (p.coreOr (tm.coreOf w.lid)).epoch
                       pte, disc := none }
    let p := { p with writes := p.writes ++ [x] }
    let p := (p.noteWct x wct).storeCopy x
    let p := if h.records && !recorded then p.recordScope tm.world pa tm.tag h.scope else p
    (p, old, wct)

/-- Whether a sector or a granule label that an access touches is bad: 1 data, 2 label (R111, R194, R251). -/
def Package.badAt (p : Package) (pa n : Nat) : Option Nat :=
  if (granules pa n).any (fun g => p.bad.contains g) then some 1
  else if (granules pa n).any (fun g => !p.live (p.homeLabel g).toNat) then some 2
  else none

/-! ### Reading a record at once -/

/-- The physical address of a SHADOW page's live copy of a byte (R279). -/
def World.liveAt (x : World) (pa : Nat) : Nat :=
  match x.shadows.find? (fun s => s.page ≤ pa && pa < s.page + s.size) with
  | some s => if s.live then pa + s.size else pa
  | none => pa

/-- Whether the package serves pod loads of a step (R270): step numbers count modulo 2^32. -/
def Tide.serves (t : Tide) (step : Nat) : Bool := decide ((t.step + 2 ^ 32 - step % 2 ^ 32) % 2 ^ 32 < 2 ^ 31) && t.state != .applying

/-- The address at its home of what a load of the world reads: in the live copy, for a pod page. -/
def Package.liveOf (p : Package) (world : Nat) (pod : Bool) (pa : Nat) : Nat :=
  if pod then ((p.world? world).map (fun x => x.liveAt pa)).getD pa else pa

/-- n bytes as a home gives them to a load of the world now, with the owners of their granules. -/
def Package.homeRead (p : Package) (world : Nat) (pod : Bool) (pa n : Nat) (ws : List Write) : Nat × Mask :=
  let pa := p.liveOf world pod pa
  (ofBytes (p.bytesUnder ws pa n), (granules pa n).foldl (fun m g => m ||| p.maskOf (p.labelUnder ws g)) 0)

/-- A load that is part of the instruction that runs consumes an uncorrectable error (R260). -/
def deferErr {α : Type} (va : Nat) (vm : Mask) (aux : Nat) : PM α := fun p => .error (.deferred va vm aux p)

/-- The access that a request names whose answer no instruction waits for. -/
def nobody : Nat := 2 ^ 64

/-- The remote home is told of a load that was made as part of an instruction or by an engine, for the counts that it keeps (R216, R297). -/
def Package.tellHome (p : Package) (home world : Nat) (x : Xlat) (pa n : Nat) (step : Option Nat) : Package :=
  p.send home world (.loadReq nobody pa n x.mode (if x.pod then step else none) x.frame x.mthr none 0 0)

/-- n bytes read as a load of the thread (R244, R398): its earlier stores included, after its earlier loads and atomics of the same bytes
(R233), and while no write to the line is pending at the home (R230). `others` are the other packages of the pod, which hold the remote
homes. -/
def loadNow (others : List Package) (w : Who) (va : Nat) (vm : Mask) (n : Nat) : PM (Nat × Mask) := do
  if !canonical va then prot 0x30 va vm
  else do
    let (x, pa, home) ← access others w va vm .load
    let tm ← teamOf w
    let wd ← worldOf w
    let p ← get
    await (!p.earlierRead w p.nextId pa n && !p.earlierRemote w home pa n) .memory
    let step := wd.tide.map (·.step)
    let label := p.maskOf x.label
    match home with
    | none =>
      if !x.pod && p.pendingWct (lineOf pa) != 0 then waitFor .memory
      else if x.pod && wd.tide.any (fun t => !t.serves t.step) then waitFor .memory
      else match p.badAt (p.liveOf tm.world x.pod pa) n with
        | some aux => deferErr va vm aux
        | none => do
          let me : Acc := { id := p.nextId, team := w.team, lid := w.lid, core := 0, cluster := tm.cluster, gang := 0, flag := none
                            hdr := 0, pc := 0, resume := { hdr := 0, mid := none }, trapped := false, epoch := 0, killed := false
                            op := .store }
          let (v, m) := p.homeRead tm.world x.pod pa n (p.seen me false)
          modify (fun p => p.noteFill tm.world (lineOf pa) tm.cluster)
          pure (v, if x.pod then label else m)
    | some k =>
      match others.find? (fun q => q.phys == k) with
      | none => waitFor .memory
      | some q =>
        let held := x.pod && (match (q.world? tm.world).bind (·.tide), step with
          | some t, some s => !t.serves s
          | _, _ => false)
        if held || (!x.pod && q.pendingWct (lineOf pa) != 0) then waitFor .memory
        else match q.badAt (q.liveOf tm.world x.pod pa) n with
          | some aux => deferErr va vm aux
          | none =>
            let (v, m) := q.homeRead tm.world x.pod pa n (coherent (q.writes.filter (fun y => y.wct.any (fun t => t ≤ q.now))))
            modify (fun p => p.tellHome k tm.world x pa n step)
            pure (v, if x.pod then label else m)

/-- The translation that a walk of the tables gives an address of a space now; none where it gives none. -/
def Package.mapped (p : Package) (space va : Nat) : Option Xlat :=
  match p.space? space with
  | none => none
  | some sp =>
    match p.walkFrom va walkLevels sp.root with
    | .leaf e pte sh => xlatOf sp va e pte sh
    | _ => none

/-- Whether a page of a world is homed on this package, whatever its mode (R307). -/
def Package.homedHere (p : Package) (world : Nat) (x : Xlat) : Bool :=
  x.mode == 0 || (p.world? world).any (fun wd => p.peerOf wd x.pod x.peer == (.reachable, p.phys))

/-- The physical address and the frame's entry of a virtual address whose page is readable and homed here, as the hardware finds it
without a thread; none otherwise. Of a SHADOW page it is the live copy's address (R279). -/
def Package.peekPa (p : Package) (space va : Nat) : Option (Nat × Xlat) :=
  match p.space? space, p.mapped space va with
  | some sp, some x => if x.r && p.homedHere sp.world x then some (p.liveOf sp.world x.pod (x.pa va), x) else none
  | _, _ => none

/-- A value in a space as the hardware reads it, without a thread. -/
def Package.peekVa (p : Package) (space va n : Nat) : Option Nat := (p.peekPa space va).map (fun a => p.readPa a.1 n)

end Sys2Proof.Machine
end

