-- ==== Sys2Proof/Machine/Memory.lean ====
section
/-! DEFINITION. Loads, stores, atomics and REDs, FENCE, TLFENCE, DISC, and idempotent regions (R220 to R227, R342 to R345, R372,
R373, R385, R400 to R402, R430 to R432, R435, R436, R448 to R450, R454). -/

namespace Sys2Proof.Machine

/-! ### LD -/

/-- The youngest buffered entry that holds a byte of memory (R221). -/
def youngest (rsb : List RsbEntry) (a : Nat) : Option RsbEntry :=
  rsb.reverse.find? (fun e => !e.pad && e.addr ≤ a && a < e.addr + e.width)

/-- The byte that an entry holds for an address. -/
def RsbEntry.byte (e : RsbEntry) (a : Nat) : Byte := BitVec.ofNat 8 (e.data / 256 ^ (a - e.addr))

/-- The bytes of an access that come from the region store buffer, by their place in it. -/
def overBytes (rsb : List RsbEntry) (va n : Nat) : List (Nat × Byte) :=
  (List.range n).filterMap (fun k => (youngest rsb (va + k)).map (fun e => (k, e.byte (va + k))))

/-- The entries that give bytes to an access. -/
def overNeeds (rsb : List RsbEntry) (va n : Nat) : List Lbl :=
  (List.range n).filterMap (fun k => (youngest rsb (va + k)).map (·.need))

/-- What a thread's loads take from its buffer: nothing in trap mode (R254). -/
def Thread.buffer (th : Thread) : List RsbEntry :=
  if th.buffering then (match th.region with | some r => r.rsb | none => []) else []

/-- A load of this package is answered with bytes of its remote home: those that the region store buffer gave stand over them (R221), and the
owners of the data join (R114). `bad` is TRAPAUX of an error, or 0 (R251). -/
def LoadOp.answered (o : LoadOp) (val : Nat) (mask : Mask) (bad : Nat) : LoadOp :=
  if bad != 0 then { o with stage := .bad bad }
  else
    let bs := (List.range o.n).map (fun k =>
      ((o.ovl.find? (fun (c : Nat × Byte) => c.1 == k)).map (fun (c : Nat × Byte) => c.2)).getD (BitVec.ofNat 8 (val / 256 ^ k)))
    { o with stage := .served (ofBytes bs) (o.mask ||| mask) }

def AccOp.answered (val : Nat) (mask : Mask) (bad : Nat) : AccOp → AccOp
  | .load o => .load (o.answered val mask bad)
  | x => x

/-- A copy of a pod line of another package that may serve a load now (R271, R297): one of the step or of an earlier one of the same domain,
in the L2, or under .cc in the cluster's cache within its lease. -/
def Package.podCopy (p : Package) (world home line : Nat) (step : Option Nat) (cluster : Nat) (policy : Policy) : Option PodCopy :=
  p.pods.find? (fun c => c.world == world && c.home == home && c.line == line && step == some c.step
    && (match c.cluster with
      | none => true
      | some k => k == cluster && policy == .cc && p.hasCache k && decide (p.now ≤ c.lease)))

/-- The check of a narrow acquire at a remote home, with scope traps enabled (R241). -/
def remoteScope (others : List Package) (w : Who) (va pa : Nat) (vm : Mask) (s : Scope) (home : Nat) : PM Unit := do
  let tm ← teamOf w
  let wd ← worldOf w
  match (if wd.scopeTraps && s != .pkg then others.find? (fun q => q.phys == home) else none) with
  | none => pure ()
  | some q =>
    let l := q.lineIn (lineOf pa)
    if l.mismatch tm.tag s then
      fun p => .error (.trap .scopeMismatch va vm 0 (((l.scope.map (·.enc.toNat)).getD 3) + 4 * s.enc.toNat) none
        (p.logMismatch tm.world pa l.tag tm.tag))
    else pure ()

/-- A load that has passed its checks becomes outstanding, and goes to its home where that is another package and no copy answers it (R228, R241, R271).
`done` says that its scope is recorded already. -/
def putLoad (m : MemOp Width) (w : Who) (va : Nat) (la : Mask) (x : Xlat) (pa : Nat) (home : Option Nat) (done : Bool) : PM Unit := do
  let n := m.x.bytes
  let th ← thr w
  let tm ← teamOf w
  let wd ← worldOf w
  let g ← env w
  let p ← get
  await (!p.earlierRemote w home pa n) .memory
  let d ← resolve w m.d
  let step := if x.pod then wd.tide.map (·.step) else none
  let policy := if x.mode == 3 then .l2 else m.policy
  let scope := if acquires m.order && !done then some m.scope else none
  let copy := if x.pod then home.bind (fun q => p.podCopy tm.world q (lineOf pa) step tm.cluster policy) else none
  let atOnce := copy.isSome || (wd.scopeTraps && m.scope != .pkg)
  let k ← addAcc w (.load { va, pa, n, policy, acq := acquires m.order, scope := if home.isNone || atOnce then scope else none
                            dst := d, regs := m.x.regs, signed := m.x.signed
                            mask := la ||| g ||| p.joinOf (overNeeds th.buffer va n)
                              ||| (if x.pod && (overBytes th.buffer va n).length < n then p.maskOf x.label else 0)
                            ovl := overBytes th.buffer va n
                            mode := x.mode, step, peer := home, stage := .sent })
  modify (fun p => p.setCore (tm.coreOf w.lid) (fun c => { c with loads := c.loads + 1 }))
  match home with
  | some q =>
    (match copy with
    | some c => modify (fun p => p.setAcc k (fun a => { a with op := a.op.answered (c.val / 256 ^ (pa % 64)) 0 0 }))
    | none => modify (fun p => p.send q tm.world (.loadReq k pa n x.mode step x.frame x.mthr (if atOnce then none else scope) tm.tag 0)))
  | none => pure ()

/-- LD in one thread (R402). -/
def ldBody (others : List Package) (m : MemOp Width) (w : Who) : PM Unit := do
  checkFields w [dst m.d m.x.regs, src m.a 2]
  let n := m.x.bytes
  let (va, la) ← effAddr w m.a m.off
  noHeld w va la
  let th ← thr w
  if m.order == .acqrel && th.region.isSome then prot 0x53 va la
  else if !canonical va then prot 0x30 va la
  else if 64 < va % 64 + n then trap .align va 0 n la
  else do
    gate w
    release w m.order m.scope
    let (x, pa, home) ← access others w va la .load
    let done ← match home with
      | none => if acquires m.order then scopeCheck w va pa la m.scope else pure true
      | some q => do
        if acquires m.order then remoteScope others w va pa la m.scope q else pure ()
        pure false
    putLoad m w va la x pa home done

/-- The scope records of the remote acquires that an LD has just made: written at their homes at once, where the check has been made at issue or where a
copy on this package serves the load (R240, R241). DEDUCED: a check "before it is performed" and the record are one step, so that no other access
comes between. The other remote acquires are recorded when their homes serve them. -/
def State.recordRemote (s : State) (before : Nat) : State :=
  (s.here.accs.filter (fun a => decide (before ≤ a.id))).foldl (fun s a =>
    match a.op, s.here.team? a.team with
    | .load o, some tm =>
      (match o.peer, o.scope with
      | some k, some sc =>
        { s with here := s.here.setAcc a.id (fun a => { a with op := .load { o with scope := none } })
                 others := mapIf (fun q => q.phys == k) (fun q => q.recordScope tm.world o.pa tm.tag sc) s.others }
      | _, _ => s)
    | _, _ => s) s

/-- LD (R400 to R402): the load becomes outstanding; it is served by the cluster cache or at its home. A load of a MIGRATE page is made under
.l2 (R215). -/
def execLd (m : MemOp Width) (s : State) : Host.Outcome State Fault Refusal :=
  match lift (each (ldBody s.others m)) s with
  | .next t => .next (t.recordRemote s.here.nextId)
  | o => o

/-! ### ST -/

/-- An entry placed in the thread's region store buffer; a ninth traps RSB_OVERFLOW (R221). -/
def buffer (w : Who) (e : RsbEntry) (vm : Mask) : PM Unit := do
  let th ← thr w
  match th.region with
  | none => pure ()
  | some r =>
    if Config.rsbSize ≤ r.rsb.length then trap .rsbOverflow e.addr 0 8 vm
    else setThr w (fun th => { th with region := some { r with rsb := r.rsb ++ [e] } })

/-- A store that passed its checks is sent: merge records on a pod page, else a write. Answers the number of records. -/
def sendStore (w : Who) (acc : Nat) (x : Xlat) (pa n data : Nat) (need : Lbl) (home : Option Nat) (policy : Policy)
    (scope : Option Scope) : PM Nat :=
  if x.pod then sendPod w acc x pa n data need home
  else do
    addWrite w acc pa (cellsOf pa n data) .store policy (some x.pte) scope none
    pure 0

/-- The outstanding access with the number of records that it still waits for. -/
def AccOp.withLeft (left : Nat) : AccOp → AccOp
  | .pod _ => .pod left
  | .rgnc _ c => .rgnc left c
  | o => o

/-- The access with further records that it waits for. -/
def AccOp.more (n : Nat) : AccOp → AccOp
  | .pod left => .pod (left + n)
  | .rgnc left c => .rgnc (left + n) c
  | o => o

/-- The RGNC with the access of its closing atomic, for which it waits too (R242). -/
def AccOp.closedBy (k : Nat) : AccOp → AccOp
  | .rgnc left _ => .rgnc left (some k)
  | o => o

def moreRecords (k n : Nat) : PM Unit := modify (fun p => p.setAcc k (fun a => { a with op := a.op.more n }))

def setPodLeft (k left : Nat) : PM Unit :=
  modify (fun p => p.setAcc k (fun a => { a with op := a.op.withLeft left }))

def stBody (others : List Package) (m : MemOp Width) (w : Who) : PM Unit := do
  checkFields w [src m.d m.x.regs, src m.a 2]
  let n := m.x.bytes
  let (v, lv) ← readField w m.x.regs m.d m.lit
  let (va, la) ← effAddr w m.a m.off
  let data := v % 2 ^ (8 * n)
  let th ← thr w
  noHeld w va la
  if th.buffering then do
    let need ← needOf w lv la
    buffer w { addr := va, data, width := n, need, amask := la, pad := false, policy := m.policy, rel := releases m.order,
               scope := m.scope, since := (← get).nextId } la
    flagNow w
  else do
    gate w
    release w m.order m.scope
    let (x, pa, home) ← storeAccess others w va la n none
    let need ← needOf w lv la
    storeLabel w va la x pa n need
    let done ← if releases m.order && !x.pod then scopeCheck w va pa la m.scope else pure true
    let k ← addAcc w (if x.pod then .pod 0 else .store)
    let left ← sendStore w k x pa n data need home m.policy (if releases m.order && !done then some m.scope else none)
    setPodLeft k left

/-- ST (R448 to R450). -/
def execSt (m : MemOp Width) (s : State) : Host.Outcome State Fault Refusal := lift (each (stBody s.others m)) s

/-! ### ATOM, ATOMX, RED -/

/-- The uncorrectable error that an ATOM or ATOMX consumes at an address; a RED consumes none (R260). -/
def Package.atomBad (p : Package) (h : HeldAtomic) (pa : Nat) : Option Nat := if h.kind.isRed then none else p.badAt pa h.kind.bytes

/-- Performs an atomic that passed its checks; the result carries the owners of the granule as it stood (R118). Answers its access. -/
def doAtomic (w : Who) (h : HeldAtomic) (pa : Nat) (pte : Option Nat) (old : Lbl) (grow : Option Lbl) (done : Bool) : PM Nat := do
  let p ← get
  let n := h.kind.bytes
  let om ← maskOf old
  let lbl ← if h.kind.isRed then pure 0 else mkLabel (om ||| h.low)
  let wct := p.nextWct (lineOf pa)
  let prev := ofBytes (p.bytesUnder p.arrived pa n)
  let k ← addAccFlag w h.flag (if h.kind.isRed then .store else
    .result { dst := h.dst, regs := (n + 3) / 4, val := prev, lbl, fp := none, ready := wct, acq := acquires h.order
              span := some (pa, n) })
  modify (fun p => (p.atHome w h k pa pte grow done).1)
  pure k

/-- An ATOM or ATOMX that consumes bad data is not performed: it takes the deferred error (R260), which comes before the check of a label that
does not exist (R111). The trap has TRAPPC at the instruction that runs: for the closing atomic of a region that is its RGNC (DESIGN CHOICE, log 119:
R260 says the consuming instruction, and the ATOM that the region held has long issued). -/
def badAtomic (w : Who) (h : HeldAtomic) (pa aux : Nat) : PM Nat :=
  addAccFlag w h.flag (.load { va := h.va, pa, n := h.kind.bytes, policy := .l2, acq := acquires h.order, scope := none, dst := h.dst
                               regs := 0, signed := false, mask := h.low, ovl := [], mode := 0, step := none
                               peer := none, stage := .bad aux })

def atomBody (others : List Package) (h0 : Nat → Nat → HeldAtomic) (m : Fld) (a : Fld) (off lit : Option Word) (nd nx : Nat) (w : Who) : PM Unit := do
  checkFields w [if (h0 0 0).kind.isRed then src m nd else dst m nd, src a 2]
  let (v, lv) ← readField w nd m lit
  let (va, la) ← effAddr w a off
  noHeld w va la
  let i ← theIssue
  let g ← env w
  let d ← resolve w m
  let th ← thr w
  let h := { h0 (v % 2 ^ (32 * nx)) (v / 2 ^ (32 * nx)) with
             va := va, need := lv ||| la ||| g, low := la ||| g, dst := d, flag := i.flag }
  if th.buffering then
    setThr w (fun th => { th with region := th.region.map (fun r => { r with held := some h }) })
  else do
    gate w
    release w h.order h.scope
    let (x, pa, home) ← atomicAccess others w h la
    if x.pod then do
      let need ← mkLabel h.need
      msgCheck w va la x need
      let k ← addAcc w (.pod 0)
      let left ← sendPod w k x pa h.kind.bytes h.arg need home
      setPodLeft k left
    else do
      let p ← get
      await (p.atomReady w p.nextId pa h.kind.bytes) .memory
      match p.atomBad h pa with
      | some aux => do
        let _ ← badAtomic w h pa aux
        pure ()
      | none => do
        let (old, grow) ← growCheck w h la x.grow pa
        let done ← if h.records then scopeCheck w va pa la h.scope else pure true
        let _ ← doAtomic w h pa (some x.pte) old grow done
        pure ()

/-- The operands of an atomic before its registers are read. -/
def heldOf (kind : AtomKind) (order : MemOrder) (scope : Scope) (policy : Policy) (x y : Nat) : HeldAtomic :=
  { kind, va := 0, arg := x, arg2 := y, need := 0, low := 0, dst := .discard, order, scope, policy, flag := none }

/-- ATOM (R342 to R344). -/
def execAtom (m : MemOp AtomOp) (s : State) : Host.Outcome State Fault Refusal :=
  lift (each (atomBody s.others (heldOf (.atom m.x) m.order m.scope m.policy) m.d m.a m.off m.lit m.x.regs (m.x.bytes / 4))) s

/-- ATOMX (R345). -/
def execAtomx (m : MemOp AtomxOp) (s : State) : Host.Outcome State Fault Refusal :=
  lift (each (atomBody s.others (heldOf (.atomx m.x) m.order m.scope m.policy) m.d m.a m.off m.lit (if m.x == .cas then 8 else 4) 4)) s

/-- RED (R430 to R432). -/
def execRed (m : MemOp RedAt) (s : State) : Host.Outcome State Fault Refusal :=
  lift (each (atomBody s.others (heldOf (.red m.x) m.order m.scope m.policy) m.d m.a m.off m.lit (m.x.bytes / 4) (m.x.bytes / 4))) s

/-! ### FENCE, TLFENCE, DISC -/

/-- FENCE (R385): holds the thread until R237's conditions are met. -/
def execFence (sc : Scope) (s : State) : Host.Outcome State Fault Refusal :=
  lift (each (fun w => do
    noRegion w
    gate w
    fenceAt w sc)) s

/-- TLFENCE (R250, R454): a fence at .pkg, then the world's entries leave every layout cache. -/
def execTlfence (s : State) : Host.Outcome State Fault Refusal :=
  lift (each (fun w => do
    noRegion w
    gate w
    fenceAt w .pkg
    let tm ← teamOf w
    modify (fun p => { p with layouts := p.layouts.filter (fun l => l.world != tm.world) }))) s

/-- The pages of DISC, each translated before any is discarded (R373). -/
def discPages (w : Who) (va : Nat) (vm : Mask) : Nat → Nat → PM (List (Xlat × Nat))
  | _, 0 => pure []
  | k, n + 1 => do
    let a := (va + 65536 * k) % 2 ^ 64
    let x ← translate w a vm .disc
    let rest ← discPages w va vm (k + 1) n
    pure ((x, a) :: rest)

/-- Steps 6 to 8 of R373 for the pages, each step over all pages before the next. -/
def discReach (w : Who) (vm : Mask) : List (Xlat × Nat) → PM (List (Xlat × Nat × Option Nat))
  | [] => pure []
  | (x, a) :: ps => do
    let home ← reach w a vm x
    let rest ← discReach w vm ps
    pure ((x, a, home) :: rest)

def discOwner (others : List Package) (w : Who) (vm : Mask) : List (Xlat × Nat × Option Nat) → PM Unit
  | [] => pure ()
  | (x, a, home) :: ps => do
    let p ← get
    let tm ← teamOf w
    if p.ownsAt others home tm.world (x.pa a) then discOwner others w vm ps else trap .owner a 0 0 vm

/-- TRAPVA of a DISC that fails at a page is that page's address, here and in the two steps before (DEDUCED: the table of R251 says only "effective
address", which for a later page is no address that the instruction names). -/
def discKind (w : Who) (vm : Mask) : List (Xlat × Nat) → PM Unit
  | [] => pure ()
  | (x, a) :: ps => if x.mode != 0 then trap .podRule a 0 3 vm else discKind w vm ps

/-- One DISC write per page, on its way to the page's home (R227). -/
def discSend (w : Who) (acc : Nat) : List (Xlat × Nat) → PM Unit
  | [] => pure ()
  | (x, a) :: ps => do
    addWrite w acc (x.pa a) [] .disc .l2 none none (some (x.pa a, x.pte))
    discSend w acc ps

/-- DISC (R227, R372, R373). -/
def execDisc (m : PadOp) (s : State) : Host.Outcome State Fault Refusal :=
  let others := s.others
  lift (each (fun w => do
    checkFields w [src m.d 1, src m.a 2]
    let (n, ln) ← readField w 1 m.d m.lit
    let (va, la) ← effAddr w m.a m.off
    noRegion w va la
    let last := (va + 65536 * (min n 65536 - 1)) % 2 ^ 64
    if !canonical va then prot 0x30 va la
    else if !canonical last then prot 0x30 last la
    else if va % 65536 != 0 || n == 0 || 65536 < n then trap .align va 0 0 la
    else do
      gate w
      let ps ← discPages w va la 0 n
      let homes ← discReach w la ps
      discOwner others w la homes
      discKind w la ps
      let need ← needOf w ln la
      let nm ← maskOf need
      if nm != 0 then trap .lblStore va need 0 la
      else do
        let k ← addAccFlag w none .store
        discSend w k ps)) s

/-! ### Regions -/

/-- RGN (R220, R435): opens a region at the next clause header. -/
def execRgn (s : State) : Host.Outcome State Fault Refusal :=
  lift (each (fun w => do
    let i ← theIssue
    let th ← thr w
    if !i.last then illop
    else if th.trap.isSome then prot 0x72
    else if th.region.isSome then prot 0x51
    else setThr w (fun th => { th with region := some { pc := i.nextHdr, rsb := [], held := none, release := none } }))) s

end Sys2Proof.Machine
end

