-- ==== Sys2Proof/Machine/Pad.lean ====
section
/-! DEFINITION. Cluster SRAM (R196 to R206): scratchpad addresses, banks, FIFO banks and arrival words; LDS, STS, FPUSH, FPOP,
BANK, ARM and AWAIT (R341, R346, R347, R386, R387, R403, R451). -/

namespace Sys2Proof.Machine

/-! ### Banks -/

def Package.bank? (p : Package) (cluster phys : Nat) : Option Bank :=
  p.banks.find? (fun b => b.cluster == cluster && b.phys == phys)

/-- The mode of a physical bank: CACHE where none is listed (R196); one that has left CACHE mode stays listed, with the labels of its granules. -/
def Package.bankMode (p : Package) (cluster phys : Nat) : BankMode := ((p.bank? cluster phys).map (·.mode)).getD .cache

def Package.setBank (p : Package) (b : Bank) : Package :=
  if (p.bank? b.cluster b.phys).isSome then
    { p with banks := mapIf (fun x => x.cluster == b.cluster && x.phys == b.phys) (fun _ => b) p.banks }
  else { p with banks := p.banks ++ [b] }

def Bank.byte (b : Bank) (off : Nat) : Byte := (spFind b.cells off).getD (Config.freeByte (b.free + off))

def Bank.bytes (b : Bank) (off n : Nat) : List Byte := (List.range n).map (fun k => b.byte (off + k))

def Bank.put (b : Bank) (off : Nat) : List Byte → Bank
  | [] => b
  | v :: vs => { b with cells := spPut b.cells off v }.put (off + 1) vs

def Bank.label (b : Bank) (g : Nat) : Lbl := spGet 0 b.labels g

/-- The physical bank that a world holds under a logical number in a cluster (R196). -/
def World.bank? (x : World) (cluster logical : Nat) : Option Nat :=
  (x.banks.find? (fun b => b.1 == cluster && b.2.1 == logical)).map (·.2.2)

/-- A scratchpad address as a bank and an offset, with R198's faults: PROT 0x32, then 0x31 where the bank is not in the mode
that the access needs. -/
def padAt (w : Who) (ea : Nat) (vm : Mask) (mode : BankMode) : PM (Bank × Nat) := do
  let tm ← teamOf w
  let wd ← worldOf w
  let p ← get
  match (if ea / 2 ^ 23 = 0 then wd.bank? tm.cluster (bitsOf 22 18 ea) else none) with
  | none => prot 0x32 ea vm
  | some phys =>
    match p.bank? tm.cluster phys with
    | some b => if b.mode == mode then pure (b, bitsOf 17 0 ea) else prot 0x31 ea vm
    | none => prot 0x31 ea vm

/-- The same, and ALIGN to the width (R198, R403, R451). -/
def padAligned (w : Who) (ea : Nat) (vm : Mask) (n : Nat) : PM (Bank × Nat) := do
  let (b, off) ← padAt w ea vm .pad
  if ea % n != 0 then trap .align ea 0 n vm else pure (b, off)

/-- LBL_STORE on scratchpad granules (R115, R198). -/
def padLabel (w : Who) (ea : Nat) (vm : Mask) (b : Bank) (off n : Nat) (need : Lbl) (atEntry : Bool := false) : PM Unit := do
  let _ ← thr w
  let p ← get
  let m ← maskOf need
  match (granules off n).find? (fun g => !dominates (p.maskOf (b.label g)) m) with
  | some g => trap .lblStore (if atEntry then ea else ea / 32 * 32 + 32 * (g - off / 32)) need (b.label g).toNat vm
  | none => pure ()

/-! ### LDS, STS -/

/-- The youngest buffered STS that holds a scratchpad byte (R221). -/
def youngestPad (rsb : List RsbEntry) (a : Nat) : Option RsbEntry :=
  rsb.reverse.find? (fun e => e.pad && e.addr ≤ a && a < e.addr + e.width)

/-- Sign extension of an n-byte value to 32 bits (R400). -/
def extend (signed : Bool) (n v : Nat) : Nat := if signed then wrapInt 32 (intBits (8 * n) v) else v

/-- LDS (R400, R403): performed at its bank when it executes. -/
def execLds (wd : Width) (m : PadOp) (s : State) : Host.Outcome State Fault Refusal :=
  lift (each (fun w => do
    checkFields w [dst m.d wd.regs, src m.a 2]
    let n := wd.bytes
    let (ea, la) ← effAddr w m.a m.off
    noHeld w ea la
    gate w
    let (b, off) ← padAligned w ea la n
    let th ← thr w
    let p ← get
    let from_ := (List.range n).map (fun k => youngestPad th.buffer (ea + k))
    let bytes := ((List.range n).zip from_).map (fun x => match x.2 with | some e => e.byte (ea + x.1) | none => b.byte (off + x.1))
    let own := ((List.range n).zip from_).foldl (fun o x => o ||| p.maskOf (match x.2 with
      | some e => e.need
      | none => b.label ((off + x.1) / 32))) 0
    let lbl ← resultLabel w (la ||| own)
    lateResult w m.d wd.regs (extend wd.signed n (ofBytes bytes)) lbl)) s

/-- STS (R448, R451): performed at its bank, or buffered in an open region (R221). -/
def execSts (wd : Width) (m : PadOp) (s : State) : Host.Outcome State Fault Refusal :=
  lift (each (fun w => do
    checkFields w [src m.d wd.regs, src m.a 2]
    let n := wd.bytes
    let (v, lv) ← readField w wd.regs m.d m.lit
    let (ea, la) ← effAddr w m.a m.off
    let data := v % 2 ^ (8 * n)
    let th ← thr w
    noHeld w ea la
    if th.buffering then do
      let need ← needOf w lv la
      buffer w { addr := ea, data, width := n, need, amask := la, pad := true, policy := .cc, rel := false, scope := .pkg,
                 since := (← get).nextId } la
    else do
      gate w
      let (b, off) ← padAligned w ea la n
      let need ← needOf w lv la
      padLabel w ea la b off n need
      modify (fun p => p.setBank (b.put off (toBytes n data))))) s

/-! ### FIFO banks -/

/-- The address of a FIFO access with its faults (R387). -/
def fifoAt (w : Who) (ea : Nat) (vm : Mask) : PM Bank := do
  noRegion w ea vm
  let (b, off) ← padAt w ea vm .fifo
  if off != 0 then prot 0x36 ea vm else pure b

/-- FPUSH (R199, R200): waits until the FIFO has room, and appends one entry. -/
def execFpush (wd : Width) (m : PadOp) (s : State) : Host.Outcome State Fault Refusal :=
  lift (each (fun w => do
    checkFields w [src m.d wd.regs, src m.a 2]
    let (v, lv) ← readField w wd.regs m.d m.lit
    let (ea, la) ← effAddr w m.a m.off
    let b ← fifoAt w ea la
    await (decide (b.fifo.length < Config.fifoSize)) (.fifo b.cluster b.phys)
    let lbl ← resultLabel w lv
    modify (fun p => p.setBank { b with fifo := b.fifo ++ [{ bytes := wd.bytes, val := v, lbl }], pushed := if b.pushed.contains lbl then b.pushed else b.pushed ++ [lbl] }))) s

/-- FPOP (R199, R200): the pop joins the bank's wait order. -/
def execFpop (wd : Width) (m : PadOp) (s : State) : Host.Outcome State Fault Refusal :=
  lift (each (fun w => do
    checkFields w [dst m.d wd.regs, src m.a 2]
    let (ea, la) ← effAddr w m.a m.off
    let b ← fifoAt w ea la
    let g ← env w
    let d ← resolve w m.d
    let _ ← addAcc w (.pop b.phys d wd.bytes g)
    pure ())) s

/-! ### BANK -/

/-- A region descriptor of a job card: in use, scratchpad, offset in granules, length in granules (R244, R245). Regions 0 to
3 are read regions, 4 and 5 write regions. -/
structure RegionDesc where
  v   : Bool
  sp  : Bool
  off : Nat
  len : Nat
  deriving DecidableEq, Repr

def cardRegion (card k : Nat) : RegionDesc :=
  let d := bitsOf (191 + 64 * k) (128 + 64 * k) card
  { v := d.testBit 63, sp := d.testBit 62, off := bitsOf 61 24 d, len := bitsOf 23 0 d }

/-- The logical number of a physical cluster in a world (R7). -/
def World.logicalCluster (x : World) (phys : Nat) : Nat := ((x.clusters.find? (fun c => c.2 == phys)).map (·.1)).getD 0

/-- The clusters in which a CPYM writes: those of the cores that its mask names (R7, R367). -/
def Package.maskClusters (p : Package) (world cluster mask : Nat) : List Nat :=
  match p.world? world with
  | none => []
  | some x =>
    let die := x.logicalCluster cluster / 10
    (List.range 10).filterMap (fun j =>
      if (mask / 2 ^ (4 * j)) % 16 = 0 then none
      else (x.clusters.find? (fun c => c.1 == 10 * die + j)).map (·.2))

/-- Whether a job's footprint covers a byte of a logical bank of a cluster (R201). The write region of a CPYM lies in the clusters of the cores
that its mask names (R367). -/
def Package.covers (p : Package) (j : Job) (cluster logical : Nat) : Bool :=
  (List.range 6).any (fun k =>
    let r := cardRegion j.card k
    let there := match j.kind with
      | .cpym m => if k = 4 then (p.maskClusters j.world j.cluster m).contains cluster else j.cluster == cluster
      | _ => j.cluster == cluster
    there && r.v && r.sp && 32 * r.off < Config.bankBytes * (logical + 1) && Config.bankBytes * logical < 32 * (r.off + r.len))

/-- Whether the condition of R201 for leaving a mode holds. -/
def Package.bankFree (p : Package) (world cluster logical phys : Nat) (mode : BankMode) : Bool :=
  let jobs := !p.jobs.any (fun j => j.world == world && p.covers j cluster logical)
  match mode with
  | .cache => !p.writes.any (fun x => x.cluster == cluster && x.cc && x.wct.isNone)
  | .pad => jobs
  | .fifo => jobs && ((p.bank? cluster phys).map (·.fifo.isEmpty)).getD true
      && !p.accs.any (fun a => a.cluster == cluster && !a.killed && (match a.op with | .pop b _ _ _ => b == phys | _ => false))

/-- The labels of a bank that leaves CACHE mode: the manual does not say which lines the bank held, so each granule keeps the label that its bits had
when the bank entered CACHE mode, or takes one of the live labels, of a line that lay there (R202). -/
def Package.pickLabels (p : Package) (b : Bank) : Nat → List (Nat × Lbl) × Package
  | 0 => (b.labels, p)
  | n + 1 =>
    if p.picks.isEmpty then (b.labels, p)
    else
      let (k, p) := p.pick (p.labels.length + 1)
      let (ls, p) := p.pickLabels b n
      (if k = 0 then ls else spSet 0 ls n (BitVec.ofNat 16 (((p.labels[k - 1]?).map (·.1)).getD 0)), p)

/-- The labels of a bank that leaves FIFO mode: those that its granules kept, or, where pushed entries overwrote their bits, those of the entries. The
manual does not say where the FIFO kept an entry, so each granule takes the label of an entry or keeps its own (R202). -/
def Package.fifoLabels (p : Package) (b : Bank) : Nat → List (Nat × Lbl) × Package
  | 0 => (b.labels, p)
  | n + 1 =>
    if p.picks.isEmpty || b.pushed.isEmpty then (b.labels, p)
    else
      let (k, p) := p.pick (b.pushed.length + 1)
      let (ls, p) := p.fifoLabels b n
      (if k = 0 then ls else spSet 0 ls n (b.pushed.getD (k - 1) 0), p)

/-- The cluster cache gives up every copy, unread deliveries and copies of other packages' lines among them (R201, R296). -/
def Package.dropCopies (p : Package) (cluster : Nat) : Package :=
  let p := { p with pods := p.pods.filter (fun c => c.cluster != some cluster) }
  (p.lines.map (·.addr)).foldl (fun p a => p.dropCopy a cluster) p

/-- The bank switched to a mode: its bytes become undefined, and each granule keeps the label that stood with its bits (R202). The cluster
cache gives up its copies when a bank leaves it (R201; DESIGN CHOICE: all of them, since the manual does not map lines to
banks). -/
def Package.switchBank (p : Package) (cluster phys : Nat) (mode : BankMode) : Package :=
  let b := (p.bank? cluster phys).getD { cluster, phys, mode := .cache, cells := [], free := 0, labels := [], fifo := [], pushed := [] }
  let (labels, p) := match b.mode with
    | .fifo => p.fifoLabels b Config.bankGranules
    | .cache => p.pickLabels b Config.bankGranules
    | .pad => (b.labels, p)
  let p := if b.mode == .cache then p.dropCopies cluster else p
  { p.setBank { b with mode, cells := [], free := p.draws, labels, fifo := [], pushed := [] } with draws := p.draws + Config.bankBytes }

/-- BANK (R201, R202, R347). -/
def execBank (try_ : Option (BitVec 5)) (b : BitVec 5) (mode : BankMode) (s : State) : Host.Outcome State Fault Refusal :=
  lift (each (fun w => do
    if !w.isPilot then prot 0x34
    else do
      let tm ← teamOf w
      let wd ← worldOf w
      let p ← get
      match wd.bank? tm.cluster b.toNat with
      | none => prot 0x32
      | some phys =>
        let old := p.bankMode tm.cluster phys
        let same := old == mode
        let ok := same || p.bankFree tm.world tm.cluster b.toNat phys old
        let lbl ← resultLabel w 0
        match try_, ok with
        | none, false => waitFor (.bank tm.cluster phys)
        | some q, false => if old == .cache then waitFor (.bank tm.cluster phys) else writePred w q false lbl
        | t, true => do
          modify (fun p => if same then p else p.switchBank tm.cluster phys mode)
          match t with
          | some q => writePred w q true lbl
          | none => pure ())) s

/-! ### Arrival words -/

/-- The fields of an arrival word (R203). -/
def awTarget (x : Nat) : Nat := bitsOf 31 0 x
def awCount (x : Nat) : Nat := bitsOf 63 32 x
def awGen (x : Nat) : Nat := bitsOf 95 64 x

/-- ARM (R204, R341). -/
def execArm (m : PadOp) (s : State) : Host.Outcome State Fault Refusal :=
  lift (each (fun w => do
    checkFields w [src m.d 1, src m.a 2]
    let (t, lt) ← readField w 1 m.d m.lit
    let (ea, la) ← effAddr w m.a m.off
    let (b, off) ← padAligned w ea la 16
    if t = 0 then prot 0x33 ea la
    else do
      let need ← resultLabel w lt
      let nm ← maskOf need
      if nm != 0 then trap .lblStore (ea / 32 * 32) need (b.label (off / 32)).toNat la
      else do
        let x := ofBytes (b.bytes off 16)
        let x := setBits 127 98 0 (setBits 97 96 1 (setBits 63 32 0 (setBits 31 0 t x)))
        modify (fun p => p.setBank (b.put off (toBytes 16 x))))) s

/-- AWAIT in one thread: holds it until the generation is past v (R206). -/
def awaitBody (m : PadOp) (w : Who) : PM Unit := do
  checkFields w [src m.d 1, src m.a 2]
  let (v, _) ← readField w 1 m.d m.lit
  let (ea, la) ← effAddr w m.a m.off
  let (b, off) ← padAligned w ea la 16
  let gen := awGen (ofBytes (b.bytes off 16))
  await (decide (0 < intBits 32 (gen + 2 ^ 32 - v))) .await

/-- AWAIT (R206, R346). -/
def execAwait (m : PadOp) (s : State) : Host.Outcome State Fault Refusal := lift (each (awaitBody m)) s

end Sys2Proof.Machine
end

