-- ==== Sys2Proof/Machine/Region.lean ====
section
/-! DEFINITION. RGNC (R117, R223, R242, R243, R436): the checks of every buffered entry and of the closing atomic, and their
release. -/

namespace Sys2Proof.Machine

/-- Translation and checks of one entry as the store it stands for (R436). -/
def entryTarget (others : List Package) (w : Who) (e : RsbEntry) : PM Target := do
  let m := e.amask
  if e.pad then do
    let (b, off) ← padAligned w e.addr m e.width
    pure (.pad b.cluster b.phys off)
  else do
    let (x, pa, home) ← storeAccess others w e.addr m e.width none
    pure (.mem x pa home)

def entryTargets (others : List Package) (w : Who) : List RsbEntry → PM (List (RsbEntry × Target))
  | [] => pure []
  | e :: es => do
    let t ← entryTarget others w e
    let rest ← entryTargets others w es
    pure ((e, t) :: rest)

/-- The label checks of the entries in buffer order (R117, R130). -/
def entryLabels (w : Who) : List (RsbEntry × Target) → PM Unit
  | [] => pure ()
  | (e, t) :: es => do
    let m := e.amask
    let p ← get
    match t with
    | .pad c phys off =>
      match p.bank? c phys with
      | some b => padLabel w e.addr m b off e.width e.need true
      | none => pure ()
    | .mem x pa _ => storeLabel w e.addr m x pa e.width e.need true
    entryLabels w es

/-- An entry with the scope that it still records when it is released: none when the world's scope traps made the check record it now (R241,
R242). -/
def checked (w : Who) (e : RsbEntry) : Target → PM Checked
  | .mem x pa home => do
    let done ← if e.rel && !x.pod then scopeCheck w e.addr pa e.amask e.scope else pure true
    pure { entry := e, target := .mem x pa home, scope := if done then none else some e.scope }
  | t => pure { entry := e, target := t, scope := none }

def checkedAll (w : Who) : List (RsbEntry × Target) → PM (List Checked)
  | [] => pure []
  | (e, t) :: es => do
    let c ← checked w e t
    let rest ← checkedAll w es
    pure (c :: rest)

/-- An entry is performed at its bank, or sent to its home as the store or the pod write that it stands for. -/
def releaseEntry (w : Who) (acc : Nat) (c : Checked) : PM Unit :=
  match c.target with
  | .pad cluster phys off => modify (fun p =>
      match p.bank? cluster phys with
      | some b => p.setBank (b.put off (toBytes c.entry.width c.entry.data))
      | none => p)
  | .mem x pa home => do
    let n ← sendStore w acc x pa c.entry.width c.entry.data c.entry.need home c.entry.policy c.scope
    moreRecords acc n

/-- Releases entries in buffer order; one marked .rel first meets R237 for what precedes it in program order, the entries before it included (R242).
Answers the entries that are still to be released. -/
def releaseEntries (w : Who) (acc : Nat) : List Checked → PM (List Checked)
  | [] => pure []
  | c :: cs => do
    let p ← get
    if c.entry.rel && !p.settled w c.entry.scope c.entry.since acc then pure (c :: cs)
    else do
      releaseEntry w acc c
      releaseEntries w acc cs

/-- The checks of the closing atomic after its access (R118, R130, R241). The labels that it will write are made live here, so that nothing traps once
entries are released (R223). -/
def closingCheck (w : Who) (h : HeldAtomic) (x : Xlat) (pa : Nat) : PM Unit := do
  if x.pod then do
    let need ← mkLabel h.need
    msgCheck w h.va h.low x need
  else do
    let p ← get
    if (p.atomBad h pa).isSome then pure ()
    else do
      let (old, _) ← growCheck w h h.low x.grow pa
      let om ← maskOf old
      let _ ← if h.kind.isRed then pure 0 else mkLabel (om ||| h.low)
      let _ ← if h.records then scopeCheck w h.va pa h.low h.scope else pure true
      pure ()

/-- The label to which a closing atomic grows its granule as it stands now; its check has passed at RGNC (R118). -/
def closingGrowth (h : HeldAtomic) (pa : Nat) : PM (Lbl × Option Lbl) := do
  let p ← get
  let old := p.homeLabel (granuleOf pa)
  let om ← maskOf old
  let grows := match h.kind with | .atomx _ => false | _ => true
  if !grows || dominates om h.need then pure (old, none)
  else do
    let l ← mkLabel (om ||| h.need)
    pure (old, some l)

/-- The closing atomic, after the entries have been sent: its release conditions at its own scope (R237, R243), and then the atomic step of its home, or
the merge records of a RED on a pod page. Answers whether it has been performed. -/
def performClosing (w : Who) (acc : Nat) (h : HeldAtomic) (x : Xlat) (pa : Nat) (home : Option Nat) : PM Bool := do
  let p ← get
  if releases h.order && !p.settled w h.scope p.nextId acc then pure false
  else if x.pod then do
    let need ← mkLabel h.need
    let n ← sendPod w acc x pa h.kind.bytes h.arg need home
    moreRecords acc n
    modify (fun p => p.flagDone w h.flag)
    pure true
  else if !p.atomReady w p.nextId pa h.kind.bytes then pure false
  else do
    let wd ← worldOf w
    let k ← match p.atomBad h pa with
      | some aux => badAtomic w h pa aux
      | none => do
        let (old, l) ← closingGrowth h pa
        doAtomic w h pa (some x.pte) old l (wd.scopeTraps && h.scope != .pkg)
    modify (fun p => p.setAcc acc (fun a => { a with op := a.op.closedBy k }))
    pure true

/-- The release of a region goes on: its entries, and then its closing atomic. Answers whether something is still to be done. -/
def runRelease (w : Who) (r : Region) (x : Release) : PM Bool := do
  let todo ← releaseEntries w x.acc x.todo
  let done ← if !todo.isEmpty then pure false
    else match x.closing, r.held with
      | some (x', pa, home), some h => performClosing w x.acc h x' pa home
      | _, _ => pure true
  setThr w (fun th => { th with region := if done then none else some { r with rsb := [], release := some { x with todo } } })
  pure (!done)

/-- RGNC before its region is released (R223, R436). Where an RGNC of another thread has a closing atomic under way on the granule of this one's, it
waits with nothing released. Answers whether the thread still waits. -/
def rgncSend (others : List Package) (w : Who) (r : Region) : PM Bool := do
  gate w
  let ts ← entryTargets others w r.rsb
  entryLabels w ts
  let closing ← match r.held with
    | some h => do
      let c ← atomicAccess others w h h.low
      pure (some (h, c))
    | none => pure none
  let p ← get
  if closing.any (fun c => !c.2.1.pod && p.reserved w (granuleOf c.2.2.1)) then pure true
  else do
    match closing with
    | some (h, x, pa, _) => closingCheck w h x pa
    | none => pure ()
    let es ← checkedAll w ts
    if es.isEmpty && closing.isNone then do
      setThr w (fun th => { th with region := none })
      flagNow w
      pure false
    else do
      let tm ← teamOf w
      let k ← addAcc w (.rgnc 0 none)
      runRelease w r { acc := k, todo := es, closing := closing.map (·.2), core := tm.coreOf w.lid, epoch := (p.coreOr (tm.coreOf w.lid)).epoch }

/-- RGNC in one thread (R436): answers whether the thread still waits for its region to be released. -/
def rgncBody (others : List Package) (w : Who) : PM Bool := do
  let i ← theIssue
  let th ← thr w
  if i.hasRun w.lid then pure false
  else if th.trap.isSome then prot 0x72
  else match th.region with
    | none => prot 0x52
    | some r =>
      match r.release with
      | some x => runRelease w r x
      | none => rgncSend others w r

/-- RGNC (R436): the gang holds it while a thread of it waits for the release of its region. -/
def execRgnc (s : State) : Host.Outcome State Fault Refusal := lift (eachThen (rgncBody s.others) (holdRest .memory)) s

end Sys2Proof.Machine
end

