-- ==== Sys2Proof/Machine/Sreg.lean ====
section
/-! DEFINITION. Special registers: MFSR and MTSR (R34, R103, R407, R408, R414, R415), and TIME (R453). -/

namespace Sys2Proof.Machine

/-- The package's logical number in the world (R7, R103). -/
def Package.logical (p : Package) (x : World) : Nat :=
  match x.tide with
  | some t => t.me
  | none => ((x.peers.find? (fun q => q.phys == p.phys)).map (·.logical)).getD 0

/-- TEAMDIM and GRID (R408). -/
def teamDim (r : Nat) : Nat :=
  recTx r + recTy r * 2 ^ 16 + recTz r * 2 ^ 32 + (recCores r - 1) * 2 ^ 48

def gridDim (r : Nat) : Nat := recGx r + recGy r * 2 ^ 32 + recGz r * 2 ^ 48

/-- The value and the owners of a special register (R103, R408). -/
def sregVal (w : Who) (n : Nat) : PM (Nat × Mask) := do
  let i ← theIssue
  let th ← thr w
  let tm ← teamOf w
  let wd ← worldOf w
  let p ← get
  let tr := th.trapRegs
  match n with
  | 0x00 => pure (w.lid, 0)
  | 0x01 => pure (laneOf w.lid, 0)
  | 0x02 => pure (i.id, 0)
  | 0x03 => pure (tm.index, 0)
  | 0x04 => pure (teamDim tm.record, 0)
  | 0x05 => pure (gridDim tm.record, 0)
  | 0x06 => pure (recDepth tm.record, 0)
  | 0x07 => pure (tm.world, 0)
  | 0x08 => pure (tm.space + (((p.space? tm.space).map (·.gen)).getD 0) * 2 ^ 16, 0)
  | 0x09 => pure (p.logical wd, 0)
  | 0x0A => pure (4 * wd.logicalCluster tm.cluster + tm.coreOf w.lid % 4, 0)
  | 0x0B => pure (i.time, 0)
  | 0x0C => pure (((wd.tide.map (·.step)).getD 0), 0)
  | 0x0D => pure (tm.ceiling.toNat, 0)
  | 0x0E => do
    let l ← mkLabel (th.ctxMask p)
    pure (l.toNat, 0)
  | 0x0F => pure (th.fpctl.toNat, p.maskOf th.flagsLbl)
  | 0x10 => pure (th.seed.toNat, p.maskOf th.seedLbl)
  | 0x11 => pure (((th.region.map (·.pc)).getD 0), 0)
  | 0x20 => pure (tr.cause.toNat, 0)
  | 0x21 => pure (tr.pc, 0)
  | 0x22 => pure (tr.va, tr.vmask)
  | 0x23 => pure (tr.lbl.toNat, 0)
  | 0x24 => pure (tr.aux.toNat, 0)
  | 0x25 => pure (wd.trapVec, 0)
  | 0x26 => pure (((th.region.map (·.rsb.length)).getD 0), 0)
  | 0x27 => pure (wd.pilotVec, 0)
  | _ => illop

/-- MFSR (R407, R408): an even destination takes both halves, an odd one the low half. -/
def execMfsr (d : Fld) (n : BitVec 7) (s : State) : Host.Outcome State Fault Refusal :=
  lift (each (fun w => do
    let k := if d.toNat % 2 = 0 then 2 else 1
    checkFields w [dst d k]
    let (v, m) ← sregVal w n.toNat
    let lbl ← resultLabel w m
    out w d k v lbl)) s

/-- The registers that MTSR writes (R103). -/
def writable (n : Nat) : Bool := n == 0x0F || n == 0x10 || (0x20 ≤ n && n ≤ 0x24)

/-- The state that a seed gives (R154). -/
def seedOf (v : Word) : Word := if v = 0 then 0x6D2B79F5#32 else v

/-- LBL_BRANCH when Ctx(t) does not dominate the label of a target address (R127, R137). -/
def targetLabel (w : Who) (target : Nat) (m : Mask) : PM Unit := do
  let th ← thr w
  let p ← get
  let c := th.ctxMask p
  if dominates c m then pure ()
  else do
    let tl ← mkLabel m
    let cl ← mkLabel c
    trap .lblBranch target tl cl.toNat m

/-- MTSR (R415). -/
def execMtsr (a : Fld) (n : BitVec 7) (lit : Option Word) (s : State) : Host.Outcome State Fault Refusal :=
  lift (each (fun w => do
    let k := n.toNat
    checkFields w [src a (if srWide k then 2 else 1)]
    let th ← thr w
    if !writable k then prot k
    else if 0x20 ≤ k && th.trap.isNone then prot k
    else do
      let (v, m) ← readField w (if srWide k then 2 else 1) a lit
      let x : Word := BitVec.ofNat 32 v
      if k == 0x0F && 5 ≤ v % 8 then prot 0x0F
      else if k == 0x0F then do
        let lbl ← resultLabel w m
        setThr w (fun th => { th with fpctl := x &&& 0x1FFF#32, flagsLbl := lbl })
      else if k == 0x10 then do
        let lbl ← resultLabel w m
        setThr w (fun th => { th with seed := seedOf x, seedLbl := lbl })
      else if k == 0x21 then do
        targetLabel w v m
        setThr w (fun th => { th with trapRegs := { th.trapRegs with pc := v } })
      else setThr w (fun th => { th with trapRegs :=
        match k with
        | 0x20 => { th.trapRegs with cause := x }
        | 0x22 => { th.trapRegs with va := v }
        | 0x23 => { th.trapRegs with lbl := BitVec.ofNat 16 v }
        | _ => { th.trapRegs with aux := x } }))) s

/-- TIME and TIME.wait (R453). -/
def execTime (d : Fld) (wait : Bool) (s : State) : Host.Outcome State Fault Refusal :=
  lift (each (fun w => do
    checkFields w [dst d 2]
    let i ← theIssue
    let p ← get
    if wait then do
      noRegion w
      fenceAt w .pkg
    else pure ()
    let lbl ← resultLabel w 0
    out w d 2 (if wait then p.time else i.time % 2 ^ 64) lbl)) s

end Sys2Proof.Machine
end

