-- ==== Sys2Proof/Machine/Control.lean ====
section
/-! DEFINITION. Control flow and threads: branches, CALL, JMPI, RET, REFORM, EXIT, YIELD, BAR, WINB, XACQ, XREL, DQPUSH, DQPOP,
TRAP, ERET, BKPT and SNAP (R28, R55 to R58, R76, R77, R92, R124, R125, R127, R256, R348 to R355, R374 to R376, R379, R380,
R392, R393, R433, R434, R447, R455, R460 to R463, R469). -/

namespace Sys2Proof.Machine

/-! ### Branches -/

/-- The target of a branch: its own clause header plus 4 times the signed word offset (R92). -/
def branchTo (hdr : Nat) (off : Int) : Nat := wrapInt 64 ((hdr : Int) + 4 * off)

def brWords : BrOff → Int
  | .short o => intBits 14 o.toNat
  | .long o => intBits 32 o.toNat

/-- BRA (R352). -/
def execBra (off : BitVec 21) (s : State) : Host.Outcome State Fault Refusal :=
  lift (fun p => match p.issue with
    | some i => p.endClause (fun _ => branchTo i.hdr (intBits 21 off.toNat))
    | none => p) s

/-- Pushes a context entry, or merges it into the top one with the same CAM entry (R124, R125). -/
def pushCtx (w : Who) (cam : Option Nat) (bl : Lbl) : PM Unit := do
  let th ← thr w
  let tm ← teamOf w
  let p ← get
  let e : CtxEntry :=
    { cam, lbl := bl
      target := match cam with
        | some k => BitVec.ofNat 32 (((tm.cam[k]?).map (·.target)).getD 0)
        | none => 0xFFFFFFFF }
  match th.ctx with
  | t :: rest =>
    if t.cam == cam then do
      let l ← mkLabel (p.maskOf t.lbl ||| p.maskOf bl)
      setThr w (fun th => { th with ctx := { t with lbl := l } :: rest })
    else if Config.ctxSize ≤ th.ctx.length then trap .ctxOverflow 0 bl 16
    else setThr w (fun th => { th with ctx := e :: t :: rest })
  | [] => setThr w (fun th => { th with ctx := [e] })

/-- What BRC and BDQ do in one thread: the check of the branch label, the context push, and whether the branch is taken. -/
def branchOn (w : Who) (sense : Bool) (off : BrOff) (v : Bool) (m : Mask) : PM Nat := do
  let i ← theIssue
  let tm ← teamOf w
  let th ← thr w
  let p ← get
  let target := branchTo i.hdr (brWords off)
  let bl ← mkLabel (m ||| p.maskOf th.guardLbl)
  let bm ← maskOf bl
  let c ← ceilingOf w
  if !dominates c bm then trap .lblBranch target bl tm.ceiling.toNat m
  else do
    pushCtx w (tm.camFor i.hdr) bl
    pure (if v != sense then target else i.nextHdr)

/-- The end of a BRC or BDQ: a divergent one that a CAM entry serves makes a divergence record, when one is free (R57), and the
clause ends. -/
def Package.endBranch (outs : List (Nat × Nat)) (p : Package) : Package :=
  match p.issue with
  | none => p
  | some i =>
    let next := fun l => match outs.find? (fun x => x.1 == l) with | some x => x.2 | none => i.nextHdr
    let diverges := outs.any (fun x => outs.any (fun y => x.2 != y.2))
    let cam := (p.team? i.team).bind (fun tm => tm.camFor i.hdr)
    let room := ((p.team? i.team).map (fun tm => decide (tm.divs.length < Config.divRecords))).getD false
    let p := match cam, diverges && room with
      | some k, true =>
        let (id, p) := p.fresh
        let r : DivRec := { id, cam := k, named := outs.map (fun (x : Nat × Nat) => x.1), parked := [], expires := none, left := none }
        p.setTeam i.team (fun tm => { tm with divs := tm.divs ++ [r] })
      | _, _ => p
    p.endClause next

/-- BRC (R353). -/
def execBrc (sense : Bool) (q : BitVec 5) (off : BrOff) (s : State) : Host.Outcome State Fault Refusal :=
  lift (eachThen (fun w => do
    let (v, m) ← readPred w q
    branchOn w sense off v m) Package.endBranch) s

/-- BDQ (R349); in the pilot it traps DQ_MISUSE. -/
def execBdq (sense : Bool) (off : BrOff) (s : State) : Host.Outcome State Fault Refusal :=
  lift (eachThen (fun w => do
    if w.isPilot then trap .dqMisuse 0 0 2
    else do
      let es ← popDQ w 1
      let p ← get
      branchOn w sense off (valueOf es != 0) (p.joinOf (labelsOf es))) Package.endBranch) s

/-- CALL (R355). -/
def execCall (d : Fld) (off : BrOff) (s : State) : Host.Outcome State Fault Refusal :=
  lift (eachThen (fun w => do
    checkFields w [dst d 2]
    let i ← theIssue
    let lbl ← resultLabel w 0
    out w d 2 i.nextHdr lbl
    pure (branchTo i.hdr (brWords off)))
    (fun outs p => match p.issue with
      | some i => p.endClause (fun _ => ((outs.head?).map (·.2)).getD i.nextHdr)
      | none => p)) s

/-- The end of JMPI and RET: threads that take different targets are filed at their own (R393). -/
def Package.endJump (outs : List (Nat × Nat)) (p : Package) : Package :=
  match p.issue with
  | none => p
  | some i => p.endClause (fun l => match outs.find? (fun x => x.1 == l) with | some x => x.2 | none => i.nextHdr)

/-- The target pair of JMPI or RET (R127, R392). -/
def jumpTarget (a : Fld) (w : Who) : PM Nat := do
  checkFields w [src a 2]
  let (v, m) ← readField w 2 a none
  targetLabel w v m
  pure v

/-- JMPI (R392, R393). -/
def execJmpi (a : Fld) (s : State) : Host.Outcome State Fault Refusal := lift (eachThen (jumpTarget a) Package.endJump) s

/-- RET (R434). -/
def execRet (a : Fld) (s : State) : Host.Outcome State Fault Refusal :=
  lift (eachThen (fun w => jumpTarget a w) (fun outs p => p.endJump outs)) s

/-- REFORM (R433): the gang dissolves, and each thread is filed at the next header with its key. -/
def execReform (b : BOp) (lit : Option Word) (s : State) : Host.Outcome State Fault Refusal :=
  lift (eachThen (fun w => do
    let i ← theIssue
    if !i.last then illop
    else do
      checkFields w (srcB b 1)
      let (k, _) ← readB w 1 b lit lImm
      pure (BitVec.ofNat 16 k))
    (fun outs p => match p.issue with
      | some i => p.endClauseWith true (fun _ => i.nextHdr)
          (fun l => match outs.find? (fun x => x.1 == l) with | some x => x.2 | none => 0)
      | none => p)) s

/-! ### EXIT, YIELD, BAR -/

/-- Whether a long-latency result of the thread is still to be written (R86, R380). -/
def Package.owesResult (p : Package) (w : Who) : Bool :=
  p.accs.any (fun a => a.of w && (match a.op with
    | .load _ => true
    | .result _ => true
    | .pop _ _ _ _ => true
    | _ => false))

/-- Whether a round that the thread signed is still to read or to write its registers (R174, R380). -/
def Package.owesRound (p : Package) (w : Who) : Bool :=
  (p.team? w.team).any (fun tm => tm.signs.any (fun s => s.sigs.any (fun g => g.lid == w.lid)))
  || p.rounds.any (fun r => r.team == w.team && r.sigs.any (fun g => g.lid == w.lid && (!r.read || !g.dst.isEmpty)))

/-- EXIT (R380). -/
def execExit (s : State) : Host.Outcome State Fault Refusal :=
  lift (eachThen (fun w => do
    let p ← get
    await (!p.owesRound w) .exit
    await (!p.owesResult w) .other)
    (fun outs p => match p.issue with
      | some i =>
        let p := outs.foldl (fun p x => p.endThread ⟨i.team, x.1⟩) p
        p.endClause (fun _ => i.nextHdr)
      | none => p)) s

/-- YIELD (R469): takes effect when the clause ends. -/
def execYield (s : State) : Host.Outcome State Fault Refusal :=
  lift (each (fun w => setThr w (fun th => { th with yielding := true }))) s

/-- The scope at which a BAR fences: .die acts as .pkg (R239). -/
def barFence : BarScope → Scope
  | .team => .team
  | _ => .pkg

/-- BAR (R239, R348): fences, counts the thread as arrived, and releases all when the last has come. -/
def execBar (lanes : Bool) (sc : BarScope) (s : State) : Host.Outcome State Fault Refusal :=
  lift (eachThen (fun w => do
    let i ← theIssue
    if !i.last then illop
    else do
      noRegion w
      fenceAt w (barFence sc)
      setTeam w (fun tm => { tm with bars := tm.bars ++ [{ lid := w.lid, lanes }] }))
    (fun _ p => match p.issue with
      | some i => p.setTeam i.team Team.openBar
      | none => p)) s

/-! ### The decision queue -/

/-- DQPUSH (R49, R50, R374 to R376). -/
def execDqpush (b : BOp) (rel : Bool) (lit : Option Word) (s : State) : Host.Outcome State Fault Refusal :=
  lift (each (fun w => do
    if !w.isPilot then trap .dqMisuse 0 0 1
    else do
      checkFields w (srcB b 1)
      let (v, m) ← readB w 1 b lit lImm
      if rel then fenceAt w .pkg else pure ()
      let tm ← teamOf w
      await (decide (tm.dq.entries.length < Config.dqSize)) .dqFull
      let lbl ← resultLabel w m
      let e : LReg := { val := BitVec.ofNat 32 v, lbl }
      setTeam w (fun tm => Team.freeDQ { tm with dq := { tm.dq with entries := tm.dq.entries ++ [e] } }))) s

/-- DQPOP (R375). -/
def execDqpop (d : Fld) (s : State) : Host.Outcome State Fault Refusal :=
  lift (each (fun w => do
    checkFields w [dst d 1]
    if w.isPilot then trap .dqMisuse 0 0 2
    else do
      let es ← popDQ w 1
      let p ← get
      let lbl ← resultLabel w (p.joinOf (labelsOf es))
      out w d 1 (valueOf es) lbl)) s

/-! ### Window and extended set -/

/-- WINB (R76, R460). -/
def execWinb (k : BitVec 4) (s : State) : Host.Outcome State Fault Refusal :=
  lift (each (fun w => do
    if w.isPilot then prot 0x26
    else do
      let tm ← teamOf w
      let b := 16 * k.toNat
      if tm.nregs + tm.nx ≤ b then trap .window 0 0 b
      else if tm.nregs ≤ b && !tm.holdsExt w.lid then trap .xset 0 0 b
      else setThr w (fun th => { th with wnext := some b }))) s

/-- XACQ (R77, R461, R462). Two buddies never execute it in one cycle: both lie in one partition, whose pipe M one clause takes in a cycle (R44,
R70, R100). -/
def execXacq (s : State) : Host.Outcome State Fault Refusal :=
  lift (each (fun w => do
    if w.isPilot then prot 0x26
    else do
      let tm ← teamOf w
      if tm.nx = 0 then trap .xset 0 0 tm.nregs
      else match tm.extBlock? w.lid with
        | none => pure ()
        | some e =>
          if e.holder == some w.lid then pure ()
          else if e.holder.isSome then waitFor .xset
          else setTeam w (fun tm => { tm with
            ext := mapIf (fun x => x.base == tm.extBase w.lid) (fun x => { x with holder := some w.lid }) tm.ext }))) s

/-- Whether a long-latency write to the thread's extended set is outstanding (R463). -/
def Package.extOwed (p : Package) (w : Who) (n : Nat) : Bool :=
  p.accs.any (fun a => a.of w && (match a.op with
    | .load o => (match o.dst with | .main i => n < i + o.regs | _ => false)
    | .result o => (match o.dst with | .main i => n < i + o.regs | _ => false)
    | .pop _ d b _ => (match d with | .main i => n < i + b / 4 | _ => false)
    | .tide d _ => (match d with | .main i => n < i + 2 | _ => false)
    | _ => false))

/-- Whether the lathe locks a register of the thread's extended set (R176, R463). -/
def Package.extLocked (p : Package) (w : Who) (n : Nat) : Bool :=
  (p.team? w.team).any (fun tm => tm.signs.any (fun s => s.sigs.any (fun g => g.lid == w.lid && g.locks.any (fun d => match d with | .main i => decide (n ≤ i) | _ => false))))
  || p.rounds.any (fun r => r.team == w.team && r.sigs.any (fun g => g.lid == w.lid && g.locks.any (fun d => match d with | .main i => decide (n ≤ i) | _ => false)))

/-- XREL (R463): a buddy that waits has the set from then on, and its XACQ returns in the next cycle. -/
def execXrel (s : State) : Host.Outcome State Fault Refusal :=
  lift (each (fun w => do
    if w.isPilot then prot 0x26
    else do
      let tm ← teamOf w
      let th ← thr w
      let p ← get
      if tm.nx = 0 then trap .xset 0 0 tm.nregs
      else if tm.nregs ≤ th.wbase then trap .xset 0 0 th.wbase
      else if !tm.holdsExt w.lid then pure ()
      else do
        await (!p.extLocked w tm.nregs) .lock
        await (!p.extOwed w tm.nregs) .other
        modify (fun p => p.releaseExt w))) s

/-! ### TRAP, ERET, BKPT, SNAP -/

/-- TRAP (R455). -/
def execTrap (code : BitVec 7) (s : State) : Host.Outcome State Fault Refusal :=
  lift (each (fun w => do
    let lbl ← resultLabel w 0
    trap .soft 0 lbl code.toNat)) s

/-- A thread back at the clause that trapped: inside it, its guard, WINB and YIELD stand as they did; past it, their effects have begun
(DEDUCED from R76, R257 and R469). -/
def Thread.backTo (th : Thread) (now : Nat) (inside : Bool) (t : TrapSave) : Thread :=
  if inside then { th with guardLbl := t.guard, wnext := t.wnext, yielding := t.yielding }
  else { th with wbase := t.wnext.getD th.wbase, yieldTo := if t.yielding then now + Config.yieldCycles else th.yieldTo }

/-- The end of an ERET: each thread that left trap mode is filed at its point, the others go on (R256). -/
def Package.endEret (outs : List (Nat × (Point × TrapSave))) (p : Package) : Package :=
  match p.issue with
  | none => p
  | some i =>
    let hint := i.hdrWord.getLsbD 0
    let p := outs.foldl (fun p x =>
      p.setThread ⟨i.team, x.1⟩ (fun th => (th.leaveClause i.hdr p.now hint x.2.1.hdr).backTo p.now x.2.1.mid.isSome x.2.2)) p
    let p := outs.foldl (fun p x => p.dropActive ⟨i.team, x.1⟩) p
    let p := p.fileAll i.team (outs.map (fun x => (x.1, x.2.1, 0)))
    p.endClause (fun _ => i.nextHdr)

/-- ERET in a thread: the last instruction of its clause, else ILLOP (R256). -/
def eretBody (form : EretForm) (w : Who) : PM (Point × TrapSave) := do
  let i ← theIssue
  if !i.last then illop else leaveTrap w form

def execEretResume (s : State) : Host.Outcome State Fault Refusal :=
  lift (eachThen (eretBody .resume) Package.endEret) s

def execEretRestart (s : State) : Host.Outcome State Fault Refusal :=
  lift (eachThen (eretBody .restart) Package.endEret) s

def execEretSkip (s : State) : Host.Outcome State Fault Refusal :=
  lift (eachThen (eretBody .skip) Package.endEret) s

/-- Whether device debug of a world is allowed (R332). -/
def Package.debugs (p : Package) (x : World) : Bool := p.sys.devFuse && x.debug

/-- The thread stops at a point until device debug resumes it. -/
def Package.haltAt (p : Package) (w : Who) (pt : Point) : Package :=
  let p := match p.thread? w, p.issue with
    | some _, some i => p.setThread w (fun th => th.giveBack i)
    | _, _ => p
  ((p.dropActive w).leaveGang w).setThread w (fun th => { th with status := .halted, point := pt })

/-- A team that BKPT halts issues no clause until device debug lets it go on. -/
def Package.haltTeam (p : Package) (team : Nat) : Package :=
  p.setTeam team (fun tm => { tm with residence := if tm.residence == .resident then .halted else tm.residence })

/-- BKPT (R351): a claimed team under device debug halts, and otherwise the thread traps. -/
def execBkpt (code : BitVec 7) (s : State) : Host.Outcome State Fault Refusal :=
  lift (eachThen (fun w => do
    let tm ← teamOf w
    let wd ← worldOf w
    let p ← get
    if p.debugs wd && tm.debugStop then pure () else trap .bkpt 0 0 code.toNat)
    (fun outs p => match p.issue with
      | some i => if outs.isEmpty then p else (outs.foldl (fun p x => p.haltAt ⟨i.team, x.1⟩ i.skip) p).haltTeam i.team
      | none => p)) s

/-- SNAP (R331, R447): an armed trigger of source INSTR latches 32 cycles later, and the thread's next clause waits for it. -/
def execSnap (s : State) : Host.Outcome State Fault Refusal :=
  lift (each (fun w => do
    let wd ← worldOf w
    let p ← get
    if wd.id != 0 && !p.debugs wd then prot 0xB0
    else if p.sys.snapctl.getLsbD 1 && p.sys.snapctl.getLsbD 0 && p.snapCounts wd.id then do
      let i ← theIssue
      let t := i.time + 32
      modify (fun p => { p with sys := { p.sys with snapAt := adjoin t p.sys.snapAt } })
      setThr w (fun th => { th with after := t + 1 })
    else pure ())) s

end Sys2Proof.Machine
end

