-- ==== Sys2Proof/Machine/Launch.lean ====
section
/-! DEFINITION. Continuation records, quay queues and their journals, LAUNCH, CONT and KILL, and the start and the retirement of
teams: the events QUAY_QUEUE_ROOM, DISPATCH_DECISION, TEAM_RETIRE and LAUNCH_COMMAND (R13, R32 to R48, R316, R328, R329, R362,
R363, R395 to R398, R479, R484). -/

namespace Sys2Proof.Machine

/-! ### Journals (R328, R329) -/

def JEntry.terminal (e : JEntry) : Bool := e.state == 2 || e.state == 3 || e.state == 4

/-- The highest SEQ of a queue's journal. -/
def Package.lastSeq (p : Package) (queue : Nat) : Nat :=
  p.journal.foldl (fun m e => if e.queue == queue then max m e.seq else m) 0

/-- Entries of a queue's journal: the capacity of the quay queue, or that of a system command queue (DESIGN CHOICE: 1,024). -/
def Package.journalCap (p : Package) (queue : Nat) : Nat :=
  ((p.quays.find? (fun q => q.phys == queue)).map (·.cap)).getD 1024

/-- A command is accepted only when the entry that it would overwrite is terminal (R328). -/
def Package.journalRoom (p : Package) (queue : Nat) : Bool :=
  !p.journal.any (fun e => e.queue == queue && e.seq + p.journalCap queue == p.lastSeq queue + 1 && !e.terminal)

/-- An interrupt for each of some commands that have come to their end and asked for notice (R323). -/
def Package.notify (p : Package) (es : List JEntry) : Package :=
  { p with sys := { p.sys with ints := p.sys.ints ++ (es.filter (fun e => e.notice && e.terminal)).map (fun e =>
      (IntClass.journal, e.world, p.intTarget e.world 5)) } }

/-- A new entry of a journal, which overwrites the one that is a capacity older. Answers its SEQ. -/
def Package.journalAdd (p : Package) (queue ref detail kind world state : Nat) (notice : Bool) : Nat × Package :=
  let seq := p.lastSeq queue + 1
  let cap := p.journalCap queue
  let e : JEntry := { queue, seq, tacc := p.time, tend := p.time, ref, detail, kind, world, state, notice }
  (seq, ({ p with journal := p.journal.filter (fun (y : JEntry) => !(y.queue == queue && y.seq + cap == seq)) ++ [e] }).notify [e])

/-- The entry of a command that system software or the host submits: where its record or descriptor lies, and whether it asks for notice, the event does not
say, and they are free values. -/
def Package.commandAdd (p : Package) (queue detail kind world state : Nat) : Nat × Package :=
  ({ p with draws := p.draws + 1 }).journalAdd queue (Config.commandRef p.draws) detail kind world state (Config.asksNotice p.draws)

/-- State changes of the entries that a predicate names; a terminal state stands for ever (R329). -/
def Package.journalMove (p : Package) (hit : JEntry → Bool) (state detail : Nat) : Package :=
  let open_ := fun (e : JEntry) => hit e && !e.terminal
  let change := fun (e : JEntry) => { e with state := state, detail := if state = 3 then detail else e.detail, tend := p.time }
  ({ p with journal := mapIf open_ change p.journal }).notify ((p.journal.filter open_).map change)

/-- A state change of one entry. -/
def Package.journalSet (p : Package) (queue seq state detail : Nat) : Package :=
  p.journalMove (fun e => e.queue == queue && e.seq == seq) state detail

/-- The 64 bytes of an entry (R328). -/
def JEntry.bits (e : JEntry) : Nat :=
  e.seq * 2 ^ 448 + e.tacc * 2 ^ 384 + e.tend * 2 ^ 320 + (e.ref % 2 ^ 64) * 2 ^ 256 + e.detail * 2 ^ 32 + e.kind * 2 ^ 16 + e.world * 2 ^ 8 + e.state

/-- A queue's journal as a world reads it: it is readable by the queue's world and by world 0 (R328). -/
def Package.journalRead (p : Package) (reader queue : Nat) : Option (List Nat) :=
  if reader == 0 || (64 ≤ queue && reader == queue - 64) || (p.world? reader).any (fun x => x.queues.contains queue) then
    some ((sortBy (·.seq) (p.journal.filter (fun e => e.queue == queue))).map JEntry.bits)
  else none

/-! ### Records (R35 to R38) -/

/-- The failing checks of R36 in its order: the DETAIL of R484 and the lowest bit of the failing field. `creator` is the world
of the submitter, or the world that a command names; `ceiling` must dominate CEILING. -/
def Package.recordFaults (p : Package) (r : Nat) (creator : Nat) (ceiling : Mask) (descOk : Bool) : List (Nat × Nat) :=
  let when_ := fun (c : Bool) (x : Nat × Nat) => if c then [x] else []
  when_ (8192 < recThreads r || 2048 * recCores r < recThreads r || recTx r == 0) (1, 352)
  ++ when_ (recTy r == 0) (1, 366) ++ when_ (recTz r == 0) (1, 380)
  ++ when_ (2 ^ 32 - 1 < recTeams r || recGx r == 0) (2, 288)
  ++ when_ (recGy r == 0) (2, 320) ++ when_ (recGz r == 0) (2, 336)
  ++ when_ (10 < recDepth r) (3, 396)
  ++ when_ (recWorld r != creator) (4, 400)
  ++ when_ (!(p.live (recCeiling r) && dominates ceiling (p.maskOf (BitVec.ofNat 16 (recCeiling r))))) (5, 408)
  ++ when_ (!descOk) (6, 0)
  ++ when_ (bitsOf 407 406 r != 0) (7, 406) ++ when_ (bitsOf 431 427 r != 0) (7, 427)

/-- The kernel descriptor's header (R37). -/
def descRegs (d : Nat) : Nat := 16 * bitsOf 67 64 d
def descXregs (d : Nat) : Nat := 64 * bitsOf 69 68 d
def descNrej (d : Nat) : Nat := bitsOf 88 80 d
def descPilot (d : Nat) : Nat := bitsOf 31 0 d
def descLane (d : Nat) : Nat := bitsOf 63 32 d
def descValid (d : Nat) : Bool :=
  1 ≤ bitsOf 67 64 d && bitsOf 67 64 d ≤ 8 && bitsOf 69 68 d ≤ 2 && descNrej d ≤ 256

/-- The record with the fields that its creator writes (R398). -/
def childRecord (r depth parent : Nat) : Nat :=
  let r := setBits 399 396 depth r
  let r := setBits 191 128 parent r
  let r := setBits 287 256 0 r
  let r := setBits 255 224 (recTeams r) r
  setBits 223 192 1 r

/-! ### Quay queues (R39) -/

def Package.setGrid (p : Package) (g : Nat) (f : Grid → Grid) : Package :=
  { p with grids := mapIf (fun x => x.id == g) f p.grids }

def Package.quay? (p : Package) (q : Nat) : Option Quay := p.quays.find? (fun x => x.phys == q)

def Package.setQuay (p : Package) (q : Nat) (f : Quay → Quay) : Package :=
  { p with quays := mapIf (fun x => x.phys == q) f p.quays }

/-- Whether a record can be accepted into a queue: the queue is set up, not full, and its journal has room (R39, R328). -/
def Package.quayRoom (p : Package) (q : Nat) : Bool :=
  match p.quay? q with
  | some x => decide (x.items.length < x.cap) && p.journalRoom q
  | none => false

/-- The address of a grid's record in its queue's ring, while no later record has taken its place there (R39). The spec does not say where
LEFT stands after that: it is then kept in the grid alone (DESIGN CHOICE). -/
def Package.gridPa (p : Package) (g : Grid) : Option Nat :=
  match p.quay? g.queue with
  | some x => if x.tail ≤ g.slot + x.cap then some (x.base + 64 * (g.slot % x.cap)) else none
  | none => none

/-- A grid's NEXT and LEFT changed, in the grid and in its record in memory (R41, R48). -/
def Package.setProgress (p : Package) (grid next left : Nat) : Package :=
  match p.grids.find? (fun g => g.id == grid) with
  | none => p
  | some g =>
    let p := p.setGrid grid (fun x => { x with next, left })
    match p.gridPa g with
    | some pa => (p.poke (pa + 32) 4 next).poke (pa + 28) 4 left
    | none => p

/-- A team of the grid has retired: its LEFT goes down (R47). -/
def Package.gridLess (p : Package) (g : Grid) : Package :=
  match p.grids.find? (fun x => x.id == g.id) with
  | some x => p.setProgress x.id x.next (x.left - 1)
  | none => p

/-- The physical queue of a logical number (R39). -/
def World.quay? (x : World) (k : Nat) : Option Nat := x.queues[k]?

/-- SEQ of a bound collective, taken when the record is accepted (R316). -/
def Package.takeSeq (p : Package) (handle world : Nat) : Option Nat × Package :=
  let id := handle / 16
  match p.groups.find? (fun g => g.id == id && g.state == 1 && g.world == world && g.gen == handle % 16) with
  | none => (none, p)
  | some g => (some g.seq, { p with groups := mapIf (fun x => x.id == id) (fun x => { x with seq := (x.seq + 1) % 2 ^ 24 }) p.groups })

/-- The address in a queue's ring at which the next record is written (R39). -/
def Quay.tailPa (x : Quay) : Nat := x.base + 64 * (x.tail % x.cap)

/-- A record that stands in a queue's ring: journaled accepted, and its grid made (R39). -/
def Package.acceptRecord (p : Package) (q r world ref : Nat) (notice : Bool) (parent : Option Nat) (tideBound : Bool) (ready : Nat) : Package :=
  match p.quay? q with
  | none => p
  | some x =>
    let (seq, p) := p.journalAdd q ref 0 1 world 0 notice
    let (id, p) := p.fresh
    let (cs, p) := if recCbound r then p.takeSeq (recChandle r) world else (none, p)
    let g : Grid := { id, record := r, world, queue := q, journal := seq, slot := x.tail, next := recNext r, left := recLeft r, parent
                      queued := true, tideBound, seq := cs, chunks := 0, ready }
    ({ p with grids := p.grids ++ [g] }).setQuay q (fun x => { x with items := x.items ++ [id], tail := x.tail + 1 })

/-- A record that a thread's LAUNCH or CONT pushes: the queue's hardware writes it into the ring (R39). -/
def Package.pushRecord (p : Package) (q r world ref : Nat) (parent : Option Nat) (tideBound : Bool) : Package :=
  match p.quay? q with
  | none => p
  | some x => (p.poke x.tailPa 64 r).acceptRecord q r world ref false parent tideBound p.now

/-! ### LAUNCH, CONT -/

/-- The descriptor that a record names, read as a load of the thread (R36, R37). -/
def readDesc (others : List Package) (w : Who) (r : Nat) : PM Bool := do
  if recKdesc r % 64 != 0 then pure false
  else do
    let (d, _) ← loadNow others w (recKdesc r) 0 64
    pure (descValid d)

/-- The record pair, the queue and the record of LAUNCH and CONT with their checks up to the reading (R362, R398). -/
def readRecord (others : List Package) (w : Who) (a : Fld) (q : BitVec 4) (lit : Option Word) : PM (Nat × Mask × Nat × Nat × Mask) := do
  let (va, la) ← readField w 2 a lit
  fenceAt w .pkg
  let wd ← worldOf w
  if va % 64 != 0 then trap .align va 0 64 la
  else match wd.quay? q.toNat with
    | none => prot 0x200 va la
    | some k => do
      let (r, m) ← loadNow others w va la 64
      pure (va, la, k, r, m)

/-- R36 with its PROT, and the check that the record is public (R362, R398). -/
def checkRecord (others : List Package) (w : Who) (va : Nat) (la m : Mask) (r : Nat) : PM Unit := do
  let tm ← teamOf w
  let c ← ceilingOf w
  let ok ← readDesc others w r
  let p ← get
  match leastBy id ((p.recordFaults r tm.world c ok).map (·.2)) with
  | some bit => prot bit va la
  | none => do
    let need ← resultLabel w (la ||| m)
    let nm ← maskOf need
    if nm != 0 then trap .lblStore va need 0 la else pure ()

/-- A change of the team's JOIN, mirrored in its record in memory (R45, R48). -/
def Package.setJoin (p : Package) (team : Nat) (f : Nat → Nat) : Package :=
  match p.team? team with
  | none => p
  | some tm =>
    let p := p.setTeam team (fun tm => { tm with join := f tm.join })
    match tm.recordPa with
    | some pa => p.poke (pa + 24) 4 (f tm.join)
    | none => p

/-- LAUNCH (R45, R397, R398). -/
def execLaunch (a : Fld) (q : BitVec 4) (lit : Option Word) (s : State) : Host.Outcome State Fault Refusal :=
  lift (each (fun w => do
    checkFields w [src a 2]
    noRegion w
    if w.lid != 1 then prot 0
    else do
      let tm ← teamOf w
      let depth := recDepth tm.record
      if depth == 10 then trap .depth 0 0 10
      else do
        let (va, la, k, r, m) ← readRecord s.others w a q lit
        let r := childRecord r (depth + 1) tm.recordVa
        checkRecord s.others w va la m r
        let p ← get
        await (p.quayRoom k) (.quay k)
        modify (fun p =>
          (p.setJoin w.team (· + 1)).pushRecord k r tm.world va (some w.team) tm.tideBound))) s

/-- Whether a queue has a free place: LAUNCH and CONT stall while it is full (R39). -/
def Package.quayFull (p : Package) (q : Nat) : Bool := (p.quay? q).any (fun x => decide (x.cap ≤ x.items.length))

/-- CONT (R39, R362): the later arrival replaces the earlier, and in one cycle the thread of higher id stands. -/
def execCont (a : Fld) (q : BitVec 4) (lit : Option Word) (s : State) : Host.Outcome State Fault Refusal :=
  lift (eachById (fun w => do
    checkFields w [src a 2]
    noRegion w
    let (va, la, k, r, m) ← readRecord s.others w a q lit
    checkRecord s.others w va la m r
    let p ← get
    await (!p.quayFull k) (.quay k)
    setTeam w (fun tm => if tm.cont.isSome && tm.contAt.1 == p.now && decide (w.lid < tm.contAt.2) then tm
      else { tm with cont := some (r, k, va), contAt := (p.now, w.lid) }))) s

/-! ### KILL -/

/-- KILL.team (R395, R396). -/
def execKillTeam (s : State) : Host.Outcome State Fault Refusal :=
  lift (fun p => match p.issue with
    | none => p
    | some i => if i.active.isEmpty then p.endClause (fun _ => i.nextHdr) else p.killTeam i.team) s

/-- Kills every started team of a grid and removes its record from its queue; the teams not yet started count as retired in
LEFT (R396). -/
def Package.killGrid (p : Package) (grid detail : Nat) : Package :=
  match p.grids.find? (fun g => g.id == grid) with
  | none => p
  | some g =>
    let p := (p.teams.filter (fun tm => tm.grid == grid && !tm.ended)).foldl (fun p tm => p.killTeam tm.id) p
    let p := p.setQuay g.queue (fun x => { x with items := without grid x.items })
    let n := recTeams g.record
    let p := (p.setGrid grid (fun x => { x with queued := false })).setProgress grid n
      (((p.grids.find? (fun x => x.id == grid)).map (·.left)).getD 0 - (n - g.next))
    p.journalSet g.queue g.journal 3 detail

/-- KILL.grid (R395, R396). -/
def execKillGrid (s : State) : Host.Outcome State Fault Refusal :=
  lift (fun p => match p.issue with
    | none => p
    | some i =>
      if i.active.isEmpty then p.endClause (fun _ => i.nextHdr)
      else match p.team? i.team with
        | some tm => (p.killTeam i.team).killGrid tm.grid 1
        | none => p) s

/-! ### Waking stalled gangs -/

/-- Gangs held for a reason that has gone may try their instruction again at once. -/
def Package.wake (p : Package) (c : Stall → Bool) : Package :=
  let woken := p.gangs.filter (fun g => c g.stall)
  { p with gangs := mapIf (fun g => c g.stall) (fun g => { g with stall := .none }) p.gangs
           issued := p.issued.filter (fun x => !woken.any (fun g => g.is x.1 x.2.1 x.2.2)) }

/-- Gangs held for a reason that has gone may try their instruction again in the next cycle. -/
def Package.unstall (p : Package) (c : Stall → Bool) : Package :=
  { p with gangs := mapIf (fun g => c g.stall) (fun g => { g with stall := .none }) p.gangs }

/-- QUAY_QUEUE_ROOM: a record has left a queue, and the threads that it stalled go on (R39). -/
def execQuayQueueRoom (q : Nat) (s : State) : Host.Outcome State Fault Refusal :=
  lift (fun p => if p.quayRoom q then p.unstall (fun st => st == .quay q) else p) s

/-! ### Dispatch (R40 to R43) -/

/-- Register rows that resident teams hold in a partition of a core (R43). -/
def Team.rowsAt (tm : Team) (core part : Nat) : Nat :=
  ((List.range ((recThreads tm.record + 31) / 32)).filter (fun q => tm.rowCore q == core && tm.rowPart q == part)).length

def Team.occupies (tm : Team) : Bool := !tm.ended && tm.residence != .saved

def Package.rowsHeld (p : Package) (core part : Nat) : Nat :=
  (p.teams.filter Team.occupies).foldl (fun n tm => n + tm.rowsAt core part) 0

def Package.regsHeld (p : Package) (core part : Nat) : Nat :=
  (p.teams.filter Team.occupies).foldl (fun n tm => n + tm.rowsAt core part * 32 * (tm.nregs + tm.nx / 2)) 0

/-- Free thread slots of a core, of 16 register rows of 32 threads in each of its four partitions (R43). A row that a team holds counts with
all its 32 slots, those of lanes without a thread included (DESIGN CHOICE: R40 does not say whether such a slot is free). -/
def Package.freeSlots (p : Package) (core : Nat) : Nat :=
  (List.range 4).foldl (fun n k => n + 32 * (16 - p.rowsHeld core k)) 0

/-- Rows of a team of `rows` rows that the k-th of its c cores takes in a partition. -/
def shareRows (rows c k part : Nat) : Nat :=
  ((List.range rows).filter (fun q => q % c == k && (q / c) % 4 == part)).length

/-- Whether a core has room for the share of the k-th of c cores of a team of `rows` rows (R40, R43). -/
def Package.coreFits (p : Package) (core rows c k regs : Nat) : Bool :=
  (List.range 4).all (fun part =>
    let n := shareRows rows c k part
    decide (p.rowsHeld core part + n ≤ 16) && decide (p.regsHeld core part + n * 32 * regs ≤ Config.partRegs))

/-- Whether each of some cores, in their order, has room for its share of a team. -/
def Package.coresHold (p : Package) (cores : List Nat) (rows regs : Nat) : Bool :=
  (List.range cores.length).all (fun k => p.coreFits (cores.getD k 0) rows cores.length k regs)

/-- The choices of n entries of a list, those with earlier entries first. -/
def choices {α : Type} : Nat → List α → List (List α)
  | 0, _ => [[]]
  | _, [] => []
  | n + 1, x :: xs => (choices n xs).map (x :: ·) ++ choices (n + 1) xs

/-- The cores of a cluster that a team takes, in order of number: the c with the most free thread slots among those that each have room for
their share (R40, R43). -/
def Package.chooseCores (p : Package) (cluster rows c regs : Nat) : Option (List Nat) :=
  let order := sortBy (fun core => 2048 - p.freeSlots core) ((List.range 4).map (fun k => 4 * cluster + k))
  ((choices c order).map (sortBy id)).find? (fun cores => p.coresHold cores rows regs)

/-- A head record that a cluster can run: its grid, the descriptor and the cores. -/
structure Runnable where
  grid    : Nat
  world   : Nat
  logical : Nat
  prio    : Nat
  desc    : Nat
  cores   : List Nat
  deriving DecidableEq, Repr

/-- Whether dispatch of a grid is deferred by the world's tide (R268). -/
def Grid.deferred (g : Grid) (x : World) : Bool := g.tideBound && x.tide.any (fun t => t.state != .running)

/-- The head record of a queue, where the cluster can run it (R40): not before its record stands in the ring. -/
def Package.headRunnable (p : Package) (x : World) (cluster logical q : Nat) : Option Runnable := do
  let quay ← p.quay? q
  let id ← quay.items.head?
  let g ← p.grids.find? (fun g => g.id == id)
  if g.world != x.id || g.deferred x || p.now < g.ready || x.resetting || (p.gridPa g).any (fun pa => p.writes.any (fun y => y.line == lineOf pa))
  then none
  else do
    let d ← p.peekVa x.space (recKdesc g.record) 64
    let rows := (recThreads g.record + 31) / 32
    let cores ← p.chooseCores cluster rows (recCores g.record) (descRegs d + descXregs d / 2)
    pure { grid := id, world := x.id, logical, prio := recPrio g.record, desc := d, cores }

/-- Every head record that a cluster can run, of the worlds that it admits. -/
def Package.runnables (p : Package) (cluster : Nat) : List Runnable :=
  (p.worlds.filter (fun x => x.clusters.any (fun c => c.2 == cluster))).flatMap (fun x =>
    (List.range x.queues.length).filterMap (fun k => p.headRunnable x cluster k (x.queues.getD k 0)))

def World.weight (x : World) (cluster : Nat) : Nat := ((x.weights.find? (fun e => e.1 == cluster)).map (·.2)).getD 1

def World.count (x : World) (cluster : Nat) : Nat := spGet 0 x.served cluster

/-- A world that has a record again after having had none gets the least count-to-weight ratio of the worlds that waited
(R40), times its own weight and rounded down (DESIGN CHOICE: the spec gives no rounding of a count that is no whole number). -/
def Package.raiseCounts (p : Package) (cluster : Nat) (rs : List Runnable) : Package :=
  let has := fun (x : World) => rs.any (fun r => r.world == x.id)
  let waited := p.worlds.filter (fun x => has x && x.waiting.contains cluster)
  let least := waited.foldl (fun (m : Option (Nat × Nat)) x =>
    let c := x.count cluster
    let g := x.weight cluster
    match m with
    | none => some (c, g)
    | some (c', g') => if c * g' < c' * g then some (c, g) else m) none
  { p with worlds := p.worlds.map (fun x =>
      let x := match least with
        | some (c, g) => if has x && !x.waiting.contains cluster
            then { x with served := spSet 0 x.served cluster (max (x.count cluster) (c * x.weight cluster / g)) } else x
        | none => x
      { x with waiting := if has x then adjoin cluster x.waiting else without cluster x.waiting }) }

/-- Whether one record goes before another: PRIO, then the world's count over its weight, then the world, then the logical
queue (R40). -/
def Package.before (p : Package) (cluster : Nat) (a b : Runnable) : Bool :=
  if a.prio != b.prio then b.prio < a.prio
  else if a.world != b.world then
    let ratio := fun (r : Runnable) => match p.world? r.world with
      | some x => (x.count cluster, x.weight cluster)
      | none => (0, 1)
    let (ca, ga) := ratio a
    let (cb, gb) := ratio b
    if ca * gb != cb * ga then ca * gb < cb * ga else a.world < b.world
  else a.logical < b.logical

def Package.bestRunnable (p : Package) (cluster : Nat) : List Runnable → Option Runnable
  | [] => none
  | r :: rs =>
    match p.bestRunnable cluster rs with
    | none => some r
    | some x => if p.before cluster x r then some x else some r

/-- A rejoin CAM entry (R38). -/
def camEntry (e : Nat) : CamEntry :=
  { vmask := bitsOf 255 144 e, pmask := bitsOf 143 120 e, timeout := bitsOf 119 104 e, branch := bitsOf 95 64 e
    target := bitsOf 63 32 e }

/-- The generator state at team start (R154). -/
def startSeed (gid : Nat) : Word :=
  let v : Word := BitVec.ofNat 32 ((gid % 2 ^ 32) * 0x9E3779B9) ^^^ 0x2545F491#32
  if v = 0 then 0x6D2B79F5#32 else v

/-- A thread at team start (R14, R42, R73, R146). -/
def Thread.start (lid nregs gid hdr : Nat) : Thread :=
  { lid, status := .filed, point := { hdr, mid := none }
    regs := if lid = 0 then [] else List.replicate nregs LReg.zero
    ops := if lid = 0 then [] else List.replicate 8 LReg.zero
    preds := List.replicate 24 LBit.zero, flags := List.replicate 12 0, ctx := [], wbase := 0, wnext := none, fpctl := 0
    flagsLbl := 0, seed := startSeed gid, seedLbl := 0, region := none, trapRegs := TrapRegs.zero, trap := none
    x0 := Latch.empty, x1 := Latch.empty, guardLbl := 0, dqIdx := 0, podSeq := 0, podStep := 0, wctAll := 0, wctFar := 0, frm := hdr
    yielding := false, yieldTo := 0, arrived := false, after := 0, errs := [], dying := false }

/-- The lowest team slot that nothing in flight still names. -/
def Package.freeSlot (p : Package) : Nat :=
  (firstFree (fun k => p.teams.any (fun t => t.id == k) || p.writes.any (fun x => x.team == k && x.kind != .engine)
      || p.accs.any (fun a => a.team == k) || p.jobs.any (fun j => j.team == k) || p.rounds.any (fun r => r.team == k))
    0 (p.teams.length + p.writes.length + p.accs.length + p.jobs.length + p.rounds.length + 1)).getD 0

/-- A team tag that no live team holds (R240); which one is open. -/
def Package.freeTag (p : Package) : Nat × Package :=
  let (k, p) := p.pick (2 ^ 20 - p.teams.length)
  ((firstFree (fun t => p.teams.any (fun tm => tm.tag == t)) k (p.teams.length + 1)).getD 0, p)

/-- A TEAM STARTS (R14, R42, R43, R182): its record is written, its rejoin CAM loaded and its threads filed. -/
def Package.startTeam (p : Package) (g : Grid) (r : Runnable) (cluster : Nat) : Package :=
  match p.world? g.world with
  | none => p
  | some x =>
    let slot := p.freeSlot
    let (tag, p) := p.freeTag
    let index := g.next
    let rec_ := setBits 287 256 index (setBits 255 224 g.left (setBits 223 192 1 g.record))
    let recordPa := if x.recordArea = 0 then none else some (x.recordArea + 64 * slot)
    let kd := recKdesc g.record
    let cam := (List.range (descNrej r.desc)).map (fun k =>
      camEntry ((p.peekVa x.space ((kd + 64 + 32 * k) % 2 ^ 64) 32).getD 0))
    let lanes := (List.range (recThreads g.record)).map (· + 1)
    let addr := fun off => (kd + 4 * off) % 2 ^ 64
    let gid := fun lid => index * 2 ^ 14 + lid
    let nregs := descRegs r.desc
    let c := r.cores.length
    let frame := recFrame g.record
    let sregs : List LReg := { val := BitVec.ofNat 32 frame, lbl := 0 } :: { val := BitVec.ofNat 32 (frame / 2 ^ 32), lbl := 0 }
      :: List.replicate 382 LReg.zero
    let ext := if descXregs r.desc = 0 then [] else
      ((lanes.filter (fun l => (rowOf l / (4 * c)) % 2 == 0)).map (fun l =>
        ({ base := l, regs := List.replicate (descXregs r.desc) LReg.zero, holder := none } : ExtBlock)))
    let tm : Team :=
      { id := slot, tag, world := g.world, space := x.space, grid := g.id, index, record := rec_
        recordVa := x.recordVa + 64 * slot, recordPa, kdesc := kd, nregs, nx := descXregs r.desc, lane := descLane r.desc
        cam, ceiling := BitVec.ofNat 16 (recCeiling g.record), lceils := [], cluster, cores := r.cores
        threads := Thread.start 0 0 (gid 0) (addr (descPilot r.desc))
          :: lanes.map (fun l => Thread.start l nregs (gid l) (addr (descLane r.desc)))
        sregs, ext, dq := { freed := 0, entries := [] }, divs := [], signs := List.replicate 16 SignReg.idle, tiles := []
        bars := [], cont := none, contAt := (0, 0), join := 1, ended := false, killed := false, tideBound := g.tideBound, residence := .resident
        saved := [], pops := [], sparse := [], frameBase := x.trapBlocks.map (fun b => b + 512 * 8193 * slot), frameVa := x.frameVa + 512 * 8193 * slot
        debugStop := false }
    let p := match recordPa with | some pa => p.poke pa 64 rec_ | none => p
    let p := { p with teams := p.teams ++ [tm] }
    let p := p.setWorld g.world (fun x =>
      { x with served := spSet 0 x.served cluster (x.count cluster + 1 + recThreads g.record) })
    p.fileAll slot ((0, { hdr := addr (descPilot r.desc), mid := none }, 0)
      :: lanes.map (fun l => (l, { hdr := addr (descLane r.desc), mid := none }, 0)))

/-- DISPATCH_DECISION (R40, R41): a cluster starts the next team of the record that goes first. -/
def execDispatchDecision (cluster : Nat) (s : State) : Host.Outcome State Fault Refusal :=
  lift (fun p =>
    let rs := p.runnables cluster
    let p := p.raiseCounts cluster rs
    match p.bestRunnable cluster rs with
    | none => p
    | some r =>
      match p.grids.find? (fun g => g.id == r.grid) with
      | none => p
      | some g =>
        let p := p.startTeam g r cluster
        let p := if g.next = 0 then p.journalSet g.queue g.journal 1 0 else p
        let last := g.next + 1 = recTeams g.record
        let p := (p.setGrid g.id (fun x => { x with queued := !last })).setProgress g.id (g.next + 1) g.left
        if last then p.setQuay g.queue (fun x => { x with items := without g.id x.items }) else p) s

/-! ### Retirement (R46, R47) -/

/-- A grid completes when LEFT is zero and its bound collective has completed: the journal entry is retired and the parent's
JOIN goes down (R41, R46, R316). -/
def Package.gridDone (p : Package) (grid : Nat) : Package :=
  match p.grids.find? (fun g => g.id == grid) with
  | none => p
  | some g =>
    if g.left != 0 || g.chunks != 0 then p
    else
      let p := { p with grids := p.grids.filter (fun x => x.id != grid) }
      let p := p.journalSet g.queue g.journal 2 0
      match g.parent with
      | some t => p.setJoin t (· - 1)
      | none => p

/-- Whether something that a team made is still in flight: writes, pod writes and jobs (R363). -/
def Package.teamInFlight (p : Package) (tm : Team) : Bool :=
  p.writes.any (fun x => x.team == tm.id) || p.accs.any (fun a => a.team == tm.id)
    || p.jobs.any (fun j => j.team == tm.id && j.kind != .chunk)

/-- The words of an accumulator tile, +0 where it was not written (R182). -/
def Team.tile (tm : Team) (core part idx : Nat) : Tile :=
  (tm.tiles.find? (fun t => t.core == core && t.part == part && t.idx == idx)).getD
    { core, part, idx, words := List.replicate 256 0, lbl := 0 }

/-- CRC-32C of bytes: the reflected polynomial 0x82F63B78, from all ones, inverted at the end. -/
def crcByte (c : Nat) (b : Byte) : Nat :=
  (List.range 8).foldl (fun c _ => if c % 2 = 1 then c / 2 ^^^ 0x82F63B78 else c / 2) (c ^^^ b.toNat)

def crc32c (bs : List Byte) : Word := BitVec.ofNat 32 (bs.foldl crcByte 0xFFFFFFFF) ^^^ 0xFFFFFFFF#32

/-- PARAM of a card (R244). -/
def cardParam (card : Nat) : Nat := bitsOf 127 96 card

/-- The operation hash of a collective (R315). -/
def collHash (card seq : Nat) : Word :=
  crc32c (toBytes 4 (cardParam card) ++ toBytes 4 (cardRegion card 0).len ++ toBytes 4 (cardRegion card 4).len ++ toBytes 4 seq)

/-- A job without anything to do, from which the accepted jobs are made. -/
def Job.blank : Job :=
  { id := 0, kind := .cpy, team := 0, lid := 0, world := 0, space := 0, cluster := 0, core := 0, flag := none, trapped := false, cardVa := 0
    card := 0, mask := 0, ceiling := 0, after := [], seg := 0, got := [], dest := 0, done := false
    posted := false, status := 0, arrivals := [], left := 0, step := 0, podSeq := 0, seqs := 0, epoch := 0, teamIdx := 0, depth := 0, layout := none, gid := 0
    gen := 0, seq := 0, hash := 0, sent := false, opened := false, index := 0, grid := none, data := [] }

/-- The chunk that a retiring team of a bound grid fires: a COLL job over the template card with its regions moved on by c·LEN,
whose contribution is the tile as it stands (R316). -/
def Package.fireChunk (p : Package) (g : Grid) (tm : Team) : Package :=
  if !recCbound g.record then p
  else
    let cardVa := recCcard g.record
    let card := (p.peekVa tm.space cardVa 64).getD 0
    let moved := (List.range 6).foldl (fun c k =>
      let r := cardRegion c k
      if r.v then setBits (189 + 64 * k) (152 + 64 * k) (r.off + tm.index * r.len) c else c) card
    let tile := tm.tile (tm.rowCore 0) (tm.rowPart 0) (recCtile g.record)
    let (id, p) := p.fresh
    let bad := g.seq.isNone
    let j : Job :=
      { Job.blank with
        id := id, kind := .chunk, team := tm.id, world := tm.world, space := tm.space, cluster := tm.cluster
        core := tm.rowCore 0, teamIdx := tm.index, depth := recDepth tm.record, cardVa := cardVa, card := moved
        mask := p.maskOf tile.lbl, ceiling := p.maskOf tm.ceiling, done := bad, status := if bad then 3 else 0
        gid := recChandle g.record / 16, gen := recChandle g.record % 16, seq := g.seq.getD 0
        hash := collHash card (g.seq.getD 0), index := tm.index, grid := some g.id, data := tile.words }
    { p with jobs := p.jobs ++ [j]
             grids := mapIf (fun x => x.id == g.id) (fun x => { x with chunks := x.chunks + 1 }) p.grids }

/-- The entries of a resident team that were saved at pre-emption go back into the queues of the partition that receives their row, as far as
those hold no other team's entries (R187). -/
def Package.restoreSparse (p : Package) (team : Nat) : Package :=
  match p.team? team with
  | none => p
  | some tm =>
    if tm.residence != .resident then p
    else
      let keys := (tm.sparse.map (fun e => (e.row, e.q))).eraseDups
      let open_ := keys.filter (fun k => !p.sparse.any (fun x => x.core == tm.rowCore k.1 && x.part == tm.rowPart k.1 && x.q == k.2))
      let back := open_.map (fun k =>
        ({ core := tm.rowCore k.1, part := tm.rowPart k.1, q := k.2, team
           entries := (tm.sparse.filter (fun e => e.row == k.1 && e.q == k.2)).map (fun e => (e.pos, e.lbl)) } : SparseQ))
      ({ p with sparse := p.sparse ++ back }).setTeam team (fun tm =>
        { tm with sparse := tm.sparse.filter (fun e => !open_.contains (e.row, e.q)) })

/-- Queues that have emptied take the entries of resumed teams that wait for them. -/
def Package.restoreAll (p : Package) : Package :=
  (p.teams.filter (fun tm => !tm.sparse.isEmpty)).foldl (fun p tm => p.restoreSparse tm.id) p

/-- A team leaves: its sparsity entries are discarded with it, as its tiles are (R182; DESIGN CHOICE: the spec does not say what becomes of entries
that a team leaves in a queue). A queue that it empties takes the saved entries of a resumed team that waits for it (R187). -/
def Package.dropTeam (p : Package) (team : Nat) : Package :=
  Package.restoreAll { p with
           teams := p.teams.filter (fun t => t.id != team), sparse := p.sparse.filter (fun x => x.team != team)
           rounds := p.rounds.filter (fun r => r.team != team)
           freed := ((p.teams.filter (fun t => t.id == team)).map (·.cluster)).foldl (fun l c => adjoin c l) p.freed }

/-- TEAM_RETIRE (R47, R363, R396): once JOIN is zero the continuation is pushed, the bound chunk fires and LEFT goes down. The
push waits for the team's writes and jobs and for room in its queue. A team whose grid a world reset has ended only leaves (R266). -/
def execTeamRetire (team : Nat) (s : State) : Host.Outcome State Fault Refusal :=
  lift (fun p => match p.team? team with
    | none => p
    | some tm =>
      if !tm.ended then p
      else match p.grids.find? (fun g => g.id == tm.grid) with
        | none => p.dropTeam team
        | some g =>
          if tm.join != 0 || ((tm.cont.isSome || g.parent.isSome) && p.teamInFlight tm) then p
          else
            let pushes := if tm.killed then none else tm.cont
            match pushes with
            | some (r, q, ref) =>
              if !p.quayRoom q then p
              else
                let p := p.pushRecord q r tm.world ref none g.tideBound
                let p := p.fireChunk g tm
                ((p.dropTeam team).gridLess g).gridDone g.id
            | none =>
              let p := p.fireChunk g tm
              ((p.dropTeam team).gridLess g).gridDone g.id) s

/-! ### Writes of the system cores and the loader (R13, R479) -/

/-- Whether a placement lies in the package's memory (R1, R193). -/
def placementFits (m : Placement) : Bool :=
  m.bytes.all (fun c => decide (c.1 < Config.memBytes)) && m.labels.all (fun l => decide (32 * l.1 < Config.memBytes))

/-- Labels for the masks that the system cores place at granules; none when the table has no free entry for one (R110). -/
def Package.systemLabels (p : Package) : List (Nat × Nat) → Option (List (Nat × Lbl) × Package)
  | [] => some ([], p)
  | (g, m) :: ls =>
    match p.labelFor (BitVec.ofNat 128 m) with
    | none => none
    | some (k, p) => (p.systemLabels ls).map (fun r => ((g, k) :: r.1, r.2))

/-- One write per line touched, performed at its home as a store at package scope, with its WCT (R479). Answers the latest
WCT; none, and nothing is written, when the label table is too full for the placement (R110). -/
def Package.systemWrite (p : Package) (m : Placement) : Option (Nat × Package) :=
  (p.systemLabels m.labels).map (fun r =>
    let lines := (m.bytes.map (fun (c : Nat × Byte) => lineOf c.1) ++ m.labels.map (fun (l : Nat × Nat) => l.1 / 2)).eraseDups
    lines.foldl (fun (acc : Nat × Package) line =>
      let p := acc.2
      let wct := p.nextWct line
      let (id, p) := p.fresh
      let x : Write := { id, acc := id, line, cells := m.bytes.filter (fun c => lineOf c.1 == line)
                         grow := r.1.filter (fun l => l.1 / 2 == line), wct := some wct, kind := .engine, team := 2 ^ 32, lid := 0
                         world := 0, cluster := 2 ^ 32, policy := .l2, cc := false, scope := none, key := p.keyAt (64 * line)
                         core := 2 ^ 32, epoch := 0, pte := none, disc := none }
      (max acc.1 wct, ({ p with writes := p.writes ++ [x] }).noteWct x wct)) (0, r.2))

/-- The system cores learn that the label table has no free entry (R110). -/
def Package.labelsFull (p : Package) : Package := p.interrupt .labelFull 0 0

/-- n bytes of memory as they stand once an image has been placed (R13). -/
def Package.placedRead (p : Package) (m : Placement) (pa n : Nat) : Nat :=
  ofBytes ((List.range n).map (fun k => ((m.bytes.find? (fun c => c.1 == pa + k)).map (·.2)).getD (p.byteUnder p.arrived (pa + k))))

/-- Whether the system cores may write a placement for a world: its frames are the world's own, the commons' or the system's; an access of theirs to
another tenant's frame traps OWNER (R211). The loader places a launch's image for the world of the launch (DEDUCED from R13 and R211: the image lies in
that world's frames). -/
def Package.mayPlace (p : Package) (world : Nat) (m : Placement) : Bool :=
  let mine := fun (pa : Nat) => p.ownerOf pa == 0 || p.ownerOf pa == 63 || p.ownerOf pa == world
  m.bytes.all (fun c => mine c.1) && m.labels.all (fun l => mine (32 * l.1))

/-- The bytes of a record as a placement. -/
def recordAt (pa r : Nat) : Placement := { bytes := (List.range 64).map (fun k => (pa + k, BitVec.ofNat 8 (r / 2 ^ (8 * k)))), labels := [] }

/-- LAUNCH_COMMAND (R13, R36, R39, R479, R484): the loader places the image, and the record is accepted, and then written into the ring as a write of the system
cores, or rejected, in the journal of the world's system command queue. A command that finds its queue full waits outside the machine. An image that
the system cores may not write, or whose labels the table cannot hold, is not placed and nothing is launched (DESIGN CHOICE: the spec says only that the
system cores take OWNER or receive the interrupt of R110). -/
def execLaunchCommand (world queue record : Nat) (tideBound : Bool) (image : Placement) (s : State) :
    Host.Outcome State Fault Refusal :=
  if !placementFits image then .fault (.noSuchAddress ((image.bytes.map (·.1)).foldl max 0))
  else lift (fun p => match p.world? world with
    | none => p
    | some x =>
      if !p.mayPlace world image then p
      else match p.systemWrite image with
      | none => p.labelsFull
      | some (wct, p) =>
      let desc := (p.peekPa x.space (recKdesc record)).map (fun a => descValid (p.placedRead image a.1 64))
      let faults := p.recordFaults record world (p.maskOf x.launchCeil) (recKdesc record % 64 == 0 && desc == some true)
      match x.quay? queue with
      | none => (p.commandAdd (64 + world) 8 1 world 4).2
      | some q =>
        match faults, p.quay? q with
        | (detail, _) :: _, _ => (p.commandAdd (64 + world) detail 1 world 4).2
        | [], some y =>
          if p.quayRoom q then
            let r := setBits 191 128 0 (setBits 399 396 0 record)
            match p.systemWrite (recordAt y.tailPa r) with
            | some (at_, p) => ({ p with draws := p.draws + 1 }).acceptRecord q r world (Config.commandRef p.draws) (Config.asksNotice p.draws) none
                tideBound (max wct at_)
            | none => p
          else p
        | [], none => p) s

end Sys2Proof.Machine
end

