-- ==== Sys2Proof/Machine/Lathe.lean ====
section
/-! DEFINITION. The lathe: signing, rounds, the arithmetic of the tiles and the sparsity queues; SIGN, MMA, MMASP, ACCLD, ACCST
and the events ROUND_ISSUE, ROUND_COMPLETE and SPARSITY_ENTRY_ARRIVE (R165 to R192, R336, R337, R409 to R411, R446). -/

namespace Sys2Proof.Machine

/-! ### SIGN (R171, R446) -/

/-- The lanes of the live lane threads of a team row. -/
def Team.rowLanes (tm : Team) (q : Nat) : BitVec 32 :=
  tm.liveLanes.foldl (fun m th => if rowOf th.lid == q then m ||| 1#32 <<< laneOf th.lid else m) 0

/-- Team rows of a team (R43). -/
def Team.rows (tm : Team) : Nat := (recThreads tm.record + 31) / 32

def Team.sign (tm : Team) (k : Nat) : SignReg := tm.signs.getD k SignReg.idle

def Team.setSign (tm : Team) (k : Nat) (s : SignReg) : Team := { tm with signs := tm.signs.set k s }

/-- The register declared for a row; a row without live threads leaves it idle (R171, R174). -/
def SignReg.declare (q : Nat) (expect : BitVec 32) : SignReg :=
  { SignReg.idle with row := q, expect, state := if expect = 0 then .idle else .armed }

/-- SIGN (R446). -/
def execSign (k : BitVec 4) (row : SignRow) (s : State) : Host.Outcome State Fault Refusal :=
  lift (each (fun w => do
    if !w.isPilot then prot 0x24
    else do
      let tm ← teamOf w
      let q ← match row with
        | .imm q => pure q.toNat
        | .sreg b => do
          let (v, _) ← readSreg w 1 b
          pure v
      if tm.rows ≤ q || 256 ≤ q then prot 0x20
      else do
        await ((tm.sign k.toNat).state != .collecting) .sign
        setTeam w (fun tm => tm.setSign k.toNat (SignReg.declare q (tm.rowLanes q))))) s

/-! ### Signing (R172, R173) -/

/-- The registers of a field that a round locks (R176). -/
def lockedRegs (d : Dst) (n : Nat) : List Dst :=
  (List.range n).filterMap (fun k => match d with
    | .main i => some (.main (i + k))
    | .op i => some (.op (i + k))
    | _ => none)

/-- The registers of a source field as they stand. -/
def fieldRegs (w : Who) (f : Fld) (n : Nat) : PM (List LReg × List Dst) := do
  let th ← thr w
  let tm ← teamOf w
  let d ← resolve w f
  pure (regsAt tm th d n, lockedRegs d n)

/-- A thread signs register k with an operation (R173): PROT 0x21 and 0x22, a hold while its bit is set, else the signature. -/
def signRound (w : Who) (k : Nat) (op : LatheOp) (mk : PM Signature) : PM Unit := do
  let i ← theIssue
  let tm ← teamOf w
  let s := tm.sign k
  let bit : BitVec 32 := 1#32 <<< laneOf w.lid
  let word := i.curWords.headD 0
  let lit := i.curWords.getD 1 0
  if s.state == .idle || rowOf w.lid != s.row || s.expect &&& bit == 0 then prot 0x21
  else if s.state == .collecting && (word != s.keyWord || lit != s.keyLit) then prot 0x22
  else if s.signed &&& bit != 0 then waitFor .sign
  else do
    let g ← mk
    let first := s.state != .collecting
    setTeam w (fun tm => tm.setSign k
      { s with keyWord := if first then word else s.keyWord, keyLit := if first then lit else s.keyLit
               state := .collecting, signed := s.signed ||| bit, op := some op, sigs := s.sigs ++ [g] })

/-- The base of five bits as a field (R409). -/
def latheField (a : BitVec 5) : Fld := a ++ 0#2

/-- A lathe instruction of one thread: the order of R337 and R411 for pilot, fields and signature. -/
def latheBody (fields : List FieldUse) (k : Nat) (op : LatheOp) (mk : Who → PM Signature) (w : Who) : PM Unit :=
  if w.isPilot then prot 0x25
  else do
    checkFields w fields
    signRound w k op (mk w)

/-- The fields of the control literal of R410. -/
def ctlSA (l : Word) : Fld := l.extractLsb' 25 7
def ctlSB (l : Word) : Fld := l.extractLsb' 16 7
def ctlJA (l : Word) : Nat := bitsOf 24 23 l.toNat
def ctlJB (l : Word) : Nat := bitsOf 15 14 l.toNat
def ctlTA (l : Word) : BitVec 7 := l.extractLsb' 7 7
def ctlTB (l : Word) : BitVec 7 := l.extractLsb' 0 7

/-- What a thread signs with: its registers and the owners of them, of its context and of its guard (R122, R29). -/
def signature (w : Who) (a b : Fld) (na nb : Nat) (lit : Option Word) : PM Signature := do
  let i ← theIssue
  let p ← get
  let th ← thr w
  let g ← env w
  let (ra, la) ← fieldRegs w a na
  let (rb, lb) ← fieldRegs w b nb
  let (rs, ls) ← match lit with
    | none => pure (([] : List LReg), ([] : List Dst))
    | some l => do
      let (sa, da) ← fieldRegs w (ctlSA l) 1
      let (sb, db) ← fieldRegs w (ctlSB l) 1
      let t := fun (b : BitVec 7) => i.sregs.getD b.toNat LReg.zero
      pure (sa ++ sb ++ [t (ctlTA l), t (ctlTB l)], da ++ db)
  pure { lid := w.lid, flag := i.flag, a := ra, b := rb, scale := rs, dst := [], locks := la ++ lb ++ ls, pc := i.cur, resume := i.skip, trapped := th.trap.isSome
         mask := g ||| p.joinOf (labelsOf (ra ++ rb ++ rs.take 2)) }

/-- Whether a register's round can issue: SIGNED equals EXPECT (R175). -/
def SignReg.ready (s : SignReg) : Bool := s.state == .collecting && s.signed == s.expect && s.op.isSome

/-- A round joins the order of its slice: after the rounds that issued, but before those of the same cycle with a higher sign-off
register that share no thread with it (R189). `before` names rounds which it stays behind: those before a COLL on its tile (R190). -/
def insertRound (before : Round → Bool) (r : Round) : List Round → List Round
  | [] => [r]
  | x :: xs =>
    if x.core == r.core && x.part == r.part && x.time == r.time && r.k < x.k
        && !((x :: xs).any (fun y => before y || y.team == r.team && y.sigs.any (fun g => r.sigs.any (fun h => h.lid == g.lid))))
    then r :: x :: xs
    else x :: insertRound before r xs

/-- The tile of a lathe operation. -/
def LatheOp.tile : LatheOp → Nat
  | .mma _ t _ _ _ _ => t
  | .mmasp _ _ t => t
  | .accld _ t _ => t
  | .accst _ t => t

/-- Whether a COLL on the tile of a round that issues now was accepted after an earlier round on that tile had issued: it waits for the earlier round, and the
new one for it (R190). DEDUCED: where R189's order within a cycle would close a ring of waits, R190's order by issue stands. -/
def Package.collBetween (p : Package) (tm : Team) (r x : Round) : Bool :=
  x.team == r.team && x.op.tile == r.op.tile
    && p.jobs.any (fun j => j.team == r.team && j.kind == .coll (some r.op.tile) && decide (x.id < j.id)
      && tm.coreOf j.lid == r.core && tm.partOf j.lid == r.part)

/-- The register after its round has issued: armed for the next one (R175). -/
def SignReg.issued (s : SignReg) : SignReg :=
  { s with round := (s.round + 1) % 256, signed := 0, keyWord := 0, keyLit := 0, state := .armed, op := none, sigs := [] }

/-- A round issues when SIGNED equals EXPECT (R175): threads held at R173 step 3 and a pilot held at SIGN go on. -/
def Package.issueRound (p : Package) (team k : Nat) : Package :=
  match p.team? team with
  | none => p
  | some tm =>
    let r := tm.sign k
    match r.op, r.ready with
    | some op, true =>
      let (id, p) := p.fresh
      let x : Round := { id, time := p.now, k, team, core := tm.rowCore r.row, part := tm.rowPart r.row, row := r.row, op
                         expect := r.expect, sigs := r.sigs, read := false, popped := [], stop := false }
      let p := p.setTeam team (fun tm => tm.setSign k r.issued)
      ({ p with rounds := insertRound (p.collBetween tm x) x p.rounds }).wake (fun (st : Stall) => st == Stall.sign)
    | _, _ => p

/-- A lathe instruction in every thread of the gang that runs it; the round issues at once when the last expected thread has signed
(R175). -/
def signAll (fields : List FieldUse) (k : Nat) (op : LatheOp) (mk : Who → PM Signature) (s : State) : Host.Outcome State Fault Refusal :=
  lift (fun p => eachThen (latheBody fields k op mk) (fun _ q => match p.issue with | some i => q.issueRound i.team k | none => q) p) s

/-- MMA (R409 to R411). -/
def execMma (fmt : MFmt) (tile : BitVec 6) (k : BitVec 4) (a b : BitVec 5) (lit : Option Word) (s : State) :
    Host.Outcome State Fault Refusal :=
  let n := fmt.regs
  let scales := match lit with
    | some l => [src (ctlSA l) 1, src (ctlSB l) 1]
    | none => []
  let (ja, jb) := match lit with
    | some l => (ctlJA l, ctlJB l)
    | none => (0, 0)
  signAll ([src (latheField a) n, src (latheField b) n] ++ scales) k.toNat (.mma fmt tile.toNat 0 0 ja jb)
    (fun w => signature w (latheField a) (latheField b) n n lit) s

/-- MMASP (R409, R411). -/
def execMmasp (fmt : SFmt) (q : BitVec 2) (tile : BitVec 6) (k : BitVec 4) (a b : BitVec 5) (s : State) :
    Host.Outcome State Fault Refusal :=
  signAll [src (latheField a) 4, src (latheField b) 8] k.toNat (.mmasp fmt q.toNat tile.toNat)
    (fun w => signature w (latheField a) (latheField b) 4 8 none) s

/-- ACCLD (R336, R337); field 122 is the source `zero`. -/
def execAccld (form : LdForm) (tile : BitVec 6) (a : Fld) (k : BitVec 4) (s : State) : Host.Outcome State Fault Refusal :=
  let zero := a.toNat == 122
  let n := if zero then 0 else form.regs
  signAll [src a n] k.toNat (.accld form tile.toNat zero) (fun w => signature w a a n 0 none) s

/-- ACCST (R336, R337). -/
def execAccst (form : StForm) (d : Fld) (tile : BitVec 6) (k : BitVec 4) (s : State) : Host.Outcome State Fault Refusal :=
  signAll [dst d form.regs] k.toNat (.accst form tile.toNat) (fun w => do
    let g ← signature w d d 0 0 none
    let r ← resolve w d
    let ds := lockedRegs r form.regs
    pure { g with dst := ds, locks := ds }) s

/-! ### The arithmetic of a round (R165 to R167, R177 to R184) -/

/-- The exact sum of products, a NaN where R165 says so; an exact zero takes the sign of R143. -/
def sumFV (vs : List FV) : FV :=
  if vs.any FV.isNan then .nan false
  else
    let pos := vs.any (fun v => v == .inf false)
    let neg := vs.any (fun v => v == .inf true)
    if pos && neg then .nan false
    else if pos then .inf false
    else if neg then .inf true
    else
      let x := vs.foldl (fun (t : Dy) v => t.add v.dy) Dy.zero
      if x.m = 0 then .num (vs.all FV.neg) 0 0 else .num (decide (x.m < 0)) x.m.natAbs x.e

/-- A tile scale: a NaN where it is NaN or infinite (R158). -/
def tileScale (t : Word) : FV :=
  match Fmt.f32.decode t.toNat with
  | .inf _ => .nan false
  | v => v

/-- C after one group: RoundNE(C + RoundNE(S × T_A × T_B)) (R165). -/
def accGroup (ta tb : FV) (c : Nat) (s : FV) : Nat :=
  let x := (mulFV (mulFV s ta).1 tb).1
  (Fmt.f32.add .rne c (Fmt.f32.deliver .rne x).1).1

/-- Bits of an element, and elements per row of A (R169). -/
def fmtBits : MFmt → Nat
  | .b16 | .h16 => 16
  | .e4m3 | .e5m2 => 8
  | .q4 => 4
  | .f32 | .c32 => 32

def fmtK : MFmt → Nat
  | .b16 | .h16 => 32
  | .e4m3 | .e5m2 => 64
  | .q4 => 128
  | .f32 | .c32 => 8

def sFmt : SFmt → MFmt
  | .b16 => .b16
  | .h16 => .h16
  | .e4m3 => .e4m3
  | .e5m2 => .e5m2

/-- A fragment element that is no .q4 element. -/
def elemFV (fmt : MFmt) (x : Nat) : FV :=
  match fmt with
  | .b16 => Fmt.b16.decode x
  | .h16 => Fmt.h16.decode x
  | .e4m3 => Narrow.e4m3.decode x
  | .e5m2 => Narrow.e5m2.decode x
  | _ => Fmt.f32.decode x

/-- What each lane gives an operand: its registers as one number, +0 for a lane that is not expected (R174). A lane that is not expected gives
a .q4 block whose scale register it holds the scale byte 0 (DESIGN CHOICE: R159, R174 and R178 speak of operand elements only). -/
def laneVals (sigs : List Signature) (pick : Signature → List LReg) : List Nat :=
  (List.range 32).map (fun l => match sigs.find? (fun g => laneOf g.lid == l) with
    | some g => valueOf (pick g)
    | none => 0)

/-- Element k of row or column i of a 16 × 16 operand whose fragments hold K/2 elements each (R177). -/
def fragElem (fmt : MFmt) (vals : List Nat) (half i k : Nat) : FV :=
  let eb := fmtBits fmt
  elemFV fmt ((vals.getD (i + 16 * (k / half)) 0 / 2 ^ (eb * (k % half))) % 2 ^ eb)

/-- The same for .q4: the pair's decoding under OEXP, and BEXP, of the block's scale byte (R157 to R159, R178). -/
def fragQ4 (vals scales : List Nat) (j i k : Nat) : FV :=
  let lane := i + 16 * (k / 64)
  let pos := k % 64
  let block := 2 * lane + pos / 32
  let sc := scaleByte (scales.getD (block % 32) 0) ((j + block / 32) % 4)
  let byte := (vals.getD lane 0 / 256 ^ (pos / 2)) % 256
  let pair := q4Pair (sc / 16) byte
  scaleFV (if pos % 2 = 0 then pair.1 else pair.2) (bexp sc)

/-- The sums of the groups folded into one element of the tile. -/
def foldGroups (ta tb : FV) (a b : Nat → FV) (n c : Nat) : Nat :=
  (List.range n).foldl (fun c g =>
    accGroup ta tb c (sumFV ((List.range 4).map (fun k => (mulFV (a (4 * g + k)) (b (4 * g + k))).1)))) c

/-- A 16 × 16 tile with each element replaced. -/
def mapTile (words : List Word) (f : Nat → Nat → Nat → Nat) : List Word :=
  (List.range 256).map (fun x => BitVec.ofNat 32 (f (x / 16) (x % 16) (words.getD x 0).toNat))

def oneFV : FV := .num false 1 0

/-- An MMA of a 16 × 16 format (R165, R166). The scale byte of a .q4 block whose scale register lies in a lane that is not expected is 0
(DESIGN CHOICE, see `laneVals`). -/
def mma16 (fmt : MFmt) (ja jb : Nat) (sigs : List Signature) (words : List Word) : List Word :=
  let va := laneVals sigs (·.a)
  let vb := laneVals sigs (·.b)
  let half := fmtK fmt / 2
  match fmt with
  | .f32 => mapTile words (fun i j c => (List.range 8).foldl (fun c k =>
      let x := fun (v : List Nat) (r : Nat) => (v.getD (r + 16 * (k / half)) 0 / 2 ^ (32 * (k % half))) % 2 ^ 32
      (Fmt.f32.fma .rne (x va i) (x vb j) c).1) c)
  | .q4 =>
    let sa := laneVals sigs (fun g => (g.scale.drop 0).take 1)
    let sb := laneVals sigs (fun g => (g.scale.drop 1).take 1)
    let last := (sigs.getLast?.map (·.scale)).getD []
    let ta := tileScale ((last.getD 2 LReg.zero).val)
    let tb := tileScale ((last.getD 3 LReg.zero).val)
    mapTile words (fun i j c => foldGroups ta tb (fragQ4 va sa ja i) (fragQ4 vb sb jb j) 32 c)
  | f => mapTile words (fun i j c => foldGroups oneFV oneFV (fragElem f va half i) (fragElem f vb half j) (fmtK f / 4) c)

/-- AccPair of R167 on (H, L). -/
def accPair (h l p e : Nat) : Nat × Nat :=
  let (s, e1, _) := twoSum h p
  let t := addF32 e1 e
  let t := addF32 l t
  let (h', l', _) := twoSum s t
  (h', l')

/-- TwoProd added into a pair. -/
def accProd (hl : Nat × Nat) (x y : Nat) : Nat × Nat :=
  let (p, e, _) := twoProd x y
  accPair hl.1 hl.2 p e

/-- An MMA of format .c32 (R167, R179). -/
def mmaC32 (sigs : List Signature) (words : List Word) : List Word :=
  let va := laneVals sigs (·.a)
  let vb := laneVals sigs (·.b)
  let part := fun (v : List Nat) (i k im : Nat) => (v.getD (i + 8 * (k / 2)) 0 / 2 ^ (32 * (2 * (k % 2) + im))) % 2 ^ 32
  (List.range 64).flatMap (fun x =>
    let i := x / 8
    let j := x % 8
    let w := fun n => (words.getD (4 * x + n) 0).toNat
    let (re, im) := (List.range 8).foldl (fun (acc : (Nat × Nat) × (Nat × Nat)) k =>
      let ar := part va i k 0
      let ai := part va i k 1
      let br := part vb j k 0
      let bi := part vb j k 1
      (accProd (accProd acc.1 ar br) (ai ^^^ 2 ^ 31) bi, accProd (accProd acc.2 ar bi) ai br)) ((w 0, w 1), (w 2, w 3))
    [re.1, re.2, im.1, im.2].map (BitVec.ofNat 32))

/-- The sum of one group of an MMASP (R180, R186). -/
def sparseSum (fmt : MFmt) (va : List Nat) (b : Nat → FV) (i g pos : Nat) : FV :=
  let eighth := fmtK fmt / 8
  let eb := fmtBits fmt
  let stored := fun n => elemFV fmt ((va.getD (i + 16 * (g / eighth)) 0 / 2 ^ (eb * (2 * (g % eighth) + n))) % 2 ^ eb)
  let idx := fun n => (pos / 2 ^ (4 * i + 2 * n)) % 4
  sumFV [(mulFV (stored 0) (b (4 * g + idx 0))).1, (mulFV (stored 1) (b (4 * g + idx 1))).1]

def mmaSparse (fmt : MFmt) (sigs : List Signature) (pos : List Nat) (words : List Word) : List Word :=
  let va := laneVals sigs (·.a)
  let vb := laneVals sigs (·.b)
  mapTile words (fun i j c => (List.range (fmtK fmt / 4)).foldl (fun c g =>
    accGroup oneFV oneFV c (sparseSum fmt va (fragElem fmt vb (fmtK fmt / 2) j) i g (pos.getD g 0))) c)

/-- The tile after an ACCLD (R183, R184): lane l gives words 8l to 8l+7. -/
def accldTile (form : LdForm) (zero : Bool) (sigs : List Signature) : List Word :=
  if zero then List.replicate 256 0
  else (List.range 32).flatMap (fun l =>
    let r := fun n => match sigs.find? (fun g => laneOf g.lid == l) with
      | some g => (g.a.getD n LReg.zero).val
      | none => 0
    match form with
    | .c32rnd => [r 0, 0, r 1, 0, r 2, 0, r 3, 0]
    | _ => (List.range 8).map r)

/-- The registers that an ACCST gives lane l (R183, R184). -/
def accstRegs (form : StForm) (words : List Word) (l : Nat) : List Word :=
  let w := fun n => words.getD (8 * l + n) 0
  let narrow := fun (F : Fmt) (r : Nat) =>
    let x := fun n => (F.deliver .rne (Fmt.f32.decode (w n).toNat)).1
    BitVec.ofNat 32 (x (2 * r) + 65536 * x (2 * r + 1))
  match form with
  | .f32 | .c32 => (List.range 8).map w
  | .b16 => (List.range 4).map (narrow .b16)
  | .h16 => (List.range 4).map (narrow .h16)
  | .c32rnd => (List.range 4).map (fun n => BitVec.ofNat 32 (addF32 (w (2 * n)).toNat (w (2 * n + 1)).toNat))

/-! ### Rounds -/

/-- ROUND_ISSUE (R175): a round that a withdrawn signature has made ready issues. -/
def execRoundIssue (team k : Nat) (s : State) : Host.Outcome State Fault Refusal := lift (fun p => p.issueRound team k) s

/-- Whether a round is the first of its team on its slice (R188, R189). -/
def Package.firstRound (p : Package) (r : Round) : Bool :=
  match p.rounds.find? (fun x => x.team == r.team && x.core == r.core && x.part == r.part) with
  | some x => x.id == r.id
  | none => false

def Package.setRound (p : Package) (k : Nat) (f : Round → Round) : Package :=
  { p with rounds := mapIf (fun r => r.id == k) f p.rounds }

/-- Sparsity entries that a round needs in all (R188). -/
def LatheOp.groups : LatheOp → Nat
  | .mmasp fmt _ _ => fmtK (sFmt fmt) / 4
  | _ => 0

def LatheOp.queue : LatheOp → Option Nat
  | .mmasp _ q _ => some q
  | _ => none

/-- A round pops the entries that it still needs, as far as its queue holds entries of its team (R187, R188). -/
def Package.popSparse (p : Package) (r : Round) : Package × Round :=
  match r.op.queue with
  | none => (p, r)
  | some q =>
    match p.sparse.find? (fun x => x.core == r.core && x.part == r.part && x.q == q && x.team == r.team) with
    | none => (p, r)
    | some sq =>
      let n := min (r.op.groups - r.popped.length) sq.entries.length
      let hit := fun (x : SparseQ) => x.core == r.core && x.part == r.part && x.q == q && x.team == r.team
      let p := { p with sparse := (mapIf hit (fun x => { x with entries := x.entries.drop n }) p.sparse).filter
                          (fun x => !x.entries.isEmpty) }
      (p, { r with popped := r.popped ++ sq.entries.take n })

/-- The owners of a tile after a round (R122). -/
def Package.tileMask (p : Package) (r : Round) (t : Tile) : Mask :=
  let signers := r.sigs.foldl (fun m g => m ||| g.mask) 0
  match r.op with
  | .accst _ _ => p.maskOf t.lbl
  | .accld _ _ _ => signers
  | .mma _ _ _ _ _ _ =>
    let last := (r.sigs.getLast?.map (·.scale)).getD []
    p.maskOf t.lbl ||| signers ||| p.joinOf (labelsOf (last.drop 2))
  | .mmasp _ _ _ => p.maskOf t.lbl ||| signers ||| p.joinOf (r.popped.map (·.2))

/-- The words of a tile after a round. -/
def Round.words (r : Round) (t : Tile) : List Word :=
  match r.op with
  | .mma .c32 _ _ _ _ _ => mmaC32 r.sigs t.words
  | .mma fmt _ _ _ ja jb => mma16 fmt ja jb r.sigs t.words
  | .mmasp fmt _ _ => mmaSparse (sFmt fmt) r.sigs (r.popped.map (·.1)) t.words
  | .accld form _ zero => accldTile form zero r.sigs
  | .accst _ _ => t.words

def Team.setTile (tm : Team) (t : Tile) : Team :=
  { tm with tiles := tm.tiles.filter (fun x => !(x.core == t.core && x.part == t.part && x.idx == t.idx)) ++ [t] }

/-- The labels that an ACCST gives its destinations: Join(Lbl(tile), Ctx(t), g) (R122); none when the table cannot hold one. -/
def Package.storeLabels (p : Package) (t : Tile) : List Signature → Option (List Lbl × Package)
  | [] => some ([], p)
  | g :: gs => do
    let (l, p) ← p.labelFor (p.maskOf t.lbl ||| g.mask)
    let (ls, p) ← p.storeLabels t gs
    pure (l :: ls, p)

/-- Writes registers at the locations that were named at the signature. -/
def Package.putAll (p : Package) (w : Who) (lbl : Lbl) : List Dst → List Word → Package
  | d :: ds, v :: vs => (p.putReg w d 0 { val := v, lbl }).putAll w lbl ds vs
  | _, _ => p

/-- An ACCST writes the registers of every signer. -/
def Package.storeTile (p : Package) (team : Nat) (form : StForm) (t : Tile) : List Signature → List Lbl → Package
  | g :: gs, l :: ls => (p.putAll ⟨team, g.lid⟩ l g.dst (accstRegs form t.words (laneOf g.lid))).storeTile team form t gs ls
  | _, _ => p

/-- A round that needs a new label entry when none is free has no effect: each of its signers traps PROT 3 at the instruction with which it
signed (R110). -/
def Package.roundFull (p : Package) (r : Round) : Package :=
  let p := r.sigs.foldl (fun p g => p.flagDone ⟨r.team, g.lid⟩ g.flag) p
  let p := ({ p with rounds := p.rounds.filter (fun x => x.id != r.id) }).wake (fun (st : Stall) => st == Stall.lock || st == Stall.exit)
  r.sigs.foldl (fun p g => p.raiseTrap ⟨r.team, g.lid⟩
    { cause := .prot, pc := g.pc, va := 0, vmask := 0, lbl := 0, aux := 3, resume := g.resume, skip := some g.resume }) (p.interrupt .labelFull 0 0)

/-- A round takes effect: the tile or the registers, the labels, and each signer's flag (R101, R411). -/
def Package.doRound (p : Package) (r : Round) (tm : Team) : Package :=
  let t := tm.tile r.core r.part r.op.tile
  match p.labelFor (p.tileMask r t) with
  | none => p.roundFull r
  | some (lbl, p) =>
    match p.storeLabels t (match r.op with | .accst _ _ => r.sigs | _ => []) with
    | none => p.roundFull r
    | some (ls, p) =>
      let p := match r.op with
        | .accst form _ => p.storeTile r.team form t r.sigs ls
        | _ => p.setTeam r.team (fun tm => tm.setTile { t with words := r.words t, lbl })
      let p := r.sigs.foldl (fun p g => p.flagDone ⟨r.team, g.lid⟩ g.flag) p
      ({ p with rounds := p.rounds.filter (fun x => x.id != r.id) }).wake (fun (st : Stall) => st == Stall.lock || st == Stall.exit)

/-- Whether a COLL that was issued before the round, and is not complete, holds its tile (R190). -/
def Package.tileHeld (p : Package) (r : Round) (tm : Team) : Bool :=
  p.jobs.any (fun j => j.team == r.team && j.kind == .coll (some r.op.tile) && j.id < r.id
    && tm.coreOf j.lid == r.core && tm.partOf j.lid == r.part)

/-- ROUND_COMPLETE (R188 to R190, R411): the slice starts the round once the earlier ones of its team have taken effect and no job
holds the tile, and it takes effect unless its sparsity queue runs empty. -/
def execRoundComplete (round : Nat) (s : State) : Host.Outcome State Fault Refusal :=
  lift (fun p => match p.rounds.find? (fun r => r.id == round) with
    | none => p
    | some r =>
      match p.team? r.team with
      | none => { p with rounds := p.rounds.filter (fun x => x.id != round) }
      | some tm =>
        if r.stop || p.now ≤ r.time || !p.firstRound r || p.tileHeld r tm then p
        else
          let (p, r) := p.popSparse r
          let p := p.restoreAll
          if r.popped.length < r.op.groups then
            (p.setRound round (fun _ => { r with read := true, stop := true })).wake (fun (st : Stall) => st == Stall.lock || st == Stall.exit)
          else (p.setRound round (fun _ => { r with read := true })).doRound { r with read := true } tm) s

/-- SPARSITY_ENTRY_ARRIVE (R188): the round that stalls at the queue proceeds. -/
def execSparsityEntryArrive (core part q : Nat) (s : State) : Host.Outcome State Fault Refusal :=
  lift (fun p =>
    match p.rounds.find? (fun r => r.core == core && r.part == part && r.stop && r.op.queue == some q
        && p.sparse.any (fun x => x.core == core && x.part == part && x.q == q && x.team == r.team && !x.entries.isEmpty)) with
    | none => p
    | some r =>
      let (p, r') := p.popSparse r
      p.restoreAll.setRound r.id (fun _ => { r' with stop := decide (r'.popped.length < r'.op.groups) })) s

end Sys2Proof.Machine
end

