-- ==== Sys2Proof/Machine/Engine.lean ====
section
/-! DEFINITION. Job cards and the accesses of the copy engines (R123, R205, R244 to R250, R279, R289): the reading of a card, the
acceptance of a job with the edges of R247, reads and writes of an engine, arrival words and the pieces of a copy. -/

namespace Sys2Proof.Machine

/-! ### Cards -/

/-- BASE of a card as a signed address (R244). -/
def cardBase (card : Nat) : Int := intBits 57 (bitsOf 63 12 card * 32)

def cardAw (card : Nat) : Bool := card.testBit 7
def cardAwAddr (card : Nat) : Nat := bitsOf 95 64 card

/-- First byte of a region: a signed virtual address, or a scratchpad address (R245). -/
def cardStart (card : Nat) (r : RegionDesc) : Int := if r.sp then (32 * r.off : Nat) else cardBase card + (32 * r.off : Nat)

/-- R245 for one region. -/
def regionOk (card : Nat) (r : RegionDesc) : Bool :=
  !r.v || (r.len != 0 && (if r.sp then r.off < 2 ^ 27
    else
      let lo := cardStart card r
      let hi := lo + (32 * r.len : Nat)
      (decide (lo < 0) && decide (hi ≤ 0)) || (decide (0 ≤ lo) && decide (hi ≤ 2 ^ 56))))

/-- A card that is not invalid under R245. -/
def cardValid (card : Nat) : Bool :=
  card % 128 == 0 && (List.range 6).all (fun k => regionOk card (cardRegion card k))
    && (!cardAw card || cardAwAddr card % 16 == 0)

/-- The regions in use, other than those named, of which there must be none. -/
def onlyRegions (card : Nat) (ks : List Nat) : Bool :=
  (List.range 6).all (fun k => ks.contains k || !(cardRegion card k).v)

/-- A card as a load of the thread (R244), through its region store buffer: its address with the owners of its pair, its bits, and the owners
of its granules. -/
structure Card where
  va   : Nat
  pair : Mask
  bits : Nat
  mask : Mask
  deriving DecidableEq, Repr

/-- The reading of a card with ALIGN and PROT 0x60. -/
def readCard (others : List Package) (w : Who) (a : Fld) (rel : Bool) (lit : Option Word) (more : List FieldUse) : PM Card := do
  checkFields w (src a 2 :: more)
  let (va, la) ← readField w 2 a lit
  noHeld w va la
  gate w
  if rel then fenceAt w .pkg else pure ()
  if va % 64 != 0 then trap .align va 0 0 la
  else do
    let (v, m) ← loadNow others w va la 64
    let th ← thr w
    let p ← get
    let ovl := overBytes th.buffer va 64
    let bits := ovl.foldl (fun v x => setBits (8 * x.1 + 7) (8 * x.1) x.2.toNat v) v
    let mask := m ||| p.joinOf (overNeeds th.buffer va 64)
    if !cardValid bits then prot 0x60 va la
    else pure { va, pair := la, bits, mask }

/-! ### Acceptance and edges (R247) -/

/-- A region of a job as R247 compares it: a write region, scratchpad, the clusters, and its granules. -/
structure Print where
  wr       : Bool
  sp       : Bool
  clusters : List Nat
  lo       : Int
  len      : Nat
  deriving DecidableEq, Repr

def Package.prints (p : Package) (j : Job) : List Print :=
  (List.range 6).filterMap (fun k =>
    let r := cardRegion j.card k
    if !r.v then none
    else
      let clusters := match j.kind with
        | .cpym m => if k = 4 then p.maskClusters j.world j.cluster m else [j.cluster]
        | _ => [j.cluster]
      some { wr := decide (4 ≤ k), sp := r.sp, clusters, lo := cardStart j.card r / 32, len := r.len })

def Print.meets (a b : Print) : Bool :=
  a.sp == b.sp && (!a.sp || a.clusters.any (fun c => b.clusters.contains c))
    && decide (a.lo < b.lo + b.len) && decide (b.lo < a.lo + a.len)

/-- The edge between an earlier and a later job: none, one for the earlier job's reads, or one for its writes (R247). Two
collectives on one tile follow each other (R190). -/
def Package.edge (p : Package) (a b : Job) : Option (Nat × Bool) :=
  let xs := p.prints a
  let ys := p.prints b
  let both := fun (f : Print → Print → Bool) => xs.any (fun x => ys.any (fun y => f x y && x.meets y))
  let tiles := match a.kind, b.kind with
    | .coll (some s), .coll (some t) => s == t
    | _, _ => false
  if tiles || both (fun x _ => x.wr) then some (a.id, false)
  else if both (fun x y => !x.wr && y.wr) then some (a.id, true)
  else none

/-- The mode of the page of a virtual address as a job's engine will find it; none where the page is not resident, or no engine write can be made. -/
def Package.pageMode (p : Package) (space va : Nat) : Option Nat :=
  match p.space? space with
  | none => none
  | some sp =>
    match p.walkFrom va walkLevels sp.root with
    | .leaf e pte sh => (xlatOf sp va e pte sh).map (·.mode)
    | _ => none

/-- The pages of n granules from an address on, each by an address in it and the granules of it among them. -/
def pagesOf (va n : Nat) : List (Nat × Nat) :=
  (List.range ((va % 65536 + 32 * n + 65535) / 65536)).map (fun k =>
    let lo := max va (va / 65536 * 65536 + 65536 * k)
    let hi := min (va + 32 * n) (va / 65536 * 65536 + 65536 * (k + 1))
    (lo % 2 ^ 64, (hi - lo) / 32))

/-- Whether the write region of a job may touch a pod page of its space: a page that is not resident may turn out to be one. -/
def Package.podTarget (p : Package) (j : Job) : Bool :=
  match j.kind with
  | .xperm => true
  | .cpy =>
    let r := cardRegion j.card 4
    r.v && !r.sp && (pagesOf (wrapInt 64 (cardStart j.card r)) r.len).any (fun q => (p.pageMode j.space q.1).all podMode)
  | _ => false

/-- Whether a CPY or XPERM job has a write to a pod page still to make or to be accepted (R289): of its data, or of STATUS into a card on such a page. The
STATUS of an XPERM that has written belongs to the step after the one that closes it (R317). -/
def Package.podOwed (p : Package) (j : Job) : Bool :=
  (p.podTarget j && (!j.done || j.left != 0))
    || ((j.kind == .cpy || j.kind == .xperm) && (p.pageMode j.space j.cardVa).all podMode && !(j.kind == .xperm && j.opened)
      && (!j.posted || j.left != 0))

/-- Granules among n from an address on that a job writes as merge records: those of POD and POD-CACHED pages, and of pages that are not
resident, which may be such pages (R289). -/
def Package.recordGranules (p : Package) (space va n : Nat) : Nat :=
  (pagesOf va n).foldl (fun k q => if (p.pageMode space q.1).all (fun m => m == 1 || m == 2) then k + q.2 else k) 0

/-- The shape of a copy: rows, granules per row, source and destination stride in granules. -/
structure Shape where
  rows : Nat
  gran : Nat
  ss   : Nat
  ds   : Nat
  deriving DecidableEq, Repr

/-- The shape of a copy (R364, R365). -/
def Job.shape (j : Job) : Shape :=
  match j.layout with
  | some v => { rows := bitsOf 63 32 v, gran := bitsOf 31 0 v, ss := bitsOf 95 64 v, ds := bitsOf 127 96 v }
  | none => { rows := 1, gran := (cardRegion j.card 0).len, ss := 0, ds := 0 }

def Job.srcAddr (j : Job) : Nat := wrapInt 64 (cardStart j.card (cardRegion j.card 0))
def Job.dstAddr (j : Job) : Nat := wrapInt 64 (cardStart j.card (cardRegion j.card 4))

/-- The merge records that a copy makes in the first granules of each of its rows, four for each granule (R275, R289). -/
def Package.recordsIn (p : Package) (j : Job) (first : Nat → Nat) : Nat :=
  4 * (List.range j.shape.rows).foldl (fun n k => n + p.recordGranules j.space ((j.dstAddr + 32 * k * j.shape.ds) % 2 ^ 64) (min j.shape.gran (first k))) 0

/-- The merge records that a copy makes before a granule of a row, in ascending address order, in which rows may interleave (R289); records at one address
are in the order of their rows (DEDUCED). -/
def Package.recordsBefore (p : Package) (j : Job) (row g : Nat) : Nat :=
  p.recordsIn j (fun k => row * j.shape.ds + g + (decide (k < row)).toNat - k * j.shape.ds)

/-- The writes that a read without a thread sees: those that are visible (R230). -/
def Package.visible (p : Package) : List Write := coherent (p.writes.filter (fun x => x.wct.any (fun t => t ≤ p.now)))

/-- The package that is the home of a page, where it is reachable. -/
def Package.homeOf (p : Package) (others : List Package) (world : Nat) (x : Xlat) : Option Package :=
  if x.mode == 0 then some p
  else match (p.world? world).map (fun wd => p.peerOf wd x.pod x.peer) with
    | some (.reachable, k) => (p :: others).find? (fun q => q.phys == k)
    | _ => none

/-- The layout record of a copy as it stands at acceptance at its home (R364); none while its page is not resident or its home not reachable. -/
def Package.layoutAt (p : Package) (others : List Package) (j : Job) : Option Nat :=
  if j.kind == .cpy && bitsOf 127 124 j.card == 1 then
    let va := wrapInt 64 (cardStart j.card (cardRegion j.card 1))
    (p.mapped j.space va).bind (fun x => (p.homeOf others j.world x).map (fun q => (q.homeRead j.world x.pod (x.pa va) 32 q.visible).1))
  else none

/-- The SEQ values that a job reserves from its thread's count at acceptance for its data: one for each merge record that it will send (R289). The records of a
copy by layout are those of its layout record as it stands then (DEDUCED: the engine reads the record later). -/
def Package.seqsOf (p : Package) (others : List Package) (j : Job) : Nat :=
  let r := cardRegion j.card 4
  if j.kind != .cpy || !r.v || r.sp then 0 else
  let j := { j with layout := p.layoutAt others j }
  p.recordsIn j (fun _ => j.shape.gran)

/-- The team's scheduler accepts a job of the thread (R247): a full one holds the thread. The job keeps the team ceiling as it stands now
(DESIGN CHOICE: the spec does not say which ceiling bounds a job's messages and growth after LCEIL has lowered it, R131). -/
def acceptJob (others : List Package) (w : Who) (c : Card) (kind : JobKind) (more : Mask) (f : Job → Job) : PM Unit := do
  let i ← theIssue
  let tm ← teamOf w
  let th ← thr w
  let wd ← worldOf w
  let p ← get
  await (decide ((p.jobs.filter (fun j => j.team == w.team && j.kind != .chunk)).length < Config.jobSlots)) .scheduler
  let g ← env w
  let id ← freshId
  let step := (wd.tide.map (·.writeStep)).getD 0
  let p ← get
  let j : Job := f { Job.blank with
    id := id, kind := kind, team := w.team, lid := w.lid, world := tm.world, space := tm.space, cluster := tm.cluster
    core := tm.coreOf w.lid, flag := i.flag, trapped := th.trap.isSome, cardVa := c.va, card := c.bits, teamIdx := tm.index
    depth := recDepth tm.record, grid := some tm.grid, mask := g ||| c.pair ||| c.mask ||| more, ceiling := p.maskOf tm.ceiling
    step := (wd.tide.map (·.step)).getD 0, podSeq := th.seqIn step }
  let j := { j with after := (p.jobs.filter (fun (x : Job) => x.team == j.team && x.kind != JobKind.chunk)).filterMap (fun (x : Job) => p.edge x j) }
  let j := { j with seqs := if wd.tide.isSome then p.seqsOf others j else 0 }
  let n := if wd.tide.isSome then j.seqs + p.recordGranules j.space j.cardVa 1 else 0
  if n != 0 then setThr w (fun th => th.countPod step n) else pure ()
  modify (fun p => { p with jobs := p.jobs ++ [j] })

/-! ### What an engine does -/

/-- Why an engine's segment is not made: it waits, or the job completes with a status (R246). -/
inductive EStop where
  | wait
  | status (n : Nat)
  deriving DecidableEq, Repr

abbrev EM (α : Type) : Type := StateT Package (Except EStop) α

def engWait {α : Type} : EM α := fun _ => .error .wait
def engFail {α : Type} (n : Nat) : EM α := fun _ => .error (.status n)

def stFault : Nat := 3
def stLabel : Nat := 2
def stLabelFull : Nat := 4
def stUnreachable : Nat := 7
/-- CEILING of COLL and XPERM (R361, R468). -/
def stCeiling : Nat := 10

/-- The translation of an engine's access: PAGE waits, every other trap is a FAULT, an absent peer is UNREACHABLE (R246, R307,
R478). Answers the page, the address at its home and the remote home. -/
def engAccess (others : List Package) (j : Job) (va : Nat) (use : Use) : EM (Xlat × Nat × Option Nat) := do
  let p ← get
  if !canonical va then engFail stFault
  else match p.space? j.space, p.world? j.world with
    | some sp, some wd =>
      match p.walkFrom va walkLevels sp.root with
      | .page => engWait
      | .bad => engFail stFault
      | .leaf e pte sh =>
        match xlatOf sp va e pte sh with
        | none => engFail stFault
        | some x =>
          if (use.reads && !x.r) || (use.writes && !x.w) then engFail stFault
          else do
            modify (fun p => p.markPte x (use == .store))
            let home ← (if x.mode == 0 then pure none
              else match p.peerOf wd x.pod x.peer with
                | (.absent, _) => engFail stUnreachable
                | (.quiescing, _) => engWait
                | (.reachable, k) => pure (if k == p.phys then none else some k))
            if p.ownsAt others home j.world (x.pa va) then pure (x, x.pa va, home) else engFail stFault
    | none, _ => engWait
    | _, none => engFail stFault

/-- n bytes of memory at an address as an engine reads them, with the owners of their granules (R246, R248, R260). -/
def engRead (others : List Package) (j : Job) (va n : Nat) : EM (Nat × Mask) := do
  let (x, pa, home) ← engAccess others j va .load
  let p ← get
  let tide := (p.world? j.world).bind (·.tide)
  let give := fun (q : Package) =>
    if (q.badAt (q.liveOf j.world x.pod pa) n).isSome then engFail stFault
    else
      let (v, m) := q.homeRead j.world x.pod pa n q.visible
      pure (v, if x.pod then p.maskOf x.label else m)
  match home with
  | none => if x.pod && tide.any (fun t => !t.serves t.step) then engWait else give p
  | some k =>
    match others.find? (fun q => q.phys == k) with
    | none => engWait
    | some q =>
      let held := x.pod && (match (q.world? j.world).bind (·.tide), tide with
        | some t, some u => !t.serves u.step
        | _, _ => false)
      if held then engWait
      else if (q.badAt (q.liveOf j.world x.pod pa) n).isSome then engFail stFault
      else
        let (v, m) := q.homeRead j.world x.pod pa n q.visible
        if x.mode == 3 then modify (fun p => p.tellHome k j.world x pa n none) else pure ()
        -- the owner mask travels with the data (R131)
        pure (v, if x.pod then p.maskOf x.label else m)

/-- A scratchpad address of an engine in a cluster: its bank and offset; FAULT where R198 traps. -/
def engPad (j : Job) (cluster ea : Nat) : EM (Bank × Nat) := do
  let p ← get
  match (p.world? j.world).bind (fun x => if ea / 2 ^ 23 = 0 then x.bank? cluster (bitsOf 22 18 ea) else none) with
  | none => engFail stFault
  | some phys =>
    match p.bank? cluster phys with
    | some b => if b.mode == .pad then pure (b, bitsOf 17 0 ea) else engFail stFault
    | none => engFail stFault

/-- One granule of a region, at an address of it. -/
def engGranule (others : List Package) (j : Job) (sp : Bool) (a : Nat) : EM (Nat × Mask) :=
  if sp then do
    let (b, off) ← engPad j j.cluster a
    let p ← get
    pure (ofBytes (b.bytes off 32), p.maskOf (b.label (off / 32)))
  else engRead others j a 32

def engGranules (others : List Package) (j : Job) (sp : Bool) : Nat → Nat → EM (List (Nat × Mask))
  | _, 0 => pure []
  | a, n + 1 => do
    let x ← engGranule others j sp a
    let xs ← engGranules others j sp ((a + 32) % 2 ^ 64) n
    pure (x :: xs)

/-- A write of an engine to a line, by the core and the epoch that translated it (R219). -/
def Package.engWriteOf (p : Package) (j : Job) (pte : Option Nat) (id line : Nat) (cells : List Host.Cell) : Write :=
  { id, acc := j.id, line, cells := cells.filter (fun c => lineOf c.1 == line), grow := [], wct := none, kind := .engine, team := 2 ^ 32, lid := 0
    world := j.world, cluster := 2 ^ 32, policy := .l2, cc := false, scope := none, key := p.keyAt (64 * line)
    core := j.core, epoch := (p.coreOr j.core).epoch, pte, disc := none }

/-- Writes of an engine on their way to their homes, one for each line: answers their identifiers (R230). -/
def Package.engWrite (p : Package) (j : Job) (pte : Option Nat) (cells : List Host.Cell) : List Nat × Package :=
  let lines := (cells.map (fun (c : Host.Cell) => lineOf c.1)).eraseDups
  lines.foldl (fun (acc : List Nat × Package) line =>
    let (id, p) := acc.2.fresh
    (acc.1 ++ [id], { p with writes := p.writes ++ [p.engWriteOf j pte id line cells] })) ([], p)

/-- Writes of a reduction, each performed at its home as one step with the growth of the labels of its granules (R118, R119). -/
def Package.engReduce (p : Package) (j : Job) (pte : Option Nat) (cells : List Host.Cell) (grow : List (Nat × Lbl)) : List Nat × Package :=
  let lines := (cells.map (fun (c : Host.Cell) => lineOf c.1)).eraseDups
  lines.foldl (fun (acc : List Nat × Package) line =>
    let wct := acc.2.nextWct line
    let (id, p) := acc.2.fresh
    let x := { p.engWriteOf j pte id line cells with grow := grow.filter (fun g => g.1 / 2 == line), wct := some wct }
    (acc.1 ++ [id], ({ p with writes := p.writes ++ [x] }).noteWct x wct)) ([], p)

/-- The cells of granules at a granule-aligned address. -/
def granuleCells (pa : Nat) : List (Nat × Mask) → List Host.Cell
  | [] => []
  | (v, _) :: gs => cellsOf pa 32 v ++ granuleCells (pa + 32) gs

/-- What became of a segment: not written for its labels, or written, with the writes to wait for. -/
inductive SegOut where
  | label
  | wrote (ids : List Nat)
  deriving DecidableEq, Repr

/-- Granules of data written into a scratchpad at an address of a cluster, all of them or none (R115, R366). -/
def engPadWrite (j : Job) (cluster ea : Nat) (gs : List (Nat × Mask)) : EM SegOut := do
  let (b, off) ← engPad j cluster ea
  let p ← get
  if ((List.range gs.length).zip gs).all (fun x => dominates (p.maskOf (b.label (off / 32 + x.1))) (j.mask ||| x.2.2)) then do
    modify (fun p => p.setBank ((List.range gs.length).zip gs |>.foldl (fun b x => b.put (off + 32 * x.1) (toBytes 32 x.2.1)) b))
    pure (.wrote [])
  else pure .label

/-- Counts a pod write on its way: the job's and the package's acknowledgements to come (R281, R289). -/
def Package.podSent (p : Package) (j : Job) (n : Nat) : Package :=
  let epoch := (p.coreOr j.core).epoch
  let p := { p with jobs := mapIf (fun x => x.id == j.id) (fun x =>
    { x with left := x.left + n, epoch := if x.left = 0 then epoch else x.epoch }) p.jobs }
  p.setTide j.world (fun t => { t with unacked := t.unacked + n })

/-- The merge records of granules on a POD or POD-CACHED page, one for each doubleword with its own SEQ (R275, R366); `seq` gives the first of each
granule. -/
def granuleRecords (step : Nat) (by_ : Writer) (rule : Nat) (pa : Nat) (seq : Nat → Nat) (mask : Mask) : List (Nat × Mask) → List MergeRec
  | [] => []
  | (v, m) :: gs =>
    (List.range 4).map (fun k =>
      ({ step, pkg := by_.pkg, team := by_.team, lid := by_.lid, depth := by_.depth, seq := seq 0 + k, rule, emask := 3, pa := pa + 8 * k, lbl := 0
         val := bitsOf (64 * k + 63) (64 * k) v, mask := mask ||| m, grid := by_.grid, ord := 0 } : MergeRec))
      ++ granuleRecords step by_ rule (pa + 32) (fun i => seq (i + 1)) mask gs

/-- Who makes the pod writes of a job: its issuing thread (R366). -/
def Job.writer (j : Job) (pkg : Nat) : Writer := { pkg, team := j.teamIdx, depth := j.depth, lid := j.lid, grid := j.grid.getD 0 }

/-- Merge records of a job sent to their receiver; those past the 16,777,215th of the thread in the step are refused (R275). -/
def Package.sendRecords (p : Package) (j : Job) (t : Tide) (home : Option Nat) (rs : List MergeRec) : Package :=
  let ok := rs.filter (fun r => decide (r.seq < 16777215))
  let p := ok.foldl (fun p r => p.send (home.getD p.phys) j.world (.record r j.id)) p
  let p := if ok.length = rs.length then p else p.setTide j.world (fun x => x.refuse t.writeStep (rs.length - ok.length))
  p.podSent j ok.length

/-- Sends granules to a pod page (R131, R279, R366): a bulk write to a SHADOW page, merge records to another. -/
def engPod (j : Job) (x : Xlat) (pa : Nat) (home : Option Nat) (seq : Nat → Nat) (gs : List (Nat × Mask)) : EM SegOut := do
  let p ← get
  match (p.world? j.world).bind (·.tide) with
  | none => engFail stFault
  | some t =>
    let limit := p.maskOf x.label &&& j.ceiling
    if !gs.all (fun g => dominates limit (j.mask ||| g.2)) then pure .label
    else if x.mode == 4 then do
      let b : Bulk := { step := t.writeStep, pkg := t.me, page := x.frame, size := x.size, off := pa - x.frame
                        data := gs.flatMap (fun g => toBytes 32 g.1), mask := gs.foldl (fun m g => m ||| g.2) j.mask, spill := false }
      modify (fun p => (p.send (home.getD p.phys) j.world (.bulk b j.id)).podSent j 1)
      pure (.wrote [])
    else do
      modify (fun p => p.sendRecords j t home (granuleRecords t.writeStep (j.writer t.me) x.rule pa seq j.mask gs))
      pure (.wrote [])

/-- Granules written to virtual memory (R115, R123, R366). -/
def engWriteVa (others : List Package) (j : Job) (va : Nat) (seq : Nat → Nat) (gs : List (Nat × Mask)) : EM SegOut := do
  let (x, pa, home) ← engAccess others j va .store
  let p ← get
  if x.pod then engPod j x pa home seq gs
  else if home.isSome then engFail stFault
  else if ((List.range gs.length).zip gs).all (fun g =>
      dominates (p.maskOf (p.homeLabel (granuleOf pa + g.1))) (j.mask ||| g.2.2)) then do
    let ids ← modifyGet (fun p => p.engWrite j (some x.pte) (granuleCells pa gs))
    pure (.wrote ids)
  else pure .label

/-! ### Arrival words (R205) -/

/-- n bytes counted into the arrival word of a job in a cluster. -/
def Package.countArrival (p : Package) (j : Job) (cluster n : Nat) : Package :=
  match engPad j cluster (cardAwAddr j.card) p with
  | .error _ => p
  | .ok ((b, off), p) =>
    let x := ofBytes (b.bytes off 16)
    let sum := awCount x + n
    let x' :=
      if !x.testBit 96 then setBits 63 32 sum x
      else if awTarget x ≤ sum then
        let rest := sum - awTarget x
        setBits 97 97 (if rest = 0 then bitsOf 97 97 x else 1) (setBits 95 64 (awGen x + 1) (setBits 63 32 rest x))
      else setBits 63 32 sum x
    (p.setBank (b.put off (toBytes 16 x'))).wake (fun st => st == Stall.await)

def Package.setJob (p : Package) (k : Nat) (f : Job → Job) : Package := { p with jobs := mapIf (fun j => j.id == k) f p.jobs }

/-- The arrivals of a job whose bytes are written. -/
def Package.dueArrivals (p : Package) (j : Job) : List Arrival :=
  if j.left = 0 then j.arrivals.filter (fun a => !p.writes.any (fun x => a.writes.contains x.id)) else []

/-- Counts the arrivals that are due. -/
def Package.flushArrivals (p : Package) (k : Nat) : Package :=
  match p.jobs.find? (fun j => j.id == k) with
  | none => p
  | some j =>
    let due := p.dueArrivals j
    let p := due.foldl (fun p a => p.countArrival j j.cluster a.bytes) p
    p.setJob k (fun j => { j with arrivals := j.arrivals.filter (fun a => !due.contains a) })

/-! ### Pieces of a copy (R366) -/

/-- Blocks of 8 granules in a row, and pieces in all: three for each block, of which the page boundaries of the source and the
destination leave one to three that are not empty. -/
def Shape.blocks (s : Shape) : Nat := (s.gran + 7) / 8
def Shape.total (s : Shape) : Nat := 3 * s.blocks * s.rows

/-- A piece of a copy: its row, its first granule in the row and its granules. -/
structure Piece where
  row : Nat
  g   : Nat
  n   : Nat
  deriving DecidableEq, Repr

/-- Granules from an address to the end of its 64 KiB. -/
def toEdge (a : Nat) : Nat := (65536 - a % 65536) / 32

def Shape.piece (s : Shape) (src dst k : Nat) : Piece :=
  let b := k / 3
  let row := b / s.blocks
  let g0 := 8 * (b % s.blocks)
  let len := min 8 (s.gran - g0)
  let c1 := min len (toEdge (src + 32 * (row * s.ss + g0)))
  let c2 := min len (toEdge (dst + 32 * (row * s.ds + g0)))
  let x := min c1 c2
  let y := max c1 c2
  match k % 3 with
  | 0 => { row, g := g0, n := x }
  | 1 => { row, g := g0 + x, n := y - x }
  | _ => { row, g := g0 + y, n := len - y }

/-- Pieces that may be made next: those of a window of 48 that are neither done nor empty. -/
def Job.nextPieces (j : Job) (s : Shape) (src dst : Nat) : List Nat :=
  ((List.range 48).map (j.seg + ·)).filter (fun k =>
    decide (k < s.total) && !j.got.contains k && (s.piece src dst k).n != 0)

end Sys2Proof.Machine
end

