-- ==== Sys2Proof/Machine/Job.lean ====
section
/-! DEFINITION. Jobs: JWAIT, CPY, CPYM, COLL and XPERM, and the events SCHEDULER_ROOM, JOB_SEGMENT_DONE, JOB_COMPLETE,
COLL_HEADER_ROUND and COLL_CONTRIBUTION (R190, R207, R246 to R249, R313, R315 to R317, R359 to R361, R364 to R367, R394,
R465 to R468). -/

namespace Sys2Proof.Machine

/-! ### JWAIT -/

/-- JWAIT (R394): holds the thread until the flag reads 0. The writes of the jobs tied to it are visible by then (R249). -/
def execJwait (f : BitVec 4) (s : State) : Host.Outcome State Fault Refusal :=
  lift (each (fun w => do
    let th ← thr w
    await (th.flags.getD f.toNat 0 == 0) .jwait)) s

/-! ### CPY -/

def cpyMode (card : Nat) : Nat := bitsOf 31 28 (cardParam card)
def cpyQueue (card : Nat) : Nat := bitsOf 27 26 (cardParam card)
def cpyRow (card : Nat) : Nat := bitsOf 25 18 (cardParam card)

/-- R364's checks of PARAM, the regions and the lengths. -/
def cpyOk (rows card : Nat) : Bool :=
  let r0 := cardRegion card 0
  let r1 := cardRegion card 1
  let w0 := cardRegion card 4
  bitsOf 17 0 (cardParam card) == 0
    && (match cpyMode card with
      | 0 => r0.v && w0.v && r0.len == w0.len && onlyRegions card [0, 4] && cpyQueue card == 0 && cpyRow card == 0
      | 1 => r0.v && r1.v && !r1.sp && r1.len == 1 && w0.v && onlyRegions card [0, 1, 4] && cpyQueue card == 0 && cpyRow card == 0
      | 2 => r0.v && onlyRegions card [0] && decide (cpyRow card < rows)
      | _ => false)

/-- CPY (R364). -/
def execCpy (a : Fld) (rel : Bool) (lit : Option Word) (s : State) : Host.Outcome State Fault Refusal :=
  lift (each (fun w => do
    let c ← readCard s.others w a rel lit []
    let tm ← teamOf w
    if !cpyOk tm.rows c.bits then prot 0x61 c.va c.pair
    else acceptJob s.others w c .cpy 0 id)) s

/-! ### CPYM -/

/-- CPYM (R367). -/
def execCpym (a b : Fld) (rel : Bool) (lit : Option Word) (s : State) : Host.Outcome State Fault Refusal :=
  lift (each (fun w => do
    let c ← readCard s.others w a rel lit [src b 2]
    let (m, lm) ← readField w 2 b lit
    let r0 := cardRegion c.bits 0
    let w0 := cardRegion c.bits 4
    if !(r0.v && !r0.sp && w0.v && w0.sp && r0.len == w0.len && onlyRegions c.bits [0, 4] && cardParam c.bits == 0) then
      prot 0x61 c.va c.pair
    else acceptJob s.others w c (.cpym (m % 2 ^ 40)) lm id)) s

/-! ### COLL -/

def collGid (card : Nat) : Nat := bitsOf 31 20 (cardParam card)
def collGen (card : Nat) : Nat := bitsOf 19 16 (cardParam card)
def collKind (card : Nat) : Nat := bitsOf 15 12 (cardParam card)
def collRoot (card : Nat) : Nat := bitsOf 11 0 (cardParam card)

/-- R360 for a card on a group of P members. -/
def collOk (tile : Bool) (P card : Nat) : Bool :=
  let r0 := cardRegion card 0
  let w0 := cardRegion card 4
  let n := r0.len
  let m := w0.len
  let k := collKind card
  (k == 7 || collRoot card == 0) && onlyRegions card [0, 4]
    && (if tile then (k == 0 || k == 1) && !r0.v && !w0.v
        else r0.v && w0.v && (match k with
          | 0 | 2 => m == n
          | 3 | 4 => n == P * m
          | 5 => m == P * n
          | 6 => n == m && n % P == 0
          | 7 => m == n && decide (collRoot card < P)
          | _ => false))

def Package.group? (p : Package) (gid gen world : Nat) : Option Group :=
  p.groups.find? (fun g => g.id == gid && g.state == 1 && g.gen == gen && g.world == world)

/-- COLL (R359, R360): the job takes the group's SEQ as its scheduler accepts it (R315). -/
def execColl (tile : Option (BitVec 6)) (a : Fld) (rel : Bool) (lit : Option Word) (s : State) :
    Host.Outcome State Fault Refusal :=
  lift (each (fun w => do
    let c ← readCard s.others w a rel lit []
    let tm ← teamOf w
    let p ← get
    match p.group? (collGid c.bits) (collGen c.bits) tm.world with
    | none => prot 0xA0 c.va c.pair
    | some g =>
      if !collOk tile.isSome g.members.length c.bits then prot 0x61 c.va c.pair
      else do
        acceptJob s.others w c (.coll (tile.map BitVec.toNat)) 0 (fun j =>
          { j with gid := g.id, gen := g.gen, seq := g.seq, hash := collHash c.bits g.seq })
        modify (fun p => { p with groups := mapIf (fun x => x.id == g.id) (fun x => { x with seq := (x.seq + 1) % 2 ^ 24 }) p.groups }))) s

/-! ### XPERM -/

def xpEsz (card : Nat) : Nat := bitsOf 31 28 (cardParam card)
def xpNbits (card : Nat) : Nat := bitsOf 27 24 (cardParam card)
def xpLbit (card : Nat) : Nat := bitsOf 23 20 (cardParam card)
def xpPbit (card : Nat) : Nat := bitsOf 19 16 (cardParam card)
def xpShift (card : Nat) : Nat := bitsOf 15 10 (cardParam card)

/-- R466. -/
def xpParamOk (card : Nat) : Bool :=
  decide (2 ≤ xpEsz card ∧ xpEsz card ≤ 4 ∧ 1 ≤ xpNbits card ∧ xpNbits card ≤ 12 ∧ xpLbit card < xpNbits card ∧ xpPbit card ≤ 11
    ∧ 16 ≤ xpShift card ∧ xpShift card ≤ 48 ∧ xpEsz card + xpNbits card ≤ xpShift card) && bitsOf 9 0 (cardParam card) == 0

/-- Address of element e of package p (R466). -/
def xpAddr (card p e : Nat) : Int := cardBase card + (p * 2 ^ xpShift card : Nat) + (e * 2 ^ xpEsz card : Nat)

/-- R467 step 6. -/
def xpOk (me card : Nat) : Bool :=
  let r0 := cardRegion card 0
  let w0 := cardRegion card 4
  let lo := xpAddr card me 0
  xpParamOk card && !cardAw card && onlyRegions card [0, 4] && r0.v && w0.v && !r0.sp && !w0.sp
    && decide (lo ≤ cardStart card r0)
    && decide (cardStart card r0 + (32 * r0.len : Nat) ≤ lo + (2 ^ (xpNbits card + xpEsz card) : Nat))

/-- XPERM (R467). -/
def execXperm (a : Fld) (rel : Bool) (lit : Option Word) (s : State) : Host.Outcome State Fault Refusal :=
  lift (each (fun w => do
    checkFields w [src a 2]
    noRegion w
    let c ← readCard s.others w a rel lit []
    let tm ← teamOf w
    let wd ← worldOf w
    match wd.tide with
    | none => prot 0x80 c.va c.pair
    | some t =>
      if !tm.tideBound then prot 0x80 c.va c.pair
      else if !xpOk t.me c.bits then prot 0x61 c.va c.pair
      else acceptJob s.others w c .xperm 0 id)) s

/-! ### The segments of CPY -/

/-- Whether a job has made all its reads: a collective says so by `got`. -/
def Job.readsDone (j : Job) : Bool :=
  j.done || (match j.kind with
    | .coll _ | .chunk => !j.got.isEmpty
    | _ => false)

/-- Whether the edges of R247 let a job's accesses be made. -/
def Package.mayRun (p : Package) (j : Job) : Bool :=
  j.after.all (fun e => match p.jobs.find? (fun x => x.id == e.1) with
    | none => true
    | some x => e.2 && x.readsDone)

/-- A job that completes with a status; the first status other than OK stands. -/
def Job.finish (j : Job) (status : Nat) : Job := { j with done := true, status := if j.status = 0 then status else j.status }

/-- A failed segment leaves its mark in STATUS. -/
def Job.mark (j : Job) (status : Nat) : Job := { j with status := if j.status = 0 then status else j.status }

/-- The layout record of a job, from a copy of the die's layout cache or from memory (R250): which one is open. -/
def layoutOf (others : List Package) (j : Job) : EM Nat := do
  let va := wrapInt 64 (cardStart j.card (cardRegion j.card 1))
  let (_, pa, home) ← engAccess others j va .load
  let key := pa + 2 ^ 48 * (match home with | some k => k + 1 | none => 0)
  let die := j.cluster / 10
  let p ← get
  let old := p.layouts.find? (fun l => l.die == die && l.world == j.world && l.addr == key)
  let keep ← match old with
    | some l => do
      let n ← modifyGet (fun p => p.pick 2)
      pure (if n = 0 then some l.val else none)
    | none => pure none
  match keep with
  | some v => pure v
  | none => do
    let (v, _) ← engRead others j va 32
    modify (fun p => { p with layouts := p.layouts.filter (fun l => !(l.die == die && l.world == j.world && l.addr == key))
                                ++ [{ die, world := j.world, addr := key, val := v }] })
    pure v

/-- A record that R365 admits. -/
def layoutOk (v : Nat) : Bool := v / 2 ^ 128 == 0 && bitsOf 63 32 v != 0 && bitsOf 31 0 v != 0

/-- One piece of a CPY of mode 0 or 1. -/
def cpyPiece (others : List Package) (j : Job) (k : Nat) : EM Unit := do
  let s := j.shape
  let c := s.piece j.srcAddr j.dstAddr k
  let r0 := cardRegion j.card 0
  let w0 := cardRegion j.card 4
  if r0.len < c.row * s.ss + s.gran || w0.len < c.row * s.ds + s.gran then engFail stFault
  else do
    let gs ← engGranules others j r0.sp ((j.srcAddr + 32 * (c.row * s.ss + c.g)) % 2 ^ 64) c.n
    let dst := (j.dstAddr + 32 * (c.row * s.ds + c.g)) % 2 ^ 64
    let p ← get
    let out ← if w0.sp then engPadWrite j j.cluster dst gs
      else engWriteVa others j dst (fun i => j.podSeq + p.recordsBefore j c.row (c.g + i)) gs
    modify (fun p => p.setJob j.id (fun j =>
      let j := { j with got := k :: j.got }
      match out with
      | .label => j.mark stLabel
      | .wrote ids => if cardAw j.card then { j with arrivals := j.arrivals ++ [{ bytes := 32 * c.n, writes := ids }] } else j))

/-- Entries that a team has in the queue q of the partition of a row: in the queue, and saved (R187). -/
def Package.sparseHeld (p : Package) (tm : Team) (row q : Nat) : Nat :=
  let core := tm.rowCore row
  let part := tm.rowPart row
  (p.sparse.filter (fun x => x.core == core && x.part == part && x.q == q && x.team == tm.id)).foldl (fun n x => n + x.entries.length) 0
    + (tm.sparse.filter (fun e => tm.rowCore e.row == core && tm.rowPart e.row == part && e.q == q)).length

/-- Whether a job of a team may append to the queue: that of a team which is not resident grows in its save; else the queue must hold no other
team's entries, nor the team have saved ones that still wait for it (R187). -/
def Package.sparseOpen (p : Package) (tm : Team) (row q : Nat) : Bool :=
  let core := tm.rowCore row
  let part := tm.rowPart row
  tm.residence == .saved
    || (!p.sparse.any (fun x => x.core == core && x.part == part && x.q == q && x.team != tm.id)
      && !tm.sparse.any (fun e => tm.rowCore e.row == core && tm.rowPart e.row == part && e.q == q))

/-- Entries appended to the team's queue, or to those saved with the team (R187). -/
def Package.addSparse (p : Package) (tm : Team) (row q : Nat) (es : List (Nat × Lbl)) : Package :=
  let core := tm.rowCore row
  let part := tm.rowPart row
  let hit := fun (x : SparseQ) => x.core == core && x.part == part && x.q == q
  if tm.residence == .saved then
    p.setTeam tm.id (fun t => { t with sparse := t.sparse ++ es.map (fun e => { row := tm.rowIn core part, q, pos := e.1, lbl := e.2 }) })
  else if p.sparse.any hit then { p with sparse := mapIf hit (fun x => { x with entries := x.entries ++ es }) p.sparse }
  else { p with sparse := p.sparse ++ [{ core, part, q, team := tm.id, entries := es }] }

/-- One granule of a sparsity fill: four entries with Join(job label, granule label) (R185, R187, R366); LABEL_FULL where the label table has no
free entry for it (R110). -/
def sparseFill (others : List Package) (j : Job) : EM Unit := do
  let p ← get
  match p.team? j.team with
  | none => engFail stFault
  | some tm =>
    let q := cpyQueue j.card
    let r0 := cardRegion j.card 0
    if !p.sparseOpen tm (cpyRow j.card) q || decide (Config.sparsitySize < p.sparseHeld tm (cpyRow j.card) q + 4) then engWait
    else do
      let (v, m) ← engGranule others j r0.sp ((j.srcAddr + 32 * j.seg) % 2 ^ 64)
      let p ← get
      match p.labelFor (j.mask ||| m) with
      | none => engFail stLabelFull
      | some (l, p) =>
        let es := (List.range 4).map (fun k => (bitsOf (64 * k + 63) (64 * k) v, l))
        set ((p.addSparse tm (cpyRow j.card) q es).setJob j.id (fun j =>
          { j with seg := j.seg + 1
                   arrivals := if cardAw j.card then j.arrivals ++ [{ bytes := 32, writes := [] }] else j.arrivals }))

/-! ### The segments of CPYM (R207) -/

/-- A piece written in one cluster after the other; a cluster that fails its check writes and counts nothing. Answers whether
one failed. -/
def cpymClusters (j : Job) (ea : Nat) (gs : List (Nat × Mask)) : List Nat → Package → Bool × Package
  | [], p => (false, p)
  | c :: cs, p =>
    match engPadWrite j c ea gs p with
    | .ok (.wrote _, q) =>
      let q := if cardAw j.card then q.countArrival j c (32 * gs.length) else q
      cpymClusters j ea gs cs q
    | _ => (true, (cpymClusters j ea gs cs p).2)

def cpymPiece (others : List Package) (j : Job) (mask k : Nat) : EM Unit := do
  let c := j.shape.piece j.srcAddr j.dstAddr k
  let gs ← engGranules others j false ((j.srcAddr + 32 * c.g) % 2 ^ 64) c.n
  let p ← get
  let cs := p.maskClusters j.world j.cluster mask
  let named := ((List.range 10).filter (fun i => (mask / 2 ^ (4 * i)) % 16 != 0)).length
  let (bad, p) := cpymClusters j ((j.dstAddr + 32 * c.g) % 2 ^ 64) gs cs p
  set (p.setJob j.id (fun j =>
    let j := { j with got := k :: j.got }
    if bad || cs.length < named then j.mark stLabel else j))

/-! ### The segments of XPERM (R317, R468) -/

/-- The check of every source granule against the ceiling before the first write. -/
def xpMask (others : List Package) (j : Job) : EM Mask := do
  let gs ← engGranules others j false j.srcAddr (cardRegion j.card 0).len
  pure (gs.foldl (fun m g => m ||| g.2) j.mask)

/-- An element moved: its bulk write, or nothing when it stays. -/
def xpElement (others : List Package) (j : Job) (t : Tide) (e v : Nat) (m : Mask) : EM (Option (Bool × Nat × Bulk)) := do
  let size := 2 ^ xpEsz j.card
  let b := e.testBit (xpLbit j.card)
  if b == t.me.testBit (xpPbit j.card) then pure none
  else do
    let q := setBits (xpPbit j.card) (xpPbit j.card) b.toNat t.me
    let e' := setBits (xpLbit j.card) (xpLbit j.card) (!b).toNat e
    let d := xpAddr j.card q e'
    let w0 := cardRegion j.card 4
    let lo := cardStart j.card w0
    if t.size ≤ q || decide (d < lo) || decide (lo + (32 * w0.len : Nat) < d + (size : Nat)) then engFail stFault
    else do
      let (x, pa, home) ← engAccess others j (wrapInt 64 d) .store
      let p ← get
      if x.mode != 4 then engFail stFault
      else
        let ok := dominates (p.maskOf x.label) (j.mask ||| m)
        pure (some (ok, home.getD p.phys, { step := t.writeStep, pkg := t.me, page := x.frame, size := x.size, off := pa - x.frame
                                            data := toBytes size v, mask := j.mask ||| m, spill := false }))

def xpElements (others : List Package) (j : Job) (t : Tide) : List (Nat × Nat × Mask) → EM (List (Bool × Nat × Bulk))
  | [] => pure []
  | (e, v, m) :: es => do
    let x ← xpElement others j t e v m
    let xs ← xpElements others j t es
    pure (x.toList ++ xs)

/-- One piece of an XPERM: every element is moved, or none when a label fails. The owners of the data as they stand now are checked against the
ceiling again before anything is sent (R131). -/
def xpPiece (others : List Package) (j : Job) (k : Nat) : EM Unit := do
  let c := j.shape.piece j.srcAddr j.srcAddr k
  let gs ← engGranules others j false ((j.srcAddr + 32 * c.g) % 2 ^ 64) c.n
  let p ← get
  match (p.world? j.world).bind (·.tide) with
  | none => engFail stFault
  | some t =>
    if !gs.all (fun g => dominates j.ceiling (j.mask ||| g.2)) then engFail stCeiling else
    let esz := xpEsz j.card
    let per := 32 / 2 ^ esz
    let e0 := (cardStart j.card (cardRegion j.card 0) - xpAddr j.card t.me 0).toNat / 2 ^ esz + per * c.g
    let es := ((List.range gs.length).zip gs).flatMap (fun x => (List.range per).map (fun i =>
      (e0 + per * x.1 + i, bitsOf (8 * 2 ^ esz * (i + 1) - 1) (8 * 2 ^ esz * i) x.2.1, x.2.2)))
    let out ← xpElements others j t es
    if out.all (·.1) then
      modify (fun p =>
        let p := out.foldl (fun (p : Package) o => p.send o.2.1 j.world (.bulk o.2.2 j.id)) p
        (p.podSent j out.length).setJob j.id (fun j =>
          { j with got := k :: j.got, opened := j.opened || !out.isEmpty, step := if out.isEmpty then j.step else t.writeStep }))
    else modify (fun p => p.setJob j.id (fun j => { j with got := k :: j.got }.mark stLabel))

/-! ### Collectives (R190, R315, R316, R360, R361) -/

/-- The group of a collective and the world's peers of its members, by rank. -/
def Package.collPeers (p : Package) (j : Job) : Option (Group × List (PeerState × Nat)) :=
  match p.group? j.gid j.gen j.world, p.world? j.world with
  | some g, some x => some (g, g.members.map (fun k => p.peerOf x false k))
  | _, _ => none

/-- Bytes of the source, and of the destination; a tile or chunk has 1,024. -/
def Job.tileData (j : Job) : Bool :=
  match j.kind with
  | .coll (some _) | .chunk => true
  | _ => false

def Job.srcBytes (j : Job) : Nat := if j.tileData then 1024 else 32 * (cardRegion j.card 0).len

/-- The part of a member's source that goes to rank q: its first byte and its length (R360). -/
def collPart (kind P root rank size q : Nat) : Nat × Nat :=
  match kind with
  | 3 | 4 | 6 => (q * (size / P), size / P)
  | 7 => if rank = root then (0, size) else (0, 0)
  | _ => (0, size)

/-- The length of what rank q sends to this member. -/
def Job.partFrom (j : Job) (P q : Nat) : Nat := (collPart (collKind j.card) P (collRoot j.card) q j.srcBytes 0).2

/-- Where the contributions of a chunk stand among those of its collective (R316). -/
def Job.base (j : Job) : Nat := if j.kind == .chunk then 1024 * j.index else 0

/-- A packet of the collective to every member, the own package included. -/
def Package.toMembers (p : Package) (j : Job) (peers : List (PeerState × Nat)) (f : Nat → List Msg) : Package :=
  ((List.range peers.length).zip peers).foldl (fun p x => (f x.1).foldl (fun p m => p.send x.2.2 j.world m) p) p

/-- The words of an accumulator tile that a collective takes as its contribution, after the rounds that issued before it
(R190, R360). -/
def takeTile (j : Job) (t : Nat) : EM (List Word × Mask) := do
  let p ← get
  match p.team? j.team with
  | none => engFail stFault
  | some tm =>
    let core := tm.coreOf j.lid
    let part := tm.partOf j.lid
    if p.rounds.any (fun r => r.team == j.team && r.core == core && r.part == part && r.op.tile == t && r.id < j.id) then engWait
    else do
      let x := tm.tile core part t
      pure (x.words, p.maskOf x.lbl)

/-- The opening of a collective: the job label joins every source label, and the header goes to every member with its failure
bit (R361). -/
def collOpen (others : List Package) (j : Job) (g : Group) (peers : List (PeerState × Nat)) : EM Unit := do
  let (data, mask) ← match j.kind with
    | .coll (some t) => do
      let (ws, m) ← takeTile j t
      pure (ws, j.mask ||| m)
    | _ => do
      let r0 := cardRegion j.card 0
      let gs ← engGranules others j r0.sp j.srcAddr r0.len
      pure (([] : List Word), gs.foldl (fun m x => m ||| x.2) j.mask)
  let h : CollHead := { seq := j.seq, rank := g.rank, hash := j.hash, fail := !dominates j.ceiling mask }
  modify (fun p => (p.toMembers j peers (fun _ => [.header j.gid j.gen h])).setJob j.id (fun j =>
    { j with sent := true, data, mask := if j.tileData then mask else j.mask }))

/-- The header of a bound grid's collective, once every team of the grid has fired its chunk (R316, R361). -/
def Package.chunkHeader (p : Package) (j : Job) (g : Group) (peers : List (PeerState × Nat)) : Package :=
  let mine := fun (x : Job) => x.kind == .chunk && x.grid == j.grid
  let fail := p.jobs.any (fun x => mine x && !dominates x.ceiling x.mask)
  let h : CollHead := { seq := j.seq, rank := g.rank, hash := j.hash, fail }
  let p := p.toMembers j peers (fun _ => [.header j.gid j.gen h])
  { p with jobs := mapIf mine (fun x => { x with sent := true }) p.jobs }

/-- Bytes o to o + n of a collective's source. -/
def collSource (others : List Package) (j : Job) (o n : Nat) : EM (List Byte × Mask) :=
  if j.tileData then
    pure ((((j.data.drop (o / 4)).take (n / 4)).flatMap (fun w => toBytes 4 w.toNat)), j.mask)
  else do
    let gs ← engGranules others j (cardRegion j.card 0).sp ((j.srcAddr + o) % 2 ^ 64) (n / 32)
    pure (gs.flatMap (fun g => toBytes 32 g.1), gs.foldl (fun m g => m ||| g.2) j.mask)

/-- Sends the next block of at most 256 bytes of the source, cut for the members that receive it. The owners of the data as they stand now are
checked against the ceiling again (R131): where they have grown past it since the header round, the job ends with CEILING (DEDUCED: R361 gives
that status for the check before the header). -/
def collSend (others : List Package) (j : Job) (g : Group) (peers : List (PeerState × Nat)) : EM Unit := do
  let o := 256 * j.seg
  let n := min 256 (j.srcBytes - o)
  let (bs, m) ← collSource others j o n
  if !dominates j.ceiling m then engFail stCeiling else
  let P := peers.length
  modify (fun p =>
    let p := p.toMembers j peers (fun q =>
      let (lo, len) := collPart (collKind j.card) P (collRoot j.card) g.rank j.srcBytes q
      let a := max lo o
      let b := min (lo + len) (o + n)
      if a < b then
        [.contribution j.gid j.gen j.id { seq := j.seq, rank := g.rank, hash := j.hash, off := a - lo + j.base
                                          data := (bs.drop (a - o)).take (b - a), mask := m }]
      else [])
    p.setJob j.id (fun j => { j with seg := j.seg + 1, got := if j.srcBytes ≤ o + n then [0] else j.got }))

/-- Bytes held of rank q's contribution to this job. -/
def Group.held (g : Group) (j : Job) (len q : Nat) : Nat :=
  (g.datas.filter (fun d => d.seq == j.seq && d.rank == q && j.base ≤ d.off && d.off < j.base + len)).foldl
    (fun n d => n + d.data.length) 0

/-- n bytes at an offset of rank q's contribution, as a number, with their owners. -/
def Group.take (g : Group) (j : Job) (q off n : Nat) : Nat × Mask :=
  let o := j.base + off
  match g.datas.find? (fun d => d.seq == j.seq && d.rank == q && d.off ≤ o && o < d.off + d.data.length) with
  | some d => (ofBytes ((d.data.drop (o - d.off)).take n), d.mask)
  | none => (0, 0)

/-- A reduced unit of 4, 8 or 16 bytes at an offset of the destination, in ascending rank (R360). -/
def collReduce (g : Group) (j : Job) (P off : Nat) : Nat × Nat × Mask :=
  let ovl := fun (n : Nat) (f : Nat → Nat → Nat) => (List.range P).foldl (fun (acc : Nat × Mask) q =>
    let (x, m) := g.take j q off n
    (f acc.1 x, acc.2 ||| m)) (0, 0)
  match collKind j.card with
  | 0 | 3 =>
    let (v, m) := ovl 4 addF32
    (4, v, m)
  | 1 =>
    let word := fun (x k : Nat) => bitsOf (32 * k + 31) (32 * k) x
    let (v, m) := ovl 16 (fun acc x =>
      let re := accPair (word acc 0) (word acc 1) (word x 0) (word x 1)
      let im := accPair (word acc 2) (word acc 3) (word x 2) (word x 3)
      re.1 + 2 ^ 32 * re.2 + 2 ^ 64 * im.1 + 2 ^ 96 * im.2)
    (16, v, m)
  | _ =>
    let (v, m) := ovl 8 (fun a x => (a + x) % 2 ^ 64)
    (8, v, m)

def reduces (kind : Nat) : Bool := kind ≤ 4

/-- The granule at an offset of the destination, with its owners. -/
def collGranule (g : Group) (j : Job) (P off : Nat) : Nat × Mask :=
  let k := collKind j.card
  if reduces k then
    let unit := (collReduce g j P off).1
    (List.range (32 / unit)).foldl (fun (acc : Nat × Mask) i =>
      let (_, v, m) := collReduce g j P (off + unit * i)
      (acc.1 + v * 2 ^ (8 * unit * i), acc.2 ||| m)) (0, 0)
  else if k = 7 then g.take j (collRoot j.card) off 32
  else
    let part := j.partFrom P 0
    g.take j (off / part) (off % part) 32

/-- The labels of granules of a reduction's destination, as their home holds them: as they stand, grown under R118, or a failure; LABEL_FULL when
the table is full (R110). -/
def growAll (j : Job) (x : Xlat) (pa : Nat) : List (Nat × Mask) → EM (Option (List (Nat × Lbl)))
  | [] => pure (some [])
  | (_, m) :: gs => do
    let p ← get
    let old := p.maskOf (p.homeLabel (granuleOf pa))
    let need := j.mask ||| m
    if dominates old need then growAll j x (pa + 32) gs
    else if x.grow && dominates j.ceiling (old ||| need) then
      if p.reserved ⟨2 ^ 32, 0⟩ (granuleOf pa) then engWait else
      match p.labelFor (old ||| need) with
      | none => engFail stLabelFull
      | some (l, p) => do
        set p
        let rest ← growAll j x (pa + 32) gs
        pure (rest.map (fun ls => (granuleOf pa, l) :: ls))
    else pure none

/-- A destination segment of a collective (R361); one of a reduction is checked and performed at its home as one step (R118, R119). -/
def collWrite (others : List Package) (j : Job) (dst : Nat) (gs : List (Nat × Mask)) : EM SegOut := do
  if (cardRegion j.card 4).sp then engPadWrite j j.cluster dst gs
  else do
    let (x, pa, _) ← engAccess others j dst .store
    if x.mode != 0 then engFail stFault
    else if reduces (collKind j.card) then do
      let r ← growAll j x pa gs
      match r with
      | none => pure .label
      | some ls => do
        let ids ← modifyGet (fun p => p.engReduce j (some x.pte) (granuleCells pa gs) ls)
        pure (.wrote ids)
    else engWriteVa others j dst (fun _ => 0) gs

/-- A rank's contribution added into the tile (R190); LABEL_FULL where the label table has no free entry for the join (R110). -/
def addTile (g : Group) (j : Job) (t q : Nat) : EM Unit := do
  let p ← get
  match p.team? j.team with
  | none => engFail stFault
  | some tm =>
    let x := tm.tile (tm.coreOf j.lid) (tm.partOf j.lid) t
    let w := fun (i : Nat) => (x.words.getD i 0).toNat
    let c := fun (i : Nat) => (g.take j q (4 * i) 4).1
    let m := (List.range 32).foldl (fun m i => m ||| (g.take j q (32 * i) 32).2) 0
    let words := if collKind j.card = 0 then (List.range 256).map (fun i => BitVec.ofNat 32 (addF32 (w i) (c i)))
      else (List.range 128).flatMap (fun i =>
        let r := accPair (w (2 * i)) (w (2 * i + 1)) (c (2 * i)) (c (2 * i + 1))
        [BitVec.ofNat 32 r.1, BitVec.ofNat 32 r.2])
    match p.labelFor (p.maskOf x.lbl ||| m ||| j.mask) with
    | none => engFail stLabelFull
    | some (lbl, p) => set ((p.setTeam j.team (fun tm => tm.setTile { x with words, lbl })).setJob j.id (fun j => { j with dest := q + 1 }))

/-- Shape of a collective's destination in memory. -/
def Job.destShape (j : Job) : Shape := { rows := 1, gran := (cardRegion j.card 4).len, ss := 0, ds := 0 }

/-- The next destination segment of a collective whose contributions are all held, or the next rank of a tile. -/
def collApply (others : List Package) (j : Job) (g : Group) : EM Unit := do
  let P := g.members.length
  match j.kind with
  | .coll (some t) => if g.held j 1024 j.dest < 1024 then engWait else addTile g j t j.dest
  | _ =>
    if (List.range P).any (fun q => g.held j (j.partFrom P q) q < j.partFrom P q) then engWait
    else do
      let c := j.destShape.piece j.dstAddr j.dstAddr j.dest
      let gs := (List.range c.n).map (fun i => collGranule g j P (32 * (c.g + i)))
      let out ← if c.n = 0 then pure (SegOut.wrote []) else collWrite others j ((j.dstAddr + 32 * c.g) % 2 ^ 64) gs
      modify (fun p => p.setJob j.id (fun j =>
        let j := { j with dest := j.dest + 1 }
        match out with
        | .label => j.mark stLabel
        | .wrote ids => if cardAw j.card && c.n != 0 then { j with arrivals := j.arrivals ++ [{ bytes := 32 * c.n, writes := ids }] } else j))

/-- Whether a collective has its whole destination. -/
def Job.destDone (j : Job) (P : Nat) : Bool :=
  match j.kind with
  | .coll (some _) => decide (P ≤ j.dest)
  | _ => decide (j.destShape.total ≤ j.dest)

/-- A collective that has read and written everything has no access left. -/
def Package.collSettle (p : Package) (k P : Nat) : Package :=
  p.setJob k (fun j => if j.opened && j.readsDone && j.destDone P then { j with done := true } else j)

/-! ### JOB_SEGMENT_DONE -/

/-- The outcome of an engine's attempt: it waits, the job ends, or it went on. A full label table interrupts the system cores (R110). -/
def Package.engRun (p : Package) (k : Nat) (m : EM Unit) : Package :=
  match m p with
  | .ok (_, q) => q
  | .error .wait => p
  | .error (.status n) => (if n = stLabelFull then p.interrupt .labelFull 0 0 else p).setJob k (fun j => j.finish n)

/-- The next piece of a job that copies in pieces, chosen among those of its window. -/
def Package.nextPiece (p : Package) (j : Job) (src dst : Nat) (f : Nat → EM Unit) : Package :=
  match j.nextPieces j.shape src dst with
  | [] => p.setJob j.id (fun j => if j.shape.total ≤ j.seg + 48 then { j with done := true } else { j with seg := j.seg + 48, got := [] })
  | k :: ks =>
    let (n, q) := p.pick (ks.length + 1)
    q.engRun j.id (f ((k :: ks).getD n k))

/-- What a collective does next: header, then its contributions (R315). A chunk sends its contribution as soon as its team has retired, but none that its
ceiling does not admit, whose header then says so (R361). -/
def Package.collStep (p : Package) (others : List Package) (j : Job) : Package :=
  match p.collPeers j with
  | none => p.setJob j.id (fun j => j.finish stFault)
  | some (g, peers) =>
    if peers.any (fun x => x.1 == .absent) then p.setJob j.id (fun j => j.finish stUnreachable)
    else if peers.any (fun x => x.1 == .quiescing) then p
    else
      let go := fun (m : EM Unit) => (p.engRun j.id m).collSettle j.id peers.length
      match j.kind with
      | .chunk => if j.got.isEmpty && dominates j.ceiling j.mask then go (collSend others j g peers) else p
      | _ =>
        if !j.sent then go (collOpen others j g peers)
        else if j.got.isEmpty then go (collSend others j g peers)
        else p

/-- Whether the header of a chunk's collective is still to be sent: every team of the grid has retired, so that its last chunk is fired (R316). A chunk that is
complete sends it too. -/
def Package.headerDue (p : Package) (j : Job) : Bool :=
  j.kind == .chunk && !j.sent && (p.grids.find? (fun x => some x.id == j.grid)).any (fun x => x.left == 0 && x.seq.isSome)
    && (match p.collPeers j with
      | some (_, peers) => peers.all (fun x => x.1 != .absent)
      | none => false)

/-- That header, once no member is behind a circuit that drains (R311). -/
def Package.sendHeader (p : Package) (j : Job) : Package :=
  match p.collPeers j with
  | some (g, peers) => if peers.any (fun x => x.1 == .quiescing) then p else p.chunkHeader j g peers
  | none => p

/-- JOB_SEGMENT_DONE (R366): bytes that are written count into the arrival word, or the next segment is made. -/
def execJobSegmentDone (job : Nat) (s : State) : Host.Outcome State Fault Refusal :=
  lift (fun p => match p.jobs.find? (fun j => j.id == job) with
    | none => p
    | some j =>
      if !(p.dueArrivals j).isEmpty then p.flushArrivals job
      else if p.headerDue j then p.sendHeader j
      else if j.done || !p.mayRun j then p
      else match j.kind with
        | .cpy =>
          if cpyMode j.card = 2 then
            if (cardRegion j.card 0).len ≤ j.seg then p.setJob job (fun j => { j with done := true })
            else p.engRun job (sparseFill s.others j)
          else if cpyMode j.card = 1 && j.layout.isNone then p.engRun job (do
            let v ← layoutOf s.others j
            if layoutOk v then modify (fun p => p.setJob job (fun j => { j with layout := some v })) else engFail 9)
          else p.nextPiece j j.srcAddr j.dstAddr (cpyPiece s.others j)
        | .cpym mask => if mask = 0 then p.setJob job (fun j => { j with done := true }) else p.nextPiece j j.srcAddr j.dstAddr (cpymPiece s.others j mask)
        | .xperm =>
          if !j.sent then p.engRun job (do
            let m ← xpMask s.others j
            if dominates j.ceiling m then modify (fun p => p.setJob job (fun j => { j with sent := true })) else engFail stCeiling)
          else p.nextPiece j j.srcAddr j.srcAddr (xpPiece s.others j)
        | .coll _ | .chunk => p.collStep s.others j) s

/-- A job whose collective's header round has closed well: a tile restarts from +0 (R190, R315, R360). -/
def Package.openColl (p : Package) (j : Job) : Package :=
  let p := p.setJob j.id (fun j => { j with opened := true })
  match j.kind with
  | .coll (some t) => p.setTeam j.team (fun tm => tm.setTile { tm.tile (tm.coreOf j.lid) (tm.partOf j.lid) t with words := List.replicate 256 0 })
  | _ => p

/-- COLL_HEADER_ROUND (R315, R361): with every member's pair, the jobs of the SEQ go on, or all end with COLL_MISMATCH or
CEILING and no destination changed. -/
def execCollHeaderRound (gid seq : Nat) (s : State) : Host.Outcome State Fault Refusal :=
  lift (fun p => match p.groups.find? (fun g => g.id == gid) with
    | none => p
    | some g =>
      let hs := g.heads.filter (fun h => h.seq == seq)
      let all := (List.range g.members.length).all (fun q => hs.any (fun h => h.rank == q))
      if !all then p
      else
        let same := hs.all (fun h => some h.hash == hs.head?.map (·.hash))
        let mine := fun (j : Job) => j.gid == gid && j.gen == g.gen && j.seq == seq && !j.done && !j.opened
          && (match j.kind with | .coll _ | .chunk => true | _ => false)
        if !same then { p with jobs := mapIf mine (fun j => j.finish 5) p.jobs }
        else if hs.any (·.fail) then { p with jobs := mapIf mine (fun j => j.finish 10) p.jobs }
        else (p.jobs.filter mine).foldl Package.openColl p) s

/-- COLL_CONTRIBUTION (R190, R360): the next rank's contribution enters the tile, or the next destination segment is written. -/
def execCollContribution (job : Nat) (s : State) : Host.Outcome State Fault Refusal :=
  lift (fun p => match p.jobs.find? (fun j => j.id == job) with
    | none => p
    | some j =>
      match p.collPeers j with
      | none => p
      | some (g, peers) =>
        if j.done || !j.opened || j.destDone peers.length then p
        else (p.engRun job (collApply s.others j g)).collSettle job peers.length) s

/-! ### Completion -/

/-- STATUS written into the card as a store at package scope by the engine (R246), under R115 against the job label (R123): one byte, with the
bits of BASE beside STATUS in it; on a pod page the element that holds it, as R279 and R366 have an engine write there. A home on another package
takes no store to a MIGRATE page (R215). -/
def statusWrite (others : List Package) (j : Job) (status : Nat) : EM Unit := do
  let (x, pa, home) ← engAccess others j j.cardVa .store
  let p ← get
  let word := setBits 11 8 status (j.card % 2 ^ 64)
  if x.pod then
    match (p.world? j.world).bind (·.tide) with
    | none => engFail stFault
    | some t =>
      if !dominates (p.maskOf x.label &&& j.ceiling) j.mask then engFail stLabel
      else if x.mode == 4 then
        let b : Bulk := { step := t.writeStep, pkg := t.me, page := x.frame, size := x.size, off := pa + 1 - x.frame
                          data := toBytes 1 (word / 256), mask := j.mask, spill := false }
        modify (fun p => (p.send (home.getD p.phys) j.world (.bulk b j.id)).podSent j 1)
      else
        let n := elemSize x.rule
        modify (fun p => p.sendRecords j t home (podRecords t.writeStep (j.writer t.me) (j.podSeq + j.seqs) x.rule pa n (word % 256 ^ n) j.mask))
  else if home.isSome then engFail stFault
  else if !dominates (p.maskOf (p.homeLabel (granuleOf pa))) j.mask then engFail stLabel
  else
    let old := (p.byteUnder p.arrived (pa + 1)).toNat
    modify (fun p => (p.engWrite j (some x.pte) [(pa + 1, BitVec.ofNat 8 (setBits 3 0 status old))]).2)

/-- The status of a job is settled and written into its card, as soon as the card's page is resident and its peer reachable; a card that the engine may
not write takes none. -/
def Package.postStatus (p : Package) (others : List Package) (j : Job) : Package :=
  let status := if j.status = 0 then 1 else j.status
  let posted := p.setJob j.id (fun j => { j with posted := true, status })
  match statusWrite others j status posted with
  | .ok (_, q) => q
  | .error .wait => p
  | .error (.status _) => posted

/-- Forgets what the tugs hold of a collective that is over on this package. -/
def Package.dropColl (p : Package) (j : Job) : Package :=
  if p.jobs.any (fun x => x.gid == j.gid && x.seq == j.seq && (match x.kind with | .coll _ | .chunk => true | _ => false)) then p
  else { p with groups := mapIf (fun g => g.id == j.gid) (fun g =>
    { g with heads := g.heads.filter (fun h => h.seq != j.seq), datas := g.datas.filter (fun d => d.seq != j.seq) }) p.groups }

/-- The end of a job (R85, R249): its flag is decremented and its scheduler has room. -/
def Package.endJob (p : Package) (j : Job) : Package :=
  let p := { p with jobs := p.jobs.filter (fun x => x.id != j.id) }
  let p := match j.kind with
    | .coll _ => p.dropColl j
    | _ => p
  (p.flagDone ⟨j.team, j.lid⟩ j.flag).wake (fun st => st == Stall.jwait || st == Stall.scheduler)

/-- Whether nothing of a job is on its way any more. -/
def Package.jobQuiet (p : Package) (j : Job) : Bool :=
  j.done && j.left == 0 && j.arrivals.isEmpty && !p.writes.any (fun x => x.acc == j.id)

/-- The end of a bound grid's collective on this package: STATUS once, when the last chunk is complete; then the grid can
complete (R316). -/
def Package.endChunks (p : Package) (others : List Package) (j : Job) : Package :=
  let mine := p.jobs.filter (fun x => x.kind == .chunk && x.grid == j.grid)
  let left := ((p.grids.find? (fun g => some g.id == j.grid)).map (·.left)).getD 0
  if left != 0 || p.headerDue j || mine.any (fun x => !p.jobQuiet x) || mine.head?.map (·.id) != some j.id then p
  else if !j.posted then
    p.postStatus others { j with status := ((mine.map (·.status)).find? (fun st => st != 0 && st != 1)).getD 1 }
  else
    let p := { p with jobs := p.jobs.filter (fun x => !(x.kind == .chunk && x.grid == j.grid)) }
    match j.grid with
    | some g => ((p.dropColl j).setGrid g (fun x => { x with chunks := 0 })).gridDone g
    | none => p

/-- JOB_COMPLETE (R246, R249). An XPERM that has written waits until its step closes (R317, R468): TIDE_CLOSE clears `opened`. -/
def execJobComplete (job : Nat) (s : State) : Host.Outcome State Fault Refusal :=
  lift (fun p => match p.jobs.find? (fun j => j.id == job) with
    | none => p
    | some j =>
      if !(p.dueArrivals j).isEmpty then p.flushArrivals job
      else if !p.jobQuiet j then p
      else match j.kind with
        | .chunk => p.endChunks s.others j
        | .xperm => if j.posted then p.endJob j else if !j.opened || j.status == 6 then p.postStatus s.others j else p
        | _ => if j.posted then p.endJob j else p.postStatus s.others j) s

/-- SCHEDULER_ROOM (R247): a thread held at a full scheduler goes on. -/
def execSchedulerRoom (team : Nat) (s : State) : Host.Outcome State Fault Refusal :=
  lift (fun p =>
    if (p.jobs.filter (fun j => j.team == team && j.kind != .chunk)).length < Config.jobSlots then p.unstall (fun st => st == Stall.scheduler)
    else p) s

end Sys2Proof.Machine
end

