-- ==== Sys2Proof/Machine/Tide.lean ====
section
/-! DEFINITION. Tides (R267 to R288, R452, R478, R483): TIDE, and the events MERGE_RECORD_ACCEPT, BULK_WRITE_ACCEPT, RECORD_ACK,
PACKAGE_ARRIVE, ARRIVAL_MESSAGE, RELEASE_MESSAGE, APPLY_DONE and TIDE_CLOSE. -/

namespace Sys2Proof.Machine

/-! ### TIDE -/

/-- TIDE (R288, R452): after FENCE.pkg the thread counts as arrived; its result is written when the step closes. -/
def execTide (d : Fld) (s : State) : Host.Outcome State Fault Refusal :=
  lift (each (fun w => do
    let i ← theIssue
    if !i.last then illop
    else do
      checkFields w [dst d 2]
      let th ← thr w
      if th.trap.isSome then prot 0x72
      else do
        let tm ← teamOf w
        let wd ← worldOf w
        if wd.tide.isNone || !tm.tideBound then prot 0x80
        else do
          noRegion w
          gate w
          fenceAt w .pkg
          let lbl ← resultLabel w 0
          let r ← resolve w d
          let _ ← addAcc w (.tide r lbl)
          setThr w (fun th => { th with arrived := true }))) s

/-! ### Packets that wait -/

def Package.inboxAt (p : Package) (k : Nat) : Option Packet := p.inbox[k]?

def Package.dropInbox (p : Package) (k : Nat) : Package := { p with inbox := p.inbox.eraseIdx k }

def Package.tideOf (p : Package) (world : Nat) : Option Tide := (p.world? world).bind (·.tide)

/-! ### Acceptance of records (R131, R274 to R276) -/

/-- Records that a half of the buffer, and of the spill area, holds: 32 bytes each (R274). -/
def World.halfRecords (x : World) : Nat := x.share * 16384
def World.halfSpill (x : World) : Nat := x.spillUnits * 32768

/-- The 256 bits of a merge record (R275). -/
def MergeRec.bits (r : MergeRec) : Nat :=
  (r.step % 2 ^ 32) * 2 ^ 224 + (r.pkg % 2 ^ 12) * 2 ^ 212 + (r.team % 2 ^ 32) * 2 ^ 180 + (r.lid % 2 ^ 14) * 2 ^ 166
    + (r.depth % 16) * 2 ^ 162 + (r.seq % 2 ^ 24) * 2 ^ 138 + (r.rule % 16) * 2 ^ 134 + (r.emask % 4) * 2 ^ 132
    + (r.pa / 8 % 2 ^ 45) * 2 ^ 87 + r.lbl.toNat * 2 ^ 64 + r.val % 2 ^ 64

/-- The thread that a record comes from: threads of different grids may be equal in all that a record carries (R277). -/
def MergeRec.writer (r : MergeRec) : Nat × Nat × Nat × Nat × Nat := (r.pkg, r.team, r.depth, r.lid, r.grid)

/-- Whether a record completes a conflict in its UNIQUE element k: the records that stand there come from one thread, and it from another (R278,
R283). -/
def MergeRec.completes (r : MergeRec) (qs : List MergeRec) (k : Nat) : Bool :=
  let there := qs.filter (fun q => q.rule == 9 && q.pa == r.pa && q.emask.testBit k)
  r.rule == 9 && r.emask.testBit k
    && (match there with
      | [] => false
      | q :: more => q.writer != r.writer && more.all (fun x => x.writer == q.writer))

def MergeRec.conflicts (r : MergeRec) (qs : List MergeRec) : Bool := r.completes qs 0 || r.completes qs 1

/-- A record placed in the spill half of its parity; it can be read there (R274, R275). -/
def Package.spillWrite (p : Package) (x : World) (r : MergeRec) (n : Nat) : Package :=
  if x.spillBase = 0 then p
  else
    let pa := x.spillBase + (r.step % 2) * (x.spillUnits * 2 ^ 20) + 32 * n
    (p.poke pa 32 r.bits).setGlabel (granuleOf pa) r.lbl

/-- Units of 32 bytes that buffered bulk writes take in the share's half of the next step, or at the top of its spill half, whose records lie from its
base up. -/
def Tide.bulkUnits (t : Tide) (spill : Bool) : Nat :=
  (t.nextBulk.filter (fun b => b.spill == spill)).foldl (fun n b => n + (b.data.length + 31) / 32) 0

/-- A refused record of the current step, or of the next one, counts in LOST (R283, R287). -/
def Tide.lose (t : Tide) (next : Bool) : Tide := if next then { t with nextLost := t.nextLost + 1 } else { t with lost := t.lost + 1 }

/-- The acceptance of a record, or its refusal with OVERFLOW; answers the causes of the acknowledgement (R276, R283). -/
def Package.acceptMerge (p : Package) (x : World) (t : Tide) (r : MergeRec) : Bool × Bool × Package :=
  let next := r.step != t.step
  let recs := if next then t.nextRecs else t.recs
  let spill := if next then t.nextSpill else t.spill
  let units := fun (s : Bool) => if next then t.bulkUnits s else 0
  let refused := (true, false, p.setTide x.id (fun t => t.lose next))
  match p.labelFor r.mask with
  | none => refused
  | some (lbl, p) =>
    let r := { r with lbl, ord := recs.length + spill.length }
    let conflict := r.conflicts (recs ++ spill)
    if recs.length + units false < x.halfRecords then
      (false, conflict, p.setTide x.id (fun t =>
        if next then { t with nextRecs := t.nextRecs ++ [r] } else { t with recs := t.recs ++ [r] }))
    else if spill.length + units true < x.halfSpill then
      (false, conflict, (p.spillWrite x r spill.length).setTide x.id (fun t =>
        if next then { t with nextSpill := t.nextSpill ++ [r] } else { t with spill := t.spill ++ [r] }))
    else refused

/-- MERGE_RECORD_ACCEPT: the record in the k-th waiting packet is accepted or refused, and acknowledged. -/
def execMergeRecordAccept (k : Nat) (s : State) : Host.Outcome State Fault Refusal :=
  lift (fun p => match p.inboxAt k with
    | some { src, world, msg := .record r acc, .. } =>
      (match p.world? world with
      | none => p
      | some x =>
        match x.tide with
        | none => (p.dropInbox k).send src world (.ack acc r.step false false)
        | some t =>
          if r.step != t.step && r.step != (t.step + 1) % 2 ^ 32 then p
          else
            let (o, c, p) := (p.dropInbox k).acceptMerge x t r
            p.send src world (.ack acc r.step o c))
    | _ => p) s

/-! ### Bulk writes (R279, R280, R483) -/

/-- Bytes of a range copied onto another, as memory holds them. -/
def copyBytes (m : List Host.Cell) (frm dest n : Nat) : List Host.Cell :=
  let keep := m.filter (fun c => !(dest ≤ c.1 && c.1 < dest + n))
  let moved := (m.filter (fun c => frm ≤ c.1 && c.1 < frm + n)).map (fun c => (c.1 - frm + dest, c.2))
  putCells keep moved

/-- The live and the shadow half of a page. -/
def Shadow.liveHalf (s : Shadow) : Nat := if s.live then s.page + s.size else s.page
def Shadow.shadowHalf (s : Shadow) : Nat := if s.live then s.page else s.page + s.size

/-- The page without the writes of its step (R280, R286). -/
def Shadow.unwritten (s : Shadow) : Shadow := { s with writer := none, clash := false }

def World.shadowOf (x : World) (page size : Nat) : Shadow :=
  (x.shadows.find? (fun s => s.page == page)).getD { page, size, live := false, writer := none, clash := false }

def World.setShadow (x : World) (s : Shadow) : World :=
  { x with shadows := x.shadows.filter (fun y => y.page != s.page) ++ [s] }

/-- A bulk write enters the shadow half; the first one of a step to a page copies the live half first. Answers whether it is the first one of a
second package (R280). -/
def Package.writeShadow (p : Package) (x : World) (b : Bulk) : Bool × Package :=
  let s := x.shadowOf b.page b.size
  let p := if s.writer.isNone then { p with mem := copyBytes p.mem s.liveHalf s.shadowHalf b.size } else p
  let p := p.pokeBytes (s.shadowHalf + b.off) b.data
  let second := s.writer.any (fun k => k != b.pkg)
  let p := p.setWorld x.id (fun x => x.setShadow { s with writer := some (s.writer.getD b.pkg), clash := s.clash || second })
  (second && !s.clash, p)

/-- Whether a buffered bulk write is the first one of a second package to its page (R280). -/
def Bulk.clashes (b : Bulk) (qs : List Bulk) : Bool :=
  match qs.filter (fun q => q.page == b.page) with
  | [] => false
  | q :: more => q.pkg != b.pkg && more.all (fun y => y.pkg == q.pkg)

/-- The half of the next step that has room for a bulk write: that of the share, or else the spill half (R274, R483). -/
def World.bulkHalf (x : World) (t : Tide) (b : Bulk) : Option Bool :=
  let n := (b.data.length + 31) / 32
  if t.nextRecs.length + t.bulkUnits false + n ≤ x.halfRecords then some false
  else if t.nextSpill.length + t.bulkUnits true + n ≤ x.halfSpill then some true
  else none

/-- The acceptance of a bulk write of the current step or of the next one, or its refusal with OVERFLOW; answers the causes of the
acknowledgement (R131, R280, R283, R483). One of a step that has aborted here is discarded with the step (R286). -/
def Package.acceptBulk (p : Package) (x : World) (t : Tide) (b : Bulk) : Bool × Bool × Package :=
  let next := b.step != t.step
  let refused := (true, false, p.setTide x.id (fun t => t.lose next))
  match p.labelFor b.mask with
  | none => refused
  | some (_, p) =>
    if !next && t.state == .closing && t.status != 0 then (false, false, p)
    else if !next then
      let (c, p) := p.writeShadow x b
      (false, c, p)
    else match x.bulkHalf t b with
      | none => refused
      | some spill => (false, b.clashes t.nextBulk, p.setTide x.id (fun t => { t with nextBulk := t.nextBulk ++ [{ b with spill }] }))

/-- BULK_WRITE_ACCEPT: the bulk write in the k-th waiting packet is written, buffered for the next step, or refused, and acknowledged. -/
def execBulkWriteAccept (k : Nat) (s : State) : Host.Outcome State Fault Refusal :=
  lift (fun p => match p.inboxAt k with
    | some { src, world, msg := .bulk b job, .. } =>
      (match p.world? world with
      | none => p
      | some x =>
        match x.tide with
        | none => (p.dropInbox k).send src world (.ack job b.step false false)
        | some t =>
          if b.step != t.step && b.step != (t.step + 1) % 2 ^ 32 then p
          else
            let (o, c, p) := (p.dropInbox k).acceptBulk x t b
            p.send src world (.ack job b.step o c))
    | _ => p) s

/-! ### Acknowledgements (R273, R283) -/

def AccOp.ackOne : AccOp → AccOp
  | .pod n => .pod (n - 1)
  | .rgnc n c => .rgnc (n - 1) c
  | o => o

def Causes.add (c : Causes) (me : Nat) (overflow conflict reset : Bool) : Causes :=
  { overflow := if overflow then lowest me c.overflow else c.overflow
    conflict := if conflict then lowest me c.conflict else c.conflict
    reset := if reset then lowest me c.reset else c.reset }

/-- The causes of an acknowledgement count for the step of the write that it acknowledges (R283). -/
def Tide.blame (t : Tide) (step : Nat) (overflow conflict : Bool) : Tide :=
  if step = t.step then { t with causes := t.causes.add t.me overflow conflict false }
  else if step = (t.step + 1) % 2 ^ 32 then { t with nextCauses := t.nextCauses.add t.me overflow conflict false }
  else t

/-- An acknowledgement of a record or a bulk write of an access or of a job. -/
def Package.acked (p : Package) (acc step : Nat) (o c : Bool) (world : Nat) : Package :=
  let p := (p.setAcc acc (fun a => { a with op := a.op.ackOne })).setJob acc (fun j => { j with left := j.left - 1 })
  p.setTide world (fun t => { t with unacked := t.unacked - 1 }.blame step o c)

/-- RECORD_ACK: the k-th waiting packet acknowledges a record or a bulk write, or refuses a contribution, whose job then completes with
LABEL_FULL (R131). -/
def execRecordAck (k : Nat) (s : State) : Host.Outcome State Fault Refusal :=
  lift (fun p => match p.inboxAt k with
    | some { world, msg := .ack acc step o c, .. } => (p.dropInbox k).acked acc step o c world
    | some { msg := .refused job, .. } => (p.dropInbox k).setJob job (fun j => j.finish stLabelFull)
    | _ => p) s

/-! ### Arrival and release (R281, R282, R284) -/

/-- Whether a package meets R281 and R289 for a world. -/
def Package.mayArrive (p : Package) (world : Nat) (t : Tide) : Bool :=
  let bound := p.teams.filter (fun tm => tm.world == world && tm.tideBound && !tm.ended)
  t.unacked == 0
    && bound.all (fun tm => (tm.threads.filter Thread.live).all (·.arrived))
    && !p.jobs.any (fun j => j.world == world && (p.team? j.team).any (·.tideBound) && p.podOwed j)

/-- The combiner of a member's group: the member of lowest logical number in it (R282, R482). -/
def Tide.combiner (t : Tide) (k : Nat) : Nat :=
  ((List.range t.size).find? (fun m => t.groups.getD m 0 == t.groups.getD k 0)).getD 0

def Tide.physOf (t : Tide) (k : Nat) : Nat := t.phys.getD k 0

/-- PACKAGE_ARRIVE: the arrival message goes to the group's combiner. -/
def execPackageArrive (world : Nat) (s : State) : Host.Outcome State Fault Refusal :=
  lift (fun p => match p.tideOf world with
    | none => p
    | some t =>
      if t.state != .running || !p.mayArrive world t then p
      else
        (p.send (t.physOf (t.combiner t.me)) world (.arrive t.me false t.step t.causes)).setTide world
          (fun t => { t with state := .arrived })) s

/-- The lower of two reports of a cause. -/
def lowerOf (a b : Option Nat) : Option Nat :=
  match a, b with
  | some x, some y => some (min x y)
  | some x, none => some x
  | none, y => y

def Causes.join (a b : Causes) : Causes :=
  { overflow := lowerOf a.overflow b.overflow, conflict := lowerOf a.conflict b.conflict, reset := lowerOf a.reset b.reset }

def Causes.none : Causes := { overflow := Option.none, conflict := Option.none, reset := Option.none }

/-- Status and origin of a release (R282, R287). -/
def Causes.status (c : Causes) : Nat × Nat :=
  match c.reset, c.conflict, c.overflow with
  | some k, _, _ => (3, k)
  | Option.none, some k, _ => (2, k)
  | Option.none, Option.none, some k => (1, k)
  | _, _, _ => (0, 0)

/-- The combiners of a domain. -/
def Tide.combiners (t : Tide) : List Nat := ((List.range t.size).map t.combiner).eraseDups

/-- Whether the members are all reachable from one another, by the table of each: otherwise no tide completes (R308). -/
def Package.allReachable (p : Package) (others : List Package) (world : Nat) (t : Tide) : Bool :=
  (p :: others).all (fun q => !t.phys.contains q.phys || (match q.world? world with
    | none => true
    | some x => (List.range t.size).all (fun k => (q.peerOf x false k).1 == .reachable)))

/-- ARRIVAL_MESSAGE: the combiner, or the root, takes the k-th waiting packet into account. -/
def execArrivalMessage (k : Nat) (s : State) : Host.Outcome State Fault Refusal :=
  lift (fun p => match p.inboxAt k with
    | some { world, msg := .arrive logical fromGroup step c, .. } =>
      (match p.world? world with
      | Option.none => p
      | some x =>
        match x.tide with
        | Option.none => p.dropInbox k
        | some t =>
          if !fromGroup then
            let members := adjoin logical t.members
            let merged := t.merged.join c
            let all := (List.range t.size).all (fun m => t.groups.getD m 0 != t.groups.getD t.me 0 || members.contains m)
            let p := p.dropInbox k
            if all then
              (p.setTide world (fun t => { t with members := [], merged := Causes.none })).send (t.physOf 0) world
                (.arrive t.me true step merged)
            else p.setTide world (fun t => { t with members, merged })
          else
            let roots := adjoin logical t.roots
            let merged := t.rootMerged.join c
            if t.combiners.all (fun m => roots.contains m) then
              if merged.reset.isNone && !p.allReachable s.others world t then p
              else
                let (st, origin) := merged.status
                let p := (p.dropInbox k).setTide world (fun t =>
                  { t with roots := [], rootMerged := Causes.none, rootStep := (t.rootStep + 1) % 2 ^ 32 })
                t.combiners.foldl (fun p m => p.send (t.physOf m) world (.release true step st origin)) p
            else (p.dropInbox k).setTide world (fun t => { t with roots, rootMerged := merged }))
    | some { world, msg := .lateReset logical step, .. } =>
      (p.dropInbox k).setTide world (fun t =>
        if t.rootStep = step then { t with rootMerged := t.rootMerged.add logical false false true } else t)
    | _ => p) s

/-! ### The apply (R277, R278, R280) -/

/-- The writer rank as one number (R277). -/
def MergeRec.rank (r : MergeRec) : Nat := (((r.pkg * 2 ^ 32 + r.team) * 2 ^ 4 + r.depth) * 2 ^ 14 + r.lid) * 2 ^ 24 + r.seq

/-- The new value of an element of n bytes (R278). -/
def mergeValue (rule n old v : Nat) : Nat :=
  match rule with
  | 3 => (old + v) % 2 ^ 64
  | 4 => addF32 old v
  | 5 => minS (8 * n) old v
  | 6 => maxS (8 * n) old v
  | 7 => old ||| v
  | 8 => old &&& v
  | _ => v

/-- One record applied to the live copy of its elements. -/
def Package.applyRec (p : Package) (world : Nat) (r : MergeRec) : Package :=
  let pa := ((p.world? world).map (fun x => x.liveAt r.pa)).getD r.pa
  if elemSize r.rule = 8 then p.poke pa 8 (mergeValue r.rule 8 (p.readPa pa 8) r.val)
  else
    let half := fun (p : Package) (k : Nat) =>
      if r.emask.testBit k then p.poke (pa + 4 * k) 4 (mergeValue r.rule 4 (p.readPa (pa + 4 * k) 4) (bitsOf (32 * k + 31) (32 * k) r.val))
      else p
    half (half p 0) 1

/-- The live bits of the pages written in bulk flip (R280). -/
def World.flip (x : World) : World :=
  { x with shadows := x.shadows.map (fun s => if s.writer.isSome then { s with live := !s.live, writer := none, clash := false } else s) }

/-- Whether the apply changes a line: a record falls into it, or its page flipped. -/
def changedLine (pages : List Shadow) (rs : List MergeRec) (line : Nat) : Bool :=
  rs.any (fun r => lineOf r.pa == line) || pages.any (fun s => lineOf s.page ≤ line && line < lineOf (s.page + s.size))

/-- Deliveries to the remote readers of the lines that the apply changed, for manifests that are playing: the line as it stands at its home, tagged
with the next step (R297). -/
def Package.podDeliver (p : Package) (world step : Nat) (t : Tide) (pages : List Shadow) (rs : List MergeRec) : Package :=
  (p.mans.filter (fun m => m.world == world && m.state == .playing)).foldl (fun p m =>
    (m.entries.filter (fun e => e.kind && changedLine pages rs e.line)).foldl (fun p e =>
      let pa := p.liveOf world true (64 * e.line)
      if (p.badAt pa 64).isSome then p
      else e.cons.foldl (fun p k => p.send (t.physOf k) world (.podLine e.line ((step + 1) % 2 ^ 32) (p.readPa pa 64))) p) p) p

/-- The moves of MIGRATE pages that a tide asks for, and the counts cleared (R216); a tide that aborts too (DEDUCED: R216 names every tide, and R284
lets the migrations be made in Closing N, which an aborted step enters). -/
def Package.askMoves (p : Package) (world : Nat) : Package :=
  let mine := p.migrate.filter (fun m => m.world == world)
  { p with moves := p.moves ++ (mine.filter (fun m => 256 * 2 ^ m.mthr ≤ m.count)).map (fun m => (world, m.page, m.peer))
           migrate := p.migrate.filter (fun m => m.world != world) }

/-- The apply of a step: pages flip, then the records in ascending rank, equal ones in order of acceptance, those of rule LOW the other way
round. -/
def Package.applyTide (p : Package) (world : Nat) (t : Tide) : Package :=
  let rs := sortBy MergeRec.rank (sortBy (·.ord) (t.recs ++ t.spill))
  let pages := ((p.world? world).map (fun x => x.shadows.filter (fun s => s.writer.isSome))).getD []
  let p := p.setWorld world World.flip
  let p := (rs.filter (fun r => r.rule != 2)).foldl (fun p r => p.applyRec world r) p
  let p := (rs.filter (fun r => r.rule == 2)).reverse.foldl (fun p r => p.applyRec world r) p
  (p.podDeliver world t.step t pages rs).askMoves world

/-- The package drops every copy of the world's pod lines other than the copy at their home, whatever its lease (R271, R479); a copy delivered for
the next step stays (DEDUCED from R297: the apply that drops it comes after the step that it serves has begun). -/
def Package.dropPods (p : Package) (world step : Nat) : Package :=
  let gone := fun (c : Copy) => c.pod && (c.world == world || c.world == 63)
  { p with lines := p.lines.map (fun l => { l with copies := l.copies.filter (fun c => !gone c) })
           pods := p.pods.filter (fun c => !(c.world == world && c.step != (step + 1) % 2 ^ 32)) }

/-- RELEASE_MESSAGE: a combiner passes the release on; a package applies or discards its step (R284, R286). -/
def execReleaseMessage (k : Nat) (s : State) : Host.Outcome State Fault Refusal :=
  lift (fun p => match p.inboxAt k with
    | some { world, msg := .release toGroup step status origin, .. } =>
      (match p.tideOf world with
      | none => p.dropInbox k
      | some t =>
        if toGroup then
          let mine := (List.range t.size).filter (fun m => t.groups.getD m 0 == t.groups.getD t.me 0)
          mine.foldl (fun p m => p.send (t.physOf m) world (.release false step status origin)) (p.dropInbox k)
        else if t.state != .arrived || step != t.step then p
        else
          let p := p.dropInbox k
          if status = 0 then
            (p.applyTide world t).setTide world (fun t =>
              { t with state := .applying, status, origin, lost := 0, recs := [], spill := [] })
          else
            let p := (p.askMoves world).dropPods world t.step
            let p := p.setWorld world (fun x => { x with shadows := x.shadows.map Shadow.unwritten })
            p.setTide world (fun t =>
              { t with state := .closing, status, origin, lost := t.lost + t.recs.length + t.spill.length, recs := [], spill := [] }))
    | _ => p) s

/-- APPLY_DONE: the package drops the copies of the world's pod lines that it holds away from their home (R271, R479). -/
def execApplyDone (world : Nat) (s : State) : Host.Outcome State Fault Refusal :=
  lift (fun p => match p.tideOf world with
    | none => p
    | some t =>
      if t.state != .applying then p
      else (p.dropPods world t.step).setTide world (fun t => { t with state := .closing })) s

/-! ### The close (R284, R287) -/

/-- The step-result word (R287). -/
def Tide.result (t : Tide) : Nat :=
  (t.step % 2 ^ 32) * 2 ^ 32 + (t.status % 4) * 2 ^ 30 + (t.origin % 2 ^ 12) * 2 ^ 18
    + (if t.status = 0 then 0 else min t.lost 262143)

/-- Step-N records that a package which reset its world sent on, and that were accepted after the release of an abort, are discarded too (R286, R287). -/
def Tide.discardLate (t : Tide) : Tide := if t.status = 0 then t else { t with lost := t.lost + t.recs.length + t.spill.length, recs := [], spill := [] }

/-- The threads that waited in TIDE get the result word with Join(Ctx(t), g), and go on. -/
def Package.giveResults (p : Package) (world word : Nat) : Package :=
  let mine := fun (a : Acc) => (p.team? a.team).any (fun tm => tm.world == world)
    && (match a.op with | .tide _ _ => true | _ => false)
  let p' := (p.accs.filter mine).foldl (fun (p : Package) a =>
    match a.op with
    | .tide d lbl =>
      let p := (p.putVal ⟨a.team, a.lid⟩ d 2 word lbl).flagDone ⟨a.team, a.lid⟩ a.flag
      p.setThread ⟨a.team, a.lid⟩ (fun th => { th with arrived := false })
    | _ => p) p
  { p' with accs := p'.accs.filter (fun a => !mine a) }

/-- The bulk writes of the next step that waited for the apply (R483). -/
def Package.lateBulk (p : Package) (world : Nat) : List Bulk → Package
  | [] => p
  | b :: bs =>
    match p.world? world with
    | none => p
    | some x => (p.writeShadow x b).2.lateBulk world bs

/-- An XPERM whose latest writes belong to the step that closes may complete (R317, R468). -/
def Job.closed (aborted : Bool) (j : Job) : Job :=
  let j := if aborted then j.mark 8 else j
  { j with opened := false }

/-- A world reset reports itself to the tide (R284, R325): at once in Running N, and in Arrived N with a late RESET. -/
def Package.sendReset (p : Package) (world : Nat) : Package :=
  match p.tideOf world with
  | none => p
  | some t =>
    match t.state with
    | .running =>
      (p.send (t.physOf (t.combiner t.me)) world (.arrive t.me false t.step (t.causes.add t.me false false true))).setTide world
        (fun t => { t with state := .arrived })
    | .arrived => p.send (t.physOf 0) world (.lateReset t.me t.step)
    | _ => p

/-- Whether a package of the domain still moves a MIGRATE page for a step, or will ask for a move when its release comes (R216): the world's teams do
not resume before. -/
def Package.movesDue (p : Package) (world step : Nat) : Bool :=
  p.moves.any (fun m => m.1 == world)
    || (p.tideOf world).any (fun t => t.state == .arrived && t.step == step
      && p.migrate.any (fun m => m.world == world && decide (256 * 2 ^ m.mthr ≤ m.count)))

/-- TIDE_CLOSE: result words, STEP, the records of the next step, and the XPERMs of the step (R284, R317), once the moves of the step are made
(R216). An ABORT_RESET dissolves the domain (R286). -/
def execTideClose (world : Nat) (s : State) : Host.Outcome State Fault Refusal :=
  lift (fun p => match p.tideOf world with
    | none => p
    | some t =>
      if t.state != .closing || (p :: s.others).any (fun q => q.movesDue world t.step) then p
      else
        let p := p.dropPods world t.step
        let t := t.discardLate
        let p := p.giveResults world t.result
        let ends := fun (j : Job) => j.world == world && j.kind == JobKind.xperm && j.step == t.step && j.opened
        let p := { p with jobs := mapIf ends (Job.closed (t.status != 0)) p.jobs }
        if t.status = 3 then p.setWorld world (fun x => { x with tide := none, shadows := x.shadows.map Shadow.unwritten })
        else
          let p := p.setTide world (fun t =>
            { t with step := (t.step + 1) % 2 ^ 32, state := .running, causes := t.nextCauses, nextCauses := Causes.none
                     lost := t.nextLost, nextLost := 0, recs := t.nextRecs, spill := t.nextSpill, nextRecs := [], nextSpill := []
                     nextBulk := [] })
          let p := p.lateBulk world t.nextBulk
          if (p.world? world).any (·.resetting) then p.sendReset world else p) s

end Sys2Proof.Machine
end

