-- ==== Sys2Proof/Machine/Manifest.lean ====
section
/-! DEFINITION. Manifests (R290 to R304, R427 to R429): REC and RECQ, what the homes record and count, and the event
DEPARTURE_WINDOW_CLEAR. -/

namespace Sys2Proof.Machine

/-! ### Manifests -/

/-- The 16 bytes of an entry as the carve-out holds them (R293). -/
def ManEntry.bits (phys : Nat) (e : ManEntry) : Nat :=
  let cons := if e.kind then e.cons.headD 0 % 2 ^ 12 else e.cons.foldl (fun n c => n ||| 2 ^ (c % 40)) 0
  cons * 2 ^ 88 + (if e.kind then 0 else e.prod % 64) * 2 ^ 80 + (phys % 16) * 2 ^ 70 + (e.line % 2 ^ 42) * 2 ^ 6 + e.amb.toNat * 2 ^ 2
    + e.kind.toNat * 2 + 1

/-- The entries that a die's carve-out holds, as system software reads them there (R293, R294). -/
def Package.carved (p : Package) (die : Nat) : List Nat :=
  p.mans.flatMap (fun m => (m.entries.filter (fun e => Config.homeDie e.line == die)).map (ManEntry.bits m.phys))

/-- REC changes a manifest's state in a cycle in which nothing has reached a home before it: what reaches one later in the cycle is treated under
the new state (R300). -/
def recTime : PM Unit := do
  let p ← get
  await (p.homeAt != p.now + 1) .other

/-- The faults of REC and RECQ up to the grant of the manifest (R290). -/
def manOf (w : Who) (m : BitVec 4) : PM Manifest := do
  if !w.isPilot then prot 0x93
  else do
    let wd ← worldOf w
    let p ← get
    match wd.manifests.find? (fun e => e.1 == m.toNat) with
    | none => prot 0x90
    | some e => pure (p.man e.2)

/-- The copies and the decided deliveries of a manifest no longer count for it (R299, R428). -/
def Package.uncount (p : Package) (phys : Nat) : Package :=
  let plain := fun (c : Copy) => if c.delivered == some phys then { c with delivered := none } else c
  { p with lines := p.lines.map (fun l => { l with copies := l.copies.map plain })
           dels := mapIf (fun d => d.man == some phys) (fun d => { d with man := none }) p.dels }

/-- Frames of 64 KiB that a page of the range has on this package; a SHADOW page has those of both halves, and a page of an absent peer has
none. -/
def framesOf (p : Package) (x : World) (t : Xlat) (va : Nat) : List Nat :=
  let (st, home) := p.peerOf x t.pod t.peer
  let here := t.mode == 0 || (st != .absent && home == p.phys)
  if !here then []
  else
    let f := t.pa va / 65536
    if t.mode == 4 then [f, f + t.size / 65536] else [f]

/-- The pages of a range, each translated as a load would (R291): the number of each 64 KiB page with its mapping. -/
def rangeMaps (w : Who) (va : Nat) (vm : Mask) : Nat → Nat → PM (List (Nat × Xlat))
  | _, 0 => pure []
  | k, n + 1 => do
    let a := (va + 65536 * k) % 2 ^ 64
    if canonical a then pure () else prot 0x30 a vm
    let x ← translate w a vm .load
    let rest ← rangeMaps w va vm (k + 1) n
    pure ((a / 65536, x) :: rest)

/-- An instruction whose PAGE is handled under R258 in an open region too: it is no load of the region (R224, R291, R428). -/
def plainPage {α : Type} (m : PM α) : PM α := fun p => match m p with
  | .error (.page va vm _ q) => .error (.page va vm true q)
  | r => r

/-- The frames of mapped pages, each with the number of its page. -/
def mapFrames (p : Package) (x : World) (maps : List (Nat × Xlat)) : List (Nat × Nat) :=
  maps.flatMap (fun m => (framesOf p x m.2 (65536 * m.1)).map (fun f => (m.1, f)))

/-- REC.begin (R291, R300, R428). -/
def execRecBegin (m : BitVec 4) (a b : Fld) (lit : Option Word) (s : State) : Host.Outcome State Fault Refusal :=
  lift (each (fun w => do
    checkFields w [src a 2, src b 1]
    let man ← manOf w m
    let (va, la) ← readField w 2 a lit
    let (n, _) ← readField w 1 b lit
    let p ← get
    if !canonical va then prot 0x30 va la
    else if va % 65536 != 0 || n == 0 || 16384 < n then trap .align va 0 0 la
    else if !p.carveOut then prot 0x94 va la
    else do
      let maps ← plainPage (rangeMaps w va la 0 n)
      let tm ← teamOf w
      let wd ← worldOf w
      let p ← get
      let fs := mapFrames p wd maps
      if p.mans.any (fun x => x.phys != man.phys && x.state != .empty && fs.any (fun f => x.holds f.2)) then
        prot 0x92 va la
      else do
        recTime
        modify (fun p =>
          let p := p.uncount man.phys
          let lines := p.lines.map (fun l => if fs.any (fun f => f.2 == l.addr / 1024) then { l with writer := none } else l)
          { p with lines }.setMan { Manifest.reset man.phys with world := tm.world, state := .recording, space := tm.space, frames := fs, maps := maps }))) s

/-- REC.end (R300). -/
def execRecEnd (m : BitVec 4) (s : State) : Host.Outcome State Fault Refusal :=
  lift (each (fun w => do
    let man ← manOf w m
    match man.state with
    | .recording | .playing => do
      recTime
      modify (fun p => p.setMan { man with state := .recorded })
    | _ => prot 0x91)) s

/-- REC.play (R298, R300). A counter that stands above a new threshold suspends the manifest at once. -/
def execRecPlay (m : BitVec 4) (b : Fld) (lit : Option Word) (s : State) : Host.Outcome State Fault Refusal :=
  lift (each (fun w => do
    checkFields w [src b 1]
    let man ← manOf w m
    let (v, _) ← readField w 1 b lit
    let set_ := fun (x : Manifest) => { x with mth := bitsOf 7 0 v, uth := bitsOf 15 8 v }
    match man.state with
    | .recorded | .suspended => do
      recTime
      modify (fun p => p.setMan (set_ { man with state := .playing, cause := 0, misses := 0, unread := 0, deliv := 0, hits := 0 }))
    | .playing => do
      recTime
      modify (fun p => p.setMan ((set_ man).judge p.now))
    | _ => prot 0x91)) s

/-- The entries of a manifest discarded and its range unmarked; OVF, CAUSE and the counts stand until REC.begin clears them (R300). -/
def Package.dropMan (p : Package) (man : Manifest) : Package :=
  (p.uncount man.phys).setMan { man with state := .empty, frames := [], maps := [], entries := [] }

/-- REC.drop (R300). -/
def execRecDrop (m : BitVec 4) (s : State) : Host.Outcome State Fault Refusal :=
  lift (each (fun w => do
    let man ← manOf w m
    if man.state == .empty then pure ()
    else do
      recTime
      modify (fun p => p.dropMan man))) s

def ManState.code : ManState → Nat
  | .empty => 0 | .recording => 1 | .recorded => 2 | .playing => 3 | .suspended => 4

/-- The four words of R302. -/
def Manifest.status (m : Manifest) : Nat :=
  (m.state.code * 2 ^ 29 + m.cause * 2 ^ 27 + m.ovf.toNat * 2 ^ 26 + min m.entries.length (2 ^ 20 - 1))
    + 2 ^ 32 * min m.deliv (2 ^ 32 - 1) + 2 ^ 64 * min m.hits (2 ^ 32 - 1)
    + 2 ^ 96 * (min m.misses 65535 * 65536 + min m.unread 65535)

/-- RECQ (R302, R429). -/
def execRecq (d : Fld) (m : BitVec 4) (s : State) : Host.Outcome State Fault Refusal :=
  lift (each (fun w => do
    checkFields w [dst d 4]
    let man ← manOf w m
    let lbl ← resultLabel w 0
    out w d 4 man.status lbl)) s

/-! ### Recording and counting (R292, R296, R298) -/

/-- A load of a world hits a delivered copy (R296): one hit, whatever the manifest's state. A manifest counts only the accesses of its own
world (R290). -/
def Package.copyHit (p : Package) (world line cluster : Nat) : Package :=
  let l := p.line line
  match l.copies.find? (fun c => c.cluster == cluster) with
  | some c =>
    (match c.delivered.filter (fun m => (p.man m).world == world) with
    | some m =>
      let p := p.setLine { l with copies := mapIf (fun c => c.cluster == cluster) (fun c => { c with read := true }) l.copies }
      let x := p.man m
      p.setMan { x with hits := x.hits + 1 }
    | none => p)
  | none => p

/-- A store of a producer cluster that receives its WCT on the line of an unambiguous entry decides a delivery, and the home raises
MAXL to the end of its lease (R295). -/
def Package.planDelivery (p : Package) (x : Write) (wct : Nat) : Package :=
  if x.kind != .store then p
  else match p.manAt x.world x.line with
    | none => p
    | some m =>
      if m.state != .playing then p
      else match m.entries.find? (fun e => e.line == x.line && !e.kind && !e.amb && e.prod == x.cluster) with
        | none => p
        | some e =>
          let (id, p) := p.fresh
          let l := p.lineIn x.line
          let p := p.setLine { l with maxl := max l.maxl (wct + Config.lease) }
          { p with dels := p.dels ++ [{ id, man := some m.phys, line := x.line, wct, dests := e.cons, sent := false }] }

/-- DEPARTURE_WINDOW_CLEAR: the departure counters clear at every multiple of 16,384 in package time; those of a SUSPENDED manifest
stand (R298, R302). -/
def execDepartureWindowClear (s : State) : Host.Outcome State Fault Refusal :=
  lift (fun p =>
    let clear := fun (m : Manifest) => { m with misses := 0, unread := 0 }
    if p.now % Config.departureWindow != 0 then p
    else { p with mans := mapIf (fun m => m.state != .suspended) clear p.mans }) s

end Sys2Proof.Machine
end

