-- ==== Sys2Proof/Machine/Special.lean ====
section
/-! DEFINITION. FSF, the special functions (R389, R390): each result is the exact real value rounded once. Rational and
algebraic results are computed exactly with a sticky bit; the transcendental ones in fixed point with far more bits than
any f32, h16 or b16 argument can need (DEDUCED: R390 asks for correct rounding), and they are inexact but for the listed
cases. -/

namespace Sys2Proof.Machine

/-- Integer square root by bits. -/
def isqrtGo (n : Nat) : Nat → Nat → Nat
  | 0, r => r
  | k + 1, r => let r' := r + 2 ^ k; isqrtGo n k (if r' * r' ≤ n then r' else r)
def isqrt (n : Nat) : Nat := isqrtGo n (Nat.log2 n / 2 + 1) 0

/-- A magnitude q · 2^e known up to something below one unit: q doubled, odd when inexact. -/
def sticky (q : Nat) (exact : Bool) : Nat := 2 * q + (if exact then 0 else 1)

/-- 1 / (m · 2^e). -/
def rcpRound (F : Fmt) (rm : RM) (neg : Bool) (m : Nat) (e : Int) : Nat × Exc :=
  let k := 2 * Nat.log2 m + 130
  F.round rm neg (sticky (2 ^ k / m) (2 ^ k % m == 0)) (-e - k - 1)

/-- √(m · 2^e). -/
def sqrtRound (F : Fmt) (rm : RM) (m : Nat) (e : Int) : Nat × Exc :=
  let (m, e) := if e % 2 = 0 then (m, e) else (2 * m, e - 1)
  let n := m * 2 ^ 140
  let r := isqrt n
  F.round rm false (sticky r (r * r == n)) (e / 2 - 70 - 1)

/-- 1 / √(m · 2^e). -/
def rsqRound (F : Fmt) (rm : RM) (m : Nat) (e : Int) : Nat × Exc :=
  let (m, e) := if e % 2 = 0 then (m, e) else (2 * m, e - 1)
  let k := 2 * (Nat.log2 m + 100)
  let n := 2 ^ k / m
  let r := isqrt n
  F.round rm false (sticky r (2 ^ k % m == 0 && r * r == n)) (-(e / 2) - (k / 2 : Nat) - 1)

/-! Fixed point: an integer v stands for v / 2^fxBits. -/

def fxBits : Nat := 960
def fxOne : Int := 2 ^ fxBits

/-- Σ (−1)^k t^(2k+1) / (2k+1) (arctangent) or without signs (hyperbolic), from the power and the square of t. -/
def atanSeries (hyper : Bool) (t2 : Int) : Nat → Nat → Int → Int → Int
  | 0, _, _, acc => acc
  | n + 1, k, pw, acc =>
    atanSeries hyper t2 n (k + 1) (pw * t2 / fxOne)
      (acc + (if hyper || k % 2 == 0 then pw / (2 * k + 1 : Nat) else -(pw / (2 * k + 1 : Nat))))

def atanFx (t : Int) : Int := atanSeries false (t * t / fxOne) 220 0 t 0
def atanhFx (t : Int) : Int := atanSeries true (t * t / fxOne) 320 0 t 0

/-- π/2 by Machin's formula, and ln 2. -/
def halfPiFx : Int := 8 * atanFx (fxOne / 5) - 2 * atanFx (fxOne / 239)
def ln2Fx : Int := 2 * atanhFx (fxOne / 3)

/-- Σ over k of x^(j + 2k) / (j + 2k)! with alternating signs: sine for j = 1, cosine for j = 0. -/
def trigSeries (x2 : Int) : Nat → Nat → Int → Int → Int
  | 0, _, _, acc => acc
  | n + 1, j, term, acc => trigSeries x2 n (j + 2) (-(term * x2 / fxOne) / (((j + 1) * (j + 2) : Nat) : Int)) (acc + term)

def expSeries (x : Int) : Nat → Nat → Int → Int → Int
  | 0, _, _, acc => acc
  | n + 1, k, term, acc => expSeries x n (k + 1) (term * x / fxOne / ((k + 1 : Nat) : Int)) (acc + term)

/-- m · 2^e in fixed point. -/
def toFx (neg : Bool) (m : Nat) (e : Int) : Int :=
  let s := e + fxBits
  let v : Int := if 0 ≤ s then (m : Int) * 2 ^ s.toNat else (m : Int) / 2 ^ (-s).toNat
  if neg then -v else v

/-- An irrational value in fixed point, rounded. -/
def fxRound (F : Fmt) (rm : RM) (v : Int) (scale : Int) : Nat × Exc :=
  F.round rm (decide (v < 0)) (sticky v.natAbs false) (scale - fxBits - 1)

/-- sin x, or cos x, for a finite non-zero x. -/
def trigRound (F : Fmt) (rm : RM) (cosine : Bool) (neg : Bool) (m : Nat) (e : Int) : Nat × Exc :=
  let x := toFx neg m e
  let h := halfPiFx
  let k := (2 * x + h) / (2 * h)
  let r := x - k * h
  let r2 := r * r / fxOne
  let s := trigSeries r2 90 1 r 0
  let c := trigSeries r2 90 0 fxOne 0
  let v := match ((if cosine then k + 1 else k) % 4).toNat with
    | 0 => s
    | 1 => c
    | 2 => -s
    | _ => -c
  fxRound F rm v 0

/-- 2^x for a finite non-zero x. -/
def ex2Round (F : Fmt) (rm : RM) (neg : Bool) (m : Nat) (e : Int) : Nat × Exc :=
  let top := e + (Nat.log2 m : Nat)
  if 12 ≤ top then (if neg then F.round rm false 1 (-100000) else F.round rm false 1 100000)
  else
    let x := toFx neg m e
    let n := x / fxOne
    let f := x - n * fxOne
    if f = 0 then F.round rm false 1 n
    else fxRound F rm (expSeries (f * ln2Fx / fxOne) 160 0 fxOne 0) n

/-- log₂ of a positive finite x. -/
def lg2Round (F : Fmt) (rm : RM) (m : Nat) (e : Int) : Nat × Exc :=
  let l := Nat.log2 m
  let k : Int := e + (l : Nat)
  if m = 2 ^ l then F.ofInt rm k
  else
    let y : Int := (m : Int) * 2 ^ fxBits / 2 ^ l
    let z := (y - fxOne) * fxOne / (y + fxOne)
    fxRound F rm (k * fxOne + 2 * atanhFx z * fxOne / ln2Fx) 0

/-- The special cases and the rounded value of a function (R390). -/
def fsfVal (fn : SFn) (F : Fmt) (rm : RM) (a : Nat) : Nat × Exc :=
  let inf := fun (s : Bool) => F.inf + (if s then F.signBit else 0)
  let nul := fun (s : Bool) => if s then F.signBit else 0
  match F.decode a with
  | .nan s => (F.nan, nvIf s)
  | .inf s =>
    (match fn with
     | .rcp => (nul s, 0)
     | .rsq => if s then (F.nan, excNV) else (0, 0)
     | .sqrt | .lg2 => if s then (F.nan, excNV) else (F.inf, 0)
     | .ex2 => if s then (0, 0) else (F.inf, 0)
     | .sin | .cos => (F.nan, excNV))
  | .num s m e =>
    if m = 0 then
      (match fn with
       | .rcp => (inf s, excDZ)
       | .rsq => (inf s, 0)
       | .sqrt | .sin => (nul s, 0)
       | .lg2 => (inf true, excDZ)
       | .ex2 | .cos => F.ofInt rm 1)
    else
      (match fn with
       | .rcp => rcpRound F rm s m e
       | .rsq => if s then (F.nan, excNV) else rsqRound F rm m e
       | .sqrt => if s then (F.nan, excNV) else sqrtRound F rm m e
       | .ex2 => ex2Round F rm s m e
       | .lg2 => if s then (F.nan, excNV) else lg2Round F rm m e
       | .sin => trigRound F rm false s m e
       | .cos => trigRound F rm true s m e)

/-- vd ← Round(f(x), T), long-latency (R389, R390). -/
def execFsf (fn : SFn) (o : Un FTy) (s : State) : Host.Outcome State Fault Refusal :=
  lift (each (fun w => do
    let n := o.ty.regs
    checkFields w (dst o.d n :: srcB o.b n)
    let (b, lb) ← readB w n o.b o.lit (immOf o.ty) .float
    let lbl ← resultLabel w lb
    let rm ← rmode w
    let (r, x) := buildOf o.ty (fun k => fsfVal fn (fmtOf o.ty) rm (elemOf o.ty b k))
    lateFp w x lbl
    lateResult w o.d n r lbl (some x))) s

end Sys2Proof.Machine
end

