-- ==== Sys2Proof/Machine/Home.lean ====
section
/-! DEFINITION. What homes and cluster caches do with outstanding accesses: the events LONG_LATENCY_COMPLETE, STORE_ARRIVE_HOME,
WCT_REACHED, FILL_SERVE, LEASE_END, KEY_SWEEP_LINE, UNCORRECTABLE_ARRIVE, DELIVERY_SEND and DELIVERY_ENTER (R71, R101, R151, R210,
R216, R227 to R243, R260, R270, R271, R292 to R304). -/

namespace Sys2Proof.Machine

/-! ### The value of a load -/

def Package.worldId (p : Package) (team : Nat) : Nat := ((p.team? team).map (·.world)).getD 0

/-- The bytes and the owners that a load gets here now (R111, R114, R231): a byte that the region store buffer gives is not read,
and the granules of such bytes alone are not either (R221). -/
def Package.serveLoad (p : Package) (a : Acc) (o : LoadOp) (cc : Bool) : LStage :=
  let pod := podMode o.mode
  let pa := p.liveOf (p.worldId a.team) pod o.pa
  let ws := p.seen a cc
  let ovl := fun (k : Nat) => (o.ovl.find? (fun (c : Nat × Byte) => c.1 == k)).map (fun (c : Nat × Byte) => c.2)
  let gs := (((List.range o.n).filter (fun k => (ovl k).isNone)).map (fun k => (pa + k) / 32)).eraseDups
  if gs.any (fun g => p.bad.contains g) then .bad 1
  else if gs.any (fun g => !p.live (p.labelUnder ws g).toNat) then .bad 2
  else
    let bytes := (List.range o.n).map (fun k => (ovl k).getD (p.byteUnder ws (pa + k)))
    .served (ofBytes bytes) (if pod then o.mask else gs.foldl (fun m g => m ||| p.maskOf (p.labelUnder ws g)) o.mask)

def AccOp.withStage (st : LStage) : AccOp → AccOp
  | .load o => .load { o with stage := st }
  | x => x

def Package.setStage (p : Package) (k : Nat) (st : LStage) : Package := p.setAcc k (fun a => { a with op := a.op.withStage st })

/-- An acquire load that is performed writes its scope record (R240, R241). -/
def Package.acquireAt (p : Package) (a : Acc) (o : LoadOp) : Package :=
  match o.scope, p.team? a.team with
  | some s, some tm => p.recordScope tm.world o.pa tm.tag s
  | _, _ => p

/-- The load performed: its value, and its scope record. -/
def Package.perform (p : Package) (a : Acc) (o : LoadOp) (cc : Bool) : Package :=
  (p.acquireAt a o).setStage a.id (p.serveLoad a o cc)

/-- The tag of a line in a cluster cache (R197): the world whose frame the line lies in, which is the commons for a commons frame (DEDUCED: the line
is ciphertext under that world's key, R209). -/
def Package.tagOf (p : Package) (line : Nat) : Nat := p.ownerOf (64 * line)

/-- Whether a pod load of this package is held at its home because the package applies a step (R270). -/
def Package.podHeld (p : Package) (world : Nat) (o : LoadOp) : Bool :=
  podMode o.mode && (p.tideOf world).any (fun t => !t.serves (o.step.getD t.step))

/-- Whether a cluster holds a copy that may serve a load now: within its lease, or a POD-CACHED one (R229, R271). -/
def Package.copyLive (p : Package) (line cluster : Nat) : Bool :=
  p.hasCache cluster
    && (p.line line).copies.any (fun c => c.cluster == cluster && c.world == p.tagOf line && (c.free || decide (p.now ≤ c.lease)))

/-! ### Completion (R101) -/

/-- The labels of a late result: that of the result, and, for a floating-point instruction, the FLAGS label joined with it, whether or not an exception
is raised (R149, R151); none where the table has no free entry for one of them. -/
def Package.lateLabels (p : Package) (w : Who) (m : Mask) (fp : Option Nat) : Option (Lbl × Lbl × Package) :=
  match p.labelFor m with
  | none => none
  | some (l, p) =>
    match fp, p.thread? w with
    | some _, some th => (p.labelFor (p.maskOf th.flagsLbl ||| m)).map (fun x => (l, x.1, x.2))
    | _, _ => some (l, 0, p)

/-- Writes the result of a long-latency instruction (R113, R151). FLAGS take the exceptions, and their label the result's. Without a free label
entry nothing is written, and the thread traps PROT 3 at the instruction (R110, R257). -/
def Package.completeWith (p : Package) (a : Acc) (dst : Dst) (regs val : Nat) (m : Mask) (fp : Option Nat) : Package :=
  let w : Who := ⟨a.team, a.lid⟩
  let q := { p with accs := p.accs.filter (fun x => x.id != a.id) }
  match q.lateLabels w m fp with
  | none =>
    ((q.flagDone w a.flag).interrupt .labelFull 0 0).raiseTrap w
      { cause := .prot, pc := a.pc, va := 0, vmask := 0, lbl := 0, aux := 3, resume := { hdr := a.hdr, mid := some a.pc }, skip := some a.resume }
  | some (l, fl, q) =>
    let q := q.putVal w dst regs val l
    let q := match fp with
      | none => q
      | some x => q.setThread w (fun th => { th with fpctl := th.fpctl ||| BitVec.ofNat 32 (x * 8), flagsLbl := fl })
    (q.flagDone w a.flag).wake (fun st => st == Stall.memory || st == Stall.other)

/-- The end of an instruction without result; a killed thread has no flag to count. -/
def Package.completeBare (p : Package) (a : Acc) : Package :=
  let p := { p with accs := p.accs.filter (fun x => x.id != a.id) }
  (if a.killed then p else p.flagDone ⟨a.team, a.lid⟩ a.flag).wake (fun st => st == Stall.memory || st == Stall.other)

/-- Whether every write of an access has its WCT. -/
def Package.allArrived (p : Package) (acc : Nat) : Bool := !p.writes.any (fun x => x.acc == acc && x.wct.isNone)

/-- Whether RGNC still waits (R242): its region is not released, or its closing atomic has not completed. -/
def Package.closingPending (p : Package) (a : Acc) (closing : Option Nat) : Bool :=
  (p.thread? ⟨a.team, a.lid⟩).any (fun th => th.region.any (fun r => r.release.any (fun x => x.acc == a.id)))
    || closing.any (fun k => p.accs.any (fun b => b.id == k))

/-- LONG_LATENCY_COMPLETE (R101): a load that its cluster cache, a home or a delivery has served, a result that is ready, or an
instruction without result whose writes and records are accepted. -/
def execLongLatencyComplete (acc : Nat) (s : State) : Host.Outcome State Fault Refusal :=
  lift (fun p => match p.acc? acc with
    | none => p
    | some a =>
      match a.op with
      | .load o =>
        (match o.stage with
        | .served v m => p.completeWith a o.dst o.regs (if o.signed then wrapInt 32 (intBits (8 * o.n) v) else v) m none
        | .sent =>
          if o.peer.isNone && o.policy == .cc && p.copyLive (lineOf o.pa) a.cluster && !p.podHeld (p.worldId a.team) o
              && !p.earlierRead ⟨a.team, a.lid⟩ a.id o.pa o.n && !p.torn a o.pa o.n true then
            (p.copyHit (p.worldId a.team) (lineOf o.pa) a.cluster).perform a o true
          else p
        | _ => p)
      | .result r => if r.ready ≤ p.now then p.completeWith a r.dst r.regs r.val (p.maskOf r.lbl) r.fp else p
      | .store => if p.allArrived a.id then p.completeBare a else p
      | .pod left => if left = 0 then p.completeBare a else p
      | .rgnc left c => if left = 0 && p.allArrived a.id && !p.closingPending a c then p.completeBare a else p
      | .pop _ _ _ _ => p
      | .tide _ _ => p) s

/-! ### Writes that arrive (R230) -/

def Write.who (x : Write) : Who := ⟨x.team, x.lid⟩

/-- Whether two writes overlap in bytes. -/
def Write.meets (x y : Write) : Bool :=
  x.cells.any (fun c => y.hasByte c.1) || y.cells.any (fun c => x.hasByte c.1) || x.disc.any (fun d => y.disc.any (fun e => d.1 == e.1))

/-- Whether an unserved load or atomic of the thread, earlier than the write, reads a byte of it (R233). -/
def Package.readsFirst (p : Package) (x : Write) : Bool :=
  x.kind != .engine && (match x.disc with
    | some d => p.earlierRead x.who x.id d.1 65536
    | none => x.cells.any (fun c => p.earlierRead x.who x.id c.1 1))

/-- Whether a write may arrive at its home now: no earlier entry of its region to its line is on its way
(R242), and no earlier write of its thread or of its cluster cache, and no earlier read of its thread, to the same bytes is (R231, R233). -/
def Package.mayArriveHome (p : Package) (x : Write) : Bool :=
  x.wct.isNone
    && !p.writes.any (fun y => decide (y.id < x.id) && y.wct.isNone && y.acc == x.acc && y.line == x.line && x.kind == .store && y.kind == .store)
    && !p.writes.any (fun y => decide (y.id < x.id) && y.wct.isNone && y.meets x
        && ((x.kind != .engine && y.of x.who) || (y.cluster == x.cluster && (x.cc || y.cc)) || (x.kind == .engine && y.acc == x.acc)))
    && !p.readsFirst x

/-- The WCT that a write receives now (R230); one of a DISC is later than the leases of every line of its page. -/
def Package.wctOf (p : Package) (x : Write) : Nat :=
  match x.disc with
  | none => p.nextWct x.line
  | some _ =>
    let ls := (p.lines.filter (fun l => x.covers l.addr)).map (fun l => p.nextWct l.addr)
    let hs := p.horizons.map (fun (h : Nat × Nat) => h.2 + 1)
    let ws := (p.writes.filter (fun y => y.line / 1024 == x.line / 1024)).map (fun y => y.wct.getD 0 + 1)
    (ls ++ hs ++ ws).foldl max (p.nextWct x.line)

/-- A write arrives at its home and receives its WCT. -/
def Package.arrive (p : Package) (x : Write) : Package :=
  let wct := p.wctOf x
  let p := { p with writes := mapIf (fun y => y.id == x.id) (fun y => { y with wct := some wct, scope := none }) p.writes }
  let p := p.noteWct x wct
  let p := match x.scope, p.team? x.team with
    | some s, some tm => p.recordScope tm.world (((x.cells.head?).map (fun (c : Host.Cell) => c.1)).getD (64 * x.line)) tm.tag s
    | _, _ => p
  let p := p.storeCopy x
  (p.planDelivery x wct).wake (fun st => st == Stall.memory)

/-- STORE_ARRIVE_HOME (R228, R230, R295): a write of the access, chosen among those that may arrive, receives its WCT. -/
def execStoreArriveHome (acc : Nat) (s : State) : Host.Outcome State Fault Refusal :=
  lift (fun p =>
    match p.writes.filter (fun x => x.acc == acc && p.mayArriveHome x) with
    | x :: xs =>
      let (n, p) := p.pick (xs.length + 1)
      p.arrive ((x :: xs).getD n x)
    | [] => p) s

/-! ### WCT_REACHED -/

/-- The epoch with which a write is stored (R210): a write of the old epoch ahead of the sweep of the frame's owner keeps it. `World.epoch` is the epoch
of the stores encrypted now. -/
def Package.storedEpoch (p : Package) (x : Write) : Nat :=
  match p.world? (p.ownerOf (64 * x.line)) with
  | none => x.key
  | some w =>
    match w.sweep with
    | some ptr => if x.key = w.epoch || x.line < ptr then w.epoch else x.key
    | none => w.epoch

/-- Whether a write covers a whole sector, which clears its error mark (R260). -/
def Write.wholeSector (x : Write) (g : Nat) : Bool := (List.range 32).all (fun k => x.hasByte (32 * g + k))

/-- DEAD of a page-table entry set or cleared, while the entry still maps the frame (R227). -/
def Package.setDead (p : Package) (pte pa : Nat) (dead : Bool) : Package :=
  let e := p.readPa pte 16
  let e' := setBits 11 11 dead.toNat e
  if e.testBit 0 && bitsOf 47 16 e * 2 ^ 16 ≤ pa && e' != e then p.poke pte 16 e' else p

/-- A write becomes part of memory: bytes, labels, clause-start map, epoch bits and error marks; a store clears DEAD of its page, and a DISC empties
its page, marks it dead and invalidates every copy, as a scrub of the system cores does without the mark (R97, R210, R227, R260, R325). -/
def Package.commit (p : Package) (x : Write) : Package :=
  let sectors := (x.cells.map (fun (c : Host.Cell) => c.1 / 32)).eraseDups
  let p := { p with
    mem := putCells p.mem x.cells
    glabels := x.grow.foldl (fun g (e : Nat × Lbl) => spSet 0 g e.1 e.2) p.glabels
    code := if x.cells.isEmpty then p.code else clearCode p.code x.line
    epochs := sectors.foldl (fun es g => setEpoch es g (p.storedEpoch x)) p.epochs
    bad := p.bad.filter (fun g => !x.wholeSector g)
    writes := p.writes.filter (fun y => y.id != x.id) }
  match x.disc, x.pte with
  | none, none => p
  | none, some pte => if x.cells.isEmpty then p else p.setDead pte (64 * x.line) false
  | some (page, pte), _ =>
    let p := { p with
      mem := p.mem.filter (fun c => !(page ≤ c.1 && c.1 < page + 65536))
      code := p.code.filter (fun c => c.1 / 1024 != page / 65536) }
    let held := (p.lines.filter (fun l => l.addr / 1024 == page / 65536)).map (·.addr)
    let p := held.foldl Package.dropLine p
    if x.kind == .engine then p else p.setDead pte page true

/-- WCT_REACHED (R230): the writes of the line whose WCT has come are part of memory, in coherence order; a DISC takes the writes of
its page with it. -/
def execWctReached (line : Nat) (s : State) : Host.Outcome State Fault Refusal :=
  lift (fun p =>
    let due := p.writes.filter (fun x => x.wct.any (fun t => decide (t ≤ p.now)))
    let page := due.any (fun x => x.disc.isSome && x.covers line)
    let mine := due.filter (fun x => if page then x.line / 1024 == line / 1024 else x.line == line)
    ((coherent mine).foldl Package.commit p).wake (fun st => st == Stall.memory)) s

/-! ### FILL_SERVE (R229, R230, R270, R292, R297, R304) -/

/-- A cluster cache evicts a line: the core whose load brought it keeps a victim tag with the gang's id (R71). A 513th tag takes the place of the
oldest, a line evicted again gives its earlier tag up for the new one, and a line that a delivery brought takes a tag in the cluster's first core with
an id that no gang has (DESIGN CHOICE: the spec says none of the three). -/
def Package.evictCopy (p : Package) (line cluster : Nat) : Package :=
  match (p.line line).copies.find? (fun c => c.cluster == cluster) with
  | none => p
  | some c =>
    let tag := fun (x : Core) =>
      let ts := x.tags.filter (fun t => t.1 != line) ++ [(line, c.gang)]
      { x with tags := ts.drop (ts.length - Config.victimTags) }
    (p.dropCopy line cluster).setCore c.core tag

/-- The evictions that a fill brings about: an even number n evicts line n/2 from the L2, an odd one from the cluster cache. -/
def Package.evictAll (p : Package) (cluster : Nat) (ns : List Nat) : Package :=
  ns.foldl (fun p n => if n % 2 = 0 then p.evictL2 (n / 2) else p.evictCopy (n / 2) cluster) p

/-- Lines that the cluster cache holds: 4,096 for each of its banks in CACHE mode (R193, R197). -/
def Package.cacheLines (p : Package) (cluster : Nat) : Nat :=
  Config.bankLines * (32 - (p.banks.filter (fun b => b.cluster == cluster && b.mode != .cache)).length)

/-- The lines of this package, and the copies of lines of other packages, that a cluster cache holds beside a line (R193, R271). -/
def Package.heldLines (p : Package) (line cluster : Nat) : List Nat :=
  (p.lines.filter (fun l => l.addr != line && l.copies.any (fun c => c.cluster == cluster))).map (·.addr)

def Package.heldPods (p : Package) (cluster : Nat) : List PodCopy := p.pods.filter (fun c => c.cluster == some cluster)

/-- A line that enters a cluster cache which is full takes the place of another line; which one is open (R193). -/
def Package.roomCache (p : Package) (line cluster : Nat) : Package :=
  let held := p.heldLines line cluster
  let pods := p.heldPods cluster
  if held.length + pods.length < p.cacheLines cluster then p
  else
    let (n, p) := p.pick (held.length + pods.length)
    match held[n]? with
    | some l => p.evictCopy l cluster
    | none =>
      match pods[n - held.length]? with
      | some c => { p with pods := p.pods.filter (· != c) }
      | none => p

/-- A copy placed in a cluster cache in place of what it held of the line. A delivery in place of an unread delivery of the same
manifest is a refresh and counts nothing, while that one's lease has not ended (R296). -/
def Package.putCopy (p : Package) (line : Nat) (c : Copy) : Package :=
  let p := p.roomCache line c.cluster
  let l := p.lineIn line
  let old := l.copies.find? (fun x => x.cluster == c.cluster)
  let p := p.setLine { l with copies := l.copies.filter (fun x => x.cluster != c.cluster) ++ [c] }
  match old with
  | none => p
  | some o => if o.delivered.isSome && o.delivered == c.delivered && decide (p.now ≤ o.lease) then p else p.copyLeaves o

/-- MAXL raised to at least a lease end. -/
def Package.raiseMaxl (p : Package) (line t : Nat) : Package :=
  let l := p.lineIn line
  p.setLine { l with maxl := max l.maxl t }

/-- Whether a .cc load leaves a copy: its cluster has a bank in CACHE mode (R197). -/
def Package.keeps (p : Package) (a : Acc) (o : LoadOp) : Bool := o.policy == .cc && p.hasCache a.cluster

/-- The home serves a load of this package: a .cc load leaves a copy with its lease, one of a POD-CACHED page a copy without (R229, R271). A load that
misses in its cluster cache still sees the .cc stores that the cache has accepted (R231). -/
def Package.serveHere (p : Package) (a : Acc) (o : LoadOp) (from_ : Nat) : Package :=
  let line := lineOf o.pa
  let p := if o.policy == .st then p else p.setLine (p.lineIn line)
  let p :=
    if p.keeps a o then
      let t := from_ + Config.lease
      let p := if o.mode == 2 then p else p.raiseMaxl line t
      p.putCopy line { cluster := a.cluster, world := p.tagOf line, lease := t, core := a.core, gang := a.gang, delivered := none, read := false
                       pod := podMode o.mode, free := o.mode == 2 }
    else p
  p.perform a o (p.keeps a o)

/-- The delivery that answers a fill of a cluster (R304): the latest one of the line that has not entered its cache, while the
manifest is playing and its entry names the cluster. -/
def Package.answers (p : Package) (world line cluster : Nat) : Option Nat :=
  match p.manAt world line with
  | none => none
  | some m =>
    if m.state == .playing && m.entries.any (fun e => e.line == line && !e.kind && e.cons.contains cluster) then
      ((p.dels.filter (fun d => d.line == line && d.dests.contains cluster)).getLast?).map (·.id)
    else none

/-- A lost-locality miss (R71): a load that misses in the cluster cache on a line whose victim tag carries its gang's id. The tag is given up
once a miss has counted on it (DESIGN CHOICE: the spec does not say when a tag is given up). -/
def Package.lostMiss (p : Package) (a : Acc) (o : LoadOp) : Package :=
  let line := lineOf o.pa
  if o.policy == .cc && (p.coreOr a.core).tags.any (fun t => t.1 == line && t.2 == a.gang) then
    p.setCore a.core (fun c => { c with lost := c.lost + 1, tags := c.tags.filter (fun t => t.1 != line) })
  else p

/-- A load of this package reaches its home. -/
def Package.fillHere (p : Package) (a : Acc) (o : LoadOp) : Package :=
  let line := lineOf o.pa
  let world := p.worldId a.team
  if p.podHeld world o || p.earlierRead ⟨a.team, a.lid⟩ a.id o.pa o.n then p
  else
    match o.stage with
    | .sent =>
      let p := p.lostMiss a o
      (match (if o.policy == .cc then p.answers world line a.cluster else none) with
      | some d => p.atHomes.setStage a.id (.delivery d)
      | none =>
        let p := p.noteFill world line a.cluster
        let w := p.pendingWct line
        if w = 0 then p.serveHere a o p.now
        else
          let p := if p.keeps a o then p.raiseMaxl line (w + Config.lease) else p
          p.setStage a.id (.waiting w))
    | .waiting w => if w ≤ p.now && !p.torn a o.pa o.n (p.keeps a o) then p.serveHere a o w else p
    | _ => p

/-- The count that a MIGRATE page's home keeps (R216): the peer, and its remote loads, saturating at 65,535. -/
def Package.countMigrate (p : Package) (world page mthr peer : Nat) : Package :=
  match p.migrate.find? (fun m => m.page == page && m.world == world) with
  | none => { p with migrate := p.migrate ++ [{ page, world, peer, count := 1, mthr }] }
  | some m =>
    let m' : MigCount := { m with peer, count := if m.peer = peer then min 65535 (m.count + 1) else 1, mthr }
    { p with migrate := mapIf (fun x => x.page == page && x.world == world) (fun _ => m') p.migrate }

/-- The answer to a load of another package; the account of a load that no instruction waits for needs none. -/
def Package.answerLoad (p : Package) (src world acc val : Nat) (mask : Mask) (bad : Nat) (line : Option Nat) : Package :=
  if acc = nobody then p else p.send src world (.loadResp acc val mask bad line)

/-- What the home of a page notes of a load of another package: the count of a MIGRATE page, the reader of a pod line where it is a package of the
world's domain, and the scope record (R216, R240, R241, R297). -/
def Package.noteLoad (p : Package) (x : World) (src pa mode page mthr : Nat) (scope : Option Scope) (tag : Nat) : Package :=
  let p := if podMode mode then
      (match x.tide.bind (fun t => t.phys.findIdx? (· == src)) with
      | some reader => p.noteRemote x.id (lineOf pa) reader
      | none => p.atHomes)
    else p.countMigrate x.id page mthr (((x.peers.find? (fun (q : Peer) => q.phys == src)).map (fun (q : Peer) => q.logical)).getD 0)
  match scope with
  | some s => p.recordScope x.id pa tag s
  | none => p

/-- A load of another package is served from the k-th waiting packet (R216, R230, R270, R297): a load of a line with a pending store waits for its
WCT, and the packet keeps that time. -/
def Package.fillRemote (p : Package) (k : Nat) : Package :=
  match p.inboxAt k with
  | some { src, dst, seq, world, key, msg := .loadReq acc pa n mode step page mthr scope tag wait } =>
    (match p.world? world with
    | none => (p.dropInbox k).answerLoad src world acc 0 0 1 none
    | some x =>
      let pod := podMode mode
      let pending := p.pendingWct (lineOf pa)
      if step.any (fun n => x.tide.any (fun t => !t.serves n)) then p
      else if !pod && wait = 0 && pending != 0 then
        { p with inbox := p.inbox.set k { src, dst, seq, world, key, msg := .loadReq acc pa n mode step page mthr scope tag pending } }
      else if p.now < wait then p
      else
        let p := (p.dropInbox k).noteLoad x src pa mode page mthr scope tag
        let at_ := p.liveOf world pod pa
        match p.badAt at_ n with
        | some aux => p.answerLoad src world acc 0 0 aux none
        | none =>
          let (v, m) := p.homeRead world pod pa n p.visible
          let whole := at_ / 64 * 64
          let line := if pod && (p.badAt whole 64).isNone then some (p.readPa whole 64) else none
          p.answerLoad src world acc v (if pod then 0 else m) 0 line)
  | _ => p

/-- FILL_SERVE: a load reaches its home and is served, waits for the pending WCTs, or is left to a delivery. Accesses from 2^64 on
name the packets that wait. -/
def execFillServe (acc : Nat) (evict : List Nat) (s : State) : Host.Outcome State Fault Refusal :=
  lift (fun p =>
    if 2 ^ 64 ≤ acc then (p.evictAll (2 ^ 32) evict).fillRemote (acc - 2 ^ 64)
    else match p.acc? acc with
      | none => p
      | some a =>
        match a.op with
        | .load o => if o.peer.isSome then p else (p.evictAll a.cluster evict).fillHere a o
        | _ => p) s

/-- LEASE_END (R229, R271, R296): a copy whose lease has ended leaves the cluster cache, one of another package's pod line too. -/
def execLeaseEnd (cluster line : Nat) (s : State) : Host.Outcome State Fault Refusal :=
  lift (fun p =>
    let p := { p with pods := p.pods.filter (fun c => !(c.cluster == some cluster && c.line == line && decide (c.lease < p.now))) }
    if (p.line line).copies.any (fun c => c.cluster == cluster && !c.free && decide (c.lease < p.now)) then p.dropCopy line cluster
    else p) s

/-! ### Deliveries (R295, R296, R304) -/

/-- The dirty lines of a cluster cache: those with a .cc store that it has accepted and that is not at its home yet (R234). -/
def Package.dirtyLines (p : Package) (cluster : Nat) : List Nat :=
  ((p.writes.filter (fun x => x.cc && x.cluster == cluster && x.wct.isNone)).map (·.line)).eraseDups

/-- Whether a cluster cache may lack room that it can take for a line without writing back a dirty one (R295): the line itself is dirty there, or the cache is
full and holds a dirty line. Which lines it may take is open, so such a cache may refuse. -/
def Package.mayRefuse (p : Package) (line cluster : Nat) : Bool :=
  let dirty := p.dirtyLines cluster
  dirty.contains line
    || (!dirty.isEmpty && decide (p.cacheLines cluster ≤ (p.heldLines line cluster ++ dirty).eraseDups.length + (p.heldPods cluster).length))

/-- The clusters among some that refuse a delivery of a line: those without a bank in CACHE mode, and, of those that may, the ones chosen (R295). -/
def Package.refusals (p : Package) (line : Nat) : List Nat → List Nat × Package
  | [] => ([], p)
  | c :: cs =>
    let (k, p) := if !p.hasCache c then (1, p) else if p.mayRefuse line c then p.pick 2 else (0, p)
    let (ls, p) := p.refusals line cs
    (if k = 0 then ls else c :: ls, p)

/-- Clusters that a delivery does not enter: each counts as unread, and a fill that waited there for the delivery goes to its home after all
(R295, R298). -/
def Package.refuseDelivery (p : Package) (d : Delivery) (clusters : List Nat) : Package :=
  let p := match d.man with
    | none => p
    | some m => clusters.foldl (fun p _ => p.depart m false) p
  let back := fun (a : Acc) => match a.op with
    | .load o => if o.stage == LStage.delivery d.id && clusters.contains a.cluster then { a with op := .load { o with stage := .sent } } else a
    | _ => a
  { p with accs := p.accs.map back }

/-- The destinations of a delivery replaced; a delivery that is sent and has none left is over. -/
def Package.setDests (p : Package) (k : Nat) (dests : List Nat) : Package :=
  let gone := fun (x : Delivery) => x.id == k && dests.isEmpty
  { p with dels := mapIf (fun x => x.id == k) (fun x => { x with dests, sent := true }) (p.dels.filter (fun x => !gone x)) }

/-- A delivery goes to the clusters that can take it. -/
def Package.sendDelivery (p : Package) (d : Delivery) : Package :=
  let (lost, p) := p.refusals d.line d.dests
  let dests := d.dests.filter (fun c => !lost.contains c)
  let p := match d.man with
    | none => p
    | some m => p.setMan { p.man m with deliv := (p.man m).deliv + dests.length }
  (p.setDests d.id dests).refuseDelivery d lost

/-- DELIVERY_SEND: at the store's WCT the home sends the line to the recorded consumers. -/
def execDeliverySend (k : Nat) (s : State) : Host.Outcome State Fault Refusal :=
  lift (fun p => match p.dels.find? (fun d => d.id == k) with
    | none => p
    | some d => if d.sent || p.now < d.wct then p else p.sendDelivery d) s

/-- A delivery serves the loads of a cluster that wait for it, in the order in which they were issued. -/
def Package.deliverTo (p : Package) (d : Delivery) (cluster : Nat) : Package :=
  (p.accs.filter (fun a => a.cluster == cluster && (match a.op with | .load o => o.stage == LStage.delivery d.id | _ => false))).foldl
    (fun (p : Package) a => match a.op with
      | .load o => (p.copyHit (p.worldId a.team) d.line cluster).perform a o true
      | _ => p) p

/-- DELIVERY_ENTER: a delivery enters one of its cluster caches, with a lease from the WCT; it performs the loads that it answers. A cluster whose last
bank has left CACHE mode since it was sent keeps no copy (R197), which leaves unread (R296). -/
def execDeliveryEnter (k : Nat) (s : State) : Host.Outcome State Fault Refusal :=
  lift (fun p => match p.dels.find? (fun d => d.id == k) with
    | none => p
    | some d =>
      if !d.sent || d.dests.isEmpty then p
      else
        let (n, p) := p.pick d.dests.length
        let c := d.dests.getD n 0
        let copy : Copy := { cluster := c, world := p.tagOf d.line, lease := d.wct + Config.lease, core := 4 * c, gang := Config.loneGang
                             delivered := d.man, read := false, pod := false, free := false }
        let p := if p.hasCache c then (p.putCopy d.line copy).deliverTo d c else p.refuseDelivery d [c]
        p.setDests k (without c d.dests)) s

/-! ### The key sweep (R210) -/

/-- The first frame from f on that a world owns. -/
def Package.nextFrame (p : Package) (world f : Nat) : Option Nat :=
  if world = 0 then firstFree (fun k => p.ownerOf (65536 * k) != 0) f (min (p.owners.length + 1) (16 * 24 * 2 ^ 14 - f))
  else leastBy id ((p.owners.filter (fun o => o.2 == world && f ≤ o.1)).map (·.1))

/-- KEY_SWEEP_LINE: the line under the pointer is re-encrypted under the new slot, and the pointer advances; past the last frame
the old key is erased. -/
def execKeySweepLine (world : Nat) (s : State) : Host.Outcome State Fault Refusal :=
  lift (fun p => match (p.world? world).bind (fun x => x.sweep.map (fun ptr => (x, ptr))) with
    | none => p
    | some (x, ptr) =>
      match p.nextFrame world (ptr / 1024) with
      | none => p.setWorld world (fun x => { x with sweep := none, keys := x.keys.set (1 - x.epoch) none })
      | some f =>
        let line := if f = ptr / 1024 then ptr else 1024 * f
        let es := setEpoch (setEpoch p.epochs (2 * line) x.epoch) (2 * line + 1) x.epoch
        ({ p with epochs := es }).setWorld world (fun x => { x with sweep := some (line + 1) })) s

/-! ### UNCORRECTABLE_ARRIVE (R260) -/

/-- Where a thread that is stopped between two clauses, or at an instruction that it holds, continues; and the package without it in
its gang, its berth and its held clause. -/
def Package.pullOut (p : Package) (w : Who) : Point × Package :=
  let pt := ((p.thread? w).map (·.point)).getD { hdr := 0, mid := none }
  match p.gangs.find? (fun g => g.team == w.team && g.lids.contains w.lid) with
  | none => (pt, p.unfile w)
  | some g =>
    match g.held with
    | none => (pt, p.leaveGang w)
    | some i =>
      let p := p.setGang g.core g.id g.team (fun g =>
        { g with held := some { i with active := without w.lid i.active, idle := without w.lid i.idle } })
      if i.active.contains w.lid then
        ({ hdr := i.hdr, mid := some i.pc }, (p.setThread w (fun th => th.giveBack i)).leaveGang w)
      else ({ hdr := i.nextHdr, mid := none }, p.leaveGang w)

/-- UNCORRECTABLE_ARRIVE: the error reaches the core. The load writes nothing, and its thread takes UNCORRECTABLE before its next clause
(`Package.takeError`). -/
def execUncorrectableArrive (acc : Nat) (s : State) : Host.Outcome State Fault Refusal :=
  lift (fun p => match p.acc? acc with
    | none => p
    | some a =>
      match a.op with
      | .load o =>
        (match o.stage with
        | .bad aux =>
          let w : Who := ⟨a.team, a.lid⟩
          let p := ({ p with accs := p.accs.filter (fun x => x.id != acc) }).flagDone w a.flag
          (p.noteError w { pc := a.pc, va := o.va, vmask := o.mask, aux, trapped := a.trapped }).wake
            (fun st => st == Stall.memory || st == Stall.other)
        | _ => p)
      | _ => p) s

end Sys2Proof.Machine
end

