-- ==== Sys2Proof/Machine/Clause.lean ====
section
/-! DEFINITION. The issue of clauses and what moves threads between berths and gangs: the events CLAUSE_ISSUE, BERTH_EMPTY_FILE,
BERTH_AGE_EXPIRY, GANG_ID_FREE, BLOCKED_MEMBER_TIMEOUT, REJOIN_TIMER_EXPIRY, YIELD_EXPIRY, LOAD_CAP_WINDOW_END and
LABEL_CACHE_MISS_DONE (R53 to R72, R82, R85, R95 to R99, R126, R150, R176, R480). -/

namespace Sys2Proof.Machine

/-! ### The register fields of an instruction -/

def aluF {T : Type} (o : Alu T) (nd na nb : Nat) : List FieldUse := [dst o.d nd, src o.a na] ++ srcB o.b nb
def unF {T : Type} (o : Un T) (nd nb : Nat) : List FieldUse := dst o.d nd :: srcB o.b nb

/-- The register fields that an instruction reads or writes, with the registers that each covers; a field that is both stands
twice. -/
def Instr.fields : Instr → List FieldUse
  | .add o | .isub o | .imul o | .imin o | .imax o => aluF o o.ty.regs o.ty.regs o.ty.regs
  | .imad o => src o.d o.ty.regs :: aluF o o.ty.regs o.ty.regs o.ty.regs
  | .addc o => src (o.d + 1) 1 :: aluF o 2 1 1
  | .iabs w o => unF o (if w then 2 else 1) (if w then 2 else 1)
  | .cmp o => src o.a o.ty.regs :: srcB o.b o.ty.regs
  | .lea o => aluF o 2 2 1
  | .mov o => (match o.b with
    | .sreg _ => [dst o.d o.ty.regs]
    | b => dst o.d o.ty.regs :: srcB b o.ty.regs)
  | .movl ty d _ => [dst d ty.regs]
  | .and o | .andn o | .or o | .xor o => aluF o o.ty.regs o.ty.regs o.ty.regs
  | .shl o | .shr o | .sar o | .rol o => aluF o o.ty.regs o.ty.regs 1
  | .bfx o => aluF o o.ty.regs o.ty.regs 1
  | .bfi o => src o.d o.ty.regs :: aluF o o.ty.regs o.ty.regs 1
  | .popc o | .clz o | .brev o => unF o o.ty.regs o.ty.regs
  | .prmb o => aluF o 1 2 1
  | .fadd o | .fmul o | .fmin o | .fmax o => aluF o o.ty.regs o.ty.regs o.ty.regs
  | .ffma o => src o.d o.ty.regs :: aluF o o.ty.regs o.ty.regs o.ty.regs
  | .fcmp o => src o.a (if o.ty then 2 else 1) :: srcB o.b (if o.ty then 2 else 1)
  | .fsf _ o | .frnd _ o => unF o o.ty.regs o.ty.regs
  | .twosum o | .twoprd o => aluF o 2 1 1
  | .cfma d a b => [src d 2, dst d 2, src a 2, src b 2]
  | .cvt c e o =>
    let s := cvtShape c e
    (if s.dsrc then [src o.d 1] else []) ++ unF o s.nd s.nb
  | .qpack d a b _ => [dst d 1, src a 8, src b 1]
  | .qunpk d a b _ _ _ => [dst d 2, src a 1, src b 1]
  | .mfsr d n => [dst d (if srWide n.toNat || d.toNat % 2 == 0 then 2 else 1)]
  | .mtsr a n _ => [src a (if srWide n.toNat then 2 else 1)]
  | .time d _ => [dst d 2]
  | .sel _ _ o => src o.d o.ty.regs :: unF o o.ty.regs o.ty.regs
  | .pmov op => (match op with
    | .toReg d _ => [dst d 1]
    | .toPred _ b _ => [src b 1]
    | .save d => [dst d 1]
    | .load b _ => [src b 1])
  | .shfl o => aluF o 1 1 1
  | .vote op _ _ => (match op with | .ballot d => [dst d 1] | _ => [])
  | .rdx _ ty d b _ => [dst d ty.regs, src b ty.regs]
  | .scan _ _ ty d b _ => [dst d ty.regs, src b ty.regs]
  | .jmpi a | .ret a => [src a 2]
  | .call d _ => [dst d 2]
  | .reform b _ => srcB b 1
  | .launch a _ _ | .cont a _ _ => [src a 2]
  | .dqpush b _ _ => srcB b 1
  | .dqpop d => [dst d 1]
  | .ld m => [dst m.d m.x.regs, src m.a 2]
  | .st m => [src m.d m.x.regs, src m.a 2]
  | .lds w m => [dst m.d w.regs, src m.a 2]
  | .sts w m | .fpush w m => [src m.d w.regs, src m.a 2]
  | .fpop w m => [dst m.d w.regs, src m.a 2]
  | .disc m | .arm m | .await m => [src m.d 1, src m.a 2]
  | .atom m => [src m.d m.x.regs, dst m.d m.x.regs, src m.a 2]
  | .atomx m => [src m.d (if m.x == .cas then 8 else 4), dst m.d 4, src m.a 2]
  | .red m => [src m.d (m.x.bytes / 4), src m.a 2]
  | .lget d s _ => dst d 1 :: (match s with
    | .one b => srcB b 1
    | .pair b => srcB b 2
    | .pred _ => [])
  | .ljoin w o | .decl w o => aluF o (if w then 2 else 1) (if w then 2 else 1) 1
  | .lceil b _ => srcB b 1
  | .endo a => [src a 4]
  | .mma f _ _ a b l => [src (latheField a) f.regs, src (latheField b) f.regs] ++ (match l with
    | some l => [src (ctlSA l) 1, src (ctlSB l) 1]
    | none => [])
  | .mmasp _ _ _ _ a b => [src (latheField a) 4, src (latheField b) 8]
  | .accld f _ a _ => [src a f.regs]
  | .accst f d _ _ => [dst d f.regs]
  | .tide d => [dst d 2]
  | .cpy a _ _ | .xperm a _ _ | .coll _ a _ _ => [src a 2]
  | .cpym a b _ _ => [src a 2, src b 2]
  | .recBegin _ a b _ => [src a 2, src b 1]
  | .recPlay _ b _ => [src b 1]
  | .recq d _ => [dst d 4]
  | _ => []

/-- Instructions that sign a round (R172). -/
def Instr.signs : Instr → Bool
  | .mma .. | .mmasp .. | .accld .. | .accst .. => true
  | _ => false

/-! ### Checks of a clause (R96) -/

/-- The latches as a clause goes on: vector instructions so far, and the registers of what x0 and x1 hold (R82). -/
structure LatchState where
  vec : Nat
  x0  : Nat
  x1  : Nat
  deriving DecidableEq, Repr

/-- The register fields of a word whose minor, constant or reserved bits make it no instruction, as far as its major opcode names them: the sources
that would call for a literal (R83), the bases and address pairs, and the destination of a vector-pipe form (R79). -/
def rawFields (r : Raw) : List FieldUse :=
  let z : Raw := { r with d := 0, a := 0, b := 0 }
  let m := r.major.toNat
  let base := (0x50 ≤ m && m ≤ 0x55) || (0x59 ≤ m && m ≤ 0x5B) || (0x60 ≤ m && m ≤ 0x62)
  let pair := base || m == 0x43 || m == 0x45 || m == 0x4B || m == 0x4C || m == 0x78 || m == 0x79 || m == 0x7A || m == 0x7B
  let dest := isVec r && !(m == 0x09 || m == 0x25 || m == 0x39 || m == 0x3A || m == 0x3C)
  (if dest then [dst r.d 1] else [])
    ++ (if z.opLit then []
      else (if ({ z with d := 126 } : Raw).opLit then [src r.d 1] else []) ++ (if ({ z with b := 126 } : Raw).opLit then [src r.b 1] else [])
        ++ (if pair then [src r.a 2] else if ({ z with a := 126 } : Raw).opLit then [src r.a 1] else []))

/-- The register fields of an instruction's word as the check of its clause finds them: a word whose register fields alone make it illegal has the
fields of the instruction that it spells (R96, R104). -/
def wordFields (r : Raw) : List FieldUse :=
  match build r (if r.opLit then some 0 else none) (if r.offLit then some 0 else none) with
  | .ok i => Instr.fields i
  | .error _ => rawFields r

/-- Major opcodes whose D is the destination of an instruction that is long-latency or issues in no vector pipe: none may name a latch there
(R82). -/
def latchless (m : Nat) : Bool :=
  m == 0x26 || m == 0x3B || m == 0x3D || m == 0x3E || m == 0x32 || m == 0x36 || m == 0x44 || m == 0x4E || m == 0x50 || m == 0x52 || m == 0x55
    || m == 0x60 || m == 0x61 || m == 0x6C || m == 0x73 || m == 0x76 || m == 0x7D

/-- One instruction's reads and writes of the latches; none when it breaks R82. A word that does not decode breaks it too where its fields do:
the clause is checked before any of its instructions traps ILLOP (R96, R104). -/
def LatchState.next (l : LatchState) (ws : List Word) : Option LatchState :=
  let r := headRaw ws
  let m := r.major.toNat
  let us := wordFields r
  let onV := isVec r && !isLong r
  let named := r.d.toNat == 120 || r.d.toNat == 121
  let special := named && latchless m
  let badSrc := us.any (fun u => !u.dst && ((u.f.toNat == 120 && l.x0 < u.n) || (u.f.toNat == 121 && l.x1 < u.n)))
  let badDst := us.any (fun u => u.dst && ((u.f.toNat == 120 && !(onV && l.vec % 2 == 0)) || (u.f.toNat == 121 && !(onV && l.vec % 2 == 1))))
  if special || badSrc || badDst then none
  else
    let n := ((us.find? (fun u => u.dst)).map (·.n)).getD 0
    let v := l.vec + (isVec r).toNat
    if onV && n != 0 then some (if l.vec % 2 = 0 then { l with vec := v, x0 := n } else { l with vec := v, x1 := n })
    else some { l with vec := v }

def latchesOk : LatchState → List (List Word) → Bool
  | _, [] => true
  | l, ws :: rest => match l.next ws with | some l => latchesOk l rest | none => false

/-- BRA, BRC, BDQ, JMPI, CALL, RET, EXIT and KILL: nothing follows them in their clause. -/
def endsClause (r : Raw) : Bool :=
  let m := r.major.toNat
  (0x40 ≤ m && m ≤ 0x45) || m == 0x47 || m == 0x48

/-- R96 for a header and the words that follow it. A last word that names no instruction, its major opcode being unassigned, is left to
R102: it issues and traps ILLOP (DESIGN CHOICE: R96 speaks of words that end with what is neither an instruction nor a literal, R102 of
values that trap ILLOP in every field combination). -/
def clauseOk (pilot : Bool) (hdr : Word) (ws : List Word) : Bool :=
  let h := hdr.toNat
  let set_ := fun (k : Nat) => k < 12 || k == 15
  let is := splitWords pilot 8 ws
  let fits := (is.foldl (fun n x => n + sizeIn pilot (headRaw x)) 0) == ws.length
  set_ (bitsOf 19 16 h) && set_ (bitsOf 15 12 h) && bitsOf 11 9 h != 0 && !(24 ≤ bitsOf 8 4 h && bitsOf 8 4 h ≤ 30)
    && !(bitsOf 3 3 h == 1 && bitsOf 8 4 h == 31) && bitsOf 2 1 h != 3
    && (is.filter (fun x => isLong (headRaw x))).length ≤ 2 && fits
    && is.dropLast.all (fun x => !endsClause (headRaw x))
    && (pilot || latchesOk { vec := 0, x0 := 0, x1 := 0 } is)

/-! ### The fetch (R97) -/

/-- The physical address of a code word; none where it is not on this package. -/
def fetchAt (w : Who) (va : Nat) : PM (Option Nat) := do
  let x ← translate w va 0 .fetch
  let home ← reach w va 0 x
  let tm ← teamOf w
  let p ← get
  if home.isSome then pure none
  else if !p.owns tm.world (x.pa va) then trap .owner va
  else pure (some (x.pa va))

/-- A word of code; an uncorrectable error on it, or a granule label that does not exist, is TRAPAUX 3 (R111, R251, R260). -/
def fetchWord (w : Who) (va : Nat) : PM Word := do
  match ← fetchAt w va with
  | none => trap .illclause va
  | some pa => do
    let p ← get
    if (p.badAt pa 4).isSome then trap .uncorrectable va 0 3
    else pure (BitVec.ofNat 32 (p.readPa pa 4))

def fetchWords (w : Who) : Nat → Nat → PM (List Word)
  | _, 0 => pure []
  | va, n + 1 => do
    let x ← fetchWord w va
    let xs ← fetchWords w ((va + 4) % 2 ^ 64) n
    pure (x :: xs)

/-- Whether the clause-start map of a code line has the bit of a word. -/
def Package.clauseStart (p : Package) (pa : Nat) : Bool := (spGet 0 p.code (lineOf pa)).getLsbD (pa % 64 / 4)

/-- The header at an address and the words that follow it, in the order of R97. -/
def fetchClause (w : Who) (hdr : Nat) : PM (Word × List Word) := do
  if !canonical hdr then prot 0x30 hdr
  else if hdr % 4 != 0 then trap .illclause hdr
  else match ← fetchAt w hdr with
    | none => trap .illclause hdr
    | some pa => do
      let p ← get
      if !p.clauseStart pa then trap .illclause hdr
      else do
        let h ← fetchWord w hdr
        let ws ← fetchWords w ((hdr + 4) % 2 ^ 64) (bitsOf 11 9 h.toNat)
        pure (h, ws)

/-- A fetch that stops a thread: PAGE files it into the fault berth, a trap has TRAPPC at the clause that led there, and the errored
word itself is consumed by the clause that it starts. TRAPAUX of the PAGE that a fetch takes has bit 0 clear even where a region is open (DESIGN CHOICE:
R251 speaks of an access in a region, and a fetch is none of the region's). -/
def Package.stopFetch (p : Package) (w : Who) (pt : Point) : Stop → Package
  | .wait _ => p
  | .deferred _ _ _ _ => p
  | .page va vm _ _ =>
    let p := (p.leaveGang w).setThread w (fun th => { th with status := .faulted va vm false true, point := pt })
    if (p.thread? w).any (fun th => th.dying) then p.killOne w else p
  | .trap c va vm lbl aux _ _ =>
    match p.thread? w, p.team? w.team with
    | some th, some tm =>
      let n := bitsOf 11 9 ((p.peekVa tm.space th.frm 4).getD 0)
      let at_ : Point := { hdr := th.frm, mid := none }
      let after : Point := { hdr := (th.frm + 4 * (1 + n)) % 2 ^ 64, mid := none }
      if c == .uncorrectable then
        p.raiseTrap w { cause := c, pc := pt.hdr, va, vmask := vm, lbl, aux, resume := pt, skip := some pt }
      else p.raiseTrap w { cause := c, pc := th.frm, va, vmask := vm, lbl, aux, resume := at_
                           skip := if c == .illclause then none else some after }
    | _, _ => p

/-! ### Pops and parks (R58, R59, R126) -/

/-- Labels of registers raised by an owner set. -/
def joinDsts (w : Who) (m : Mask) : List Dst → PM Unit
  | [] => pure ()
  | d :: ds => do
    let tm ← teamOf w
    let th ← thr w
    let r := regAt tm th d 0
    let om ← maskOf r.lbl
    if dominates om m then joinDsts w m ds
    else do
      let l ← mkLabel (om ||| m)
      modify (fun p => p.putReg w d 0 { r with lbl := l })
      joinDsts w m ds

def joinPreds (w : Who) (m : Mask) : List Nat → PM Unit
  | [] => pure ()
  | k :: ks => do
    let th ← thr w
    let b := th.preds.getD k LBit.zero
    let om ← maskOf b.lbl
    if dominates om m then joinPreds w m ks
    else do
      let l ← mkLabel (om ||| m)
      setThr w (fun th => { th with preds := th.preds.set k { b with lbl := l } })
      joinPreds w m ks

/-- The registers of a write set (R126). -/
def writeSet (w : Who) (e : CamEntry) : PM (List Dst) := do
  let tm ← teamOf w
  let ks := (List.range 112).filter (fun k => e.vmask.testBit k)
  if w.isPilot then
    pure ((List.range 3).flatMap (fun b => (ks.map (fun k => Dst.sreg (128 * b + k)))
      ++ (List.range 16).map (fun k => Dst.sreg (128 * b + 112 + k))))
  else
    pure ((ks.filter (fun k => k < tm.nregs || (k < tm.nregs + tm.nx && tm.holdsExt w.lid))).map Dst.main
      ++ (List.range 8).map Dst.op)

/-- The entries whose rejoin address is the header are popped, top first, each with its write-set join. -/
def popCtx (w : Who) (hdr : Nat) : Nat → PM Unit
  | 0 => pure ()
  | n + 1 => do
    let th ← thr w
    let tm ← teamOf w
    match th.ctx with
    | [] => pure ()
    | e :: rest =>
      match e.cam with
      | none => pure ()
      | some k =>
        if tm.addr e.target.toNat != hdr then pure ()
        else do
          let m ← maskOf e.lbl
          match tm.cam[k]? with
          | none => pure ()
          | some c => do
            let ds ← writeSet w c
            joinDsts w m ds
            joinPreds w m ((List.range 24).filter (fun k => c.pmask.testBit k))
          setThr w (fun th => { th with ctx := rest })
          popCtx w hdr n

/-- The pops of each thread of a gang; a thread that the full label table stops traps PROT 3 at the header (R110). -/
def Package.popAll (p : Package) (team hdr : Nat) (lids : List Nat) : Package :=
  lids.foldl (fun (p : Package) l =>
    let w : Who := ⟨team, l⟩
    match popCtx w hdr (Config.ctxSize + 1) p with
    | .ok (_, q) => q
    | .error (.trap c va vm lbl aux _ q) =>
      (p.keep q).raiseTrap w { cause := c, pc := hdr, va, vmask := vm, lbl, aux, resume := { hdr, mid := none }
                               skip := some { hdr, mid := none } }
    | .error _ => p) p

/-- The record at which a thread that fetches a header parks: the earliest created of those that name it with that TARGET. -/
def Team.parkAt (tm : Team) (lid hdr : Nat) : Option DivRec :=
  leastBy (·.id) (tm.divs.filter (fun r => r.named.contains lid && !r.parked.contains lid
    && (match tm.cam[r.cam]? with | some e => tm.addr e.target == hdr | none => false)))

/-- The threads of a gang that park do so, and the gang then dissolves (R55, R59, R60). Answers whether any parked. -/
def Package.parkAll (p : Package) (team hdr : Nat) (lids : List Nat) : Bool × Package :=
  let parkers := lids.filter (fun l => (p.team? team).any (fun tm => (tm.parkAt l hdr).isSome))
  if parkers.isEmpty then (false, p)
  else
    let p := parkers.foldl (fun (p : Package) l =>
      match (p.team? team).bind (fun tm => tm.parkAt l hdr) with
      | some r => p.park ⟨team, l⟩ r
      | none => p) p
    let rest := lids.filter (fun l => !parkers.contains l)
    let p := p.fileAll team (rest.map (fun l => (l, { hdr, mid := none }, 0)))
    (true, (p.releaseDone team).settle)

/-! ### Readiness (R70, R71, R85, R99, R176) -/

/-- What an outstanding instruction still writes. -/
def AccOp.writes : AccOp → List Dst
  | .load o => lockedRegs o.dst o.regs
  | .result r => lockedRegs r.dst r.regs
  | .pop _ d b _ => lockedRegs d (b / 4)
  | .tide d _ => lockedRegs d 2
  | _ => []

/-- The registers that a field names in a lane thread. -/
def FieldUse.dsts (u : FieldUse) (wbase : Nat) : List Dst :=
  let k := u.f.toNat
  if k < 112 then (List.range u.n).map (fun j => Dst.main (wbase + k + j))
  else if k < 120 then (List.range u.n).map (fun j => Dst.op (k - 112 + j))
  else []

/-- Whether a register lies in the extended set, which a thread shares with its buddy. -/
def Dst.shared (nregs : Nat) : Dst → Bool
  | .main i => decide (nregs ≤ i)
  | _ => false

/-- The registers of a thread that a signature locks, those of its buddy in the extended set among them (R176). -/
def Package.locked (p : Package) (tm : Team) (lid : Nat) : List Dst :=
  let pending := tm.signs.flatMap (fun s => s.sigs)
    ++ (p.rounds.filter (fun r => r.team == tm.id)).flatMap (fun r => r.sigs.filter (fun g => !r.read || !g.dst.isEmpty))
  (pending.filter (fun g => g.lid == lid)).flatMap (·.locks)
    ++ ((pending.filter (fun g => g.lid == tm.buddyId lid)).flatMap (·.locks)).filter (fun d => d.shared tm.nregs)

/-- The signatures of a team whose rounds have not taken effect. -/
def Package.signed (p : Package) (tm : Team) : List Signature :=
  tm.signs.flatMap (fun s => s.sigs) ++ (p.rounds.filter (fun r => r.team == tm.id)).flatMap (fun r => r.sigs)

/-- The registers of a thread that outstanding instructions still write, an ACCST among them (R176). -/
def Package.owed (p : Package) (tm : Team) (lid : Nat) : List Dst :=
  ((p.signed tm).filter (fun g => g.lid == lid)).flatMap (fun g => g.dst)
    ++ (((p.signed tm).filter (fun g => g.lid == tm.buddyId lid)).flatMap (fun g => g.dst)).filter (fun d => d.shared tm.nregs)
    ++ (p.accs.filter (fun a => a.team == tm.id && a.lid == lid)).flatMap (fun a => a.op.writes)
    ++ ((p.accs.filter (fun a => a.team == tm.id && a.lid == tm.buddyId lid)).flatMap (fun a => a.op.writes)).filter (fun d => d.shared tm.nregs)

/-- The instructions that decode among the words of a clause. -/
def instrsOf (pilot : Bool) (ws : List Word) : List Instr :=
  (splitWords pilot 8 ws).filterMap (fun x => match decode x with | .ok (i, _) => some i | .error _ => none)

/-- Whether the guard lets a thread run the clause (R98). -/
def Thread.guard (th : Thread) (hdr : Word) : Bool :=
  let k := bitsOf 8 4 hdr.toNat
  k == 31 || ((th.preds.getD k LBit.zero).val != hdr.getLsbD 3)

/-- Why the clause may not issue for a thread, if it may not. `fresh` says that the clause starts at its header. A flag of 15 or a locked
register holds no thread whose guard is false (DESIGN CHOICE: R85 says that such a thread increments nothing, and does not say whether the
clause is held for it). -/
def Package.notReady (p : Package) (tm : Team) (hdr : Word) (fresh : Bool) (n : Nat) (ws : List Word) (th : Thread) : Option Stall :=
  let runs := !fresh || th.guard hdr
  let is := if th.lid = 0 then [] else instrsOf false ws
  let us := is.flatMap (fun i => (Instr.fields i).flatMap (fun u => if u.dst then u.dsts th.wbase else []))
  let named := if is.any Instr.signs then is.flatMap (fun i => (Instr.fields i).flatMap (fun u => u.dsts th.wbase)) else []
  let ks := tiedFlags (th.lid == 0) hdr n ws
  if tm.bars.any (fun b => b.lid == th.lid) then some .bar
  else if th.arrived then some .await
  else if p.now < th.after then some .other
  else if fresh && (List.range 12).any (fun k => hdr.getLsbD (20 + k) && th.flags.getD k 0 != 0) then some .memory
  else if fresh && bitsOf 12 8 th.fpctl.toNat != 0
      && p.accs.any (fun a => a.team == tm.id && a.lid == th.lid && (match a.op with | .result r => r.span.isNone | _ => false)) then some .other
  else if !runs then none
  else if ks.any (fun k => 15 < th.flags.getD k 0 + (ks.filter (· == k)).length) then some .other
  else if us.any (fun d => (p.locked tm th.lid).contains d) then some .lock
  else if named.any (fun d => (p.owed tm th.lid).contains d) then some .other
  else none

/-- The age of a gang: the global id of its lead thread, with the launch depth below it (R33, R70). -/
def Package.lead (p : Package) (g : Gang) : Nat :=
  match p.team? g.team with
  | none => 0
  | some tm =>
    match leastBy id g.lids with
    | some l => tm.globalId l * 16 + recDepth tm.record
    | none => 0

/-- LD is the load that the cap counts. -/
def holdsLoads (pilot : Bool) (ws : List Word) : Bool := (splitWords pilot 8 ws).any (fun x => (headRaw x).major == 0x50)

/-! ### CLAUSE_ISSUE -/

/-- A gang that may not issue now keeps the reason, and the members that are blocked, with the time since when. -/
def Gang.stalled (g : Gang) (s : Stall) (blocked : List Nat) (now : Nat) : Gang :=
  { g with stall := s, since := g.blockedSince s false g.point.hdr blocked now, blocked }

def Package.stallGang (p : Package) (g : Gang) (s : Stall) (blocked : List Nat) : Package :=
  p.setGang g.core g.id g.team (fun g => g.stalled s blocked p.now)

/-- The words before a point inside a clause, and those from it on. -/
def cutAt (hdr : Nat) (mid : Option Nat) (ws : List Word) : List Word × List Word :=
  match mid with
  | none => ([], ws)
  | some pc => (ws.take ((pc - hdr) / 4 - 1), ws.drop ((pc - hdr) / 4 - 1))

/-- The pipe that an instruction takes, `vecs` vector instructions after the first of its clause: V0 and V1 alternate (R82, R100). -/
def pipeOf (r : Raw) (vecs : Nat) : Nat :=
  let m := r.major.toNat
  if isVec r then vecs % 2
  else if (0x30 ≤ m && m ≤ 0x36) || (0x40 ≤ m && m ≤ 0x4F) || m == 0x6A || (0x70 ≤ m && m ≤ 0x75) then 3
  else 2

/-- The pipes of the instructions of a clause; a NOP takes none. -/
def pipesOf : Nat → List (List Word) → List Nat
  | _, [] => []
  | vecs, ws :: rest => if (headRaw ws).major == 0 then pipesOf vecs rest else adjoin (pipeOf (headRaw ws) vecs) (pipesOf (vecs + (isVec (headRaw ws)).toNat) rest)

/-- Whether pipes of a gang's partition are free in this cycle (R70). -/
def Package.pipesFree (p : Package) (g : Gang) (ks : List Nat) : Bool :=
  !p.pipes.any (fun x => x.core == g.core && x.part == g.part && ks.contains x.pipe)

def Package.takePipes (p : Package) (g : Gang) (ks : List Nat) : Package :=
  { p with pipes := p.pipes ++ ks.map (fun k => { core := g.core, part := g.part, pipe := k, id := g.id, team := g.team }) }

/-- The FIFO bank that lacks room for the entries that the FPUSHes of a clause append, one for each thread that runs it (R200). Addresses are
those of the base registers as the clause finds them; an FPUSH whose base the clause itself writes is held at the instruction. -/
def Package.fifoLacks (p : Package) (g : Gang) (hdr : Word) (fresh : Bool) (ws : List Word) : Option (Nat × Nat) :=
  let i : Issue := { core := g.core, id := g.id, team := g.team, hdr := g.point.hdr, hdrWord := hdr, pc := 0, cur := 0, curWords := [], words := []
                     active := [], idle := [], vec := 0, long := 0, time := p.now, sregs := [], ran := [] }
  let runs := g.lids.filter (fun l => (p.thread? ⟨g.team, l⟩).any (fun th => !fresh || th.guard hdr))
  let banks := (instrsOf g.pilot ws).flatMap (fun x => match x with
    | .fpush _ m => runs.filterMap (fun l =>
      match (do let (ea, la) ← effAddr ⟨g.team, l⟩ m.a m.off; fifoAt ⟨g.team, l⟩ ea la : PM Bank) { p with issue := some i } with
      | .ok (b, _) => some (b.cluster, b.phys)
      | .error _ => none)
    | _ => [])
  banks.find? (fun b => decide (Config.fifoSize < (((p.bank? b.1 b.2).map (·.fifo.length)).getD 0) + banks.count b))

/-- Why the clause of a gang from a point on may not issue now: the reason, and the members that wait (R70, R71, R85, R99, R176, R200). -/
def Package.clauseWaits (p : Package) (g : Gang) (tm : Team) (hdr : Word) (before rest : List Word) : Option (Stall × List Nat) :=
  let fresh := g.point.mid.isNone
  let n := ((splitWords g.pilot 8 before).filter (fun x => isLong (headRaw x))).length
  match g.lids.filterMap (fun l => (p.thread? ⟨g.team, l⟩).bind (fun th => (p.notReady tm hdr fresh n rest th).map (fun s => (l, s)))) with
  | (l, s) :: ws => some (s, l :: ws.map (fun (x : Nat × Stall) => x.1))
  | [] => (p.fifoLacks g hdr fresh rest).map (fun b => (.fifo b.1 b.2, g.lids))

/-- Whether a gang is ready but for its pipes and the load cap (R70): its next clause could issue. -/
def Package.gangReady (p : Package) (g : Gang) : Bool :=
  decide (g.id < Config.loneGang) && (match g.held with
  | some _ => g.stall == .none
  | none =>
    match p.team? g.team with
    | none => false
    | some tm =>
      tm.residence == .resident && (match fetchClause ⟨g.team, g.lids.headD 0⟩ g.point.hdr p with
      | .error _ => false
      | .ok ((h, ws), _) =>
        let (before, rest) := cutAt g.point.hdr g.point.mid ws
        clauseOk g.pilot h ws && (p.clauseWaits g tm h before rest).isNone))

/-- Whether a gang was ready in this cycle and has issued its clause: it counts among the ready gangs of the cycle (R71). -/
def Package.issuedNow (p : Package) (g : Gang) : Bool :=
  p.issued.contains (g.core, g.id, g.team) && (match g.held with
    | some i => i.time == p.now
    | none => g.stall == .none)

/-- Whether a thread is runnable (R64): resident, not blocked, not ended. -/
def Package.runnable (p : Package) (tm : Team) (th : Thread) : Bool :=
  tm.residence == .resident && !th.yieldBlocked p.now && !tm.bars.any (fun b => b.lid == th.lid) && !th.arrived && (match th.status with
  | .filed => true
  | .gang core id => !p.gangs.any (fun g => g.is core id tm.id && (decide (Config.loneGang ≤ g.id) || (g.stall.blocks g.held.isSome && g.blocked.contains th.lid)))
  | _ => false)

/-- The lead of the runnable threads of a core, in the measure of `Package.lead`. -/
def Package.firstRunnable (p : Package) (core : Nat) : Option Nat :=
  leastBy id (p.teams.flatMap (fun tm => (tm.threads.filter (fun th => tm.coreOf th.lid == core && p.runnable tm th)).map (fun th =>
    tm.globalId th.lid * 16 + recDepth tm.record)))

/-- Whether the load cap lets a gang's clause issue loads: its lead is among the L lowest of the core's ready gangs, or the gang holds the
lowest runnable thread of the core (R71). -/
def Package.loadCap (p : Package) (g : Gang) : Bool :=
  decide ((p.gangs.filter (fun x => x.core == g.core && decide (p.lead x < p.lead g) && (p.issuedNow x || p.gangReady x))).length < (p.coreOr g.core).cap)
    || (match p.team? g.team, p.firstRunnable g.core with
      | some tm, some k => g.lids.any (fun l => tm.globalId l * 16 + recDepth tm.record == k)
      | _, _ => false)

/-- The clause issues: guards are sampled, flags incremented, latches emptied, and the words stand ready (R81, R85, R98, R99). -/
def Package.issueClause (p : Package) (g : Gang) (tm : Team) (hdr : Word) (before ws : List Word) : Package :=
  let fresh := g.point.mid.isNone
  let lanes := sortBy laneOf g.lids
  let runs := fun (l : Nat) => match p.thread? ⟨g.team, l⟩ with | some th => !fresh || th.guard hdr | none => false
  let active := lanes.filter runs
  let longs := ((splitWords g.pilot 8 before).filter (fun x => isLong (headRaw x))).length
  let vecs := ((splitWords g.pilot 8 before).filter (fun x => isVec (headRaw x))).length
  let ks := tiedFlags g.pilot hdr longs ws
  let k := bitsOf 8 4 hdr.toNat
  let start := fun (th : Thread) =>
    let th := { th with flags := ks.foldl (fun fs k => addFlag k fs) th.flags }
    if fresh then { th with x0 := Latch.empty, x1 := Latch.empty, guardLbl := if k = 31 then 0 else (th.preds.getD k LBit.zero).lbl }
    else th
  let p := active.foldl (fun (p : Package) l => p.setThread ⟨g.team, l⟩ start) p
  let pc := g.point.mid.getD ((g.point.hdr + 4) % 2 ^ 64)
  let i : Issue :=
    { core := g.core, id := g.id, team := g.team, hdr := g.point.hdr, hdrWord := hdr, pc, cur := pc, curWords := [], words := ws
      active, idle := lanes.filter (fun l => !runs l), vec := vecs, long := longs, time := p.now
      sregs := (tm.sregs.drop (128 * bitsOf 2 1 hdr.toNat)).take 128, ran := [] }
  let p := p.setGang g.core g.id g.team (fun g => { g with stall := .none, blocked := [], since := [] })
  { p with issue := some i }

/-- A gang that holds its clause goes on with it, with the threads that are still in the gang. -/
def Package.reissue (p : Package) (g : Gang) (i : Issue) : Package :=
  let p := p.setGang g.core g.id g.team (fun g => { g with held := none })
  { p with issue := some { i with active := i.active.filter g.lids.contains, idle := i.idle.filter g.lids.contains } }

/-- The next clause of a gang, fetched (R97): pops and parks, the checks of R96, readiness, and the issue. -/
def Package.startClause (p : Package) (g : Gang) (tm : Team) : Package :=
  let hdr := g.point.hdr
  let fresh := g.point.mid.isNone
  let p := p.commitCeilings g.team
  match fetchClause ⟨g.team, g.lids.headD 0⟩ hdr p with
  | .error (.wait s) => p.stallGang g s []
  | .error e => g.lids.foldl (fun (p : Package) l => p.stopFetch ⟨g.team, l⟩ g.point e) p
  | .ok ((h, ws), p) =>
    let p := if fresh then p.popAll g.team hdr g.lids else p
    match p.gang? g.core g.id g.team with
    | none => p
    | some g =>
      let (parked, p) := if fresh then p.parkAll g.team hdr g.lids else (false, p)
      if parked then p
      else if !clauseOk g.pilot h ws then
        g.lids.foldl (fun (p : Package) l => p.raiseTrap ⟨g.team, l⟩
          { cause := .illclause, pc := hdr, va := 0, vmask := 0, lbl := 0, aux := h.toNat, resume := { hdr, mid := none }, skip := none }) p
      else
        let (before, rest) := cutAt hdr g.point.mid ws
        let ks := pipesOf ((splitWords g.pilot 8 before).filter (fun x => isVec (headRaw x))).length (splitWords g.pilot 8 rest)
        match p.clauseWaits g tm h before rest with
        | some (s, blocked) => p.stallGang g s blocked
        | none =>
          if holdsLoads g.pilot rest && !p.loadCap g then p.stallGang g .other []
          else if !p.pipesFree g ks then p
          else (p.issueClause g tm h before rest).takePipes g ks

/-- The deferred errors that the threads of a gang take before their next clause (R260): those of accesses made in trap mode at once, the
others outside trap mode. -/
def Thread.errDue (th : Thread) : Option DefErr := th.errs.find? (fun e => e.trapped || th.trap.isNone)

/-- A thread with a deferred error takes UNCORRECTABLE at the clause at which it stops (R252, R257, R260). -/
def Package.takeError (p : Package) (w : Who) (pt : Point) : Package :=
  match (p.thread? w).bind Thread.errDue with
  | none => p
  | some e =>
    (p.setThread w (fun th => { th with errs := th.errs.erase e })).raiseTrap w
      { cause := .uncorrectable, pc := e.pc, va := e.va, vmask := e.vmask, lbl := 0, aux := e.aux, resume := pt, skip := some pt }

/-- A gang with a clause that it holds goes on with it, when its pipes are free. -/
def Package.resumeClause (p : Package) (g : Gang) (i : Issue) : Package :=
  let ks := pipesOf i.vec (splitWords g.pilot 8 i.words)
  if p.pipesFree g ks then (p.reissue g i).takePipes g ks else p

/-- A gang between two clauses: threads with a deferred error stop, and the others fetch the next clause. -/
def Package.nextClause (p : Package) (g : Gang) (tm : Team) : Package :=
  let p := g.lids.foldl (fun (p : Package) l => p.takeError ⟨g.team, l⟩ g.point) p
  match p.gang? g.core g.id g.team with
  | some g => p.startClause g tm
  | none => p

/-- A blocked thread that left its gang (R56) tries its clause: it stays while it would be held, and is filed when it would go on. One that
stands inside a clause shows that at its instruction (`State.runWord`). -/
def Package.tryLone (p : Package) (g : Gang) (tm : Team) : Package :=
  match g.held with
  | some i => p.reissue g i
  | none =>
    let w : Who := ⟨g.team, g.lids.headD 0⟩
    if (p.thread? w).any (fun th => th.yieldBlocked p.now) then p
    else
      let q := p.nextClause g tm
      if q.issue.isSome then p.fileOne w g.point else q

/-- CLAUSE_ISSUE (R96): a gang tries its next clause, or the one that it holds. No clause of a team that is being pre-empted issues; one that
has issued goes on to its end (R261). -/
def execClauseIssue (g : GangRef) (s : State) : Host.Outcome State Fault Refusal :=
  lift (fun p =>
    match p.gang? g.core g.id g.team, p.issue with
    | some x, none =>
      (match p.team? x.team with
      | none => p
      | some tm =>
        if tm.residence != .resident && !(tm.residence == .saving && x.held.isSome) then p
        else
          let p := { p with issued := p.issued ++ [(x.core, x.id, x.team)] }
          if Config.loneGang ≤ x.id then p.tryLone x tm
          else match x.held with
            | some i => p.resumeClause x i
            | none => p.nextClause x tm)
    | _, _ => p) s

/-! ### Berths and gangs -/

/-- BERTH_EMPTY_FILE (R53). -/
def execBerthEmptyFile (core part : Nat) (s : State) : Host.Outcome State Fault Refusal :=
  lift (fun p =>
    if (p.partition core part).queue.isEmpty then p else (p.drainPart core part).settle) s

/-- The first berth whose oldest entry has waited 64 cycles (R54 (c)). -/
def Package.agedBerth (p : Package) (core part : Nat) : Option BerthEntry :=
  (p.partition core part).berths.find? (fun e => decide (e.since + Config.berthAge ≤ p.now))

/-- BERTH_AGE_EXPIRY (R54 (c)). -/
def execBerthAgeExpiry (core part : Nat) (s : State) : Host.Outcome State Fault Refusal :=
  lift (fun p => match p.agedBerth core part with
    | some e => p.formGang core part e
    | none => p) s

/-- GANG_ID_FREE (R54): berths that waited for a gang id yield their gangs. -/
def execGangIdFree (core : Nat) (s : State) : Host.Outcome State Fault Refusal :=
  lift (fun p => if (p.freeGangIds core).isEmpty then p else p.settle) s

/-- The members of a gang that are blocked, each with the time since when (R56, R64): those that the gang's reason blocks, and those within
256 cycles of their YIELD. -/
def Package.blockedIn (p : Package) (g : Gang) : List (Nat × Nat) :=
  g.lids.filterMap (fun l =>
    match (p.thread? ⟨g.team, l⟩).map (fun th => th.yieldTo), (if g.stall.blocks g.held.isSome && g.blocked.contains l then g.since.find? (fun e => e.1 == l) else none) with
    | some y, none => if p.now < y then some (l, y - Config.yieldCycles) else none
    | some y, some e => some (l, if p.now < y then min (y - Config.yieldCycles) e.2.2 else e.2.2)
    | none, _ => none)

/-- A thread that left its gang while it is blocked waits outside it, and is filed when it unblocks (R56). -/
def Package.setAside (p : Package) (g : Gang) (l : Nat) : Package :=
  let w : Who := ⟨g.team, l⟩
  let id := Config.loneGang + g.team * 2 ^ 14 + l
  let held := g.held.map (fun i => { i with id, active := i.active.filter (· == l), idle := i.idle.filter (· == l) })
  let y := ((p.thread? w).map (fun th => th.yieldTo)).getD 0
  let p := (p.leaveGang w).setThread w (fun th => { th with status := .gang g.core id })
  { p with gangs := p.gangs ++ [{ g with id, lids := [l], held, blocked := if g.blocked.contains l then [l] else [], since := [], yieldTo := y }] }

/-- BLOCKED_MEMBER_TIMEOUT (R56): the other threads of the gang are ready and a member has been blocked for 64 cycles: the blocked members leave
the gang. A thread that is not blocked counts as ready, whatever else holds its gang, as a FENCE or the load cap does (DESIGN CHOICE: R56 does
not say what makes one thread of a gang ready). -/
def execBlockedMemberTimeout (g : GangRef) (s : State) : Host.Outcome State Fault Refusal :=
  lift (fun p => match p.gang? g.core g.id g.team with
    | none => p
    | some x =>
      let bs := p.blockedIn x
      if Config.loneGang ≤ x.id || x.lids.all (fun l => bs.any (fun b => b.1 == l)) || !bs.any (fun b => decide (b.2 + Config.berthAge ≤ p.now)) then p
      else
        let p := bs.foldl (fun p b => p.setAside x b.1) p
        (p.setGang g.core g.id g.team (fun g => { g with stall := .none, blocked := [], since := [] })).settle) s

/-- REJOIN_TIMER_EXPIRY (R60): at the end of the cycle in which the timer runs out, so that a thread that arrives in that cycle is
counted. -/
def execRejoinTimerExpiry (team rec_ : Nat) (s : State) : Host.Outcome State Fault Refusal :=
  lift (fun p => match p.team? team with
    | none => p
    | some tm =>
      match tm.divs.find? (fun r => r.id == rec_) with
      | some r => if r.expires.any (fun t => decide (t ≤ p.now)) then p.releaseRec team r else p
      | none => p) s

/-- YIELD_EXPIRY (R70, R469): the thread, and its gang, no longer yield. -/
def execYieldExpiry (team lid : Nat) (s : State) : Host.Outcome State Fault Refusal :=
  lift (fun p => match p.thread? ⟨team, lid⟩ with
    | none => p
    | some th =>
      if th.yieldTo = 0 || p.now < th.yieldTo then p
      else
        let p := p.setThread ⟨team, lid⟩ (fun th => { th with yieldTo := 0 })
        let old := fun (g : Gang) => g.team == team && g.lids.contains lid && g.yieldTo ≤ p.now
        ({ p with gangs := mapIf old (fun g => { g with yieldTo := 0 }) p.gangs }).settle) s

/-- LOAD_CAP_WINDOW_END (R71). A window without loads leaves the cap (DESIGN CHOICE). -/
def execLoadCapWindowEnd (core : Nat) (s : State) : Host.Outcome State Fault Refusal :=
  lift (fun p =>
    let win := (p.coreOr core).win
    if (p.now - win) % Config.loadWindow != 0 || p.now ≤ win then p
    else p.setCore core (fun c =>
      let cap := if c.loads < 8 * c.lost then max (c.cap / 2) 4 else if 32 * c.lost < c.loads then min (2 * c.cap) 64 else c.cap
      { c with cap, loads := 0, lost := 0 })) s

/-- LABEL_CACHE_MISS_DONE (R109): the gang whose clause was held for a label join goes on; a join changes nothing else. -/
def execLabelCacheMissDone (g : GangRef) (s : State) : Host.Outcome State Fault Refusal :=
  lift (fun p => p.setGang g.core g.id g.team (fun x => if x.stall == .other then { x with stall := .none } else x)) s

end Sys2Proof.Machine
end

