-- ==== Sys2Proof/Machine/Int.lean ====
section
/-! DEFINITION. The integer group and the moves (R338, R339, R358, R391, R404, R412, R413, R416). -/

namespace Sys2Proof.Machine

/-- NOP has no effect (R94, R416). -/
def execNop (s : State) : Host.Outcome State Fault Refusal := lift (fun p => p) s

/-- Signed or natural value of an operand of an integer type. -/
def iVal (t : ITy) (x : Nat) : Int :=
  match t with
  | .n32 => natBits 32 x
  | .i32 => intBits 32 x
  | .n64 => natBits 64 x
  | .i64 => intBits 64 x

/-- An integer two-source form. -/
def int2 (o : Alu ITy) (f : Nat → Nat → Nat) (w : Who) : PM Unit :=
  alu2 w o o.ty.regs o.ty.regs o.ty.regs (iExt o.ty) (iImm o.ty) f

/-- vd ← (va + vb) mod 2^w (R338). -/
def execAdd (o : Alu ITy) (s : State) : Host.Outcome State Fault Refusal :=
  lift (each (int2 o (fun a b => a + b))) s

/-- Addition with the carry in the odd register of the destination pair, which is a source too (R339). -/
def execAddc (o : Alu Unit) (s : State) : Host.Outcome State Fault Refusal :=
  lift (each (fun w => do
    checkFields w ([dst o.d 2, src o.a 1] ++ srcB o.b 1)
    let (c, lc) ← readField w 1 (o.d + 1) none
    let (a, la) ← readField w 1 o.a o.lit
    let (b, lb) ← readB w 1 o.b o.lit (iImm .n32)
    let lbl ← resultLabel w (lc ||| la ||| lb)
    vout w o.d 2 (a + b + c % 2) lbl)) s

/-- vd ← (va − vb) mod 2^w (R391). -/
def execIsub (o : Alu ITy) (s : State) : Host.Outcome State Fault Refusal :=
  lift (each (int2 o (fun a b => wrapInt (32 * o.ty.regs) ((a : Int) - b)))) s

/-- vd ← (va × vb) mod 2^w (R391). -/
def execImul (o : Alu ITy) (s : State) : Host.Outcome State Fault Refusal :=
  lift (each (int2 o (fun a b => a * b))) s

/-- vd ← (va × vb + vd) mod 2^w (R391). -/
def execImad (o : Alu ITy) (s : State) : Host.Outcome State Fault Refusal :=
  lift (each (fun w => alu3 w o o.ty.regs o.ty.regs o.ty.regs (iExt o.ty) (iImm o.ty) (fun d a b => a * b + d))) s

/-- vd ← |x| mod 2^w (R391). -/
def execIabs (wide : Bool) (o : Un Unit) (s : State) : Host.Outcome State Fault Refusal :=
  let t : ITy := if wide then .i64 else .i32
  lift (each (fun w => alu1 w o t.regs t.regs .signed (iImm t) (fun b => (iVal t b).natAbs))) s

/-- The lesser, compared as the type (R391). -/
def execImin (o : Alu ITy) (s : State) : Host.Outcome State Fault Refusal :=
  lift (each (int2 o (fun a b => if iVal o.ty b < iVal o.ty a then b else a))) s

/-- The greater, compared as the type (R391). -/
def execImax (o : Alu ITy) (s : State) : Host.Outcome State Fault Refusal :=
  lift (each (int2 o (fun a b => if iVal o.ty a < iVal o.ty b then b else a))) s

/-- Whether a condition of CMP holds between two integers (R358). -/
def condHolds (c : Cond) (a b : Int) : Bool :=
  match c with
  | .eq => a == b
  | .ne => a != b
  | .lt => decide (a < b)
  | .ge => decide (b ≤ a)

/-- The predicate becomes the comparison of va and vb (R358). -/
def execCmp (o : CmpOp ITy) (s : State) : Host.Outcome State Fault Refusal :=
  lift (each (fun w => do
    let n := o.ty.regs
    checkFields w (src o.a n :: srcB o.b n)
    let (a, la) ← readField w n o.a o.lit (iExt o.ty)
    let (b, lb) ← readB w n o.b o.lit (iImm o.ty) (iExt o.ty)
    let lbl ← resultLabel w (la ||| lb)
    writePred w o.p (condHolds o.c (iVal o.ty a) (iVal o.ty b)) lbl)) s

/-- vd:vd+1 ← (va:va+1 + signed(vb, 32) × 2^s) mod 2^64 (R404). -/
def execLea (o : Alu (BitVec 2)) (s : State) : Host.Outcome State Fault Refusal :=
  lift (each (fun w => do
    checkFields w ([dst o.d 2, src o.a 2] ++ srcB o.b 1)
    let (a, la) ← readField w 2 o.a o.lit
    let (b, lb) ← readB w 1 o.b o.lit (iImm .i32)
    let lbl ← resultLabel w (la ||| lb)
    vout w o.d 2 (wrapInt 64 ((a : Int) + intBits 32 b * 2 ^ o.ty.toNat)) lbl)) s

/-- vd ← vb; in pilot code with an s-register B the form writes s(128k+B) from A and requires D = 122 (R80, R412). -/
def execMov (o : Alu ITy) (s : State) : Host.Outcome State Fault Refusal :=
  let n := o.ty.regs
  lift (each (fun w => do
    match o.b with
    | .sreg b =>
      if w.isPilot then do
        if o.d.toNat != 122 then illop else pure ()
        checkFields w [src o.a n]
        let i ← theIssue
        let (a, la) ← readField w n o.a o.lit (iExt o.ty)
        let lbl ← resultLabel w la
        modify (fun p => p.putVal w (.sreg (128 * i.bank + b.toNat)) n a lbl)
      else do
        if o.a.toNat != 0 then illop else pure ()
        checkFields w [dst o.d n]
        let (v, lv) ← readSreg w n b
        let lbl ← resultLabel w lv
        vout w o.d n v lbl
    | b => do
      checkFields w (dst o.d n :: srcB b n)
      let (v, lv) ← readB w n b o.lit (iImm o.ty) (iExt o.ty)
      let lbl ← resultLabel w lv
      vout w o.d n v lbl)) s

/-- vd ← the 14-bit constant, sign- or zero-extended (R413). -/
def execMovl (ty : ITy) (d : Fld) (k : BitVec 14) (s : State) : Host.Outcome State Fault Refusal :=
  lift (each (fun w => do
    checkFields w [dst d ty.regs]
    let lbl ← resultLabel w 0
    let v := match ty with
      | .i32 | .i64 => wrapInt 64 (intBits 14 k.toNat)
      | _ => k.toNat
    vout w d ty.regs v lbl)) s

end Sys2Proof.Machine
end

