-- ==== Sys2Proof/Machine/Cross.lean ====
section
/-! DEFINITION. Instructions across the gang: SHFL, VOTE, RDX and SCAN (R120, R425, R426, R441, R442, R444, R445, R458,
R459). -/

namespace Sys2Proof.Machine

/-- What one lane gives an instruction across the gang: its operand, the operand's owners, and its Ctx (R120). -/
structure LaneVal where
  val  : Nat
  own  : Mask
  ctx  : Mask
  sel  : Nat
  selM : Mask
  deriving DecidableEq, Repr

/-- Ctx(t) of a thread as owners, and its guard label. -/
def ctxOf (w : Who) : PM Mask := do
  let th ← thr w
  let p ← get
  pure (th.ctxMask p)

/-- The source lane of SHFL (R445). -/
def shflLane (m : ShMode) (l d : Nat) : Option Nat :=
  match m with
  | .idx => some (d % 32)
  | .up => if l < d then none else some (l - d)
  | .down => if 31 < l + d then none else some (l + d)
  | .xor => some (l ^^^ (d % 32))

def execShfl (o : Alu ShMode) (s : State) : Host.Outcome State Fault Refusal :=
  lift (gather
    (fun w => do
      checkFields w ([dst o.d 1, src o.a 1] ++ srcB o.b 1)
      let (a, la) ← readField w 1 o.a o.lit
      let (b, lb) ← readB w 1 o.b o.lit lImm
      let c ← ctxOf w
      pure ({ val := a, own := la, ctx := c, sel := b, selM := lb } : LaneVal))
    (fun u w me => do
      let from_ := if w.isPilot then some (w.lid, me) else
        match shflLane o.ty (laneOf w.lid) me.sel with
        | some l => u.find? (fun x => laneOf x.1 == l)
        | none => none
      match from_ with
      | some (_, x) => do
        let lbl ← resultLabel w (x.own ||| x.ctx ||| me.selM)
        lateResult w o.d 1 x.val lbl
      | none => do
        let lbl ← resultLabel w (me.own ||| me.selM)
        lateResult w o.d 1 me.val lbl)) s

/-- The owners that every lane of a group gives (R120). -/
def groupMask (u : List (Nat × LaneVal)) : Mask := u.foldl (fun m x => m ||| x.2.own ||| x.2.ctx) 0

/-- VOTE (R459). -/
def execVote (op : VoteOp) (sense : Bool) (ps : BitVec 5) (s : State) : Host.Outcome State Fault Refusal :=
  lift (gather
    (fun w => do
      match op with
      | .ballot d => checkFields w [dst d 1]
      | _ => pure ()
      let (v, l) ← readPred w ps
      let c ← ctxOf w
      pure ({ val := (v != sense).toNat, own := l, ctx := c, sel := 0, selM := 0 } : LaneVal))
    (fun u w _ => do
      let lbl ← resultLabel w (groupMask u)
      let holds := u.map (fun x => x.2.val == 1)
      match op with
      | .all q => writePred w q (holds.all id) lbl
      | .any q => writePred w q (holds.any id) lbl
      | .eq q => writePred w q (holds.all id || holds.all not) lbl
      | .ballot d => vout w d 1 (u.foldl (fun n x => n + x.2.val * 2 ^ laneOf x.1) 0) lbl)) s

/-- One step of RDX and SCAN (R426). -/
def redStep (op : RedOp) (t : RTy) (rm : RM) (a b : Nat) : Nat × Exc :=
  match t with
  | .int ty =>
    let w := 32 * ty.regs
    (match op with
     | .add => ((a + b) % 2 ^ w, 0)
     | .min => (if iVal ty b < iVal ty a then b else a, 0)
     | .max => (if iVal ty a < iVal ty b then b else a, 0)
     | .and => (a &&& b, 0)
     | .or => (a ||| b, 0)
     | .xor => (a ^^^ b, 0))
  | t =>
    let F := match t with | .f64 => Fmt.f64 | _ => Fmt.f32
    (match op with
     | .min => minMax F false a b
     | .max => minMax F true a b
     | _ => F.add rm a b)

/-- A result as RDX and SCAN deliver it: every NaN is the canonical one (R143). -/
def redDeliver (t : RTy) (v : Nat) : Nat :=
  match t with
  | .int _ => v
  | .f64 => if (Fmt.f64.decode v).isNan then Fmt.f64.nan else v
  | _ => if (Fmt.f32.decode v).isNan then Fmt.f32.nan else v

/-- The fold of the operands in ascending lane order (R426, R442). -/
def redFold (op : RedOp) (t : RTy) (rm : RM) : List Nat → Nat × Exc
  | [] => (0, 0)
  | x :: xs =>
    let (v, e) := xs.foldl (fun acc y => let (v, e) := redStep op t rm acc.1 y; (v, acc.2 ||| e)) (x, (0 : Exc))
    (redDeliver t v, e)

/-- The identity of an operation (R442). -/
def redIdentity (op : RedOp) (t : RTy) : Nat :=
  match t with
  | .int ty =>
    let w := 32 * ty.regs
    let signed := ty == .i32 || ty == .i64
    (match op with
     | .add | .or | .xor => 0
     | .and => 2 ^ w - 1
     | .min => if signed then 2 ^ (w - 1) - 1 else 2 ^ w - 1
     | .max => if signed then 2 ^ (w - 1) else 0)
  | t =>
    let F := match t with | .f64 => Fmt.f64 | _ => Fmt.f32
    (match op with
     | .min => F.inf
     | .max => F.inf + F.signBit
     | _ => 0)

def rtyExt : RTy → Ext
  | .int .i64 => .signed
  | .int _ => .unsigned
  | _ => .float

/-- What a lane of RDX or SCAN reads; the rounding mode and the FLAGS owners stand in `sel` and `selM`. -/
def redRead (ty : RTy) (d b : Fld) (lit : Option Word) (w : Who) : PM LaneVal := do
  checkFields w [dst d ty.regs, src b ty.regs]
  let (v, l) ← readField w ty.regs b lit (rtyExt ty)
  let th ← thr w
  let p ← get
  pure { val := v, own := l, ctx := th.ctxMask p, sel := th.fpctl.toNat % 8, selM := p.maskOf th.flagsLbl }

def isFloat : RTy → Bool
  | .int _ => false
  | _ => true

/-- RDX (R426). -/
def execRdx (op : RedOp) (ty : RTy) (d b : Fld) (lit : Option Word) (s : State) : Host.Outcome State Fault Refusal :=
  lift (gather (redRead ty d b lit)
    (fun u w me => do
      let first := ((u.head?).map (·.2)).getD me
      let (v, x) := redFold op ty (rmOf first.sel) (u.map (·.2.val))
      let lbl ← resultLabel w (groupMask u ||| (if isFloat ty then first.selM else 0))
      if isFloat ty then lateFp w x lbl else pure ()
      lateResult w d ty.regs v lbl (if isFloat ty then some x else none))) s

/-- SCAN (R442). -/
def execScan (excl : Bool) (op : RedOp) (ty : RTy) (d b : Fld) (lit : Option Word) (s : State) :
    Host.Outcome State Fault Refusal :=
  lift (gather (redRead ty d b lit)
    (fun u w me => do
      let first := ((u.head?).map (·.2)).getD me
      let upto := (u.takeWhile (fun x => x.1 != w.lid))
      let pre := if excl then upto else upto ++ [(w.lid, me)]
      let (v, x) := if pre.isEmpty then (redIdentity op ty, 0) else redFold op ty (rmOf first.sel) (pre.map (·.2.val))
      let lbl ← resultLabel w (groupMask pre)
      if isFloat ty then lateFp w x lbl else pure ()
      lateResult w d ty.regs v lbl (if isFloat ty then some x else none))) s

end Sys2Proof.Machine
end

