-- ==== Sys2Proof/Machine/Fifo.lean ====
section
/-! DEFINITION. What ends the waits at cluster SRAM: the events FIFO_ENTRY_ARRIVE, FIFO_ROOM, BANK_WRITEBACK_DONE and AWAIT_RELEASE
(R199 to R206, R264). -/

namespace Sys2Proof.Machine

/-- The pop that has waited longest at a bank. -/
def Package.firstPop (p : Package) (cluster bank : Nat) : Option Acc := leastBy (·.id) (p.accs.filter (p.popWaits cluster bank))

/-- FIFO_ENTRY_ARRIVE (R199, R200): the first entry goes to the pop that has waited longest. -/
def execFifoEntryArrive (cluster bank : Nat) (s : State) : Host.Outcome State Fault Refusal :=
  lift (fun p => match p.bank? cluster bank, p.firstPop cluster bank with
    | some b, some a =>
      (match b.fifo, a.op with
      | e :: es, .pop _ d n m =>
        let p := p.setBank { b with fifo := es }
        (p.completeWith a d (n / 4) (e.val % 2 ^ (8 * n)) (p.maskOf e.lbl ||| m) none).wake
          (fun st => st == Stall.fifo cluster bank || st == Stall.bank cluster bank)
      | _, _ => p)
    | _, _ => p) s

/-- FIFO_ROOM (R200): gangs held at an FPUSH to the bank try again. -/
def execFifoRoom (cluster bank : Nat) (s : State) : Host.Outcome State Fault Refusal :=
  lift (fun p => match p.bank? cluster bank with
    | some b => if b.fifo.length < Config.fifoSize then p.unstall (fun st => st == Stall.fifo cluster bank) else p
    | none => p) s

/-- BANK_WRITEBACK_DONE (R201): a pilot held at BANK tries again; the switch takes effect there. -/
def execBankWritebackDone (cluster bank : Nat) (s : State) : Host.Outcome State Fault Refusal :=
  lift (fun p => if p.writes.any (fun x => x.cluster == cluster && x.cc && x.wct.isNone) then p
    else p.unstall (fun st => st == Stall.bank cluster bank)) s

/-- Whether a thread of a gang that holds its clause at AWAIT waits no longer. -/
def Package.awaitOver (p : Package) (g : Gang) (lid : Nat) : Bool :=
  match g.held with
  | none => false
  | some i =>
    match decode i.words with
    | .ok (.await m, rest) =>
      !isWait (awaitBody m ⟨g.team, lid⟩ { p with issue := some (i.advance (i.words.length - rest.length)) })
    | _ => false

/-- AWAIT_RELEASE (R206): the generation that a thread awaits has come, and it is not blocked any more. -/
def execAwaitRelease (team lid : Nat) (s : State) : Host.Outcome State Fault Refusal :=
  lift (fun p =>
    let hit := fun (g : Gang) => g.team == team && g.stall == Stall.await && g.blocked.contains lid && p.awaitOver g lid
    let free := fun (g : Gang) =>
      let left := without lid g.blocked
      { g with blocked := left, stall := if left.isEmpty then .none else g.stall }
    { p with gangs := mapIf hit free p.gangs }) s

end Sys2Proof.Machine
end

