-- ==== Sys2Proof/Machine/Trap.lean ====
section
/-! DEFINITION. Page faults that end, trap entry, pre-emption and resumption: the events PAGE_RESIDENT, PAGE_DELIVER, TRAP_ENTRY,
PREEMPT, PREEMPT_SAVE_DONE and RESUME (R187, R224, R252, R258 to R264). -/

namespace Sys2Proof.Machine

/-- TRAP_ENTRY (R252): the thread's outstanding instructions have completed, and it takes its trap. -/
def execTrapEntry (team lid : Nat) (s : State) : Host.Outcome State Fault Refusal :=
  lift (fun p =>
    let w : Who := ⟨team, lid⟩
    match p.thread? w with
    | some th => (match th.status with
      | .trapping r => if p.trapWaits w then p else p.enterTrap w r
      | _ => p)
    | none => p) s

/-- Whether an address of a team still takes PAGE. -/
def Package.stillPage (p : Package) (team va : Nat) : Bool :=
  match (p.team? team).bind (fun tm => p.space? tm.space) with
  | some sp => p.walkFrom va walkLevels sp.root == .page
  | none => true

/-- PAGE_RESIDENT (R224, R258): a thread in the fault berth is filed at its continuation point, once its address no longer takes
PAGE. A thread of a team that is not resident is filed when the team resumes. -/
def execPageResident (team lid : Nat) (s : State) : Host.Outcome State Fault Refusal :=
  lift (fun p =>
    let w : Who := ⟨team, lid⟩
    match p.thread? w, p.team? team with
    | some th, some tm => (match th.status with
      | .faulted va _ _ _ =>
        if p.stillPage team va then p
        else if tm.residence == .saved then
          let e : BerthEntry := { team, lid, point := th.point, key := 0, since := p.now }
          (p.setThread w (fun th => { th with status := .filed })).setTeam team (fun tm => { tm with saved := tm.saved ++ [e] })
        else p.fileOne w th.point
      | _ => p)
    | _, _ => p) s

/-- PAGE_DELIVER (R259): the thread takes a precise PAGE trap. TRAPPC is the faulting instruction, RGNPC in a region, and for a
fetch the header of the clause that led there (R97). A delivery to a thread of a team that is not resident has no effect, and the system cores
must deliver it again (DESIGN CHOICE, log 118: the spec does not say what a delivery to such a thread does). -/
def execPageDeliver (team lid : Nat) (s : State) : Host.Outcome State Fault Refusal :=
  lift (fun p =>
    let w : Who := ⟨team, lid⟩
    match p.thread? w, p.team? team with
    | some th, some tm => (match th.status with
      | .faulted va vm region fetch =>
        if tm.residence == .saved then p
        else
          let pc := if region then th.point.hdr else if fetch then th.frm else th.point.mid.getD th.point.hdr
          p.raiseTrap w { cause := .page, pc, va, vmask := vm, lbl := 0, aux := region.toNat + 2 * fetch.toNat
                          resume := th.point, skip := some th.point }
      | _ => p)
    | _, _ => p) s

/-! ### Pre-emption -/

/-- PREEMPT (R261): from now on no clause of the team issues. -/
def execPreempt (team : Nat) (s : State) : Host.Outcome State Fault Refusal :=
  lift (fun p => match p.team? team with
    | some tm => if tm.ended || tm.residence != .resident then p else p.setTeam team (fun tm => { tm with residence := .saving })
    | none => p) s

/-- Whether the save of a team can complete (R261, with the exemptions of R252): its writes have their WCTs, its long-latency instructions have
completed, signed rounds that are tied to no flag among them, its trap entries are over, and no gang stands inside a clause in which it is not
blocked. A thread that is blocked inside an issued clause, at a DQPOP, JWAIT, AWAIT or XACQ or at a full queue, can reach no clause boundary while no
clause of its team issues: it is saved at that instruction, and goes on with the clause there when the team resumes (DEDUCED, log 117: R261 asks for a
clause boundary and R264 for no progress while saved, and no rule names this case). -/
def Package.saveReady (p : Package) (tm : Team) : Bool :=
  p.writes.all (fun x => x.team != tm.id || x.kind == .engine || x.wct.isSome)
    && p.accs.all (fun a => a.team != tm.id || a.killed || !(p.accWaits a || (match a.op with
      | .load _ => true
      | _ => false)))
    && !p.jobs.any (fun j => j.team == tm.id && j.flag.isNone && j.kind != .chunk)
    && !p.rounds.any (fun r => r.team == tm.id)
    && !tm.signs.any (fun s => s.sigs.any (fun g => g.flag.isNone))
    && tm.threads.all (fun th => match th.status with | .trapping _ => false | _ => true)
    && p.gangs.all (fun g => g.team != tm.id || g.held.isNone || g.stall.blocks true)

/-- The threads of a team taken out of their gangs, berths and queues, each with its point and its key. -/
def Package.pullTeam (p : Package) (tm : Team) : List BerthEntry × Package :=
  let waits := p.parts.flatMap (fun x => (x.berths ++ x.queue).filter (fun e => e.team == tm.id))
  tm.threads.foldl (fun (acc : List BerthEntry × Package) th =>
    let p := acc.2
    match (p.thread? ⟨tm.id, th.lid⟩).map (fun (t : Thread) => t.status) with
    | some (TStatus.gang _ _) =>
      let (pt, p) := p.pullOut ⟨tm.id, th.lid⟩
      let e : BerthEntry := { team := tm.id, lid := th.lid, point := pt, key := 0, since := p.now }
      (acc.1 ++ [e], p.setThread ⟨tm.id, th.lid⟩ (fun th => { th with status := .filed, point := pt }))
    | some TStatus.filed =>
      (match waits.find? (fun e => e.lid == th.lid) with
      | some e => (acc.1 ++ [e], p.unfile ⟨tm.id, th.lid⟩)
      | none => acc)
    | _ => acc) ([], p)

/-- PREEMPT_SAVE_DONE (R40, R62, R187, R262, R264): the team leaves its cores; its waiting pops are withdrawn and its sparsity entries
saved, so that a queue that they filled is open to a resumed team. -/
def execPreemptSaveDone (team : Nat) (s : State) : Host.Outcome State Fault Refusal :=
  lift (fun p => match p.team? team with
    | none => p
    | some tm =>
      if tm.residence != .saving || !p.saveReady tm then p
      else
        let (es, p) := p.pullTeam tm
        let logical := fun (phys : Nat) => (((p.world? tm.world).bind (fun x =>
          x.banks.find? (fun b => b.1 == tm.cluster && b.2.2 == phys))).map (fun b => b.2.1)).getD 0
        let pops := (sortBy (·.id) (p.accs.filter (fun a => a.team == team))).filterMap (fun a => match a.op with
          | .pop b _ _ _ => some ({ acc := a.id, logical := logical b } : SavedPop)
          | _ => none)
        let mine := fun (x : SparseQ) => x.team == team
        let sparse := (p.sparse.filter mine).flatMap (fun x => x.entries.map (fun (e : Nat × Lbl) =>
          ({ row := tm.rowIn x.core x.part, q := x.q, pos := e.1, lbl := e.2 } : SavedSparse)))
        let stop := fun (r : DivRec) => { r with left := r.expires.map (fun t => t - p.now), expires := none }
        let save := fun (tm : Team) => { tm with residence := .saved, saved := es, pops := pops, sparse := tm.sparse ++ sparse, divs := tm.divs.map stop }
        let p := ({ p with sparse := p.sparse.filter (fun x => !mine x), freed := adjoin tm.cluster p.freed }).setTeam team save
        p.restoreAll.settle) s

/-- Whether cores suit a saved team: as many as it had, of one cluster of its world, in rising order, with room for its rows. -/
def Package.coresFit (p : Package) (tm : Team) (cores : List Nat) : Bool :=
  let cluster := cores.headD 0 / 4
  let rows := (recThreads tm.record + 31) / 32
  cores.length == tm.c && cores.all (fun k => k / 4 == cluster)
    && (List.range (cores.length - 1)).all (fun k => decide (cores.getD k 0 < cores.getD (k + 1) 0))
    && (p.world? tm.world).any (fun x => x.clusters.any (fun c => c.2 == cluster))
    && p.coresHold cores rows (tm.nregs + tm.nx / 2)

/-- The core that takes the place of one of the old cores. -/
def moveCore (old new : List Nat) (core : Nat) : Nat := new.getD (old.idxOf core) core

/-- The pops that were withdrawn go to the tail of the wait order of the same logical banks, in their order (R264). -/
def Package.restorePops (p : Package) (x : World) (tm : Team) (cluster : Nat) : Package :=
  tm.pops.foldl (fun (p : Package) q =>
    let (k, p) := p.fresh
    let phys := (x.bank? cluster q.logical).getD 0
    p.setAcc q.acc (fun a => { a with id := k, op := (match a.op with | .pop _ d n m => .pop phys d n m | o => o) })) p

/-- RESUME (R62, R72, R187, R262 to R264): a saved team takes cores of a cluster of its package, and its threads are filed where they
stood. -/
def execResume (team : Nat) (cores : List Nat) (s : State) : Host.Outcome State Fault Refusal :=
  lift (fun p => match p.team? team with
    | none => p
    | some tm =>
      match p.world? tm.world with
      | none => p
      | some x =>
        if tm.residence != .saved || !p.coresFit tm cores then p
        else
          let cluster := cores.headD 0 / 4
          let go := fun (r : DivRec) => { r with expires := r.left.map (fun t => p.now + t), left := none }
          let tile := fun (t : Tile) => { t with core := moveCore tm.cores cores t.core }
          let wakeUp := fun (t : Team) => { t with residence := .resident, cores := cores, cluster := cluster, saved := [], pops := []
                                                   divs := t.divs.map go, tiles := t.tiles.map tile }
          let p := p.setTeam team wakeUp
          let moved := fun (a : Acc) => { a with cluster := cluster, core := moveCore tm.cores cores a.core }
          let p := { p with accs := mapIf (fun a => a.team == team) moved p.accs }
          let p := p.restorePops x tm cluster
          let p := p.restoreSparse team
          let p := cores.foldl (fun (p : Package) c => p.setCore c (fun x => { x with win := p.now, loads := 0, lost := 0 })) p
          p.fileAll team (tm.saved.map (fun e => (e.lid, e.point, e.key)))) s

end Sys2Proof.Machine
end

