-- ==== Sys2Proof/Machine/Fabric.lean ====
section
/-! DEFINITION. The fabric: the events PACKET_RECEIVE, LANE_ERASURE, LINK_RETIRE, SLOT_START, SLOT_TABLE_WRITE, CIRCUIT_CHANGE,
DRAIN_MARKER_ACK, RELOCK, TUG_FIRMWARE_DOWNLOAD, TUG_FAULT, GROUP_TABLE_CHANGE and DRAIN_ROUND (R131, R305 to R316). -/

namespace Sys2Proof.Machine

/-! ### Ports (R1, R306, R309, R312): 0 to 30 electrical, 31 to 38 optical; tug 39 serves the reduction hub -/

def electrical (k : Nat) : Bool := k < 31
def optical (k : Nat) : Bool := 31 ≤ k && k < 39

/-- A port at reset: the slot table of an optical one has 64 entries, none of them in use (R309). -/
def Port.reset (k : Nat) : Port :=
  let slot := fun (i : Nat) => ({ port := k, idx := i, dest := 0, guard := 500, len := 10000, v := false } : Slot)
  { id := k, erasures := 0, retired := false, slots := if optical k then (List.range 64).map slot else [], pending := [], slot := 0
    start := 0, queue := [], used := [], firmware := 0, stale := 0 }

def Package.port (p : Package) (k : Nat) : Port := (p.ports.find? (fun x => x.id == k)).getD (Port.reset k)

def Package.setPort (p : Package) (x : Port) : Package := { p with ports := insertBy (·.id) x (p.ports.filter (fun y => y.id != x.id)) }

/-! ### PACKET_RECEIVE (R305) -/

/-- A collective packet that its tug drops counts in the tug's stale counter; which tug receives it is open (R314). -/
def Package.countStale (p : Package) : Package :=
  let (k, p) := p.pick 40
  let x := p.port k
  p.setPort { x with stale := x.stale + 1 }

/-- The live entry that admits a collective packet (R314). -/
def Package.groupFor (p : Package) (gid gen : Nat) : Option Group :=
  p.groups.find? (fun g => g.id == gid && g.state == 1 && g.gen == gen)

def Package.setGroup (p : Package) (id : Nat) (f : Group → Group) : Package :=
  { p with groups := mapIf (fun g => g.id == id) f p.groups }

/-- Whether a job is the collective of a group and SEQ. -/
def Job.isColl (j : Job) (gid seq : Nat) : Bool :=
  j.gid == gid && j.seq == seq && (match j.kind with | .coll _ | .chunk => true | _ => false)

/-- Whether a collective is over on this package: its SEQ was taken, and no job or bound grid of it is left. -/
def Package.collOver (p : Package) (g : Group) (seq : Nat) : Bool :=
  let past := (g.seq + 2 ^ 24 - seq % 2 ^ 24) % 2 ^ 24
  decide (1 ≤ past ∧ past ≤ 2 ^ 23) && !p.jobs.any (fun j => j.isColl g.id seq)
    && !p.grids.any (fun x => x.seq == some seq && recChandle x.record / 16 == g.id)

/-- The mark of a peer whose drain marker has been acknowledged (R311). -/
def Package.peerDrained (p : Package) (k : Nat) : Package :=
  { p with circuit := p.circuit.map (fun c => { c with peers := without k c.peers }) }

/-- The copy that the reader of a remote pod line keeps (R271): in the L2, for a POD-CACHED page, or in the cluster cache, for a .cc load of another
one. The home's package time tells nothing about the reader's (R3): the lease counts from the arrival (DESIGN CHOICE). -/
def Package.podKept (p : Package) (world src : Nat) (a : Acc) (o : LoadOp) (v : Nat) : Option PodCopy :=
  match o.step with
  | none => none
  | some st =>
    if !(p.tideOf world).any (fun t => t.step == st) then none
    else if o.mode == 2 then some { world, home := src, line := lineOf o.pa, step := st, cluster := none, lease := 0, val := v }
    else if podMode o.mode && o.policy == .cc && p.hasCache a.cluster then
      some { world, home := src, line := lineOf o.pa, step := st, cluster := some a.cluster, lease := p.now + Config.lease, val := v }
    else none

/-- A copy of a pod line of another package put in place of the one that the same cache held; in a full cache another line makes room (R193). -/
def Package.putPod (p : Package) (c : PodCopy) : Package :=
  let old := fun (x : PodCopy) => x.world == c.world && x.home == c.home && x.line == c.line && x.step == c.step && x.cluster == c.cluster
  let p := { p with pods := p.pods.filter (fun x => !old x) }
  let p := match c.cluster with
    | none => p.roomDie c.line
    | some k => p.roomCache (2 ^ 64) k
  { p with pods := p.pods ++ [c] }

/-- The answer to a load of this package at a remote home. -/
def Package.answered (p : Package) (world src acc val : Nat) (mask : Mask) (bad : Nat) (line : Option Nat) : Package :=
  let kept := match p.acc? acc, line with
    | some a, some v => (match a.op with | .load o => p.podKept world src a o v | _ => none)
    | _, _ => none
  ((kept.map p.putPod).getD p).setAcc acc (fun a => { a with op := a.op.answered val mask bad })

/-- A line delivered after a tide enters the reader's L2, tagged with the step that it serves (R297). -/
def Package.delivered (p : Package) (world src line step val : Nat) : Package :=
  if (p.tideOf world).any (fun t => t.step == step || (t.step + 1) % 2 ^ 32 == step) then
    p.putPod { world, home := src, line, step, cluster := none, lease := 0, val }
  else p

/-- What a packet does as its receiver takes it; the rest waits in the inbox for its own event. -/
def Package.receive (p : Package) (m : Packet) : Package :=
  match m.msg with
  | .loadResp acc val mask bad line => p.answered m.world m.src acc val mask bad line
  | .header gid gen h =>
    (match p.groupFor gid gen with
    | none => p.countStale
    | some g => if p.collOver g h.seq then p else p.setGroup gid (fun g => { g with heads := g.heads ++ [h] }))
  | .contribution gid gen job d =>
    (match p.groupFor gid gen with
    | none => p.countStale
    | some g =>
      if p.collOver g d.seq then p
      else match p.labelFor d.mask with
        | some (_, p) => p.setGroup gid (fun g => { g with datas := g.datas ++ [d] })
        | none =>
          let p := p.send m.src m.world (.refused job)
          { p with jobs := mapIf (fun j => j.isColl gid d.seq) (fun j => j.finish 4) p.jobs })
  | .drain gid => p.send m.src m.world (.drainAck gid)
  | .drainAck gid => p.setGroup gid (fun g => { g with acks := without m.src g.acks })
  | .peerDrain k => p.send m.src m.world (.peerDrainAck k)
  | .peerDrainAck _ => p.peerDrained m.src
  | .podLine line step val => p.delivered m.world m.src line step val
  | .record _ _ | .bulk _ _ | .ack _ _ _ _ | .refused _ | .loadReq _ _ _ _ _ _ _ _ _ _ | .arrive _ _ _ _ | .lateReset _ _ | .release _ _ _ _ =>
    { p with inbox := p.inbox ++ [m] }

/-- Whether a package still holds packets for a destination that it sent before a given one: in its queues, or on the way to them. -/
def Package.holdsBefore (p : Package) (dst seq : Nat) : Bool :=
  (p.out ++ p.ports.flatMap (·.queue)).any (fun y => y.dst == dst && decide (y.seq < seq))

/-- Whether a packet can be received: a drain marker follows every packet sent before it (R311), and nothing passes a circuit that is
dark. -/
def State.mayReceive (s : State) (m : Packet) : Bool :=
  let p := s.here
  let marker := match m.msg with | .drain _ => true | .peerDrain _ => true | _ => false
  let dark := p.circuit.any (fun c => c.dark) && p.worlds.any (fun x => x.peers.any (fun q => q.phys == m.src && q.state == .quiescing))
  let first := !s.net.any (fun y => y.src == m.src && y.dst == m.dst && decide (y.seq < m.seq))
    && !s.others.any (fun q => q.phys == m.src && q.holdsBefore m.dst m.seq)
  !dark && (!marker || first)

/-- PACKET_RECEIVE (R305): a packet that the fabric holds for this package is received once; a duplicate is discarded. -/
def execPacketReceive (src seq : Nat) (s : State) : Host.Outcome State Fault Refusal :=
  match s.net.find? (fun m => m.src == src && m.seq == seq && m.dst == s.here.phys) with
  | none => .next s
  | some m =>
    if s.mayReceive m then
      let same := fun (y : Packet) => y.src == src && y.seq == seq && y.dst == s.here.phys
      .next { s with here := s.here.receive m, net := s.net.filter (fun y => !same y) }
    else .next s

/-! ### Links and slots -/

/-- A second lane of an electrical link has failed: the link is retired, and its flits go over other links, so no packet is lost (R306). -/
def Package.retireLink (p : Package) (port : Nat) : Package :=
  let x := p.port port
  (p.setPort { x with erasures := x.erasures + 1, retired := true }).interrupt .linkRetire 0 3

/-- LANE_ERASURE (R306): a lane of an electrical link fails. The first is declared an erasure; the second retires the link. -/
def execLaneErasure (port : Nat) (s : State) : Host.Outcome State Fault Refusal :=
  lift (fun p =>
    let x := p.port port
    if !electrical port || x.retired then p
    else if 1 ≤ x.erasures then p.retireLink port
    else (p.setPort { x with erasures := x.erasures + 1 }).interrupt .erasure 0 2) s

/-- LINK_RETIRE (R306): a link with a second failed lane is retired. -/
def execLinkRetire (port : Nat) (s : State) : Host.Outcome State Fault Refusal :=
  lift (fun p =>
    let x := p.port port
    if !electrical port || x.retired || x.erasures < 1 then p else p.retireLink port) s

/-- The valid slots of a table in ascending index. -/
def validSlots (ss : List Slot) : List Slot := sortBy (·.idx) (ss.filter (·.v))

/-- The slot after the one in use; none at the end of the rotation. -/
def nextSlot (ss : List Slot) (now_ : Nat) : Option Slot := (validSlots ss).find? (fun x => decide (now_ < x.idx + 1))

/-- The slot in use. `Port.slot` is its index plus 1, and 0 while none is. -/
def Port.inUse (x : Port) : Option Slot := (validSlots x.slots).find? (fun e => e.idx + 1 == x.slot)

/-- Cycles of a slot, its guard interval included: 1.1 for each ns (R1, R309). -/
def Slot.cycles (e : Slot) : Nat := ((e.guard + e.len) * 11 + 9) / 10

/-- Whether the slot in use has ended. -/
def Port.slotOver (x : Port) (now : Nat) : Bool := x.inUse.all (fun e => decide (x.start + e.cycles ≤ now))

/-- SLOT_START (R309): the slot in use has ended, and the next valid one begins; at the start of a rotation the writes to the table take effect. -/
def execSlotStart (port : Nat) (s : State) : Host.Outcome State Fault Refusal :=
  lift (fun p =>
    let x := p.port port
    if !optical port || !x.slotOver p.now then p
    else match (if x.slot = 0 then none else nextSlot x.slots x.slot) with
      | some n => p.setPort { x with slot := n.idx + 1, start := p.now, used := [] }
      | none =>
        let x := if x.pending.isEmpty then x else { x with slots := x.pending, pending := [] }
        match validSlots x.slots with
        | [] => p.setPort { x with slot := 0 }
        | n :: _ => p.setPort { x with slot := n.idx + 1, start := p.now, used := [] }) s

/-- A value written as the nearest bound (R309). -/
def bound (lo hi v : Nat) : Nat := if v < lo then lo else if hi < v then hi else v

/-- SLOT_TABLE_WRITE (R309): the entry takes effect at the start of the next rotation. -/
def execSlotTableWrite (port idx dest guard len : Nat) (v : Bool) (s : State) : Host.Outcome State Fault Refusal :=
  lift (fun p =>
    if !optical port || 64 ≤ idx then p
    else
      let x := p.port port
      let e : Slot := { port, idx, dest := dest % 4096, guard := bound 100 65535 guard, len := bound 1000 16777215 len, v }
      let base := if x.pending.isEmpty then x.slots else x.pending
      p.setPort { x with pending := base.filter (fun y => y.idx != idx) ++ [e] }) s

/-! ### Sending (R309, R310) -/

/-- Units of 64 bytes of a packet's payload, which has at most 256 bytes; a packet without payload takes none of an allowance (R310, and the all-to-all
example after R317). -/
def Msg.units : Msg → Nat
  | .bulk b _ => (b.data.length + 63) / 64
  | .contribution _ _ _ d => (d.data.length + 63) / 64
  | .record _ _ | .podLine _ _ _ => 1
  | .loadResp _ _ _ bad _ => if bad = 0 then 1 else 0
  | _ => 0

/-- The optical ports that have a slot to a destination. -/
def Package.opticalTo (p : Package) (dst : Nat) : List Port :=
  p.ports.filter (fun x => optical x.id && (x.slots ++ x.pending).any (fun e => e.v && e.dest == dst))

/-- A packet takes its place in the send queue of an optical port that has slots to its destination; which of several such ports it takes is
open, as is every route (R305). Without one it goes over electrical links, straight into the fabric (DEDUCED: R310 gives queues to the optical ports
alone). -/
def Package.route (p : Package) (m : Packet) : List Packet × Package :=
  match (if m.dst = p.phys then [] else p.opticalTo m.dst) with
  | [] => ([m], p)
  | x :: xs =>
    let (k, p) := p.pick (xs.length + 1)
    let x := (x :: xs).getD k x
    ([], p.setPort { x with queue := x.queue ++ [m] })

def Package.routeAll (p : Package) : List Packet → List Packet × Package
  | [] => ([], p)
  | m :: ms =>
    let (xs, p) := p.route m
    let (ys, p) := p.routeAll ms
    (xs ++ ys, p)

/-- Units that a port has sent in the slot in use. -/
def Port.sent (x : Port) : Nat := x.used.foldl (fun n e => n + e.2) 0

/-- Whether the circuits to a package are dark (R311). -/
def Package.darkTo (p : Package) (dst : Nat) : Bool :=
  p.circuit.any (·.dark) && p.worlds.any (fun x => x.peers.any (fun q => q.phys == dst && q.state == .quiescing))

/-- Whether a world's allowance for the slot has room for a packet (R310). -/
def Package.allows (p : Package) (x : Port) (world units : Nat) : Bool :=
  let a := ((p.world? world).bind (fun y => (y.allowances.find? (fun e => e.1 == x.id)).map (·.2))).getD 0
  a == 0 || decide (spGet 0 x.used world + units ≤ a)

/-- The packets of a port's queues that leave in a cycle of a slot: those to its destination, in queue order, as far as their worlds' allowances have
room and the last flit leaves in time; a packet without payload has the flits of one unit. An optical port carries 64 units each ns (R1). A packet that cannot leave keeps its place, and so do those of its
world behind it. `stuck` names the worlds of such packets. -/
def Package.leave (p : Package) (e : Slot) (budget : Nat) : List Packet → Port → List Nat → List Packet × Port
  | [], x, _ => ([], x)
  | m :: ms, x, stuck =>
    let n := m.msg.units
    if m.dst != e.dest || p.darkTo m.dst then
      let (out, x) := p.leave e budget ms x stuck
      (out, { x with queue := m :: x.queue })
    else if stuck.contains m.world || !p.allows x m.world n || decide (budget < x.sent + max 1 n) then
      let (out, x) := p.leave e budget ms x (m.world :: stuck)
      (out, { x with queue := m :: x.queue })
    else
      let (out, x) := p.leave e budget ms { x with used := spSet 0 x.used m.world (spGet 0 x.used m.world + n) } stuck
      (m :: out, x)

/-- What leaves an optical port in the present cycle; nothing does in the guard interval (R309). -/
def Package.leavePort (p : Package) (x : Port) : List Packet × Port :=
  match x.inUse with
  | none => ([], x)
  | some e => p.leave e (64 * min e.len ((p.now + 1 - x.start) * 10 / 11 - e.guard)) x.queue { x with queue := [] } []

/-- The end of a cycle: the packets sent in it are routed, and the optical ports send. Answers what has entered the fabric. -/
def Package.transmit (p : Package) : List Packet × Package :=
  let (sent, p) := p.routeAll p.out
  let outs := p.ports.map p.leavePort
  (sent ++ outs.flatMap (·.1), { p with out := [], ports := outs.map (·.2) })

/-! ### Circuits (R311) -/

/-- The system command queue of the system cores. -/
def systemQueue : Nat := 64

/-- The peers of a world with one entry quiescing. -/
def World.quiesce (x : World) (logical phys : Nat) : World :=
  { x with peers := sortBy (·.logical) (x.peers.filter (fun q => q.logical != logical) ++ [{ logical, phys, state := .quiescing }]) }

/-- The entry of a command's tables quiesces the peer whose reachability it changes: one that it makes absent, or maps to a package that the table does
not reach under that number now (R311 step 1). -/
def World.quiesceFor (x : World) (e : Nat × Nat × Nat) : World :=
  if e.1 != x.id then x
  else match x.peers.find? (fun q => q.logical == e.2.1) with
    | none => if e.2.2 = 0 then x else x.quiesce e.2.1 (e.2.2 - 1)
    | some q => if (if e.2.2 = 0 then q.state == .absent else q.state != .absent && q.phys == e.2.2 - 1) then x else x.quiesce e.2.1 q.phys

/-- The packages toward which a command drains the send queues: the peers that it names, and those that an entry of its tables takes from a world's
peers (R311 step 1). -/
def Package.drained (p : Package) (peers : List Nat) (tables : List (Nat × Nat × Nat)) : List Nat :=
  let olds := tables.filterMap (fun e => ((p.world? e.1).bind (fun x => x.peers.find? (fun q => q.logical == e.2.1))).bind
    (fun (q : Peer) => if q.state == .absent || e.2.2 = q.phys + 1 then none else some q.phys))
  ((peers ++ olds).filter (· != p.phys)).eraseDups

/-- What a circuit change does on one package: the peers concerned become quiescing in every world's table, and a drain marker follows the last packet to
each (R311 step 1). `peers` are the pairs of packages whose circuits change, `tables` the new entries of each package's tables. -/
def Package.startCircuit (p : Package) (peers : List (Nat × Nat)) (tables : List (Nat × Nat × Nat × Nat)) (journal : Nat) : Package :=
  let mine := (tables.filter (fun e => e.1 == p.phys)).map (·.2)
  let named := peers.filterMap (fun c => if c.1 == p.phys then some c.2 else if c.2 == p.phys then some c.1 else none)
  let ks := p.drained named mine
  let quiet := fun (q : Peer) => if ks.contains q.phys && q.state == .reachable then { q with state := .quiescing } else q
  let hush := fun (x : World) => mine.foldl World.quiesceFor { x with peers := x.peers.map quiet }
  let p := { p with worlds := p.worlds.map hush, circuit := some { journal, peers := ks, tables := mine, dark := false } }
  ks.foldl (fun p k => p.send k 0 (.peerDrain k)) p

/-- CIRCUIT_CHANGE (R311 step 1): one command for all packages of the pod, journaled on the package where it is submitted. One change runs at a time
(DESIGN CHOICE: the spec does not say what a second one does meanwhile). -/
def execCircuitChange (peers : List (Nat × Nat)) (tables : List (Nat × Nat × Nat × Nat)) (s : State) : Host.Outcome State Fault Refusal :=
  if (s.here :: s.others).any (fun q => q.circuit.isSome) || !s.here.journalRoom systemQueue then .next s
  else
    let (seq, p) := s.here.commandAdd systemQueue 0 5 0 1
    .next { s with here := p.startCircuit peers tables seq, others := s.others.map (fun q => q.startCircuit peers tables 0) }

/-- DRAIN_MARKER_ACK (R311 step 2): when every marker of every package is acknowledged, the circuits go dark. -/
def execDrainMarkerAck (s : State) : Host.Outcome State Fault Refusal :=
  let darken := fun (q : Package) => { q with circuit := q.circuit.map (fun c => { c with dark := true }) }
  if (s.here :: s.others).all (fun q => q.circuit.all (fun c => c.peers.isEmpty)) then
    .next { s with here := darken s.here, others := s.others.map darken }
  else .next s

/-- A world's table with an entry of the command installed: 0 absent, k + 1 physical package k, reachable. -/
def World.installPeer (x : World) (e : Nat × Nat × Nat) : World :=
  if e.1 != x.id then x
  else
    let old := ((x.peers.find? (fun q => q.logical == e.2.1)).map (fun (q : Peer) => q.phys)).getD 0
    let q : Peer := { logical := e.2.1, phys := if e.2.2 = 0 then old else e.2.2 - 1
                      state := if e.2.2 = 0 then .absent else .reachable }
    { x with peers := sortBy (·.logical) (x.peers.filter (fun q => q.logical != e.2.1) ++ [q]) }

/-- The new tables of a package are installed, and the accesses held go on (R311 step 4). A quiescing peer that the command gives no new entry is
reachable again. -/
def Package.relock (p : Package) : Package :=
  match p.circuit with
  | some c =>
    if !c.dark then p
    else
      let back := fun (q : Peer) => if q.state == .quiescing then { q with state := .reachable } else q
      let open_ := fun (x : World) => c.tables.foldl World.installPeer { x with peers := x.peers.map back }
      let p := { p with circuit := none, worlds := p.worlds.map open_ }
      (p.journalSet systemQueue c.journal 2 0).wake (fun st => st == Stall.peer)
  | none => p

/-- RELOCK (R311 steps 3 and 4): light has returned, on every package. -/
def execRelock (s : State) : Host.Outcome State Fault Refusal :=
  .next { s with here := s.here.relock, others := s.others.map Package.relock }

/-! ### Tugs (R312) -/

/-- The collectives in flight on the package. -/
def Package.collsInFlight (p : Package) : List (Nat × Nat) :=
  ((p.jobs.filter (fun j => !j.done && (match j.kind with | .coll _ | .chunk => true | _ => false))).map
    (fun (j : Job) => (j.gid, j.seq))).eraseDups

/-- Those of some collectives that are in flight on one tug; which they are is open. -/
def Package.onTug (p : Package) : List (Nat × Nat) → List (Nat × Nat) × Package
  | [] => ([], p)
  | c :: cs =>
    let (k, p) := p.pick 2
    let (xs, p) := p.onTug cs
    (if k = 0 then (c :: xs, p) else (xs, p))

/-- TUG_FIRMWARE_DOWNLOAD (R312, R484). -/
def execTugFirmwareDownload (port version : Nat) (ed ml : Bool) (s : State) : Host.Outcome State Fault Refusal :=
  lift (fun p =>
    if 40 ≤ port || !p.journalRoom systemQueue then p
    else if !(ed && ml) then (p.commandAdd systemQueue 11 6 0 4).2
    else
      let (busy, p) := p.onTug p.collsInFlight
      if !busy.isEmpty then (p.commandAdd systemQueue 12 6 0 4).2
      else
        let x := p.port port
        ((p.setPort { x with firmware := version }).commandAdd systemQueue 0 6 0 2).2) s

/-- TUG_FAULT (R312): the collectives in flight on the tug complete with STATUS FAULT. -/
def execTugFault (port : Nat) (s : State) : Host.Outcome State Fault Refusal :=
  lift (fun p =>
    if 40 ≤ port then p
    else
      let (cs, p) := p.onTug p.collsInFlight
      let hit := fun (j : Job) => !j.done && cs.any (fun c => j.isColl c.1 c.2)
      ({ p with jobs := mapIf hit (fun j => j.finish stFault) p.jobs }).interrupt .tugFault 0 4) s

/-! ### Groups (R313, R314) -/

def Group.free (id : Nat) : Group :=
  { id, seq := 0, rank := 0, world := 0, state := 0, gen := 0, used := 0, members := [], mlist := 0, acks := [], heads := [], datas := [] }

def Package.groupOr (p : Package) (id : Nat) : Group := (p.groups.find? (fun g => g.id == id)).getD (Group.free id)

def Package.putGroup (p : Package) (g : Group) : Package :=
  { p with groups := insertBy (·.id) g (p.groups.filter (fun x => x.id != g.id)) }

/-- The 128 bits of an entry of the group table (R313). -/
def Group.entry (g : Group) : Nat :=
  (g.seq % 2 ^ 24) * 2 ^ 104 + (g.rank % 2 ^ 12) * 2 ^ 92 + ((g.members.length - 1) % 2 ^ 12) * 2 ^ 80 + (g.world % 64) * 2 ^ 74 + (g.state % 4) * 2 ^ 72
    + (g.gen % 16) * 2 ^ 68 + (g.used % 2 ^ 16) * 2 ^ 48 + (g.mlist / 64 % 2 ^ 42) * 2 ^ 6

/-- The member list as an array of 16-bit logical package numbers in memory (R313). -/
def memberList (mlist : Nat) (members : List Nat) : Placement :=
  { bytes := ((List.range members.length).zip members).flatMap (fun x => cellsOf (mlist + 2 * x.1) 2 x.2), labels := [] }

/-- Whether the values of a command fit the fields of an entry and of the member list (R313). -/
def groupFits (id gen rank world mlist : Nat) (members : List Nat) : Bool :=
  decide (id < 4096 ∧ gen < 16 ∧ rank < 4096 ∧ world < 64 ∧ mlist % 64 = 0 ∧ members.length ≤ 4096 ∧ mlist + 2 * members.length ≤ Config.memBytes)
    && members.all (fun k => decide (k < 65536))

/-- GROUP_TABLE_CHANGE (R313, R314, R479, R484): the system cores write the member list, and the id is made live under a generation whose USED bit is
clear; without members it is made free. `list` is MLIST with the members that the list names. -/
def execGroupTableChange (id gen rank world : Nat) (list : Nat × List Nat) (s : State) : Host.Outcome State Fault Refusal :=
  lift (fun p =>
    if !groupFits id gen rank world list.1 list.2 || !p.journalRoom systemQueue || !p.mayPlace 0 (memberList list.1 list.2) then p
    else
      let g := p.groupOr id
      if list.2.isEmpty then
        ((p.putGroup { g with state := 0, acks := [], heads := [], datas := [] }).commandAdd systemQueue 0 9 0 2).2
      else if g.used.testBit gen then (p.commandAdd systemQueue 14 9 0 4).2
      else
        let live : Group := { id, seq := 0, rank, world, state := 1, gen, used := g.used ||| 2 ^ gen, members := list.2, mlist := list.1, acks := []
                              heads := [], datas := [] }
        let p := ((p.systemWrite (memberList list.1 list.2)).map (·.2)).getD p
        ((p.putGroup live).commandAdd systemQueue 0 9 0 2).2) s

/-- Physical packages of the other members of a group. -/
def Package.otherMembers (p : Package) (g : Group) : List Nat :=
  match p.world? g.world with
  | none => []
  | some x => ((g.members.map (fun k => (p.peerOf x false k).2)).filter (· != p.phys)).eraseDups

/-- A member starts a drain round: markers go to every other member. A live entry is draining in between, and `acks` holds the package itself beside the
members waited for. -/
def Package.startDrain (p : Package) (id : Nat) : Package :=
  let g := p.groupOr id
  let ks := p.otherMembers g
  let p := p.putGroup { g with acks := p.phys :: ks, state := if g.state = 1 then 2 else g.state }
  ks.foldl (fun p k => p.send k g.world (.drain id)) p

/-- A member whose round is over: USED keeps the bit of the current generation only. -/
def Package.endDrain (p : Package) (id : Nat) : Package :=
  let g := p.groupOr id
  p.putGroup { g with acks := [], used := g.used &&& 2 ^ g.gen, state := if g.state = 2 then 1 else g.state }

/-- DRAIN_ROUND (R314): on every member at once, each sends a marker to every other one; once every marker of every member is acknowledged, the round clears
USED on all. -/
def execDrainRound (id : Nat) (s : State) : Host.Outcome State Fault Refusal :=
  let g := s.here.groupOr id
  let ks := s.here.otherMembers g
  let mine := fun (q : Package) => ks.contains q.phys
  if g.acks.isEmpty then
    if g.used = 0 then .next s
    else .next { s with here := s.here.startDrain id, others := mapIf mine (fun q => q.startDrain id) s.others }
  else if g.acks == [s.here.phys] && (s.others.filter mine).all (fun q => (q.groupOr id).acks == [q.phys]) then
    .next { s with here := s.here.endDrain id, others := mapIf mine (fun q => q.endDrain id) s.others }
  else .next s

end Sys2Proof.Machine
end

