-- ==== Sys2Proof/Machine/Label.lean ====
section
/-! DEFINITION. Labels as data and declassification: LGET, LJOIN, LCEIL, ENDO and DECL (R129, R133 to R135, R370, R371, R377,
R378, R399, R405, R406). -/

namespace Sys2Proof.Machine

/-- LGET writes the index of its source's label; the result's own label is Join(Ctx(t), g) (R406). -/
def execLget (d : Fld) (sr : LgetSrc) (lit : Option Word) (s : State) : Host.Outcome State Fault Refusal :=
  lift (each (fun w => do
    let m ← match sr with
      | .one b => do
        checkFields w (dst d 1 :: srcB b 1)
        let (_, m) ← readB w 1 b lit lImm
        pure m
      | .pair b => do
        checkFields w (dst d 1 :: srcB b 2)
        let (_, m) ← readB w 2 b lit lImm
        pure m
      | .pred q => do
        checkFields w [dst d 1]
        let (_, m) ← readPred w q
        pure m
    let idx ← mkLabel m
    let lbl ← resultLabel w 0
    vout w d 1 idx.toNat lbl)) s

/-- The label that a label operand names; PROT with TRAPAUX = 6 when bits 31:16 are non-zero or the index is 0xFFFF or
free (R399, R406). -/
def labelOperand (v : Nat) : PM Lbl := do
  let p ← get
  if v < 0xFFFF && p.live v then pure (BitVec.ofNat 16 v) else prot 6

/-- LJOIN copies va and raises its label (R406). -/
def execLjoin (wide : Bool) (o : Alu Unit) (s : State) : Host.Outcome State Fault Refusal :=
  let n := if wide then 2 else 1
  lift (each (fun w => do
    checkFields w ([dst o.d n, src o.a n] ++ srcB o.b 1)
    let (a, la) ← readField w n o.a o.lit
    let (b, lb) ← readB w 1 o.b o.lit lImm
    let l ← labelOperand b
    let ml ← maskOf l
    let lbl ← resultLabel w (la ||| ml ||| lb)
    vout w o.d n a lbl)) s

/-- Since when a thread has waited at the LCEIL that runs. -/
def Package.ceilSince (p : Package) (w : Who) (i : Issue) : Nat :=
  (((p.gang? i.core i.id i.team).bind (fun g => g.since.find? (fun e => e.1 == w.lid && e.2.1 == i.cur))).map (·.2.2)).getD p.now

/-- Whether it is a thread's turn at LCEIL (R399): no thread of another gang of its team that came to an LCEIL earlier, or in the same cycle with a lower
id, waits there, and none of lower id may still come to one in the cycle in which this one came. -/
def Package.ceilTurn (p : Package) (w : Who) (i : Issue) : Bool :=
  let t := p.ceilSince w i
  p.gangs.all (fun g => g.team != w.team || (g.core == i.core && g.id == i.id)
    || !((t == p.now && p.untried g && g.lids.any (fun l => decide (l < w.lid)))
      || (g.stall == .lceil && g.held.isSome && g.since.any (fun e => decide (e.2.2 < t) || (e.2.2 == t && decide (e.1 < w.lid))))))

/-- LCEIL in one thread, checked against the ceiling that the one before left (R129, R399). Answers whether the thread waits for its turn. -/
def lceilBody (b : BOp) (lit : Option Word) (w : Who) : PM Bool := do
  let i ← theIssue
  if i.hasRun w.lid then pure false
  else do
    checkFields w (srcB b 1)
    let (v, _) ← readB w 1 b lit lImm
    let l ← labelOperand v
    let tm ← teamOf w
    let p ← get
    let now_ := tm.lceils.foldl (fun c e => p.lowered c e.2) tm.ceiling
    if !p.ceilTurn w i then pure true
    else if !dominates (p.maskOf now_) (p.maskOf l) then prot 5
    else do
      setTeam w (fun tm => { tm with lceils := tm.lceils ++ [(i.active, l)] })
      pure false

/-- LCEIL lowers the team ceiling from the next clause on; threads apply it in ascending global id (R129, R399). -/
def execLceil (b : BOp) (lit : Option Word) (s : State) : Host.Outcome State Fault Refusal :=
  lift (eachByIdThen (lceilBody b lit) (holdRest .lceil)) s

/-- Free entries of the endorsement table are not listed; the free index of lowest number (R133). -/
def Package.freeEndorse (p : Package) : Option Nat :=
  firstFree (fun k => p.endorse.any (fun e => e.1 == k)) 0 Config.endorseSize

/-- ENDO creates one endorsement for each active thread, in ascending lane order (R134, R378). -/
def execEndo (a : Fld) (s : State) : Host.Outcome State Fault Refusal :=
  lift (each (fun w => do
    checkFields w [src a 4]
    let (q, m) ← readField w 4 a none
    let x ← worldOf w
    let g ← env w
    let owner := q % 128
    let frm := (q / 2 ^ 32) % 65536
    let dest := (q / 2 ^ 64) % 65536
    let world := (q / 2 ^ 112) % 64
    let uses := (q / 2 ^ 96) % 65536
    let single : Mask := 1#128 <<< owner
    if dominates single (m ||| g) then pure () else do
      let joined ← mkLabel (m ||| g)
      trap .lblStore 0 joined owner
    if x.caps.getLsbD owner then pure () else prot 4
    let p ← get
    if frm < 0xFFFF && p.live frm && dest < 0xFFFF && p.live dest then pure () else prot 6
    let mf ← maskOf (BitVec.ofNat 16 frm)
    let mt ← maskOf (BitVec.ofNat 16 dest)
    if mf.getLsbD owner && !mt.getLsbD owner && uses != 0 then pure () else prot 7
    match p.freeEndorse with
    | none => prot 2
    | some k =>
      modify (fun p => { p with endorse := insertBy (·.1) (k, { uses, frm := BitVec.ofNat 16 frm, dest := BitVec.ofNat 16 dest
                                                                world, owner, issuer := x.id }) p.endorse }))) s

/-- Owners of a set in ascending order. -/
def ownersOf (m : Mask) : List Nat := (List.range 128).filter (fun k => m.getLsbD k)

/-- The live entry of lowest index that endorses the release of an owner (R135). -/
def Package.endorsement (p : Package) (owner world : Nat) (frm dest : Lbl) : Option Nat :=
  (p.endorse.find? (fun e => e.2.owner == owner && e.2.frm == frm && e.2.dest == dest && e.2.world == world && e.2.uses != 0)).map (·.1)

/-- One use of each of the entries taken; an entry without uses is free (R133, R135). -/
def useEntries (ks : List Nat) (t : List (Nat × Endorse)) : List (Nat × Endorse) :=
  (mapIf (fun e => ks.contains e.1) (fun e => (e.1, { e.2 with uses := e.2.uses - 1 })) t).filter (fun e => e.2.uses != 0)

/-- DECL releases a value to a smaller owner set, in ascending lane order, each thread in one atomic step (R135, R371). -/
def execDecl (wide : Bool) (o : Alu Unit) (s : State) : Host.Outcome State Fault Refusal :=
  let n := if wide then 2 else 1
  lift (each (fun w => do
    checkFields w ([dst o.d n, src o.a n] ++ srcB o.b 1)
    let (v, ms) ← readField w n o.a o.lit
    let (b, mb) ← readB w 1 o.b o.lit lImm
    let x ← worldOf w
    let g ← env w
    let dest ← labelOperand b
    let mt ← maskOf dest
    if dominates mt (mb ||| g) then pure () else prot 8
    let mf := ms ||| g
    let frm ← mkLabel mf
    if dominates mf mt then pure () else prot 1
    let p ← get
    let removed := ownersOf (mf &&& ~~~mt)
    match removed.find? (fun k => (p.endorsement k x.id frm dest).isNone) with
    | some k => trap .declUnendorsed 0 frm k
    | none =>
      let used := removed.filterMap (fun k => p.endorsement k x.id frm dest)
      modify (fun p => { p with endorse := useEntries used p.endorse })
      out w o.d n v dest)) s

end Sys2Proof.Machine
end

