-- ==== Sys2Proof/Machine/Logic.lean ====
section
/-! DEFINITION. The logic group, the selection and the predicates (R340, R350, R354, R357, R417 to R421, R438 to R440, R443,
R464). -/

namespace Sys2Proof.Machine

/-- Width in bits of a logic type. -/
def lBits (t : LTy) : Nat := 32 * t.regs

/-- A logic two-source form. -/
def logic2 (o : Alu LTy) (f : Nat → Nat → Nat) (w : Who) : PM Unit :=
  alu2 w o o.ty.regs o.ty.regs o.ty.regs .unsigned lImm f

/-- A shift or rotation: B is one 32-bit count for both types (R439). -/
def shift2 (o : Alu LTy) (f : Nat → Nat → Nat) (w : Who) : PM Unit :=
  alu2 w o o.ty.regs o.ty.regs 1 .unsigned lImm f

/-- va AND vb (R340). -/
def execAnd (o : Alu LTy) (s : State) : Host.Outcome State Fault Refusal :=
  lift (each (logic2 o (fun a b => a &&& b))) s

/-- va AND NOT vb (R340). -/
def execAndn (o : Alu LTy) (s : State) : Host.Outcome State Fault Refusal :=
  lift (each (logic2 o (fun a b => a &&& (2 ^ lBits o.ty - 1 - b % 2 ^ lBits o.ty)))) s

/-- va OR vb (R417). -/
def execOr (o : Alu LTy) (s : State) : Host.Outcome State Fault Refusal :=
  lift (each (logic2 o (fun a b => a ||| b))) s

/-- va XOR vb (R464). -/
def execXor (o : Alu LTy) (s : State) : Host.Outcome State Fault Refusal :=
  lift (each (logic2 o (fun a b => a ^^^ b))) s

/-- (va × 2^c) mod 2^w, 0 for c ≥ w (R440). -/
def shlVal (w a c : Nat) : Nat := if c < w then (a * 2 ^ c) % 2 ^ w else 0
/-- floor(va / 2^c), 0 for c ≥ w (R440). -/
def shrVal (w a c : Nat) : Nat := if c < w then (a % 2 ^ w) / 2 ^ c else 0
/-- floor(signed(va) / 2^c), every bit the sign for c ≥ w (R440). -/
def sarVal (w a c : Nat) : Nat := wrapInt w ((intBits w a) / (2 ^ (min c w) : Nat))
/-- va rotated left by c mod w (R438). -/
def rolVal (w a c : Nat) : Nat := let a := a % 2 ^ w; let k := c % w; (a * 2 ^ k) % 2 ^ w + a / 2 ^ (w - k)

def execShl (o : Alu LTy) (s : State) : Host.Outcome State Fault Refusal :=
  lift (each (shift2 o (shlVal (lBits o.ty)))) s

def execShr (o : Alu LTy) (s : State) : Host.Outcome State Fault Refusal :=
  lift (each (shift2 o (shrVal (lBits o.ty)))) s

def execSar (o : Alu LTy) (s : State) : Host.Outcome State Fault Refusal :=
  lift (each (shift2 o (sarVal (lBits o.ty)))) s

def execRol (o : Alu LTy) (s : State) : Host.Outcome State Fault Refusal :=
  lift (each (shift2 o (rolVal (lBits o.ty)))) s

/-- The field of length n at position p of a value, sign-extended from its bit n−1 for a signed type (R350). -/
def bfxVal (t : ITy) (a fw : Nat) : Nat :=
  let w := 32 * t.regs
  let n := bitsOf 15 8 fw + 1
  let f := ((a % 2 ^ w) / 2 ^ (bitsOf 7 0 fw)) % 2 ^ n
  match t with
  | .i32 | .i64 => wrapInt w (intBits n f)
  | _ => f % 2 ^ w

/-- The field of length n at position p replaced (R350). -/
def bfiVal (w d a fw : Nat) : Nat :=
  let p := bitsOf 7 0 fw
  let m := ((2 ^ (bitsOf 15 8 fw + 1) - 1) * 2 ^ p) % 2 ^ w
  (d &&& (2 ^ w - 1 - m)) ||| ((a * 2 ^ p) % 2 ^ w &&& m)

def execBfx (o : Alu ITy) (s : State) : Host.Outcome State Fault Refusal :=
  lift (each (fun w => alu2 w o o.ty.regs o.ty.regs 1 (iExt o.ty) lImm (bfxVal o.ty))) s

def execBfi (o : Alu LTy) (s : State) : Host.Outcome State Fault Refusal :=
  lift (each (fun w => alu3 w o o.ty.regs o.ty.regs 1 .unsigned lImm (bfiVal (lBits o.ty)))) s

/-- A single-source logic form. -/
def logic1 (o : Un LTy) (f : Nat → Nat) (w : Who) : PM Unit := alu1 w o o.ty.regs o.ty.regs .unsigned lImm f

/-- Number of set bits among the low n (R420). -/
def popcount : Nat → Nat → Nat
  | 0, _ => 0
  | n + 1, x => x % 2 + popcount n (x / 2)

/-- Bits reversed among the low n (R354). -/
def reverseBits : Nat → Nat → Nat
  | 0, _ => 0
  | n + 1, x => (x % 2) * 2 ^ n + reverseBits n (x / 2)

/-- Zero bits above the highest set bit of the low w bits (R357). -/
def leadingZeros (w x : Nat) : Nat := let x := x % 2 ^ w; if x = 0 then w else w - 1 - Nat.log2 x

def execPopc (o : Un LTy) (s : State) : Host.Outcome State Fault Refusal :=
  lift (each (logic1 o (popcount (lBits o.ty)))) s

def execClz (o : Un LTy) (s : State) : Host.Outcome State Fault Refusal :=
  lift (each (logic1 o (leadingZeros (lBits o.ty)))) s

def execBrev (o : Un LTy) (s : State) : Host.Outcome State Fault Refusal :=
  lift (each (logic1 o (reverseBits (lBits o.ty)))) s

/-- Byte i of PRMB's result: the pool byte that the selector's nibble names, or its sign (R421). -/
def prmbByte (pool sel i : Nat) : Nat :=
  let n := (sel / 16 ^ i) % 16
  let b := (pool / 256 ^ (n % 8)) % 256
  if n < 8 then b else if b < 128 then 0 else 255

def prmbVal (pool sel : Nat) : Nat :=
  prmbByte pool sel 0 + 256 * prmbByte pool sel 1 + 65536 * prmbByte pool sel 2 + 16777216 * prmbByte pool sel 3

def execPrmb (o : Alu Unit) (s : State) : Host.Outcome State Fault Refusal :=
  lift (each (fun w => alu2 w o 1 2 1 .unsigned lImm prmbVal)) s

/-- vd ← vb when the predicate, under its sense, holds, else vd; the label joins both arms and the predicate (R443). -/
def execSel (sense : Bool) (q : BitVec 5) (o : Un LTy) (s : State) : Host.Outcome State Fault Refusal :=
  let n := o.ty.regs
  lift (each (fun w => do
    checkFields w (dst o.d n :: srcB o.b n)
    let (c, lc) ← readPred w q
    let (d, ld) ← readField w n o.d o.lit
    let (b, lb) ← readB w n o.b o.lit lImm
    let lbl ← resultLabel w (lc ||| ld ||| lb)
    vout w o.d n (if c != sense then b else d) lbl)) s

/-- pd ← minor[2 × pa + pb]; the label joins both sources whatever the table (R418). -/
def execPlop (pd pa pb : BitVec 5) (tt : BitVec 4) (s : State) : Host.Outcome State Fault Refusal :=
  lift (each (fun w => do
    let (a, la) ← readPred w pa
    let (b, lb) ← readPred w pb
    let lbl ← resultLabel w (la ||| lb)
    writePred w pd (tt.getLsbD (2 * a.toNat + b.toNat)) lbl)) s

/-- The predicates p0 to p23 as a word (R419). -/
def predBits (ps : List LBit) : Nat := (List.range 24).foldl (fun n k => n + (ps.getD k LBit.zero).val.toNat * 2 ^ k) 0

/-- Moves between predicates and registers (R419). -/
def execPmov (op : PmovOp) (s : State) : Host.Outcome State Fault Refusal :=
  lift (each (fun w => do
    match op with
    | .toReg d q =>
      checkFields w [dst d 1]
      let (v, lv) ← readPred w q
      let lbl ← resultLabel w lv
      vout w d 1 v.toNat lbl
    | .toPred q b l =>
      checkFields w [src b 1]
      let (v, lv) ← readField w 1 b l
      let lbl ← resultLabel w lv
      writePred w q (v != 0) lbl
    | .save d =>
      checkFields w [dst d 1]
      let th ← thr w
      let p ← get
      let lbl ← resultLabel w (p.joinOf (th.preds.map (·.lbl)))
      vout w d 1 (predBits th.preds) lbl
    | .load b l =>
      checkFields w [src b 1]
      let (v, lv) ← readField w 1 b l
      let lbl ← resultLabel w lv
      setThr w (fun th => { th with preds := (List.range 24).map (fun k => { val := (v / 2 ^ k) % 2 == 1, lbl }) }))) s

end Sys2Proof.Machine
end

