-- ==== Sys2Proof/Machine/Sha.lean ====
section
/-! DEFINITION. SHA-384, with which the boot ROM measures an image and the system cores describe a scrub (R319, R327): the manual
names the function, and FIPS 180-4 gives it. A digest is held as the number whose little-endian bytes are the digest's bytes in
their order. -/

namespace Sys2Proof.Machine
namespace Sha

abbrev W64 := BitVec 64

def k0 : List Nat :=
  [0x428A2F98D728AE22, 0x7137449123EF65CD, 0xB5C0FBCFEC4D3B2F, 0xE9B5DBA58189DBBC,
   0x3956C25BF348B538, 0x59F111F1B605D019, 0x923F82A4AF194F9B, 0xAB1C5ED5DA6D8118,
   0xD807AA98A3030242, 0x12835B0145706FBE, 0x243185BE4EE4B28C, 0x550C7DC3D5FFB4E2,
   0x72BE5D74F27B896F, 0x80DEB1FE3B1696B1, 0x9BDC06A725C71235, 0xC19BF174CF692694]

def k1 : List Nat :=
  [0xE49B69C19EF14AD2, 0xEFBE4786384F25E3, 0x0FC19DC68B8CD5B5, 0x240CA1CC77AC9C65,
   0x2DE92C6F592B0275, 0x4A7484AA6EA6E483, 0x5CB0A9DCBD41FBD4, 0x76F988DA831153B5,
   0x983E5152EE66DFAB, 0xA831C66D2DB43210, 0xB00327C898FB213F, 0xBF597FC7BEEF0EE4,
   0xC6E00BF33DA88FC2, 0xD5A79147930AA725, 0x06CA6351E003826F, 0x142929670A0E6E70]

def k2 : List Nat :=
  [0x27B70A8546D22FFC, 0x2E1B21385C26C926, 0x4D2C6DFC5AC42AED, 0x53380D139D95B3DF,
   0x650A73548BAF63DE, 0x766A0ABB3C77B2A8, 0x81C2C92E47EDAEE6, 0x92722C851482353B,
   0xA2BFE8A14CF10364, 0xA81A664BBC423001, 0xC24B8B70D0F89791, 0xC76C51A30654BE30,
   0xD192E819D6EF5218, 0xD69906245565A910, 0xF40E35855771202A, 0x106AA07032BBD1B8]

def k3 : List Nat :=
  [0x19A4C116B8D2D0C8, 0x1E376C085141AB53, 0x2748774CDF8EEB99, 0x34B0BCB5E19B48A8,
   0x391C0CB3C5C95A63, 0x4ED8AA4AE3418ACB, 0x5B9CCA4F7763E373, 0x682E6FF3D6B2B8A3,
   0x748F82EE5DEFB2FC, 0x78A5636F43172F60, 0x84C87814A1F0AB72, 0x8CC702081A6439EC,
   0x90BEFFFA23631E28, 0xA4506CEBDE82BDE9, 0xBEF9A3F7B2C67915, 0xC67178F2E372532B]

def k4 : List Nat :=
  [0xCA273ECEEA26619C, 0xD186B8C721C0C207, 0xEADA7DD6CDE0EB1E, 0xF57D4F7FEE6ED178,
   0x06F067AA72176FBA, 0x0A637DC5A2C898A6, 0x113F9804BEF90DAE, 0x1B710B35131C471B,
   0x28DB77F523047D84, 0x32CAAB7B40C72493, 0x3C9EBE0A15C9BEBC, 0x431D67C49C100D4C,
   0x4CC5D4BECB3E42B6, 0x597F299CFC657E2A, 0x5FCB6FAB3AD6FAEC, 0x6C44198C4A475817]

/-- The 80 round constants. -/
def constants : List W64 := (k0 ++ k1 ++ k2 ++ k3 ++ k4).map (BitVec.ofNat 64)

/-- The initial hash value. -/
def initial : List W64 :=
  [0xCBBB9D5DC1059ED8#64, 0x629A292A367CD507#64, 0x9159015A3070DD17#64, 0x152FECD8F70E5939#64,
   0x67332667FFC00B31#64, 0x8EB44A8768581511#64, 0xDB0C2E0D64F98FA7#64, 0x47B5481DBEFA4FA4#64]

def s0 (x : W64) : W64 := x.rotateRight 1 ^^^ x.rotateRight 8 ^^^ x >>> 7
def s1 (x : W64) : W64 := x.rotateRight 19 ^^^ x.rotateRight 61 ^^^ x >>> 6
def S0 (x : W64) : W64 := x.rotateRight 28 ^^^ x.rotateRight 34 ^^^ x.rotateRight 39
def S1 (x : W64) : W64 := x.rotateRight 14 ^^^ x.rotateRight 18 ^^^ x.rotateRight 41
def ch (x y z : W64) : W64 := (x &&& y) ^^^ (~~~x &&& z)
def maj (x y z : W64) : W64 := (x &&& y) ^^^ (x &&& z) ^^^ (y &&& z)

/-- One round over the eight working variables with the constant and word of the round. -/
def round (v : List W64) (k w : W64) : List W64 :=
  match v with
  | [a, b, c, d, e, f, g, h] =>
    let t1 := h + S1 e + ch e f g + k + w
    [t1 + S0 a + maj a b c, a, b, c, d + t1, e, f, g]
  | _ => v

/-- The message schedule: the 16 latest words, newest last, and the rounds with them. -/
def rounds : List W64 → List W64 → List W64 → List W64
  | [], _, v => v
  | k :: ks, ws, v =>
    let w := ws.getD 0 0
    rounds ks (ws.drop 1 ++ [s1 (ws.getD 14 0) + ws.getD 9 0 + s0 (ws.getD 1 0) + w]) (round v k w)

/-- The big-endian 64-bit words of bytes. -/
def words : Nat → List Byte → List W64
  | 0, _ => []
  | n + 1, bs => BitVec.ofNat 64 ((bs.take 8).foldl (fun v b => 256 * v + b.toNat) 0) :: words n (bs.drop 8)

/-- The message with its padding: 0x80, zeros, and its length in bits as 128 bits. -/
def padded (m : List Byte) : List Byte :=
  let z := (240 - (m.length + 1) % 128) % 128
  m ++ [0x80#8] ++ List.replicate z 0#8 ++ (toBytes 16 (8 * m.length)).reverse

def blocks : Nat → List Byte → List W64 → List W64
  | 0, _, h => h
  | n + 1, bs, h => blocks n (bs.drop 128) ((h.zip (rounds constants (words 16 bs) h)).map (fun (x : W64 × W64) => x.1 + x.2))

end Sha

/-- SHA-384 of bytes. -/
def sha384 (m : List Byte) : Nat :=
  let bs := Sha.padded m
  ofBytes (((Sha.blocks (bs.length / 128) bs Sha.initial).take 6).flatMap (fun w => (toBytes 8 w.toNat).reverse))

end Sys2Proof.Machine
end

