-- ==== Sys2Proof/Machine/System.lean ====
section
/-! DEFINITION. The system cores: the commands KEY_ROTATION, SPACE_ID_BINDING, SHOOTDOWN, SHOOTDOWN_DRAIN_DONE, WORLD_RESET, SCRUB
and SCRUB_RECEIPT, WORLD_CREATE, DOMAIN_FORM, ATTESTATION_REPORT, CRASH_DUMP, DEBUG_REQUEST, PACKAGE_RESET, DIE_RESET,
SNAPCTL_WRITE, SNAP_PIN, QOS_SHARE_CHANGE, BANK_TRANSFER, MEMORY_FAULT and INSTR_SNAPSHOT_LATCH (R136, R194, R196, R210, R218,
R219, R260, R301, R318 to R333, R482, R484). -/

namespace Sys2Proof.Machine

/-- Compute clusters, cores and frames of the package (R1, R211). -/
def clusterCount : Nat := 40
def coreCount : Nat := 160

/-- Whether every team of a world is pre-empted or not yet dispatched (R321). -/
def Package.suspended (p : Package) (world : Nat) : Bool :=
  p.teams.all (fun tm => tm.world != world || tm.ended || tm.residence == .saved)

/-! ### Keys (R209, R210) -/

/-- KEY_ROTATION: the new key goes into slot 1 − E, its epoch is that of every store from now on, and the sweep starts. -/
def execKeyRotation (world key : Nat) (s : State) : Host.Outcome State Fault Refusal :=
  lift (fun p => match p.world? world with
    | none => p
    | some x =>
      if !p.journalRoom systemQueue then p
      else if x.sweep.isSome then (p.commandAdd systemQueue 9 2 0 4).2
      else
        let turn := fun (x : World) => { x with keys := x.keys.set (1 - x.epoch) (some key), epoch := 1 - x.epoch, sweep := some 0 }
        ((p.setWorld world turn).commandAdd systemQueue 0 2 0 2).2) s

/-! ### Spaces and shootdowns (R218, R219, R301) -/

/-- Every cached translation that a predicate names leaves the core TLBs and the last-page registers, and every table entry that another one
names the dies' walk caches (R217). -/
def Package.forget (p : Package) (gone : Xlat → Bool) (line : WalkLine → Bool) : Package :=
  let drop := fun (c : Core) => { c with tlb := c.tlb.filter (fun t => !gone t), lanes := c.lanes.filter (fun l => !gone l.2) }
  { p with cores := p.cores.map drop, walks := p.walks.filter (fun l => !line l) }

/-- Whether a flush of a space id has completed, and no translation of it was cached since. -/
def Package.flushedSpace (p : Package) (id : Nat) : Bool :=
  (p.space? id).any (fun (sp : Space) => sp.flushed) && p.walks.all (fun l => l.space != id)
    && p.cores.all (fun c => c.tlb.all (fun t => t.space != id) && c.lanes.all (fun l => l.2.space != id))

def Package.putSpace (p : Package) (sp : Space) : Package :=
  { p with spaces := p.spaces.filter (fun y => y.id != sp.id) ++ [sp] }

/-- SPACE_ID_BINDING. -/
def execSpaceIdBinding (id gen root world : Nat) (s : State) : Host.Outcome State Fault Refusal :=
  lift (fun p =>
    if !p.journalRoom systemQueue then p
    else if !p.flushedSpace id then (p.commandAdd systemQueue 10 3 0 4).2
    else ((p.putSpace { id := id % 65536, gen := gen % 256, root := root, world := world, flushed := false }).commandAdd systemQueue 0 3 0 2).2) s

/-- Whether a translation maps an address of a range of 64 KiB pages. -/
def Xlat.inRange (t : Xlat) (lo pages : Nat) : Bool :=
  let a := t.vpage * t.size
  decide (a < lo + 65536 * pages) && decide (lo < a + t.size)

/-- Whether an entry of a walk cache maps an address of a range of 64 KiB pages. -/
def WalkLine.inRange (l : WalkLine) (lo pages : Nat) : Bool :=
  let a := l.idx * 2 ^ l.shift
  decide (a < lo + 65536 * pages) && decide (lo < a + 2 ^ l.shift)

/-- Whether two translations are one mapping: they agree in all but the generation and the place of their entry. -/
def Xlat.same (x y : Xlat) : Bool := { y with gen := x.gen, pte := x.pte } == x

/-- Whether a page of a manifest's range is still mapped as REC.begin found it. -/
def Package.mapStands (p : Package) (m : Manifest) (vpage : Nat) : Bool :=
  match spFind m.maps vpage, p.mapped m.space (65536 * vpage) with
  | some x, some y => x.same y
  | _, _ => false

/-- The frames of the pages of a shootdown whose mapping is gone or has changed are unmarked, and their entries are discarded (R301). -/
def Package.unmark (p : Package) (space lo pages : Nat) (m : Manifest) : Manifest :=
  if m.space != space then m
  else
    let stays := fun (f : Nat × Nat) =>
      let a := 65536 * f.1
      decide (a + 65536 ≤ lo) || decide (lo + 65536 * pages ≤ a) || p.mapStands m f.1
    let gone := (m.frames.filter (fun f => !stays f)).map (fun (f : Nat × Nat) => f.2)
    { m with frames := m.frames.filter stays, entries := m.entries.filter (fun e => !gone.contains (e.line / 1024)) }

/-- The regions that are being released: their entries and closing atomics carry addresses that are translated already (R223, R436). -/
def Package.releases (p : Package) : List Release :=
  p.teams.flatMap (fun tm => tm.threads.filterMap (fun th => th.region.bind (fun (r : Region) => r.release)))

/-- SHOOTDOWN steps 1 and 2: the translations of the range are invalidated, every core advances its epoch, and the command waits for
the accesses of the epochs before. -/
def execShootdown (space lo pages : Nat) (s : State) : Host.Outcome State Fault Refusal :=
  lift (fun p =>
    if !p.journalRoom systemQueue then p
    else
      let (seq, p) := p.commandAdd systemQueue 0 4 0 1
      let old := (p.accs.map (fun (a : Acc) => (a.core, a.epoch)) ++ p.writes.map (fun x => (x.core, x.epoch))
        ++ p.jobs.map (fun j => (j.core, j.epoch)) ++ p.releases.map (fun (r : Release) => (r.core, r.epoch))).eraseDups
      let p := p.forget (fun t => t.space == space && t.inRange lo pages) (fun l => l.space == space && l.inRange lo pages)
      let p := (List.range coreCount).foldl (fun p k => p.setCore k (fun c => { c with epoch := c.epoch + 1 })) p
      { p with mans := p.mans.map (p.unmark space lo pages)
               shoots := p.shoots ++ [{ seq, space, lo, pages, epochs := old }] }) s

/-- Whether an outstanding access that was translated still counts for its epoch (R219 step 3); its writes count for themselves. -/
def Acc.counts (a : Acc) : Bool :=
  match a.op with
  | .load o => o.pending
  | .pod left => left != 0
  | .rgnc left _ => left != 0
  | _ => false

/-- Whether something that a core translated in an epoch or an earlier one has not reached its home: a load that has not read its data, a write
without a WCT, an engine's pod write, an entry or a closing atomic of a region that is being released (R219). -/
def Package.outstanding (p : Package) (core epoch : Nat) : Bool :=
  p.accs.any (fun a => a.core == core && decide (a.epoch ≤ epoch) && a.counts)
    || p.writes.any (fun x => x.core == core && decide (x.epoch ≤ epoch) && x.wct.isNone)
    || p.jobs.any (fun j => j.core == core && decide (j.epoch ≤ epoch) && j.left != 0)
    || p.releases.any (fun r => r.core == core && decide (r.epoch ≤ epoch) && (!r.todo.isEmpty || r.closing.isSome))

/-- SHOOTDOWN_DRAIN_DONE steps 3 and 4. -/
def execShootdownDrainDone (seq : Nat) (s : State) : Host.Outcome State Fault Refusal :=
  lift (fun p => match p.shoots.find? (fun x => x.seq == seq) with
    | none => p
    | some x =>
      if x.epochs.any (fun e => p.outstanding e.1 e.2) then p
      else ({ p with shoots := p.shoots.filter (fun y => y.seq != seq) }).journalSet systemQueue seq 2 0) s

/-! ### Scrubs (R325 to R327) -/

/-- The first sector of a frame with an error that cannot be corrected: a marked sector, or a granule whose label names no live
entry. -/
def Package.firstError (p : Package) (frame : Nat) : Option Nat :=
  leastBy id ((p.bad ++ (p.glabels.filter (fun g => !p.live g.2.toNat)).map (fun (g : Nat × Lbl) => g.1)).filter
    (fun g => g / 2048 == frame))

/-- The frames among those of a scrub that it excludes, each with the reason (R326). -/
def Package.excluded (p : Package) (hit : Nat → Bool) : List (Nat × Nat) :=
  let old := (p.sys.retired.filter (fun f => hit f.1)).map (fun (f : Nat × Nat) => (f.1, 1))
  let errs := ((p.bad ++ (p.glabels.filter (fun g => !p.live g.2.toNat)).map (fun (g : Nat × Lbl) => g.1)).map (· / 2048)).eraseDups
  let new := (errs.filter (fun f => hit f && !p.sys.retired.any (fun r => r.1 == f))).map (fun f => (f, 2))
  sortBy (·.1) (old ++ new)

/-- Granules from `lo` up to `hi` that are not public, or that a pending write touches. -/
def Package.labelled (p : Package) (lo hi : Nat) : List Nat :=
  ((p.glabels.map (fun (g : Nat × Lbl) => g.1) ++ p.writes.flatMap (fun x => x.grow.map (fun (g : Nat × Lbl) => g.1))).filter
    (fun g => decide (lo ≤ g) && decide (g < hi))).eraseDups

/-- A write of the system cores that zeroes memory from a line on and makes granules public, performed at its home with a WCT (R325, R479): a whole frame
where `page` names it, cells otherwise. Answers its identifier. -/
def Package.wipe (p : Package) (line : Nat) (cells : List Host.Cell) (public_ : List Nat) (page : Option Nat) : Nat × Package :=
  let (id, p) := p.fresh
  let x : Write := { id, acc := id, line, cells, grow := public_.map (fun g => (g, 0)), wct := none, kind := .engine, team := 2 ^ 32, lid := 0
                     world := 0, cluster := 2 ^ 32, policy := .l2, cc := false, scope := none, key := p.keyAt (64 * line)
                     core := 2 ^ 32, epoch := 0, pte := none, disc := page.map (fun a => (a, 0)) }
  let wct := p.wctOf x
  (id, ({ p with writes := p.writes ++ [{ x with wct := some wct }] }).noteWct x wct)

/-- The first n sectors of a frame zeroed and made public. -/
def Package.wipeSectors (p : Package) (frame n : Nat) : List Nat × Package :=
  (List.range ((n + 1) / 2)).foldl (fun (acc : List Nat × Package) k =>
    let lo := 65536 * frame + 64 * k
    let bytes := if 2 * k + 1 < n then 64 else 32
    let g := 2048 * frame + 2 * k
    let (id, p) := acc.2.wipe (1024 * frame + k) (cellsOf lo bytes 0) (acc.2.labelled g (g + bytes / 32)) none
    (acc.1 ++ [id], p)) ([], p)

/-- SCRUBBING of frames: every byte is set to zero and every granule label to public. A retired frame is left; one in which an error is met is scrubbed
up to it and retired (R326). Answers the excluded frames and the writes. -/
def Package.scrubFrames (p : Package) (frames : List Nat) : List (Nat × Nat) × List Nat × Package :=
  let excl := p.excluded (fun f => frames.contains f)
  let p := { p with sys := { p.sys with retired := p.sys.retired ++ excl.filter (fun e => e.2 == 2) } }
  let (ids, p) := frames.foldl (fun (acc : List Nat × Package) f =>
    let p := acc.2
    match excl.find? (fun e => e.1 == f) with
    | none =>
      let (id, p) := p.wipe (1024 * f) [] (p.labelled (2048 * f) (2048 * (f + 1))) (some (65536 * f))
      (acc.1 ++ [id], p)
    | some e =>
      if e.2 = 1 then acc
      else
        let (ids, p) := p.wipeSectors f (((p.firstError f).getD (2048 * f)) - 2048 * f)
        (acc.1 ++ ids, p)) ([], p)
  (excl, ids, p)

/-- The bytes of an exclusion list (R327). -/
def exclBytes (es : List (Nat × Nat)) : List Byte := es.flatMap (fun (e : Nat × Nat) => toBytes 8 (e.1 * 65536 + e.2))

/-- A signature of the device identity keys: a free value. -/
def Package.sign (p : Package) : Nat × Package := (Config.signature p.draws, { p with draws := p.draws + 1 })

/-- The receipt of a scrub (R327). -/
def Package.giveReceipt (p : Package) (world frames : Nat) (tstart : Nat) (excl : List (Nat × Nat)) : Package :=
  let (ed, p) := p.sign
  let (ml, p) := p.sign
  let r : Receipt := { rnum := p.sys.receipts.length + 1, world, pkg := p.phys, meas := sha384 (p.sys.mrs.flatMap (toBytes 48))
                       nframes := frames - excl.length, tstart, tend := p.time, excl, xhash := sha384 (exclBytes excl), sigEd := ed, sigMl := ml }
  { p with sys := { p.sys with receipts := p.sys.receipts ++ [r] } }

/-- SCRUB: the frames of a range are scrubbed; the receipt follows. -/
def execScrub (lo frames : Nat) (s : State) : Host.Outcome State Fault Refusal :=
  if Config.memBytes < 65536 * (lo + frames) then .fault (.noSuchAddress (65536 * (lo + frames)))
  else lift (fun p =>
    if !p.journalRoom systemQueue then p
    else
      let (journal, p) := p.commandAdd systemQueue 0 8 0 1
      let (seq, p) := p.fresh
      let (excl, ids, p) := p.scrubFrames ((List.range frames).map (lo + ·))
      let run : ScrubRun := { seq, journal, world := 0, tstart := p.time, nframes := frames, excl, writes := some ids }
      { p with sys := { p.sys with scrubs := p.sys.scrubs ++ [run] } }) s

/-! ### World reset (R266, R325) -/

/-- The grids of a world leave their queues, and the journal entries of its queues become aborted. -/
def Package.endGrids (p : Package) (x : World) : Package :=
  let ovl := fun (e : JEntry) => e.world == x.id && x.queues.contains e.queue && !e.terminal
  let grids := (p.grids.filter (fun g => g.world == x.id)).map (fun (g : Grid) => g.id)
  let p := { p with grids := p.grids.filter (fun g => g.world != x.id)
                    quays := p.quays.map (fun (q : Quay) => { q with items := q.items.filter (fun g => !grids.contains g) }) }
  p.journalMove ovl 3 2

/-- Step 1: the teams are killed, the jobs complete ABORTED, and the journal entries of the world's queues become aborted. A team whose last thread
waits for the end of its clause (R265) leaves at its TEAM_RETIRE. -/
def Package.endWorld (p : Package) (x : World) : Package :=
  let mine := (p.teams.filter (fun tm => tm.world == x.id)).map (fun (tm : Team) => tm.id)
  let p := mine.foldl (fun p t => p.killTeam t) p
  let ended := (p.teams.filter (fun tm => mine.contains tm.id && tm.ended)).map (fun (tm : Team) => tm.id)
  let p := ended.foldl (fun p t => p.dropTeam t) p
  ({ p with jobs := mapIf (fun j => j.world == x.id) Job.abort p.jobs }).endGrids x

/-- WORLD_RESET steps 1 and 2; the rest follows once the domain is dissolved, with the receipt. -/
def execWorldReset (world : Nat) (s : State) : Host.Outcome State Fault Refusal :=
  lift (fun p => match p.world? world with
    | none => p
    | some x =>
      if !p.journalRoom systemQueue then p
      else if x.resetting then (p.commandAdd systemQueue 13 7 0 4).2
      else
        let (journal, p) := p.commandAdd systemQueue 0 7 0 1
        let (seq, p) := p.fresh
        let p := (p.endWorld x).setWorld world (fun x => { x with resetting := true })
        let run : ScrubRun := { seq, journal, world, tstart := p.time, nframes := 0, excl := [], writes := none }
        let p := { p with sys := { p.sys with scrubs := p.sys.scrubs ++ [run] } }
        p.sendReset world) s

/-- Whether steps 1 and 2 of a world's reset are over: no team, job, write or domain of the world is left. -/
def Package.resetReady (p : Package) (x : World) : Bool :=
  x.tide.isNone && !p.teams.any (fun tm => tm.world == x.id) && !p.jobs.any (fun j => j.world == x.id) && !p.writes.any (fun w => w.world == x.id)

/-- Step 3 and the beginning of step 4 of a world reset: manifests and endorsements, keys, and the scrub of the world's frames. -/
def Package.clearWorld (p : Package) (x : World) (r : ScrubRun) : Package :=
  let p := (p.mans.filter (fun m => m.world == x.id && m.state != .empty)).foldl Package.dropMan (p.endGrids x)
  let frames := (p.owners.filter (fun o => o.2 == x.id)).map (fun (o : Nat × Nat) => o.1)
  let start := p.time
  let (excl, ids, p) := p.scrubFrames frames
  let gone := fun (x : World) => { x with keys := [none, none], epoch := 0, sweep := none, shadows := [] }
  let begun := fun (y : ScrubRun) => { y with tstart := start, nframes := frames.length, excl, writes := some ids }
  let p := p.setWorld x.id gone
  { p with
      endorse := p.endorse.filter (fun (e : Nat × Endorse) => e.2.world != x.id && e.2.issuer != x.id)
      pods := p.pods.filter (fun c => c.world != x.id), layouts := p.layouts.filter (fun l => l.world != x.id)
      migrate := p.migrate.filter (fun m => m.world != x.id), moves := p.moves.filter (fun m => m.1 != x.id)
      sys := { p.sys with scrubs := mapIf (fun y => y.seq == r.seq) begun p.sys.scrubs } }

/-- The end of a scrub: the frames of a world go back to world 0, and the receipt is issued (R325, R327). -/
def Package.endScrub (p : Package) (r : ScrubRun) : Package :=
  let p := if r.world = 0 then p
    else
      let mine := fun (f : Nat) => spGet 0 p.owners f == r.world
      let p := { p with epochs := p.epochs.filter (fun g => !mine (g / 2048)), owners := p.owners.filter (fun o => o.2 != r.world) }
      p.setWorld r.world (fun x => { x with resetting := false })
  let p := p.giveReceipt r.world r.nframes r.tstart r.excl
  ({ p with sys := { p.sys with scrubs := p.sys.scrubs.filter (fun y => y.seq != r.seq) } }).journalSet systemQueue r.journal 2 0

/-- SCRUB_RECEIPT: a scrub completes once its writes are part of memory. That of a world reset begins when steps 1 and 2 of the reset are over; a world
that is no more has nothing to scrub. -/
def execScrubReceipt (seq : Nat) (s : State) : Host.Outcome State Fault Refusal :=
  lift (fun p => match p.sys.scrubs.find? (fun r => r.seq == seq) with
    | none => p
    | some r =>
      match r.writes with
      | some ids => if p.writes.any (fun x => ids.contains x.id) then p else p.endScrub r
      | none =>
        match p.world? r.world with
        | some x => if p.resetReady x then p.clearWorld x r else p
        | none => p.endScrub r) s

/-! ### Worlds (R321, R322, R482) -/

def World.blank (id : Nat) : World :=
  { id, caps := 0, clusters := [], banks := [], queues := [], manifests := [], peers := [], debug := false, space := 65536, trapVec := 0
    pilotVec := 0, recordArea := 0, recordVa := 0, trapBlocks := none, frameVa := 0, launchCeil := 0, keys := [none, none], epoch := 0, sweep := none
    scopeTraps := false, mismatches := 0, mismatchLog := [], faultLog := [], weights := [], memWeights := [], allowances := [], served := []
    waiting := [], share := 0, spillBase := 0, spillUnits := 0, targets := [], shadows := [], tide := none, resetting := false }

/-- Logical numbers given to a list of physical manifests, in order. -/
def numbered (xs : List Nat) : List (Nat × Nat) := (List.range xs.length).zip xs

/-- Whether pairs of a logical and a physical cluster are a place map: each number at most once, and the clusters of a logical die on one die that is that
of no other logical die (R7). -/
def placesOk (cs : List (Nat × Nat)) : Bool :=
  cs.all (fun c => decide (c.1 < clusterCount ∧ c.2 < clusterCount))
    && decide ((cs.map (·.1)).Nodup) && decide ((cs.map (·.2)).Nodup)
    && cs.all (fun a => cs.all (fun b => decide (a.1 / 10 = b.1 / 10) == decide (a.2 / 10 = b.2 / 10)))

def specOk (w : WorldSpec) : Bool :=
  decide (1 ≤ w.id ∧ w.id ≤ 62) && placesOk w.clusters && w.queues.all (fun k => decide (k < 64))
    && decide (w.queues.length ≤ 16) && w.manifests.all (fun k => decide (k < 16)) && decide (w.manifests.length ≤ 16)
    && w.banks.all (fun b => decide (b.1 < clusterCount ∧ b.2.1 < 32 ∧ b.2.2 < 32))

/-- A manifest belongs to one world at a time (R290): every other world loses it, and what it holds of another world is discarded as by REC.drop
(DESIGN CHOICE: the spec does not say what becomes of a manifest that changes its world). -/
def Package.takeManifest (p : Package) (world phys : Nat) : Package :=
  let p := { p with worlds := mapIf (fun x => x.id != world) (fun x => { x with manifests := x.manifests.filter (fun e => e.2 != phys) }) p.worlds }
  let m := p.man phys
  if m.state == .empty || m.world == world then p else p.dropMan m

/-- A physical bank leaves every world and goes into CACHE mode, its content lost (R196). -/
def Package.clearBank (p : Package) (cluster bank : Nat) : Package :=
  let leave := fun (x : World) => { x with banks := x.banks.filter (fun b => !(b.1 == cluster && b.2.2 == bank)) }
  { p with worlds := p.worlds.map leave, banks := p.banks.filter (fun b => !(b.cluster == cluster && b.phys == bank)) }

/-- Whether every other world that holds some manifests or banks is suspended: a place map changes only then (R321). -/
def Package.holdersSuspended (p : Package) (world : Nat) (mans : List Nat) (banks : List (Nat × Nat)) : Bool :=
  p.worlds.all (fun x => x.id == world || p.suspended x.id
    || !(x.manifests.any (fun e => mans.contains e.2) || x.banks.any (fun b => banks.contains (b.1, b.2.2))))

/-- WORLD_CREATE: only after a completed boot (R319), and in place of a world of the same id that holds nothing any more. Its key is loaded (R209), and the
banks that it takes are cleared (R196). -/
def execWorldCreate (w : WorldSpec) (s : State) : Host.Outcome State Fault Refusal :=
  lift (fun p =>
    let held := p.teams.any (fun tm => tm.world == w.id) || p.grids.any (fun g => g.world == w.id) || p.jobs.any (fun j => j.world == w.id)
      || (p.world? w.id).any (fun x => x.resetting || x.tide.isSome)
    if !p.sys.booted || p.sys.bootHalt.isSome || !specOk w || held
        || !p.holdersSuspended w.id w.manifests (w.banks.map (fun b => (b.1, b.2.2))) then p
    else
      let peer := fun (q : Nat × Nat) => ({ logical := q.1, phys := q.2, state := .reachable } : Peer)
      let x := { World.blank w.id with caps := BitVec.ofNat 128 w.caps, clusters := w.clusters, banks := w.banks, queues := w.queues
                                       manifests := numbered w.manifests, peers := w.peers.map peer, debug := w.debug
                                       keys := [some (Config.worldKey w.id), none] }
      let p := w.manifests.foldl (fun p k => p.takeManifest w.id k) p
      let p := w.banks.foldl (fun p b => p.clearBank b.1 b.2.2) p
      { p with worlds := sortBy (·.id) (p.worlds.filter (fun y => y.id != w.id) ++ [x]) }) s

/-- DOMAIN_FORM (R267, R482): the members stand in the world's peer table under their numbers in the domain. -/
def execDomainForm (world : Nat) (members groups : List Nat) (s : State) : Host.Outcome State Fault Refusal :=
  lift (fun p => match p.world? world with
    | none => p
    | some x =>
      if x.tide.isSome || x.resetting || !p.suspended world || !members.contains p.phys || members.length != groups.length
          || 4096 < members.length || !decide members.Nodup
          || !(List.range members.length).all (fun k => x.peers.any (fun q => q.logical == k && members[k]? == some q.phys)) then p
      else
        let t : Tide :=
          { size := members.length, me := members.idxOf p.phys, phys := members, groups, step := 0, state := .running, causes := Causes.none
            nextCauses := Causes.none, unacked := 0, members := [], merged := Causes.none, roots := [], rootMerged := Causes.none, rootStep := 0, status := 0
            origin := 0, lost := 0, nextLost := 0, recs := [], spill := [], nextRecs := [], nextSpill := [], nextBulk := [] }
        p.setWorld world (fun x => { x with tide := some t })) s

/-- QOS_SHARE_CHANGE (R322): 0 an issue weight of a cluster, 1 a memory weight of a stack, 2 an allowance of an optical port. -/
def execQosShareChange (world kind unit weight : Nat) (s : State) : Host.Outcome State Fault Refusal :=
  lift (fun p =>
    let put := fun (l : List (Nat × Nat)) (v : Nat) => spPut l unit v
    match kind with
    | 0 => if 1 ≤ weight && weight ≤ 255 then p.setWorld world (fun x => { x with weights := put x.weights weight }) else p
    | 1 => if 1 ≤ weight && weight ≤ 255 then p.setWorld world (fun x => { x with memWeights := put x.memWeights weight }) else p
    | 2 => if weight < 2 ^ 20 then p.setWorld world (fun x => { x with allowances := put x.allowances weight }) else p
    | _ => p) s

/-- BANK_TRANSFER (R196): the bank goes into CACHE mode, cleared, and becomes a logical bank of the world. -/
def execBankTransfer (cluster bank world logical : Nat) (s : State) : Host.Outcome State Fault Refusal :=
  lift (fun p =>
    let holders := p.worlds.filter (fun x => x.banks.any (fun b => b.1 == cluster && b.2.2 == bank))
    if clusterCount ≤ cluster || 32 ≤ bank || 32 ≤ logical || !p.suspended world || !holders.all (fun x => p.suspended x.id) then p
    else
      let take := fun (x : World) =>
        { x with banks := x.banks.filter (fun b => !(b.1 == cluster && b.2.1 == logical)) ++ [(cluster, logical, bank)] }
      (p.clearBank cluster bank).setWorld world take) s

/-! ### Attestation, debug, dumps and snapshots (R320, R330 to R333, R447) -/

/-- ATTESTATION_REPORT (R320): world 0 names no world. -/
def execAttestationReport (nonce world : Nat) (s : State) : Host.Outcome State Fault Refusal :=
  lift (fun p =>
    let (ed, p) := p.sign
    let (ml, p) := p.sign
    let about := if world = 0 then none else (p.world? world).map (fun x => (x.debug, x.caps))
    let r : Report := { nonce := nonce % 2 ^ 512, mrs := p.sys.mrs, fuse := p.sys.devFuse, keys := p.sys.keyId, pkg := p.phys, world := about, sigEd := ed, sigMl := ml }
    { p with sys := { p.sys with reports := p.sys.reports ++ [r] } }) s

/-- A tenant world is protected when its debug flag is clear (R332). -/
def World.isProtected (x : World) : Bool := x.id != 0 && x.id != 63 && !x.debug

/-- Whether a protected world lives on the package under an id. -/
def Package.hides (p : Package) (w : Nat) : Bool := p.worlds.any (fun x => x.id == w && x.isProtected)

/-- A snapshot as it reads while some worlds are hidden: the blocks that hold their plaintext read as zero, which the model gives by leaving out what stands
there (R331). -/
def Snapshot.shown (hides : Nat → Bool) (s : Snapshot) : Snapshot :=
  let off := fun (t : Nat) => s.teams.any (fun tm => tm.id == t && hides tm.world)
  { s with teams := s.teams.filter (fun tm => !hides tm.world), rounds := s.rounds.filter (fun r => !off r.team)
           sparse := s.sparse.filter (fun q => !off q.team), accs := s.accs.filter (fun a => !off a.team)
           writes := s.writes.filter (fun x => !hides x.world), jobs := s.jobs.filter (fun j => !hides j.world)
           banks := s.banks.filter (fun b => !hides b.1) }

/-- The snapshot registers as system software reads them (R330, R331). -/
def Package.snapRead (p : Package) : List Snapshot := p.sys.snaps.map (Snapshot.shown p.hides)

/-- CRASH_DUMP (R333): frames of protected worlds are omitted and listed by number, and so are the key slots, the registers and the snapshot contents of
these worlds. -/
def execCrashDump (flash : Bool) (s : State) : Host.Outcome State Fault Refusal :=
  lift (fun p =>
    let d : Dump := { toFlash := flash, omitted := (p.owners.filter (fun o => p.hides o.2)).map (fun (o : Nat × Nat) => o.1)
                      mem := p.mem.filter (fun c => !p.hides (p.ownerOf c.1)), teams := p.teams.filter (fun tm => !p.hides tm.world)
                      keys := (p.worlds.filter (fun x => !p.hides x.id)).map (fun (x : World) => (x.id, x.keys)), snaps := p.snapRead }
    { p with sys := { p.sys with dumps := p.sys.dumps ++ [d] } }) s

/-- A device-debug halt of a world's teams, or its end. -/
def Package.haltWorld (p : Package) (world : Nat) (frm dest : Residence) : Package :=
  { p with teams := mapIf (fun tm => tm.world == world && !tm.ended && tm.residence == frm) (fun tm => { tm with residence := dest }) p.teams }

/-- DEBUG_REQUEST (R332): 0 halts the teams of a world, 1 lets them go on, 2 reads their registers; 3 halts the system cores, 4 enters
text at their console. What was answered is recorded: granted or refused. -/
def execDebugRequest (world kind : Nat) (s : State) : Host.Outcome State Fault Refusal :=
  lift (fun p =>
    let device := (p.world? world).any (fun x => p.debugs x)
    let system := p.sys.devFuse && !p.worlds.any (fun x => x.isProtected)
    let ok := if kind ≤ 2 then device else system
    let p := { p with sys := { p.sys with console := p.sys.console ++ [ok] } }
    if !ok then p
    else match kind with
      | 0 => p.haltWorld world .resident .halted
      | 1 => p.haltWorld world .halted .resident
      | 2 => { p with sys := { p.sys with dumps := p.sys.dumps ++ [{ toFlash := false, omitted := [], mem := []
                                                                     teams := p.teams.filter (fun tm => tm.world == world), keys := [], snaps := [] }] } }
      | _ => p) s

/-- SNAPCTL_WRITE (R330); the reserved bits stay 0. -/
def execSnapctlWrite (v : Word) (s : State) : Host.Outcome State Fault Refusal :=
  lift (fun p => { p with sys := { p.sys with snapctl := v &&& 0xFF00003F#32 } }) s

/-- SNAP_PIN (R331): a rising edge on the trigger pin. -/
def execSnapPin (s : State) : Host.Outcome State Fault Refusal :=
  lift (fun p => if p.sys.snapctl.getLsbD 2 then p.snapshot 0 else p) s

/-- INSTR_SNAPSHOT_LATCH (R331, R447): the time of an acting SNAP has come. -/
def execInstrSnapshotLatch (s : State) : Host.Outcome State Fault Refusal :=
  lift (fun p =>
    if p.sys.snapAt.any (fun t => decide (t ≤ p.now)) then
      ({ p with sys := { p.sys with snapAt := p.sys.snapAt.filter (fun t => decide (p.now < t)) } }).snapshot 1
    else p) s

/-- MEMORY_FAULT (R111, R194): a sector is marked with an error that its ECC cannot correct, or a granule's stored label is lost. -/
def execMemoryFault (pa : Nat) (label : Bool) (s : State) : Host.Outcome State Fault Refusal :=
  if Config.memBytes ≤ pa then .fault (.noSuchAddress pa)
  else lift (fun p =>
    let g := granuleOf pa
    if label then p.setGlabel g 0xFFFF else { p with bad := if p.bad.contains g then p.bad else insertBy id g p.bad }) s

/-! ### Resets (R319, R324) -/

/-- The copy of an image that the boot ROM takes: A, or B when a signature of A fails. Both signatures must verify against the keys in the fuses (R319). -/
def System.image (y : System) (k : Nat) : Option FlashImage :=
  let good := fun (c : Nat) => y.flash.find? (fun f => f.idx == k && f.copy == c && (f.ed, f.ml) == y.keyId)
  match good 0 with
  | some f => some f
  | none => good 1

/-- The boot ROM verifies and measures the images from k on; it halts at one of which both copies fail (R319). Once all are measured, the system cores run
the system software. -/
def System.bootFrom (y : System) (k : Nat) : Nat → System
  | 0 => { y with booted := true, cores := List.replicate Config.systemCores .running }
  | n + 1 =>
    match y.image k with
    | none => { y with bootHalt := some k }
    | some f =>
      System.bootFrom { y with mrs := y.mrs.set k (sha384 (toBytes 48 (y.mrs.getD k 0) ++ toBytes 48 f.hash)) } (k + 1) n

def System.boot (y : System) : System := System.bootFrom { y with mrs := [0, 0, 0, 0], bootHalt := none, booted := false } 0 4

/-- A world of the package itself, with its key: the system's, or the commons', whose key is the same on every package (R209, R211). -/
def World.own (id : Nat) : World := { World.blank id with keys := [some (Config.worldKey id), none] }

/-- PACKAGE_RESET (R324, R328): every block is reinitialised and the boot ROM runs. The flash, the fuses and the list of retired frames
are not blocks; an open journal entry becomes aborted. World 0 exists once the package has booted (R318), and world 63 for the
key of the commons frames (R209). -/
def execPackageReset (s : State) : Host.Outcome State Fault Refusal :=
  lift (fun p =>
    let y := { System.reset with flash := p.sys.flash, keyId := p.sys.keyId, devFuse := p.sys.devFuse, retired := p.sys.retired }.boot
    { Package.reset with phys := p.phys, agenda := p.agenda, sent := p.sent, draws := p.draws, picks := p.picks, nextId := p.nextId
                         journal := (p.journalMove (fun _ => true) 3 3).journal
                         worlds := if y.booted then [World.own 0, World.own 63] else [], sys := y }) s

/-- The die of a core, and of a cluster. -/
def dieOfCore (core : Nat) : Nat := core / 40
def dieOfCluster (cluster : Nat) : Nat := cluster / 10

/-- DIE_RESET (R324): the teams with a row on the die are pre-empted first; when all are saved its cores and cluster SRAM are
reset. Its L2 is kept. Until then the reset stays at the head of the agenda. -/
def execDieReset (die : Nat) (s : State) : Host.Outcome State Fault Refusal :=
  lift (fun p =>
    let here := fun (tm : Team) => tm.cores.any (fun c => dieOfCore c == die) && tm.occupies
    if p.teams.any here then
      let stop := fun (tm : Team) => { tm with residence := Residence.saving }
      { p with teams := mapIf here stop p.teams, agenda := .dieReset die :: p.agenda }
    else
      let lost := p.lines.flatMap (fun l => (l.copies.filter (fun c => dieOfCluster c.cluster == die)).map (fun (c : Copy) => (l.addr, c.cluster)))
      let p := lost.foldl (fun (p : Package) c => p.dropCopy c.1 c.2) p
      { p with cores := mapIf (fun c => dieOfCore c.id == die) (fun c => Core.reset c.id) p.cores
               parts := p.parts.filter (fun x => dieOfCore x.core != die)
               banks := p.banks.filter (fun b => dieOfCluster b.cluster != die)
               pods := p.pods.filter (fun c => c.cluster.all (fun k => dieOfCluster k != die))
               walks := p.walks.filter (fun l => l.die != die)
               layouts := p.layouts.filter (fun l => l.die != die) }) s

end Sys2Proof.Machine
end

