-- ==== Sys2Proof/Machine/Tables.lean ====
section
/-! DEFINITION. SYS_TABLE_WRITE: the writes of system software to tables and registers that have no event of their own (R97, R103,
R107, R211, R213, R216 to R218, R241, R274, R290, R294, R318 to R323, R332, R351, R479). -/

namespace Sys2Proof.Machine

/-- The last physical byte that a write names, where it names any (R1). -/
def lastByte (w : SysWrite) : Nat :=
  match w with
  | .place m => ((m.bytes.map (·.1)) ++ (m.labels.map (fun (l : Nat × Nat) => 32 * l.1))).foldl max 0
  | .frame f _ => 65536 * f
  | .installCode pa n => pa + (4 * n - 1)
  | .recordArea _ pa _ => pa
  | .trapBlocks _ pa _ => pa
  | .queueBase _ base cap => base + (64 * cap - 1)
  | .share _ _ base units => base + (units * 2 ^ 21 - 1)
  | .labelBase pa => pa + (2 ^ 21 - 1)
  | .retireFrame f => 65536 * f
  | .migrate _ _ size _ frame _ => frame + (size - 1)
  | _ => 0

/-! ### Code (R97) -/

/-- The walk over n words of a kernel from a clause header: it sets the clause-start bits of the headers and clears those of the words
between. `skip` counts the words left of a clause. -/
def walkClauses (read : Nat → Word) : Nat → Nat → Nat → List (Nat × BitVec 16) → List (Nat × BitVec 16)
  | _, _, 0, c => c
  | pa, skip, n + 1, c =>
    let line := lineOf pa
    let bit : BitVec 16 := 1#16 <<< (pa % 64 / 4)
    let old := spGet 0 c line
    match skip with
    | k + 1 => walkClauses read (pa + 4) k n (spSet 0 c line (old &&& ~~~bit))
    | 0 => walkClauses read (pa + 4) (bitsOf 11 9 (read pa).toNat) n (spSet 0 c line (old ||| bit))

/-- A kernel installed from its first clause header on. -/
def Package.installCode (p : Package) (pa words : Nat) : Package :=
  if pa % 4 != 0 then p
  else { p with code := walkClauses (fun a => BitVec.ofNat 32 (p.readPa a 4)) pa 0 words p.code }

/-! ### Tables of worlds and spaces -/

/-- A change of a world that is made only while the world is suspended (R321). -/
def Package.setSuspended (p : Package) (world : Nat) (f : World → World) : Package :=
  if p.suspended world then p.setWorld world f else p

def peerStateOf (n : Nat) : PeerState := match n with | 0 => .reachable | 1 => .quiescing | _ => .absent

/-- An entry of a world's peer table (R307); the threads held at a peer try again. Only the reachability of an entry changes while the world is not
suspended (R321). -/
def Package.writePeer (p : Package) (world logical phys state : Nat) : Package :=
  let q : Peer := { logical, phys, state := peerStateOf state }
  let stands := (p.world? world).any (fun x => x.peers.any (fun y => y.logical == logical && y.phys == phys))
  if !stands && !p.suspended world then p else
  (p.setWorld world (fun x => { x with peers := sortBy (·.logical) (x.peers.filter (fun y => y.logical != logical) ++ [q]) })).wake
    (fun st => st == Stall.peer)

/-- The base and the capacity of a quay queue (R39): a power of two from 1,024 to 16,777,216 records, while the queue is empty. -/
def Package.writeQueue (p : Package) (phys base cap : Nat) : Package :=
  let legal := (List.range 15).any (fun k => cap == 1024 * 2 ^ k)
  if 64 ≤ phys || !legal || (p.quay? phys).any (fun q => !q.items.isEmpty) then p
  else { p with quays := p.quays.filter (fun q => q.phys != phys) ++ [{ phys, base, cap, items := [], tail := 0 }] }

/-- A world's share of the remote write buffer and its spill area (R274): all shares together are at most 32 MiB. -/
def Package.writeShare (p : Package) (world units spillBase spillUnits : Nat) : Package :=
  let others := (p.worlds.filter (fun x => x.id != world)).foldl (fun n x => n + x.share) 0
  if 32 < others + units then p
  else p.setSuspended world (fun x => { x with share := units, spillBase := spillBase, spillUnits := spillUnits })

/-- An entry of the label table marked live in advance (R107): a free one, for a set that has none (R108). -/
def Package.writeLabel (p : Package) (idx mask : Nat) : Package :=
  let m : Mask := BitVec.ofNat 128 mask
  if 0xFFFF ≤ idx || p.live idx || (p.findMask m).isSome then p
  else { p with labels := insertBy (·.1) (idx, m) p.labels }

/-- The base of the label table (R107): 2 MiB of frames of world 0. -/
def Package.writeLabelBase (p : Package) (pa : Nat) : Package :=
  if pa % 2 ^ 21 != 0 || (List.range 32).any (fun k => p.ownerOf (pa + 65536 * k) != 0) then p else { p with labelBase := some pa }

/-- A flush of a space id (R218): its translations leave every last-page register, TLB and walk cache. An id that was never bound maps nothing. -/
def Package.flushSpace (p : Package) (id : Nat) : Package :=
  let p := p.forget (fun t => t.space == id) (fun l => l.space == id)
  let sp := (p.space? id).getD { id, gen := 0, root := 0, world := 0, flushed := false }
  p.putSpace { sp with flushed := true }

/-- The root of a space that is bound (R212). -/
def Package.writeSpace (p : Package) (id gen root world : Nat) : Package :=
  match p.space? id with
  | some sp => if sp.gen = gen && sp.world = world then p.putSpace { sp with root := root } else p
  | none => p

/-- A manifest granted to a world under a logical number (R290). -/
def World.grantManifest (x : World) (logical phys : Nat) : World :=
  { x with manifests := x.manifests.filter (fun e => e.1 != logical && e.2 != phys) ++ [(logical, phys)] }

/-- The halt of a thread, and of its team, ends (R351). -/
def Package.resumeThread (p : Package) (w : Who) : Package :=
  match p.thread? w with
  | some th =>
    if th.status == TStatus.halted then
      (p.setTeam w.team (fun tm => { tm with residence := if tm.residence == .halted then .resident else tm.residence })).fileOne w th.point
    else p
  | none => p

def System.putImage (y : System) (f : FlashImage) : System :=
  { y with flash := y.flash.filter (fun g => !(g.idx == f.idx && g.copy == f.copy)) ++ [f] }

/-- The effect of a write on the package. -/
def Package.sysWrite (p : Package) (w : SysWrite) : Package :=
  match w with
  | .place m => if !p.mayPlace 0 m then p else match p.systemWrite m with | some r => r.2 | none => p.labelsFull
  | .frame _ _ | .migrate _ _ _ _ _ _ => p
  | .installCode pa n => p.installCode pa n
  | .space id gen root world => p.writeSpace id gen root world
  | .worldSpace world space => if (p.space? space).any (fun sp => sp.world == world) then p.setSuspended world (fun x => { x with space := space }) else p
  | .trapVec world v => p.setSuspended world (fun x => { x with trapVec := v % 2 ^ 64 })
  | .pilotVec world v => p.setSuspended world (fun x => { x with pilotVec := v % 2 ^ 64 })
  | .recordArea world pa va => p.setSuspended world (fun x => { x with recordArea := pa, recordVa := va })
  | .trapBlocks world pa va => p.setSuspended world (fun x => { x with trapBlocks := some pa, frameVa := va })
  | .caps world m => p.setSuspended world (fun x => { x with caps := BitVec.ofNat 128 m })
  | .launchCeiling world m =>
    match p.labelFor (BitVec.ofNat 128 m) with
    | some (l, p) => p.setSuspended world (fun x => { x with launchCeil := l })
    | none => p.labelsFull
  | .peer world logical phys state => p.writePeer world logical phys state
  | .scopeTraps world on => p.setWorld world (fun x => { x with scopeTraps := on })
  | .queueBase phys base cap => p.writeQueue phys base cap
  | .share world units base n => p.writeShare world units base n
  | .carveOut on => if p.mans.any (fun m => m.state != .empty) then p else { p with carveOut := on }
  | .labelBase pa => p.writeLabelBase pa
  | .labelEntry idx m => p.writeLabel idx m
  | .fuse development => { p with sys := { p.sys with devFuse := p.sys.devFuse && development } }
  | .interruptTarget world cls host target =>
    p.setWorld world (fun x => { x with targets := spPut x.targets cls (if host then .msix target else .imsic target) })
  | .firmwareKey ed ml => { p with sys := { p.sys with keyId := (ed, ml) } }
  | .retireFrame f => if p.sys.retired.any (fun r => r.1 == f) then p else { p with sys := { p.sys with retired := p.sys.retired ++ [(f, 1)] } }
  | .swapManifest world logical phys => if 16 ≤ logical || 16 ≤ phys || !p.suspended world || !p.holdersSuspended world [phys] [] then p
    else (p.takeManifest world phys).setWorld world (fun x => x.grantManifest logical phys)
  | .flush space => p.flushSpace space
  | .claimTeam team on => p.setTeam team (fun tm => { tm with debugStop := on })
  | .resumeHalted team lid => p.resumeThread ⟨team, lid⟩
  | .sworld k => { p with sys := { p.sys with sworld := k % 64 } }
  | .flashImage k copy hash ed ml => { p with sys := p.sys.putImage { idx := k, copy, hash, ed, ml } }
  | .clusters world cs => if placesOk cs then p.setSuspended world (fun x => { x with clusters := cs }) else p
  | .queues world qs => if qs.all (fun k => decide (k < 64)) && qs.length ≤ 16 then p.setSuspended world (fun x => { x with queues := qs }) else p

/-! ### Frames (R211) -/

/-- The leaves that a walk can end at from a table on, each with its lowest virtual bit. -/
def Package.leaves (p : Package) : List (Nat × Nat) → Nat → List (Nat × Nat)
  | [], _ => []
  | (sh, w) :: ls, table =>
    let at_ := ((p.mem.filter (fun c => decide (table ≤ c.1) && decide (c.1 < table + 16 * 2 ^ w))).map (fun (c : Host.Cell) => c.1 / 16)).eraseDups
    at_.flatMap (fun k =>
      let e := p.readPa (16 * k) 16
      if e % 2 = 0 then []
      else if bitsOf 6 6 e = 1 then (if 39 ≤ sh then [] else [(e, sh)])
      else p.leaves ls (bitsOf 47 9 e * 2 ^ 9))

/-- Whether a translation of a world maps a frame of the package `home`; a SHADOW page has both halves (R279). -/
def Package.mapsTo (p : Package) (world home f : Nat) (x : Xlat) : Bool :=
  let there := if x.mode = 0 then p.phys else (((p.world? world).map (fun wd => p.peerOf wd x.pod x.peer)).getD (.absent, home)).2
  let size := if x.mode = 4 then 2 * x.size else x.size
  there == home && decide (x.frame ≤ 65536 * f) && decide (65536 * f < x.frame + size)

/-- Whether a translation of the package, in its tables or cached, maps a frame of the package `home` (R211). -/
def Package.mapsFrame (p : Package) (home f : Nat) : Bool :=
  p.spaces.any (fun sp =>
    ((p.leaves walkLevels sp.root).filterMap (fun l => xlatOf sp 0 l.1 0 l.2)
      ++ p.cores.flatMap (fun c => (c.tlb ++ c.lanes.map (·.2)).filter (fun x => x.space == sp.id))
      ++ (p.walks.filter (fun l => l.space == sp.id && bitsOf 6 6 l.entry == 1)).filterMap (fun l => xlatOf sp 0 l.entry 0 l.shift)).any
        (p.mapsTo sp.world home f))

/-- Whether a frame holds what a scrub leaves: zeros with the public label, and no write on its way. -/
def Package.isScrubbed (p : Package) (f : Nat) : Bool :=
  p.mem.all (fun c => c.1 / 65536 != f) && p.glabels.all (fun g => g.1 / 2048 != f) && p.bad.all (fun g => g / 2048 != f)
    && p.writes.all (fun x => x.line / 1024 != f)

/-- An entry of the frame ownership table changed: only for a frame that no translation maps and whose scrub has completed (R211). -/
def State.giveFrame (s : State) (f world : Nat) : State :=
  if (s.here :: s.others).any (fun q => q.mapsFrame s.here.phys f) || !s.here.isScrubbed f then s
  else { s with here := { s.here with owners := spSet 0 s.here.owners f (world % 64) } }

/-! ### The move of a MIGRATE page (R216) -/

/-- What the page holds: its bytes, the owner sets of its granules and its marked sectors, by their place in the page. -/
structure PageImage where
  bytes  : List Host.Cell
  labels : List (Nat × Mask)
  bad    : List Nat
  deriving DecidableEq, Repr

/-- A granule whose stored label names no live entry has no owner of its own, so that it is public at the new home (DESIGN CHOICE: R111 and R216 do not say
what a move makes of a lost label). -/
def Package.pageImage (p : Package) (page size : Nat) : PageImage :=
  let inPage := fun (a : Nat) => decide (page ≤ a) && decide (a < page + size)
  { bytes := (p.mem.filter (fun c => inPage c.1)).map (fun (c : Host.Cell) => (c.1 - page, c.2))
    labels := (p.glabels.filter (fun g => inPage (32 * g.1))).map (fun (g : Nat × Lbl) => (g.1 - page / 32, p.maskOf g.2))
    bad := (p.bad.filter (fun g => inPage (32 * g))).map (fun g => g - page / 32) }

/-- Every copy of the lines of a page is dropped (R479). -/
def Package.dropPage (p : Package) (page size : Nat) : Package :=
  ((p.lines.filter (fun l => decide (page ≤ 64 * l.addr) && decide (64 * l.addr < page + size))).map (·.addr)).foldl Package.dropLine p

/-- The page placed in a free frame of its new home. -/
def Package.takePage (p : Package) (world frame size : Nat) (im : PageImage) (labels : List (Nat × Lbl)) : Package :=
  let outside := fun (a : Nat) => decide (a < frame) || decide (frame + size ≤ a)
  let p := { p with mem := putCells (p.mem.filter (fun c => outside c.1)) (im.bytes.map (fun (c : Host.Cell) => (frame + c.1, c.2)))
                    glabels := p.glabels.filter (fun g => outside (32 * g.1))
                    bad := im.bad.foldl (fun b g => insertBy id (frame / 32 + g) b) (p.bad.filter (fun g => outside (32 * g)))
                    code := p.code.filter (fun c => outside (64 * c.1))
                    owners := (List.range (size / 65536)).foldl (fun o k => spSet 0 o (frame / 65536 + k) world) p.owners }
  (labels.foldl (fun (p : Package) g => p.setGlabel (frame / 32 + g.1) g.2) p).dropPage frame size

/-- An entry of a package's tables names the new home, and no translation of the old one is kept. -/
def Package.repoint (p : Package) (pte peer frame : Nat) : Package :=
  let e := setBits 111 100 peer (setBits 47 16 (frame / 65536) (p.readPa pte 16))
  (p.forget (fun t => t.pte == pte) (fun l => l.pte == pte)).poke pte 16 e

/-- An effect on the package of a physical number, the one in focus or another. -/
def State.onPackage (s : State) (phys : Nat) (f : Package → Package) : State :=
  if s.here.phys = phys then { s with here := f s.here } else { s with others := mapIf (fun p => p.phys == phys) f s.others }

/-- Whether the frames of a page on a package may change their owner: no translation of the pod maps them, and they are scrubbed (R211). -/
def State.freeFrames (s : State) (home frame size : Nat) : Bool :=
  (List.range (size / 65536)).all (fun k =>
    let f := frame / 65536 + k
    !(s.here :: s.others).any (fun q => q.mapsFrame home f) && (s.others.find? (fun q => q.phys == home)).all (fun q => q.isScrubbed f))

/-- The system cores move a page that its home asked them to move, while the tide applies or closes. The page stays where the peer has no free frame,
said by a size of 0, or where its label table has no room for the page's labels (DESIGN CHOICE: the spec does not say what becomes of such a move). -/
def State.migratePage (s : State) (world page size peer frame : Nat) (entries : List (Nat × Nat)) : State :=
  let p := s.here
  match p.world? world with
  | none => s
  | some x =>
    let asked := p.moves.contains (world, page, peer)
    let when_ := x.tide.any (fun t => t.state == .applying || t.state == .closing)
    let legal := (size == 2 ^ 16 || size == 2 ^ 21 || size == 2 ^ 30) && frame % size == 0 && page % size == 0
    let (st, home) := p.peerOf x false peer
    if !asked || !when_ then s
    else
      let done := { s with here := { p with moves := p.moves.filter (fun m => m != (world, page, peer)) } }
      if size = 0 then done
      else if !legal || st != .reachable || home == p.phys || !s.freeFrames home frame size then s
      else
        let im := p.pageImage page size
        match s.others.find? (fun q => q.phys == home) with
        | none => s
        | some q =>
          match q.systemLabels (im.labels.map (fun g => (g.1, g.2.toNat))) with
          | none => done.onPackage home Package.labelsFull
          | some (ls, q) =>
            let placed := (done.onPackage home (fun _ => q.takePage world frame size im ls)).onPackage p.phys (fun q => q.dropPage page size)
            entries.foldl (fun s e => s.onPackage e.1 (fun q => q.repoint e.2 peer frame)) placed

/-- SYS_TABLE_WRITE. -/
def execSysTableWrite (w : SysWrite) (s : State) : Host.Outcome State Fault Refusal :=
  if Config.memBytes ≤ lastByte w then .fault (.noSuchAddress (lastByte w))
  else match w with
    | .migrate world page size peer frame entries => .next (s.migratePage world page size peer frame entries)
    | .frame f world => .next (s.giveFrame f world)
    | w => lift (fun p => p.sysWrite w) s

end Sys2Proof.Machine
end

