-- ==== Sys2Proof/Machine/Dispatch.lean ====
section
/-! DEFINITION. The dispatch of an instruction or event to its meaning: one arm per constructor of `Instr`. -/

namespace Sys2Proof.Machine

def exec (i : Instr) (s : State) : Host.Outcome State Fault Refusal :=
  match i with
  | .nop => Sys2Proof.Machine.execNop s
  | .add o => Sys2Proof.Machine.execAdd o s
  | .addc o => Sys2Proof.Machine.execAddc o s
  | .isub o => Sys2Proof.Machine.execIsub o s
  | .imul o => Sys2Proof.Machine.execImul o s
  | .imad o => Sys2Proof.Machine.execImad o s
  | .iabs wide o => Sys2Proof.Machine.execIabs wide o s
  | .imin o => Sys2Proof.Machine.execImin o s
  | .imax o => Sys2Proof.Machine.execImax o s
  | .cmp o => Sys2Proof.Machine.execCmp o s
  | .lea o => Sys2Proof.Machine.execLea o s
  | .mov o => Sys2Proof.Machine.execMov o s
  | .movl ty d k => Sys2Proof.Machine.execMovl ty d k s
  | .and o => Sys2Proof.Machine.execAnd o s
  | .andn o => Sys2Proof.Machine.execAndn o s
  | .or o => Sys2Proof.Machine.execOr o s
  | .xor o => Sys2Proof.Machine.execXor o s
  | .shl o => Sys2Proof.Machine.execShl o s
  | .shr o => Sys2Proof.Machine.execShr o s
  | .sar o => Sys2Proof.Machine.execSar o s
  | .rol o => Sys2Proof.Machine.execRol o s
  | .bfx o => Sys2Proof.Machine.execBfx o s
  | .bfi o => Sys2Proof.Machine.execBfi o s
  | .popc o => Sys2Proof.Machine.execPopc o s
  | .clz o => Sys2Proof.Machine.execClz o s
  | .brev o => Sys2Proof.Machine.execBrev o s
  | .prmb o => Sys2Proof.Machine.execPrmb o s
  | .fadd o => Sys2Proof.Machine.execFadd o s
  | .fmul o => Sys2Proof.Machine.execFmul o s
  | .ffma o => Sys2Proof.Machine.execFfma o s
  | .fmin o => Sys2Proof.Machine.execFmin o s
  | .fmax o => Sys2Proof.Machine.execFmax o s
  | .fcmp o => Sys2Proof.Machine.execFcmp o s
  | .fsf fn o => Sys2Proof.Machine.execFsf fn o s
  | .frnd dir o => Sys2Proof.Machine.execFrnd dir o s
  | .twosum o => Sys2Proof.Machine.execTwosum o s
  | .twoprd o => Sys2Proof.Machine.execTwoprd o s
  | .cfma d a b => Sys2Proof.Machine.execCfma d a b s
  | .cvt code e o => Sys2Proof.Machine.execCvt code e o s
  | .qpack d a b j => Sys2Proof.Machine.execQpack d a b j s
  | .qunpk d a b k j lit => Sys2Proof.Machine.execQunpk d a b k j lit s
  | .trap code => Sys2Proof.Machine.execTrap code s
  | .eretResume => Sys2Proof.Machine.execEretResume s
  | .eretRestart => Sys2Proof.Machine.execEretRestart s
  | .eretSkip => Sys2Proof.Machine.execEretSkip s
  | .mfsr d n => Sys2Proof.Machine.execMfsr d n s
  | .mtsr a n lit => Sys2Proof.Machine.execMtsr a n lit s
  | .bkpt code => Sys2Proof.Machine.execBkpt code s
  | .snap => Sys2Proof.Machine.execSnap s
  | .time d wait => Sys2Proof.Machine.execTime d wait s
  | .sel sense p o => Sys2Proof.Machine.execSel sense p o s
  | .plop pd pa pb tt => Sys2Proof.Machine.execPlop pd pa pb tt s
  | .pmov op => Sys2Proof.Machine.execPmov op s
  | .shfl o => Sys2Proof.Machine.execShfl o s
  | .vote op sense ps => Sys2Proof.Machine.execVote op sense ps s
  | .rdx op ty d b lit => Sys2Proof.Machine.execRdx op ty d b lit s
  | .scan excl op ty d b lit => Sys2Proof.Machine.execScan excl op ty d b lit s
  | .bra off => Sys2Proof.Machine.execBra off s
  | .brc sense p off => Sys2Proof.Machine.execBrc sense p off s
  | .bdq sense off => Sys2Proof.Machine.execBdq sense off s
  | .jmpi a => Sys2Proof.Machine.execJmpi a s
  | .call d off => Sys2Proof.Machine.execCall d off s
  | .ret a => Sys2Proof.Machine.execRet a s
  | .reform b lit => Sys2Proof.Machine.execReform b lit s
  | .exit => Sys2Proof.Machine.execExit s
  | .killTeam => Sys2Proof.Machine.execKillTeam s
  | .killGrid => Sys2Proof.Machine.execKillGrid s
  | .yield => Sys2Proof.Machine.execYield s
  | .bar lanes scope => Sys2Proof.Machine.execBar lanes scope s
  | .launch a q lit => Sys2Proof.Machine.execLaunch a q lit s
  | .cont a q lit => Sys2Proof.Machine.execCont a q lit s
  | .dqpush b rel lit => Sys2Proof.Machine.execDqpush b rel lit s
  | .dqpop d => Sys2Proof.Machine.execDqpop d s
  | .winb w => Sys2Proof.Machine.execWinb w s
  | .ld m => Sys2Proof.Machine.execLd m s
  | .st m => Sys2Proof.Machine.execSt m s
  | .lds w m => Sys2Proof.Machine.execLds w m s
  | .sts w m => Sys2Proof.Machine.execSts w m s
  | .fpush w m => Sys2Proof.Machine.execFpush w m s
  | .fpop w m => Sys2Proof.Machine.execFpop w m s
  | .bank try_ b mode => Sys2Proof.Machine.execBank try_ b mode s
  | .fence scope => Sys2Proof.Machine.execFence scope s
  | .tlfence => Sys2Proof.Machine.execTlfence s
  | .disc m => Sys2Proof.Machine.execDisc m s
  | .arm m => Sys2Proof.Machine.execArm m s
  | .await m => Sys2Proof.Machine.execAwait m s
  | .xacq => Sys2Proof.Machine.execXacq s
  | .xrel => Sys2Proof.Machine.execXrel s
  | .atom m => Sys2Proof.Machine.execAtom m s
  | .atomx m => Sys2Proof.Machine.execAtomx m s
  | .red m => Sys2Proof.Machine.execRed m s
  | .rgn => Sys2Proof.Machine.execRgn s
  | .rgnc => Sys2Proof.Machine.execRgnc s
  | .lget d src lit => Sys2Proof.Machine.execLget d src lit s
  | .ljoin wide o => Sys2Proof.Machine.execLjoin wide o s
  | .lceil b lit => Sys2Proof.Machine.execLceil b lit s
  | .endo a => Sys2Proof.Machine.execEndo a s
  | .decl wide o => Sys2Proof.Machine.execDecl wide o s
  | .mma fmt tile k a b lit => Sys2Proof.Machine.execMma fmt tile k a b lit s
  | .mmasp fmt q tile k a b => Sys2Proof.Machine.execMmasp fmt q tile k a b s
  | .accld form tile a k => Sys2Proof.Machine.execAccld form tile a k s
  | .accst form d tile k => Sys2Proof.Machine.execAccst form d tile k s
  | .sign k row => Sys2Proof.Machine.execSign k row s
  | .jwait f => Sys2Proof.Machine.execJwait f s
  | .tide d => Sys2Proof.Machine.execTide d s
  | .cpy a rel lit => Sys2Proof.Machine.execCpy a rel lit s
  | .cpym a b rel lit => Sys2Proof.Machine.execCpym a b rel lit s
  | .coll tile a rel lit => Sys2Proof.Machine.execColl tile a rel lit s
  | .xperm a rel lit => Sys2Proof.Machine.execXperm a rel lit s
  | .recBegin m a b lit => Sys2Proof.Machine.execRecBegin m a b lit s
  | .recEnd m => Sys2Proof.Machine.execRecEnd m s
  | .recPlay m b lit => Sys2Proof.Machine.execRecPlay m b lit s
  | .recDrop m => Sys2Proof.Machine.execRecDrop m s
  | .recq d m => Sys2Proof.Machine.execRecq d m s
  | .clauseIssue g => Sys2Proof.Machine.execClauseIssue g s
  | .longLatencyComplete acc => Sys2Proof.Machine.execLongLatencyComplete acc s
  | .berthEmptyFile core part => Sys2Proof.Machine.execBerthEmptyFile core part s
  | .berthAgeExpiry core part => Sys2Proof.Machine.execBerthAgeExpiry core part s
  | .gangIdFree core => Sys2Proof.Machine.execGangIdFree core s
  | .blockedMemberTimeout g => Sys2Proof.Machine.execBlockedMemberTimeout g s
  | .rejoinTimerExpiry team rec => Sys2Proof.Machine.execRejoinTimerExpiry team rec s
  | .yieldExpiry team lid => Sys2Proof.Machine.execYieldExpiry team lid s
  | .loadCapWindowEnd core => Sys2Proof.Machine.execLoadCapWindowEnd core s
  | .labelCacheMissDone g => Sys2Proof.Machine.execLabelCacheMissDone g s
  | .quayQueueRoom q => Sys2Proof.Machine.execQuayQueueRoom q s
  | .dispatchDecision cluster => Sys2Proof.Machine.execDispatchDecision cluster s
  | .teamRetire team => Sys2Proof.Machine.execTeamRetire team s
  | .roundIssue team k => Sys2Proof.Machine.execRoundIssue team k s
  | .roundComplete round => Sys2Proof.Machine.execRoundComplete round s
  | .sparsityEntryArrive core part q => Sys2Proof.Machine.execSparsityEntryArrive core part q s
  | .fifoEntryArrive cluster bank => Sys2Proof.Machine.execFifoEntryArrive cluster bank s
  | .fifoRoom cluster bank => Sys2Proof.Machine.execFifoRoom cluster bank s
  | .bankWritebackDone cluster bank => Sys2Proof.Machine.execBankWritebackDone cluster bank s
  | .awaitRelease team lid => Sys2Proof.Machine.execAwaitRelease team lid s
  | .storeArriveHome acc => Sys2Proof.Machine.execStoreArriveHome acc s
  | .wctReached line => Sys2Proof.Machine.execWctReached line s
  | .fillServe acc evict => Sys2Proof.Machine.execFillServe acc evict s
  | .leaseEnd cluster line => Sys2Proof.Machine.execLeaseEnd cluster line s
  | .keySweepLine world => Sys2Proof.Machine.execKeySweepLine world s
  | .pageResident team lid => Sys2Proof.Machine.execPageResident team lid s
  | .pageDeliver team lid => Sys2Proof.Machine.execPageDeliver team lid s
  | .trapEntry team lid => Sys2Proof.Machine.execTrapEntry team lid s
  | .uncorrectableArrive acc => Sys2Proof.Machine.execUncorrectableArrive acc s
  | .preempt team => Sys2Proof.Machine.execPreempt team s
  | .preemptSaveDone team => Sys2Proof.Machine.execPreemptSaveDone team s
  | .resume team cores => Sys2Proof.Machine.execResume team cores s
  | .schedulerRoom team => Sys2Proof.Machine.execSchedulerRoom team s
  | .jobSegmentDone job => Sys2Proof.Machine.execJobSegmentDone job s
  | .jobComplete job => Sys2Proof.Machine.execJobComplete job s
  | .collHeaderRound gid seq => Sys2Proof.Machine.execCollHeaderRound gid seq s
  | .collContribution job => Sys2Proof.Machine.execCollContribution job s
  | .mergeRecordAccept k => Sys2Proof.Machine.execMergeRecordAccept k s
  | .bulkWriteAccept k => Sys2Proof.Machine.execBulkWriteAccept k s
  | .recordAck k => Sys2Proof.Machine.execRecordAck k s
  | .packageArrive world => Sys2Proof.Machine.execPackageArrive world s
  | .arrivalMessage k => Sys2Proof.Machine.execArrivalMessage k s
  | .releaseMessage k => Sys2Proof.Machine.execReleaseMessage k s
  | .applyDone world => Sys2Proof.Machine.execApplyDone world s
  | .tideClose world => Sys2Proof.Machine.execTideClose world s
  | .deliverySend k => Sys2Proof.Machine.execDeliverySend k s
  | .deliveryEnter k => Sys2Proof.Machine.execDeliveryEnter k s
  | .departureWindowClear => Sys2Proof.Machine.execDepartureWindowClear s
  | .packetReceive src seq => Sys2Proof.Machine.execPacketReceive src seq s
  | .laneErasure port => Sys2Proof.Machine.execLaneErasure port s
  | .linkRetire port => Sys2Proof.Machine.execLinkRetire port s
  | .slotStart port => Sys2Proof.Machine.execSlotStart port s
  | .slotTableWrite port idx dest guard len v => Sys2Proof.Machine.execSlotTableWrite port idx dest guard len v s
  | .circuitChange peers tables => Sys2Proof.Machine.execCircuitChange peers tables s
  | .drainMarkerAck => Sys2Proof.Machine.execDrainMarkerAck s
  | .relock => Sys2Proof.Machine.execRelock s
  | .tugFirmwareDownload port version ed ml => Sys2Proof.Machine.execTugFirmwareDownload port version ed ml s
  | .tugFault port => Sys2Proof.Machine.execTugFault port s
  | .groupTableChange id gen rank world members => Sys2Proof.Machine.execGroupTableChange id gen rank world members s
  | .drainRound id => Sys2Proof.Machine.execDrainRound id s
  | .launchCommand world queue record tideBound image => Sys2Proof.Machine.execLaunchCommand world queue record tideBound image s
  | .keyRotation world key => Sys2Proof.Machine.execKeyRotation world key s
  | .spaceIdBinding id gen root world => Sys2Proof.Machine.execSpaceIdBinding id gen root world s
  | .shootdown space lo pages => Sys2Proof.Machine.execShootdown space lo pages s
  | .shootdownDrainDone seq => Sys2Proof.Machine.execShootdownDrainDone seq s
  | .worldReset world => Sys2Proof.Machine.execWorldReset world s
  | .scrub lo frames => Sys2Proof.Machine.execScrub lo frames s
  | .scrubReceipt seq => Sys2Proof.Machine.execScrubReceipt seq s
  | .worldCreate w => Sys2Proof.Machine.execWorldCreate w s
  | .domainForm world members groups => Sys2Proof.Machine.execDomainForm world members groups s
  | .attestationReport nonce world => Sys2Proof.Machine.execAttestationReport nonce world s
  | .crashDump flash => Sys2Proof.Machine.execCrashDump flash s
  | .debugRequest world kind => Sys2Proof.Machine.execDebugRequest world kind s
  | .packageReset => Sys2Proof.Machine.execPackageReset s
  | .dieReset die => Sys2Proof.Machine.execDieReset die s
  | .snapctlWrite v => Sys2Proof.Machine.execSnapctlWrite v s
  | .snapPin => Sys2Proof.Machine.execSnapPin s
  | .qosShareChange world kind unit weight => Sys2Proof.Machine.execQosShareChange world kind unit weight s
  | .bankTransfer cluster bank world logical => Sys2Proof.Machine.execBankTransfer cluster bank world logical s
  | .sysTableWrite w => Sys2Proof.Machine.execSysTableWrite w s
  | .memoryFault pa label => Sys2Proof.Machine.execMemoryFault pa label s
  | .instrSnapshotLatch => Sys2Proof.Machine.execInstrSnapshotLatch s

end Sys2Proof.Machine
end

