-- ==== Sys2Proof/Machine/Clock.lean ====
section
/-! DEFINITION. What the machine does next: the instruction of the clause that is being issued, an input of the agenda, an event that
the package's own blocks bring about, or the passing of a cycle (R3, R30, R70, R96, R104, R470). -/

namespace Sys2Proof.Machine

/-! ### The clause that is being issued -/

/-- The next instruction of the clause made the one that runs; it takes n words. -/
def State.begin (s : State) (n : Nat) : State :=
  { s with here := { s.here with issue := s.here.issue.map (fun i => i.advance n) } }

/-- A word that is no instruction traps ILLOP in each active thread (R104). -/
def State.illegal (s : State) (i : Issue) : State :=
  let t := s.begin (sizeIn ((i.active ++ i.idle).headD 1 == 0) (headRaw i.words))
  { t with here := each (fun _ => illop) t.here }

/-- A thread that left its gang while it was blocked inside a clause (R56) and that its instruction would no longer hold: it is filed at that
instruction. -/
def Package.fileLone (p : Package) (i : Issue) : Package :=
  let l := (i.active ++ i.idle).headD 0
  let w : Who := ⟨i.team, l⟩
  (({ p with issue := none }).setThread w (fun th => th.giveBack i)).fileOne w { hdr := i.hdr, mid := some i.pc }

/-- Whether the gang of a clause holds it. -/
def Package.holdsClause (p : Package) (i : Issue) : Bool := (p.gang? i.core i.id i.team).any (fun g => g.held.isSome)

/-- A blocked thread outside its gang at its instruction: it stays while the instruction holds it. -/
def State.lone (s : State) (i : Issue) : Host.Outcome State Fault Refusal → Host.Outcome State Fault Refusal
  | .next t => if t.here.holdsClause i then .next t else .next { s with here := s.here.fileLone i }
  | o => o

/-- The clause goes on with its next instruction, or ends when none is left. -/
def State.runWord (s : State) (i : Issue) : Host.Outcome State Fault Refusal :=
  match i.words with
  | [] => .next { s with here := s.here.endClause (fun _ => i.nextHdr) }
  | w :: ws =>
    match decode (w :: ws) with
    | .ok (x, rest) =>
      let r := exec x (s.begin ((w :: ws).length - rest.length))
      if i.id < Config.loneGang then r else s.lone i r
    | .error _ => .next (s.illegal i)

/-! ### Inputs -/

/-- Timers of the package, which act in the cycle in which they are due. -/
def immediate : Instr → Bool
  | .loadCapWindowEnd _ | .departureWindowClear | .instrSnapshotLatch => true
  | _ => false

/-- Commands that the submitter holds until their journal has room (R328). -/
def commands : Instr → Bool
  | .keyRotation _ _ | .spaceIdBinding _ _ _ _ | .shootdown _ _ _ | .worldReset _ | .scrub _ _ | .circuitChange _ _
  | .tugFirmwareDownload _ _ _ _ | .groupTableChange _ _ _ _ _ => true
  | _ => false

/-- Whether an input can be taken now: otherwise its submitter waits (R39, R328), or the system cores wait for the writes before it. -/
def Package.due (p : Package) (e : Instr) : Bool :=
  (!commands e || p.journalRoom systemQueue) && (match e with
  | .launchCommand world queue _ _ _ =>
    (match (p.world? world).bind (fun x => x.quay? queue) with
    | some q => p.quayRoom q
    | none => true)
  | .sysTableWrite (.installCode pa n) => !p.writes.any (fun x => decide (lineOf pa ≤ x.line) && decide (x.line ≤ lineOf (pa + 4 * n)))
  | .sysTableWrite (.migrate _ page size _ _ _) => !p.writes.any (fun x => decide (lineOf page ≤ x.line) && decide (x.line < lineOf (page + size)))
  | .shootdown _ _ _ | .sysTableWrite (.flush _) => !p.writes.any (fun x => x.core == 2 ^ 32)
  | .circuitChange _ _ => p.circuit.isNone
  | .dieReset die => !p.teams.any (fun tm => tm.cores.any (fun c => dieOfCore c == die) && tm.residence == .saving)
  | _ => true)

/-! ### Events of the package's own blocks -/

/-- Events of the outstanding accesses, the homes and the cluster caches. -/
def Package.memoryEvents (p : Package) : List Instr :=
  p.accs.flatMap (fun a => [.longLatencyComplete a.id, .fillServe a.id [], .uncorrectableArrive a.id])
    ++ ((p.writes.filter (fun x => x.wct.isNone)).map (·.acc) ++ p.accs.map (·.id)).eraseDups.map .storeArriveHome
    ++ ((p.writes.filter (fun x => x.wct.any (fun t => decide (t ≤ p.now)))).map (·.line)).eraseDups.map .wctReached
    ++ p.dels.flatMap (fun d => [.deliverySend d.id, .deliveryEnter d.id])
    ++ p.lines.flatMap (fun l => l.copies.map (fun c => .leaseEnd c.cluster l.addr))
    ++ p.pods.filterMap (fun c => c.cluster.map (fun k => .leaseEnd k c.line))

/-- Fills that bring an eviction about: which line leaves, and whether one does, is open. -/
def Package.evictingFills (p : Package) : List Instr :=
  p.accs.flatMap (fun a => p.lines.flatMap (fun l => [.fillServe a.id [2 * l.addr], .fillServe a.id [2 * l.addr + 1]]))

/-- Events of the packets that wait. -/
def Package.inboxEvents (p : Package) : List Instr :=
  (List.range p.inbox.length).flatMap (fun k => match (p.inboxAt k).map (fun (m : Packet) => m.msg) with
    | some (.record _ _) => [.mergeRecordAccept k]
    | some (.bulk _ _) => [.bulkWriteAccept k]
    | some (.ack _ _ _ _) | some (.refused _) => [.recordAck k]
    | some (.loadReq _ _ _ _ _ _ _ _ _ _) => [.fillServe (2 ^ 64 + k) []]
    | some (.arrive _ _ _ _) | some (.lateReset _ _) => [.arrivalMessage k]
    | some (.release _ _ _ _) => [.releaseMessage k]
    | _ => [])

/-- Events of jobs and collectives. -/
def Package.jobEvents (p : Package) : List Instr :=
  p.groups.flatMap (fun g => ((g.heads.map (·.seq)).eraseDups).map (fun q => .collHeaderRound g.id q))
    ++ p.jobs.flatMap (fun j => [.jobSegmentDone j.id, .collContribution j.id, .jobComplete j.id])

/-- Events of worlds, tides and system commands. -/
def Package.worldEvents (p : Package) : List Instr :=
  p.worlds.flatMap (fun x => [.packageArrive x.id, .applyDone x.id, .tideClose x.id])
    ++ p.shoots.map (fun x => .shootdownDrainDone x.seq)
    ++ p.sys.scrubs.map (fun r => .scrubReceipt r.seq)
    ++ (if p.circuit.isSome then [.drainMarkerAck, .relock] else [])
    ++ (p.groups.filter (fun g => g.acks == [p.phys])).map (fun g => .drainRound g.id)
    ++ (p.worlds.filter (fun x => x.sweep.isSome)).map (fun x => .keySweepLine x.id)

/-- Events of one team. -/
def Team.events (tm : Team) : List Instr :=
  tm.threads.flatMap (fun th => match th.status with
    | .trapping _ => [.trapEntry tm.id th.lid]
    | .faulted _ _ _ _ => [.pageResident tm.id th.lid]
    | _ => if th.yieldTo = 0 then [] else [.yieldExpiry tm.id th.lid])
    ++ [.preemptSaveDone tm.id, .teamRetire tm.id, .schedulerRoom tm.id]

/-- Events that release what stalls gangs, by the reason of the stall. -/
def Gang.events (g : Gang) : List Instr :=
  (match g.stall with
  | .quay q => [.quayQueueRoom q]
  | .fifo c b => [.fifoRoom c b]
  | .bank c b => [.bankWritebackDone c b]
  | .await => g.blocked.map (fun l => .awaitRelease g.team l)
  | .other => [.labelCacheMissDone { core := g.core, id := g.id, team := g.team }]
  | _ => [])
    ++ [.blockedMemberTimeout { core := g.core, id := g.id, team := g.team }]

/-- Events of threads, gangs, berths, the lathe and cluster SRAM. -/
def Package.coreEvents (p : Package) : List Instr :=
  p.rounds.map (fun r => .roundComplete r.id)
    ++ p.sparse.map (fun q => .sparsityEntryArrive q.core q.part q.q)
    ++ p.teams.flatMap Team.events
    ++ p.gangs.flatMap Gang.events
    ++ p.banks.map (fun b => .fifoEntryArrive b.cluster b.phys)
    ++ p.parts.flatMap (fun x => [.berthEmptyFile x.core x.part, .gangIdFree x.core, .berthAgeExpiry x.core x.part])

/-- The order in which ready gangs are taken: yielding gangs behind the others, and the oldest first (R70). -/
def Package.gangOrder (p : Package) (g : Gang) : Nat := (if p.now < g.yieldTo then 2 ^ 64 else 0) + p.lead g

/-- The gangs that have not tried a clause in this cycle, in the order of R70. Two gangs of different launches with equal lead id and depth keep the order
of the gang list (DESIGN CHOICE: R33 compares ids within one launch only). -/
def Package.untriedGangs (p : Package) : List Gang := (sortBy p.gangOrder p.gangs).filter p.untried

/-- The first of some gangs in each partition. -/
def firstOfParts : List (Nat × Nat) → List Gang → List Gang
  | _, [] => []
  | seen, g :: gs => if seen.contains (g.core, g.part) then firstOfParts seen gs else g :: firstOfParts ((g.core, g.part) :: seen) gs

/-- Clauses that may be tried next: in each partition that of the oldest gang which has not tried one in this cycle, so that every pipe goes
to the oldest ready gang (R70). -/
def Package.clauseEvents (p : Package) : List Instr :=
  (firstOfParts [] p.untriedGangs).map (fun g => .clauseIssue { core := g.core, id := g.id, team := g.team })

/-- The clusters at which a world has queues. -/
def Package.dispatchEvents (p : Package) : List Instr :=
  if p.quays.all (fun q => q.items.isEmpty) then []
  else ((p.worlds.flatMap (fun x => x.clusters.map (fun (c : Nat × Nat) => c.2))).eraseDups).map .dispatchDecision

/-- Sign-off registers of which every expected lane has signed: the round issues at once (R175). -/
def Package.readyRounds (p : Package) : List Instr :=
  p.teams.flatMap (fun tm => ((List.range 16).filter (fun k => (tm.sign k).ready && (tm.sign k).op.isSome)).map (fun k => .roundIssue tm.id k))

/-- The events that may come next, but for evictions. -/
def State.candidates (s : State) : List Instr :=
  let p := s.here
  p.memoryEvents ++ p.inboxEvents
    ++ (s.net.filter (fun m => m.dst == p.phys)).map (fun m => .packetReceive m.src m.seq)
    ++ p.coreEvents ++ p.jobEvents ++ p.dispatchEvents ++ p.clauseEvents ++ p.worldEvents

/-- Whether an event does something now. -/
def State.acts (s : State) (e : Instr) : Bool :=
  match exec e s with
  | .next t => decide (t ≠ s)
  | _ => true

/-! ### Time -/

/-- What the manual puts in the first cycle in which a condition holds: decided deliveries whose time has come, leases that end (R295, R296), dispatch
decisions of the clusters that a team has left (R40), threads of a filing queue, gangs that wait for an id, berths whose
oldest entry has waited 64 cycles, blocked members, the ends of YIELDs, and, at the end of the cycle, the timers of divergence records and the slots of
optical ports (R53, R54, R56, R60, R64, R309). -/
def Package.dueNow (p : Package) : List Instr :=
  p.dels.map (fun d => .deliverySend d.id)
    ++ p.lines.flatMap (fun l => l.copies.map (fun c => .leaseEnd c.cluster l.addr))
    ++ p.pods.filterMap (fun c => c.cluster.map (fun k => .leaseEnd k c.line))
    ++ p.freed.map .dispatchDecision
    ++ p.parts.flatMap (fun x => [.berthEmptyFile x.core x.part, .gangIdFree x.core, .berthAgeExpiry x.core x.part])
    ++ p.gangs.map (fun g => .blockedMemberTimeout { core := g.core, id := g.id, team := g.team })
    ++ p.teams.flatMap (fun tm => tm.threads.flatMap (fun th => if th.yieldTo = 0 then [] else [.yieldExpiry tm.id th.lid]))
    ++ p.teams.flatMap (fun tm => tm.divs.map (fun d => .rejoinTimerExpiry tm.id d.id))
    ++ p.ports.map (fun x => .slotStart x.id)

/-- Timers that are due at a package time. -/
def Package.timers (p : Package) : List Instr :=
  (p.cores.filter (fun c => decide (c.win < p.now) && (p.now - c.win) % Config.loadWindow == 0)).map (fun c => .loadCapWindowEnd c.id)
    ++ (if p.now % Config.departureWindow = 0 then [.departureWindowClear] else [])

/-- The next cycle of a package, after the kills of the cycle. `now` counts its cycles; `Package.time` is the 64-bit counter (R3). -/
def Package.nextCycle (p : Package) : Package :=
  let p := p.killIdle
  let p := { p with now := p.now + 1, issued := [], pipes := [], freed := [] }
  { p with agenda := p.timers ++ p.agenda }

/-- A cycle passes: a snapshot whose time it was is latched at its end; then the packets sent enter the fabric (`Package.transmit`), and the next package
has its turn. Every package of the pod advances by one cycle in turn (DESIGN CHOICE: the package times of different packages are not related
to one another, R3). -/
def State.pass (s : State) : State :=
  let p := s.here
  if p.sys.snapAt.any (fun t => decide (t ≤ p.now)) then { s with here := { p with agenda := .instrSnapshotLatch :: p.agenda } }
  else
    let (sent, p) := p.transmit
    let net := s.net ++ sent
    match s.others with
    | [] => { s with here := p.nextCycle, net }
    | q :: qs => { s with here := q, others := qs ++ [p.nextCycle], net }

/-- The end of the present cycle, which comes only after every gang has tried a clause and everything due in the cycle has happened (R54, R60,
R65, R70). -/
def State.tick (s : State) : Host.Outcome State Fault Refusal :=
  match s.here.clauseEvents with
  | e :: _ => exec e s
  | [] =>
    match s.here.dueNow.find? s.acts with
    | some e => exec e s
    | none => .next s.pass

/-! ### The choice of what comes next -/

/-- Whether the system cores run the system software: the boot has completed (R319). -/
def Package.up (p : Package) : Bool := p.sys.cores.any (· == .running)

/-- Inputs that system software gives; the flash and the fuses are written without it. -/
def bySoftware : Instr → Bool
  | .sysTableWrite (.fuse _) | .sysTableWrite (.firmwareKey _ _) | .sysTableWrite (.flashImage _ _ _ _ _) => false
  | .sysTableWrite _ | .slotTableWrite _ _ _ _ _ _ | .circuitChange _ _ | .tugFirmwareDownload _ _ _ _ | .groupTableChange _ _ _ _ _
  | .launchCommand _ _ _ _ _ | .keyRotation _ _ | .spaceIdBinding _ _ _ _ | .shootdown _ _ _ | .worldReset _ | .scrub _ _ | .worldCreate _
  | .domainForm _ _ _ | .attestationReport _ _ | .snapctlWrite _ | .qosShareChange _ _ _ _ | .bankTransfer _ _ _ _ | .preempt _ | .resume _ _
  | .pageDeliver _ _ => true
  | _ => false

/-- An input taken from the agenda; one that system software would give does not come while no system core runs it. -/
def State.takeInput (s : State) (e : Instr) (rest : List Instr) : Host.Outcome State Fault Refusal :=
  if bySoftware e && !s.here.up then .next { s with here := { s.here with agenda := rest } }
  else exec e { s with here := { s.here with agenda := rest } }

/-- Without a choice, the input that can be taken comes first, then the first event that acts, then the next cycle. -/
def State.first (s : State) : Host.Outcome State Fault Refusal :=
  match s.here.agenda with
  | e :: rest =>
    if s.here.due e then s.takeInput e rest
    else match s.candidates.find? s.acts with
      | some e => exec e s
      | none => s.tick
  | [] =>
    match s.candidates.find? s.acts with
    | some e => exec e s
    | none => s.tick

/-- The c-th of what may come next: the input, the events that act, evictions among them, and the next cycle, counted round. -/
def State.choose (s : State) (c : Nat) : Host.Outcome State Fault Refusal :=
  let es := (s.candidates ++ s.here.evictingFills).filter s.acts
  match s.here.agenda with
  | e :: rest =>
    if s.here.due e then
      match c % (es.length + 2) with
      | 0 => s.takeInput e rest
      | k + 1 =>
        match es[k]? with
        | some e => exec e s
        | none => s.tick
    else
      match es[c % (es.length + 1)]? with
      | some e => exec e s
      | none => s.tick
  | [] =>
    match es[c % (es.length + 1)]? with
    | some e => exec e s
    | none => s.tick

/-- Between clauses: a timer that is due, a round that is ready, and otherwise one of what may come next. -/
def State.between (s : State) : Host.Outcome State Fault Refusal :=
  match s.here.readyRounds with
  | e :: _ => exec e s
  | [] =>
    match s.here.agenda.head? with
    | some e =>
      if immediate e then s.takeInput e s.here.agenda.tail
      else match s.choices with
        | [] => s.first
        | c :: cs => State.choose { s with choices := cs } c
    | none =>
      match s.choices with
      | [] => s.first
      | c :: cs => State.choose { s with choices := cs } c

/-! ### An instruction placed at the fetch -/

/-- The team that runs an instruction placed at the fetch: a pilot that waits in no gang, and one lane thread. -/
def fetchTeam (slot core : Nat) : Team :=
  let r : Nat := setBits 405 400 1 (setBits 395 394 0 (setBits 393 352 (1 + 2 ^ 14 + 2 ^ 28) (setBits 351 288 (1 + 2 ^ 32 + 2 ^ 48) 0)))
  let lane := Thread.start 1 64 1 4096
  { id := slot, tag := slot, world := 1, space := 65536, grid := 0, index := 0, record := r, recordVa := 0, recordPa := none, kdesc := 0
    nregs := 64, nx := 0, lane := 0, cam := [], ceiling := 0, lceils := [], cluster := core / 4, cores := [core]
    threads := [Thread.start 0 0 0 4096, { lane with status := .gang core 0 }], sregs := List.replicate 384 LReg.zero, ext := []
    dq := { freed := 0, entries := [] }, divs := [], signs := List.replicate 16 SignReg.idle, tiles := [], bars := [], cont := none, contAt := (0, 0)
    join := 1, ended := false, killed := false, tideBound := false, residence := .resident, saved := [], pops := [], sparse := []
    frameBase := none, frameVa := 0, debugStop := false }

/-- A package whose clause being issued consists of the given words, in one lane thread of a team of its own. -/
def Package.fetching (p : Package) (words : List Word) : Package :=
  let slot := p.freeSlot
  let g : Gang := { core := 0, part := 0, id := 0, team := slot, lids := [1], point := { hdr := 4096, mid := none }, held := none
                    stall := .none, blocked := [], since := [], yieldTo := 0 }
  let i : Issue := { core := 0, id := 0, team := slot, hdr := 4096, hdrWord := BitVec.ofNat 32 (0xFF1F0 + 512 * words.length), pc := 4100
                     cur := 4100, curWords := [], words, active := [1], idle := [], vec := 0, long := 0, time := p.now
                     sregs := List.replicate 128 LReg.zero, ran := [] }
  let x := World.blank 1
  { p with teams := p.teams ++ [fetchTeam slot 0]
           gangs := p.gangs.filter (fun h => !(h.core == 0 && h.id == 0)) ++ [g]
           worlds := if p.worlds.any (fun w => w.id == 1) then p.worlds else p.worlds ++ [{ x with clusters := [(0, 0)] }]
           issue := some i }

end Sys2Proof.Machine
end

