-- ==== Sys2Proof/Machine/Step.lean ====
section
/-! DEFINITION. One step of the machine: the next instruction of the clause that is being issued, or, between clauses, one input,
event or cycle. -/

namespace Sys2Proof.Machine

/-- One step. -/
def step (s : State) : Host.Outcome State Fault Refusal :=
  match s.here.issue with
  | some i => s.runWord i
  | none => s.between

/-- The state with an instruction of 32 bits, its literals zero, standing as the next instruction of the clause that is being
issued. -/
def State.withFetchWord (s : State) (nbits w : Nat) : State :=
  let word : Word := BitVec.ofNat 32 (w % 2 ^ nbits)
  { s with here := s.here.fetching ([word, 0, 0].take (Raw.ofWord word).size) }

end Sys2Proof.Machine
end

