-- ==== Sys2Proof/Safety.lean ====
section
/-! DEFINITION. The terms in which claims speak of runs: the form that the tables of a package keep (R106 to R108, R193), runs that no
fault ends, and the effect of an instruction on the threads of its gang in turn (R30). -/

namespace Sys2Proof.Machine

/-! ### The form of the tables -/

/-- The live entries of the label table stand in rising order, below 0xFFFF, from a lower bound on, and no two of them have one owner
set, nor one of those in `seen` (R106 to R108). -/
def labelsWfFrom (lo : Nat) (seen : List Mask) : List (Nat × Mask) → Bool
  | [] => true
  | (k, m) :: es => decide (lo ≤ k) && decide (k < 0xFFFF) && !seen.contains m && labelsWfFrom (k + 1) (m :: seen) es

/-- Entry 0 is live and public, and the table keeps its form (R106 to R108). -/
def labelsWf : List (Nat × Mask) → Bool
  | [] => false
  | e :: es => e == (0, 0) && labelsWfFrom 1 [0] es

/-- The tables of a package keep their form: memory, granule labels and the label table. -/
def Package.wf (p : Package) : Bool := Memory.wf p.mem && spWf (0 : Lbl) p.glabels && labelsWf p.labels

/-- The tables of every package of the pod keep their form. -/
def State.Wf (s : State) : Prop := s.here.wf = true ∧ ∀ p ∈ s.others, p.wf = true

/-! ### Runs -/

/-- No fault and no refusal ends the first k steps from a state. -/
def SafeFor (k : Nat) (s : State) : Prop := ∃ t, Host.Core.run core k s = .next t

/-- A safe state: no fault and no refusal ends any run from it. -/
def Safe (s : State) : Prop := ∀ k, SafeFor k s

/-! ### Threads in turn -/

/-- The threads of a list take effect one after the other, each from what the one before it left: `eff w p q` says that the effect in
thread w takes package p to q. -/
def InTurn (eff : Who → Package → Package → Prop) (team : Nat) : List Nat → Package → Package → Prop
  | [], p, q => q = p
  | l :: ls, p, q => ∃ r, eff ⟨team, l⟩ p r ∧ InTurn eff team ls r q

/-- The same, where each thread also gives a value. -/
def InTurnGives {β : Type} (eff : Who → Package → β → Package → Prop) (team : Nat) : List Nat → Package → List (Nat × β) → Package → Prop
  | [], p, out, q => q = p ∧ out = []
  | l :: ls, p, out, q => ∃ r b rest, eff ⟨team, l⟩ p b r ∧ InTurnGives eff team ls r rest q ∧ out = (l, b) :: rest

end Sys2Proof.Machine

namespace Sys2Proof.Claims

open Sys2Proof.Machine

/-! ### What the statements speak of -/

/-- An instruction completes: when its effect takes place in each active thread in turn, exec answers the next state that the effects
leave (R30). -/
def Completes (x : Instr) (eff : Who → Package → Package → Prop) : Prop :=
  ∀ s i q, s.here.issue = some i → InTurn eff i.team i.active s.here q → exec x s = .next { s with here := q }

/-- An effect of a thread gives a value and goes on with a package. -/
def Gives {α : Type} (m : PM α) (p : Package) (a : α) (q : Package) : Prop := m p = .ok (a, q)

/-- The fields of an instruction pass the checks of R104. -/
def Passes (w : Who) (us : List FieldUse) (p : Package) : Prop := checkFields w us p = .ok ((), p)

/-- The value of a w-bit pattern as a two's complement number (R31). -/
def signed (w x : Nat) : Int := if (x % 2 ^ w).testBit (w - 1) then ((x % 2 ^ w : Nat) : Int) - 2 ^ w else ((x % 2 ^ w : Nat) : Int)

/-- The value of an operand of an integer type: signed or natural (R89). -/
def valueIn (t : ITy) (x : Nat) : Int :=
  match t with
  | .n32 => ((x % 2 ^ 32 : Nat) : Int)
  | .n64 => ((x % 2 ^ 64 : Nat) : Int)
  | .i32 => signed 32 x
  | .i64 => signed 64 x

/-- A form of the vector pipes that reads A and B and writes D with the label of R113; `val` relates the operands and the result. -/
def twoSource {T : Type} (o : Alu T) (nd na nb : Nat) (e : Ext) (imm : BitVec 7 → Nat) (val : Nat → Nat → Nat → Prop)
    (w : Who) (p q : Package) : Prop :=
  ∃ x lx p₁ y ly p₂ lbl p₃ v, Passes w ([dst o.d nd, src o.a na] ++ srcB o.b nb) p ∧ Gives (readField w na o.a o.lit e) p (x, lx) p₁ ∧
    Gives (readB w nb o.b o.lit imm e) p₁ (y, ly) p₂ ∧ Gives (resultLabel w (lx ||| ly)) p₂ lbl p₃ ∧ val x y v ∧ v < 2 ^ (32 * nd) ∧
    Gives (vout w o.d nd v lbl) p₃ () q

/-- The same for a form that also reads D, first (R22). -/
def threeSource {T : Type} (o : Alu T) (nd na nb : Nat) (e : Ext) (imm : BitVec 7 → Nat) (val : Nat → Nat → Nat → Nat → Prop)
    (w : Who) (p q : Package) : Prop :=
  ∃ d ld p₀ x lx p₁ y ly p₂ lbl p₃ v, Passes w ([dst o.d nd, src o.a na] ++ srcB o.b nb) p ∧ Gives (readField w nd o.d none e) p (d, ld) p₀ ∧
    Gives (readField w na o.a o.lit e) p₀ (x, lx) p₁ ∧ Gives (readB w nb o.b o.lit imm e) p₁ (y, ly) p₂ ∧
    Gives (resultLabel w (ld ||| lx ||| ly)) p₂ lbl p₃ ∧ val d x y v ∧ v < 2 ^ (32 * nd) ∧ Gives (vout w o.d nd v lbl) p₃ () q

/-- The same for a single-source form, whose source stands in B (R89). -/
def oneSource {T : Type} (o : Un T) (n : Nat) (e : Ext) (imm : BitVec 7 → Nat) (val : Nat → Nat → Prop)
    (w : Who) (p q : Package) : Prop :=
  ∃ y ly p₁ lbl p₂ v, Passes w ([dst o.d n] ++ srcB o.b n) p ∧ Gives (readB w n o.b o.lit imm e) p (y, ly) p₁ ∧
    Gives (resultLabel w ly) p₁ lbl p₂ ∧ val y v ∧ v < 2 ^ (32 * n) ∧ Gives (vout w o.d n v lbl) p₂ () q

/-- Two-source forms whose operands and result have one integer type (R338, R391). -/
def integerForm (o : Alu ITy) : (Nat → Nat → Nat → Prop) → Who → Package → Package → Prop :=
  twoSource o o.ty.regs o.ty.regs o.ty.regs (iExt o.ty) (iImm o.ty)

/-- Two-source forms of the logic group (R340, R417, R464). -/
def logicForm (o : Alu LTy) : (Nat → Nat → Nat → Prop) → Who → Package → Package → Prop :=
  twoSource o o.ty.regs o.ty.regs o.ty.regs .unsigned lImm

/-- Shifts and rotations, whose count is one 32-bit value (R438, R439). -/
def shiftForm (o : Alu LTy) : (Nat → Nat → Nat → Prop) → Who → Package → Package → Prop :=
  twoSource o o.ty.regs o.ty.regs 1 .unsigned lImm

/-- The bits of a field of n bits at bit position k of a w-bit value, zeros past its end (R350). -/
def fieldBit (w x k i : Nat) : Bool := decide (k + i < w) && x.testBit (k + i)

/-- A floating form that reads A and B: `f` gives the result and the exceptions under the thread's rounding mode; the exceptions are
raised, and none of them is one that traps (R146 to R150). -/
def floatTwo (o : Alu FTy) (f : RM → Nat → Nat → Nat × Exc) (w : Who) (p q : Package) : Prop :=
  ∃ x lx p₁ y ly p₂ lbl p₃ rm p₄, Passes w ([dst o.d o.ty.regs, src o.a o.ty.regs] ++ srcB o.b o.ty.regs) p ∧
    Gives (readField w o.ty.regs o.a o.lit .float) p (x, lx) p₁ ∧ Gives (readB w o.ty.regs o.b o.lit (immOf o.ty) .float) p₁ (y, ly) p₂ ∧
    Gives (resultLabel w (lx ||| ly)) p₂ lbl p₃ ∧ Gives (rmode w) p₃ rm p₃ ∧ Gives (raiseFp w (f rm x y).2 lbl) p₃ () p₄ ∧
    Gives (vout w o.d o.ty.regs (f rm x y).1 lbl) p₄ () q

/-- The elements of a result, each the value of `f` at that element of the operands: one, or the two of a packed type (R142). -/
def perElement (t : FTy) (f : Nat → Nat → Nat × Exc) (x y : Nat) : Nat × Exc :=
  match t with
  | .f32 => f (x % 2 ^ 32) (y % 2 ^ 32)
  | .f64 => f (x % 2 ^ 64) (y % 2 ^ 64)
  | _ => ((f (x % 65536) (y % 65536)).1 + 65536 * (f (x / 65536 % 65536) (y / 65536 % 65536)).1,
      (f (x % 65536) (y % 65536)).2 ||| (f (x / 65536 % 65536) (y / 65536 % 65536)).2)

/-- A form that computes a pair from two f32 operands and rounds to nearest even whatever FPCTL says (R457). -/
def transform (o : Alu Unit) (f : Nat → Nat → Nat × Nat × Exc) (w : Who) (p q : Package) : Prop :=
  ∃ x lx p₁ y ly p₂ lbl p₃ p₄, Passes w ([dst o.d 2, src o.a 1] ++ srcB o.b 1) p ∧ Gives (readField w 1 o.a o.lit) p (x, lx) p₁ ∧
    Gives (readB w 1 o.b o.lit (immOf .f32)) p₁ (y, ly) p₂ ∧ Gives (resultLabel w (lx ||| ly)) p₂ lbl p₃ ∧
    Gives (raiseFp w (f x y).2.2 lbl) p₃ () p₄ ∧ Gives (vout w o.d 2 ((f x y).1 + 2 ^ 32 * (f x y).2.1) lbl) p₄ () q

/-- The condition of a comparison (R358). -/
def holds (c : Cond) (x y : Int) : Prop :=
  match c with
  | .eq => x = y
  | .ne => x ≠ y
  | .lt => x < y
  | .ge => y ≤ x

/-- An instruction of the clauses that act on the package from what each thread gives: when its effect takes place in each active thread in
turn, exec answers the next state with what `after` then makes of the package. -/
def CompletesThen {β : Type} (x : Instr) (eff : Who → Package → β → Package → Prop) (after : List (Nat × β) → Package → Package → Prop) : Prop :=
  ∀ s i vs q r, s.here.issue = some i → InTurnGives eff i.team i.active s.here vs q → after vs q r → exec x s = .next { s with here := r }

/-- An instruction across the gang: when every active thread reads its operands, and the effect that uses what all of them read takes place
in each in turn, exec answers the next state (R120). -/
def AcrossGang {β : Type} (x : Instr) (reads : Who → Package → β → Package → Prop)
    (eff : List (Nat × β) → Who → β → Package → Package → Prop) : Prop :=
  ∀ s i u q, s.here.issue = some i → u.map (fun (e : Nat × β) => e.1) = i.active → (∀ e ∈ u, ∃ r, reads ⟨i.team, e.1⟩ s.here e.2 r) →
    InTurn (fun w p q => ∃ b r, reads w p b r ∧ eff u w b r q) i.team i.active s.here q → exec x s = .next { s with here := q }

/-- The instruction that runs becomes outstanding in a thread, tied to the flag that its clause's header gives it (R85, R95, R101). -/
def Outstanding (w : Who) (op : AccOp) (p q : Package) : Prop :=
  ∃ i tm th, p.issue = some i ∧ p.team? w.team = some tm ∧ p.thread? w = some th ∧
    q = { p with
          nextId := p.nextId + 1
          accs := p.accs ++ [{ id := p.nextId, team := w.team, lid := w.lid, core := tm.coreOf w.lid, cluster := tm.cluster, gang := i.id
                               flag := flagOfIndex i.hdrWord i.long, hdr := i.hdr, pc := i.cur, resume := i.skip, trapped := th.trap.isSome
                               epoch := (p.coreOr (tm.coreOf w.lid)).epoch, killed := false, op }] }

/-- A long-latency result that is known becomes outstanding, with the exceptions that a floating-point one raises when it completes (R86, R151). -/
def ResultOwed (w : Who) (f : Fld) (n v : Nat) (lbl : Lbl) (x : Option Exc) (p q : Package) : Prop :=
  ∃ d, Gives (resolve w f) p d p ∧
    Outstanding w (.result { dst := d, regs := n, val := v, lbl, fp := x.map BitVec.toNat, ready := 0, acq := false, span := none }) p q

/-- None of the exceptions of a long-latency floating result is one that traps (R150). -/
def noTrap (w : Who) (x : Exc) (p : Package) : Prop :=
  ∃ th, p.thread? w = some th ∧ ∀ k < 5, x.getLsbD k = true → th.fpctl.getLsbD (8 + k) = false

/-- The lane that SHFL reads, where there is one (R445). -/
def shuffleFrom (m : ShMode) (l d : Nat) : Option Nat :=
  match m with
  | .idx => some (d % 32)
  | .up => if d ≤ l then some (l - d) else none
  | .down => if l + d < 32 then some (l + d) else none
  | .xor => some (l ^^^ (d % 32))

/-- Where each thread goes: the target that it gave, or in sequence. -/
def goesTo (outs : List (Nat × Nat)) (i : Issue) (l : Nat) : Nat := ((outs.find? (fun x => x.1 == l)).map (·.2)).getD i.nextHdr

/-- The clause ends, each thread going to the target that it gave. -/
def endsAt (outs : List (Nat × Nat)) (q r : Package) : Prop := ∃ i, q.issue = some i ∧ r = q.endClause (goesTo outs i)

/-- A target address: a clause header plus 4 times a signed word offset, modulo 2^64 (R92). -/
def targetOf (hdr : Nat) (off : Int) (t : Nat) : Prop := (t : Int) = ((hdr : Int) + 4 * off) % 2 ^ 64

/-- Each active thread in turn raises a trap at the instruction that runs, with its saved values (R31, R252). -/
def TrapsEach (x : Instr) (raises : Who → Package → Cause → Nat → Mask → Lbl → Nat → Package → Prop) : Prop :=
  Completes x (fun w p q => ∃ c va vm lbl aux p₁ i, raises w p c va vm lbl aux p₁ ∧ p₁.issue = some i ∧
    q = p₁.raiseTrap w (i.request c va vm lbl aux))

/-- What ERET restores in a thread from the save that trap entry made: the context stack, the latches, and o0 to o7, or the pilot's s256 to
s263; the thread leaves trap mode (R256). -/
def restored (w : Who) (t : TrapSave) (p : Package) : Package :=
  let p := p.setThread w (fun th => { th with ctx := t.ctx, x0 := t.x0, x1 := t.x1, trap := none
                                              ops := if w.lid = 0 then th.ops else setRegs th.ops 0 t.ops })
  if w.lid = 0 then p.setTeam w.team (fun tm => { tm with sregs := setRegs tm.sregs 256 t.ops }) else p

/-- An ERET in a thread in trap mode, at the end of its clause, once every long-latency instruction that it issued there has completed (R256). -/
def erets (w : Who) (t : TrapSave) (i : Issue) (th : Thread) (p : Package) : Prop :=
  p.issue = some i ∧ i.words = [] ∧ p.thread? w = some th ∧ th.trap = some t ∧ p.handlerWaits w = false

/-- An effective address: the 64-bit base plus the signed offset literal, modulo 2^64, and the owners of the base (R21, R91). -/
def Addressed (w : Who) (a : Fld) (off : Option Word) (p : Package) (va : Nat) (la : Mask) (q : Package) : Prop :=
  ∃ base, Gives (readField w 2 a none) p (base, la) q ∧ (va : Int) = ((base : Int) + (off.getD 0).toInt) % 2 ^ 64

/-- No atomic is held back for the end of the thread's region (R222). -/
def nothingHeld (w : Who) (p : Package) : Prop := ∃ th, p.thread? w = some th ∧ (th.region.isSome → th.trap = none → th.region.bind (·.held) = none)

/-- The accesses that an order waits for are done: no acquire is open, and before a release the accesses of the thread have settled at its
scope (R236, R237). -/
def orderly (w : Who) (o : MemOrder) (s : Scope) (p : Package) : Prop :=
  p.acquiring w = false ∧ (releases o = true → p.settled w s p.nextId p.nextId = true)

/-- The scope record of an acquire or release: judged now when `now` says so, and otherwise where the access is performed (R241). -/
def ScopeJudged (w : Who) (va pa : Nat) (la : Mask) (s : Scope) (now : Prop) (p : Package) (done : Bool) (q : Package) : Prop :=
  (now ∧ Gives (scopeCheck w va pa la s) p done q) ∨ (¬now ∧ done = true ∧ q = p)

/-- A thread with one more entry in the buffer of its region (R221). -/
def withEntry (th : Thread) (r : Region) (va data width : Nat) (need : Lbl) (amask : Mask) (pad : Bool) (policy : Policy) (rel : Bool)
    (scope : Scope) (since : Nat) : Thread :=
  { th with region := some { r with rsb := r.rsb ++ [{ addr := va, data, width, need, amask, pad, policy, rel, scope, since }] } }

/-- What an atomic does in a thread, with the other packages at hand: `nd` registers of data are read, `nx` of them the operand and the others the
second operand (R342 to R345, R430 to R432). -/
def atomicEffect (kind : AtomKind) (order : MemOrder) (scope : Scope) (policy : Policy) (m a : Fld) (off lit : Option Word) (nd nx : Nat)
    (others : List Package) (w : Who) (p q : Package) : Prop :=
  ∃ v lv p₀ va la p₁ i g d th,
    Passes w [if kind.isRed then src m nd else dst m nd, src a 2] p ∧ Gives (readField w nd m lit) p (v, lv) p₀ ∧ Addressed w a off p₀ va la p₁ ∧
    nothingHeld w p₁ ∧ p₁.issue = some i ∧ Gives (env w) p₁ g p₁ ∧ Gives (resolve w m) p₁ d p₁ ∧ p₁.thread? w = some th ∧
    (let h : HeldAtomic := { kind, va, arg := v % 2 ^ (32 * nx), arg2 := v / 2 ^ (32 * nx), need := lv ||| la ||| g, low := la ||| g, dst := d
                             order, scope, policy, flag := flagOfIndex i.hdrWord i.long }
     if th.buffering then q = p₁.setThread w (fun th => { th with region := th.region.map (fun r => { r with held := some h }) })
     else orderly w order scope p₁ ∧ ∃ x pa home p₂, Gives (atomicAccess others w h la) p₁ (x, pa, home) p₂ ∧
      if x.pod then ∃ need p₃ p₄ left p₅, Gives (mkLabel h.need) p₂ need p₃ ∧ Gives (msgCheck w va la x need) p₃ () p₃ ∧
        Outstanding w (.pod 0) p₃ p₄ ∧ Gives (sendPod w p₃.nextId x pa kind.bytes h.arg need home) p₄ left p₅ ∧
        q = p₅.setAcc p₃.nextId (fun a => { a with op := a.op.withLeft left })
      else p₂.atomReady w p₂.nextId pa kind.bytes = true ∧
        match p₂.atomBad h pa with
        | some aux => ∃ k, Gives (badAtomic w h pa aux) p₂ k q
        | none => ∃ old grow p₃ done p₄ k, Gives (growCheck w h la x.grow pa) p₂ (old, grow) p₃ ∧
          ScopeJudged w va pa la scope (h.records = true) p₃ done p₄ ∧ Gives (doAtomic w h pa (some x.pte) old grow done) p₄ k q)

/-- An instruction that reads the memory of every package completes: as `Completes`, with the other packages of the pod at hand. -/
def CompletesWith (x : Instr) (eff : List Package → Who → Package → Package → Prop) : Prop :=
  ∀ s i q, s.here.issue = some i → InTurn (eff s.others) i.team i.active s.here q → exec x s = .next { s with here := q }

/-- As `CompletesThen`, with the other packages of the pod at hand. -/
def CompletesThenWith {β : Type} (x : Instr) (eff : List Package → Who → Package → β → Package → Prop)
    (after : List (Nat × β) → Package → Package → Prop) : Prop :=
  ∀ s i vs q r, s.here.issue = some i → InTurnGives (eff s.others) i.team i.active s.here vs q → after vs q r → exec x s = .next { s with here := r }

/-- A lane thread signs a sign-off register with a lathe operation: the register is armed or collecting for its row and expects it, its bit is
clear, and the word and the literal are those of the round; the signature is added, the bit set, and the first signer gives the key (R173). -/
def signsRound (fields : List FieldUse) (k : Nat) (op : LatheOp) (mk : Who → PM Signature) (w : Who) (p : Package) (_ : Unit) (q : Package) : Prop :=
  ∃ i tm g p₁, w.lid ≠ 0 ∧ Passes w fields p ∧ p.issue = some i ∧ p.team? w.team = some tm ∧
    (let s := tm.sign k
     s.state ≠ .idle ∧ rowOf w.lid = s.row ∧ s.expect &&& 1#32 <<< laneOf w.lid ≠ 0 ∧ s.signed &&& 1#32 <<< laneOf w.lid = 0 ∧
     (s.state = .collecting → i.curWords.headD 0 = s.keyWord ∧ i.curWords.getD 1 0 = s.keyLit) ∧ Gives (mk w) p g p₁ ∧
     q = p₁.setTeam w.team (fun tm => tm.setSign k
       { s with keyWord := i.curWords.headD 0, keyLit := i.curWords.getD 1 0, state := .collecting
                signed := s.signed ||| 1#32 <<< laneOf w.lid, op := some op, sigs := s.sigs ++ [g] }))

/-- Once every thread has signed, the round of the register issues when every expected thread has; else nothing more happens (R175). -/
def thenIssues (k : Nat) (_ : List (Nat × Unit)) (q r : Package) : Prop :=
  ∃ i tm, q.issue = some i ∧ q.team? i.team = some tm ∧
    ((((tm.sign k).signed ≠ (tm.sign k).expect ∨ (tm.sign k).state ≠ .collecting ∨ (tm.sign k).op = none) ∧ r = q) ∨
     ((tm.sign k).signed = (tm.sign k).expect ∧ (tm.sign k).state = .collecting ∧ (tm.sign k).op ≠ none ∧ r = q.issueRound i.team k))

/-- The job that a thread's team scheduler takes on, tied to the clause's flag, with the owners of the context, the guard, the address pair and
the card as its label, and the rank of its thread's pod writes (R123, R246, R275, R289). -/
def jobOf (w : Who) (c : Card) (kind : JobKind) (more : Mask) (i : Issue) (tm : Team) (th : Thread) (wd : World) (g : Mask) (p : Package) : Job :=
  { Job.blank with id := p.nextId, kind := kind, team := w.team, lid := w.lid, world := tm.world, space := tm.space, cluster := tm.cluster
                   core := tm.coreOf w.lid, flag := i.flag, trapped := th.trap.isSome, cardVa := c.va, card := c.bits, teamIdx := tm.index
                   depth := recDepth tm.record, grid := some tm.grid, mask := g ||| c.pair ||| c.mask ||| more, ceiling := p.maskOf tm.ceiling
                   step := (wd.tide.map (·.step)).getD 0, podSeq := th.seqIn ((wd.tide.map (·.writeStep)).getD 0) }

/-- A job is accepted: the scheduler of the team has room, and the job joins its jobs, after the edges of R247; a job whose thread's world has a
tide domain reserves its SEQ values from the thread's count, and keeps how many of them are for its data (R289). -/
def JobTaken (others : List Package) (w : Who) (c : Card) (kind : JobKind) (more : Mask) (f : Job → Job) (p q : Package) : Prop :=
  ∃ i tm th wd g, p.issue = some i ∧ p.team? w.team = some tm ∧ p.thread? w = some th ∧ p.world? tm.world = some wd ∧ Gives (env w) p g p ∧
    (p.jobs.filter (fun j => j.team == w.team && j.kind != .chunk)).length < Config.jobSlots ∧
    (let p₁ : Package := { p with nextId := p.nextId + 1 }
     let j := f (jobOf w c kind more i tm th wd g p)
     let ja : Job := { j with after := (p.jobs.filter (fun (x : Job) => x.team == j.team && x.kind != JobKind.chunk)).filterMap (fun (x : Job) => p₁.edge x j) }
     let j' : Job := { ja with seqs := if wd.tide.isSome then p₁.seqsOf others ja else 0 }
     let n : Nat := if wd.tide.isSome then j'.seqs + p₁.recordGranules j'.space j'.cardVa 1 else 0
     let p₂ : Package := if n = 0 then p₁ else p₁.setThread w (fun th => th.countPod ((wd.tide.map (·.writeStep)).getD 0) n)
     q = { p₂ with jobs := p₂.jobs ++ [j'] })

/-- The pilot holds a grant of manifest number m, and the manifest is x (R290). -/
def Granted (w : Who) (m : BitVec 4) (p : Package) (x : Manifest) : Prop :=
  w.lid = 0 ∧ ∃ tm wd e, p.team? w.team = some tm ∧ p.world? tm.world = some wd ∧ wd.manifests.find? (fun e => e.1 == m.toNat) = some e ∧
    x = p.man e.2

/-- An instruction or event answers the next state with this package (R30). -/
def Answers (x : Instr) (s : State) (q : Package) : Prop := exec x s = .next { s with here := q }

/-- The gangs that are held for a reason are free to try again. -/
def freed (c : Stall → Prop) [DecidablePred c] (p : Package) : Package :=
  { p with gangs := p.gangs.map (fun g => if c g.stall then { g with stall := .none } else g) }

/-- An entry of the filing queue finds its berth, or a free one (R53). -/
def placeable (x : Partition) (e : BerthEntry) : Prop :=
  (∃ y ∈ x.berths, y.team = e.team ∧ y.point = e.point ∧ y.key = e.key) ∨ (berthHeads x.berths).length < Config.berths

/-- A new gang of the oldest thread of each lane of a berth (R54). -/
def gangOf (core part id : Nat) (k : BerthEntry) (lids : List Nat) : Gang :=
  { core, part, id, team := k.team, lids, point := k.point, held := none, stall := .none, blocked := [], since := [], yieldTo := 0 }

/-- What an instruction owes when it completes with a value: its registers and their label, its exceptions in FLAGS, and its flag (R101, R113,
R151). -/
def Finished (p : Package) (a : Acc) (dst : Dst) (regs val : Nat) (m : Mask) (q : Package) : Prop :=
  ∃ l p₁, ({ p with accs := p.accs.filter (fun x => x.id != a.id) }).labelFor m = some (l, p₁) ∧
    q = ((p₁.putVal ⟨a.team, a.lid⟩ dst regs val l).flagDone ⟨a.team, a.lid⟩ a.flag).wake (fun st => st == Stall.memory || st == Stall.other)

/-- The writes of a line that are due: their WCT has been reached (R230). -/
def dueAt (p : Package) (line : Nat) : List Write := p.writes.filter (fun x => x.wct.any (fun t => decide (t ≤ p.now)) && x.line == line)

/-- The fields of a package that its cores, caches and tables of the moment take no part in are as they were: memory, labels of granules and the
label table. -/
def sameStore (p q : Package) : Prop := q.mem = p.mem ∧ q.glabels = p.glabels ∧ q.labels = p.labels

/-- What LD does in a thread, with the other packages at hand. -/
def loadEffect (m : MemOp Width) (others : List Package) (w : Who) (p q : Package) : Prop :=
  ∃ va la p₁ th x pa home p₂ tm wd done p₃ d g p₄,
    Passes w [dst m.d m.x.regs, src m.a 2] p ∧ Addressed w m.a m.off p va la p₁ ∧ nothingHeld w p₁ ∧ p₁.thread? w = some th ∧
    (m.order = .acqrel → th.region = none) ∧ canonical va = true ∧ va % 64 + m.x.bytes ≤ 64 ∧ orderly w m.order m.scope p₁ ∧
    Gives (access others w va la .load) p₁ (x, pa, home) p₂ ∧ p₂.team? w.team = some tm ∧ p₂.world? tm.world = some wd ∧
    (match home with
     | none => ScopeJudged w va pa la m.scope (acquires m.order = true) p₂ done p₃
     | some k => done = false ∧ p₃ = p₂ ∧ (acquires m.order = true → Gives (remoteScope others w va pa la m.scope k) p₂ () p₂)) ∧
    p₃.earlierRemote w home pa m.x.bytes = false ∧ Gives (env w) p₃ g p₃ ∧ Gives (resolve w m.d) p₃ d p₃ ∧
    (let step := if x.pod then wd.tide.map (·.step) else none
     let policy := if x.mode = 3 then .l2 else m.policy
     let scope := if acquires m.order && !done then some m.scope else none
     let copy := if x.pod then home.bind (fun k => p₃.podCopy tm.world k (lineOf pa) step tm.cluster policy) else none
     let atOnce := copy.isSome || (wd.scopeTraps && m.scope != .pkg)
     Outstanding w (.load { va, pa, n := m.x.bytes, policy, acq := acquires m.order, scope := if home.isNone || atOnce then scope else none
                            dst := d, regs := m.x.regs, signed := m.x.signed
                            mask := la ||| g ||| p₃.joinOf (overNeeds th.buffer va m.x.bytes)
                              ||| (if x.pod && decide ((overBytes th.buffer va m.x.bytes).length < m.x.bytes) then p₃.maskOf x.label else 0)
                            ovl := overBytes th.buffer va m.x.bytes, mode := x.mode, step, peer := home, stage := .sent }) p₃ p₄ ∧
     q = (let p := p₄.setCore (tm.coreOf w.lid) (fun c => { c with loads := c.loads + 1 })
          match home with
          | none => p
          | some k => match copy with
            | some c => p.setAcc p₃.nextId (fun a => { a with op := a.op.answered (c.val / 256 ^ (pa % 64)) 0 0 })
            | none => p.send k tm.world (.loadReq p₃.nextId pa m.x.bytes x.mode step x.frame x.mthr (if atOnce then none else scope) tm.tag 0)))

/-- A form of LD completes: its loads become outstanding in each active thread in turn, each changing the package only as `frame` allows, and the remote
acquires among them that record their scope at once do so at their homes (R241). -/
def LoadFramed (m : MemOp Width) (frame : List Package → Who → Package → Package → Prop) : Prop :=
  ∀ s i q, s.here.issue = some i → InTurn (loadEffect m s.others) i.team i.active s.here q →
    exec (.ld m) s = .next (({ s with here := q } : State).recordRemote s.here.nextId) ∧ InTurn (frame s.others) i.team i.active s.here q

/-- What ST does in a thread, with the other packages at hand: into the region's buffer, or on its way to the home. -/
def storeEffect (m : MemOp Width) (others : List Package) (w : Who) (p q : Package) : Prop :=
  ∃ v lv p₀ va la p₁ th,
    Passes w [src m.d m.x.regs, src m.a 2] p ∧ Gives (readField w m.x.regs m.d m.lit) p (v, lv) p₀ ∧ Addressed w m.a m.off p₀ va la p₁ ∧
    nothingHeld w p₁ ∧ p₁.thread? w = some th ∧
    (if th.buffering then
      ∃ need p₂ r i, Gives (resultLabel w (lv ||| la)) p₁ need p₂ ∧ th.region = some r ∧ r.rsb.length < Config.rsbSize ∧ p₂.issue = some i ∧
        q = (p₂.setThread w (fun th => withEntry th r va (v % 2 ^ (8 * m.x.bytes)) m.x.bytes need la false m.policy (releases m.order)
              m.scope p₂.nextId)).flagDone w (flagOfIndex i.hdrWord i.long)
    else
      ∃ x pa home p₂ need p₃ done p₄ p₅ left p₆, orderly w m.order m.scope p₁ ∧ Gives (storeAccess others w va la m.x.bytes none) p₁ (x, pa, home) p₂ ∧
        Gives (resultLabel w (lv ||| la)) p₂ need p₃ ∧ Gives (storeLabel w va la x pa m.x.bytes need) p₃ () p₃ ∧
        ScopeJudged w va pa la m.scope (releases m.order = true ∧ x.pod = false) p₃ done p₄ ∧
        Outstanding w (if x.pod then .pod 0 else .store) p₄ p₅ ∧
        Gives (sendStore w p₄.nextId x pa m.x.bytes (v % 2 ^ (8 * m.x.bytes)) need home m.policy
          (if releases m.order && !done then some m.scope else none)) p₅ left p₆ ∧
        q = p₆.setAcc p₄.nextId (fun a => { a with op := a.op.withLeft left }))

/-- What LDS does in a thread. -/
def padLoadEffect (wd : Width) (m : PadOp) (w : Who) (p q : Package) : Prop :=
  ∃ ea la p₁ b off th lbl p₂,
    Passes w [dst m.d wd.regs, src m.a 2] p ∧ Addressed w m.a m.off p ea la p₁ ∧ nothingHeld w p₁ ∧ p₁.acquiring w = false ∧
    Gives (padAligned w ea la wd.bytes) p₁ (b, off) p₁ ∧ p₁.thread? w = some th ∧
    (let byteFrom := fun (k : Nat) => match youngestPad th.buffer (ea + k) with | some e => e.byte (ea + k) | none => b.byte (off + k)
     let labelFrom := fun (k : Nat) => match youngestPad th.buffer (ea + k) with | some e => e.need | none => b.label ((off + k) / 32)
     Gives (resultLabel w (la ||| p₁.joinOf ((List.range wd.bytes).map labelFrom))) p₁ lbl p₂ ∧
     ResultOwed w m.d wd.regs (extend wd.signed wd.bytes (ofBytes ((List.range wd.bytes).map byteFrom))) lbl none p₂ q)

/-- What STS does in a thread: into the region's buffer, or at its bank. -/
def padStoreEffect (wd : Width) (m : PadOp) (w : Who) (p q : Package) : Prop :=
  ∃ v lv p₀ ea la p₁ th need p₂,
    Passes w [src m.d wd.regs, src m.a 2] p ∧ Gives (readField w wd.regs m.d m.lit) p (v, lv) p₀ ∧ Addressed w m.a m.off p₀ ea la p₁ ∧
    p₁.thread? w = some th ∧ nothingHeld w p₁ ∧ Gives (resultLabel w (lv ||| la)) p₁ need p₂ ∧
    (if th.buffering then
      ∃ r, th.region = some r ∧ r.rsb.length < Config.rsbSize ∧
        q = p₂.setThread w (fun th => withEntry th r ea (v % 2 ^ (8 * wd.bytes)) wd.bytes need la true .cc false .pkg p₂.nextId)
    else
      ∃ b off, p₁.acquiring w = false ∧ Gives (padAligned w ea la wd.bytes) p₁ (b, off) p₁ ∧
        Gives (padLabel w ea la b off wd.bytes need) p₂ () p₂ ∧ q = p₂.setBank (b.put off (toBytes wd.bytes (v % 2 ^ (8 * wd.bytes)))))

/-- An instruction completes, and in each active thread in turn the package changes only as `frame` allows. -/
def Framed (x : Instr) (eff frame : Who → Package → Package → Prop) : Prop :=
  ∀ s i q, s.here.issue = some i → InTurn eff i.team i.active s.here q →
    exec x s = .next { s with here := q } ∧ InTurn frame i.team i.active s.here q

/-- The same for a form that reads the memory of every package. -/
def FramedWith (x : Instr) (eff frame : List Package → Who → Package → Package → Prop) : Prop :=
  ∀ s i q, s.here.issue = some i → InTurn (eff s.others) i.team i.active s.here q →
    exec x s = .next { s with here := q } ∧ InTurn (frame s.others) i.team i.active s.here q

/-- Whether register k of a location is one of the n registers from another location on. -/
def Dst.within (d : Dst) (k : Nat) (e : Dst) (n : Nat) : Prop :=
  match d, e with
  | .main i, .main j => j ≤ i + k ∧ i + k < j + n
  | .op i, .op j => j ≤ i + k ∧ i + k < j + n
  | .sreg i, .sreg j => j ≤ i + k ∧ i + k < j + n
  | _, _ => False

/-- What a form that only computes leaves as it is: memory and everything outside the thread and its team's registers; every register but those that
`written` names; every predicate but those of `ps`; FPCTL but, for a floating form, its FLAGS bits; and the decision queue unless `pops` holds.
The label table may gain entries. -/
def RegsFrame (written : Dst → Nat → Prop) (pops : Prop) (ps : List (BitVec 5)) (fp : Bool) (w : Who) (p q : Package) : Prop :=
  q = { p with teams := q.teams, labels := q.labels } ∧ (∀ e ∈ p.labels, e ∈ q.labels) ∧ (∀ t, t ≠ w.team → q.team? t = p.team? t) ∧
  (∀ v, v ≠ w → q.thread? v = p.thread? v) ∧
  ∀ tm th, p.team? w.team = some tm → p.thread? w = some th → ∃ tm' th', q.team? w.team = some tm' ∧ q.thread? w = some th' ∧
    tm' = { tm with threads := tm'.threads, sregs := tm'.sregs, ext := tm'.ext, dq := tm'.dq } ∧
    th' = { th with regs := th'.regs, ops := th'.ops, preds := th'.preds, x0 := th'.x0, x1 := th'.x1, dqIdx := th'.dqIdx, fpctl := th'.fpctl
                    flagsLbl := th'.flagsLbl } ∧
    (∀ d k, ¬written d k → regAt tm' th' d k = regAt tm th d k) ∧
    (∀ e ∈ tm.ext, e.base ≠ tm.extBase w.lid → e ∈ tm'.ext) ∧ tm'.ext.map (fun e => (e.base, e.holder)) = tm.ext.map (fun e => (e.base, e.holder)) ∧
    (∀ k : BitVec 5, k ∉ ps → th'.preds.getD k.toNat LBit.zero = th.preds.getD k.toNat LBit.zero) ∧
    (fp = false → th'.fpctl = th.fpctl ∧ th'.flagsLbl = th.flagsLbl) ∧ (∀ k, k < 3 ∨ 7 < k → th'.fpctl.getLsbD k = th.fpctl.getLsbD k) ∧
    (¬pops → tm'.dq = tm.dq ∧ th'.dqIdx = th.dqIdx)

/-- The frame of a form with some fields: only the registers that a destination field covers may change, and the decision queue only where a field
names it. -/
def ComputeFrame (us : List FieldUse) (ps : List (BitVec 5)) (fp : Bool) (w : Who) (p q : Package) : Prop :=
  RegsFrame (fun d k => ∃ u ∈ us, u.dst = true ∧ ∃ e, Gives (resolve w u.f) p e p ∧ Dst.within d k e u.n) (∃ u ∈ us, u.f.toNat = 123) ps fp w p q

/-- The same for a form that may take draws of the thread's generator: its seed may change as well (R153). -/
def DrawFrame (us : List FieldUse) (w : Who) (p q : Package) : Prop :=
  ∃ r, ComputeFrame us [] true w p r ∧ (q = r ∨ ∃ v, q = r.setThread w (fun th => { th with seed := v }))

/-- The frame of MOV: in pilot code with an s-register B, which the form writes, those s-registers alone change (R80, R412). -/
def movFrame (o : Alu ITy) (w : Who) (p q : Package) : Prop :=
  match o.b with
  | .sreg b =>
    if w.lid = 0 then ∀ i, p.issue = some i → RegsFrame (fun d k => Dst.within d k (.sreg (128 * (i.hdrWord.toNat / 2 % 4) + b.toNat)) o.ty.regs)
      (o.a.toNat = 123) [] false w p q
    else ComputeFrame [dst o.d o.ty.regs] [] false w p q
  | b => ComputeFrame (dst o.d o.ty.regs :: srcB b o.ty.regs) [] false w p q

/-- What a memory form leaves as it is in registers: every register, predicate and s-register of every thread; FPCTL, the context and the trap
registers; the labels of granules; the endorsements, tables and everything else outside accesses, writes, packets, cores, caches and banks. -/
def AccessFrame (us : List FieldUse) (w : Who) (p q : Package) : Prop :=
  q = { p with mem := q.mem, epochs := q.epochs, code := q.code, cores := q.cores, picks := q.picks, nextId := q.nextId, accs := q.accs, writes := q.writes
               lines := q.lines, horizons := q.horizons, walks := q.walks, mans := q.mans, homeAt := q.homeAt, labels := q.labels, teams := q.teams
               worlds := q.worlds, out := q.out, sent := q.sent, banks := q.banks } ∧
  (∀ e ∈ p.labels, e ∈ q.labels) ∧ (∀ t, t ≠ w.team → q.team? t = p.team? t) ∧ (∀ v, v ≠ w → q.thread? v = p.thread? v) ∧
  ∀ tm th, p.team? w.team = some tm → p.thread? w = some th → ∃ tm' th', q.team? w.team = some tm' ∧ q.thread? w = some th' ∧
    tm' = { tm with threads := tm'.threads, dq := tm'.dq } ∧
    th' = { th with flags := th'.flags, region := th'.region, dqIdx := th'.dqIdx, podSeq := th'.podSeq, podStep := th'.podStep
                    wctAll := th'.wctAll, wctFar := th'.wctFar } ∧
    (th.region = none → th'.region = none) ∧ ((∀ u ∈ us, u.f.toNat ≠ 123) → tm'.dq = tm.dq ∧ th'.dqIdx = th.dqIdx)

/-- The page and the physical address that a load of LD's operands reaches. -/
def loadPlace (m : MemOp Width) (others : List Package) (w : Who) (p : Package) (x : Xlat) (pa : Nat) : Prop :=
  ∃ va la p₁ home p₂, Addressed w m.a m.off p va la p₁ ∧ Gives (access others w va la .load) p₁ (x, pa, home) p₂

/-- The page and the physical address that a store of these operands reaches: the data of n registers are read first, then the base. -/
def storePlace (use : Use) (n : Nat) (d a : Fld) (off lit : Option Word) (others : List Package) (w : Who) (p : Package) (x : Xlat) (pa : Nat) : Prop :=
  ∃ v lv p₀ va la p₁ home p₂, Gives (readField w n d lit) p (v, lv) p₀ ∧ Addressed w a off p₀ va la p₁ ∧
    Gives (access others w va la use) p₁ (x, pa, home) p₂

/-- The bank and the offset that a scratchpad store of these operands reaches. -/
def padPlace (wd : Width) (m : PadOp) (w : Who) (p : Package) (b : Bank) (off : Nat) : Prop :=
  ∃ v lv p₀ ea la p₁, Gives (readField w wd.regs m.d m.lit) p (v, lv) p₀ ∧ Addressed w m.a m.off p₀ ea la p₁ ∧
    Gives (padAligned w ea la wd.bytes) p₁ (b, off) p₁

/-- Every byte of memory but those of a page's table entry, in which the walker sets its bits (R213, R227), reads as before; and every new write
on its way to a home carries bytes of the n from pa on and nothing else. -/
def onlyWrites (x : Xlat) (pa n : Nat) (p q : Package) : Prop :=
  (∀ a, a < x.pte ∨ x.pte + 16 ≤ a → q.byteAt a = p.byteAt a) ∧
  (∀ y ∈ q.writes, y ∈ p.writes ∨ y.line = lineOf pa ∧ y.disc = none ∧ ∀ c ∈ y.cells, pa ≤ c.1 ∧ c.1 < pa + n)

/-! ### Integer forms -/

/-- What ADDC does in a thread (R339). -/
def addcEffect (o : Alu Unit) : Who → Package → Package → Prop :=
  fun w p q =>
  ∃ c lc p₀ x lx p₁ y ly p₂ lbl p₃, Passes w ([dst o.d 2, src o.a 1] ++ srcB o.b 1) p ∧
    Gives (readField w 1 (o.d + 1) none) p (c, lc) p₀ ∧ Gives (readField w 1 o.a o.lit) p₀ (x, lx) p₁ ∧
    Gives (readB w 1 o.b o.lit (iImm .n32)) p₁ (y, ly) p₂ ∧ Gives (resultLabel w (lc ||| lx ||| ly)) p₂ lbl p₃ ∧
    Gives (vout w o.d 2 (x + y + c % 2) lbl) p₃ () q

/-! ### Moves, predicates, floating forms and conversions -/

/-- What MOV does in a thread (R412). -/
def movEffect (o : Alu ITy) : Who → Package → Package → Prop :=
  fun w p q =>
  match o.b with
  | .sreg b =>
    if w.isPilot then
      ∃ i x lx p₁ lbl p₂, o.d.toNat = 122 ∧ Passes w [src o.a o.ty.regs] p ∧ p.issue = some i ∧
        Gives (readField w o.ty.regs o.a o.lit (iExt o.ty)) p (x, lx) p₁ ∧ Gives (resultLabel w lx) p₁ lbl p₂ ∧
        q = p₂.putVal w (.sreg (128 * (i.hdrWord.toNat / 2 % 4) + b.toNat)) o.ty.regs x lbl
    else
      ∃ i v lbl p₁, o.a.toNat = 0 ∧ Passes w [dst o.d o.ty.regs] p ∧ p.issue = some i ∧ (p.team? w.team).isSome ∧
        v = valueOf ((i.sregs.drop b.toNat).take o.ty.regs) ∧
        Gives (resultLabel w (p.joinOf (labelsOf ((i.sregs.drop b.toNat).take o.ty.regs)))) p lbl p₁ ∧ Gives (vout w o.d o.ty.regs v lbl) p₁ () q
  | b =>
    ∃ y ly p₁ lbl p₂, Passes w (dst o.d o.ty.regs :: srcB b o.ty.regs) p ∧
      Gives (readB w o.ty.regs b o.lit (iImm o.ty) (iExt o.ty)) p (y, ly) p₁ ∧ Gives (resultLabel w ly) p₁ lbl p₂ ∧
      Gives (vout w o.d o.ty.regs y lbl) p₂ () q

/-- What MOVL does in a thread (R413). -/
def movlEffect (ty : ITy) (d : Fld) (k : BitVec 14) : Who → Package → Package → Prop :=
  fun w p q => ∃ lbl p₁, ∃ v : Nat, Passes w [dst d ty.regs] p ∧ Gives (resultLabel w 0) p lbl p₁ ∧
  (v : Int) = (if ty = .i32 ∨ ty = .i64 then k.toInt else (k.toNat : Int)) % 2 ^ (32 * ty.regs) ∧ Gives (vout w d ty.regs v lbl) p₁ () q

/-- What SEL does in a thread (R443). -/
def selEffect (sense : Bool) (c : BitVec 5) (o : Un LTy) : Who → Package → Package → Prop :=
  fun w p q => ∃ b lc d ld p₁ y ly p₂ lbl p₃,
  Passes w (dst o.d o.ty.regs :: srcB o.b o.ty.regs) p ∧ Gives (readPred w c) p (b, lc) p ∧ Gives (readField w o.ty.regs o.d o.lit) p (d, ld) p₁ ∧
  Gives (readB w o.ty.regs o.b o.lit lImm) p₁ (y, ly) p₂ ∧ Gives (resultLabel w (lc ||| ld ||| ly)) p₂ lbl p₃ ∧
  Gives (vout w o.d o.ty.regs (if b != sense then y else d) lbl) p₃ () q

/-- What CMP does in a thread (R358). -/
def cmpEffect (o : CmpOp ITy) : Who → Package → Package → Prop :=
  fun w p q => ∃ x lx p₁ y ly p₂ lbl p₃ r, Passes w (src o.a o.ty.regs :: srcB o.b o.ty.regs) p ∧
  Gives (readField w o.ty.regs o.a o.lit (iExt o.ty)) p (x, lx) p₁ ∧ Gives (readB w o.ty.regs o.b o.lit (iImm o.ty) (iExt o.ty)) p₁ (y, ly) p₂ ∧
  Gives (resultLabel w (lx ||| ly)) p₂ lbl p₃ ∧ (r = true ↔ holds o.c (valueIn o.ty x) (valueIn o.ty y)) ∧ Gives (writePred w o.p r lbl) p₃ () q

/-- What PLOP does in a thread (R418). -/
def plopEffect (pd pa pb : BitVec 5) (tt : BitVec 4) : Who → Package → Package → Prop :=
  fun w p q => ∃ a la b lb lbl p₁, Gives (readPred w pa) p (a, la) p ∧
  Gives (readPred w pb) p (b, lb) p ∧ Gives (resultLabel w (la ||| lb)) p lbl p₁ ∧
  Gives (writePred w pd (tt.getLsbD ((if a then 2 else 0) + if b then 1 else 0)) lbl) p₁ () q

/-- What PMOV, in its form toReg, does in a thread (R419). -/
def pmovToRegEffect (d : Fld) (c : BitVec 5) : Who → Package → Package → Prop :=
  fun w p q => ∃ b lb lbl p₁, Passes w [dst d 1] p ∧ Gives (readPred w c) p (b, lb) p ∧
  Gives (resultLabel w lb) p lbl p₁ ∧ Gives (vout w d 1 (if b then 1 else 0) lbl) p₁ () q

/-- What PMOV, in its form toPred, does in a thread (R419). -/
def pmovToPredEffect (c : BitVec 5) (b : Fld) (lit : Option Word) : Who → Package → Package → Prop :=
  fun w p q => ∃ x lx p₁ lbl p₂, Passes w [src b 1] p ∧ Gives (readField w 1 b lit) p (x, lx) p₁ ∧
  Gives (resultLabel w lx) p₁ lbl p₂ ∧ Gives (writePred w c (decide (x ≠ 0)) lbl) p₂ () q

/-- What PMOV, in its form save, does in a thread (R419). -/
def pmovSaveEffect (d : Fld) : Who → Package → Package → Prop :=
  fun w p q => ∃ th v lbl p₁, Passes w [dst d 1] p ∧ p.thread? w = some th ∧
  (∀ k, v.testBit k = (decide (k < 24) && (th.preds.getD k LBit.zero).val)) ∧
  Gives (resultLabel w (p.joinOf (th.preds.map (·.lbl)))) p lbl p₁ ∧ Gives (vout w d 1 v lbl) p₁ () q

/-- What PMOV, in its form load, does in a thread (R419). -/
def pmovLoadEffect (b : Fld) (lit : Option Word) : Who → Package → Package → Prop :=
  fun w p q => ∃ x lx p₁ lbl p₂, Passes w [src b 1] p ∧ Gives (readField w 1 b lit) p (x, lx) p₁ ∧
  Gives (resultLabel w lx) p₁ lbl p₂ ∧
  q = p₂.setThread w (fun th => { th with preds := (List.range 24).map (fun k => { val := x.testBit k, lbl }) })

/-- What FFMA does in a thread (R382). -/
def ffmaEffect (o : Alu FTy) : Who → Package → Package → Prop :=
  fun w p q => ∃ d ld p₀ x lx p₁ y ly p₂ lbl p₃ rm p₄,
  Passes w ([dst o.d o.ty.regs, src o.a o.ty.regs] ++ srcB o.b o.ty.regs) p ∧ Gives (readField w o.ty.regs o.d none .float) p (d, ld) p₀ ∧
  Gives (readField w o.ty.regs o.a o.lit .float) p₀ (x, lx) p₁ ∧ Gives (readB w o.ty.regs o.b o.lit (immOf o.ty) .float) p₁ (y, ly) p₂ ∧
  Gives (resultLabel w (ld ||| lx ||| ly)) p₂ lbl p₃ ∧ Gives (rmode w) p₃ rm p₃ ∧
  (let r := buildOf o.ty (fun k => (fmtOf o.ty).fma rm (elemOf o.ty x k) (elemOf o.ty y k) (elemOf o.ty d k))
   Gives (raiseFp w r.2 lbl) p₃ () p₄ ∧ Gives (vout w o.d o.ty.regs r.1 lbl) p₄ () q)

/-- What FCMP does in a thread (R384). -/
def fcmpEffect (o : CmpOp Bool) : Who → Package → Package → Prop :=
  fun w p q => ∃ x lx p₁ y ly p₂ lbl p₃ p₄,
  let t : FTy := if o.ty then .f64 else .f32
  let r := fcmpVal (fmtOf t) o.c x y
  Passes w (src o.a t.regs :: srcB o.b t.regs) p ∧ Gives (readField w t.regs o.a o.lit .float) p (x, lx) p₁ ∧
  Gives (readB w t.regs o.b o.lit (immOf t) .float) p₁ (y, ly) p₂ ∧ Gives (resultLabel w (lx ||| ly)) p₂ lbl p₃ ∧
  Gives (raiseFp w r.2 lbl) p₃ () p₄ ∧ Gives (writePred w o.p r.1 lbl) p₄ () q

/-- What FRND does in a thread (R388). -/
def frndEffect (dir : RDir) (o : Un FTy) : Who → Package → Package → Prop :=
  fun w p q => ∃ y ly p₁ lbl p₂ rm p₃, Passes w (dst o.d o.ty.regs :: srcB o.b o.ty.regs) p ∧
  Gives (readB w o.ty.regs o.b o.lit (immOf o.ty) .float) p (y, ly) p₁ ∧ Gives (resultLabel w ly) p₁ lbl p₂ ∧ Gives (rmode w) p₂ rm p₂ ∧
  (let r := buildOf o.ty (fun k => frndVal (fmtOf o.ty) (rdirMode dir rm) (elemOf o.ty y k))
   Gives (raiseFp w r.2 lbl) p₂ () p₃ ∧ Gives (vout w o.d o.ty.regs r.1 lbl) p₃ () q)

/-- What CFMA does in a thread (R356). -/
def cfmaEffect (d a b : Fld) : Who → Package → Package → Prop :=
  fun w p q => ∃ x lx p₁ y ly p₂ z lz p₃ lbl p₄ rm p₅, Passes w [dst d 2, src a 2, src b 2] p ∧
  Gives (readField w 2 d none) p (x, lx) p₁ ∧ Gives (readField w 2 a none) p₁ (y, ly) p₂ ∧ Gives (readField w 2 b none) p₂ (z, lz) p₃ ∧
  Gives (resultLabel w (lx ||| ly ||| lz)) p₃ lbl p₄ ∧ Gives (rmode w) p₄ rm p₄ ∧ Gives (raiseFp w (cfmaVal rm x y z).2 lbl) p₄ () p₅ ∧
  Gives (vout w d 2 (cfmaVal rm x y z).1 lbl) p₅ () q

/-- What CVT does in a thread (R369). -/
def cvtEffect (code : BitVec 7) (e : BitVec 2) (o : Un Unit) : Who → Package → Package → Prop :=
  fun w p q => ∃ d ld p₀ y ly p₁ th rm lbl p₂ p₃,
  let c := code.toNat
  let sh := cvtShape code e
  let n := c / 4 % 8
  let el := 4 * (c % 2) + e.toNat
  Passes w (dst o.d sh.nd :: srcB o.b sh.nb) p ∧
  (if sh.dsrc then Gives (readField w 1 o.d o.lit) p (d, ld) p₀ else d = 0 ∧ ld = 0 ∧ p₀ = p) ∧
  Gives (readB w sh.nb o.b o.lit (fun k => if c % 8 = 0 then wrapInt 32 k.toInt else k.toNat) (cvtExt (c % 8))) p₀ (y, ly) p₁ ∧
  p₁.thread? w = some th ∧ Gives (rmode w) p₁ rm p₁ ∧
  (if c < 64 then
    let r := wideCvt rm (c / 8) (c % 8) (if 6 ≤ c % 8 then y / 65536 ^ (e.toNat % 2) % 65536 else y)
    Gives (resultLabel w (ld ||| ly)) p₁ lbl p₂ ∧ Gives (raiseFp w r.2 lbl) p₂ () p₃ ∧
    Gives (vout w o.d sh.nd (if 6 ≤ c / 8 then setElem 16 (e.toNat / 2) r.1 d else r.1) lbl) p₃ () q
  else if c / 32 % 2 = 1 then
    let r := fromNarrow rm n (y / 2 ^ (narrowBits n * el) % 2 ^ narrowBits n)
    Gives (resultLabel w (ld ||| ly)) p₁ lbl p₂ ∧ Gives (raiseFp w r.2 lbl) p₂ () p₃ ∧ Gives (vout w o.d 1 r.1 lbl) p₃ () q
  else
    let r := toNarrow rm (draw th.seed) n (Fmt.f32.decode (y % 2 ^ 32))
    Gives (resultLabel w (ld ||| ly ||| if narrowDraws n then p₁.maskOf th.seedLbl else 0)) p₁ lbl p₂ ∧ Gives (raiseFp w r.2 lbl) p₂ () p₃ ∧
    Gives (vout w o.d 1 (setElem (narrowBits n) el r.1 d) lbl)
      (if narrowDraws n then p₃.setThread w (fun t => { t with seed := draw th.seed }) else p₃) () q)

/-- What QUNPK does in a thread (R423). -/
def qunpkEffect (d a b : Fld) (k j : BitVec 2) (lit : Option Word) : Who → Package → Package → Prop :=
  fun w p q => ∃ x lx p₁ c lc p₂ lbl p₃, Passes w [dst d 2, src a 1, src b 1] p ∧
  Gives (readField w 1 a lit) p (x, lx) p₁ ∧ Gives (readField w 1 b none) p₁ (c, lc) p₂ ∧ Gives (resultLabel w (lx ||| lc)) p₂ lbl p₃ ∧
  (let sc := c / 256 ^ j.toNat % 256
   let pr := q4Pair (sc / 16) (x / 256 ^ k.toNat % 256)
   Gives (vout w d 2 (q4ToF32 (scaleFV pr.1 (bexp sc)) + 2 ^ 32 * q4ToF32 (scaleFV pr.2 (bexp sc))) lbl) p₃ () q)

/-- What QPACK does in a thread (R424). -/
def qpackEffect (d a b : Fld) (j : BitVec 2) : Who → Package → Package → Prop :=
  fun w p q => ∃ x lx p₁ c lc p₂ th rm lbl p₃ p₄, Passes w [dst d 1, src a 8, src b 1] p ∧
  Gives (readField w 8 a none) p (x, lx) p₁ ∧ Gives (readField w 1 b none) p₁ (c, lc) p₂ ∧ p₂.thread? w = some th ∧ Gives (rmode w) p₂ rm p₂ ∧
  (let sc := c / 256 ^ j.toNat % 256
   let y := fun (e : Nat) => scaleFV (Fmt.f32.decode (x / 2 ^ (32 * e) % 2 ^ 32)) (-(bexp sc))
   let g := fun (n : Nat) => n.repeat draw th.seed
   let byte := fun (k : Nat) => qpackPair rm (sc / 16) (y (2 * k)) (y (2 * k + 1)) (g (2 * k + 1)) (g (2 * k + 2))
   Gives (resultLabel w (lx ||| lc ||| p₂.maskOf th.seedLbl)) p₂ lbl p₃ ∧
   Gives (raiseFp w ((byte 0).2 ||| (byte 1).2 ||| (byte 2).2 ||| (byte 3).2) lbl) p₃ () p₄ ∧
   Gives (vout w d 1 ((byte 0).1 + 256 * (byte 1).1 + 65536 * (byte 2).1 + 16777216 * (byte 3).1) lbl)
     (p₄.setThread w (fun t => { t with seed := g 8 })) () q)

/-! ### Lanes, labels and control -/

/-- What FSF does in a thread (R390). -/
def fsfEffect (fn : SFn) (o : Un FTy) : Who → Package → Package → Prop :=
  fun w p q => ∃ y ly p₁ lbl p₂ rm, Passes w (dst o.d o.ty.regs :: srcB o.b o.ty.regs) p ∧
  Gives (readB w o.ty.regs o.b o.lit (immOf o.ty) .float) p (y, ly) p₁ ∧ Gives (resultLabel w ly) p₁ lbl p₂ ∧ Gives (rmode w) p₂ rm p₂ ∧
  (let r := buildOf o.ty (fun k => fsfVal fn (fmtOf o.ty) rm (elemOf o.ty y k))
   noTrap w r.2 p₂ ∧ ResultOwed w o.d o.ty.regs r.1 lbl (some r.2) p₂ q)

/-- What SHFL reads in a thread (R445). -/
def shflReads (o : Alu ShMode) : Who → Package → LaneVal → Package → Prop :=
  fun w p (b : LaneVal) r => ∃ p₁ th, Passes w ([dst o.d 1, src o.a 1] ++ srcB o.b 1) p ∧ Gives (readField w 1 o.a o.lit) p (b.val, b.own) p₁ ∧
  Gives (readB w 1 o.b o.lit lImm) p₁ (b.sel, b.selM) r ∧ r.thread? w = some th ∧ b.ctx = th.ctxMask r

/-- What SHFL does in a thread with what all of them read (R445). -/
def shflEffect (o : Alu ShMode) : List (Nat × LaneVal) → Who → LaneVal → Package → Package → Prop :=
  fun u w b p q => ∃ lbl p₁,
  if w.lid = 0 then Gives (resultLabel w (b.own ||| b.ctx ||| b.selM)) p lbl p₁ ∧ ResultOwed w o.d 1 b.val lbl none p₁ q
  else match (shuffleFrom o.ty (w.lid % 32) b.sel).bind (fun l => u.find? (fun e => e.1 % 32 == l)) with
    | some e => Gives (resultLabel w (e.2.own ||| e.2.ctx ||| b.selM)) p lbl p₁ ∧ ResultOwed w o.d 1 e.2.val lbl none p₁ q
    | none => Gives (resultLabel w (b.own ||| b.selM)) p lbl p₁ ∧ ResultOwed w o.d 1 b.val lbl none p₁ q

/-- What RDX reads in a thread (R426). -/
def rdxReads (ty : RTy) (d b : Fld) (lit : Option Word) : Who → Package → LaneVal → Package → Prop :=
  fun w p v r => Gives (redRead ty d b lit w) p v r

/-- What RDX does in a thread with what all of them read (R426). -/
def rdxEffect (op : RedOp) (ty : RTy) (d : Fld) : List (Nat × LaneVal) → Who → LaneVal → Package → Package → Prop :=
  fun u w me p q => ∃ lbl p₁,
  let first := ((u.head?).map (·.2)).getD me
  let v := redFold op ty (rmOf first.sel) (u.map (·.2.val))
  Gives (resultLabel w (groupMask u ||| (if isFloat ty then first.selM else 0))) p lbl p₁ ∧ (isFloat ty = true → noTrap w v.2 p₁) ∧
  ResultOwed w d ty.regs v.1 lbl (if isFloat ty then some v.2 else none) p₁ q

/-- What SCAN reads in a thread (R442). -/
def scanReads (ty : RTy) (d b : Fld) (lit : Option Word) : Who → Package → LaneVal → Package → Prop :=
  fun w p v r => Gives (redRead ty d b lit w) p v r

/-- What SCAN does in a thread with what all of them read (R442). -/
def scanEffect (excl : Bool) (op : RedOp) (ty : RTy) (d : Fld) : List (Nat × LaneVal) → Who → LaneVal → Package → Package → Prop :=
  fun u w me p q => ∃ lbl p₁,
  let first := ((u.head?).map (·.2)).getD me
  let before := u.takeWhile (fun x => x.1 != w.lid)
  let pre := if excl then before else before ++ [(w.lid, me)]
  let v := if pre = [] then (redIdentity op ty, 0) else redFold op ty (rmOf first.sel) (pre.map (·.2.val))
  Gives (resultLabel w (groupMask pre)) p lbl p₁ ∧ (isFloat ty = true → noTrap w v.2 p₁) ∧ ResultOwed w d ty.regs v.1 lbl (if isFloat ty then some v.2 else none) p₁ q

/-- What VOTE reads in a thread (R459). -/
def voteReads (op : VoteOp) (sense : Bool) (c : BitVec 5) : Who → Package → LaneVal → Package → Prop :=
  fun w p (v : LaneVal) r => ∃ b th, (match op with | .ballot d => Passes w [dst d 1] p | _ => True) ∧ Gives (readPred w c) p (b, v.own) p ∧
  p.thread? w = some th ∧ v.val = (if b != sense then 1 else 0) ∧ v.ctx = th.ctxMask p ∧ v.sel = 0 ∧ v.selM = 0 ∧ r = p

/-- What VOTE does in a thread with what all of them read (R459). -/
def voteEffect (op : VoteOp) : List (Nat × LaneVal) → Who → LaneVal → Package → Package → Prop :=
  fun u w _ p q => ∃ lbl p₁, Gives (resultLabel w (groupMask u)) p lbl p₁ ∧
  match op with
  | .all c => ∃ r : Bool, (r = true ↔ ∀ e ∈ u, e.2.val = 1) ∧ Gives (writePred w c r lbl) p₁ () q
  | .any c => ∃ r : Bool, (r = true ↔ ∃ e ∈ u, e.2.val = 1) ∧ Gives (writePred w c r lbl) p₁ () q
  | .eq c => ∃ r : Bool, (r = true ↔ (∀ e ∈ u, e.2.val = 1) ∨ ∀ e ∈ u, e.2.val ≠ 1) ∧ Gives (writePred w c r lbl) p₁ () q
  | .ballot d => Gives (vout w d 1 ((u.map (fun e => e.2.val * 2 ^ (e.1 % 32))).sum) lbl) p₁ () q

/-- What LGET does in a thread (R406). -/
def lgetEffect (d : Fld) (src' : LgetSrc) (lit : Option Word) : Who → Package → Package → Prop :=
  fun w p q => ∃ m p₁ idx p₂ lbl p₃,
  (match src' with
   | .one b => ∃ v, Passes w (dst d 1 :: srcB b 1) p ∧ Gives (readB w 1 b lit lImm) p (v, m) p₁
   | .pair b => ∃ v, Passes w (dst d 1 :: srcB b 2) p ∧ Gives (readB w 2 b lit lImm) p (v, m) p₁
   | .pred c => ∃ v, Passes w [dst d 1] p ∧ Gives (readPred w c) p (v, m) p₁) ∧
  Gives (mkLabel m) p₁ idx p₂ ∧ Gives (resultLabel w 0) p₂ lbl p₃ ∧ Gives (vout w d 1 idx.toNat lbl) p₃ () q

/-- What LJOIN does in a thread (R406). -/
def ljoinEffect (wide : Bool) (o : Alu Unit) : Who → Package → Package → Prop :=
  fun w p q => ∃ x lx p₁ v lv p₂ lbl p₃,
  let n := if wide then 2 else 1
  Passes w ([dst o.d n, src o.a n] ++ srcB o.b 1) p ∧ Gives (readField w n o.a o.lit) p (x, lx) p₁ ∧
  Gives (readB w 1 o.b o.lit lImm) p₁ (v, lv) p₂ ∧ v < 0xFFFF ∧ p₂.live v = true ∧
  Gives (resultLabel w (lx ||| p₂.maskOf (BitVec.ofNat 16 v) ||| lv)) p₂ lbl p₃ ∧ Gives (vout w o.d n x lbl) p₃ () q

/-- What ENDO does in a thread (R378). -/
def endoEffect (a : Fld) : Who → Package → Package → Prop :=
  fun w p q => ∃ v m p₁ tm x th k,
  let owner := v % 128
  let frm := v / 2 ^ 32 % 65536
  let dest := v / 2 ^ 64 % 65536
  let uses := v / 2 ^ 96 % 65536
  Passes w [src a 4] p ∧ Gives (readField w 4 a none) p (v, m) p₁ ∧ p₁.team? w.team = some tm ∧ p₁.world? tm.world = some x ∧
  p₁.thread? w = some th ∧ dominates (1#128 <<< owner) (m ||| (th.ctxMask p₁ ||| p₁.maskOf th.guardLbl)) = true ∧
  x.caps.getLsbD owner = true ∧ frm < 0xFFFF ∧ p₁.live frm = true ∧ dest < 0xFFFF ∧ p₁.live dest = true ∧
  (p₁.maskOf (BitVec.ofNat 16 frm)).getLsbD owner = true ∧ (p₁.maskOf (BitVec.ofNat 16 dest)).getLsbD owner = false ∧ uses ≠ 0 ∧
  p₁.freeEndorse = some k ∧
  q = { p₁ with endorse := insertBy (·.1) (k, { uses, frm := BitVec.ofNat 16 frm, dest := BitVec.ofNat 16 dest, world := v / 2 ^ 112 % 64
                                                owner, issuer := x.id }) p₁.endorse }

/-- What DECL does in a thread (R371). -/
def declEffect (wide : Bool) (o : Alu Unit) : Who → Package → Package → Prop :=
  fun w p q => ∃ v ms p₁ dest mb p₂ tm x th frm p₃,
  let n := if wide then 2 else 1
  let g := th.ctxMask p₂ ||| p₂.maskOf th.guardLbl
  let mt := p₂.maskOf (BitVec.ofNat 16 dest)
  let removed := ownersOf ((ms ||| g) &&& ~~~mt)
  Passes w ([dst o.d n, src o.a n] ++ srcB o.b 1) p ∧ Gives (readField w n o.a o.lit) p (v, ms) p₁ ∧
  Gives (readB w 1 o.b o.lit lImm) p₁ (dest, mb) p₂ ∧ p₂.team? w.team = some tm ∧ p₂.world? tm.world = some x ∧ p₂.thread? w = some th ∧
  dest < 0xFFFF ∧ p₂.live dest = true ∧ dominates mt (mb ||| g) = true ∧ Gives (mkLabel (ms ||| g)) p₂ frm p₃ ∧ dominates (ms ||| g) mt = true ∧
  (∀ k ∈ removed, (p₃.endorsement k x.id frm (BitVec.ofNat 16 dest)).isSome = true) ∧
  Gives (out w o.d n v (BitVec.ofNat 16 dest))
    { p₃ with endorse := useEntries (removed.filterMap (fun k => p₃.endorsement k x.id frm (BitVec.ofNat 16 dest))) p₃.endorse } () q

/-- What BRC does in a thread, and what the thread gives (R353). -/
def brcEffect (sense : Bool) (c : BitVec 5) (off : BrOff) : Who → Package → Nat → Package → Prop :=
  fun w p t q => ∃ i b m th tm bl p₁, p.issue = some i ∧ Gives (readPred w c) p (b, m) p ∧ p.thread? w = some th ∧ p.team? w.team = some tm ∧
  Gives (mkLabel (m ||| p.maskOf th.guardLbl)) p bl p₁ ∧ dominates (p₁.maskOf tm.ceiling) (p₁.maskOf bl) = true ∧
  Gives (pushCtx w (tm.camFor i.hdr) bl) p₁ () q ∧
  (if b != sense then targetOf i.hdr (match off with | .short o => o.toInt | .long o => o.toInt) t else t = i.nextHdr)

/-- What BRC does to the package once every thread has given its part (R353). -/
def brcAfter : List (Nat × Nat) → Package → Package → Prop :=
  fun outs q r => r = q.endBranch outs

/-- What BDQ does in a thread, and what the thread gives (R349). -/
def bdqEffect (sense : Bool) (off : BrOff) : Who → Package → Nat → Package → Prop :=
  fun w p t q => ∃ e p₀ i th tm bl p₁, w.lid ≠ 0 ∧ Gives (popDQ w 1) p [e] p₀ ∧ p₀.issue = some i ∧ p₀.thread? w = some th ∧
  p₀.team? w.team = some tm ∧ Gives (mkLabel (p₀.maskOf e.lbl ||| p₀.maskOf th.guardLbl)) p₀ bl p₁ ∧
  dominates (p₁.maskOf tm.ceiling) (p₁.maskOf bl) = true ∧ Gives (pushCtx w (tm.camFor i.hdr) bl) p₁ () q ∧
  (if decide (e.val ≠ 0) != sense then targetOf i.hdr (match off with | .short o => o.toInt | .long o => o.toInt) t else t = i.nextHdr)

/-- What BDQ does to the package once every thread has given its part (R349). -/
def bdqAfter : List (Nat × Nat) → Package → Package → Prop :=
  fun outs q r => r = q.endBranch outs

/-- What JMPI does in a thread, and what the thread gives (R392). -/
def jmpiEffect (a : Fld) : Who → Package → Nat → Package → Prop :=
  fun w p t q => ∃ m th, Passes w [src a 2] p ∧ Gives (readField w 2 a none) p (t, m) q ∧ q.thread? w = some th ∧
  dominates (th.ctxMask q) m = true

/-- What RET does in a thread, and what the thread gives (R434). -/
def retEffect (a : Fld) : Who → Package → Nat → Package → Prop :=
  fun w p t q => ∃ m th, Passes w [src a 2] p ∧ Gives (readField w 2 a none) p (t, m) q ∧ q.thread? w = some th ∧
  dominates (th.ctxMask q) m = true

/-- What CALL does in a thread, and what the thread gives (R355). -/
def callEffect (d : Fld) (off : BrOff) : Who → Package → Nat → Package → Prop :=
  fun w p t q => ∃ i lbl p₁, Passes w [dst d 2] p ∧ p.issue = some i ∧ Gives (resultLabel w 0) p lbl p₁ ∧ Gives (out w d 2 i.nextHdr lbl) p₁ () q ∧
  targetOf i.hdr (match off with | .short o => o.toInt | .long o => o.toInt) t

/-- What CALL does to the package once every thread has given its part (R355). -/
def callAfter : List (Nat × Nat) → Package → Package → Prop :=
  fun outs q r => ∃ i, q.issue = some i ∧ r = q.endClause (fun _ => ((outs.head?).map (·.2)).getD i.nextHdr)

/-- What REFORM does in a thread, and what the thread gives (R433). -/
def reformEffect (b : BOp) (lit : Option Word) : Who → Package → (BitVec 16) → Package → Prop :=
  fun w p (k : BitVec 16) q => ∃ i v m, p.issue = some i ∧ i.words = [] ∧ Passes w (srcB b 1) p ∧ Gives (readB w 1 b lit lImm) p (v, m) q ∧
  k.toNat = v % 65536

/-- What REFORM does to the package once every thread has given its part (R433). -/
def reformAfter : List (Nat × (BitVec 16)) → Package → Package → Prop :=
  fun outs q r => ∃ i, q.issue = some i ∧
  r = q.endClauseWith true (fun _ => i.nextHdr) (fun l => ((outs.find? (fun x => x.1 == l)).map (·.2)).getD 0)

/-- What LCEIL does in a thread, and whether the thread waits for its turn among the gangs of its team: a label below the ceiling that the LCEILs before
it have left is the ceiling from the next clause on (R129, R399). -/
def lceilEffect (b : BOp) (lit : Option Word) : Who → Package → Bool → Package → Prop :=
  fun w p wait q => ∃ i, p.issue = some i ∧ ((i.hasRun w.lid = true ∧ wait = false ∧ q = p) ∨ (i.hasRun w.lid = false ∧
  ∃ v lv p₁ tm, Passes w (srcB b 1) p ∧ Gives (readB w 1 b lit lImm) p (v, lv) p₁ ∧ v < 0xFFFF ∧ p₁.live v = true ∧
  p₁.team? w.team = some tm ∧
  ((p₁.ceilTurn w i = false ∧ wait = true ∧ q = p₁) ∨
   (p₁.ceilTurn w i = true ∧ wait = false ∧
    dominates (p₁.maskOf (tm.lceils.foldl (fun c e => p₁.lowered c e.2) tm.ceiling)) (p₁.maskOf (BitVec.ofNat 16 v)) = true ∧
    q = p₁.setTeam w.team (fun tm => { tm with lceils := tm.lceils ++ [(i.active, BitVec.ofNat 16 v)] })))))

/-- What follows once every thread has given its part: the instruction is over, or the gang holds it for the threads that wait, and those that are
through stay so. -/
def heldAfter (st : Stall) : List (Nat × Bool) → Package → Package → Prop :=
  fun outs q r => ((∀ o ∈ outs, o.2 = false) ∧ r = q) ∨ ((∃ o ∈ outs, o.2 = true) ∧ ∃ i,
    q.issue = some i ∧
    r = Package.hold { q with issue := some { i with ran := i.ran ++ (outs.filter (fun (o : Nat × Bool) => !o.2)).map (fun (o : Nat × Bool) => (i.cur, o.1)) } }
      st ((outs.filter (fun (o : Nat × Bool) => o.2)).map (fun (o : Nat × Bool) => o.1)))

/-! ### Traps, special registers, threads and launches -/

/-- The trap that TRAP raises (R455). -/
def trapRaises (code : BitVec 7) : Who → Package → Cause → Nat → Mask → Lbl → Nat → Package → Prop :=
  fun w p c va vm lbl aux q => c = .soft ∧ va = 0 ∧ vm = 0 ∧ aux = code.toNat ∧ Gives (resultLabel w 0) p lbl q

/-- The trap that BKPT raises (R351). -/
def bkptRaises (code : BitVec 7) : Who → Package → Cause → Nat → Mask → Lbl → Nat → Package → Prop :=
  fun w p c va vm lbl aux q => c = .bkpt ∧ va = 0 ∧ vm = 0 ∧ lbl = 0 ∧ aux = code.toNat ∧ q = p ∧
  ∃ tm x, p.team? w.team = some tm ∧ p.world? tm.world = some x ∧ (p.debugs x && tm.debugStop) = false

/-- What BKPT does in a thread of a team under device debug (R351). -/
def bkptHaltEffect : Who → Package → Unit → Package → Prop :=
  fun w p (_ : Unit) q => q = p ∧ ∃ tm x, p.team? w.team = some tm ∧ p.world? tm.world = some x ∧
  p.debugs x = true ∧ tm.debugStop = true

/-- The threads of the gang halt at their points, and the team as a whole issues nothing more (R351). -/
def bkptHaltAfter : List (Nat × Unit) → Package → Package → Prop :=
  fun outs q r => ∃ i, q.issue = some i ∧
  ((outs = [] ∧ r = q) ∨
   (outs ≠ [] ∧ r = (outs.foldl (fun p x => p.haltAt ⟨i.team, x.1⟩ i.skip) q).setTeam i.team (fun tm =>
      { tm with residence := if tm.residence = .resident then .halted else tm.residence })))

/-- What ERET.RESUME does in a thread, and what the thread gives (R256). -/
def eretResumeEffect : Who → Package → (Point × TrapSave) → Package → Prop :=
  fun w p (b : Point × TrapSave) q => ∃ i th, erets w b.2 i th p ∧
  b.1 = (if th.trapRegs.pc ≠ b.2.pc then { hdr := th.trapRegs.pc, mid := none } else b.2.resume) ∧
  q = (restored w b.2 p).setThread w (fun th => { th with frm := i.hdr })

/-- What ERET.RESUME does to the package once every thread has given its part (R256). -/
def eretResumeAfter : List (Nat × (Point × TrapSave)) → Package → Package → Prop :=
  fun outs q r => r = q.endEret outs

/-- What ERET.SKIP does in a thread, and what the thread gives (R256). -/
def eretSkipEffect : Who → Package → (Point × TrapSave) → Package → Prop :=
  fun w p (b : Point × TrapSave) q => ∃ i th, erets w b.2 i th p ∧ b.2.cause ≠ .illclause ∧
  b.1 = (if th.trapRegs.pc ≠ b.2.pc then { hdr := th.trapRegs.pc, mid := none } else b.2.skip.getD b.2.resume) ∧
  q = (restored w b.2 p).setThread w (fun th => { th with frm := i.hdr })

/-- What ERET.SKIP does to the package once every thread has given its part (R256). -/
def eretSkipAfter : List (Nat × (Point × TrapSave)) → Package → Package → Prop :=
  fun outs q r => r = q.endEret outs

/-- What ERET.RESTART does in a thread, and what the thread gives (R256). -/
def eretRestartEffect : Who → Package → (Point × TrapSave) → Package → Prop :=
  fun w p (b : Point × TrapSave) q => ∃ i th g, erets w b.2 i th p ∧ th.region = some g ∧
  b.1 = { hdr := g.pc, mid := none } ∧
  q = (restored w b.2 p).setThread w (fun th => { th with region := some { g with rsb := [], held := none, release := none } })

/-- What ERET.RESTART does to the package once every thread has given its part (R256). -/
def eretRestartAfter : List (Nat × (Point × TrapSave)) → Package → Package → Prop :=
  fun outs q r => r = q.endEret outs

/-- What MFSR does in a thread (R407). -/
def mfsrEffect (d : Fld) (n : BitVec 7) : Who → Package → Package → Prop :=
  fun w p q => ∃ v m p₁ lbl p₂, let k := if d.toNat % 2 = 0 then 2 else 1
  Passes w [dst d k] p ∧ Gives (sregVal w n.toNat) p (v, m) p₁ ∧ Gives (resultLabel w m) p₁ lbl p₂ ∧ Gives (out w d k v lbl) p₂ () q

/-- What MTSR does in a thread (R415). -/
def mtsrEffect (a : Fld) (n : BitVec 7) (lit : Option Word) : Who → Package → Package → Prop :=
  fun w p q => ∃ th v m p₁, let k := n.toNat
  Passes w [src a (if srWide k then 2 else 1)] p ∧ p.thread? w = some th ∧ Gives (readField w (if srWide k then 2 else 1) a lit) p (v, m) p₁ ∧
  ((k = 0x0F ∧ v % 8 < 5 ∧ ∃ lbl p₂, Gives (resultLabel w m) p₁ lbl p₂ ∧
      q = p₂.setThread w (fun th => { th with fpctl := BitVec.ofNat 32 (v % 2 ^ 13), flagsLbl := lbl })) ∨
   (k = 0x10 ∧ ∃ lbl p₂, Gives (resultLabel w m) p₁ lbl p₂ ∧
      q = p₂.setThread w (fun th => { th with seed := if v % 2 ^ 32 = 0 then 0x6D2B79F5 else BitVec.ofNat 32 v, seedLbl := lbl })) ∨
   (k = 0x20 ∧ th.trap.isSome ∧ q = p₁.setThread w (fun th => { th with trapRegs := { th.trapRegs with cause := BitVec.ofNat 32 v } })) ∨
   (k = 0x21 ∧ th.trap.isSome ∧ (∃ t, p₁.thread? w = some t ∧ dominates (t.ctxMask p₁) m = true) ∧
      q = p₁.setThread w (fun th => { th with trapRegs := { th.trapRegs with pc := v } })) ∨
   (k = 0x22 ∧ th.trap.isSome ∧ q = p₁.setThread w (fun th => { th with trapRegs := { th.trapRegs with va := v } })) ∨
   (k = 0x23 ∧ th.trap.isSome ∧ q = p₁.setThread w (fun th => { th with trapRegs := { th.trapRegs with lbl := BitVec.ofNat 16 v } })) ∨
   (k = 0x24 ∧ th.trap.isSome ∧ q = p₁.setThread w (fun th => { th with trapRegs := { th.trapRegs with aux := BitVec.ofNat 32 v } })))

/-- What TIME does in a thread (R453). -/
def timeEffect (d : Fld) (wait : Bool) : Who → Package → Package → Prop :=
  fun w p q => ∃ i th lbl p₁, Passes w [dst d 2] p ∧ p.issue = some i ∧ p.thread? w = some th ∧
  (wait = true → th.region = none ∧ p.settled w .pkg p.nextId p.nextId = true) ∧ Gives (resultLabel w 0) p lbl p₁ ∧
  Gives (out w d 2 (if wait then p.time else i.time % 2 ^ 64) lbl) p₁ () q

/-- What SNAP does in a thread (R447). -/
def snapEffect : Who → Package → Package → Prop :=
  fun w p q => ∃ tm x i, p.team? w.team = some tm ∧ p.world? tm.world = some x ∧ p.issue = some i ∧
  (x.id = 0 ∨ p.debugs x = true) ∧
  q = if p.sys.snapctl.getLsbD 1 && p.sys.snapctl.getLsbD 0 && p.snapCounts x.id then
        ({ p with sys := { p.sys with snapAt := adjoin (i.time + 32) p.sys.snapAt } }).setThread w (fun th => { th with after := i.time + 33 })
      else p

/-- What EXIT does in a thread, and what the thread gives (R380). -/
def exitEffect : Who → Package → Unit → Package → Prop :=
  fun w p (_ : Unit) q => q = p ∧ p.owesRound w = false ∧ p.owesResult w = false

/-- What EXIT does to the package once every thread has given its part (R380). -/
def exitAfter : List (Nat × Unit) → Package → Package → Prop :=
  fun outs q r => ∃ i, q.issue = some i ∧ r = (outs.foldl (fun p x => p.endThread ⟨i.team, x.1⟩) q).endClause (fun _ => i.nextHdr)

/-- What YIELD does in a thread (R469). -/
def yieldEffect : Who → Package → Package → Prop :=
  fun w p q => q = p.setThread w (fun th => { th with yielding := true })

/-- What BAR does in a thread, and what the thread gives (R348). -/
def barEffect (lanes : Bool) (sc : BarScope) : Who → Package → Unit → Package → Prop :=
  fun w p (_ : Unit) q => ∃ i th, p.issue = some i ∧ i.words = [] ∧ p.thread? w = some th ∧ th.region = none ∧
  p.settled w (if sc = .team then .team else .pkg) p.nextId p.nextId = true ∧
  q = p.setTeam w.team (fun tm => { tm with bars := tm.bars ++ [{ lid := w.lid, lanes }] })

/-- What BAR does to the package once every thread has given its part (R348). -/
def barAfter : List (Nat × Unit) → Package → Package → Prop :=
  fun _ q r => ∃ i, q.issue = some i ∧ r = q.setTeam i.team Team.openBar

/-- What DQPUSH does in a thread (R375). -/
def dqpushEffect (b : BOp) (rel : Bool) (lit : Option Word) : Who → Package → Package → Prop :=
  fun w p q => ∃ v m p₁ tm lbl p₂, w.lid = 0 ∧ Passes w (srcB b 1) p ∧
  Gives (readB w 1 b lit lImm) p (v, m) p₁ ∧ (rel = true → p₁.settled w .pkg p₁.nextId p₁.nextId = true) ∧ p₁.team? w.team = some tm ∧
  tm.dq.entries.length < Config.dqSize ∧ Gives (resultLabel w m) p₁ lbl p₂ ∧
  q = p₂.setTeam w.team (fun tm => Team.freeDQ { tm with dq := { tm.dq with entries := tm.dq.entries ++ [{ val := BitVec.ofNat 32 v, lbl }] } })

/-- What DQPOP does in a thread (R375). -/
def dqpopEffect (d : Fld) : Who → Package → Package → Prop :=
  fun w p q => ∃ e p₁ lbl p₂, w.lid ≠ 0 ∧ Passes w [dst d 1] p ∧ Gives (popDQ w 1) p [e] p₁ ∧
  Gives (resultLabel w (p₁.maskOf e.lbl)) p₁ lbl p₂ ∧ Gives (out w d 1 e.val.toNat lbl) p₂ () q

/-- What WINB does in a thread (R460). -/
def winbEffect (k : BitVec 4) : Who → Package → Package → Prop :=
  fun w p q => ∃ tm, w.lid ≠ 0 ∧ p.team? w.team = some tm ∧ 16 * k.toNat < tm.nregs + tm.nx ∧
  (tm.nregs ≤ 16 * k.toNat → tm.holdsExt w.lid = true) ∧ q = p.setThread w (fun th => { th with wnext := some (16 * k.toNat) })

/-- What XACQ does in a thread (R462). -/
def xacqEffect : Who → Package → Package → Prop :=
  fun w p q => ∃ tm, w.lid ≠ 0 ∧ p.team? w.team = some tm ∧ tm.nx ≠ 0 ∧
  ((tm.extBlock? w.lid = none ∧ q = p) ∨ (∃ e, tm.extBlock? w.lid = some e ∧ e.holder = some w.lid ∧ q = p) ∨
   (∃ e, tm.extBlock? w.lid = some e ∧ e.holder = none ∧
    q = p.setTeam w.team (fun t => { t with ext := mapIf (fun x => x.base == t.extBase w.lid) (fun x => { x with holder := some w.lid }) t.ext })))

/-- What XREL does in a thread: the set goes to a buddy that waits for it (R463). -/
def xrelEffect : Who → Package → Package → Prop :=
  fun w p q => ∃ tm th, w.lid ≠ 0 ∧ p.team? w.team = some tm ∧ p.thread? w = some th ∧ tm.nx ≠ 0 ∧ th.wbase < tm.nregs ∧
  ((tm.holdsExt w.lid = false ∧ q = p) ∨ (tm.holdsExt w.lid = true ∧ p.extLocked w tm.nregs = false ∧ p.extOwed w tm.nregs = false ∧
    q = p.setTeam w.team (fun t => { t with ext := mapIf (fun x => x.holder == some w.lid) (fun x =>
      { x with holder := if p.waitsExt w.team (t.buddyId w.lid) then some (t.buddyId w.lid) else none }) t.ext })))

/-- What LAUNCH does in a thread, with the other packages at hand (R397, R398). -/
def launchEffect (others : List Package) (a : Fld) (k : BitVec 4) (lit : Option Word) : Who → Package → Package → Prop :=
  fun w p q => ∃ th tm va la qu r m p₁ p₂, Passes w [src a 2] p ∧ p.thread? w = some th ∧ th.region = none ∧ w.lid = 1 ∧
  p.team? w.team = some tm ∧ recDepth tm.record ≠ 10 ∧ Gives (readRecord others w a k lit) p (va, la, qu, r, m) p₁ ∧
  (let r' := childRecord r (recDepth tm.record + 1) tm.recordVa
   Gives (checkRecord others w va la m r') p₁ () p₂ ∧ p₂.quayRoom qu = true ∧
   q = (p₂.setJoin w.team (· + 1)).pushRecord qu r' tm.world va (some w.team) tm.tideBound)

/-- What CONT does in a thread, with the other packages at hand (R362). -/
def contEffect (others : List Package) (a : Fld) (k : BitVec 4) (lit : Option Word) : Who → Package → Package → Prop :=
  fun w p q => ∃ th va la qu r m p₁ p₂, Passes w [src a 2] p ∧ p.thread? w = some th ∧ th.region = none ∧
  Gives (readRecord others w a k lit) p (va, la, qu, r, m) p₁ ∧ Gives (checkRecord others w va la m r) p₁ () p₂ ∧
  p₂.quayFull qu = false ∧ q = p₂.setTeam w.team (fun tm =>
    if tm.cont.isSome && tm.contAt.1 == p₂.now && decide (w.lid < tm.contAt.2) then tm else { tm with cont := some (r, qu, va), contAt := (p₂.now, w.lid) })

/-! ### Cluster SRAM, fences and regions -/

/-- What FPUSH does in a thread (R387). -/
def fpushEffect (wd : Width) (m : PadOp) : Who → Package → Package → Prop :=
  fun w p q => ∃ v lv p₀ ea la p₁ b lbl p₂,
  Passes w [src m.d wd.regs, src m.a 2] p ∧ Gives (readField w wd.regs m.d m.lit) p (v, lv) p₀ ∧ Addressed w m.a m.off p₀ ea la p₁ ∧
  Gives (fifoAt w ea la) p₁ b p₁ ∧ b.fifo.length < Config.fifoSize ∧ Gives (resultLabel w lv) p₁ lbl p₂ ∧
  q = p₂.setBank { b with fifo := b.fifo ++ [{ bytes := wd.bytes, val := v, lbl }]
                          pushed := if b.pushed.contains lbl then b.pushed else b.pushed ++ [lbl] }

/-- What FPOP does in a thread (R387). -/
def fpopEffect (wd : Width) (m : PadOp) : Who → Package → Package → Prop :=
  fun w p q => ∃ ea la p₁ b g d,
  Passes w [dst m.d wd.regs, src m.a 2] p ∧ Addressed w m.a m.off p ea la p₁ ∧ Gives (fifoAt w ea la) p₁ b p₁ ∧ Gives (env w) p₁ g p₁ ∧
  Gives (resolve w m.d) p₁ d p₁ ∧ Outstanding w (.pop b.phys d wd.bytes g) p₁ q

/-- What FENCE does in a thread (R385). -/
def fenceEffect (sc : Scope) : Who → Package → Package → Prop :=
  fun w p q => q = p ∧ (∃ th, p.thread? w = some th ∧ th.region = none) ∧ p.acquiring w = false ∧
  p.settled w sc p.nextId p.nextId = true

/-- What TLFENCE does in a thread (R454). -/
def tlfenceEffect : Who → Package → Package → Prop :=
  fun w p q => ∃ th tm, p.thread? w = some th ∧ th.region = none ∧ p.acquiring w = false ∧
  p.settled w .pkg p.nextId p.nextId = true ∧ p.team? w.team = some tm ∧ q = { p with layouts := p.layouts.filter (fun l => l.world != tm.world) }

/-- What DISC does in a thread, with the other packages at hand (R373). -/
def discEffect (m : PadOp) (others : List Package) : Who → Package → Package → Prop :=
  fun w p q => ∃ n ln p₀ va la p₁ th last ps p₂ hs need p₃ p₄,
  Passes w [src m.d 1, src m.a 2] p ∧ Gives (readField w 1 m.d m.lit) p (n, ln) p₀ ∧ Addressed w m.a m.off p₀ va la p₁ ∧
  p₁.thread? w = some th ∧ th.region = none ∧ 0 < n ∧ n ≤ 65536 ∧ va % 65536 = 0 ∧ last = (va + 65536 * (n - 1)) % 2 ^ 64 ∧
  canonical va = true ∧ canonical last = true ∧ p₁.acquiring w = false ∧ Gives (discPages w va la 0 n) p₁ ps p₂ ∧
  Gives (discReach w la ps) p₂ hs p₂ ∧ Gives (discOwner others w la hs) p₂ () p₂ ∧ Gives (discKind w la ps) p₂ () p₂ ∧
  Gives (resultLabel w (ln ||| la)) p₂ need p₃ ∧ p₃.maskOf need = 0 ∧ Gives (addAccFlag w none .store) p₃ p₃.nextId p₄ ∧
  Gives (discSend w p₃.nextId ps) p₄ () q

/-- What BANK does in a thread (R201). -/
def bankEffect (try_ : Option (BitVec 5)) (b : BitVec 5) (mode : BankMode) : Who → Package → Package → Prop :=
  fun w p q => ∃ tm wd phys lbl p₁,
  w.lid = 0 ∧ p.team? w.team = some tm ∧ p.world? tm.world = some wd ∧ wd.bank? tm.cluster b.toNat = some phys ∧ Gives (resultLabel w 0) p lbl p₁ ∧
  (let old := p.bankMode tm.cluster phys
   let ok := old = mode ∨ p.bankFree tm.world tm.cluster b.toNat phys old = true
   let p₂ := if old = mode then p₁ else p₁.switchBank tm.cluster phys mode
   match try_ with
   | none => ok ∧ q = p₂
   | some c => (ok ∧ Gives (writePred w c true lbl) p₂ () q) ∨ (¬ok ∧ old ≠ .cache ∧ Gives (writePred w c false lbl) p₁ () q))

/-- What ARM does in a thread (R341). -/
def armEffect (m : PadOp) : Who → Package → Package → Prop :=
  fun w p q => ∃ t lt p₀ ea la p₁ b off need p₂ y,
  Passes w [src m.d 1, src m.a 2] p ∧ Gives (readField w 1 m.d m.lit) p (t, lt) p₀ ∧ Addressed w m.a m.off p₀ ea la p₁ ∧
  Gives (padAligned w ea la 16) p₁ (b, off) p₁ ∧ 0 < t ∧ t < 2 ^ 32 ∧ Gives (resultLabel w lt) p₁ need p₂ ∧ p₂.maskOf need = 0 ∧
  (let x := ofBytes (b.bytes off 16)
   awTarget y = t ∧ awCount y = 0 ∧ awGen y = awGen x ∧ bitsOf 96 96 y = 1 ∧ bitsOf 97 97 y = 0 ∧ bitsOf 127 98 y = 0 ∧ y < 2 ^ 128) ∧
  q = p₂.setBank (b.put off (toBytes 16 y))

/-- What AWAIT does in a thread (R346). -/
def awaitEffect (m : PadOp) : Who → Package → Package → Prop :=
  fun w p q => ∃ v lv p₀ ea la b off,
  Passes w [src m.d 1, src m.a 2] p ∧ Gives (readField w 1 m.d m.lit) p (v, lv) p₀ ∧ Addressed w m.a m.off p₀ ea la q ∧
  Gives (padAligned w ea la 16) q (b, off) q ∧ 0 < signed 32 (awGen (ofBytes (b.bytes off 16)) + 2 ^ 32 - v) ∧ v < 2 ^ 32

/-- What RGN does in a thread (R435). -/
def rgnEffect : Who → Package → Package → Prop :=
  fun w p q => ∃ i th, p.issue = some i ∧ i.words = [] ∧ p.thread? w = some th ∧ th.trap = none ∧ th.region = none ∧
  q = p.setThread w (fun th => { th with region := some { pc := i.nextHdr, rsb := [], held := none, release := none } })

/-- The closing atomic of a region, once its entries have been sent: it waits for what its release order and the thread's own accesses ask, and is then
performed under the label that its granule has, or sent as merge records. `done` says that it has been (R118, R237, R243, R273). -/
def closingDone (w : Who) (acc : Nat) (h : HeldAtomic) (x : Xlat) (pa : Nat) (home : Option Nat) (p : Package) (done : Bool) (q : Package) : Prop :=
  let held := releases h.order = true ∧ p.settled w h.scope p.nextId acc = false
  let early := x.pod = false ∧ p.atomReady w p.nextId pa h.kind.bytes = false
  ((held ∨ early) ∧ done = false ∧ q = p) ∨
  (¬held ∧ ¬early ∧ done = true ∧
    if x.pod then ∃ need p₁ n p₂, Gives (mkLabel h.need) p need p₁ ∧ Gives (sendPod w acc x pa h.kind.bytes h.arg need home) p₁ n p₂ ∧
      q = (p₂.setAcc acc (fun a => { a with op := a.op.more n })).flagDone w h.flag
    else ∃ wd k p₁, Gives (worldOf w) p wd p ∧
      (match p.atomBad h pa with
       | some aux => Gives (badAtomic w h pa aux) p k p₁
       | none => ∃ old l p₂, Gives (closingGrowth h pa) p (old, l) p₂ ∧
         Gives (doAtomic w h pa (some x.pte) old l (wd.scopeTraps && h.scope != .pkg)) p₂ k p₁) ∧
      q = p₁.setAcc acc (fun a => { a with op := a.op.closedBy k }))

/-- The release of a region goes on: entries in buffer order, up to a .rel one that must wait for R237, and then the closing atomic. `wait` says that
something is still to be done; after that the region is over (R242, R436). -/
def regionRuns (w : Who) (r : Region) (x : Release) (p : Package) (wait : Bool) (q : Package) : Prop :=
  ∃ todo p₁ p₂, Gives (releaseEntries w x.acc x.todo) p todo p₁ ∧
  ((todo ≠ [] ∧ wait = true ∧ p₂ = p₁) ∨
   (todo = [] ∧ ((∃ y pa home h, x.closing = some (y, pa, home) ∧ r.held = some h ∧ closingDone w x.acc h y pa home p₁ (!wait) p₂) ∨
     ((x.closing = none ∨ r.held = none) ∧ wait = false ∧ p₂ = p₁)))) ∧
  q = p₂.setThread w (fun th => { th with region := if wait then some { r with rsb := [], release := some { x with todo } } else none })

/-- RGNC in a thread whose region is still whole: every buffered entry and the closing atomic pass their checks, all before anything is released; then
the release begins. It waits, with nothing released, while another thread's closing atomic on the same granule is under way (R118, R223, R436). -/
def regionStarts (others : List Package) (w : Who) (r : Region) (p : Package) (wait : Bool) (q : Package) : Prop :=
  ∃ ts p₁ cl p₂, p.acquiring w = false ∧ Gives (entryTargets others w r.rsb) p ts p₁ ∧ Gives (entryLabels w ts) p₁ () p₁ ∧
  (match r.held with
   | some h => ∃ c, cl = some (h, c) ∧ Gives (atomicAccess others w h h.low) p₁ c p₂
   | none => cl = none ∧ p₂ = p₁) ∧
  (let busy := ∃ c, cl = some c ∧ c.2.1.pod = false ∧ p₂.reserved w (granuleOf c.2.2.1) = true
   (busy ∧ wait = true ∧ q = p₂) ∨
   (¬busy ∧ ∃ p₃ es p₄,
     (match cl with
      | some (h, x, pa, _) => Gives (closingCheck w h x pa) p₂ () p₃
      | none => p₃ = p₂) ∧
     Gives (checkedAll w ts) p₃ es p₄ ∧
     if es = [] ∧ cl = none then ∃ i, p₄.issue = some i ∧ wait = false ∧
       q = (p₄.setThread w (fun th => { th with region := none })).flagDone w i.flag
     else ∃ tm p₅, p₄.team? w.team = some tm ∧ Outstanding w (.rgnc 0 none) p₄ p₅ ∧
       regionRuns w r { acc := p₄.nextId, todo := es, closing := cl.map (·.2), core := tm.coreOf w.lid
                        epoch := (p₂.coreOr (tm.coreOf w.lid)).epoch } p₅ wait q))

/-- What RGNC does in a thread, and whether the thread then waits for its region to be released (R436). A thread that is through while its gang holds the
instruction for others has nothing more to do. -/
def rgncEffect : List Package → Who → Package → Bool → Package → Prop :=
  fun others w p b q => ∃ i th, p.issue = some i ∧ p.thread? w = some th ∧
  ((i.hasRun w.lid = true ∧ b = false ∧ q = p) ∨
   (i.hasRun w.lid = false ∧ th.trap = none ∧ ∃ r, th.region = some r ∧
    ((∃ x, r.release = some x ∧ regionRuns w r x p b q) ∨ (r.release = none ∧ regionStarts others w r p b q))))

/-! ### The lathe, jobs and manifests -/

/-- What SIGN does in a thread (R446). -/
def signEffect (k : BitVec 4) (row : SignRow) : Who → Package → Package → Prop :=
  fun w p q => ∃ tm n lbl e, w.lid = 0 ∧ p.team? w.team = some tm ∧
  (match row with
   | .imm r => n = r.toNat
   | .sreg b => Gives (readSreg w 1 b) p (n, lbl) p) ∧
  n < (recThreads tm.record + 31) / 32 ∧ n < 256 ∧ (tm.sign k.toNat).state ≠ .collecting ∧
  (∀ l < 32, e.getLsbD l = true ↔ ∃ th ∈ tm.liveLanes, rowOf th.lid = n ∧ laneOf th.lid = l) ∧
  q = p.setTeam w.team (fun tm => tm.setSign k.toNat
    { SignReg.idle with row := n, expect := e, state := if e = 0#32 then .idle else .armed })

/-- What JWAIT does in a thread (R394). -/
def jwaitEffect (f : BitVec 4) : Who → Package → Package → Prop :=
  fun w p q => q = p ∧ ∃ th, p.thread? w = some th ∧ th.flags.getD f.toNat 0 = 0

/-- What CPY does in a thread, with the other packages at hand (R364). -/
def cpyEffect (a : Fld) (rel : Bool) (lit : Option Word) : List Package → Who → Package → Package → Prop :=
  fun os w p q => ∃ c p₁ tm, Gives (readCard os w a rel lit []) p c p₁ ∧
  p₁.team? w.team = some tm ∧ cpyOk tm.rows c.bits = true ∧ JobTaken os w c .cpy 0 id p₁ q

/-- What CPYM does in a thread, with the other packages at hand (R367). -/
def cpymEffect (a b : Fld) (rel : Bool) (lit : Option Word) : List Package → Who → Package → Package → Prop :=
  fun os w p q => ∃ c p₁ m lm p₂, Gives (readCard os w a rel lit [src b 2]) p c p₁ ∧
  Gives (readField w 2 b lit) p₁ (m, lm) p₂ ∧
  (let r := cardRegion c.bits 0
   let d := cardRegion c.bits 4
   r.v = true ∧ r.sp = false ∧ d.v = true ∧ d.sp = true ∧ r.len = d.len ∧ onlyRegions c.bits [0, 4] = true ∧ cardParam c.bits = 0) ∧
  JobTaken os w c (.cpym (m % 2 ^ 40)) lm id p₂ q

/-- What COLL does in a thread, with the other packages at hand (R359). -/
def collEffect (tile : Option (BitVec 6)) (a : Fld) (rel : Bool) (lit : Option Word) : List Package → Who → Package → Package → Prop :=
  fun os w p q => ∃ c p₁ tm g p₂,
  Gives (readCard os w a rel lit []) p c p₁ ∧ p₁.team? w.team = some tm ∧ p₁.group? (collGid c.bits) (collGen c.bits) tm.world = some g ∧
  collOk tile.isSome g.members.length c.bits = true ∧
  JobTaken os w c (.coll (tile.map BitVec.toNat)) 0 (fun j => { j with gid := g.id, gen := g.gen, seq := g.seq, hash := collHash c.bits g.seq }) p₁ p₂ ∧
  q = { p₂ with groups := mapIf (fun x => x.id == g.id) (fun x => { x with seq := (x.seq + 1) % 2 ^ 24 }) p₂.groups }

/-- What XPERM does in a thread, with the other packages at hand (R467). -/
def xpermEffect (a : Fld) (rel : Bool) (lit : Option Word) : List Package → Who → Package → Package → Prop :=
  fun os w p q => ∃ c p₁ tm wd t th, Passes w [src a 2] p ∧ p.thread? w = some th ∧ th.region = none ∧
  Gives (readCard os w a rel lit []) p c p₁ ∧ p₁.team? w.team = some tm ∧ p₁.world? tm.world = some wd ∧ wd.tide = some t ∧
  tm.tideBound = true ∧ xpOk t.me c.bits = true ∧ JobTaken os w c .xperm 0 id p₁ q

/-- What TIDE does in a thread (R288). -/
def tideEffect (d : Fld) : Who → Package → Package → Prop :=
  fun w p q => ∃ i th tm wd lbl p₁ r p₂, p.issue = some i ∧ i.words = [] ∧ Passes w [dst d 2] p ∧
  p.thread? w = some th ∧ th.trap = none ∧ th.region = none ∧ p.team? w.team = some tm ∧ tm.tideBound = true ∧ p.world? tm.world = some wd ∧
  wd.tide.isSome ∧ p.acquiring w = false ∧ p.settled w .pkg p.nextId p.nextId = true ∧ Gives (resultLabel w 0) p lbl p₁ ∧
  Gives (resolve w d) p₁ r p₁ ∧ Outstanding w (.tide r lbl) p₁ p₂ ∧ q = p₂.setThread w (fun th => { th with arrived := true })

/-- What REC.BEGIN does in a thread (R428). -/
def recBeginEffect (m : BitVec 4) (a b : Fld) (lit : Option Word) : Who → Package → Package → Prop :=
  fun w p q => ∃ x va la p₁ n ln p₂ maps p₃ tm wd, Granted w m p x ∧ Passes w [src a 2, src b 1] p ∧
  Gives (readField w 2 a lit) p (va, la) p₁ ∧ Gives (readField w 1 b lit) p₁ (n, ln) p₂ ∧ canonical va = true ∧ va % 65536 = 0 ∧ 0 < n ∧
  n ≤ 16384 ∧ p₂.carveOut = true ∧ Gives (rangeMaps w va la 0 n) p₂ maps p₃ ∧ p₃.team? w.team = some tm ∧ p₃.world? tm.world = some wd ∧
  p₃.homeAt ≠ p₃.now + 1 ∧
  (let fs := mapFrames p₃ wd maps
   (∀ y ∈ p₃.mans, y.phys ≠ x.phys → y.state ≠ .empty → ∀ f ∈ fs, y.holds f.2 = false) ∧
   (let r := p₃.uncount x.phys
    let ls : List Line := r.lines.map (fun (l : Line) => if ∃ f ∈ fs, f.2 = l.addr / 1024 then { l with writer := none } else l)
    q = Package.setMan { r with lines := ls }
      { Manifest.reset x.phys with world := tm.world, state := .recording, space := tm.space, frames := fs, maps := maps }))

/-- What REC.END does in a thread (R428). -/
def recEndEffect (m : BitVec 4) : Who → Package → Package → Prop :=
  fun w p q => ∃ x, Granted w m p x ∧ (x.state = .recording ∨ x.state = .playing) ∧ p.homeAt ≠ p.now + 1 ∧
  q = p.setMan { x with state := .recorded }

/-- What REC.PLAY does in a thread (R428). -/
def recPlayEffect (m : BitVec 4) (b : Fld) (lit : Option Word) : Who → Package → Package → Prop :=
  fun w p q => ∃ x v lv p₁, Granted w m p x ∧ Passes w [src b 1] p ∧
  Gives (readField w 1 b lit) p (v, lv) p₁ ∧ p₁.homeAt ≠ p₁.now + 1 ∧
  ((x.state = .recorded ∨ x.state = .suspended) ∧
     q = p₁.setMan { x with state := .playing, cause := 0, misses := 0, unread := 0, deliv := 0, hits := 0, mth := v % 256, uth := v / 256 % 256 } ∨
   x.state = .playing ∧ q = p₁.setMan (Manifest.judge { x with mth := v % 256, uth := v / 256 % 256 } p₁.now))

/-- What REC.DROP does in a thread (R428). -/
def recDropEffect (m : BitVec 4) : Who → Package → Package → Prop :=
  fun w p q => ∃ x, Granted w m p x ∧
  (x.state ≠ .empty → p.homeAt ≠ p.now + 1) ∧ q = if x.state = .empty then p
    else (p.uncount x.phys).setMan { x with state := .empty, frames := [], maps := [], entries := [] }

/-- What RECQ does in a thread (R429). -/
def recqEffect (d : Fld) (m : BitVec 4) : Who → Package → Package → Prop :=
  fun w p q => ∃ x lbl p₁ v, Granted w m p x ∧ Passes w [dst d 4] p ∧ Gives (resultLabel w 0) p lbl p₁ ∧
  v = (x.state.code * 2 ^ 29 + x.cause * 2 ^ 27 + x.ovf.toNat * 2 ^ 26 + min x.entries.length (2 ^ 20 - 1))
    + 2 ^ 32 * min x.deliv (2 ^ 32 - 1) + 2 ^ 64 * min x.hits (2 ^ 32 - 1)
    + 2 ^ 96 * (min x.misses 65535 * 65536 + min x.unread 65535) ∧ Gives (out w d 4 v lbl) p₁ () q

/-- What a command for the circuits of the pod does first on one package: the peers concerned are those that a pair of the command names and those
whose reachability an entry of the package's tables changes; none of them stays reachable, and each is sent a drain marker (R311). -/
def QuiescedBy (pairs : List (Nat × Nat)) (tables : List (Nat × Nat × Nat × Nat)) (p q : Package) : Prop :=
  ∃ c, q.circuit = some c ∧ c.tables = (tables.filter (fun e => e.1 == p.phys)).map (·.2) ∧ c.dark = false ∧
    (∀ k, k ∈ c.peers ↔ k ≠ p.phys ∧ ((p.phys, k) ∈ pairs ∨ (k, p.phys) ∈ pairs ∨ ∃ e ∈ c.tables, ∃ x y, p.world? e.1 = some x ∧
      x.peers.find? (fun y => y.logical == e.2.1) = some y ∧ y.phys = k ∧ y.state ≠ .absent ∧ e.2.2 ≠ k + 1)) ∧
    (∀ x ∈ q.worlds, ∀ y ∈ x.peers, y.phys ∈ c.peers → y.state ≠ .reachable) ∧
    (∀ k ∈ c.peers, ∃ m ∈ q.out, m.dst = k ∧ m.msg = .peerDrain k) ∧
    ∀ w l n x, c.tables = [(w, l, n)] → p.world? w = some x →
      (match x.peers.find? (fun y => y.logical == l) with
        | none => n ≠ 0
        | some y => n = 0 ∧ y.state ≠ .absent ∨ n ≠ 0 ∧ (y.state = .absent ∨ y.phys + 1 ≠ n)) →
      ∃ x', q.world? w = some x' ∧ ∃ y ∈ x'.peers, y.logical = l ∧ y.state = .quiescing

/-- Whether a pattern of a format is finite: its exponent field is not all ones (R141). -/
def finiteIn (F : Fmt) (x : Nat) : Bool := x / 2 ^ F.mb % 2 ^ F.eb != 2 ^ F.eb - 1

/-- The value of a finite pattern as an integer, in units of the least magnitude of the format (R141). -/
def unitsIn (F : Fmt) (x : Nat) : Int :=
  let e := x / 2 ^ F.mb % 2 ^ F.eb
  let m := x % 2 ^ F.mb
  let n : Nat := if e = 0 then m else (2 ^ F.mb + m) * 2 ^ (e - 1)
  if x.testBit (F.eb + F.mb) then -(n : Int) else n

/-- The least magnitude of a format is 2 to the minus this (R141). -/
def unitExp (F : Fmt) : Nat := 2 ^ (F.eb - 1) - 2 + F.mb

/-- A pattern is an exact value rounded to a format (R147): among the finite patterns it is the nearest one, and the even one of two that are equally near, or
the one farther from zero; or the nearest one not above, not below, or not beyond the value. It is infinite only beyond every finite one. The exact value stands
in units of 2 to the minus k of the format's least magnitude. -/
def RoundsTo (F : Fmt) (rm : RM) (k : Nat) (exact : Int) (r : Nat) : Prop :=
  (let patterns := fun (z : Nat) => z < 2 ^ (1 + F.eb + F.mb) ∧ finiteIn F z = true
   let v := fun (z : Nat) => unitsIn F z * 2 ^ k
   if finiteIn F r then
     (match rm with
      | .rne => ∀ z, patterns z → (exact - v r).natAbs ≤ (exact - v z).natAbs ∧ ((exact - v r).natAbs = (exact - v z).natAbs → v z ≠ v r → r % 2 = 0)
      | .rna => ∀ z, patterns z → (exact - v r).natAbs ≤ (exact - v z).natAbs ∧
          ((exact - v r).natAbs = (exact - v z).natAbs → (v z).natAbs ≤ (v r).natAbs)
      | .rdn => v r ≤ exact ∧ ∀ z, patterns z → v z ≤ exact → v z ≤ v r
      | .rup => exact ≤ v r ∧ ∀ z, patterns z → exact ≤ v z → v r ≤ v z
      | .rtz => (v r).natAbs ≤ exact.natAbs ∧ 0 ≤ v r * exact ∧ ∀ z, patterns z → (v z).natAbs ≤ exact.natAbs → (v z).natAbs ≤ (v r).natAbs)
   else r % 2 ^ (F.eb + F.mb) = (2 ^ F.eb - 1) * 2 ^ F.mb ∧ ∀ z, patterns z → (v z).natAbs < exact.natAbs)

/-- A change of one world, made where a condition holds and not otherwise. -/
def WorldChanged (world : Nat) (ok : Prop) (f : World → World) (p q : Package) : Prop :=
  (ok → q = { p with worlds := p.worlds.map (fun x => if x.id = world then f x else x) }) ∧ (¬ok → q = p)

/-- The word k after a clause header at a physical address is a clause header: from one header to the next go as many words as its length says (R97). -/
inductive HeaderAt (p : Package) (pa : Nat) : Nat → Prop
  | first : HeaderAt p pa 0
  | next (k : Nat) : HeaderAt p pa k → HeaderAt p pa (k + 1 + bitsOf 11 9 (p.readPa (pa + 4 * k) 4))

/-- A write of system software to a table or register, field by field: `p` before, `q` after (R97, R107, R211, R216 to R218, R241, R274, R290, R294,
R318 to R323, R332, R351). The owner of a frame and the move of a page also look at the other packages of the pod, and are stated apart. -/
def TableWritten (p q : Package) : SysWrite → Prop
  | .place m =>
    (((∃ c ∈ m.bytes, p.ownerOf c.1 ≠ 0 ∧ p.ownerOf c.1 ≠ 63) ∨ ∃ l ∈ m.labels, p.ownerOf (32 * l.1) ≠ 0 ∧ p.ownerOf (32 * l.1) ≠ 63) → q = p) ∧
    ((∀ c ∈ m.bytes, p.ownerOf c.1 = 0 ∨ p.ownerOf c.1 = 63) → (∀ l ∈ m.labels, p.ownerOf (32 * l.1) = 0 ∨ p.ownerOf (32 * l.1) = 63) →
      (p.systemWrite m = none → q = p.labelsFull) ∧ ∀ r, p.systemWrite m = some r → q = r.2)
  | .frame _ _ | .migrate _ _ _ _ _ _ => True
  | .installCode pa n =>
    (pa % 4 ≠ 0 → q = p) ∧
    (pa % 4 = 0 → spWf (0 : BitVec 16) p.code = true → q = { p with code := q.code } ∧ (∀ k < n, q.clauseStart (pa + 4 * k) = true ↔ HeaderAt p pa k) ∧
      ∀ a, a % 4 = 0 → (∀ k < n, a ≠ pa + 4 * k) → q.clauseStart a = p.clauseStart a)
  | .space id gen root world =>
    (∀ sp, p.space? id = some sp → sp.gen = gen → sp.world = world → q = { p with spaces := q.spaces } ∧ q.space? id = some { sp with root := root } ∧
      ∀ y, y.id ≠ id → (y ∈ q.spaces ↔ y ∈ p.spaces)) ∧
    ((∀ sp, p.space? id = some sp → sp.gen ≠ gen ∨ sp.world ≠ world) → q = p)
  | .worldSpace world space =>
    WorldChanged world (p.suspended world = true ∧ ∃ sp, p.space? space = some sp ∧ sp.world = world) (fun x => { x with space := space }) p q
  | .trapVec world v => WorldChanged world (p.suspended world = true) (fun x => { x with trapVec := v % 2 ^ 64 }) p q
  | .pilotVec world v => WorldChanged world (p.suspended world = true) (fun x => { x with pilotVec := v % 2 ^ 64 }) p q
  | .recordArea world pa va => WorldChanged world (p.suspended world = true) (fun x => { x with recordArea := pa, recordVa := va }) p q
  | .trapBlocks world pa va => WorldChanged world (p.suspended world = true) (fun x => { x with trapBlocks := some pa, frameVa := va }) p q
  | .caps world m => WorldChanged world (p.suspended world = true) (fun x => { x with caps := BitVec.ofNat 128 m }) p q
  | .launchCeiling world m =>
    (p.labelFor (BitVec.ofNat 128 m) = none → q = p.labelsFull) ∧
    ∀ l p₁, p.labelFor (BitVec.ofNat 128 m) = some (l, p₁) → WorldChanged world (p.suspended world = true) (fun x => { x with launchCeil := l }) p₁ q
  | .peer world logical phys state =>
    (let stands : Prop := ∃ x, p.world? world = some x ∧ ∃ y ∈ x.peers, y.logical = logical ∧ y.phys = phys
     (¬stands → p.suspended world = false → q = p) ∧
     (stands ∨ p.suspended world = true → q = { p with worlds := q.worlds, gangs := q.gangs, issued := q.issued } ∧ (∀ g ∈ q.gangs, g.stall ≠ Stall.peer) ∧
       ∀ x, p.world? world = some x → ∃ y, q.world? world = some y ∧ y = { x with peers := y.peers } ∧
         ∀ e, e ∈ y.peers ↔ e = { logical, phys, state := if state = 0 then .reachable else if state = 1 then .quiescing else .absent } ∨
           e ∈ x.peers ∧ e.logical ≠ logical))
  | .scopeTraps world on => WorldChanged world True (fun x => { x with scopeTraps := on }) p q
  | .queueBase phys base cap =>
    (let ok : Prop := phys < 64 ∧ (∃ k < 15, cap = 1024 * 2 ^ k) ∧ ∀ y, p.quay? phys = some y → y.items = []
     (¬ok → q = p) ∧
     (ok → q = { p with quays := q.quays } ∧ q.quay? phys = some { phys, base, cap, items := [], tail := 0 } ∧
       ∀ y, y.phys ≠ phys → (y ∈ q.quays ↔ y ∈ p.quays)))
  | .share world units base n =>
    WorldChanged world (p.suspended world = true ∧ ((p.worlds.filter (fun x => x.id != world)).map (·.share)).sum + units ≤ 32)
      (fun x => { x with share := units, spillBase := base, spillUnits := n }) p q
  | .carveOut on => ((∀ m ∈ p.mans, m.state = .empty) → q = { p with carveOut := on }) ∧ ((∃ m ∈ p.mans, m.state ≠ .empty) → q = p)
  | .labelBase pa =>
    (let ok : Prop := pa % 2 ^ 21 = 0 ∧ ∀ k < 32, p.ownerOf (pa + 65536 * k) = 0
     (ok → q = { p with labelBase := some pa }) ∧ (¬ok → q = p))
  | .labelEntry idx m =>
    (let ok : Prop := idx < 0xFFFF ∧ ∀ e ∈ p.labels, e.1 ≠ idx ∧ e.2 ≠ BitVec.ofNat 128 m
     (ok → q = { p with labels := q.labels } ∧ ∀ e, e ∈ q.labels ↔ e = (idx, BitVec.ofNat 128 m) ∨ e ∈ p.labels) ∧ (¬ok → q = p))
  | .fuse development => q = { p with sys := { p.sys with devFuse := p.sys.devFuse && development } }
  | .interruptTarget world cls host target =>
    WorldChanged world True (fun x => { x with targets := spPut x.targets cls (if host then .msix target else .imsic target) }) p q
  | .firmwareKey ed ml => q = { p with sys := { p.sys with keyId := (ed, ml) } }
  | .retireFrame f =>
    ((∃ r ∈ p.sys.retired, r.1 = f) → q = p) ∧
    ((∀ r ∈ p.sys.retired, r.1 ≠ f) → q = { p with sys := { p.sys with retired := p.sys.retired ++ [(f, 1)] } })
  | .swapManifest world logical phys =>
    (let ok : Prop := logical < 16 ∧ phys < 16 ∧ p.suspended world = true ∧
       ∀ x ∈ p.worlds, x.id ≠ world → (∃ e ∈ x.manifests, e.2 = phys) → p.suspended x.id = true
     (¬ok → q = p) ∧
     (ok → (∀ x, p.world? world = some x → ∃ y, q.world? world = some y ∧ y = { x with manifests := y.manifests } ∧
         ∀ e, e ∈ y.manifests ↔ e = (logical, phys) ∨ e ∈ x.manifests ∧ e.1 ≠ logical ∧ e.2 ≠ phys) ∧
       (∀ y ∈ q.worlds, y.id ≠ world → ∀ e ∈ y.manifests, e.2 ≠ phys) ∧ sameStore p q ∧
       ((p.man phys).state ≠ .empty → (p.man phys).world ≠ world → (q.man phys).state = .empty ∧ (q.man phys).entries = [])))
  | .flush space =>
    q = { p with cores := q.cores, walks := q.walks, spaces := q.spaces } ∧ q.flushedSpace space = true ∧
    (∀ sp, p.space? space = some sp → q.space? space = some { sp with flushed := true }) ∧ ∀ y, y.id ≠ space → (y ∈ q.spaces ↔ y ∈ p.spaces)
  | .claimTeam team on => q = { p with teams := p.teams.map (fun tm => if tm.id = team then { tm with debugStop := on } else tm) }
  | .resumeHalted team lid =>
    (∀ th, p.thread? ⟨team, lid⟩ = some th → th.status = TStatus.halted → q = Package.fileOne { p with teams := p.teams.map (fun tm =>
      if tm.id = team then { tm with residence := if tm.residence = .halted then .resident else tm.residence } else tm) } ⟨team, lid⟩ th.point) ∧
    ((∀ th, p.thread? ⟨team, lid⟩ = some th → th.status ≠ TStatus.halted) → q = p)
  | .sworld k => q = { p with sys := { p.sys with sworld := k % 64 } }
  | .flashImage k copy hash ed ml =>
    q = { p with sys := { p.sys with flash := q.sys.flash } } ∧
    ∀ g, g ∈ q.sys.flash ↔ g = { idx := k, copy, hash, ed, ml } ∨ g ∈ p.sys.flash ∧ ¬(g.idx = k ∧ g.copy = copy)
  | .clusters world cs => WorldChanged world (placesOk cs = true ∧ p.suspended world = true) (fun x => { x with clusters := cs }) p q
  | .queues world qs =>
    WorldChanged world ((∀ k ∈ qs, k < 64) ∧ qs.length ≤ 16 ∧ p.suspended world = true) (fun x => { x with queues := qs }) p q

/-- The page of a move stands on its new home `q` as it stood on the old one `p`: bytes, owner sets and marked sectors, in frames of the world that hold
no code; what lies outside is as it was on `q₀` (R216). -/
def PageMoved (world page size frame : Nat) (p q₀ q : Package) : Prop :=
  (∀ a < size, q.byteAt (frame + a) = p.byteAt (page + a)) ∧ (∀ a, a < frame ∨ frame + size ≤ a → q.byteAt a = q₀.byteAt a) ∧
  (∀ g < size / 32, q.maskOf (q.glabel (frame / 32 + g)) = p.maskOf (p.glabel (page / 32 + g)) ∧
    (frame / 32 + g ∈ q.bad ↔ page / 32 + g ∈ p.bad)) ∧
  (∀ g, g < frame / 32 ∨ (frame + size) / 32 ≤ g → q.glabel g = q₀.glabel g ∧ (g ∈ q.bad ↔ g ∈ q₀.bad)) ∧
  (∀ a < size, q.clauseStart (frame + a) = false) ∧ ∀ a < size, q.ownerOf (frame + a) = world

/-- The circuits of a package go dark. -/
def darkened (p : Package) : Package := { p with circuit := p.circuit.map (fun c => { c with dark := true }) }

end Sys2Proof.Claims
end

