-- ==== Sys2Proof/Certificates/Slice0/Obligations.lean ====
section
/-! DEFINITION. The statements for the provers. Those about the instructions of the clauses come first, family by family, then those about the events
of the package, then the machine as a whole. What they speak of is in Sys2Proof/Safety.lean. -/

open Sys2Proof Sys2Proof.Machine Sys2Proof.Claims

/-! ### Integer and logic forms -/

/-- NOP is the word of zeros, one word long and not long-latency; it has no effect and raises no trap; any other word with major 0 is no
instruction, and such a word traps ILLOP in each active thread, one after the other, with the word in TRAPAUX (R94, R251). -/
def Obligations.NopHasNoEffect : Prop :=
  (∀ rest, decode (0#32 :: rest) = .ok (.nop, rest)) ∧ isLong (Raw.ofWord 0#32) = false ∧ (∀ s, exec .nop s = .next s) ∧
  (∀ (w : Word) rest, (Raw.ofWord w).major = 0 → w ≠ 0#32 → ∃ e, decode (w :: rest) = .error e) ∧
  (∀ (s : State) (i : Issue) (w : Word) rest q, s.here.issue = some i → i.words = w :: rest → (Raw.ofWord w).major = 0 → w ≠ 0#32 →
    InTurn (fun v p r => ∃ j, p.issue = some j ∧ r = p.raiseTrap v (j.request .illop 0 0 0 w.toNat)) i.team i.active (s.begin 1).here q →
    step s = .next { s with here := q })

/-- ADD, ISUB, IMUL, IMIN, IMAX and LEA complete in every thread whose operands can be read, with the results of R338, R391 and R404:
sums, differences and products modulo 2^w, the lesser and the greater as the type compares, and A plus the scaled signed B. -/
def Obligations.IntegerTwoSourceResults : Prop :=
  (∀ o : Alu ITy,
    Completes (.add o) (integerForm o (fun x y v => v = (x + y) % 2 ^ (32 * o.ty.regs))) ∧
    Completes (.isub o) (integerForm o (fun x y v => (v : Int) = ((x : Int) - y) % 2 ^ (32 * o.ty.regs))) ∧
    Completes (.imul o) (integerForm o (fun x y v => v = x * y % 2 ^ (32 * o.ty.regs))) ∧
    Completes (.imin o) (integerForm o (fun x y v => v = (if valueIn o.ty y < valueIn o.ty x then y else x) % 2 ^ (32 * o.ty.regs))) ∧
    Completes (.imax o) (integerForm o (fun x y v => v = (if valueIn o.ty x < valueIn o.ty y then y else x) % 2 ^ (32 * o.ty.regs)))) ∧
  (∀ o : Alu (BitVec 2),
    Completes (.lea o) (twoSource o 2 2 1 .unsigned (iImm .i32) (fun x y v => (v : Int) = ((x : Int) + signed 32 y * 2 ^ o.ty.toNat) % 2 ^ 64)))

/-- AND, ANDN, OR and XOR complete with their result bit for bit (R340, R417, R464). -/
def Obligations.LogicResults : Prop :=
  ∀ o : Alu LTy,
    Completes (.and o) (logicForm o (fun x y v => ∀ i < 32 * o.ty.regs, v.testBit i = (x.testBit i && y.testBit i))) ∧
    Completes (.andn o) (logicForm o (fun x y v => ∀ i < 32 * o.ty.regs, v.testBit i = (x.testBit i && !y.testBit i))) ∧
    Completes (.or o) (logicForm o (fun x y v => ∀ i < 32 * o.ty.regs, v.testBit i = (x.testBit i || y.testBit i))) ∧
    Completes (.xor o) (logicForm o (fun x y v => ∀ i < 32 * o.ty.regs, v.testBit i = (x.testBit i != y.testBit i)))

/-- SHL, SHR, SAR, ROL, BFX and PRMB complete with their result bit for bit: bits shifted in are zeros, for SAR copies of the sign, also for
counts of the width and more; the rotation takes the count modulo w; the field of BFX is extended as its type says from its own top bit;
each byte of PRMB is the pool byte that a nibble of the selector names, or its sign eight times (R438, R440, R350, R421). -/
def Obligations.ShiftAndFieldResults : Prop :=
  (∀ o : Alu LTy,
    Completes (.shl o) (shiftForm o (fun x c v => ∀ i < 32 * o.ty.regs, v.testBit i = (decide (c ≤ i) && x.testBit (i - c)))) ∧
    Completes (.shr o) (shiftForm o (fun x c v => ∀ i < 32 * o.ty.regs, v.testBit i = fieldBit (32 * o.ty.regs) x c i)) ∧
    Completes (.sar o) (shiftForm o (fun x c v => ∀ i < 32 * o.ty.regs,
      v.testBit i = if i + c < 32 * o.ty.regs then x.testBit (i + c) else x.testBit (32 * o.ty.regs - 1))) ∧
    Completes (.rol o) (shiftForm o (fun x c v => ∀ i < 32 * o.ty.regs, v.testBit ((i + c) % (32 * o.ty.regs)) = x.testBit i))) ∧
  (∀ o : Alu ITy,
    Completes (.bfx o) (twoSource o o.ty.regs o.ty.regs 1 (iExt o.ty) lImm (fun x f v => ∀ i < 32 * o.ty.regs,
      v.testBit i = if i ≤ f / 256 % 256 then fieldBit (32 * o.ty.regs) x (f % 256) i
        else (o.ty == .i32 || o.ty == .i64) && fieldBit (32 * o.ty.regs) x (f % 256) (f / 256 % 256)))) ∧
  (∀ o : Alu Unit,
    Completes (.prmb o) (twoSource o 1 2 1 .unsigned lImm (fun x sel v => ∀ k < 4, ∀ i < 8,
      v.testBit (8 * k + i) = x.testBit (8 * (sel / 16 ^ k % 8) + if sel.testBit (4 * k + 3) then 7 else i))))

/-- IMAD, BFI and ADDC complete: the product plus D modulo 2^w; D with a field of A in its place; and the sum of A, B and the carry in the
odd register of the pair, which is a source, over the whole pair (R391, R350, R339). -/
def Obligations.ThreeSourceResults : Prop :=
  (∀ o : Alu ITy,
    Completes (.imad o) (threeSource o o.ty.regs o.ty.regs o.ty.regs (iExt o.ty) (iImm o.ty)
      (fun d x y v => v = (x * y + d) % 2 ^ (32 * o.ty.regs)))) ∧
  (∀ o : Alu LTy,
    Completes (.bfi o) (threeSource o o.ty.regs o.ty.regs 1 .unsigned lImm (fun d x f v => ∀ i < 32 * o.ty.regs,
      v.testBit i = if f % 256 ≤ i ∧ i ≤ f % 256 + f / 256 % 256 then x.testBit (i - f % 256) else d.testBit i))) ∧
  (∀ o : Alu Unit, Completes (.addc o) (addcEffect o))

/-- IABS, POPC, CLZ and BREV complete: the magnitude modulo 2^w, the number of set bits, the zeros above the highest set bit (w for a zero
source), and the bits in reverse (R391, R420, R357, R354). -/
def Obligations.OneSourceResults : Prop :=
  (∀ (wide : Bool) (o : Un Unit),
    Completes (.iabs wide o) (oneSource o (if wide then 2 else 1) .signed (iImm (if wide then .i64 else .i32))
      (fun y v => v = (signed (if wide then 64 else 32) y).natAbs % 2 ^ (if wide then 64 else 32)))) ∧
  (∀ o : Un LTy,
    Completes (.popc o) (oneSource o o.ty.regs .unsigned lImm (fun y v => v = ((List.range (32 * o.ty.regs)).filter y.testBit).length)) ∧
    Completes (.clz o) (oneSource o o.ty.regs .unsigned lImm (fun y v =>
      (∀ i < v, y.testBit (32 * o.ty.regs - 1 - i) = false) ∧ v ≤ 32 * o.ty.regs ∧
      (v < 32 * o.ty.regs → y.testBit (32 * o.ty.regs - 1 - v) = true))) ∧
    Completes (.brev o) (oneSource o o.ty.regs .unsigned lImm (fun y v => ∀ i < 32 * o.ty.regs, v.testBit (32 * o.ty.regs - 1 - i) = y.testBit i)))

/-! ### Moves, predicates, floating forms and conversions -/

/-- MOV, MOVL and SEL complete: a lane or pilot writes B to D; in pilot code with an s-register B, which requires D = 122, the operand of A is
written to s(128k+B); in lane code with an s-register B, which requires A = 0, D takes the s-register sampled at issue; MOVL writes its
constant, sign-extended for a signed type; SEL writes B where the predicate under its sense holds, else the old D (R412, R413, R443, R80). -/
def Obligations.MovesComplete : Prop :=
  (∀ o : Alu ITy, Completes (.mov o) (movEffect o)) ∧
  (∀ ty d (k : BitVec 14), Completes (.movl ty d k) (movlEffect ty d k)) ∧
  (∀ sense c (o : Un LTy), Completes (.sel sense c o) (selEffect sense c o))

/-- CMP, PLOP and PMOV complete: the predicate takes the comparison as the type orders, or the bit of the truth table that two predicates
select, or a register's being non-zero; a register takes a predicate, or all 24 of them (R358, R418, R419). -/
def Obligations.PredicateResults : Prop :=
  (∀ o : CmpOp ITy, Completes (.cmp o) (cmpEffect o)) ∧
  (∀ pd pa pb (tt : BitVec 4), Completes (.plop pd pa pb tt) (plopEffect pd pa pb tt)) ∧
  (∀ d c, Completes (.pmov (.toReg d c)) (pmovToRegEffect d c)) ∧
  (∀ c b lit, Completes (.pmov (.toPred c b lit)) (pmovToPredEffect c b lit)) ∧
  (∀ d, Completes (.pmov (.save d)) (pmovSaveEffect d)) ∧
  (∀ b lit, Completes (.pmov (.load b lit)) (pmovLoadEffect b lit))

/-- FADD, FMUL, FMIN, FMAX, FFMA and FCMP complete: each element of the result is the exact sum, product or product and sum rounded once
under FPCTL.RM, the lesser or greater value, or the comparison, with the exceptions of that operation (R381 to R384, R142, R149). -/
def Obligations.FloatResults : Prop :=
  (∀ o : Alu FTy,
    Completes (.fadd o) (floatTwo o (fun rm => perElement o.ty (fun x y => (fmtOf o.ty).add rm x y))) ∧
    Completes (.fmul o) (floatTwo o (fun rm => perElement o.ty (fun x y => (fmtOf o.ty).mul rm x y))) ∧
    Completes (.fmin o) (floatTwo o (fun _ => perElement o.ty (fun x y => minMax (fmtOf o.ty) false x y))) ∧
    Completes (.fmax o) (floatTwo o (fun _ => perElement o.ty (fun x y => minMax (fmtOf o.ty) true x y))) ∧
    Completes (.ffma o) (ffmaEffect o)) ∧
  (∀ o : CmpOp Bool, Completes (.fcmp o) (fcmpEffect o))

/-- FRND, TWOSUM, TWOPRD and CFMA complete: the integral value in the form's direction, the rounded sum or product with its exact error, and
the complex product and sum rounded once in each part (R388, R161, R162, R164, R457, R356). -/
def Obligations.TransformResults : Prop :=
  (∀ dir (o : Un FTy), Completes (.frnd dir o) (frndEffect dir o)) ∧
  (∀ o : Alu Unit, Completes (.twosum o) (transform o twoSum) ∧ Completes (.twoprd o) (transform o twoProd)) ∧
  (∀ d a b, Completes (.cfma d a b) (cfmaEffect d a b))

/-- CVT, QPACK and QUNPK complete: CVT converts a wide format into a wide one, a narrow element into f32, or an f32 into a narrow element,
and takes a draw of the thread's generator exactly for the formats with stochastic underflow; QUNPK scales the two values of a pair by
2^BEXP; QPACK takes eight draws (R368, R369, R155, R423, R424). -/
def Obligations.ConversionResults : Prop :=
  (∀ (code : BitVec 7) (e : BitVec 2) (o : Un Unit), Completes (.cvt code e o) (cvtEffect code e o)) ∧
  (∀ d a b k j lit, Completes (.qunpk d a b k j lit) (qunpkEffect d a b k j lit)) ∧
  (∀ d a b j, Completes (.qpack d a b j) (qpackEffect d a b j))

/-! ### Lanes, labels and control -/

/-- FSF, SHFL, RDX, SCAN and VOTE complete: FSF, SHFL, RDX and SCAN leave a result outstanding, tied to their flag, which is the function's
value, the operand of the lane that the mode names (the thread's own where that lane is absent), the fold of the active lanes' operands, or of
those up to the thread's lane; VOTE writes the quantified predicate or the ballot; the labels join what every lane that counts gives
(R389, R445, R426, R442, R459, R120). -/
def Obligations.CrossLaneResults : Prop :=
  (∀ fn (o : Un FTy), Completes (.fsf fn o) (fsfEffect fn o)) ∧
  (∀ o : Alu ShMode, AcrossGang (.shfl o)
    (shflReads o)
    (shflEffect o)) ∧
  (∀ op ty d b lit, AcrossGang (.rdx op ty d b lit) (rdxReads ty d b lit)
    (rdxEffect op ty d)) ∧
  (∀ excl op ty d b lit, AcrossGang (.scan excl op ty d b lit) (scanReads ty d b lit)
    (scanEffect excl op ty d)) ∧
  (∀ op sense c, AcrossGang (.vote op sense c)
    (voteReads op sense c)
    (voteEffect op))

/-- LGET, LJOIN, LCEIL, ENDO and DECL complete: LGET writes the index of its source's label under the label of the context; LJOIN copies a
value and raises its label; LCEIL lowers the ceiling from the next clause on; ENDO makes an endorsement at the free index of lowest number;
DECL releases a value to a smaller owner set, with one use of a live endorsement of each owner removed (R406, R399, R129, R378, R134, R371,
R135). That ENDO fills the free index of lowest number, and that DECL takes the endorsement of lowest number that serves, is the model's choice
(assumption 32). -/
def Obligations.LabelInstructions : Prop :=
  (∀ d src' lit, Completes (.lget d src' lit) (lgetEffect d src' lit)) ∧
  (∀ wide (o : Alu Unit), Completes (.ljoin wide o) (ljoinEffect wide o)) ∧
  (∀ b lit s i outs q r, s.here.issue = some i →
    InTurnGives (lceilEffect b lit) i.team (sortBy id i.active) s.here outs q → heldAfter .lceil outs q r →
    exec (.lceil b lit) s = .next { s with here := r }) ∧
  (∀ a, Completes (.endo a) (endoEffect a)) ∧
  (∀ wide (o : Alu Unit), Completes (.decl wide o) (declEffect wide o))

/-- BRA, BRC and BDQ complete: the clause ends, and each thread goes to the header plus 4 times the signed word offset, or in sequence, as
its predicate or its next decision says; BRC and BDQ first push the branch label, which the ceiling dominates, on the context stack, and a
divergent branch that a CAM entry serves makes a divergence record (R352, R353, R349, R92, R124, R125, R57). -/
def Obligations.BranchesComplete : Prop :=
  (∀ off s i t, s.here.issue = some i → targetOf i.hdr off.toInt t → exec (.bra off) s = .next { s with here := s.here.endClause (fun _ => t) }) ∧
  (∀ sense c off, CompletesThen (.brc sense c off)
    (brcEffect sense c off)
    brcAfter) ∧
  (∀ sense off, CompletesThen (.bdq sense off)
    (bdqEffect sense off)
    bdqAfter)

/-- JMPI, CALL, RET and REFORM complete: each thread goes to the address in its target pair, whose owners its context contains; CALL writes
the address of the next clause and goes to the header plus the offset; a REFORM dissolves the gang and files each thread at the next
header under its own key (R392, R127, R355, R434, R433). -/
def Obligations.JumpsComplete : Prop :=
  (∀ a, CompletesThen (.jmpi a)
    (jmpiEffect a) endsAt) ∧
  (∀ a, CompletesThen (.ret a)
    (retEffect a) endsAt) ∧
  (∀ d off, CompletesThen (.call d off)
    (callEffect d off)
    callAfter) ∧
  (∀ b lit, CompletesThen (.reform b lit)
    (reformEffect b lit)
    reformAfter)

/-! ### Traps, special registers, threads and launches -/

/-- TRAP and BKPT take their traps: SOFT and BKPT with the code in TRAPAUX, TRAP with the label of the context; a BKPT of a claimed team under
device debug halts the team, each thread that executes it at the instruction after it (R455, R351). -/
def Obligations.SoftwareTrapsAreTaken : Prop :=
  (∀ code, TrapsEach (.trap code) (trapRaises code)) ∧
  (∀ code, TrapsEach (.bkpt code) (bkptRaises code)) ∧
  (∀ code, CompletesThen (.bkpt code) bkptHaltEffect
    bkptHaltAfter)

/-- ERET leaves trap mode in its three forms: resume at the point saved, or at TRAPPC when the handler changed it; skip past the instruction;
restart at RGNPC with the region's buffer empty (R256, R257). -/
def Obligations.TrapReturns : Prop :=
  CompletesThen .eretResume eretResumeEffect eretResumeAfter ∧
  CompletesThen .eretSkip eretSkipEffect eretSkipAfter ∧
  CompletesThen .eretRestart eretRestartEffect eretRestartAfter

/-- What the special registers read: the identity, the record's dimensions, the step, the labels, FPCTL, the seed, the region and the trap
registers, in the order of their numbers (R103, R408). -/
def Obligations.SpecialRegisterValues : Prop :=
  ∀ w p i th tm x, p.issue = some i → p.thread? w = some th → p.team? w.team = some tm → p.world? tm.world = some x →
    Gives (sregVal w 0x00) p (w.lid, 0) p ∧ Gives (sregVal w 0x01) p (w.lid % 32, 0) p ∧ Gives (sregVal w 0x02) p (i.id, 0) p ∧
    Gives (sregVal w 0x03) p (tm.index, 0) p ∧
    Gives (sregVal w 0x04) p (recTx tm.record + recTy tm.record * 2 ^ 16 + recTz tm.record * 2 ^ 32 + (recCores tm.record - 1) * 2 ^ 48, 0) p ∧
    Gives (sregVal w 0x05) p (recGx tm.record + recGy tm.record * 2 ^ 32 + recGz tm.record * 2 ^ 48, 0) p ∧
    Gives (sregVal w 0x06) p (recDepth tm.record, 0) p ∧ Gives (sregVal w 0x07) p (tm.world, 0) p ∧
    (∀ sp, p.space? tm.space = some sp → Gives (sregVal w 0x08) p (tm.space + sp.gen * 2 ^ 16, 0) p) ∧
    Gives (sregVal w 0x09) p (p.logical x, 0) p ∧ Gives (sregVal w 0x0A) p (4 * x.logicalCluster tm.cluster + tm.coreOf w.lid % 4, 0) p ∧
    Gives (sregVal w 0x0B) p (i.time, 0) p ∧ (∀ t, x.tide = some t → Gives (sregVal w 0x0C) p (t.step, 0) p) ∧
    Gives (sregVal w 0x0D) p (tm.ceiling.toNat, 0) p ∧
    (∀ l q, Gives (mkLabel (th.ctxMask p)) p l q → Gives (sregVal w 0x0E) p (l.toNat, 0) q) ∧
    Gives (sregVal w 0x0F) p (th.fpctl.toNat, p.maskOf th.flagsLbl) p ∧ Gives (sregVal w 0x10) p (th.seed.toNat, p.maskOf th.seedLbl) p ∧
    Gives (sregVal w 0x11) p ((th.region.map (·.pc)).getD 0, 0) p ∧ Gives (sregVal w 0x20) p (th.trapRegs.cause.toNat, 0) p ∧
    Gives (sregVal w 0x21) p (th.trapRegs.pc, 0) p ∧ Gives (sregVal w 0x22) p (th.trapRegs.va, th.trapRegs.vmask) p ∧
    Gives (sregVal w 0x23) p (th.trapRegs.lbl.toNat, 0) p ∧ Gives (sregVal w 0x24) p (th.trapRegs.aux.toNat, 0) p ∧
    Gives (sregVal w 0x25) p (x.trapVec, 0) p ∧ Gives (sregVal w 0x26) p ((th.region.map (·.rsb.length)).getD 0, 0) p ∧
    Gives (sregVal w 0x27) p (x.pilotVec, 0) p

/-- MFSR, MTSR, TIME and SNAP complete: MFSR writes a special register's value, both halves for an even destination; MTSR writes FPCTL, the
seed, or in trap mode a trap register, TRAPPC only from a value whose owners the context contains; TIME writes the time sampled at issue, or,
once the thread's accesses have settled, the time now; SNAP asks for a snapshot 32 cycles after the clause's time when the trigger is armed,
and otherwise has no effect (R407, R408, R415, R154, R453, R447, R331). -/
def Obligations.SpecialRegistersComplete : Prop :=
  (∀ d n, Completes (.mfsr d n) (mfsrEffect d n)) ∧
  (∀ a n lit, Completes (.mtsr a n lit) (mtsrEffect a n lit)) ∧
  (∀ d wait, Completes (.time d wait) (timeEffect d wait)) ∧
  Completes .snap snapEffect

/-- EXIT, KILL.team, KILL.grid, YIELD and BAR complete: EXIT ends every active thread whose rounds and results are done; KILL.team kills the
team, KILL.grid every team of its grid with the rest of its record; YIELD holds its threads back when the clause ends; at BAR each thread whose
accesses have settled counts as arrived, and the last to come releases all (R380, R395, R396, R469, R348, R239). -/
def Obligations.ThreadEndsAndBarriers : Prop :=
  CompletesThen .exit exitEffect
    exitAfter ∧
  (∀ s i, s.here.issue = some i → i.active ≠ [] → exec .killTeam s = .next { s with here := s.here.killTeam i.team }) ∧
  (∀ s i tm, s.here.issue = some i → i.active ≠ [] → s.here.team? i.team = some tm →
    exec .killGrid s = .next { s with here := (s.here.killTeam i.team).killGrid tm.grid 1 }) ∧
  Completes .yield yieldEffect ∧
  (∀ lanes sc, CompletesThen (.bar lanes sc) (barEffect lanes sc)
    barAfter)

/-- DQPUSH, DQPOP, WINB, XACQ and XREL complete: a push of the pilot appends a labelled word to the decision queue, a release push once its
accesses have settled; a pop of a lane takes its next decision; WINB moves the window when the clause ends; XACQ takes the pair's extended set
when it is free or already the thread's, XREL gives it back (R374, R376, R375, R50, R460, R76, R461, R462, R463). -/
def Obligations.QueueAndWindowComplete : Prop :=
  (∀ b rel lit, Completes (.dqpush b rel lit) (dqpushEffect b rel lit)) ∧
  (∀ d, Completes (.dqpop d) (dqpopEffect d)) ∧
  (∀ k, Completes (.winb k) (winbEffect k)) ∧
  Completes .xacq xacqEffect ∧
  Completes .xrel xrelEffect

/-- LAUNCH and CONT complete: thread 1 of a team that has not reached the last depth writes a child record, one level deeper, parented by its
own record and with nothing dispatched yet, into a queue that has room, and JOIN counts it; a continuation is named for the team's end, a later
one in place of an earlier one. The record is read as a load of the thread, passes the checks of R36 and has public contents (R397, R398, R45,
R362, R36). -/
def Obligations.LaunchAndContinuation : Prop :=
  (∀ a k lit s i q, s.here.issue = some i → InTurn (launchEffect s.others a k lit) i.team i.active s.here q →
    exec (.launch a k lit) s = .next { s with here := q }) ∧
  (∀ r depth va, let r' := childRecord r depth va
    recDepth r' = depth % 16 ∧ recParent r' = va % 2 ^ 64 ∧ recNext r' = 0 ∧ recLeft r' = recTeams r % 2 ^ 32 ∧ recJoin r' = 1 ∧
    recGx r' = recGx r ∧ recGy r' = recGy r ∧ recGz r' = recGz r ∧ recTx r' = recTx r ∧ recTy r' = recTy r ∧ recTz r' = recTz r ∧
    recCores r' = recCores r ∧ recKdesc r' = recKdesc r) ∧
  (∀ a k lit s i q, s.here.issue = some i → InTurn (contEffect s.others a k lit) i.team (sortBy id i.active) s.here q →
    exec (.cont a k lit) s = .next { s with here := q })

/-! ### Memory -/

/-- LD completes: with a canonical address that stays in its line, the fields and the order in place, and a page that may be read, the load
becomes outstanding at the physical address that the translation gives, counts in its core, and asks the home when that is another package; an acquire of
a remote line whose scope record is judged before it is performed writes that record at the home at once (R400 to R402, R91, R214, R221, R236, R241). That the
judgement and the record are one step is the model's choice (assumption 135). -/
def Obligations.LoadsBecomeOutstanding : Prop :=
  (∀ (m : MemOp Width) s i q, s.here.issue = some i → InTurn (loadEffect m s.others) i.team i.active s.here q →
    exec (.ld m) s = .next (({ s with here := q } : State).recordRemote s.here.nextId)) ∧
  (∀ (s : State) n a o k sc tm, s.here.accs.filter (fun a => decide (n ≤ a.id)) = [a] → a.op = .load o → o.peer = some k → o.scope = some sc →
    s.here.team? a.team = some tm → s.recordRemote n = { s with
      here := s.here.setAcc a.id (fun a => { a with op := .load { o with scope := none } })
      others := s.others.map (fun q => if q.phys = k then q.recordScope tm.world o.pa tm.tag sc else q) }) ∧
  (∀ (s : State) n, (∀ a ∈ s.here.accs, n ≤ a.id → ∀ o, a.op = .load o → o.peer = none ∨ o.scope = none) → s.recordRemote n = s)

/-- ST completes: in an open region the store goes to the region's buffer and its flag falls at once; otherwise, with the fields, the order,
the page and the labels in place, it becomes outstanding, and its bytes are on their way to the home, or its merge records for a pod page
(R448 to R450, R221, R115, R130, R273). -/
def Obligations.StoresBecomeOutstanding : Prop :=
  ∀ m : MemOp Width, CompletesWith (.st m) (storeEffect m)

/-- ATOM, ATOMX and RED complete: in an open region the atomic is held for the region's end; on a pod page a RED sends its merge records; and
otherwise it is performed at the home in one step, once the thread's earlier accesses to its bytes are done. That step reads the newest value that has arrived,
answers it, and enters one write of the new value, with a WCT above the time, the line's MAXL and every WCT of the line; a compare that fails
writes nothing (R342 to R345, R430 to R432,
R222, R118, R233, R230). -/
def Obligations.AtomicsComplete : Prop :=
  (∀ m : MemOp AtomOp, CompletesWith (.atom m) (atomicEffect (.atom m.x) m.order m.scope m.policy m.d m.a m.off m.lit m.x.regs (m.x.bytes / 4))) ∧
  (∀ m : MemOp AtomxOp, CompletesWith (.atomx m) (atomicEffect (.atomx m.x) m.order m.scope m.policy m.d m.a m.off m.lit (if m.x = .cas then 8 else 4) 4)) ∧
  (∀ m : MemOp RedAt, CompletesWith (.red m) (atomicEffect (.red m.x) m.order m.scope m.policy m.d m.a m.off m.lit (m.x.bytes / 4) (m.x.bytes / 4))) ∧
  (∀ (p : Package) w h k pa pte grow rec_ tm, p.team? w.team = some tm →
      ∃ q old wct x, p.atHome w h k pa pte grow rec_ = (q, old, wct) ∧ q.writes = p.writes ++ [x] ∧ q.mem = p.mem ∧
        old = ofBytes (p.bytesUnder p.arrived pa h.kind.bytes) ∧ p.now < wct ∧ (p.lineIn (lineOf pa)).maxl < wct ∧
        (∀ y ∈ p.writes, y.covers (lineOf pa) = true → ∀ t, y.wct = some t → t < wct) ∧
        x.wct = some wct ∧ x.line = lineOf pa ∧ x.acc = k ∧ x.disc = none ∧ x.grow = (grow.map (fun l => (granuleOf pa, l))).toList ∧
        x.cells = (match h.kind.apply old h.arg h.arg2 with
          | some v => (List.range h.kind.bytes).map (fun j => (pa + j, BitVec.ofNat 8 (v / 256 ^ j)))
          | none => []))

/-! ### Cluster SRAM, fences and regions -/

/-- LDS, STS, FPUSH and FPOP complete: LDS reads its bytes from the bank, the youngest buffered STS first, and leaves the result outstanding;
STS writes its bytes into the bank, or into the region's buffer; FPUSH appends an entry to a FIFO with room; FPOP joins the FIFO's wait order
(R400, R403, R448, R451, R198, R221, R115, R199, R200, R386, R387). -/
def Obligations.ScratchpadAccessesComplete : Prop :=
  (∀ (wd : Width) (m : PadOp), Completes (.lds wd m) (padLoadEffect wd m)) ∧
  (∀ (wd : Width) (m : PadOp), Completes (.sts wd m) (padStoreEffect wd m)) ∧
  (∀ (wd : Width) (m : PadOp), Completes (.fpush wd m) (fpushEffect wd m)) ∧
  (∀ (wd : Width) (m : PadOp), Completes (.fpop wd m) (fpopEffect wd m))

/-- FENCE, TLFENCE, DISC, BANK, ARM and AWAIT complete once what they wait for is done: a fence leaves everything as it is, a TLFENCE drops the
world's layout entries, a DISC sends one write for each page, BANK gives a bank its mode (a try answers whether it could), ARM writes the
target, clears COUNT and OVER and arms the word, leaving GEN, and AWAIT goes on when the generation is past its operand (R385, R454, R250,
R372, R373, R227, R347, R201, R204, R206). -/
def Obligations.FencesBanksAndArrivalWords : Prop :=
  (∀ sc, Completes (.fence sc) (fenceEffect sc)) ∧
  Completes .tlfence tlfenceEffect ∧
  (∀ m : PadOp, CompletesWith (.disc m) (discEffect m)) ∧
  (∀ try_ b mode, Completes (.bank try_ b mode) (bankEffect try_ b mode)) ∧
  (∀ m : PadOp, Completes (.arm m) (armEffect m)) ∧
  (∀ m : PadOp, Completes (.await m) (awaitEffect m))

/-- RGN and RGNC complete: RGN opens a region at the next header; RGNC, with the order in place and every buffered entry and the closing
atomic passing its checks, releases the entries in buffer order and closes the region; with a closing atomic its gang holds the instruction until
the home performs the atomic; RGNC stays outstanding until the entries and the atomic are
done (R435, R220, R436, R223, R117, R118, R242, R243). The model's choice: how the gang is held while the closing atomic waits (assumptions 14 and 49),
that updates of other threads which would grow the granule of a checked closing atomic wait for it (assumption 130), and the TRAPPC of an error that the
closing atomic meets (assumption 119). -/
def Obligations.RegionsComplete : Prop :=
  Completes .rgn rgnEffect ∧
  CompletesThenWith .rgnc rgncEffect (heldAfter .memory)

/-! ### The lathe, jobs, tides and manifests -/

/-- SIGN and the lathe words complete. SIGN in the pilot declares a register for a row below the team's rows: EXPECT has the lanes of the
row's live threads, and the register is ARMED unless there is none, when it stays IDLE (a deduction from R174, by which a register with no thread
left to sign becomes IDLE). MMA, MMASP, ACCLD and ACCST in a lane thread add the thread's signature
to the register; when the last expected thread has signed, the round issues (R171, R174, R446, R173, R175, R336, R337, R409 to R411). -/
def Obligations.LatheWordsSign : Prop :=
  (∀ k row, Completes (.sign k row) (signEffect k row)) ∧
  (∀ fmt tile k a b lit, CompletesThen (.mma fmt tile k a b lit)
    (signsRound ([src (latheField a) fmt.regs, src (latheField b) fmt.regs] ++ (match lit with
        | some l => [src (ctlSA l) 1, src (ctlSB l) 1]
        | none => [])) k.toNat
      (.mma fmt tile.toNat 0 0 ((lit.map ctlJA).getD 0) ((lit.map ctlJB).getD 0))
      (fun w => signature w (latheField a) (latheField b) fmt.regs fmt.regs lit)) (thenIssues k.toNat)) ∧
  (∀ fmt sq tile k a b, CompletesThen (.mmasp fmt sq tile k a b)
    (signsRound [src (latheField a) 4, src (latheField b) 8] k.toNat (.mmasp fmt sq.toNat tile.toNat)
      (fun w => signature w (latheField a) (latheField b) 4 8 none)) (thenIssues k.toNat)) ∧
  (∀ form tile (a : Fld) k, CompletesThen (.accld form tile a k)
    (let n := if a = 122#7 then 0 else form.regs
     signsRound [src a n] k.toNat (.accld form tile.toNat (a = 122#7)) (fun w => signature w a a n 0 none)) (thenIssues k.toNat)) ∧
  (∀ form d tile k, CompletesThen (.accst form d tile k)
    (signsRound [dst d form.regs] k.toNat (.accst form tile.toNat) (fun w => do
      let g ← signature w d d 0 0 none
      let r ← resolve w d
      pure { g with dst := lockedRegs r form.regs, locks := lockedRegs r form.regs })) (thenIssues k.toNat))

/-- JWAIT, CPY, CPYM, COLL, XPERM and TIDE complete: JWAIT once the flag is 0; the job words with a valid card that passes the checks of their
kind, by the acceptance of the job, COLL with the next SEQ of its group; TIDE at the end of its clause, with its accesses done, by the
thread's arrival and a result that the close of the step writes. A card is read as a load of the thread from a 64-byte boundary, through its
region's buffer, once its orders are met; its owners are those of the pair, of its granules and of the buffered entries that supply its bytes (R394, R364, R367, R359, R360, R315, R465 to R467, R452, R288, R244, R218, R245). -/
def Obligations.JobWordsComplete : Prop :=
  (∀ f : BitVec 4, Completes (.jwait f) (jwaitEffect f)) ∧
  (∀ a rel lit, CompletesWith (.cpy a rel lit) (cpyEffect a rel lit)) ∧
  (∀ a b rel lit, CompletesWith (.cpym a b rel lit) (cpymEffect a b rel lit)) ∧
  (∀ (tile : Option (BitVec 6)) a rel lit, CompletesWith (.coll tile a rel lit) (collEffect tile a rel lit)) ∧
  (∀ a rel lit, CompletesWith (.xperm a rel lit) (xpermEffect a rel lit)) ∧
  (∀ d, Completes (.tide d) (tideEffect d)) ∧
  (∀ os w a rel lit more p c q, Gives (readCard os w a rel lit more) p c q ↔
      ∃ la p₁ v m th, Passes w (src a 2 :: more) p ∧ Gives (readField w 2 a lit) p (c.va, la) p₁ ∧ nothingHeld w p₁ ∧ p₁.acquiring w = false ∧
        (rel = true → p₁.settled w .pkg p₁.nextId p₁.nextId = true) ∧ c.va % 64 = 0 ∧ Gives (loadNow os w c.va la 64) p₁ (v, m) q ∧
        q.thread? w = some th ∧ c.pair = la ∧ cardValid c.bits = true ∧
        c.bits = (overBytes th.buffer c.va 64).foldl (fun v x => setBits (8 * x.1 + 7) (8 * x.1) x.2.toNat v) v ∧
        c.mask = m ||| q.joinOf (overNeeds th.buffer c.va 64))

/-- The manifest words complete in a pilot that holds the grant: REC.begin starts the recording of a range whose pages translate as loads and
that overlaps no other manifest; REC.end makes it RECORDED; REC.play plays it with the thresholds of its operand and clears the counters;
REC.drop empties it; RECQ reads its state and counters (R290, R291, R300, R302, R427 to R429). -/
def Obligations.ManifestWordsComplete : Prop :=
  (∀ m a b lit, Completes (.recBegin m a b lit) (recBeginEffect m a b lit)) ∧
  (∀ m, Completes (.recEnd m) (recEndEffect m)) ∧
  (∀ m b lit, Completes (.recPlay m b lit) (recPlayEffect m b lit)) ∧
  (∀ m, Completes (.recDrop m) (recDropEffect m)) ∧
  (∀ d m, Completes (.recq d m) (recqEffect d m))

/-! ### Clauses, gangs and waits -/

/-- CLAUSE_ISSUE completes for a gang of a resident team when no clause is being issued. A gang at a header whose clause can be fetched, with
no record to pop or to park at, with a legal clause, and with every thread ready, issues it: its active threads are those whose guard holds,
in lane order; each counts the clause's long-latency instructions in its flags and starts with empty latches. No thread has a deferred error to take
first, and the pipes of the clause's instructions are free. A gang that holds its clause goes on with it, also while its team is being pre-empted
(R96 to R99, R81, R82, R85, R70, R71, R260, R261). -/
def Obligations.ClausesIssue : Prop :=
  (∀ s g x tm h ws p, s.here.issue = none → s.here.gang? g.core g.id g.team = some x → s.here.team? x.team = some tm → tm.residence = .resident →
    x.held = none → x.point.mid = none → x.id < Config.loneGang → (∀ l ∈ x.lids, ∀ th, s.here.thread? ⟨x.team, l⟩ = some th → th.errDue = none) →
    Gives (fetchClause ⟨x.team, x.lids.headD 0⟩ x.point.hdr)
      (Package.commitCeilings { s.here with issued := s.here.issued ++ [(x.core, x.id, x.team)] } x.team) (h, ws) p →
    (∀ l ∈ x.lids, Gives (popCtx ⟨x.team, l⟩ x.point.hdr (Config.ctxSize + 1)) p () p) → p.gang? x.core x.id x.team = some x →
    (∀ l ∈ x.lids, ∀ tm', p.team? x.team = some tm' → tm'.parkAt l x.point.hdr = none) → clauseOk x.pilot h ws = true →
    (∀ l ∈ x.lids, ∀ th, p.thread? ⟨x.team, l⟩ = some th → p.notReady tm h true 0 ws th = none) → p.fifoLacks x h true ws = none →
    (holdsLoads x.pilot ws = true → p.loadCap x = true) → p.pipesFree x (pipesOf 0 (splitWords x.pilot 8 ws)) = true →
    Answers (.clauseIssue g) s ((p.issueClause x tm h [] ws).takePipes x (pipesOf 0 (splitWords x.pilot 8 ws)))) ∧
  (∀ (p : Package) g tm h ws, g.point.mid = none → g.lids.Nodup →
    let q := p.issueClause g tm h [] ws
    q.mem = p.mem ∧ ∃ i, q.issue = some i ∧ i.core = g.core ∧ i.id = g.id ∧ i.team = g.team ∧ i.hdr = g.point.hdr ∧ i.hdrWord = h ∧
      i.pc = (g.point.hdr + 4) % 2 ^ 64 ∧ i.words = ws ∧ i.sregs = (tm.sregs.drop (128 * bitsOf 2 1 h.toNat)).take 128 ∧
      (∀ l, l ∈ i.active ↔ l ∈ g.lids ∧ ∃ th, p.thread? ⟨g.team, l⟩ = some th ∧ th.guard h = true) ∧
      i.active.Pairwise (fun a b => laneOf a ≤ laneOf b) ∧
      ∀ l ∈ i.active, ∀ th, p.thread? ⟨g.team, l⟩ = some th →
        q.thread? ⟨g.team, l⟩ = some { th with
          flags := (tiedFlags g.pilot h 0 ws).foldl (fun fs k => addFlag k fs) th.flags
          x0 := Latch.empty
          x1 := Latch.empty
          guardLbl := if bitsOf 8 4 h.toNat = 31 then 0 else (th.preds.getD (bitsOf 8 4 h.toNat) LBit.zero).lbl }) ∧
  (∀ s g x tm i, s.here.issue = none → s.here.gang? g.core g.id g.team = some x → s.here.team? x.team = some tm →
    tm.residence = .resident ∨ tm.residence = .saving → x.held = some i → x.id < Config.loneGang →
    s.here.pipesFree x (pipesOf i.vec (splitWords x.pilot 8 i.words)) = true → ∃ q, Answers (.clauseIssue g) s q ∧ q.teams = s.here.teams ∧
      q.issue = some { i with active := i.active.filter (fun l => x.lids.contains l), idle := i.idle.filter (fun l => x.lids.contains l) })

/-- What files threads and forms gangs completes: BERTH_EMPTY_FILE files those of the filing queue, in order of arrival, for which a berth matches or
is free; BERTH_AGE_EXPIRY makes a gang of a berth whose oldest entry has waited 64 cycles; GANG_ID_FREE lets the berths yield;
a gang yields as long as one of its threads does; BLOCKED_MEMBER_TIMEOUT takes the blocked members out of a gang with others that are not blocked once
one of them has waited 64 cycles; REJOIN_TIMER_EXPIRY releases a divergence record whose timer has run out; YIELD_EXPIRY ends a thread's yield (R53,
R54, R56, R60, R70, R469). That the members taken out each wait alone, under an identifier of its own, until they unblock (assumption 16), and that a
member which is not blocked counts as ready (assumption 121), is the model's choice. -/
def Obligations.ThreadsAreFiled : Prop :=
  (∀ s core part x, s.here.partition core part = x → x.queue ≠ [] → Answers (.berthEmptyFile core part) s (s.here.setPartition x.drain).settle) ∧
  (∀ x : Partition, ∃ placed, x.drain.berths = x.berths ++ placed ∧ placed.Sublist x.queue ∧ x.drain.queue.Sublist x.queue ∧
    (placed ++ x.drain.queue).Perm x.queue ∧ ∀ e ∈ x.drain.queue, ¬placeable x.drain e) ∧
  (∀ s core part a e b, (s.here.partition core part).berths = a ++ e :: b → (∀ y ∈ a, s.here.now < y.since + 64) → e.since + 64 ≤ s.here.now →
    Answers (.berthAgeExpiry core part) s (s.here.formGang core part e)) ∧
  (∀ (p : Package) core part k, p.freeGangIds core ≠ [] → k ∈ (p.partition core part).berths →
    ∃ id ∈ p.freeGangIds core, ∃ lids y, lids ≠ [] ∧
      (∀ l ∈ lids, ∃ e ∈ (p.partition core part).berths, e.same k = true ∧ e.lid = l ∧
        ∀ y ∈ (p.partition core part).berths, y.same k = true → laneOf y.lid = laneOf l → e.since ≤ y.since) ∧
      lids.Pairwise (fun a b => laneOf a < laneOf b) ∧ (p.formGang core part k).gangs = p.gangs ++ [{ gangOf core part id k lids with yieldTo := y }] ∧
      (∀ l ∈ lids, ∀ th, p.thread? ⟨k.team, l⟩ = some th → th.yieldTo ≤ y) ∧
      (y ≠ 0 → ∃ l ∈ lids, ∃ th, p.thread? ⟨k.team, l⟩ = some th ∧ th.yieldTo = y) ∧
      (p.formGang core part k).mem = p.mem ∧
      ∀ l ∈ lids, ∀ th, (p.formGang core part k).thread? ⟨k.team, l⟩ = some th → th.status = .gang core id) ∧
  (∀ s core, s.here.freeGangIds core ≠ [] → Answers (.gangIdFree core) s s.here.settle) ∧
  (∀ s g x bs, s.here.gang? g.core g.id g.team = some x → x.id < Config.loneGang → s.here.blockedIn x = bs → (∃ l ∈ x.lids, ∀ b ∈ bs, b.1 ≠ l) →
    (∃ b ∈ bs, b.2 + 64 ≤ s.here.now) → Answers (.blockedMemberTimeout g) s
      (((bs.foldl (fun p b => p.setAside x b.1) s.here).setGang g.core g.id g.team
        (fun g => { g with stall := .none, blocked := [], since := [] })).settle)) ∧
  (∀ (p : Package) x l th, p.thread? ⟨x.team, l⟩ = some th → ∃ id y, Config.loneGang ≤ id ∧
    (p.setAside x l).thread? ⟨x.team, l⟩ = some { th with status := .gang x.core id } ∧ (p.setAside x l).gangs = (p.leaveGang ⟨x.team, l⟩).gangs ++ [y] ∧
    y.id = id ∧ y.team = x.team ∧ y.core = x.core ∧ y.lids = [l] ∧ y.point = x.point ∧ y.stall = x.stall ∧ y.yieldTo = th.yieldTo) ∧
  (∀ s team k tm r t, s.here.team? team = some tm → tm.divs.find? (fun r => r.id == k) = some r → r.expires = some t → t ≤ s.here.now →
    Answers (.rejoinTimerExpiry team k) s (s.here.releaseRec team r)) ∧
  (∀ s team lid th, s.here.thread? ⟨team, lid⟩ = some th → th.yieldTo ≠ 0 → th.yieldTo ≤ s.here.now →
    (let p := s.here.setThread ⟨team, lid⟩ (fun th => { th with yieldTo := 0 })
     let old := fun (g : Gang) => g.team = team ∧ lid ∈ g.lids ∧ g.yieldTo ≤ p.now
     Answers (.yieldExpiry team lid) s ({ p with gangs := p.gangs.map (fun g => if old g then { g with yieldTo := 0 } else g) }).settle))

/-- What ends a wait or a window completes. A queue, FIFO or scheduler with room frees the gangs held for it, and so does a bank without
pending writes; AWAIT_RELEASE frees a thread whose AWAIT would go on now; a label-cache miss that is done frees its gang. The load-cap window
halves the cap, but not below 4, when misses exceed an eighth of the loads, doubles it, up to 64, when they are below a 32nd, and clears both counts; the departure
window clears the counters of every manifest that is not SUSPENDED (R39, R200, R201, R247, R206, R109, R71, R298). -/
def Obligations.WaitsAndWindowsEnd : Prop :=
  (∀ s k, s.here.quayRoom k = true → Answers (.quayQueueRoom k) s (freed (fun st => st = .quay k) s.here)) ∧
  (∀ s c k b, s.here.bank? c k = some b → b.fifo.length < Config.fifoSize → Answers (.fifoRoom c k) s (freed (fun st => st = .fifo c k) s.here)) ∧
  (∀ s c k, (∀ x ∈ s.here.writes, x.cluster = c → x.cc = true → x.wct ≠ none) →
    Answers (.bankWritebackDone c k) s (freed (fun st => st = .bank c k) s.here)) ∧
  (∀ s t, (s.here.jobs.filter (fun j => j.team == t && j.kind != .chunk)).length < Config.jobSlots →
    Answers (.schedulerRoom t) s (freed (fun st => st = .scheduler) s.here)) ∧
  (∀ s team lid, Answers (.awaitRelease team lid) s { s.here with gangs := s.here.gangs.map (fun g =>
    if g.team = team ∧ g.stall = .await ∧ lid ∈ g.blocked ∧ s.here.awaitOver g lid = true then
      { g with blocked := without lid g.blocked, stall := if without lid g.blocked = [] then .none else .await }
    else g) }) ∧
  (∀ s g, Answers (.labelCacheMissDone g) s (s.here.setGang g.core g.id g.team (fun x => if x.stall = .other then { x with stall := .none } else x))) ∧
  (∀ s core, (s.here.coreOr core).win < s.here.now → (s.here.now - (s.here.coreOr core).win) % 4096 = 0 → Answers (.loadCapWindowEnd core) s (s.here.setCore core (fun c =>
    { c with
      cap := if c.loads < 8 * c.lost then max (c.cap / 2) 4 else if 32 * c.lost < c.loads then min (2 * c.cap) 64 else c.cap
      loads := 0
      lost := 0 }))) ∧
  (∀ s, s.here.now % 16384 = 0 → Answers .departureWindowClear s { s.here with mans := s.here.mans.map (fun m =>
    if m.state = .suspended then m else { m with misses := 0, unread := 0 }) })

/-! ### Teams, rounds and homes -/

/-- DISPATCH_DECISION starts the next team of the record that goes first: its index is NEXT, NEXT goes up, the record leaves its queue after
its last team, and the journal entry becomes started at the first team. TEAM_RETIRE completes for a team whose JOIN is 0: its continuation is
pushed where its queue has room, its bound chunk fires, LEFT goes down, and the grid completes at zero; a team without a grid leaves alone. NEXT and
LEFT change in the record in its queue's ring too (R40, R41, R42, R46 to R48, R363). That a team that leaves takes its sparsity entries with it
(assumption 111), and that NEXT and LEFT stand both in the grid and in the ring (assumption 62), is the model's choice. -/
def Obligations.TeamsStartAndRetire : Prop :=
  (∀ s k p r g, p = s.here.raiseCounts k (s.here.runnables k) → p.bestRunnable k (s.here.runnables k) = some r →
    p.grids.find? (fun g => g.id == r.grid) = some g →
    (let p₁ := p.startTeam g r k
     let p₂ := if g.next = 0 then p₁.journalSet g.queue g.journal 1 0 else p₁
     let last := g.next + 1 = recTeams g.record
     let p₃ := (p₂.setGrid g.id (fun x => { x with queued := !decide last })).setProgress g.id (g.next + 1) g.left
     Answers (.dispatchDecision k) s (if last then p₃.setQuay g.queue (fun x => { x with items := without g.id x.items }) else p₃))) ∧
  (∀ (p : Package) g r k x, p.world? g.world = some x → ∃ tm ∈ (p.startTeam g r k).teams, tm.index = g.next ∧ tm.world = g.world ∧ tm.grid = g.id ∧
    tm.join = 1 ∧ tm.ended = false ∧ tm.cores = r.cores ∧ tm.cluster = k ∧ tm.nregs = descRegs r.desc ∧ recNext tm.record = g.next % 2 ^ 32 ∧ recLeft tm.record = g.left % 2 ^ 32 ∧
    tm.threads.length = recThreads g.record + 1 ∧ tm.signs = List.replicate 16 SignReg.idle ∧ tm.tiles = [] ∧
    ∀ th ∈ tm.threads, th.seed = startSeed (g.next * 2 ^ 14 + th.lid) ∧ th.fpctl = 0 ∧ th.flags = List.replicate 12 0 ∧ th.ctx = []) ∧
  (∀ s t tm g, s.here.team? t = some tm → tm.ended = true → tm.join = 0 → s.here.grids.find? (fun g => g.id == tm.grid) = some g →
    ((tm.cont.isSome ∨ g.parent.isSome) → s.here.teamInFlight tm = false) →
    (∀ r q ref, tm.cont = some (r, q, ref) → tm.killed = true ∨ s.here.quayRoom q = true) →
    (let pushed := match (if tm.killed then none else tm.cont) with
       | some (r, q, ref) => s.here.pushRecord q r tm.world ref none g.tideBound
       | none => s.here
     let p := pushed.fireChunk g tm
     Answers (.teamRetire t) s (((p.dropTeam t).gridLess g).gridDone g.id))) ∧
  (∀ s t tm, s.here.team? t = some tm → tm.ended = true → s.here.grids.find? (fun g => g.id == tm.grid) = none →
    Answers (.teamRetire t) s (s.here.dropTeam t)) ∧
  (∀ (p : Package) t, (p.dropTeam t).teams.map (·.id) = (p.teams.filter (fun x => x.id != t)).map (·.id) ∧
    (∀ tm ∈ (p.dropTeam t).teams, ∃ y ∈ p.teams, tm = { y with sparse := tm.sparse } ∧ tm.sparse.Sublist y.sparse) ∧ (p.dropTeam t).mem = p.mem ∧
    (∀ x ∈ (p.dropTeam t).sparse, x.team ≠ t) ∧ (∀ x ∈ p.sparse, x.team ≠ t → x ∈ (p.dropTeam t).sparse) ∧
    (p.dropTeam t).rounds = p.rounds.filter (fun r => r.team != t)) ∧
  (∀ (p : Package) k next left g, p.grids.find? (fun g => g.id == k) = some g →
    (p.setProgress k next left).grids = p.grids.map (fun x => if x.id = k then { x with next, left } else x) ∧
    ∀ pa, p.gridPa g = some pa → p.wf = true → (p.setProgress k next left).readPa (pa + 32) 4 = next % 2 ^ 32 ∧
      (p.setProgress k next left).readPa (pa + 28) 4 = left % 2 ^ 32 ∧
      ∀ a, a < pa + 28 ∨ pa + 36 ≤ a → (p.setProgress k next left).byteAt a = p.byteAt a) ∧
  (∀ (p : Package) k g, p.grids.find? (fun g => g.id == k) = some g →
    (g.left ≠ 0 ∨ g.chunks ≠ 0 → p.gridDone k = p) ∧
    (g.left = 0 → g.chunks = 0 →
      let q := ({ p with grids := p.grids.filter (fun x => x.id != k) }).journalSet g.queue g.journal 2 0
      p.gridDone k = match g.parent with
        | some t => q.setJoin t (· - 1)
        | none => q))

/-- The rounds of the lathe complete. ROUND_ISSUE issues the round of a register whose SIGNED equals EXPECT and arms the register again with the
next ROUND. ROUND_COMPLETE lets the first round of a slice take effect: the tile takes the words of the operation with the owners of R122 (or an ACCST's
registers take those of the tile), the signers' flags fall, and the round is over; an MMASP whose queue holds too few entries stalls with those it
popped, and SPARSITY_ENTRY_ARRIVE lets it go on; an entry that a resumed team has saved goes back into its queue once no entry stands there (R175,
R187, R188, R189, R411, R183, R184, R122). That a round which finds the label table full has no effect and traps its signers (assumption 30), that the
owners of a guard count with a tile's (assumption 33), and that a round issued behind a COLL on its tile stays behind the rounds before that COLL
(assumption 136), is the model's choice. -/
def Obligations.RoundsComplete : Prop :=
  (∀ s t (k : Nat) tm op, s.here.team? t = some tm → k < tm.signs.length → (tm.sign k).state = .collecting → (tm.sign k).signed = (tm.sign k).expect →
    (tm.sign k).op = some op →
    ∃ q, ∃ x : Round, ∃ tm', Answers (.roundIssue t k) s q ∧ q.rounds = insertRound (s.here.collBetween tm x) x s.here.rounds ∧ x.id = s.here.nextId ∧ x.op = op ∧
      x.sigs = (tm.sign k).sigs ∧ x.expect = (tm.sign k).expect ∧ x.time = s.here.now ∧ x.k = k ∧ x.team = t ∧ x.row = (tm.sign k).row ∧
      x.core = tm.rowCore x.row ∧ x.part = tm.rowPart x.row ∧ q.team? t = some tm' ∧
      tm'.sign k = { tm.sign k with round := ((tm.sign k).round + 1) % 256, signed := 0, keyWord := 0, keyLit := 0, state := .armed, op := none, sigs := [] } ∧
      (∀ j, j ≠ k → tm'.sign j = tm.sign j) ∧ q.mem = s.here.mem ∧ q.gangs = (freed (fun st => st = .sign) s.here).gangs) ∧
  (∀ s k r tm p r', s.here.rounds.find? (fun r => r.id == k) = some r → s.here.team? r.team = some tm → r.stop = false → r.time < s.here.now →
    s.here.firstRound r = true → s.here.tileHeld r tm = false → s.here.popSparse r = (p, r') →
    (r'.popped.length < r'.op.groups →
      Answers (.roundComplete k) s ((p.restoreAll.setRound k (fun _ => { r' with read := true, stop := true })).wake
        (fun st => st == Stall.lock || st == Stall.exit))) ∧
    (r'.op.groups ≤ r'.popped.length →
      Answers (.roundComplete k) s ((p.restoreAll.setRound k (fun _ => { r' with read := true })).doRound { r' with read := true } tm))) ∧
  (∀ (p : Package) r tm lbl p₁, (∀ f t, r.op ≠ .accst f t) → p.labelFor (p.tileMask r (tm.tile r.core r.part r.op.tile)) = some (lbl, p₁) →
    let t := tm.tile r.core r.part r.op.tile
    let p₂ := r.sigs.foldl (fun p g => p.flagDone ⟨r.team, g.lid⟩ g.flag) (p₁.setTeam r.team (fun tm => tm.setTile { t with words := r.words t, lbl }))
    p.doRound r tm = ({ p₂ with rounds := p₂.rounds.filter (fun x => x.id != r.id) }).wake (fun st => st == Stall.lock || st == Stall.exit)) ∧
  (∀ (p : Package) r tm f n lbl p₁ ls p₂, r.op = .accst f n →
    let t := tm.tile r.core r.part n
    p.labelFor (p.tileMask r t) = some (lbl, p₁) → p₁.storeLabels t r.sigs = some (ls, p₂) →
    let p₃ := r.sigs.foldl (fun p g => p.flagDone ⟨r.team, g.lid⟩ g.flag) (p₂.storeTile r.team f t r.sigs ls)
    p.doRound r tm = ({ p₃ with rounds := p₃.rounds.filter (fun x => x.id != r.id) }).wake (fun st => st == Stall.lock || st == Stall.exit)) ∧
  (∀ (p : Package) r tm, p.labelFor (p.tileMask r (tm.tile r.core r.part r.op.tile)) = none → p.doRound r tm = p.roundFull r) ∧
  (∀ s core part q r p r', s.here.rounds.find? (fun r => r.core == core && r.part == part && r.stop && r.op.queue == some q
      && s.here.sparse.any (fun x => x.core == core && x.part == part && x.q == q && x.team == r.team && !x.entries.isEmpty)) = some r →
    s.here.popSparse r = (p, r') →
    Answers (.sparsityEntryArrive core part q) s (p.restoreAll.setRound r.id (fun _ => { r' with stop := decide (r'.popped.length < r'.op.groups) }))) ∧
  (∀ (p : Package) t tm e, p.team? t = some tm → tm.residence = .resident → e ∈ tm.sparse →
    (∀ x ∈ p.sparse, ¬(x.core = tm.rowCore e.row ∧ x.part = tm.rowPart e.row ∧ x.q = e.q)) →
    ∃ x ∈ (p.restoreSparse t).sparse, x.core = tm.rowCore e.row ∧ x.part = tm.rowPart e.row ∧ x.q = e.q ∧ x.team = t ∧
      x.entries = (tm.sparse.filter (fun y => y.row == e.row && y.q == e.q)).map (fun y => (y.pos, y.lbl)))

/-- Long-latency instructions complete: a load that has been served writes its value, extended as its width says, with its owners; a .cc load is
served from its cluster's live copy; a result is written when it is ready, and a floating-point one raises its exceptions, with its label in that of FLAGS; a store, once every write of it has its WCT, a pod access, once every record is
acknowledged, and RGNC, once both hold, only let their flag fall; and the first entry of a FIFO goes to the pop that has waited longest,
zero-extended or cut to its width (R101, R113, R149, R151, R200, R199, R231, R228). That a load waits for a growing update without which it would see its
granule torn (R119) is the model's choice (assumption 129). -/
def Obligations.LongLatencyCompletes : Prop :=
  (∀ s k a o v m q, s.here.acc? k = some a → a.op = .load o → o.stage = .served v m →
    Finished s.here a o.dst o.regs (if o.signed then wrapInt 32 (intBits (8 * o.n) v) else v) m q → Answers (.longLatencyComplete k) s q) ∧
  (∀ s k a o, s.here.acc? k = some a → a.op = .load o → o.stage = .sent → o.peer = none → o.policy = .cc →
    s.here.copyLive (lineOf o.pa) a.cluster = true → s.here.podHeld (s.here.worldId a.team) o = false → s.here.earlierRead ⟨a.team, a.lid⟩ a.id o.pa o.n = false →
    s.here.torn a o.pa o.n true = false →
    Answers (.longLatencyComplete k) s ((s.here.copyHit (s.here.worldId a.team) (lineOf o.pa) a.cluster).perform a o true)) ∧
  (∀ s k a r q, s.here.acc? k = some a → a.op = .result r → r.ready ≤ s.here.now → r.fp = none →
    Finished s.here a r.dst r.regs r.val (s.here.maskOf r.lbl) q → Answers (.longLatencyComplete k) s q) ∧
  (∀ s k a r x th l p₁ fl p₂, s.here.acc? k = some a → a.op = .result r → r.ready ≤ s.here.now → r.fp = some x →
    s.here.thread? ⟨a.team, a.lid⟩ = some th → ({ s.here with accs := s.here.accs.filter (fun y => y.id != a.id) }).labelFor (s.here.maskOf r.lbl) = some (l, p₁) →
    p₁.labelFor (p₁.maskOf th.flagsLbl ||| s.here.maskOf r.lbl) = some (fl, p₂) →
    Answers (.longLatencyComplete k) s ((((p₂.putVal ⟨a.team, a.lid⟩ r.dst r.regs r.val l).setThread ⟨a.team, a.lid⟩ (fun th =>
      { th with fpctl := th.fpctl ||| BitVec.ofNat 32 (x * 8), flagsLbl := fl })).flagDone ⟨a.team, a.lid⟩ a.flag).wake
        (fun st => st == Stall.memory || st == Stall.other))) ∧
  (∀ s k a, s.here.acc? k = some a → a.killed = false →
    (a.op = .store ∧ (∀ x ∈ s.here.writes, x.acc = a.id → x.wct ≠ none) ∨ a.op = .pod 0 ∨
      ∃ c, a.op = .rgnc 0 c ∧ (∀ x ∈ s.here.writes, x.acc = a.id → x.wct ≠ none) ∧ s.here.closingPending a c = false) →
    ∃ q, Answers (.longLatencyComplete k) s q ∧ q.accs = s.here.accs.filter (fun x => x.id != a.id) ∧ q.mem = s.here.mem ∧
      q.teams = (s.here.flagDone ⟨a.team, a.lid⟩ a.flag).teams) ∧
  (∀ s c k b e es a d n m q, s.here.bank? c k = some b → b.fifo = e :: es → s.here.firstPop c k = some a → a.op = .pop k d n m →
    (∃ p l p₁, p = s.here.setBank { b with fifo := es } ∧
      ({ p with accs := s.here.accs.filter (fun x => x.id != a.id) }).labelFor (s.here.maskOf e.lbl ||| m) = some (l, p₁) ∧
      q = (((p₁.putVal ⟨a.team, a.lid⟩ d (n / 4) (e.val % 2 ^ (8 * n)) l).flagDone ⟨a.team, a.lid⟩ a.flag).wake
        (fun st => st == Stall.memory || st == Stall.other)).wake (fun st => st == Stall.fifo c k || st == Stall.bank c k)) →
    Answers (.fifoEntryArrive c k) s q)

/-- STORE_ARRIVE_HOME gives a write that may arrive its WCT, later than the time, than MAXL of its line and than every WCT of the line, and changes no
byte of memory. WCT_REACHED makes the due writes of a line part of memory, in the
order of their WCTs, and leaves every other byte as it is, but for those of the table entries of the pages written, in which DEAD is cleared
(R228, R230, R227). -/
def Obligations.StoresReachMemory : Prop :=
  (∀ s k, (∃ x ∈ s.here.writes, x.acc = k ∧ s.here.mayArriveHome x = true) →
    ∃ x ∈ s.here.writes, x.acc = k ∧ s.here.mayArriveHome x = true ∧
      Answers (.storeArriveHome k) s (({ s.here with picks := s.here.picks.drop 1 }).arrive x)) ∧
  (∀ (p : Package) x, x ∈ p.writes → ∃ t, (p.arrive x).writes = p.writes.map (fun y => if y.id = x.id then { y with wct := some t, scope := none } else y) ∧
    p.now < t ∧ (p.lineIn x.line).maxl < t ∧ (∀ y ∈ p.writes, y.covers x.line = true → ∀ u, y.wct = some u → u < t) ∧ (p.arrive x).mem = p.mem ∧
    (p.arrive x).glabels = p.glabels) ∧
  (∀ s line, s.here.wf = true → (s.here.writes.map (·.id)).Nodup → (∀ x ∈ s.here.writes, x.disc = none ∧ (x.cells.map (·.1)).Nodup) →
    ∃ q, Answers (.wctReached line) s q ∧ q.writes = s.here.writes.filter (fun x => !(x.wct.any (fun t => decide (t ≤ s.here.now)) && x.line == line)) ∧
      (∀ a, (∀ x ∈ dueAt s.here line, ∀ e, x.pte = some e → a < e ∨ e + 16 ≤ a) → q.byteAt a = s.here.storedUnder (coherent (dueAt s.here line)) a) ∧
      (∀ g, (∀ x ∈ dueAt s.here line, ∀ e ∈ x.grow, e.1 ≠ g) → q.glabel g = s.here.glabel g) ∧ q.teams = s.here.teams ∧ q.labels = s.here.labels)

/-! ### Fills, traps and preemption -/

/-- FILL_SERVE serves a load that reaches its home: at once when no WCT is pending on the line, and otherwise at the largest one; a fill of a
cluster cache leaves a copy with a lease of 1,024 and raises MAXL to its end, so that no later write of the line gets a WCT within the lease. A remote load is answered from
the home's memory, that of a line with a pending store once its WCT has come, and a pod load from the live copy, with the owners of its page at the reader; a package
that applies a step holds the loads of that step. LEASE_END takes a copy out after its lease; DELIVERY_SEND and DELIVERY_ENTER bring a decided delivery into those of the recorded clusters
that have a cache, with a lease from its WCT, and no event of these changes memory (R229, R230, R216, R270, R279, R295, R296, R304). That a cluster may refuse a
delivery only while it lacks room without a writeback (assumption 141), and the waiting of a load at a growing update (assumption 129), is the model's
choice. -/
def Obligations.FillsAndDeliveriesComplete : Prop :=
  (∀ s k a o ev, k < 2 ^ 64 → s.here.acc? k = some a → a.op = .load o → o.peer = none →
    Answers (.fillServe k ev) s ((s.here.evictAll a.cluster ev).fillHere a o)) ∧
  (∀ (p : Package) a o, o.stage = .sent → p.podHeld (p.worldId a.team) o = false → p.earlierRead ⟨a.team, a.lid⟩ a.id o.pa o.n = false → o.policy = .cc →
    (p.lostMiss a o).answers (p.worldId a.team) (lineOf o.pa) a.cluster = none →
    let q := (p.lostMiss a o).noteFill (p.worldId a.team) (lineOf o.pa) a.cluster
    let w := q.pendingWct (lineOf o.pa)
    (w = 0 → p.fillHere a o = q.serveHere a o q.now) ∧
    (w ≠ 0 → q.hasCache a.cluster = true → p.fillHere a o = (q.raiseMaxl (lineOf o.pa) (w + 1024)).setStage a.id (.waiting w))) ∧
  (∀ (p : Package) a o w, o.stage = .waiting w → p.podHeld (p.worldId a.team) o = false → p.earlierRead ⟨a.team, a.lid⟩ a.id o.pa o.n = false →
    p.fillHere a o = if w ≤ p.now ∧ p.torn a o.pa o.n (p.keeps a o) = false then p.serveHere a o w else p) ∧
  (∀ (p : Package) a o, p.podHeld (p.worldId a.team) o = true → p.fillHere a o = p) ∧
  (∀ (p : Package) a o t, o.policy = .cc → p.hasCache a.cluster = true → podMode o.mode = false → o.scope = none →
    let q := p.serveHere a o t
    sameStore p q ∧ (∃ c ∈ (q.line (lineOf o.pa)).copies, c.cluster = a.cluster ∧ c.lease = t + 1024 ∧ c.delivered = none) ∧
    t + 1024 ≤ (q.line (lineOf o.pa)).maxl ∧ t + 1024 < q.nextWct (lineOf o.pa)) ∧
  (∀ s k m x acc pa n mode step page mthr scope tag wait, 2 ^ 64 ≤ k → s.here.inboxAt (k - 2 ^ 64) = some m → s.here.world? m.world = some x →
    m.msg = .loadReq acc pa n mode step page mthr scope tag wait → acc ≠ nobody →
    (step.any (fun n => x.tide.any (fun t => !t.serves n)) = true → Answers (.fillServe k []) s s.here) ∧
    (step.any (fun n => x.tide.any (fun t => !t.serves n)) = false →
      (podMode mode = false → wait = 0 → s.here.pendingWct (lineOf pa) ≠ 0 →
        let later : Packet := { m with msg := .loadReq acc pa n mode step page mthr scope tag (s.here.pendingWct (lineOf pa)) }
        Answers (.fillServe k []) s { s.here with inbox := s.here.inbox.set (k - 2 ^ 64) later }) ∧
      (s.here.now < wait → Answers (.fillServe k []) s s.here) ∧
      (podMode mode = false → (wait = 0 → s.here.pendingWct (lineOf pa) = 0) → wait ≤ s.here.now →
        let peer := ((x.peers.find? (fun q => q.phys == m.src)).map (fun q => q.logical)).getD 0
        let p := (s.here.dropInbox (k - 2 ^ 64)).countMigrate x.id page mthr peer
        let q := (match scope with | some sc => p.recordScope x.id pa tag sc | none => p)
        Answers (.fillServe k []) s (q.send m.src m.world (match q.badAt pa n with
          | some aux => .loadResp acc 0 0 aux none
          | none => .loadResp acc (q.homeRead m.world false pa n q.visible).1 (q.homeRead m.world false pa n q.visible).2 0 none))) ∧
      (podMode mode = true → wait ≤ s.here.now →
        let p := (s.here.dropInbox (k - 2 ^ 64)).noteLoad x m.src pa mode page mthr scope tag
        let at_ := p.liveOf m.world true pa
        Answers (.fillServe k []) s (p.send m.src m.world (match p.badAt at_ n with
          | some aux => .loadResp acc 0 0 aux none
          | none => .loadResp acc (p.homeRead m.world true pa n p.visible).1 0 0
              (if p.badAt (at_ / 64 * 64) 64 = none then some (p.readPa (at_ / 64 * 64) 64) else none)))))) ∧
  (∀ s c l, (∃ x ∈ (s.here.line l).copies, x.cluster = c ∧ x.free = false ∧ x.lease < s.here.now) →
    ∃ q, Answers (.leaseEnd c l) s q ∧ (q.line l).copies = (s.here.line l).copies.filter (fun x => x.cluster != c) ∧
      (∀ y ∈ q.pods, y.cluster = some c → y.line = l → s.here.now ≤ y.lease) ∧ sameStore s.here q) ∧
  (∀ s k d, s.here.dels.find? (fun d => d.id == k) = some d → d.sent = false → d.wct ≤ s.here.now →
    ∃ q, Answers (.deliverySend k) s q ∧ sameStore s.here q ∧
      (∀ y ∈ q.dels, y.id = k → y.sent = true ∧ y.dests ≠ [] ∧ ∀ c ∈ y.dests, c ∈ d.dests ∧ s.here.hasCache c = true) ∧
      ∀ c ∈ d.dests, s.here.hasCache c = true → s.here.mayRefuse d.line c = false → ∃ y ∈ q.dels, y.id = k ∧ c ∈ y.dests) ∧
  (∀ s k d, s.here.dels.find? (fun d => d.id == k) = some d → d.sent = true → d.dests ≠ [] →
    ∃ q, ∃ c ∈ d.dests, Answers (.deliveryEnter k) s q ∧ sameStore s.here q ∧
      (s.here.hasCache c = true → ∃ x ∈ (q.line d.line).copies, x.cluster = c ∧ x.lease = d.wct + 1024 ∧ x.delivered = d.man) ∧
      ∀ y ∈ q.dels, y.id = k → c ∉ y.dests)

/-- TRAP ENTRY, where the team has a vector and a frame: the trap registers take cause, pc, address and label; the thread is in trap mode; the frame of
512 bytes is written; the context stack, the latches and o0 to o7 (the pilot's s256 to s263) are saved; the frame's address stands in the first two of
these registers; and the thread waits at the vector. The frame holds the saved registers, the latches and the region's buffer, and memory outside it
is unchanged (R252, R253, R257). -/
def Obligations.TrapEntrySavesTheThread : Prop :=
  ∀ (p : Package) w r tm th x base, p.team? w.team = some tm → p.thread? w = some th → p.world? tm.world = some x → tm.frameBase = some base →
    (if w.lid = 0 then x.pilotVec else x.trapVec) ≠ 0 → (w.lid = 0 → 258 ≤ tm.sregs.length) → (w.lid ≠ 0 → 2 ≤ th.ops.length) →
    (∃ lo p₁ lx p₂, p.labelFor (p.joinOf ((tm.trapSaved th).map (·.lbl))) = some (lo, p₁) ∧
      p₁.labelFor (p₁.joinOf (if th.lid = 0 then [] else [th.x0.lbl, th.x1.lbl])) = some (lx, p₂)) →
    let q := p.enterTrap w r
    let vec := if w.lid = 0 then x.pilotVec else x.trapVec
    let va := tm.frameVa + 512 * w.lid
    ∃ tm' th' t, q.team? w.team = some tm' ∧ q.thread? w = some th' ∧ th'.point = { hdr := vec, mid := none } ∧
      th'.trapRegs = { cause := BitVec.ofNat 32 r.cause.code, pc := r.pc, va := r.va, vmask := r.vmask, lbl := r.lbl, aux := BitVec.ofNat 32 r.aux } ∧
      th'.trap = some t ∧ t.ctx = th.ctx ∧ t.x0 = th.x0 ∧ t.x1 = th.x1 ∧ t.pc = r.pc ∧ t.resume = r.resume ∧ t.skip = r.skip ∧
      t.ops = (if w.lid = 0 then (tm.sregs.drop 256).take 8 else th.ops.take 8) ∧
      (let regs := if w.lid = 0 then tm'.sregs.drop 256 else th'.ops
       (regs[0]?).map (·.val) = some (BitVec.ofNat 32 va) ∧ (regs[1]?).map (·.val) = some (BitVec.ofNat 32 (va / 2 ^ 32))) ∧
      th'.regs = th.regs ∧ th'.preds = th.preds ∧ th'.ctx = th.ctx ∧ th'.region = th.region ∧ th'.flags = th.flags ∧ th'.fpctl = th.fpctl ∧
      (p.wf = true → q.readPa (base + 512 * w.lid) 512 =
        frameBits (tm.trapSaved th) th.x0 th.x1 (th.lid == 0) (match th.region with | some g => g.rsb | none => []) % 2 ^ 4096) ∧
      (∀ a, a < base + 512 * w.lid ∨ base + 512 * w.lid + 512 ≤ a → q.byteAt a = p.byteAt a)

/-- What stops a thread and lets it go on completes: TRAP_ENTRY takes a trap whose thread has no access left to wait for; PAGE_RESIDENT files a thread
of the fault berth at its point once its address takes PAGE no more; PAGE_DELIVER raises a precise PAGE trap; UNCORRECTABLE_ARRIVE ends a load
that writes nothing and lets its flag fall, and its thread takes UNCORRECTABLE with the load's address before its next clause, an error of an access
made outside trap mode once it has left it (R252, R224, R258, R259, R260). That TRAPPC of a delivered fetch is the clause that led there (assumption 27), the
order of deferred errors and their waiting for the end of trap mode (assumption 53), what PAGE_RESIDENT asks of the address (assumption 60), and the
team's being resident at a delivery (assumption 118), is the model's choice. -/
def Obligations.StopsAndReturnsComplete : Prop :=
  (∀ s team lid th r, s.here.thread? ⟨team, lid⟩ = some th → th.status = .trapping r → s.here.trapWaits ⟨team, lid⟩ = false →
    Answers (.trapEntry team lid) s (s.here.enterTrap ⟨team, lid⟩ r)) ∧
  (∀ s team lid th tm va vm rg f, s.here.thread? ⟨team, lid⟩ = some th → s.here.team? team = some tm → th.status = .faulted va vm rg f →
    s.here.stillPage team va = false → tm.residence ≠ .saved →
    Answers (.pageResident team lid) s (s.here.fileAll team [(lid, th.point, 0#16)])) ∧
  (∀ s team lid th tm va vm rg f, s.here.thread? ⟨team, lid⟩ = some th → s.here.team? team = some tm → th.status = .faulted va vm rg f →
    tm.residence ≠ .saved →
    let pc := if rg then th.point.hdr else if f then th.frm else th.point.mid.getD th.point.hdr
    Answers (.pageDeliver team lid) s (s.here.raiseTrap ⟨team, lid⟩
      { cause := .page, pc, va, vmask := vm, lbl := 0, aux := rg.toNat + 2 * f.toNat, resume := th.point, skip := some th.point })) ∧
  (∀ s k a o aux, s.here.acc? k = some a → a.op = .load o → o.stage = .bad aux →
    Answers (.uncorrectableArrive k) s (((({ s.here with accs := s.here.accs.filter (fun x => x.id != k) }).flagDone ⟨a.team, a.lid⟩ a.flag).setThread
      ⟨a.team, a.lid⟩ (fun th => { th with errs := th.errs ++ [({ pc := a.pc, va := o.va, vmask := o.mask, aux, trapped := a.trapped } : DefErr)] })).wake
        (fun st => st == Stall.memory || st == Stall.other))) ∧
  (∀ (p : Package) w pt th e, p.thread? w = some th → th.errs.find? (fun e => e.trapped || th.trap.isNone) = some e →
    p.takeError w pt = (p.setThread w (fun th => { th with errs := th.errs.erase e })).raiseTrap w
      { cause := .uncorrectable, pc := e.pc, va := e.va, vmask := e.vmask, lbl := 0, aux := e.aux, resume := pt, skip := some pt })

/-- PREEMPT stops the issue of a resident team's clauses, but for those that a gang stands inside. PREEMPT_SAVE_DONE, once its accesses are done, makes
the team saved: each of its threads that stands in a gang, a berth or a filing queue is taken out of it and keeps its point; its waiting pops are named for the resumption,
its sparsity entries go from the queues into the save, and its rejoin timers stop with the time that is left. RESUME on as many cores of one cluster of
its world, with room for its rows, makes it resident there, its outstanding pops at the end of the wait order of their banks, its tiles on the new cores and its timers running again, starts a
new load-cap window on those cores, and files its threads where they stood (R261 to R264, R62, R72, R187). That a thread blocked inside an issued clause
is saved at its instruction is the model's choice (assumption 117). -/
def Obligations.TeamsArePreempted : Prop :=
  (∀ s t tm, s.here.team? t = some tm → tm.ended = false → tm.residence = .resident →
    Answers (.preempt t) s (s.here.setTeam t (fun tm => { tm with residence := .saving }))) ∧
  (∀ s g x tm, s.here.gang? g.core g.id g.team = some x → s.here.team? x.team = some tm → tm.residence = .saving → x.held = none →
    Answers (.clauseIssue g) s s.here) ∧
  (∀ s t tm, s.here.team? t = some tm → tm.residence = .saving → s.here.saveReady tm = true →
    ∃ q tm', Answers (.preemptSaveDone t) s q ∧ q.team? t = some tm' ∧ tm'.residence = .saved ∧ tm'.saved = (s.here.pullTeam tm).1 ∧
      (∀ x ∈ q.sparse, x.team ≠ t) ∧
      (∀ x ∈ s.here.sparse, x.team = t → ∀ e ∈ x.entries, ∃ y ∈ tm'.sparse, y.row = tm.rowIn x.core x.part ∧ y.q = x.q ∧ y.pos = e.1 ∧ y.lbl = e.2) ∧
      (∀ a ∈ s.here.accs, ∀ b d n m, a.team = t → a.op = .pop b d n m → ∃ y ∈ tm'.pops, y.acc = a.id) ∧
      tm'.divs = tm.divs.map (fun r => { r with left := r.expires.map (fun e => e - s.here.now), expires := none }) ∧ sameStore s.here q) ∧
  (∀ (p : Package) t tm l th, p.team? t = some tm → p.thread? ⟨t, l⟩ = some th →
    ((∃ c i, th.status = .gang c i) → (∃ e ∈ (p.pullTeam tm).1, e.team = t ∧ e.lid = l) ∧ ∀ g ∈ (p.pullTeam tm).2.gangs, g.team = t → l ∉ g.lids) ∧
    (th.status = .filed → (∃ x ∈ p.parts, ∃ e ∈ x.berths ++ x.queue, e.team = t ∧ e.lid = l) →
      (∃ e ∈ (p.pullTeam tm).1, e.team = t ∧ e.lid = l) ∧ ∀ x ∈ (p.pullTeam tm).2.parts, ∀ e ∈ x.berths ++ x.queue, ¬(e.team = t ∧ e.lid = l))) ∧
  (∀ s t tm x cores, s.here.team? t = some tm → s.here.world? tm.world = some x → tm.residence = .saved → s.here.coresFit tm cores = true →
    ∃ p tm', p.team? t = some tm' ∧ tm'.residence = .resident ∧ tm'.cores = cores ∧ tm'.cluster = cores.headD 0 / 4 ∧ tm'.saved = [] ∧ tm'.pops = [] ∧
      tm'.divs = tm.divs.map (fun r => { r with expires := r.left.map (fun e => s.here.now + e), left := none }) ∧
      tm'.tiles = tm.tiles.map (fun e => { e with core := moveCore tm.cores cores e.core }) ∧
      (∀ a ∈ p.accs, a.team = t → a.cluster = cores.headD 0 / 4) ∧
      (∀ c ∈ cores, (p.coreOr c).win = s.here.now ∧ (p.coreOr c).loads = 0 ∧ (p.coreOr c).lost = 0) ∧ sameStore s.here p ∧
      Answers (.resume t cores) s (p.fileAll t (tm.saved.map (fun e => (e.lid, e.point, e.key)))))

/-! ### Jobs and tides at work -/

/-- The events of jobs complete. JOB_SEGMENT_DONE counts the arrivals whose bytes are written, or makes the next segment of a job that its edges let
run: for a copy one of the pieces of its window, read and then written at its destination; the engine waits where PAGE or a label table says so, and
a failure ends the job with its STATUS. COLL_HEADER_ROUND with the header of every member opens the collective, with a tile that is its destination at +0 again, or ends it with COLL_MISMATCH (5) or
CEILING (10) and no tile changed; the header of a bound grid goes out once its last chunk is fired. COLL_CONTRIBUTION adds the next rank to a tile, or writes the next destination segment. JOB_COMPLETE writes STATUS into the card, as a store under the
job's label, and after that write is done ends the job and lowers its flag; an engine that meets a full label table interrupts the system cores
(R246 to R249, R366, R361, R190, R315, R316, R360, R367, R123, R110). That a copy works at up to 48 pieces at a time (assumption 68), that STATUS is
stored as one byte, and that a job whose card cannot be written ends without it (assumption 69), is the model's choice. -/
def Obligations.JobsProceed : Prop :=
  (∀ s k j, s.here.jobs.find? (fun j => j.id == k) = some j →
    (s.here.dueArrivals j ≠ [] → Answers (.jobSegmentDone k) s (s.here.flushArrivals k) ∧ Answers (.jobComplete k) s (s.here.flushArrivals k)) ∧
    (s.here.dueArrivals j = [] → j.done = false → s.here.mayRun j = true →
      (j.kind = .cpy → cpyMode j.card = 0 → j.nextPieces j.shape j.srcAddr j.dstAddr ≠ [] →
        ∃ n ∈ j.nextPieces j.shape j.srcAddr j.dstAddr,
          Answers (.jobSegmentDone k) s (({ s.here with picks := s.here.picks.drop 1 }).engRun j.id (cpyPiece s.others j n))) ∧
      (j.kind = .cpy → cpyMode j.card = 2 → j.seg < (cardRegion j.card 0).len →
        Answers (.jobSegmentDone k) s (s.here.engRun k (sparseFill s.others j))) ∧
      (j.kind = .cpym 0 → Answers (.jobSegmentDone k) s (s.here.setJob k (fun j => { j with done := true }))) ∧
      (∀ m, m ≠ 0 → j.kind = .cpym m → j.nextPieces j.shape j.srcAddr j.dstAddr ≠ [] →
        ∃ n ∈ j.nextPieces j.shape j.srcAddr j.dstAddr,
          Answers (.jobSegmentDone k) s (({ s.here with picks := s.here.picks.drop 1 }).engRun j.id (cpymPiece s.others j m n))) ∧
      (j.kind = .xperm → j.sent = true → j.nextPieces j.shape j.srcAddr j.srcAddr ≠ [] →
        ∃ n ∈ j.nextPieces j.shape j.srcAddr j.srcAddr,
          Answers (.jobSegmentDone k) s (({ s.here with picks := s.here.picks.drop 1 }).engRun j.id (xpPiece s.others j n))) ∧
      (∀ t, j.kind = .coll t → Answers (.jobSegmentDone k) s (s.here.collStep s.others j)) ∧
      (j.kind = .chunk → s.here.headerDue j = false → Answers (.jobSegmentDone k) s (s.here.collStep s.others j))) ∧
    (s.here.dueArrivals j = [] → s.here.headerDue j = true → Answers (.jobSegmentDone k) s (s.here.sendHeader j))) ∧
  (∀ (p : Package) k m, (∀ q, m p = .ok ((), q) → p.engRun k m = q) ∧ (m p = .error .wait → p.engRun k m = p) ∧
    (∀ n, m p = .error (.status n) → p.engRun k m =
      (if n = 4 then p.interrupt .labelFull 0 0 else p).setJob k (fun j => { j with done := true, status := if j.status = 0 then n else j.status }))) ∧
  (∀ os j n (p : Package) gs p₁ ids q, cpyMode j.card = 0 → j.layout = none → (cardRegion j.card 4).sp = false → cardAw j.card = false →
    (cardRegion j.card 0).len = (cardRegion j.card 4).len →
    (let c := j.shape.piece j.srcAddr j.dstAddr n
     c.row = 0 ∧ engGranules os j (cardRegion j.card 0).sp ((j.srcAddr + 32 * c.g) % 2 ^ 64) c.n p = .ok (gs, p₁) ∧
     engWriteVa os j ((j.dstAddr + 32 * c.g) % 2 ^ 64) (fun i => j.podSeq + p₁.recordsBefore j c.row (c.g + i)) gs p₁ = .ok (.wrote ids, q)) →
    cpyPiece os j n p = .ok ((), q.setJob j.id (fun j => { j with got := n :: j.got }))) ∧
  (∀ s gid seq g, s.here.groups.find? (fun g => g.id == gid) = some g →
    (let hs := g.heads.filter (fun h => h.seq == seq)
     let mine := fun (j : Job) => (j.kind = .chunk ∨ ∃ t, j.kind = .coll t) ∧ j.gid = gid ∧ j.seq = seq ∧ j.gen = g.gen ∧ j.done = false ∧ j.opened = false
     (∀ r < g.members.length, ∃ h ∈ hs, h.rank = r) → (s.here.jobs.map (·.id)).Nodup →
     ∃ q, Answers (.collHeaderRound gid seq) s q ∧ q = { s.here with jobs := q.jobs, teams := q.teams } ∧ q.jobs.map (·.id) = s.here.jobs.map (·.id) ∧
      (∀ j ∈ s.here.jobs, ¬mine j → j ∈ q.jobs) ∧
      ((∃ h ∈ hs, ∃ h' ∈ hs, h.hash ≠ h'.hash) → q.teams = s.here.teams ∧ ∀ j ∈ s.here.jobs, mine j → j.finish 5 ∈ q.jobs) ∧
      ((∀ h ∈ hs, ∀ h' ∈ hs, h.hash = h'.hash) → (∃ h ∈ hs, h.fail = true) → q.teams = s.here.teams ∧
        ∀ j ∈ s.here.jobs, mine j → j.finish 10 ∈ q.jobs) ∧
      ((∀ h ∈ hs, ∀ h' ∈ hs, h.hash = h'.hash) → (∀ h ∈ hs, h.fail = false) → ∀ j ∈ s.here.jobs, mine j → { j with opened := true } ∈ q.jobs ∧
        ∀ t tm, j.kind = .coll (some t) → s.here.team? j.team = some tm → ∃ tm', q.team? j.team = some tm' ∧
          tm'.tile (tm.coreOf j.lid) (tm.partOf j.lid) t =
            { tm.tile (tm.coreOf j.lid) (tm.partOf j.lid) t with words := List.replicate 256 0 }))) ∧
  (∀ s k j g peers, s.here.jobs.find? (fun j => j.id == k) = some j → s.here.collPeers j = some (g, peers) → j.done = false → j.opened = true →
    j.destDone peers.length = false → Answers (.collContribution k) s ((s.here.engRun k (collApply s.others j g)).collSettle k peers.length)) ∧
  (∀ s k j, s.here.jobs.find? (fun j => j.id == k) = some j → s.here.dueArrivals j = [] → s.here.jobQuiet j = true → j.kind ≠ .chunk →
    (j.posted = false → (j.kind = .xperm → j.opened = false ∨ j.status = 6) → Answers (.jobComplete k) s (s.here.postStatus s.others j)) ∧
    (j.posted = true → ∃ q, Answers (.jobComplete k) s q ∧ q.jobs = s.here.jobs.filter (fun x => x.id != j.id) ∧ q.mem = s.here.mem ∧
      q.teams = (s.here.flagDone ⟨j.team, j.lid⟩ j.flag).teams)) ∧
  (∀ s k j, s.here.jobs.find? (fun j => j.id == k) = some j → s.here.dueArrivals j = [] → s.here.jobQuiet j = true → j.kind = .chunk →
    Answers (.jobComplete k) s (s.here.endChunks s.others j)) ∧
  (∀ (p : Package) os j, let status := if j.status = 0 then 1 else j.status
    let posted := p.setJob j.id (fun j => { j with posted := true, status })
    (∀ q, statusWrite os j status posted = .ok ((), q) → p.postStatus os j = q) ∧ (statusWrite os j status posted = .error .wait → p.postStatus os j = p) ∧
      ∀ n, statusWrite os j status posted = .error (.status n) → p.postStatus os j = posted) ∧
  (∀ (p : Package) os j status x pa p₁, engAccess os j j.cardVa .store p = .ok ((x, pa, none), p₁) → x.pod = false →
    dominates (p₁.maskOf (p₁.homeLabel (granuleOf pa))) j.mask = true → ∃ q, ∃ y : Write, ∃ b : Byte, statusWrite os j status p = .ok ((), q) ∧
      q.writes = p₁.writes ++ [y] ∧ y.cells = [(pa + 1, b)] ∧ y.acc = j.id ∧ y.wct = none ∧ b.toNat % 16 = status % 16 ∧
      b.toNat / 16 = (p₁.byteUnder p₁.arrived (pa + 1)).toNat / 16 ∧ q.mem = p₁.mem)

/-- The records of a tide complete. MERGE_RECORD_ACCEPT takes a record of step N or N+1 into the buffer of its step, then into the spill area, where it
can be read, and refuses it with OVERFLOW, which LOST counts, when neither has room or the label table has none. BULK_WRITE_ACCEPT writes the shadow half of its page at once, the
first write of a step after the live half has been copied there, or keeps a write of step N+1 until the apply, in a half that has room, and refuses it with OVERFLOW when none has.
Each answers its sender, with CONFLICT where the write completes one. RECORD_ACK counts an acknowledgement of a record or a bulk write, and its causes for the step of the write; a
refused contribution ends its job with LABEL_FULL; a bulk write of a step that has aborted is discarded with it (R274, R275, R276, R279, R280, R283,
R286, R287, R483, R131). That a bulk write takes one unit for each 32 bytes, that it goes into the half in which it fits, and that a refused one counts one in
LOST (assumption 74), is the model's choice. -/
def Obligations.TideRecordsAreAccepted : Prop :=
  (∀ s k m r acc x t, s.here.inboxAt k = some m → m.msg = .record r acc → s.here.world? m.world = some x → x.tide = some t →
    (r.step = t.step ∨ r.step = (t.step + 1) % 2 ^ 32) →
    ∃ overflow conflict p, (s.here.dropInbox k).acceptMerge x t r = (overflow, conflict, p) ∧
      Answers (.mergeRecordAccept k) s (p.send m.src m.world (.ack acc r.step overflow conflict))) ∧
  (∀ (p : Package) x t r lbl p₁, p.labelFor r.mask = some (lbl, p₁) → r.step = t.step →
    let a : MergeRec := { r with lbl, ord := t.recs.length + t.spill.length }
    (t.recs.length < x.halfRecords → p.acceptMerge x t r = (false, a.conflicts (t.recs ++ t.spill),
      p₁.setTide x.id (fun t => { t with recs := t.recs ++ [a] }))) ∧
    (x.halfRecords ≤ t.recs.length → t.spill.length < x.halfSpill → p.acceptMerge x t r = (false, a.conflicts (t.recs ++ t.spill),
      (p₁.spillWrite x a t.spill.length).setTide x.id (fun t => { t with spill := t.spill ++ [a] }))) ∧
    (x.halfRecords ≤ t.recs.length → x.halfSpill ≤ t.spill.length →
      p.acceptMerge x t r = (true, false, p.setTide x.id (fun t => { t with lost := t.lost + 1 })))) ∧
  (∀ (p : Package) x t r lbl p₁, p.labelFor r.mask = some (lbl, p₁) → r.step ≠ t.step →
    let a : MergeRec := { r with lbl, ord := t.nextRecs.length + t.nextSpill.length }
    let n := t.nextRecs.length + t.bulkUnits false
    let m := t.nextSpill.length + t.bulkUnits true
    (n < x.halfRecords → p.acceptMerge x t r = (false, a.conflicts (t.nextRecs ++ t.nextSpill),
      p₁.setTide x.id (fun t => { t with nextRecs := t.nextRecs ++ [a] }))) ∧
    (x.halfRecords ≤ n → m < x.halfSpill → p.acceptMerge x t r = (false, a.conflicts (t.nextRecs ++ t.nextSpill),
      (p₁.spillWrite x a t.nextSpill.length).setTide x.id (fun t => { t with nextSpill := t.nextSpill ++ [a] }))) ∧
    (x.halfRecords ≤ n → x.halfSpill ≤ m → p.acceptMerge x t r = (true, false, p.setTide x.id (fun t => { t with nextLost := t.nextLost + 1 })))) ∧
  (∀ (p : Package) x t r, p.labelFor r.mask = none → p.acceptMerge x t r = (true, false, p.setTide x.id (fun y =>
    if r.step = t.step then { y with lost := y.lost + 1 } else { y with nextLost := y.nextLost + 1 }))) ∧
  (∀ (p : Package) x r n, p.wf = true → x.spillBase ≠ 0 →
    (p.spillWrite x r n).readPa (x.spillBase + r.step % 2 * (x.spillUnits * 2 ^ 20) + 32 * n) 32 = r.bits % 2 ^ 256) ∧
  (∀ s k m b job x t, s.here.inboxAt k = some m → m.msg = .bulk b job → s.here.world? m.world = some x → x.tide = some t →
    (b.step = t.step ∨ b.step = (t.step + 1) % 2 ^ 32) →
    ∃ overflow conflict p, (s.here.dropInbox k).acceptBulk x t b = (overflow, conflict, p) ∧
      Answers (.bulkWriteAccept k) s (p.send m.src m.world (.ack job b.step overflow conflict))) ∧
  (∀ (p : Package) x t b lbl p₁, p.labelFor b.mask = some (lbl, p₁) →
    let n := (b.data.length + 31) / 32
    (b.step = t.step → t.state ≠ .closing ∨ t.status = 0 → p.acceptBulk x t b = (false, p₁.writeShadow x b)) ∧
    (b.step = t.step → t.state = .closing → t.status ≠ 0 → p.acceptBulk x t b = (false, false, p₁)) ∧
    (b.step ≠ t.step → t.nextRecs.length + t.bulkUnits false + n ≤ x.halfRecords → p.acceptBulk x t b = (false, b.clashes t.nextBulk,
      p₁.setTide x.id (fun t => { t with nextBulk := t.nextBulk ++ [{ b with spill := false }] }))) ∧
    (b.step ≠ t.step → x.halfRecords < t.nextRecs.length + t.bulkUnits false + n → t.nextSpill.length + t.bulkUnits true + n ≤ x.halfSpill →
      p.acceptBulk x t b = (false, b.clashes t.nextBulk,
        p₁.setTide x.id (fun t => { t with nextBulk := t.nextBulk ++ [{ b with spill := true }] }))) ∧
    (b.step ≠ t.step → x.halfRecords < t.nextRecs.length + t.bulkUnits false + n → x.halfSpill < t.nextSpill.length + t.bulkUnits true + n →
      p.acceptBulk x t b = (true, false, p.setTide x.id (fun t => { t with nextLost := t.nextLost + 1 })))) ∧
  (∀ (p : Package) x b, p.wf = true → let h := x.shadowOf b.page b.size
    let q := (p.writeShadow x b).2
    h.size = b.size → b.off + b.data.length ≤ b.size →
    (∀ i < b.data.length, q.byteAt (h.shadowHalf + b.off + i) = b.data.getD i 0) ∧
    (∀ a, a < h.shadowHalf ∨ h.shadowHalf + b.size ≤ a → q.byteAt a = p.byteAt a) ∧
    (∀ i < b.size, i < b.off ∨ b.off + b.data.length ≤ i →
      q.byteAt (h.shadowHalf + i) = p.byteAt ((if h.writer = none then h.liveHalf else h.shadowHalf) + i))) ∧
  (∀ s k m acc step o c, s.here.inboxAt k = some m → m.msg = .ack acc step o c →
    Answers (.recordAck k) s ((((s.here.dropInbox k).setAcc acc (fun a => { a with op := a.op.ackOne })).setJob acc (fun j => { j with left := j.left - 1 })).setTide
      m.world (fun t => { t with unacked := t.unacked - 1 }.blame step o c))) ∧
  (∀ (t : Tide) o c, (t.blame t.step o c).causes = t.causes.add t.me o c false ∧ (t.blame t.step o c).nextCauses = t.nextCauses ∧
    (t.step < 2 ^ 32 → (t.blame ((t.step + 1) % 2 ^ 32) o c).nextCauses = t.nextCauses.add t.me o c false ∧
      (t.blame ((t.step + 1) % 2 ^ 32) o c).causes = t.causes)) ∧
  (∀ s k m job, s.here.inboxAt k = some m → m.msg = .refused job →
    Answers (.recordAck k) s ((s.here.dropInbox k).setJob job (fun j => { j with done := true, status := if j.status = 0 then 4 else j.status })))

/-- The states of a step. PACKAGE_ARRIVE reports a package whose tide-bound teams have arrived and whose records are acknowledged; a combiner, and then
the root, gathers the reports, and the release goes back, once the members reach one another or one was reset; on COMPLETE the package applies its records, on an abort it
discards them and drops its copies of pod lines; APPLY_DONE drops the copies of pod lines but those delivered for the next step; TIDE_CLOSE, once no page is to move, writes the result word for the threads that wait,
lets the XPERMs of the step complete, and starts the next step with the records that waited; after ABORT_RESET the domain is over, and records of its last step accepted since count in LOST
(R281, R282, R284, R286, R287, R271, R308, R317). That copies of the next step stay at the apply (assumption 110), and that a copy of a commons page
goes as one of the world does (assumption 109), is the model's choice. -/
def Obligations.TideStepsComplete : Prop :=
  (∀ s world t, s.here.tideOf world = some t → t.state = .running → s.here.mayArrive world t = true →
    Answers (.packageArrive world) s ((s.here.send (t.physOf (t.combiner t.me)) world (.arrive t.me false t.step t.causes)).setTide world
      (fun t => { t with state := .arrived }))) ∧
  (∀ s k m who step c x t, s.here.inboxAt k = some m → m.msg = .arrive who false step c → s.here.world? m.world = some x → x.tide = some t →
    let members := adjoin who t.members
    let all := ∀ j < t.size, t.groups.getD j 0 = t.groups.getD t.me 0 → j ∈ members
    (all → Answers (.arrivalMessage k) s (((s.here.dropInbox k).setTide m.world (fun t => { t with members := [], merged := Causes.none })).send
      (t.physOf 0) m.world (.arrive t.me true step (t.merged.join c)))) ∧
    (¬all → Answers (.arrivalMessage k) s ((s.here.dropInbox k).setTide m.world (fun t => { t with members, merged := t.merged.join c })))) ∧
  (∀ s k m who step c x t, s.here.inboxAt k = some m → m.msg = .arrive who true step c → s.here.world? m.world = some x → x.tide = some t →
    let roots := adjoin who t.roots
    let all := ∀ j ∈ t.combiners, j ∈ roots
    let merged := t.rootMerged.join c
    (all → s.here.allReachable s.others m.world t = true ∨ merged.reset ≠ none → ∃ q, Answers (.arrivalMessage k) s q ∧
      q = t.combiners.foldl (fun p j => p.send (t.physOf j) m.world (.release true step merged.status.1 merged.status.2))
        ((s.here.dropInbox k).setTide m.world (fun t => { t with roots := [], rootMerged := Causes.none, rootStep := (t.rootStep + 1) % 2 ^ 32 }))) ∧
    (all → s.here.allReachable s.others m.world t = false → merged.reset = none → Answers (.arrivalMessage k) s s.here) ∧
    (¬all → Answers (.arrivalMessage k) s ((s.here.dropInbox k).setTide m.world (fun t => { t with roots, rootMerged := merged })))) ∧
  (∀ s k m step st og t, s.here.inboxAt k = some m → m.msg = .release false step st og → s.here.tideOf m.world = some t → t.state = .arrived →
    step = t.step →
    (st = 0 → Answers (.releaseMessage k) s (((s.here.dropInbox k).applyTide m.world t).setTide m.world
      (fun t => { t with state := .applying, status := st, origin := og, lost := 0, recs := [], spill := [] }))) ∧
    (st ≠ 0 → ∃ q, Answers (.releaseMessage k) s q ∧ sameStore s.here q ∧
      (∀ l ∈ q.lines, ∀ c ∈ l.copies, c.pod = true → c.world ≠ m.world ∧ c.world ≠ 63) ∧ ∀ y, q.tideOf m.world = some y →
      y = { t with state := .closing, status := st, origin := og, lost := t.lost + t.recs.length + t.spill.length, recs := [], spill := [] })) ∧
  (∀ (p : Package) world t r, t.recs ++ t.spill = [r] → (p.applyTide world t).mem = ((p.setWorld world World.flip).applyRec world r).mem) ∧
  (∀ s k m step st og t, s.here.inboxAt k = some m → m.msg = .release true step st og → s.here.tideOf m.world = some t →
    Answers (.releaseMessage k) s (((List.range t.size).filter (fun j => t.groups.getD j 0 == t.groups.getD t.me 0)).foldl
      (fun p j => p.send (t.physOf j) m.world (.release false step st og)) (s.here.dropInbox k))) ∧
  (∀ s world t, s.here.tideOf world = some t → t.state = .applying → ∃ q, Answers (.applyDone world) s q ∧ sameStore s.here q ∧
    (∀ l ∈ q.lines, ∀ c ∈ l.copies, c.pod = true → c.world ≠ world ∧ c.world ≠ 63) ∧
    (∀ c ∈ q.pods, c.world = world → c.step = (t.step + 1) % 2 ^ 32) ∧ ∀ y, q.tideOf world = some y → y = { t with state := .closing }) ∧
  (∀ s world t, s.here.tideOf world = some t → t.state = .closing → t.status ≠ 3 → (∀ p ∈ s.here :: s.others, p.movesDue world t.step = false) →
    (∀ x, s.here.world? world = some x → x.resetting = false) →
    ∃ q, Answers (.tideClose world) s q ∧ (t.nextBulk = [] → q.mem = s.here.mem) ∧ (∀ y, q.tideOf world = some y → y.step = (t.step + 1) % 2 ^ 32 ∧
      y.state = .running ∧ y.causes = t.nextCauses ∧ y.nextCauses = Causes.none ∧ y.lost = t.nextLost ∧ y.nextLost = 0 ∧ y.recs = t.nextRecs ∧
      y.spill = t.nextSpill ∧ y.nextRecs = [] ∧ y.nextSpill = [] ∧ y.nextBulk = []) ∧
    (∀ a ∈ s.here.accs, ∀ tm d l, s.here.team? a.team = some tm → tm.world = world → a.op = .tide d l → a ∉ q.accs) ∧
    (t.nextBulk = [] → q.teams = ((s.here.dropPods world t.step).giveResults world t.discardLate.result).teams) ∧
    ∀ j ∈ s.here.jobs, j.world = world → j.kind = .xperm → j.step = t.step → j.opened = true →
      ∃ y ∈ q.jobs, y.id = j.id ∧ y.opened = false ∧ (t.status ≠ 0 → j.status = 0 → y.status = 8)) ∧
  (∀ (p : Package) world word a d l tm, p.accs = [a] → p.team? a.team = some tm → tm.world = world → a.op = .tide d l →
    (p.giveResults world word).teams = (((p.putVal ⟨a.team, a.lid⟩ d 2 word l).flagDone ⟨a.team, a.lid⟩ a.flag).setThread ⟨a.team, a.lid⟩
      (fun th => { th with arrived := false })).teams) ∧
  (∀ s world t, s.here.tideOf world = some t → t.state = .closing → t.status = 3 → (∀ p ∈ s.here :: s.others, p.movesDue world t.step = false) →
    ∃ q, Answers (.tideClose world) s q ∧ q.tideOf world = none ∧ ∀ y, q.world? world = some y → ∀ h ∈ y.shadows, h.writer = none) ∧
  (∀ t : Tide, t.result < 2 ^ 64 ∧ bitsOf 63 32 t.result = t.step % 2 ^ 32 ∧ bitsOf 31 30 t.result = t.status % 4 ∧ bitsOf 29 18 t.result = t.origin % 2 ^ 12 ∧
    (bitsOf 17 0 t.result = if t.status = 0 then 0 else min t.lost 262143) ∧
    (t.status ≠ 0 → bitsOf 17 0 t.discardLate.result = min (t.lost + t.recs.length + t.spill.length) 262143))

/-- MERGING AT THE APPLY: an element of 8 bytes, or each element of 4 bytes that the record's EMASK names, takes the value of its rule from its old value
and the record's: the sum, the signed lesser or greater, and, for elements of 4 bytes, the bits of either or of both; every byte outside the doubleword
stays. An element with records of HIGH or UNIQUE takes the value of the record of highest rank, one with records of LOW that of lowest rank, whatever the
order of their acceptance; one with records of SUM_F32 takes the old value with each record's added in ascending rank, rounded to nearest even each time
(R277, R278, R275, R272). -/
def Obligations.MergeRulesAtTheApply : Prop :=
  (∀ (p : Package) world r x, p.wf = true → p.world? world = some x → elemSize r.rule = 8 →
    (p.applyRec world r).readPa (x.liveAt r.pa) 8 = mergeValue r.rule 8 (p.readPa (x.liveAt r.pa) 8) r.val % 2 ^ 64 ∧
    ∀ a, a < x.liveAt r.pa ∨ x.liveAt r.pa + 8 ≤ a → (p.applyRec world r).byteAt a = p.byteAt a) ∧
  (∀ (p : Package) world r x, p.wf = true → p.world? world = some x → elemSize r.rule ≠ 8 →
    (∀ k < 2, (p.applyRec world r).readPa (x.liveAt r.pa + 4 * k) 4 =
      if r.emask.testBit k then mergeValue r.rule 4 (p.readPa (x.liveAt r.pa + 4 * k) 4) (bitsOf (32 * k + 31) (32 * k) r.val) % 2 ^ 32
      else p.readPa (x.liveAt r.pa + 4 * k) 4) ∧
    ∀ a, a < x.liveAt r.pa ∨ x.liveAt r.pa + 8 ≤ a → (p.applyRec world r).byteAt a = p.byteAt a) ∧
  (∀ old v, old < 2 ^ 64 → v < 2 ^ 64 → mergeValue 3 8 old v = (old + v) % 2 ^ 64 ∧ signed 64 (mergeValue 5 8 old v) = min (signed 64 old) (signed 64 v) ∧
    signed 64 (mergeValue 6 8 old v) = max (signed 64 old) (signed 64 v)) ∧
  (∀ old v, ∀ i, (mergeValue 7 4 old v).testBit i = (old.testBit i || v.testBit i) ∧ (mergeValue 8 4 old v).testBit i = (old.testBit i && v.testBit i)) ∧
  (∀ (p : Package) world t x r a k, p.wf = true → (p.setWorld world World.flip).world? world = some x → k < 2 → r ∈ t.recs ++ t.spill →
    (∀ y ∈ t.recs ++ t.spill, y.pa = a ∧ y.emask.testBit k = true ∧ y.rule = r.rule) →
    ((r.rule = 1 ∨ r.rule = 9) → (∀ y ∈ t.recs ++ t.spill, y ≠ r → y.rank < r.rank) →
      (p.applyTide world t).readPa (x.liveAt a + 4 * k) 4 = bitsOf (32 * k + 31) (32 * k) r.val) ∧
    (r.rule = 2 → (∀ y ∈ t.recs ++ t.spill, y ≠ r → r.rank < y.rank) →
      (p.applyTide world t).readPa (x.liveAt a + 4 * k) 4 = bitsOf (32 * k + 31) (32 * k) r.val)) ∧
  (∀ (p : Package) world t x r₁ r₂ a k, p.wf = true → (p.setWorld world World.flip).world? world = some x → k < 2 →
    t.recs ++ t.spill = [r₁, r₂] ∨ t.recs ++ t.spill = [r₂, r₁] → r₁.rank < r₂.rank →
    (∀ y ∈ t.recs ++ t.spill, y.pa = a ∧ y.emask.testBit k = true ∧ y.rule = 4) →
    (p.applyTide world t).readPa (x.liveAt a + 4 * k) 4 =
      (Fmt.f32.add .rne (Fmt.f32.add .rne (p.readPa (x.liveAt a + 4 * k) 4) (bitsOf (32 * k + 31) (32 * k) r₁.val)).1
        (bitsOf (32 * k + 31) (32 * k) r₂.val)).1 % 2 ^ 32)

/-! ### The fabric -/

/-- The events of links complete. PACKET_RECEIVE takes a packet that the fabric holds for this package exactly once, and its effect is that of its
kind: a load's answer reaches the load, a collective's header its live group (a packet of no live entry counts as stale), records and messages wait
for their own events. LANE_ERASURE declares the first failed lane of an electrical link an erasure; the second, or LINK_RETIRE, retires the link; each
reports to the system cores and loses no packet. LINK_RETIRE of a link without an erasure changes nothing. SLOT_START begins the next valid slot of an optical port when the slot in use has ended, and at
the start of a rotation the written entries take effect; SLOT_TABLE_WRITE keeps an entry for the next rotation, its values moved to the nearest bound
(R305, R306, R309, R314). -/
def Obligations.LinksCarryPackets : Prop :=
  (∀ s src seq m, s.net.find? (fun m => m.src == src && m.seq == seq && m.dst == s.here.phys) = some m → s.mayReceive m = true →
    exec (.packetReceive src seq) s = .next { s with
      here := s.here.receive m
      net := s.net.filter (fun y => !(y.src == src && y.seq == seq && y.dst == s.here.phys)) }) ∧
  (∀ (p : Package) m acc v k b line, m.msg = .loadResp acc v k b line →
    (p.receive m).accs = (p.setAcc acc (fun a => { a with op := a.op.answered v k b })).accs ∧
    (line = none → p.receive m = p.setAcc acc (fun a => { a with op := a.op.answered v k b }))) ∧
  (∀ (p : Package) m gid gen h, m.msg = .header gid gen h →
    (∀ g, p.groupFor gid gen = some g → p.collOver g h.seq = false → p.receive m = p.setGroup gid (fun g => { g with heads := g.heads ++ [h] })) ∧
    (p.groupFor gid gen = none → (p.receive m).groups = p.groups ∧ ∃ k, ((p.receive m).port k).stale = (p.port k).stale + 1)) ∧
  (∀ (p : Package) m r acc, m.msg = .record r acc → p.receive m = { p with inbox := p.inbox ++ [m] }) ∧
  (∀ s k, k < 31 → (s.here.port k).retired = false →
    ((s.here.port k).erasures = 0 → ∃ q, Answers (.laneErasure k) s q ∧ (q.port k).erasures = 1 ∧ (q.port k).retired = false ∧
      q.sys.ints.length = s.here.sys.ints.length + 1 ∧ q.inbox = s.here.inbox ∧ q.out = s.here.out) ∧
    ((s.here.port k).erasures = 0 → Answers (.linkRetire k) s s.here) ∧
    (1 ≤ (s.here.port k).erasures → ∀ x ∈ [Instr.laneErasure k, .linkRetire k], ∃ q, Answers x s q ∧ (q.port k).retired = true ∧
      (q.port k).erasures = (s.here.port k).erasures + 1 ∧ (q.port k).queue = (s.here.port k).queue ∧
      q.sys.ints.length = s.here.sys.ints.length + 1 ∧ q.inbox = s.here.inbox ∧ q.out = s.here.out)) ∧
  (∀ s k, 31 ≤ k → k < 39 → (s.here.port k).slotOver s.here.now = true →
    (∀ n, (s.here.port k).slot ≠ 0 → nextSlot (s.here.port k).slots (s.here.port k).slot = some n →
      ∃ q, Answers (.slotStart k) s q ∧ q.port k = { s.here.port k with slot := n.idx + 1, start := s.here.now, used := [] } ∧
        n ∈ (s.here.port k).slots ∧ n.v = true) ∧
    ((s.here.port k).slot = 0 ∨ nextSlot (s.here.port k).slots (s.here.port k).slot = none →
      ∀ ss, ss = (if (s.here.port k).pending = [] then (s.here.port k).slots else (s.here.port k).pending) →
        (validSlots ss = [] → ∃ q, Answers (.slotStart k) s q ∧ q.port k = { s.here.port k with slots := ss, pending := [], slot := 0 }) ∧
        ∀ n ns, validSlots ss = n :: ns → ∃ q, Answers (.slotStart k) s q ∧
          q.port k = { s.here.port k with slots := ss, pending := [], slot := n.idx + 1, start := s.here.now, used := [] } ∧ n ∈ ss ∧ n.v = true)) ∧
  (∀ s k i dest guard len v, 31 ≤ k → k < 39 → i < 64 → ∃ q e, Answers (.slotTableWrite k i dest guard len v) s q ∧ e ∈ (q.port k).pending ∧ e.idx = i ∧
    e.dest = dest % 4096 ∧ e.v = v ∧ 100 ≤ e.guard ∧ e.guard ≤ 65535 ∧ (100 ≤ guard → guard ≤ 65535 → e.guard = guard) ∧ 1000 ≤ e.len ∧ e.len ≤ 16777215 ∧
    (1000 ≤ len → len ≤ 16777215 → e.len = len) ∧ (q.port k).slots = (s.here.port k).slots)

/-- The commands of the fabric complete. CIRCUIT_CHANGE quiesces on every package the peers concerned, those that it names and those whose reachability an
entry of the package's tables changes, and sends each a drain marker; when every marker of every package is acknowledged the circuits go dark, and not
before; RELOCK installs the new tables and ends the command on every package whose circuits are dark. A tug's download with both signatures installs its
firmware when no collective is on the tug; a tug's fault is reported. GROUP_TABLE_CHANGE makes an id live under a generation whose USED bit is clear, with
its members written at MLIST, or free; DRAIN_ROUND sends markers from every member to every other and, when all of all members are acknowledged, keeps the
USED bit of the current generation alone, on every member (R311 to R314). That a command runs while no other circuit change does is the model's choice
(assumption 137), and so are the tables that quiesce a peer (assumption 89), and that a group made live counts from sequence 0 with MLIST written by the
command (assumption 72). -/
def Obligations.FabricCommandsComplete : Prop :=
  (∀ s pairs tables, (∀ q ∈ s.here :: s.others, q.circuit = none) → s.here.journalRoom systemQueue = true →
    ∃ t, exec (.circuitChange pairs tables) s = .next t ∧ t = { s with here := t.here, others := t.others } ∧
      QuiescedBy pairs tables s.here t.here ∧ t.others.length = s.others.length ∧
      ∀ (k : Nat) p, s.others[k]? = some p → ∃ q, t.others[k]? = some q ∧ QuiescedBy pairs tables p q) ∧
  (∀ s, (∀ q ∈ s.here :: s.others, ∀ c, q.circuit = some c → c.peers = []) →
    exec .drainMarkerAck s = .next { s with here := darkened s.here, others := s.others.map darkened }) ∧
  (∀ s, (∃ q ∈ s.here :: s.others, ∃ c, q.circuit = some c ∧ c.peers ≠ []) → exec .drainMarkerAck s = .next s) ∧
  (∀ s, exec .relock s = .next { s with here := s.here.relock, others := s.others.map Package.relock }) ∧
  (∀ (p : Package), (∀ c, p.circuit = some c → c.dark = false) → p.relock = p) ∧
  (∀ (p : Package) c, p.circuit = some c → c.dark = true → p.relock.circuit = none ∧ sameStore p p.relock ∧
    ∀ w l n x, p.relock.world? w = some x →
      (c.tables = [(w, l, n + 1)] → ∃ y ∈ x.peers, y.logical = l ∧ y.phys = n ∧ y.state = .reachable) ∧
      (c.tables = [(w, l, 0)] → ∃ y ∈ x.peers, y.logical = l ∧ y.state = .absent)) ∧
  (∀ s k v, k < 40 → s.here.journalRoom systemQueue = true → s.here.collsInFlight = [] →
    ∃ q, Answers (.tugFirmwareDownload k v true true) s q ∧ (q.port k).firmware = v) ∧
  (∀ s k v ed ml, k < 40 → s.here.journalRoom systemQueue = true → (ed && ml) = false →
    ∃ q, Answers (.tugFirmwareDownload k v ed ml) s q ∧ q.ports = s.here.ports ∧ ∃ e ∈ q.journal, e.queue = systemQueue ∧ e.detail = 11) ∧
  (∀ s k, k < 40 → ∃ q, Answers (.tugFault k) s q ∧ q.sys.ints.length = s.here.sys.ints.length + 1 ∧ sameStore s.here q ∧
    q.jobs.length = s.here.jobs.length ∧ ∀ j ∈ q.jobs, j ∈ s.here.jobs ∨ j.done = true ∧ j.status ≠ 0) ∧
  (∀ s i gen rank world mlist ms, groupFits i gen rank world mlist ms = true → ms ≠ [] → s.here.journalRoom systemQueue = true →
    s.here.mayPlace 0 (memberList mlist ms) = true →
    ((s.here.groupOr i).used.testBit gen = false → ∃ q, Answers (.groupTableChange i gen rank world (mlist, ms)) s q ∧
      (∃ g ∈ q.groups, g.id = i ∧ g.state = 1 ∧ g.gen = gen ∧ g.seq = 0 ∧ g.rank = rank ∧ g.world = world ∧ g.members = ms ∧ g.mlist = mlist ∧
        g.used = (s.here.groupOr i).used ||| 2 ^ gen) ∧
      ∀ j m, ms[j]? = some m → ∃ y ∈ q.writes, y.kind = .engine ∧ y.wct.isSome = true ∧ ∀ c ∈ cellsOf (mlist + 2 * j) 2 m, c ∈ y.cells) ∧
    ((s.here.groupOr i).used.testBit gen = true → ∃ q, Answers (.groupTableChange i gen rank world (mlist, ms)) s q ∧ q.groups = s.here.groups ∧
      q.writes = s.here.writes ∧ ∃ e ∈ q.journal, e.queue = systemQueue ∧ e.detail = 14)) ∧
  (∀ s i gen rank world mlist, groupFits i gen rank world mlist [] = true → s.here.journalRoom systemQueue = true →
    ∃ q, Answers (.groupTableChange i gen rank world (mlist, [])) s q ∧ ∃ g ∈ q.groups, g.id = i ∧ g.state = 0 ∧ g.used = (s.here.groupOr i).used) ∧
  (∀ (p : Package) i, (∃ g ∈ (p.startDrain i).groups, g.id = i ∧ g.acks = p.phys :: p.otherMembers (p.groupOr i)) ∧
    (∀ k ∈ p.otherMembers (p.groupOr i), ∃ m ∈ (p.startDrain i).out, m.dst = k ∧ m.msg = .drain i) ∧
    ∃ g ∈ (p.endDrain i).groups, g.id = i ∧ g.acks = [] ∧ g.used = (p.groupOr i).used &&& 2 ^ (p.groupOr i).gen) ∧
  (∀ s i ks, s.here.otherMembers (s.here.groupOr i) = ks →
    ((s.here.groupOr i).acks = [] → (s.here.groupOr i).used ≠ 0 → exec (.drainRound i) s = .next { s with
      here := s.here.startDrain i, others := s.others.map (fun q => if q.phys ∈ ks then q.startDrain i else q) }) ∧
    ((s.here.groupOr i).acks = [s.here.phys] → (∀ q ∈ s.others, q.phys ∈ ks → (q.groupOr i).acks = [q.phys]) → exec (.drainRound i) s = .next { s with
      here := s.here.endDrain i, others := s.others.map (fun q => if q.phys ∈ ks then q.endDrain i else q) }) ∧
    ((s.here.groupOr i).acks ≠ [] → ((s.here.groupOr i).acks ≠ [s.here.phys] ∨ ∃ q ∈ s.others, q.phys ∈ ks ∧ (q.groupOr i).acks ≠ [q.phys]) →
      exec (.drainRound i) s = .next s))

/-! ### System commands and services -/

/-- The commands that start work and change keys and spaces complete. LAUNCH_COMMAND has the loader place the image, where the frames of the image are ones
that it may write for the world, and accepts a record that passes R36 into a queue with room, as the creator of depth 0 without parent; it journals the first
failing check of another record, DETAIL 8 where the world has no such queue, and does no more than report a label table that is full. An accepted record is
journaled accepted and has a grid, and is written into the ring of its queue, by the system cores with a WCT for a command, by the queue itself for LAUNCH and
CONT. KEY_ROTATION puts the key into slot 1 - E, and KEY_SWEEP_LINE turns the epoch of a line's sectors and erases the old key after the last
frame; SPACE_ID_BINDING binds an id whose flush has completed and refuses another; SHOOTDOWN invalidates the range in every core and walk cache and
advances the epoch of each core, and SHOOTDOWN_DRAIN_DONE ends the command when no access of an earlier epoch is outstanding, and waits otherwise (R13,
R36, R39, R479, R484, R210, R218, R219). The model's choice: that a full label table launches nothing (assumption 113), and neither does an image in frames
of another tenant world (assumption 132); that rejected launches are journaled in queue 64 + world (assumption 64), with a REF and a wish for notice that
the spec does not give (assumption 131); that an identifier never bound needs a flush too (assumption 79). -/
def Obligations.CommandsComplete : Prop :=
  (∀ s world queue r bound im x, placementFits im = true → s.here.world? world = some x →
    (s.here.mayPlace world im = false → Answers (.launchCommand world queue r bound im) s s.here) ∧
    (s.here.mayPlace world im = true → s.here.systemWrite im = none → Answers (.launchCommand world queue r bound im) s s.here.labelsFull) ∧
    ∀ wct p, s.here.mayPlace world im = true → s.here.systemWrite im = some (wct, p) →
      (x.quay? queue = none → Answers (.launchCommand world queue r bound im) s (p.commandAdd (64 + world) 8 1 world 4).2) ∧
      ∀ q y, x.quay? queue = some q → p.quay? q = some y → ∀ ok fs,
        (ok = true ↔ recKdesc r % 64 = 0 ∧ ∃ a, p.peekPa x.space (recKdesc r) = some a ∧ descValid (p.placedRead im a.1 64) = true) →
        p.recordFaults r world (p.maskOf x.launchCeil) ok = fs →
        (∀ d b more, fs = (d, b) :: more → Answers (.launchCommand world queue r bound im) s (p.commandAdd (64 + world) d 1 world 4).2) ∧
        (fs = [] → p.quayRoom q = true → ∀ r' at_ p₁, r' = setBits 191 128 0 (setBits 399 396 0 r) →
          p.systemWrite (recordAt y.tailPa r') = some (at_, p₁) →
          Answers (.launchCommand world queue r bound im) s (({ p₁ with draws := p₁.draws + 1 }).acceptRecord q r' world
            (Config.commandRef p₁.draws) (Config.asksNotice p₁.draws) none bound (max wct at_)))) ∧
  (∀ (p : Package) m, m.labels = [] → ∃ wct q, p.systemWrite m = some (wct, q) ∧ sameStore p q ∧ ∀ c ∈ m.bytes,
    ∃ y ∈ q.writes, y.kind = .engine ∧ y.line = lineOf c.1 ∧ c ∈ y.cells ∧ ∃ t, y.wct = some t ∧ p.now < t ∧ t ≤ wct) ∧
  (∀ (p : Package) k r world ref notice parent bound ready x q, p.quay? k = some x → recCbound r = false →
    p.acceptRecord k r world ref notice parent bound ready = q → ∃ g, q.grids = p.grids ++ [g] ∧
    g.id = p.nextId ∧ g.record = r ∧ g.world = world ∧ g.queue = k ∧ g.slot = x.tail ∧ g.next = recNext r ∧ g.left = recLeft r ∧ g.parent = parent ∧
    g.queued = true ∧ g.tideBound = bound ∧ g.ready = ready ∧ q.quay? k = some { x with items := x.items ++ [p.nextId], tail := x.tail + 1 } ∧
    sameStore p q ∧ ∃ e ∈ q.journal, e.queue = k ∧ e.seq = g.journal ∧ e.state = 0 ∧ e.ref = ref ∧ e.world = world ∧ e.notice = notice) ∧
  (∀ (p : Package) k r world ref parent bound x, p.quay? k = some x →
    p.pushRecord k r world ref parent bound = (p.poke x.tailPa 64 r).acceptRecord k r world ref false parent bound p.now ∧
    (p.wf = true → (p.pushRecord k r world ref parent bound).readPa (x.base + 64 * (x.tail % x.cap)) 64 = r % 2 ^ 512)) ∧
  (∀ s world key x, s.here.world? world = some x → s.here.journalRoom systemQueue = true → x.sweep = none → ∃ q y, Answers (.keyRotation world key) s q ∧
    q.world? world = some y ∧ y.keys = x.keys.set (1 - x.epoch) (some key) ∧ y.epoch = 1 - x.epoch ∧ y.sweep = some 0 ∧ sameStore s.here q) ∧
  (∀ s world x ptr, s.here.world? world = some x → x.sweep = some ptr →
    (s.here.nextFrame world (ptr / 1024) = none → ∃ q y, Answers (.keySweepLine world) s q ∧ q.world? world = some y ∧ y.sweep = none ∧
      y.keys = x.keys.set (1 - x.epoch) none) ∧
    (∀ f, s.here.nextFrame world (ptr / 1024) = some f → x.epoch ≤ 1 → ∃ q y, Answers (.keySweepLine world) s q ∧ q.world? world = some y ∧ sameStore s.here q ∧
      (let line := if f = ptr / 1024 then ptr else 1024 * f
       y.sweep = some (line + 1) ∧ (2 * line ∈ q.epochs ↔ x.epoch = 1) ∧ (2 * line + 1 ∈ q.epochs ↔ x.epoch = 1)))) ∧
  (∀ s id gen root world, s.here.journalRoom systemQueue = true → id < 65536 →
    (s.here.flushedSpace id = true →
      ∃ q, Answers (.spaceIdBinding id gen root world) s q ∧ ∃ y ∈ q.spaces, y.id = id ∧ y.gen = gen % 256 ∧ y.root = root ∧ y.world = world) ∧
    (s.here.flushedSpace id = false →
      ∃ q, Answers (.spaceIdBinding id gen root world) s q ∧ q.spaces = s.here.spaces ∧ ∃ e ∈ q.journal, e.queue = systemQueue ∧ e.detail = 10)) ∧
  (∀ s space lo n, s.here.journalRoom systemQueue = true → ∃ q x, Answers (.shootdown space lo n) s q ∧ q.shoots = s.here.shoots ++ [x] ∧ x.space = space ∧
    x.lo = lo ∧ x.pages = n ∧
    (∀ c ∈ q.cores, (∀ t ∈ c.tlb, t.space = space → t.inRange lo n = false) ∧ ∀ l ∈ c.lanes, l.2.space = space → l.2.inRange lo n = false) ∧
    (∀ l ∈ q.walks, l.space = space → l.inRange lo n = false) ∧ (∀ k < 160, (q.coreOr k).epoch = (s.here.coreOr k).epoch + 1) ∧
    (∀ a ∈ s.here.accs, (a.core, a.epoch) ∈ x.epochs) ∧ (∀ y ∈ s.here.writes, (y.core, y.epoch) ∈ x.epochs) ∧
    (∀ j ∈ s.here.jobs, (j.core, j.epoch) ∈ x.epochs) ∧ (∀ y ∈ s.here.releases, (y.core, y.epoch) ∈ x.epochs) ∧ ∃ e ∈ q.journal, e.queue = systemQueue ∧ e.seq = x.seq ∧ e.state = 1) ∧
  (∀ s k x, s.here.shoots.find? (fun x => x.seq == k) = some x →
    ((∀ e ∈ x.epochs, s.here.outstanding e.1 e.2 = false) →
      Answers (.shootdownDrainDone k) s (({ s.here with shoots := s.here.shoots.filter (fun y => y.seq != k) }).journalSet systemQueue k 2 0)) ∧
    ((∃ e ∈ x.epochs, s.here.outstanding e.1 e.2 = true) → Answers (.shootdownDrainDone k) s s.here))

/-- Worlds and resets complete. WORLD_CREATE makes a world of a legal description after a completed boot, while the worlds that it takes a manifest or a bank
from are suspended: its key is loaded, its manifests and banks leave
every other world, and the banks are empty; DOMAIN_FORM starts the domain of a suspended world at step 0, where the members stand in the world's peer table
under their numbers; WORLD_RESET kills the world's teams, completes its jobs ABORTED and ends
its grids; SCRUB writes zeros to the bytes of its frames and makes their labels public, with the writes of the system cores, and leaves the frames that it
excludes; SCRUB_RECEIPT gives the receipt once those writes are part of memory, for a world with steps 3 to 5 of its reset; PACKAGE_RESET reinitialises
the package, and DIE_RESET, once its teams are saved, the cores and banks of a die (R319, R321, R209, R267, R482, R266, R324 to R327). The model's choice:
that a world's table stays after its reset and worlds 0 and 63 stand after a boot (assumption 83), that a package reset keeps the journal and leaves memory
reading 0 (assumption 84), the order in which a scrub meets errors and what counts as one (assumption 81), and the fault beyond the memory
(assumption 91). -/
def Obligations.WorldsAndResetsComplete : Prop :=
  (∀ s (w : WorldSpec), s.here.sys.booted = true → s.here.sys.bootHalt = none → specOk w = true → (∀ tm ∈ s.here.teams, tm.world ≠ w.id) →
    (∀ g ∈ s.here.grids, g.world ≠ w.id) → (∀ j ∈ s.here.jobs, j.world ≠ w.id) →
    (∀ x, s.here.world? w.id = some x → x.resetting = false ∧ x.tide = none) →
    (∀ x ∈ s.here.worlds, x.id ≠ w.id → ((∃ e ∈ x.manifests, e.2 ∈ w.manifests) ∨ ∃ b ∈ x.banks, ∃ c ∈ w.banks, b.1 = c.1 ∧ b.2.2 = c.2.2) →
      s.here.suspended x.id = true) →
    ∃ q x, Answers (.worldCreate w) s q ∧ q.world? w.id = some x ∧ x.caps = BitVec.ofNat 128 w.caps ∧ x.debug = w.debug ∧ x.queues = w.queues ∧
      x.banks = w.banks ∧ x.clusters = w.clusters ∧ x.tide = none ∧ x.keys = [some (Config.worldKey w.id), none] ∧ x.epoch = 0 ∧
      (∀ k m, w.manifests[k]? = some m → (k, m) ∈ x.manifests) ∧
      (∀ b ∈ w.banks, ∀ z ∈ q.banks, ¬(z.cluster = b.1 ∧ z.phys = b.2.2)) ∧
      ∀ y ∈ q.worlds, y.id ≠ w.id → ∃ z ∈ s.here.worlds, y = { z with manifests := y.manifests, banks := y.banks } ∧
        (∀ m ∈ y.manifests, m ∈ z.manifests ∧ m.2 ∉ w.manifests) ∧ ∀ b ∈ y.banks, b ∈ z.banks ∧ ∀ c ∈ w.banks, ¬(b.1 = c.1 ∧ b.2.2 = c.2.2)) ∧
  (∀ s world ms gs x, s.here.world? world = some x → x.tide = none → x.resetting = false → s.here.suspended world = true → s.here.phys ∈ ms →
    ms.length = gs.length → ms.length ≤ 4096 → ms.Nodup → (∀ k m, ms[k]? = some m → ∃ y ∈ x.peers, y.logical = k ∧ y.phys = m) → ∃ q y t, Answers (.domainForm world ms gs) s q ∧ q.world? world = some y ∧ y.tide = some t ∧ t.size = ms.length ∧
      t.me = ms.idxOf s.here.phys ∧ t.phys = ms ∧ t.groups = gs ∧ t.step = 0 ∧ t.state = .running ∧ t.recs = [] ∧ t.unacked = 0) ∧
  (∀ s world x, s.here.world? world = some x → s.here.journalRoom systemQueue = true → x.resetting = false → ∃ q, Answers (.worldReset world) s q ∧
    (∀ tm ∈ q.teams, tm.world = world → tm.killed = true) ∧
    (∀ j ∈ q.jobs, j.world = world → j.posted = true ∨ j.done = true ∧ j.status = 6) ∧
    (∀ e ∈ q.journal, e.world = world → e.queue ∈ x.queues → e.terminal = true) ∧ (∀ g ∈ q.grids, g.world ≠ world) ∧ (∀ y, q.world? world = some y → y.resetting = true) ∧
    ∃ r ∈ q.sys.scrubs, r.world = world ∧ r.writes = none) ∧
  (∀ s lo n, 65536 * (lo + n) ≤ Config.memBytes → s.here.journalRoom systemQueue = true →
    ∃ q r ids, Answers (.scrub lo n) s q ∧ sameStore s.here q ∧ r ∈ q.sys.scrubs ∧ r.world = 0 ∧ r.nframes = n ∧ r.writes = some ids ∧
      r.excl = s.here.excluded (fun f => decide (lo ≤ f) && decide (f < lo + n)) ∧
      q.sys.retired = s.here.sys.retired ++ r.excl.filter (fun e => e.2 == 2) ∧
      ∀ f, lo ≤ f → f < lo + n → (∀ e ∈ r.excl, e.1 ≠ f) → ∃ y ∈ q.writes, y.id ∈ ids ∧ y.wct.isSome = true ∧ y.disc = some (65536 * f, 0) ∧
        y.cells = [] ∧ y.kind = .engine ∧ ∀ g, 2048 * f ≤ g → g < 2048 * (f + 1) → s.here.glabel g ≠ 0 → (g, 0) ∈ y.grow) ∧
  (∀ (p : Package) y page pte, p.wf = true → y.disc = some (page, pte) → y.kind = .engine → y.cells = [] →
    (∀ a, page ≤ a → a < page + 65536 → (p.commit y).byteAt a = 0) ∧
    (∀ a, a < page ∨ page + 65536 ≤ a → (p.commit y).byteAt a = p.byteAt a) ∧
    ∀ g, (∀ e ∈ y.grow, e.2 = 0) → (p.commit y).glabel g = if y.grow.any (fun e => e.1 == g) then 0 else p.glabel g) ∧
  (65536 * 6291456 = Config.memBytes ∧ ∀ s lo n, Config.memBytes < 65536 * (lo + n) → exec (.scrub lo n) s = .fault (.noSuchAddress (65536 * (lo + n)))) ∧
  (∀ s k r ids, s.here.sys.scrubs.find? (fun r => r.seq == k) = some r → r.writes = some ids →
    ((∃ y ∈ s.here.writes, y.id ∈ ids) → Answers (.scrubReceipt k) s s.here) ∧
    ((∀ y ∈ s.here.writes, y.id ∉ ids) → ∃ q y, Answers (.scrubReceipt k) s q ∧ q.sys.receipts = s.here.sys.receipts ++ [y] ∧ y.world = r.world ∧
      y.nframes = r.nframes - r.excl.length ∧ y.tstart = r.tstart ∧ y.tend = s.here.time ∧ y.excl = r.excl ∧ y.pkg = s.here.phys ∧
      (∀ z ∈ q.sys.scrubs, z.seq ≠ k) ∧ sameStore s.here q ∧
      (r.world ≠ 0 → (∀ o ∈ q.owners, o.2 ≠ r.world) ∧ ∀ x, q.world? r.world = some x → x.resetting = false))) ∧
  (∀ s k r x, s.here.sys.scrubs.find? (fun r => r.seq == k) = some r → r.writes = none → s.here.world? r.world = some x → s.here.resetReady x = true →
    ∃ q, Answers (.scrubReceipt k) s q ∧ (∀ e ∈ q.endorse, e.2.world ≠ x.id ∧ e.2.issuer ≠ x.id) ∧
      (∀ y, q.world? x.id = some y → y.keys = [none, none]) ∧ (∀ g ∈ q.grids, g.world ≠ x.id) ∧ ∃ z ∈ q.sys.scrubs, z.seq = k ∧ z.writes.isSome = true) ∧
  (∀ s k r x, s.here.sys.scrubs.find? (fun r => r.seq == k) = some r → r.writes = none → s.here.world? r.world = some x → s.here.resetReady x = false →
    Answers (.scrubReceipt k) s s.here) ∧
  (∀ s k r, s.here.sys.scrubs.find? (fun r => r.seq == k) = some r → r.writes = none → s.here.world? r.world = none →
    ∃ q y, Answers (.scrubReceipt k) s q ∧ q.sys.receipts = s.here.sys.receipts ++ [y] ∧ y.world = r.world ∧ ∀ z ∈ q.sys.scrubs, z.seq ≠ k) ∧
  (∀ s, ∃ q, Answers .packageReset s q ∧ q.mem = [] ∧ q.labels = [(0, 0)] ∧ q.teams = [] ∧ q.gangs = [] ∧ q.endorse = [] ∧ q.mans = [] ∧ q.banks = [] ∧ q.now = 0 ∧
    q.sys.flash = s.here.sys.flash ∧ q.sys.devFuse = s.here.sys.devFuse ∧ q.sys.keyId = s.here.sys.keyId ∧ (q.sys.booted = true → ∀ k < 4, (s.here.sys.image k).isSome) ∧
    q.worlds = (if q.sys.booted then [World.own 0, World.own 63] else []) ∧ ∀ e ∈ q.journal, e.terminal = true) ∧
  (∀ s die, (∀ tm ∈ s.here.teams, tm.occupies = true → ∀ c ∈ tm.cores, dieOfCore c ≠ die) → ∃ q, Answers (.dieReset die) s q ∧ sameStore s.here q ∧
    (∀ c ∈ q.cores, dieOfCore c.id = die → c = Core.reset c.id) ∧ (∀ b ∈ q.banks, dieOfCluster b.cluster ≠ die) ∧
    (∀ c ∈ q.pods, ∀ k, c.cluster = some k → dieOfCluster k ≠ die) ∧ (∀ l ∈ q.layouts, l.die ≠ die) ∧ ∀ l ∈ q.walks, l.die ≠ die)

/-- The services of the system cores complete: a report carries the nonce, the measurements and the state of the fuses; a dump omits the frames, teams, key
slots and snapshot contents of protected worlds and holds the others'; a debug request is granted by the flags alone; SNAPCTL keeps its reserved bits 0, and
the pin and a due SNAP latch the time and the state of the blocks, which read without what belongs to a protected world; shares are
written within their bounds; a bank changes its world in CACHE mode; a write of system software changes its table, field by field; the owner of a frame changes
only while the frame is unmapped and scrubbed; a page that its home asked to move stands at the new home and its entries name it; a memory fault marks the sector
or loses the label, and an address beyond the memory does not exist (R320,
R330 to R333, R447, R322, R196, R111, R194, R1, R211, R216). The model's choice: which duties of system software are conditions of an event (assumption 88),
the numbers of the debug requests (assumption 85), the fault beyond the memory (assumption 91), the label of a granule whose label was lost, at its new
home (assumption 124), the content of dumps and snapshots beyond what R331 and R333 list (assumption 138), and what becomes of a move for which there is no
frame or no label (assumption 140). -/
def Obligations.ServicesComplete : Prop :=
  (∀ s nonce world, ∃ q r, Answers (.attestationReport nonce world) s q ∧ q.sys.reports = s.here.sys.reports ++ [r] ∧ r.nonce = nonce % 2 ^ 512 ∧ r.mrs = s.here.sys.mrs ∧
    r.fuse = s.here.sys.devFuse ∧ r.keys = s.here.sys.keyId ∧ r.pkg = s.here.phys ∧ (world = 0 → r.world = none) ∧
    (∀ x, world ≠ 0 → s.here.world? world = some x → r.world = some (x.debug, x.caps))) ∧
  (∀ s f, ∃ q d, Answers (.crashDump f) s q ∧ q.sys.dumps = s.here.sys.dumps ++ [d] ∧ d.toFlash = f ∧
    (∀ o ∈ s.here.owners, o.1 ∈ d.omitted ↔ ∃ w, (o.1, w) ∈ s.here.owners ∧ ∃ x ∈ s.here.worlds, x.id = w ∧ x.isProtected = true) ∧
    (∀ c, c ∈ d.mem ↔ c ∈ s.here.mem ∧ ∀ x ∈ s.here.worlds, x.id = s.here.ownerOf c.1 → x.isProtected = false) ∧
    (∀ tm, tm ∈ d.teams ↔ tm ∈ s.here.teams ∧ ∀ x ∈ s.here.worlds, x.id = tm.world → x.isProtected = false) ∧
    (∀ e, e ∈ d.keys ↔ ∃ x ∈ s.here.worlds, e = (x.id, x.keys) ∧ ∀ y ∈ s.here.worlds, y.id = x.id → y.isProtected = false) ∧ d.snaps = s.here.snapRead) ∧
  (∀ (p : Package), p.snapRead.length = p.sys.snaps.length ∧ ∀ (k : Nat) x y, p.sys.snaps[k]? = some x → p.snapRead[k]? = some y →
    y.time = x.time ∧ y.sources = x.sources ∧
    (∀ tm, tm ∈ y.teams ↔ tm ∈ x.teams ∧ ∀ z ∈ p.worlds, z.id = tm.world → z.isProtected = false) ∧
    (∀ b, b ∈ y.banks ↔ b ∈ x.banks ∧ ∀ z ∈ p.worlds, z.id = b.1 → z.isProtected = false) ∧
    (∀ j, j ∈ y.jobs ↔ j ∈ x.jobs ∧ ∀ z ∈ p.worlds, z.id = j.world → z.isProtected = false) ∧
    ∀ a, a ∈ y.accs ↔ a ∈ x.accs ∧ ∀ tm ∈ x.teams, tm.id = a.team → ∀ z ∈ p.worlds, z.id = tm.world → z.isProtected = false) ∧
  (∀ s world kind x, s.here.world? world = some x → kind ≤ 2 → s.here.debugs x = false → ∃ q, Answers (.debugRequest world kind) s q ∧ q.teams = s.here.teams ∧
    q.sys = { s.here.sys with console := s.here.sys.console ++ [false] }) ∧
  (∀ s world x, s.here.world? world = some x → s.here.debugs x = true → ∃ q, Answers (.debugRequest world 0) s q ∧
    (∀ tm ∈ q.teams, tm.world = world → tm.ended = false → tm.residence ≠ .resident) ∧ q.sys.console = s.here.sys.console ++ [true]) ∧
  (∀ s world x, s.here.world? world = some x → s.here.debugs x = true → ∃ q d, Answers (.debugRequest world 2) s q ∧ q.teams = s.here.teams ∧
    q.sys.dumps = s.here.sys.dumps ++ [d] ∧ ∀ tm, tm ∈ d.teams ↔ tm ∈ s.here.teams ∧ tm.world = world) ∧
  (∀ s v, ∃ q, Answers (.snapctlWrite v) s q ∧ q = { s.here with sys := { s.here.sys with snapctl := q.sys.snapctl } } ∧
    ∀ k < 32, q.sys.snapctl.getLsbD k = (v.getLsbD k && (decide (k < 6) || decide (24 ≤ k)))) ∧
  (∀ s, s.here.sys.snapctl.getLsbD 2 = true → Answers .snapPin s (s.here.snapshot 0)) ∧
  (∀ s, (∃ t ∈ s.here.sys.snapAt, t ≤ s.here.now) → Answers .instrSnapshotLatch s
    (({ s.here with sys := { s.here.sys with snapAt := s.here.sys.snapAt.filter (fun t => decide (s.here.now < t)) } }).snapshot 1)) ∧
  (∀ (p : Package) src, p.sys.snapctl.getLsbD 0 = true → ∃ x, (p.snapshot src).sys.snaps = p.sys.snaps ++ [x] ∧ x.time = p.time ∧ x.sources = [src] ∧
    x.teams = p.teams ∧ x.gangs = p.gangs ∧ x.parts = p.parts ∧ x.cores = p.cores ∧ x.rounds = p.rounds ∧ x.accs = p.accs ∧ x.writes = p.writes ∧
    x.jobs = p.jobs ∧ x.mans = p.mans ∧ x.ports = p.ports ∧ x.banks.map (·.2) = p.banks ∧
    (p.snapshot src).sys.snapctl.getLsbD 0 = false ∧ (p.snapshot src).sys.ints.length = p.sys.ints.length + 1) ∧
  (∀ s world unit w x, s.here.world? world = some x →
    (1 ≤ w → w ≤ 255 → ∃ q y, Answers (.qosShareChange world 0 unit w) s q ∧ q.world? world = some y ∧ y.weight unit = w) ∧
    (1 ≤ w → w ≤ 255 → ∃ q y, Answers (.qosShareChange world 1 unit w) s q ∧ q.world? world = some y ∧ spFind y.memWeights unit = some w) ∧
    (w < 2 ^ 20 → ∃ q y, Answers (.qosShareChange world 2 unit w) s q ∧ q.world? world = some y ∧ spFind y.allowances unit = some w) ∧
    (w = 0 ∨ 255 < w → ∀ k < 2, Answers (.qosShareChange world k unit w) s s.here)) ∧
  (∀ s c b world l x, c < 40 → b < 32 → l < 32 → s.here.world? world = some x → s.here.suspended world = true →
    (∀ y ∈ s.here.worlds, (∃ z ∈ y.banks, z.1 = c ∧ z.2.2 = b) → s.here.suspended y.id = true) →
    ∃ q y, Answers (.bankTransfer c b world l) s q ∧ q.world? world = some y ∧ (c, l, b) ∈ y.banks ∧ (∀ z ∈ q.banks, z.cluster = c → z.phys ≠ b) ∧
      ∀ v ∈ q.worlds, v.id ≠ world → ∀ z ∈ v.banks, z.1 = c → z.2.2 ≠ b) ∧
  (∀ s w, lastByte w < Config.memBytes → (∀ a b c d e f, w ≠ .migrate a b c d e f) → (∀ f v, w ≠ .frame f v) →
    ∃ q, Answers (.sysTableWrite w) s q ∧ TableWritten s.here q w) ∧
  (∀ s world page size peer frame es, lastByte (.migrate world page size peer frame es) < Config.memBytes →
    (let here := s.here
     let run := exec (.sysTableWrite (.migrate world page size peer frame es)) s
     let gone := here.moves.filter (fun m => m != (world, page, peer))
     let moving := ∃ x, here.world? world = some x ∧ (world, page, peer) ∈ here.moves ∧ ∃ t, x.tide = some t ∧ (t.state = .applying ∨ t.state = .closing)
     let legal := (size = 2 ^ 16 ∨ size = 2 ^ 21 ∨ size = 2 ^ 30) ∧ frame % size = 0 ∧ page % size = 0
     (¬moving → run = .next s) ∧
     (moving → size = 0 → run = .next { s with here := { here with moves := gone } }) ∧
     (moving → size ≠ 0 → ¬legal → run = .next s) ∧
     ∀ x home q, moving → legal → here.world? world = some x → here.peerOf x false peer = (.reachable, home) → home ≠ here.phys →
       s.others.find? (fun q => q.phys == home) = some q →
       (s.freeFrames home frame size = false → run = .next s) ∧
       (s.freeFrames home frame size = true → here.wf = true → q.wf = true → spWf 0 q.owners = true → spWf (0 : BitVec 16) q.code = true →
         (∀ labels q₁, q.systemLabels ((here.pageImage page size).labels.map (fun g => (g.1, g.2.toNat))) = some (labels, q₁) →
           (es = [] → ∃ t q₂, run = .next t ∧ t.here.moves = gone ∧ sameStore here t.here ∧ t.others.find? (fun q => q.phys == home) = some q₂ ∧
             PageMoved world page size frame here q q₂) ∧
           ∀ e e' t, es = e ++ [e'] → exec (.sysTableWrite (.migrate world page size peer frame e)) s = .next t →
             run = .next (t.onPackage e'.1 (fun q => q.repoint e'.2 peer frame))) ∧
         (q.systemLabels ((here.pageImage page size).labels.map (fun g => (g.1, g.2.toNat))) = none → run = .next
           { s with here := { here with moves := gone }, others := s.others.map (fun y => if y.phys = home then y.labelsFull else y) })))) ∧
  (∀ (p : Package) pte peer frame, p.wf = true → peer < 4096 → frame % 65536 = 0 → frame < 2 ^ 48 →
    bitsOf 111 100 ((p.repoint pte peer frame).readPa pte 16) = peer ∧ 65536 * bitsOf 47 16 ((p.repoint pte peer frame).readPa pte 16) = frame ∧
    (∀ c ∈ (p.repoint pte peer frame).cores, (∀ t ∈ c.tlb, t.pte ≠ pte) ∧ ∀ l ∈ c.lanes, l.2.pte ≠ pte) ∧
    (∀ l ∈ (p.repoint pte peer frame).walks, l.pte ≠ pte) ∧
    ∀ a, a < pte ∨ pte + 16 ≤ a → (p.repoint pte peer frame).byteAt a = p.byteAt a) ∧
  (∀ s f world, 65536 * f < Config.memBytes →
    ((s.here.isScrubbed f = true ∧ ∀ q ∈ s.here :: s.others, q.mapsFrame s.here.phys f = false) →
      Answers (.sysTableWrite (.frame f world)) s { s.here with owners := spSet 0 s.here.owners f (world % 64) }) ∧
    ((s.here.isScrubbed f = false ∨ ∃ q ∈ s.here :: s.others, q.mapsFrame s.here.phys f = true) → Answers (.sysTableWrite (.frame f world)) s s.here)) ∧
  (∀ s a, a < Config.memBytes → (∃ q, Answers (.memoryFault a false) s q ∧ a / 32 ∈ q.bad ∧ sameStore s.here q) ∧
    (∃ q, Answers (.memoryFault a true) s q ∧ q.mem = s.here.mem ∧ q = s.here.setGlabel (a / 32) 0xFFFF#16)) ∧
  (∀ s a l, Config.memBytes ≤ a → exec (.memoryFault a l) s = .fault (.noSuchAddress a))

/-- A reset of a world frees every endorsement entry of it or by it, and a package reset frees all entries (R136). -/
def Obligations.ResetsFreeEndorsements : Prop :=
  (∀ (p : Package) x r, (p.clearWorld x r).endorse = p.endorse.filter (fun e => e.2.world != x.id && e.2.issuer != x.id)) ∧
  (∀ s k r x, s.here.sys.scrubs.find? (fun r => r.seq == k) = some r → r.writes = none → s.here.world? r.world = some x → s.here.resetReady x = true →
    Answers (.scrubReceipt k) s (s.here.clearWorld x r)) ∧
  (∀ s, ∃ q, Answers .packageReset s q ∧ q.endorse = [])

/-! ### The machine as a whole -/

/-- THE FRAME OF FORMS THAT COMPUTE: the forms of the vector pipes that write registers or predicates when they execute (the integer, logic and shift forms, LEA,
BFX, BFI, PRMB, ADDC, IABS, MOV, MOVL and SEL, the floating forms, TWOSUM, TWOPRD, CFMA, FRND, CVT, QPACK and QUNPK, the comparisons, PLOP and PMOV) change no
register, no predicate, no flag and no byte but those that the rules of their entries name, and CVT and QPACK the seed of their draws (R30, R79, R113, R149,
R22, R153). -/
def Obligations.RegisterFormsFrame : Prop :=
  (∀ o : Alu ITy,
    (∀ x ∈ [Instr.add o, .isub o, .imul o, .imin o, .imax o],
      ∃ val, Framed x (integerForm o val) (ComputeFrame ([dst o.d o.ty.regs, src o.a o.ty.regs] ++ srcB o.b o.ty.regs) [] false) ∧
        ∀ a b, ∃ v < 2 ^ (32 * o.ty.regs), val a b v) ∧
    (∃ val, Framed (.imad o) (threeSource o o.ty.regs o.ty.regs o.ty.regs (iExt o.ty) (iImm o.ty) val)
        (ComputeFrame ([dst o.d o.ty.regs, src o.a o.ty.regs] ++ srcB o.b o.ty.regs) [] false) ∧ ∀ d a b, ∃ v < 2 ^ (32 * o.ty.regs), val d a b v) ∧
    (∃ val, Framed (.bfx o) (twoSource o o.ty.regs o.ty.regs 1 (iExt o.ty) lImm val)
        (ComputeFrame ([dst o.d o.ty.regs, src o.a o.ty.regs] ++ srcB o.b 1) [] false) ∧ ∀ a b, ∃ v < 2 ^ (32 * o.ty.regs), val a b v) ∧
    Framed (.mov o) (movEffect o) (movFrame o)) ∧
  (∀ ty d (k : BitVec 14), Framed (.movl ty d k) (movlEffect ty d k) (ComputeFrame [dst d ty.regs] [] false)) ∧
  (∀ (wide : Bool) (o : Un Unit), ∃ val, Framed (.iabs wide o) (oneSource o (if wide then 2 else 1) .signed (iImm (if wide then .i64 else .i32)) val)
      (ComputeFrame (dst o.d (if wide then 2 else 1) :: srcB o.b (if wide then 2 else 1)) [] false) ∧
    ∀ a, ∃ v < 2 ^ (32 * if wide then 2 else 1), val a v) ∧
  (∀ o : Alu (BitVec 2), ∃ val, Framed (.lea o) (twoSource o 2 2 1 .unsigned (iImm .i32) val)
      (ComputeFrame ([dst o.d 2, src o.a 2] ++ srcB o.b 1) [] false) ∧ ∀ a b, ∃ v < 2 ^ 64, val a b v) ∧
  (∀ o : Alu LTy,
    (∀ x ∈ [Instr.and o, .andn o, .or o, .xor o],
      ∃ val, Framed x (logicForm o val) (ComputeFrame ([dst o.d o.ty.regs, src o.a o.ty.regs] ++ srcB o.b o.ty.regs) [] false) ∧
        ∀ a b, ∃ v < 2 ^ (32 * o.ty.regs), val a b v) ∧
    (∀ x ∈ [Instr.shl o, .shr o, .sar o, .rol o],
      ∃ val, Framed x (shiftForm o val) (ComputeFrame ([dst o.d o.ty.regs, src o.a o.ty.regs] ++ srcB o.b 1) [] false) ∧
        ∀ a b, ∃ v < 2 ^ (32 * o.ty.regs), val a b v) ∧
    (∃ val, Framed (.bfi o) (threeSource o o.ty.regs o.ty.regs 1 .unsigned lImm val)
        (ComputeFrame ([dst o.d o.ty.regs, src o.a o.ty.regs] ++ srcB o.b 1) [] false) ∧ ∀ d a b, ∃ v < 2 ^ (32 * o.ty.regs), val d a b v)) ∧
  (∀ o : Un LTy,
    (∀ x ∈ [Instr.popc o, .clz o, .brev o],
      ∃ val, Framed x (oneSource o o.ty.regs .unsigned lImm val) (ComputeFrame (dst o.d o.ty.regs :: srcB o.b o.ty.regs) [] false) ∧
        ∀ a, ∃ v < 2 ^ (32 * o.ty.regs), val a v) ∧
    ∀ sense c, Framed (.sel sense c o) (selEffect sense c o) (ComputeFrame (dst o.d o.ty.regs :: srcB o.b o.ty.regs) [] false)) ∧
  (∀ o : Alu Unit,
    (∀ x ∈ [Instr.twosum o, .twoprd o], ∃ f, Framed x (transform o f) (ComputeFrame ([dst o.d 2, src o.a 1] ++ srcB o.b 1) [] true)) ∧
    (∃ val, Framed (.prmb o) (twoSource o 1 2 1 .unsigned lImm val) (ComputeFrame ([dst o.d 1, src o.a 2] ++ srcB o.b 1) [] false) ∧
      ∀ a b, ∃ v < 2 ^ 32, val a b v) ∧
    (o.d.toNat ≤ 118 → Framed (.addc o) (addcEffect o) (ComputeFrame ([dst o.d 2, src o.a 1] ++ srcB o.b 1) [] false))) ∧
  (∀ o : Alu FTy,
    (∀ x ∈ [Instr.fadd o, .fmul o, .fmin o, .fmax o],
      ∃ f, Framed x (floatTwo o f) (ComputeFrame ([dst o.d o.ty.regs, src o.a o.ty.regs] ++ srcB o.b o.ty.regs) [] true)) ∧
    Framed (.ffma o) (ffmaEffect o) (ComputeFrame ([dst o.d o.ty.regs, src o.a o.ty.regs] ++ srcB o.b o.ty.regs) [] true)) ∧
  (∀ dir (o : Un FTy), Framed (.frnd dir o) (frndEffect dir o) (ComputeFrame (dst o.d o.ty.regs :: srcB o.b o.ty.regs) [] true)) ∧
  (∀ d a b, Framed (.cfma d a b) (cfmaEffect d a b) (ComputeFrame [dst d 2, src a 2, src b 2] [] true)) ∧
  (∀ (code : BitVec 7) (e : BitVec 2) (o : Un Unit),
    Framed (.cvt code e o) (cvtEffect code e o) (DrawFrame (dst o.d (cvtShape code e).nd :: srcB o.b (cvtShape code e).nb))) ∧
  (∀ d a b j, Framed (.qpack d a b j) (qpackEffect d a b j) (DrawFrame [dst d 1, src a 8, src b 1])) ∧
  (∀ d a b k j lit, Framed (.qunpk d a b k j lit) (qunpkEffect d a b k j lit) (ComputeFrame [dst d 2, src a 1, src b 1] [] false)) ∧
  (∀ o : CmpOp ITy, Framed (.cmp o) (cmpEffect o) (ComputeFrame (src o.a o.ty.regs :: srcB o.b o.ty.regs) [o.p] false)) ∧
  (∀ o : CmpOp Bool, Framed (.fcmp o) (fcmpEffect o)
    (ComputeFrame (src o.a (if o.ty then 2 else 1) :: srcB o.b (if o.ty then 2 else 1)) [o.p] true)) ∧
  (∀ pd pa pb (tt : BitVec 4), Framed (.plop pd pa pb tt) (plopEffect pd pa pb tt) (ComputeFrame [] [pd] false)) ∧
  (∀ d c, Framed (.pmov (.toReg d c)) (pmovToRegEffect d c) (ComputeFrame [dst d 1] [] false)) ∧
  (∀ c b lit, Framed (.pmov (.toPred c b lit)) (pmovToPredEffect c b lit) (ComputeFrame [src b 1] [c] false)) ∧
  (∀ d, Framed (.pmov (.save d)) (pmovSaveEffect d) (ComputeFrame [dst d 1] [] false)) ∧
  (∀ b lit, Framed (.pmov (.load b lit)) (pmovLoadEffect b lit) (ComputeFrame [src b 1] ((List.range 32).map (BitVec.ofNat 5)) false))

/-- THE FRAME OF MEMORY FORMS: LD, ST, ATOM, ATOMX, RED, LDS and STS write no register when they execute; they leave every byte of memory, in every package, as it is but
the entry of the page table in which the walker sets its bits; a store's or an atomic's write carries only bytes of its own operand, at the address
that the translation gives; and STS changes its own bytes of its bank alone (R101, R213, R228, R230, R342, R448, R451). -/
def Obligations.MemoryFormsFrame : Prop :=
  (∀ m : MemOp Width, LoadFramed m (fun os w p q => AccessFrame [dst m.d m.x.regs, src m.a 2] w p q ∧ q.writes = p.writes ∧
    ∀ x pa, loadPlace m os w p x pa → onlyWrites x pa 0 p q)) ∧
  (∀ (s : State) n, (s.here.accs.map (·.id)).Nodup → let t := s.recordRemote n
    t = { s with here := t.here, others := t.others } ∧ t.here = { s.here with accs := t.here.accs } ∧
    t.here.accs.map (fun a => { a with op := .store }) = s.here.accs.map (fun a => { a with op := .store }) ∧
    t.others.map (fun q => (q.phys, q.mem, q.glabels, q.labels, q.teams)) = s.others.map (fun q => (q.phys, q.mem, q.glabels, q.labels, q.teams))) ∧
  (∀ m : MemOp Width, FramedWith (.st m) (storeEffect m) (fun os w p q => AccessFrame [src m.d m.x.regs, src m.a 2] w p q ∧
    ((∃ th, p.thread? w = some th ∧ th.buffering = true) → q.mem = p.mem ∧ q.writes = p.writes) ∧
    ∀ x pa, storePlace .store m.x.regs m.d m.a m.off m.lit os w p x pa → onlyWrites x pa m.x.bytes p q)) ∧
  (∀ m : MemOp AtomOp, FramedWith (.atom m) (atomicEffect (.atom m.x) m.order m.scope m.policy m.d m.a m.off m.lit m.x.regs (m.x.bytes / 4))
    (fun os w p q => AccessFrame [dst m.d m.x.regs, src m.a 2] w p q ∧
      ∀ x pa, storePlace .atomic m.x.regs m.d m.a m.off m.lit os w p x pa → onlyWrites x pa m.x.bytes p q)) ∧
  (∀ m : MemOp AtomxOp, FramedWith (.atomx m) (atomicEffect (.atomx m.x) m.order m.scope m.policy m.d m.a m.off m.lit (if m.x = .cas then 8 else 4) 4)
    (fun os w p q => AccessFrame [dst m.d (if m.x = .cas then 8 else 4), src m.a 2] w p q ∧
      ∀ x pa, storePlace .atomic (if m.x = .cas then 8 else 4) m.d m.a m.off m.lit os w p x pa → onlyWrites x pa 16 p q)) ∧
  (∀ m : MemOp RedAt, FramedWith (.red m) (atomicEffect (.red m.x) m.order m.scope m.policy m.d m.a m.off m.lit (m.x.bytes / 4) (m.x.bytes / 4))
    (fun os w p q => AccessFrame [src m.d (m.x.bytes / 4), src m.a 2] w p q ∧
      ∀ x pa, storePlace .atomic (m.x.bytes / 4) m.d m.a m.off m.lit os w p x pa → onlyWrites x pa m.x.bytes p q)) ∧
  (∀ (wd : Width) (m : PadOp), Framed (.lds wd m) (padLoadEffect wd m) (fun w p q => AccessFrame [dst m.d wd.regs, src m.a 2] w p q ∧
    q.mem = p.mem ∧ q.writes = p.writes ∧ q.banks = p.banks)) ∧
  (∀ (wd : Width) (m : PadOp), Framed (.sts wd m) (padStoreEffect wd m) (fun w p q => AccessFrame [src m.d wd.regs, src m.a 2] w p q ∧
    q.mem = p.mem ∧ q.writes = p.writes ∧ q.accs = p.accs ∧
    ∀ b off, padPlace wd m w p b off → (∀ c k, (c, k) ≠ (b.cluster, b.phys) → q.bank? c k = p.bank? c k) ∧
      ∃ b', q.bank? b.cluster b.phys = some b' ∧ b' = { b with cells := b'.cells } ∧ ∀ a, a < off ∨ off + wd.bytes ≤ a → b'.byte a = b.byte a))

/-- A STEP RUNS THE DECODED INSTRUCTION. While a clause is being issued, a step decodes its next words: where they are an instruction, the step is that
instruction's effect with the clause moved past its words (for a thread that left its gang while it was blocked, R56, the instruction only shows whether
the thread is still held); where they are none, it traps ILLOP; and after the last word the clause ends.
The words are those that memory holds behind the header (R96, R97, R104). That a thread outside its gang tries its instruction to learn whether it is
still blocked is the model's choice (assumption 16). -/
def Obligations.StepRunsDecoded : Prop :=
  (∀ s i, s.here.issue = some i →
    (∀ w ws x rest, i.words = w :: ws → decode (w :: ws) = .ok (x, rest) →
      (i.id < Config.loneGang → step s = exec x (s.begin ((w :: ws).length - rest.length))) ∧
      (Config.loneGang ≤ i.id → ∀ t, exec x (s.begin ((w :: ws).length - rest.length)) = .next t →
        step s = .next (if t.here.holdsClause i then t else { s with here := s.here.fileLone i }))) ∧
    (∀ w ws e, i.words = w :: ws → decode (w :: ws) = .error e → step s = .next (s.illegal i)) ∧
    (i.words = [] → step s = .next { s with here := s.here.endClause (fun _ => i.nextHdr) }) ∧
    ∀ n, s.begin n = { s with here := { s.here with issue := some (i.advance n) } } ∧ (i.advance n).cur = i.pc ∧ (i.advance n).pc = i.pc + 4 * n ∧
      (i.advance n).curWords = i.words.take n ∧ (i.advance n).words = i.words.drop n ∧ (i.advance n).active = i.active) ∧
  (∀ w va p x q, Gives (fetchWord w va) p x q → ∃ pa, Gives (fetchAt w va) p (some pa) q ∧ x.toNat = q.readPa pa 4 % 2 ^ 32) ∧
  (∀ w hdr p h ws q, Gives (fetchClause w hdr) p (h, ws) q → canonical hdr = true ∧ hdr % 4 = 0 ∧ ws.length = bitsOf 11 9 h.toNat ∧
    ∃ pa p₁ p₂, Gives (fetchAt w hdr) p (some pa) p₁ ∧ p₁.clauseStart pa = true ∧ Gives (fetchWord w hdr) p₁ h p₂ ∧
      Gives (fetchWords w ((hdr + 4) % 2 ^ 64) ws.length) p₂ ws q)

/-- DECODING WORDS OF THE SPEC: words written out from the encodings stand for the instructions that the spec gives them (R94, R338, R417,
R464, R340, R438, R413, R469). -/
def Obligations.DecodeSanity : Prop :=
  decode [0x00000000#32] = .ok (.nop, []) ∧
  decode [0x040B8810#32] = .ok (.add { d := 2#7, a := 2#7, b := .reg 113#7, lit := none, ty := .n32 }, []) ∧
  decode [0x1A346120#32] = .ok (.or { d := 13#7, a := 13#7, b := .reg 12#7, lit := none, ty := .n32 }, []) ∧
  decode [0x06082130#32] = .ok (.xor { d := 3#7, a := 2#7, b := .reg 4#7, lit := none, ty := .n32 }, []) ∧
  decode [0x0E00B908#32] = .ok (.and { d := 7#7, a := 0#7, b := .imm 23#7, lit := none, ty := .n32 }, []) ∧
  decode [0x06084178#32] = .ok (.rol { d := 3#7, a := 2#7, b := .imm 8#7, lit := none, ty := .n32 }, []) ∧
  decode [0x0BF6A0C1#32] = .ok (.movl .i32 5#7 (BitVec.ofInt 14 (-300)), []) ∧
  decode [0x00000490#32] = .ok (.yield, []) ∧ decode [0x00000001#32] ≠ .ok (.nop, [])

/-- Reset leaves memory, granule labels and the label table in their form: memory lists nothing, and only the public label is live (R106, R107, R193). That every
byte reads 0 and every granule is public then is the model's choice (assumption 2), and so is the moment that reset stands for (assumption 3). -/
def Obligations.ResetKeepsForm : Prop :=
  State.reset.Wf ∧ State.reset.here.mem = [] ∧ State.reset.here.glabels = [] ∧ State.reset.here.labels = [(0, 0)] ∧
  (∀ a, State.reset.here.byteAt a = 0) ∧ ∀ g, State.reset.here.glabel g = 0

/-- THE TABLES KEEP THEIR FORM: in every package of the pod, memory stays in its canonical form, granule labels stay in theirs, entry 0 of the label table
stays the public label, and no two live entries hold one owner set, whatever a step does (R106 to R108, R193). -/
def Obligations.StepKeepsForm : Prop :=
  ∀ s t, s.Wf → step s = .next t → t.Wf

/-- DECODE AND ENCODE AGREE: every well-formed instruction of the clauses has an encoding, which is as long as the instruction says and decodes to the
instruction, whatever words follow it (R87 to R95). -/
def Obligations.DecodeEncode : Prop :=
  ∀ (x : Instr) rest, x.isWord = true → x.wf = true → ∃ ws, encode x = some ws ∧ ws.length = x.size ∧ decode (ws ++ rest) = .ok (x, rest)

/-- ARITHMETIC IS EXACT BEFORE IT IS ROUNDED: for finite operands of each floating type, FADD, FMUL and FFMA give the exact sum, product, and product and sum,
rounded once under the rounding mode, and raise NX exactly when a finite result differs from it; TWOSUM's two results have exactly the sum of its operands, and
TWOPRD's have exactly their product where it is 0 or at least 2 to the -101, its second one being the rounded remainder otherwise; a second result of zero is
+0. Values are integers, in units of the least magnitude of the format (R141, R147, R161, R162, R381, R382, R457). -/
def Obligations.ArithmeticIsExact : Prop :=
  (∀ (t : FTy) (rm : RM) (x y z : Nat), let F := fmtOf t
    x < 2 ^ (1 + F.eb + F.mb) → y < 2 ^ (1 + F.eb + F.mb) → z < 2 ^ (1 + F.eb + F.mb) → finiteIn F x = true → finiteIn F y = true → finiteIn F z = true →
    (let v := fun n => unitsIn F n
     let k := unitExp F
     RoundsTo F rm 0 (v x + v y) (F.add rm x y).1 ∧
     (finiteIn F (F.add rm x y).1 = true → ((F.add rm x y).2.getLsbD 0 = true ↔ v (F.add rm x y).1 ≠ v x + v y)) ∧
     RoundsTo F rm k (v x * v y) (F.mul rm x y).1 ∧
     (finiteIn F (F.mul rm x y).1 = true → ((F.mul rm x y).2.getLsbD 0 = true ↔ v (F.mul rm x y).1 * 2 ^ k ≠ v x * v y)) ∧
     RoundsTo F rm k (v x * v y + v z * 2 ^ k) (F.fma rm x y z).1 ∧
     (finiteIn F (F.fma rm x y z).1 = true → ((F.fma rm x y z).2.getLsbD 0 = true ↔ v (F.fma rm x y z).1 * 2 ^ k ≠ v x * v y + v z * 2 ^ k)))) ∧
  (∀ (x y : Nat), x < 2 ^ 32 → y < 2 ^ 32 → finiteIn .f32 x = true → finiteIn .f32 y = true →
    (∀ hi lo e, twoSum x y = (hi, lo, e) → RoundsTo .f32 .rne 0 (unitsIn .f32 x + unitsIn .f32 y) hi ∧ (finiteIn .f32 hi = true →
      finiteIn .f32 lo = true ∧ unitsIn .f32 hi + unitsIn .f32 lo = unitsIn .f32 x + unitsIn .f32 y ∧ (unitsIn .f32 lo = 0 → lo = 0))) ∧
    (∀ hi lo e, twoProd x y = (hi, lo, e) → RoundsTo .f32 .rne 149 (unitsIn .f32 x * unitsIn .f32 y) hi ∧ (finiteIn .f32 hi = true →
      finiteIn .f32 lo = true ∧ RoundsTo .f32 .rne 149 (unitsIn .f32 x * unitsIn .f32 y - unitsIn .f32 hi * 2 ^ 149) lo ∧
      (unitsIn .f32 lo = 0 → lo = 0) ∧
      (unitsIn .f32 x * unitsIn .f32 y = 0 ∨ 2 ^ 197 ≤ (unitsIn .f32 x * unitsIn .f32 y).natAbs →
        (unitsIn .f32 hi + unitsIn .f32 lo) * 2 ^ 149 = unitsIn .f32 x * unitsIn .f32 y))))
end

