-- ==== Sys2Proof/Laws/Encode.lean ====
section
/-! SUPPORT. The encoder and the checks of `Instr.wf` at each instruction, each true by definition, and the fields of a
word read back. Later proofs rewrite with these and never unfold `Instr.raw` or `Instr.wf`. -/

namespace Sys2Proof

/-- Reading the fields of a word that was put together from fields gives them back (R87). -/
@[simp] theorem Raw.ofWord_toWord (r : Raw) : Raw.ofWord r.toWord = r := by
  obtain ⟨d, a, b, major, minor⟩ := r
  simp only [Raw.ofWord, Raw.toWord, Raw.mk.injEq]
  refine ⟨?_, ?_, ?_, ?_, ?_⟩ <;>
    (apply BitVec.eq_of_getLsbD_eq; intro i hi
     simp only [BitVec.getLsbD_extractLsb', BitVec.getLsbD_append, hi, decide_true, Bool.true_and]
     repeat' (first | omega | split)
     all_goals (congr 1; try omega))

/-- A word is put together again from its fields (R87). -/
@[simp] theorem Raw.toWord_ofWord (w : Word) : (Raw.ofWord w).toWord = w := by
  apply BitVec.eq_of_getLsbD_eq
  intro i hi
  simp only [Raw.ofWord, Raw.toWord, BitVec.getLsbD_append, BitVec.getLsbD_extractLsb']
  by_cases h4 : i < 4
  · simp [h4]
  · by_cases h11 : i < 11
    · simp [h4, show i - 4 < 7 by omega, show 4 + (i - 4) = i by omega]
    · by_cases h18 : i < 18
      · simp [h4, show ¬ i - 4 < 7 by omega, show i - 4 - 7 < 7 by omega, show 11 + (i - 4 - 7) = i by omega]
      · by_cases h25 : i < 25
        · simp [h4, show ¬ i - 4 < 7 by omega, show ¬ i - 4 - 7 < 7 by omega, show i - 4 - 7 - 7 < 7 by omega,
            show 18 + (i - 4 - 7 - 7) = i by omega]
        · simp [h4, show ¬ i - 4 < 7 by omega, show ¬ i - 4 - 7 < 7 by omega, show ¬ i - 4 - 7 - 7 < 7 by omega,
            show i - 4 - 7 - 7 - 7 < 7 by omega, show 25 + (i - 4 - 7 - 7 - 7) = i by omega]

/-! ### The fields that the encoder writes -/

@[simp] theorem raw_nop : (Instr.nop).raw =
    some (rawOf 0 0 0 0x00 0, none, none) := rfl
@[simp] theorem raw_add (o) : (Instr.add o).raw =
    some (o.raw 0x01 o.ty.enc, o.lit, none) := rfl
@[simp] theorem raw_addc (o) : (Instr.addc o).raw =
    some (o.raw 0x02 0, o.lit, none) := rfl
@[simp] theorem raw_isub (o) : (Instr.isub o).raw =
    some (o.raw 0x03 o.ty.enc, o.lit, none) := rfl
@[simp] theorem raw_imul (o) : (Instr.imul o).raw =
    some (o.raw 0x04 o.ty.enc, o.lit, none) := rfl
@[simp] theorem raw_imad (o) : (Instr.imad o).raw =
    some (o.raw 0x05 o.ty.enc, o.lit, none) := rfl
@[simp] theorem raw_iabs (w) (o) : (Instr.iabs w o).raw =
    some (o.raw 0x06 0 (bit1 w ++ 1#1), o.lit, none) := rfl
@[simp] theorem raw_imin (o) : (Instr.imin o).raw =
    some (o.raw 0x07 o.ty.enc, o.lit, none) := rfl
@[simp] theorem raw_imax (o) : (Instr.imax o).raw =
    some (o.raw 0x08 o.ty.enc, o.lit, none) := rfl
@[simp] theorem raw_cmp (o) : (Instr.cmp o).raw =
    some (o.raw 0x09 o.ty.enc, o.lit, none) := rfl
@[simp] theorem raw_lea (o) : (Instr.lea o).raw =
    some (o.raw 0x0A o.ty, o.lit, none) := rfl
@[simp] theorem raw_mov (o) : (Instr.mov o).raw =
    some (o.raw 0x0B o.ty.enc, o.lit, none) := rfl
@[simp] theorem raw_movl (ty) (d) (k) : (Instr.movl ty d k).raw =
    some (rawOf d (k.extractLsb' 7 7) (k.extractLsb' 0 7) 0x0C (0b00#2 ++ ty.enc), none, none) := rfl
@[simp] theorem raw_and (o) : (Instr.and o).raw =
    some (o.raw 0x10 o.ty.enc, o.lit, none) := rfl
@[simp] theorem raw_andn (o) : (Instr.andn o).raw =
    some (o.raw 0x11 o.ty.enc, o.lit, none) := rfl
@[simp] theorem raw_or (o) : (Instr.or o).raw =
    some (o.raw 0x12 o.ty.enc, o.lit, none) := rfl
@[simp] theorem raw_xor (o) : (Instr.xor o).raw =
    some (o.raw 0x13 o.ty.enc, o.lit, none) := rfl
@[simp] theorem raw_shl (o) : (Instr.shl o).raw =
    some (o.raw 0x14 o.ty.enc, o.lit, none) := rfl
@[simp] theorem raw_shr (o) : (Instr.shr o).raw =
    some (o.raw 0x15 o.ty.enc, o.lit, none) := rfl
@[simp] theorem raw_sar (o) : (Instr.sar o).raw =
    some (o.raw 0x16 o.ty.enc, o.lit, none) := rfl
@[simp] theorem raw_rol (o) : (Instr.rol o).raw =
    some (o.raw 0x17 o.ty.enc, o.lit, none) := rfl
@[simp] theorem raw_bfx (o) : (Instr.bfx o).raw =
    some (o.raw 0x18 o.ty.enc, o.lit, none) := rfl
@[simp] theorem raw_bfi (o) : (Instr.bfi o).raw =
    some (o.raw 0x19 o.ty.enc, o.lit, none) := rfl
@[simp] theorem raw_popc (o) : (Instr.popc o).raw =
    some (o.raw 0x1A 0 o.ty.enc, o.lit, none) := rfl
@[simp] theorem raw_clz (o) : (Instr.clz o).raw =
    some (o.raw 0x1B 0 o.ty.enc, o.lit, none) := rfl
@[simp] theorem raw_brev (o) : (Instr.brev o).raw =
    some (o.raw 0x1C 0 o.ty.enc, o.lit, none) := rfl
@[simp] theorem raw_prmb (o) : (Instr.prmb o).raw =
    some (o.raw 0x1D 0, o.lit, none) := rfl
@[simp] theorem raw_fadd (o) : (Instr.fadd o).raw =
    some (o.raw 0x20 o.ty.enc, o.lit, none) := rfl
@[simp] theorem raw_fmul (o) : (Instr.fmul o).raw =
    some (o.raw 0x21 o.ty.enc, o.lit, none) := rfl
@[simp] theorem raw_ffma (o) : (Instr.ffma o).raw =
    some (o.raw 0x22 o.ty.enc, o.lit, none) := rfl
@[simp] theorem raw_fmin (o) : (Instr.fmin o).raw =
    some (o.raw 0x23 o.ty.enc, o.lit, none) := rfl
@[simp] theorem raw_fmax (o) : (Instr.fmax o).raw =
    some (o.raw 0x24 o.ty.enc, o.lit, none) := rfl
@[simp] theorem raw_fcmp (o) : (Instr.fcmp o).raw =
    some (o.raw 0x25 (0#1 ++ bit1 o.ty), o.lit, none) := rfl
@[simp] theorem raw_fsf (fn) (o) : (Instr.fsf fn o).raw =
    some (o.raw 0x26 (0b0000#4 ++ fn.enc) o.ty.enc, o.lit, none) := rfl
@[simp] theorem raw_frnd (dir) (o) : (Instr.frnd dir o).raw =
    some (o.raw 0x27 (0b0000#4 ++ dir.enc) o.ty.enc, o.lit, none) := rfl
@[simp] theorem raw_twosum (o) : (Instr.twosum o).raw =
    some (o.raw 0x28 0, o.lit, none) := rfl
@[simp] theorem raw_twoprd (o) : (Instr.twoprd o).raw =
    some (o.raw 0x29 0, o.lit, none) := rfl
@[simp] theorem raw_cfma (d) (a) (b) : (Instr.cfma d a b).raw =
    some (rawOf d a b 0x2A 0, none, none) := rfl
@[simp] theorem raw_cvt (c) (e) (o) : (Instr.cvt c e o).raw =
    some (o.raw 0x2B c e, o.lit, none) := rfl
@[simp] theorem raw_qpack (d) (a) (b) (j) : (Instr.qpack d a b j).raw =
    some (rawOf d a b 0x2C (0b00#2 ++ j), none, none) := rfl
@[simp] theorem raw_qunpk (d) (a) (b) (k) (j) (l) : (Instr.qunpk d a b k j l).raw =
    some (rawOf d a b 0x2D (k ++ j), l, none) := rfl
@[simp] theorem raw_trap (c) : (Instr.trap c).raw =
    some (rawOf 0 0 c 0x30 0, none, none) := rfl
@[simp] theorem raw_eretResume : (Instr.eretResume).raw =
    some (rawOf 0 0 0 0x31 0, none, none) := rfl
@[simp] theorem raw_eretRestart : (Instr.eretRestart).raw =
    some (rawOf 0 0 0 0x31 1, none, none) := rfl
@[simp] theorem raw_eretSkip : (Instr.eretSkip).raw =
    some (rawOf 0 0 0 0x31 2, none, none) := rfl
@[simp] theorem raw_mfsr (d) (n) : (Instr.mfsr d n).raw =
    some (rawOf d 0 n 0x32 0, none, none) := rfl
@[simp] theorem raw_mtsr (a) (n) (l) : (Instr.mtsr a n l).raw =
    some (rawOf 0 a n 0x33 0, l, none) := rfl
@[simp] theorem raw_bkpt (c) : (Instr.bkpt c).raw =
    some (rawOf 0 0 c 0x34 0, none, none) := rfl
@[simp] theorem raw_snap : (Instr.snap).raw =
    some (rawOf 0 0 0 0x35 0, none, none) := rfl
@[simp] theorem raw_time (d) (w) : (Instr.time d w).raw =
    some (rawOf d 0 0 0x36 (0b000#3 ++ bit1 w), none, none) := rfl
@[simp] theorem raw_sel (s) (p) (o) : (Instr.sel s p o).raw =
    some (o.raw 0x38 (0#1 ++ bit1 s ++ p) o.ty.enc, o.lit, none) := rfl
@[simp] theorem raw_plop (pd) (pa) (pb) (tt) : (Instr.plop pd pa pb tt).raw =
    some (rawOf (0b00#2 ++ pd) (0b00#2 ++ pa) (0b00#2 ++ pb) 0x39 tt, none, none) := rfl
@[simp] theorem raw_pmov_toReg (d) (p) : (Instr.pmov (.toReg d p)).raw =
    some (rawOf d 0 (0b00#2 ++ p) 0x3A 0, none, none) := rfl
@[simp] theorem raw_pmov_toPred (p) (b) (l) : (Instr.pmov (.toPred p b l)).raw =
    some (rawOf (0b00#2 ++ p) 0 b 0x3A 1, l, none) := rfl
@[simp] theorem raw_pmov_save (d) : (Instr.pmov (.save d)).raw =
    some (rawOf d 0 0 0x3A 2, none, none) := rfl
@[simp] theorem raw_pmov_load (b) (l) : (Instr.pmov (.load b l)).raw =
    some (rawOf 0 0 b 0x3A 3, l, none) := rfl
@[simp] theorem raw_shfl (o) : (Instr.shfl o).raw =
    some (o.raw 0x3B o.ty.enc, o.lit, none) := rfl
@[simp] theorem raw_vote_all (p) (s) (ps) : (Instr.vote (.all p) s ps).raw =
    some (rawOf (0b00#2 ++ p) 0 (0#1 ++ bit1 s ++ ps) 0x3C 0, none, none) := rfl
@[simp] theorem raw_vote_any (p) (s) (ps) : (Instr.vote (.any p) s ps).raw =
    some (rawOf (0b00#2 ++ p) 0 (0#1 ++ bit1 s ++ ps) 0x3C 1, none, none) := rfl
@[simp] theorem raw_vote_eq (p) (s) (ps) : (Instr.vote (.eq p) s ps).raw =
    some (rawOf (0b00#2 ++ p) 0 (0#1 ++ bit1 s ++ ps) 0x3C 2, none, none) := rfl
@[simp] theorem raw_vote_ballot (d) (s) (ps) : (Instr.vote (.ballot d) s ps).raw =
    some (rawOf d 0 (0#1 ++ bit1 s ++ ps) 0x3C 3, none, none) := rfl
@[simp] theorem raw_rdx (op) (ty) (d) (b) (l) : (Instr.rdx op ty d b l).raw =
    some (rawOf d (0b0000#4 ++ op.enc) b 0x3D ty.enc, l, none) := rfl
@[simp] theorem raw_scan (e) (op) (ty) (d) (b) (l) : (Instr.scan e op ty d b l).raw =
    some (rawOf d (0b000#3 ++ bit1 e ++ op.enc) b 0x3E ty.enc, l, none) := rfl
@[simp] theorem raw_bra (o) : (Instr.bra o).raw =
    some (rawOf (o.extractLsb' 14 7) (o.extractLsb' 7 7) (o.extractLsb' 0 7) 0x40 0, none, none) := rfl
@[simp] theorem raw_brc (s) (p) (o) : (Instr.brc s p o).raw =
    some (o.raw (0#1 ++ bit1 s ++ p) 0x41, none, o.lit) := rfl
@[simp] theorem raw_bdq (s) (o) : (Instr.bdq s o).raw =
    some (o.raw (0#1 ++ bit1 s ++ 0#5) 0x42, none, o.lit) := rfl
@[simp] theorem raw_jmpi (a) : (Instr.jmpi a).raw =
    some (rawOf 0 a 0 0x43 0, none, none) := rfl
@[simp] theorem raw_call (d) (o) : (Instr.call d o).raw =
    some (o.raw d 0x44, none, o.lit) := rfl
@[simp] theorem raw_ret (a) : (Instr.ret a).raw =
    some (rawOf 0 a 0 0x45 0, none, none) := rfl
@[simp] theorem raw_reform (b) (l) : (Instr.reform b l).raw =
    some (rawOf 0 0 b.enc 0x46 (b.top ++ 0b00#2), l, none) := rfl
@[simp] theorem raw_exit : (Instr.exit).raw =
    some (rawOf 0 0 0 0x47 0, none, none) := rfl
@[simp] theorem raw_killTeam : (Instr.killTeam).raw =
    some (rawOf 0 0 0 0x48 0, none, none) := rfl
@[simp] theorem raw_killGrid : (Instr.killGrid).raw =
    some (rawOf 0 0 0 0x48 1, none, none) := rfl
@[simp] theorem raw_yield : (Instr.yield).raw =
    some (rawOf 0 0 0 0x49 0, none, none) := rfl
@[simp] theorem raw_bar (l) (s) : (Instr.bar l s).raw =
    some (rawOf 0 0 0 0x4A (0#1 ++ bit1 l ++ s.enc), none, none) := rfl
@[simp] theorem raw_launch (a) (q) (l) : (Instr.launch a q l).raw =
    some (rawOf 0 a (0b000#3 ++ q) 0x4B 0, l, none) := rfl
@[simp] theorem raw_cont (a) (q) (l) : (Instr.cont a q l).raw =
    some (rawOf 0 a (0b000#3 ++ q) 0x4C 0, l, none) := rfl
@[simp] theorem raw_dqpush (b) (rel) (l) : (Instr.dqpush b rel l).raw =
    some (rawOf 0 0 b.enc 0x4D (b.top ++ 0#1 ++ bit1 rel), l, none) := rfl
@[simp] theorem raw_dqpop (d) : (Instr.dqpop d).raw =
    some (rawOf d 0 0 0x4E 0, none, none) := rfl
@[simp] theorem raw_winb (w) : (Instr.winb w).raw =
    some (rawOf 0 0 (w ++ 0b000#3) 0x4F 0, none, none) := rfl
@[simp] theorem raw_ld (m) : (Instr.ld m).raw =
    some (m.raw 0x50 m.x.enc, m.lit, m.off) := rfl
@[simp] theorem raw_st (m) : (Instr.st m).raw =
    some (m.raw 0x51 m.x.enc, m.lit, m.off) := rfl
@[simp] theorem raw_lds (w) (m) : (Instr.lds w m).raw =
    some (m.raw 0x52 w.enc, m.lit, m.off) := rfl
@[simp] theorem raw_sts (w) (m) : (Instr.sts w m).raw =
    some (m.raw 0x53 w.enc, m.lit, m.off) := rfl
@[simp] theorem raw_fpush (w) (m) : (Instr.fpush w m).raw =
    some (m.raw 0x54 w.enc, m.lit, m.off) := rfl
@[simp] theorem raw_fpop (w) (m) : (Instr.fpop w m).raw =
    some (m.raw 0x55 w.enc, m.lit, m.off) := rfl
@[simp] theorem raw_bank (t) (b) (m) : (Instr.bank t b m).raw =
    some (rawOf (0b00#2 ++ t.getD 0) (0b00#2 ++ b) 0 0x56 (0#1 ++ bit1 t.isSome ++ m.enc), none, none) := rfl
@[simp] theorem raw_fence (s) : (Instr.fence s).raw =
    some (rawOf 0 0 0 0x57 (0b00#2 ++ s.enc), none, none) := rfl
@[simp] theorem raw_tlfence : (Instr.tlfence).raw =
    some (rawOf 0 0 0 0x58 0, none, none) := rfl
@[simp] theorem raw_disc (m) : (Instr.disc m).raw =
    some (m.raw 0x59 0, m.lit, m.off) := rfl
@[simp] theorem raw_arm (m) : (Instr.arm m).raw =
    some (m.raw 0x5A 0, m.lit, m.off) := rfl
@[simp] theorem raw_await (m) : (Instr.await m).raw =
    some (m.raw 0x5B 0, m.lit, m.off) := rfl
@[simp] theorem raw_xacq : (Instr.xacq).raw =
    some (rawOf 0 0 0 0x5C 0, none, none) := rfl
@[simp] theorem raw_xrel : (Instr.xrel).raw =
    some (rawOf 0 0 0 0x5D 0, none, none) := rfl
@[simp] theorem raw_atom (m) : (Instr.atom m).raw =
    some (m.raw 0x60 m.x.enc, m.lit, m.off) := rfl
@[simp] theorem raw_atomx (m) : (Instr.atomx m).raw =
    some (m.raw 0x61 m.x.enc, m.lit, m.off) := rfl
@[simp] theorem raw_red (m) : (Instr.red m).raw =
    some (m.raw 0x62 m.x.enc, m.lit, m.off) := rfl
@[simp] theorem raw_rgn : (Instr.rgn).raw =
    some (rawOf 0 0 0 0x63 0, none, none) := rfl
@[simp] theorem raw_rgnc : (Instr.rgnc).raw =
    some (rawOf 0 0 0 0x64 0, none, none) := rfl
@[simp] theorem raw_lget_one (d) (b) (l) : (Instr.lget d (.one b) l).raw =
    some (rawOf d 0 b.enc 0x68 (b.top ++ 0b00#2), l, none) := rfl
@[simp] theorem raw_lget_pair (d) (b) (l) : (Instr.lget d (.pair b) l).raw =
    some (rawOf d 0 b.enc 0x68 (b.top ++ 0b01#2), l, none) := rfl
@[simp] theorem raw_lget_pred (d) (p) (l) : (Instr.lget d (.pred p) l).raw =
    some (rawOf d 0 (0b00#2 ++ p) 0x68 0b0010, l, none) := rfl
@[simp] theorem raw_ljoin (w) (o) : (Instr.ljoin w o).raw =
    some (o.raw 0x69 (0#1 ++ bit1 w), o.lit, none) := rfl
@[simp] theorem raw_lceil (b) (l) : (Instr.lceil b l).raw =
    some (rawOf 0 0 b.enc 0x6A (b.top ++ 0b00#2), l, none) := rfl
@[simp] theorem raw_endo (a) : (Instr.endo a).raw =
    some (rawOf 0 a 0 0x6B 0, none, none) := rfl
@[simp] theorem raw_decl (w) (o) : (Instr.decl w o).raw =
    some (o.raw 0x6C (0#1 ++ bit1 w), o.lit, none) := rfl
@[simp] theorem raw_mma (f) (t) (k) (a) (b) (l) : (Instr.mma f t k a b l).raw =
    some (rawOf (0#1 ++ t) (k.extractLsb' 2 2 ++ a) (k.extractLsb' 0 2 ++ b) 0x70 (0#1 ++ f.enc), l, none) := rfl
@[simp] theorem raw_mmasp (f) (q) (t) (k) (a) (b) : (Instr.mmasp f q t k a b).raw =
    some (rawOf (0#1 ++ t) (k.extractLsb' 2 2 ++ a) (k.extractLsb' 0 2 ++ b) 0x71 (q ++ f.enc), none, none) := rfl
@[simp] theorem raw_accld (f) (t) (a) (k) : (Instr.accld f t a k).raw =
    some (rawOf (0#1 ++ t) a (0b000#3 ++ k) 0x72 f.enc, none, none) := rfl
@[simp] theorem raw_accst (f) (d) (t) (k) : (Instr.accst f d t k).raw =
    some (rawOf d (0#1 ++ t) (0b000#3 ++ k) 0x73 f.enc, none, none) := rfl
@[simp] theorem raw_sign_imm (k) (q) : (Instr.sign k (.imm q)).raw =
    some (rawOf (0b000#3 ++ k) (0b000000#6 ++ q.extractLsb' 7 1) (q.extractLsb' 0 7) 0x74 0, none, none) := rfl
@[simp] theorem raw_sign_sreg (k) (b) : (Instr.sign k (.sreg b)).raw =
    some (rawOf (0b000#3 ++ k) 0 b 0x74 0b0100, none, none) := rfl
@[simp] theorem raw_jwait (f) : (Instr.jwait f).raw =
    some (rawOf 0 0 (0b000#3 ++ f) 0x75 0, none, none) := rfl
@[simp] theorem raw_tide (d) : (Instr.tide d).raw =
    some (rawOf d 0 0 0x76 0, none, none) := rfl
@[simp] theorem raw_cpy (a) (rel) (l) : (Instr.cpy a rel l).raw =
    some (rawOf 0 a 0 0x78 (0b000#3 ++ bit1 rel), l, none) := rfl
@[simp] theorem raw_cpym (a) (b) (rel) (l) : (Instr.cpym a b rel l).raw =
    some (rawOf 0 a b 0x79 (0b000#3 ++ bit1 rel), l, none) := rfl
@[simp] theorem raw_coll_some (t) (a) (rel) (l) : (Instr.coll (some t) a rel l).raw =
    some (rawOf (0#1 ++ t) a 0 0x7A (0b000#3 ++ bit1 rel), l, none) := rfl
@[simp] theorem raw_coll_none (a) (rel) (l) : (Instr.coll none a rel l).raw =
    some (rawOf 127 a 0 0x7A (0b000#3 ++ bit1 rel), l, none) := rfl
@[simp] theorem raw_xperm (a) (rel) (l) : (Instr.xperm a rel l).raw =
    some (rawOf 0 a 0 0x7B (0b000#3 ++ bit1 rel), l, none) := rfl
@[simp] theorem raw_recBegin (m) (a) (b) (l) : (Instr.recBegin m a b l).raw =
    some (rawOf (0b000#3 ++ m) a b 0x7C 0, l, none) := rfl
@[simp] theorem raw_recEnd (m) : (Instr.recEnd m).raw =
    some (rawOf (0b000#3 ++ m) 0 0 0x7C 1, none, none) := rfl
@[simp] theorem raw_recPlay (m) (b) (l) : (Instr.recPlay m b l).raw =
    some (rawOf (0b000#3 ++ m) 0 b 0x7C 2, l, none) := rfl
@[simp] theorem raw_recDrop (m) : (Instr.recDrop m).raw =
    some (rawOf (0b000#3 ++ m) 0 0 0x7C 3, none, none) := rfl
@[simp] theorem raw_recq (d) (m) : (Instr.recq d m).raw =
    some (rawOf d 0 (0b000#3 ++ m) 0x7D 0, none, none) := rfl

/-! ### What makes each instruction well formed -/

theorem wf_add (o) : (Instr.add o).wf =
    (o.ok o.ty.regs o.ty.regs o.ty.regs : Bool) := rfl
theorem wf_isub (o) : (Instr.isub o).wf =
    (o.ok o.ty.regs o.ty.regs o.ty.regs : Bool) := rfl
theorem wf_imul (o) : (Instr.imul o).wf =
    (o.ok o.ty.regs o.ty.regs o.ty.regs : Bool) := rfl
theorem wf_imin (o) : (Instr.imin o).wf =
    (o.ok o.ty.regs o.ty.regs o.ty.regs : Bool) := rfl
theorem wf_imax (o) : (Instr.imax o).wf =
    (o.ok o.ty.regs o.ty.regs o.ty.regs : Bool) := rfl
theorem wf_imad (o) : (Instr.imad o).wf =
    (o.ok o.ty.regs o.ty.regs o.ty.regs true : Bool) := rfl
theorem wf_addc (o) : (Instr.addc o).wf =
    (o.ok 2 1 1 && o.d.toNat ≤ 118 : Bool) := rfl
theorem wf_iabs (w) (o) : (Instr.iabs w o).wf =
    (o.ok (if w then 2 else 1) (if w then 2 else 1) : Bool) := rfl
theorem wf_cmp (o) : (Instr.cmp o).wf =
    (o.ok o.ty.regs : Bool) := rfl
theorem wf_lea (o) : (Instr.lea o).wf =
    (o.ok 2 2 1 && o.d.toNat % 2 == 0 && o.a.toNat % 2 == 0 : Bool) := rfl
theorem wf_mov (o) : (Instr.mov o).wf =
    ((if o.b.isSreg then o.d.dstOk o.ty.regs && o.a.srcOk o.ty.regs && o.b.ok o.ty.regs && litIf o.a o.lit
     else o.a.toNat == 0 && o.d.dstOk o.ty.regs && o.b.ok o.ty.regs && o.lit.isSome == o.b.isLit) : Bool) := rfl
theorem wf_movl (ty) (d) (u0) : (Instr.movl ty d u0).wf =
    (d.dstOk ty.regs : Bool) := rfl
theorem wf_and (o) : (Instr.and o).wf =
    (o.ok o.ty.regs o.ty.regs o.ty.regs : Bool) := rfl
theorem wf_andn (o) : (Instr.andn o).wf =
    (o.ok o.ty.regs o.ty.regs o.ty.regs : Bool) := rfl
theorem wf_or (o) : (Instr.or o).wf =
    (o.ok o.ty.regs o.ty.regs o.ty.regs : Bool) := rfl
theorem wf_xor (o) : (Instr.xor o).wf =
    (o.ok o.ty.regs o.ty.regs o.ty.regs : Bool) := rfl
theorem wf_shl (o) : (Instr.shl o).wf =
    (o.ok o.ty.regs o.ty.regs 1 : Bool) := rfl
theorem wf_shr (o) : (Instr.shr o).wf =
    (o.ok o.ty.regs o.ty.regs 1 : Bool) := rfl
theorem wf_sar (o) : (Instr.sar o).wf =
    (o.ok o.ty.regs o.ty.regs 1 : Bool) := rfl
theorem wf_rol (o) : (Instr.rol o).wf =
    (o.ok o.ty.regs o.ty.regs 1 : Bool) := rfl
theorem wf_bfx (o) : (Instr.bfx o).wf =
    (o.ok o.ty.regs o.ty.regs 1 : Bool) := rfl
theorem wf_bfi (o) : (Instr.bfi o).wf =
    (o.ok o.ty.regs o.ty.regs 1 true : Bool) := rfl
theorem wf_popc (o) : (Instr.popc o).wf =
    (o.ok o.ty.regs o.ty.regs : Bool) := rfl
theorem wf_clz (o) : (Instr.clz o).wf =
    (o.ok o.ty.regs o.ty.regs : Bool) := rfl
theorem wf_brev (o) : (Instr.brev o).wf =
    (o.ok o.ty.regs o.ty.regs : Bool) := rfl
theorem wf_prmb (o) : (Instr.prmb o).wf =
    (o.ok 1 2 1 : Bool) := rfl
theorem wf_fadd (o) : (Instr.fadd o).wf =
    (o.ok o.ty.regs o.ty.regs o.ty.regs : Bool) := rfl
theorem wf_fmul (o) : (Instr.fmul o).wf =
    (o.ok o.ty.regs o.ty.regs o.ty.regs : Bool) := rfl
theorem wf_fmin (o) : (Instr.fmin o).wf =
    (o.ok o.ty.regs o.ty.regs o.ty.regs : Bool) := rfl
theorem wf_fmax (o) : (Instr.fmax o).wf =
    (o.ok o.ty.regs o.ty.regs o.ty.regs : Bool) := rfl
theorem wf_ffma (o) : (Instr.ffma o).wf =
    (o.ok o.ty.regs o.ty.regs o.ty.regs true : Bool) := rfl
theorem wf_fcmp (o) : (Instr.fcmp o).wf =
    (o.ok (if o.ty then 2 else 1) : Bool) := rfl
theorem wf_fsf (fn) (o) : (Instr.fsf fn o).wf =
    (o.ok o.ty.regs o.ty.regs && fsfOk fn o.ty : Bool) := rfl
theorem wf_frnd (u0) (o) : (Instr.frnd u0 o).wf =
    (o.ok o.ty.regs o.ty.regs : Bool) := rfl
theorem wf_twosum (o) : (Instr.twosum o).wf =
    (o.ok 2 1 1 && o.d.toNat < 120 : Bool) := rfl
theorem wf_twoprd (o) : (Instr.twoprd o).wf =
    (o.ok 2 1 1 && o.d.toNat < 120 : Bool) := rfl
theorem wf_cfma (d) (a) (b) : (Instr.cfma d a b).wf =
    (d.regOk 2 && a.regOk 2 && b.regOrZero 2 : Bool) := rfl
theorem wf_cvt (c) (e) (o) : (Instr.cvt c e o).wf =
    (let s := cvtShape c e
    s.legal && (!o.b.isImm || s.imm) && o.d.dstOk s.nd && o.b.ok s.nb
      && o.lit.isSome == (o.b.isLit || (s.dsrc && o.d.isLit)) : Bool) := rfl
theorem wf_qpack (d) (a) (b) (u0) : (Instr.qpack d a b u0).wf =
    (d.dstOk 1 && a.srcOk 8 && !a.isLit && b.srcOk 1 && b.toNat < 123 : Bool) := rfl
theorem wf_qunpk (d) (a) (b) (u0) (u1) (l) : (Instr.qunpk d a b u0 u1 l).wf =
    (d.dstOk 2 && a.srcOk 1 && b.srcOk 1 && b.toNat < 123 && litIf a l : Bool) := rfl
theorem wf_mfsr (d) (n) : (Instr.mfsr d n).wf =
    (srKnown n.toNat && (d.toNat < 120 || d.toNat == 122) && !(srWide n.toNat && d.toNat % 2 == 1) : Bool) := rfl
theorem wf_mtsr (a) (n) (l) : (Instr.mtsr a n l).wf =
    (srKnown n.toNat && (if srWide n.toNat then a.srcOk 2 else a.srcOk 1) && a.toNat != 123 && litIf a l : Bool) := rfl
theorem wf_time (d) (u0) : (Instr.time d u0).wf =
    (d.regOrZero 2 : Bool) := rfl
theorem wf_sel (u0) (p) (o) : (Instr.sel u0 p o).wf =
    (predOk p && o.d.dstOk o.ty.regs && o.b.ok o.ty.regs && o.lit.isSome == (o.b.isLit || o.d.isLit) : Bool) := rfl
theorem wf_plop (a) (b) (c) (u0) : (Instr.plop a b c u0).wf =
    (predOk a && predOk b && predOk c : Bool) := rfl
theorem wf_pmov (op) : (Instr.pmov op).wf =
    (op.ok : Bool) := rfl
theorem wf_shfl (o) : (Instr.shfl o).wf =
    (o.ok 1 1 1 : Bool) := rfl
theorem wf_vote (op) (u0) (p) : (Instr.vote op u0 p).wf =
    (op.ok && predOk p : Bool) := rfl
theorem wf_rdx (op) (ty) (d) (b) (l) : (Instr.rdx op ty d b l).wf =
    (rdxOk op ty && d.dstOk ty.regs && b.srcOk ty.regs && litIf b l : Bool) := rfl
theorem wf_scan (u0) (op) (ty) (d) (b) (l) : (Instr.scan u0 op ty d b l).wf =
    (rdxOk op ty && d.dstOk ty.regs && b.srcOk ty.regs && litIf b l : Bool) := rfl
theorem wf_brc (u0) (p) (u1) : (Instr.brc u0 p u1).wf =
    (predOk p : Bool) := rfl
theorem wf_jmpi (a) : (Instr.jmpi a).wf =
    (a.regOk 2 : Bool) := rfl
theorem wf_ret (a) : (Instr.ret a).wf =
    (a.regOk 2 : Bool) := rfl
theorem wf_call (d) (u0) : (Instr.call d u0).wf =
    (d.regOrZero 2 : Bool) := rfl
theorem wf_reform (b) (l) : (Instr.reform b l).wf =
    (b.ok 1 && l.isSome == b.isLit : Bool) := rfl
theorem wf_launch (a) (u0) (l) : (Instr.launch a u0 l).wf =
    (a.srcOk 2 && litIf a l : Bool) := rfl
theorem wf_cont (a) (u0) (l) : (Instr.cont a u0 l).wf =
    (a.srcOk 2 && litIf a l : Bool) := rfl
theorem wf_dqpush (b) (u0) (l) : (Instr.dqpush b u0 l).wf =
    (b.ok 1 && !b.isSreg && (match b with | .reg f => !(112 ≤ f.toNat && f.toNat ≤ 121) | _ => true)
      && l.isSome == b.isLit : Bool) := rfl
theorem wf_dqpop (d) : (Instr.dqpop d).wf =
    (d.regOrZero 1 : Bool) := rfl
theorem wf_ld (m) : (Instr.ld m).wf =
    (m.d.regOrZero m.x.regs && baseOk m.a && m.scopeOk && m.order != .rel && m.lit.isNone : Bool) := rfl
theorem wf_st (m) : (Instr.st m).wf =
    (m.d.srcOk m.x.regs && !(m.d.isLit && m.x == .w128) && !m.x.signed && baseOk m.a && m.scopeOk
      && m.order != .acq && litIf m.d m.lit : Bool) := rfl
theorem wf_lds (w) (m) : (Instr.lds w m).wf =
    (m.d.regOrZero w.regs && baseOk m.a && m.lit.isNone : Bool) := rfl
theorem wf_sts (w) (m) : (Instr.sts w m).wf =
    (m.d.srcOk w.regs && !(m.d.isLit && w == .w128) && !w.signed && baseOk m.a && litIf m.d m.lit : Bool) := rfl
theorem wf_fpush (w) (m) : (Instr.fpush w m).wf =
    (m.d.regOk w.regs && w.fifoOk && baseOk m.a && m.lit.isNone : Bool) := rfl
theorem wf_fpop (w) (m) : (Instr.fpop w m).wf =
    (m.d.regOrZero w.regs && w.fifoOk && baseOk m.a && m.lit.isNone : Bool) := rfl
theorem wf_bank (t) (u0) (u1) : (Instr.bank t u0 u1).wf =
    (match t with | some p => predOk p | none => true : Bool) := rfl
theorem wf_disc (m) : (Instr.disc m).wf =
    (m.d.regOk 1 && baseOk m.a && m.lit.isNone : Bool) := rfl
theorem wf_arm (m) : (Instr.arm m).wf =
    (m.d.srcOk 1 && baseOk m.a && litIf m.d m.lit : Bool) := rfl
theorem wf_await (m) : (Instr.await m).wf =
    (m.d.srcOk 1 && baseOk m.a && litIf m.d m.lit : Bool) := rfl
theorem wf_atom (m) : (Instr.atom m).wf =
    (m.d.regOk m.x.regs && baseOk m.a && m.scopeOk && m.lit.isNone : Bool) := rfl
theorem wf_atomx (m) : (Instr.atomx m).wf =
    (m.d.regOk 4 && (m.x == .exch || (m.d.toNat + 8 ≤ 112 || (112 ≤ m.d.toNat && m.d.toNat + 8 ≤ 120)))
      && baseOk m.a && m.scopeOk && m.lit.isNone : Bool) := rfl
theorem wf_red (m) : (Instr.red m).wf =
    (m.d.regOrZero (m.x.bytes / 4) && baseOk m.a && m.scopeOk && (m.order == .plain || m.order == .rel)
      && m.lit.isNone : Bool) := rfl
theorem wf_lget (d) (s) (l) : (Instr.lget d s l).wf =
    (d.dstOk 1 && s.ok l : Bool) := rfl
theorem wf_ljoin (w) (o) : (Instr.ljoin w o).wf =
    (o.ok (if w then 2 else 1) (if w then 2 else 1) 1 && !o.b.isImm : Bool) := rfl
theorem wf_lceil (b) (l) : (Instr.lceil b l).wf =
    (b.ok 1 && !b.isImm && l.isSome == b.isLit : Bool) := rfl
theorem wf_endo (a) : (Instr.endo a).wf =
    (a.regOk 4 : Bool) := rfl
theorem wf_decl (w) (o) : (Instr.decl w o).wf =
    (o.ok (if w then 2 else 1) (if w then 2 else 1) 1 && o.d.toNat < 120 && o.a.toNat < 123 && !o.b.isImm
      && (!w || (o.d.toNat % 2 == 0 && o.a.toNat % 2 == 0)) : Bool) := rfl
theorem wf_mma (f) (u0) (u1) (a) (b) (l) : (Instr.mma f u0 u1 a b l).wf =
    (latheBase f.regs a && latheBase f.regs b
      && (match l with | some w => f == .q4 && q4LitOk w | none => f != .q4) : Bool) := rfl
theorem wf_mmasp (u0) (u1) (u2) (u3) (a) (b) : (Instr.mmasp u0 u1 u2 u3 a b).wf =
    (latheBase 4 a && latheBase 8 b : Bool) := rfl
theorem wf_accld (f) (u0) (a) (u1) : (Instr.accld f u0 a u1).wf =
    (a.regOk f.regs || a.toNat == 122 : Bool) := rfl
theorem wf_accst (f) (d) (u0) (u1) : (Instr.accst f d u0 u1).wf =
    (d.regOk f.regs : Bool) := rfl
theorem wf_jwait (f) : (Instr.jwait f).wf =
    (f.toNat < 12 : Bool) := rfl
theorem wf_tide (d) : (Instr.tide d).wf =
    (d.regOrZero 2 : Bool) := rfl
theorem wf_cpy (a) (u0) (l) : (Instr.cpy a u0 l).wf =
    (a.srcOk 2 && litIf a l : Bool) := rfl
theorem wf_xperm (a) (u0) (l) : (Instr.xperm a u0 l).wf =
    (a.srcOk 2 && litIf a l : Bool) := rfl
theorem wf_coll (u0) (a) (u1) (l) : (Instr.coll u0 a u1 l).wf =
    (a.srcOk 2 && litIf a l : Bool) := rfl
theorem wf_cpym (a) (b) (u0) (l) : (Instr.cpym a b u0 l).wf =
    (a.srcOk 2 && b.srcOk 2 && l.isSome == (a.isLit || b.isLit) : Bool) := rfl
theorem wf_recBegin (u0) (a) (b) (l) : (Instr.recBegin u0 a b l).wf =
    (a.srcOk 2 && b.srcOk 1 && l.isSome == (a.isLit || b.isLit) : Bool) := rfl
theorem wf_recPlay (u0) (b) (l) : (Instr.recPlay u0 b l).wf =
    (b.srcOk 1 && litIf b l : Bool) := rfl
theorem wf_recq (d) (u0) : (Instr.recq d u0).wf =
    (d.regOrZero 4 : Bool) := rfl

/-! ### `build`, and which literals follow, at each major opcode -/

theorem build_0x00 (D A B : BitVec 7) (N : BitVec 4) (l o : Option Word) :
    build (rawOf D A B 0x00#7 N) l o = if (rawOf D A B 0x00#7 N).d == 0 && (rawOf D A B 0x00#7 N).a == 0 && (rawOf D A B 0x00#7 N).b == 0 && (rawOf D A B 0x00#7 N).minor == 0 then .ok .nop else .error .unassigned := rfl
theorem build_0x01 (D A B : BitVec 7) (N : BitVec 4) (l o : Option Word) :
    build (rawOf D A B 0x01#7 N) l o = alu (rawOf D A B 0x01#7 N) l (some (iTy (rawOf D A B 0x01#7 N).m2)) .add := rfl
theorem build_0x02 (D A B : BitVec 7) (N : BitVec 4) (l o : Option Word) :
    build (rawOf D A B 0x02#7 N) l o = alu (rawOf D A B 0x02#7 N) l (only0 (rawOf D A B 0x02#7 N)) .addc := rfl
theorem build_0x03 (D A B : BitVec 7) (N : BitVec 4) (l o : Option Word) :
    build (rawOf D A B 0x03#7 N) l o = alu (rawOf D A B 0x03#7 N) l (some (iTy (rawOf D A B 0x03#7 N).m2)) .isub := rfl
theorem build_0x04 (D A B : BitVec 7) (N : BitVec 4) (l o : Option Word) :
    build (rawOf D A B 0x04#7 N) l o = alu (rawOf D A B 0x04#7 N) l (some (iTy (rawOf D A B 0x04#7 N).m2)) .imul := rfl
theorem build_0x05 (D A B : BitVec 7) (N : BitVec 4) (l o : Option Word) :
    build (rawOf D A B 0x05#7 N) l o = alu (rawOf D A B 0x05#7 N) l (some (iTy (rawOf D A B 0x05#7 N).m2)) .imad := rfl
theorem build_0x06 (D A B : BitVec 7) (N : BitVec 4) (l o : Option Word) :
    build (rawOf D A B 0x06#7 N) l o = if (rawOf D A B 0x06#7 N).minor.getLsbD 0 then un0 (rawOf D A B 0x06#7 N) l (some ()) (.iabs ((rawOf D A B 0x06#7 N).minor.getLsbD 1)) else .error .minor := rfl
theorem build_0x07 (D A B : BitVec 7) (N : BitVec 4) (l o : Option Word) :
    build (rawOf D A B 0x07#7 N) l o = alu (rawOf D A B 0x07#7 N) l (some (iTy (rawOf D A B 0x07#7 N).m2)) .imin := rfl
theorem build_0x08 (D A B : BitVec 7) (N : BitVec 4) (l o : Option Word) :
    build (rawOf D A B 0x08#7 N) l o = alu (rawOf D A B 0x08#7 N) l (some (iTy (rawOf D A B 0x08#7 N).m2)) .imax := rfl
theorem build_0x09 (D A B : BitVec 7) (N : BitVec 4) (l o : Option Word) :
    build (rawOf D A B 0x09#7 N) l o = cmpOp (rawOf D A B 0x09#7 N) l (some (iTy (rawOf D A B 0x09#7 N).m2)) .cmp := rfl
theorem build_0x0A (D A B : BitVec 7) (N : BitVec 4) (l o : Option Word) :
    build (rawOf D A B 0x0A#7 N) l o = alu (rawOf D A B 0x0A#7 N) l (some (rawOf D A B 0x0A#7 N).m2) .lea := rfl
theorem build_0x0B (D A B : BitVec 7) (N : BitVec 4) (l o : Option Word) :
    build (rawOf D A B 0x0B#7 N) l o = alu (rawOf D A B 0x0B#7 N) l (some (iTy (rawOf D A B 0x0B#7 N).m2)) .mov := rfl
theorem build_0x0C (D A B : BitVec 7) (N : BitVec 4) (l o : Option Word) :
    build (rawOf D A B 0x0C#7 N) l o = if (rawOf D A B 0x0C#7 N).minor.extractLsb' 2 2 == 0 then .ok (.movl (iTy (rawOf D A B 0x0C#7 N).m2) (rawOf D A B 0x0C#7 N).d (rawOf D A B 0x0C#7 N).ab) else .error .minor := rfl
theorem build_0x10 (D A B : BitVec 7) (N : BitVec 4) (l o : Option Word) :
    build (rawOf D A B 0x10#7 N) l o = alu (rawOf D A B 0x10#7 N) l (lTy (rawOf D A B 0x10#7 N).m2) .and := rfl
theorem build_0x11 (D A B : BitVec 7) (N : BitVec 4) (l o : Option Word) :
    build (rawOf D A B 0x11#7 N) l o = alu (rawOf D A B 0x11#7 N) l (lTy (rawOf D A B 0x11#7 N).m2) .andn := rfl
theorem build_0x12 (D A B : BitVec 7) (N : BitVec 4) (l o : Option Word) :
    build (rawOf D A B 0x12#7 N) l o = alu (rawOf D A B 0x12#7 N) l (lTy (rawOf D A B 0x12#7 N).m2) .or := rfl
theorem build_0x13 (D A B : BitVec 7) (N : BitVec 4) (l o : Option Word) :
    build (rawOf D A B 0x13#7 N) l o = alu (rawOf D A B 0x13#7 N) l (lTy (rawOf D A B 0x13#7 N).m2) .xor := rfl
theorem build_0x14 (D A B : BitVec 7) (N : BitVec 4) (l o : Option Word) :
    build (rawOf D A B 0x14#7 N) l o = alu (rawOf D A B 0x14#7 N) l (lTy (rawOf D A B 0x14#7 N).m2) .shl := rfl
theorem build_0x15 (D A B : BitVec 7) (N : BitVec 4) (l o : Option Word) :
    build (rawOf D A B 0x15#7 N) l o = alu (rawOf D A B 0x15#7 N) l (lTy (rawOf D A B 0x15#7 N).m2) .shr := rfl
theorem build_0x16 (D A B : BitVec 7) (N : BitVec 4) (l o : Option Word) :
    build (rawOf D A B 0x16#7 N) l o = alu (rawOf D A B 0x16#7 N) l (lTy (rawOf D A B 0x16#7 N).m2) .sar := rfl
theorem build_0x17 (D A B : BitVec 7) (N : BitVec 4) (l o : Option Word) :
    build (rawOf D A B 0x17#7 N) l o = alu (rawOf D A B 0x17#7 N) l (lTy (rawOf D A B 0x17#7 N).m2) .rol := rfl
theorem build_0x18 (D A B : BitVec 7) (N : BitVec 4) (l o : Option Word) :
    build (rawOf D A B 0x18#7 N) l o = alu (rawOf D A B 0x18#7 N) l (some (iTy (rawOf D A B 0x18#7 N).m2)) .bfx := rfl
theorem build_0x19 (D A B : BitVec 7) (N : BitVec 4) (l o : Option Word) :
    build (rawOf D A B 0x19#7 N) l o = alu (rawOf D A B 0x19#7 N) l (lTy (rawOf D A B 0x19#7 N).m2) .bfi := rfl
theorem build_0x1A (D A B : BitVec 7) (N : BitVec 4) (l o : Option Word) :
    build (rawOf D A B 0x1A#7 N) l o = un0 (rawOf D A B 0x1A#7 N) l (lTy (rawOf D A B 0x1A#7 N).m2) .popc := rfl
theorem build_0x1B (D A B : BitVec 7) (N : BitVec 4) (l o : Option Word) :
    build (rawOf D A B 0x1B#7 N) l o = un0 (rawOf D A B 0x1B#7 N) l (lTy (rawOf D A B 0x1B#7 N).m2) .clz := rfl
theorem build_0x1C (D A B : BitVec 7) (N : BitVec 4) (l o : Option Word) :
    build (rawOf D A B 0x1C#7 N) l o = un0 (rawOf D A B 0x1C#7 N) l (lTy (rawOf D A B 0x1C#7 N).m2) .brev := rfl
theorem build_0x1D (D A B : BitVec 7) (N : BitVec 4) (l o : Option Word) :
    build (rawOf D A B 0x1D#7 N) l o = alu (rawOf D A B 0x1D#7 N) l (only0 (rawOf D A B 0x1D#7 N)) .prmb := rfl
theorem build_0x20 (D A B : BitVec 7) (N : BitVec 4) (l o : Option Word) :
    build (rawOf D A B 0x20#7 N) l o = alu (rawOf D A B 0x20#7 N) l (some (fTy (rawOf D A B 0x20#7 N).m2)) .fadd := rfl
theorem build_0x21 (D A B : BitVec 7) (N : BitVec 4) (l o : Option Word) :
    build (rawOf D A B 0x21#7 N) l o = alu (rawOf D A B 0x21#7 N) l (some (fTy (rawOf D A B 0x21#7 N).m2)) .fmul := rfl
theorem build_0x22 (D A B : BitVec 7) (N : BitVec 4) (l o : Option Word) :
    build (rawOf D A B 0x22#7 N) l o = alu (rawOf D A B 0x22#7 N) l (some (fTy (rawOf D A B 0x22#7 N).m2)) .ffma := rfl
theorem build_0x23 (D A B : BitVec 7) (N : BitVec 4) (l o : Option Word) :
    build (rawOf D A B 0x23#7 N) l o = alu (rawOf D A B 0x23#7 N) l (some (fTy (rawOf D A B 0x23#7 N).m2)) .fmin := rfl
theorem build_0x24 (D A B : BitVec 7) (N : BitVec 4) (l o : Option Word) :
    build (rawOf D A B 0x24#7 N) l o = alu (rawOf D A B 0x24#7 N) l (some (fTy (rawOf D A B 0x24#7 N).m2)) .fmax := rfl
theorem build_0x25 (D A B : BitVec 7) (N : BitVec 4) (l o : Option Word) :
    build (rawOf D A B 0x25#7 N) l o = cmpOp (rawOf D A B 0x25#7 N) l (if (rawOf D A B 0x25#7 N).minor.getLsbD 1 then none else some ((rawOf D A B 0x25#7 N).minor.getLsbD 0)) .fcmp := rfl
theorem build_0x26 (D A B : BitVec 7) (N : BitVec 4) (l o : Option Word) :
    build (rawOf D A B 0x26#7 N) l o =    (match sFn ((rawOf D A B 0x26#7 N).a.extractLsb' 0 3) with
     | some f => needZero ((rawOf D A B 0x26#7 N).a.extractLsb' 3 4 == 0) (un (rawOf D A B 0x26#7 N) l (some (fTy (rawOf D A B 0x26#7 N).m2)) (.fsf f))
     | none => .error .field) := rfl
theorem build_0x27 (D A B : BitVec 7) (N : BitVec 4) (l o : Option Word) :
    build (rawOf D A B 0x27#7 N) l o =    (match rDir ((rawOf D A B 0x27#7 N).a.extractLsb' 0 3) with
     | some f => needZero ((rawOf D A B 0x27#7 N).a.extractLsb' 3 4 == 0) (un (rawOf D A B 0x27#7 N) l (some (fTy (rawOf D A B 0x27#7 N).m2)) (.frnd f))
     | none => .error .field) := rfl
theorem build_0x28 (D A B : BitVec 7) (N : BitVec 4) (l o : Option Word) :
    build (rawOf D A B 0x28#7 N) l o = alu (rawOf D A B 0x28#7 N) l (only0 (rawOf D A B 0x28#7 N)) .twosum := rfl
theorem build_0x29 (D A B : BitVec 7) (N : BitVec 4) (l o : Option Word) :
    build (rawOf D A B 0x29#7 N) l o = alu (rawOf D A B 0x29#7 N) l (only0 (rawOf D A B 0x29#7 N)) .twoprd := rfl
theorem build_0x2A (D A B : BitVec 7) (N : BitVec 4) (l o : Option Word) :
    build (rawOf D A B 0x2A#7 N) l o = minor0 (rawOf D A B 0x2A#7 N) (.ok (.cfma (rawOf D A B 0x2A#7 N).d (rawOf D A B 0x2A#7 N).a (rawOf D A B 0x2A#7 N).b)) := rfl
theorem build_0x2B (D A B : BitVec 7) (N : BitVec 4) (l o : Option Word) :
    build (rawOf D A B 0x2B#7 N) l o = un (rawOf D A B 0x2B#7 N) l (some ()) (.cvt (rawOf D A B 0x2B#7 N).a (rawOf D A B 0x2B#7 N).m2) := rfl
theorem build_0x2C (D A B : BitVec 7) (N : BitVec 4) (l o : Option Word) :
    build (rawOf D A B 0x2C#7 N) l o = if (rawOf D A B 0x2C#7 N).minor.extractLsb' 2 2 == 0 then .ok (.qpack (rawOf D A B 0x2C#7 N).d (rawOf D A B 0x2C#7 N).a (rawOf D A B 0x2C#7 N).b (rawOf D A B 0x2C#7 N).m2) else .error .minor := rfl
theorem build_0x2D (D A B : BitVec 7) (N : BitVec 4) (l o : Option Word) :
    build (rawOf D A B 0x2D#7 N) l o = .ok (.qunpk (rawOf D A B 0x2D#7 N).d (rawOf D A B 0x2D#7 N).a (rawOf D A B 0x2D#7 N).b ((rawOf D A B 0x2D#7 N).minor.extractLsb' 2 2) (rawOf D A B 0x2D#7 N).m2 l) := rfl
theorem build_0x30 (D A B : BitVec 7) (N : BitVec 4) (l o : Option Word) :
    build (rawOf D A B 0x30#7 N) l o = minor0 (rawOf D A B 0x30#7 N) (needZero ((rawOf D A B 0x30#7 N).d == 0 && (rawOf D A B 0x30#7 N).a == 0) (.ok (.trap (rawOf D A B 0x30#7 N).b))) := rfl
theorem build_0x31 (D A B : BitVec 7) (N : BitVec 4) (l o : Option Word) :
    build (rawOf D A B 0x31#7 N) l o =    (match (rawOf D A B 0x31#7 N).minor.toNat with
     | 0 => needZero ((rawOf D A B 0x31#7 N).d == 0 && (rawOf D A B 0x31#7 N).a == 0 && (rawOf D A B 0x31#7 N).b == 0) (.ok .eretResume)
     | 1 => needZero ((rawOf D A B 0x31#7 N).d == 0 && (rawOf D A B 0x31#7 N).a == 0 && (rawOf D A B 0x31#7 N).b == 0) (.ok .eretRestart)
     | 2 => needZero ((rawOf D A B 0x31#7 N).d == 0 && (rawOf D A B 0x31#7 N).a == 0 && (rawOf D A B 0x31#7 N).b == 0) (.ok .eretSkip)
     | _ => .error .minor) := rfl
theorem build_0x32 (D A B : BitVec 7) (N : BitVec 4) (l o : Option Word) :
    build (rawOf D A B 0x32#7 N) l o = minor0 (rawOf D A B 0x32#7 N) (needZero ((rawOf D A B 0x32#7 N).a == 0) (.ok (.mfsr (rawOf D A B 0x32#7 N).d (rawOf D A B 0x32#7 N).b))) := rfl
theorem build_0x33 (D A B : BitVec 7) (N : BitVec 4) (l o : Option Word) :
    build (rawOf D A B 0x33#7 N) l o = minor0 (rawOf D A B 0x33#7 N) (needZero ((rawOf D A B 0x33#7 N).d == 0) (.ok (.mtsr (rawOf D A B 0x33#7 N).a (rawOf D A B 0x33#7 N).b l))) := rfl
theorem build_0x34 (D A B : BitVec 7) (N : BitVec 4) (l o : Option Word) :
    build (rawOf D A B 0x34#7 N) l o = minor0 (rawOf D A B 0x34#7 N) (needZero ((rawOf D A B 0x34#7 N).d == 0 && (rawOf D A B 0x34#7 N).a == 0) (.ok (.bkpt (rawOf D A B 0x34#7 N).b))) := rfl
theorem build_0x35 (D A B : BitVec 7) (N : BitVec 4) (l o : Option Word) :
    build (rawOf D A B 0x35#7 N) l o = bare (rawOf D A B 0x35#7 N) .snap := rfl
theorem build_0x36 (D A B : BitVec 7) (N : BitVec 4) (l o : Option Word) :
    build (rawOf D A B 0x36#7 N) l o =    if (rawOf D A B 0x36#7 N).minor.extractLsb' 1 3 != 0 then .error .minor
    else needZero ((rawOf D A B 0x36#7 N).a == 0 && (rawOf D A B 0x36#7 N).b == 0) (.ok (.time (rawOf D A B 0x36#7 N).d ((rawOf D A B 0x36#7 N).minor.getLsbD 0))) := rfl
theorem build_0x38 (D A B : BitVec 7) (N : BitVec 4) (l o : Option Word) :
    build (rawOf D A B 0x38#7 N) l o =    needZero (!(rawOf D A B 0x38#7 N).a.getLsbD 6) (un (rawOf D A B 0x38#7 N) l (lTy (rawOf D A B 0x38#7 N).m2) (.sel ((rawOf D A B 0x38#7 N).a.getLsbD 5) (lo5 (rawOf D A B 0x38#7 N).a))) := rfl
theorem build_0x39 (D A B : BitVec 7) (N : BitVec 4) (l o : Option Word) :
    build (rawOf D A B 0x39#7 N) l o =    needZero (hi2 (rawOf D A B 0x39#7 N).d == 0 && hi2 (rawOf D A B 0x39#7 N).a == 0 && hi2 (rawOf D A B 0x39#7 N).b == 0) (.ok (.plop (lo5 (rawOf D A B 0x39#7 N).d) (lo5 (rawOf D A B 0x39#7 N).a) (lo5 (rawOf D A B 0x39#7 N).b) (rawOf D A B 0x39#7 N).minor)) := rfl
theorem build_0x3A (D A B : BitVec 7) (N : BitVec 4) (l o : Option Word) :
    build (rawOf D A B 0x3A#7 N) l o =    (match (rawOf D A B 0x3A#7 N).minor.toNat with
     | 0 => needZero ((rawOf D A B 0x3A#7 N).a == 0 && hi2 (rawOf D A B 0x3A#7 N).b == 0) (.ok (.pmov (.toReg (rawOf D A B 0x3A#7 N).d (lo5 (rawOf D A B 0x3A#7 N).b))))
     | 1 => needZero ((rawOf D A B 0x3A#7 N).a == 0 && hi2 (rawOf D A B 0x3A#7 N).d == 0) (.ok (.pmov (.toPred (lo5 (rawOf D A B 0x3A#7 N).d) (rawOf D A B 0x3A#7 N).b l)))
     | 2 => needZero ((rawOf D A B 0x3A#7 N).a == 0 && (rawOf D A B 0x3A#7 N).b == 0) (.ok (.pmov (.save (rawOf D A B 0x3A#7 N).d)))
     | 3 => needZero ((rawOf D A B 0x3A#7 N).a == 0 && (rawOf D A B 0x3A#7 N).d == 0) (.ok (.pmov (.load (rawOf D A B 0x3A#7 N).b l)))
     | _ => .error .minor) := rfl
theorem build_0x3B (D A B : BitVec 7) (N : BitVec 4) (l o : Option Word) :
    build (rawOf D A B 0x3B#7 N) l o = alu (rawOf D A B 0x3B#7 N) l (some (shMode (rawOf D A B 0x3B#7 N).m2)) .shfl := rfl
theorem build_0x3C (D A B : BitVec 7) (N : BitVec 4) (l o : Option Word) :
    build (rawOf D A B 0x3C#7 N) l o =    if (rawOf D A B 0x3C#7 N).minor.extractLsb' 2 2 != 0 then .error .minor
    else
      let s := (rawOf D A B 0x3C#7 N).b.getLsbD 5
      let p := lo5 (rawOf D A B 0x3C#7 N).b
      needZero ((rawOf D A B 0x3C#7 N).a == 0 && !(rawOf D A B 0x3C#7 N).b.getLsbD 6)
        (match (rawOf D A B 0x3C#7 N).m2.toNat with
         | 0 => needZero (hi2 (rawOf D A B 0x3C#7 N).d == 0) (.ok (.vote (.all (lo5 (rawOf D A B 0x3C#7 N).d)) s p))
         | 1 => needZero (hi2 (rawOf D A B 0x3C#7 N).d == 0) (.ok (.vote (.any (lo5 (rawOf D A B 0x3C#7 N).d)) s p))
         | 2 => needZero (hi2 (rawOf D A B 0x3C#7 N).d == 0) (.ok (.vote (.eq (lo5 (rawOf D A B 0x3C#7 N).d)) s p))
         | _ => .ok (.vote (.ballot (rawOf D A B 0x3C#7 N).d) s p)) := rfl
theorem build_0x3D (D A B : BitVec 7) (N : BitVec 4) (l o : Option Word) :
    build (rawOf D A B 0x3D#7 N) l o =    (match rTy (rawOf D A B 0x3D#7 N).imm (rawOf D A B 0x3D#7 N).m2, (rawOf D A B 0x3D#7 N).sreg with
     | some t, false =>
       (match redOp ((rawOf D A B 0x3D#7 N).a.extractLsb' 0 3) with
        | some op => needZero ((rawOf D A B 0x3D#7 N).a.extractLsb' 3 4 == 0) (.ok (.rdx op t (rawOf D A B 0x3D#7 N).d (rawOf D A B 0x3D#7 N).b l))
        | none => .error .field)
     | _, _ => .error .minor) := rfl
theorem build_0x3E (D A B : BitVec 7) (N : BitVec 4) (l o : Option Word) :
    build (rawOf D A B 0x3E#7 N) l o =    (match rTy (rawOf D A B 0x3E#7 N).imm (rawOf D A B 0x3E#7 N).m2, (rawOf D A B 0x3E#7 N).sreg with
     | some t, false =>
       (match redOp ((rawOf D A B 0x3E#7 N).a.extractLsb' 0 3) with
        | some op => needZero ((rawOf D A B 0x3E#7 N).a.extractLsb' 4 3 == 0) (.ok (.scan ((rawOf D A B 0x3E#7 N).a.getLsbD 3) op t (rawOf D A B 0x3E#7 N).d (rawOf D A B 0x3E#7 N).b l))
        | none => .error .field)
     | _, _ => .error .minor) := rfl
theorem build_0x40 (D A B : BitVec 7) (N : BitVec 4) (l o : Option Word) :
    build (rawOf D A B 0x40#7 N) l o = minor0 (rawOf D A B 0x40#7 N) (.ok (.bra ((rawOf D A B 0x40#7 N).d ++ (rawOf D A B 0x40#7 N).a ++ (rawOf D A B 0x40#7 N).b))) := rfl
theorem build_0x41 (D A B : BitVec 7) (N : BitVec 4) (l o : Option Word) :
    build (rawOf D A B 0x41#7 N) l o = needZero (!(rawOf D A B 0x41#7 N).d.getLsbD 6) (brOff (rawOf D A B 0x41#7 N) o (.brc ((rawOf D A B 0x41#7 N).d.getLsbD 5) (lo5 (rawOf D A B 0x41#7 N).d))) := rfl
theorem build_0x42 (D A B : BitVec 7) (N : BitVec 4) (l o : Option Word) :
    build (rawOf D A B 0x42#7 N) l o = needZero (!(rawOf D A B 0x42#7 N).d.getLsbD 6 && lo5 (rawOf D A B 0x42#7 N).d == 0) (brOff (rawOf D A B 0x42#7 N) o (.bdq ((rawOf D A B 0x42#7 N).d.getLsbD 5))) := rfl
theorem build_0x43 (D A B : BitVec 7) (N : BitVec 4) (l o : Option Word) :
    build (rawOf D A B 0x43#7 N) l o = minor0 (rawOf D A B 0x43#7 N) (needZero ((rawOf D A B 0x43#7 N).d == 0 && (rawOf D A B 0x43#7 N).b == 0) (.ok (.jmpi (rawOf D A B 0x43#7 N).a))) := rfl
theorem build_0x44 (D A B : BitVec 7) (N : BitVec 4) (l o : Option Word) :
    build (rawOf D A B 0x44#7 N) l o = brOff (rawOf D A B 0x44#7 N) o (.call (rawOf D A B 0x44#7 N).d) := rfl
theorem build_0x45 (D A B : BitVec 7) (N : BitVec 4) (l o : Option Word) :
    build (rawOf D A B 0x45#7 N) l o = minor0 (rawOf D A B 0x45#7 N) (needZero ((rawOf D A B 0x45#7 N).d == 0 && (rawOf D A B 0x45#7 N).b == 0) (.ok (.ret (rawOf D A B 0x45#7 N).a))) := rfl
theorem build_0x46 (D A B : BitVec 7) (N : BitVec 4) (l o : Option Word) :
    build (rawOf D A B 0x46#7 N) l o =    (match only0 (rawOf D A B 0x46#7 N), (rawOf D A B 0x46#7 N).bop with
     | some _, some b => needZero ((rawOf D A B 0x46#7 N).d == 0 && (rawOf D A B 0x46#7 N).a == 0) (.ok (.reform b l))
     | _, _ => .error .minor) := rfl
theorem build_0x47 (D A B : BitVec 7) (N : BitVec 4) (l o : Option Word) :
    build (rawOf D A B 0x47#7 N) l o = bare (rawOf D A B 0x47#7 N) .exit := rfl
theorem build_0x48 (D A B : BitVec 7) (N : BitVec 4) (l o : Option Word) :
    build (rawOf D A B 0x48#7 N) l o =    (match (rawOf D A B 0x48#7 N).minor.toNat with
     | 0 => needZero ((rawOf D A B 0x48#7 N).d == 0 && (rawOf D A B 0x48#7 N).a == 0 && (rawOf D A B 0x48#7 N).b == 0) (.ok .killTeam)
     | 1 => needZero ((rawOf D A B 0x48#7 N).d == 0 && (rawOf D A B 0x48#7 N).a == 0 && (rawOf D A B 0x48#7 N).b == 0) (.ok .killGrid)
     | _ => .error .minor) := rfl
theorem build_0x49 (D A B : BitVec 7) (N : BitVec 4) (l o : Option Word) :
    build (rawOf D A B 0x49#7 N) l o = bare (rawOf D A B 0x49#7 N) .yield := rfl
theorem build_0x4A (D A B : BitVec 7) (N : BitVec 4) (l o : Option Word) :
    build (rawOf D A B 0x4A#7 N) l o =    (match barScope (rawOf D A B 0x4A#7 N).m2, (rawOf D A B 0x4A#7 N).imm with
     | some s, false => needZero ((rawOf D A B 0x4A#7 N).d == 0 && (rawOf D A B 0x4A#7 N).a == 0 && (rawOf D A B 0x4A#7 N).b == 0) (.ok (.bar (rawOf D A B 0x4A#7 N).sreg s))
     | _, _ => .error .minor) := rfl
theorem build_0x4B (D A B : BitVec 7) (N : BitVec 4) (l o : Option Word) :
    build (rawOf D A B 0x4B#7 N) l o = minor0 (rawOf D A B 0x4B#7 N) (needZero ((rawOf D A B 0x4B#7 N).d == 0 && (rawOf D A B 0x4B#7 N).b.extractLsb' 4 3 == 0) (.ok (.launch (rawOf D A B 0x4B#7 N).a ((rawOf D A B 0x4B#7 N).b.extractLsb' 0 4) l))) := rfl
theorem build_0x4C (D A B : BitVec 7) (N : BitVec 4) (l o : Option Word) :
    build (rawOf D A B 0x4C#7 N) l o = minor0 (rawOf D A B 0x4C#7 N) (needZero ((rawOf D A B 0x4C#7 N).d == 0 && (rawOf D A B 0x4C#7 N).b.extractLsb' 4 3 == 0) (.ok (.cont (rawOf D A B 0x4C#7 N).a ((rawOf D A B 0x4C#7 N).b.extractLsb' 0 4) l))) := rfl
theorem build_0x4D (D A B : BitVec 7) (N : BitVec 4) (l o : Option Word) :
    build (rawOf D A B 0x4D#7 N) l o =    if (rawOf D A B 0x4D#7 N).sreg || (rawOf D A B 0x4D#7 N).minor.getLsbD 1 then .error .minor
    else needZero ((rawOf D A B 0x4D#7 N).d == 0 && (rawOf D A B 0x4D#7 N).a == 0)
      (.ok (.dqpush (if (rawOf D A B 0x4D#7 N).imm then .imm (rawOf D A B 0x4D#7 N).b else .reg (rawOf D A B 0x4D#7 N).b) ((rawOf D A B 0x4D#7 N).minor.getLsbD 0) l)) := rfl
theorem build_0x4E (D A B : BitVec 7) (N : BitVec 4) (l o : Option Word) :
    build (rawOf D A B 0x4E#7 N) l o = minor0 (rawOf D A B 0x4E#7 N) (needZero ((rawOf D A B 0x4E#7 N).a == 0 && (rawOf D A B 0x4E#7 N).b == 0) (.ok (.dqpop (rawOf D A B 0x4E#7 N).d))) := rfl
theorem build_0x4F (D A B : BitVec 7) (N : BitVec 4) (l o : Option Word) :
    build (rawOf D A B 0x4F#7 N) l o =    minor0 (rawOf D A B 0x4F#7 N) (needZero ((rawOf D A B 0x4F#7 N).d == 0 && (rawOf D A B 0x4F#7 N).a == 0 && (rawOf D A B 0x4F#7 N).b.extractLsb' 0 3 == 0) (.ok (.winb ((rawOf D A B 0x4F#7 N).b.extractLsb' 3 4)))) := rfl
theorem build_0x50 (D A B : BitVec 7) (N : BitVec 4) (l o : Option Word) :
    build (rawOf D A B 0x50#7 N) l o = memOp (rawOf D A B 0x50#7 N) l o (width7 (rawOf D A B 0x50#7 N).minor) .ld := rfl
theorem build_0x51 (D A B : BitVec 7) (N : BitVec 4) (l o : Option Word) :
    build (rawOf D A B 0x51#7 N) l o = memOp (rawOf D A B 0x51#7 N) l o (width7 (rawOf D A B 0x51#7 N).minor) .st := rfl
theorem build_0x52 (D A B : BitVec 7) (N : BitVec 4) (l o : Option Word) :
    build (rawOf D A B 0x52#7 N) l o = (match width7 (rawOf D A B 0x52#7 N).minor with | some w => padOp (rawOf D A B 0x52#7 N) l o (.lds w) | none => .error .minor) := rfl
theorem build_0x53 (D A B : BitVec 7) (N : BitVec 4) (l o : Option Word) :
    build (rawOf D A B 0x53#7 N) l o = (match width7 (rawOf D A B 0x53#7 N).minor with | some w => padOp (rawOf D A B 0x53#7 N) l o (.sts w) | none => .error .minor) := rfl
theorem build_0x54 (D A B : BitVec 7) (N : BitVec 4) (l o : Option Word) :
    build (rawOf D A B 0x54#7 N) l o = (match width7 (rawOf D A B 0x54#7 N).minor with | some w => padOp (rawOf D A B 0x54#7 N) l o (.fpush w) | none => .error .minor) := rfl
theorem build_0x55 (D A B : BitVec 7) (N : BitVec 4) (l o : Option Word) :
    build (rawOf D A B 0x55#7 N) l o = (match width7 (rawOf D A B 0x55#7 N).minor with | some w => padOp (rawOf D A B 0x55#7 N) l o (.fpop w) | none => .error .minor) := rfl
theorem build_0x56 (D A B : BitVec 7) (N : BitVec 4) (l o : Option Word) :
    build (rawOf D A B 0x56#7 N) l o =    (match bankMode (rawOf D A B 0x56#7 N).m2, (rawOf D A B 0x56#7 N).imm with
     | some m, false =>
       needZero (hi2 (rawOf D A B 0x56#7 N).d == 0 && hi2 (rawOf D A B 0x56#7 N).a == 0 && (rawOf D A B 0x56#7 N).b == 0 && ((rawOf D A B 0x56#7 N).sreg || lo5 (rawOf D A B 0x56#7 N).d == 0))
         (.ok (.bank (if (rawOf D A B 0x56#7 N).sreg then some (lo5 (rawOf D A B 0x56#7 N).d) else none) (lo5 (rawOf D A B 0x56#7 N).a) m))
     | _, _ => .error .minor) := rfl
theorem build_0x57 (D A B : BitVec 7) (N : BitVec 4) (l o : Option Word) :
    build (rawOf D A B 0x57#7 N) l o =    (match scope3 (rawOf D A B 0x57#7 N).m2 with
     | some s => if (rawOf D A B 0x57#7 N).minor.extractLsb' 2 2 != 0 then .error .minor
                 else needZero ((rawOf D A B 0x57#7 N).d == 0 && (rawOf D A B 0x57#7 N).a == 0 && (rawOf D A B 0x57#7 N).b == 0) (.ok (.fence s))
     | none => .error .minor) := rfl
theorem build_0x58 (D A B : BitVec 7) (N : BitVec 4) (l o : Option Word) :
    build (rawOf D A B 0x58#7 N) l o = bare (rawOf D A B 0x58#7 N) .tlfence := rfl
theorem build_0x59 (D A B : BitVec 7) (N : BitVec 4) (l o : Option Word) :
    build (rawOf D A B 0x59#7 N) l o = minor0 (rawOf D A B 0x59#7 N) (padOp (rawOf D A B 0x59#7 N) l o .disc) := rfl
theorem build_0x5A (D A B : BitVec 7) (N : BitVec 4) (l o : Option Word) :
    build (rawOf D A B 0x5A#7 N) l o = minor0 (rawOf D A B 0x5A#7 N) (padOp (rawOf D A B 0x5A#7 N) l o .arm) := rfl
theorem build_0x5B (D A B : BitVec 7) (N : BitVec 4) (l o : Option Word) :
    build (rawOf D A B 0x5B#7 N) l o = minor0 (rawOf D A B 0x5B#7 N) (padOp (rawOf D A B 0x5B#7 N) l o .await) := rfl
theorem build_0x5C (D A B : BitVec 7) (N : BitVec 4) (l o : Option Word) :
    build (rawOf D A B 0x5C#7 N) l o = bare (rawOf D A B 0x5C#7 N) .xacq := rfl
theorem build_0x5D (D A B : BitVec 7) (N : BitVec 4) (l o : Option Word) :
    build (rawOf D A B 0x5D#7 N) l o = bare (rawOf D A B 0x5D#7 N) .xrel := rfl
theorem build_0x60 (D A B : BitVec 7) (N : BitVec 4) (l o : Option Word) :
    build (rawOf D A B 0x60#7 N) l o = memOp (rawOf D A B 0x60#7 N) l o (some (atomOp (rawOf D A B 0x60#7 N).minor)) .atom := rfl
theorem build_0x61 (D A B : BitVec 7) (N : BitVec 4) (l o : Option Word) :
    build (rawOf D A B 0x61#7 N) l o = memOp (rawOf D A B 0x61#7 N) l o (match (rawOf D A B 0x61#7 N).minor.toNat with | 0 => some AtomxOp.cas | 1 => some .exch | _ => none) .atomx := rfl
theorem build_0x62 (D A B : BitVec 7) (N : BitVec 4) (l o : Option Word) :
    build (rawOf D A B 0x62#7 N) l o = memOp (rawOf D A B 0x62#7 N) l o (redAt (rawOf D A B 0x62#7 N).minor) .red := rfl
theorem build_0x63 (D A B : BitVec 7) (N : BitVec 4) (l o : Option Word) :
    build (rawOf D A B 0x63#7 N) l o = bare (rawOf D A B 0x63#7 N) .rgn := rfl
theorem build_0x64 (D A B : BitVec 7) (N : BitVec 4) (l o : Option Word) :
    build (rawOf D A B 0x64#7 N) l o = bare (rawOf D A B 0x64#7 N) .rgnc := rfl
theorem build_0x68 (D A B : BitVec 7) (N : BitVec 4) (l o : Option Word) :
    build (rawOf D A B 0x68#7 N) l o =    if (rawOf D A B 0x68#7 N).imm then .error .minor
    else needZero ((rawOf D A B 0x68#7 N).a == 0)
      (match (rawOf D A B 0x68#7 N).m2.toNat with
       | 0 => .ok (.lget (rawOf D A B 0x68#7 N).d (.one (if (rawOf D A B 0x68#7 N).sreg then .sreg (rawOf D A B 0x68#7 N).b else .reg (rawOf D A B 0x68#7 N).b)) l)
       | 1 => .ok (.lget (rawOf D A B 0x68#7 N).d (.pair (if (rawOf D A B 0x68#7 N).sreg then .sreg (rawOf D A B 0x68#7 N).b else .reg (rawOf D A B 0x68#7 N).b)) l)
       | 2 => if (rawOf D A B 0x68#7 N).sreg then .error .minor else needZero (hi2 (rawOf D A B 0x68#7 N).b == 0) (.ok (.lget (rawOf D A B 0x68#7 N).d (.pred (lo5 (rawOf D A B 0x68#7 N).b)) l))
       | _ => .error .minor) := rfl
theorem build_0x69 (D A B : BitVec 7) (N : BitVec 4) (l o : Option Word) :
    build (rawOf D A B 0x69#7 N) l o =    if (rawOf D A B 0x69#7 N).imm || (rawOf D A B 0x69#7 N).minor.getLsbD 1 then .error .minor
    else alu (rawOf D A B 0x69#7 N) l (some ()) (.ljoin ((rawOf D A B 0x69#7 N).minor.getLsbD 0)) := rfl
theorem build_0x6A (D A B : BitVec 7) (N : BitVec 4) (l o : Option Word) :
    build (rawOf D A B 0x6A#7 N) l o =    if (rawOf D A B 0x6A#7 N).imm || (rawOf D A B 0x6A#7 N).m2 != 0 then .error .minor
    else needZero ((rawOf D A B 0x6A#7 N).d == 0 && (rawOf D A B 0x6A#7 N).a == 0) (.ok (.lceil (if (rawOf D A B 0x6A#7 N).sreg then .sreg (rawOf D A B 0x6A#7 N).b else .reg (rawOf D A B 0x6A#7 N).b) l)) := rfl
theorem build_0x6B (D A B : BitVec 7) (N : BitVec 4) (l o : Option Word) :
    build (rawOf D A B 0x6B#7 N) l o = minor0 (rawOf D A B 0x6B#7 N) (needZero ((rawOf D A B 0x6B#7 N).d == 0 && (rawOf D A B 0x6B#7 N).b == 0) (.ok (.endo (rawOf D A B 0x6B#7 N).a))) := rfl
theorem build_0x6C (D A B : BitVec 7) (N : BitVec 4) (l o : Option Word) :
    build (rawOf D A B 0x6C#7 N) l o =    if (rawOf D A B 0x6C#7 N).imm || (rawOf D A B 0x6C#7 N).minor.getLsbD 1 then .error .minor
    else alu (rawOf D A B 0x6C#7 N) l (some ()) (.decl ((rawOf D A B 0x6C#7 N).minor.getLsbD 0)) := rfl
theorem build_0x70 (D A B : BitVec 7) (N : BitVec 4) (l o : Option Word) :
    build (rawOf D A B 0x70#7 N) l o =    (match mFmt (rawOf D A B 0x70#7 N).m3, (rawOf D A B 0x70#7 N).imm with
     | some f, false =>
       needZero (!(rawOf D A B 0x70#7 N).d.getLsbD 6) (.ok (.mma f ((rawOf D A B 0x70#7 N).d.extractLsb' 0 6) (hi2 (rawOf D A B 0x70#7 N).a ++ hi2 (rawOf D A B 0x70#7 N).b) (lo5 (rawOf D A B 0x70#7 N).a) (lo5 (rawOf D A B 0x70#7 N).b) l))
     | _, _ => .error .minor) := rfl
theorem build_0x71 (D A B : BitVec 7) (N : BitVec 4) (l o : Option Word) :
    build (rawOf D A B 0x71#7 N) l o =    needZero (!(rawOf D A B 0x71#7 N).d.getLsbD 6)
      (.ok (.mmasp (sFmt (rawOf D A B 0x71#7 N).m2) ((rawOf D A B 0x71#7 N).minor.extractLsb' 2 2) ((rawOf D A B 0x71#7 N).d.extractLsb' 0 6) (hi2 (rawOf D A B 0x71#7 N).a ++ hi2 (rawOf D A B 0x71#7 N).b) (lo5 (rawOf D A B 0x71#7 N).a) (lo5 (rawOf D A B 0x71#7 N).b))) := rfl
theorem build_0x72 (D A B : BitVec 7) (N : BitVec 4) (l o : Option Word) :
    build (rawOf D A B 0x72#7 N) l o =    (match ldForm (rawOf D A B 0x72#7 N).minor with
     | some f => needZero (!(rawOf D A B 0x72#7 N).d.getLsbD 6 && (rawOf D A B 0x72#7 N).b.extractLsb' 4 3 == 0)
         (.ok (.accld f ((rawOf D A B 0x72#7 N).d.extractLsb' 0 6) (rawOf D A B 0x72#7 N).a ((rawOf D A B 0x72#7 N).b.extractLsb' 0 4)))
     | none => .error .minor) := rfl
theorem build_0x73 (D A B : BitVec 7) (N : BitVec 4) (l o : Option Word) :
    build (rawOf D A B 0x73#7 N) l o =    (match stForm (rawOf D A B 0x73#7 N).minor with
     | some f => needZero (!(rawOf D A B 0x73#7 N).a.getLsbD 6 && (rawOf D A B 0x73#7 N).b.extractLsb' 4 3 == 0)
         (.ok (.accst f (rawOf D A B 0x73#7 N).d ((rawOf D A B 0x73#7 N).a.extractLsb' 0 6) ((rawOf D A B 0x73#7 N).b.extractLsb' 0 4)))
     | none => .error .minor) := rfl
theorem build_0x74 (D A B : BitVec 7) (N : BitVec 4) (l o : Option Word) :
    build (rawOf D A B 0x74#7 N) l o =    if (rawOf D A B 0x74#7 N).imm || (rawOf D A B 0x74#7 N).m2 != 0 then .error .minor
    else needZero ((rawOf D A B 0x74#7 N).d.extractLsb' 4 3 == 0 && (rawOf D A B 0x74#7 N).a.extractLsb' 1 6 == 0 && !((rawOf D A B 0x74#7 N).sreg && (rawOf D A B 0x74#7 N).a.getLsbD 0))
      (.ok (.sign ((rawOf D A B 0x74#7 N).d.extractLsb' 0 4) (if (rawOf D A B 0x74#7 N).sreg then .sreg (rawOf D A B 0x74#7 N).b else .imm ((rawOf D A B 0x74#7 N).a.extractLsb' 0 1 ++ (rawOf D A B 0x74#7 N).b)))) := rfl
theorem build_0x75 (D A B : BitVec 7) (N : BitVec 4) (l o : Option Word) :
    build (rawOf D A B 0x75#7 N) l o =    minor0 (rawOf D A B 0x75#7 N) (needZero ((rawOf D A B 0x75#7 N).d == 0 && (rawOf D A B 0x75#7 N).a == 0 && (rawOf D A B 0x75#7 N).b.extractLsb' 4 3 == 0) (.ok (.jwait ((rawOf D A B 0x75#7 N).b.extractLsb' 0 4)))) := rfl
theorem build_0x76 (D A B : BitVec 7) (N : BitVec 4) (l o : Option Word) :
    build (rawOf D A B 0x76#7 N) l o = minor0 (rawOf D A B 0x76#7 N) (needZero ((rawOf D A B 0x76#7 N).a == 0 && (rawOf D A B 0x76#7 N).b == 0) (.ok (.tide (rawOf D A B 0x76#7 N).d))) := rfl
theorem build_0x78 (D A B : BitVec 7) (N : BitVec 4) (l o : Option Word) :
    build (rawOf D A B 0x78#7 N) l o = needZero ((rawOf D A B 0x78#7 N).d == 0 && (rawOf D A B 0x78#7 N).b == 0) (jobOp (rawOf D A B 0x78#7 N) (fun x => .cpy (rawOf D A B 0x78#7 N).a x l)) := rfl
theorem build_0x79 (D A B : BitVec 7) (N : BitVec 4) (l o : Option Word) :
    build (rawOf D A B 0x79#7 N) l o = needZero ((rawOf D A B 0x79#7 N).d == 0) (jobOp (rawOf D A B 0x79#7 N) (fun x => .cpym (rawOf D A B 0x79#7 N).a (rawOf D A B 0x79#7 N).b x l)) := rfl
theorem build_0x7A (D A B : BitVec 7) (N : BitVec 4) (l o : Option Word) :
    build (rawOf D A B 0x7A#7 N) l o =    needZero ((rawOf D A B 0x7A#7 N).b == 0)
      (if (rawOf D A B 0x7A#7 N).d == 127 then jobOp (rawOf D A B 0x7A#7 N) (fun x => .coll none (rawOf D A B 0x7A#7 N).a x l)
       else needZero (!(rawOf D A B 0x7A#7 N).d.getLsbD 6) (jobOp (rawOf D A B 0x7A#7 N) (fun x => .coll (some ((rawOf D A B 0x7A#7 N).d.extractLsb' 0 6)) (rawOf D A B 0x7A#7 N).a x l))) := rfl
theorem build_0x7B (D A B : BitVec 7) (N : BitVec 4) (l o : Option Word) :
    build (rawOf D A B 0x7B#7 N) l o = needZero ((rawOf D A B 0x7B#7 N).d == 0 && (rawOf D A B 0x7B#7 N).b == 0) (jobOp (rawOf D A B 0x7B#7 N) (fun x => .xperm (rawOf D A B 0x7B#7 N).a x l)) := rfl
theorem build_0x7C (D A B : BitVec 7) (N : BitVec 4) (l o : Option Word) :
    build (rawOf D A B 0x7C#7 N) l o =    if (rawOf D A B 0x7C#7 N).minor.extractLsb' 2 2 != 0 then .error .minor
    else
      let m := (rawOf D A B 0x7C#7 N).d.extractLsb' 0 4
      needZero ((rawOf D A B 0x7C#7 N).d.extractLsb' 4 3 == 0)
        (match (rawOf D A B 0x7C#7 N).m2.toNat with
         | 0 => .ok (.recBegin m (rawOf D A B 0x7C#7 N).a (rawOf D A B 0x7C#7 N).b l)
         | 1 => needZero ((rawOf D A B 0x7C#7 N).a == 0 && (rawOf D A B 0x7C#7 N).b == 0) (.ok (.recEnd m))
         | 2 => needZero ((rawOf D A B 0x7C#7 N).a == 0) (.ok (.recPlay m (rawOf D A B 0x7C#7 N).b l))
         | _ => needZero ((rawOf D A B 0x7C#7 N).a == 0 && (rawOf D A B 0x7C#7 N).b == 0) (.ok (.recDrop m))) := rfl
theorem build_0x7D (D A B : BitVec 7) (N : BitVec 4) (l o : Option Word) :
    build (rawOf D A B 0x7D#7 N) l o = minor0 (rawOf D A B 0x7D#7 N) (needZero ((rawOf D A B 0x7D#7 N).a == 0 && (rawOf D A B 0x7D#7 N).b.extractLsb' 4 3 == 0) (.ok (.recq (rawOf D A B 0x7D#7 N).d ((rawOf D A B 0x7D#7 N).b.extractLsb' 0 4)))) := rfl
theorem opLit_0x01 (D A B : BitVec 7) (N : BitVec 4) : (rawOf D A B 0x01#7 N).opLit =
    (Fld.isLit A || ((rawOf D A B 0x01#7 N).bReg && Fld.isLit B) : Bool) := rfl
theorem opLit_0x02 (D A B : BitVec 7) (N : BitVec 4) : (rawOf D A B 0x02#7 N).opLit =
    (Fld.isLit A || ((rawOf D A B 0x02#7 N).bReg && Fld.isLit B) : Bool) := rfl
theorem opLit_0x03 (D A B : BitVec 7) (N : BitVec 4) : (rawOf D A B 0x03#7 N).opLit =
    (Fld.isLit A || ((rawOf D A B 0x03#7 N).bReg && Fld.isLit B) : Bool) := rfl
theorem opLit_0x04 (D A B : BitVec 7) (N : BitVec 4) : (rawOf D A B 0x04#7 N).opLit =
    (Fld.isLit A || ((rawOf D A B 0x04#7 N).bReg && Fld.isLit B) : Bool) := rfl
theorem opLit_0x07 (D A B : BitVec 7) (N : BitVec 4) : (rawOf D A B 0x07#7 N).opLit =
    (Fld.isLit A || ((rawOf D A B 0x07#7 N).bReg && Fld.isLit B) : Bool) := rfl
theorem opLit_0x08 (D A B : BitVec 7) (N : BitVec 4) : (rawOf D A B 0x08#7 N).opLit =
    (Fld.isLit A || ((rawOf D A B 0x08#7 N).bReg && Fld.isLit B) : Bool) := rfl
theorem opLit_0x09 (D A B : BitVec 7) (N : BitVec 4) : (rawOf D A B 0x09#7 N).opLit =
    (Fld.isLit A || ((rawOf D A B 0x09#7 N).bReg && Fld.isLit B) : Bool) := rfl
theorem opLit_0x0A (D A B : BitVec 7) (N : BitVec 4) : (rawOf D A B 0x0A#7 N).opLit =
    (Fld.isLit A || ((rawOf D A B 0x0A#7 N).bReg && Fld.isLit B) : Bool) := rfl
theorem opLit_0x10 (D A B : BitVec 7) (N : BitVec 4) : (rawOf D A B 0x10#7 N).opLit =
    (Fld.isLit A || ((rawOf D A B 0x10#7 N).bReg && Fld.isLit B) : Bool) := rfl
theorem opLit_0x11 (D A B : BitVec 7) (N : BitVec 4) : (rawOf D A B 0x11#7 N).opLit =
    (Fld.isLit A || ((rawOf D A B 0x11#7 N).bReg && Fld.isLit B) : Bool) := rfl
theorem opLit_0x12 (D A B : BitVec 7) (N : BitVec 4) : (rawOf D A B 0x12#7 N).opLit =
    (Fld.isLit A || ((rawOf D A B 0x12#7 N).bReg && Fld.isLit B) : Bool) := rfl
theorem opLit_0x13 (D A B : BitVec 7) (N : BitVec 4) : (rawOf D A B 0x13#7 N).opLit =
    (Fld.isLit A || ((rawOf D A B 0x13#7 N).bReg && Fld.isLit B) : Bool) := rfl
theorem opLit_0x14 (D A B : BitVec 7) (N : BitVec 4) : (rawOf D A B 0x14#7 N).opLit =
    (Fld.isLit A || ((rawOf D A B 0x14#7 N).bReg && Fld.isLit B) : Bool) := rfl
theorem opLit_0x15 (D A B : BitVec 7) (N : BitVec 4) : (rawOf D A B 0x15#7 N).opLit =
    (Fld.isLit A || ((rawOf D A B 0x15#7 N).bReg && Fld.isLit B) : Bool) := rfl
theorem opLit_0x16 (D A B : BitVec 7) (N : BitVec 4) : (rawOf D A B 0x16#7 N).opLit =
    (Fld.isLit A || ((rawOf D A B 0x16#7 N).bReg && Fld.isLit B) : Bool) := rfl
theorem opLit_0x17 (D A B : BitVec 7) (N : BitVec 4) : (rawOf D A B 0x17#7 N).opLit =
    (Fld.isLit A || ((rawOf D A B 0x17#7 N).bReg && Fld.isLit B) : Bool) := rfl
theorem opLit_0x18 (D A B : BitVec 7) (N : BitVec 4) : (rawOf D A B 0x18#7 N).opLit =
    (Fld.isLit A || ((rawOf D A B 0x18#7 N).bReg && Fld.isLit B) : Bool) := rfl
theorem opLit_0x1D (D A B : BitVec 7) (N : BitVec 4) : (rawOf D A B 0x1D#7 N).opLit =
    (Fld.isLit A || ((rawOf D A B 0x1D#7 N).bReg && Fld.isLit B) : Bool) := rfl
theorem opLit_0x20 (D A B : BitVec 7) (N : BitVec 4) : (rawOf D A B 0x20#7 N).opLit =
    (Fld.isLit A || ((rawOf D A B 0x20#7 N).bReg && Fld.isLit B) : Bool) := rfl
theorem opLit_0x21 (D A B : BitVec 7) (N : BitVec 4) : (rawOf D A B 0x21#7 N).opLit =
    (Fld.isLit A || ((rawOf D A B 0x21#7 N).bReg && Fld.isLit B) : Bool) := rfl
theorem opLit_0x23 (D A B : BitVec 7) (N : BitVec 4) : (rawOf D A B 0x23#7 N).opLit =
    (Fld.isLit A || ((rawOf D A B 0x23#7 N).bReg && Fld.isLit B) : Bool) := rfl
theorem opLit_0x24 (D A B : BitVec 7) (N : BitVec 4) : (rawOf D A B 0x24#7 N).opLit =
    (Fld.isLit A || ((rawOf D A B 0x24#7 N).bReg && Fld.isLit B) : Bool) := rfl
theorem opLit_0x25 (D A B : BitVec 7) (N : BitVec 4) : (rawOf D A B 0x25#7 N).opLit =
    (Fld.isLit A || ((rawOf D A B 0x25#7 N).bReg && Fld.isLit B) : Bool) := rfl
theorem opLit_0x28 (D A B : BitVec 7) (N : BitVec 4) : (rawOf D A B 0x28#7 N).opLit =
    (Fld.isLit A || ((rawOf D A B 0x28#7 N).bReg && Fld.isLit B) : Bool) := rfl
theorem opLit_0x29 (D A B : BitVec 7) (N : BitVec 4) : (rawOf D A B 0x29#7 N).opLit =
    (Fld.isLit A || ((rawOf D A B 0x29#7 N).bReg && Fld.isLit B) : Bool) := rfl
theorem opLit_0x3B (D A B : BitVec 7) (N : BitVec 4) : (rawOf D A B 0x3B#7 N).opLit =
    (Fld.isLit A || ((rawOf D A B 0x3B#7 N).bReg && Fld.isLit B) : Bool) := rfl
theorem opLit_0x05 (D A B : BitVec 7) (N : BitVec 4) : (rawOf D A B 0x05#7 N).opLit =
    (Fld.isLit A || ((rawOf D A B 0x05#7 N).bReg && Fld.isLit B) || Fld.isLit D : Bool) := rfl
theorem opLit_0x19 (D A B : BitVec 7) (N : BitVec 4) : (rawOf D A B 0x19#7 N).opLit =
    (Fld.isLit A || ((rawOf D A B 0x19#7 N).bReg && Fld.isLit B) || Fld.isLit D : Bool) := rfl
theorem opLit_0x22 (D A B : BitVec 7) (N : BitVec 4) : (rawOf D A B 0x22#7 N).opLit =
    (Fld.isLit A || ((rawOf D A B 0x22#7 N).bReg && Fld.isLit B) || Fld.isLit D : Bool) := rfl
theorem opLit_0x06 (D A B : BitVec 7) (N : BitVec 4) : (rawOf D A B 0x06#7 N).opLit =
    (((rawOf D A B 0x06#7 N).bReg && Fld.isLit B) : Bool) := rfl
theorem opLit_0x1A (D A B : BitVec 7) (N : BitVec 4) : (rawOf D A B 0x1A#7 N).opLit =
    (((rawOf D A B 0x1A#7 N).bReg && Fld.isLit B) : Bool) := rfl
theorem opLit_0x1B (D A B : BitVec 7) (N : BitVec 4) : (rawOf D A B 0x1B#7 N).opLit =
    (((rawOf D A B 0x1B#7 N).bReg && Fld.isLit B) : Bool) := rfl
theorem opLit_0x1C (D A B : BitVec 7) (N : BitVec 4) : (rawOf D A B 0x1C#7 N).opLit =
    (((rawOf D A B 0x1C#7 N).bReg && Fld.isLit B) : Bool) := rfl
theorem opLit_0x26 (D A B : BitVec 7) (N : BitVec 4) : (rawOf D A B 0x26#7 N).opLit =
    (((rawOf D A B 0x26#7 N).bReg && Fld.isLit B) : Bool) := rfl
theorem opLit_0x27 (D A B : BitVec 7) (N : BitVec 4) : (rawOf D A B 0x27#7 N).opLit =
    (((rawOf D A B 0x27#7 N).bReg && Fld.isLit B) : Bool) := rfl
theorem opLit_0x46 (D A B : BitVec 7) (N : BitVec 4) : (rawOf D A B 0x46#7 N).opLit =
    (((rawOf D A B 0x46#7 N).bReg && Fld.isLit B) : Bool) := rfl
theorem opLit_0x4D (D A B : BitVec 7) (N : BitVec 4) : (rawOf D A B 0x4D#7 N).opLit =
    (((rawOf D A B 0x4D#7 N).bReg && Fld.isLit B) : Bool) := rfl
theorem opLit_0x6A (D A B : BitVec 7) (N : BitVec 4) : (rawOf D A B 0x6A#7 N).opLit =
    (((rawOf D A B 0x6A#7 N).bReg && Fld.isLit B) : Bool) := rfl
theorem opLit_0x0B (D A B : BitVec 7) (N : BitVec 4) : (rawOf D A B 0x0B#7 N).opLit =
    (((rawOf D A B 0x0B#7 N).bReg && Fld.isLit B) || ((rawOf D A B 0x0B#7 N).sreg && !(rawOf D A B 0x0B#7 N).imm && Fld.isLit A) : Bool) := rfl
theorem opLit_0x2A (D A B : BitVec 7) (N : BitVec 4) : (rawOf D A B 0x2A#7 N).opLit =
    (Fld.isLit A || Fld.isLit B || Fld.isLit D : Bool) := rfl
theorem opLit_0x2B (D A B : BitVec 7) (N : BitVec 4) : (rawOf D A B 0x2B#7 N).opLit =
    (((rawOf D A B 0x2B#7 N).bReg && Fld.isLit B) || ((cvtShape (rawOf D A B 0x2B#7 N).a (rawOf D A B 0x2B#7 N).m2).dsrc && Fld.isLit D) : Bool) := rfl
theorem opLit_0x2C (D A B : BitVec 7) (N : BitVec 4) : (rawOf D A B 0x2C#7 N).opLit =
    (Fld.isLit A || Fld.isLit B : Bool) := rfl
theorem opLit_0x2D (D A B : BitVec 7) (N : BitVec 4) : (rawOf D A B 0x2D#7 N).opLit =
    (Fld.isLit A || Fld.isLit B : Bool) := rfl
theorem opLit_0x33 (D A B : BitVec 7) (N : BitVec 4) : (rawOf D A B 0x33#7 N).opLit =
    (Fld.isLit A : Bool) := rfl
theorem opLit_0x43 (D A B : BitVec 7) (N : BitVec 4) : (rawOf D A B 0x43#7 N).opLit =
    (Fld.isLit A : Bool) := rfl
theorem opLit_0x45 (D A B : BitVec 7) (N : BitVec 4) : (rawOf D A B 0x45#7 N).opLit =
    (Fld.isLit A : Bool) := rfl
theorem opLit_0x4B (D A B : BitVec 7) (N : BitVec 4) : (rawOf D A B 0x4B#7 N).opLit =
    (Fld.isLit A : Bool) := rfl
theorem opLit_0x4C (D A B : BitVec 7) (N : BitVec 4) : (rawOf D A B 0x4C#7 N).opLit =
    (Fld.isLit A : Bool) := rfl
theorem opLit_0x50 (D A B : BitVec 7) (N : BitVec 4) : (rawOf D A B 0x50#7 N).opLit =
    (Fld.isLit A : Bool) := rfl
theorem opLit_0x52 (D A B : BitVec 7) (N : BitVec 4) : (rawOf D A B 0x52#7 N).opLit =
    (Fld.isLit A : Bool) := rfl
theorem opLit_0x55 (D A B : BitVec 7) (N : BitVec 4) : (rawOf D A B 0x55#7 N).opLit =
    (Fld.isLit A : Bool) := rfl
theorem opLit_0x6B (D A B : BitVec 7) (N : BitVec 4) : (rawOf D A B 0x6B#7 N).opLit =
    (Fld.isLit A : Bool) := rfl
theorem opLit_0x72 (D A B : BitVec 7) (N : BitVec 4) : (rawOf D A B 0x72#7 N).opLit =
    (Fld.isLit A : Bool) := rfl
theorem opLit_0x78 (D A B : BitVec 7) (N : BitVec 4) : (rawOf D A B 0x78#7 N).opLit =
    (Fld.isLit A : Bool) := rfl
theorem opLit_0x7A (D A B : BitVec 7) (N : BitVec 4) : (rawOf D A B 0x7A#7 N).opLit =
    (Fld.isLit A : Bool) := rfl
theorem opLit_0x7B (D A B : BitVec 7) (N : BitVec 4) : (rawOf D A B 0x7B#7 N).opLit =
    (Fld.isLit A : Bool) := rfl
theorem opLit_0x38 (D A B : BitVec 7) (N : BitVec 4) : (rawOf D A B 0x38#7 N).opLit =
    (((rawOf D A B 0x38#7 N).bReg && Fld.isLit B) || Fld.isLit D : Bool) := rfl
theorem opLit_0x3A (D A B : BitVec 7) (N : BitVec 4) : (rawOf D A B 0x3A#7 N).opLit =
    (((rawOf D A B 0x3A#7 N).minor == 1 || (rawOf D A B 0x3A#7 N).minor == 3) && Fld.isLit B : Bool) := rfl
theorem opLit_0x3D (D A B : BitVec 7) (N : BitVec 4) : (rawOf D A B 0x3D#7 N).opLit =
    (Fld.isLit B : Bool) := rfl
theorem opLit_0x3E (D A B : BitVec 7) (N : BitVec 4) : (rawOf D A B 0x3E#7 N).opLit =
    (Fld.isLit B : Bool) := rfl
theorem opLit_0x51 (D A B : BitVec 7) (N : BitVec 4) : (rawOf D A B 0x51#7 N).opLit =
    (Fld.isLit A || Fld.isLit D : Bool) := rfl
theorem opLit_0x53 (D A B : BitVec 7) (N : BitVec 4) : (rawOf D A B 0x53#7 N).opLit =
    (Fld.isLit A || Fld.isLit D : Bool) := rfl
theorem opLit_0x54 (D A B : BitVec 7) (N : BitVec 4) : (rawOf D A B 0x54#7 N).opLit =
    (Fld.isLit A || Fld.isLit D : Bool) := rfl
theorem opLit_0x59 (D A B : BitVec 7) (N : BitVec 4) : (rawOf D A B 0x59#7 N).opLit =
    (Fld.isLit A || Fld.isLit D : Bool) := rfl
theorem opLit_0x5A (D A B : BitVec 7) (N : BitVec 4) : (rawOf D A B 0x5A#7 N).opLit =
    (Fld.isLit A || Fld.isLit D : Bool) := rfl
theorem opLit_0x5B (D A B : BitVec 7) (N : BitVec 4) : (rawOf D A B 0x5B#7 N).opLit =
    (Fld.isLit A || Fld.isLit D : Bool) := rfl
theorem opLit_0x60 (D A B : BitVec 7) (N : BitVec 4) : (rawOf D A B 0x60#7 N).opLit =
    (Fld.isLit A || Fld.isLit D : Bool) := rfl
theorem opLit_0x61 (D A B : BitVec 7) (N : BitVec 4) : (rawOf D A B 0x61#7 N).opLit =
    (Fld.isLit A || Fld.isLit D : Bool) := rfl
theorem opLit_0x62 (D A B : BitVec 7) (N : BitVec 4) : (rawOf D A B 0x62#7 N).opLit =
    (Fld.isLit A || Fld.isLit D : Bool) := rfl
theorem opLit_0x68 (D A B : BitVec 7) (N : BitVec 4) : (rawOf D A B 0x68#7 N).opLit =
    (((rawOf D A B 0x68#7 N).bReg && Fld.isLit B) && (rawOf D A B 0x68#7 N).m2.toNat < 2 : Bool) := rfl
theorem opLit_0x69 (D A B : BitVec 7) (N : BitVec 4) : (rawOf D A B 0x69#7 N).opLit =
    (Fld.isLit A || ((rawOf D A B 0x69#7 N).bReg && Fld.isLit B) : Bool) := rfl
theorem opLit_0x6C (D A B : BitVec 7) (N : BitVec 4) : (rawOf D A B 0x6C#7 N).opLit =
    (Fld.isLit A || ((rawOf D A B 0x6C#7 N).bReg && Fld.isLit B) : Bool) := rfl
theorem opLit_0x70 (D A B : BitVec 7) (N : BitVec 4) : (rawOf D A B 0x70#7 N).opLit =
    ((rawOf D A B 0x70#7 N).m3 == 4 : Bool) := rfl
theorem opLit_0x79 (D A B : BitVec 7) (N : BitVec 4) : (rawOf D A B 0x79#7 N).opLit =
    (Fld.isLit A || Fld.isLit B : Bool) := rfl
theorem opLit_0x7C (D A B : BitVec 7) (N : BitVec 4) : (rawOf D A B 0x7C#7 N).opLit =
    (((rawOf D A B 0x7C#7 N).m2 == 0 && (Fld.isLit A || Fld.isLit B)) || ((rawOf D A B 0x7C#7 N).m2 == 2 && Fld.isLit B) : Bool) := rfl

/-! ### The readers undo the encoders of the small types -/

@[simp] theorem iTy_enc (x : ITy) : iTy x.enc = x := by cases x <;> rfl
@[simp] theorem lTy_enc (x : LTy) : lTy x.enc = some x := by cases x <;> rfl
@[simp] theorem fTy_enc (x : FTy) : fTy x.enc = x := by cases x <;> rfl
@[simp] theorem cond4_enc (x : Cond) : cond4 x.enc = x := by cases x <;> rfl
@[simp] theorem policy3_enc (x : Policy) : policy3 x.enc = some x := by cases x <;> rfl
@[simp] theorem order4_enc (x : MemOrder) : order4 x.enc = x := by cases x <;> rfl
@[simp] theorem scope3_enc (x : Scope) : scope3 x.enc = some x := by cases x <;> rfl
@[simp] theorem width7_enc (x : Width) : width7 x.enc = some x := by cases x <;> rfl
@[simp] theorem atomOp_enc (x : AtomOp) : atomOp x.enc = x := by cases x <;> rfl
@[simp] theorem redAt_enc (x : RedAt) : redAt x.enc = some x := by cases x <;> rfl
@[simp] theorem redOp_enc (x : RedOp) : redOp x.enc = some x := by cases x <;> rfl
@[simp] theorem sFn_enc (x : SFn) : sFn x.enc = some x := by cases x <;> rfl
@[simp] theorem rDir_enc (x : RDir) : rDir x.enc = some x := by cases x <;> rfl
@[simp] theorem mFmt_enc (x : MFmt) : mFmt x.enc = some x := by cases x <;> rfl
@[simp] theorem sFmt_enc (x : SFmt) : sFmt x.enc = x := by cases x <;> rfl
@[simp] theorem shMode_enc (x : ShMode) : shMode x.enc = x := by cases x <;> rfl
@[simp] theorem bankMode_enc (x : BankMode) : bankMode x.enc = some x := by cases x <;> rfl
@[simp] theorem barScope_enc (x : BarScope) : barScope x.enc = some x := by cases x <;> rfl
@[simp] theorem ldForm_enc (x : LdForm) : ldForm x.enc = some x := by cases x <;> rfl
@[simp] theorem stForm_enc (x : StForm) : stForm x.enc = some x := by cases x <;> rfl

@[simp] theorem bit1_getLsbD (x : Bool) : (bit1 x).getLsbD 0 = x := by cases x <;> rfl

/-- minor[3] says that B is an immediate (R89). -/
@[simp] theorem imm_enc (D A B M : BitVec 7) (b : BOp) (t : BitVec 2) : (rawOf D A B M (b.top ++ t)).imm = b.isImm := by
  revert t
  cases b <;> simp only [Raw.imm, rawOf, BOp.top, BOp.isImm] <;> decide

/-- minor[2] says that B is an s-register (R89). -/
@[simp] theorem sreg_enc (D A B M : BitVec 7) (b : BOp) (t : BitVec 2) :
    (rawOf D A B M (b.top ++ t)).sreg = b.isSreg := by
  revert t
  cases b <;> simp only [Raw.sreg, rawOf, BOp.top, BOp.isSreg] <;> decide

/-- B and minor[3:2] of an ALU form read back as the B operand (R89). -/
@[simp] theorem bop_enc (D A : BitVec 7) (M : BitVec 7) (b : BOp) (t : BitVec 2) :
    (rawOf D A b.enc M (b.top ++ t)).bop = some b := by
  simp only [Raw.bop, imm_enc, sreg_enc]
  cases b <;> rfl

/-- minor[1:0] of an ALU form reads back as its type bits (R89). -/
@[simp] theorem m2_enc (D A B M : BitVec 7) (b : BOp) (t : BitVec 2) : (rawOf D A B M (b.top ++ t)).m2 = t := by
  have h : ∀ u t : BitVec 2, (u ++ t).extractLsb' 0 2 = t := by decide
  exact h _ t

/-- Whether B is a register field, read back (R88, R89). -/
@[simp] theorem bReg_enc (D A M : BitVec 7) (b : BOp) (t : BitVec 2) :
    ((rawOf D A b.enc M (b.top ++ t)).bReg && Fld.isLit b.enc) = b.isLit := by
  simp only [Raw.bReg, imm_enc, sreg_enc]
  cases b <;> simp [BOp.isImm, BOp.isSreg, BOp.isLit, BOp.enc]

/-- The literal words come off the list as the encoder puts them on (R83). -/
theorem takeLits_enc (l o : Option Word) (rest : List Word) :
    takeLits l.isSome o.isSome (l.toList ++ o.toList ++ rest) = some (l, o, rest) := by
  cases l <;> cases o <;> rfl

end Sys2Proof
end

