-- ==== Sys2Proof/Laws/Table.lean ====
section
/-! SUPPORT. Sparse tables and memory: what a write leaves and gives, and that every operation on them keeps the canonical form. -/

namespace Sys2Proof.Machine

variable {α : Type}

/-! ### Reads after writes -/

theorem spGet_spSet_same [DecidableEq α] (d : α) (m : List (Nat × α)) (a : Nat) (v : α) (h : spWfFrom d 0 m = true) :
    spGet d (spSet d m a v) a = v := by
  suffices H : ∀ lo, spWfFrom d lo m = true → spGet d (spSet d m a v) a = v from H 0 h
  clear h
  have below : ∀ (m : List (Nat × α)) lo, spWfFrom d lo m = true → a < lo → spGet d m a = d := by
    intro m
    induction m with
    | nil => intros; rfl
    | cons e m ih =>
      intro lo h ha
      obtain ⟨b, w⟩ := e
      simp only [spWfFrom, Bool.and_eq_true, decide_eq_true_eq] at h
      simp only [spGet]
      split
      · omega
      · exact ih _ h.2 (by omega)
  induction m with
  | nil =>
    intro lo _
    simp only [spSet]
    split
    · simp_all [spGet]
    · simp [spGet]
  | cons e m ih =>
    intro lo h
    obtain ⟨b, w⟩ := e
    have h' := h
    simp only [spWfFrom, Bool.and_eq_true, decide_eq_true_eq] at h
    simp only [spSet]
    split
    · split
      · rename_i hv
        rw [hv]
        simp only [spGet]
        split
        · omega
        · exact below _ _ h.2 (by omega)
      · simp [spGet]
    · split
      · split
        · rename_i hab hv
          rw [hv]
          exact below _ _ h.2 (by omega)
        · simp [spGet]
      · rename_i hlt hne
        simp only [spGet, hne, if_false]
        exact ih _ h.2

theorem spGet_spSet_ne [DecidableEq α] (d : α) (m : List (Nat × α)) (a b : Nat) (v : α) (h : b ≠ a) :
    spGet d (spSet d m a v) b = spGet d m b := by
  induction m with
  | nil => simp only [spSet]; split <;> simp [spGet, h]
  | cons e m ih =>
    obtain ⟨c, w⟩ := e
    simp only [spSet]
    split
    · split <;> simp [spGet, h]
    · split
      · rename_i hac
        split <;> simp [spGet, h, ← hac]
      · simp only [spGet]
        split
        · rfl
        · exact ih

/-! ### The canonical form -/

theorem spWfFrom_mono [DecidableEq α] {d : α} {m : List (Nat × α)} {lo lo' : Nat} (hle : lo' ≤ lo) (h : spWfFrom d lo m = true) :
    spWfFrom d lo' m = true := by
  cases m with
  | nil => rfl
  | cons e m =>
    obtain ⟨b, w⟩ := e
    simp only [spWfFrom, Bool.and_eq_true, decide_eq_true_eq] at h ⊢
    exact ⟨⟨by omega, h.1.2⟩, h.2⟩

theorem spWfFrom_spSet [DecidableEq α] {d : α} {m : List (Nat × α)} {lo a : Nat} {v : α} (ha : lo ≤ a) (h : spWfFrom d lo m = true) :
    spWfFrom d lo (spSet d m a v) = true := by
  induction m generalizing lo with
  | nil => simp only [spSet]; split <;> simp_all [spWfFrom]
  | cons e m ih =>
    obtain ⟨b, w⟩ := e
    have h' := h
    simp only [spWfFrom, Bool.and_eq_true, decide_eq_true_eq] at h
    simp only [spSet]
    split
    · split
      · exact h'
      · simp only [spWfFrom, Bool.and_eq_true, decide_eq_true_eq]
        refine ⟨⟨ha, ‹_›⟩, ⟨by omega, h.1.2⟩, h.2⟩
    · split
      · split
        · exact spWfFrom_mono (by omega) h.2
        · simp only [spWfFrom, Bool.and_eq_true, decide_eq_true_eq]
          exact ⟨⟨ha, ‹_›⟩, by rename_i hab _; rw [hab]; exact h.2⟩
      · simp only [spWfFrom, Bool.and_eq_true, decide_eq_true_eq]
        exact ⟨h.1, ih (by omega) h.2⟩

theorem spWf_spSet [DecidableEq α] {d : α} {m : List (Nat × α)} {a : Nat} {v : α} (h : spWf d m = true) : spWf d (spSet d m a v) = true :=
  spWfFrom_spSet (Nat.zero_le _) h

theorem spWfFrom_filter [DecidableEq α] {d : α} {m : List (Nat × α)} {lo : Nat} (c : Nat × α → Bool) (h : spWfFrom d lo m = true) :
    spWfFrom d lo (m.filter c) = true := by
  induction m generalizing lo with
  | nil => rfl
  | cons e m ih =>
    obtain ⟨b, w⟩ := e
    simp only [spWfFrom, Bool.and_eq_true, decide_eq_true_eq] at h
    simp only [List.filter]
    split
    · simp only [spWfFrom, Bool.and_eq_true, decide_eq_true_eq]
      exact ⟨h.1, ih h.2⟩
    · exact spWfFrom_mono (by omega) (ih h.2)

theorem spWf_filter [DecidableEq α] {d : α} {m : List (Nat × α)} (c : Nat × α → Bool) (h : spWf d m = true) : spWf d (m.filter c) = true :=
  spWfFrom_filter c h

theorem spWf_putBytes {m : List Host.Cell} (pa : Nat) (bs : List Byte) (h : Memory.wf m = true) : Memory.wf (putBytes m pa bs) = true := by
  induction bs generalizing m pa with
  | nil => exact h
  | cons b bs ih => exact ih _ (spWf_spSet h)

theorem spWf_putCells {m : List Host.Cell} (cs : List Host.Cell) (h : Memory.wf m = true) : Memory.wf (putCells m cs) = true := by
  induction cs generalizing m with
  | nil => exact h
  | cons c cs ih => exact ih (spWf_spSet h)

theorem spWf_foldl_spSet [DecidableEq α] {β : Type} {d : α} (k : β → Nat) (v : β → α) (xs : List β) {m : List (Nat × α)} (h : spWf d m = true) :
    spWf d (xs.foldl (fun g x => spSet d g (k x) (v x)) m) = true := by
  induction xs generalizing m with
  | nil => exact h
  | cons x xs ih => exact ih (spWf_spSet h)

/-- Two canonical tables that read alike are one table. -/
theorem spWf_ext [DecidableEq α] {d : α} {m n : List (Nat × α)} (hm : spWf d m = true) (hn : spWf d n = true)
    (h : ∀ a, spGet d m a = spGet d n a) : m = n := by
  suffices H : ∀ (m n : List (Nat × α)) lo, spWfFrom d lo m = true → spWfFrom d lo n = true →
      (∀ a, lo ≤ a → spGet d m a = spGet d n a) → m = n from H m n 0 hm hn (fun a _ => h a)
  clear hm hn h m n
  have below : ∀ (m : List (Nat × α)) lo a, spWfFrom d lo m = true → a < lo → spGet d m a = d := by
    intro m
    induction m with
    | nil => intros; rfl
    | cons e m ih =>
      intro lo a h ha
      obtain ⟨b, w⟩ := e
      simp only [spWfFrom, Bool.and_eq_true, decide_eq_true_eq] at h
      simp only [spGet]
      split
      · omega
      · exact ih _ _ h.2 (by omega)
  intro m
  induction m with
  | nil =>
    intro n lo _ hn h
    cases n with
    | nil => rfl
    | cons e n =>
      obtain ⟨b, w⟩ := e
      simp only [spWfFrom, Bool.and_eq_true, decide_eq_true_eq] at hn
      have := h b hn.1.1
      simp only [spGet, if_pos] at this
      exact absurd this.symm hn.1.2
  | cons e m ih =>
    intro n lo hm hn h
    obtain ⟨b, w⟩ := e
    have hm' := hm
    simp only [spWfFrom, Bool.and_eq_true, decide_eq_true_eq] at hm
    cases n with
    | nil =>
      have := h b hm.1.1
      simp only [spGet, if_pos] at this
      exact absurd this hm.1.2
    | cons e n =>
      obtain ⟨c, x⟩ := e
      have hn' := hn
      simp only [spWfFrom, Bool.and_eq_true, decide_eq_true_eq] at hn
      have hbc : b = c := by
        rcases Nat.lt_trichotomy b c with hlt | heq | hgt
        · have := h b hm.1.1
          rw [below ((c, x) :: n) c b (by simp only [spWfFrom, Bool.and_eq_true, decide_eq_true_eq]; exact ⟨⟨Nat.le_refl _, hn.1.2⟩, hn.2⟩) hlt] at this
          simp only [spGet, if_pos] at this
          exact absurd this hm.1.2
        · exact heq
        · have := h c hn.1.1
          rw [below ((b, w) :: m) b c (by simp only [spWfFrom, Bool.and_eq_true, decide_eq_true_eq]; exact ⟨⟨Nat.le_refl _, hm.1.2⟩, hm.2⟩) hgt] at this
          simp only [spGet, if_pos] at this
          exact absurd this.symm hn.1.2
      subst hbc
      have hw : w = x := by
        have := h b hm.1.1
        simpa only [spGet, if_pos] using this
      subst hw
      congr 1
      refine ih n (b + 1) hm.2 hn.2 (fun a ha => ?_)
      have := h a (by omega)
      simp only [spGet] at this
      rw [if_neg (by omega), if_neg (by omega)] at this
      exact this

/-! ### Bytes of memory -/

theorem spGet_putBytes_outside (m : List Host.Cell) (pa : Nat) (bs : List Byte) (a : Nat) (h : a < pa ∨ pa + bs.length ≤ a) :
    spGet 0 (putBytes m pa bs) a = spGet 0 m a := by
  induction bs generalizing m pa with
  | nil => rfl
  | cons b bs ih =>
    simp only [putBytes]
    simp only [List.length_cons] at h
    rw [ih _ _ (by omega), spGet_spSet_ne _ _ _ _ _ (by omega)]

@[simp] theorem toBytes_length (n v : Nat) : (toBytes n v).length = n := by
  induction n generalizing v with
  | zero => rfl
  | succ n ih => simp [toBytes, ih]

/-- A write of hardware leaves every byte outside it (R17). -/
theorem byteAt_poke_outside (p : Package) (pa n v a : Nat) (h : a < pa ∨ pa + n ≤ a) : (p.poke pa n v).byteAt a = p.byteAt a :=
  spGet_putBytes_outside _ _ _ _ (by simpa using h)

theorem spGet_putBytes_at (m : List Host.Cell) (pa : Nat) (bs : List Byte) (k : Nat) (hm : Memory.wf m = true) (h : k < bs.length) :
    spGet 0 (putBytes m pa bs) (pa + k) = bs[k] := by
  induction bs generalizing m pa k with
  | nil => simp at h
  | cons b bs ih =>
    simp only [putBytes]
    cases k with
    | zero =>
      rw [spGet_putBytes_outside _ _ _ _ (by omega)]
      exact spGet_spSet_same _ _ _ _ hm
    | succ k =>
      have := ih (spSet 0 m pa b) (pa + 1) k (spWf_spSet hm) (by simpa using h)
      rw [show pa + (k + 1) = pa + 1 + k by omega, this]
      rfl

end Sys2Proof.Machine
end

