-- ==== Sys2Proof/Laws/Keep.lean ====
section
/-! SUPPORT. What keeps the form of the tables of a package (`Package.wf`, R106 to R108, R193): the memory operations, the
label table, and the ways in which effects are put together. -/

namespace Sys2Proof.Machine

/-! ### Packages that agree on memory and labels -/

/-- A package with the memory, granule labels and label table of a well-formed one is well formed. -/
theorem wf_of_eq {p q : Package} (hm : q.mem = p.mem) (hg : q.glabels = p.glabels) (hl : q.labels = p.labels)
    (h : p.wf = true) : q.wf = true := by
  unfold Package.wf at *
  rwa [hm, hg, hl]

/-- The form of a package says something of its memory, granule labels and label table only. -/
theorem wf_mk x0 x1 x2 x3 x4 x5 x6 x7 x8 x9 x10 x11 x12 x13 x14 x15 x16 x17 x18 x19 x20 x21 x22 x23 x24 x25 y m g x26 x27
    x28 x29 x30 x31 l x32 x33 x34 x35 x36 x37 x38 x39 x40 x41 x42 x43 x44 x45 x46 x47 x48 :
    (Package.mk x0 x1 x2 x3 x4 x5 x6 x7 x8 x9 x10 x11 x12 x13 x14 x15 x16 x17 x18 x19 x20 x21 x22 x23 x24 x25 y m g x26 x27
      x28 x29 x30 x31 l x32 x33 x34 x35 x36 x37 x38 x39 x40 x41 x42 x43 x44 x45 x46 x47 x48).wf
      = (Memory.wf m && spWf (0 : Lbl) g && labelsWf l) := rfl

theorem wf_back {p : Package} (h : p.wf = true) :
    (Memory.wf p.mem && spWf (0 : Lbl) p.glabels && labelsWf p.labels) = true := h

theorem wf_iff (p : Package) :
    p.wf = true ↔ Memory.wf p.mem = true ∧ spWf (0 : Lbl) p.glabels = true ∧ labelsWf p.labels = true := by
  simp [Package.wf, and_assoc]

/-- The second of a pair that is known. -/
theorem wf_snd {α : Type} {x : α × Package} {a : α} {q : Package} (h : x = (a, q)) (hx : x.2.wf = true) : q.wf = true := by
  rw [h] at hx; exact hx

/-- A fold keeps the form if each of its steps does. -/
theorem wf_foldl {α : Type} {f : Package → α → Package} {l : List α} {p : Package} (h : p.wf = true)
    (hf : ∀ p x, p.wf = true → (f p x).wf = true) : (l.foldl f p).wf = true := by
  induction l generalizing p with
  | nil => exact h
  | cons x xs ih => exact ih (hf _ _ h)

/-- The same for a fold that carries a value beside the package. -/
theorem wf_foldl_snd {α β : Type} {f : β × Package → α → β × Package} {l : List α} {x : β × Package} (h : x.2.wf = true)
    (hf : ∀ x a, x.2.wf = true → (f x a).2.wf = true) : (l.foldl f x).2.wf = true := by
  induction l generalizing x with
  | nil => exact h
  | cons y ys ih => exact ih (hf _ _ h)

/-- The first of a pair that is known. -/
theorem wf_fst {β : Type} {x : Package × β} {b : β} {q : Package} (h : x = (q, b)) (hx : x.1.wf = true) : q.wf = true := by
  rw [h] at hx; exact hx

/-! ### The memory operations -/

theorem wf_pokeBytes (p : Package) (pa : Nat) (bs : List Byte) (h : p.wf = true) : (p.pokeBytes pa bs).wf = true := by
  rw [wf_iff] at *
  exact ⟨spWf_putBytes _ _ h.1, h.2.1, h.2.2⟩

theorem wf_poke (p : Package) (pa n v : Nat) (h : p.wf = true) : (p.poke pa n v).wf = true := wf_pokeBytes _ _ _ h

theorem wf_mem {p : Package} {m : List Host.Cell} (hm : Memory.wf m = true) (h : p.wf = true) : ({ p with mem := m }).wf = true := by
  rw [wf_iff] at *
  exact ⟨hm, h.2⟩

/-- Fields of a package beside memory, granule labels and label table say nothing of its form. -/
theorem wf_parts {p q : Package} (hm : Memory.wf p.mem = true → Memory.wf q.mem = true)
    (hg : spWf (0 : Lbl) p.glabels = true → spWf (0 : Lbl) q.glabels = true) (hl : q.labels = p.labels) (h : p.wf = true) : q.wf = true := by
  rw [wf_iff] at *
  exact ⟨hm h.1, hg h.2.1, hl ▸ h.2.2⟩

theorem wf_setGlabel (p : Package) (g : Nat) (l : Lbl) (h : p.wf = true) : (p.setGlabel g l).wf = true := by
  rw [wf_iff] at *
  exact ⟨h.1, spWf_spSet h.2.1, h.2.2⟩

/-- No byte is listed in the memory of a package at reset, and its label table is that of R106. -/
theorem wf_reset : Package.reset.wf = true := rfl

/-! ### The label table -/

theorem labelsWfFrom_mono {lo lo' : Nat} {seen : List Mask} {es : List (Nat × Mask)} (hle : lo' ≤ lo)
    (h : labelsWfFrom lo seen es = true) : labelsWfFrom lo' seen es = true := by
  cases es with
  | nil => rfl
  | cons e es =>
    simp only [labelsWfFrom, Bool.and_eq_true, decide_eq_true_eq] at *
    exact ⟨⟨⟨by omega, h.1.1.2⟩, h.1.2⟩, h.2⟩

theorem labelsWfFrom_le {lo : Nat} {seen : List Mask} {es : List (Nat × Mask)} (h : labelsWfFrom lo seen es = true) :
    ∀ e ∈ es, lo ≤ e.1 := by
  induction es generalizing lo seen with
  | nil => simp
  | cons x xs ih =>
    simp only [labelsWfFrom, Bool.and_eq_true, decide_eq_true_eq] at h
    intro e he
    rcases List.mem_cons.mp he with rfl | he
    · exact h.1.1.1
    · have := ih h.2 e he
      omega

theorem labelsWfFrom_seen {lo : Nat} {seen : List Mask} {m : Mask} {es : List (Nat × Mask)} (hm : ∀ e ∈ es, e.2 ≠ m)
    (h : labelsWfFrom lo seen es = true) : labelsWfFrom lo (m :: seen) es = true := by
  suffices H : ∀ (pre : List Mask) lo, labelsWfFrom lo (pre ++ seen) es = true → labelsWfFrom lo (pre ++ m :: seen) es = true from
    H [] lo h
  clear h lo
  induction es with
  | nil => intros; rfl
  | cons x xs ih =>
    intro pre lo h
    simp only [labelsWfFrom, Bool.and_eq_true, decide_eq_true_eq] at *
    refine ⟨⟨h.1.1, ?_⟩, ih (fun e he => hm e (List.mem_cons_of_mem _ he)) (x.2 :: pre) _ h.2⟩
    have := hm x List.mem_cons_self
    simp_all

/-- A new entry at a free index and for an owner set without an entry keeps the table's form (R107, R108). -/
theorem labelsWfFrom_insertBy {lo k : Nat} {seen : List Mask} {m : Mask} {es : List (Nat × Mask)} (hk : lo ≤ k) (hf : k < 0xFFFF)
    (hs : m ∉ seen) (hi : ∀ e ∈ es, e.1 ≠ k) (hm : ∀ e ∈ es, e.2 ≠ m) (h : labelsWfFrom lo seen es = true) :
    labelsWfFrom lo seen (insertBy (·.1) (k, m) es) = true := by
  induction es generalizing lo seen with
  | nil => simp [insertBy, labelsWfFrom, hk, hf, hs]
  | cons x xs ih =>
    have hx := hi x List.mem_cons_self
    have hmx := hm x List.mem_cons_self
    simp only [labelsWfFrom, Bool.and_eq_true, decide_eq_true_eq] at h
    simp only [insertBy]
    split
    · next hlt =>
      simp only [labelsWfFrom, Bool.and_eq_true, decide_eq_true_eq]
      refine ⟨⟨⟨hk, hf⟩, by simp [hs]⟩, ⟨⟨by omega, h.1.1.2⟩, ?_⟩, ?_⟩
      · have := h.1.2
        simp_all
      · have := labelsWfFrom_seen (m := m) (fun e he => hm e (List.mem_cons_of_mem _ he)) h.2
        have h3 := labelsWfFrom_seen (seen := x.2 :: seen) (m := m) (fun e he => hm e (List.mem_cons_of_mem _ he)) h.2
        suffices ∀ (es : List (Nat × Mask)) lo pre, labelsWfFrom lo (pre ++ m :: x.2 :: seen) es = true →
            labelsWfFrom lo (pre ++ x.2 :: m :: seen) es = true from this xs _ [] h3
        intro es
        induction es with
        | nil => intros; rfl
        | cons y ys ihy =>
          intro lo pre hy
          simp only [labelsWfFrom, Bool.and_eq_true, decide_eq_true_eq] at *
          refine ⟨⟨hy.1.1, ?_⟩, ihy _ (y.2 :: pre) hy.2⟩
          have := hy.1.2
          simp_all
    · next hge =>
      simp only [labelsWfFrom, Bool.and_eq_true, decide_eq_true_eq]
      refine ⟨h.1, ih (by omega) ?_ (fun e he => hi e (List.mem_cons_of_mem _ he))
        (fun e he => hm e (List.mem_cons_of_mem _ he)) h.2⟩
      simp [hs, Ne.symm hmx]

theorem labelsWf_insertBy {k : Nat} {m : Mask} {es : List (Nat × Mask)} (hf : k < 0xFFFF) (hi : ∀ e ∈ es, e.1 ≠ k)
    (hm : ∀ e ∈ es, e.2 ≠ m) (h : labelsWf es = true) : labelsWf (insertBy (·.1) (k, m) es) = true := by
  cases es with
  | nil => simp [labelsWf] at h
  | cons x xs =>
    simp only [labelsWf, Bool.and_eq_true, beq_iff_eq] at h
    obtain ⟨rfl, h⟩ := h
    have h0 : (0 : Nat) ≠ k := hi _ List.mem_cons_self
    have hm0 : (0 : Mask) ≠ m := hm _ List.mem_cons_self
    simp only [insertBy, Nat.not_lt_zero, if_false, labelsWf, beq_self_eq_true, Bool.true_and]
    exact labelsWfFrom_insertBy (by omega) hf (by simpa using Ne.symm hm0) (fun e he => hi e (List.mem_cons_of_mem _ he))
      (fun e he => hm e (List.mem_cons_of_mem _ he)) h

/-- `freeIndex` answers a number that is no index of the table. -/
theorem freeIndex_free {lo n : Nat} {seen : List Mask} {es : List (Nat × Mask)} (hn : n ≤ lo) (h : labelsWfFrom lo seen es = true) :
    n ≤ freeIndex n es ∧ ∀ e ∈ es, e.1 ≠ freeIndex n es := by
  induction es generalizing lo n seen with
  | nil => simp [freeIndex]
  | cons x xs ih =>
    obtain ⟨a, b⟩ := x
    simp only [labelsWfFrom, Bool.and_eq_true, decide_eq_true_eq] at h
    simp only [freeIndex]
    split
    · next heq =>
      have := ih (n := n + 1) (by omega) h.2
      refine ⟨by omega, ?_⟩
      intro e he
      rcases List.mem_cons.mp he with rfl | he
      · simp only; omega
      · exact this.2 e he
    · next hne =>
      refine ⟨Nat.le_refl _, ?_⟩
      intro e he
      rcases List.mem_cons.mp he with rfl | he
      · simp only; omega
      · have := labelsWfFrom_le h.2 e he
        omega

theorem findMask_none {p : Package} {m : Mask} (h : p.findMask m = none) : ∀ e ∈ p.labels, e.2 ≠ m := by
  intro e he heq
  simp only [Package.findMask, Option.map_eq_none_iff, List.find?_eq_none] at h
  exact h e he (by simp [heq])

/-- The label of an owner set: the package that `labelFor` answers differs only in its label table, which keeps its form. -/
theorem labelFor_spec {p q : Package} {m : Mask} {l : Lbl} (h : p.labelFor m = some (l, q)) :
    q = { p with labels := q.labels } ∧ (p.wf = true → q.wf = true) := by
  simp only [Package.labelFor] at h
  split at h
  · simp only [Option.some.injEq, Prod.mk.injEq] at h
    obtain ⟨-, rfl⟩ := h
    exact ⟨rfl, id⟩
  · next hn =>
    split at h
    · next hk =>
      simp only [Option.some.injEq, Prod.mk.injEq] at h
      obtain ⟨-, rfl⟩ := h
      refine ⟨rfl, fun hw => ?_⟩
      rw [wf_iff] at *
      refine ⟨hw.1, hw.2.1, labelsWf_insertBy hk ?_ (findMask_none hn) hw.2.2⟩
      have hl := hw.2.2
      cases he : p.labels with
      | nil => simp
      | cons x xs =>
        rw [he] at hl
        simp only [labelsWf, Bool.and_eq_true, beq_iff_eq] at hl
        obtain ⟨rfl, hl⟩ := hl
        have hf := freeIndex_free (n := 1) (by omega) hl
        intro e hm
        simp only [freeIndex, if_true]
        rcases List.mem_cons.mp hm with rfl | hm
        · exact Nat.ne_of_lt hf.1
        · exact hf.2 e hm
    · simp at h

theorem wf_labelFor {p q : Package} {m : Mask} {l : Lbl} (h : p.labelFor m = some (l, q)) (hw : p.wf = true) : q.wf = true :=
  (labelFor_spec h).2 hw

/-- What a stopped effect leaves behind is the label table that it reached. -/
theorem wf_keep (p q : Package) (h : p.wf = true) (hq : q.wf = true) : (p.keep q).wf = true := by
  rw [wf_iff] at *
  exact ⟨h.1, h.2.1, hq.2.2⟩

/-! ### Effects -/

/-- The package that a stopped effect carries keeps its form. -/
def Stop.Wf : Stop → Prop
  | .trap _ _ _ _ _ _ p => p.wf = true
  | .page _ _ _ p => p.wf = true
  | .wait _ => True
  | .deferred _ _ _ p => p.wf = true

/-- An effect keeps the form of the tables, whether it takes effect or stops. -/
def Keeps {α : Type} (m : PM α) : Prop :=
  ∀ p, p.wf = true → (∀ a q, m p = .ok (a, q) → q.wf = true) ∧ (∀ e, m p = .error e → e.Wf)

theorem keeps_pure {α : Type} (a : α) : Keeps (pure a : PM α) := by
  intro p h
  constructor
  · intro b q hq; cases hq; exact h
  · intro e he; cases he

theorem keeps_bind {α β : Type} {m : PM α} {f : α → PM β} (hm : Keeps m) (hf : ∀ a, Keeps (f a)) : Keeps (m >>= f) := by
  intro p h
  have h1 := hm p h
  simp only [bind, StateT.bind, Except.bind] at *
  cases hp : m p with
  | ok x =>
    obtain ⟨a, q⟩ := x
    simp only [hp] at h1 ⊢
    exact hf a q (h1.1 a q rfl)
  | error e =>
    simp only [hp] at h1 ⊢
    exact ⟨fun _ _ h => (by cases h), fun e' he => by cases he; exact h1.2 e rfl⟩

theorem keeps_get : Keeps (get : PM Package) := by
  intro p h
  constructor
  · intro b q hq; cases hq; exact h
  · intro e he; cases he

theorem keeps_modify {f : Package → Package} (hf : ∀ p, p.wf = true → (f p).wf = true) : Keeps (modify f : PM Unit) := by
  intro p h
  constructor
  · intro b q hq; cases hq; exact hf p h
  · intro e he; cases he

theorem keeps_modifyGet {α : Type} {f : Package → α × Package} (hf : ∀ p, p.wf = true → (f p).2.wf = true) :
    Keeps (modifyGet f : PM α) := by
  intro p h
  constructor
  · intro b q hq
    have := hf p h
    cases hx : f p with
    | mk a r =>
      rw [hx] at this
      simp only [modifyGet, MonadStateOf.modifyGet, StateT.modifyGet, pure, Except.pure, hx, Except.ok.injEq, Prod.mk.injEq] at hq
      rw [← hq.2]
      exact this
  · intro e he; cases he

theorem keeps_set {q : Package} (h : q.wf = true) : Keeps (set q : PM PUnit) := by
  intro p _
  constructor
  · intro b r hr; cases hr; exact h
  · intro e he; cases he

theorem keeps_map {α β : Type} {m : PM α} {f : α → β} (hm : Keeps m) : Keeps (f <$> m) := keeps_bind hm (fun a => keeps_pure (f a))

theorem keeps_forM {α : Type} {f : α → PM PUnit} {l : List α} (hf : ∀ a, Keeps (f a)) : Keeps (l.forM f) := by
  induction l with
  | nil => exact keeps_pure _
  | cons x xs ih => exact keeps_bind (hf x) (fun _ => ih)

theorem keeps_mapM {α β : Type} {f : α → PM β} {l : List α} (hf : ∀ a, Keeps (f a)) : Keeps (l.mapM f) := by
  rw [← List.mapM'_eq_mapM]
  induction l with
  | nil => exact keeps_pure _
  | cons x xs ih => exact keeps_bind (hf x) (fun _ => keeps_bind ih (fun _ => keeps_pure _))

theorem keeps_stop {α : Type} {s : Stop} (h : s.Wf) : Keeps (stopWith s : PM α) := by
  intro p _
  constructor
  · intro _ _ hq; cases hq
  · intro e he; cases he; exact h

theorem keeps_trap {α : Type} (c : Cause) (va : Nat) (lbl : Lbl) (aux : Nat) (vm : Mask) : Keeps (trap c va lbl aux vm : PM α) := by
  intro p h
  constructor
  · intro _ _ hq; cases hq
  · intro e he; cases he; exact h

theorem keeps_trapFp {α : Type} (c : Cause) (va : Nat) (vm : Mask) (l : Lbl) (aux : Nat) (fp : Option (Word × Lbl)) :
    Keeps ((fun q => .error (.trap c va vm l aux fp q)) : PM α) := by
  intro p h
  constructor
  · intro _ _ hq; cases hq
  · intro e he; cases he; exact h

theorem keeps_trapAt {α : Type} {c : Cause} {va : Nat} {vm : Mask} {l : Lbl} {aux : Nat} {fp : Option (Word × Lbl)}
    {f : Package → Package} (hf : ∀ p, p.wf = true → (f p).wf = true) :
    Keeps ((fun p => .error (.trap c va vm l aux fp (f p))) : PM α) := by
  intro p h
  constructor
  · intro _ _ hq; cases hq
  · intro e he; cases he; exact hf p h

theorem keeps_prot {α : Type} (aux va : Nat) (vm : Mask) : Keeps (prot aux va vm : PM α) := keeps_trap _ _ _ _ _

theorem keeps_pageStop {α : Type} (va : Nat) (vm : Mask) : Keeps (pageStop va vm : PM α) := by
  intro p h
  constructor
  · intro _ _ hq; cases hq
  · intro e he; cases he; exact h

theorem keeps_waitFor {α : Type} (s : Stall) : Keeps (waitFor s : PM α) := keeps_stop trivial

theorem keeps_await (c : Bool) (s : Stall) : Keeps (await c s) := by
  unfold await
  split
  · exact keeps_pure _
  · exact keeps_waitFor _

/-- An effect that only reads the package, or holds the thread. -/
theorem keeps_read {α : Type} {m : PM α} (h : ∀ p, (∃ a, m p = .ok (a, p)) ∨ ∃ s, m p = .error (.wait s)) : Keeps m := by
  intro p hp
  rcases h p with ⟨a, ha⟩ | ⟨s, hs⟩
  · rw [ha]
    exact ⟨fun _ _ h => by cases h; exact hp, fun _ h => by cases h⟩
  · rw [hs]
    exact ⟨fun _ _ h => (by cases h), fun _ h => by cases h; trivial⟩

theorem keeps_thr (w : Who) : Keeps (thr w) := keeps_read fun p => by
  unfold thr; split <;> simp

theorem keeps_teamOf (w : Who) : Keeps (teamOf w) := keeps_read fun p => by
  unfold teamOf; split <;> simp

theorem keeps_worldOf (w : Who) : Keeps (worldOf w) := keeps_read fun p => by
  unfold worldOf; split <;> simp

theorem keeps_theIssue : Keeps theIssue := keeps_read fun p => by
  unfold theIssue; split <;> simp

theorem keeps_maskOf (l : Lbl) : Keeps (maskOf l) := keeps_read fun p => by
  unfold maskOf; simp

theorem wf_interrupt (p : Package) (c : IntClass) (w n : Nat) (h : p.wf = true) : (p.interrupt c w n).wf = true := h

theorem keeps_mkLabel (m : Mask) : Keeps (mkLabel m) := by
  intro p h
  unfold mkLabel
  split
  · next l q heq => exact ⟨fun _ _ hq => by cases hq; exact wf_labelFor heq h, fun _ he => by cases he⟩
  · exact ⟨fun _ _ hq => (by cases hq), fun _ he => by cases he; exact h⟩

/-- What an effect that reads the package first does with it. -/
theorem keeps_getBind {α : Type} {f : Package → PM α} (h : ∀ p, p.wf = true → Keeps (f p)) : Keeps (get >>= f) :=
  fun p hp => h p hp p hp

/-- Where an effect that keeps the form ends. -/
theorem wf_run {α : Type} {m : PM α} {p q : Package} {a : α} (h : m p = .ok (a, q)) (hp : p.wf = true) (hm : Keeps m) : q.wf = true :=
  (hm p hp).1 a q h

theorem wf_err {α : Type} {m : PM α} {p : Package} {e : Stop} (h : m p = .error e) (hp : p.wf = true) (hm : Keeps m) : e.Wf :=
  (hm p hp).2 e h

theorem wf_trapErr {α : Type} {m : PM α} {p q : Package} {c : Cause} {va : Nat} {vm : Mask} {l : Lbl} {aux : Nat}
    {fp : Option (Word × Lbl)} (h : m p = .error (.trap c va vm l aux fp q)) (hp : p.wf = true) (hm : Keeps m) : q.wf = true :=
  (hm p hp).2 _ h

theorem wf_pageErr {α : Type} {m : PM α} {p q : Package} {va : Nat} {vm : Mask} {pl : Bool} (h : m p = .error (.page va vm pl q))
    (hp : p.wf = true) (hm : Keeps m) : q.wf = true := (hm p hp).2 _ h

/-! ### Effects of the engines -/

/-- An effect of an engine keeps the form of the tables where it takes effect. -/
def EKeeps {α : Type} (m : EM α) : Prop := ∀ p, p.wf = true → ∀ a q, m p = .ok (a, q) → q.wf = true

theorem ekeeps_pure {α : Type} (a : α) : EKeeps (pure a : EM α) := by
  intro p h b q hq; cases hq; exact h

theorem ekeeps_bind {α β : Type} {m : EM α} {f : α → EM β} (hm : EKeeps m) (hf : ∀ a, EKeeps (f a)) : EKeeps (m >>= f) := by
  intro p h b q hq
  simp only [bind, StateT.bind, Except.bind] at hq
  cases hp : m p with
  | ok x =>
    obtain ⟨a, r⟩ := x
    simp only [hp] at hq
    exact hf a r (hm p h a r hp) b q hq
  | error e => simp [hp] at hq

theorem ekeeps_get : EKeeps (get : EM Package) := by
  intro p h b q hq; cases hq; exact h

theorem ekeeps_getBind {α : Type} {f : Package → EM α} (h : ∀ p, p.wf = true → EKeeps (f p)) : EKeeps (get >>= f) :=
  fun p hp => h p hp p hp

theorem wf_erun {α : Type} {m : EM α} {p q : Package} {a : α} (h : m p = .ok (a, q)) (hp : p.wf = true) (hm : EKeeps m) :
    q.wf = true := hm p hp a q h

theorem ekeeps_set {r : Package} (h : r.wf = true) : EKeeps (set r : EM PUnit) := by
  intro p _ b q hq; cases hq; exact h

theorem ekeeps_modify {f : Package → Package} (hf : ∀ p, p.wf = true → (f p).wf = true) : EKeeps (modify f : EM Unit) := by
  intro p h b q hq; cases hq; exact hf p h

theorem ekeeps_modifyGet {α : Type} {f : Package → α × Package} (hf : ∀ p, p.wf = true → (f p).2.wf = true) :
    EKeeps (modifyGet f : EM α) := by
  intro p h b q hq
  have := hf p h
  cases hx : f p with
  | mk a r =>
    rw [hx] at this
    simp only [modifyGet, MonadStateOf.modifyGet, StateT.modifyGet, pure, Except.pure, hx, Except.ok.injEq, Prod.mk.injEq] at hq
    rw [← hq.2]
    exact this

theorem ekeeps_forM {α : Type} {f : α → EM PUnit} {l : List α} (hf : ∀ a, EKeeps (f a)) : EKeeps (l.forM f) := by
  induction l with
  | nil => exact ekeeps_pure _
  | cons x xs ih => exact ekeeps_bind (hf x) (fun _ => ih)

theorem ekeeps_mapM {α β : Type} {f : α → EM β} {l : List α} (hf : ∀ a, EKeeps (f a)) : EKeeps (l.mapM f) := by
  rw [← List.mapM'_eq_mapM]
  induction l with
  | nil => exact ekeeps_pure _
  | cons x xs ih => exact ekeeps_bind (hf x) (fun _ => ekeeps_bind ih (fun _ => ekeeps_pure _))

theorem ekeeps_wait {α : Type} : EKeeps (engWait : EM α) := by
  intro p _ b q hq; cases hq

theorem ekeeps_fail {α : Type} (n : Nat) : EKeeps (engFail n : EM α) := by
  intro p _ b q hq; cases hq

/-! ### Meanings -/

/-- A meaning keeps the form of the tables of every package. -/
def OKeeps (f : State → Host.Outcome State Fault Refusal) : Prop := ∀ s, s.Wf → ∀ t, f s = .next t → t.Wf

theorem okeeps_lift {f : State → Package → Package} (hf : ∀ s p, p.wf = true → (f s p).wf = true) : OKeeps (fun s => lift (f s) s) := by
  intro s hs t ht
  cases ht
  exact ⟨hf _ _ hs.1, hs.2⟩

theorem okeeps_fault (x : Fault) : OKeeps (fun _ => .fault x) := fun _ _ _ h => by cases h

theorem okeeps_ite {c : Prop} [Decidable c] {f g : State → Host.Outcome State Fault Refusal} (hf : OKeeps f) (hg : OKeeps g) :
    OKeeps (fun s => if c then f s else g s) := by
  intro s hs t ht
  dsimp only at ht
  split at ht
  · exact hf s hs t ht
  · exact hg s hs t ht

end Sys2Proof.Machine
end

