-- ==== Sys2Proof/Laws/KeepCore.lean ====
section
/-! SUPPORT. Every operation and every meaning keeps the form of the tables of a package (`Package.wf`): the shared operations (the blocks of a package, threads, gangs, traps, flags, operands). -/

namespace Sys2Proof.Machine

/-! ### Base -/

theorem wf_setTeam (x0 : Package) x1 x2 (h0 : x0.wf = true) : (@Package.setTeam x0 x1 x2).wf = true := by
  unfold Package.setTeam
  try dsimp only
  repeat' with_reducible
    first
      | exact h0 | exact hf | assumption | refine wf_foldl ?_ (fun _ _ hf => ?_) | refine wf_foldl_snd ?_ (fun _ _ hf => ?_)
      | (simp only [↓wf_mk]; refine wf_back ?_) | intro _ | split

theorem wf_setThread (x0 : Package) x1 x2 (h0 : x0.wf = true) : (@Package.setThread x0 x1 x2).wf = true := by
  unfold Package.setThread
  try dsimp only
  repeat' with_reducible
    first
      | exact h0 | apply wf_setTeam | exact hf | assumption | refine wf_foldl ?_ (fun _ _ hf => ?_)
      | refine wf_foldl_snd ?_ (fun _ _ hf => ?_) | (simp only [↓wf_mk]; refine wf_back ?_) | intro _ | split

theorem wf_setWorld (x0 : Package) x1 x2 (h0 : x0.wf = true) : (@Package.setWorld x0 x1 x2).wf = true := by
  unfold Package.setWorld
  try dsimp only
  repeat' with_reducible
    first
      | exact h0 | exact hf | assumption | refine wf_foldl ?_ (fun _ _ hf => ?_) | refine wf_foldl_snd ?_ (fun _ _ hf => ?_)
      | (simp only [↓wf_mk]; refine wf_back ?_) | intro _ | split

theorem wf_setGang (x0 : Package) x1 x2 x3 x4 (h0 : x0.wf = true) : (@Package.setGang x0 x1 x2 x3 x4).wf = true := by
  unfold Package.setGang
  try dsimp only
  repeat' with_reducible
    first
      | exact h0 | exact hf | assumption | refine wf_foldl ?_ (fun _ _ hf => ?_) | refine wf_foldl_snd ?_ (fun _ _ hf => ?_)
      | (simp only [↓wf_mk]; refine wf_back ?_) | intro _ | split

theorem wf_leaveGang (x0 : Package) x1 (h0 : x0.wf = true) : (@Package.leaveGang x0 x1).wf = true := by
  unfold Package.leaveGang
  try dsimp only
  repeat' with_reducible
    first
      | exact h0 | exact hf | assumption | refine wf_foldl ?_ (fun _ _ hf => ?_) | refine wf_foldl_snd ?_ (fun _ _ hf => ?_)
      | (simp only [↓wf_mk]; refine wf_back ?_) | intro _ | split

theorem wf_pick (x0 : Package) x1 (h0 : x0.wf = true) : (@Package.pick x0 x1).2.wf = true := by
  unfold Package.pick
  try dsimp only
  repeat' with_reducible
    first
      | exact h0 | exact hf | assumption | refine wf_foldl ?_ (fun _ _ hf => ?_) | refine wf_foldl_snd ?_ (fun _ _ hf => ?_)
      | (simp only [↓wf_mk]; refine wf_back ?_) | intro _ | split

theorem wf_fresh (x0 : Package) (h0 : x0.wf = true) : (@Package.fresh x0).2.wf = true := by
  unfold Package.fresh
  try dsimp only
  repeat' with_reducible
    first
      | exact h0 | exact hf | assumption | refine wf_foldl ?_ (fun _ _ hf => ?_) | refine wf_foldl_snd ?_ (fun _ _ hf => ?_)
      | (simp only [↓wf_mk]; refine wf_back ?_) | intro _ | split

/-! ### Sched -/

theorem wf_setPartition (x0 : Package) x1 (h0 : x0.wf = true) : (@Package.setPartition x0 x1).wf = true := by
  unfold Package.setPartition
  try dsimp only
  repeat' with_reducible
    first
      | exact h0 | exact hf | assumption | refine wf_foldl ?_ (fun _ _ hf => ?_) | refine wf_foldl_snd ?_ (fun _ _ hf => ?_)
      | (simp only [↓wf_mk]; refine wf_back ?_) | intro _ | split

theorem wf_drainPart (x0 : Package) x1 x2 (h0 : x0.wf = true) : (@Package.drainPart x0 x1 x2).wf = true := by
  unfold Package.drainPart
  try dsimp only
  repeat' with_reducible
    first
      | exact h0 | apply wf_setPartition | exact hf | assumption | refine wf_foldl ?_ (fun _ _ hf => ?_)
      | refine wf_foldl_snd ?_ (fun _ _ hf => ?_) | (simp only [↓wf_mk]; refine wf_back ?_) | intro _ | split

theorem wf_formGang (x0 : Package) x1 x2 x3 (h0 : x0.wf = true) : (@Package.formGang x0 x1 x2 x3).wf = true := by
  unfold Package.formGang
  try dsimp only
  repeat' with_reducible
    first
      | exact h0 | apply wf_setPartition | apply wf_setThread | apply wf_pick | refine wf_snd (by assumption) (wf_pick _ _ ?_)
      | exact hf | assumption | refine wf_foldl ?_ (fun _ _ hf => ?_) | refine wf_foldl_snd ?_ (fun _ _ hf => ?_)
      | (simp only [↓wf_mk]; refine wf_back ?_) | intro _ | split

theorem wf_settlePart (c k n : Nat) (p : Package) (h : p.wf = true) : (Package.settlePart c k n p).wf = true := by
  induction n generalizing p with
  | zero => exact h
  | succ n ih =>
    have hd := wf_drainPart p c k h
    unfold Package.settlePart
    dsimp only
    split
    · split
      · exact hd
      · exact ih _ (wf_formGang _ _ _ _ hd)
    · exact hd

theorem wf_settle (x0 : Package) (h0 : x0.wf = true) : (@Package.settle x0).wf = true := by
  unfold Package.settle
  try dsimp only
  repeat' with_reducible
    first
      | exact h0 | apply wf_settlePart | exact hf | assumption | refine wf_foldl ?_ (fun _ _ hf => ?_)
      | refine wf_foldl_snd ?_ (fun _ _ hf => ?_) | (simp only [↓wf_mk]; refine wf_back ?_) | intro _ | split

theorem wf_fileAll (x0 : Package) x1 x2 (h0 : x0.wf = true) : (@Package.fileAll x0 x1 x2).wf = true := by
  unfold Package.fileAll
  try dsimp only
  repeat' with_reducible
    first
      | exact h0 | apply wf_leaveGang | apply wf_setPartition | apply wf_setThread | apply wf_settle | exact hf | assumption
      | refine wf_foldl ?_ (fun _ _ hf => ?_) | refine wf_foldl_snd ?_ (fun _ _ hf => ?_)
      | (simp only [↓wf_mk]; refine wf_back ?_) | intro _ | split

theorem wf_fileOne (x0 : Package) x1 x2 (h0 : x0.wf = true) : (@Package.fileOne x0 x1 x2).wf = true := by
  unfold Package.fileOne
  try dsimp only
  repeat' with_reducible
    first
      | exact h0 | apply wf_fileAll | exact hf | assumption | refine wf_foldl ?_ (fun _ _ hf => ?_)
      | refine wf_foldl_snd ?_ (fun _ _ hf => ?_) | (simp only [↓wf_mk]; refine wf_back ?_) | intro _ | split

theorem wf_unfile (x0 : Package) x1 (h0 : x0.wf = true) : (@Package.unfile x0 x1).wf = true := by
  unfold Package.unfile
  try dsimp only
  repeat' with_reducible
    first
      | exact h0 | exact hf | assumption | refine wf_foldl ?_ (fun _ _ hf => ?_) | refine wf_foldl_snd ?_ (fun _ _ hf => ?_)
      | (simp only [↓wf_mk]; refine wf_back ?_) | intro _ | split

theorem wf_releaseRec (x0 : Package) x1 x2 (h0 : x0.wf = true) : (@Package.releaseRec x0 x1 x2).wf = true := by
  unfold Package.releaseRec
  try dsimp only
  repeat' with_reducible
    first
      | exact h0 | apply wf_fileAll | apply wf_setTeam | exact hf | assumption | refine wf_foldl ?_ (fun _ _ hf => ?_)
      | refine wf_foldl_snd ?_ (fun _ _ hf => ?_) | (simp only [↓wf_mk]; refine wf_back ?_) | intro _ | split

theorem wf_releaseDone (x0 : Package) x1 (h0 : x0.wf = true) : (@Package.releaseDone x0 x1).wf = true := by
  unfold Package.releaseDone
  try dsimp only
  repeat' with_reducible
    first
      | exact h0 | apply wf_releaseRec | exact hf | assumption | refine wf_foldl ?_ (fun _ _ hf => ?_)
      | refine wf_foldl_snd ?_ (fun _ _ hf => ?_) | (simp only [↓wf_mk]; refine wf_back ?_) | intro _ | split

theorem wf_leaveRecs (x0 : Package) x1 (h0 : x0.wf = true) : (@Package.leaveRecs x0 x1).wf = true := by
  unfold Package.leaveRecs
  try dsimp only
  repeat' with_reducible
    first
      | exact h0 | apply wf_releaseDone | apply wf_setTeam | exact hf | assumption | refine wf_foldl ?_ (fun _ _ hf => ?_)
      | refine wf_foldl_snd ?_ (fun _ _ hf => ?_) | (simp only [↓wf_mk]; refine wf_back ?_) | intro _ | split

theorem wf_park (x0 : Package) x1 x2 (h0 : x0.wf = true) : (@Package.park x0 x1 x2).wf = true := by
  unfold Package.park
  try dsimp only
  repeat' with_reducible
    first
      | exact h0 | apply wf_leaveGang | apply wf_setTeam | apply wf_setThread | exact hf | assumption
      | refine wf_foldl ?_ (fun _ _ hf => ?_) | refine wf_foldl_snd ?_ (fun _ _ hf => ?_)
      | (simp only [↓wf_mk]; refine wf_back ?_) | intro _ | split

theorem wf_commitCeilings (x0 : Package) x1 (h0 : x0.wf = true) : (@Package.commitCeilings x0 x1).wf = true := by
  unfold Package.commitCeilings
  try dsimp only
  repeat' with_reducible
    first
      | exact h0 | apply wf_setTeam | exact hf | assumption | refine wf_foldl ?_ (fun _ _ hf => ?_)
      | refine wf_foldl_snd ?_ (fun _ _ hf => ?_) | (simp only [↓wf_mk]; refine wf_back ?_) | intro _ | split

theorem wf_releaseExt (x0 : Package) x1 (h0 : x0.wf = true) : (@Package.releaseExt x0 x1).wf = true := by
  unfold Package.releaseExt
  try dsimp only
  repeat' with_reducible
    first
      | exact h0 | apply wf_setTeam | exact hf | assumption | refine wf_foldl ?_ (fun _ _ hf => ?_)
      | refine wf_foldl_snd ?_ (fun _ _ hf => ?_) | (simp only [↓wf_mk]; refine wf_back ?_) | intro _ | split

theorem wf_bodyEnd (x0 : Package) x1 (h0 : x0.wf = true) : (@Package.bodyEnd x0 x1).wf = true := by
  unfold Package.bodyEnd
  try dsimp only
  repeat' with_reducible
    first
      | exact h0 | apply wf_poke | apply wf_setTeam | exact hf | assumption | refine wf_foldl ?_ (fun _ _ hf => ?_)
      | refine wf_foldl_snd ?_ (fun _ _ hf => ?_) | (simp only [↓wf_mk]; refine wf_back ?_) | intro _ | split

theorem wf_endThread (x0 : Package) x1 (h0 : x0.wf = true) : (@Package.endThread x0 x1).wf = true := by
  unfold Package.endThread
  try dsimp only
  repeat' with_reducible
    first
      | exact h0 | apply wf_bodyEnd | apply wf_leaveGang | apply wf_leaveRecs | apply wf_releaseExt | apply wf_setTeam
      | apply wf_setThread | apply wf_settle | apply wf_unfile | exact hf | assumption | refine wf_foldl ?_ (fun _ _ hf => ?_)
      | refine wf_foldl_snd ?_ (fun _ _ hf => ?_) | (simp only [↓wf_mk]; refine wf_back ?_) | intro _ | split

theorem wf_abortJobs (x0 : Package) x1 (h0 : x0.wf = true) : (@Package.abortJobs x0 x1).wf = true := by
  unfold Package.abortJobs
  try dsimp only
  repeat' with_reducible
    first
      | exact h0 | exact hf | assumption | refine wf_foldl ?_ (fun _ _ hf => ?_) | refine wf_foldl_snd ?_ (fun _ _ hf => ?_)
      | (simp only [↓wf_mk]; refine wf_back ?_) | intro _ | split

theorem wf_killOne (x0 : Package) x1 (h0 : x0.wf = true) : (@Package.killOne x0 x1).wf = true := by
  unfold Package.killOne
  try dsimp only
  repeat' with_reducible
    first
      | exact h0 | apply wf_abortJobs | apply wf_endThread | exact hf | assumption | refine wf_foldl ?_ (fun _ _ hf => ?_)
      | refine wf_foldl_snd ?_ (fun _ _ hf => ?_) | (simp only [↓wf_mk]; refine wf_back ?_) | intro _ | split

theorem wf_killThread (x0 : Package) x1 (h0 : x0.wf = true) : (@Package.killThread x0 x1).wf = true := by
  unfold Package.killThread
  try dsimp only
  repeat' with_reducible
    first
      | exact h0 | apply wf_killOne | apply wf_setThread | exact hf | assumption | refine wf_foldl ?_ (fun _ _ hf => ?_)
      | refine wf_foldl_snd ?_ (fun _ _ hf => ?_) | (simp only [↓wf_mk]; refine wf_back ?_) | intro _ | split

theorem wf_killIdle (x0 : Package) (h0 : x0.wf = true) : (@Package.killIdle x0).wf = true := by
  unfold Package.killIdle
  try dsimp only
  repeat' with_reducible
    first
      | exact h0 | apply wf_killOne | exact hf | assumption | refine wf_foldl ?_ (fun _ _ hf => ?_)
      | refine wf_foldl_snd ?_ (fun _ _ hf => ?_) | (simp only [↓wf_mk]; refine wf_back ?_) | intro _ | split

theorem wf_killDying (x0 : Package) x1 x2 (h0 : x0.wf = true) : (@Package.killDying x0 x1 x2).wf = true := by
  unfold Package.killDying
  try dsimp only
  repeat' with_reducible
    first
      | exact h0 | apply wf_killOne | exact hf | assumption | refine wf_foldl ?_ (fun _ _ hf => ?_)
      | refine wf_foldl_snd ?_ (fun _ _ hf => ?_) | (simp only [↓wf_mk]; refine wf_back ?_) | intro _ | split

theorem wf_killTeam (x0 : Package) x1 (h0 : x0.wf = true) : (@Package.killTeam x0 x1).wf = true := by
  unfold Package.killTeam
  try dsimp only
  repeat' with_reducible
    first
      | exact h0 | apply wf_killThread | apply wf_setTeam | exact hf | assumption | refine wf_foldl ?_ (fun _ _ hf => ?_)
      | refine wf_foldl_snd ?_ (fun _ _ hf => ?_) | (simp only [↓wf_mk]; refine wf_back ?_) | intro _ | split

theorem wf_endClauseWith (x0 : Package) x1 x2 x3 (h0 : x0.wf = true) : (@Package.endClauseWith x0 x1 x2 x3).wf = true := by
  unfold Package.endClauseWith
  try dsimp only
  repeat' with_reducible
    first
      | exact h0 | apply wf_commitCeilings | apply wf_fileAll | apply wf_killDying | apply wf_setGang | apply wf_setThread
      | exact hf | assumption | refine wf_foldl ?_ (fun _ _ hf => ?_) | refine wf_foldl_snd ?_ (fun _ _ hf => ?_)
      | (simp only [↓wf_mk]; refine wf_back ?_) | intro _ | split

theorem wf_endClause (x0 : Package) x1 (h0 : x0.wf = true) : (@Package.endClause x0 x1).wf = true := by
  unfold Package.endClause
  try dsimp only
  repeat' with_reducible
    first
      | exact h0 | apply wf_endClauseWith | exact hf | assumption | refine wf_foldl ?_ (fun _ _ hf => ?_)
      | refine wf_foldl_snd ?_ (fun _ _ hf => ?_) | (simp only [↓wf_mk]; refine wf_back ?_) | intro _ | split

/-! ### Ops -/

theorem keeps_setThr x0 x1 : Keeps (@setThr x0 x1) := by
  unfold setThr
  try dsimp only
  repeat' with_reducible
    first
      | exact keeps_pure _ | exact keeps_get | refine keeps_modifyGet (fun _ hf => ?_) | refine keeps_modify (fun _ hf => ?_)
      | refine keeps_getBind (fun _ hf => ?_) | refine keeps_set ?_ | refine keeps_bind ?_ (fun _ => ?_) | apply wf_setThread
      | exact hf | assumption | refine wf_foldl ?_ (fun _ _ hf => ?_) | refine wf_foldl_snd ?_ (fun _ _ hf => ?_)
      | (simp only [↓wf_mk]; refine wf_back ?_) | intro _ | split

theorem keeps_setTeam x0 x1 : Keeps (@setTeam x0 x1) := by
  unfold setTeam
  try dsimp only
  repeat' with_reducible
    first
      | exact keeps_pure _ | exact keeps_get | refine keeps_modifyGet (fun _ hf => ?_) | refine keeps_modify (fun _ hf => ?_)
      | refine keeps_getBind (fun _ hf => ?_) | refine keeps_set ?_ | refine keeps_bind ?_ (fun _ => ?_) | apply wf_setTeam
      | exact hf | assumption | refine wf_foldl ?_ (fun _ _ hf => ?_) | refine wf_foldl_snd ?_ (fun _ _ hf => ?_)
      | (simp only [↓wf_mk]; refine wf_back ?_) | intro _ | split

theorem keeps_freshId : Keeps (freshId) := by
  unfold freshId
  try dsimp only
  repeat' with_reducible
    first
      | exact keeps_pure _ | exact keeps_get | refine keeps_modifyGet (fun _ hf => ?_) | refine keeps_modify (fun _ hf => ?_)
      | refine keeps_getBind (fun _ hf => ?_) | refine keeps_set ?_ | refine keeps_bind ?_ (fun _ => ?_) | apply wf_fresh
      | refine wf_snd (by assumption) (wf_fresh _ ?_) | exact hf | assumption | refine wf_foldl ?_ (fun _ _ hf => ?_)
      | refine wf_foldl_snd ?_ (fun _ _ hf => ?_) | (simp only [↓wf_mk]; refine wf_back ?_) | intro _ | split

theorem keeps_env x0 : Keeps (@env x0) := by
  unfold env
  try dsimp only
  repeat' with_reducible
    first
      | exact keeps_pure _ | exact keeps_get | apply keeps_thr | refine keeps_modifyGet (fun _ hf => ?_)
      | refine keeps_modify (fun _ hf => ?_) | refine keeps_getBind (fun _ hf => ?_) | refine keeps_set ?_
      | refine keeps_bind ?_ (fun _ => ?_) | exact hf | assumption | refine wf_foldl ?_ (fun _ _ hf => ?_)
      | refine wf_foldl_snd ?_ (fun _ _ hf => ?_) | refine wf_run (by assumption) ?_ ?_
      | refine wf_trapErr (by assumption) ?_ ?_ | (simp only [↓wf_mk]; refine wf_back ?_) | intro _ | split

theorem keeps_ceilingOf x0 : Keeps (@ceilingOf x0) := by
  unfold ceilingOf
  try dsimp only
  repeat' with_reducible
    first
      | exact keeps_pure _ | exact keeps_get | apply keeps_maskOf | apply keeps_teamOf
      | refine keeps_modifyGet (fun _ hf => ?_) | refine keeps_modify (fun _ hf => ?_) | refine keeps_getBind (fun _ hf => ?_)
      | refine keeps_set ?_ | refine keeps_bind ?_ (fun _ => ?_) | exact hf | assumption
      | refine wf_foldl ?_ (fun _ _ hf => ?_) | refine wf_foldl_snd ?_ (fun _ _ hf => ?_) | refine wf_run (by assumption) ?_ ?_
      | refine wf_trapErr (by assumption) ?_ ?_ | (simp only [↓wf_mk]; refine wf_back ?_) | intro _ | split

theorem wf_flagDone (x0 : Package) x1 x2 (h0 : x0.wf = true) : (@Package.flagDone x0 x1 x2).wf = true := by
  unfold Package.flagDone
  try dsimp only
  repeat' with_reducible
    first
      | exact h0 | apply wf_setThread | exact hf | assumption | refine wf_foldl ?_ (fun _ _ hf => ?_)
      | refine wf_foldl_snd ?_ (fun _ _ hf => ?_) | (simp only [↓wf_mk]; refine wf_back ?_) | intro _ | split

theorem wf_dropActive (x0 : Package) x1 (h0 : x0.wf = true) : (@Package.dropActive x0 x1).wf = true := by
  unfold Package.dropActive
  try dsimp only
  repeat' with_reducible
    first
      | exact h0 | apply wf_commitCeilings | exact hf | assumption | refine wf_foldl ?_ (fun _ _ hf => ?_)
      | refine wf_foldl_snd ?_ (fun _ _ hf => ?_) | (simp only [↓wf_mk]; refine wf_back ?_) | intro _ | split

theorem wf_doubleTrap (x0 : Package) x1 x2 x3 (h0 : x0.wf = true) : (@Package.doubleTrap x0 x1 x2 x3).wf = true := by
  unfold Package.doubleTrap
  try dsimp only
  repeat' with_reducible
    first
      | exact h0 | apply wf_interrupt | apply wf_killOne | apply wf_setWorld | exact hf | assumption
      | refine wf_foldl ?_ (fun _ _ hf => ?_) | refine wf_foldl_snd ?_ (fun _ _ hf => ?_)
      | (simp only [↓wf_mk]; refine wf_back ?_) | intro _ | split

theorem wf_snapshot (x0 : Package) x1 (h0 : x0.wf = true) : (@Package.snapshot x0 x1).wf = true := by
  unfold Package.snapshot
  try dsimp only
  repeat' with_reducible
    first
      | exact h0 | apply wf_interrupt | exact hf | assumption | refine wf_foldl ?_ (fun _ _ hf => ?_)
      | refine wf_foldl_snd ?_ (fun _ _ hf => ?_) | (simp only [↓wf_mk]; refine wf_back ?_) | intro _ | split

theorem wf_faultTrigger (x0 : Package) x1 x2 (h0 : x0.wf = true) : (@Package.faultTrigger x0 x1 x2).wf = true := by
  unfold Package.faultTrigger
  try dsimp only
  repeat' with_reducible
    first
      | exact h0 | apply wf_snapshot | exact hf | assumption | refine wf_foldl ?_ (fun _ _ hf => ?_)
      | refine wf_foldl_snd ?_ (fun _ _ hf => ?_) | (simp only [↓wf_mk]; refine wf_back ?_) | intro _ | split

theorem wf_writeFrame {p q : Package} {pa : Nat} {tm : Team} {th : Thread} (hq : p.writeFrame pa tm th = some q) (h : p.wf = true) :
    q.wf = true := by
  unfold Package.writeFrame at hq
  dsimp only at hq
  split at hq
  · cases hq
  · next h1 =>
    split at hq
    · cases hq
    · next h2 =>
      cases hq
      exact wf_setGlabel _ _ _ (wf_setGlabel _ _ _ (wf_foldl (wf_foldl (wf_poke _ _ _ _ (wf_labelFor h2 (wf_labelFor h1 h)))
        (fun _ _ hp => wf_setGlabel _ _ _ hp)) (fun _ _ hp => wf_setGlabel _ _ _ hp)))

theorem wf_enterTrap (x0 : Package) x1 x2 (h0 : x0.wf = true) : (@Package.enterTrap x0 x1 x2).wf = true := by
  unfold Package.enterTrap
  try dsimp only
  repeat' with_reducible
    first
      | exact h0 | apply wf_doubleTrap | apply wf_faultTrigger | apply wf_fileOne | apply wf_interrupt | apply wf_setTeam
      | apply wf_setThread | refine wf_writeFrame (by assumption) ?_ | exact hf | assumption
      | refine wf_foldl ?_ (fun _ _ hf => ?_) | refine wf_foldl_snd ?_ (fun _ _ hf => ?_)
      | (simp only [↓wf_mk]; refine wf_back ?_) | intro _ | split

theorem wf_raiseTrap (x0 : Package) x1 x2 (h0 : x0.wf = true) : (@Package.raiseTrap x0 x1 x2).wf = true := by
  unfold Package.raiseTrap
  try dsimp only
  repeat' with_reducible
    first
      | exact h0 | apply wf_doubleTrap | apply wf_dropActive | apply wf_enterTrap | apply wf_faultTrigger | apply wf_killOne
      | apply wf_leaveGang | apply wf_setThread | apply wf_settle | apply wf_unfile | exact hf | assumption
      | refine wf_foldl ?_ (fun _ _ hf => ?_) | refine wf_foldl_snd ?_ (fun _ _ hf => ?_)
      | (simp only [↓wf_mk]; refine wf_back ?_) | intro _ | split

theorem wf_pageFault (x0 : Package) x1 x2 x3 x4 (h0 : x0.wf = true) : (@Package.pageFault x0 x1 x2 x3 x4).wf = true := by
  unfold Package.pageFault
  try dsimp only
  repeat' with_reducible
    first
      | exact h0 | apply wf_dropActive | apply wf_killOne | apply wf_leaveGang | apply wf_setThread | exact hf | assumption
      | refine wf_foldl ?_ (fun _ _ hf => ?_) | refine wf_foldl_snd ?_ (fun _ _ hf => ?_)
      | (simp only [↓wf_mk]; refine wf_back ?_) | intro _ | split

theorem wf_noteError (x0 : Package) x1 x2 (h0 : x0.wf = true) : (@Package.noteError x0 x1 x2).wf = true := by
  unfold Package.noteError
  try dsimp only
  repeat' with_reducible
    first
      | exact h0 | apply wf_setThread | exact hf | assumption | refine wf_foldl ?_ (fun _ _ hf => ?_)
      | refine wf_foldl_snd ?_ (fun _ _ hf => ?_) | (simp only [↓wf_mk]; refine wf_back ?_) | intro _ | split

theorem wf_hold (x0 : Package) x1 x2 (h0 : x0.wf = true) : (@Package.hold x0 x1 x2).wf = true := by
  unfold Package.hold
  try dsimp only
  repeat' with_reducible
    first
      | exact h0 | apply wf_killDying | apply wf_setGang | exact hf | assumption | refine wf_foldl ?_ (fun _ _ hf => ?_)
      | refine wf_foldl_snd ?_ (fun _ _ hf => ?_) | (simp only [↓wf_mk]; refine wf_back ?_) | intro _ | split

theorem wf_foldThreads {β : Type} {body : Who → PM β} (hb : ∀ w, Keeps (body w)) (team : Nat) (ls : List Nat) (p : Package)
    (out : List (Nat × β)) (h : p.wf = true) (q : Package) (r : List (Nat × β)) (hr : foldThreads body team ls p out = .done q r) :
    q.wf = true := by
  induction ls generalizing p out with
  | nil => cases hr; exact h
  | cons l ls ih =>
    have hk := hb ⟨team, l⟩ p h
    unfold foldThreads at hr
    simp only at hr
    split at hr
    · next heq => exact ih _ _ (hk.1 _ _ heq) hr
    · next heq =>
      have hq := hk.2 _ heq
      have h1 := wf_keep p _ h hq
      refine ih _ _ ?_ hr
      split
      · apply wf_raiseTrap
        split
        · exact wf_setThread _ _ _ h1
        · exact h1
      · split
        · exact wf_setThread _ _ _ h1
        · exact h1
    · next heq =>
      have hq := hk.2 _ heq
      exact ih _ _ (wf_pageFault _ _ _ _ _ (wf_keep p _ h hq)) hr
    · next heq =>
      have hq := hk.2 _ heq
      have h1 := wf_keep p _ h hq
      refine ih _ _ ?_ hr
      split
      · exact wf_noteError _ _ _ h1
      · exact h1
    · cases hr

theorem wf_eachThen {β : Type} {body : Who → PM β} {after : List (Nat × β) → Package → Package} {p : Package} (h : p.wf = true)
    (hb : ∀ w, Keeps (body w)) (ha : ∀ out q, q.wf = true → (after out q).wf = true) : (eachThen body after p).wf = true := by
  unfold eachThen
  split
  · exact h
  · split
    · next heq => exact ha _ _ (wf_foldThreads hb _ _ _ _ h _ _ heq)
    · exact wf_hold _ _ _ h

theorem wf_each {body : Who → PM Unit} {p : Package} (h : p.wf = true) (hb : ∀ w, Keeps (body w)) : (each body p).wf = true :=
  wf_eachThen h hb (fun _ _ hq => hq)

theorem wf_eachByIdThen {β : Type} {body : Who → PM β} {after : List (Nat × β) → Package → Package} {p : Package} (h : p.wf = true)
    (hb : ∀ w, Keeps (body w)) (ha : ∀ out q, q.wf = true → (after out q).wf = true) : (eachByIdThen body after p).wf = true := by
  unfold eachByIdThen
  split
  · exact h
  · split
    · next heq => exact ha _ _ (wf_foldThreads hb _ _ _ _ h _ _ heq)
    · exact wf_hold _ _ _ h

theorem wf_eachById {body : Who → PM Unit} {p : Package} (h : p.wf = true) (hb : ∀ w, Keeps (body w)) :
    (eachById body p).wf = true := wf_eachByIdThen h hb (fun _ _ hq => hq)

theorem wf_holdRest x0 x1 (x2 : Package) (h2 : x2.wf = true) : (@holdRest x0 x1 x2).wf = true := by
  unfold holdRest
  try dsimp only
  repeat' with_reducible
    first
      | exact h2 | apply wf_hold | exact hf | assumption | refine wf_foldl ?_ (fun _ _ hf => ?_)
      | refine wf_foldl_snd ?_ (fun _ _ hf => ?_) | (simp only [↓wf_mk]; refine wf_back ?_) | intro _ | split

theorem wf_gather {β : Type} {read : Who → PM β} {write : List (Nat × β) → Who → β → PM Unit} {p : Package} (h : p.wf = true)
    (hr : ∀ w, Keeps (read w)) (hw : ∀ u w b, Keeps (write u w b)) : (gather read write p).wf = true :=
  wf_each h (fun w => keeps_bind (hr w) (fun b => hw _ w b))

theorem keeps_leaveTrap x0 x1 : Keeps (@leaveTrap x0 x1) := by
  unfold leaveTrap
  try dsimp only
  repeat' with_reducible
    first
      | exact keeps_pure _ | exact keeps_get | apply keeps_await | apply keeps_prot | apply keeps_setTeam | apply keeps_setThr
      | apply keeps_theIssue | apply keeps_thr | refine keeps_modifyGet (fun _ hf => ?_) | refine keeps_modify (fun _ hf => ?_)
      | refine keeps_getBind (fun _ hf => ?_) | refine keeps_set ?_ | refine keeps_bind ?_ (fun _ => ?_) | exact hf
      | assumption | refine wf_foldl ?_ (fun _ _ hf => ?_) | refine wf_foldl_snd ?_ (fun _ _ hf => ?_)
      | refine wf_run (by assumption) ?_ ?_ | refine wf_trapErr (by assumption) ?_ ?_ | (simp only [↓wf_mk]; refine wf_back ?_)
      | intro _ | split

/-! ### Flags -/

theorem keeps_rmode x0 : Keeps (@rmode x0) := by
  unfold rmode
  try dsimp only
  repeat' with_reducible
    first
      | exact keeps_pure _ | exact keeps_get | apply keeps_thr | refine keeps_modifyGet (fun _ hf => ?_)
      | refine keeps_modify (fun _ hf => ?_) | refine keeps_getBind (fun _ hf => ?_) | refine keeps_set ?_
      | refine keeps_bind ?_ (fun _ => ?_) | exact hf | assumption | refine wf_foldl ?_ (fun _ _ hf => ?_)
      | refine wf_foldl_snd ?_ (fun _ _ hf => ?_) | refine wf_run (by assumption) ?_ ?_
      | refine wf_trapErr (by assumption) ?_ ?_ | (simp only [↓wf_mk]; refine wf_back ?_) | intro _ | split

theorem keeps_raiseFp x0 x1 x2 : Keeps (@raiseFp x0 x1 x2) := by
  unfold raiseFp
  try dsimp only
  repeat' with_reducible
    first
      | exact keeps_pure _ | exact keeps_get | apply keeps_trapFp | apply keeps_mkLabel | apply keeps_setThr | apply keeps_thr
      | refine keeps_modifyGet (fun _ hf => ?_) | refine keeps_modify (fun _ hf => ?_) | refine keeps_getBind (fun _ hf => ?_)
      | refine keeps_set ?_ | refine keeps_bind ?_ (fun _ => ?_) | exact hf | assumption
      | refine wf_foldl ?_ (fun _ _ hf => ?_) | refine wf_foldl_snd ?_ (fun _ _ hf => ?_) | refine wf_run (by assumption) ?_ ?_
      | refine wf_trapErr (by assumption) ?_ ?_ | (simp only [↓wf_mk]; refine wf_back ?_) | intro _ | split

end Sys2Proof.Machine
end

