-- ==== Sys2Proof/Laws/KeepMem.lean ====
section
/-! SUPPORT. Every operation and every meaning keeps the form of the tables of a package (`Package.wf`): memory, loads, stores, atomics, scratchpads, regions, special registers and control. -/

namespace Sys2Proof.Machine

/-! ### Operands -/

theorem keeps_illop x0 : Keeps (@illop x0) := by
  unfold illop
  try dsimp only
  repeat' with_reducible
    first
      | exact keeps_pure _ | exact keeps_get | apply keeps_theIssue | apply keeps_trap
      | refine keeps_modifyGet (fun _ hf => ?_) | refine keeps_modify (fun _ hf => ?_) | refine keeps_getBind (fun _ hf => ?_)
      | refine keeps_set ?_ | refine keeps_bind ?_ (fun _ => ?_) | exact hf | assumption
      | refine wf_foldl ?_ (fun _ _ hf => ?_) | refine wf_foldl_snd ?_ (fun _ _ hf => ?_) | refine wf_run (by assumption) ?_ ?_
      | refine wf_trapErr (by assumption) ?_ ?_ | (simp only [↓wf_mk]; refine wf_back ?_) | intro _ | split

theorem keeps_checkFields x0 x1 : Keeps (@checkFields x0 x1) := by
  unfold checkFields
  try dsimp only
  repeat' with_reducible
    first
      | exact keeps_pure _ | exact keeps_get | apply keeps_illop | apply keeps_teamOf | apply keeps_thr | apply keeps_trap
      | refine keeps_modifyGet (fun _ hf => ?_) | refine keeps_modify (fun _ hf => ?_) | refine keeps_getBind (fun _ hf => ?_)
      | refine keeps_set ?_ | refine keeps_bind ?_ (fun _ => ?_) | exact hf | assumption
      | refine wf_foldl ?_ (fun _ _ hf => ?_) | refine wf_foldl_snd ?_ (fun _ _ hf => ?_) | refine wf_run (by assumption) ?_ ?_
      | refine wf_trapErr (by assumption) ?_ ?_ | (simp only [↓wf_mk]; refine wf_back ?_) | intro _ | split

theorem keeps_resolve x0 x1 : Keeps (@resolve x0 x1) := by
  unfold resolve
  try dsimp only
  repeat' with_reducible
    first
      | exact keeps_pure _ | exact keeps_get | apply keeps_theIssue | apply keeps_thr | refine keeps_modifyGet (fun _ hf => ?_)
      | refine keeps_modify (fun _ hf => ?_) | refine keeps_getBind (fun _ hf => ?_) | refine keeps_set ?_
      | refine keeps_bind ?_ (fun _ => ?_) | exact hf | assumption | refine wf_foldl ?_ (fun _ _ hf => ?_)
      | refine wf_foldl_snd ?_ (fun _ _ hf => ?_) | refine wf_run (by assumption) ?_ ?_
      | refine wf_trapErr (by assumption) ?_ ?_ | (simp only [↓wf_mk]; refine wf_back ?_) | intro _ | split

theorem wf_putReg (x0 : Package) x1 x2 x3 x4 (h0 : x0.wf = true) : (@Package.putReg x0 x1 x2 x3 x4).wf = true := by
  unfold Package.putReg
  try dsimp only
  repeat' with_reducible
    first
      | exact h0 | apply wf_setTeam | apply wf_setThread | exact hf | assumption | refine wf_foldl ?_ (fun _ _ hf => ?_)
      | refine wf_foldl_snd ?_ (fun _ _ hf => ?_) | (simp only [↓wf_mk]; refine wf_back ?_) | intro _ | split

theorem wf_putRegs (p : Package) (w : Who) (d : Dst) (l : Lbl) (n : Nat) (vs : List Word) (h : p.wf = true) :
    (p.putRegs w d l n vs).wf = true := by
  induction vs generalizing p n with
  | nil => exact h
  | cons v vs ih => exact ih _ _ (wf_putReg _ _ _ _ _ h)

theorem wf_putVal (x0 : Package) x1 x2 x3 x4 x5 (h0 : x0.wf = true) : (@Package.putVal x0 x1 x2 x3 x4 x5).wf = true := by
  unfold Package.putVal
  try dsimp only
  repeat' with_reducible
    first
      | exact h0 | apply wf_putRegs | exact hf | assumption | refine wf_foldl ?_ (fun _ _ hf => ?_)
      | refine wf_foldl_snd ?_ (fun _ _ hf => ?_) | (simp only [↓wf_mk]; refine wf_back ?_) | intro _ | split

theorem keeps_out x0 x1 x2 x3 x4 : Keeps (@out x0 x1 x2 x3 x4) := by
  unfold out
  try dsimp only
  repeat' with_reducible
    first
      | exact keeps_pure _ | exact keeps_get | apply keeps_resolve | refine keeps_modifyGet (fun _ hf => ?_)
      | refine keeps_modify (fun _ hf => ?_) | refine keeps_getBind (fun _ hf => ?_) | refine keeps_set ?_
      | refine keeps_bind ?_ (fun _ => ?_) | apply wf_putVal | exact hf | assumption | refine wf_foldl ?_ (fun _ _ hf => ?_)
      | refine wf_foldl_snd ?_ (fun _ _ hf => ?_) | refine wf_run (by assumption) ?_ ?_
      | refine wf_trapErr (by assumption) ?_ ?_ | (simp only [↓wf_mk]; refine wf_back ?_) | intro _ | split

theorem keeps_vout x0 x1 x2 x3 x4 : Keeps (@vout x0 x1 x2 x3 x4) := by
  unfold vout
  try dsimp only
  repeat' with_reducible
    first
      | exact keeps_pure _ | exact keeps_get | apply keeps_out | apply keeps_setThr | apply keeps_theIssue
      | refine keeps_modifyGet (fun _ hf => ?_) | refine keeps_modify (fun _ hf => ?_) | refine keeps_getBind (fun _ hf => ?_)
      | refine keeps_set ?_ | refine keeps_bind ?_ (fun _ => ?_) | exact hf | assumption
      | refine wf_foldl ?_ (fun _ _ hf => ?_) | refine wf_foldl_snd ?_ (fun _ _ hf => ?_) | refine wf_run (by assumption) ?_ ?_
      | refine wf_trapErr (by assumption) ?_ ?_ | (simp only [↓wf_mk]; refine wf_back ?_) | intro _ | split

theorem keeps_popDQ x0 x1 : Keeps (@popDQ x0 x1) := by
  unfold popDQ
  try dsimp only
  repeat' with_reducible
    first
      | exact keeps_pure _ | exact keeps_get | apply keeps_setTeam | apply keeps_teamOf | apply keeps_thr | apply keeps_trap
      | apply keeps_waitFor | refine keeps_modifyGet (fun _ hf => ?_) | refine keeps_modify (fun _ hf => ?_)
      | refine keeps_getBind (fun _ hf => ?_) | refine keeps_set ?_ | refine keeps_bind ?_ (fun _ => ?_) | exact hf
      | assumption | refine wf_foldl ?_ (fun _ _ hf => ?_) | refine wf_foldl_snd ?_ (fun _ _ hf => ?_)
      | refine wf_run (by assumption) ?_ ?_ | refine wf_trapErr (by assumption) ?_ ?_ | (simp only [↓wf_mk]; refine wf_back ?_)
      | intro _ | split

theorem keeps_readField x0 x1 x2 x3 x4 : Keeps (@readField x0 x1 x2 x3 x4) := by
  unfold readField
  try dsimp only
  repeat' with_reducible
    first
      | exact keeps_pure _ | exact keeps_get | apply keeps_popDQ | apply keeps_resolve | apply keeps_teamOf | apply keeps_thr
      | refine keeps_modifyGet (fun _ hf => ?_) | refine keeps_modify (fun _ hf => ?_) | refine keeps_getBind (fun _ hf => ?_)
      | refine keeps_set ?_ | refine keeps_bind ?_ (fun _ => ?_) | exact hf | assumption
      | refine wf_foldl ?_ (fun _ _ hf => ?_) | refine wf_foldl_snd ?_ (fun _ _ hf => ?_) | refine wf_run (by assumption) ?_ ?_
      | refine wf_trapErr (by assumption) ?_ ?_ | (simp only [↓wf_mk]; refine wf_back ?_) | intro _ | split

theorem keeps_readSreg x0 x1 x2 : Keeps (@readSreg x0 x1 x2) := by
  unfold readSreg
  try dsimp only
  repeat' with_reducible
    first
      | exact keeps_pure _ | exact keeps_get | apply keeps_teamOf | apply keeps_theIssue
      | refine keeps_modifyGet (fun _ hf => ?_) | refine keeps_modify (fun _ hf => ?_) | refine keeps_getBind (fun _ hf => ?_)
      | refine keeps_set ?_ | refine keeps_bind ?_ (fun _ => ?_) | exact hf | assumption
      | refine wf_foldl ?_ (fun _ _ hf => ?_) | refine wf_foldl_snd ?_ (fun _ _ hf => ?_) | refine wf_run (by assumption) ?_ ?_
      | refine wf_trapErr (by assumption) ?_ ?_ | (simp only [↓wf_mk]; refine wf_back ?_) | intro _ | split

theorem keeps_readB x0 x1 x2 x3 x4 x5 : Keeps (@readB x0 x1 x2 x3 x4 x5) := by
  unfold readB
  try dsimp only
  repeat' with_reducible
    first
      | exact keeps_pure _ | exact keeps_get | apply keeps_readField | apply keeps_readSreg
      | refine keeps_modifyGet (fun _ hf => ?_) | refine keeps_modify (fun _ hf => ?_) | refine keeps_getBind (fun _ hf => ?_)
      | refine keeps_set ?_ | refine keeps_bind ?_ (fun _ => ?_) | exact hf | assumption
      | refine wf_foldl ?_ (fun _ _ hf => ?_) | refine wf_foldl_snd ?_ (fun _ _ hf => ?_) | refine wf_run (by assumption) ?_ ?_
      | refine wf_trapErr (by assumption) ?_ ?_ | (simp only [↓wf_mk]; refine wf_back ?_) | intro _ | split

theorem keeps_resultLabel x0 x1 : Keeps (@resultLabel x0 x1) := by
  unfold resultLabel
  try dsimp only
  repeat' with_reducible
    first
      | exact keeps_pure _ | exact keeps_get | apply keeps_env | apply keeps_mkLabel | refine keeps_modifyGet (fun _ hf => ?_)
      | refine keeps_modify (fun _ hf => ?_) | refine keeps_getBind (fun _ hf => ?_) | refine keeps_set ?_
      | refine keeps_bind ?_ (fun _ => ?_) | exact hf | assumption | refine wf_foldl ?_ (fun _ _ hf => ?_)
      | refine wf_foldl_snd ?_ (fun _ _ hf => ?_) | refine wf_run (by assumption) ?_ ?_
      | refine wf_trapErr (by assumption) ?_ ?_ | (simp only [↓wf_mk]; refine wf_back ?_) | intro _ | split

theorem keeps_readPred x0 x1 : Keeps (@readPred x0 x1) := by
  unfold readPred
  try dsimp only
  repeat' with_reducible
    first
      | exact keeps_pure _ | exact keeps_get | apply keeps_maskOf | apply keeps_thr | refine keeps_modifyGet (fun _ hf => ?_)
      | refine keeps_modify (fun _ hf => ?_) | refine keeps_getBind (fun _ hf => ?_) | refine keeps_set ?_
      | refine keeps_bind ?_ (fun _ => ?_) | exact hf | assumption | refine wf_foldl ?_ (fun _ _ hf => ?_)
      | refine wf_foldl_snd ?_ (fun _ _ hf => ?_) | refine wf_run (by assumption) ?_ ?_
      | refine wf_trapErr (by assumption) ?_ ?_ | (simp only [↓wf_mk]; refine wf_back ?_) | intro _ | split

theorem keeps_writePred x0 x1 x2 x3 : Keeps (@writePred x0 x1 x2 x3) := by
  unfold writePred
  try dsimp only
  repeat' with_reducible
    first
      | exact keeps_pure _ | exact keeps_get | apply keeps_setThr | refine keeps_modifyGet (fun _ hf => ?_)
      | refine keeps_modify (fun _ hf => ?_) | refine keeps_getBind (fun _ hf => ?_) | refine keeps_set ?_
      | refine keeps_bind ?_ (fun _ => ?_) | exact hf | assumption | refine wf_foldl ?_ (fun _ _ hf => ?_)
      | refine wf_foldl_snd ?_ (fun _ _ hf => ?_) | refine wf_run (by assumption) ?_ ?_
      | refine wf_trapErr (by assumption) ?_ ?_ | (simp only [↓wf_mk]; refine wf_back ?_) | intro _ | split

theorem wf_setCore (x0 : Package) x1 x2 (h0 : x0.wf = true) : (@Package.setCore x0 x1 x2).wf = true := by
  unfold Package.setCore
  try dsimp only
  repeat' with_reducible
    first
      | exact h0 | exact hf | assumption | refine wf_foldl ?_ (fun _ _ hf => ?_) | refine wf_foldl_snd ?_ (fun _ _ hf => ?_)
      | (simp only [↓wf_mk]; refine wf_back ?_) | intro _ | split

theorem keeps_addAcc x0 x1 : Keeps (@addAcc x0 x1) := by
  unfold addAcc
  try dsimp only
  repeat' with_reducible
    first
      | exact keeps_pure _ | exact keeps_get | apply keeps_freshId | apply keeps_teamOf | apply keeps_theIssue
      | apply keeps_thr | refine keeps_modifyGet (fun _ hf => ?_) | refine keeps_modify (fun _ hf => ?_)
      | refine keeps_getBind (fun _ hf => ?_) | refine keeps_set ?_ | refine keeps_bind ?_ (fun _ => ?_) | exact hf
      | assumption | refine wf_foldl ?_ (fun _ _ hf => ?_) | refine wf_foldl_snd ?_ (fun _ _ hf => ?_)
      | refine wf_run (by assumption) ?_ ?_ | refine wf_trapErr (by assumption) ?_ ?_ | (simp only [↓wf_mk]; refine wf_back ?_)
      | intro _ | split

theorem keeps_lateResult x0 x1 x2 x3 x4 x5 : Keeps (@lateResult x0 x1 x2 x3 x4 x5) := by
  unfold lateResult
  try dsimp only
  repeat' with_reducible
    first
      | exact keeps_pure _ | exact keeps_get | apply keeps_addAcc | apply keeps_resolve
      | refine keeps_modifyGet (fun _ hf => ?_) | refine keeps_modify (fun _ hf => ?_) | refine keeps_getBind (fun _ hf => ?_)
      | refine keeps_set ?_ | refine keeps_bind ?_ (fun _ => ?_) | exact hf | assumption
      | refine wf_foldl ?_ (fun _ _ hf => ?_) | refine wf_foldl_snd ?_ (fun _ _ hf => ?_) | refine wf_run (by assumption) ?_ ?_
      | refine wf_trapErr (by assumption) ?_ ?_ | (simp only [↓wf_mk]; refine wf_back ?_) | intro _ | split

theorem keeps_lateFp x0 x1 x2 : Keeps (@lateFp x0 x1 x2) := by
  unfold lateFp
  try dsimp only
  repeat' with_reducible
    first
      | exact keeps_pure _ | exact keeps_get | apply keeps_raiseFp | apply keeps_thr | refine keeps_modifyGet (fun _ hf => ?_)
      | refine keeps_modify (fun _ hf => ?_) | refine keeps_getBind (fun _ hf => ?_) | refine keeps_set ?_
      | refine keeps_bind ?_ (fun _ => ?_) | exact hf | assumption | refine wf_foldl ?_ (fun _ _ hf => ?_)
      | refine wf_foldl_snd ?_ (fun _ _ hf => ?_) | refine wf_run (by assumption) ?_ ?_
      | refine wf_trapErr (by assumption) ?_ ?_ | (simp only [↓wf_mk]; refine wf_back ?_) | intro _ | split

theorem keeps_alu2 x0 x1 x2 x3 x4 x5 x6 x7 x8 : Keeps (@alu2 x0 x1 x2 x3 x4 x5 x6 x7 x8) := by
  unfold alu2
  try dsimp only
  repeat' with_reducible
    first
      | exact keeps_pure _ | exact keeps_get | apply keeps_checkFields | apply keeps_readB | apply keeps_readField
      | apply keeps_resultLabel | apply keeps_vout | refine keeps_modifyGet (fun _ hf => ?_)
      | refine keeps_modify (fun _ hf => ?_) | refine keeps_getBind (fun _ hf => ?_) | refine keeps_set ?_
      | refine keeps_bind ?_ (fun _ => ?_) | exact hf | assumption | refine wf_foldl ?_ (fun _ _ hf => ?_)
      | refine wf_foldl_snd ?_ (fun _ _ hf => ?_) | refine wf_run (by assumption) ?_ ?_
      | refine wf_trapErr (by assumption) ?_ ?_ | (simp only [↓wf_mk]; refine wf_back ?_) | intro _ | split

theorem keeps_alu3 x0 x1 x2 x3 x4 x5 x6 x7 x8 : Keeps (@alu3 x0 x1 x2 x3 x4 x5 x6 x7 x8) := by
  unfold alu3
  try dsimp only
  repeat' with_reducible
    first
      | exact keeps_pure _ | exact keeps_get | apply keeps_checkFields | apply keeps_readB | apply keeps_readField
      | apply keeps_resultLabel | apply keeps_vout | refine keeps_modifyGet (fun _ hf => ?_)
      | refine keeps_modify (fun _ hf => ?_) | refine keeps_getBind (fun _ hf => ?_) | refine keeps_set ?_
      | refine keeps_bind ?_ (fun _ => ?_) | exact hf | assumption | refine wf_foldl ?_ (fun _ _ hf => ?_)
      | refine wf_foldl_snd ?_ (fun _ _ hf => ?_) | refine wf_run (by assumption) ?_ ?_
      | refine wf_trapErr (by assumption) ?_ ?_ | (simp only [↓wf_mk]; refine wf_back ?_) | intro _ | split

theorem keeps_alu1 x0 x1 x2 x3 x4 x5 x6 x7 : Keeps (@alu1 x0 x1 x2 x3 x4 x5 x6 x7) := by
  unfold alu1
  try dsimp only
  repeat' with_reducible
    first
      | exact keeps_pure _ | exact keeps_get | apply keeps_checkFields | apply keeps_readB | apply keeps_resultLabel
      | apply keeps_vout | refine keeps_modifyGet (fun _ hf => ?_) | refine keeps_modify (fun _ hf => ?_)
      | refine keeps_getBind (fun _ hf => ?_) | refine keeps_set ?_ | refine keeps_bind ?_ (fun _ => ?_) | exact hf
      | assumption | refine wf_foldl ?_ (fun _ _ hf => ?_) | refine wf_foldl_snd ?_ (fun _ _ hf => ?_)
      | refine wf_run (by assumption) ?_ ?_ | refine wf_trapErr (by assumption) ?_ ?_ | (simp only [↓wf_mk]; refine wf_back ?_)
      | intro _ | split

theorem keeps_fpu2 x0 x1 x2 : Keeps (@fpu2 x0 x1 x2) := by
  unfold fpu2
  try dsimp only
  repeat' with_reducible
    first
      | exact keeps_pure _ | exact keeps_get | apply keeps_checkFields | apply keeps_raiseFp | apply keeps_readB
      | apply keeps_readField | apply keeps_resultLabel | apply keeps_rmode | apply keeps_vout
      | refine keeps_modifyGet (fun _ hf => ?_) | refine keeps_modify (fun _ hf => ?_) | refine keeps_getBind (fun _ hf => ?_)
      | refine keeps_set ?_ | refine keeps_bind ?_ (fun _ => ?_) | exact hf | assumption
      | refine wf_foldl ?_ (fun _ _ hf => ?_) | refine wf_foldl_snd ?_ (fun _ _ hf => ?_) | refine wf_run (by assumption) ?_ ?_
      | refine wf_trapErr (by assumption) ?_ ?_ | (simp only [↓wf_mk]; refine wf_back ?_) | intro _ | split

theorem keeps_fpu3 x0 x1 x2 : Keeps (@fpu3 x0 x1 x2) := by
  unfold fpu3
  try dsimp only
  repeat' with_reducible
    first
      | exact keeps_pure _ | exact keeps_get | apply keeps_checkFields | apply keeps_raiseFp | apply keeps_readB
      | apply keeps_readField | apply keeps_resultLabel | apply keeps_rmode | apply keeps_vout
      | refine keeps_modifyGet (fun _ hf => ?_) | refine keeps_modify (fun _ hf => ?_) | refine keeps_getBind (fun _ hf => ?_)
      | refine keeps_set ?_ | refine keeps_bind ?_ (fun _ => ?_) | exact hf | assumption
      | refine wf_foldl ?_ (fun _ _ hf => ?_) | refine wf_foldl_snd ?_ (fun _ _ hf => ?_) | refine wf_run (by assumption) ?_ ?_
      | refine wf_trapErr (by assumption) ?_ ?_ | (simp only [↓wf_mk]; refine wf_back ?_) | intro _ | split

/-! ### Mem -/

theorem wf_markPte (x0 : Package) x1 x2 (h0 : x0.wf = true) : (@Package.markPte x0 x1 x2).wf = true := by
  unfold Package.markPte
  try dsimp only
  repeat' with_reducible
    first
      | exact h0 | apply wf_poke | exact hf | assumption | refine wf_foldl ?_ (fun _ _ hf => ?_)
      | refine wf_foldl_snd ?_ (fun _ _ hf => ?_) | (simp only [↓wf_mk]; refine wf_back ?_) | intro _ | split

theorem wf_setLane (x0 : Package) x1 x2 x3 (h0 : x0.wf = true) : (@Package.setLane x0 x1 x2 x3).wf = true := by
  unfold Package.setLane
  try dsimp only
  repeat' with_reducible
    first
      | exact h0 | apply wf_setCore | exact hf | assumption | refine wf_foldl ?_ (fun _ _ hf => ?_)
      | refine wf_foldl_snd ?_ (fun _ _ hf => ?_) | (simp only [↓wf_mk]; refine wf_back ?_) | intro _ | split

theorem wf_cacheXlat (x0 : Package) x1 x2 x3 (h0 : x0.wf = true) : (@Package.cacheXlat x0 x1 x2 x3).wf = true := by
  unfold Package.cacheXlat
  try dsimp only
  repeat' with_reducible
    first
      | exact h0 | apply wf_setCore | apply wf_setLane | apply wf_pick | refine wf_snd (by assumption) (wf_pick _ _ ?_)
      | exact hf | assumption | refine wf_foldl ?_ (fun _ _ hf => ?_) | refine wf_foldl_snd ?_ (fun _ _ hf => ?_)
      | (simp only [↓wf_mk]; refine wf_back ?_) | intro _ | split

theorem keeps_translate x0 x1 x2 x3 : Keeps (@translate x0 x1 x2 x3) := by
  unfold translate
  try dsimp only
  repeat' with_reducible
    first
      | exact keeps_pure _ | exact keeps_get | apply keeps_pageStop | apply keeps_prot | apply keeps_teamOf
      | refine keeps_modifyGet (fun _ hf => ?_) | refine keeps_modify (fun _ hf => ?_) | refine keeps_getBind (fun _ hf => ?_)
      | refine keeps_set ?_ | refine keeps_bind ?_ (fun _ => ?_) | apply wf_cacheXlat | apply wf_markPte | apply wf_setLane
      | apply wf_pick | refine wf_snd (by assumption) (wf_pick _ _ ?_) | exact hf | assumption
      | refine wf_foldl ?_ (fun _ _ hf => ?_) | refine wf_foldl_snd ?_ (fun _ _ hf => ?_) | refine wf_run (by assumption) ?_ ?_
      | refine wf_trapErr (by assumption) ?_ ?_ | (simp only [↓wf_mk]; refine wf_back ?_) | intro _ | split

theorem keeps_reach x0 x1 x2 x3 : Keeps (@reach x0 x1 x2 x3) := by
  unfold reach
  try dsimp only
  repeat' with_reducible
    first
      | exact keeps_pure _ | exact keeps_get | apply keeps_trap | apply keeps_waitFor | apply keeps_worldOf
      | refine keeps_modifyGet (fun _ hf => ?_) | refine keeps_modify (fun _ hf => ?_) | refine keeps_getBind (fun _ hf => ?_)
      | refine keeps_set ?_ | refine keeps_bind ?_ (fun _ => ?_) | exact hf | assumption
      | refine wf_foldl ?_ (fun _ _ hf => ?_) | refine wf_foldl_snd ?_ (fun _ _ hf => ?_) | refine wf_run (by assumption) ?_ ?_
      | refine wf_trapErr (by assumption) ?_ ?_ | (simp only [↓wf_mk]; refine wf_back ?_) | intro _ | split

theorem keeps_access x0 x1 x2 x3 x4 : Keeps (@access x0 x1 x2 x3 x4) := by
  unfold access
  try dsimp only
  repeat' with_reducible
    first
      | exact keeps_pure _ | exact keeps_get | apply keeps_reach | apply keeps_teamOf | apply keeps_translate
      | apply keeps_trap | refine keeps_modifyGet (fun _ hf => ?_) | refine keeps_modify (fun _ hf => ?_)
      | refine keeps_getBind (fun _ hf => ?_) | refine keeps_set ?_ | refine keeps_bind ?_ (fun _ => ?_) | exact hf
      | assumption | refine wf_foldl ?_ (fun _ _ hf => ?_) | refine wf_foldl_snd ?_ (fun _ _ hf => ?_)
      | refine wf_run (by assumption) ?_ ?_ | refine wf_trapErr (by assumption) ?_ ?_ | (simp only [↓wf_mk]; refine wf_back ?_)
      | intro _ | split

theorem wf_putLine (x0 : Package) x1 (h0 : x0.wf = true) : (@Package.putLine x0 x1).wf = true := by
  unfold Package.putLine
  try dsimp only
  repeat' with_reducible
    first
      | exact h0 | exact hf | assumption | refine wf_foldl ?_ (fun _ _ hf => ?_) | refine wf_foldl_snd ?_ (fun _ _ hf => ?_)
      | (simp only [↓wf_mk]; refine wf_back ?_) | intro _ | split

theorem wf_evictL2 (x0 : Package) x1 (h0 : x0.wf = true) : (@Package.evictL2 x0 x1).wf = true := by
  unfold Package.evictL2
  try dsimp only
  repeat' with_reducible
    first
      | exact h0 | apply wf_putLine | exact hf | assumption | refine wf_foldl ?_ (fun _ _ hf => ?_)
      | refine wf_foldl_snd ?_ (fun _ _ hf => ?_) | (simp only [↓wf_mk]; refine wf_back ?_) | intro _ | split

theorem wf_roomDie (x0 : Package) x1 (h0 : x0.wf = true) : (@Package.roomDie x0 x1).wf = true := by
  unfold Package.roomDie
  try dsimp only
  repeat' with_reducible
    first
      | exact h0 | apply wf_evictL2 | apply wf_pick | refine wf_snd (by assumption) (wf_pick _ _ ?_) | exact hf | assumption
      | refine wf_foldl ?_ (fun _ _ hf => ?_) | refine wf_foldl_snd ?_ (fun _ _ hf => ?_)
      | (simp only [↓wf_mk]; refine wf_back ?_) | intro _ | split

theorem wf_roomL2 (x0 : Package) x1 (h0 : x0.wf = true) : (@Package.roomL2 x0 x1).wf = true := by
  unfold Package.roomL2
  try dsimp only
  repeat' with_reducible
    first
      | exact h0 | apply wf_roomDie | exact hf | assumption | refine wf_foldl ?_ (fun _ _ hf => ?_)
      | refine wf_foldl_snd ?_ (fun _ _ hf => ?_) | (simp only [↓wf_mk]; refine wf_back ?_) | intro _ | split

theorem wf_setLine (x0 : Package) x1 (h0 : x0.wf = true) : (@Package.setLine x0 x1).wf = true := by
  unfold Package.setLine
  try dsimp only
  repeat' with_reducible
    first
      | exact h0 | apply wf_putLine | apply wf_roomL2 | exact hf | assumption | refine wf_foldl ?_ (fun _ _ hf => ?_)
      | refine wf_foldl_snd ?_ (fun _ _ hf => ?_) | (simp only [↓wf_mk]; refine wf_back ?_) | intro _ | split

theorem wf_logMismatch (x0 : Package) x1 x2 x3 x4 (h0 : x0.wf = true) : (@Package.logMismatch x0 x1 x2 x3 x4).wf = true := by
  unfold Package.logMismatch
  try dsimp only
  repeat' with_reducible
    first
      | exact h0 | apply wf_setWorld | exact hf | assumption | refine wf_foldl ?_ (fun _ _ hf => ?_)
      | refine wf_foldl_snd ?_ (fun _ _ hf => ?_) | (simp only [↓wf_mk]; refine wf_back ?_) | intro _ | split

theorem wf_recordScope (x0 : Package) x1 x2 x3 x4 (h0 : x0.wf = true) : (@Package.recordScope x0 x1 x2 x3 x4).wf = true := by
  unfold Package.recordScope
  try dsimp only
  repeat' with_reducible
    first
      | exact h0 | apply wf_logMismatch | apply wf_setLine | exact hf | assumption | refine wf_foldl ?_ (fun _ _ hf => ?_)
      | refine wf_foldl_snd ?_ (fun _ _ hf => ?_) | (simp only [↓wf_mk]; refine wf_back ?_) | intro _ | split

theorem keeps_scopeCheck x0 x1 x2 x3 x4 : Keeps (@scopeCheck x0 x1 x2 x3 x4) := by
  unfold scopeCheck
  try dsimp only
  repeat' with_reducible
    first
      | exact keeps_pure _ | exact keeps_get | refine keeps_trapAt (fun _ hf => ?_) | apply keeps_teamOf | apply keeps_worldOf
      | refine keeps_modifyGet (fun _ hf => ?_) | refine keeps_modify (fun _ hf => ?_) | refine keeps_getBind (fun _ hf => ?_)
      | refine keeps_set ?_ | refine keeps_bind ?_ (fun _ => ?_) | apply wf_logMismatch | apply wf_recordScope | exact hf
      | assumption | refine wf_foldl ?_ (fun _ _ hf => ?_) | refine wf_foldl_snd ?_ (fun _ _ hf => ?_)
      | refine wf_run (by assumption) ?_ ?_ | refine wf_trapErr (by assumption) ?_ ?_ | (simp only [↓wf_mk]; refine wf_back ?_)
      | intro _ | split

theorem keeps_gate x0 : Keeps (@gate x0) := by
  unfold gate
  try dsimp only
  repeat' with_reducible
    first
      | exact keeps_pure _ | exact keeps_get | apply keeps_await | refine keeps_modifyGet (fun _ hf => ?_)
      | refine keeps_modify (fun _ hf => ?_) | refine keeps_getBind (fun _ hf => ?_) | refine keeps_set ?_
      | refine keeps_bind ?_ (fun _ => ?_) | exact hf | assumption | refine wf_foldl ?_ (fun _ _ hf => ?_)
      | refine wf_foldl_snd ?_ (fun _ _ hf => ?_) | refine wf_run (by assumption) ?_ ?_
      | refine wf_trapErr (by assumption) ?_ ?_ | (simp only [↓wf_mk]; refine wf_back ?_) | intro _ | split

theorem keeps_fenceAt x0 x1 : Keeps (@fenceAt x0 x1) := by
  unfold fenceAt
  try dsimp only
  repeat' with_reducible
    first
      | exact keeps_pure _ | exact keeps_get | apply keeps_await | refine keeps_modifyGet (fun _ hf => ?_)
      | refine keeps_modify (fun _ hf => ?_) | refine keeps_getBind (fun _ hf => ?_) | refine keeps_set ?_
      | refine keeps_bind ?_ (fun _ => ?_) | exact hf | assumption | refine wf_foldl ?_ (fun _ _ hf => ?_)
      | refine wf_foldl_snd ?_ (fun _ _ hf => ?_) | refine wf_run (by assumption) ?_ ?_
      | refine wf_trapErr (by assumption) ?_ ?_ | (simp only [↓wf_mk]; refine wf_back ?_) | intro _ | split

theorem keeps_release x0 x1 x2 : Keeps (@release x0 x1 x2) := by
  unfold release
  try dsimp only
  repeat' with_reducible
    first
      | exact keeps_pure _ | exact keeps_get | apply keeps_fenceAt | refine keeps_modifyGet (fun _ hf => ?_)
      | refine keeps_modify (fun _ hf => ?_) | refine keeps_getBind (fun _ hf => ?_) | refine keeps_set ?_
      | refine keeps_bind ?_ (fun _ => ?_) | exact hf | assumption | refine wf_foldl ?_ (fun _ _ hf => ?_)
      | refine wf_foldl_snd ?_ (fun _ _ hf => ?_) | refine wf_run (by assumption) ?_ ?_
      | refine wf_trapErr (by assumption) ?_ ?_ | (simp only [↓wf_mk]; refine wf_back ?_) | intro _ | split

theorem keeps_effAddr x0 x1 x2 : Keeps (@effAddr x0 x1 x2) := by
  unfold effAddr
  try dsimp only
  repeat' with_reducible
    first
      | exact keeps_pure _ | exact keeps_get | apply keeps_readField | refine keeps_modifyGet (fun _ hf => ?_)
      | refine keeps_modify (fun _ hf => ?_) | refine keeps_getBind (fun _ hf => ?_) | refine keeps_set ?_
      | refine keeps_bind ?_ (fun _ => ?_) | exact hf | assumption | refine wf_foldl ?_ (fun _ _ hf => ?_)
      | refine wf_foldl_snd ?_ (fun _ _ hf => ?_) | refine wf_run (by assumption) ?_ ?_
      | refine wf_trapErr (by assumption) ?_ ?_ | (simp only [↓wf_mk]; refine wf_back ?_) | intro _ | split

theorem keeps_noHeld x0 x1 x2 : Keeps (@noHeld x0 x1 x2) := by
  unfold noHeld
  try dsimp only
  repeat' with_reducible
    first
      | exact keeps_pure _ | exact keeps_get | apply keeps_prot | apply keeps_thr | refine keeps_modifyGet (fun _ hf => ?_)
      | refine keeps_modify (fun _ hf => ?_) | refine keeps_getBind (fun _ hf => ?_) | refine keeps_set ?_
      | refine keeps_bind ?_ (fun _ => ?_) | exact hf | assumption | refine wf_foldl ?_ (fun _ _ hf => ?_)
      | refine wf_foldl_snd ?_ (fun _ _ hf => ?_) | refine wf_run (by assumption) ?_ ?_
      | refine wf_trapErr (by assumption) ?_ ?_ | (simp only [↓wf_mk]; refine wf_back ?_) | intro _ | split

theorem keeps_noRegion x0 x1 x2 : Keeps (@noRegion x0 x1 x2) := by
  unfold noRegion
  try dsimp only
  repeat' with_reducible
    first
      | exact keeps_pure _ | exact keeps_get | apply keeps_prot | apply keeps_thr | refine keeps_modifyGet (fun _ hf => ?_)
      | refine keeps_modify (fun _ hf => ?_) | refine keeps_getBind (fun _ hf => ?_) | refine keeps_set ?_
      | refine keeps_bind ?_ (fun _ => ?_) | exact hf | assumption | refine wf_foldl ?_ (fun _ _ hf => ?_)
      | refine wf_foldl_snd ?_ (fun _ _ hf => ?_) | refine wf_run (by assumption) ?_ ?_
      | refine wf_trapErr (by assumption) ?_ ?_ | (simp only [↓wf_mk]; refine wf_back ?_) | intro _ | split

theorem wf_setAcc (x0 : Package) x1 x2 (h0 : x0.wf = true) : (@Package.setAcc x0 x1 x2).wf = true := by
  unfold Package.setAcc
  try dsimp only
  repeat' with_reducible
    first
      | exact h0 | exact hf | assumption | refine wf_foldl ?_ (fun _ _ hf => ?_) | refine wf_foldl_snd ?_ (fun _ _ hf => ?_)
      | (simp only [↓wf_mk]; refine wf_back ?_) | intro _ | split

theorem keeps_addAccFlag x0 x1 x2 : Keeps (@addAccFlag x0 x1 x2) := by
  unfold addAccFlag
  try dsimp only
  repeat' with_reducible
    first
      | exact keeps_pure _ | exact keeps_get | apply keeps_addAcc | refine keeps_modifyGet (fun _ hf => ?_)
      | refine keeps_modify (fun _ hf => ?_) | refine keeps_getBind (fun _ hf => ?_) | refine keeps_set ?_
      | refine keeps_bind ?_ (fun _ => ?_) | apply wf_setAcc | exact hf | assumption | refine wf_foldl ?_ (fun _ _ hf => ?_)
      | refine wf_foldl_snd ?_ (fun _ _ hf => ?_) | refine wf_run (by assumption) ?_ ?_
      | refine wf_trapErr (by assumption) ?_ ?_ | (simp only [↓wf_mk]; refine wf_back ?_) | intro _ | split

theorem keeps_flagNow x0 : Keeps (@flagNow x0) := by
  unfold flagNow
  try dsimp only
  repeat' with_reducible
    first
      | exact keeps_pure _ | exact keeps_get | apply keeps_theIssue | refine keeps_modifyGet (fun _ hf => ?_)
      | refine keeps_modify (fun _ hf => ?_) | refine keeps_getBind (fun _ hf => ?_) | refine keeps_set ?_
      | refine keeps_bind ?_ (fun _ => ?_) | apply wf_flagDone | exact hf | assumption | refine wf_foldl ?_ (fun _ _ hf => ?_)
      | refine wf_foldl_snd ?_ (fun _ _ hf => ?_) | refine wf_run (by assumption) ?_ ?_
      | refine wf_trapErr (by assumption) ?_ ?_ | (simp only [↓wf_mk]; refine wf_back ?_) | intro _ | split

theorem keeps_storeAccess x0 x1 x2 x3 x4 x5 : Keeps (@storeAccess x0 x1 x2 x3 x4 x5) := by
  unfold storeAccess
  try dsimp only
  repeat' with_reducible
    first
      | exact keeps_pure _ | exact keeps_get | apply keeps_access | apply keeps_prot | apply keeps_trap | apply keeps_worldOf
      | refine keeps_modifyGet (fun _ hf => ?_) | refine keeps_modify (fun _ hf => ?_) | refine keeps_getBind (fun _ hf => ?_)
      | refine keeps_set ?_ | refine keeps_bind ?_ (fun _ => ?_) | exact hf | assumption
      | refine wf_foldl ?_ (fun _ _ hf => ?_) | refine wf_foldl_snd ?_ (fun _ _ hf => ?_) | refine wf_run (by assumption) ?_ ?_
      | refine wf_trapErr (by assumption) ?_ ?_ | (simp only [↓wf_mk]; refine wf_back ?_) | intro _ | split

theorem keeps_msgCheck x0 x1 x2 x3 x4 : Keeps (@msgCheck x0 x1 x2 x3 x4) := by
  unfold msgCheck
  try dsimp only
  repeat' with_reducible
    first
      | exact keeps_pure _ | exact keeps_get | apply keeps_maskOf | apply keeps_teamOf | apply keeps_trap
      | refine keeps_modifyGet (fun _ hf => ?_) | refine keeps_modify (fun _ hf => ?_) | refine keeps_getBind (fun _ hf => ?_)
      | refine keeps_set ?_ | refine keeps_bind ?_ (fun _ => ?_) | exact hf | assumption
      | refine wf_foldl ?_ (fun _ _ hf => ?_) | refine wf_foldl_snd ?_ (fun _ _ hf => ?_) | refine wf_run (by assumption) ?_ ?_
      | refine wf_trapErr (by assumption) ?_ ?_ | (simp only [↓wf_mk]; refine wf_back ?_) | intro _ | split

theorem keeps_granuleCheck x0 x1 x2 x3 x4 x5 x6 : Keeps (@granuleCheck x0 x1 x2 x3 x4 x5 x6) := by
  unfold granuleCheck
  try dsimp only
  repeat' with_reducible
    first
      | exact keeps_pure _ | exact keeps_get | apply keeps_maskOf | apply keeps_thr | apply keeps_trap
      | refine keeps_modifyGet (fun _ hf => ?_) | refine keeps_modify (fun _ hf => ?_) | refine keeps_getBind (fun _ hf => ?_)
      | refine keeps_set ?_ | refine keeps_bind ?_ (fun _ => ?_) | exact hf | assumption
      | refine wf_foldl ?_ (fun _ _ hf => ?_) | refine wf_foldl_snd ?_ (fun _ _ hf => ?_) | refine wf_run (by assumption) ?_ ?_
      | refine wf_trapErr (by assumption) ?_ ?_ | (simp only [↓wf_mk]; refine wf_back ?_) | intro _ | split

theorem keeps_storeLabel x0 x1 x2 x3 x4 x5 x6 x7 : Keeps (@storeLabel x0 x1 x2 x3 x4 x5 x6 x7) := by
  unfold storeLabel
  try dsimp only
  repeat' with_reducible
    first
      | exact keeps_pure _ | exact keeps_get | apply keeps_granuleCheck | apply keeps_msgCheck
      | refine keeps_modifyGet (fun _ hf => ?_) | refine keeps_modify (fun _ hf => ?_) | refine keeps_getBind (fun _ hf => ?_)
      | refine keeps_set ?_ | refine keeps_bind ?_ (fun _ => ?_) | exact hf | assumption
      | refine wf_foldl ?_ (fun _ _ hf => ?_) | refine wf_foldl_snd ?_ (fun _ _ hf => ?_) | refine wf_run (by assumption) ?_ ?_
      | refine wf_trapErr (by assumption) ?_ ?_ | (simp only [↓wf_mk]; refine wf_back ?_) | intro _ | split

theorem keeps_needOf x0 x1 x2 : Keeps (@needOf x0 x1 x2) := by
  unfold needOf
  try dsimp only
  repeat' with_reducible
    first
      | exact keeps_pure _ | exact keeps_get | apply keeps_resultLabel | refine keeps_modifyGet (fun _ hf => ?_)
      | refine keeps_modify (fun _ hf => ?_) | refine keeps_getBind (fun _ hf => ?_) | refine keeps_set ?_
      | refine keeps_bind ?_ (fun _ => ?_) | exact hf | assumption | refine wf_foldl ?_ (fun _ _ hf => ?_)
      | refine wf_foldl_snd ?_ (fun _ _ hf => ?_) | refine wf_run (by assumption) ?_ ?_
      | refine wf_trapErr (by assumption) ?_ ?_ | (simp only [↓wf_mk]; refine wf_back ?_) | intro _ | split

theorem keeps_addWrite x0 x1 x2 x3 x4 x5 x6 x7 x8 : Keeps (@addWrite x0 x1 x2 x3 x4 x5 x6 x7 x8) := by
  unfold addWrite
  try dsimp only
  repeat' with_reducible
    first
      | exact keeps_pure _ | exact keeps_get | apply keeps_freshId | apply keeps_teamOf
      | refine keeps_modifyGet (fun _ hf => ?_) | refine keeps_modify (fun _ hf => ?_) | refine keeps_getBind (fun _ hf => ?_)
      | refine keeps_set ?_ | refine keeps_bind ?_ (fun _ => ?_) | exact hf | assumption
      | refine wf_foldl ?_ (fun _ _ hf => ?_) | refine wf_foldl_snd ?_ (fun _ _ hf => ?_) | refine wf_run (by assumption) ?_ ?_
      | refine wf_trapErr (by assumption) ?_ ?_ | (simp only [↓wf_mk]; refine wf_back ?_) | intro _ | split

theorem wf_send (x0 : Package) x1 x2 x3 (h0 : x0.wf = true) : (@Package.send x0 x1 x2 x3).wf = true := by
  unfold Package.send
  try dsimp only
  repeat' with_reducible
    first
      | exact h0 | exact hf | assumption | refine wf_foldl ?_ (fun _ _ hf => ?_) | refine wf_foldl_snd ?_ (fun _ _ hf => ?_)
      | (simp only [↓wf_mk]; refine wf_back ?_) | intro _ | split

theorem wf_setTide (x0 : Package) x1 x2 (h0 : x0.wf = true) : (@Package.setTide x0 x1 x2).wf = true := by
  unfold Package.setTide
  try dsimp only
  repeat' with_reducible
    first
      | exact h0 | apply wf_setWorld | exact hf | assumption | refine wf_foldl ?_ (fun _ _ hf => ?_)
      | refine wf_foldl_snd ?_ (fun _ _ hf => ?_) | (simp only [↓wf_mk]; refine wf_back ?_) | intro _ | split

theorem keeps_sendPod x0 x1 x2 x3 x4 x5 x6 x7 : Keeps (@sendPod x0 x1 x2 x3 x4 x5 x6 x7) := by
  unfold sendPod
  try dsimp only
  repeat' with_reducible
    first
      | exact keeps_pure _ | exact keeps_get | apply keeps_maskOf | apply keeps_setThr | apply keeps_teamOf | apply keeps_thr
      | apply keeps_worldOf | refine keeps_modifyGet (fun _ hf => ?_) | refine keeps_modify (fun _ hf => ?_)
      | refine keeps_getBind (fun _ hf => ?_) | refine keeps_set ?_ | refine keeps_bind ?_ (fun _ => ?_) | apply wf_send
      | apply wf_setTide | exact hf | assumption | refine wf_foldl ?_ (fun _ _ hf => ?_)
      | refine wf_foldl_snd ?_ (fun _ _ hf => ?_) | refine wf_run (by assumption) ?_ ?_
      | refine wf_trapErr (by assumption) ?_ ?_ | (simp only [↓wf_mk]; refine wf_back ?_) | intro _ | split

theorem wf_setMan (x0 : Package) x1 (h0 : x0.wf = true) : (@Package.setMan x0 x1).wf = true := by
  unfold Package.setMan
  try dsimp only
  repeat' with_reducible
    first
      | exact h0 | exact hf | assumption | refine wf_foldl ?_ (fun _ _ hf => ?_) | refine wf_foldl_snd ?_ (fun _ _ hf => ?_)
      | (simp only [↓wf_mk]; refine wf_back ?_) | intro _ | split

theorem wf_depart (x0 : Package) x1 x2 (h0 : x0.wf = true) : (@Package.depart x0 x1 x2).wf = true := by
  unfold Package.depart
  try dsimp only
  repeat' with_reducible
    first
      | exact h0 | apply wf_setMan | exact hf | assumption | refine wf_foldl ?_ (fun _ _ hf => ?_)
      | refine wf_foldl_snd ?_ (fun _ _ hf => ?_) | (simp only [↓wf_mk]; refine wf_back ?_) | intro _ | split

theorem wf_atHomes (x0 : Package) (h0 : x0.wf = true) : (@Package.atHomes x0).wf = true := by
  unfold Package.atHomes
  try dsimp only
  repeat' with_reducible
    first
      | exact h0 | exact hf | assumption | refine wf_foldl ?_ (fun _ _ hf => ?_) | refine wf_foldl_snd ?_ (fun _ _ hf => ?_)
      | (simp only [↓wf_mk]; refine wf_back ?_) | intro _ | split

theorem wf_copyLeaves (x0 : Package) x1 (h0 : x0.wf = true) : (@Package.copyLeaves x0 x1).wf = true := by
  unfold Package.copyLeaves
  try dsimp only
  repeat' with_reducible
    first
      | exact h0 | apply wf_depart | exact hf | assumption | refine wf_foldl ?_ (fun _ _ hf => ?_)
      | refine wf_foldl_snd ?_ (fun _ _ hf => ?_) | (simp only [↓wf_mk]; refine wf_back ?_) | intro _ | split

theorem wf_noteFill (x0 : Package) x1 x2 x3 (h0 : x0.wf = true) : (@Package.noteFill x0 x1 x2 x3).wf = true := by
  unfold Package.noteFill
  try dsimp only
  repeat' with_reducible
    first
      | exact h0 | apply wf_atHomes | apply wf_depart | apply wf_setMan | exact hf | assumption
      | refine wf_foldl ?_ (fun _ _ hf => ?_) | refine wf_foldl_snd ?_ (fun _ _ hf => ?_)
      | (simp only [↓wf_mk]; refine wf_back ?_) | intro _ | split

theorem wf_noteRemote (x0 : Package) x1 x2 x3 (h0 : x0.wf = true) : (@Package.noteRemote x0 x1 x2 x3).wf = true := by
  unfold Package.noteRemote
  try dsimp only
  repeat' with_reducible
    first
      | exact h0 | apply wf_atHomes | apply wf_depart | apply wf_setMan | exact hf | assumption
      | refine wf_foldl ?_ (fun _ _ hf => ?_) | refine wf_foldl_snd ?_ (fun _ _ hf => ?_)
      | (simp only [↓wf_mk]; refine wf_back ?_) | intro _ | split

theorem wf_dropCopy (x0 : Package) x1 x2 (h0 : x0.wf = true) : (@Package.dropCopy x0 x1 x2).wf = true := by
  unfold Package.dropCopy
  try dsimp only
  repeat' with_reducible
    first
      | exact h0 | apply wf_copyLeaves | apply wf_setLine | exact hf | assumption | refine wf_foldl ?_ (fun _ _ hf => ?_)
      | refine wf_foldl_snd ?_ (fun _ _ hf => ?_) | (simp only [↓wf_mk]; refine wf_back ?_) | intro _ | split

theorem wf_dropLine (x0 : Package) x1 (h0 : x0.wf = true) : (@Package.dropLine x0 x1).wf = true := by
  unfold Package.dropLine
  try dsimp only
  repeat' with_reducible
    first
      | exact h0 | apply wf_dropCopy | exact hf | assumption | refine wf_foldl ?_ (fun _ _ hf => ?_)
      | refine wf_foldl_snd ?_ (fun _ _ hf => ?_) | (simp only [↓wf_mk]; refine wf_back ?_) | intro _ | split

theorem wf_storeCopy (x0 : Package) x1 (h0 : x0.wf = true) : (@Package.storeCopy x0 x1).wf = true := by
  unfold Package.storeCopy
  try dsimp only
  repeat' with_reducible
    first
      | exact h0 | apply wf_copyLeaves | apply wf_dropCopy | apply wf_setLine | exact hf | assumption
      | refine wf_foldl ?_ (fun _ _ hf => ?_) | refine wf_foldl_snd ?_ (fun _ _ hf => ?_)
      | (simp only [↓wf_mk]; refine wf_back ?_) | intro _ | split

theorem keeps_atomicAccess x0 x1 x2 x3 : Keeps (@atomicAccess x0 x1 x2 x3) := by
  unfold atomicAccess
  try dsimp only
  repeat' with_reducible
    first
      | exact keeps_pure _ | exact keeps_get | apply keeps_access | apply keeps_prot | apply keeps_storeAccess
      | apply keeps_trap | refine keeps_modifyGet (fun _ hf => ?_) | refine keeps_modify (fun _ hf => ?_)
      | refine keeps_getBind (fun _ hf => ?_) | refine keeps_set ?_ | refine keeps_bind ?_ (fun _ => ?_) | exact hf
      | assumption | refine wf_foldl ?_ (fun _ _ hf => ?_) | refine wf_foldl_snd ?_ (fun _ _ hf => ?_)
      | refine wf_run (by assumption) ?_ ?_ | refine wf_trapErr (by assumption) ?_ ?_ | (simp only [↓wf_mk]; refine wf_back ?_)
      | intro _ | split

theorem keeps_growCheck x0 x1 x2 x3 x4 : Keeps (@growCheck x0 x1 x2 x3 x4) := by
  unfold growCheck
  try dsimp only
  repeat' with_reducible
    first
      | exact keeps_pure _ | exact keeps_get | apply keeps_await | apply keeps_maskOf | apply keeps_mkLabel
      | apply keeps_teamOf | apply keeps_trap | refine keeps_modifyGet (fun _ hf => ?_) | refine keeps_modify (fun _ hf => ?_)
      | refine keeps_getBind (fun _ hf => ?_) | refine keeps_set ?_ | refine keeps_bind ?_ (fun _ => ?_) | exact hf
      | assumption | refine wf_foldl ?_ (fun _ _ hf => ?_) | refine wf_foldl_snd ?_ (fun _ _ hf => ?_)
      | refine wf_run (by assumption) ?_ ?_ | refine wf_trapErr (by assumption) ?_ ?_ | (simp only [↓wf_mk]; refine wf_back ?_)
      | intro _ | split

theorem wf_noteWct (x0 : Package) x1 x2 (h0 : x0.wf = true) : (@Package.noteWct x0 x1 x2).wf = true := by
  unfold Package.noteWct
  try dsimp only
  repeat' with_reducible
    first
      | exact h0 | apply wf_atHomes | apply wf_putLine | apply wf_setLine | apply wf_setThread | exact hf | assumption
      | refine wf_foldl ?_ (fun _ _ hf => ?_) | refine wf_foldl_snd ?_ (fun _ _ hf => ?_)
      | (simp only [↓wf_mk]; refine wf_back ?_) | intro _ | split

theorem wf_atHome (x0 : Package) x1 x2 x3 x4 x5 x6 x7 (h0 : x0.wf = true) : (@Package.atHome x0 x1 x2 x3 x4 x5 x6 x7).1.wf = true := by
  unfold Package.atHome
  try dsimp only
  repeat' with_reducible
    first
      | exact h0 | apply wf_noteWct | apply wf_recordScope | apply wf_storeCopy | apply wf_fresh
      | refine wf_snd (by assumption) (wf_fresh _ ?_) | exact hf | assumption | refine wf_foldl ?_ (fun _ _ hf => ?_)
      | refine wf_foldl_snd ?_ (fun _ _ hf => ?_) | (simp only [↓wf_mk]; refine wf_back ?_) | intro _ | split

theorem keeps_deferErr {α : Type} (va : Nat) (vm : Mask) (aux : Nat) : Keeps (deferErr va vm aux : PM α) := by
  intro p h
  constructor
  · intro _ _ hq; cases hq
  · intro e he; cases he; exact h

theorem wf_tellHome (x0 : Package) x1 x2 x3 x4 x5 x6 (h0 : x0.wf = true) : (@Package.tellHome x0 x1 x2 x3 x4 x5 x6).wf = true := by
  unfold Package.tellHome
  try dsimp only
  repeat' with_reducible
    first
      | exact h0 | apply wf_send | exact hf | assumption | refine wf_foldl ?_ (fun _ _ hf => ?_)
      | refine wf_foldl_snd ?_ (fun _ _ hf => ?_) | (simp only [↓wf_mk]; refine wf_back ?_) | intro _ | split

theorem keeps_loadNow x0 x1 x2 x3 x4 : Keeps (@loadNow x0 x1 x2 x3 x4) := by
  unfold loadNow
  try dsimp only
  repeat' with_reducible
    first
      | exact keeps_pure _ | exact keeps_get | apply keeps_access | apply keeps_await | apply keeps_deferErr | apply keeps_prot
      | apply keeps_teamOf | apply keeps_waitFor | apply keeps_worldOf | refine keeps_modifyGet (fun _ hf => ?_)
      | refine keeps_modify (fun _ hf => ?_) | refine keeps_getBind (fun _ hf => ?_) | refine keeps_set ?_
      | refine keeps_bind ?_ (fun _ => ?_) | apply wf_noteFill | apply wf_tellHome | exact hf | assumption
      | refine wf_foldl ?_ (fun _ _ hf => ?_) | refine wf_foldl_snd ?_ (fun _ _ hf => ?_) | refine wf_run (by assumption) ?_ ?_
      | refine wf_trapErr (by assumption) ?_ ?_ | (simp only [↓wf_mk]; refine wf_back ?_) | intro _ | split

/-! ### Memory -/

theorem keeps_remoteScope x0 x1 x2 x3 x4 x5 x6 : Keeps (@remoteScope x0 x1 x2 x3 x4 x5 x6) := by
  unfold remoteScope
  try dsimp only
  repeat' with_reducible
    first
      | exact keeps_pure _ | exact keeps_get | refine keeps_trapAt (fun _ hf => ?_) | apply keeps_teamOf | apply keeps_worldOf
      | refine keeps_modifyGet (fun _ hf => ?_) | refine keeps_modify (fun _ hf => ?_) | refine keeps_getBind (fun _ hf => ?_)
      | refine keeps_set ?_ | refine keeps_bind ?_ (fun _ => ?_) | apply wf_logMismatch | exact hf | assumption
      | refine wf_foldl ?_ (fun _ _ hf => ?_) | refine wf_foldl_snd ?_ (fun _ _ hf => ?_) | refine wf_run (by assumption) ?_ ?_
      | refine wf_trapErr (by assumption) ?_ ?_ | (simp only [↓wf_mk]; refine wf_back ?_) | intro _ | split

theorem keeps_putLoad x0 x1 x2 x3 x4 x5 x6 x7 : Keeps (@putLoad x0 x1 x2 x3 x4 x5 x6 x7) := by
  unfold putLoad
  try dsimp only
  repeat' with_reducible
    first
      | exact keeps_pure _ | exact keeps_get | apply keeps_addAcc | apply keeps_await
      | apply keeps_env | apply keeps_resolve | apply keeps_teamOf | apply keeps_thr | apply keeps_worldOf | refine keeps_modifyGet (fun _ hf => ?_)
      | refine keeps_modify (fun _ hf => ?_) | refine keeps_getBind (fun _ hf => ?_) | refine keeps_set ?_
      | refine keeps_bind ?_ (fun _ => ?_) | apply wf_send | apply wf_setAcc | apply wf_setCore | exact hf | assumption
      | refine wf_foldl ?_ (fun _ _ hf => ?_) | refine wf_foldl_snd ?_ (fun _ _ hf => ?_) | refine wf_run (by assumption) ?_ ?_
      | refine wf_trapErr (by assumption) ?_ ?_ | (simp only [↓wf_mk]; refine wf_back ?_) | intro _ | split

theorem keeps_ldBody x0 x1 x2 : Keeps (@ldBody x0 x1 x2) := by
  unfold ldBody
  try dsimp only
  repeat' with_reducible
    first
      | exact keeps_pure _ | exact keeps_get | apply keeps_access | apply keeps_putLoad
      | apply keeps_checkFields | apply keeps_effAddr | apply keeps_env | apply keeps_gate | apply keeps_noHeld
      | apply keeps_prot | apply keeps_release | apply keeps_remoteScope | apply keeps_resolve | apply keeps_scopeCheck
      | apply keeps_teamOf | apply keeps_thr | apply keeps_trap | apply keeps_worldOf | refine keeps_modifyGet (fun _ hf => ?_)
      | refine keeps_modify (fun _ hf => ?_) | refine keeps_getBind (fun _ hf => ?_) | refine keeps_set ?_
      | refine keeps_bind ?_ (fun _ => ?_) | exact hf | assumption
      | refine wf_foldl ?_ (fun _ _ hf => ?_) | refine wf_foldl_snd ?_ (fun _ _ hf => ?_) | refine wf_run (by assumption) ?_ ?_
      | refine wf_trapErr (by assumption) ?_ ?_ | (simp only [↓wf_mk]; refine wf_back ?_) | intro _ | split

theorem wf_mapIf {c : Package → Bool} {f : Package → Package} {l : List Package} (hf : ∀ p, p.wf = true → (f p).wf = true)
    (h : ∀ p ∈ l, p.wf = true) : ∀ p ∈ mapIf c f l, p.wf = true := by
  intro p hp
  simp only [mapIf, List.mem_map] at hp
  obtain ⟨q, hq, rfl⟩ := hp
  split
  · exact hf _ (h q hq)
  · exact h q hq

theorem wf_recordRemote {s : State} (before : Nat) (h : s.Wf) : (s.recordRemote before).Wf := by
  unfold State.recordRemote
  generalize s.here.accs.filter _ = as
  induction as generalizing s with
  | nil => exact h
  | cons a as ih =>
    refine ih ?_
    dsimp only
    split
    · split
      · exact ⟨wf_setAcc _ _ _ h.1, wf_mapIf (fun _ hp => wf_recordScope _ _ _ _ _ hp) h.2⟩
      · exact h
    · exact h

theorem okeeps_execLd (m : MemOp Width) : OKeeps (execLd m) := by
  intro s hs t ht
  unfold execLd at ht
  split at ht
  · next u hu =>
    cases ht; cases hu
    exact wf_recordRemote _ ⟨wf_each hs.1 (fun _ => keeps_ldBody _ _ _), hs.2⟩
  · next h => exact absurd ht (by intro h'; exact h _ h')

theorem keeps_buffer x0 x1 x2 : Keeps (@buffer x0 x1 x2) := by
  unfold buffer
  try dsimp only
  repeat' with_reducible
    first
      | exact keeps_pure _ | exact keeps_get | apply keeps_setThr | apply keeps_thr | apply keeps_trap
      | refine keeps_modifyGet (fun _ hf => ?_) | refine keeps_modify (fun _ hf => ?_) | refine keeps_getBind (fun _ hf => ?_)
      | refine keeps_set ?_ | refine keeps_bind ?_ (fun _ => ?_) | exact hf | assumption
      | refine wf_foldl ?_ (fun _ _ hf => ?_) | refine wf_foldl_snd ?_ (fun _ _ hf => ?_) | refine wf_run (by assumption) ?_ ?_
      | refine wf_trapErr (by assumption) ?_ ?_ | (simp only [↓wf_mk]; refine wf_back ?_) | intro _ | split

theorem keeps_sendStore x0 x1 x2 x3 x4 x5 x6 x7 x8 x9 : Keeps (@sendStore x0 x1 x2 x3 x4 x5 x6 x7 x8 x9) := by
  unfold sendStore
  try dsimp only
  repeat' with_reducible
    first
      | exact keeps_pure _ | exact keeps_get | apply keeps_addWrite | apply keeps_sendPod
      | refine keeps_modifyGet (fun _ hf => ?_) | refine keeps_modify (fun _ hf => ?_) | refine keeps_getBind (fun _ hf => ?_)
      | refine keeps_set ?_ | refine keeps_bind ?_ (fun _ => ?_) | exact hf | assumption
      | refine wf_foldl ?_ (fun _ _ hf => ?_) | refine wf_foldl_snd ?_ (fun _ _ hf => ?_) | refine wf_run (by assumption) ?_ ?_
      | refine wf_trapErr (by assumption) ?_ ?_ | (simp only [↓wf_mk]; refine wf_back ?_) | intro _ | split

theorem keeps_moreRecords x0 x1 : Keeps (@moreRecords x0 x1) := by
  unfold moreRecords
  try dsimp only
  repeat' with_reducible
    first
      | exact keeps_pure _ | exact keeps_get | refine keeps_modifyGet (fun _ hf => ?_) | refine keeps_modify (fun _ hf => ?_)
      | refine keeps_getBind (fun _ hf => ?_) | refine keeps_set ?_ | refine keeps_bind ?_ (fun _ => ?_) | apply wf_setAcc
      | exact hf | assumption | refine wf_foldl ?_ (fun _ _ hf => ?_) | refine wf_foldl_snd ?_ (fun _ _ hf => ?_)
      | (simp only [↓wf_mk]; refine wf_back ?_) | intro _ | split

theorem keeps_setPodLeft x0 x1 : Keeps (@setPodLeft x0 x1) := by
  unfold setPodLeft
  try dsimp only
  repeat' with_reducible
    first
      | exact keeps_pure _ | exact keeps_get | refine keeps_modifyGet (fun _ hf => ?_) | refine keeps_modify (fun _ hf => ?_)
      | refine keeps_getBind (fun _ hf => ?_) | refine keeps_set ?_ | refine keeps_bind ?_ (fun _ => ?_) | apply wf_setAcc
      | exact hf | assumption | refine wf_foldl ?_ (fun _ _ hf => ?_) | refine wf_foldl_snd ?_ (fun _ _ hf => ?_)
      | (simp only [↓wf_mk]; refine wf_back ?_) | intro _ | split

theorem keeps_stBody x0 x1 x2 : Keeps (@stBody x0 x1 x2) := by
  unfold stBody
  try dsimp only
  repeat' with_reducible
    first
      | exact keeps_pure _ | exact keeps_get | apply keeps_addAcc | apply keeps_buffer | apply keeps_checkFields
      | apply keeps_effAddr | apply keeps_flagNow | apply keeps_gate | apply keeps_needOf | apply keeps_noHeld
      | apply keeps_readField | apply keeps_release | apply keeps_scopeCheck | apply keeps_sendStore | apply keeps_setPodLeft
      | apply keeps_storeAccess | apply keeps_storeLabel | apply keeps_thr | refine keeps_modifyGet (fun _ hf => ?_)
      | refine keeps_modify (fun _ hf => ?_) | refine keeps_getBind (fun _ hf => ?_) | refine keeps_set ?_
      | refine keeps_bind ?_ (fun _ => ?_) | exact hf | assumption | refine wf_foldl ?_ (fun _ _ hf => ?_)
      | refine wf_foldl_snd ?_ (fun _ _ hf => ?_) | refine wf_run (by assumption) ?_ ?_
      | refine wf_trapErr (by assumption) ?_ ?_ | (simp only [↓wf_mk]; refine wf_back ?_) | intro _ | split

theorem okeeps_execSt x0 : OKeeps (@execSt x0) := by
  first | refine okeeps_lift (fun _ _ hf => ?_) | refine okeeps_ite (okeeps_fault _) (okeeps_lift (fun _ _ hf => ?_))
  try dsimp only
  repeat' with_reducible
    first
      | apply wf_each | apply keeps_stBody | exact keeps_get | refine keeps_getBind (fun _ hf => ?_)
      | refine keeps_modify (fun _ hf => ?_) | refine keeps_set ?_ | refine keeps_bind ?_ (fun _ => ?_) | exact keeps_pure _
      | exact hf | assumption | refine wf_foldl ?_ (fun _ _ hf => ?_) | refine wf_foldl_snd ?_ (fun _ _ hf => ?_)
      | refine wf_run (by assumption) ?_ ?_ | refine wf_trapErr (by assumption) ?_ ?_ | (simp only [↓wf_mk]; refine wf_back ?_)
      | intro _ | split

theorem keeps_doAtomic x0 x1 x2 x3 x4 x5 x6 : Keeps (@doAtomic x0 x1 x2 x3 x4 x5 x6) := by
  unfold doAtomic
  try dsimp only
  repeat' with_reducible
    first
      | exact keeps_pure _ | exact keeps_get | apply keeps_addAccFlag | apply keeps_maskOf | apply keeps_mkLabel
      | refine keeps_modifyGet (fun _ hf => ?_) | refine keeps_modify (fun _ hf => ?_) | refine keeps_getBind (fun _ hf => ?_)
      | refine keeps_set ?_ | refine keeps_bind ?_ (fun _ => ?_) | apply wf_atHome
      | refine wf_fst (by assumption) (wf_atHome _ _ _ _ _ _ _ _ ?_) | exact hf | assumption
      | refine wf_foldl ?_ (fun _ _ hf => ?_) | refine wf_foldl_snd ?_ (fun _ _ hf => ?_) | refine wf_run (by assumption) ?_ ?_
      | refine wf_trapErr (by assumption) ?_ ?_ | (simp only [↓wf_mk]; refine wf_back ?_) | intro _ | split

theorem keeps_badAtomic x0 x1 x2 x3 : Keeps (@badAtomic x0 x1 x2 x3) := by
  unfold badAtomic
  try dsimp only
  repeat' with_reducible
    first
      | exact keeps_pure _ | exact keeps_get | apply keeps_addAccFlag | refine keeps_modifyGet (fun _ hf => ?_)
      | refine keeps_modify (fun _ hf => ?_) | refine keeps_getBind (fun _ hf => ?_) | refine keeps_set ?_
      | refine keeps_bind ?_ (fun _ => ?_) | exact hf | assumption | refine wf_foldl ?_ (fun _ _ hf => ?_)
      | refine wf_foldl_snd ?_ (fun _ _ hf => ?_) | refine wf_run (by assumption) ?_ ?_
      | refine wf_trapErr (by assumption) ?_ ?_ | (simp only [↓wf_mk]; refine wf_back ?_) | intro _ | split

theorem keeps_atomBody x0 x1 x2 x3 x4 x5 x6 x7 x8 : Keeps (@atomBody x0 x1 x2 x3 x4 x5 x6 x7 x8) := by
  unfold atomBody
  try dsimp only
  repeat' with_reducible
    first
      | exact keeps_pure _ | exact keeps_get | apply keeps_addAcc | apply keeps_atomicAccess | apply keeps_await
      | apply keeps_badAtomic | apply keeps_checkFields | apply keeps_doAtomic | apply keeps_effAddr | apply keeps_env
      | apply keeps_gate | apply keeps_growCheck | apply keeps_mkLabel | apply keeps_msgCheck | apply keeps_noHeld
      | apply keeps_readField | apply keeps_release | apply keeps_resolve | apply keeps_scopeCheck | apply keeps_sendPod
      | apply keeps_setPodLeft | apply keeps_setThr | apply keeps_theIssue | apply keeps_thr
      | refine keeps_modifyGet (fun _ hf => ?_) | refine keeps_modify (fun _ hf => ?_) | refine keeps_getBind (fun _ hf => ?_)
      | refine keeps_set ?_ | refine keeps_bind ?_ (fun _ => ?_) | exact hf | assumption
      | refine wf_foldl ?_ (fun _ _ hf => ?_) | refine wf_foldl_snd ?_ (fun _ _ hf => ?_) | refine wf_run (by assumption) ?_ ?_
      | refine wf_trapErr (by assumption) ?_ ?_ | (simp only [↓wf_mk]; refine wf_back ?_) | intro _ | split

theorem okeeps_execAtom x0 : OKeeps (@execAtom x0) := by
  first | refine okeeps_lift (fun _ _ hf => ?_) | refine okeeps_ite (okeeps_fault _) (okeeps_lift (fun _ _ hf => ?_))
  try dsimp only
  repeat' with_reducible
    first
      | apply wf_each | apply keeps_atomBody | exact keeps_get | refine keeps_getBind (fun _ hf => ?_)
      | refine keeps_modify (fun _ hf => ?_) | refine keeps_set ?_ | refine keeps_bind ?_ (fun _ => ?_) | exact keeps_pure _
      | exact hf | assumption | refine wf_foldl ?_ (fun _ _ hf => ?_) | refine wf_foldl_snd ?_ (fun _ _ hf => ?_)
      | refine wf_run (by assumption) ?_ ?_ | refine wf_trapErr (by assumption) ?_ ?_ | (simp only [↓wf_mk]; refine wf_back ?_)
      | intro _ | split

theorem okeeps_execAtomx x0 : OKeeps (@execAtomx x0) := by
  first | refine okeeps_lift (fun _ _ hf => ?_) | refine okeeps_ite (okeeps_fault _) (okeeps_lift (fun _ _ hf => ?_))
  try dsimp only
  repeat' with_reducible
    first
      | apply wf_each | apply keeps_atomBody | exact keeps_get | refine keeps_getBind (fun _ hf => ?_)
      | refine keeps_modify (fun _ hf => ?_) | refine keeps_set ?_ | refine keeps_bind ?_ (fun _ => ?_) | exact keeps_pure _
      | exact hf | assumption | refine wf_foldl ?_ (fun _ _ hf => ?_) | refine wf_foldl_snd ?_ (fun _ _ hf => ?_)
      | refine wf_run (by assumption) ?_ ?_ | refine wf_trapErr (by assumption) ?_ ?_ | (simp only [↓wf_mk]; refine wf_back ?_)
      | intro _ | split

theorem okeeps_execRed x0 : OKeeps (@execRed x0) := by
  first | refine okeeps_lift (fun _ _ hf => ?_) | refine okeeps_ite (okeeps_fault _) (okeeps_lift (fun _ _ hf => ?_))
  try dsimp only
  repeat' with_reducible
    first
      | apply wf_each | apply keeps_atomBody | exact keeps_get | refine keeps_getBind (fun _ hf => ?_)
      | refine keeps_modify (fun _ hf => ?_) | refine keeps_set ?_ | refine keeps_bind ?_ (fun _ => ?_) | exact keeps_pure _
      | exact hf | assumption | refine wf_foldl ?_ (fun _ _ hf => ?_) | refine wf_foldl_snd ?_ (fun _ _ hf => ?_)
      | refine wf_run (by assumption) ?_ ?_ | refine wf_trapErr (by assumption) ?_ ?_ | (simp only [↓wf_mk]; refine wf_back ?_)
      | intro _ | split

theorem okeeps_execFence x0 : OKeeps (@execFence x0) := by
  first | refine okeeps_lift (fun _ _ hf => ?_) | refine okeeps_ite (okeeps_fault _) (okeeps_lift (fun _ _ hf => ?_))
  try dsimp only
  repeat' with_reducible
    first
      | apply wf_each | apply keeps_fenceAt | apply keeps_gate | apply keeps_noRegion | exact keeps_get
      | refine keeps_getBind (fun _ hf => ?_) | refine keeps_modify (fun _ hf => ?_) | refine keeps_set ?_
      | refine keeps_bind ?_ (fun _ => ?_) | exact keeps_pure _ | exact hf | assumption | refine wf_foldl ?_ (fun _ _ hf => ?_)
      | refine wf_foldl_snd ?_ (fun _ _ hf => ?_) | refine wf_run (by assumption) ?_ ?_
      | refine wf_trapErr (by assumption) ?_ ?_ | (simp only [↓wf_mk]; refine wf_back ?_) | intro _ | split

theorem okeeps_execTlfence : OKeeps (execTlfence) := by
  first | refine okeeps_lift (fun _ _ hf => ?_) | refine okeeps_ite (okeeps_fault _) (okeeps_lift (fun _ _ hf => ?_))
  try dsimp only
  repeat' with_reducible
    first
      | apply wf_each | apply keeps_fenceAt | apply keeps_gate | apply keeps_noRegion | apply keeps_teamOf | exact keeps_get
      | refine keeps_getBind (fun _ hf => ?_) | refine keeps_modify (fun _ hf => ?_) | refine keeps_set ?_
      | refine keeps_bind ?_ (fun _ => ?_) | exact keeps_pure _ | exact hf | assumption | refine wf_foldl ?_ (fun _ _ hf => ?_)
      | refine wf_foldl_snd ?_ (fun _ _ hf => ?_) | refine wf_run (by assumption) ?_ ?_
      | refine wf_trapErr (by assumption) ?_ ?_ | (simp only [↓wf_mk]; refine wf_back ?_) | intro _ | split

theorem keeps_discPages x0 x1 x2 x3 x4 : Keeps (@discPages x0 x1 x2 x3 x4) := by
  induction x4 generalizing x0 x1 x2 x3  with
  | zero =>
    unfold discPages
    try dsimp only
    repeat' with_reducible
    first
        | exact keeps_pure _ | exact keeps_get | apply ih | apply keeps_translate | refine keeps_modifyGet (fun _ hf => ?_)
        | refine keeps_modify (fun _ hf => ?_) | refine keeps_getBind (fun _ hf => ?_) | refine keeps_set ?_
        | refine keeps_bind ?_ (fun _ => ?_) | exact hf | assumption | refine wf_foldl ?_ (fun _ _ hf => ?_)
        | refine wf_foldl_snd ?_ (fun _ _ hf => ?_) | refine wf_run (by assumption) ?_ ?_
        | refine wf_trapErr (by assumption) ?_ ?_ | (simp only [↓wf_mk]; refine wf_back ?_) | intro _ | split
  | succ n ih =>
    unfold discPages
    try dsimp only
    repeat' with_reducible
    first
        | exact keeps_pure _ | exact keeps_get | apply ih | apply keeps_translate | refine keeps_modifyGet (fun _ hf => ?_)
        | refine keeps_modify (fun _ hf => ?_) | refine keeps_getBind (fun _ hf => ?_) | refine keeps_set ?_
        | refine keeps_bind ?_ (fun _ => ?_) | exact hf | assumption | refine wf_foldl ?_ (fun _ _ hf => ?_)
        | refine wf_foldl_snd ?_ (fun _ _ hf => ?_) | refine wf_run (by assumption) ?_ ?_
        | refine wf_trapErr (by assumption) ?_ ?_ | (simp only [↓wf_mk]; refine wf_back ?_) | intro _ | split

theorem keeps_discReach x0 x1 x2 : Keeps (@discReach x0 x1 x2) := by
  induction x2 generalizing x0 x1  with
  | nil =>
    unfold discReach
    try dsimp only
    repeat' with_reducible
    first
        | exact keeps_pure _ | exact keeps_get | apply ih | apply keeps_reach | refine keeps_modifyGet (fun _ hf => ?_)
        | refine keeps_modify (fun _ hf => ?_) | refine keeps_getBind (fun _ hf => ?_) | refine keeps_set ?_
        | refine keeps_bind ?_ (fun _ => ?_) | exact hf | assumption | refine wf_foldl ?_ (fun _ _ hf => ?_)
        | refine wf_foldl_snd ?_ (fun _ _ hf => ?_) | refine wf_run (by assumption) ?_ ?_
        | refine wf_trapErr (by assumption) ?_ ?_ | (simp only [↓wf_mk]; refine wf_back ?_) | intro _ | split
  | cons y ys ih =>
    unfold discReach
    try dsimp only
    repeat' with_reducible
    first
        | exact keeps_pure _ | exact keeps_get | apply ih | apply keeps_reach | refine keeps_modifyGet (fun _ hf => ?_)
        | refine keeps_modify (fun _ hf => ?_) | refine keeps_getBind (fun _ hf => ?_) | refine keeps_set ?_
        | refine keeps_bind ?_ (fun _ => ?_) | exact hf | assumption | refine wf_foldl ?_ (fun _ _ hf => ?_)
        | refine wf_foldl_snd ?_ (fun _ _ hf => ?_) | refine wf_run (by assumption) ?_ ?_
        | refine wf_trapErr (by assumption) ?_ ?_ | (simp only [↓wf_mk]; refine wf_back ?_) | intro _ | split

theorem keeps_discOwner x0 x1 x2 x3 : Keeps (@discOwner x0 x1 x2 x3) := by
  induction x3 generalizing x0 x1 x2  with
  | nil =>
    unfold discOwner
    try dsimp only
    repeat' with_reducible
    first
        | exact keeps_pure _ | exact keeps_get | apply ih | apply keeps_teamOf | apply keeps_trap
        | refine keeps_modifyGet (fun _ hf => ?_) | refine keeps_modify (fun _ hf => ?_) | refine keeps_getBind (fun _ hf => ?_)
        | refine keeps_set ?_ | refine keeps_bind ?_ (fun _ => ?_) | exact hf | assumption
        | refine wf_foldl ?_ (fun _ _ hf => ?_) | refine wf_foldl_snd ?_ (fun _ _ hf => ?_) | refine wf_run (by assumption) ?_ ?_
        | refine wf_trapErr (by assumption) ?_ ?_ | (simp only [↓wf_mk]; refine wf_back ?_) | intro _ | split
  | cons y ys ih =>
    unfold discOwner
    try dsimp only
    repeat' with_reducible
    first
        | exact keeps_pure _ | exact keeps_get | apply ih | apply keeps_teamOf | apply keeps_trap
        | refine keeps_modifyGet (fun _ hf => ?_) | refine keeps_modify (fun _ hf => ?_) | refine keeps_getBind (fun _ hf => ?_)
        | refine keeps_set ?_ | refine keeps_bind ?_ (fun _ => ?_) | exact hf | assumption
        | refine wf_foldl ?_ (fun _ _ hf => ?_) | refine wf_foldl_snd ?_ (fun _ _ hf => ?_) | refine wf_run (by assumption) ?_ ?_
        | refine wf_trapErr (by assumption) ?_ ?_ | (simp only [↓wf_mk]; refine wf_back ?_) | intro _ | split

theorem keeps_discKind x0 x1 x2 : Keeps (@discKind x0 x1 x2) := by
  induction x2 generalizing x0 x1  with
  | nil =>
    unfold discKind
    try dsimp only
    repeat' with_reducible
    first
        | exact keeps_pure _ | exact keeps_get | apply ih | apply keeps_trap | refine keeps_modifyGet (fun _ hf => ?_)
        | refine keeps_modify (fun _ hf => ?_) | refine keeps_getBind (fun _ hf => ?_) | refine keeps_set ?_
        | refine keeps_bind ?_ (fun _ => ?_) | exact hf | assumption | refine wf_foldl ?_ (fun _ _ hf => ?_)
        | refine wf_foldl_snd ?_ (fun _ _ hf => ?_) | refine wf_run (by assumption) ?_ ?_
        | refine wf_trapErr (by assumption) ?_ ?_ | (simp only [↓wf_mk]; refine wf_back ?_) | intro _ | split
  | cons y ys ih =>
    unfold discKind
    try dsimp only
    repeat' with_reducible
    first
        | exact keeps_pure _ | exact keeps_get | apply ih | apply keeps_trap | refine keeps_modifyGet (fun _ hf => ?_)
        | refine keeps_modify (fun _ hf => ?_) | refine keeps_getBind (fun _ hf => ?_) | refine keeps_set ?_
        | refine keeps_bind ?_ (fun _ => ?_) | exact hf | assumption | refine wf_foldl ?_ (fun _ _ hf => ?_)
        | refine wf_foldl_snd ?_ (fun _ _ hf => ?_) | refine wf_run (by assumption) ?_ ?_
        | refine wf_trapErr (by assumption) ?_ ?_ | (simp only [↓wf_mk]; refine wf_back ?_) | intro _ | split

theorem keeps_discSend x0 x1 x2 : Keeps (@discSend x0 x1 x2) := by
  induction x2 generalizing x0 x1  with
  | nil =>
    unfold discSend
    try dsimp only
    repeat' with_reducible
    first
        | exact keeps_pure _ | exact keeps_get | apply ih | apply keeps_addWrite | refine keeps_modifyGet (fun _ hf => ?_)
        | refine keeps_modify (fun _ hf => ?_) | refine keeps_getBind (fun _ hf => ?_) | refine keeps_set ?_
        | refine keeps_bind ?_ (fun _ => ?_) | exact hf | assumption | refine wf_foldl ?_ (fun _ _ hf => ?_)
        | refine wf_foldl_snd ?_ (fun _ _ hf => ?_) | refine wf_run (by assumption) ?_ ?_
        | refine wf_trapErr (by assumption) ?_ ?_ | (simp only [↓wf_mk]; refine wf_back ?_) | intro _ | split
  | cons y ys ih =>
    unfold discSend
    try dsimp only
    repeat' with_reducible
    first
        | exact keeps_pure _ | exact keeps_get | apply ih | apply keeps_addWrite | refine keeps_modifyGet (fun _ hf => ?_)
        | refine keeps_modify (fun _ hf => ?_) | refine keeps_getBind (fun _ hf => ?_) | refine keeps_set ?_
        | refine keeps_bind ?_ (fun _ => ?_) | exact hf | assumption | refine wf_foldl ?_ (fun _ _ hf => ?_)
        | refine wf_foldl_snd ?_ (fun _ _ hf => ?_) | refine wf_run (by assumption) ?_ ?_
        | refine wf_trapErr (by assumption) ?_ ?_ | (simp only [↓wf_mk]; refine wf_back ?_) | intro _ | split

theorem okeeps_execDisc x0 : OKeeps (@execDisc x0) := by
  first | refine okeeps_lift (fun _ _ hf => ?_) | refine okeeps_ite (okeeps_fault _) (okeeps_lift (fun _ _ hf => ?_))
  try dsimp only
  repeat' with_reducible
    first
      | apply wf_each | apply keeps_addAccFlag | apply keeps_checkFields | apply keeps_discKind | apply keeps_discOwner
      | apply keeps_discPages | apply keeps_discReach | apply keeps_discSend | apply keeps_effAddr | apply keeps_gate
      | apply keeps_maskOf | apply keeps_needOf | apply keeps_noRegion | apply keeps_prot | apply keeps_readField
      | apply keeps_trap | exact keeps_get | refine keeps_getBind (fun _ hf => ?_) | refine keeps_modify (fun _ hf => ?_)
      | refine keeps_set ?_ | refine keeps_bind ?_ (fun _ => ?_) | exact keeps_pure _ | exact hf | assumption
      | refine wf_foldl ?_ (fun _ _ hf => ?_) | refine wf_foldl_snd ?_ (fun _ _ hf => ?_) | refine wf_run (by assumption) ?_ ?_
      | refine wf_trapErr (by assumption) ?_ ?_ | (simp only [↓wf_mk]; refine wf_back ?_) | intro _ | split

theorem okeeps_execRgn : OKeeps (execRgn) := by
  first | refine okeeps_lift (fun _ _ hf => ?_) | refine okeeps_ite (okeeps_fault _) (okeeps_lift (fun _ _ hf => ?_))
  try dsimp only
  repeat' with_reducible
    first
      | apply wf_each | apply keeps_illop | apply keeps_prot | apply keeps_setThr | apply keeps_theIssue | apply keeps_thr
      | exact keeps_get | refine keeps_getBind (fun _ hf => ?_) | refine keeps_modify (fun _ hf => ?_) | refine keeps_set ?_
      | refine keeps_bind ?_ (fun _ => ?_) | exact keeps_pure _ | exact hf | assumption | refine wf_foldl ?_ (fun _ _ hf => ?_)
      | refine wf_foldl_snd ?_ (fun _ _ hf => ?_) | refine wf_run (by assumption) ?_ ?_
      | refine wf_trapErr (by assumption) ?_ ?_ | (simp only [↓wf_mk]; refine wf_back ?_) | intro _ | split

/-! ### Pad -/

theorem wf_setBank (x0 : Package) x1 (h0 : x0.wf = true) : (@Package.setBank x0 x1).wf = true := by
  unfold Package.setBank
  try dsimp only
  repeat' with_reducible
    first
      | exact h0 | exact hf | assumption | refine wf_foldl ?_ (fun _ _ hf => ?_) | refine wf_foldl_snd ?_ (fun _ _ hf => ?_)
      | (simp only [↓wf_mk]; refine wf_back ?_) | intro _ | split

theorem keeps_padAt x0 x1 x2 x3 : Keeps (@padAt x0 x1 x2 x3) := by
  unfold padAt
  try dsimp only
  repeat' with_reducible
    first
      | exact keeps_pure _ | exact keeps_get | apply keeps_prot | apply keeps_teamOf | apply keeps_worldOf
      | refine keeps_modifyGet (fun _ hf => ?_) | refine keeps_modify (fun _ hf => ?_) | refine keeps_getBind (fun _ hf => ?_)
      | refine keeps_set ?_ | refine keeps_bind ?_ (fun _ => ?_) | exact hf | assumption
      | refine wf_foldl ?_ (fun _ _ hf => ?_) | refine wf_foldl_snd ?_ (fun _ _ hf => ?_) | refine wf_run (by assumption) ?_ ?_
      | refine wf_trapErr (by assumption) ?_ ?_ | (simp only [↓wf_mk]; refine wf_back ?_) | intro _ | split

theorem keeps_padAligned x0 x1 x2 x3 : Keeps (@padAligned x0 x1 x2 x3) := by
  unfold padAligned
  try dsimp only
  repeat' with_reducible
    first
      | exact keeps_pure _ | exact keeps_get | apply keeps_padAt | apply keeps_trap | refine keeps_modifyGet (fun _ hf => ?_)
      | refine keeps_modify (fun _ hf => ?_) | refine keeps_getBind (fun _ hf => ?_) | refine keeps_set ?_
      | refine keeps_bind ?_ (fun _ => ?_) | exact hf | assumption | refine wf_foldl ?_ (fun _ _ hf => ?_)
      | refine wf_foldl_snd ?_ (fun _ _ hf => ?_) | refine wf_run (by assumption) ?_ ?_
      | refine wf_trapErr (by assumption) ?_ ?_ | (simp only [↓wf_mk]; refine wf_back ?_) | intro _ | split

theorem keeps_padLabel x0 x1 x2 x3 x4 x5 x6 x7 : Keeps (@padLabel x0 x1 x2 x3 x4 x5 x6 x7) := by
  unfold padLabel
  try dsimp only
  repeat' with_reducible
    first
      | exact keeps_pure _ | exact keeps_get | apply keeps_maskOf | apply keeps_thr | apply keeps_trap
      | refine keeps_modifyGet (fun _ hf => ?_) | refine keeps_modify (fun _ hf => ?_) | refine keeps_getBind (fun _ hf => ?_)
      | refine keeps_set ?_ | refine keeps_bind ?_ (fun _ => ?_) | exact hf | assumption
      | refine wf_foldl ?_ (fun _ _ hf => ?_) | refine wf_foldl_snd ?_ (fun _ _ hf => ?_) | refine wf_run (by assumption) ?_ ?_
      | refine wf_trapErr (by assumption) ?_ ?_ | (simp only [↓wf_mk]; refine wf_back ?_) | intro _ | split

theorem okeeps_execLds x0 x1 : OKeeps (@execLds x0 x1) := by
  first | refine okeeps_lift (fun _ _ hf => ?_) | refine okeeps_ite (okeeps_fault _) (okeeps_lift (fun _ _ hf => ?_))
  try dsimp only
  repeat' with_reducible
    first
      | apply wf_each | apply keeps_checkFields | apply keeps_effAddr | apply keeps_gate | apply keeps_lateResult
      | apply keeps_noHeld | apply keeps_padAligned | apply keeps_resultLabel | apply keeps_thr | exact keeps_get
      | refine keeps_getBind (fun _ hf => ?_) | refine keeps_modify (fun _ hf => ?_) | refine keeps_set ?_
      | refine keeps_bind ?_ (fun _ => ?_) | exact keeps_pure _ | exact hf | assumption | refine wf_foldl ?_ (fun _ _ hf => ?_)
      | refine wf_foldl_snd ?_ (fun _ _ hf => ?_) | refine wf_run (by assumption) ?_ ?_
      | refine wf_trapErr (by assumption) ?_ ?_ | (simp only [↓wf_mk]; refine wf_back ?_) | intro _ | split

theorem okeeps_execSts x0 x1 : OKeeps (@execSts x0 x1) := by
  first | refine okeeps_lift (fun _ _ hf => ?_) | refine okeeps_ite (okeeps_fault _) (okeeps_lift (fun _ _ hf => ?_))
  try dsimp only
  repeat' with_reducible
    first
      | apply wf_setBank | apply wf_each | apply keeps_buffer | apply keeps_checkFields | apply keeps_effAddr
      | apply keeps_gate | apply keeps_needOf | apply keeps_noHeld | apply keeps_padAligned | apply keeps_padLabel
      | apply keeps_readField | apply keeps_thr | exact keeps_get | refine keeps_getBind (fun _ hf => ?_)
      | refine keeps_modify (fun _ hf => ?_) | refine keeps_set ?_ | refine keeps_bind ?_ (fun _ => ?_) | exact keeps_pure _
      | exact hf | assumption | refine wf_foldl ?_ (fun _ _ hf => ?_) | refine wf_foldl_snd ?_ (fun _ _ hf => ?_)
      | refine wf_run (by assumption) ?_ ?_ | refine wf_trapErr (by assumption) ?_ ?_ | (simp only [↓wf_mk]; refine wf_back ?_)
      | intro _ | split

theorem keeps_fifoAt x0 x1 x2 : Keeps (@fifoAt x0 x1 x2) := by
  unfold fifoAt
  try dsimp only
  repeat' with_reducible
    first
      | exact keeps_pure _ | exact keeps_get | apply keeps_noRegion | apply keeps_padAt | apply keeps_prot
      | refine keeps_modifyGet (fun _ hf => ?_) | refine keeps_modify (fun _ hf => ?_) | refine keeps_getBind (fun _ hf => ?_)
      | refine keeps_set ?_ | refine keeps_bind ?_ (fun _ => ?_) | exact hf | assumption
      | refine wf_foldl ?_ (fun _ _ hf => ?_) | refine wf_foldl_snd ?_ (fun _ _ hf => ?_) | refine wf_run (by assumption) ?_ ?_
      | refine wf_trapErr (by assumption) ?_ ?_ | (simp only [↓wf_mk]; refine wf_back ?_) | intro _ | split

theorem okeeps_execFpush x0 x1 : OKeeps (@execFpush x0 x1) := by
  first | refine okeeps_lift (fun _ _ hf => ?_) | refine okeeps_ite (okeeps_fault _) (okeeps_lift (fun _ _ hf => ?_))
  try dsimp only
  repeat' with_reducible
    first
      | apply wf_setBank | apply wf_each | apply keeps_await | apply keeps_checkFields | apply keeps_effAddr
      | apply keeps_fifoAt | apply keeps_readField | apply keeps_resultLabel | exact keeps_get
      | refine keeps_getBind (fun _ hf => ?_) | refine keeps_modify (fun _ hf => ?_) | refine keeps_set ?_
      | refine keeps_bind ?_ (fun _ => ?_) | exact keeps_pure _ | exact hf | assumption | refine wf_foldl ?_ (fun _ _ hf => ?_)
      | refine wf_foldl_snd ?_ (fun _ _ hf => ?_) | refine wf_run (by assumption) ?_ ?_
      | refine wf_trapErr (by assumption) ?_ ?_ | (simp only [↓wf_mk]; refine wf_back ?_) | intro _ | split

theorem okeeps_execFpop x0 x1 : OKeeps (@execFpop x0 x1) := by
  first | refine okeeps_lift (fun _ _ hf => ?_) | refine okeeps_ite (okeeps_fault _) (okeeps_lift (fun _ _ hf => ?_))
  try dsimp only
  repeat' with_reducible
    first
      | apply wf_each | apply keeps_addAcc | apply keeps_checkFields | apply keeps_effAddr | apply keeps_env
      | apply keeps_fifoAt | apply keeps_resolve | exact keeps_get | refine keeps_getBind (fun _ hf => ?_)
      | refine keeps_modify (fun _ hf => ?_) | refine keeps_set ?_ | refine keeps_bind ?_ (fun _ => ?_) | exact keeps_pure _
      | exact hf | assumption | refine wf_foldl ?_ (fun _ _ hf => ?_) | refine wf_foldl_snd ?_ (fun _ _ hf => ?_)
      | refine wf_run (by assumption) ?_ ?_ | refine wf_trapErr (by assumption) ?_ ?_ | (simp only [↓wf_mk]; refine wf_back ?_)
      | intro _ | split

theorem wf_pickLabels (x0 : Package) x1 x2 (h0 : x0.wf = true) : (@Package.pickLabels x0 x1 x2).2.wf = true := by
  induction x2 generalizing x0 x1 h0 with
  | zero =>
    unfold Package.pickLabels
    try dsimp only
    repeat' with_reducible
    first
        | exact h0 | apply ih | apply wf_pick | refine wf_snd (by assumption) (wf_pick _ _ ?_) | exact hf | assumption
        | refine wf_foldl ?_ (fun _ _ hf => ?_) | refine wf_foldl_snd ?_ (fun _ _ hf => ?_)
        | (simp only [↓wf_mk]; refine wf_back ?_) | intro _ | split
  | succ n ih =>
    unfold Package.pickLabels
    try dsimp only
    repeat' with_reducible
    first
        | exact h0 | apply ih | apply wf_pick | refine wf_snd (by assumption) (wf_pick _ _ ?_) | exact hf | assumption
        | refine wf_foldl ?_ (fun _ _ hf => ?_) | refine wf_foldl_snd ?_ (fun _ _ hf => ?_)
        | (simp only [↓wf_mk]; refine wf_back ?_) | intro _ | split

theorem wf_fifoLabels (x0 : Package) x1 x2 (h0 : x0.wf = true) : (@Package.fifoLabels x0 x1 x2).2.wf = true := by
  induction x2 generalizing x0 x1 h0 with
  | zero =>
    unfold Package.fifoLabels
    try dsimp only
    repeat' with_reducible
    first
        | exact h0 | apply ih | apply wf_pick | refine wf_snd (by assumption) (wf_pick _ _ ?_) | exact hf | assumption
        | refine wf_foldl ?_ (fun _ _ hf => ?_) | refine wf_foldl_snd ?_ (fun _ _ hf => ?_)
        | (simp only [↓wf_mk]; refine wf_back ?_) | intro _ | split
  | succ n ih =>
    unfold Package.fifoLabels
    try dsimp only
    repeat' with_reducible
    first
        | exact h0 | apply ih | apply wf_pick | refine wf_snd (by assumption) (wf_pick _ _ ?_) | exact hf | assumption
        | refine wf_foldl ?_ (fun _ _ hf => ?_) | refine wf_foldl_snd ?_ (fun _ _ hf => ?_)
        | (simp only [↓wf_mk]; refine wf_back ?_) | intro _ | split

theorem wf_dropCopies (x0 : Package) x1 (h0 : x0.wf = true) : (@Package.dropCopies x0 x1).wf = true := by
  unfold Package.dropCopies
  try dsimp only
  repeat' with_reducible
    first
      | exact h0 | apply wf_dropCopy | exact hf | assumption | refine wf_foldl ?_ (fun _ _ hf => ?_)
      | refine wf_foldl_snd ?_ (fun _ _ hf => ?_) | (simp only [↓wf_mk]; refine wf_back ?_) | intro _ | split

theorem wf_switchBank (x0 : Package) x1 x2 x3 (h0 : x0.wf = true) : (@Package.switchBank x0 x1 x2 x3).wf = true := by
  unfold Package.switchBank
  try dsimp only
  repeat' with_reducible
    first
      | exact h0 | apply wf_dropCopies | apply wf_setBank | apply wf_fifoLabels
      | refine wf_snd (by assumption) (wf_fifoLabels _ _ _ ?_) | apply wf_pickLabels
      | refine wf_snd (by assumption) (wf_pickLabels _ _ _ ?_) | exact hf | assumption | refine wf_foldl ?_ (fun _ _ hf => ?_)
      | refine wf_foldl_snd ?_ (fun _ _ hf => ?_) | (simp only [↓wf_mk]; refine wf_back ?_) | intro _ | split

theorem okeeps_execBank x0 x1 x2 : OKeeps (@execBank x0 x1 x2) := by
  first | refine okeeps_lift (fun _ _ hf => ?_) | refine okeeps_ite (okeeps_fault _) (okeeps_lift (fun _ _ hf => ?_))
  try dsimp only
  repeat' with_reducible
    first
      | apply wf_switchBank | apply wf_each | apply keeps_prot | apply keeps_resultLabel | apply keeps_teamOf
      | apply keeps_waitFor | apply keeps_worldOf | apply keeps_writePred | exact keeps_get
      | refine keeps_getBind (fun _ hf => ?_) | refine keeps_modify (fun _ hf => ?_) | refine keeps_set ?_
      | refine keeps_bind ?_ (fun _ => ?_) | exact keeps_pure _ | exact hf | assumption | refine wf_foldl ?_ (fun _ _ hf => ?_)
      | refine wf_foldl_snd ?_ (fun _ _ hf => ?_) | refine wf_run (by assumption) ?_ ?_
      | refine wf_trapErr (by assumption) ?_ ?_ | (simp only [↓wf_mk]; refine wf_back ?_) | intro _ | split

theorem okeeps_execArm x0 : OKeeps (@execArm x0) := by
  first | refine okeeps_lift (fun _ _ hf => ?_) | refine okeeps_ite (okeeps_fault _) (okeeps_lift (fun _ _ hf => ?_))
  try dsimp only
  repeat' with_reducible
    first
      | apply wf_setBank | apply wf_each | apply keeps_checkFields | apply keeps_effAddr | apply keeps_maskOf
      | apply keeps_padAligned | apply keeps_prot | apply keeps_readField | apply keeps_resultLabel | apply keeps_trap
      | exact keeps_get | refine keeps_getBind (fun _ hf => ?_) | refine keeps_modify (fun _ hf => ?_) | refine keeps_set ?_
      | refine keeps_bind ?_ (fun _ => ?_) | exact keeps_pure _ | exact hf | assumption | refine wf_foldl ?_ (fun _ _ hf => ?_)
      | refine wf_foldl_snd ?_ (fun _ _ hf => ?_) | refine wf_run (by assumption) ?_ ?_
      | refine wf_trapErr (by assumption) ?_ ?_ | (simp only [↓wf_mk]; refine wf_back ?_) | intro _ | split

theorem keeps_awaitBody x0 x1 : Keeps (@awaitBody x0 x1) := by
  unfold awaitBody
  try dsimp only
  repeat' with_reducible
    first
      | exact keeps_pure _ | exact keeps_get | apply keeps_await | apply keeps_checkFields | apply keeps_effAddr
      | apply keeps_padAligned | apply keeps_readField | refine keeps_modifyGet (fun _ hf => ?_)
      | refine keeps_modify (fun _ hf => ?_) | refine keeps_getBind (fun _ hf => ?_) | refine keeps_set ?_
      | refine keeps_bind ?_ (fun _ => ?_) | exact hf | assumption | refine wf_foldl ?_ (fun _ _ hf => ?_)
      | refine wf_foldl_snd ?_ (fun _ _ hf => ?_) | refine wf_run (by assumption) ?_ ?_
      | refine wf_trapErr (by assumption) ?_ ?_ | (simp only [↓wf_mk]; refine wf_back ?_) | intro _ | split

theorem okeeps_execAwait x0 : OKeeps (@execAwait x0) := by
  first | refine okeeps_lift (fun _ _ hf => ?_) | refine okeeps_ite (okeeps_fault _) (okeeps_lift (fun _ _ hf => ?_))
  try dsimp only
  repeat' with_reducible
    first
      | apply wf_each | apply keeps_awaitBody | exact keeps_get | refine keeps_getBind (fun _ hf => ?_)
      | refine keeps_modify (fun _ hf => ?_) | refine keeps_set ?_ | refine keeps_bind ?_ (fun _ => ?_) | exact keeps_pure _
      | exact hf | assumption | refine wf_foldl ?_ (fun _ _ hf => ?_) | refine wf_foldl_snd ?_ (fun _ _ hf => ?_)
      | refine wf_run (by assumption) ?_ ?_ | refine wf_trapErr (by assumption) ?_ ?_ | (simp only [↓wf_mk]; refine wf_back ?_)
      | intro _ | split

/-! ### Region -/

theorem keeps_entryTarget x0 x1 x2 : Keeps (@entryTarget x0 x1 x2) := by
  unfold entryTarget
  try dsimp only
  repeat' with_reducible
    first
      | exact keeps_pure _ | exact keeps_get | apply keeps_padAligned | apply keeps_storeAccess
      | refine keeps_modifyGet (fun _ hf => ?_) | refine keeps_modify (fun _ hf => ?_) | refine keeps_getBind (fun _ hf => ?_)
      | refine keeps_set ?_ | refine keeps_bind ?_ (fun _ => ?_) | exact hf | assumption
      | refine wf_foldl ?_ (fun _ _ hf => ?_) | refine wf_foldl_snd ?_ (fun _ _ hf => ?_) | refine wf_run (by assumption) ?_ ?_
      | refine wf_trapErr (by assumption) ?_ ?_ | (simp only [↓wf_mk]; refine wf_back ?_) | intro _ | split

theorem keeps_entryTargets x0 x1 x2 : Keeps (@entryTargets x0 x1 x2) := by
  induction x2 generalizing x0 x1  with
  | nil =>
    unfold entryTargets
    try dsimp only
    repeat' with_reducible
    first
        | exact keeps_pure _ | exact keeps_get | apply ih | apply keeps_entryTarget | refine keeps_modifyGet (fun _ hf => ?_)
        | refine keeps_modify (fun _ hf => ?_) | refine keeps_getBind (fun _ hf => ?_) | refine keeps_set ?_
        | refine keeps_bind ?_ (fun _ => ?_) | exact hf | assumption | refine wf_foldl ?_ (fun _ _ hf => ?_)
        | refine wf_foldl_snd ?_ (fun _ _ hf => ?_) | refine wf_run (by assumption) ?_ ?_
        | refine wf_trapErr (by assumption) ?_ ?_ | (simp only [↓wf_mk]; refine wf_back ?_) | intro _ | split
  | cons y ys ih =>
    unfold entryTargets
    try dsimp only
    repeat' with_reducible
    first
        | exact keeps_pure _ | exact keeps_get | apply ih | apply keeps_entryTarget | refine keeps_modifyGet (fun _ hf => ?_)
        | refine keeps_modify (fun _ hf => ?_) | refine keeps_getBind (fun _ hf => ?_) | refine keeps_set ?_
        | refine keeps_bind ?_ (fun _ => ?_) | exact hf | assumption | refine wf_foldl ?_ (fun _ _ hf => ?_)
        | refine wf_foldl_snd ?_ (fun _ _ hf => ?_) | refine wf_run (by assumption) ?_ ?_
        | refine wf_trapErr (by assumption) ?_ ?_ | (simp only [↓wf_mk]; refine wf_back ?_) | intro _ | split

theorem keeps_entryLabels x0 x1 : Keeps (@entryLabels x0 x1) := by
  induction x1 generalizing x0  with
  | nil =>
    unfold entryLabels
    try dsimp only
    repeat' with_reducible
    first
        | exact keeps_pure _ | exact keeps_get | apply ih | apply keeps_padLabel | apply keeps_storeLabel
        | refine keeps_modifyGet (fun _ hf => ?_) | refine keeps_modify (fun _ hf => ?_) | refine keeps_getBind (fun _ hf => ?_)
        | refine keeps_set ?_ | refine keeps_bind ?_ (fun _ => ?_) | exact hf | assumption
        | refine wf_foldl ?_ (fun _ _ hf => ?_) | refine wf_foldl_snd ?_ (fun _ _ hf => ?_) | refine wf_run (by assumption) ?_ ?_
        | refine wf_trapErr (by assumption) ?_ ?_ | (simp only [↓wf_mk]; refine wf_back ?_) | intro _ | split
  | cons y ys ih =>
    unfold entryLabels
    try dsimp only
    repeat' with_reducible
    first
        | exact keeps_pure _ | exact keeps_get | apply ih | apply keeps_padLabel | apply keeps_storeLabel
        | refine keeps_modifyGet (fun _ hf => ?_) | refine keeps_modify (fun _ hf => ?_) | refine keeps_getBind (fun _ hf => ?_)
        | refine keeps_set ?_ | refine keeps_bind ?_ (fun _ => ?_) | exact hf | assumption
        | refine wf_foldl ?_ (fun _ _ hf => ?_) | refine wf_foldl_snd ?_ (fun _ _ hf => ?_) | refine wf_run (by assumption) ?_ ?_
        | refine wf_trapErr (by assumption) ?_ ?_ | (simp only [↓wf_mk]; refine wf_back ?_) | intro _ | split

theorem keeps_checked x0 x1 x2 : Keeps (@checked x0 x1 x2) := by
  unfold checked
  try dsimp only
  repeat' with_reducible
    first
      | exact keeps_pure _ | exact keeps_get | apply keeps_scopeCheck | refine keeps_modifyGet (fun _ hf => ?_)
      | refine keeps_modify (fun _ hf => ?_) | refine keeps_getBind (fun _ hf => ?_) | refine keeps_set ?_
      | refine keeps_bind ?_ (fun _ => ?_) | exact hf | assumption | refine wf_foldl ?_ (fun _ _ hf => ?_)
      | refine wf_foldl_snd ?_ (fun _ _ hf => ?_) | refine wf_run (by assumption) ?_ ?_
      | refine wf_trapErr (by assumption) ?_ ?_ | (simp only [↓wf_mk]; refine wf_back ?_) | intro _ | split

theorem keeps_checkedAll x0 x1 : Keeps (@checkedAll x0 x1) := by
  induction x1 generalizing x0  with
  | nil =>
    unfold checkedAll
    try dsimp only
    repeat' with_reducible
    first
        | exact keeps_pure _ | exact keeps_get | apply ih | apply keeps_checked | refine keeps_modifyGet (fun _ hf => ?_)
        | refine keeps_modify (fun _ hf => ?_) | refine keeps_getBind (fun _ hf => ?_) | refine keeps_set ?_
        | refine keeps_bind ?_ (fun _ => ?_) | exact hf | assumption | refine wf_foldl ?_ (fun _ _ hf => ?_)
        | refine wf_foldl_snd ?_ (fun _ _ hf => ?_) | refine wf_run (by assumption) ?_ ?_
        | refine wf_trapErr (by assumption) ?_ ?_ | (simp only [↓wf_mk]; refine wf_back ?_) | intro _ | split
  | cons y ys ih =>
    unfold checkedAll
    try dsimp only
    repeat' with_reducible
    first
        | exact keeps_pure _ | exact keeps_get | apply ih | apply keeps_checked | refine keeps_modifyGet (fun _ hf => ?_)
        | refine keeps_modify (fun _ hf => ?_) | refine keeps_getBind (fun _ hf => ?_) | refine keeps_set ?_
        | refine keeps_bind ?_ (fun _ => ?_) | exact hf | assumption | refine wf_foldl ?_ (fun _ _ hf => ?_)
        | refine wf_foldl_snd ?_ (fun _ _ hf => ?_) | refine wf_run (by assumption) ?_ ?_
        | refine wf_trapErr (by assumption) ?_ ?_ | (simp only [↓wf_mk]; refine wf_back ?_) | intro _ | split

theorem keeps_releaseEntry x0 x1 x2 : Keeps (@releaseEntry x0 x1 x2) := by
  unfold releaseEntry
  try dsimp only
  repeat' with_reducible
    first
      | exact keeps_pure _ | exact keeps_get | apply keeps_moreRecords | apply keeps_sendStore
      | refine keeps_modifyGet (fun _ hf => ?_) | refine keeps_modify (fun _ hf => ?_) | refine keeps_getBind (fun _ hf => ?_)
      | refine keeps_set ?_ | refine keeps_bind ?_ (fun _ => ?_) | apply wf_setBank | exact hf | assumption
      | refine wf_foldl ?_ (fun _ _ hf => ?_) | refine wf_foldl_snd ?_ (fun _ _ hf => ?_) | refine wf_run (by assumption) ?_ ?_
      | refine wf_trapErr (by assumption) ?_ ?_ | (simp only [↓wf_mk]; refine wf_back ?_) | intro _ | split

theorem keeps_releaseEntries x0 x1 x2 : Keeps (@releaseEntries x0 x1 x2) := by
  induction x2 generalizing x0 x1  with
  | nil =>
    unfold releaseEntries
    try dsimp only
    repeat' with_reducible
    first
        | exact keeps_pure _ | exact keeps_get | apply ih | apply keeps_releaseEntry | refine keeps_modifyGet (fun _ hf => ?_)
        | refine keeps_modify (fun _ hf => ?_) | refine keeps_getBind (fun _ hf => ?_) | refine keeps_set ?_
        | refine keeps_bind ?_ (fun _ => ?_) | exact hf | assumption | refine wf_foldl ?_ (fun _ _ hf => ?_)
        | refine wf_foldl_snd ?_ (fun _ _ hf => ?_) | refine wf_run (by assumption) ?_ ?_
        | refine wf_trapErr (by assumption) ?_ ?_ | (simp only [↓wf_mk]; refine wf_back ?_) | intro _ | split
  | cons y ys ih =>
    unfold releaseEntries
    try dsimp only
    repeat' with_reducible
    first
        | exact keeps_pure _ | exact keeps_get | apply ih | apply keeps_releaseEntry | refine keeps_modifyGet (fun _ hf => ?_)
        | refine keeps_modify (fun _ hf => ?_) | refine keeps_getBind (fun _ hf => ?_) | refine keeps_set ?_
        | refine keeps_bind ?_ (fun _ => ?_) | exact hf | assumption | refine wf_foldl ?_ (fun _ _ hf => ?_)
        | refine wf_foldl_snd ?_ (fun _ _ hf => ?_) | refine wf_run (by assumption) ?_ ?_
        | refine wf_trapErr (by assumption) ?_ ?_ | (simp only [↓wf_mk]; refine wf_back ?_) | intro _ | split

theorem keeps_closingCheck x0 x1 x2 x3 : Keeps (@closingCheck x0 x1 x2 x3) := by
  unfold closingCheck
  try dsimp only
  repeat' with_reducible
    first
      | exact keeps_pure _ | exact keeps_get | apply keeps_growCheck | apply keeps_maskOf | apply keeps_mkLabel
      | apply keeps_msgCheck | apply keeps_scopeCheck | refine keeps_modifyGet (fun _ hf => ?_)
      | refine keeps_modify (fun _ hf => ?_) | refine keeps_getBind (fun _ hf => ?_) | refine keeps_set ?_
      | refine keeps_bind ?_ (fun _ => ?_) | exact hf | assumption | refine wf_foldl ?_ (fun _ _ hf => ?_)
      | refine wf_foldl_snd ?_ (fun _ _ hf => ?_) | refine wf_run (by assumption) ?_ ?_
      | refine wf_trapErr (by assumption) ?_ ?_ | (simp only [↓wf_mk]; refine wf_back ?_) | intro _ | split

theorem keeps_closingGrowth x0 x1 : Keeps (@closingGrowth x0 x1) := by
  unfold closingGrowth
  try dsimp only
  repeat' with_reducible
    first
      | exact keeps_pure _ | exact keeps_get | apply keeps_maskOf | apply keeps_mkLabel
      | refine keeps_modifyGet (fun _ hf => ?_) | refine keeps_modify (fun _ hf => ?_) | refine keeps_getBind (fun _ hf => ?_)
      | refine keeps_set ?_ | refine keeps_bind ?_ (fun _ => ?_) | exact hf | assumption
      | refine wf_foldl ?_ (fun _ _ hf => ?_) | refine wf_foldl_snd ?_ (fun _ _ hf => ?_) | refine wf_run (by assumption) ?_ ?_
      | refine wf_trapErr (by assumption) ?_ ?_ | (simp only [↓wf_mk]; refine wf_back ?_) | intro _ | split

theorem keeps_performClosing x0 x1 x2 x3 x4 x5 : Keeps (@performClosing x0 x1 x2 x3 x4 x5) := by
  unfold performClosing
  try dsimp only
  repeat' with_reducible
    first
      | exact keeps_pure _ | exact keeps_get | apply keeps_badAtomic | apply keeps_closingGrowth | apply keeps_doAtomic
      | apply keeps_mkLabel | apply keeps_moreRecords | apply keeps_sendPod | apply keeps_worldOf
      | refine keeps_modifyGet (fun _ hf => ?_) | refine keeps_modify (fun _ hf => ?_) | refine keeps_getBind (fun _ hf => ?_)
      | refine keeps_set ?_ | refine keeps_bind ?_ (fun _ => ?_) | apply wf_flagDone | apply wf_setAcc | exact hf | assumption
      | refine wf_foldl ?_ (fun _ _ hf => ?_) | refine wf_foldl_snd ?_ (fun _ _ hf => ?_) | refine wf_run (by assumption) ?_ ?_
      | refine wf_trapErr (by assumption) ?_ ?_ | (simp only [↓wf_mk]; refine wf_back ?_) | intro _ | split

theorem keeps_runRelease x0 x1 x2 : Keeps (@runRelease x0 x1 x2) := by
  unfold runRelease
  try dsimp only
  repeat' with_reducible
    first
      | exact keeps_pure _ | exact keeps_get | apply keeps_performClosing | apply keeps_releaseEntries | apply keeps_setThr
      | refine keeps_modifyGet (fun _ hf => ?_) | refine keeps_modify (fun _ hf => ?_) | refine keeps_getBind (fun _ hf => ?_)
      | refine keeps_set ?_ | refine keeps_bind ?_ (fun _ => ?_) | exact hf | assumption
      | refine wf_foldl ?_ (fun _ _ hf => ?_) | refine wf_foldl_snd ?_ (fun _ _ hf => ?_) | refine wf_run (by assumption) ?_ ?_
      | refine wf_trapErr (by assumption) ?_ ?_ | (simp only [↓wf_mk]; refine wf_back ?_) | intro _ | split

theorem keeps_rgncSend x0 x1 x2 : Keeps (@rgncSend x0 x1 x2) := by
  unfold rgncSend
  try dsimp only
  repeat' with_reducible
    first
      | exact keeps_pure _ | exact keeps_get | apply keeps_addAcc | apply keeps_atomicAccess | apply keeps_checkedAll
      | apply keeps_closingCheck | apply keeps_entryLabels | apply keeps_entryTargets | apply keeps_flagNow | apply keeps_gate
      | apply keeps_runRelease | apply keeps_setThr | apply keeps_teamOf | refine keeps_modifyGet (fun _ hf => ?_)
      | refine keeps_modify (fun _ hf => ?_) | refine keeps_getBind (fun _ hf => ?_) | refine keeps_set ?_
      | refine keeps_bind ?_ (fun _ => ?_) | exact hf | assumption | refine wf_foldl ?_ (fun _ _ hf => ?_)
      | refine wf_foldl_snd ?_ (fun _ _ hf => ?_) | refine wf_run (by assumption) ?_ ?_
      | refine wf_trapErr (by assumption) ?_ ?_ | (simp only [↓wf_mk]; refine wf_back ?_) | intro _ | split

theorem keeps_rgncBody x0 x1 : Keeps (@rgncBody x0 x1) := by
  unfold rgncBody
  try dsimp only
  repeat' with_reducible
    first
      | exact keeps_pure _ | exact keeps_get | apply keeps_prot | apply keeps_rgncSend | apply keeps_runRelease
      | apply keeps_theIssue | apply keeps_thr | refine keeps_modifyGet (fun _ hf => ?_) | refine keeps_modify (fun _ hf => ?_)
      | refine keeps_getBind (fun _ hf => ?_) | refine keeps_set ?_ | refine keeps_bind ?_ (fun _ => ?_) | exact hf
      | assumption | refine wf_foldl ?_ (fun _ _ hf => ?_) | refine wf_foldl_snd ?_ (fun _ _ hf => ?_)
      | refine wf_run (by assumption) ?_ ?_ | refine wf_trapErr (by assumption) ?_ ?_ | (simp only [↓wf_mk]; refine wf_back ?_)
      | intro _ | split

theorem okeeps_execRgnc : OKeeps (execRgnc) := by
  first | refine okeeps_lift (fun _ _ hf => ?_) | refine okeeps_ite (okeeps_fault _) (okeeps_lift (fun _ _ hf => ?_))
  try dsimp only
  repeat' with_reducible
    first
      | apply wf_eachThen | apply wf_holdRest | apply keeps_rgncBody | exact keeps_get | refine keeps_getBind (fun _ hf => ?_)
      | refine keeps_modify (fun _ hf => ?_) | refine keeps_set ?_ | refine keeps_bind ?_ (fun _ => ?_) | exact keeps_pure _
      | exact hf | assumption | refine wf_foldl ?_ (fun _ _ hf => ?_) | refine wf_foldl_snd ?_ (fun _ _ hf => ?_)
      | refine wf_run (by assumption) ?_ ?_ | refine wf_trapErr (by assumption) ?_ ?_ | (simp only [↓wf_mk]; refine wf_back ?_)
      | intro _ | split

/-! ### Sreg -/

theorem keeps_sregVal x0 x1 : Keeps (@sregVal x0 x1) := by
  unfold sregVal
  try dsimp only
  repeat' with_reducible
    first
      | exact keeps_pure _ | exact keeps_get | apply keeps_illop | apply keeps_mkLabel | apply keeps_teamOf
      | apply keeps_theIssue | apply keeps_thr | apply keeps_worldOf | refine keeps_modifyGet (fun _ hf => ?_)
      | refine keeps_modify (fun _ hf => ?_) | refine keeps_getBind (fun _ hf => ?_) | refine keeps_set ?_
      | refine keeps_bind ?_ (fun _ => ?_) | exact hf | assumption | refine wf_foldl ?_ (fun _ _ hf => ?_)
      | refine wf_foldl_snd ?_ (fun _ _ hf => ?_) | refine wf_run (by assumption) ?_ ?_
      | refine wf_trapErr (by assumption) ?_ ?_ | (simp only [↓wf_mk]; refine wf_back ?_) | intro _ | split

theorem okeeps_execMfsr x0 x1 : OKeeps (@execMfsr x0 x1) := by
  first | refine okeeps_lift (fun _ _ hf => ?_) | refine okeeps_ite (okeeps_fault _) (okeeps_lift (fun _ _ hf => ?_))
  try dsimp only
  repeat' with_reducible
    first
      | apply wf_each | apply keeps_checkFields | apply keeps_out | apply keeps_resultLabel | apply keeps_sregVal
      | exact keeps_get | refine keeps_getBind (fun _ hf => ?_) | refine keeps_modify (fun _ hf => ?_) | refine keeps_set ?_
      | refine keeps_bind ?_ (fun _ => ?_) | exact keeps_pure _ | exact hf | assumption | refine wf_foldl ?_ (fun _ _ hf => ?_)
      | refine wf_foldl_snd ?_ (fun _ _ hf => ?_) | refine wf_run (by assumption) ?_ ?_
      | refine wf_trapErr (by assumption) ?_ ?_ | (simp only [↓wf_mk]; refine wf_back ?_) | intro _ | split

theorem keeps_targetLabel x0 x1 x2 : Keeps (@targetLabel x0 x1 x2) := by
  unfold targetLabel
  try dsimp only
  repeat' with_reducible
    first
      | exact keeps_pure _ | exact keeps_get | apply keeps_mkLabel | apply keeps_thr | apply keeps_trap
      | refine keeps_modifyGet (fun _ hf => ?_) | refine keeps_modify (fun _ hf => ?_) | refine keeps_getBind (fun _ hf => ?_)
      | refine keeps_set ?_ | refine keeps_bind ?_ (fun _ => ?_) | exact hf | assumption
      | refine wf_foldl ?_ (fun _ _ hf => ?_) | refine wf_foldl_snd ?_ (fun _ _ hf => ?_) | refine wf_run (by assumption) ?_ ?_
      | refine wf_trapErr (by assumption) ?_ ?_ | (simp only [↓wf_mk]; refine wf_back ?_) | intro _ | split

theorem okeeps_execMtsr x0 x1 x2 : OKeeps (@execMtsr x0 x1 x2) := by
  first | refine okeeps_lift (fun _ _ hf => ?_) | refine okeeps_ite (okeeps_fault _) (okeeps_lift (fun _ _ hf => ?_))
  try dsimp only
  repeat' with_reducible
    first
      | apply wf_each | apply keeps_checkFields | apply keeps_prot | apply keeps_readField | apply keeps_resultLabel
      | apply keeps_setThr | apply keeps_targetLabel | apply keeps_thr | exact keeps_get
      | refine keeps_getBind (fun _ hf => ?_) | refine keeps_modify (fun _ hf => ?_) | refine keeps_set ?_
      | refine keeps_bind ?_ (fun _ => ?_) | exact keeps_pure _ | exact hf | assumption | refine wf_foldl ?_ (fun _ _ hf => ?_)
      | refine wf_foldl_snd ?_ (fun _ _ hf => ?_) | refine wf_run (by assumption) ?_ ?_
      | refine wf_trapErr (by assumption) ?_ ?_ | (simp only [↓wf_mk]; refine wf_back ?_) | intro _ | split

theorem okeeps_execTime x0 x1 : OKeeps (@execTime x0 x1) := by
  first | refine okeeps_lift (fun _ _ hf => ?_) | refine okeeps_ite (okeeps_fault _) (okeeps_lift (fun _ _ hf => ?_))
  try dsimp only
  repeat' with_reducible
    first
      | apply wf_each | apply keeps_checkFields | apply keeps_fenceAt | apply keeps_noRegion | apply keeps_out
      | apply keeps_resultLabel | apply keeps_theIssue | exact keeps_get | refine keeps_getBind (fun _ hf => ?_)
      | refine keeps_modify (fun _ hf => ?_) | refine keeps_set ?_ | refine keeps_bind ?_ (fun _ => ?_) | exact keeps_pure _
      | exact hf | assumption | refine wf_foldl ?_ (fun _ _ hf => ?_) | refine wf_foldl_snd ?_ (fun _ _ hf => ?_)
      | refine wf_run (by assumption) ?_ ?_ | refine wf_trapErr (by assumption) ?_ ?_ | (simp only [↓wf_mk]; refine wf_back ?_)
      | intro _ | split

end Sys2Proof.Machine
end

