-- ==== Sys2Proof/Laws/KeepGrid.lean ====
section
/-! SUPPORT. Every operation and every meaning keeps the form of the tables of a package (`Package.wf`): grids, jobs, the lathe, tides and manifests. -/

namespace Sys2Proof.Machine

/-! ### Control -/

theorem okeeps_execBra x0 : OKeeps (@execBra x0) := by
  first | refine okeeps_lift (fun _ _ hf => ?_) | refine okeeps_ite (okeeps_fault _) (okeeps_lift (fun _ _ hf => ?_))
  try dsimp only
  repeat' with_reducible
    first
      | apply wf_endClause | exact hf | assumption | refine wf_foldl ?_ (fun _ _ hf => ?_)
      | refine wf_foldl_snd ?_ (fun _ _ hf => ?_) | (simp only [↓wf_mk]; refine wf_back ?_) | intro _ | split

theorem keeps_pushCtx x0 x1 x2 : Keeps (@pushCtx x0 x1 x2) := by
  unfold pushCtx
  try dsimp only
  repeat' with_reducible
    first
      | exact keeps_pure _ | exact keeps_get | apply keeps_mkLabel | apply keeps_setThr | apply keeps_teamOf | apply keeps_thr
      | apply keeps_trap | refine keeps_modifyGet (fun _ hf => ?_) | refine keeps_modify (fun _ hf => ?_)
      | refine keeps_getBind (fun _ hf => ?_) | refine keeps_set ?_ | refine keeps_bind ?_ (fun _ => ?_) | exact hf
      | assumption | refine wf_foldl ?_ (fun _ _ hf => ?_) | refine wf_foldl_snd ?_ (fun _ _ hf => ?_)
      | refine wf_run (by assumption) ?_ ?_ | refine wf_trapErr (by assumption) ?_ ?_ | (simp only [↓wf_mk]; refine wf_back ?_)
      | intro _ | split

theorem keeps_branchOn x0 x1 x2 x3 x4 : Keeps (@branchOn x0 x1 x2 x3 x4) := by
  unfold branchOn
  try dsimp only
  repeat' with_reducible
    first
      | exact keeps_pure _ | exact keeps_get | apply keeps_ceilingOf | apply keeps_maskOf | apply keeps_mkLabel
      | apply keeps_pushCtx | apply keeps_teamOf | apply keeps_theIssue | apply keeps_thr | apply keeps_trap
      | refine keeps_modifyGet (fun _ hf => ?_) | refine keeps_modify (fun _ hf => ?_) | refine keeps_getBind (fun _ hf => ?_)
      | refine keeps_set ?_ | refine keeps_bind ?_ (fun _ => ?_) | exact hf | assumption
      | refine wf_foldl ?_ (fun _ _ hf => ?_) | refine wf_foldl_snd ?_ (fun _ _ hf => ?_) | refine wf_run (by assumption) ?_ ?_
      | refine wf_trapErr (by assumption) ?_ ?_ | (simp only [↓wf_mk]; refine wf_back ?_) | intro _ | split

theorem wf_endBranch x0 (x1 : Package) (h1 : x1.wf = true) : (@Package.endBranch x0 x1).wf = true := by
  unfold Package.endBranch
  try dsimp only
  repeat' with_reducible
    first
      | exact h1 | apply wf_endClause | apply wf_setTeam | apply wf_fresh | refine wf_snd (by assumption) (wf_fresh _ ?_)
      | exact hf | assumption | refine wf_foldl ?_ (fun _ _ hf => ?_) | refine wf_foldl_snd ?_ (fun _ _ hf => ?_)
      | (simp only [↓wf_mk]; refine wf_back ?_) | intro _ | split

theorem okeeps_execBrc x0 x1 x2 : OKeeps (@execBrc x0 x1 x2) := by
  first | refine okeeps_lift (fun _ _ hf => ?_) | refine okeeps_ite (okeeps_fault _) (okeeps_lift (fun _ _ hf => ?_))
  try dsimp only
  repeat' with_reducible
    first
      | apply wf_endBranch | apply wf_eachThen | apply keeps_branchOn | apply keeps_readPred | exact keeps_get
      | refine keeps_getBind (fun _ hf => ?_) | refine keeps_modify (fun _ hf => ?_) | refine keeps_set ?_
      | refine keeps_bind ?_ (fun _ => ?_) | exact keeps_pure _ | exact hf | assumption | refine wf_foldl ?_ (fun _ _ hf => ?_)
      | refine wf_foldl_snd ?_ (fun _ _ hf => ?_) | refine wf_run (by assumption) ?_ ?_
      | refine wf_trapErr (by assumption) ?_ ?_ | (simp only [↓wf_mk]; refine wf_back ?_) | intro _ | split

theorem okeeps_execBdq x0 x1 : OKeeps (@execBdq x0 x1) := by
  first | refine okeeps_lift (fun _ _ hf => ?_) | refine okeeps_ite (okeeps_fault _) (okeeps_lift (fun _ _ hf => ?_))
  try dsimp only
  repeat' with_reducible
    first
      | apply wf_endBranch | apply wf_eachThen | apply keeps_branchOn | apply keeps_popDQ | apply keeps_trap | exact keeps_get
      | refine keeps_getBind (fun _ hf => ?_) | refine keeps_modify (fun _ hf => ?_) | refine keeps_set ?_
      | refine keeps_bind ?_ (fun _ => ?_) | exact keeps_pure _ | exact hf | assumption | refine wf_foldl ?_ (fun _ _ hf => ?_)
      | refine wf_foldl_snd ?_ (fun _ _ hf => ?_) | refine wf_run (by assumption) ?_ ?_
      | refine wf_trapErr (by assumption) ?_ ?_ | (simp only [↓wf_mk]; refine wf_back ?_) | intro _ | split

theorem okeeps_execCall x0 x1 : OKeeps (@execCall x0 x1) := by
  first | refine okeeps_lift (fun _ _ hf => ?_) | refine okeeps_ite (okeeps_fault _) (okeeps_lift (fun _ _ hf => ?_))
  try dsimp only
  repeat' with_reducible
    first
      | apply wf_endClause | apply wf_eachThen | apply keeps_checkFields | apply keeps_out | apply keeps_resultLabel
      | apply keeps_theIssue | exact keeps_get | refine keeps_getBind (fun _ hf => ?_) | refine keeps_modify (fun _ hf => ?_)
      | refine keeps_set ?_ | refine keeps_bind ?_ (fun _ => ?_) | exact keeps_pure _ | exact hf | assumption
      | refine wf_foldl ?_ (fun _ _ hf => ?_) | refine wf_foldl_snd ?_ (fun _ _ hf => ?_) | refine wf_run (by assumption) ?_ ?_
      | refine wf_trapErr (by assumption) ?_ ?_ | (simp only [↓wf_mk]; refine wf_back ?_) | intro _ | split

theorem wf_endJump x0 (x1 : Package) (h1 : x1.wf = true) : (@Package.endJump x0 x1).wf = true := by
  unfold Package.endJump
  try dsimp only
  repeat' with_reducible
    first
      | exact h1 | apply wf_endClause | exact hf | assumption | refine wf_foldl ?_ (fun _ _ hf => ?_)
      | refine wf_foldl_snd ?_ (fun _ _ hf => ?_) | (simp only [↓wf_mk]; refine wf_back ?_) | intro _ | split

theorem keeps_jumpTarget x0 x1 : Keeps (@jumpTarget x0 x1) := by
  unfold jumpTarget
  try dsimp only
  repeat' with_reducible
    first
      | exact keeps_pure _ | exact keeps_get | apply keeps_checkFields | apply keeps_readField | apply keeps_targetLabel
      | refine keeps_modifyGet (fun _ hf => ?_) | refine keeps_modify (fun _ hf => ?_) | refine keeps_getBind (fun _ hf => ?_)
      | refine keeps_set ?_ | refine keeps_bind ?_ (fun _ => ?_) | exact hf | assumption
      | refine wf_foldl ?_ (fun _ _ hf => ?_) | refine wf_foldl_snd ?_ (fun _ _ hf => ?_) | refine wf_run (by assumption) ?_ ?_
      | refine wf_trapErr (by assumption) ?_ ?_ | (simp only [↓wf_mk]; refine wf_back ?_) | intro _ | split

theorem okeeps_execJmpi x0 : OKeeps (@execJmpi x0) := by
  first | refine okeeps_lift (fun _ _ hf => ?_) | refine okeeps_ite (okeeps_fault _) (okeeps_lift (fun _ _ hf => ?_))
  try dsimp only
  repeat' with_reducible
    first
      | apply wf_endJump | apply wf_eachThen | apply keeps_jumpTarget | exact keeps_get | refine keeps_getBind (fun _ hf => ?_)
      | refine keeps_modify (fun _ hf => ?_) | refine keeps_set ?_ | refine keeps_bind ?_ (fun _ => ?_) | exact keeps_pure _
      | exact hf | assumption | refine wf_foldl ?_ (fun _ _ hf => ?_) | refine wf_foldl_snd ?_ (fun _ _ hf => ?_)
      | refine wf_run (by assumption) ?_ ?_ | refine wf_trapErr (by assumption) ?_ ?_ | (simp only [↓wf_mk]; refine wf_back ?_)
      | intro _ | split

theorem okeeps_execRet x0 : OKeeps (@execRet x0) := by
  first | refine okeeps_lift (fun _ _ hf => ?_) | refine okeeps_ite (okeeps_fault _) (okeeps_lift (fun _ _ hf => ?_))
  try dsimp only
  repeat' with_reducible
    first
      | apply wf_endJump | apply wf_eachThen | apply keeps_jumpTarget | exact keeps_get | refine keeps_getBind (fun _ hf => ?_)
      | refine keeps_modify (fun _ hf => ?_) | refine keeps_set ?_ | refine keeps_bind ?_ (fun _ => ?_) | exact keeps_pure _
      | exact hf | assumption | refine wf_foldl ?_ (fun _ _ hf => ?_) | refine wf_foldl_snd ?_ (fun _ _ hf => ?_)
      | refine wf_run (by assumption) ?_ ?_ | refine wf_trapErr (by assumption) ?_ ?_ | (simp only [↓wf_mk]; refine wf_back ?_)
      | intro _ | split

theorem okeeps_execReform x0 x1 : OKeeps (@execReform x0 x1) := by
  first | refine okeeps_lift (fun _ _ hf => ?_) | refine okeeps_ite (okeeps_fault _) (okeeps_lift (fun _ _ hf => ?_))
  try dsimp only
  repeat' with_reducible
    first
      | apply wf_endClauseWith | apply wf_eachThen | apply keeps_checkFields | apply keeps_illop | apply keeps_readB
      | apply keeps_theIssue | exact keeps_get | refine keeps_getBind (fun _ hf => ?_) | refine keeps_modify (fun _ hf => ?_)
      | refine keeps_set ?_ | refine keeps_bind ?_ (fun _ => ?_) | exact keeps_pure _ | exact hf | assumption
      | refine wf_foldl ?_ (fun _ _ hf => ?_) | refine wf_foldl_snd ?_ (fun _ _ hf => ?_) | refine wf_run (by assumption) ?_ ?_
      | refine wf_trapErr (by assumption) ?_ ?_ | (simp only [↓wf_mk]; refine wf_back ?_) | intro _ | split

theorem okeeps_execExit : OKeeps (execExit) := by
  first | refine okeeps_lift (fun _ _ hf => ?_) | refine okeeps_ite (okeeps_fault _) (okeeps_lift (fun _ _ hf => ?_))
  try dsimp only
  repeat' with_reducible
    first
      | apply wf_endClause | apply wf_endThread | apply wf_eachThen | apply keeps_await | exact keeps_get
      | refine keeps_getBind (fun _ hf => ?_) | refine keeps_modify (fun _ hf => ?_) | refine keeps_set ?_
      | refine keeps_bind ?_ (fun _ => ?_) | exact keeps_pure _ | exact hf | assumption | refine wf_foldl ?_ (fun _ _ hf => ?_)
      | refine wf_foldl_snd ?_ (fun _ _ hf => ?_) | refine wf_run (by assumption) ?_ ?_
      | refine wf_trapErr (by assumption) ?_ ?_ | (simp only [↓wf_mk]; refine wf_back ?_) | intro _ | split

theorem okeeps_execYield : OKeeps (execYield) := by
  first | refine okeeps_lift (fun _ _ hf => ?_) | refine okeeps_ite (okeeps_fault _) (okeeps_lift (fun _ _ hf => ?_))
  try dsimp only
  repeat' with_reducible
    first
      | apply wf_each | apply keeps_setThr | exact keeps_get | refine keeps_getBind (fun _ hf => ?_)
      | refine keeps_modify (fun _ hf => ?_) | refine keeps_set ?_ | refine keeps_bind ?_ (fun _ => ?_) | exact keeps_pure _
      | exact hf | assumption | refine wf_foldl ?_ (fun _ _ hf => ?_) | refine wf_foldl_snd ?_ (fun _ _ hf => ?_)
      | refine wf_run (by assumption) ?_ ?_ | refine wf_trapErr (by assumption) ?_ ?_ | (simp only [↓wf_mk]; refine wf_back ?_)
      | intro _ | split

theorem okeeps_execBar x0 x1 : OKeeps (@execBar x0 x1) := by
  first | refine okeeps_lift (fun _ _ hf => ?_) | refine okeeps_ite (okeeps_fault _) (okeeps_lift (fun _ _ hf => ?_))
  try dsimp only
  repeat' with_reducible
    first
      | apply wf_setTeam | apply wf_eachThen | apply keeps_fenceAt | apply keeps_illop | apply keeps_noRegion
      | apply keeps_setTeam | apply keeps_theIssue | exact keeps_get | refine keeps_getBind (fun _ hf => ?_)
      | refine keeps_modify (fun _ hf => ?_) | refine keeps_set ?_ | refine keeps_bind ?_ (fun _ => ?_) | exact keeps_pure _
      | exact hf | assumption | refine wf_foldl ?_ (fun _ _ hf => ?_) | refine wf_foldl_snd ?_ (fun _ _ hf => ?_)
      | refine wf_run (by assumption) ?_ ?_ | refine wf_trapErr (by assumption) ?_ ?_ | (simp only [↓wf_mk]; refine wf_back ?_)
      | intro _ | split

theorem okeeps_execDqpush x0 x1 x2 : OKeeps (@execDqpush x0 x1 x2) := by
  first | refine okeeps_lift (fun _ _ hf => ?_) | refine okeeps_ite (okeeps_fault _) (okeeps_lift (fun _ _ hf => ?_))
  try dsimp only
  repeat' with_reducible
    first
      | apply wf_each | apply keeps_await | apply keeps_checkFields | apply keeps_fenceAt | apply keeps_readB
      | apply keeps_resultLabel | apply keeps_setTeam | apply keeps_teamOf | apply keeps_trap | exact keeps_get
      | refine keeps_getBind (fun _ hf => ?_) | refine keeps_modify (fun _ hf => ?_) | refine keeps_set ?_
      | refine keeps_bind ?_ (fun _ => ?_) | exact keeps_pure _ | exact hf | assumption | refine wf_foldl ?_ (fun _ _ hf => ?_)
      | refine wf_foldl_snd ?_ (fun _ _ hf => ?_) | refine wf_run (by assumption) ?_ ?_
      | refine wf_trapErr (by assumption) ?_ ?_ | (simp only [↓wf_mk]; refine wf_back ?_) | intro _ | split

theorem okeeps_execDqpop x0 : OKeeps (@execDqpop x0) := by
  first | refine okeeps_lift (fun _ _ hf => ?_) | refine okeeps_ite (okeeps_fault _) (okeeps_lift (fun _ _ hf => ?_))
  try dsimp only
  repeat' with_reducible
    first
      | apply wf_each | apply keeps_checkFields | apply keeps_out | apply keeps_popDQ | apply keeps_resultLabel
      | apply keeps_trap | exact keeps_get | refine keeps_getBind (fun _ hf => ?_) | refine keeps_modify (fun _ hf => ?_)
      | refine keeps_set ?_ | refine keeps_bind ?_ (fun _ => ?_) | exact keeps_pure _ | exact hf | assumption
      | refine wf_foldl ?_ (fun _ _ hf => ?_) | refine wf_foldl_snd ?_ (fun _ _ hf => ?_) | refine wf_run (by assumption) ?_ ?_
      | refine wf_trapErr (by assumption) ?_ ?_ | (simp only [↓wf_mk]; refine wf_back ?_) | intro _ | split

theorem okeeps_execWinb x0 : OKeeps (@execWinb x0) := by
  first | refine okeeps_lift (fun _ _ hf => ?_) | refine okeeps_ite (okeeps_fault _) (okeeps_lift (fun _ _ hf => ?_))
  try dsimp only
  repeat' with_reducible
    first
      | apply wf_each | apply keeps_prot | apply keeps_setThr | apply keeps_teamOf | apply keeps_trap | exact keeps_get
      | refine keeps_getBind (fun _ hf => ?_) | refine keeps_modify (fun _ hf => ?_) | refine keeps_set ?_
      | refine keeps_bind ?_ (fun _ => ?_) | exact keeps_pure _ | exact hf | assumption | refine wf_foldl ?_ (fun _ _ hf => ?_)
      | refine wf_foldl_snd ?_ (fun _ _ hf => ?_) | refine wf_run (by assumption) ?_ ?_
      | refine wf_trapErr (by assumption) ?_ ?_ | (simp only [↓wf_mk]; refine wf_back ?_) | intro _ | split

theorem okeeps_execXacq : OKeeps (execXacq) := by
  first | refine okeeps_lift (fun _ _ hf => ?_) | refine okeeps_ite (okeeps_fault _) (okeeps_lift (fun _ _ hf => ?_))
  try dsimp only
  repeat' with_reducible
    first
      | apply wf_each | apply keeps_prot | apply keeps_setTeam | apply keeps_teamOf | apply keeps_trap | apply keeps_waitFor
      | exact keeps_get | refine keeps_getBind (fun _ hf => ?_) | refine keeps_modify (fun _ hf => ?_) | refine keeps_set ?_
      | refine keeps_bind ?_ (fun _ => ?_) | exact keeps_pure _ | exact hf | assumption | refine wf_foldl ?_ (fun _ _ hf => ?_)
      | refine wf_foldl_snd ?_ (fun _ _ hf => ?_) | refine wf_run (by assumption) ?_ ?_
      | refine wf_trapErr (by assumption) ?_ ?_ | (simp only [↓wf_mk]; refine wf_back ?_) | intro _ | split

theorem okeeps_execXrel : OKeeps (execXrel) := by
  first | refine okeeps_lift (fun _ _ hf => ?_) | refine okeeps_ite (okeeps_fault _) (okeeps_lift (fun _ _ hf => ?_))
  try dsimp only
  repeat' with_reducible
    first
      | apply wf_releaseExt | apply wf_each | apply keeps_await | apply keeps_prot | apply keeps_teamOf | apply keeps_thr
      | apply keeps_trap | exact keeps_get | refine keeps_getBind (fun _ hf => ?_) | refine keeps_modify (fun _ hf => ?_)
      | refine keeps_set ?_ | refine keeps_bind ?_ (fun _ => ?_) | exact keeps_pure _ | exact hf | assumption
      | refine wf_foldl ?_ (fun _ _ hf => ?_) | refine wf_foldl_snd ?_ (fun _ _ hf => ?_) | refine wf_run (by assumption) ?_ ?_
      | refine wf_trapErr (by assumption) ?_ ?_ | (simp only [↓wf_mk]; refine wf_back ?_) | intro _ | split

theorem okeeps_execTrap x0 : OKeeps (@execTrap x0) := by
  first | refine okeeps_lift (fun _ _ hf => ?_) | refine okeeps_ite (okeeps_fault _) (okeeps_lift (fun _ _ hf => ?_))
  try dsimp only
  repeat' with_reducible
    first
      | apply wf_each | apply keeps_resultLabel | apply keeps_trap | exact keeps_get | refine keeps_getBind (fun _ hf => ?_)
      | refine keeps_modify (fun _ hf => ?_) | refine keeps_set ?_ | refine keeps_bind ?_ (fun _ => ?_) | exact keeps_pure _
      | exact hf | assumption | refine wf_foldl ?_ (fun _ _ hf => ?_) | refine wf_foldl_snd ?_ (fun _ _ hf => ?_)
      | refine wf_run (by assumption) ?_ ?_ | refine wf_trapErr (by assumption) ?_ ?_ | (simp only [↓wf_mk]; refine wf_back ?_)
      | intro _ | split

theorem wf_endEret x0 (x1 : Package) (h1 : x1.wf = true) : (@Package.endEret x0 x1).wf = true := by
  unfold Package.endEret
  try dsimp only
  repeat' with_reducible
    first
      | exact h1 | apply wf_dropActive | apply wf_endClause | apply wf_fileAll | apply wf_setThread | exact hf | assumption
      | refine wf_foldl ?_ (fun _ _ hf => ?_) | refine wf_foldl_snd ?_ (fun _ _ hf => ?_)
      | (simp only [↓wf_mk]; refine wf_back ?_) | intro _ | split

theorem keeps_eretBody x0 x1 : Keeps (@eretBody x0 x1) := by
  unfold eretBody
  try dsimp only
  repeat' with_reducible
    first
      | exact keeps_pure _ | exact keeps_get | apply keeps_illop | apply keeps_leaveTrap | apply keeps_theIssue
      | refine keeps_modifyGet (fun _ hf => ?_) | refine keeps_modify (fun _ hf => ?_) | refine keeps_getBind (fun _ hf => ?_)
      | refine keeps_set ?_ | refine keeps_bind ?_ (fun _ => ?_) | exact hf | assumption
      | refine wf_foldl ?_ (fun _ _ hf => ?_) | refine wf_foldl_snd ?_ (fun _ _ hf => ?_) | refine wf_run (by assumption) ?_ ?_
      | refine wf_trapErr (by assumption) ?_ ?_ | (simp only [↓wf_mk]; refine wf_back ?_) | intro _ | split

theorem okeeps_execEretResume : OKeeps (execEretResume) := by
  first | refine okeeps_lift (fun _ _ hf => ?_) | refine okeeps_ite (okeeps_fault _) (okeeps_lift (fun _ _ hf => ?_))
  try dsimp only
  repeat' with_reducible
    first
      | apply wf_endEret | apply wf_eachThen | apply keeps_eretBody | exact keeps_get | refine keeps_getBind (fun _ hf => ?_)
      | refine keeps_modify (fun _ hf => ?_) | refine keeps_set ?_ | refine keeps_bind ?_ (fun _ => ?_) | exact keeps_pure _
      | exact hf | assumption | refine wf_foldl ?_ (fun _ _ hf => ?_) | refine wf_foldl_snd ?_ (fun _ _ hf => ?_)
      | refine wf_run (by assumption) ?_ ?_ | refine wf_trapErr (by assumption) ?_ ?_ | (simp only [↓wf_mk]; refine wf_back ?_)
      | intro _ | split

theorem okeeps_execEretRestart : OKeeps (execEretRestart) := by
  first | refine okeeps_lift (fun _ _ hf => ?_) | refine okeeps_ite (okeeps_fault _) (okeeps_lift (fun _ _ hf => ?_))
  try dsimp only
  repeat' with_reducible
    first
      | apply wf_endEret | apply wf_eachThen | apply keeps_eretBody | exact keeps_get | refine keeps_getBind (fun _ hf => ?_)
      | refine keeps_modify (fun _ hf => ?_) | refine keeps_set ?_ | refine keeps_bind ?_ (fun _ => ?_) | exact keeps_pure _
      | exact hf | assumption | refine wf_foldl ?_ (fun _ _ hf => ?_) | refine wf_foldl_snd ?_ (fun _ _ hf => ?_)
      | refine wf_run (by assumption) ?_ ?_ | refine wf_trapErr (by assumption) ?_ ?_ | (simp only [↓wf_mk]; refine wf_back ?_)
      | intro _ | split

theorem okeeps_execEretSkip : OKeeps (execEretSkip) := by
  first | refine okeeps_lift (fun _ _ hf => ?_) | refine okeeps_ite (okeeps_fault _) (okeeps_lift (fun _ _ hf => ?_))
  try dsimp only
  repeat' with_reducible
    first
      | apply wf_endEret | apply wf_eachThen | apply keeps_eretBody | exact keeps_get | refine keeps_getBind (fun _ hf => ?_)
      | refine keeps_modify (fun _ hf => ?_) | refine keeps_set ?_ | refine keeps_bind ?_ (fun _ => ?_) | exact keeps_pure _
      | exact hf | assumption | refine wf_foldl ?_ (fun _ _ hf => ?_) | refine wf_foldl_snd ?_ (fun _ _ hf => ?_)
      | refine wf_run (by assumption) ?_ ?_ | refine wf_trapErr (by assumption) ?_ ?_ | (simp only [↓wf_mk]; refine wf_back ?_)
      | intro _ | split

theorem wf_haltAt (x0 : Package) x1 x2 (h0 : x0.wf = true) : (@Package.haltAt x0 x1 x2).wf = true := by
  unfold Package.haltAt
  try dsimp only
  repeat' with_reducible
    first
      | exact h0 | apply wf_dropActive | apply wf_leaveGang | apply wf_setThread | exact hf | assumption
      | refine wf_foldl ?_ (fun _ _ hf => ?_) | refine wf_foldl_snd ?_ (fun _ _ hf => ?_)
      | (simp only [↓wf_mk]; refine wf_back ?_) | intro _ | split

theorem wf_haltTeam (x0 : Package) x1 (h0 : x0.wf = true) : (@Package.haltTeam x0 x1).wf = true := by
  unfold Package.haltTeam
  try dsimp only
  repeat' with_reducible
    first
      | exact h0 | apply wf_setTeam | exact hf | assumption | refine wf_foldl ?_ (fun _ _ hf => ?_)
      | refine wf_foldl_snd ?_ (fun _ _ hf => ?_) | (simp only [↓wf_mk]; refine wf_back ?_) | intro _ | split

theorem okeeps_execBkpt x0 : OKeeps (@execBkpt x0) := by
  first | refine okeeps_lift (fun _ _ hf => ?_) | refine okeeps_ite (okeeps_fault _) (okeeps_lift (fun _ _ hf => ?_))
  try dsimp only
  repeat' with_reducible
    first
      | apply wf_haltAt | apply wf_haltTeam | apply wf_eachThen | apply keeps_teamOf | apply keeps_trap | apply keeps_worldOf
      | exact keeps_get | refine keeps_getBind (fun _ hf => ?_) | refine keeps_modify (fun _ hf => ?_) | refine keeps_set ?_
      | refine keeps_bind ?_ (fun _ => ?_) | exact keeps_pure _ | exact hf | assumption | refine wf_foldl ?_ (fun _ _ hf => ?_)
      | refine wf_foldl_snd ?_ (fun _ _ hf => ?_) | refine wf_run (by assumption) ?_ ?_
      | refine wf_trapErr (by assumption) ?_ ?_ | (simp only [↓wf_mk]; refine wf_back ?_) | intro _ | split

theorem okeeps_execSnap : OKeeps (execSnap) := by
  first | refine okeeps_lift (fun _ _ hf => ?_) | refine okeeps_ite (okeeps_fault _) (okeeps_lift (fun _ _ hf => ?_))
  try dsimp only
  repeat' with_reducible
    first
      | apply wf_each | apply keeps_prot | apply keeps_setThr | apply keeps_theIssue | apply keeps_worldOf | exact keeps_get
      | refine keeps_getBind (fun _ hf => ?_) | refine keeps_modify (fun _ hf => ?_) | refine keeps_set ?_
      | refine keeps_bind ?_ (fun _ => ?_) | exact keeps_pure _ | exact hf | assumption | refine wf_foldl ?_ (fun _ _ hf => ?_)
      | refine wf_foldl_snd ?_ (fun _ _ hf => ?_) | refine wf_run (by assumption) ?_ ?_
      | refine wf_trapErr (by assumption) ?_ ?_ | (simp only [↓wf_mk]; refine wf_back ?_) | intro _ | split

/-! ### Launch -/

theorem wf_notify (x0 : Package) x1 (h0 : x0.wf = true) : (@Package.notify x0 x1).wf = true := by
  unfold Package.notify
  try dsimp only
  repeat' with_reducible
    first
      | exact h0 | exact hf | assumption | refine wf_foldl ?_ (fun _ _ hf => ?_) | refine wf_foldl_snd ?_ (fun _ _ hf => ?_)
      | (simp only [↓wf_mk]; refine wf_back ?_) | intro _ | split

theorem wf_journalAdd (x0 : Package) x1 x2 x3 x4 x5 x6 x7 (h0 : x0.wf = true) : (@Package.journalAdd x0 x1 x2 x3 x4 x5 x6 x7).2.wf = true := by
  unfold Package.journalAdd
  try dsimp only
  repeat' with_reducible
    first
      | exact h0 | apply wf_notify | exact hf | assumption | refine wf_foldl ?_ (fun _ _ hf => ?_)
      | refine wf_foldl_snd ?_ (fun _ _ hf => ?_) | (simp only [↓wf_mk]; refine wf_back ?_) | intro _ | split

theorem wf_commandAdd (x0 : Package) x1 x2 x3 x4 x5 (h0 : x0.wf = true) : (@Package.commandAdd x0 x1 x2 x3 x4 x5).2.wf = true := by
  unfold Package.commandAdd
  try dsimp only
  repeat' with_reducible
    first
      | exact h0 | apply wf_journalAdd | refine wf_snd (by assumption) (wf_journalAdd _ _ _ _ _ _ _ _ ?_) | exact hf
      | assumption | refine wf_foldl ?_ (fun _ _ hf => ?_) | refine wf_foldl_snd ?_ (fun _ _ hf => ?_)
      | (simp only [↓wf_mk]; refine wf_back ?_) | intro _ | split

theorem wf_journalMove (x0 : Package) x1 x2 x3 (h0 : x0.wf = true) : (@Package.journalMove x0 x1 x2 x3).wf = true := by
  unfold Package.journalMove
  try dsimp only
  repeat' with_reducible
    first
      | exact h0 | apply wf_notify | exact hf | assumption | refine wf_foldl ?_ (fun _ _ hf => ?_)
      | refine wf_foldl_snd ?_ (fun _ _ hf => ?_) | (simp only [↓wf_mk]; refine wf_back ?_) | intro _ | split

theorem wf_journalSet (x0 : Package) x1 x2 x3 x4 (h0 : x0.wf = true) : (@Package.journalSet x0 x1 x2 x3 x4).wf = true := by
  unfold Package.journalSet
  try dsimp only
  repeat' with_reducible
    first
      | exact h0 | apply wf_journalMove | exact hf | assumption | refine wf_foldl ?_ (fun _ _ hf => ?_)
      | refine wf_foldl_snd ?_ (fun _ _ hf => ?_) | (simp only [↓wf_mk]; refine wf_back ?_) | intro _ | split

theorem wf_setGrid (x0 : Package) x1 x2 (h0 : x0.wf = true) : (@Package.setGrid x0 x1 x2).wf = true := by
  unfold Package.setGrid
  try dsimp only
  repeat' with_reducible
    first
      | exact h0 | exact hf | assumption | refine wf_foldl ?_ (fun _ _ hf => ?_) | refine wf_foldl_snd ?_ (fun _ _ hf => ?_)
      | (simp only [↓wf_mk]; refine wf_back ?_) | intro _ | split

theorem wf_setQuay (x0 : Package) x1 x2 (h0 : x0.wf = true) : (@Package.setQuay x0 x1 x2).wf = true := by
  unfold Package.setQuay
  try dsimp only
  repeat' with_reducible
    first
      | exact h0 | exact hf | assumption | refine wf_foldl ?_ (fun _ _ hf => ?_) | refine wf_foldl_snd ?_ (fun _ _ hf => ?_)
      | (simp only [↓wf_mk]; refine wf_back ?_) | intro _ | split

theorem wf_setProgress (x0 : Package) x1 x2 x3 (h0 : x0.wf = true) : (@Package.setProgress x0 x1 x2 x3).wf = true := by
  unfold Package.setProgress
  try dsimp only
  repeat' with_reducible
    first
      | exact h0 | apply wf_poke | apply wf_setGrid | exact hf | assumption | refine wf_foldl ?_ (fun _ _ hf => ?_)
      | refine wf_foldl_snd ?_ (fun _ _ hf => ?_) | (simp only [↓wf_mk]; refine wf_back ?_) | intro _ | split

theorem wf_gridLess (x0 : Package) x1 (h0 : x0.wf = true) : (@Package.gridLess x0 x1).wf = true := by
  unfold Package.gridLess
  try dsimp only
  repeat' with_reducible
    first
      | exact h0 | apply wf_setProgress | exact hf | assumption | refine wf_foldl ?_ (fun _ _ hf => ?_)
      | refine wf_foldl_snd ?_ (fun _ _ hf => ?_) | (simp only [↓wf_mk]; refine wf_back ?_) | intro _ | split

theorem wf_takeSeq (x0 : Package) x1 x2 (h0 : x0.wf = true) : (@Package.takeSeq x0 x1 x2).2.wf = true := by
  unfold Package.takeSeq
  try dsimp only
  repeat' with_reducible
    first
      | exact h0 | exact hf | assumption | refine wf_foldl ?_ (fun _ _ hf => ?_) | refine wf_foldl_snd ?_ (fun _ _ hf => ?_)
      | (simp only [↓wf_mk]; refine wf_back ?_) | intro _ | split

theorem wf_acceptRecord (x0 : Package) x1 x2 x3 x4 x5 x6 x7 x8 (h0 : x0.wf = true) : (@Package.acceptRecord x0 x1 x2 x3 x4 x5 x6 x7 x8).wf = true := by
  unfold Package.acceptRecord
  try dsimp only
  repeat' with_reducible
    first
      | exact h0 | apply wf_setQuay | apply wf_fresh | refine wf_snd (by assumption) (wf_fresh _ ?_) | apply wf_journalAdd
      | refine wf_snd (by assumption) (wf_journalAdd _ _ _ _ _ _ _ _ ?_) | apply wf_takeSeq
      | refine wf_snd (by assumption) (wf_takeSeq _ _ _ ?_) | exact hf | assumption | refine wf_foldl ?_ (fun _ _ hf => ?_)
      | refine wf_foldl_snd ?_ (fun _ _ hf => ?_) | (simp only [↓wf_mk]; refine wf_back ?_) | intro _ | split

theorem wf_pushRecord (x0 : Package) x1 x2 x3 x4 x5 x6 (h0 : x0.wf = true) : (@Package.pushRecord x0 x1 x2 x3 x4 x5 x6).wf = true := by
  unfold Package.pushRecord
  try dsimp only
  repeat' with_reducible
    first
      | exact h0 | apply wf_acceptRecord | apply wf_poke | exact hf | assumption | refine wf_foldl ?_ (fun _ _ hf => ?_)
      | refine wf_foldl_snd ?_ (fun _ _ hf => ?_) | (simp only [↓wf_mk]; refine wf_back ?_) | intro _ | split

theorem keeps_readDesc x0 x1 x2 : Keeps (@readDesc x0 x1 x2) := by
  unfold readDesc
  try dsimp only
  repeat' with_reducible
    first
      | exact keeps_pure _ | exact keeps_get | apply keeps_loadNow | refine keeps_modifyGet (fun _ hf => ?_)
      | refine keeps_modify (fun _ hf => ?_) | refine keeps_getBind (fun _ hf => ?_) | refine keeps_set ?_
      | refine keeps_bind ?_ (fun _ => ?_) | exact hf | assumption | refine wf_foldl ?_ (fun _ _ hf => ?_)
      | refine wf_foldl_snd ?_ (fun _ _ hf => ?_) | refine wf_run (by assumption) ?_ ?_
      | refine wf_trapErr (by assumption) ?_ ?_ | (simp only [↓wf_mk]; refine wf_back ?_) | intro _ | split

theorem keeps_readRecord x0 x1 x2 x3 x4 : Keeps (@readRecord x0 x1 x2 x3 x4) := by
  unfold readRecord
  try dsimp only
  repeat' with_reducible
    first
      | exact keeps_pure _ | exact keeps_get | apply keeps_fenceAt | apply keeps_loadNow | apply keeps_prot
      | apply keeps_readField | apply keeps_trap | apply keeps_worldOf | refine keeps_modifyGet (fun _ hf => ?_)
      | refine keeps_modify (fun _ hf => ?_) | refine keeps_getBind (fun _ hf => ?_) | refine keeps_set ?_
      | refine keeps_bind ?_ (fun _ => ?_) | exact hf | assumption | refine wf_foldl ?_ (fun _ _ hf => ?_)
      | refine wf_foldl_snd ?_ (fun _ _ hf => ?_) | refine wf_run (by assumption) ?_ ?_
      | refine wf_trapErr (by assumption) ?_ ?_ | (simp only [↓wf_mk]; refine wf_back ?_) | intro _ | split

theorem keeps_checkRecord x0 x1 x2 x3 x4 x5 : Keeps (@checkRecord x0 x1 x2 x3 x4 x5) := by
  unfold checkRecord
  try dsimp only
  repeat' with_reducible
    first
      | exact keeps_pure _ | exact keeps_get | apply keeps_ceilingOf | apply keeps_maskOf | apply keeps_prot
      | apply keeps_readDesc | apply keeps_resultLabel | apply keeps_teamOf | apply keeps_trap
      | refine keeps_modifyGet (fun _ hf => ?_) | refine keeps_modify (fun _ hf => ?_) | refine keeps_getBind (fun _ hf => ?_)
      | refine keeps_set ?_ | refine keeps_bind ?_ (fun _ => ?_) | exact hf | assumption
      | refine wf_foldl ?_ (fun _ _ hf => ?_) | refine wf_foldl_snd ?_ (fun _ _ hf => ?_) | refine wf_run (by assumption) ?_ ?_
      | refine wf_trapErr (by assumption) ?_ ?_ | (simp only [↓wf_mk]; refine wf_back ?_) | intro _ | split

theorem wf_setJoin (x0 : Package) x1 x2 (h0 : x0.wf = true) : (@Package.setJoin x0 x1 x2).wf = true := by
  unfold Package.setJoin
  try dsimp only
  repeat' with_reducible
    first
      | exact h0 | apply wf_poke | apply wf_setTeam | exact hf | assumption | refine wf_foldl ?_ (fun _ _ hf => ?_)
      | refine wf_foldl_snd ?_ (fun _ _ hf => ?_) | (simp only [↓wf_mk]; refine wf_back ?_) | intro _ | split

theorem okeeps_execLaunch x0 x1 x2 : OKeeps (@execLaunch x0 x1 x2) := by
  first | refine okeeps_lift (fun _ _ hf => ?_) | refine okeeps_ite (okeeps_fault _) (okeeps_lift (fun _ _ hf => ?_))
  try dsimp only
  repeat' with_reducible
    first
      | apply wf_pushRecord | apply wf_setJoin | apply wf_each | apply keeps_await | apply keeps_checkFields
      | apply keeps_checkRecord | apply keeps_noRegion | apply keeps_prot | apply keeps_readRecord | apply keeps_teamOf
      | apply keeps_trap | exact keeps_get | refine keeps_getBind (fun _ hf => ?_) | refine keeps_modify (fun _ hf => ?_)
      | refine keeps_set ?_ | refine keeps_bind ?_ (fun _ => ?_) | exact keeps_pure _ | exact hf | assumption
      | refine wf_foldl ?_ (fun _ _ hf => ?_) | refine wf_foldl_snd ?_ (fun _ _ hf => ?_) | refine wf_run (by assumption) ?_ ?_
      | refine wf_trapErr (by assumption) ?_ ?_ | (simp only [↓wf_mk]; refine wf_back ?_) | intro _ | split

theorem okeeps_execCont x0 x1 x2 : OKeeps (@execCont x0 x1 x2) := by
  first | refine okeeps_lift (fun _ _ hf => ?_) | refine okeeps_ite (okeeps_fault _) (okeeps_lift (fun _ _ hf => ?_))
  try dsimp only
  repeat' with_reducible
    first
      | apply wf_eachById | apply keeps_await | apply keeps_checkFields | apply keeps_checkRecord | apply keeps_noRegion
      | apply keeps_readRecord | apply keeps_setTeam | exact keeps_get | refine keeps_getBind (fun _ hf => ?_)
      | refine keeps_modify (fun _ hf => ?_) | refine keeps_set ?_ | refine keeps_bind ?_ (fun _ => ?_) | exact keeps_pure _
      | exact hf | assumption | refine wf_foldl ?_ (fun _ _ hf => ?_) | refine wf_foldl_snd ?_ (fun _ _ hf => ?_)
      | refine wf_run (by assumption) ?_ ?_ | refine wf_trapErr (by assumption) ?_ ?_ | (simp only [↓wf_mk]; refine wf_back ?_)
      | intro _ | split

theorem okeeps_execKillTeam : OKeeps (execKillTeam) := by
  first | refine okeeps_lift (fun _ _ hf => ?_) | refine okeeps_ite (okeeps_fault _) (okeeps_lift (fun _ _ hf => ?_))
  try dsimp only
  repeat' with_reducible
    first
      | apply wf_endClause | apply wf_killTeam | exact hf | assumption | refine wf_foldl ?_ (fun _ _ hf => ?_)
      | refine wf_foldl_snd ?_ (fun _ _ hf => ?_) | (simp only [↓wf_mk]; refine wf_back ?_) | intro _ | split

theorem wf_killGrid (x0 : Package) x1 x2 (h0 : x0.wf = true) : (@Package.killGrid x0 x1 x2).wf = true := by
  unfold Package.killGrid
  try dsimp only
  repeat' with_reducible
    first
      | exact h0 | apply wf_journalSet | apply wf_killTeam | apply wf_setGrid | apply wf_setProgress | apply wf_setQuay
      | exact hf | assumption | refine wf_foldl ?_ (fun _ _ hf => ?_) | refine wf_foldl_snd ?_ (fun _ _ hf => ?_)
      | (simp only [↓wf_mk]; refine wf_back ?_) | intro _ | split

theorem okeeps_execKillGrid : OKeeps (execKillGrid) := by
  first | refine okeeps_lift (fun _ _ hf => ?_) | refine okeeps_ite (okeeps_fault _) (okeeps_lift (fun _ _ hf => ?_))
  try dsimp only
  repeat' with_reducible
    first
      | apply wf_endClause | apply wf_killGrid | apply wf_killTeam | exact hf | assumption
      | refine wf_foldl ?_ (fun _ _ hf => ?_) | refine wf_foldl_snd ?_ (fun _ _ hf => ?_)
      | (simp only [↓wf_mk]; refine wf_back ?_) | intro _ | split

theorem wf_wake (x0 : Package) x1 (h0 : x0.wf = true) : (@Package.wake x0 x1).wf = true := by
  unfold Package.wake
  try dsimp only
  repeat' with_reducible
    first
      | exact h0 | exact hf | assumption | refine wf_foldl ?_ (fun _ _ hf => ?_) | refine wf_foldl_snd ?_ (fun _ _ hf => ?_)
      | (simp only [↓wf_mk]; refine wf_back ?_) | intro _ | split

theorem wf_unstall (x0 : Package) x1 (h0 : x0.wf = true) : (@Package.unstall x0 x1).wf = true := by
  unfold Package.unstall
  try dsimp only
  repeat' with_reducible
    first
      | exact h0 | exact hf | assumption | refine wf_foldl ?_ (fun _ _ hf => ?_) | refine wf_foldl_snd ?_ (fun _ _ hf => ?_)
      | (simp only [↓wf_mk]; refine wf_back ?_) | intro _ | split

theorem okeeps_execQuayQueueRoom x0 : OKeeps (@execQuayQueueRoom x0) := by
  first | refine okeeps_lift (fun _ _ hf => ?_) | refine okeeps_ite (okeeps_fault _) (okeeps_lift (fun _ _ hf => ?_))
  try dsimp only
  repeat' with_reducible
    first
      | apply wf_unstall | exact hf | assumption | refine wf_foldl ?_ (fun _ _ hf => ?_)
      | refine wf_foldl_snd ?_ (fun _ _ hf => ?_) | (simp only [↓wf_mk]; refine wf_back ?_) | intro _ | split

theorem wf_raiseCounts (x0 : Package) x1 x2 (h0 : x0.wf = true) : (@Package.raiseCounts x0 x1 x2).wf = true := by
  unfold Package.raiseCounts
  try dsimp only
  repeat' with_reducible
    first
      | exact h0 | exact hf | assumption | refine wf_foldl ?_ (fun _ _ hf => ?_) | refine wf_foldl_snd ?_ (fun _ _ hf => ?_)
      | (simp only [↓wf_mk]; refine wf_back ?_) | intro _ | split

theorem wf_freeTag (x0 : Package) (h0 : x0.wf = true) : (@Package.freeTag x0).2.wf = true := by
  unfold Package.freeTag
  try dsimp only
  repeat' with_reducible
    first
      | exact h0 | apply wf_pick | refine wf_snd (by assumption) (wf_pick _ _ ?_) | exact hf | assumption
      | refine wf_foldl ?_ (fun _ _ hf => ?_) | refine wf_foldl_snd ?_ (fun _ _ hf => ?_)
      | (simp only [↓wf_mk]; refine wf_back ?_) | intro _ | split

theorem wf_startTeam (x0 : Package) x1 x2 x3 (h0 : x0.wf = true) : (@Package.startTeam x0 x1 x2 x3).wf = true := by
  unfold Package.startTeam
  try dsimp only
  repeat' with_reducible
    first
      | exact h0 | apply wf_fileAll | apply wf_poke | apply wf_setWorld | apply wf_freeTag
      | refine wf_snd (by assumption) (wf_freeTag _ ?_) | exact hf | assumption | refine wf_foldl ?_ (fun _ _ hf => ?_)
      | refine wf_foldl_snd ?_ (fun _ _ hf => ?_) | (simp only [↓wf_mk]; refine wf_back ?_) | intro _ | split

theorem okeeps_execDispatchDecision x0 : OKeeps (@execDispatchDecision x0) := by
  first | refine okeeps_lift (fun _ _ hf => ?_) | refine okeeps_ite (okeeps_fault _) (okeeps_lift (fun _ _ hf => ?_))
  try dsimp only
  repeat' with_reducible
    first
      | apply wf_journalSet | apply wf_raiseCounts | apply wf_setGrid | apply wf_setProgress | apply wf_setQuay
      | apply wf_startTeam | exact hf | assumption | refine wf_foldl ?_ (fun _ _ hf => ?_)
      | refine wf_foldl_snd ?_ (fun _ _ hf => ?_) | (simp only [↓wf_mk]; refine wf_back ?_) | intro _ | split

theorem wf_gridDone (x0 : Package) x1 (h0 : x0.wf = true) : (@Package.gridDone x0 x1).wf = true := by
  unfold Package.gridDone
  try dsimp only
  repeat' with_reducible
    first
      | exact h0 | apply wf_journalSet | apply wf_setJoin | exact hf | assumption | refine wf_foldl ?_ (fun _ _ hf => ?_)
      | refine wf_foldl_snd ?_ (fun _ _ hf => ?_) | (simp only [↓wf_mk]; refine wf_back ?_) | intro _ | split

theorem wf_fireChunk (x0 : Package) x1 x2 (h0 : x0.wf = true) : (@Package.fireChunk x0 x1 x2).wf = true := by
  unfold Package.fireChunk
  try dsimp only
  repeat' with_reducible
    first
      | exact h0 | apply wf_fresh | refine wf_snd (by assumption) (wf_fresh _ ?_) | exact hf | assumption
      | refine wf_foldl ?_ (fun _ _ hf => ?_) | refine wf_foldl_snd ?_ (fun _ _ hf => ?_)
      | (simp only [↓wf_mk]; refine wf_back ?_) | intro _ | split

theorem wf_restoreSparse (x0 : Package) x1 (h0 : x0.wf = true) : (@Package.restoreSparse x0 x1).wf = true := by
  unfold Package.restoreSparse
  try dsimp only
  repeat' with_reducible
    first
      | exact h0 | apply wf_setTeam | exact hf | assumption | refine wf_foldl ?_ (fun _ _ hf => ?_)
      | refine wf_foldl_snd ?_ (fun _ _ hf => ?_) | (simp only [↓wf_mk]; refine wf_back ?_) | intro _ | split

theorem wf_restoreAll (x0 : Package) (h0 : x0.wf = true) : (@Package.restoreAll x0).wf = true := by
  unfold Package.restoreAll
  try dsimp only
  repeat' with_reducible
    first
      | exact h0 | apply wf_restoreSparse | exact hf | assumption | refine wf_foldl ?_ (fun _ _ hf => ?_)
      | refine wf_foldl_snd ?_ (fun _ _ hf => ?_) | (simp only [↓wf_mk]; refine wf_back ?_) | intro _ | split

theorem wf_dropTeam (x0 : Package) x1 (h0 : x0.wf = true) : (@Package.dropTeam x0 x1).wf = true := by
  unfold Package.dropTeam
  try dsimp only
  repeat' with_reducible
    first
      | exact h0 | apply wf_restoreAll | exact hf | assumption | refine wf_foldl ?_ (fun _ _ hf => ?_)
      | refine wf_foldl_snd ?_ (fun _ _ hf => ?_) | (simp only [↓wf_mk]; refine wf_back ?_) | intro _ | split

theorem okeeps_execTeamRetire x0 : OKeeps (@execTeamRetire x0) := by
  first | refine okeeps_lift (fun _ _ hf => ?_) | refine okeeps_ite (okeeps_fault _) (okeeps_lift (fun _ _ hf => ?_))
  try dsimp only
  repeat' with_reducible
    first
      | apply wf_dropTeam | apply wf_fireChunk | apply wf_gridDone | apply wf_gridLess | apply wf_pushRecord | exact hf
      | assumption | refine wf_foldl ?_ (fun _ _ hf => ?_) | refine wf_foldl_snd ?_ (fun _ _ hf => ?_)
      | (simp only [↓wf_mk]; refine wf_back ?_) | intro _ | split

theorem wf_systemLabels {p q : Package} {ls : List (Nat × Nat)} {gs : List (Nat × Lbl)} (hq : p.systemLabels ls = some (gs, q))
    (h : p.wf = true) : q.wf = true := by
  induction ls generalizing p gs with
  | nil => cases hq; exact h
  | cons x xs ih =>
    unfold Package.systemLabels at hq
    split at hq
    · cases hq
    · next hl =>
      simp only [Option.map_eq_some_iff, Prod.mk.injEq, Prod.exists] at hq
      obtain ⟨_, _, hr, -, rfl⟩ := hq
      exact ih hr (wf_labelFor hl h)

theorem wf_systemWrite {p : Package} {m : Placement} {r : Nat × Package} (hr : p.systemWrite m = some r) (h : p.wf = true) :
    r.2.wf = true := by
  unfold Package.systemWrite at hr
  simp only [Option.map_eq_some_iff, Prod.exists] at hr
  obtain ⟨_, _, hl, rfl⟩ := hr
  refine wf_foldl_snd (wf_systemLabels hl h) (fun _ _ hf => ?_)
  dsimp only
  apply wf_noteWct
  exact hf

theorem wf_systemWriteOr {p : Package} {m : Placement} (h : p.wf = true) : (((p.systemWrite m).map (·.2)).getD p).wf = true := by
  cases hr : p.systemWrite m with
  | none => exact h
  | some r => exact wf_systemWrite hr h

theorem wf_written {p q : Package} {m : Placement} {t : Nat} (hr : p.systemWrite m = some (t, q)) (h : p.wf = true) : q.wf = true :=
  wf_systemWrite hr h

theorem wf_labelsFull (x0 : Package) (h0 : x0.wf = true) : (@Package.labelsFull x0).wf = true := by
  unfold Package.labelsFull
  try dsimp only
  repeat' with_reducible
    first
      | exact h0 | apply wf_interrupt | exact hf | assumption | refine wf_foldl ?_ (fun _ _ hf => ?_)
      | refine wf_foldl_snd ?_ (fun _ _ hf => ?_) | (simp only [↓wf_mk]; refine wf_back ?_) | intro _ | split

theorem okeeps_execLaunchCommand x0 x1 x2 x3 x4 : OKeeps (@execLaunchCommand x0 x1 x2 x3 x4) := by
  first | refine okeeps_lift (fun _ _ hf => ?_) | refine okeeps_ite (okeeps_fault _) (okeeps_lift (fun _ _ hf => ?_))
  try dsimp only
  repeat' with_reducible
    first
      | refine wf_written (by assumption) ?_ | apply wf_acceptRecord | apply wf_labelsFull
      | refine wf_systemWrite (by assumption) ?_ | apply wf_commandAdd
      | refine wf_snd (by assumption) (wf_commandAdd _ _ _ _ _ _ ?_) | exact hf | assumption
      | refine wf_foldl ?_ (fun _ _ hf => ?_) | refine wf_foldl_snd ?_ (fun _ _ hf => ?_)
      | (simp only [↓wf_mk]; refine wf_back ?_) | intro _ | split

/-! ### Float -/

theorem okeeps_execFadd x0 : OKeeps (@execFadd x0) := by
  first | refine okeeps_lift (fun _ _ hf => ?_) | refine okeeps_ite (okeeps_fault _) (okeeps_lift (fun _ _ hf => ?_))
  try dsimp only
  repeat' with_reducible
    first
      | apply wf_each | apply keeps_fpu2 | exact keeps_get | refine keeps_getBind (fun _ hf => ?_)
      | refine keeps_modify (fun _ hf => ?_) | refine keeps_set ?_ | refine keeps_bind ?_ (fun _ => ?_) | exact keeps_pure _
      | exact hf | assumption | refine wf_foldl ?_ (fun _ _ hf => ?_) | refine wf_foldl_snd ?_ (fun _ _ hf => ?_)
      | refine wf_run (by assumption) ?_ ?_ | refine wf_trapErr (by assumption) ?_ ?_ | (simp only [↓wf_mk]; refine wf_back ?_)
      | intro _ | split

theorem okeeps_execFmul x0 : OKeeps (@execFmul x0) := by
  first | refine okeeps_lift (fun _ _ hf => ?_) | refine okeeps_ite (okeeps_fault _) (okeeps_lift (fun _ _ hf => ?_))
  try dsimp only
  repeat' with_reducible
    first
      | apply wf_each | apply keeps_fpu2 | exact keeps_get | refine keeps_getBind (fun _ hf => ?_)
      | refine keeps_modify (fun _ hf => ?_) | refine keeps_set ?_ | refine keeps_bind ?_ (fun _ => ?_) | exact keeps_pure _
      | exact hf | assumption | refine wf_foldl ?_ (fun _ _ hf => ?_) | refine wf_foldl_snd ?_ (fun _ _ hf => ?_)
      | refine wf_run (by assumption) ?_ ?_ | refine wf_trapErr (by assumption) ?_ ?_ | (simp only [↓wf_mk]; refine wf_back ?_)
      | intro _ | split

theorem okeeps_execFfma x0 : OKeeps (@execFfma x0) := by
  first | refine okeeps_lift (fun _ _ hf => ?_) | refine okeeps_ite (okeeps_fault _) (okeeps_lift (fun _ _ hf => ?_))
  try dsimp only
  repeat' with_reducible
    first
      | apply wf_each | apply keeps_fpu3 | exact keeps_get | refine keeps_getBind (fun _ hf => ?_)
      | refine keeps_modify (fun _ hf => ?_) | refine keeps_set ?_ | refine keeps_bind ?_ (fun _ => ?_) | exact keeps_pure _
      | exact hf | assumption | refine wf_foldl ?_ (fun _ _ hf => ?_) | refine wf_foldl_snd ?_ (fun _ _ hf => ?_)
      | refine wf_run (by assumption) ?_ ?_ | refine wf_trapErr (by assumption) ?_ ?_ | (simp only [↓wf_mk]; refine wf_back ?_)
      | intro _ | split

theorem okeeps_execFmin x0 : OKeeps (@execFmin x0) := by
  first | refine okeeps_lift (fun _ _ hf => ?_) | refine okeeps_ite (okeeps_fault _) (okeeps_lift (fun _ _ hf => ?_))
  try dsimp only
  repeat' with_reducible
    first
      | apply wf_each | apply keeps_fpu2 | exact keeps_get | refine keeps_getBind (fun _ hf => ?_)
      | refine keeps_modify (fun _ hf => ?_) | refine keeps_set ?_ | refine keeps_bind ?_ (fun _ => ?_) | exact keeps_pure _
      | exact hf | assumption | refine wf_foldl ?_ (fun _ _ hf => ?_) | refine wf_foldl_snd ?_ (fun _ _ hf => ?_)
      | refine wf_run (by assumption) ?_ ?_ | refine wf_trapErr (by assumption) ?_ ?_ | (simp only [↓wf_mk]; refine wf_back ?_)
      | intro _ | split

theorem okeeps_execFmax x0 : OKeeps (@execFmax x0) := by
  first | refine okeeps_lift (fun _ _ hf => ?_) | refine okeeps_ite (okeeps_fault _) (okeeps_lift (fun _ _ hf => ?_))
  try dsimp only
  repeat' with_reducible
    first
      | apply wf_each | apply keeps_fpu2 | exact keeps_get | refine keeps_getBind (fun _ hf => ?_)
      | refine keeps_modify (fun _ hf => ?_) | refine keeps_set ?_ | refine keeps_bind ?_ (fun _ => ?_) | exact keeps_pure _
      | exact hf | assumption | refine wf_foldl ?_ (fun _ _ hf => ?_) | refine wf_foldl_snd ?_ (fun _ _ hf => ?_)
      | refine wf_run (by assumption) ?_ ?_ | refine wf_trapErr (by assumption) ?_ ?_ | (simp only [↓wf_mk]; refine wf_back ?_)
      | intro _ | split

theorem okeeps_execFcmp x0 : OKeeps (@execFcmp x0) := by
  first | refine okeeps_lift (fun _ _ hf => ?_) | refine okeeps_ite (okeeps_fault _) (okeeps_lift (fun _ _ hf => ?_))
  try dsimp only
  repeat' with_reducible
    first
      | apply wf_each | apply keeps_checkFields | apply keeps_raiseFp | apply keeps_readB | apply keeps_readField
      | apply keeps_resultLabel | apply keeps_writePred | exact keeps_get | refine keeps_getBind (fun _ hf => ?_)
      | refine keeps_modify (fun _ hf => ?_) | refine keeps_set ?_ | refine keeps_bind ?_ (fun _ => ?_) | exact keeps_pure _
      | exact hf | assumption | refine wf_foldl ?_ (fun _ _ hf => ?_) | refine wf_foldl_snd ?_ (fun _ _ hf => ?_)
      | refine wf_run (by assumption) ?_ ?_ | refine wf_trapErr (by assumption) ?_ ?_ | (simp only [↓wf_mk]; refine wf_back ?_)
      | intro _ | split

theorem okeeps_execFrnd x0 x1 : OKeeps (@execFrnd x0 x1) := by
  first | refine okeeps_lift (fun _ _ hf => ?_) | refine okeeps_ite (okeeps_fault _) (okeeps_lift (fun _ _ hf => ?_))
  try dsimp only
  repeat' with_reducible
    first
      | apply wf_each | apply keeps_checkFields | apply keeps_raiseFp | apply keeps_readB | apply keeps_resultLabel
      | apply keeps_rmode | apply keeps_vout | exact keeps_get | refine keeps_getBind (fun _ hf => ?_)
      | refine keeps_modify (fun _ hf => ?_) | refine keeps_set ?_ | refine keeps_bind ?_ (fun _ => ?_) | exact keeps_pure _
      | exact hf | assumption | refine wf_foldl ?_ (fun _ _ hf => ?_) | refine wf_foldl_snd ?_ (fun _ _ hf => ?_)
      | refine wf_run (by assumption) ?_ ?_ | refine wf_trapErr (by assumption) ?_ ?_ | (simp only [↓wf_mk]; refine wf_back ?_)
      | intro _ | split

theorem keeps_eft x0 x1 x2 : Keeps (@eft x0 x1 x2) := by
  unfold eft
  try dsimp only
  repeat' with_reducible
    first
      | exact keeps_pure _ | exact keeps_get | apply keeps_checkFields | apply keeps_raiseFp | apply keeps_readB
      | apply keeps_readField | apply keeps_resultLabel | apply keeps_vout | refine keeps_modifyGet (fun _ hf => ?_)
      | refine keeps_modify (fun _ hf => ?_) | refine keeps_getBind (fun _ hf => ?_) | refine keeps_set ?_
      | refine keeps_bind ?_ (fun _ => ?_) | exact hf | assumption | refine wf_foldl ?_ (fun _ _ hf => ?_)
      | refine wf_foldl_snd ?_ (fun _ _ hf => ?_) | refine wf_run (by assumption) ?_ ?_
      | refine wf_trapErr (by assumption) ?_ ?_ | (simp only [↓wf_mk]; refine wf_back ?_) | intro _ | split

theorem okeeps_execTwosum x0 : OKeeps (@execTwosum x0) := by
  first | refine okeeps_lift (fun _ _ hf => ?_) | refine okeeps_ite (okeeps_fault _) (okeeps_lift (fun _ _ hf => ?_))
  try dsimp only
  repeat' with_reducible
    first
      | apply wf_each | apply keeps_eft | exact keeps_get | refine keeps_getBind (fun _ hf => ?_)
      | refine keeps_modify (fun _ hf => ?_) | refine keeps_set ?_ | refine keeps_bind ?_ (fun _ => ?_) | exact keeps_pure _
      | exact hf | assumption | refine wf_foldl ?_ (fun _ _ hf => ?_) | refine wf_foldl_snd ?_ (fun _ _ hf => ?_)
      | refine wf_run (by assumption) ?_ ?_ | refine wf_trapErr (by assumption) ?_ ?_ | (simp only [↓wf_mk]; refine wf_back ?_)
      | intro _ | split

theorem okeeps_execTwoprd x0 : OKeeps (@execTwoprd x0) := by
  first | refine okeeps_lift (fun _ _ hf => ?_) | refine okeeps_ite (okeeps_fault _) (okeeps_lift (fun _ _ hf => ?_))
  try dsimp only
  repeat' with_reducible
    first
      | apply wf_each | apply keeps_eft | exact keeps_get | refine keeps_getBind (fun _ hf => ?_)
      | refine keeps_modify (fun _ hf => ?_) | refine keeps_set ?_ | refine keeps_bind ?_ (fun _ => ?_) | exact keeps_pure _
      | exact hf | assumption | refine wf_foldl ?_ (fun _ _ hf => ?_) | refine wf_foldl_snd ?_ (fun _ _ hf => ?_)
      | refine wf_run (by assumption) ?_ ?_ | refine wf_trapErr (by assumption) ?_ ?_ | (simp only [↓wf_mk]; refine wf_back ?_)
      | intro _ | split

theorem okeeps_execCfma x0 x1 x2 : OKeeps (@execCfma x0 x1 x2) := by
  first | refine okeeps_lift (fun _ _ hf => ?_) | refine okeeps_ite (okeeps_fault _) (okeeps_lift (fun _ _ hf => ?_))
  try dsimp only
  repeat' with_reducible
    first
      | apply wf_each | apply keeps_checkFields | apply keeps_raiseFp | apply keeps_readField | apply keeps_resultLabel
      | apply keeps_rmode | apply keeps_vout | exact keeps_get | refine keeps_getBind (fun _ hf => ?_)
      | refine keeps_modify (fun _ hf => ?_) | refine keeps_set ?_ | refine keeps_bind ?_ (fun _ => ?_) | exact keeps_pure _
      | exact hf | assumption | refine wf_foldl ?_ (fun _ _ hf => ?_) | refine wf_foldl_snd ?_ (fun _ _ hf => ?_)
      | refine wf_run (by assumption) ?_ ?_ | refine wf_trapErr (by assumption) ?_ ?_ | (simp only [↓wf_mk]; refine wf_back ?_)
      | intro _ | split

/-! ### Convert -/

theorem okeeps_execCvt x0 x1 x2 : OKeeps (@execCvt x0 x1 x2) := by
  first | refine okeeps_lift (fun _ _ hf => ?_) | refine okeeps_ite (okeeps_fault _) (okeeps_lift (fun _ _ hf => ?_))
  try dsimp only
  repeat' with_reducible
    first
      | apply wf_each | apply keeps_checkFields | apply keeps_maskOf | apply keeps_raiseFp | apply keeps_readB
      | apply keeps_readField | apply keeps_resultLabel | apply keeps_rmode | apply keeps_setThr | apply keeps_thr
      | apply keeps_vout | exact keeps_get | refine keeps_getBind (fun _ hf => ?_) | refine keeps_modify (fun _ hf => ?_)
      | refine keeps_set ?_ | refine keeps_bind ?_ (fun _ => ?_) | exact keeps_pure _ | exact hf | assumption
      | refine wf_foldl ?_ (fun _ _ hf => ?_) | refine wf_foldl_snd ?_ (fun _ _ hf => ?_) | refine wf_run (by assumption) ?_ ?_
      | refine wf_trapErr (by assumption) ?_ ?_ | (simp only [↓wf_mk]; refine wf_back ?_) | intro _ | split

theorem okeeps_execQunpk x0 x1 x2 x3 x4 x5 : OKeeps (@execQunpk x0 x1 x2 x3 x4 x5) := by
  first | refine okeeps_lift (fun _ _ hf => ?_) | refine okeeps_ite (okeeps_fault _) (okeeps_lift (fun _ _ hf => ?_))
  try dsimp only
  repeat' with_reducible
    first
      | apply wf_each | apply keeps_checkFields | apply keeps_readField | apply keeps_resultLabel | apply keeps_vout
      | exact keeps_get | refine keeps_getBind (fun _ hf => ?_) | refine keeps_modify (fun _ hf => ?_) | refine keeps_set ?_
      | refine keeps_bind ?_ (fun _ => ?_) | exact keeps_pure _ | exact hf | assumption | refine wf_foldl ?_ (fun _ _ hf => ?_)
      | refine wf_foldl_snd ?_ (fun _ _ hf => ?_) | refine wf_run (by assumption) ?_ ?_
      | refine wf_trapErr (by assumption) ?_ ?_ | (simp only [↓wf_mk]; refine wf_back ?_) | intro _ | split

theorem okeeps_execQpack x0 x1 x2 x3 : OKeeps (@execQpack x0 x1 x2 x3) := by
  first | refine okeeps_lift (fun _ _ hf => ?_) | refine okeeps_ite (okeeps_fault _) (okeeps_lift (fun _ _ hf => ?_))
  try dsimp only
  repeat' with_reducible
    first
      | apply wf_each | apply keeps_checkFields | apply keeps_maskOf | apply keeps_raiseFp | apply keeps_readField
      | apply keeps_resultLabel | apply keeps_rmode | apply keeps_setThr | apply keeps_thr | apply keeps_vout | exact keeps_get
      | refine keeps_getBind (fun _ hf => ?_) | refine keeps_modify (fun _ hf => ?_) | refine keeps_set ?_
      | refine keeps_bind ?_ (fun _ => ?_) | exact keeps_pure _ | exact hf | assumption | refine wf_foldl ?_ (fun _ _ hf => ?_)
      | refine wf_foldl_snd ?_ (fun _ _ hf => ?_) | refine wf_run (by assumption) ?_ ?_
      | refine wf_trapErr (by assumption) ?_ ?_ | (simp only [↓wf_mk]; refine wf_back ?_) | intro _ | split

/-! ### Lathe -/

theorem okeeps_execSign x0 x1 : OKeeps (@execSign x0 x1) := by
  first | refine okeeps_lift (fun _ _ hf => ?_) | refine okeeps_ite (okeeps_fault _) (okeeps_lift (fun _ _ hf => ?_))
  try dsimp only
  repeat' with_reducible
    first
      | apply wf_each | apply keeps_await | apply keeps_prot | apply keeps_readSreg | apply keeps_setTeam | apply keeps_teamOf
      | exact keeps_get | refine keeps_getBind (fun _ hf => ?_) | refine keeps_modify (fun _ hf => ?_) | refine keeps_set ?_
      | refine keeps_bind ?_ (fun _ => ?_) | exact keeps_pure _ | exact hf | assumption | refine wf_foldl ?_ (fun _ _ hf => ?_)
      | refine wf_foldl_snd ?_ (fun _ _ hf => ?_) | refine wf_run (by assumption) ?_ ?_
      | refine wf_trapErr (by assumption) ?_ ?_ | (simp only [↓wf_mk]; refine wf_back ?_) | intro _ | split

theorem keeps_fieldRegs x0 x1 x2 : Keeps (@fieldRegs x0 x1 x2) := by
  unfold fieldRegs
  try dsimp only
  repeat' with_reducible
    first
      | exact keeps_pure _ | exact keeps_get | apply keeps_resolve | apply keeps_teamOf | apply keeps_thr
      | refine keeps_modifyGet (fun _ hf => ?_) | refine keeps_modify (fun _ hf => ?_) | refine keeps_getBind (fun _ hf => ?_)
      | refine keeps_set ?_ | refine keeps_bind ?_ (fun _ => ?_) | exact hf | assumption
      | refine wf_foldl ?_ (fun _ _ hf => ?_) | refine wf_foldl_snd ?_ (fun _ _ hf => ?_) | refine wf_run (by assumption) ?_ ?_
      | refine wf_trapErr (by assumption) ?_ ?_ | (simp only [↓wf_mk]; refine wf_back ?_) | intro _ | split

theorem keeps_signRound (w : Who) (k : Nat) (op : LatheOp) {mk : PM Signature} (h : Keeps mk) : Keeps (signRound w k op mk) := by
  unfold signRound
  dsimp only
  repeat' with_reducible
    first
      | exact h | apply keeps_theIssue | apply keeps_teamOf | apply keeps_prot | apply keeps_waitFor | apply keeps_setTeam
      | refine keeps_bind ?_ (fun _ => ?_) | split

theorem keeps_latheBody (fields : List FieldUse) (k : Nat) (op : LatheOp) {mk : Who → PM Signature} (h : ∀ w, Keeps (mk w)) (w : Who) :
    Keeps (latheBody fields k op mk w) := by
  unfold latheBody
  try dsimp only
  repeat' with_reducible
    first
      | exact h _ | apply keeps_prot | apply keeps_checkFields | (apply keeps_signRound; apply h)
      | refine keeps_bind ?_ (fun _ => ?_) | split

theorem keeps_signature x0 x1 x2 x3 x4 x5 : Keeps (@signature x0 x1 x2 x3 x4 x5) := by
  unfold signature
  try dsimp only
  repeat' with_reducible
    first
      | exact keeps_pure _ | exact keeps_get | apply keeps_env | apply keeps_fieldRegs | apply keeps_theIssue | apply keeps_thr
      | refine keeps_modifyGet (fun _ hf => ?_) | refine keeps_modify (fun _ hf => ?_) | refine keeps_getBind (fun _ hf => ?_)
      | refine keeps_set ?_ | refine keeps_bind ?_ (fun _ => ?_) | exact hf | assumption
      | refine wf_foldl ?_ (fun _ _ hf => ?_) | refine wf_foldl_snd ?_ (fun _ _ hf => ?_) | refine wf_run (by assumption) ?_ ?_
      | refine wf_trapErr (by assumption) ?_ ?_ | (simp only [↓wf_mk]; refine wf_back ?_) | intro _ | split

theorem wf_issueRound (x0 : Package) x1 x2 (h0 : x0.wf = true) : (@Package.issueRound x0 x1 x2).wf = true := by
  unfold Package.issueRound
  try dsimp only
  repeat' with_reducible
    first
      | exact h0 | apply wf_setTeam | apply wf_wake | apply wf_fresh | refine wf_snd (by assumption) (wf_fresh _ ?_) | exact hf
      | assumption | refine wf_foldl ?_ (fun _ _ hf => ?_) | refine wf_foldl_snd ?_ (fun _ _ hf => ?_)
      | (simp only [↓wf_mk]; refine wf_back ?_) | intro _ | split

/-- A lathe instruction keeps the form where the making of its signature does. -/
theorem okeeps_signAll (fields : List FieldUse) (k : Nat) (op : LatheOp) {mk : Who → PM Signature} (h : ∀ w, Keeps (mk w)) :
    OKeeps (signAll fields k op mk) := by
  refine okeeps_lift (fun s p hp => wf_eachThen hp (fun w => keeps_latheBody _ _ _ h w) (fun out q hq => ?_))
  split
  · exact wf_issueRound _ _ _ hq
  · exact hq

theorem okeeps_execMma x0 x1 x2 x3 x4 x5 : OKeeps (@execMma x0 x1 x2 x3 x4 x5) := by
  unfold execMma
  cases x5 <;> exact okeeps_signAll _ _ _ (fun _ => by apply keeps_signature)

theorem okeeps_execMmasp x0 x1 x2 x3 x4 x5 : OKeeps (@execMmasp x0 x1 x2 x3 x4 x5) := by
  exact okeeps_signAll _ _ _ (fun _ => by apply keeps_signature)

theorem okeeps_execAccld x0 x1 x2 x3 : OKeeps (@execAccld x0 x1 x2 x3) := by
  exact okeeps_signAll _ _ _ (fun _ => by apply keeps_signature)

theorem okeeps_execAccst x0 x1 x2 x3 : OKeeps (@execAccst x0 x1 x2 x3) := by
  exact okeeps_signAll _ _ _ (fun _ => keeps_bind (by apply keeps_signature) (fun _ => keeps_bind (by apply keeps_resolve) (fun _ => keeps_pure _)))

theorem okeeps_execRoundIssue x0 x1 : OKeeps (@execRoundIssue x0 x1) := by
  first | refine okeeps_lift (fun _ _ hf => ?_) | refine okeeps_ite (okeeps_fault _) (okeeps_lift (fun _ _ hf => ?_))
  try dsimp only
  repeat' with_reducible
    first
      | apply wf_issueRound | exact hf | assumption | refine wf_foldl ?_ (fun _ _ hf => ?_)
      | refine wf_foldl_snd ?_ (fun _ _ hf => ?_) | (simp only [↓wf_mk]; refine wf_back ?_) | intro _ | split

theorem wf_setRound (x0 : Package) x1 x2 (h0 : x0.wf = true) : (@Package.setRound x0 x1 x2).wf = true := by
  unfold Package.setRound
  try dsimp only
  repeat' with_reducible
    first
      | exact h0 | exact hf | assumption | refine wf_foldl ?_ (fun _ _ hf => ?_) | refine wf_foldl_snd ?_ (fun _ _ hf => ?_)
      | (simp only [↓wf_mk]; refine wf_back ?_) | intro _ | split

theorem wf_popSparse (x0 : Package) x1 (h0 : x0.wf = true) : (@Package.popSparse x0 x1).1.wf = true := by
  unfold Package.popSparse
  try dsimp only
  repeat' with_reducible
    first
      | exact h0 | exact hf | assumption | refine wf_foldl ?_ (fun _ _ hf => ?_) | refine wf_foldl_snd ?_ (fun _ _ hf => ?_)
      | (simp only [↓wf_mk]; refine wf_back ?_) | intro _ | split

theorem wf_storeLabels {p q : Package} {t : Tile} {gs : List Signature} {ls : List Lbl} (hs : p.storeLabels t gs = some (ls, q))
    (h : p.wf = true) : q.wf = true := by
  induction gs generalizing p ls with
  | nil => simp only [Package.storeLabels, Option.some.injEq, Prod.mk.injEq] at hs; exact hs.2 ▸ h
  | cons g gs ih =>
    simp only [Package.storeLabels, Option.bind_eq_bind, Option.bind_eq_some_iff, Option.pure_def, Option.some.injEq,
      Prod.mk.injEq, Prod.exists] at hs
    obtain ⟨l, r, hl, ls', r', hr, -, rfl⟩ := hs
    exact ih hr (wf_labelFor hl h)

theorem wf_putAll (p : Package) (w : Who) (l : Lbl) (ds : List Dst) (vs : List Word) (h : p.wf = true) :
    (p.putAll w l ds vs).wf = true := by
  induction ds generalizing p vs with
  | nil => exact h
  | cons d ds ih =>
    cases vs with
    | nil => exact h
    | cons v vs => exact ih _ _ (wf_putReg _ _ _ _ _ h)

theorem wf_storeTile (p : Package) (team : Nat) (form : StForm) (t : Tile) (gs : List Signature) (ls : List Lbl) (h : p.wf = true) :
    (p.storeTile team form t gs ls).wf = true := by
  induction gs generalizing p ls with
  | nil => exact h
  | cons g gs ih =>
    cases ls with
    | nil => exact h
    | cons l ls => exact ih _ _ (wf_putAll _ _ _ _ _ h)

theorem wf_roundFull (x0 : Package) x1 (h0 : x0.wf = true) : (@Package.roundFull x0 x1).wf = true := by
  unfold Package.roundFull
  try dsimp only
  repeat' with_reducible
    first
      | exact h0 | apply wf_flagDone | apply wf_interrupt | apply wf_raiseTrap | apply wf_wake | exact hf | assumption
      | refine wf_foldl ?_ (fun _ _ hf => ?_) | refine wf_foldl_snd ?_ (fun _ _ hf => ?_)
      | (simp only [↓wf_mk]; refine wf_back ?_) | intro _ | split

theorem wf_doRound (p : Package) (r : Round) (tm : Team) (h : p.wf = true) : (p.doRound r tm).wf = true := by
  unfold Package.doRound
  extract_lets t
  split
  · exact wf_roundFull _ _ h
  · next hl =>
    have h1 := wf_labelFor hl h
    split
    · exact wf_roundFull _ _ h1
    · next hs =>
      have h2 := wf_storeLabels hs h1
      dsimp only
      apply wf_wake
      refine wf_back ?_
      refine wf_foldl ?_ (fun _ _ hf => wf_flagDone _ _ _ hf)
      split
      · exact wf_storeTile _ _ _ _ _ _ h2
      · exact wf_setTeam _ _ _ h2

theorem okeeps_execRoundComplete x0 : OKeeps (@execRoundComplete x0) := by
  first | refine okeeps_lift (fun _ _ hf => ?_) | refine okeeps_ite (okeeps_fault _) (okeeps_lift (fun _ _ hf => ?_))
  try dsimp only
  repeat' with_reducible
    first
      | apply wf_doRound | apply wf_restoreAll | apply wf_setRound | apply wf_wake | apply wf_popSparse
      | refine wf_fst (by assumption) (wf_popSparse _ _ ?_) | exact hf | assumption | refine wf_foldl ?_ (fun _ _ hf => ?_)
      | refine wf_foldl_snd ?_ (fun _ _ hf => ?_) | (simp only [↓wf_mk]; refine wf_back ?_) | intro _ | split

theorem okeeps_execSparsityEntryArrive x0 x1 x2 : OKeeps (@execSparsityEntryArrive x0 x1 x2) := by
  first | refine okeeps_lift (fun _ _ hf => ?_) | refine okeeps_ite (okeeps_fault _) (okeeps_lift (fun _ _ hf => ?_))
  try dsimp only
  repeat' with_reducible
    first
      | apply wf_restoreAll | apply wf_setRound | apply wf_popSparse | refine wf_fst (by assumption) (wf_popSparse _ _ ?_)
      | exact hf | assumption | refine wf_foldl ?_ (fun _ _ hf => ?_) | refine wf_foldl_snd ?_ (fun _ _ hf => ?_)
      | (simp only [↓wf_mk]; refine wf_back ?_) | intro _ | split

/-! ### Engine -/

theorem keeps_readCard x0 x1 x2 x3 x4 x5 : Keeps (@readCard x0 x1 x2 x3 x4 x5) := by
  unfold readCard
  try dsimp only
  repeat' with_reducible
    first
      | exact keeps_pure _ | exact keeps_get | apply keeps_checkFields | apply keeps_fenceAt | apply keeps_gate
      | apply keeps_loadNow | apply keeps_noHeld | apply keeps_prot | apply keeps_readField | apply keeps_thr
      | apply keeps_trap | refine keeps_modifyGet (fun _ hf => ?_) | refine keeps_modify (fun _ hf => ?_)
      | refine keeps_getBind (fun _ hf => ?_) | refine keeps_set ?_ | refine keeps_bind ?_ (fun _ => ?_) | exact hf
      | assumption | refine wf_foldl ?_ (fun _ _ hf => ?_) | refine wf_foldl_snd ?_ (fun _ _ hf => ?_)
      | refine wf_run (by assumption) ?_ ?_ | refine wf_trapErr (by assumption) ?_ ?_ | (simp only [↓wf_mk]; refine wf_back ?_)
      | intro _ | split

theorem keeps_acceptJob x0 x1 x2 x3 x4 x5 : Keeps (@acceptJob x0 x1 x2 x3 x4 x5) := by
  unfold acceptJob
  try dsimp only
  repeat' with_reducible
    first
      | exact keeps_pure _ | exact keeps_get | apply keeps_await | apply keeps_env | apply keeps_freshId | apply keeps_setThr
      | apply keeps_teamOf | apply keeps_theIssue | apply keeps_thr | apply keeps_worldOf
      | refine keeps_modifyGet (fun _ hf => ?_) | refine keeps_modify (fun _ hf => ?_) | refine keeps_getBind (fun _ hf => ?_)
      | refine keeps_set ?_ | refine keeps_bind ?_ (fun _ => ?_) | exact hf | assumption
      | refine wf_foldl ?_ (fun _ _ hf => ?_) | refine wf_foldl_snd ?_ (fun _ _ hf => ?_) | refine wf_run (by assumption) ?_ ?_
      | refine wf_trapErr (by assumption) ?_ ?_ | (simp only [↓wf_mk]; refine wf_back ?_) | intro _ | split

theorem ekeeps_engAccess x0 x1 x2 x3 : EKeeps (@engAccess x0 x1 x2 x3) := by
  unfold engAccess
  try dsimp only
  repeat' with_reducible
    first
      | exact ekeeps_pure _ | exact ekeeps_get | apply ekeeps_fail | apply ekeeps_wait
      | refine ekeeps_modifyGet (fun _ hf => ?_) | refine ekeeps_modify (fun _ hf => ?_)
      | refine ekeeps_getBind (fun _ hf => ?_) | refine ekeeps_set ?_ | refine ekeeps_bind ?_ (fun _ => ?_) | apply wf_markPte
      | exact hf | assumption | refine wf_foldl ?_ (fun _ _ hf => ?_) | refine wf_foldl_snd ?_ (fun _ _ hf => ?_)
      | refine wf_erun (by assumption) ?_ ?_ | (simp only [↓wf_mk]; refine wf_back ?_) | intro _ | split

theorem ekeeps_engRead x0 x1 x2 x3 : EKeeps (@engRead x0 x1 x2 x3) := by
  unfold engRead
  try dsimp only
  repeat' with_reducible
    first
      | exact ekeeps_pure _ | exact ekeeps_get | apply ekeeps_engAccess | apply ekeeps_fail | apply ekeeps_wait
      | refine ekeeps_modifyGet (fun _ hf => ?_) | refine ekeeps_modify (fun _ hf => ?_)
      | refine ekeeps_getBind (fun _ hf => ?_) | refine ekeeps_set ?_ | refine ekeeps_bind ?_ (fun _ => ?_) | apply wf_tellHome
      | exact hf | assumption | refine wf_foldl ?_ (fun _ _ hf => ?_) | refine wf_foldl_snd ?_ (fun _ _ hf => ?_)
      | refine wf_erun (by assumption) ?_ ?_ | (simp only [↓wf_mk]; refine wf_back ?_) | intro _ | split

theorem ekeeps_engPad x0 x1 x2 : EKeeps (@engPad x0 x1 x2) := by
  unfold engPad
  try dsimp only
  repeat' with_reducible
    first
      | exact ekeeps_pure _ | exact ekeeps_get | apply ekeeps_fail | refine ekeeps_modifyGet (fun _ hf => ?_)
      | refine ekeeps_modify (fun _ hf => ?_) | refine ekeeps_getBind (fun _ hf => ?_) | refine ekeeps_set ?_
      | refine ekeeps_bind ?_ (fun _ => ?_) | exact hf | assumption | refine wf_foldl ?_ (fun _ _ hf => ?_)
      | refine wf_foldl_snd ?_ (fun _ _ hf => ?_) | refine wf_erun (by assumption) ?_ ?_
      | (simp only [↓wf_mk]; refine wf_back ?_) | intro _ | split

theorem ekeeps_engGranule x0 x1 x2 x3 : EKeeps (@engGranule x0 x1 x2 x3) := by
  unfold engGranule
  try dsimp only
  repeat' with_reducible
    first
      | exact ekeeps_pure _ | exact ekeeps_get | apply ekeeps_engPad | apply ekeeps_engRead
      | refine ekeeps_modifyGet (fun _ hf => ?_) | refine ekeeps_modify (fun _ hf => ?_)
      | refine ekeeps_getBind (fun _ hf => ?_) | refine ekeeps_set ?_ | refine ekeeps_bind ?_ (fun _ => ?_) | exact hf
      | assumption | refine wf_foldl ?_ (fun _ _ hf => ?_) | refine wf_foldl_snd ?_ (fun _ _ hf => ?_)
      | refine wf_erun (by assumption) ?_ ?_ | (simp only [↓wf_mk]; refine wf_back ?_) | intro _ | split

theorem ekeeps_engGranules x0 x1 x2 x3 x4 : EKeeps (@engGranules x0 x1 x2 x3 x4) := by
  induction x4 generalizing x0 x1 x2 x3  with
  | zero =>
    unfold engGranules
    try dsimp only
    repeat' with_reducible
    first
        | exact ekeeps_pure _ | exact ekeeps_get | apply ih | apply ekeeps_engGranule | refine ekeeps_modifyGet (fun _ hf => ?_)
        | refine ekeeps_modify (fun _ hf => ?_) | refine ekeeps_getBind (fun _ hf => ?_) | refine ekeeps_set ?_
        | refine ekeeps_bind ?_ (fun _ => ?_) | exact hf | assumption | refine wf_foldl ?_ (fun _ _ hf => ?_)
        | refine wf_foldl_snd ?_ (fun _ _ hf => ?_) | refine wf_erun (by assumption) ?_ ?_
        | (simp only [↓wf_mk]; refine wf_back ?_) | intro _ | split
  | succ n ih =>
    unfold engGranules
    try dsimp only
    repeat' with_reducible
    first
        | exact ekeeps_pure _ | exact ekeeps_get | apply ih | apply ekeeps_engGranule | refine ekeeps_modifyGet (fun _ hf => ?_)
        | refine ekeeps_modify (fun _ hf => ?_) | refine ekeeps_getBind (fun _ hf => ?_) | refine ekeeps_set ?_
        | refine ekeeps_bind ?_ (fun _ => ?_) | exact hf | assumption | refine wf_foldl ?_ (fun _ _ hf => ?_)
        | refine wf_foldl_snd ?_ (fun _ _ hf => ?_) | refine wf_erun (by assumption) ?_ ?_
        | (simp only [↓wf_mk]; refine wf_back ?_) | intro _ | split

theorem wf_engWrite (x0 : Package) x1 x2 x3 (h0 : x0.wf = true) : (@Package.engWrite x0 x1 x2 x3).2.wf = true := by
  unfold Package.engWrite
  try dsimp only
  repeat' with_reducible
    first
      | exact h0 | apply wf_fresh | refine wf_snd (by assumption) (wf_fresh _ ?_) | exact hf | assumption
      | refine wf_foldl ?_ (fun _ _ hf => ?_) | refine wf_foldl_snd ?_ (fun _ _ hf => ?_)
      | (simp only [↓wf_mk]; refine wf_back ?_) | intro _ | split

theorem wf_engReduce (x0 : Package) x1 x2 x3 x4 (h0 : x0.wf = true) : (@Package.engReduce x0 x1 x2 x3 x4).2.wf = true := by
  unfold Package.engReduce
  try dsimp only
  repeat' with_reducible
    first
      | exact h0 | apply wf_noteWct | apply wf_fresh | refine wf_snd (by assumption) (wf_fresh _ ?_) | exact hf | assumption
      | refine wf_foldl ?_ (fun _ _ hf => ?_) | refine wf_foldl_snd ?_ (fun _ _ hf => ?_)
      | (simp only [↓wf_mk]; refine wf_back ?_) | intro _ | split

theorem ekeeps_engPadWrite x0 x1 x2 x3 : EKeeps (@engPadWrite x0 x1 x2 x3) := by
  unfold engPadWrite
  try dsimp only
  repeat' with_reducible
    first
      | exact ekeeps_pure _ | exact ekeeps_get | apply ekeeps_engPad | refine ekeeps_modifyGet (fun _ hf => ?_)
      | refine ekeeps_modify (fun _ hf => ?_) | refine ekeeps_getBind (fun _ hf => ?_) | refine ekeeps_set ?_
      | refine ekeeps_bind ?_ (fun _ => ?_) | apply wf_setBank | exact hf | assumption | refine wf_foldl ?_ (fun _ _ hf => ?_)
      | refine wf_foldl_snd ?_ (fun _ _ hf => ?_) | refine wf_erun (by assumption) ?_ ?_
      | (simp only [↓wf_mk]; refine wf_back ?_) | intro _ | split

theorem wf_podSent (x0 : Package) x1 x2 (h0 : x0.wf = true) : (@Package.podSent x0 x1 x2).wf = true := by
  unfold Package.podSent
  try dsimp only
  repeat' with_reducible
    first
      | exact h0 | apply wf_setTide | exact hf | assumption | refine wf_foldl ?_ (fun _ _ hf => ?_)
      | refine wf_foldl_snd ?_ (fun _ _ hf => ?_) | (simp only [↓wf_mk]; refine wf_back ?_) | intro _ | split

theorem wf_sendRecords (x0 : Package) x1 x2 x3 x4 (h0 : x0.wf = true) : (@Package.sendRecords x0 x1 x2 x3 x4).wf = true := by
  unfold Package.sendRecords
  try dsimp only
  repeat' with_reducible
    first
      | exact h0 | apply wf_podSent | apply wf_send | apply wf_setTide | exact hf | assumption
      | refine wf_foldl ?_ (fun _ _ hf => ?_) | refine wf_foldl_snd ?_ (fun _ _ hf => ?_)
      | (simp only [↓wf_mk]; refine wf_back ?_) | intro _ | split

theorem ekeeps_engPod x0 x1 x2 x3 x4 x5 : EKeeps (@engPod x0 x1 x2 x3 x4 x5) := by
  unfold engPod
  try dsimp only
  repeat' with_reducible
    first
      | exact ekeeps_pure _ | exact ekeeps_get | apply ekeeps_fail | refine ekeeps_modifyGet (fun _ hf => ?_)
      | refine ekeeps_modify (fun _ hf => ?_) | refine ekeeps_getBind (fun _ hf => ?_) | refine ekeeps_set ?_
      | refine ekeeps_bind ?_ (fun _ => ?_) | apply wf_podSent | apply wf_send | apply wf_sendRecords | exact hf | assumption
      | refine wf_foldl ?_ (fun _ _ hf => ?_) | refine wf_foldl_snd ?_ (fun _ _ hf => ?_)
      | refine wf_erun (by assumption) ?_ ?_ | (simp only [↓wf_mk]; refine wf_back ?_) | intro _ | split

theorem ekeeps_engWriteVa x0 x1 x2 x3 x4 : EKeeps (@engWriteVa x0 x1 x2 x3 x4) := by
  unfold engWriteVa
  try dsimp only
  repeat' with_reducible
    first
      | exact ekeeps_pure _ | exact ekeeps_get | apply ekeeps_engAccess | apply ekeeps_fail | apply ekeeps_engPod
      | refine ekeeps_modifyGet (fun _ hf => ?_) | refine ekeeps_modify (fun _ hf => ?_)
      | refine ekeeps_getBind (fun _ hf => ?_) | refine ekeeps_set ?_ | refine ekeeps_bind ?_ (fun _ => ?_) | apply wf_engWrite
      | refine wf_snd (by assumption) (wf_engWrite _ _ _ _ ?_) | exact hf | assumption | refine wf_foldl ?_ (fun _ _ hf => ?_)
      | refine wf_foldl_snd ?_ (fun _ _ hf => ?_) | refine wf_erun (by assumption) ?_ ?_
      | (simp only [↓wf_mk]; refine wf_back ?_) | intro _ | split

theorem wf_countArrival (x0 : Package) x1 x2 x3 (h0 : x0.wf = true) : (@Package.countArrival x0 x1 x2 x3).wf = true := by
  unfold Package.countArrival
  try dsimp only
  repeat' with_reducible
    first
      | exact h0 | apply wf_setBank | apply wf_wake | apply ekeeps_engPad | exact ekeeps_get
      | refine ekeeps_modify (fun _ hf => ?_) | refine ekeeps_bind ?_ (fun _ => ?_) | exact ekeeps_pure _ | exact hf
      | assumption | refine wf_foldl ?_ (fun _ _ hf => ?_) | refine wf_foldl_snd ?_ (fun _ _ hf => ?_)
      | refine wf_erun (by assumption) ?_ ?_ | (simp only [↓wf_mk]; refine wf_back ?_) | intro _ | split

theorem wf_setJob (x0 : Package) x1 x2 (h0 : x0.wf = true) : (@Package.setJob x0 x1 x2).wf = true := by
  unfold Package.setJob
  try dsimp only
  repeat' with_reducible
    first
      | exact h0 | exact hf | assumption | refine wf_foldl ?_ (fun _ _ hf => ?_) | refine wf_foldl_snd ?_ (fun _ _ hf => ?_)
      | (simp only [↓wf_mk]; refine wf_back ?_) | intro _ | split

theorem wf_flushArrivals (x0 : Package) x1 (h0 : x0.wf = true) : (@Package.flushArrivals x0 x1).wf = true := by
  unfold Package.flushArrivals
  try dsimp only
  repeat' with_reducible
    first
      | exact h0 | apply wf_countArrival | apply wf_setJob | exact hf | assumption | refine wf_foldl ?_ (fun _ _ hf => ?_)
      | refine wf_foldl_snd ?_ (fun _ _ hf => ?_) | (simp only [↓wf_mk]; refine wf_back ?_) | intro _ | split

/-! ### Job -/

theorem okeeps_execJwait x0 : OKeeps (@execJwait x0) := by
  first | refine okeeps_lift (fun _ _ hf => ?_) | refine okeeps_ite (okeeps_fault _) (okeeps_lift (fun _ _ hf => ?_))
  try dsimp only
  repeat' with_reducible
    first
      | apply wf_each | apply keeps_await | apply keeps_thr | exact keeps_get | refine keeps_getBind (fun _ hf => ?_)
      | refine keeps_modify (fun _ hf => ?_) | refine keeps_set ?_ | refine keeps_bind ?_ (fun _ => ?_) | exact keeps_pure _
      | exact hf | assumption | refine wf_foldl ?_ (fun _ _ hf => ?_) | refine wf_foldl_snd ?_ (fun _ _ hf => ?_)
      | refine wf_run (by assumption) ?_ ?_ | refine wf_trapErr (by assumption) ?_ ?_ | (simp only [↓wf_mk]; refine wf_back ?_)
      | intro _ | split

theorem okeeps_execCpy x0 x1 x2 : OKeeps (@execCpy x0 x1 x2) := by
  first | refine okeeps_lift (fun _ _ hf => ?_) | refine okeeps_ite (okeeps_fault _) (okeeps_lift (fun _ _ hf => ?_))
  try dsimp only
  repeat' with_reducible
    first
      | apply wf_each | apply keeps_acceptJob | apply keeps_prot | apply keeps_readCard | apply keeps_teamOf | exact keeps_get
      | refine keeps_getBind (fun _ hf => ?_) | refine keeps_modify (fun _ hf => ?_) | refine keeps_set ?_
      | refine keeps_bind ?_ (fun _ => ?_) | exact keeps_pure _ | exact hf | assumption | refine wf_foldl ?_ (fun _ _ hf => ?_)
      | refine wf_foldl_snd ?_ (fun _ _ hf => ?_) | refine wf_run (by assumption) ?_ ?_
      | refine wf_trapErr (by assumption) ?_ ?_ | (simp only [↓wf_mk]; refine wf_back ?_) | intro _ | split

theorem okeeps_execCpym x0 x1 x2 x3 : OKeeps (@execCpym x0 x1 x2 x3) := by
  first | refine okeeps_lift (fun _ _ hf => ?_) | refine okeeps_ite (okeeps_fault _) (okeeps_lift (fun _ _ hf => ?_))
  try dsimp only
  repeat' with_reducible
    first
      | apply wf_each | apply keeps_acceptJob | apply keeps_prot | apply keeps_readCard | apply keeps_readField
      | exact keeps_get | refine keeps_getBind (fun _ hf => ?_) | refine keeps_modify (fun _ hf => ?_) | refine keeps_set ?_
      | refine keeps_bind ?_ (fun _ => ?_) | exact keeps_pure _ | exact hf | assumption | refine wf_foldl ?_ (fun _ _ hf => ?_)
      | refine wf_foldl_snd ?_ (fun _ _ hf => ?_) | refine wf_run (by assumption) ?_ ?_
      | refine wf_trapErr (by assumption) ?_ ?_ | (simp only [↓wf_mk]; refine wf_back ?_) | intro _ | split

theorem okeeps_execColl x0 x1 x2 x3 : OKeeps (@execColl x0 x1 x2 x3) := by
  first | refine okeeps_lift (fun _ _ hf => ?_) | refine okeeps_ite (okeeps_fault _) (okeeps_lift (fun _ _ hf => ?_))
  try dsimp only
  repeat' with_reducible
    first
      | apply wf_each | apply keeps_acceptJob | apply keeps_prot | apply keeps_readCard | apply keeps_teamOf | exact keeps_get
      | refine keeps_getBind (fun _ hf => ?_) | refine keeps_modify (fun _ hf => ?_) | refine keeps_set ?_
      | refine keeps_bind ?_ (fun _ => ?_) | exact keeps_pure _ | exact hf | assumption | refine wf_foldl ?_ (fun _ _ hf => ?_)
      | refine wf_foldl_snd ?_ (fun _ _ hf => ?_) | refine wf_run (by assumption) ?_ ?_
      | refine wf_trapErr (by assumption) ?_ ?_ | (simp only [↓wf_mk]; refine wf_back ?_) | intro _ | split

theorem okeeps_execXperm x0 x1 x2 : OKeeps (@execXperm x0 x1 x2) := by
  first | refine okeeps_lift (fun _ _ hf => ?_) | refine okeeps_ite (okeeps_fault _) (okeeps_lift (fun _ _ hf => ?_))
  try dsimp only
  repeat' with_reducible
    first
      | apply wf_each | apply keeps_acceptJob | apply keeps_checkFields | apply keeps_noRegion | apply keeps_prot
      | apply keeps_readCard | apply keeps_teamOf | apply keeps_worldOf | exact keeps_get
      | refine keeps_getBind (fun _ hf => ?_) | refine keeps_modify (fun _ hf => ?_) | refine keeps_set ?_
      | refine keeps_bind ?_ (fun _ => ?_) | exact keeps_pure _ | exact hf | assumption | refine wf_foldl ?_ (fun _ _ hf => ?_)
      | refine wf_foldl_snd ?_ (fun _ _ hf => ?_) | refine wf_run (by assumption) ?_ ?_
      | refine wf_trapErr (by assumption) ?_ ?_ | (simp only [↓wf_mk]; refine wf_back ?_) | intro _ | split

theorem ekeeps_layoutOf x0 x1 : EKeeps (@layoutOf x0 x1) := by
  unfold layoutOf
  try dsimp only
  repeat' with_reducible
    first
      | exact ekeeps_pure _ | exact ekeeps_get | apply ekeeps_engAccess | apply ekeeps_engRead
      | refine ekeeps_modifyGet (fun _ hf => ?_) | refine ekeeps_modify (fun _ hf => ?_)
      | refine ekeeps_getBind (fun _ hf => ?_) | refine ekeeps_set ?_ | refine ekeeps_bind ?_ (fun _ => ?_) | apply wf_pick
      | refine wf_snd (by assumption) (wf_pick _ _ ?_) | exact hf | assumption | refine wf_foldl ?_ (fun _ _ hf => ?_)
      | refine wf_foldl_snd ?_ (fun _ _ hf => ?_) | refine wf_erun (by assumption) ?_ ?_
      | (simp only [↓wf_mk]; refine wf_back ?_) | intro _ | split

theorem ekeeps_cpyPiece x0 x1 x2 : EKeeps (@cpyPiece x0 x1 x2) := by
  unfold cpyPiece
  try dsimp only
  repeat' with_reducible
    first
      | exact ekeeps_pure _ | exact ekeeps_get | apply ekeeps_fail | apply ekeeps_engGranules | apply ekeeps_engPadWrite
      | apply ekeeps_engWriteVa | refine ekeeps_modifyGet (fun _ hf => ?_) | refine ekeeps_modify (fun _ hf => ?_)
      | refine ekeeps_getBind (fun _ hf => ?_) | refine ekeeps_set ?_ | refine ekeeps_bind ?_ (fun _ => ?_) | apply wf_setJob
      | exact hf | assumption | refine wf_foldl ?_ (fun _ _ hf => ?_) | refine wf_foldl_snd ?_ (fun _ _ hf => ?_)
      | refine wf_erun (by assumption) ?_ ?_ | (simp only [↓wf_mk]; refine wf_back ?_) | intro _ | split

theorem wf_addSparse (x0 : Package) x1 x2 x3 x4 (h0 : x0.wf = true) : (@Package.addSparse x0 x1 x2 x3 x4).wf = true := by
  unfold Package.addSparse
  try dsimp only
  repeat' with_reducible
    first
      | exact h0 | apply wf_setTeam | exact hf | assumption | refine wf_foldl ?_ (fun _ _ hf => ?_)
      | refine wf_foldl_snd ?_ (fun _ _ hf => ?_) | (simp only [↓wf_mk]; refine wf_back ?_) | intro _ | split

theorem ekeeps_sparseFill x0 x1 : EKeeps (@sparseFill x0 x1) := by
  unfold sparseFill
  try dsimp only
  repeat' with_reducible
    first
      | exact ekeeps_pure _ | exact ekeeps_get | apply ekeeps_fail | apply ekeeps_engGranule | apply ekeeps_wait
      | refine ekeeps_modifyGet (fun _ hf => ?_) | refine ekeeps_modify (fun _ hf => ?_)
      | refine ekeeps_getBind (fun _ hf => ?_) | refine ekeeps_set ?_ | refine ekeeps_bind ?_ (fun _ => ?_)
      | apply wf_addSparse | apply wf_setJob | exact hf | assumption | refine wf_labelFor (by assumption) ?_
      | refine wf_foldl ?_ (fun _ _ hf => ?_) | refine wf_foldl_snd ?_ (fun _ _ hf => ?_)
      | refine wf_erun (by assumption) ?_ ?_ | (simp only [↓wf_mk]; refine wf_back ?_) | intro _ | split

theorem wf_cpymClusters (j : Job) (ea : Nat) (gs : List (Nat × Mask)) (cs : List Nat) (p : Package) (h : p.wf = true) :
    (cpymClusters j ea gs cs p).2.wf = true := by
  induction cs generalizing p with
  | nil => exact h
  | cons c cs ih =>
    unfold cpymClusters
    split
    · next heq =>
      have hq := wf_erun heq h (ekeeps_engPadWrite _ _ _ _)
      refine ih _ ?_
      split
      · exact wf_countArrival _ _ _ _ hq
      · exact hq
    · exact ih _ h

theorem ekeeps_cpymPiece x0 x1 x2 x3 : EKeeps (@cpymPiece x0 x1 x2 x3) := by
  unfold cpymPiece
  try dsimp only
  repeat' with_reducible
    first
      | exact ekeeps_pure _ | exact ekeeps_get | apply ekeeps_engGranules | refine ekeeps_modifyGet (fun _ hf => ?_)
      | refine ekeeps_modify (fun _ hf => ?_) | refine ekeeps_getBind (fun _ hf => ?_) | refine ekeeps_set ?_
      | refine ekeeps_bind ?_ (fun _ => ?_) | apply wf_setJob | apply wf_cpymClusters
      | refine wf_snd (by assumption) (wf_cpymClusters _ _ _ _ _ ?_) | exact hf | assumption
      | refine wf_foldl ?_ (fun _ _ hf => ?_) | refine wf_foldl_snd ?_ (fun _ _ hf => ?_)
      | refine wf_erun (by assumption) ?_ ?_ | (simp only [↓wf_mk]; refine wf_back ?_) | intro _ | split

theorem ekeeps_xpMask x0 x1 : EKeeps (@xpMask x0 x1) := by
  unfold xpMask
  try dsimp only
  repeat' with_reducible
    first
      | exact ekeeps_pure _ | exact ekeeps_get | apply ekeeps_engGranules | refine ekeeps_modifyGet (fun _ hf => ?_)
      | refine ekeeps_modify (fun _ hf => ?_) | refine ekeeps_getBind (fun _ hf => ?_) | refine ekeeps_set ?_
      | refine ekeeps_bind ?_ (fun _ => ?_) | exact hf | assumption | refine wf_foldl ?_ (fun _ _ hf => ?_)
      | refine wf_foldl_snd ?_ (fun _ _ hf => ?_) | refine wf_erun (by assumption) ?_ ?_
      | (simp only [↓wf_mk]; refine wf_back ?_) | intro _ | split

theorem ekeeps_xpElement x0 x1 x2 x3 x4 x5 : EKeeps (@xpElement x0 x1 x2 x3 x4 x5) := by
  unfold xpElement
  try dsimp only
  repeat' with_reducible
    first
      | exact ekeeps_pure _ | exact ekeeps_get | apply ekeeps_engAccess | apply ekeeps_fail
      | refine ekeeps_modifyGet (fun _ hf => ?_) | refine ekeeps_modify (fun _ hf => ?_)
      | refine ekeeps_getBind (fun _ hf => ?_) | refine ekeeps_set ?_ | refine ekeeps_bind ?_ (fun _ => ?_) | exact hf
      | assumption | refine wf_foldl ?_ (fun _ _ hf => ?_) | refine wf_foldl_snd ?_ (fun _ _ hf => ?_)
      | refine wf_erun (by assumption) ?_ ?_ | (simp only [↓wf_mk]; refine wf_back ?_) | intro _ | split

theorem ekeeps_xpElements x0 x1 x2 x3 : EKeeps (@xpElements x0 x1 x2 x3) := by
  induction x3 generalizing x0 x1 x2  with
  | nil =>
    unfold xpElements
    try dsimp only
    repeat' with_reducible
    first
        | exact ekeeps_pure _ | exact ekeeps_get | apply ih | apply ekeeps_xpElement | refine ekeeps_modifyGet (fun _ hf => ?_)
        | refine ekeeps_modify (fun _ hf => ?_) | refine ekeeps_getBind (fun _ hf => ?_) | refine ekeeps_set ?_
        | refine ekeeps_bind ?_ (fun _ => ?_) | exact hf | assumption | refine wf_foldl ?_ (fun _ _ hf => ?_)
        | refine wf_foldl_snd ?_ (fun _ _ hf => ?_) | refine wf_erun (by assumption) ?_ ?_
        | (simp only [↓wf_mk]; refine wf_back ?_) | intro _ | split
  | cons y ys ih =>
    unfold xpElements
    try dsimp only
    repeat' with_reducible
    first
        | exact ekeeps_pure _ | exact ekeeps_get | apply ih | apply ekeeps_xpElement | refine ekeeps_modifyGet (fun _ hf => ?_)
        | refine ekeeps_modify (fun _ hf => ?_) | refine ekeeps_getBind (fun _ hf => ?_) | refine ekeeps_set ?_
        | refine ekeeps_bind ?_ (fun _ => ?_) | exact hf | assumption | refine wf_foldl ?_ (fun _ _ hf => ?_)
        | refine wf_foldl_snd ?_ (fun _ _ hf => ?_) | refine wf_erun (by assumption) ?_ ?_
        | (simp only [↓wf_mk]; refine wf_back ?_) | intro _ | split

theorem ekeeps_xpPiece x0 x1 x2 : EKeeps (@xpPiece x0 x1 x2) := by
  unfold xpPiece
  try dsimp only
  repeat' with_reducible
    first
      | exact ekeeps_pure _ | exact ekeeps_get | apply ekeeps_fail | apply ekeeps_engGranules | apply ekeeps_xpElements
      | refine ekeeps_modifyGet (fun _ hf => ?_) | refine ekeeps_modify (fun _ hf => ?_)
      | refine ekeeps_getBind (fun _ hf => ?_) | refine ekeeps_set ?_ | refine ekeeps_bind ?_ (fun _ => ?_) | apply wf_podSent
      | apply wf_send | apply wf_setJob | exact hf | assumption | refine wf_foldl ?_ (fun _ _ hf => ?_)
      | refine wf_foldl_snd ?_ (fun _ _ hf => ?_) | refine wf_erun (by assumption) ?_ ?_
      | (simp only [↓wf_mk]; refine wf_back ?_) | intro _ | split

theorem wf_toMembers (x0 : Package) x1 x2 x3 (h0 : x0.wf = true) : (@Package.toMembers x0 x1 x2 x3).wf = true := by
  unfold Package.toMembers
  try dsimp only
  repeat' with_reducible
    first
      | exact h0 | apply wf_send | exact hf | assumption | refine wf_foldl ?_ (fun _ _ hf => ?_)
      | refine wf_foldl_snd ?_ (fun _ _ hf => ?_) | (simp only [↓wf_mk]; refine wf_back ?_) | intro _ | split

theorem ekeeps_takeTile x0 x1 : EKeeps (@takeTile x0 x1) := by
  unfold takeTile
  try dsimp only
  repeat' with_reducible
    first
      | exact ekeeps_pure _ | exact ekeeps_get | apply ekeeps_fail | apply ekeeps_wait
      | refine ekeeps_modifyGet (fun _ hf => ?_) | refine ekeeps_modify (fun _ hf => ?_)
      | refine ekeeps_getBind (fun _ hf => ?_) | refine ekeeps_set ?_ | refine ekeeps_bind ?_ (fun _ => ?_) | exact hf
      | assumption | refine wf_foldl ?_ (fun _ _ hf => ?_) | refine wf_foldl_snd ?_ (fun _ _ hf => ?_)
      | refine wf_erun (by assumption) ?_ ?_ | (simp only [↓wf_mk]; refine wf_back ?_) | intro _ | split

theorem ekeeps_collOpen x0 x1 x2 x3 : EKeeps (@collOpen x0 x1 x2 x3) := by
  unfold collOpen
  try dsimp only
  repeat' with_reducible
    first
      | exact ekeeps_pure _ | exact ekeeps_get | apply ekeeps_engGranules | apply ekeeps_takeTile
      | refine ekeeps_modifyGet (fun _ hf => ?_) | refine ekeeps_modify (fun _ hf => ?_)
      | refine ekeeps_getBind (fun _ hf => ?_) | refine ekeeps_set ?_ | refine ekeeps_bind ?_ (fun _ => ?_) | apply wf_setJob
      | apply wf_toMembers | exact hf | assumption | refine wf_foldl ?_ (fun _ _ hf => ?_)
      | refine wf_foldl_snd ?_ (fun _ _ hf => ?_) | refine wf_erun (by assumption) ?_ ?_
      | (simp only [↓wf_mk]; refine wf_back ?_) | intro _ | split

theorem wf_chunkHeader (x0 : Package) x1 x2 x3 (h0 : x0.wf = true) : (@Package.chunkHeader x0 x1 x2 x3).wf = true := by
  unfold Package.chunkHeader
  try dsimp only
  repeat' with_reducible
    first
      | exact h0 | apply wf_toMembers | exact hf | assumption | refine wf_foldl ?_ (fun _ _ hf => ?_)
      | refine wf_foldl_snd ?_ (fun _ _ hf => ?_) | (simp only [↓wf_mk]; refine wf_back ?_) | intro _ | split

theorem ekeeps_collSource x0 x1 x2 x3 : EKeeps (@collSource x0 x1 x2 x3) := by
  unfold collSource
  try dsimp only
  repeat' with_reducible
    first
      | exact ekeeps_pure _ | exact ekeeps_get | apply ekeeps_engGranules | refine ekeeps_modifyGet (fun _ hf => ?_)
      | refine ekeeps_modify (fun _ hf => ?_) | refine ekeeps_getBind (fun _ hf => ?_) | refine ekeeps_set ?_
      | refine ekeeps_bind ?_ (fun _ => ?_) | exact hf | assumption | refine wf_foldl ?_ (fun _ _ hf => ?_)
      | refine wf_foldl_snd ?_ (fun _ _ hf => ?_) | refine wf_erun (by assumption) ?_ ?_
      | (simp only [↓wf_mk]; refine wf_back ?_) | intro _ | split

theorem ekeeps_collSend x0 x1 x2 x3 : EKeeps (@collSend x0 x1 x2 x3) := by
  unfold collSend
  try dsimp only
  repeat' with_reducible
    first
      | exact ekeeps_pure _ | exact ekeeps_get | apply ekeeps_collSource | apply ekeeps_fail
      | refine ekeeps_modifyGet (fun _ hf => ?_) | refine ekeeps_modify (fun _ hf => ?_)
      | refine ekeeps_getBind (fun _ hf => ?_) | refine ekeeps_set ?_ | refine ekeeps_bind ?_ (fun _ => ?_) | apply wf_setJob
      | apply wf_toMembers | exact hf | assumption | refine wf_foldl ?_ (fun _ _ hf => ?_)
      | refine wf_foldl_snd ?_ (fun _ _ hf => ?_) | refine wf_erun (by assumption) ?_ ?_
      | (simp only [↓wf_mk]; refine wf_back ?_) | intro _ | split

theorem ekeeps_growAll x0 x1 x2 x3 : EKeeps (@growAll x0 x1 x2 x3) := by
  induction x3 generalizing x0 x1 x2  with
  | nil =>
    unfold growAll
    try dsimp only
    repeat' with_reducible
    first
        | exact ekeeps_pure _ | exact ekeeps_get | apply ih | apply ekeeps_fail | apply ekeeps_wait
        | refine ekeeps_modifyGet (fun _ hf => ?_) | refine ekeeps_modify (fun _ hf => ?_)
        | refine ekeeps_getBind (fun _ hf => ?_) | refine ekeeps_set ?_ | refine ekeeps_bind ?_ (fun _ => ?_) | exact hf
        | assumption | refine wf_labelFor (by assumption) ?_ | refine wf_foldl ?_ (fun _ _ hf => ?_)
        | refine wf_foldl_snd ?_ (fun _ _ hf => ?_) | refine wf_erun (by assumption) ?_ ?_
        | (simp only [↓wf_mk]; refine wf_back ?_) | intro _ | split
  | cons y ys ih =>
    unfold growAll
    try dsimp only
    repeat' with_reducible
    first
        | exact ekeeps_pure _ | exact ekeeps_get | apply ih | apply ekeeps_fail | apply ekeeps_wait
        | refine ekeeps_modifyGet (fun _ hf => ?_) | refine ekeeps_modify (fun _ hf => ?_)
        | refine ekeeps_getBind (fun _ hf => ?_) | refine ekeeps_set ?_ | refine ekeeps_bind ?_ (fun _ => ?_) | exact hf
        | assumption | refine wf_labelFor (by assumption) ?_ | refine wf_foldl ?_ (fun _ _ hf => ?_)
        | refine wf_foldl_snd ?_ (fun _ _ hf => ?_) | refine wf_erun (by assumption) ?_ ?_
        | (simp only [↓wf_mk]; refine wf_back ?_) | intro _ | split

theorem ekeeps_collWrite x0 x1 x2 x3 : EKeeps (@collWrite x0 x1 x2 x3) := by
  unfold collWrite
  try dsimp only
  repeat' with_reducible
    first
      | exact ekeeps_pure _ | exact ekeeps_get | apply ekeeps_engAccess | apply ekeeps_fail | apply ekeeps_engPadWrite
      | apply ekeeps_engWriteVa | apply ekeeps_growAll | refine ekeeps_modifyGet (fun _ hf => ?_)
      | refine ekeeps_modify (fun _ hf => ?_) | refine ekeeps_getBind (fun _ hf => ?_) | refine ekeeps_set ?_
      | refine ekeeps_bind ?_ (fun _ => ?_) | apply wf_engReduce | refine wf_snd (by assumption) (wf_engReduce _ _ _ _ _ ?_)
      | exact hf | assumption | refine wf_foldl ?_ (fun _ _ hf => ?_) | refine wf_foldl_snd ?_ (fun _ _ hf => ?_)
      | refine wf_erun (by assumption) ?_ ?_ | (simp only [↓wf_mk]; refine wf_back ?_) | intro _ | split

theorem ekeeps_addTile x0 x1 x2 x3 : EKeeps (@addTile x0 x1 x2 x3) := by
  unfold addTile
  try dsimp only
  repeat' with_reducible
    first
      | exact ekeeps_pure _ | exact ekeeps_get | apply ekeeps_fail | refine ekeeps_modifyGet (fun _ hf => ?_)
      | refine ekeeps_modify (fun _ hf => ?_) | refine ekeeps_getBind (fun _ hf => ?_) | refine ekeeps_set ?_
      | refine ekeeps_bind ?_ (fun _ => ?_) | apply wf_setJob | apply wf_setTeam | exact hf | assumption
      | refine wf_labelFor (by assumption) ?_ | refine wf_foldl ?_ (fun _ _ hf => ?_)
      | refine wf_foldl_snd ?_ (fun _ _ hf => ?_) | refine wf_erun (by assumption) ?_ ?_
      | (simp only [↓wf_mk]; refine wf_back ?_) | intro _ | split

theorem ekeeps_collApply x0 x1 x2 : EKeeps (@collApply x0 x1 x2) := by
  unfold collApply
  try dsimp only
  repeat' with_reducible
    first
      | exact ekeeps_pure _ | exact ekeeps_get | apply ekeeps_addTile | apply ekeeps_collWrite | apply ekeeps_wait
      | refine ekeeps_modifyGet (fun _ hf => ?_) | refine ekeeps_modify (fun _ hf => ?_)
      | refine ekeeps_getBind (fun _ hf => ?_) | refine ekeeps_set ?_ | refine ekeeps_bind ?_ (fun _ => ?_) | apply wf_setJob
      | exact hf | assumption | refine wf_foldl ?_ (fun _ _ hf => ?_) | refine wf_foldl_snd ?_ (fun _ _ hf => ?_)
      | refine wf_erun (by assumption) ?_ ?_ | (simp only [↓wf_mk]; refine wf_back ?_) | intro _ | split

theorem wf_collSettle (x0 : Package) x1 x2 (h0 : x0.wf = true) : (@Package.collSettle x0 x1 x2).wf = true := by
  unfold Package.collSettle
  try dsimp only
  repeat' with_reducible
    first
      | exact h0 | apply wf_setJob | exact hf | assumption | refine wf_foldl ?_ (fun _ _ hf => ?_)
      | refine wf_foldl_snd ?_ (fun _ _ hf => ?_) | (simp only [↓wf_mk]; refine wf_back ?_) | intro _ | split

theorem wf_engRun {p : Package} {k : Nat} {m : EM Unit} (hm : EKeeps m) (h : p.wf = true) : (p.engRun k m).wf = true := by
  unfold Package.engRun
  split
  · next heq => exact wf_erun heq h hm
  · exact h
  · apply wf_setJob
    split
    · exact wf_interrupt _ _ _ _ h
    · exact h

theorem wf_nextPiece {p : Package} {j : Job} {src dst : Nat} {f : Nat → EM Unit} (hf : ∀ k, EKeeps (f k)) (h : p.wf = true) :
    (p.nextPiece j src dst f).wf = true := by
  unfold Package.nextPiece
  split
  · exact wf_setJob _ _ _ h
  · exact wf_engRun (hf _) (wf_pick _ _ h)

theorem wf_collStep (x0 : Package) x1 x2 (h0 : x0.wf = true) : (@Package.collStep x0 x1 x2).wf = true := by
  unfold Package.collStep
  try dsimp only
  repeat' with_reducible
    first
      | exact h0 | apply wf_collSettle | apply wf_engRun | apply wf_setJob | apply ekeeps_collOpen | apply ekeeps_collSend
      | exact ekeeps_get | refine ekeeps_modify (fun _ hf => ?_) | refine ekeeps_bind ?_ (fun _ => ?_) | exact ekeeps_pure _
      | exact hf | assumption | refine wf_foldl ?_ (fun _ _ hf => ?_) | refine wf_foldl_snd ?_ (fun _ _ hf => ?_)
      | refine wf_erun (by assumption) ?_ ?_ | (simp only [↓wf_mk]; refine wf_back ?_) | intro _ | split

theorem wf_sendHeader (x0 : Package) x1 (h0 : x0.wf = true) : (@Package.sendHeader x0 x1).wf = true := by
  unfold Package.sendHeader
  try dsimp only
  repeat' with_reducible
    first
      | exact h0 | apply wf_chunkHeader | exact hf | assumption | refine wf_foldl ?_ (fun _ _ hf => ?_)
      | refine wf_foldl_snd ?_ (fun _ _ hf => ?_) | (simp only [↓wf_mk]; refine wf_back ?_) | intro _ | split

theorem okeeps_execJobSegmentDone x0 : OKeeps (@execJobSegmentDone x0) := by
  first | refine okeeps_lift (fun _ _ hf => ?_) | refine okeeps_ite (okeeps_fault _) (okeeps_lift (fun _ _ hf => ?_))
  try dsimp only
  repeat' with_reducible
    first
      | apply wf_collStep | apply wf_engRun | apply wf_flushArrivals | apply wf_nextPiece | apply wf_sendHeader
      | apply wf_setJob | apply ekeeps_cpyPiece | apply ekeeps_cpymPiece | apply ekeeps_fail | apply ekeeps_layoutOf
      | apply ekeeps_sparseFill | apply ekeeps_xpMask | apply ekeeps_xpPiece | exact ekeeps_get
      | refine ekeeps_modify (fun _ hf => ?_) | refine ekeeps_bind ?_ (fun _ => ?_) | exact ekeeps_pure _ | exact hf
      | assumption | refine wf_foldl ?_ (fun _ _ hf => ?_) | refine wf_foldl_snd ?_ (fun _ _ hf => ?_)
      | refine wf_erun (by assumption) ?_ ?_ | (simp only [↓wf_mk]; refine wf_back ?_) | intro _ | split

theorem wf_openColl (x0 : Package) x1 (h0 : x0.wf = true) : (@Package.openColl x0 x1).wf = true := by
  unfold Package.openColl
  try dsimp only
  repeat' with_reducible
    first
      | exact h0 | apply wf_setJob | apply wf_setTeam | exact hf | assumption | refine wf_foldl ?_ (fun _ _ hf => ?_)
      | refine wf_foldl_snd ?_ (fun _ _ hf => ?_) | (simp only [↓wf_mk]; refine wf_back ?_) | intro _ | split

theorem okeeps_execCollHeaderRound x0 x1 : OKeeps (@execCollHeaderRound x0 x1) := by
  first | refine okeeps_lift (fun _ _ hf => ?_) | refine okeeps_ite (okeeps_fault _) (okeeps_lift (fun _ _ hf => ?_))
  try dsimp only
  repeat' with_reducible
    first
      | apply wf_openColl | exact hf | assumption | refine wf_foldl ?_ (fun _ _ hf => ?_)
      | refine wf_foldl_snd ?_ (fun _ _ hf => ?_) | (simp only [↓wf_mk]; refine wf_back ?_) | intro _ | split

theorem okeeps_execCollContribution x0 : OKeeps (@execCollContribution x0) := by
  first | refine okeeps_lift (fun _ _ hf => ?_) | refine okeeps_ite (okeeps_fault _) (okeeps_lift (fun _ _ hf => ?_))
  try dsimp only
  repeat' with_reducible
    first
      | apply wf_collSettle | apply wf_engRun | apply ekeeps_collApply | exact ekeeps_get
      | refine ekeeps_modify (fun _ hf => ?_) | refine ekeeps_bind ?_ (fun _ => ?_) | exact ekeeps_pure _ | exact hf
      | assumption | refine wf_foldl ?_ (fun _ _ hf => ?_) | refine wf_foldl_snd ?_ (fun _ _ hf => ?_)
      | refine wf_erun (by assumption) ?_ ?_ | (simp only [↓wf_mk]; refine wf_back ?_) | intro _ | split

theorem ekeeps_statusWrite x0 x1 x2 : EKeeps (@statusWrite x0 x1 x2) := by
  unfold statusWrite
  try dsimp only
  repeat' with_reducible
    first
      | exact ekeeps_pure _ | exact ekeeps_get | apply ekeeps_engAccess | apply ekeeps_fail
      | refine ekeeps_modifyGet (fun _ hf => ?_) | refine ekeeps_modify (fun _ hf => ?_)
      | refine ekeeps_getBind (fun _ hf => ?_) | refine ekeeps_set ?_ | refine ekeeps_bind ?_ (fun _ => ?_) | apply wf_podSent
      | apply wf_send | apply wf_sendRecords | apply wf_engWrite | refine wf_snd (by assumption) (wf_engWrite _ _ _ _ ?_)
      | exact hf | assumption | refine wf_foldl ?_ (fun _ _ hf => ?_) | refine wf_foldl_snd ?_ (fun _ _ hf => ?_)
      | refine wf_erun (by assumption) ?_ ?_ | (simp only [↓wf_mk]; refine wf_back ?_) | intro _ | split

theorem wf_postStatus (x0 : Package) x1 x2 (h0 : x0.wf = true) : (@Package.postStatus x0 x1 x2).wf = true := by
  unfold Package.postStatus
  try dsimp only
  repeat' with_reducible
    first
      | exact h0 | apply wf_setJob | apply ekeeps_statusWrite | exact ekeeps_get | refine ekeeps_modify (fun _ hf => ?_)
      | refine ekeeps_bind ?_ (fun _ => ?_) | exact ekeeps_pure _ | exact hf | assumption
      | refine wf_foldl ?_ (fun _ _ hf => ?_) | refine wf_foldl_snd ?_ (fun _ _ hf => ?_)
      | refine wf_erun (by assumption) ?_ ?_ | (simp only [↓wf_mk]; refine wf_back ?_) | intro _ | split

theorem wf_dropColl (x0 : Package) x1 (h0 : x0.wf = true) : (@Package.dropColl x0 x1).wf = true := by
  unfold Package.dropColl
  try dsimp only
  repeat' with_reducible
    first
      | exact h0 | exact hf | assumption | refine wf_foldl ?_ (fun _ _ hf => ?_) | refine wf_foldl_snd ?_ (fun _ _ hf => ?_)
      | (simp only [↓wf_mk]; refine wf_back ?_) | intro _ | split

theorem wf_endJob (x0 : Package) x1 (h0 : x0.wf = true) : (@Package.endJob x0 x1).wf = true := by
  unfold Package.endJob
  try dsimp only
  repeat' with_reducible
    first
      | exact h0 | apply wf_dropColl | apply wf_flagDone | apply wf_wake | exact hf | assumption
      | refine wf_foldl ?_ (fun _ _ hf => ?_) | refine wf_foldl_snd ?_ (fun _ _ hf => ?_)
      | (simp only [↓wf_mk]; refine wf_back ?_) | intro _ | split

theorem wf_endChunks (x0 : Package) x1 x2 (h0 : x0.wf = true) : (@Package.endChunks x0 x1 x2).wf = true := by
  unfold Package.endChunks
  try dsimp only
  repeat' with_reducible
    first
      | exact h0 | apply wf_dropColl | apply wf_gridDone | apply wf_postStatus | apply wf_setGrid | exact hf | assumption
      | refine wf_foldl ?_ (fun _ _ hf => ?_) | refine wf_foldl_snd ?_ (fun _ _ hf => ?_)
      | (simp only [↓wf_mk]; refine wf_back ?_) | intro _ | split

theorem okeeps_execJobComplete x0 : OKeeps (@execJobComplete x0) := by
  first | refine okeeps_lift (fun _ _ hf => ?_) | refine okeeps_ite (okeeps_fault _) (okeeps_lift (fun _ _ hf => ?_))
  try dsimp only
  repeat' with_reducible
    first
      | apply wf_endChunks | apply wf_endJob | apply wf_flushArrivals | apply wf_postStatus | exact hf | assumption
      | refine wf_foldl ?_ (fun _ _ hf => ?_) | refine wf_foldl_snd ?_ (fun _ _ hf => ?_)
      | (simp only [↓wf_mk]; refine wf_back ?_) | intro _ | split

theorem okeeps_execSchedulerRoom x0 : OKeeps (@execSchedulerRoom x0) := by
  first | refine okeeps_lift (fun _ _ hf => ?_) | refine okeeps_ite (okeeps_fault _) (okeeps_lift (fun _ _ hf => ?_))
  try dsimp only
  repeat' with_reducible
    first
      | apply wf_unstall | exact hf | assumption | refine wf_foldl ?_ (fun _ _ hf => ?_)
      | refine wf_foldl_snd ?_ (fun _ _ hf => ?_) | (simp only [↓wf_mk]; refine wf_back ?_) | intro _ | split

/-! ### Tide -/

theorem okeeps_execTide x0 : OKeeps (@execTide x0) := by
  first | refine okeeps_lift (fun _ _ hf => ?_) | refine okeeps_ite (okeeps_fault _) (okeeps_lift (fun _ _ hf => ?_))
  try dsimp only
  repeat' with_reducible
    first
      | apply wf_each | apply keeps_addAcc | apply keeps_checkFields | apply keeps_fenceAt | apply keeps_gate
      | apply keeps_illop | apply keeps_noRegion | apply keeps_prot | apply keeps_resolve | apply keeps_resultLabel
      | apply keeps_setThr | apply keeps_teamOf | apply keeps_theIssue | apply keeps_thr | apply keeps_worldOf
      | exact keeps_get | refine keeps_getBind (fun _ hf => ?_) | refine keeps_modify (fun _ hf => ?_) | refine keeps_set ?_
      | refine keeps_bind ?_ (fun _ => ?_) | exact keeps_pure _ | exact hf | assumption | refine wf_foldl ?_ (fun _ _ hf => ?_)
      | refine wf_foldl_snd ?_ (fun _ _ hf => ?_) | refine wf_run (by assumption) ?_ ?_
      | refine wf_trapErr (by assumption) ?_ ?_ | (simp only [↓wf_mk]; refine wf_back ?_) | intro _ | split

theorem wf_dropInbox (x0 : Package) x1 (h0 : x0.wf = true) : (@Package.dropInbox x0 x1).wf = true := by
  unfold Package.dropInbox
  try dsimp only
  repeat' with_reducible
    first
      | exact h0 | exact hf | assumption | refine wf_foldl ?_ (fun _ _ hf => ?_) | refine wf_foldl_snd ?_ (fun _ _ hf => ?_)
      | (simp only [↓wf_mk]; refine wf_back ?_) | intro _ | split

theorem wf_spillWrite (x0 : Package) x1 x2 x3 (h0 : x0.wf = true) : (@Package.spillWrite x0 x1 x2 x3).wf = true := by
  unfold Package.spillWrite
  try dsimp only
  repeat' with_reducible
    first
      | exact h0 | apply wf_poke | apply wf_setGlabel | exact hf | assumption | refine wf_foldl ?_ (fun _ _ hf => ?_)
      | refine wf_foldl_snd ?_ (fun _ _ hf => ?_) | (simp only [↓wf_mk]; refine wf_back ?_) | intro _ | split

theorem wf_acceptMerge (x0 : Package) x1 x2 x3 (h0 : x0.wf = true) : (@Package.acceptMerge x0 x1 x2 x3).2.2.wf = true := by
  unfold Package.acceptMerge
  try dsimp only
  repeat' with_reducible
    first
      | exact h0 | apply wf_setTide | apply wf_spillWrite | exact hf | assumption | refine wf_labelFor (by assumption) ?_
      | refine wf_foldl ?_ (fun _ _ hf => ?_) | refine wf_foldl_snd ?_ (fun _ _ hf => ?_)
      | (simp only [↓wf_mk]; refine wf_back ?_) | intro _ | split

theorem okeeps_execMergeRecordAccept x0 : OKeeps (@execMergeRecordAccept x0) := by
  first | refine okeeps_lift (fun _ _ hf => ?_) | refine okeeps_ite (okeeps_fault _) (okeeps_lift (fun _ _ hf => ?_))
  try dsimp only
  repeat' with_reducible
    first
      | apply wf_dropInbox | apply wf_send | apply wf_acceptMerge | refine wf_snd (by assumption) (wf_acceptMerge _ _ _ _ ?_)
      | exact hf | assumption | refine wf_foldl ?_ (fun _ _ hf => ?_) | refine wf_foldl_snd ?_ (fun _ _ hf => ?_)
      | (simp only [↓wf_mk]; refine wf_back ?_) | intro _ | split

theorem wf_writeShadow (p : Package) (x : World) (b : Bulk) (h : p.wf = true) : (p.writeShadow x b).2.wf = true := by
  unfold Package.writeShadow
  dsimp only
  apply wf_setWorld
  apply wf_pokeBytes
  split
  · refine wf_parts (p := p) (fun hm => ?_) id rfl h
    unfold copyBytes
    exact spWf_putCells _ (spWf_filter _ hm)
  · exact h

theorem wf_acceptBulk (x0 : Package) x1 x2 x3 (h0 : x0.wf = true) : (@Package.acceptBulk x0 x1 x2 x3).2.2.wf = true := by
  unfold Package.acceptBulk
  try dsimp only
  repeat' with_reducible
    first
      | exact h0 | apply wf_setTide | apply wf_writeShadow | refine wf_snd (by assumption) (wf_writeShadow _ _ _ ?_) | exact hf
      | assumption | refine wf_labelFor (by assumption) ?_ | refine wf_foldl ?_ (fun _ _ hf => ?_)
      | refine wf_foldl_snd ?_ (fun _ _ hf => ?_) | (simp only [↓wf_mk]; refine wf_back ?_) | intro _ | split

theorem okeeps_execBulkWriteAccept x0 : OKeeps (@execBulkWriteAccept x0) := by
  first | refine okeeps_lift (fun _ _ hf => ?_) | refine okeeps_ite (okeeps_fault _) (okeeps_lift (fun _ _ hf => ?_))
  try dsimp only
  repeat' with_reducible
    first
      | apply wf_dropInbox | apply wf_send | apply wf_acceptBulk | refine wf_snd (by assumption) (wf_acceptBulk _ _ _ _ ?_)
      | exact hf | assumption | refine wf_foldl ?_ (fun _ _ hf => ?_) | refine wf_foldl_snd ?_ (fun _ _ hf => ?_)
      | (simp only [↓wf_mk]; refine wf_back ?_) | intro _ | split

theorem wf_acked (x0 : Package) x1 x2 x3 x4 x5 (h0 : x0.wf = true) : (@Package.acked x0 x1 x2 x3 x4 x5).wf = true := by
  unfold Package.acked
  try dsimp only
  repeat' with_reducible
    first
      | exact h0 | apply wf_setAcc | apply wf_setJob | apply wf_setTide | exact hf | assumption
      | refine wf_foldl ?_ (fun _ _ hf => ?_) | refine wf_foldl_snd ?_ (fun _ _ hf => ?_)
      | (simp only [↓wf_mk]; refine wf_back ?_) | intro _ | split

theorem okeeps_execRecordAck x0 : OKeeps (@execRecordAck x0) := by
  first | refine okeeps_lift (fun _ _ hf => ?_) | refine okeeps_ite (okeeps_fault _) (okeeps_lift (fun _ _ hf => ?_))
  try dsimp only
  repeat' with_reducible
    first
      | apply wf_acked | apply wf_dropInbox | apply wf_setJob | exact hf | assumption | refine wf_foldl ?_ (fun _ _ hf => ?_)
      | refine wf_foldl_snd ?_ (fun _ _ hf => ?_) | (simp only [↓wf_mk]; refine wf_back ?_) | intro _ | split

theorem okeeps_execPackageArrive x0 : OKeeps (@execPackageArrive x0) := by
  first | refine okeeps_lift (fun _ _ hf => ?_) | refine okeeps_ite (okeeps_fault _) (okeeps_lift (fun _ _ hf => ?_))
  try dsimp only
  repeat' with_reducible
    first
      | apply wf_send | apply wf_setTide | exact hf | assumption | refine wf_foldl ?_ (fun _ _ hf => ?_)
      | refine wf_foldl_snd ?_ (fun _ _ hf => ?_) | (simp only [↓wf_mk]; refine wf_back ?_) | intro _ | split

theorem okeeps_execArrivalMessage x0 : OKeeps (@execArrivalMessage x0) := by
  first | refine okeeps_lift (fun _ _ hf => ?_) | refine okeeps_ite (okeeps_fault _) (okeeps_lift (fun _ _ hf => ?_))
  try dsimp only
  repeat' with_reducible
    first
      | apply wf_dropInbox | apply wf_send | apply wf_setTide | exact hf | assumption | refine wf_foldl ?_ (fun _ _ hf => ?_)
      | refine wf_foldl_snd ?_ (fun _ _ hf => ?_) | (simp only [↓wf_mk]; refine wf_back ?_) | intro _ | split

theorem wf_applyRec (x0 : Package) x1 x2 (h0 : x0.wf = true) : (@Package.applyRec x0 x1 x2).wf = true := by
  unfold Package.applyRec
  try dsimp only
  repeat' with_reducible
    first
      | exact h0 | apply wf_poke | exact hf | assumption | refine wf_foldl ?_ (fun _ _ hf => ?_)
      | refine wf_foldl_snd ?_ (fun _ _ hf => ?_) | (simp only [↓wf_mk]; refine wf_back ?_) | intro _ | split

theorem wf_podDeliver (x0 : Package) x1 x2 x3 x4 x5 (h0 : x0.wf = true) : (@Package.podDeliver x0 x1 x2 x3 x4 x5).wf = true := by
  unfold Package.podDeliver
  try dsimp only
  repeat' with_reducible
    first
      | exact h0 | apply wf_send | exact hf | assumption | refine wf_foldl ?_ (fun _ _ hf => ?_)
      | refine wf_foldl_snd ?_ (fun _ _ hf => ?_) | (simp only [↓wf_mk]; refine wf_back ?_) | intro _ | split

theorem wf_askMoves (x0 : Package) x1 (h0 : x0.wf = true) : (@Package.askMoves x0 x1).wf = true := by
  unfold Package.askMoves
  try dsimp only
  repeat' with_reducible
    first
      | exact h0 | exact hf | assumption | refine wf_foldl ?_ (fun _ _ hf => ?_) | refine wf_foldl_snd ?_ (fun _ _ hf => ?_)
      | (simp only [↓wf_mk]; refine wf_back ?_) | intro _ | split

theorem wf_applyTide (x0 : Package) x1 x2 (h0 : x0.wf = true) : (@Package.applyTide x0 x1 x2).wf = true := by
  unfold Package.applyTide
  try dsimp only
  repeat' with_reducible
    first
      | exact h0 | apply wf_applyRec | apply wf_askMoves | apply wf_podDeliver | apply wf_setWorld | exact hf | assumption
      | refine wf_foldl ?_ (fun _ _ hf => ?_) | refine wf_foldl_snd ?_ (fun _ _ hf => ?_)
      | (simp only [↓wf_mk]; refine wf_back ?_) | intro _ | split

theorem wf_dropPods (x0 : Package) x1 x2 (h0 : x0.wf = true) : (@Package.dropPods x0 x1 x2).wf = true := by
  unfold Package.dropPods
  try dsimp only
  repeat' with_reducible
    first
      | exact h0 | exact hf | assumption | refine wf_foldl ?_ (fun _ _ hf => ?_) | refine wf_foldl_snd ?_ (fun _ _ hf => ?_)
      | (simp only [↓wf_mk]; refine wf_back ?_) | intro _ | split

theorem okeeps_execReleaseMessage x0 : OKeeps (@execReleaseMessage x0) := by
  first | refine okeeps_lift (fun _ _ hf => ?_) | refine okeeps_ite (okeeps_fault _) (okeeps_lift (fun _ _ hf => ?_))
  try dsimp only
  repeat' with_reducible
    first
      | apply wf_applyTide | apply wf_askMoves | apply wf_dropInbox | apply wf_dropPods | apply wf_send | apply wf_setTide
      | apply wf_setWorld | exact hf | assumption | refine wf_foldl ?_ (fun _ _ hf => ?_)
      | refine wf_foldl_snd ?_ (fun _ _ hf => ?_) | (simp only [↓wf_mk]; refine wf_back ?_) | intro _ | split

theorem okeeps_execApplyDone x0 : OKeeps (@execApplyDone x0) := by
  first | refine okeeps_lift (fun _ _ hf => ?_) | refine okeeps_ite (okeeps_fault _) (okeeps_lift (fun _ _ hf => ?_))
  try dsimp only
  repeat' with_reducible
    first
      | apply wf_dropPods | apply wf_setTide | exact hf | assumption | refine wf_foldl ?_ (fun _ _ hf => ?_)
      | refine wf_foldl_snd ?_ (fun _ _ hf => ?_) | (simp only [↓wf_mk]; refine wf_back ?_) | intro _ | split

theorem wf_giveResults (x0 : Package) x1 x2 (h0 : x0.wf = true) : (@Package.giveResults x0 x1 x2).wf = true := by
  unfold Package.giveResults
  try dsimp only
  repeat' with_reducible
    first
      | exact h0 | apply wf_flagDone | apply wf_putVal | apply wf_setThread | exact hf | assumption
      | refine wf_foldl ?_ (fun _ _ hf => ?_) | refine wf_foldl_snd ?_ (fun _ _ hf => ?_)
      | (simp only [↓wf_mk]; refine wf_back ?_) | intro _ | split

theorem wf_lateBulk (x0 : Package) x1 x2 (h0 : x0.wf = true) : (@Package.lateBulk x0 x1 x2).wf = true := by
  induction x2 generalizing x0 x1 h0 with
  | nil =>
    unfold Package.lateBulk
    try dsimp only
    repeat' with_reducible
    first
        | exact h0 | apply ih | apply wf_writeShadow | refine wf_snd (by assumption) (wf_writeShadow _ _ _ ?_) | exact hf
        | assumption | refine wf_foldl ?_ (fun _ _ hf => ?_) | refine wf_foldl_snd ?_ (fun _ _ hf => ?_)
        | (simp only [↓wf_mk]; refine wf_back ?_) | intro _ | split
  | cons y ys ih =>
    unfold Package.lateBulk
    try dsimp only
    repeat' with_reducible
    first
        | exact h0 | apply ih | apply wf_writeShadow | refine wf_snd (by assumption) (wf_writeShadow _ _ _ ?_) | exact hf
        | assumption | refine wf_foldl ?_ (fun _ _ hf => ?_) | refine wf_foldl_snd ?_ (fun _ _ hf => ?_)
        | (simp only [↓wf_mk]; refine wf_back ?_) | intro _ | split

theorem wf_sendReset (x0 : Package) x1 (h0 : x0.wf = true) : (@Package.sendReset x0 x1).wf = true := by
  unfold Package.sendReset
  try dsimp only
  repeat' with_reducible
    first
      | exact h0 | apply wf_send | apply wf_setTide | exact hf | assumption | refine wf_foldl ?_ (fun _ _ hf => ?_)
      | refine wf_foldl_snd ?_ (fun _ _ hf => ?_) | (simp only [↓wf_mk]; refine wf_back ?_) | intro _ | split

theorem okeeps_execTideClose x0 : OKeeps (@execTideClose x0) := by
  first | refine okeeps_lift (fun _ _ hf => ?_) | refine okeeps_ite (okeeps_fault _) (okeeps_lift (fun _ _ hf => ?_))
  try dsimp only
  repeat' with_reducible
    first
      | apply wf_dropPods | apply wf_giveResults | apply wf_lateBulk | apply wf_sendReset | apply wf_setTide
      | apply wf_setWorld | exact hf | assumption | refine wf_foldl ?_ (fun _ _ hf => ?_)
      | refine wf_foldl_snd ?_ (fun _ _ hf => ?_) | (simp only [↓wf_mk]; refine wf_back ?_) | intro _ | split

/-! ### Manifest -/

theorem keeps_recTime : Keeps (recTime) := by
  unfold recTime
  try dsimp only
  repeat' with_reducible
    first
      | exact keeps_pure _ | exact keeps_get | apply keeps_await | refine keeps_modifyGet (fun _ hf => ?_)
      | refine keeps_modify (fun _ hf => ?_) | refine keeps_getBind (fun _ hf => ?_) | refine keeps_set ?_
      | refine keeps_bind ?_ (fun _ => ?_) | exact hf | assumption | refine wf_foldl ?_ (fun _ _ hf => ?_)
      | refine wf_foldl_snd ?_ (fun _ _ hf => ?_) | refine wf_run (by assumption) ?_ ?_
      | refine wf_trapErr (by assumption) ?_ ?_ | (simp only [↓wf_mk]; refine wf_back ?_) | intro _ | split

theorem keeps_manOf x0 x1 : Keeps (@manOf x0 x1) := by
  unfold manOf
  try dsimp only
  repeat' with_reducible
    first
      | exact keeps_pure _ | exact keeps_get | apply keeps_prot | apply keeps_worldOf | refine keeps_modifyGet (fun _ hf => ?_)
      | refine keeps_modify (fun _ hf => ?_) | refine keeps_getBind (fun _ hf => ?_) | refine keeps_set ?_
      | refine keeps_bind ?_ (fun _ => ?_) | exact hf | assumption | refine wf_foldl ?_ (fun _ _ hf => ?_)
      | refine wf_foldl_snd ?_ (fun _ _ hf => ?_) | refine wf_run (by assumption) ?_ ?_
      | refine wf_trapErr (by assumption) ?_ ?_ | (simp only [↓wf_mk]; refine wf_back ?_) | intro _ | split

theorem wf_uncount (x0 : Package) x1 (h0 : x0.wf = true) : (@Package.uncount x0 x1).wf = true := by
  unfold Package.uncount
  try dsimp only
  repeat' with_reducible
    first
      | exact h0 | exact hf | assumption | refine wf_foldl ?_ (fun _ _ hf => ?_) | refine wf_foldl_snd ?_ (fun _ _ hf => ?_)
      | (simp only [↓wf_mk]; refine wf_back ?_) | intro _ | split

theorem keeps_rangeMaps x0 x1 x2 x3 x4 : Keeps (@rangeMaps x0 x1 x2 x3 x4) := by
  induction x4 generalizing x0 x1 x2 x3  with
  | zero =>
    unfold rangeMaps
    try dsimp only
    repeat' with_reducible
    first
        | exact keeps_pure _ | exact keeps_get | apply ih | apply keeps_prot | apply keeps_translate
        | refine keeps_modifyGet (fun _ hf => ?_) | refine keeps_modify (fun _ hf => ?_) | refine keeps_getBind (fun _ hf => ?_)
        | refine keeps_set ?_ | refine keeps_bind ?_ (fun _ => ?_) | exact hf | assumption
        | refine wf_foldl ?_ (fun _ _ hf => ?_) | refine wf_foldl_snd ?_ (fun _ _ hf => ?_) | refine wf_run (by assumption) ?_ ?_
        | refine wf_trapErr (by assumption) ?_ ?_ | (simp only [↓wf_mk]; refine wf_back ?_) | intro _ | split
  | succ n ih =>
    unfold rangeMaps
    try dsimp only
    repeat' with_reducible
    first
        | exact keeps_pure _ | exact keeps_get | apply ih | apply keeps_prot | apply keeps_translate
        | refine keeps_modifyGet (fun _ hf => ?_) | refine keeps_modify (fun _ hf => ?_) | refine keeps_getBind (fun _ hf => ?_)
        | refine keeps_set ?_ | refine keeps_bind ?_ (fun _ => ?_) | exact hf | assumption
        | refine wf_foldl ?_ (fun _ _ hf => ?_) | refine wf_foldl_snd ?_ (fun _ _ hf => ?_) | refine wf_run (by assumption) ?_ ?_
        | refine wf_trapErr (by assumption) ?_ ?_ | (simp only [↓wf_mk]; refine wf_back ?_) | intro _ | split

theorem keeps_plainPage {α : Type} {m : PM α} (h : Keeps m) : Keeps (plainPage m) := by
  intro p hp
  have hm := h p hp
  unfold plainPage
  refine ⟨fun a q hq => ?_, fun e he => ?_⟩
  · split at hq
    · cases hq
    · exact hm.1 _ _ hq
  · split at he
    · next heq => cases he; exact show Package.wf _ = true from hm.2 _ heq
    · exact hm.2 _ he

theorem okeeps_execRecBegin x0 x1 x2 x3 : OKeeps (@execRecBegin x0 x1 x2 x3) := by
  first | refine okeeps_lift (fun _ _ hf => ?_) | refine okeeps_ite (okeeps_fault _) (okeeps_lift (fun _ _ hf => ?_))
  try dsimp only
  repeat' with_reducible
    first
      | apply wf_setMan | apply wf_uncount | apply wf_each | apply keeps_checkFields | apply keeps_manOf
      | apply keeps_plainPage | apply keeps_prot | apply keeps_rangeMaps | apply keeps_readField | apply keeps_recTime
      | apply keeps_teamOf | apply keeps_trap | apply keeps_worldOf | exact keeps_get | refine keeps_getBind (fun _ hf => ?_)
      | refine keeps_modify (fun _ hf => ?_) | refine keeps_set ?_ | refine keeps_bind ?_ (fun _ => ?_) | exact keeps_pure _
      | exact hf | assumption | refine wf_foldl ?_ (fun _ _ hf => ?_) | refine wf_foldl_snd ?_ (fun _ _ hf => ?_)
      | refine wf_run (by assumption) ?_ ?_ | refine wf_trapErr (by assumption) ?_ ?_ | (simp only [↓wf_mk]; refine wf_back ?_)
      | intro _ | split

theorem okeeps_execRecEnd x0 : OKeeps (@execRecEnd x0) := by
  first | refine okeeps_lift (fun _ _ hf => ?_) | refine okeeps_ite (okeeps_fault _) (okeeps_lift (fun _ _ hf => ?_))
  try dsimp only
  repeat' with_reducible
    first
      | apply wf_setMan | apply wf_each | apply keeps_manOf | apply keeps_prot | apply keeps_recTime | exact keeps_get
      | refine keeps_getBind (fun _ hf => ?_) | refine keeps_modify (fun _ hf => ?_) | refine keeps_set ?_
      | refine keeps_bind ?_ (fun _ => ?_) | exact keeps_pure _ | exact hf | assumption | refine wf_foldl ?_ (fun _ _ hf => ?_)
      | refine wf_foldl_snd ?_ (fun _ _ hf => ?_) | refine wf_run (by assumption) ?_ ?_
      | refine wf_trapErr (by assumption) ?_ ?_ | (simp only [↓wf_mk]; refine wf_back ?_) | intro _ | split

theorem okeeps_execRecPlay x0 x1 x2 : OKeeps (@execRecPlay x0 x1 x2) := by
  first | refine okeeps_lift (fun _ _ hf => ?_) | refine okeeps_ite (okeeps_fault _) (okeeps_lift (fun _ _ hf => ?_))
  try dsimp only
  repeat' with_reducible
    first
      | apply wf_setMan | apply wf_each | apply keeps_checkFields | apply keeps_manOf | apply keeps_prot
      | apply keeps_readField | apply keeps_recTime | exact keeps_get | refine keeps_getBind (fun _ hf => ?_)
      | refine keeps_modify (fun _ hf => ?_) | refine keeps_set ?_ | refine keeps_bind ?_ (fun _ => ?_) | exact keeps_pure _
      | exact hf | assumption | refine wf_foldl ?_ (fun _ _ hf => ?_) | refine wf_foldl_snd ?_ (fun _ _ hf => ?_)
      | refine wf_run (by assumption) ?_ ?_ | refine wf_trapErr (by assumption) ?_ ?_ | (simp only [↓wf_mk]; refine wf_back ?_)
      | intro _ | split

theorem wf_dropMan (x0 : Package) x1 (h0 : x0.wf = true) : (@Package.dropMan x0 x1).wf = true := by
  unfold Package.dropMan
  try dsimp only
  repeat' with_reducible
    first
      | exact h0 | apply wf_setMan | apply wf_uncount | exact hf | assumption | refine wf_foldl ?_ (fun _ _ hf => ?_)
      | refine wf_foldl_snd ?_ (fun _ _ hf => ?_) | (simp only [↓wf_mk]; refine wf_back ?_) | intro _ | split

theorem okeeps_execRecDrop x0 : OKeeps (@execRecDrop x0) := by
  first | refine okeeps_lift (fun _ _ hf => ?_) | refine okeeps_ite (okeeps_fault _) (okeeps_lift (fun _ _ hf => ?_))
  try dsimp only
  repeat' with_reducible
    first
      | apply wf_dropMan | apply wf_each | apply keeps_manOf | apply keeps_recTime | exact keeps_get
      | refine keeps_getBind (fun _ hf => ?_) | refine keeps_modify (fun _ hf => ?_) | refine keeps_set ?_
      | refine keeps_bind ?_ (fun _ => ?_) | exact keeps_pure _ | exact hf | assumption | refine wf_foldl ?_ (fun _ _ hf => ?_)
      | refine wf_foldl_snd ?_ (fun _ _ hf => ?_) | refine wf_run (by assumption) ?_ ?_
      | refine wf_trapErr (by assumption) ?_ ?_ | (simp only [↓wf_mk]; refine wf_back ?_) | intro _ | split

theorem okeeps_execRecq x0 x1 : OKeeps (@execRecq x0 x1) := by
  first | refine okeeps_lift (fun _ _ hf => ?_) | refine okeeps_ite (okeeps_fault _) (okeeps_lift (fun _ _ hf => ?_))
  try dsimp only
  repeat' with_reducible
    first
      | apply wf_each | apply keeps_checkFields | apply keeps_manOf | apply keeps_out | apply keeps_resultLabel
      | exact keeps_get | refine keeps_getBind (fun _ hf => ?_) | refine keeps_modify (fun _ hf => ?_) | refine keeps_set ?_
      | refine keeps_bind ?_ (fun _ => ?_) | exact keeps_pure _ | exact hf | assumption | refine wf_foldl ?_ (fun _ _ hf => ?_)
      | refine wf_foldl_snd ?_ (fun _ _ hf => ?_) | refine wf_run (by assumption) ?_ ?_
      | refine wf_trapErr (by assumption) ?_ ?_ | (simp only [↓wf_mk]; refine wf_back ?_) | intro _ | split

theorem wf_copyHit (x0 : Package) x1 x2 x3 (h0 : x0.wf = true) : (@Package.copyHit x0 x1 x2 x3).wf = true := by
  unfold Package.copyHit
  try dsimp only
  repeat' with_reducible
    first
      | exact h0 | apply wf_setLine | apply wf_setMan | exact hf | assumption | refine wf_foldl ?_ (fun _ _ hf => ?_)
      | refine wf_foldl_snd ?_ (fun _ _ hf => ?_) | (simp only [↓wf_mk]; refine wf_back ?_) | intro _ | split

theorem wf_planDelivery (x0 : Package) x1 x2 (h0 : x0.wf = true) : (@Package.planDelivery x0 x1 x2).wf = true := by
  unfold Package.planDelivery
  try dsimp only
  repeat' with_reducible
    first
      | exact h0 | apply wf_setLine | apply wf_fresh | refine wf_snd (by assumption) (wf_fresh _ ?_) | exact hf | assumption
      | refine wf_foldl ?_ (fun _ _ hf => ?_) | refine wf_foldl_snd ?_ (fun _ _ hf => ?_)
      | (simp only [↓wf_mk]; refine wf_back ?_) | intro _ | split

theorem okeeps_execDepartureWindowClear : OKeeps (execDepartureWindowClear) := by
  first | refine okeeps_lift (fun _ _ hf => ?_) | refine okeeps_ite (okeeps_fault _) (okeeps_lift (fun _ _ hf => ?_))
  try dsimp only
  repeat' with_reducible
    first
      | exact hf | assumption | refine wf_foldl ?_ (fun _ _ hf => ?_) | refine wf_foldl_snd ?_ (fun _ _ hf => ?_)
      | (simp only [↓wf_mk]; refine wf_back ?_) | intro _ | split

end Sys2Proof.Machine
end

