-- ==== Sys2Proof/Laws/KeepSystem.lean ====
section
/-! SUPPORT. Every operation and every meaning keeps the form of the tables of a package (`Package.wf`): homes, clauses, traps, the fabric, the system cores, and what moves the machine between instructions. -/

namespace Sys2Proof.Machine

/-! ### Special -/

theorem okeeps_execFsf x0 x1 : OKeeps (@execFsf x0 x1) := by
  first | refine okeeps_lift (fun _ _ hf => ?_) | refine okeeps_ite (okeeps_fault _) (okeeps_lift (fun _ _ hf => ?_))
  try dsimp only
  repeat' with_reducible
    first
      | apply wf_each | apply keeps_checkFields | apply keeps_lateFp | apply keeps_lateResult | apply keeps_readB
      | apply keeps_resultLabel | apply keeps_rmode | exact keeps_get | refine keeps_getBind (fun _ hf => ?_)
      | refine keeps_modify (fun _ hf => ?_) | refine keeps_set ?_ | refine keeps_bind ?_ (fun _ => ?_) | exact keeps_pure _
      | exact hf | assumption | refine wf_foldl ?_ (fun _ _ hf => ?_) | refine wf_foldl_snd ?_ (fun _ _ hf => ?_)
      | refine wf_run (by assumption) ?_ ?_ | refine wf_trapErr (by assumption) ?_ ?_ | (simp only [↓wf_mk]; refine wf_back ?_)
      | intro _ | split

/-! ### Home -/

theorem wf_setStage (x0 : Package) x1 x2 (h0 : x0.wf = true) : (@Package.setStage x0 x1 x2).wf = true := by
  unfold Package.setStage
  try dsimp only
  repeat' with_reducible
    first
      | exact h0 | apply wf_setAcc | exact hf | assumption | refine wf_foldl ?_ (fun _ _ hf => ?_)
      | refine wf_foldl_snd ?_ (fun _ _ hf => ?_) | (simp only [↓wf_mk]; refine wf_back ?_) | intro _ | split

theorem wf_acquireAt (x0 : Package) x1 x2 (h0 : x0.wf = true) : (@Package.acquireAt x0 x1 x2).wf = true := by
  unfold Package.acquireAt
  try dsimp only
  repeat' with_reducible
    first
      | exact h0 | apply wf_recordScope | exact hf | assumption | refine wf_foldl ?_ (fun _ _ hf => ?_)
      | refine wf_foldl_snd ?_ (fun _ _ hf => ?_) | (simp only [↓wf_mk]; refine wf_back ?_) | intro _ | split

theorem wf_perform (x0 : Package) x1 x2 x3 (h0 : x0.wf = true) : (@Package.perform x0 x1 x2 x3).wf = true := by
  unfold Package.perform
  try dsimp only
  repeat' with_reducible
    first
      | exact h0 | apply wf_acquireAt | apply wf_setStage | exact hf | assumption | refine wf_foldl ?_ (fun _ _ hf => ?_)
      | refine wf_foldl_snd ?_ (fun _ _ hf => ?_) | (simp only [↓wf_mk]; refine wf_back ?_) | intro _ | split

theorem wf_lateLabels {p q : Package} {w : Who} {m : Mask} {fp : Option Nat} {l fl : Lbl} (hq : p.lateLabels w m fp = some (l, fl, q))
    (h : p.wf = true) : q.wf = true := by
  unfold Package.lateLabels at hq
  split at hq
  · cases hq
  · next hl =>
    have h1 := wf_labelFor hl h
    split at hq
    · simp only [Option.map_eq_some_iff, Prod.mk.injEq, Prod.exists] at hq
      obtain ⟨_, _, hr, -, -, rfl⟩ := hq
      exact wf_labelFor hr h1
    · cases hq; exact h1

theorem wf_completeWith (x0 : Package) x1 x2 x3 x4 x5 x6 (h0 : x0.wf = true) : (@Package.completeWith x0 x1 x2 x3 x4 x5 x6).wf = true := by
  unfold Package.completeWith
  try dsimp only
  repeat' with_reducible
    first
      | exact h0 | apply wf_flagDone | apply wf_interrupt | refine wf_lateLabels (by assumption) ?_ | apply wf_putVal
      | apply wf_raiseTrap | apply wf_setThread | apply wf_wake | exact hf | assumption | refine wf_foldl ?_ (fun _ _ hf => ?_)
      | refine wf_foldl_snd ?_ (fun _ _ hf => ?_) | (simp only [↓wf_mk]; refine wf_back ?_) | intro _ | split

theorem wf_completeBare (x0 : Package) x1 (h0 : x0.wf = true) : (@Package.completeBare x0 x1).wf = true := by
  unfold Package.completeBare
  try dsimp only
  repeat' with_reducible
    first
      | exact h0 | apply wf_flagDone | apply wf_wake | exact hf | assumption | refine wf_foldl ?_ (fun _ _ hf => ?_)
      | refine wf_foldl_snd ?_ (fun _ _ hf => ?_) | (simp only [↓wf_mk]; refine wf_back ?_) | intro _ | split

theorem okeeps_execLongLatencyComplete x0 : OKeeps (@execLongLatencyComplete x0) := by
  first | refine okeeps_lift (fun _ _ hf => ?_) | refine okeeps_ite (okeeps_fault _) (okeeps_lift (fun _ _ hf => ?_))
  try dsimp only
  repeat' with_reducible
    first
      | apply wf_completeBare | apply wf_completeWith | apply wf_copyHit | apply wf_perform | exact hf | assumption
      | refine wf_foldl ?_ (fun _ _ hf => ?_) | refine wf_foldl_snd ?_ (fun _ _ hf => ?_)
      | (simp only [↓wf_mk]; refine wf_back ?_) | intro _ | split

theorem wf_arrive (x0 : Package) x1 (h0 : x0.wf = true) : (@Package.arrive x0 x1).wf = true := by
  unfold Package.arrive
  try dsimp only
  repeat' with_reducible
    first
      | exact h0 | apply wf_noteWct | apply wf_planDelivery | apply wf_recordScope | apply wf_storeCopy | apply wf_wake
      | exact hf | assumption | refine wf_foldl ?_ (fun _ _ hf => ?_) | refine wf_foldl_snd ?_ (fun _ _ hf => ?_)
      | (simp only [↓wf_mk]; refine wf_back ?_) | intro _ | split

theorem okeeps_execStoreArriveHome x0 : OKeeps (@execStoreArriveHome x0) := by
  first | refine okeeps_lift (fun _ _ hf => ?_) | refine okeeps_ite (okeeps_fault _) (okeeps_lift (fun _ _ hf => ?_))
  try dsimp only
  repeat' with_reducible
    first
      | apply wf_arrive | apply wf_pick | refine wf_snd (by assumption) (wf_pick _ _ ?_) | exact hf | assumption
      | refine wf_foldl ?_ (fun _ _ hf => ?_) | refine wf_foldl_snd ?_ (fun _ _ hf => ?_)
      | (simp only [↓wf_mk]; refine wf_back ?_) | intro _ | split

theorem wf_setDead (x0 : Package) x1 x2 x3 (h0 : x0.wf = true) : (@Package.setDead x0 x1 x2 x3).wf = true := by
  unfold Package.setDead
  try dsimp only
  repeat' with_reducible
    first
      | exact h0 | apply wf_poke | exact hf | assumption | refine wf_foldl ?_ (fun _ _ hf => ?_)
      | refine wf_foldl_snd ?_ (fun _ _ hf => ?_) | (simp only [↓wf_mk]; refine wf_back ?_) | intro _ | split

theorem wf_commit (p : Package) (x : Write) (h : p.wf = true) : (p.commit x).wf = true := by
  unfold Package.commit
  extract_lets _ q
  have hq : q.wf = true := wf_parts (fun hm => spWf_putCells _ hm) (fun hg => spWf_foldl_spSet _ _ _ hg) rfl h
  clear_value q
  split
  · exact hq
  · split
    · exact hq
    · exact wf_setDead _ _ _ _ hq
  · extract_lets r held u
    have hr : r.wf = true := wf_parts (fun hm => spWf_filter _ hm) id rfl hq
    have hu : u.wf = true := wf_foldl hr (fun _ _ hp => wf_dropLine _ _ hp)
    clear_value u
    split
    · exact hu
    · exact wf_setDead _ _ _ _ hu

theorem okeeps_execWctReached x0 : OKeeps (@execWctReached x0) := by
  first | refine okeeps_lift (fun _ _ hf => ?_) | refine okeeps_ite (okeeps_fault _) (okeeps_lift (fun _ _ hf => ?_))
  try dsimp only
  repeat' with_reducible
    first
      | apply wf_commit | apply wf_wake | exact hf | assumption | refine wf_foldl ?_ (fun _ _ hf => ?_)
      | refine wf_foldl_snd ?_ (fun _ _ hf => ?_) | (simp only [↓wf_mk]; refine wf_back ?_) | intro _ | split

theorem wf_evictCopy (x0 : Package) x1 x2 (h0 : x0.wf = true) : (@Package.evictCopy x0 x1 x2).wf = true := by
  unfold Package.evictCopy
  try dsimp only
  repeat' with_reducible
    first
      | exact h0 | apply wf_dropCopy | apply wf_setCore | exact hf | assumption | refine wf_foldl ?_ (fun _ _ hf => ?_)
      | refine wf_foldl_snd ?_ (fun _ _ hf => ?_) | (simp only [↓wf_mk]; refine wf_back ?_) | intro _ | split

theorem wf_evictAll (x0 : Package) x1 x2 (h0 : x0.wf = true) : (@Package.evictAll x0 x1 x2).wf = true := by
  unfold Package.evictAll
  try dsimp only
  repeat' with_reducible
    first
      | exact h0 | apply wf_evictCopy | apply wf_evictL2 | exact hf | assumption | refine wf_foldl ?_ (fun _ _ hf => ?_)
      | refine wf_foldl_snd ?_ (fun _ _ hf => ?_) | (simp only [↓wf_mk]; refine wf_back ?_) | intro _ | split

theorem wf_roomCache (x0 : Package) x1 x2 (h0 : x0.wf = true) : (@Package.roomCache x0 x1 x2).wf = true := by
  unfold Package.roomCache
  try dsimp only
  repeat' with_reducible
    first
      | exact h0 | apply wf_evictCopy | apply wf_pick | refine wf_snd (by assumption) (wf_pick _ _ ?_) | exact hf | assumption
      | refine wf_foldl ?_ (fun _ _ hf => ?_) | refine wf_foldl_snd ?_ (fun _ _ hf => ?_)
      | (simp only [↓wf_mk]; refine wf_back ?_) | intro _ | split

theorem wf_putCopy (x0 : Package) x1 x2 (h0 : x0.wf = true) : (@Package.putCopy x0 x1 x2).wf = true := by
  unfold Package.putCopy
  try dsimp only
  repeat' with_reducible
    first
      | exact h0 | apply wf_copyLeaves | apply wf_roomCache | apply wf_setLine | exact hf | assumption
      | refine wf_foldl ?_ (fun _ _ hf => ?_) | refine wf_foldl_snd ?_ (fun _ _ hf => ?_)
      | (simp only [↓wf_mk]; refine wf_back ?_) | intro _ | split

theorem wf_raiseMaxl (x0 : Package) x1 x2 (h0 : x0.wf = true) : (@Package.raiseMaxl x0 x1 x2).wf = true := by
  unfold Package.raiseMaxl
  try dsimp only
  repeat' with_reducible
    first
      | exact h0 | apply wf_setLine | exact hf | assumption | refine wf_foldl ?_ (fun _ _ hf => ?_)
      | refine wf_foldl_snd ?_ (fun _ _ hf => ?_) | (simp only [↓wf_mk]; refine wf_back ?_) | intro _ | split

theorem wf_serveHere (x0 : Package) x1 x2 x3 (h0 : x0.wf = true) : (@Package.serveHere x0 x1 x2 x3).wf = true := by
  unfold Package.serveHere
  try dsimp only
  repeat' with_reducible
    first
      | exact h0 | apply wf_perform | apply wf_putCopy | apply wf_raiseMaxl | apply wf_setLine | exact hf | assumption
      | refine wf_foldl ?_ (fun _ _ hf => ?_) | refine wf_foldl_snd ?_ (fun _ _ hf => ?_)
      | (simp only [↓wf_mk]; refine wf_back ?_) | intro _ | split

theorem wf_lostMiss (x0 : Package) x1 x2 (h0 : x0.wf = true) : (@Package.lostMiss x0 x1 x2).wf = true := by
  unfold Package.lostMiss
  try dsimp only
  repeat' with_reducible
    first
      | exact h0 | apply wf_setCore | exact hf | assumption | refine wf_foldl ?_ (fun _ _ hf => ?_)
      | refine wf_foldl_snd ?_ (fun _ _ hf => ?_) | (simp only [↓wf_mk]; refine wf_back ?_) | intro _ | split

theorem wf_fillHere (x0 : Package) x1 x2 (h0 : x0.wf = true) : (@Package.fillHere x0 x1 x2).wf = true := by
  unfold Package.fillHere
  try dsimp only
  repeat' with_reducible
    first
      | exact h0 | apply wf_atHomes | apply wf_lostMiss | apply wf_noteFill | apply wf_raiseMaxl | apply wf_serveHere
      | apply wf_setStage | exact hf | assumption | refine wf_foldl ?_ (fun _ _ hf => ?_)
      | refine wf_foldl_snd ?_ (fun _ _ hf => ?_) | (simp only [↓wf_mk]; refine wf_back ?_) | intro _ | split

theorem wf_countMigrate (x0 : Package) x1 x2 x3 x4 (h0 : x0.wf = true) : (@Package.countMigrate x0 x1 x2 x3 x4).wf = true := by
  unfold Package.countMigrate
  try dsimp only
  repeat' with_reducible
    first
      | exact h0 | exact hf | assumption | refine wf_foldl ?_ (fun _ _ hf => ?_) | refine wf_foldl_snd ?_ (fun _ _ hf => ?_)
      | (simp only [↓wf_mk]; refine wf_back ?_) | intro _ | split

theorem wf_answerLoad (x0 : Package) x1 x2 x3 x4 x5 x6 x7 (h0 : x0.wf = true) : (@Package.answerLoad x0 x1 x2 x3 x4 x5 x6 x7).wf = true := by
  unfold Package.answerLoad
  try dsimp only
  repeat' with_reducible
    first
      | exact h0 | apply wf_send | exact hf | assumption | refine wf_foldl ?_ (fun _ _ hf => ?_)
      | refine wf_foldl_snd ?_ (fun _ _ hf => ?_) | (simp only [↓wf_mk]; refine wf_back ?_) | intro _ | split

theorem wf_noteLoad (x0 : Package) x1 x2 x3 x4 x5 x6 x7 x8 (h0 : x0.wf = true) : (@Package.noteLoad x0 x1 x2 x3 x4 x5 x6 x7 x8).wf = true := by
  unfold Package.noteLoad
  try dsimp only
  repeat' with_reducible
    first
      | exact h0 | apply wf_atHomes | apply wf_countMigrate | apply wf_noteRemote | apply wf_recordScope | exact hf
      | assumption | refine wf_foldl ?_ (fun _ _ hf => ?_) | refine wf_foldl_snd ?_ (fun _ _ hf => ?_)
      | (simp only [↓wf_mk]; refine wf_back ?_) | intro _ | split

theorem wf_fillRemote (x0 : Package) x1 (h0 : x0.wf = true) : (@Package.fillRemote x0 x1).wf = true := by
  unfold Package.fillRemote
  try dsimp only
  repeat' with_reducible
    first
      | exact h0 | apply wf_answerLoad | apply wf_dropInbox | apply wf_noteLoad | exact hf | assumption
      | refine wf_foldl ?_ (fun _ _ hf => ?_) | refine wf_foldl_snd ?_ (fun _ _ hf => ?_)
      | (simp only [↓wf_mk]; refine wf_back ?_) | intro _ | split

theorem okeeps_execFillServe x0 x1 : OKeeps (@execFillServe x0 x1) := by
  first | refine okeeps_lift (fun _ _ hf => ?_) | refine okeeps_ite (okeeps_fault _) (okeeps_lift (fun _ _ hf => ?_))
  try dsimp only
  repeat' with_reducible
    first
      | apply wf_evictAll | apply wf_fillHere | apply wf_fillRemote | exact hf | assumption
      | refine wf_foldl ?_ (fun _ _ hf => ?_) | refine wf_foldl_snd ?_ (fun _ _ hf => ?_)
      | (simp only [↓wf_mk]; refine wf_back ?_) | intro _ | split

theorem okeeps_execLeaseEnd x0 x1 : OKeeps (@execLeaseEnd x0 x1) := by
  first | refine okeeps_lift (fun _ _ hf => ?_) | refine okeeps_ite (okeeps_fault _) (okeeps_lift (fun _ _ hf => ?_))
  try dsimp only
  repeat' with_reducible
    first
      | apply wf_dropCopy | exact hf | assumption | refine wf_foldl ?_ (fun _ _ hf => ?_)
      | refine wf_foldl_snd ?_ (fun _ _ hf => ?_) | (simp only [↓wf_mk]; refine wf_back ?_) | intro _ | split

theorem wf_refusals (x0 : Package) x1 x2 (h0 : x0.wf = true) : (@Package.refusals x0 x1 x2).2.wf = true := by
  induction x2 generalizing x0 x1 h0 with
  | nil =>
    unfold Package.refusals
    try dsimp only
    repeat' with_reducible
    first
        | exact h0 | apply ih | apply wf_pick | refine wf_snd (by assumption) (wf_pick _ _ ?_) | exact hf | assumption
        | refine wf_foldl ?_ (fun _ _ hf => ?_) | refine wf_foldl_snd ?_ (fun _ _ hf => ?_)
        | (simp only [↓wf_mk]; refine wf_back ?_) | intro _ | split
  | cons y ys ih =>
    unfold Package.refusals
    try dsimp only
    repeat' with_reducible
    first
        | exact h0 | apply ih | apply wf_pick | refine wf_snd (by assumption) (wf_pick _ _ ?_) | exact hf | assumption
        | refine wf_foldl ?_ (fun _ _ hf => ?_) | refine wf_foldl_snd ?_ (fun _ _ hf => ?_)
        | (simp only [↓wf_mk]; refine wf_back ?_) | intro _ | split

theorem wf_refuseDelivery (x0 : Package) x1 x2 (h0 : x0.wf = true) : (@Package.refuseDelivery x0 x1 x2).wf = true := by
  unfold Package.refuseDelivery
  try dsimp only
  repeat' with_reducible
    first
      | exact h0 | apply wf_depart | exact hf | assumption | refine wf_foldl ?_ (fun _ _ hf => ?_)
      | refine wf_foldl_snd ?_ (fun _ _ hf => ?_) | (simp only [↓wf_mk]; refine wf_back ?_) | intro _ | split

theorem wf_setDests (x0 : Package) x1 x2 (h0 : x0.wf = true) : (@Package.setDests x0 x1 x2).wf = true := by
  unfold Package.setDests
  try dsimp only
  repeat' with_reducible
    first
      | exact h0 | exact hf | assumption | refine wf_foldl ?_ (fun _ _ hf => ?_) | refine wf_foldl_snd ?_ (fun _ _ hf => ?_)
      | (simp only [↓wf_mk]; refine wf_back ?_) | intro _ | split

theorem wf_sendDelivery (x0 : Package) x1 (h0 : x0.wf = true) : (@Package.sendDelivery x0 x1).wf = true := by
  unfold Package.sendDelivery
  try dsimp only
  repeat' with_reducible
    first
      | exact h0 | apply wf_refuseDelivery | apply wf_setDests | apply wf_setMan | apply wf_refusals
      | refine wf_snd (by assumption) (wf_refusals _ _ _ ?_) | exact hf | assumption | refine wf_foldl ?_ (fun _ _ hf => ?_)
      | refine wf_foldl_snd ?_ (fun _ _ hf => ?_) | (simp only [↓wf_mk]; refine wf_back ?_) | intro _ | split

theorem okeeps_execDeliverySend x0 : OKeeps (@execDeliverySend x0) := by
  first | refine okeeps_lift (fun _ _ hf => ?_) | refine okeeps_ite (okeeps_fault _) (okeeps_lift (fun _ _ hf => ?_))
  try dsimp only
  repeat' with_reducible
    first
      | apply wf_sendDelivery | exact hf | assumption | refine wf_foldl ?_ (fun _ _ hf => ?_)
      | refine wf_foldl_snd ?_ (fun _ _ hf => ?_) | (simp only [↓wf_mk]; refine wf_back ?_) | intro _ | split

theorem wf_deliverTo (x0 : Package) x1 x2 (h0 : x0.wf = true) : (@Package.deliverTo x0 x1 x2).wf = true := by
  unfold Package.deliverTo
  try dsimp only
  repeat' with_reducible
    first
      | exact h0 | apply wf_copyHit | apply wf_perform | exact hf | assumption | refine wf_foldl ?_ (fun _ _ hf => ?_)
      | refine wf_foldl_snd ?_ (fun _ _ hf => ?_) | (simp only [↓wf_mk]; refine wf_back ?_) | intro _ | split

theorem okeeps_execDeliveryEnter x0 : OKeeps (@execDeliveryEnter x0) := by
  first | refine okeeps_lift (fun _ _ hf => ?_) | refine okeeps_ite (okeeps_fault _) (okeeps_lift (fun _ _ hf => ?_))
  try dsimp only
  repeat' with_reducible
    first
      | apply wf_deliverTo | apply wf_putCopy | apply wf_refuseDelivery | apply wf_setDests | apply wf_pick
      | refine wf_snd (by assumption) (wf_pick _ _ ?_) | exact hf | assumption | refine wf_foldl ?_ (fun _ _ hf => ?_)
      | refine wf_foldl_snd ?_ (fun _ _ hf => ?_) | (simp only [↓wf_mk]; refine wf_back ?_) | intro _ | split

theorem okeeps_execKeySweepLine x0 : OKeeps (@execKeySweepLine x0) := by
  first | refine okeeps_lift (fun _ _ hf => ?_) | refine okeeps_ite (okeeps_fault _) (okeeps_lift (fun _ _ hf => ?_))
  try dsimp only
  repeat' with_reducible
    first
      | apply wf_setWorld | exact hf | assumption | refine wf_foldl ?_ (fun _ _ hf => ?_)
      | refine wf_foldl_snd ?_ (fun _ _ hf => ?_) | (simp only [↓wf_mk]; refine wf_back ?_) | intro _ | split

theorem wf_pullOut (x0 : Package) x1 (h0 : x0.wf = true) : (@Package.pullOut x0 x1).2.wf = true := by
  unfold Package.pullOut
  try dsimp only
  repeat' with_reducible
    first
      | exact h0 | apply wf_leaveGang | apply wf_setGang | apply wf_setThread | apply wf_unfile | exact hf | assumption
      | refine wf_foldl ?_ (fun _ _ hf => ?_) | refine wf_foldl_snd ?_ (fun _ _ hf => ?_)
      | (simp only [↓wf_mk]; refine wf_back ?_) | intro _ | split

theorem okeeps_execUncorrectableArrive x0 : OKeeps (@execUncorrectableArrive x0) := by
  first | refine okeeps_lift (fun _ _ hf => ?_) | refine okeeps_ite (okeeps_fault _) (okeeps_lift (fun _ _ hf => ?_))
  try dsimp only
  repeat' with_reducible
    first
      | apply wf_flagDone | apply wf_noteError | apply wf_wake | exact hf | assumption | refine wf_foldl ?_ (fun _ _ hf => ?_)
      | refine wf_foldl_snd ?_ (fun _ _ hf => ?_) | (simp only [↓wf_mk]; refine wf_back ?_) | intro _ | split

/-! ### Clause -/

theorem keeps_fetchAt x0 x1 : Keeps (@fetchAt x0 x1) := by
  unfold fetchAt
  try dsimp only
  repeat' with_reducible
    first
      | exact keeps_pure _ | exact keeps_get | apply keeps_reach | apply keeps_teamOf | apply keeps_translate
      | apply keeps_trap | refine keeps_modifyGet (fun _ hf => ?_) | refine keeps_modify (fun _ hf => ?_)
      | refine keeps_getBind (fun _ hf => ?_) | refine keeps_set ?_ | refine keeps_bind ?_ (fun _ => ?_) | exact hf
      | assumption | refine wf_foldl ?_ (fun _ _ hf => ?_) | refine wf_foldl_snd ?_ (fun _ _ hf => ?_)
      | refine wf_run (by assumption) ?_ ?_ | refine wf_trapErr (by assumption) ?_ ?_ | (simp only [↓wf_mk]; refine wf_back ?_)
      | intro _ | split

theorem keeps_fetchWord x0 x1 : Keeps (@fetchWord x0 x1) := by
  unfold fetchWord
  try dsimp only
  repeat' with_reducible
    first
      | exact keeps_pure _ | exact keeps_get | apply keeps_fetchAt | apply keeps_trap | refine keeps_modifyGet (fun _ hf => ?_)
      | refine keeps_modify (fun _ hf => ?_) | refine keeps_getBind (fun _ hf => ?_) | refine keeps_set ?_
      | refine keeps_bind ?_ (fun _ => ?_) | exact hf | assumption | refine wf_foldl ?_ (fun _ _ hf => ?_)
      | refine wf_foldl_snd ?_ (fun _ _ hf => ?_) | refine wf_run (by assumption) ?_ ?_
      | refine wf_trapErr (by assumption) ?_ ?_ | (simp only [↓wf_mk]; refine wf_back ?_) | intro _ | split

theorem keeps_fetchWords x0 x1 x2 : Keeps (@fetchWords x0 x1 x2) := by
  induction x2 generalizing x0 x1  with
  | zero =>
    unfold fetchWords
    try dsimp only
    repeat' with_reducible
    first
        | exact keeps_pure _ | exact keeps_get | apply ih | apply keeps_fetchWord | refine keeps_modifyGet (fun _ hf => ?_)
        | refine keeps_modify (fun _ hf => ?_) | refine keeps_getBind (fun _ hf => ?_) | refine keeps_set ?_
        | refine keeps_bind ?_ (fun _ => ?_) | exact hf | assumption | refine wf_foldl ?_ (fun _ _ hf => ?_)
        | refine wf_foldl_snd ?_ (fun _ _ hf => ?_) | refine wf_run (by assumption) ?_ ?_
        | refine wf_trapErr (by assumption) ?_ ?_ | (simp only [↓wf_mk]; refine wf_back ?_) | intro _ | split
  | succ n ih =>
    unfold fetchWords
    try dsimp only
    repeat' with_reducible
    first
        | exact keeps_pure _ | exact keeps_get | apply ih | apply keeps_fetchWord | refine keeps_modifyGet (fun _ hf => ?_)
        | refine keeps_modify (fun _ hf => ?_) | refine keeps_getBind (fun _ hf => ?_) | refine keeps_set ?_
        | refine keeps_bind ?_ (fun _ => ?_) | exact hf | assumption | refine wf_foldl ?_ (fun _ _ hf => ?_)
        | refine wf_foldl_snd ?_ (fun _ _ hf => ?_) | refine wf_run (by assumption) ?_ ?_
        | refine wf_trapErr (by assumption) ?_ ?_ | (simp only [↓wf_mk]; refine wf_back ?_) | intro _ | split

theorem keeps_fetchClause x0 x1 : Keeps (@fetchClause x0 x1) := by
  unfold fetchClause
  try dsimp only
  repeat' with_reducible
    first
      | exact keeps_pure _ | exact keeps_get | apply keeps_fetchAt | apply keeps_fetchWord | apply keeps_fetchWords
      | apply keeps_prot | apply keeps_trap | refine keeps_modifyGet (fun _ hf => ?_) | refine keeps_modify (fun _ hf => ?_)
      | refine keeps_getBind (fun _ hf => ?_) | refine keeps_set ?_ | refine keeps_bind ?_ (fun _ => ?_) | exact hf
      | assumption | refine wf_foldl ?_ (fun _ _ hf => ?_) | refine wf_foldl_snd ?_ (fun _ _ hf => ?_)
      | refine wf_run (by assumption) ?_ ?_ | refine wf_trapErr (by assumption) ?_ ?_ | (simp only [↓wf_mk]; refine wf_back ?_)
      | intro _ | split

theorem wf_stopFetch (x0 : Package) x1 x2 x3 (h0 : x0.wf = true) : (@Package.stopFetch x0 x1 x2 x3).wf = true := by
  unfold Package.stopFetch
  try dsimp only
  repeat' with_reducible
    first
      | exact h0 | apply wf_killOne | apply wf_leaveGang | apply wf_raiseTrap | apply wf_setThread | exact hf | assumption
      | refine wf_foldl ?_ (fun _ _ hf => ?_) | refine wf_foldl_snd ?_ (fun _ _ hf => ?_)
      | (simp only [↓wf_mk]; refine wf_back ?_) | intro _ | split

theorem keeps_joinDsts x0 x1 x2 : Keeps (@joinDsts x0 x1 x2) := by
  induction x2 generalizing x0 x1  with
  | nil =>
    unfold joinDsts
    try dsimp only
    repeat' with_reducible
    first
        | exact keeps_pure _ | exact keeps_get | apply ih | apply keeps_maskOf | apply keeps_mkLabel | apply keeps_teamOf
        | apply keeps_thr | refine keeps_modifyGet (fun _ hf => ?_) | refine keeps_modify (fun _ hf => ?_)
        | refine keeps_getBind (fun _ hf => ?_) | refine keeps_set ?_ | refine keeps_bind ?_ (fun _ => ?_) | apply wf_putReg
        | exact hf | assumption | refine wf_foldl ?_ (fun _ _ hf => ?_) | refine wf_foldl_snd ?_ (fun _ _ hf => ?_)
        | refine wf_run (by assumption) ?_ ?_ | refine wf_trapErr (by assumption) ?_ ?_ | (simp only [↓wf_mk]; refine wf_back ?_)
        | intro _ | split
  | cons y ys ih =>
    unfold joinDsts
    try dsimp only
    repeat' with_reducible
    first
        | exact keeps_pure _ | exact keeps_get | apply ih | apply keeps_maskOf | apply keeps_mkLabel | apply keeps_teamOf
        | apply keeps_thr | refine keeps_modifyGet (fun _ hf => ?_) | refine keeps_modify (fun _ hf => ?_)
        | refine keeps_getBind (fun _ hf => ?_) | refine keeps_set ?_ | refine keeps_bind ?_ (fun _ => ?_) | apply wf_putReg
        | exact hf | assumption | refine wf_foldl ?_ (fun _ _ hf => ?_) | refine wf_foldl_snd ?_ (fun _ _ hf => ?_)
        | refine wf_run (by assumption) ?_ ?_ | refine wf_trapErr (by assumption) ?_ ?_ | (simp only [↓wf_mk]; refine wf_back ?_)
        | intro _ | split

theorem keeps_joinPreds x0 x1 x2 : Keeps (@joinPreds x0 x1 x2) := by
  induction x2 generalizing x0 x1  with
  | nil =>
    unfold joinPreds
    try dsimp only
    repeat' with_reducible
    first
        | exact keeps_pure _ | exact keeps_get | apply ih | apply keeps_maskOf | apply keeps_mkLabel | apply keeps_setThr
        | apply keeps_thr | refine keeps_modifyGet (fun _ hf => ?_) | refine keeps_modify (fun _ hf => ?_)
        | refine keeps_getBind (fun _ hf => ?_) | refine keeps_set ?_ | refine keeps_bind ?_ (fun _ => ?_) | exact hf
        | assumption | refine wf_foldl ?_ (fun _ _ hf => ?_) | refine wf_foldl_snd ?_ (fun _ _ hf => ?_)
        | refine wf_run (by assumption) ?_ ?_ | refine wf_trapErr (by assumption) ?_ ?_ | (simp only [↓wf_mk]; refine wf_back ?_)
        | intro _ | split
  | cons y ys ih =>
    unfold joinPreds
    try dsimp only
    repeat' with_reducible
    first
        | exact keeps_pure _ | exact keeps_get | apply ih | apply keeps_maskOf | apply keeps_mkLabel | apply keeps_setThr
        | apply keeps_thr | refine keeps_modifyGet (fun _ hf => ?_) | refine keeps_modify (fun _ hf => ?_)
        | refine keeps_getBind (fun _ hf => ?_) | refine keeps_set ?_ | refine keeps_bind ?_ (fun _ => ?_) | exact hf
        | assumption | refine wf_foldl ?_ (fun _ _ hf => ?_) | refine wf_foldl_snd ?_ (fun _ _ hf => ?_)
        | refine wf_run (by assumption) ?_ ?_ | refine wf_trapErr (by assumption) ?_ ?_ | (simp only [↓wf_mk]; refine wf_back ?_)
        | intro _ | split

theorem keeps_writeSet x0 x1 : Keeps (@writeSet x0 x1) := by
  unfold writeSet
  try dsimp only
  repeat' with_reducible
    first
      | exact keeps_pure _ | exact keeps_get | apply keeps_teamOf | refine keeps_modifyGet (fun _ hf => ?_)
      | refine keeps_modify (fun _ hf => ?_) | refine keeps_getBind (fun _ hf => ?_) | refine keeps_set ?_
      | refine keeps_bind ?_ (fun _ => ?_) | exact hf | assumption | refine wf_foldl ?_ (fun _ _ hf => ?_)
      | refine wf_foldl_snd ?_ (fun _ _ hf => ?_) | refine wf_run (by assumption) ?_ ?_
      | refine wf_trapErr (by assumption) ?_ ?_ | (simp only [↓wf_mk]; refine wf_back ?_) | intro _ | split

theorem keeps_popCtx x0 x1 x2 : Keeps (@popCtx x0 x1 x2) := by
  induction x2 generalizing x0 x1  with
  | zero =>
    unfold popCtx
    try dsimp only
    repeat' with_reducible
    first
        | exact keeps_pure _ | exact keeps_get | apply ih | apply keeps_joinDsts | apply keeps_joinPreds | apply keeps_maskOf
        | apply keeps_setThr | apply keeps_teamOf | apply keeps_thr | apply keeps_writeSet
        | refine keeps_modifyGet (fun _ hf => ?_) | refine keeps_modify (fun _ hf => ?_) | refine keeps_getBind (fun _ hf => ?_)
        | refine keeps_set ?_ | refine keeps_bind ?_ (fun _ => ?_) | exact hf | assumption
        | refine wf_foldl ?_ (fun _ _ hf => ?_) | refine wf_foldl_snd ?_ (fun _ _ hf => ?_) | refine wf_run (by assumption) ?_ ?_
        | refine wf_trapErr (by assumption) ?_ ?_ | (simp only [↓wf_mk]; refine wf_back ?_) | intro _ | split
  | succ n ih =>
    unfold popCtx
    try dsimp only
    repeat' with_reducible
    first
        | exact keeps_pure _ | exact keeps_get | apply ih | apply keeps_joinDsts | apply keeps_joinPreds | apply keeps_maskOf
        | apply keeps_setThr | apply keeps_teamOf | apply keeps_thr | apply keeps_writeSet
        | refine keeps_modifyGet (fun _ hf => ?_) | refine keeps_modify (fun _ hf => ?_) | refine keeps_getBind (fun _ hf => ?_)
        | refine keeps_set ?_ | refine keeps_bind ?_ (fun _ => ?_) | exact hf | assumption
        | refine wf_foldl ?_ (fun _ _ hf => ?_) | refine wf_foldl_snd ?_ (fun _ _ hf => ?_) | refine wf_run (by assumption) ?_ ?_
        | refine wf_trapErr (by assumption) ?_ ?_ | (simp only [↓wf_mk]; refine wf_back ?_) | intro _ | split

theorem wf_popAll (x0 : Package) x1 x2 x3 (h0 : x0.wf = true) : (@Package.popAll x0 x1 x2 x3).wf = true := by
  unfold Package.popAll
  try dsimp only
  repeat' with_reducible
    first
      | exact h0 | apply wf_keep | apply wf_raiseTrap | apply keeps_popCtx | exact keeps_get
      | refine keeps_getBind (fun _ hf => ?_) | refine keeps_modify (fun _ hf => ?_) | refine keeps_set ?_
      | refine keeps_bind ?_ (fun _ => ?_) | exact keeps_pure _ | exact hf | assumption | refine wf_foldl ?_ (fun _ _ hf => ?_)
      | refine wf_foldl_snd ?_ (fun _ _ hf => ?_) | refine wf_run (by assumption) ?_ ?_
      | refine wf_trapErr (by assumption) ?_ ?_ | (simp only [↓wf_mk]; refine wf_back ?_) | intro _ | split

theorem wf_parkAll (x0 : Package) x1 x2 x3 (h0 : x0.wf = true) : (@Package.parkAll x0 x1 x2 x3).2.wf = true := by
  unfold Package.parkAll
  try dsimp only
  repeat' with_reducible
    first
      | exact h0 | apply wf_fileAll | apply wf_park | apply wf_releaseDone | apply wf_settle | exact hf | assumption
      | refine wf_foldl ?_ (fun _ _ hf => ?_) | refine wf_foldl_snd ?_ (fun _ _ hf => ?_)
      | (simp only [↓wf_mk]; refine wf_back ?_) | intro _ | split

theorem wf_stallGang (x0 : Package) x1 x2 x3 (h0 : x0.wf = true) : (@Package.stallGang x0 x1 x2 x3).wf = true := by
  unfold Package.stallGang
  try dsimp only
  repeat' with_reducible
    first
      | exact h0 | apply wf_setGang | exact hf | assumption | refine wf_foldl ?_ (fun _ _ hf => ?_)
      | refine wf_foldl_snd ?_ (fun _ _ hf => ?_) | (simp only [↓wf_mk]; refine wf_back ?_) | intro _ | split

theorem wf_takePipes (x0 : Package) x1 x2 (h0 : x0.wf = true) : (@Package.takePipes x0 x1 x2).wf = true := by
  unfold Package.takePipes
  try dsimp only
  repeat' with_reducible
    first
      | exact h0 | exact hf | assumption | refine wf_foldl ?_ (fun _ _ hf => ?_) | refine wf_foldl_snd ?_ (fun _ _ hf => ?_)
      | (simp only [↓wf_mk]; refine wf_back ?_) | intro _ | split

theorem wf_issueClause (x0 : Package) x1 x2 x3 x4 x5 (h0 : x0.wf = true) : (@Package.issueClause x0 x1 x2 x3 x4 x5).wf = true := by
  unfold Package.issueClause
  try dsimp only
  repeat' with_reducible
    first
      | exact h0 | apply wf_setGang | apply wf_setThread | exact hf | assumption | refine wf_foldl ?_ (fun _ _ hf => ?_)
      | refine wf_foldl_snd ?_ (fun _ _ hf => ?_) | (simp only [↓wf_mk]; refine wf_back ?_) | intro _ | split

theorem wf_reissue (x0 : Package) x1 x2 (h0 : x0.wf = true) : (@Package.reissue x0 x1 x2).wf = true := by
  unfold Package.reissue
  try dsimp only
  repeat' with_reducible
    first
      | exact h0 | apply wf_setGang | exact hf | assumption | refine wf_foldl ?_ (fun _ _ hf => ?_)
      | refine wf_foldl_snd ?_ (fun _ _ hf => ?_) | (simp only [↓wf_mk]; refine wf_back ?_) | intro _ | split

theorem wf_startClause (x0 : Package) x1 x2 (h0 : x0.wf = true) : (@Package.startClause x0 x1 x2).wf = true := by
  unfold Package.startClause
  try dsimp only
  repeat' with_reducible
    first
      | exact h0 | apply wf_commitCeilings | apply wf_issueClause | apply wf_popAll | apply wf_raiseTrap | apply wf_stallGang
      | apply wf_stopFetch | apply wf_takePipes | apply wf_parkAll | refine wf_snd (by assumption) (wf_parkAll _ _ _ _ ?_)
      | apply keeps_fetchClause | exact keeps_get | refine keeps_getBind (fun _ hf => ?_)
      | refine keeps_modify (fun _ hf => ?_) | refine keeps_set ?_ | refine keeps_bind ?_ (fun _ => ?_) | exact keeps_pure _
      | exact hf | assumption | refine wf_foldl ?_ (fun _ _ hf => ?_) | refine wf_foldl_snd ?_ (fun _ _ hf => ?_)
      | refine wf_run (by assumption) ?_ ?_ | refine wf_trapErr (by assumption) ?_ ?_ | (simp only [↓wf_mk]; refine wf_back ?_)
      | intro _ | split

theorem wf_takeError (x0 : Package) x1 x2 (h0 : x0.wf = true) : (@Package.takeError x0 x1 x2).wf = true := by
  unfold Package.takeError
  try dsimp only
  repeat' with_reducible
    first
      | exact h0 | apply wf_raiseTrap | apply wf_setThread | exact hf | assumption | refine wf_foldl ?_ (fun _ _ hf => ?_)
      | refine wf_foldl_snd ?_ (fun _ _ hf => ?_) | (simp only [↓wf_mk]; refine wf_back ?_) | intro _ | split

theorem wf_resumeClause (x0 : Package) x1 x2 (h0 : x0.wf = true) : (@Package.resumeClause x0 x1 x2).wf = true := by
  unfold Package.resumeClause
  try dsimp only
  repeat' with_reducible
    first
      | exact h0 | apply wf_reissue | apply wf_takePipes | exact hf | assumption | refine wf_foldl ?_ (fun _ _ hf => ?_)
      | refine wf_foldl_snd ?_ (fun _ _ hf => ?_) | (simp only [↓wf_mk]; refine wf_back ?_) | intro _ | split

theorem wf_nextClause (x0 : Package) x1 x2 (h0 : x0.wf = true) : (@Package.nextClause x0 x1 x2).wf = true := by
  unfold Package.nextClause
  try dsimp only
  repeat' with_reducible
    first
      | exact h0 | apply wf_startClause | apply wf_takeError | exact hf | assumption | refine wf_foldl ?_ (fun _ _ hf => ?_)
      | refine wf_foldl_snd ?_ (fun _ _ hf => ?_) | (simp only [↓wf_mk]; refine wf_back ?_) | intro _ | split

theorem wf_tryLone (x0 : Package) x1 x2 (h0 : x0.wf = true) : (@Package.tryLone x0 x1 x2).wf = true := by
  unfold Package.tryLone
  try dsimp only
  repeat' with_reducible
    first
      | exact h0 | apply wf_fileOne | apply wf_nextClause | apply wf_reissue | exact hf | assumption
      | refine wf_foldl ?_ (fun _ _ hf => ?_) | refine wf_foldl_snd ?_ (fun _ _ hf => ?_)
      | (simp only [↓wf_mk]; refine wf_back ?_) | intro _ | split

theorem okeeps_execClauseIssue x0 : OKeeps (@execClauseIssue x0) := by
  first | refine okeeps_lift (fun _ _ hf => ?_) | refine okeeps_ite (okeeps_fault _) (okeeps_lift (fun _ _ hf => ?_))
  try dsimp only
  repeat' with_reducible
    first
      | apply wf_nextClause | apply wf_resumeClause | apply wf_tryLone | exact hf | assumption
      | refine wf_foldl ?_ (fun _ _ hf => ?_) | refine wf_foldl_snd ?_ (fun _ _ hf => ?_)
      | (simp only [↓wf_mk]; refine wf_back ?_) | intro _ | split

theorem okeeps_execBerthEmptyFile x0 x1 : OKeeps (@execBerthEmptyFile x0 x1) := by
  first | refine okeeps_lift (fun _ _ hf => ?_) | refine okeeps_ite (okeeps_fault _) (okeeps_lift (fun _ _ hf => ?_))
  try dsimp only
  repeat' with_reducible
    first
      | apply wf_drainPart | apply wf_settle | exact hf | assumption | refine wf_foldl ?_ (fun _ _ hf => ?_)
      | refine wf_foldl_snd ?_ (fun _ _ hf => ?_) | (simp only [↓wf_mk]; refine wf_back ?_) | intro _ | split

theorem okeeps_execBerthAgeExpiry x0 x1 : OKeeps (@execBerthAgeExpiry x0 x1) := by
  first | refine okeeps_lift (fun _ _ hf => ?_) | refine okeeps_ite (okeeps_fault _) (okeeps_lift (fun _ _ hf => ?_))
  try dsimp only
  repeat' with_reducible
    first
      | apply wf_formGang | exact hf | assumption | refine wf_foldl ?_ (fun _ _ hf => ?_)
      | refine wf_foldl_snd ?_ (fun _ _ hf => ?_) | (simp only [↓wf_mk]; refine wf_back ?_) | intro _ | split

theorem okeeps_execGangIdFree x0 : OKeeps (@execGangIdFree x0) := by
  first | refine okeeps_lift (fun _ _ hf => ?_) | refine okeeps_ite (okeeps_fault _) (okeeps_lift (fun _ _ hf => ?_))
  try dsimp only
  repeat' with_reducible
    first
      | apply wf_settle | exact hf | assumption | refine wf_foldl ?_ (fun _ _ hf => ?_)
      | refine wf_foldl_snd ?_ (fun _ _ hf => ?_) | (simp only [↓wf_mk]; refine wf_back ?_) | intro _ | split

theorem wf_setAside (x0 : Package) x1 x2 (h0 : x0.wf = true) : (@Package.setAside x0 x1 x2).wf = true := by
  unfold Package.setAside
  try dsimp only
  repeat' with_reducible
    first
      | exact h0 | apply wf_leaveGang | apply wf_setThread | exact hf | assumption | refine wf_foldl ?_ (fun _ _ hf => ?_)
      | refine wf_foldl_snd ?_ (fun _ _ hf => ?_) | (simp only [↓wf_mk]; refine wf_back ?_) | intro _ | split

theorem okeeps_execBlockedMemberTimeout x0 : OKeeps (@execBlockedMemberTimeout x0) := by
  first | refine okeeps_lift (fun _ _ hf => ?_) | refine okeeps_ite (okeeps_fault _) (okeeps_lift (fun _ _ hf => ?_))
  try dsimp only
  repeat' with_reducible
    first
      | apply wf_setAside | apply wf_setGang | apply wf_settle | exact hf | assumption | refine wf_foldl ?_ (fun _ _ hf => ?_)
      | refine wf_foldl_snd ?_ (fun _ _ hf => ?_) | (simp only [↓wf_mk]; refine wf_back ?_) | intro _ | split

theorem okeeps_execRejoinTimerExpiry x0 x1 : OKeeps (@execRejoinTimerExpiry x0 x1) := by
  first | refine okeeps_lift (fun _ _ hf => ?_) | refine okeeps_ite (okeeps_fault _) (okeeps_lift (fun _ _ hf => ?_))
  try dsimp only
  repeat' with_reducible
    first
      | apply wf_releaseRec | exact hf | assumption | refine wf_foldl ?_ (fun _ _ hf => ?_)
      | refine wf_foldl_snd ?_ (fun _ _ hf => ?_) | (simp only [↓wf_mk]; refine wf_back ?_) | intro _ | split

theorem okeeps_execYieldExpiry x0 x1 : OKeeps (@execYieldExpiry x0 x1) := by
  first | refine okeeps_lift (fun _ _ hf => ?_) | refine okeeps_ite (okeeps_fault _) (okeeps_lift (fun _ _ hf => ?_))
  try dsimp only
  repeat' with_reducible
    first
      | apply wf_setThread | apply wf_settle | exact hf | assumption | refine wf_foldl ?_ (fun _ _ hf => ?_)
      | refine wf_foldl_snd ?_ (fun _ _ hf => ?_) | (simp only [↓wf_mk]; refine wf_back ?_) | intro _ | split

theorem okeeps_execLoadCapWindowEnd x0 : OKeeps (@execLoadCapWindowEnd x0) := by
  first | refine okeeps_lift (fun _ _ hf => ?_) | refine okeeps_ite (okeeps_fault _) (okeeps_lift (fun _ _ hf => ?_))
  try dsimp only
  repeat' with_reducible
    first
      | apply wf_setCore | exact hf | assumption | refine wf_foldl ?_ (fun _ _ hf => ?_)
      | refine wf_foldl_snd ?_ (fun _ _ hf => ?_) | (simp only [↓wf_mk]; refine wf_back ?_) | intro _ | split

theorem okeeps_execLabelCacheMissDone x0 : OKeeps (@execLabelCacheMissDone x0) := by
  first | refine okeeps_lift (fun _ _ hf => ?_) | refine okeeps_ite (okeeps_fault _) (okeeps_lift (fun _ _ hf => ?_))
  try dsimp only
  repeat' with_reducible
    first
      | apply wf_setGang | exact hf | assumption | refine wf_foldl ?_ (fun _ _ hf => ?_)
      | refine wf_foldl_snd ?_ (fun _ _ hf => ?_) | (simp only [↓wf_mk]; refine wf_back ?_) | intro _ | split

/-! ### Int -/

theorem okeeps_execNop : OKeeps (execNop) := by
  first | refine okeeps_lift (fun _ _ hf => ?_) | refine okeeps_ite (okeeps_fault _) (okeeps_lift (fun _ _ hf => ?_))
  try dsimp only
  repeat' with_reducible
    first
      | exact hf | assumption | refine wf_foldl ?_ (fun _ _ hf => ?_) | refine wf_foldl_snd ?_ (fun _ _ hf => ?_)
      | (simp only [↓wf_mk]; refine wf_back ?_) | intro _ | split

theorem keeps_int2 x0 x1 x2 : Keeps (@int2 x0 x1 x2) := by
  unfold int2
  try dsimp only
  repeat' with_reducible
    first
      | exact keeps_pure _ | exact keeps_get | apply keeps_alu2 | refine keeps_modifyGet (fun _ hf => ?_)
      | refine keeps_modify (fun _ hf => ?_) | refine keeps_getBind (fun _ hf => ?_) | refine keeps_set ?_
      | refine keeps_bind ?_ (fun _ => ?_) | exact hf | assumption | refine wf_foldl ?_ (fun _ _ hf => ?_)
      | refine wf_foldl_snd ?_ (fun _ _ hf => ?_) | refine wf_run (by assumption) ?_ ?_
      | refine wf_trapErr (by assumption) ?_ ?_ | (simp only [↓wf_mk]; refine wf_back ?_) | intro _ | split

theorem okeeps_execAdd x0 : OKeeps (@execAdd x0) := by
  first | refine okeeps_lift (fun _ _ hf => ?_) | refine okeeps_ite (okeeps_fault _) (okeeps_lift (fun _ _ hf => ?_))
  try dsimp only
  repeat' with_reducible
    first
      | apply wf_each | apply keeps_int2 | exact keeps_get | refine keeps_getBind (fun _ hf => ?_)
      | refine keeps_modify (fun _ hf => ?_) | refine keeps_set ?_ | refine keeps_bind ?_ (fun _ => ?_) | exact keeps_pure _
      | exact hf | assumption | refine wf_foldl ?_ (fun _ _ hf => ?_) | refine wf_foldl_snd ?_ (fun _ _ hf => ?_)
      | refine wf_run (by assumption) ?_ ?_ | refine wf_trapErr (by assumption) ?_ ?_ | (simp only [↓wf_mk]; refine wf_back ?_)
      | intro _ | split

theorem okeeps_execAddc x0 : OKeeps (@execAddc x0) := by
  first | refine okeeps_lift (fun _ _ hf => ?_) | refine okeeps_ite (okeeps_fault _) (okeeps_lift (fun _ _ hf => ?_))
  try dsimp only
  repeat' with_reducible
    first
      | apply wf_each | apply keeps_checkFields | apply keeps_readB | apply keeps_readField | apply keeps_resultLabel
      | apply keeps_vout | exact keeps_get | refine keeps_getBind (fun _ hf => ?_) | refine keeps_modify (fun _ hf => ?_)
      | refine keeps_set ?_ | refine keeps_bind ?_ (fun _ => ?_) | exact keeps_pure _ | exact hf | assumption
      | refine wf_foldl ?_ (fun _ _ hf => ?_) | refine wf_foldl_snd ?_ (fun _ _ hf => ?_) | refine wf_run (by assumption) ?_ ?_
      | refine wf_trapErr (by assumption) ?_ ?_ | (simp only [↓wf_mk]; refine wf_back ?_) | intro _ | split

theorem okeeps_execIsub x0 : OKeeps (@execIsub x0) := by
  first | refine okeeps_lift (fun _ _ hf => ?_) | refine okeeps_ite (okeeps_fault _) (okeeps_lift (fun _ _ hf => ?_))
  try dsimp only
  repeat' with_reducible
    first
      | apply wf_each | apply keeps_int2 | exact keeps_get | refine keeps_getBind (fun _ hf => ?_)
      | refine keeps_modify (fun _ hf => ?_) | refine keeps_set ?_ | refine keeps_bind ?_ (fun _ => ?_) | exact keeps_pure _
      | exact hf | assumption | refine wf_foldl ?_ (fun _ _ hf => ?_) | refine wf_foldl_snd ?_ (fun _ _ hf => ?_)
      | refine wf_run (by assumption) ?_ ?_ | refine wf_trapErr (by assumption) ?_ ?_ | (simp only [↓wf_mk]; refine wf_back ?_)
      | intro _ | split

theorem okeeps_execImul x0 : OKeeps (@execImul x0) := by
  first | refine okeeps_lift (fun _ _ hf => ?_) | refine okeeps_ite (okeeps_fault _) (okeeps_lift (fun _ _ hf => ?_))
  try dsimp only
  repeat' with_reducible
    first
      | apply wf_each | apply keeps_int2 | exact keeps_get | refine keeps_getBind (fun _ hf => ?_)
      | refine keeps_modify (fun _ hf => ?_) | refine keeps_set ?_ | refine keeps_bind ?_ (fun _ => ?_) | exact keeps_pure _
      | exact hf | assumption | refine wf_foldl ?_ (fun _ _ hf => ?_) | refine wf_foldl_snd ?_ (fun _ _ hf => ?_)
      | refine wf_run (by assumption) ?_ ?_ | refine wf_trapErr (by assumption) ?_ ?_ | (simp only [↓wf_mk]; refine wf_back ?_)
      | intro _ | split

theorem okeeps_execImad x0 : OKeeps (@execImad x0) := by
  first | refine okeeps_lift (fun _ _ hf => ?_) | refine okeeps_ite (okeeps_fault _) (okeeps_lift (fun _ _ hf => ?_))
  try dsimp only
  repeat' with_reducible
    first
      | apply wf_each | apply keeps_alu3 | exact keeps_get | refine keeps_getBind (fun _ hf => ?_)
      | refine keeps_modify (fun _ hf => ?_) | refine keeps_set ?_ | refine keeps_bind ?_ (fun _ => ?_) | exact keeps_pure _
      | exact hf | assumption | refine wf_foldl ?_ (fun _ _ hf => ?_) | refine wf_foldl_snd ?_ (fun _ _ hf => ?_)
      | refine wf_run (by assumption) ?_ ?_ | refine wf_trapErr (by assumption) ?_ ?_ | (simp only [↓wf_mk]; refine wf_back ?_)
      | intro _ | split

theorem okeeps_execIabs x0 x1 : OKeeps (@execIabs x0 x1) := by
  first | refine okeeps_lift (fun _ _ hf => ?_) | refine okeeps_ite (okeeps_fault _) (okeeps_lift (fun _ _ hf => ?_))
  try dsimp only
  repeat' with_reducible
    first
      | apply wf_each | apply keeps_alu1 | exact keeps_get | refine keeps_getBind (fun _ hf => ?_)
      | refine keeps_modify (fun _ hf => ?_) | refine keeps_set ?_ | refine keeps_bind ?_ (fun _ => ?_) | exact keeps_pure _
      | exact hf | assumption | refine wf_foldl ?_ (fun _ _ hf => ?_) | refine wf_foldl_snd ?_ (fun _ _ hf => ?_)
      | refine wf_run (by assumption) ?_ ?_ | refine wf_trapErr (by assumption) ?_ ?_ | (simp only [↓wf_mk]; refine wf_back ?_)
      | intro _ | split

theorem okeeps_execImin x0 : OKeeps (@execImin x0) := by
  first | refine okeeps_lift (fun _ _ hf => ?_) | refine okeeps_ite (okeeps_fault _) (okeeps_lift (fun _ _ hf => ?_))
  try dsimp only
  repeat' with_reducible
    first
      | apply wf_each | apply keeps_int2 | exact keeps_get | refine keeps_getBind (fun _ hf => ?_)
      | refine keeps_modify (fun _ hf => ?_) | refine keeps_set ?_ | refine keeps_bind ?_ (fun _ => ?_) | exact keeps_pure _
      | exact hf | assumption | refine wf_foldl ?_ (fun _ _ hf => ?_) | refine wf_foldl_snd ?_ (fun _ _ hf => ?_)
      | refine wf_run (by assumption) ?_ ?_ | refine wf_trapErr (by assumption) ?_ ?_ | (simp only [↓wf_mk]; refine wf_back ?_)
      | intro _ | split

theorem okeeps_execImax x0 : OKeeps (@execImax x0) := by
  first | refine okeeps_lift (fun _ _ hf => ?_) | refine okeeps_ite (okeeps_fault _) (okeeps_lift (fun _ _ hf => ?_))
  try dsimp only
  repeat' with_reducible
    first
      | apply wf_each | apply keeps_int2 | exact keeps_get | refine keeps_getBind (fun _ hf => ?_)
      | refine keeps_modify (fun _ hf => ?_) | refine keeps_set ?_ | refine keeps_bind ?_ (fun _ => ?_) | exact keeps_pure _
      | exact hf | assumption | refine wf_foldl ?_ (fun _ _ hf => ?_) | refine wf_foldl_snd ?_ (fun _ _ hf => ?_)
      | refine wf_run (by assumption) ?_ ?_ | refine wf_trapErr (by assumption) ?_ ?_ | (simp only [↓wf_mk]; refine wf_back ?_)
      | intro _ | split

theorem okeeps_execCmp x0 : OKeeps (@execCmp x0) := by
  first | refine okeeps_lift (fun _ _ hf => ?_) | refine okeeps_ite (okeeps_fault _) (okeeps_lift (fun _ _ hf => ?_))
  try dsimp only
  repeat' with_reducible
    first
      | apply wf_each | apply keeps_checkFields | apply keeps_readB | apply keeps_readField | apply keeps_resultLabel
      | apply keeps_writePred | exact keeps_get | refine keeps_getBind (fun _ hf => ?_) | refine keeps_modify (fun _ hf => ?_)
      | refine keeps_set ?_ | refine keeps_bind ?_ (fun _ => ?_) | exact keeps_pure _ | exact hf | assumption
      | refine wf_foldl ?_ (fun _ _ hf => ?_) | refine wf_foldl_snd ?_ (fun _ _ hf => ?_) | refine wf_run (by assumption) ?_ ?_
      | refine wf_trapErr (by assumption) ?_ ?_ | (simp only [↓wf_mk]; refine wf_back ?_) | intro _ | split

theorem okeeps_execLea x0 : OKeeps (@execLea x0) := by
  first | refine okeeps_lift (fun _ _ hf => ?_) | refine okeeps_ite (okeeps_fault _) (okeeps_lift (fun _ _ hf => ?_))
  try dsimp only
  repeat' with_reducible
    first
      | apply wf_each | apply keeps_checkFields | apply keeps_readB | apply keeps_readField | apply keeps_resultLabel
      | apply keeps_vout | exact keeps_get | refine keeps_getBind (fun _ hf => ?_) | refine keeps_modify (fun _ hf => ?_)
      | refine keeps_set ?_ | refine keeps_bind ?_ (fun _ => ?_) | exact keeps_pure _ | exact hf | assumption
      | refine wf_foldl ?_ (fun _ _ hf => ?_) | refine wf_foldl_snd ?_ (fun _ _ hf => ?_) | refine wf_run (by assumption) ?_ ?_
      | refine wf_trapErr (by assumption) ?_ ?_ | (simp only [↓wf_mk]; refine wf_back ?_) | intro _ | split

theorem okeeps_execMov x0 : OKeeps (@execMov x0) := by
  first | refine okeeps_lift (fun _ _ hf => ?_) | refine okeeps_ite (okeeps_fault _) (okeeps_lift (fun _ _ hf => ?_))
  try dsimp only
  repeat' with_reducible
    first
      | apply wf_putVal | apply wf_each | apply keeps_checkFields | apply keeps_illop | apply keeps_readB
      | apply keeps_readField | apply keeps_readSreg | apply keeps_resultLabel | apply keeps_theIssue | apply keeps_vout
      | exact keeps_get | refine keeps_getBind (fun _ hf => ?_) | refine keeps_modify (fun _ hf => ?_) | refine keeps_set ?_
      | refine keeps_bind ?_ (fun _ => ?_) | exact keeps_pure _ | exact hf | assumption | refine wf_foldl ?_ (fun _ _ hf => ?_)
      | refine wf_foldl_snd ?_ (fun _ _ hf => ?_) | refine wf_run (by assumption) ?_ ?_
      | refine wf_trapErr (by assumption) ?_ ?_ | (simp only [↓wf_mk]; refine wf_back ?_) | intro _ | split

theorem okeeps_execMovl x0 x1 x2 : OKeeps (@execMovl x0 x1 x2) := by
  first | refine okeeps_lift (fun _ _ hf => ?_) | refine okeeps_ite (okeeps_fault _) (okeeps_lift (fun _ _ hf => ?_))
  try dsimp only
  repeat' with_reducible
    first
      | apply wf_each | apply keeps_checkFields | apply keeps_resultLabel | apply keeps_vout | exact keeps_get
      | refine keeps_getBind (fun _ hf => ?_) | refine keeps_modify (fun _ hf => ?_) | refine keeps_set ?_
      | refine keeps_bind ?_ (fun _ => ?_) | exact keeps_pure _ | exact hf | assumption | refine wf_foldl ?_ (fun _ _ hf => ?_)
      | refine wf_foldl_snd ?_ (fun _ _ hf => ?_) | refine wf_run (by assumption) ?_ ?_
      | refine wf_trapErr (by assumption) ?_ ?_ | (simp only [↓wf_mk]; refine wf_back ?_) | intro _ | split

/-! ### Cross -/

theorem keeps_ctxOf x0 : Keeps (@ctxOf x0) := by
  unfold ctxOf
  try dsimp only
  repeat' with_reducible
    first
      | exact keeps_pure _ | exact keeps_get | apply keeps_thr | refine keeps_modifyGet (fun _ hf => ?_)
      | refine keeps_modify (fun _ hf => ?_) | refine keeps_getBind (fun _ hf => ?_) | refine keeps_set ?_
      | refine keeps_bind ?_ (fun _ => ?_) | exact hf | assumption | refine wf_foldl ?_ (fun _ _ hf => ?_)
      | refine wf_foldl_snd ?_ (fun _ _ hf => ?_) | refine wf_run (by assumption) ?_ ?_
      | refine wf_trapErr (by assumption) ?_ ?_ | (simp only [↓wf_mk]; refine wf_back ?_) | intro _ | split

theorem okeeps_execShfl x0 : OKeeps (@execShfl x0) := by
  first | refine okeeps_lift (fun _ _ hf => ?_) | refine okeeps_ite (okeeps_fault _) (okeeps_lift (fun _ _ hf => ?_))
  try dsimp only
  repeat' with_reducible
    first
      | apply wf_gather | apply keeps_checkFields | apply keeps_ctxOf | apply keeps_lateResult | apply keeps_readB
      | apply keeps_readField | apply keeps_resultLabel | exact keeps_get | refine keeps_getBind (fun _ hf => ?_)
      | refine keeps_modify (fun _ hf => ?_) | refine keeps_set ?_ | refine keeps_bind ?_ (fun _ => ?_) | exact keeps_pure _
      | exact hf | assumption | refine wf_foldl ?_ (fun _ _ hf => ?_) | refine wf_foldl_snd ?_ (fun _ _ hf => ?_)
      | refine wf_run (by assumption) ?_ ?_ | refine wf_trapErr (by assumption) ?_ ?_ | (simp only [↓wf_mk]; refine wf_back ?_)
      | intro _ | split

theorem okeeps_execVote x0 x1 x2 : OKeeps (@execVote x0 x1 x2) := by
  first | refine okeeps_lift (fun _ _ hf => ?_) | refine okeeps_ite (okeeps_fault _) (okeeps_lift (fun _ _ hf => ?_))
  try dsimp only
  repeat' with_reducible
    first
      | apply wf_gather | apply keeps_checkFields | apply keeps_ctxOf | apply keeps_readPred | apply keeps_resultLabel
      | apply keeps_vout | apply keeps_writePred | exact keeps_get | refine keeps_getBind (fun _ hf => ?_)
      | refine keeps_modify (fun _ hf => ?_) | refine keeps_set ?_ | refine keeps_bind ?_ (fun _ => ?_) | exact keeps_pure _
      | exact hf | assumption | refine wf_foldl ?_ (fun _ _ hf => ?_) | refine wf_foldl_snd ?_ (fun _ _ hf => ?_)
      | refine wf_run (by assumption) ?_ ?_ | refine wf_trapErr (by assumption) ?_ ?_ | (simp only [↓wf_mk]; refine wf_back ?_)
      | intro _ | split

theorem keeps_redRead x0 x1 x2 x3 x4 : Keeps (@redRead x0 x1 x2 x3 x4) := by
  unfold redRead
  try dsimp only
  repeat' with_reducible
    first
      | exact keeps_pure _ | exact keeps_get | apply keeps_checkFields | apply keeps_readField | apply keeps_thr
      | refine keeps_modifyGet (fun _ hf => ?_) | refine keeps_modify (fun _ hf => ?_) | refine keeps_getBind (fun _ hf => ?_)
      | refine keeps_set ?_ | refine keeps_bind ?_ (fun _ => ?_) | exact hf | assumption
      | refine wf_foldl ?_ (fun _ _ hf => ?_) | refine wf_foldl_snd ?_ (fun _ _ hf => ?_) | refine wf_run (by assumption) ?_ ?_
      | refine wf_trapErr (by assumption) ?_ ?_ | (simp only [↓wf_mk]; refine wf_back ?_) | intro _ | split

theorem okeeps_execRdx x0 x1 x2 x3 x4 : OKeeps (@execRdx x0 x1 x2 x3 x4) := by
  first | refine okeeps_lift (fun _ _ hf => ?_) | refine okeeps_ite (okeeps_fault _) (okeeps_lift (fun _ _ hf => ?_))
  try dsimp only
  repeat' with_reducible
    first
      | apply wf_gather | apply keeps_lateFp | apply keeps_lateResult | apply keeps_redRead | apply keeps_resultLabel
      | exact keeps_get | refine keeps_getBind (fun _ hf => ?_) | refine keeps_modify (fun _ hf => ?_) | refine keeps_set ?_
      | refine keeps_bind ?_ (fun _ => ?_) | exact keeps_pure _ | exact hf | assumption | refine wf_foldl ?_ (fun _ _ hf => ?_)
      | refine wf_foldl_snd ?_ (fun _ _ hf => ?_) | refine wf_run (by assumption) ?_ ?_
      | refine wf_trapErr (by assumption) ?_ ?_ | (simp only [↓wf_mk]; refine wf_back ?_) | intro _ | split

theorem okeeps_execScan x0 x1 x2 x3 x4 x5 : OKeeps (@execScan x0 x1 x2 x3 x4 x5) := by
  first | refine okeeps_lift (fun _ _ hf => ?_) | refine okeeps_ite (okeeps_fault _) (okeeps_lift (fun _ _ hf => ?_))
  try dsimp only
  repeat' with_reducible
    first
      | apply wf_gather | apply keeps_lateFp | apply keeps_lateResult | apply keeps_redRead | apply keeps_resultLabel
      | exact keeps_get | refine keeps_getBind (fun _ hf => ?_) | refine keeps_modify (fun _ hf => ?_) | refine keeps_set ?_
      | refine keeps_bind ?_ (fun _ => ?_) | exact keeps_pure _ | exact hf | assumption | refine wf_foldl ?_ (fun _ _ hf => ?_)
      | refine wf_foldl_snd ?_ (fun _ _ hf => ?_) | refine wf_run (by assumption) ?_ ?_
      | refine wf_trapErr (by assumption) ?_ ?_ | (simp only [↓wf_mk]; refine wf_back ?_) | intro _ | split

/-! ### Fifo -/

theorem okeeps_execFifoEntryArrive x0 x1 : OKeeps (@execFifoEntryArrive x0 x1) := by
  first | refine okeeps_lift (fun _ _ hf => ?_) | refine okeeps_ite (okeeps_fault _) (okeeps_lift (fun _ _ hf => ?_))
  try dsimp only
  repeat' with_reducible
    first
      | apply wf_completeWith | apply wf_setBank | apply wf_wake | exact hf | assumption
      | refine wf_foldl ?_ (fun _ _ hf => ?_) | refine wf_foldl_snd ?_ (fun _ _ hf => ?_)
      | (simp only [↓wf_mk]; refine wf_back ?_) | intro _ | split

theorem okeeps_execFifoRoom x0 x1 : OKeeps (@execFifoRoom x0 x1) := by
  first | refine okeeps_lift (fun _ _ hf => ?_) | refine okeeps_ite (okeeps_fault _) (okeeps_lift (fun _ _ hf => ?_))
  try dsimp only
  repeat' with_reducible
    first
      | apply wf_unstall | exact hf | assumption | refine wf_foldl ?_ (fun _ _ hf => ?_)
      | refine wf_foldl_snd ?_ (fun _ _ hf => ?_) | (simp only [↓wf_mk]; refine wf_back ?_) | intro _ | split

theorem okeeps_execBankWritebackDone x0 x1 : OKeeps (@execBankWritebackDone x0 x1) := by
  first | refine okeeps_lift (fun _ _ hf => ?_) | refine okeeps_ite (okeeps_fault _) (okeeps_lift (fun _ _ hf => ?_))
  try dsimp only
  repeat' with_reducible
    first
      | apply wf_unstall | exact hf | assumption | refine wf_foldl ?_ (fun _ _ hf => ?_)
      | refine wf_foldl_snd ?_ (fun _ _ hf => ?_) | (simp only [↓wf_mk]; refine wf_back ?_) | intro _ | split

theorem okeeps_execAwaitRelease x0 x1 : OKeeps (@execAwaitRelease x0 x1) := by
  first | refine okeeps_lift (fun _ _ hf => ?_) | refine okeeps_ite (okeeps_fault _) (okeeps_lift (fun _ _ hf => ?_))
  try dsimp only
  repeat' with_reducible
    first
      | exact hf | assumption | refine wf_foldl ?_ (fun _ _ hf => ?_) | refine wf_foldl_snd ?_ (fun _ _ hf => ?_)
      | (simp only [↓wf_mk]; refine wf_back ?_) | intro _ | split

/-! ### Trap -/

theorem okeeps_execTrapEntry x0 x1 : OKeeps (@execTrapEntry x0 x1) := by
  first | refine okeeps_lift (fun _ _ hf => ?_) | refine okeeps_ite (okeeps_fault _) (okeeps_lift (fun _ _ hf => ?_))
  try dsimp only
  repeat' with_reducible
    first
      | apply wf_enterTrap | exact hf | assumption | refine wf_foldl ?_ (fun _ _ hf => ?_)
      | refine wf_foldl_snd ?_ (fun _ _ hf => ?_) | (simp only [↓wf_mk]; refine wf_back ?_) | intro _ | split

theorem okeeps_execPageResident x0 x1 : OKeeps (@execPageResident x0 x1) := by
  first | refine okeeps_lift (fun _ _ hf => ?_) | refine okeeps_ite (okeeps_fault _) (okeeps_lift (fun _ _ hf => ?_))
  try dsimp only
  repeat' with_reducible
    first
      | apply wf_fileOne | apply wf_setTeam | apply wf_setThread | exact hf | assumption
      | refine wf_foldl ?_ (fun _ _ hf => ?_) | refine wf_foldl_snd ?_ (fun _ _ hf => ?_)
      | (simp only [↓wf_mk]; refine wf_back ?_) | intro _ | split

theorem okeeps_execPageDeliver x0 x1 : OKeeps (@execPageDeliver x0 x1) := by
  first | refine okeeps_lift (fun _ _ hf => ?_) | refine okeeps_ite (okeeps_fault _) (okeeps_lift (fun _ _ hf => ?_))
  try dsimp only
  repeat' with_reducible
    first
      | apply wf_raiseTrap | exact hf | assumption | refine wf_foldl ?_ (fun _ _ hf => ?_)
      | refine wf_foldl_snd ?_ (fun _ _ hf => ?_) | (simp only [↓wf_mk]; refine wf_back ?_) | intro _ | split

theorem okeeps_execPreempt x0 : OKeeps (@execPreempt x0) := by
  first | refine okeeps_lift (fun _ _ hf => ?_) | refine okeeps_ite (okeeps_fault _) (okeeps_lift (fun _ _ hf => ?_))
  try dsimp only
  repeat' with_reducible
    first
      | apply wf_setTeam | exact hf | assumption | refine wf_foldl ?_ (fun _ _ hf => ?_)
      | refine wf_foldl_snd ?_ (fun _ _ hf => ?_) | (simp only [↓wf_mk]; refine wf_back ?_) | intro _ | split

theorem wf_pullTeam (x0 : Package) x1 (h0 : x0.wf = true) : (@Package.pullTeam x0 x1).2.wf = true := by
  unfold Package.pullTeam
  try dsimp only
  repeat' with_reducible
    first
      | exact h0 | apply wf_setThread | apply wf_unfile | apply wf_pullOut | refine wf_snd (by assumption) (wf_pullOut _ _ ?_)
      | exact hf | assumption | refine wf_foldl ?_ (fun _ _ hf => ?_) | refine wf_foldl_snd ?_ (fun _ _ hf => ?_)
      | (simp only [↓wf_mk]; refine wf_back ?_) | intro _ | split

theorem okeeps_execPreemptSaveDone x0 : OKeeps (@execPreemptSaveDone x0) := by
  first | refine okeeps_lift (fun _ _ hf => ?_) | refine okeeps_ite (okeeps_fault _) (okeeps_lift (fun _ _ hf => ?_))
  try dsimp only
  repeat' with_reducible
    first
      | apply wf_restoreAll | apply wf_setTeam | apply wf_settle | apply wf_pullTeam
      | refine wf_snd (by assumption) (wf_pullTeam _ _ ?_) | exact hf | assumption | refine wf_foldl ?_ (fun _ _ hf => ?_)
      | refine wf_foldl_snd ?_ (fun _ _ hf => ?_) | (simp only [↓wf_mk]; refine wf_back ?_) | intro _ | split

theorem wf_restorePops (x0 : Package) x1 x2 x3 (h0 : x0.wf = true) : (@Package.restorePops x0 x1 x2 x3).wf = true := by
  unfold Package.restorePops
  try dsimp only
  repeat' with_reducible
    first
      | exact h0 | apply wf_setAcc | apply wf_fresh | refine wf_snd (by assumption) (wf_fresh _ ?_) | exact hf | assumption
      | refine wf_foldl ?_ (fun _ _ hf => ?_) | refine wf_foldl_snd ?_ (fun _ _ hf => ?_)
      | (simp only [↓wf_mk]; refine wf_back ?_) | intro _ | split

theorem okeeps_execResume x0 x1 : OKeeps (@execResume x0 x1) := by
  first | refine okeeps_lift (fun _ _ hf => ?_) | refine okeeps_ite (okeeps_fault _) (okeeps_lift (fun _ _ hf => ?_))
  try dsimp only
  repeat' with_reducible
    first
      | apply wf_fileAll | apply wf_restorePops | apply wf_restoreSparse | apply wf_setCore | apply wf_setTeam | exact hf
      | assumption | refine wf_foldl ?_ (fun _ _ hf => ?_) | refine wf_foldl_snd ?_ (fun _ _ hf => ?_)
      | (simp only [↓wf_mk]; refine wf_back ?_) | intro _ | split

/-! ### Fabric -/

theorem wf_setPort (x0 : Package) x1 (h0 : x0.wf = true) : (@Package.setPort x0 x1).wf = true := by
  unfold Package.setPort
  try dsimp only
  repeat' with_reducible
    first
      | exact h0 | exact hf | assumption | refine wf_foldl ?_ (fun _ _ hf => ?_) | refine wf_foldl_snd ?_ (fun _ _ hf => ?_)
      | (simp only [↓wf_mk]; refine wf_back ?_) | intro _ | split

theorem wf_countStale (x0 : Package) (h0 : x0.wf = true) : (@Package.countStale x0).wf = true := by
  unfold Package.countStale
  try dsimp only
  repeat' with_reducible
    first
      | exact h0 | apply wf_setPort | apply wf_pick | refine wf_snd (by assumption) (wf_pick _ _ ?_) | exact hf | assumption
      | refine wf_foldl ?_ (fun _ _ hf => ?_) | refine wf_foldl_snd ?_ (fun _ _ hf => ?_)
      | (simp only [↓wf_mk]; refine wf_back ?_) | intro _ | split

theorem wf_setGroup (x0 : Package) x1 x2 (h0 : x0.wf = true) : (@Package.setGroup x0 x1 x2).wf = true := by
  unfold Package.setGroup
  try dsimp only
  repeat' with_reducible
    first
      | exact h0 | exact hf | assumption | refine wf_foldl ?_ (fun _ _ hf => ?_) | refine wf_foldl_snd ?_ (fun _ _ hf => ?_)
      | (simp only [↓wf_mk]; refine wf_back ?_) | intro _ | split

theorem wf_peerDrained (x0 : Package) x1 (h0 : x0.wf = true) : (@Package.peerDrained x0 x1).wf = true := by
  unfold Package.peerDrained
  try dsimp only
  repeat' with_reducible
    first
      | exact h0 | exact hf | assumption | refine wf_foldl ?_ (fun _ _ hf => ?_) | refine wf_foldl_snd ?_ (fun _ _ hf => ?_)
      | (simp only [↓wf_mk]; refine wf_back ?_) | intro _ | split

theorem wf_putPod (x0 : Package) x1 (h0 : x0.wf = true) : (@Package.putPod x0 x1).wf = true := by
  unfold Package.putPod
  try dsimp only
  repeat' with_reducible
    first
      | exact h0 | apply wf_roomCache | apply wf_roomDie | exact hf | assumption | refine wf_foldl ?_ (fun _ _ hf => ?_)
      | refine wf_foldl_snd ?_ (fun _ _ hf => ?_) | (simp only [↓wf_mk]; refine wf_back ?_) | intro _ | split

theorem wf_answered (p : Package) (world src acc val : Nat) (mask : Mask) (bad : Nat) (line : Option Nat) (h : p.wf = true) :
    (p.answered world src acc val mask bad line).wf = true := by
  unfold Package.answered
  extract_lets kept
  clear_value kept
  apply wf_setAcc
  cases kept with
  | none => exact h
  | some c => exact wf_putPod _ _ h

theorem wf_delivered (x0 : Package) x1 x2 x3 x4 x5 (h0 : x0.wf = true) : (@Package.delivered x0 x1 x2 x3 x4 x5).wf = true := by
  unfold Package.delivered
  try dsimp only
  repeat' with_reducible
    first
      | exact h0 | apply wf_putPod | exact hf | assumption | refine wf_foldl ?_ (fun _ _ hf => ?_)
      | refine wf_foldl_snd ?_ (fun _ _ hf => ?_) | (simp only [↓wf_mk]; refine wf_back ?_) | intro _ | split

theorem wf_receive (x0 : Package) x1 (h0 : x0.wf = true) : (@Package.receive x0 x1).wf = true := by
  unfold Package.receive
  try dsimp only
  repeat' with_reducible
    first
      | exact h0 | apply wf_answered | apply wf_countStale | apply wf_delivered | apply wf_peerDrained | apply wf_send
      | apply wf_setGroup | exact hf | assumption | refine wf_labelFor (by assumption) ?_
      | refine wf_foldl ?_ (fun _ _ hf => ?_) | refine wf_foldl_snd ?_ (fun _ _ hf => ?_)
      | (simp only [↓wf_mk]; refine wf_back ?_) | intro _ | split

theorem okeeps_execPacketReceive (src seq : Nat) : OKeeps (execPacketReceive src seq) := by
  intro s hs t ht
  unfold execPacketReceive at ht
  split at ht
  · cases ht; exact hs
  · split at ht
    · cases ht; exact ⟨wf_receive _ _ hs.1, hs.2⟩
    · cases ht; exact hs

theorem wf_retireLink (x0 : Package) x1 (h0 : x0.wf = true) : (@Package.retireLink x0 x1).wf = true := by
  unfold Package.retireLink
  try dsimp only
  repeat' with_reducible
    first
      | exact h0 | apply wf_interrupt | apply wf_setPort | exact hf | assumption | refine wf_foldl ?_ (fun _ _ hf => ?_)
      | refine wf_foldl_snd ?_ (fun _ _ hf => ?_) | (simp only [↓wf_mk]; refine wf_back ?_) | intro _ | split

theorem okeeps_execLaneErasure x0 : OKeeps (@execLaneErasure x0) := by
  first | refine okeeps_lift (fun _ _ hf => ?_) | refine okeeps_ite (okeeps_fault _) (okeeps_lift (fun _ _ hf => ?_))
  try dsimp only
  repeat' with_reducible
    first
      | apply wf_interrupt | apply wf_retireLink | apply wf_setPort | exact hf | assumption
      | refine wf_foldl ?_ (fun _ _ hf => ?_) | refine wf_foldl_snd ?_ (fun _ _ hf => ?_)
      | (simp only [↓wf_mk]; refine wf_back ?_) | intro _ | split

theorem okeeps_execLinkRetire x0 : OKeeps (@execLinkRetire x0) := by
  first | refine okeeps_lift (fun _ _ hf => ?_) | refine okeeps_ite (okeeps_fault _) (okeeps_lift (fun _ _ hf => ?_))
  try dsimp only
  repeat' with_reducible
    first
      | apply wf_retireLink | exact hf | assumption | refine wf_foldl ?_ (fun _ _ hf => ?_)
      | refine wf_foldl_snd ?_ (fun _ _ hf => ?_) | (simp only [↓wf_mk]; refine wf_back ?_) | intro _ | split

theorem okeeps_execSlotStart x0 : OKeeps (@execSlotStart x0) := by
  first | refine okeeps_lift (fun _ _ hf => ?_) | refine okeeps_ite (okeeps_fault _) (okeeps_lift (fun _ _ hf => ?_))
  try dsimp only
  repeat' with_reducible
    first
      | apply wf_setPort | exact hf | assumption | refine wf_foldl ?_ (fun _ _ hf => ?_)
      | refine wf_foldl_snd ?_ (fun _ _ hf => ?_) | (simp only [↓wf_mk]; refine wf_back ?_) | intro _ | split

theorem okeeps_execSlotTableWrite x0 x1 x2 x3 x4 x5 : OKeeps (@execSlotTableWrite x0 x1 x2 x3 x4 x5) := by
  first | refine okeeps_lift (fun _ _ hf => ?_) | refine okeeps_ite (okeeps_fault _) (okeeps_lift (fun _ _ hf => ?_))
  try dsimp only
  repeat' with_reducible
    first
      | apply wf_setPort | exact hf | assumption | refine wf_foldl ?_ (fun _ _ hf => ?_)
      | refine wf_foldl_snd ?_ (fun _ _ hf => ?_) | (simp only [↓wf_mk]; refine wf_back ?_) | intro _ | split

theorem wf_route (x0 : Package) x1 (h0 : x0.wf = true) : (@Package.route x0 x1).2.wf = true := by
  unfold Package.route
  try dsimp only
  repeat' with_reducible
    first
      | exact h0 | apply wf_setPort | apply wf_pick | refine wf_snd (by assumption) (wf_pick _ _ ?_) | exact hf | assumption
      | refine wf_foldl ?_ (fun _ _ hf => ?_) | refine wf_foldl_snd ?_ (fun _ _ hf => ?_)
      | (simp only [↓wf_mk]; refine wf_back ?_) | intro _ | split

theorem wf_routeAll (x0 : Package) x1 (h0 : x0.wf = true) : (@Package.routeAll x0 x1).2.wf = true := by
  induction x1 generalizing x0 h0 with
  | nil =>
    unfold Package.routeAll
    try dsimp only
    repeat' with_reducible
    first
        | exact h0 | apply ih | apply wf_route | refine wf_snd (by assumption) (wf_route _ _ ?_) | exact hf | assumption
        | refine wf_foldl ?_ (fun _ _ hf => ?_) | refine wf_foldl_snd ?_ (fun _ _ hf => ?_)
        | (simp only [↓wf_mk]; refine wf_back ?_) | intro _ | split
  | cons y ys ih =>
    unfold Package.routeAll
    try dsimp only
    repeat' with_reducible
    first
        | exact h0 | apply ih | apply wf_route | refine wf_snd (by assumption) (wf_route _ _ ?_) | exact hf | assumption
        | refine wf_foldl ?_ (fun _ _ hf => ?_) | refine wf_foldl_snd ?_ (fun _ _ hf => ?_)
        | (simp only [↓wf_mk]; refine wf_back ?_) | intro _ | split

theorem wf_transmit (x0 : Package) (h0 : x0.wf = true) : (@Package.transmit x0).2.wf = true := by
  unfold Package.transmit
  try dsimp only
  repeat' with_reducible
    first
      | exact h0 | apply wf_routeAll | refine wf_snd (by assumption) (wf_routeAll _ _ ?_) | exact hf | assumption
      | refine wf_foldl ?_ (fun _ _ hf => ?_) | refine wf_foldl_snd ?_ (fun _ _ hf => ?_)
      | (simp only [↓wf_mk]; refine wf_back ?_) | intro _ | split

theorem wf_startCircuit (x0 : Package) x1 x2 x3 (h0 : x0.wf = true) : (@Package.startCircuit x0 x1 x2 x3).wf = true := by
  unfold Package.startCircuit
  try dsimp only
  repeat' with_reducible
    first
      | exact h0 | apply wf_send | exact hf | assumption | refine wf_foldl ?_ (fun _ _ hf => ?_)
      | refine wf_foldl_snd ?_ (fun _ _ hf => ?_) | (simp only [↓wf_mk]; refine wf_back ?_) | intro _ | split

theorem wf_map {f : Package → Package} {l : List Package} (hf : ∀ p, p.wf = true → (f p).wf = true)
    (h : ∀ p ∈ l, p.wf = true) : ∀ p ∈ l.map f, p.wf = true := by
  intro p hp
  obtain ⟨q, hq, rfl⟩ := List.mem_map.mp hp
  exact hf _ (h q hq)

theorem okeeps_execCircuitChange (peers : List (Nat × Nat)) (tables : List (Nat × Nat × Nat × Nat)) : OKeeps (execCircuitChange peers tables) := by
  intro s hs t ht
  unfold execCircuitChange at ht
  split at ht
  · cases ht; exact hs
  · cases ht
    exact ⟨wf_startCircuit _ _ _ _ (wf_commandAdd _ _ _ _ _ _ hs.1), wf_map (fun _ hp => wf_startCircuit _ _ _ _ hp) hs.2⟩

theorem okeeps_execDrainMarkerAck : OKeeps execDrainMarkerAck := by
  intro s hs t ht
  unfold execDrainMarkerAck at ht
  dsimp only at ht
  split at ht
  · cases ht
    exact ⟨hs.1, wf_map (fun _ hp => hp) hs.2⟩
  · cases ht; exact hs

theorem wf_relock (x0 : Package) (h0 : x0.wf = true) : (@Package.relock x0).wf = true := by
  unfold Package.relock
  try dsimp only
  repeat' with_reducible
    first
      | exact h0 | apply wf_journalSet | apply wf_wake | exact hf | assumption | refine wf_foldl ?_ (fun _ _ hf => ?_)
      | refine wf_foldl_snd ?_ (fun _ _ hf => ?_) | (simp only [↓wf_mk]; refine wf_back ?_) | intro _ | split

theorem okeeps_execRelock : OKeeps execRelock := by
  intro s hs t ht
  unfold execRelock at ht
  cases ht
  exact ⟨wf_relock _ hs.1, wf_map (fun _ hp => wf_relock _ hp) hs.2⟩

theorem wf_onTug (x0 : Package) x1 (h0 : x0.wf = true) : (@Package.onTug x0 x1).2.wf = true := by
  induction x1 generalizing x0 h0 with
  | nil =>
    unfold Package.onTug
    try dsimp only
    repeat' with_reducible
    first
        | exact h0 | apply ih | apply wf_pick | refine wf_snd (by assumption) (wf_pick _ _ ?_) | exact hf | assumption
        | refine wf_foldl ?_ (fun _ _ hf => ?_) | refine wf_foldl_snd ?_ (fun _ _ hf => ?_)
        | (simp only [↓wf_mk]; refine wf_back ?_) | intro _ | split
  | cons y ys ih =>
    unfold Package.onTug
    try dsimp only
    repeat' with_reducible
    first
        | exact h0 | apply ih | apply wf_pick | refine wf_snd (by assumption) (wf_pick _ _ ?_) | exact hf | assumption
        | refine wf_foldl ?_ (fun _ _ hf => ?_) | refine wf_foldl_snd ?_ (fun _ _ hf => ?_)
        | (simp only [↓wf_mk]; refine wf_back ?_) | intro _ | split

theorem okeeps_execTugFirmwareDownload x0 x1 x2 x3 : OKeeps (@execTugFirmwareDownload x0 x1 x2 x3) := by
  first | refine okeeps_lift (fun _ _ hf => ?_) | refine okeeps_ite (okeeps_fault _) (okeeps_lift (fun _ _ hf => ?_))
  try dsimp only
  repeat' with_reducible
    first
      | apply wf_setPort | apply wf_commandAdd | refine wf_snd (by assumption) (wf_commandAdd _ _ _ _ _ _ ?_) | apply wf_onTug
      | refine wf_snd (by assumption) (wf_onTug _ _ ?_) | exact hf | assumption | refine wf_foldl ?_ (fun _ _ hf => ?_)
      | refine wf_foldl_snd ?_ (fun _ _ hf => ?_) | (simp only [↓wf_mk]; refine wf_back ?_) | intro _ | split

theorem okeeps_execTugFault x0 : OKeeps (@execTugFault x0) := by
  first | refine okeeps_lift (fun _ _ hf => ?_) | refine okeeps_ite (okeeps_fault _) (okeeps_lift (fun _ _ hf => ?_))
  try dsimp only
  repeat' with_reducible
    first
      | apply wf_interrupt | apply wf_onTug | refine wf_snd (by assumption) (wf_onTug _ _ ?_) | exact hf | assumption
      | refine wf_foldl ?_ (fun _ _ hf => ?_) | refine wf_foldl_snd ?_ (fun _ _ hf => ?_)
      | (simp only [↓wf_mk]; refine wf_back ?_) | intro _ | split

theorem wf_putGroup (x0 : Package) x1 (h0 : x0.wf = true) : (@Package.putGroup x0 x1).wf = true := by
  unfold Package.putGroup
  try dsimp only
  repeat' with_reducible
    first
      | exact h0 | exact hf | assumption | refine wf_foldl ?_ (fun _ _ hf => ?_) | refine wf_foldl_snd ?_ (fun _ _ hf => ?_)
      | (simp only [↓wf_mk]; refine wf_back ?_) | intro _ | split

theorem okeeps_execGroupTableChange x0 x1 x2 x3 x4 : OKeeps (@execGroupTableChange x0 x1 x2 x3 x4) := by
  first | refine okeeps_lift (fun _ _ hf => ?_) | refine okeeps_ite (okeeps_fault _) (okeeps_lift (fun _ _ hf => ?_))
  try dsimp only
  repeat' with_reducible
    first
      | refine wf_systemWriteOr ?_ | apply wf_putGroup | refine wf_systemWrite (by assumption) ?_ | apply wf_commandAdd
      | refine wf_snd (by assumption) (wf_commandAdd _ _ _ _ _ _ ?_) | exact hf | assumption
      | refine wf_foldl ?_ (fun _ _ hf => ?_) | refine wf_foldl_snd ?_ (fun _ _ hf => ?_)
      | (simp only [↓wf_mk]; refine wf_back ?_) | intro _ | split

theorem wf_startDrain (x0 : Package) x1 (h0 : x0.wf = true) : (@Package.startDrain x0 x1).wf = true := by
  unfold Package.startDrain
  try dsimp only
  repeat' with_reducible
    first
      | exact h0 | apply wf_putGroup | apply wf_send | exact hf | assumption | refine wf_foldl ?_ (fun _ _ hf => ?_)
      | refine wf_foldl_snd ?_ (fun _ _ hf => ?_) | (simp only [↓wf_mk]; refine wf_back ?_) | intro _ | split

theorem wf_endDrain (x0 : Package) x1 (h0 : x0.wf = true) : (@Package.endDrain x0 x1).wf = true := by
  unfold Package.endDrain
  try dsimp only
  repeat' with_reducible
    first
      | exact h0 | apply wf_putGroup | exact hf | assumption | refine wf_foldl ?_ (fun _ _ hf => ?_)
      | refine wf_foldl_snd ?_ (fun _ _ hf => ?_) | (simp only [↓wf_mk]; refine wf_back ?_) | intro _ | split

theorem okeeps_execDrainRound (id : Nat) : OKeeps (execDrainRound id) := by
  intro s hs t ht
  unfold execDrainRound at ht
  dsimp only at ht
  split at ht
  · split at ht
    · cases ht; exact hs
    · cases ht
      exact ⟨wf_startDrain _ _ hs.1, wf_mapIf (fun _ hp => wf_startDrain _ _ hp) hs.2⟩
  · split at ht
    · cases ht
      exact ⟨wf_endDrain _ _ hs.1, wf_mapIf (fun _ hp => wf_endDrain _ _ hp) hs.2⟩
    · cases ht; exact hs

/-! ### Label -/

theorem okeeps_execLget x0 x1 x2 : OKeeps (@execLget x0 x1 x2) := by
  first | refine okeeps_lift (fun _ _ hf => ?_) | refine okeeps_ite (okeeps_fault _) (okeeps_lift (fun _ _ hf => ?_))
  try dsimp only
  repeat' with_reducible
    first
      | apply wf_each | apply keeps_checkFields | apply keeps_mkLabel | apply keeps_readB | apply keeps_readPred
      | apply keeps_resultLabel | apply keeps_vout | exact keeps_get | refine keeps_getBind (fun _ hf => ?_)
      | refine keeps_modify (fun _ hf => ?_) | refine keeps_set ?_ | refine keeps_bind ?_ (fun _ => ?_) | exact keeps_pure _
      | exact hf | assumption | refine wf_foldl ?_ (fun _ _ hf => ?_) | refine wf_foldl_snd ?_ (fun _ _ hf => ?_)
      | refine wf_run (by assumption) ?_ ?_ | refine wf_trapErr (by assumption) ?_ ?_ | (simp only [↓wf_mk]; refine wf_back ?_)
      | intro _ | split

theorem keeps_labelOperand x0 : Keeps (@labelOperand x0) := by
  unfold labelOperand
  try dsimp only
  repeat' with_reducible
    first
      | exact keeps_pure _ | exact keeps_get | apply keeps_prot | refine keeps_modifyGet (fun _ hf => ?_)
      | refine keeps_modify (fun _ hf => ?_) | refine keeps_getBind (fun _ hf => ?_) | refine keeps_set ?_
      | refine keeps_bind ?_ (fun _ => ?_) | exact hf | assumption | refine wf_foldl ?_ (fun _ _ hf => ?_)
      | refine wf_foldl_snd ?_ (fun _ _ hf => ?_) | refine wf_run (by assumption) ?_ ?_
      | refine wf_trapErr (by assumption) ?_ ?_ | (simp only [↓wf_mk]; refine wf_back ?_) | intro _ | split

theorem okeeps_execLjoin x0 x1 : OKeeps (@execLjoin x0 x1) := by
  first | refine okeeps_lift (fun _ _ hf => ?_) | refine okeeps_ite (okeeps_fault _) (okeeps_lift (fun _ _ hf => ?_))
  try dsimp only
  repeat' with_reducible
    first
      | apply wf_each | apply keeps_checkFields | apply keeps_labelOperand | apply keeps_maskOf | apply keeps_readB
      | apply keeps_readField | apply keeps_resultLabel | apply keeps_vout | exact keeps_get
      | refine keeps_getBind (fun _ hf => ?_) | refine keeps_modify (fun _ hf => ?_) | refine keeps_set ?_
      | refine keeps_bind ?_ (fun _ => ?_) | exact keeps_pure _ | exact hf | assumption | refine wf_foldl ?_ (fun _ _ hf => ?_)
      | refine wf_foldl_snd ?_ (fun _ _ hf => ?_) | refine wf_run (by assumption) ?_ ?_
      | refine wf_trapErr (by assumption) ?_ ?_ | (simp only [↓wf_mk]; refine wf_back ?_) | intro _ | split

theorem keeps_lceilBody x0 x1 x2 : Keeps (@lceilBody x0 x1 x2) := by
  unfold lceilBody
  try dsimp only
  repeat' with_reducible
    first
      | exact keeps_pure _ | exact keeps_get | apply keeps_checkFields | apply keeps_labelOperand | apply keeps_prot
      | apply keeps_readB | apply keeps_setTeam | apply keeps_teamOf | apply keeps_theIssue
      | refine keeps_modifyGet (fun _ hf => ?_) | refine keeps_modify (fun _ hf => ?_) | refine keeps_getBind (fun _ hf => ?_)
      | refine keeps_set ?_ | refine keeps_bind ?_ (fun _ => ?_) | exact hf | assumption
      | refine wf_foldl ?_ (fun _ _ hf => ?_) | refine wf_foldl_snd ?_ (fun _ _ hf => ?_) | refine wf_run (by assumption) ?_ ?_
      | refine wf_trapErr (by assumption) ?_ ?_ | (simp only [↓wf_mk]; refine wf_back ?_) | intro _ | split

theorem okeeps_execLceil x0 x1 : OKeeps (@execLceil x0 x1) := by
  first | refine okeeps_lift (fun _ _ hf => ?_) | refine okeeps_ite (okeeps_fault _) (okeeps_lift (fun _ _ hf => ?_))
  try dsimp only
  repeat' with_reducible
    first
      | apply wf_eachByIdThen | apply wf_holdRest | apply keeps_lceilBody | exact keeps_get
      | refine keeps_getBind (fun _ hf => ?_) | refine keeps_modify (fun _ hf => ?_) | refine keeps_set ?_
      | refine keeps_bind ?_ (fun _ => ?_) | exact keeps_pure _ | exact hf | assumption | refine wf_foldl ?_ (fun _ _ hf => ?_)
      | refine wf_foldl_snd ?_ (fun _ _ hf => ?_) | refine wf_run (by assumption) ?_ ?_
      | refine wf_trapErr (by assumption) ?_ ?_ | (simp only [↓wf_mk]; refine wf_back ?_) | intro _ | split

theorem okeeps_execEndo x0 : OKeeps (@execEndo x0) := by
  first | refine okeeps_lift (fun _ _ hf => ?_) | refine okeeps_ite (okeeps_fault _) (okeeps_lift (fun _ _ hf => ?_))
  try dsimp only
  repeat' with_reducible
    first
      | apply wf_each | apply keeps_checkFields | apply keeps_env | apply keeps_maskOf | apply keeps_mkLabel | apply keeps_prot
      | apply keeps_readField | apply keeps_trap | apply keeps_worldOf | exact keeps_get
      | refine keeps_getBind (fun _ hf => ?_) | refine keeps_modify (fun _ hf => ?_) | refine keeps_set ?_
      | refine keeps_bind ?_ (fun _ => ?_) | exact keeps_pure _ | exact hf | assumption | refine wf_foldl ?_ (fun _ _ hf => ?_)
      | refine wf_foldl_snd ?_ (fun _ _ hf => ?_) | refine wf_run (by assumption) ?_ ?_
      | refine wf_trapErr (by assumption) ?_ ?_ | (simp only [↓wf_mk]; refine wf_back ?_) | intro _ | split

theorem okeeps_execDecl x0 x1 : OKeeps (@execDecl x0 x1) := by
  first | refine okeeps_lift (fun _ _ hf => ?_) | refine okeeps_ite (okeeps_fault _) (okeeps_lift (fun _ _ hf => ?_))
  try dsimp only
  repeat' with_reducible
    first
      | apply wf_each | apply keeps_checkFields | apply keeps_env | apply keeps_labelOperand | apply keeps_maskOf
      | apply keeps_mkLabel | apply keeps_out | apply keeps_prot | apply keeps_readB | apply keeps_readField | apply keeps_trap
      | apply keeps_worldOf | exact keeps_get | refine keeps_getBind (fun _ hf => ?_) | refine keeps_modify (fun _ hf => ?_)
      | refine keeps_set ?_ | refine keeps_bind ?_ (fun _ => ?_) | exact keeps_pure _ | exact hf | assumption
      | refine wf_foldl ?_ (fun _ _ hf => ?_) | refine wf_foldl_snd ?_ (fun _ _ hf => ?_) | refine wf_run (by assumption) ?_ ?_
      | refine wf_trapErr (by assumption) ?_ ?_ | (simp only [↓wf_mk]; refine wf_back ?_) | intro _ | split

/-! ### Logic -/

theorem keeps_logic2 x0 x1 x2 : Keeps (@logic2 x0 x1 x2) := by
  unfold logic2
  try dsimp only
  repeat' with_reducible
    first
      | exact keeps_pure _ | exact keeps_get | apply keeps_alu2 | refine keeps_modifyGet (fun _ hf => ?_)
      | refine keeps_modify (fun _ hf => ?_) | refine keeps_getBind (fun _ hf => ?_) | refine keeps_set ?_
      | refine keeps_bind ?_ (fun _ => ?_) | exact hf | assumption | refine wf_foldl ?_ (fun _ _ hf => ?_)
      | refine wf_foldl_snd ?_ (fun _ _ hf => ?_) | refine wf_run (by assumption) ?_ ?_
      | refine wf_trapErr (by assumption) ?_ ?_ | (simp only [↓wf_mk]; refine wf_back ?_) | intro _ | split

theorem keeps_shift2 x0 x1 x2 : Keeps (@shift2 x0 x1 x2) := by
  unfold shift2
  try dsimp only
  repeat' with_reducible
    first
      | exact keeps_pure _ | exact keeps_get | apply keeps_alu2 | refine keeps_modifyGet (fun _ hf => ?_)
      | refine keeps_modify (fun _ hf => ?_) | refine keeps_getBind (fun _ hf => ?_) | refine keeps_set ?_
      | refine keeps_bind ?_ (fun _ => ?_) | exact hf | assumption | refine wf_foldl ?_ (fun _ _ hf => ?_)
      | refine wf_foldl_snd ?_ (fun _ _ hf => ?_) | refine wf_run (by assumption) ?_ ?_
      | refine wf_trapErr (by assumption) ?_ ?_ | (simp only [↓wf_mk]; refine wf_back ?_) | intro _ | split

theorem okeeps_execAnd x0 : OKeeps (@execAnd x0) := by
  first | refine okeeps_lift (fun _ _ hf => ?_) | refine okeeps_ite (okeeps_fault _) (okeeps_lift (fun _ _ hf => ?_))
  try dsimp only
  repeat' with_reducible
    first
      | apply wf_each | apply keeps_logic2 | exact keeps_get | refine keeps_getBind (fun _ hf => ?_)
      | refine keeps_modify (fun _ hf => ?_) | refine keeps_set ?_ | refine keeps_bind ?_ (fun _ => ?_) | exact keeps_pure _
      | exact hf | assumption | refine wf_foldl ?_ (fun _ _ hf => ?_) | refine wf_foldl_snd ?_ (fun _ _ hf => ?_)
      | refine wf_run (by assumption) ?_ ?_ | refine wf_trapErr (by assumption) ?_ ?_ | (simp only [↓wf_mk]; refine wf_back ?_)
      | intro _ | split

theorem okeeps_execAndn x0 : OKeeps (@execAndn x0) := by
  first | refine okeeps_lift (fun _ _ hf => ?_) | refine okeeps_ite (okeeps_fault _) (okeeps_lift (fun _ _ hf => ?_))
  try dsimp only
  repeat' with_reducible
    first
      | apply wf_each | apply keeps_logic2 | exact keeps_get | refine keeps_getBind (fun _ hf => ?_)
      | refine keeps_modify (fun _ hf => ?_) | refine keeps_set ?_ | refine keeps_bind ?_ (fun _ => ?_) | exact keeps_pure _
      | exact hf | assumption | refine wf_foldl ?_ (fun _ _ hf => ?_) | refine wf_foldl_snd ?_ (fun _ _ hf => ?_)
      | refine wf_run (by assumption) ?_ ?_ | refine wf_trapErr (by assumption) ?_ ?_ | (simp only [↓wf_mk]; refine wf_back ?_)
      | intro _ | split

theorem okeeps_execOr x0 : OKeeps (@execOr x0) := by
  first | refine okeeps_lift (fun _ _ hf => ?_) | refine okeeps_ite (okeeps_fault _) (okeeps_lift (fun _ _ hf => ?_))
  try dsimp only
  repeat' with_reducible
    first
      | apply wf_each | apply keeps_logic2 | exact keeps_get | refine keeps_getBind (fun _ hf => ?_)
      | refine keeps_modify (fun _ hf => ?_) | refine keeps_set ?_ | refine keeps_bind ?_ (fun _ => ?_) | exact keeps_pure _
      | exact hf | assumption | refine wf_foldl ?_ (fun _ _ hf => ?_) | refine wf_foldl_snd ?_ (fun _ _ hf => ?_)
      | refine wf_run (by assumption) ?_ ?_ | refine wf_trapErr (by assumption) ?_ ?_ | (simp only [↓wf_mk]; refine wf_back ?_)
      | intro _ | split

theorem okeeps_execXor x0 : OKeeps (@execXor x0) := by
  first | refine okeeps_lift (fun _ _ hf => ?_) | refine okeeps_ite (okeeps_fault _) (okeeps_lift (fun _ _ hf => ?_))
  try dsimp only
  repeat' with_reducible
    first
      | apply wf_each | apply keeps_logic2 | exact keeps_get | refine keeps_getBind (fun _ hf => ?_)
      | refine keeps_modify (fun _ hf => ?_) | refine keeps_set ?_ | refine keeps_bind ?_ (fun _ => ?_) | exact keeps_pure _
      | exact hf | assumption | refine wf_foldl ?_ (fun _ _ hf => ?_) | refine wf_foldl_snd ?_ (fun _ _ hf => ?_)
      | refine wf_run (by assumption) ?_ ?_ | refine wf_trapErr (by assumption) ?_ ?_ | (simp only [↓wf_mk]; refine wf_back ?_)
      | intro _ | split

theorem okeeps_execShl x0 : OKeeps (@execShl x0) := by
  first | refine okeeps_lift (fun _ _ hf => ?_) | refine okeeps_ite (okeeps_fault _) (okeeps_lift (fun _ _ hf => ?_))
  try dsimp only
  repeat' with_reducible
    first
      | apply wf_each | apply keeps_shift2 | exact keeps_get | refine keeps_getBind (fun _ hf => ?_)
      | refine keeps_modify (fun _ hf => ?_) | refine keeps_set ?_ | refine keeps_bind ?_ (fun _ => ?_) | exact keeps_pure _
      | exact hf | assumption | refine wf_foldl ?_ (fun _ _ hf => ?_) | refine wf_foldl_snd ?_ (fun _ _ hf => ?_)
      | refine wf_run (by assumption) ?_ ?_ | refine wf_trapErr (by assumption) ?_ ?_ | (simp only [↓wf_mk]; refine wf_back ?_)
      | intro _ | split

theorem okeeps_execShr x0 : OKeeps (@execShr x0) := by
  first | refine okeeps_lift (fun _ _ hf => ?_) | refine okeeps_ite (okeeps_fault _) (okeeps_lift (fun _ _ hf => ?_))
  try dsimp only
  repeat' with_reducible
    first
      | apply wf_each | apply keeps_shift2 | exact keeps_get | refine keeps_getBind (fun _ hf => ?_)
      | refine keeps_modify (fun _ hf => ?_) | refine keeps_set ?_ | refine keeps_bind ?_ (fun _ => ?_) | exact keeps_pure _
      | exact hf | assumption | refine wf_foldl ?_ (fun _ _ hf => ?_) | refine wf_foldl_snd ?_ (fun _ _ hf => ?_)
      | refine wf_run (by assumption) ?_ ?_ | refine wf_trapErr (by assumption) ?_ ?_ | (simp only [↓wf_mk]; refine wf_back ?_)
      | intro _ | split

theorem okeeps_execSar x0 : OKeeps (@execSar x0) := by
  first | refine okeeps_lift (fun _ _ hf => ?_) | refine okeeps_ite (okeeps_fault _) (okeeps_lift (fun _ _ hf => ?_))
  try dsimp only
  repeat' with_reducible
    first
      | apply wf_each | apply keeps_shift2 | exact keeps_get | refine keeps_getBind (fun _ hf => ?_)
      | refine keeps_modify (fun _ hf => ?_) | refine keeps_set ?_ | refine keeps_bind ?_ (fun _ => ?_) | exact keeps_pure _
      | exact hf | assumption | refine wf_foldl ?_ (fun _ _ hf => ?_) | refine wf_foldl_snd ?_ (fun _ _ hf => ?_)
      | refine wf_run (by assumption) ?_ ?_ | refine wf_trapErr (by assumption) ?_ ?_ | (simp only [↓wf_mk]; refine wf_back ?_)
      | intro _ | split

theorem okeeps_execRol x0 : OKeeps (@execRol x0) := by
  first | refine okeeps_lift (fun _ _ hf => ?_) | refine okeeps_ite (okeeps_fault _) (okeeps_lift (fun _ _ hf => ?_))
  try dsimp only
  repeat' with_reducible
    first
      | apply wf_each | apply keeps_shift2 | exact keeps_get | refine keeps_getBind (fun _ hf => ?_)
      | refine keeps_modify (fun _ hf => ?_) | refine keeps_set ?_ | refine keeps_bind ?_ (fun _ => ?_) | exact keeps_pure _
      | exact hf | assumption | refine wf_foldl ?_ (fun _ _ hf => ?_) | refine wf_foldl_snd ?_ (fun _ _ hf => ?_)
      | refine wf_run (by assumption) ?_ ?_ | refine wf_trapErr (by assumption) ?_ ?_ | (simp only [↓wf_mk]; refine wf_back ?_)
      | intro _ | split

theorem okeeps_execBfx x0 : OKeeps (@execBfx x0) := by
  first | refine okeeps_lift (fun _ _ hf => ?_) | refine okeeps_ite (okeeps_fault _) (okeeps_lift (fun _ _ hf => ?_))
  try dsimp only
  repeat' with_reducible
    first
      | apply wf_each | apply keeps_alu2 | exact keeps_get | refine keeps_getBind (fun _ hf => ?_)
      | refine keeps_modify (fun _ hf => ?_) | refine keeps_set ?_ | refine keeps_bind ?_ (fun _ => ?_) | exact keeps_pure _
      | exact hf | assumption | refine wf_foldl ?_ (fun _ _ hf => ?_) | refine wf_foldl_snd ?_ (fun _ _ hf => ?_)
      | refine wf_run (by assumption) ?_ ?_ | refine wf_trapErr (by assumption) ?_ ?_ | (simp only [↓wf_mk]; refine wf_back ?_)
      | intro _ | split

theorem okeeps_execBfi x0 : OKeeps (@execBfi x0) := by
  first | refine okeeps_lift (fun _ _ hf => ?_) | refine okeeps_ite (okeeps_fault _) (okeeps_lift (fun _ _ hf => ?_))
  try dsimp only
  repeat' with_reducible
    first
      | apply wf_each | apply keeps_alu3 | exact keeps_get | refine keeps_getBind (fun _ hf => ?_)
      | refine keeps_modify (fun _ hf => ?_) | refine keeps_set ?_ | refine keeps_bind ?_ (fun _ => ?_) | exact keeps_pure _
      | exact hf | assumption | refine wf_foldl ?_ (fun _ _ hf => ?_) | refine wf_foldl_snd ?_ (fun _ _ hf => ?_)
      | refine wf_run (by assumption) ?_ ?_ | refine wf_trapErr (by assumption) ?_ ?_ | (simp only [↓wf_mk]; refine wf_back ?_)
      | intro _ | split

theorem keeps_logic1 x0 x1 x2 : Keeps (@logic1 x0 x1 x2) := by
  unfold logic1
  try dsimp only
  repeat' with_reducible
    first
      | exact keeps_pure _ | exact keeps_get | apply keeps_alu1 | refine keeps_modifyGet (fun _ hf => ?_)
      | refine keeps_modify (fun _ hf => ?_) | refine keeps_getBind (fun _ hf => ?_) | refine keeps_set ?_
      | refine keeps_bind ?_ (fun _ => ?_) | exact hf | assumption | refine wf_foldl ?_ (fun _ _ hf => ?_)
      | refine wf_foldl_snd ?_ (fun _ _ hf => ?_) | refine wf_run (by assumption) ?_ ?_
      | refine wf_trapErr (by assumption) ?_ ?_ | (simp only [↓wf_mk]; refine wf_back ?_) | intro _ | split

theorem okeeps_execPopc x0 : OKeeps (@execPopc x0) := by
  first | refine okeeps_lift (fun _ _ hf => ?_) | refine okeeps_ite (okeeps_fault _) (okeeps_lift (fun _ _ hf => ?_))
  try dsimp only
  repeat' with_reducible
    first
      | apply wf_each | apply keeps_logic1 | exact keeps_get | refine keeps_getBind (fun _ hf => ?_)
      | refine keeps_modify (fun _ hf => ?_) | refine keeps_set ?_ | refine keeps_bind ?_ (fun _ => ?_) | exact keeps_pure _
      | exact hf | assumption | refine wf_foldl ?_ (fun _ _ hf => ?_) | refine wf_foldl_snd ?_ (fun _ _ hf => ?_)
      | refine wf_run (by assumption) ?_ ?_ | refine wf_trapErr (by assumption) ?_ ?_ | (simp only [↓wf_mk]; refine wf_back ?_)
      | intro _ | split

theorem okeeps_execClz x0 : OKeeps (@execClz x0) := by
  first | refine okeeps_lift (fun _ _ hf => ?_) | refine okeeps_ite (okeeps_fault _) (okeeps_lift (fun _ _ hf => ?_))
  try dsimp only
  repeat' with_reducible
    first
      | apply wf_each | apply keeps_logic1 | exact keeps_get | refine keeps_getBind (fun _ hf => ?_)
      | refine keeps_modify (fun _ hf => ?_) | refine keeps_set ?_ | refine keeps_bind ?_ (fun _ => ?_) | exact keeps_pure _
      | exact hf | assumption | refine wf_foldl ?_ (fun _ _ hf => ?_) | refine wf_foldl_snd ?_ (fun _ _ hf => ?_)
      | refine wf_run (by assumption) ?_ ?_ | refine wf_trapErr (by assumption) ?_ ?_ | (simp only [↓wf_mk]; refine wf_back ?_)
      | intro _ | split

theorem okeeps_execBrev x0 : OKeeps (@execBrev x0) := by
  first | refine okeeps_lift (fun _ _ hf => ?_) | refine okeeps_ite (okeeps_fault _) (okeeps_lift (fun _ _ hf => ?_))
  try dsimp only
  repeat' with_reducible
    first
      | apply wf_each | apply keeps_logic1 | exact keeps_get | refine keeps_getBind (fun _ hf => ?_)
      | refine keeps_modify (fun _ hf => ?_) | refine keeps_set ?_ | refine keeps_bind ?_ (fun _ => ?_) | exact keeps_pure _
      | exact hf | assumption | refine wf_foldl ?_ (fun _ _ hf => ?_) | refine wf_foldl_snd ?_ (fun _ _ hf => ?_)
      | refine wf_run (by assumption) ?_ ?_ | refine wf_trapErr (by assumption) ?_ ?_ | (simp only [↓wf_mk]; refine wf_back ?_)
      | intro _ | split

theorem okeeps_execPrmb x0 : OKeeps (@execPrmb x0) := by
  first | refine okeeps_lift (fun _ _ hf => ?_) | refine okeeps_ite (okeeps_fault _) (okeeps_lift (fun _ _ hf => ?_))
  try dsimp only
  repeat' with_reducible
    first
      | apply wf_each | apply keeps_alu2 | exact keeps_get | refine keeps_getBind (fun _ hf => ?_)
      | refine keeps_modify (fun _ hf => ?_) | refine keeps_set ?_ | refine keeps_bind ?_ (fun _ => ?_) | exact keeps_pure _
      | exact hf | assumption | refine wf_foldl ?_ (fun _ _ hf => ?_) | refine wf_foldl_snd ?_ (fun _ _ hf => ?_)
      | refine wf_run (by assumption) ?_ ?_ | refine wf_trapErr (by assumption) ?_ ?_ | (simp only [↓wf_mk]; refine wf_back ?_)
      | intro _ | split

theorem okeeps_execSel x0 x1 x2 : OKeeps (@execSel x0 x1 x2) := by
  first | refine okeeps_lift (fun _ _ hf => ?_) | refine okeeps_ite (okeeps_fault _) (okeeps_lift (fun _ _ hf => ?_))
  try dsimp only
  repeat' with_reducible
    first
      | apply wf_each | apply keeps_checkFields | apply keeps_readB | apply keeps_readField | apply keeps_readPred
      | apply keeps_resultLabel | apply keeps_vout | exact keeps_get | refine keeps_getBind (fun _ hf => ?_)
      | refine keeps_modify (fun _ hf => ?_) | refine keeps_set ?_ | refine keeps_bind ?_ (fun _ => ?_) | exact keeps_pure _
      | exact hf | assumption | refine wf_foldl ?_ (fun _ _ hf => ?_) | refine wf_foldl_snd ?_ (fun _ _ hf => ?_)
      | refine wf_run (by assumption) ?_ ?_ | refine wf_trapErr (by assumption) ?_ ?_ | (simp only [↓wf_mk]; refine wf_back ?_)
      | intro _ | split

theorem okeeps_execPlop x0 x1 x2 x3 : OKeeps (@execPlop x0 x1 x2 x3) := by
  first | refine okeeps_lift (fun _ _ hf => ?_) | refine okeeps_ite (okeeps_fault _) (okeeps_lift (fun _ _ hf => ?_))
  try dsimp only
  repeat' with_reducible
    first
      | apply wf_each | apply keeps_readPred | apply keeps_resultLabel | apply keeps_writePred | exact keeps_get
      | refine keeps_getBind (fun _ hf => ?_) | refine keeps_modify (fun _ hf => ?_) | refine keeps_set ?_
      | refine keeps_bind ?_ (fun _ => ?_) | exact keeps_pure _ | exact hf | assumption | refine wf_foldl ?_ (fun _ _ hf => ?_)
      | refine wf_foldl_snd ?_ (fun _ _ hf => ?_) | refine wf_run (by assumption) ?_ ?_
      | refine wf_trapErr (by assumption) ?_ ?_ | (simp only [↓wf_mk]; refine wf_back ?_) | intro _ | split

theorem okeeps_execPmov x0 : OKeeps (@execPmov x0) := by
  first | refine okeeps_lift (fun _ _ hf => ?_) | refine okeeps_ite (okeeps_fault _) (okeeps_lift (fun _ _ hf => ?_))
  try dsimp only
  repeat' with_reducible
    first
      | apply wf_each | apply keeps_checkFields | apply keeps_readField | apply keeps_readPred | apply keeps_resultLabel
      | apply keeps_setThr | apply keeps_thr | apply keeps_vout | apply keeps_writePred | exact keeps_get
      | refine keeps_getBind (fun _ hf => ?_) | refine keeps_modify (fun _ hf => ?_) | refine keeps_set ?_
      | refine keeps_bind ?_ (fun _ => ?_) | exact keeps_pure _ | exact hf | assumption | refine wf_foldl ?_ (fun _ _ hf => ?_)
      | refine wf_foldl_snd ?_ (fun _ _ hf => ?_) | refine wf_run (by assumption) ?_ ?_
      | refine wf_trapErr (by assumption) ?_ ?_ | (simp only [↓wf_mk]; refine wf_back ?_) | intro _ | split

/-! ### System -/

theorem okeeps_execKeyRotation x0 x1 : OKeeps (@execKeyRotation x0 x1) := by
  first | refine okeeps_lift (fun _ _ hf => ?_) | refine okeeps_ite (okeeps_fault _) (okeeps_lift (fun _ _ hf => ?_))
  try dsimp only
  repeat' with_reducible
    first
      | apply wf_setWorld | apply wf_commandAdd | refine wf_snd (by assumption) (wf_commandAdd _ _ _ _ _ _ ?_) | exact hf
      | assumption | refine wf_foldl ?_ (fun _ _ hf => ?_) | refine wf_foldl_snd ?_ (fun _ _ hf => ?_)
      | (simp only [↓wf_mk]; refine wf_back ?_) | intro _ | split

theorem wf_forget (x0 : Package) x1 x2 (h0 : x0.wf = true) : (@Package.forget x0 x1 x2).wf = true := by
  unfold Package.forget
  try dsimp only
  repeat' with_reducible
    first
      | exact h0 | exact hf | assumption | refine wf_foldl ?_ (fun _ _ hf => ?_) | refine wf_foldl_snd ?_ (fun _ _ hf => ?_)
      | (simp only [↓wf_mk]; refine wf_back ?_) | intro _ | split

theorem wf_putSpace (x0 : Package) x1 (h0 : x0.wf = true) : (@Package.putSpace x0 x1).wf = true := by
  unfold Package.putSpace
  try dsimp only
  repeat' with_reducible
    first
      | exact h0 | exact hf | assumption | refine wf_foldl ?_ (fun _ _ hf => ?_) | refine wf_foldl_snd ?_ (fun _ _ hf => ?_)
      | (simp only [↓wf_mk]; refine wf_back ?_) | intro _ | split

theorem okeeps_execSpaceIdBinding x0 x1 x2 x3 : OKeeps (@execSpaceIdBinding x0 x1 x2 x3) := by
  first | refine okeeps_lift (fun _ _ hf => ?_) | refine okeeps_ite (okeeps_fault _) (okeeps_lift (fun _ _ hf => ?_))
  try dsimp only
  repeat' with_reducible
    first
      | apply wf_putSpace | apply wf_commandAdd | refine wf_snd (by assumption) (wf_commandAdd _ _ _ _ _ _ ?_) | exact hf
      | assumption | refine wf_foldl ?_ (fun _ _ hf => ?_) | refine wf_foldl_snd ?_ (fun _ _ hf => ?_)
      | (simp only [↓wf_mk]; refine wf_back ?_) | intro _ | split

theorem okeeps_execShootdown x0 x1 x2 : OKeeps (@execShootdown x0 x1 x2) := by
  first | refine okeeps_lift (fun _ _ hf => ?_) | refine okeeps_ite (okeeps_fault _) (okeeps_lift (fun _ _ hf => ?_))
  try dsimp only
  repeat' with_reducible
    first
      | apply wf_forget | apply wf_setCore | apply wf_commandAdd | refine wf_snd (by assumption) (wf_commandAdd _ _ _ _ _ _ ?_)
      | exact hf | assumption | refine wf_foldl ?_ (fun _ _ hf => ?_) | refine wf_foldl_snd ?_ (fun _ _ hf => ?_)
      | (simp only [↓wf_mk]; refine wf_back ?_) | intro _ | split

theorem okeeps_execShootdownDrainDone x0 : OKeeps (@execShootdownDrainDone x0) := by
  first | refine okeeps_lift (fun _ _ hf => ?_) | refine okeeps_ite (okeeps_fault _) (okeeps_lift (fun _ _ hf => ?_))
  try dsimp only
  repeat' with_reducible
    first
      | apply wf_journalSet | exact hf | assumption | refine wf_foldl ?_ (fun _ _ hf => ?_)
      | refine wf_foldl_snd ?_ (fun _ _ hf => ?_) | (simp only [↓wf_mk]; refine wf_back ?_) | intro _ | split

theorem wf_wipe (x0 : Package) x1 x2 x3 x4 (h0 : x0.wf = true) : (@Package.wipe x0 x1 x2 x3 x4).2.wf = true := by
  unfold Package.wipe
  try dsimp only
  repeat' with_reducible
    first
      | exact h0 | apply wf_noteWct | apply wf_fresh | refine wf_snd (by assumption) (wf_fresh _ ?_) | exact hf | assumption
      | refine wf_foldl ?_ (fun _ _ hf => ?_) | refine wf_foldl_snd ?_ (fun _ _ hf => ?_)
      | (simp only [↓wf_mk]; refine wf_back ?_) | intro _ | split

theorem wf_wipeSectors (x0 : Package) x1 x2 (h0 : x0.wf = true) : (@Package.wipeSectors x0 x1 x2).2.wf = true := by
  unfold Package.wipeSectors
  try dsimp only
  repeat' with_reducible
    first
      | exact h0 | apply wf_wipe | refine wf_snd (by assumption) (wf_wipe _ _ _ _ _ ?_) | exact hf | assumption
      | refine wf_foldl ?_ (fun _ _ hf => ?_) | refine wf_foldl_snd ?_ (fun _ _ hf => ?_)
      | (simp only [↓wf_mk]; refine wf_back ?_) | intro _ | split

theorem wf_scrubFrames (p : Package) (frames : List Nat) (h : p.wf = true) : (p.scrubFrames frames).2.2.wf = true := by
  unfold Package.scrubFrames
  extract_lets excl _ q
  have hq : q.wf = true := h
  clear_value q
  have key : ∀ (fs : List Nat) (acc : List Nat × Package), acc.2.wf = true → (fs.foldl (fun (acc : List Nat × Package) f =>
      match excl.find? (fun e => e.1 == f) with
      | none => ((acc.1 ++ [(acc.2.wipe (1024 * f) [] (acc.2.labelled (2048 * f) (2048 * (f + 1))) (some (65536 * f))).1],
          (acc.2.wipe (1024 * f) [] (acc.2.labelled (2048 * f) (2048 * (f + 1))) (some (65536 * f))).2) : List Nat × Package)
      | some e =>
        if e.2 = 1 then acc
        else (acc.1 ++ (acc.2.wipeSectors f (((acc.2.firstError f).getD (2048 * f)) - 2048 * f)).1,
          (acc.2.wipeSectors f (((acc.2.firstError f).getD (2048 * f)) - 2048 * f)).2)) acc).2.wf = true := by
    intro fs acc ha
    refine wf_foldl_snd ha (fun x f hx => ?_)
    split
    · exact wf_wipe _ _ _ _ _ hx
    · split
      · exact hx
      · exact wf_wipeSectors _ _ _ hx
  exact key frames ([], q) hq

theorem wf_sign (x0 : Package) (h0 : x0.wf = true) : (@Package.sign x0).2.wf = true := by
  unfold Package.sign
  try dsimp only
  repeat' with_reducible
    first
      | exact h0 | exact hf | assumption | refine wf_foldl ?_ (fun _ _ hf => ?_) | refine wf_foldl_snd ?_ (fun _ _ hf => ?_)
      | (simp only [↓wf_mk]; refine wf_back ?_) | intro _ | split

theorem wf_giveReceipt (x0 : Package) x1 x2 x3 x4 (h0 : x0.wf = true) : (@Package.giveReceipt x0 x1 x2 x3 x4).wf = true := by
  unfold Package.giveReceipt
  try dsimp only
  repeat' with_reducible
    first
      | exact h0 | apply wf_sign | refine wf_snd (by assumption) (wf_sign _ ?_) | exact hf | assumption
      | refine wf_foldl ?_ (fun _ _ hf => ?_) | refine wf_foldl_snd ?_ (fun _ _ hf => ?_)
      | (simp only [↓wf_mk]; refine wf_back ?_) | intro _ | split

theorem okeeps_execScrub x0 x1 : OKeeps (@execScrub x0 x1) := by
  first | refine okeeps_lift (fun _ _ hf => ?_) | refine okeeps_ite (okeeps_fault _) (okeeps_lift (fun _ _ hf => ?_))
  try dsimp only
  repeat' with_reducible
    first
      | apply wf_commandAdd | refine wf_snd (by assumption) (wf_commandAdd _ _ _ _ _ _ ?_) | apply wf_fresh
      | refine wf_snd (by assumption) (wf_fresh _ ?_) | apply wf_scrubFrames
      | refine wf_snd (by assumption) (wf_scrubFrames _ _ ?_) | exact hf | assumption | refine wf_foldl ?_ (fun _ _ hf => ?_)
      | refine wf_foldl_snd ?_ (fun _ _ hf => ?_) | (simp only [↓wf_mk]; refine wf_back ?_) | intro _ | split

theorem wf_endGrids (x0 : Package) x1 (h0 : x0.wf = true) : (@Package.endGrids x0 x1).wf = true := by
  unfold Package.endGrids
  try dsimp only
  repeat' with_reducible
    first
      | exact h0 | apply wf_journalMove | exact hf | assumption | refine wf_foldl ?_ (fun _ _ hf => ?_)
      | refine wf_foldl_snd ?_ (fun _ _ hf => ?_) | (simp only [↓wf_mk]; refine wf_back ?_) | intro _ | split

theorem wf_endWorld (x0 : Package) x1 (h0 : x0.wf = true) : (@Package.endWorld x0 x1).wf = true := by
  unfold Package.endWorld
  try dsimp only
  repeat' with_reducible
    first
      | exact h0 | apply wf_dropTeam | apply wf_endGrids | apply wf_killTeam | exact hf | assumption
      | refine wf_foldl ?_ (fun _ _ hf => ?_) | refine wf_foldl_snd ?_ (fun _ _ hf => ?_)
      | (simp only [↓wf_mk]; refine wf_back ?_) | intro _ | split

theorem okeeps_execWorldReset x0 : OKeeps (@execWorldReset x0) := by
  first | refine okeeps_lift (fun _ _ hf => ?_) | refine okeeps_ite (okeeps_fault _) (okeeps_lift (fun _ _ hf => ?_))
  try dsimp only
  repeat' with_reducible
    first
      | apply wf_endWorld | apply wf_sendReset | apply wf_setWorld | apply wf_commandAdd
      | refine wf_snd (by assumption) (wf_commandAdd _ _ _ _ _ _ ?_) | apply wf_fresh
      | refine wf_snd (by assumption) (wf_fresh _ ?_) | exact hf | assumption | refine wf_foldl ?_ (fun _ _ hf => ?_)
      | refine wf_foldl_snd ?_ (fun _ _ hf => ?_) | (simp only [↓wf_mk]; refine wf_back ?_) | intro _ | split

theorem wf_clearWorld (x0 : Package) x1 x2 (h0 : x0.wf = true) : (@Package.clearWorld x0 x1 x2).wf = true := by
  unfold Package.clearWorld
  try dsimp only
  repeat' with_reducible
    first
      | exact h0 | apply wf_dropMan | apply wf_endGrids | apply wf_setWorld | apply wf_scrubFrames
      | refine wf_snd (by assumption) (wf_scrubFrames _ _ ?_) | exact hf | assumption | refine wf_foldl ?_ (fun _ _ hf => ?_)
      | refine wf_foldl_snd ?_ (fun _ _ hf => ?_) | (simp only [↓wf_mk]; refine wf_back ?_) | intro _ | split

theorem wf_endScrub (x0 : Package) x1 (h0 : x0.wf = true) : (@Package.endScrub x0 x1).wf = true := by
  unfold Package.endScrub
  try dsimp only
  repeat' with_reducible
    first
      | exact h0 | apply wf_giveReceipt | apply wf_journalSet | apply wf_setWorld | exact hf | assumption
      | refine wf_foldl ?_ (fun _ _ hf => ?_) | refine wf_foldl_snd ?_ (fun _ _ hf => ?_)
      | (simp only [↓wf_mk]; refine wf_back ?_) | intro _ | split

theorem okeeps_execScrubReceipt x0 : OKeeps (@execScrubReceipt x0) := by
  first | refine okeeps_lift (fun _ _ hf => ?_) | refine okeeps_ite (okeeps_fault _) (okeeps_lift (fun _ _ hf => ?_))
  try dsimp only
  repeat' with_reducible
    first
      | apply wf_clearWorld | apply wf_endScrub | exact hf | assumption | refine wf_foldl ?_ (fun _ _ hf => ?_)
      | refine wf_foldl_snd ?_ (fun _ _ hf => ?_) | (simp only [↓wf_mk]; refine wf_back ?_) | intro _ | split

theorem wf_takeManifest (x0 : Package) x1 x2 (h0 : x0.wf = true) : (@Package.takeManifest x0 x1 x2).wf = true := by
  unfold Package.takeManifest
  try dsimp only
  repeat' with_reducible
    first
      | exact h0 | apply wf_dropMan | exact hf | assumption | refine wf_foldl ?_ (fun _ _ hf => ?_)
      | refine wf_foldl_snd ?_ (fun _ _ hf => ?_) | (simp only [↓wf_mk]; refine wf_back ?_) | intro _ | split

theorem wf_clearBank (x0 : Package) x1 x2 (h0 : x0.wf = true) : (@Package.clearBank x0 x1 x2).wf = true := by
  unfold Package.clearBank
  try dsimp only
  repeat' with_reducible
    first
      | exact h0 | exact hf | assumption | refine wf_foldl ?_ (fun _ _ hf => ?_) | refine wf_foldl_snd ?_ (fun _ _ hf => ?_)
      | (simp only [↓wf_mk]; refine wf_back ?_) | intro _ | split

theorem okeeps_execWorldCreate x0 : OKeeps (@execWorldCreate x0) := by
  first | refine okeeps_lift (fun _ _ hf => ?_) | refine okeeps_ite (okeeps_fault _) (okeeps_lift (fun _ _ hf => ?_))
  try dsimp only
  repeat' with_reducible
    first
      | apply wf_clearBank | apply wf_takeManifest | exact hf | assumption | refine wf_foldl ?_ (fun _ _ hf => ?_)
      | refine wf_foldl_snd ?_ (fun _ _ hf => ?_) | (simp only [↓wf_mk]; refine wf_back ?_) | intro _ | split

theorem okeeps_execDomainForm x0 x1 x2 : OKeeps (@execDomainForm x0 x1 x2) := by
  first | refine okeeps_lift (fun _ _ hf => ?_) | refine okeeps_ite (okeeps_fault _) (okeeps_lift (fun _ _ hf => ?_))
  try dsimp only
  repeat' with_reducible
    first
      | apply wf_setWorld | exact hf | assumption | refine wf_foldl ?_ (fun _ _ hf => ?_)
      | refine wf_foldl_snd ?_ (fun _ _ hf => ?_) | (simp only [↓wf_mk]; refine wf_back ?_) | intro _ | split

theorem okeeps_execQosShareChange x0 x1 x2 x3 : OKeeps (@execQosShareChange x0 x1 x2 x3) := by
  first | refine okeeps_lift (fun _ _ hf => ?_) | refine okeeps_ite (okeeps_fault _) (okeeps_lift (fun _ _ hf => ?_))
  try dsimp only
  repeat' with_reducible
    first
      | apply wf_setWorld | exact hf | assumption | refine wf_foldl ?_ (fun _ _ hf => ?_)
      | refine wf_foldl_snd ?_ (fun _ _ hf => ?_) | (simp only [↓wf_mk]; refine wf_back ?_) | intro _ | split

theorem okeeps_execBankTransfer x0 x1 x2 x3 : OKeeps (@execBankTransfer x0 x1 x2 x3) := by
  first | refine okeeps_lift (fun _ _ hf => ?_) | refine okeeps_ite (okeeps_fault _) (okeeps_lift (fun _ _ hf => ?_))
  try dsimp only
  repeat' with_reducible
    first
      | apply wf_clearBank | apply wf_setWorld | exact hf | assumption | refine wf_foldl ?_ (fun _ _ hf => ?_)
      | refine wf_foldl_snd ?_ (fun _ _ hf => ?_) | (simp only [↓wf_mk]; refine wf_back ?_) | intro _ | split

theorem okeeps_execAttestationReport x0 x1 : OKeeps (@execAttestationReport x0 x1) := by
  first | refine okeeps_lift (fun _ _ hf => ?_) | refine okeeps_ite (okeeps_fault _) (okeeps_lift (fun _ _ hf => ?_))
  try dsimp only
  repeat' with_reducible
    first
      | apply wf_sign | refine wf_snd (by assumption) (wf_sign _ ?_) | exact hf | assumption
      | refine wf_foldl ?_ (fun _ _ hf => ?_) | refine wf_foldl_snd ?_ (fun _ _ hf => ?_)
      | (simp only [↓wf_mk]; refine wf_back ?_) | intro _ | split

theorem okeeps_execCrashDump x0 : OKeeps (@execCrashDump x0) := by
  first | refine okeeps_lift (fun _ _ hf => ?_) | refine okeeps_ite (okeeps_fault _) (okeeps_lift (fun _ _ hf => ?_))
  try dsimp only
  repeat' with_reducible
    first
      | exact hf | assumption | refine wf_foldl ?_ (fun _ _ hf => ?_) | refine wf_foldl_snd ?_ (fun _ _ hf => ?_)
      | (simp only [↓wf_mk]; refine wf_back ?_) | intro _ | split

theorem wf_haltWorld (x0 : Package) x1 x2 x3 (h0 : x0.wf = true) : (@Package.haltWorld x0 x1 x2 x3).wf = true := by
  unfold Package.haltWorld
  try dsimp only
  repeat' with_reducible
    first
      | exact h0 | exact hf | assumption | refine wf_foldl ?_ (fun _ _ hf => ?_) | refine wf_foldl_snd ?_ (fun _ _ hf => ?_)
      | (simp only [↓wf_mk]; refine wf_back ?_) | intro _ | split

theorem okeeps_execDebugRequest x0 x1 : OKeeps (@execDebugRequest x0 x1) := by
  first | refine okeeps_lift (fun _ _ hf => ?_) | refine okeeps_ite (okeeps_fault _) (okeeps_lift (fun _ _ hf => ?_))
  try dsimp only
  repeat' with_reducible
    first
      | apply wf_haltWorld | exact hf | assumption | refine wf_foldl ?_ (fun _ _ hf => ?_)
      | refine wf_foldl_snd ?_ (fun _ _ hf => ?_) | (simp only [↓wf_mk]; refine wf_back ?_) | intro _ | split

theorem okeeps_execSnapctlWrite x0 : OKeeps (@execSnapctlWrite x0) := by
  first | refine okeeps_lift (fun _ _ hf => ?_) | refine okeeps_ite (okeeps_fault _) (okeeps_lift (fun _ _ hf => ?_))
  try dsimp only
  repeat' with_reducible
    first
      | exact hf | assumption | refine wf_foldl ?_ (fun _ _ hf => ?_) | refine wf_foldl_snd ?_ (fun _ _ hf => ?_)
      | (simp only [↓wf_mk]; refine wf_back ?_) | intro _ | split

theorem okeeps_execSnapPin : OKeeps (execSnapPin) := by
  first | refine okeeps_lift (fun _ _ hf => ?_) | refine okeeps_ite (okeeps_fault _) (okeeps_lift (fun _ _ hf => ?_))
  try dsimp only
  repeat' with_reducible
    first
      | apply wf_snapshot | exact hf | assumption | refine wf_foldl ?_ (fun _ _ hf => ?_)
      | refine wf_foldl_snd ?_ (fun _ _ hf => ?_) | (simp only [↓wf_mk]; refine wf_back ?_) | intro _ | split

theorem okeeps_execInstrSnapshotLatch : OKeeps (execInstrSnapshotLatch) := by
  first | refine okeeps_lift (fun _ _ hf => ?_) | refine okeeps_ite (okeeps_fault _) (okeeps_lift (fun _ _ hf => ?_))
  try dsimp only
  repeat' with_reducible
    first
      | apply wf_snapshot | exact hf | assumption | refine wf_foldl ?_ (fun _ _ hf => ?_)
      | refine wf_foldl_snd ?_ (fun _ _ hf => ?_) | (simp only [↓wf_mk]; refine wf_back ?_) | intro _ | split

theorem okeeps_execMemoryFault x0 x1 : OKeeps (@execMemoryFault x0 x1) := by
  first | refine okeeps_lift (fun _ _ hf => ?_) | refine okeeps_ite (okeeps_fault _) (okeeps_lift (fun _ _ hf => ?_))
  try dsimp only
  repeat' with_reducible
    first
      | apply wf_setGlabel | exact hf | assumption | refine wf_foldl ?_ (fun _ _ hf => ?_)
      | refine wf_foldl_snd ?_ (fun _ _ hf => ?_) | (simp only [↓wf_mk]; refine wf_back ?_) | intro _ | split

theorem okeeps_execPackageReset : OKeeps (execPackageReset) := by
  first | refine okeeps_lift (fun _ _ hf => ?_) | refine okeeps_ite (okeeps_fault _) (okeeps_lift (fun _ _ hf => ?_))
  try dsimp only
  repeat' with_reducible
    first
      | exact wf_reset | apply wf_journalMove | exact hf | assumption | refine wf_foldl ?_ (fun _ _ hf => ?_)
      | refine wf_foldl_snd ?_ (fun _ _ hf => ?_) | (simp only [↓wf_mk]; refine wf_back ?_) | intro _ | split

theorem okeeps_execDieReset x0 : OKeeps (@execDieReset x0) := by
  first | refine okeeps_lift (fun _ _ hf => ?_) | refine okeeps_ite (okeeps_fault _) (okeeps_lift (fun _ _ hf => ?_))
  try dsimp only
  repeat' with_reducible
    first
      | apply wf_dropCopy | exact hf | assumption | refine wf_foldl ?_ (fun _ _ hf => ?_)
      | refine wf_foldl_snd ?_ (fun _ _ hf => ?_) | (simp only [↓wf_mk]; refine wf_back ?_) | intro _ | split

/-! ### Tables -/

theorem wf_installCode (x0 : Package) x1 x2 (h0 : x0.wf = true) : (@Package.installCode x0 x1 x2).wf = true := by
  unfold Package.installCode
  try dsimp only
  repeat' with_reducible
    first
      | exact h0 | exact hf | assumption | refine wf_foldl ?_ (fun _ _ hf => ?_) | refine wf_foldl_snd ?_ (fun _ _ hf => ?_)
      | (simp only [↓wf_mk]; refine wf_back ?_) | intro _ | split

theorem wf_setSuspended (x0 : Package) x1 x2 (h0 : x0.wf = true) : (@Package.setSuspended x0 x1 x2).wf = true := by
  unfold Package.setSuspended
  try dsimp only
  repeat' with_reducible
    first
      | exact h0 | apply wf_setWorld | exact hf | assumption | refine wf_foldl ?_ (fun _ _ hf => ?_)
      | refine wf_foldl_snd ?_ (fun _ _ hf => ?_) | (simp only [↓wf_mk]; refine wf_back ?_) | intro _ | split

theorem wf_writePeer (x0 : Package) x1 x2 x3 x4 (h0 : x0.wf = true) : (@Package.writePeer x0 x1 x2 x3 x4).wf = true := by
  unfold Package.writePeer
  try dsimp only
  repeat' with_reducible
    first
      | exact h0 | apply wf_setWorld | apply wf_wake | exact hf | assumption | refine wf_foldl ?_ (fun _ _ hf => ?_)
      | refine wf_foldl_snd ?_ (fun _ _ hf => ?_) | (simp only [↓wf_mk]; refine wf_back ?_) | intro _ | split

theorem wf_writeQueue (x0 : Package) x1 x2 x3 (h0 : x0.wf = true) : (@Package.writeQueue x0 x1 x2 x3).wf = true := by
  unfold Package.writeQueue
  try dsimp only
  repeat' with_reducible
    first
      | exact h0 | exact hf | assumption | refine wf_foldl ?_ (fun _ _ hf => ?_) | refine wf_foldl_snd ?_ (fun _ _ hf => ?_)
      | (simp only [↓wf_mk]; refine wf_back ?_) | intro _ | split

theorem wf_writeShare (x0 : Package) x1 x2 x3 x4 (h0 : x0.wf = true) : (@Package.writeShare x0 x1 x2 x3 x4).wf = true := by
  unfold Package.writeShare
  try dsimp only
  repeat' with_reducible
    first
      | exact h0 | apply wf_setSuspended | exact hf | assumption | refine wf_foldl ?_ (fun _ _ hf => ?_)
      | refine wf_foldl_snd ?_ (fun _ _ hf => ?_) | (simp only [↓wf_mk]; refine wf_back ?_) | intro _ | split

theorem wf_writeLabel (p : Package) (idx mask : Nat) (h : p.wf = true) : (p.writeLabel idx mask).wf = true := by
  unfold Package.writeLabel
  extract_lets m
  split
  · exact h
  · next hc =>
    simp only [Bool.or_eq_true, decide_eq_true_eq, not_or, Bool.not_eq_true, Option.isSome_eq_false_iff, Option.isNone_iff_eq_none] at hc
    rw [wf_iff] at *
    refine ⟨h.1, h.2.1, labelsWf_insertBy (by omega) (fun e he heq => ?_) (findMask_none hc.2) h.2.2⟩
    have hl := hc.1.2
    simp only [Package.live, List.any_eq_false] at hl
    exact hl e he (by simp [heq])

theorem wf_writeLabelBase (x0 : Package) x1 (h0 : x0.wf = true) : (@Package.writeLabelBase x0 x1).wf = true := by
  unfold Package.writeLabelBase
  try dsimp only
  repeat' with_reducible
    first
      | exact h0 | exact hf | assumption | refine wf_foldl ?_ (fun _ _ hf => ?_) | refine wf_foldl_snd ?_ (fun _ _ hf => ?_)
      | (simp only [↓wf_mk]; refine wf_back ?_) | intro _ | split

theorem wf_flushSpace (x0 : Package) x1 (h0 : x0.wf = true) : (@Package.flushSpace x0 x1).wf = true := by
  unfold Package.flushSpace
  try dsimp only
  repeat' with_reducible
    first
      | exact h0 | apply wf_forget | apply wf_putSpace | exact hf | assumption | refine wf_foldl ?_ (fun _ _ hf => ?_)
      | refine wf_foldl_snd ?_ (fun _ _ hf => ?_) | (simp only [↓wf_mk]; refine wf_back ?_) | intro _ | split

theorem wf_writeSpace (x0 : Package) x1 x2 x3 x4 (h0 : x0.wf = true) : (@Package.writeSpace x0 x1 x2 x3 x4).wf = true := by
  unfold Package.writeSpace
  try dsimp only
  repeat' with_reducible
    first
      | exact h0 | apply wf_putSpace | exact hf | assumption | refine wf_foldl ?_ (fun _ _ hf => ?_)
      | refine wf_foldl_snd ?_ (fun _ _ hf => ?_) | (simp only [↓wf_mk]; refine wf_back ?_) | intro _ | split

theorem wf_resumeThread (x0 : Package) x1 (h0 : x0.wf = true) : (@Package.resumeThread x0 x1).wf = true := by
  unfold Package.resumeThread
  try dsimp only
  repeat' with_reducible
    first
      | exact h0 | apply wf_fileOne | apply wf_setTeam | exact hf | assumption | refine wf_foldl ?_ (fun _ _ hf => ?_)
      | refine wf_foldl_snd ?_ (fun _ _ hf => ?_) | (simp only [↓wf_mk]; refine wf_back ?_) | intro _ | split

theorem wf_sysWrite (x0 : Package) x1 (h0 : x0.wf = true) : (@Package.sysWrite x0 x1).wf = true := by
  unfold Package.sysWrite
  try dsimp only
  repeat' with_reducible
    first
      | exact h0 | apply wf_flushSpace | apply wf_installCode | apply wf_labelsFull | apply wf_resumeThread
      | apply wf_setSuspended | apply wf_setTeam | apply wf_setWorld | refine wf_systemWrite (by assumption) ?_
      | apply wf_takeManifest | apply wf_writeLabel | apply wf_writeLabelBase | apply wf_writePeer | apply wf_writeQueue
      | apply wf_writeShare | apply wf_writeSpace | exact hf | assumption | refine wf_labelFor (by assumption) ?_
      | refine wf_foldl ?_ (fun _ _ hf => ?_) | refine wf_foldl_snd ?_ (fun _ _ hf => ?_)
      | (simp only [↓wf_mk]; refine wf_back ?_) | intro _ | split

theorem wf_giveFrame {s : State} (f world : Nat) (h : s.Wf) : (s.giveFrame f world).Wf := by
  unfold State.giveFrame
  split
  · exact h
  · exact ⟨h.1, h.2⟩

theorem wf_dropPage (x0 : Package) x1 x2 (h0 : x0.wf = true) : (@Package.dropPage x0 x1 x2).wf = true := by
  unfold Package.dropPage
  try dsimp only
  repeat' with_reducible
    first
      | exact h0 | apply wf_dropLine | exact hf | assumption | refine wf_foldl ?_ (fun _ _ hf => ?_)
      | refine wf_foldl_snd ?_ (fun _ _ hf => ?_) | (simp only [↓wf_mk]; refine wf_back ?_) | intro _ | split

theorem wf_takePage (p : Package) (world frame size : Nat) (im : PageImage) (labels : List (Nat × Lbl)) (h : p.wf = true) :
    (p.takePage world frame size im labels).wf = true := by
  unfold Package.takePage
  extract_lets outside q
  have hq : q.wf = true := wf_parts (fun hm => spWf_putCells _ (spWf_filter _ hm)) (fun hg => spWf_filter _ hg) rfl h
  clear_value q
  exact wf_dropPage _ _ _ (wf_foldl hq (fun _ _ hp => wf_setGlabel _ _ _ hp))

theorem wf_repoint (x0 : Package) x1 x2 x3 (h0 : x0.wf = true) : (@Package.repoint x0 x1 x2 x3).wf = true := by
  unfold Package.repoint
  try dsimp only
  repeat' with_reducible
    first
      | exact h0 | apply wf_forget | apply wf_poke | exact hf | assumption | refine wf_foldl ?_ (fun _ _ hf => ?_)
      | refine wf_foldl_snd ?_ (fun _ _ hf => ?_) | (simp only [↓wf_mk]; refine wf_back ?_) | intro _ | split

theorem wf_onPackage {s : State} {phys : Nat} {f : Package → Package} (hf : ∀ p, p.wf = true → (f p).wf = true) (h : s.Wf) :
    (s.onPackage phys f).Wf := by
  unfold State.onPackage
  split
  · exact ⟨hf _ h.1, h.2⟩
  · exact ⟨h.1, wf_mapIf hf h.2⟩

theorem wf_foldOn {f : Nat × Nat → Package → Package} (hf : ∀ e p, p.wf = true → (f e p).wf = true) (es : List (Nat × Nat)) {s : State} (h : s.Wf) :
    (es.foldl (fun s e => s.onPackage e.1 (f e)) s).Wf := by
  induction es generalizing s with
  | nil => exact h
  | cons e es ih => exact ih (wf_onPackage (hf e) h)

theorem wf_migratePage {s : State} (world page size peer frame : Nat) (entries : List (Nat × Nat)) (h : s.Wf) :
    (s.migratePage world page size peer frame entries).Wf := by
  unfold State.migratePage
  extract_lets p asked legal done im
  have hd : done.Wf := ⟨h.1, h.2⟩
  clear_value done
  split
  · exact h
  · extract_lets when_
    split
    split
    · exact h
    · split
      · exact hd
      · split
        · exact h
        · split
          · exact h
          · next q hq =>
            have hw : q.wf = true := h.2 q (List.mem_of_find?_eq_some hq)
            split
            · exact wf_onPackage (fun _ hp => wf_labelsFull _ hp) hd
            · next ls r hl =>
              have hr := wf_systemLabels hl hw
              exact wf_foldOn (fun e p hp => wf_repoint _ _ _ _ hp) entries
                (wf_onPackage (fun _ hp => wf_dropPage _ _ _ hp) (wf_onPackage (fun _ _ => wf_takePage _ _ _ _ _ _ hr) hd))

theorem okeeps_execSysTableWrite (w : SysWrite) : OKeeps (execSysTableWrite w) := by
  intro s hs t ht
  unfold execSysTableWrite at ht
  split at ht
  · cases ht
  · split at ht
    · cases ht; exact wf_migratePage _ _ _ _ _ _ hs
    · cases ht; exact wf_giveFrame _ _ hs
    · cases ht; exact ⟨wf_sysWrite _ _ hs.1, hs.2⟩

/-! ### Clock -/

theorem wf_begin {s : State} (n : Nat) (h : s.Wf) : (s.begin n).Wf := h

theorem wf_illegal {s : State} (i : Issue) (h : s.Wf) : (s.illegal i).Wf :=
  ⟨wf_each h.1 (fun _ => keeps_illop _), h.2⟩

theorem wf_fileLone (x0 : Package) x1 (h0 : x0.wf = true) : (@Package.fileLone x0 x1).wf = true := by
  unfold Package.fileLone
  try dsimp only
  repeat' with_reducible
    first
      | exact h0 | apply wf_fileOne | apply wf_setThread | exact hf | assumption | refine wf_foldl ?_ (fun _ _ hf => ?_)
      | refine wf_foldl_snd ?_ (fun _ _ hf => ?_) | (simp only [↓wf_mk]; refine wf_back ?_) | intro _ | split

theorem wf_nextCycle (x0 : Package) (h0 : x0.wf = true) : (@Package.nextCycle x0).wf = true := by
  unfold Package.nextCycle
  try dsimp only
  repeat' with_reducible
    first
      | exact h0 | apply wf_killIdle | exact hf | assumption | refine wf_foldl ?_ (fun _ _ hf => ?_)
      | refine wf_foldl_snd ?_ (fun _ _ hf => ?_) | (simp only [↓wf_mk]; refine wf_back ?_) | intro _ | split

theorem wf_pass {s : State} (h : s.Wf) : s.pass.Wf := by
  unfold State.pass
  extract_lets p
  have hp : p.wf = true := h.1
  clear_value p
  split
  · exact ⟨hp, h.2⟩
  · split
    next sent q hq =>
    have hn : q.nextCycle.wf = true := wf_nextCycle _ (wf_snd hq (wf_transmit _ hp))
    dsimp only
    split
    · exact ⟨hn, h.2⟩
    · next r rs heq =>
      have h2 : ∀ p ∈ r :: rs, p.wf = true := heq ▸ h.2
      refine ⟨h2 r List.mem_cons_self, fun x hx => ?_⟩
      rcases List.mem_append.mp hx with hx | hx
      · exact h2 x (List.mem_cons_of_mem _ hx)
      · rw [List.mem_singleton.mp hx]; exact hn

theorem wf_fetching (x0 : Package) x1 (h0 : x0.wf = true) : (@Package.fetching x0 x1).wf = true := by
  unfold Package.fetching
  try dsimp only
  repeat' with_reducible
    first
      | exact h0 | exact hf | assumption | refine wf_foldl ?_ (fun _ _ hf => ?_) | refine wf_foldl_snd ?_ (fun _ _ hf => ?_)
      | (simp only [↓wf_mk]; refine wf_back ?_) | intro _ | split

end Sys2Proof.Machine
end

