-- ==== Sys2Proof/Laws/PerInstr.lean ====
section
/-! SUPPORT. Per-instruction facts about the encoding. The family `Row` says that the word which the encoder gives a
well-formed instruction carries the fixed bits of its row of spec/opcode_table.json. -/

set_option linter.unusedSimpArgs false

namespace Sys2Proof.Laws

/-- Mask and match of the instruction's row of the opcode table, split into the fields of R87. -/
def tableRow : Instr → Option (Raw × Raw)
  | .nop => some ((rawOf 0x7F 0x7F 0x7F 0x7F 0x0F), (rawOf 0 0 0 0 0))
  | .add .. => some ((rawOf 0 0 0 0x7F 0), (rawOf 0 0 0 0x01 0))
  | .addc .. => some ((rawOf 0 0 0 0x7F 0x03), (rawOf 0 0 0 0x02 0))
  | .isub .. => some ((rawOf 0 0 0 0x7F 0), (rawOf 0 0 0 0x03 0))
  | .imul .. => some ((rawOf 0 0 0 0x7F 0), (rawOf 0 0 0 0x04 0))
  | .imad .. => some ((rawOf 0 0 0 0x7F 0), (rawOf 0 0 0 0x05 0))
  | .iabs .. => some ((rawOf 0 0x7F 0 0x7F 0), (rawOf 0 0 0 0x06 0))
  | .imin .. => some ((rawOf 0 0 0 0x7F 0), (rawOf 0 0 0 0x07 0))
  | .imax .. => some ((rawOf 0 0 0 0x7F 0), (rawOf 0 0 0 0x08 0))
  | .cmp .. => some ((rawOf 0 0 0 0x7F 0), (rawOf 0 0 0 0x09 0))
  | .lea .. => some ((rawOf 0 0 0 0x7F 0), (rawOf 0 0 0 0x0A 0))
  | .mov .. => some ((rawOf 0 0 0 0x7F 0), (rawOf 0 0 0 0x0B 0))
  | .movl .. => some ((rawOf 0 0 0 0x7F 0x0C), (rawOf 0 0 0 0x0C 0))
  | .and .. => some ((rawOf 0 0 0 0x7F 0x01), (rawOf 0 0 0 0x10 0))
  | .andn .. => some ((rawOf 0 0 0 0x7F 0x01), (rawOf 0 0 0 0x11 0))
  | .or .. => some ((rawOf 0 0 0 0x7F 0x01), (rawOf 0 0 0 0x12 0))
  | .xor .. => some ((rawOf 0 0 0 0x7F 0x01), (rawOf 0 0 0 0x13 0))
  | .shl .. => some ((rawOf 0 0 0 0x7F 0x01), (rawOf 0 0 0 0x14 0))
  | .shr .. => some ((rawOf 0 0 0 0x7F 0x01), (rawOf 0 0 0 0x15 0))
  | .sar .. => some ((rawOf 0 0 0 0x7F 0x01), (rawOf 0 0 0 0x16 0))
  | .rol .. => some ((rawOf 0 0 0 0x7F 0x01), (rawOf 0 0 0 0x17 0))
  | .bfx .. => some ((rawOf 0 0 0 0x7F 0), (rawOf 0 0 0 0x18 0))
  | .bfi .. => some ((rawOf 0 0 0 0x7F 0x01), (rawOf 0 0 0 0x19 0))
  | .popc .. => some ((rawOf 0 0x7F 0 0x7F 0x01), (rawOf 0 0 0 0x1A 0))
  | .clz .. => some ((rawOf 0 0x7F 0 0x7F 0x01), (rawOf 0 0 0 0x1B 0))
  | .brev .. => some ((rawOf 0 0x7F 0 0x7F 0x01), (rawOf 0 0 0 0x1C 0))
  | .prmb .. => some ((rawOf 0 0 0 0x7F 0x03), (rawOf 0 0 0 0x1D 0))
  | .fadd .. => some ((rawOf 0 0 0 0x7F 0), (rawOf 0 0 0 0x20 0))
  | .fmul .. => some ((rawOf 0 0 0 0x7F 0), (rawOf 0 0 0 0x21 0))
  | .ffma .. => some ((rawOf 0 0 0 0x7F 0), (rawOf 0 0 0 0x22 0))
  | .fmin .. => some ((rawOf 0 0 0 0x7F 0), (rawOf 0 0 0 0x23 0))
  | .fmax .. => some ((rawOf 0 0 0 0x7F 0), (rawOf 0 0 0 0x24 0))
  | .fcmp .. => some ((rawOf 0 0 0 0x7F 0x02), (rawOf 0 0 0 0x25 0))
  | .fsf .. => some ((rawOf 0 0x78 0 0x7F 0), (rawOf 0 0 0 0x26 0))
  | .frnd .. => some ((rawOf 0 0x78 0 0x7F 0), (rawOf 0 0 0 0x27 0))
  | .twosum .. => some ((rawOf 0 0 0 0x7F 0x03), (rawOf 0 0 0 0x28 0))
  | .twoprd .. => some ((rawOf 0 0 0 0x7F 0x03), (rawOf 0 0 0 0x29 0))
  | .cfma .. => some ((rawOf 0 0 0 0x7F 0x0F), (rawOf 0 0 0 0x2A 0))
  | .cvt .. => some ((rawOf 0 0 0 0x7F 0), (rawOf 0 0 0 0x2B 0))
  | .qpack .. => some ((rawOf 0 0 0 0x7F 0x0C), (rawOf 0 0 0 0x2C 0))
  | .qunpk .. => some ((rawOf 0 0 0 0x7F 0), (rawOf 0 0 0 0x2D 0))
  | .trap .. => some ((rawOf 0x7F 0x7F 0 0x7F 0x0F), (rawOf 0 0 0 0x30 0))
  | .eretResume => some ((rawOf 0x7F 0x7F 0x7F 0x7F 0x0F), (rawOf 0 0 0 0x31 0))
  | .eretRestart => some ((rawOf 0x7F 0x7F 0x7F 0x7F 0x0F), (rawOf 0 0 0 0x31 0x01))
  | .eretSkip => some ((rawOf 0x7F 0x7F 0x7F 0x7F 0x0F), (rawOf 0 0 0 0x31 0x02))
  | .mfsr .. => some ((rawOf 0 0x7F 0 0x7F 0x0F), (rawOf 0 0 0 0x32 0))
  | .mtsr .. => some ((rawOf 0x7F 0 0 0x7F 0x0F), (rawOf 0 0 0 0x33 0))
  | .bkpt .. => some ((rawOf 0x7F 0x7F 0 0x7F 0x0F), (rawOf 0 0 0 0x34 0))
  | .snap => some ((rawOf 0x7F 0x7F 0x7F 0x7F 0x0F), (rawOf 0 0 0 0x35 0))
  | .time .. => some ((rawOf 0 0x7F 0x7F 0x7F 0x0E), (rawOf 0 0 0 0x36 0))
  | .sel .. => some ((rawOf 0 0x40 0 0x7F 0x01), (rawOf 0 0 0 0x38 0))
  | .plop .. => some ((rawOf 0x60 0x60 0x60 0x7F 0), (rawOf 0 0 0 0x39 0))
  | .pmov .. => some ((rawOf 0 0x7F 0 0x7F 0x0C), (rawOf 0 0 0 0x3A 0))
  | .shfl .. => some ((rawOf 0 0 0 0x7F 0), (rawOf 0 0 0 0x3B 0))
  | .vote .. => some ((rawOf 0 0x7F 0x40 0x7F 0x0C), (rawOf 0 0 0 0x3C 0))
  | .rdx .. => some ((rawOf 0 0x78 0 0x7F 0x04), (rawOf 0 0 0 0x3D 0))
  | .scan .. => some ((rawOf 0 0x70 0 0x7F 0x04), (rawOf 0 0 0 0x3E 0))
  | .bra .. => some ((rawOf 0 0 0 0x7F 0x0F), (rawOf 0 0 0 0x40 0))
  | .brc .. => some ((rawOf 0x40 0 0 0x7F 0x07), (rawOf 0 0 0 0x41 0))
  | .bdq .. => some ((rawOf 0x5F 0 0 0x7F 0x07), (rawOf 0 0 0 0x42 0))
  | .jmpi .. => some ((rawOf 0x7F 0 0x7F 0x7F 0x0F), (rawOf 0 0 0 0x43 0))
  | .call .. => some ((rawOf 0 0 0 0x7F 0x07), (rawOf 0 0 0 0x44 0))
  | .ret .. => some ((rawOf 0x7F 0 0x7F 0x7F 0x0F), (rawOf 0 0 0 0x45 0))
  | .reform .. => some ((rawOf 0x7F 0x7F 0 0x7F 0x03), (rawOf 0 0 0 0x46 0))
  | .exit => some ((rawOf 0x7F 0x7F 0x7F 0x7F 0x0F), (rawOf 0 0 0 0x47 0))
  | .killTeam => some ((rawOf 0x7F 0x7F 0x7F 0x7F 0x0F), (rawOf 0 0 0 0x48 0))
  | .killGrid => some ((rawOf 0x7F 0x7F 0x7F 0x7F 0x0F), (rawOf 0 0 0 0x48 0x01))
  | .yield => some ((rawOf 0x7F 0x7F 0x7F 0x7F 0x0F), (rawOf 0 0 0 0x49 0))
  | .bar .. => some ((rawOf 0x7F 0x7F 0x7F 0x7F 0x08), (rawOf 0 0 0 0x4A 0))
  | .launch .. => some ((rawOf 0x7F 0 0x70 0x7F 0x0F), (rawOf 0 0 0 0x4B 0))
  | .cont .. => some ((rawOf 0x7F 0 0x70 0x7F 0x0F), (rawOf 0 0 0 0x4C 0))
  | .dqpush .. => some ((rawOf 0x7F 0x7F 0 0x7F 0x06), (rawOf 0 0 0 0x4D 0))
  | .dqpop .. => some ((rawOf 0 0x7F 0x7F 0x7F 0x0F), (rawOf 0 0 0 0x4E 0))
  | .winb .. => some ((rawOf 0x7F 0x7F 0x07 0x7F 0x0F), (rawOf 0 0 0 0x4F 0))
  | .ld .. => some ((rawOf 0 0 0 0x7F 0), (rawOf 0 0 0 0x50 0))
  | .st .. => some ((rawOf 0 0 0 0x7F 0), (rawOf 0 0 0 0x51 0))
  | .lds .. => some ((rawOf 0 0 0x7B 0x7F 0), (rawOf 0 0 0 0x52 0))
  | .sts .. => some ((rawOf 0 0 0x7B 0x7F 0), (rawOf 0 0 0 0x53 0))
  | .fpush .. => some ((rawOf 0 0 0x7B 0x7F 0), (rawOf 0 0 0 0x54 0))
  | .fpop .. => some ((rawOf 0 0 0x7B 0x7F 0), (rawOf 0 0 0 0x55 0))
  | .bank .. => some ((rawOf 0x60 0x60 0x7F 0x7F 0x08), (rawOf 0 0 0 0x56 0))
  | .fence .. => some ((rawOf 0x7F 0x7F 0x7F 0x7F 0x0C), (rawOf 0 0 0 0x57 0))
  | .tlfence => some ((rawOf 0x7F 0x7F 0x7F 0x7F 0x0F), (rawOf 0 0 0 0x58 0))
  | .disc .. => some ((rawOf 0 0 0x7B 0x7F 0x0F), (rawOf 0 0 0 0x59 0))
  | .arm .. => some ((rawOf 0 0 0x7B 0x7F 0x0F), (rawOf 0 0 0 0x5A 0))
  | .await .. => some ((rawOf 0 0 0x7B 0x7F 0x0F), (rawOf 0 0 0 0x5B 0))
  | .xacq => some ((rawOf 0x7F 0x7F 0x7F 0x7F 0x0F), (rawOf 0 0 0 0x5C 0))
  | .xrel => some ((rawOf 0x7F 0x7F 0x7F 0x7F 0x0F), (rawOf 0 0 0 0x5D 0))
  | .atom .. => some ((rawOf 0 0 0 0x7F 0), (rawOf 0 0 0 0x60 0))
  | .atomx .. => some ((rawOf 0 0 0 0x7F 0x0E), (rawOf 0 0 0 0x61 0))
  | .red .. => some ((rawOf 0 0 0 0x7F 0), (rawOf 0 0 0 0x62 0))
  | .rgn => some ((rawOf 0x7F 0x7F 0x7F 0x7F 0x0F), (rawOf 0 0 0 0x63 0))
  | .rgnc => some ((rawOf 0x7F 0x7F 0x7F 0x7F 0x0F), (rawOf 0 0 0 0x64 0))
  | .lget .. => some ((rawOf 0 0x7F 0 0x7F 0x08), (rawOf 0 0 0 0x68 0))
  | .ljoin .. => some ((rawOf 0 0 0 0x7F 0x0A), (rawOf 0 0 0 0x69 0))
  | .lceil .. => some ((rawOf 0x7F 0x7F 0 0x7F 0x0B), (rawOf 0 0 0 0x6A 0))
  | .endo .. => some ((rawOf 0x7F 0 0x7F 0x7F 0x0F), (rawOf 0 0 0 0x6B 0))
  | .decl .. => some ((rawOf 0 0 0 0x7F 0x0A), (rawOf 0 0 0 0x6C 0))
  | .mma .. => some ((rawOf 0x40 0 0 0x7F 0x08), (rawOf 0 0 0 0x70 0))
  | .mmasp .. => some ((rawOf 0x40 0 0 0x7F 0), (rawOf 0 0 0 0x71 0))
  | .accld .. => some ((rawOf 0 0 0 0x7F 0), (rawOf 0 0 0 0x72 0))
  | .accst .. => some ((rawOf 0 0 0 0x7F 0), (rawOf 0 0 0 0x73 0))
  | .sign .. => some ((rawOf 0x70 0x7E 0 0x7F 0x0B), (rawOf 0 0 0 0x74 0))
  | .jwait .. => some ((rawOf 0x7F 0x7F 0x70 0x7F 0x0F), (rawOf 0 0 0 0x75 0))
  | .tide .. => some ((rawOf 0 0x7F 0x7F 0x7F 0x0F), (rawOf 0 0 0 0x76 0))
  | .cpy .. => some ((rawOf 0x7F 0 0x7F 0x7F 0x0E), (rawOf 0 0 0 0x78 0))
  | .cpym .. => some ((rawOf 0x7F 0 0 0x7F 0x0E), (rawOf 0 0 0 0x79 0))
  | .coll .. => some ((rawOf 0 0 0x7F 0x7F 0x0E), (rawOf 0 0 0 0x7A 0))
  | .xperm .. => some ((rawOf 0x7F 0 0x7F 0x7F 0x0E), (rawOf 0 0 0 0x7B 0))
  | .recBegin .. => some ((rawOf 0x70 0 0 0x7F 0x0F), (rawOf 0 0 0 0x7C 0))
  | .recEnd .. => some ((rawOf 0x70 0x7F 0x7F 0x7F 0x0F), (rawOf 0 0 0 0x7C 0x01))
  | .recPlay .. => some ((rawOf 0x70 0x7F 0 0x7F 0x0F), (rawOf 0 0 0 0x7C 0x02))
  | .recDrop .. => some ((rawOf 0x70 0x7F 0x7F 0x7F 0x0F), (rawOf 0 0 0 0x7C 0x03))
  | .recq .. => some ((rawOf 0 0x7F 0x70 0x7F 0x0F), (rawOf 0 0 0 0x7D 0))
  | _ => none

/-- The fields of r under the mask m. -/
def maskRaw (r m : Raw) : Raw :=
  rawOf (r.d &&& m.d) (r.a &&& m.a) (r.b &&& m.b) (r.major &&& m.major) (r.minor &&& m.minor)

namespace Row

/-! The parts of a field that a row fixes. -/

theorem lty_low (b : BOp) (t : LTy) : (b.top ++ t.enc) &&& 1#4 = 0#4 := by cases b <;> cases t <;> simp [BOp.top, LTy.enc]
theorem type0 (b : BOp) : (b.top ++ 0#2) &&& 3#4 = 0#4 := by cases b <;> simp [BOp.top]
theorem flag_minor (b : BOp) (w : Bool) : (b.top ++ (0#1 ++ bit1 w)) &&& 2#4 = 0#4 := by
  cases b <;> cases w <;> simp [BOp.top, bit1]
theorem top_notImm (b : BOp) (h : b.isImm = false) (t : BitVec 2) : (b.top ++ t) &&& 8#4 = 0#4 := by
  revert t
  cases b with
  | imm k => simp [BOp.isImm] at h
  | reg f => simp only [BOp.top]; decide
  | sreg f => simp only [BOp.top]; decide
theorem low4 (q : BitVec 4) : (0#3 ++ q) &&& 112#7 = 0#7 := by revert q; decide
theorem low5 (q : BitVec 5) : (0#2 ++ q) &&& 96#7 = 0#7 := by revert q; decide
theorem low6 (q : BitVec 6) : (0#1 ++ q) &&& 64#7 = 0#7 := by revert q; decide
theorem sense5 (s : Bool) (q : BitVec 5) : (0#1 ++ bit1 s ++ q) &&& 64#7 = 0#7 := by revert s q; decide
theorem off_pad (s : Bool) : (0#4 ++ bit1 s ++ 0#2) &&& 123#7 = 0#7 := by revert s; decide


/-- The fixed bits of the table's row stand in the fields that the encoder writes. -/
def Statement (i : Instr) : Prop :=
  i.wf = true → ∀ r l o, i.raw = some (r, l, o) → ∃ mk mt, tableRow i = some (mk, mt) ∧ maskRaw r mk = mt

theorem nop : Statement (.nop) := by
  intro _ r l o h
  rw [raw_nop, Option.some.injEq, Prod.mk.injEq] at h
  obtain ⟨rfl, -⟩ := h
  refine ⟨_, _, rfl, ?_⟩
  simp [maskRaw, rawOf, Alu.raw, Un.raw, CmpOp.raw, MemOp.raw, PadOp.raw, BrOff.raw, lty_low, type0, flag_minor, low4,
    low5, low6, sense5, off_pad]

theorem add x0 : Statement (.add x0) := by
  intro _ r l o h
  rw [raw_add, Option.some.injEq, Prod.mk.injEq] at h
  obtain ⟨rfl, -⟩ := h
  refine ⟨_, _, rfl, ?_⟩
  simp [maskRaw, rawOf, Alu.raw, Un.raw, CmpOp.raw, MemOp.raw, PadOp.raw, BrOff.raw, lty_low, type0, flag_minor, low4,
    low5, low6, sense5, off_pad]

theorem addc x0 : Statement (.addc x0) := by
  intro _ r l o h
  rw [raw_addc, Option.some.injEq, Prod.mk.injEq] at h
  obtain ⟨rfl, -⟩ := h
  refine ⟨_, _, rfl, ?_⟩
  simp [maskRaw, rawOf, Alu.raw, Un.raw, CmpOp.raw, MemOp.raw, PadOp.raw, BrOff.raw, lty_low, type0, flag_minor, low4,
    low5, low6, sense5, off_pad]

theorem isub x0 : Statement (.isub x0) := by
  intro _ r l o h
  rw [raw_isub, Option.some.injEq, Prod.mk.injEq] at h
  obtain ⟨rfl, -⟩ := h
  refine ⟨_, _, rfl, ?_⟩
  simp [maskRaw, rawOf, Alu.raw, Un.raw, CmpOp.raw, MemOp.raw, PadOp.raw, BrOff.raw, lty_low, type0, flag_minor, low4,
    low5, low6, sense5, off_pad]

theorem imul x0 : Statement (.imul x0) := by
  intro _ r l o h
  rw [raw_imul, Option.some.injEq, Prod.mk.injEq] at h
  obtain ⟨rfl, -⟩ := h
  refine ⟨_, _, rfl, ?_⟩
  simp [maskRaw, rawOf, Alu.raw, Un.raw, CmpOp.raw, MemOp.raw, PadOp.raw, BrOff.raw, lty_low, type0, flag_minor, low4,
    low5, low6, sense5, off_pad]

theorem imad x0 : Statement (.imad x0) := by
  intro _ r l o h
  rw [raw_imad, Option.some.injEq, Prod.mk.injEq] at h
  obtain ⟨rfl, -⟩ := h
  refine ⟨_, _, rfl, ?_⟩
  simp [maskRaw, rawOf, Alu.raw, Un.raw, CmpOp.raw, MemOp.raw, PadOp.raw, BrOff.raw, lty_low, type0, flag_minor, low4,
    low5, low6, sense5, off_pad]

theorem iabs x0 x1 : Statement (.iabs x0 x1) := by
  intro _ r l o h
  rw [raw_iabs, Option.some.injEq, Prod.mk.injEq] at h
  obtain ⟨rfl, -⟩ := h
  refine ⟨_, _, rfl, ?_⟩
  simp [maskRaw, rawOf, Alu.raw, Un.raw, CmpOp.raw, MemOp.raw, PadOp.raw, BrOff.raw, lty_low, type0, flag_minor, low4,
    low5, low6, sense5, off_pad]

theorem imin x0 : Statement (.imin x0) := by
  intro _ r l o h
  rw [raw_imin, Option.some.injEq, Prod.mk.injEq] at h
  obtain ⟨rfl, -⟩ := h
  refine ⟨_, _, rfl, ?_⟩
  simp [maskRaw, rawOf, Alu.raw, Un.raw, CmpOp.raw, MemOp.raw, PadOp.raw, BrOff.raw, lty_low, type0, flag_minor, low4,
    low5, low6, sense5, off_pad]

theorem imax x0 : Statement (.imax x0) := by
  intro _ r l o h
  rw [raw_imax, Option.some.injEq, Prod.mk.injEq] at h
  obtain ⟨rfl, -⟩ := h
  refine ⟨_, _, rfl, ?_⟩
  simp [maskRaw, rawOf, Alu.raw, Un.raw, CmpOp.raw, MemOp.raw, PadOp.raw, BrOff.raw, lty_low, type0, flag_minor, low4,
    low5, low6, sense5, off_pad]

theorem cmp x0 : Statement (.cmp x0) := by
  intro _ r l o h
  rw [raw_cmp, Option.some.injEq, Prod.mk.injEq] at h
  obtain ⟨rfl, -⟩ := h
  refine ⟨_, _, rfl, ?_⟩
  simp [maskRaw, rawOf, Alu.raw, Un.raw, CmpOp.raw, MemOp.raw, PadOp.raw, BrOff.raw, lty_low, type0, flag_minor, low4,
    low5, low6, sense5, off_pad]

theorem lea x0 : Statement (.lea x0) := by
  intro _ r l o h
  rw [raw_lea, Option.some.injEq, Prod.mk.injEq] at h
  obtain ⟨rfl, -⟩ := h
  refine ⟨_, _, rfl, ?_⟩
  simp [maskRaw, rawOf, Alu.raw, Un.raw, CmpOp.raw, MemOp.raw, PadOp.raw, BrOff.raw, lty_low, type0, flag_minor, low4,
    low5, low6, sense5, off_pad]

theorem mov x0 : Statement (.mov x0) := by
  intro _ r l o h
  rw [raw_mov, Option.some.injEq, Prod.mk.injEq] at h
  obtain ⟨rfl, -⟩ := h
  refine ⟨_, _, rfl, ?_⟩
  simp [maskRaw, rawOf, Alu.raw, Un.raw, CmpOp.raw, MemOp.raw, PadOp.raw, BrOff.raw, lty_low, type0, flag_minor, low4,
    low5, low6, sense5, off_pad]

theorem movl x0 x1 x2 : Statement (.movl x0 x1 x2) := by
  intro _ r l o h
  rw [raw_movl, Option.some.injEq, Prod.mk.injEq] at h
  obtain ⟨rfl, -⟩ := h
  refine ⟨_, _, rfl, ?_⟩
  simp [maskRaw, rawOf, Alu.raw, Un.raw, CmpOp.raw, MemOp.raw, PadOp.raw, BrOff.raw, lty_low, type0, flag_minor, low4,
    low5, low6, sense5, off_pad]
  cases x0 <;> decide

theorem and x0 : Statement (.and x0) := by
  intro _ r l o h
  rw [raw_and, Option.some.injEq, Prod.mk.injEq] at h
  obtain ⟨rfl, -⟩ := h
  refine ⟨_, _, rfl, ?_⟩
  simp [maskRaw, rawOf, Alu.raw, Un.raw, CmpOp.raw, MemOp.raw, PadOp.raw, BrOff.raw, lty_low, type0, flag_minor, low4,
    low5, low6, sense5, off_pad]

theorem andn x0 : Statement (.andn x0) := by
  intro _ r l o h
  rw [raw_andn, Option.some.injEq, Prod.mk.injEq] at h
  obtain ⟨rfl, -⟩ := h
  refine ⟨_, _, rfl, ?_⟩
  simp [maskRaw, rawOf, Alu.raw, Un.raw, CmpOp.raw, MemOp.raw, PadOp.raw, BrOff.raw, lty_low, type0, flag_minor, low4,
    low5, low6, sense5, off_pad]

theorem or x0 : Statement (.or x0) := by
  intro _ r l o h
  rw [raw_or, Option.some.injEq, Prod.mk.injEq] at h
  obtain ⟨rfl, -⟩ := h
  refine ⟨_, _, rfl, ?_⟩
  simp [maskRaw, rawOf, Alu.raw, Un.raw, CmpOp.raw, MemOp.raw, PadOp.raw, BrOff.raw, lty_low, type0, flag_minor, low4,
    low5, low6, sense5, off_pad]

theorem xor x0 : Statement (.xor x0) := by
  intro _ r l o h
  rw [raw_xor, Option.some.injEq, Prod.mk.injEq] at h
  obtain ⟨rfl, -⟩ := h
  refine ⟨_, _, rfl, ?_⟩
  simp [maskRaw, rawOf, Alu.raw, Un.raw, CmpOp.raw, MemOp.raw, PadOp.raw, BrOff.raw, lty_low, type0, flag_minor, low4,
    low5, low6, sense5, off_pad]

theorem shl x0 : Statement (.shl x0) := by
  intro _ r l o h
  rw [raw_shl, Option.some.injEq, Prod.mk.injEq] at h
  obtain ⟨rfl, -⟩ := h
  refine ⟨_, _, rfl, ?_⟩
  simp [maskRaw, rawOf, Alu.raw, Un.raw, CmpOp.raw, MemOp.raw, PadOp.raw, BrOff.raw, lty_low, type0, flag_minor, low4,
    low5, low6, sense5, off_pad]

theorem shr x0 : Statement (.shr x0) := by
  intro _ r l o h
  rw [raw_shr, Option.some.injEq, Prod.mk.injEq] at h
  obtain ⟨rfl, -⟩ := h
  refine ⟨_, _, rfl, ?_⟩
  simp [maskRaw, rawOf, Alu.raw, Un.raw, CmpOp.raw, MemOp.raw, PadOp.raw, BrOff.raw, lty_low, type0, flag_minor, low4,
    low5, low6, sense5, off_pad]

theorem sar x0 : Statement (.sar x0) := by
  intro _ r l o h
  rw [raw_sar, Option.some.injEq, Prod.mk.injEq] at h
  obtain ⟨rfl, -⟩ := h
  refine ⟨_, _, rfl, ?_⟩
  simp [maskRaw, rawOf, Alu.raw, Un.raw, CmpOp.raw, MemOp.raw, PadOp.raw, BrOff.raw, lty_low, type0, flag_minor, low4,
    low5, low6, sense5, off_pad]

theorem rol x0 : Statement (.rol x0) := by
  intro _ r l o h
  rw [raw_rol, Option.some.injEq, Prod.mk.injEq] at h
  obtain ⟨rfl, -⟩ := h
  refine ⟨_, _, rfl, ?_⟩
  simp [maskRaw, rawOf, Alu.raw, Un.raw, CmpOp.raw, MemOp.raw, PadOp.raw, BrOff.raw, lty_low, type0, flag_minor, low4,
    low5, low6, sense5, off_pad]

theorem bfx x0 : Statement (.bfx x0) := by
  intro _ r l o h
  rw [raw_bfx, Option.some.injEq, Prod.mk.injEq] at h
  obtain ⟨rfl, -⟩ := h
  refine ⟨_, _, rfl, ?_⟩
  simp [maskRaw, rawOf, Alu.raw, Un.raw, CmpOp.raw, MemOp.raw, PadOp.raw, BrOff.raw, lty_low, type0, flag_minor, low4,
    low5, low6, sense5, off_pad]

theorem bfi x0 : Statement (.bfi x0) := by
  intro _ r l o h
  rw [raw_bfi, Option.some.injEq, Prod.mk.injEq] at h
  obtain ⟨rfl, -⟩ := h
  refine ⟨_, _, rfl, ?_⟩
  simp [maskRaw, rawOf, Alu.raw, Un.raw, CmpOp.raw, MemOp.raw, PadOp.raw, BrOff.raw, lty_low, type0, flag_minor, low4,
    low5, low6, sense5, off_pad]

theorem popc x0 : Statement (.popc x0) := by
  intro _ r l o h
  rw [raw_popc, Option.some.injEq, Prod.mk.injEq] at h
  obtain ⟨rfl, -⟩ := h
  refine ⟨_, _, rfl, ?_⟩
  simp [maskRaw, rawOf, Alu.raw, Un.raw, CmpOp.raw, MemOp.raw, PadOp.raw, BrOff.raw, lty_low, type0, flag_minor, low4,
    low5, low6, sense5, off_pad]

theorem clz x0 : Statement (.clz x0) := by
  intro _ r l o h
  rw [raw_clz, Option.some.injEq, Prod.mk.injEq] at h
  obtain ⟨rfl, -⟩ := h
  refine ⟨_, _, rfl, ?_⟩
  simp [maskRaw, rawOf, Alu.raw, Un.raw, CmpOp.raw, MemOp.raw, PadOp.raw, BrOff.raw, lty_low, type0, flag_minor, low4,
    low5, low6, sense5, off_pad]

theorem brev x0 : Statement (.brev x0) := by
  intro _ r l o h
  rw [raw_brev, Option.some.injEq, Prod.mk.injEq] at h
  obtain ⟨rfl, -⟩ := h
  refine ⟨_, _, rfl, ?_⟩
  simp [maskRaw, rawOf, Alu.raw, Un.raw, CmpOp.raw, MemOp.raw, PadOp.raw, BrOff.raw, lty_low, type0, flag_minor, low4,
    low5, low6, sense5, off_pad]

theorem prmb x0 : Statement (.prmb x0) := by
  intro _ r l o h
  rw [raw_prmb, Option.some.injEq, Prod.mk.injEq] at h
  obtain ⟨rfl, -⟩ := h
  refine ⟨_, _, rfl, ?_⟩
  simp [maskRaw, rawOf, Alu.raw, Un.raw, CmpOp.raw, MemOp.raw, PadOp.raw, BrOff.raw, lty_low, type0, flag_minor, low4,
    low5, low6, sense5, off_pad]

theorem fadd x0 : Statement (.fadd x0) := by
  intro _ r l o h
  rw [raw_fadd, Option.some.injEq, Prod.mk.injEq] at h
  obtain ⟨rfl, -⟩ := h
  refine ⟨_, _, rfl, ?_⟩
  simp [maskRaw, rawOf, Alu.raw, Un.raw, CmpOp.raw, MemOp.raw, PadOp.raw, BrOff.raw, lty_low, type0, flag_minor, low4,
    low5, low6, sense5, off_pad]

theorem fmul x0 : Statement (.fmul x0) := by
  intro _ r l o h
  rw [raw_fmul, Option.some.injEq, Prod.mk.injEq] at h
  obtain ⟨rfl, -⟩ := h
  refine ⟨_, _, rfl, ?_⟩
  simp [maskRaw, rawOf, Alu.raw, Un.raw, CmpOp.raw, MemOp.raw, PadOp.raw, BrOff.raw, lty_low, type0, flag_minor, low4,
    low5, low6, sense5, off_pad]

theorem ffma x0 : Statement (.ffma x0) := by
  intro _ r l o h
  rw [raw_ffma, Option.some.injEq, Prod.mk.injEq] at h
  obtain ⟨rfl, -⟩ := h
  refine ⟨_, _, rfl, ?_⟩
  simp [maskRaw, rawOf, Alu.raw, Un.raw, CmpOp.raw, MemOp.raw, PadOp.raw, BrOff.raw, lty_low, type0, flag_minor, low4,
    low5, low6, sense5, off_pad]

theorem fmin x0 : Statement (.fmin x0) := by
  intro _ r l o h
  rw [raw_fmin, Option.some.injEq, Prod.mk.injEq] at h
  obtain ⟨rfl, -⟩ := h
  refine ⟨_, _, rfl, ?_⟩
  simp [maskRaw, rawOf, Alu.raw, Un.raw, CmpOp.raw, MemOp.raw, PadOp.raw, BrOff.raw, lty_low, type0, flag_minor, low4,
    low5, low6, sense5, off_pad]

theorem fmax x0 : Statement (.fmax x0) := by
  intro _ r l o h
  rw [raw_fmax, Option.some.injEq, Prod.mk.injEq] at h
  obtain ⟨rfl, -⟩ := h
  refine ⟨_, _, rfl, ?_⟩
  simp [maskRaw, rawOf, Alu.raw, Un.raw, CmpOp.raw, MemOp.raw, PadOp.raw, BrOff.raw, lty_low, type0, flag_minor, low4,
    low5, low6, sense5, off_pad]

theorem fcmp x0 : Statement (.fcmp x0) := by
  intro _ r l o h
  rw [raw_fcmp, Option.some.injEq, Prod.mk.injEq] at h
  obtain ⟨rfl, -⟩ := h
  refine ⟨_, _, rfl, ?_⟩
  simp [maskRaw, rawOf, Alu.raw, Un.raw, CmpOp.raw, MemOp.raw, PadOp.raw, BrOff.raw, lty_low, type0, flag_minor, low4,
    low5, low6, sense5, off_pad]
  exact flag_minor _ _

theorem fsf x0 x1 : Statement (.fsf x0 x1) := by
  intro _ r l o h
  rw [raw_fsf, Option.some.injEq, Prod.mk.injEq] at h
  obtain ⟨rfl, -⟩ := h
  refine ⟨_, _, rfl, ?_⟩
  simp [maskRaw, rawOf, Alu.raw, Un.raw, CmpOp.raw, MemOp.raw, PadOp.raw, BrOff.raw, lty_low, type0, flag_minor, low4,
    low5, low6, sense5, off_pad]
  cases x0 <;> decide

theorem frnd x0 x1 : Statement (.frnd x0 x1) := by
  intro _ r l o h
  rw [raw_frnd, Option.some.injEq, Prod.mk.injEq] at h
  obtain ⟨rfl, -⟩ := h
  refine ⟨_, _, rfl, ?_⟩
  simp [maskRaw, rawOf, Alu.raw, Un.raw, CmpOp.raw, MemOp.raw, PadOp.raw, BrOff.raw, lty_low, type0, flag_minor, low4,
    low5, low6, sense5, off_pad]
  cases x0 <;> decide

theorem twosum x0 : Statement (.twosum x0) := by
  intro _ r l o h
  rw [raw_twosum, Option.some.injEq, Prod.mk.injEq] at h
  obtain ⟨rfl, -⟩ := h
  refine ⟨_, _, rfl, ?_⟩
  simp [maskRaw, rawOf, Alu.raw, Un.raw, CmpOp.raw, MemOp.raw, PadOp.raw, BrOff.raw, lty_low, type0, flag_minor, low4,
    low5, low6, sense5, off_pad]

theorem twoprd x0 : Statement (.twoprd x0) := by
  intro _ r l o h
  rw [raw_twoprd, Option.some.injEq, Prod.mk.injEq] at h
  obtain ⟨rfl, -⟩ := h
  refine ⟨_, _, rfl, ?_⟩
  simp [maskRaw, rawOf, Alu.raw, Un.raw, CmpOp.raw, MemOp.raw, PadOp.raw, BrOff.raw, lty_low, type0, flag_minor, low4,
    low5, low6, sense5, off_pad]

theorem cfma x0 x1 x2 : Statement (.cfma x0 x1 x2) := by
  intro _ r l o h
  rw [raw_cfma, Option.some.injEq, Prod.mk.injEq] at h
  obtain ⟨rfl, -⟩ := h
  refine ⟨_, _, rfl, ?_⟩
  simp [maskRaw, rawOf, Alu.raw, Un.raw, CmpOp.raw, MemOp.raw, PadOp.raw, BrOff.raw, lty_low, type0, flag_minor, low4,
    low5, low6, sense5, off_pad]

theorem cvt x0 x1 x2 : Statement (.cvt x0 x1 x2) := by
  intro _ r l o h
  rw [raw_cvt, Option.some.injEq, Prod.mk.injEq] at h
  obtain ⟨rfl, -⟩ := h
  refine ⟨_, _, rfl, ?_⟩
  simp [maskRaw, rawOf, Alu.raw, Un.raw, CmpOp.raw, MemOp.raw, PadOp.raw, BrOff.raw, lty_low, type0, flag_minor, low4,
    low5, low6, sense5, off_pad]

theorem qpack x0 x1 x2 x3 : Statement (.qpack x0 x1 x2 x3) := by
  intro hw r l o h
  rw [raw_qpack, Option.some.injEq, Prod.mk.injEq] at h
  obtain ⟨rfl, -⟩ := h
  refine ⟨_, _, rfl, ?_⟩
  simp [maskRaw, rawOf, Alu.raw, Un.raw, CmpOp.raw, MemOp.raw, PadOp.raw, BrOff.raw, lty_low, type0, flag_minor, low4,
    low5, low6, sense5, off_pad]
  clear hw
  revert x3; decide

theorem qunpk x0 x1 x2 x3 x4 x5 : Statement (.qunpk x0 x1 x2 x3 x4 x5) := by
  intro _ r l o h
  rw [raw_qunpk, Option.some.injEq, Prod.mk.injEq] at h
  obtain ⟨rfl, -⟩ := h
  refine ⟨_, _, rfl, ?_⟩
  simp [maskRaw, rawOf, Alu.raw, Un.raw, CmpOp.raw, MemOp.raw, PadOp.raw, BrOff.raw, lty_low, type0, flag_minor, low4,
    low5, low6, sense5, off_pad]

theorem trap x0 : Statement (.trap x0) := by
  intro _ r l o h
  rw [raw_trap, Option.some.injEq, Prod.mk.injEq] at h
  obtain ⟨rfl, -⟩ := h
  refine ⟨_, _, rfl, ?_⟩
  simp [maskRaw, rawOf, Alu.raw, Un.raw, CmpOp.raw, MemOp.raw, PadOp.raw, BrOff.raw, lty_low, type0, flag_minor, low4,
    low5, low6, sense5, off_pad]

theorem eretResume : Statement (.eretResume) := by
  intro _ r l o h
  rw [raw_eretResume, Option.some.injEq, Prod.mk.injEq] at h
  obtain ⟨rfl, -⟩ := h
  refine ⟨_, _, rfl, ?_⟩
  simp [maskRaw, rawOf, Alu.raw, Un.raw, CmpOp.raw, MemOp.raw, PadOp.raw, BrOff.raw, lty_low, type0, flag_minor, low4,
    low5, low6, sense5, off_pad]

theorem eretRestart : Statement (.eretRestart) := by
  intro _ r l o h
  rw [raw_eretRestart, Option.some.injEq, Prod.mk.injEq] at h
  obtain ⟨rfl, -⟩ := h
  refine ⟨_, _, rfl, ?_⟩
  simp [maskRaw, rawOf, Alu.raw, Un.raw, CmpOp.raw, MemOp.raw, PadOp.raw, BrOff.raw, lty_low, type0, flag_minor, low4,
    low5, low6, sense5, off_pad]

theorem eretSkip : Statement (.eretSkip) := by
  intro _ r l o h
  rw [raw_eretSkip, Option.some.injEq, Prod.mk.injEq] at h
  obtain ⟨rfl, -⟩ := h
  refine ⟨_, _, rfl, ?_⟩
  simp [maskRaw, rawOf, Alu.raw, Un.raw, CmpOp.raw, MemOp.raw, PadOp.raw, BrOff.raw, lty_low, type0, flag_minor, low4,
    low5, low6, sense5, off_pad]

theorem mfsr x0 x1 : Statement (.mfsr x0 x1) := by
  intro _ r l o h
  rw [raw_mfsr, Option.some.injEq, Prod.mk.injEq] at h
  obtain ⟨rfl, -⟩ := h
  refine ⟨_, _, rfl, ?_⟩
  simp [maskRaw, rawOf, Alu.raw, Un.raw, CmpOp.raw, MemOp.raw, PadOp.raw, BrOff.raw, lty_low, type0, flag_minor, low4,
    low5, low6, sense5, off_pad]

theorem mtsr x0 x1 x2 : Statement (.mtsr x0 x1 x2) := by
  intro _ r l o h
  rw [raw_mtsr, Option.some.injEq, Prod.mk.injEq] at h
  obtain ⟨rfl, -⟩ := h
  refine ⟨_, _, rfl, ?_⟩
  simp [maskRaw, rawOf, Alu.raw, Un.raw, CmpOp.raw, MemOp.raw, PadOp.raw, BrOff.raw, lty_low, type0, flag_minor, low4,
    low5, low6, sense5, off_pad]

theorem bkpt x0 : Statement (.bkpt x0) := by
  intro _ r l o h
  rw [raw_bkpt, Option.some.injEq, Prod.mk.injEq] at h
  obtain ⟨rfl, -⟩ := h
  refine ⟨_, _, rfl, ?_⟩
  simp [maskRaw, rawOf, Alu.raw, Un.raw, CmpOp.raw, MemOp.raw, PadOp.raw, BrOff.raw, lty_low, type0, flag_minor, low4,
    low5, low6, sense5, off_pad]

theorem snap : Statement (.snap) := by
  intro _ r l o h
  rw [raw_snap, Option.some.injEq, Prod.mk.injEq] at h
  obtain ⟨rfl, -⟩ := h
  refine ⟨_, _, rfl, ?_⟩
  simp [maskRaw, rawOf, Alu.raw, Un.raw, CmpOp.raw, MemOp.raw, PadOp.raw, BrOff.raw, lty_low, type0, flag_minor, low4,
    low5, low6, sense5, off_pad]

theorem time x0 x1 : Statement (.time x0 x1) := by
  intro _ r l o h
  rw [raw_time, Option.some.injEq, Prod.mk.injEq] at h
  obtain ⟨rfl, -⟩ := h
  refine ⟨_, _, rfl, ?_⟩
  simp [maskRaw, rawOf, Alu.raw, Un.raw, CmpOp.raw, MemOp.raw, PadOp.raw, BrOff.raw, lty_low, type0, flag_minor, low4,
    low5, low6, sense5, off_pad]
  cases x1 <;> decide

theorem sel x0 x1 x2 : Statement (.sel x0 x1 x2) := by
  intro _ r l o h
  rw [raw_sel, Option.some.injEq, Prod.mk.injEq] at h
  obtain ⟨rfl, -⟩ := h
  refine ⟨_, _, rfl, ?_⟩
  simp [maskRaw, rawOf, Alu.raw, Un.raw, CmpOp.raw, MemOp.raw, PadOp.raw, BrOff.raw, lty_low, type0, flag_minor, low4,
    low5, low6, sense5, off_pad]

theorem plop x0 x1 x2 x3 : Statement (.plop x0 x1 x2 x3) := by
  intro _ r l o h
  rw [raw_plop, Option.some.injEq, Prod.mk.injEq] at h
  obtain ⟨rfl, -⟩ := h
  refine ⟨_, _, rfl, ?_⟩
  simp [maskRaw, rawOf, Alu.raw, Un.raw, CmpOp.raw, MemOp.raw, PadOp.raw, BrOff.raw, lty_low, type0, flag_minor, low4,
    low5, low6, sense5, off_pad]

theorem pmov x0 : Statement (.pmov x0) := by
  intro _ r l o h
  cases x0 with
  | toReg d p =>
    rw [raw_pmov_toReg, Option.some.injEq, Prod.mk.injEq] at h
    obtain ⟨rfl, -⟩ := h
    refine ⟨_, _, rfl, ?_⟩
    simp [maskRaw, rawOf, Alu.raw, Un.raw, CmpOp.raw, MemOp.raw, PadOp.raw, BrOff.raw, lty_low, type0, flag_minor, low4,
      low5, low6, sense5, off_pad]
  | toPred p b l =>
    rw [raw_pmov_toPred, Option.some.injEq, Prod.mk.injEq] at h
    obtain ⟨rfl, -⟩ := h
    refine ⟨_, _, rfl, ?_⟩
    simp [maskRaw, rawOf, Alu.raw, Un.raw, CmpOp.raw, MemOp.raw, PadOp.raw, BrOff.raw, lty_low, type0, flag_minor, low4,
      low5, low6, sense5, off_pad]
  | save d =>
    rw [raw_pmov_save, Option.some.injEq, Prod.mk.injEq] at h
    obtain ⟨rfl, -⟩ := h
    refine ⟨_, _, rfl, ?_⟩
    simp [maskRaw, rawOf, Alu.raw, Un.raw, CmpOp.raw, MemOp.raw, PadOp.raw, BrOff.raw, lty_low, type0, flag_minor, low4,
      low5, low6, sense5, off_pad]
  | load b l =>
    rw [raw_pmov_load, Option.some.injEq, Prod.mk.injEq] at h
    obtain ⟨rfl, -⟩ := h
    refine ⟨_, _, rfl, ?_⟩
    simp [maskRaw, rawOf, Alu.raw, Un.raw, CmpOp.raw, MemOp.raw, PadOp.raw, BrOff.raw, lty_low, type0, flag_minor, low4,
      low5, low6, sense5, off_pad]

theorem shfl x0 : Statement (.shfl x0) := by
  intro _ r l o h
  rw [raw_shfl, Option.some.injEq, Prod.mk.injEq] at h
  obtain ⟨rfl, -⟩ := h
  refine ⟨_, _, rfl, ?_⟩
  simp [maskRaw, rawOf, Alu.raw, Un.raw, CmpOp.raw, MemOp.raw, PadOp.raw, BrOff.raw, lty_low, type0, flag_minor, low4,
    low5, low6, sense5, off_pad]

theorem vote x0 x1 x2 : Statement (.vote x0 x1 x2) := by
  intro _ r l o h
  cases x0 with
  | all p =>
    rw [raw_vote_all, Option.some.injEq, Prod.mk.injEq] at h
    obtain ⟨rfl, -⟩ := h
    refine ⟨_, _, rfl, ?_⟩
    simp [maskRaw, rawOf, Alu.raw, Un.raw, CmpOp.raw, MemOp.raw, PadOp.raw, BrOff.raw, lty_low, type0, flag_minor, low4,
      low5, low6, sense5, off_pad]
  | any p =>
    rw [raw_vote_any, Option.some.injEq, Prod.mk.injEq] at h
    obtain ⟨rfl, -⟩ := h
    refine ⟨_, _, rfl, ?_⟩
    simp [maskRaw, rawOf, Alu.raw, Un.raw, CmpOp.raw, MemOp.raw, PadOp.raw, BrOff.raw, lty_low, type0, flag_minor, low4,
      low5, low6, sense5, off_pad]
  | eq p =>
    rw [raw_vote_eq, Option.some.injEq, Prod.mk.injEq] at h
    obtain ⟨rfl, -⟩ := h
    refine ⟨_, _, rfl, ?_⟩
    simp [maskRaw, rawOf, Alu.raw, Un.raw, CmpOp.raw, MemOp.raw, PadOp.raw, BrOff.raw, lty_low, type0, flag_minor, low4,
      low5, low6, sense5, off_pad]
  | ballot d =>
    rw [raw_vote_ballot, Option.some.injEq, Prod.mk.injEq] at h
    obtain ⟨rfl, -⟩ := h
    refine ⟨_, _, rfl, ?_⟩
    simp [maskRaw, rawOf, Alu.raw, Un.raw, CmpOp.raw, MemOp.raw, PadOp.raw, BrOff.raw, lty_low, type0, flag_minor, low4,
      low5, low6, sense5, off_pad]

theorem rdx x0 x1 x2 x3 x4 : Statement (.rdx x0 x1 x2 x3 x4) := by
  intro _ r l o h
  rw [raw_rdx, Option.some.injEq, Prod.mk.injEq] at h
  obtain ⟨rfl, -⟩ := h
  refine ⟨_, _, rfl, ?_⟩
  simp [maskRaw, rawOf, Alu.raw, Un.raw, CmpOp.raw, MemOp.raw, PadOp.raw, BrOff.raw, lty_low, type0, flag_minor, low4,
    low5, low6, sense5, off_pad]
  constructor
  · cases x0 <;> decide
  · cases x1 with
    | int t => cases t <;> decide
    | f32 => decide
    | f64 => decide

theorem scan x0 x1 x2 x3 x4 x5 : Statement (.scan x0 x1 x2 x3 x4 x5) := by
  intro _ r l o h
  rw [raw_scan, Option.some.injEq, Prod.mk.injEq] at h
  obtain ⟨rfl, -⟩ := h
  refine ⟨_, _, rfl, ?_⟩
  simp [maskRaw, rawOf, Alu.raw, Un.raw, CmpOp.raw, MemOp.raw, PadOp.raw, BrOff.raw, lty_low, type0, flag_minor, low4,
    low5, low6, sense5, off_pad]
  constructor
  · cases x0 <;> cases x1 <;> decide
  · cases x2 with
    | int t => cases t <;> decide
    | f32 => decide
    | f64 => decide

theorem bra x0 : Statement (.bra x0) := by
  intro _ r l o h
  rw [raw_bra, Option.some.injEq, Prod.mk.injEq] at h
  obtain ⟨rfl, -⟩ := h
  refine ⟨_, _, rfl, ?_⟩
  simp [maskRaw, rawOf, Alu.raw, Un.raw, CmpOp.raw, MemOp.raw, PadOp.raw, BrOff.raw, lty_low, type0, flag_minor, low4,
    low5, low6, sense5, off_pad]

theorem brc x0 x1 x2 : Statement (.brc x0 x1 x2) := by
  intro _ r l o h
  rw [raw_brc, Option.some.injEq, Prod.mk.injEq] at h
  obtain ⟨rfl, -⟩ := h
  refine ⟨_, _, rfl, ?_⟩
  simp [maskRaw, rawOf, Alu.raw, Un.raw, CmpOp.raw, MemOp.raw, PadOp.raw, BrOff.raw, lty_low, type0, flag_minor, low4,
    low5, low6, sense5, off_pad]
  cases x2.lit.isSome <;> decide

theorem bdq x0 x1 : Statement (.bdq x0 x1) := by
  intro _ r l o h
  rw [raw_bdq, Option.some.injEq, Prod.mk.injEq] at h
  obtain ⟨rfl, -⟩ := h
  refine ⟨_, _, rfl, ?_⟩
  simp [maskRaw, rawOf, Alu.raw, Un.raw, CmpOp.raw, MemOp.raw, PadOp.raw, BrOff.raw, lty_low, type0, flag_minor, low4,
    low5, low6, sense5, off_pad]
  constructor
  · cases x0 <;> decide
  · cases x1.lit.isSome <;> decide

theorem jmpi x0 : Statement (.jmpi x0) := by
  intro _ r l o h
  rw [raw_jmpi, Option.some.injEq, Prod.mk.injEq] at h
  obtain ⟨rfl, -⟩ := h
  refine ⟨_, _, rfl, ?_⟩
  simp [maskRaw, rawOf, Alu.raw, Un.raw, CmpOp.raw, MemOp.raw, PadOp.raw, BrOff.raw, lty_low, type0, flag_minor, low4,
    low5, low6, sense5, off_pad]

theorem call x0 x1 : Statement (.call x0 x1) := by
  intro _ r l o h
  rw [raw_call, Option.some.injEq, Prod.mk.injEq] at h
  obtain ⟨rfl, -⟩ := h
  refine ⟨_, _, rfl, ?_⟩
  simp [maskRaw, rawOf, Alu.raw, Un.raw, CmpOp.raw, MemOp.raw, PadOp.raw, BrOff.raw, lty_low, type0, flag_minor, low4,
    low5, low6, sense5, off_pad]
  cases x1.lit.isSome <;> decide

theorem ret x0 : Statement (.ret x0) := by
  intro _ r l o h
  rw [raw_ret, Option.some.injEq, Prod.mk.injEq] at h
  obtain ⟨rfl, -⟩ := h
  refine ⟨_, _, rfl, ?_⟩
  simp [maskRaw, rawOf, Alu.raw, Un.raw, CmpOp.raw, MemOp.raw, PadOp.raw, BrOff.raw, lty_low, type0, flag_minor, low4,
    low5, low6, sense5, off_pad]

theorem reform x0 x1 : Statement (.reform x0 x1) := by
  intro _ r l o h
  rw [raw_reform, Option.some.injEq, Prod.mk.injEq] at h
  obtain ⟨rfl, -⟩ := h
  refine ⟨_, _, rfl, ?_⟩
  simp [maskRaw, rawOf, Alu.raw, Un.raw, CmpOp.raw, MemOp.raw, PadOp.raw, BrOff.raw, lty_low, type0, flag_minor, low4,
    low5, low6, sense5, off_pad]

theorem exit : Statement (.exit) := by
  intro _ r l o h
  rw [raw_exit, Option.some.injEq, Prod.mk.injEq] at h
  obtain ⟨rfl, -⟩ := h
  refine ⟨_, _, rfl, ?_⟩
  simp [maskRaw, rawOf, Alu.raw, Un.raw, CmpOp.raw, MemOp.raw, PadOp.raw, BrOff.raw, lty_low, type0, flag_minor, low4,
    low5, low6, sense5, off_pad]

theorem killTeam : Statement (.killTeam) := by
  intro _ r l o h
  rw [raw_killTeam, Option.some.injEq, Prod.mk.injEq] at h
  obtain ⟨rfl, -⟩ := h
  refine ⟨_, _, rfl, ?_⟩
  simp [maskRaw, rawOf, Alu.raw, Un.raw, CmpOp.raw, MemOp.raw, PadOp.raw, BrOff.raw, lty_low, type0, flag_minor, low4,
    low5, low6, sense5, off_pad]

theorem killGrid : Statement (.killGrid) := by
  intro _ r l o h
  rw [raw_killGrid, Option.some.injEq, Prod.mk.injEq] at h
  obtain ⟨rfl, -⟩ := h
  refine ⟨_, _, rfl, ?_⟩
  simp [maskRaw, rawOf, Alu.raw, Un.raw, CmpOp.raw, MemOp.raw, PadOp.raw, BrOff.raw, lty_low, type0, flag_minor, low4,
    low5, low6, sense5, off_pad]

theorem yield : Statement (.yield) := by
  intro _ r l o h
  rw [raw_yield, Option.some.injEq, Prod.mk.injEq] at h
  obtain ⟨rfl, -⟩ := h
  refine ⟨_, _, rfl, ?_⟩
  simp [maskRaw, rawOf, Alu.raw, Un.raw, CmpOp.raw, MemOp.raw, PadOp.raw, BrOff.raw, lty_low, type0, flag_minor, low4,
    low5, low6, sense5, off_pad]

theorem bar x0 x1 : Statement (.bar x0 x1) := by
  intro _ r l o h
  rw [raw_bar, Option.some.injEq, Prod.mk.injEq] at h
  obtain ⟨rfl, -⟩ := h
  refine ⟨_, _, rfl, ?_⟩
  simp [maskRaw, rawOf, Alu.raw, Un.raw, CmpOp.raw, MemOp.raw, PadOp.raw, BrOff.raw, lty_low, type0, flag_minor, low4,
    low5, low6, sense5, off_pad]
  cases x0 <;> cases x1 <;> decide

theorem launch x0 x1 x2 : Statement (.launch x0 x1 x2) := by
  intro _ r l o h
  rw [raw_launch, Option.some.injEq, Prod.mk.injEq] at h
  obtain ⟨rfl, -⟩ := h
  refine ⟨_, _, rfl, ?_⟩
  simp [maskRaw, rawOf, Alu.raw, Un.raw, CmpOp.raw, MemOp.raw, PadOp.raw, BrOff.raw, lty_low, type0, flag_minor, low4,
    low5, low6, sense5, off_pad]

theorem cont x0 x1 x2 : Statement (.cont x0 x1 x2) := by
  intro _ r l o h
  rw [raw_cont, Option.some.injEq, Prod.mk.injEq] at h
  obtain ⟨rfl, -⟩ := h
  refine ⟨_, _, rfl, ?_⟩
  simp [maskRaw, rawOf, Alu.raw, Un.raw, CmpOp.raw, MemOp.raw, PadOp.raw, BrOff.raw, lty_low, type0, flag_minor, low4,
    low5, low6, sense5, off_pad]

theorem dqpush x0 x1 x2 : Statement (.dqpush x0 x1 x2) := by
  intro hw r l o h
  rw [raw_dqpush, Option.some.injEq, Prod.mk.injEq] at h
  obtain ⟨rfl, -⟩ := h
  refine ⟨_, _, rfl, ?_⟩
  simp [maskRaw, rawOf, Alu.raw, Un.raw, CmpOp.raw, MemOp.raw, PadOp.raw, BrOff.raw, lty_low, type0, flag_minor, low4,
    low5, low6, sense5, off_pad]
  cases x0 <;> cases x1 <;> simp [BOp.top, bit1, wf_dqpush, BOp.isSreg] at hw ⊢

theorem dqpop x0 : Statement (.dqpop x0) := by
  intro _ r l o h
  rw [raw_dqpop, Option.some.injEq, Prod.mk.injEq] at h
  obtain ⟨rfl, -⟩ := h
  refine ⟨_, _, rfl, ?_⟩
  simp [maskRaw, rawOf, Alu.raw, Un.raw, CmpOp.raw, MemOp.raw, PadOp.raw, BrOff.raw, lty_low, type0, flag_minor, low4,
    low5, low6, sense5, off_pad]

theorem winb x0 : Statement (.winb x0) := by
  intro _ r l o h
  rw [raw_winb, Option.some.injEq, Prod.mk.injEq] at h
  obtain ⟨rfl, -⟩ := h
  refine ⟨_, _, rfl, ?_⟩
  simp [maskRaw, rawOf, Alu.raw, Un.raw, CmpOp.raw, MemOp.raw, PadOp.raw, BrOff.raw, lty_low, type0, flag_minor, low4,
    low5, low6, sense5, off_pad]
  revert x0; decide

theorem ld x0 : Statement (.ld x0) := by
  intro _ r l o h
  rw [raw_ld, Option.some.injEq, Prod.mk.injEq] at h
  obtain ⟨rfl, -⟩ := h
  refine ⟨_, _, rfl, ?_⟩
  simp [maskRaw, rawOf, Alu.raw, Un.raw, CmpOp.raw, MemOp.raw, PadOp.raw, BrOff.raw, lty_low, type0, flag_minor, low4,
    low5, low6, sense5, off_pad]

theorem st x0 : Statement (.st x0) := by
  intro _ r l o h
  rw [raw_st, Option.some.injEq, Prod.mk.injEq] at h
  obtain ⟨rfl, -⟩ := h
  refine ⟨_, _, rfl, ?_⟩
  simp [maskRaw, rawOf, Alu.raw, Un.raw, CmpOp.raw, MemOp.raw, PadOp.raw, BrOff.raw, lty_low, type0, flag_minor, low4,
    low5, low6, sense5, off_pad]

theorem lds x0 x1 : Statement (.lds x0 x1) := by
  intro _ r l o h
  rw [raw_lds, Option.some.injEq, Prod.mk.injEq] at h
  obtain ⟨rfl, -⟩ := h
  refine ⟨_, _, rfl, ?_⟩
  simp [maskRaw, rawOf, Alu.raw, Un.raw, CmpOp.raw, MemOp.raw, PadOp.raw, BrOff.raw, lty_low, type0, flag_minor, low4,
    low5, low6, sense5, off_pad]

theorem sts x0 x1 : Statement (.sts x0 x1) := by
  intro _ r l o h
  rw [raw_sts, Option.some.injEq, Prod.mk.injEq] at h
  obtain ⟨rfl, -⟩ := h
  refine ⟨_, _, rfl, ?_⟩
  simp [maskRaw, rawOf, Alu.raw, Un.raw, CmpOp.raw, MemOp.raw, PadOp.raw, BrOff.raw, lty_low, type0, flag_minor, low4,
    low5, low6, sense5, off_pad]

theorem fpush x0 x1 : Statement (.fpush x0 x1) := by
  intro _ r l o h
  rw [raw_fpush, Option.some.injEq, Prod.mk.injEq] at h
  obtain ⟨rfl, -⟩ := h
  refine ⟨_, _, rfl, ?_⟩
  simp [maskRaw, rawOf, Alu.raw, Un.raw, CmpOp.raw, MemOp.raw, PadOp.raw, BrOff.raw, lty_low, type0, flag_minor, low4,
    low5, low6, sense5, off_pad]

theorem fpop x0 x1 : Statement (.fpop x0 x1) := by
  intro _ r l o h
  rw [raw_fpop, Option.some.injEq, Prod.mk.injEq] at h
  obtain ⟨rfl, -⟩ := h
  refine ⟨_, _, rfl, ?_⟩
  simp [maskRaw, rawOf, Alu.raw, Un.raw, CmpOp.raw, MemOp.raw, PadOp.raw, BrOff.raw, lty_low, type0, flag_minor, low4,
    low5, low6, sense5, off_pad]

theorem bank x0 x1 x2 : Statement (.bank x0 x1 x2) := by
  intro _ r l o h
  rw [raw_bank, Option.some.injEq, Prod.mk.injEq] at h
  obtain ⟨rfl, -⟩ := h
  refine ⟨_, _, rfl, ?_⟩
  simp [maskRaw, rawOf, Alu.raw, Un.raw, CmpOp.raw, MemOp.raw, PadOp.raw, BrOff.raw, lty_low, type0, flag_minor, low4,
    low5, low6, sense5, off_pad]
  cases x0.isSome <;> cases x2 <;> decide

theorem fence x0 : Statement (.fence x0) := by
  intro _ r l o h
  rw [raw_fence, Option.some.injEq, Prod.mk.injEq] at h
  obtain ⟨rfl, -⟩ := h
  refine ⟨_, _, rfl, ?_⟩
  simp [maskRaw, rawOf, Alu.raw, Un.raw, CmpOp.raw, MemOp.raw, PadOp.raw, BrOff.raw, lty_low, type0, flag_minor, low4,
    low5, low6, sense5, off_pad]
  cases x0 <;> decide

theorem tlfence : Statement (.tlfence) := by
  intro _ r l o h
  rw [raw_tlfence, Option.some.injEq, Prod.mk.injEq] at h
  obtain ⟨rfl, -⟩ := h
  refine ⟨_, _, rfl, ?_⟩
  simp [maskRaw, rawOf, Alu.raw, Un.raw, CmpOp.raw, MemOp.raw, PadOp.raw, BrOff.raw, lty_low, type0, flag_minor, low4,
    low5, low6, sense5, off_pad]

theorem disc x0 : Statement (.disc x0) := by
  intro _ r l o h
  rw [raw_disc, Option.some.injEq, Prod.mk.injEq] at h
  obtain ⟨rfl, -⟩ := h
  refine ⟨_, _, rfl, ?_⟩
  simp [maskRaw, rawOf, Alu.raw, Un.raw, CmpOp.raw, MemOp.raw, PadOp.raw, BrOff.raw, lty_low, type0, flag_minor, low4,
    low5, low6, sense5, off_pad]

theorem arm x0 : Statement (.arm x0) := by
  intro _ r l o h
  rw [raw_arm, Option.some.injEq, Prod.mk.injEq] at h
  obtain ⟨rfl, -⟩ := h
  refine ⟨_, _, rfl, ?_⟩
  simp [maskRaw, rawOf, Alu.raw, Un.raw, CmpOp.raw, MemOp.raw, PadOp.raw, BrOff.raw, lty_low, type0, flag_minor, low4,
    low5, low6, sense5, off_pad]

theorem await x0 : Statement (.await x0) := by
  intro _ r l o h
  rw [raw_await, Option.some.injEq, Prod.mk.injEq] at h
  obtain ⟨rfl, -⟩ := h
  refine ⟨_, _, rfl, ?_⟩
  simp [maskRaw, rawOf, Alu.raw, Un.raw, CmpOp.raw, MemOp.raw, PadOp.raw, BrOff.raw, lty_low, type0, flag_minor, low4,
    low5, low6, sense5, off_pad]

theorem xacq : Statement (.xacq) := by
  intro _ r l o h
  rw [raw_xacq, Option.some.injEq, Prod.mk.injEq] at h
  obtain ⟨rfl, -⟩ := h
  refine ⟨_, _, rfl, ?_⟩
  simp [maskRaw, rawOf, Alu.raw, Un.raw, CmpOp.raw, MemOp.raw, PadOp.raw, BrOff.raw, lty_low, type0, flag_minor, low4,
    low5, low6, sense5, off_pad]

theorem xrel : Statement (.xrel) := by
  intro _ r l o h
  rw [raw_xrel, Option.some.injEq, Prod.mk.injEq] at h
  obtain ⟨rfl, -⟩ := h
  refine ⟨_, _, rfl, ?_⟩
  simp [maskRaw, rawOf, Alu.raw, Un.raw, CmpOp.raw, MemOp.raw, PadOp.raw, BrOff.raw, lty_low, type0, flag_minor, low4,
    low5, low6, sense5, off_pad]

theorem atom x0 : Statement (.atom x0) := by
  intro _ r l o h
  rw [raw_atom, Option.some.injEq, Prod.mk.injEq] at h
  obtain ⟨rfl, -⟩ := h
  refine ⟨_, _, rfl, ?_⟩
  simp [maskRaw, rawOf, Alu.raw, Un.raw, CmpOp.raw, MemOp.raw, PadOp.raw, BrOff.raw, lty_low, type0, flag_minor, low4,
    low5, low6, sense5, off_pad]

theorem atomx x0 : Statement (.atomx x0) := by
  intro _ r l o h
  rw [raw_atomx, Option.some.injEq, Prod.mk.injEq] at h
  obtain ⟨rfl, -⟩ := h
  refine ⟨_, _, rfl, ?_⟩
  simp [maskRaw, rawOf, Alu.raw, Un.raw, CmpOp.raw, MemOp.raw, PadOp.raw, BrOff.raw, lty_low, type0, flag_minor, low4,
    low5, low6, sense5, off_pad]
  cases x0.x <;> decide

theorem red x0 : Statement (.red x0) := by
  intro _ r l o h
  rw [raw_red, Option.some.injEq, Prod.mk.injEq] at h
  obtain ⟨rfl, -⟩ := h
  refine ⟨_, _, rfl, ?_⟩
  simp [maskRaw, rawOf, Alu.raw, Un.raw, CmpOp.raw, MemOp.raw, PadOp.raw, BrOff.raw, lty_low, type0, flag_minor, low4,
    low5, low6, sense5, off_pad]

theorem rgn : Statement (.rgn) := by
  intro _ r l o h
  rw [raw_rgn, Option.some.injEq, Prod.mk.injEq] at h
  obtain ⟨rfl, -⟩ := h
  refine ⟨_, _, rfl, ?_⟩
  simp [maskRaw, rawOf, Alu.raw, Un.raw, CmpOp.raw, MemOp.raw, PadOp.raw, BrOff.raw, lty_low, type0, flag_minor, low4,
    low5, low6, sense5, off_pad]

theorem rgnc : Statement (.rgnc) := by
  intro _ r l o h
  rw [raw_rgnc, Option.some.injEq, Prod.mk.injEq] at h
  obtain ⟨rfl, -⟩ := h
  refine ⟨_, _, rfl, ?_⟩
  simp [maskRaw, rawOf, Alu.raw, Un.raw, CmpOp.raw, MemOp.raw, PadOp.raw, BrOff.raw, lty_low, type0, flag_minor, low4,
    low5, low6, sense5, off_pad]

theorem lget x0 x1 x2 : Statement (.lget x0 x1 x2) := by
  intro hw r l o h
  cases x1 with
  | one b =>
    rw [raw_lget_one, Option.some.injEq, Prod.mk.injEq] at h
    obtain ⟨rfl, -⟩ := h
    refine ⟨_, _, rfl, ?_⟩
    simp [maskRaw, rawOf, Alu.raw, Un.raw, CmpOp.raw, MemOp.raw, PadOp.raw, BrOff.raw, lty_low, type0, flag_minor, low4,
      low5, low6, sense5, off_pad]
    refine top_notImm b ?_ _
    simp [wf_lget, LgetSrc.ok] at hw
    exact hw.2.1.2
  | pair b =>
    rw [raw_lget_pair, Option.some.injEq, Prod.mk.injEq] at h
    obtain ⟨rfl, -⟩ := h
    refine ⟨_, _, rfl, ?_⟩
    simp [maskRaw, rawOf, Alu.raw, Un.raw, CmpOp.raw, MemOp.raw, PadOp.raw, BrOff.raw, lty_low, type0, flag_minor, low4,
      low5, low6, sense5, off_pad]
    refine top_notImm b ?_ _
    simp [wf_lget, LgetSrc.ok] at hw
    exact hw.2.1.2
  | pred p =>
    rw [raw_lget_pred, Option.some.injEq, Prod.mk.injEq] at h
    obtain ⟨rfl, -⟩ := h
    refine ⟨_, _, rfl, ?_⟩
    simp [maskRaw, rawOf, Alu.raw, Un.raw, CmpOp.raw, MemOp.raw, PadOp.raw, BrOff.raw, lty_low, type0, flag_minor, low4,
      low5, low6, sense5, off_pad]

theorem ljoin x0 x1 : Statement (.ljoin x0 x1) := by
  intro hw r l o h
  rw [raw_ljoin, Option.some.injEq, Prod.mk.injEq] at h
  obtain ⟨rfl, -⟩ := h
  refine ⟨_, _, rfl, ?_⟩
  simp [maskRaw, rawOf, Alu.raw, Un.raw, CmpOp.raw, MemOp.raw, PadOp.raw, BrOff.raw, lty_low, type0, flag_minor, low4,
    low5, low6, sense5, off_pad]
  simp [wf_ljoin] at hw
  have h1 := top_notImm x1.b (hw.2) (0#1 ++ bit1 x0)
  revert h1
  generalize x1.b.top = t
  cases x0 <;> revert t <;> decide

theorem lceil x0 x1 : Statement (.lceil x0 x1) := by
  intro hw r l o h
  rw [raw_lceil, Option.some.injEq, Prod.mk.injEq] at h
  obtain ⟨rfl, -⟩ := h
  refine ⟨_, _, rfl, ?_⟩
  simp [maskRaw, rawOf, Alu.raw, Un.raw, CmpOp.raw, MemOp.raw, PadOp.raw, BrOff.raw, lty_low, type0, flag_minor, low4,
    low5, low6, sense5, off_pad]
  simp [wf_lceil] at hw
  have h1 := top_notImm x0 hw.1.2 0#2
  revert h1
  generalize x0.top = t
  revert t; decide

theorem endo x0 : Statement (.endo x0) := by
  intro _ r l o h
  rw [raw_endo, Option.some.injEq, Prod.mk.injEq] at h
  obtain ⟨rfl, -⟩ := h
  refine ⟨_, _, rfl, ?_⟩
  simp [maskRaw, rawOf, Alu.raw, Un.raw, CmpOp.raw, MemOp.raw, PadOp.raw, BrOff.raw, lty_low, type0, flag_minor, low4,
    low5, low6, sense5, off_pad]

theorem decl x0 x1 : Statement (.decl x0 x1) := by
  intro hw r l o h
  rw [raw_decl, Option.some.injEq, Prod.mk.injEq] at h
  obtain ⟨rfl, -⟩ := h
  refine ⟨_, _, rfl, ?_⟩
  simp [maskRaw, rawOf, Alu.raw, Un.raw, CmpOp.raw, MemOp.raw, PadOp.raw, BrOff.raw, lty_low, type0, flag_minor, low4,
    low5, low6, sense5, off_pad]
  simp [wf_decl] at hw
  have h1 := top_notImm x1.b (hw.1.2) (0#1 ++ bit1 x0)
  revert h1
  generalize x1.b.top = t
  cases x0 <;> revert t <;> decide

theorem mma x0 x1 x2 x3 x4 x5 : Statement (.mma x0 x1 x2 x3 x4 x5) := by
  intro _ r l o h
  rw [raw_mma, Option.some.injEq, Prod.mk.injEq] at h
  obtain ⟨rfl, -⟩ := h
  refine ⟨_, _, rfl, ?_⟩
  simp [maskRaw, rawOf, Alu.raw, Un.raw, CmpOp.raw, MemOp.raw, PadOp.raw, BrOff.raw, lty_low, type0, flag_minor, low4,
    low5, low6, sense5, off_pad]
  cases x0 <;> decide

theorem mmasp x0 x1 x2 x3 x4 x5 : Statement (.mmasp x0 x1 x2 x3 x4 x5) := by
  intro _ r l o h
  rw [raw_mmasp, Option.some.injEq, Prod.mk.injEq] at h
  obtain ⟨rfl, -⟩ := h
  refine ⟨_, _, rfl, ?_⟩
  simp [maskRaw, rawOf, Alu.raw, Un.raw, CmpOp.raw, MemOp.raw, PadOp.raw, BrOff.raw, lty_low, type0, flag_minor, low4,
    low5, low6, sense5, off_pad]

theorem accld x0 x1 x2 x3 : Statement (.accld x0 x1 x2 x3) := by
  intro _ r l o h
  rw [raw_accld, Option.some.injEq, Prod.mk.injEq] at h
  obtain ⟨rfl, -⟩ := h
  refine ⟨_, _, rfl, ?_⟩
  simp [maskRaw, rawOf, Alu.raw, Un.raw, CmpOp.raw, MemOp.raw, PadOp.raw, BrOff.raw, lty_low, type0, flag_minor, low4,
    low5, low6, sense5, off_pad]

theorem accst x0 x1 x2 x3 : Statement (.accst x0 x1 x2 x3) := by
  intro _ r l o h
  rw [raw_accst, Option.some.injEq, Prod.mk.injEq] at h
  obtain ⟨rfl, -⟩ := h
  refine ⟨_, _, rfl, ?_⟩
  simp [maskRaw, rawOf, Alu.raw, Un.raw, CmpOp.raw, MemOp.raw, PadOp.raw, BrOff.raw, lty_low, type0, flag_minor, low4,
    low5, low6, sense5, off_pad]

theorem sign x0 x1 : Statement (.sign x0 x1) := by
  intro _ r l o h
  cases x1 with
  | imm q =>
    rw [raw_sign_imm, Option.some.injEq, Prod.mk.injEq] at h
    obtain ⟨rfl, -⟩ := h
    refine ⟨_, _, rfl, ?_⟩
    simp [maskRaw, rawOf, Alu.raw, Un.raw, CmpOp.raw, MemOp.raw, PadOp.raw, BrOff.raw, lty_low, type0, flag_minor, low4,
      low5, low6, sense5, off_pad]
    revert x0 q; decide
  | sreg b =>
    rw [raw_sign_sreg, Option.some.injEq, Prod.mk.injEq] at h
    obtain ⟨rfl, -⟩ := h
    refine ⟨_, _, rfl, ?_⟩
    simp [maskRaw, rawOf, Alu.raw, Un.raw, CmpOp.raw, MemOp.raw, PadOp.raw, BrOff.raw, lty_low, type0, flag_minor, low4,
      low5, low6, sense5, off_pad]

theorem jwait x0 : Statement (.jwait x0) := by
  intro _ r l o h
  rw [raw_jwait, Option.some.injEq, Prod.mk.injEq] at h
  obtain ⟨rfl, -⟩ := h
  refine ⟨_, _, rfl, ?_⟩
  simp [maskRaw, rawOf, Alu.raw, Un.raw, CmpOp.raw, MemOp.raw, PadOp.raw, BrOff.raw, lty_low, type0, flag_minor, low4,
    low5, low6, sense5, off_pad]

theorem tide x0 : Statement (.tide x0) := by
  intro _ r l o h
  rw [raw_tide, Option.some.injEq, Prod.mk.injEq] at h
  obtain ⟨rfl, -⟩ := h
  refine ⟨_, _, rfl, ?_⟩
  simp [maskRaw, rawOf, Alu.raw, Un.raw, CmpOp.raw, MemOp.raw, PadOp.raw, BrOff.raw, lty_low, type0, flag_minor, low4,
    low5, low6, sense5, off_pad]

theorem cpy x0 x1 x2 : Statement (.cpy x0 x1 x2) := by
  intro _ r l o h
  rw [raw_cpy, Option.some.injEq, Prod.mk.injEq] at h
  obtain ⟨rfl, -⟩ := h
  refine ⟨_, _, rfl, ?_⟩
  simp [maskRaw, rawOf, Alu.raw, Un.raw, CmpOp.raw, MemOp.raw, PadOp.raw, BrOff.raw, lty_low, type0, flag_minor, low4,
    low5, low6, sense5, off_pad]
  cases x1 <;> decide

theorem cpym x0 x1 x2 x3 : Statement (.cpym x0 x1 x2 x3) := by
  intro _ r l o h
  rw [raw_cpym, Option.some.injEq, Prod.mk.injEq] at h
  obtain ⟨rfl, -⟩ := h
  refine ⟨_, _, rfl, ?_⟩
  simp [maskRaw, rawOf, Alu.raw, Un.raw, CmpOp.raw, MemOp.raw, PadOp.raw, BrOff.raw, lty_low, type0, flag_minor, low4,
    low5, low6, sense5, off_pad]
  cases x2 <;> decide

theorem coll x0 x1 x2 x3 : Statement (.coll x0 x1 x2 x3) := by
  intro _ r l o h
  cases x0 with
  | some t =>
    rw [raw_coll_some, Option.some.injEq, Prod.mk.injEq] at h
    obtain ⟨rfl, -⟩ := h
    refine ⟨_, _, rfl, ?_⟩
    simp [maskRaw, rawOf, Alu.raw, Un.raw, CmpOp.raw, MemOp.raw, PadOp.raw, BrOff.raw, lty_low, type0, flag_minor, low4,
      low5, low6, sense5, off_pad]
    cases x2 <;> decide
  | none =>
    rw [raw_coll_none, Option.some.injEq, Prod.mk.injEq] at h
    obtain ⟨rfl, -⟩ := h
    refine ⟨_, _, rfl, ?_⟩
    simp [maskRaw, rawOf, Alu.raw, Un.raw, CmpOp.raw, MemOp.raw, PadOp.raw, BrOff.raw, lty_low, type0, flag_minor, low4,
      low5, low6, sense5, off_pad]
    cases x2 <;> decide

theorem xperm x0 x1 x2 : Statement (.xperm x0 x1 x2) := by
  intro _ r l o h
  rw [raw_xperm, Option.some.injEq, Prod.mk.injEq] at h
  obtain ⟨rfl, -⟩ := h
  refine ⟨_, _, rfl, ?_⟩
  simp [maskRaw, rawOf, Alu.raw, Un.raw, CmpOp.raw, MemOp.raw, PadOp.raw, BrOff.raw, lty_low, type0, flag_minor, low4,
    low5, low6, sense5, off_pad]
  cases x1 <;> decide

theorem recBegin x0 x1 x2 x3 : Statement (.recBegin x0 x1 x2 x3) := by
  intro _ r l o h
  rw [raw_recBegin, Option.some.injEq, Prod.mk.injEq] at h
  obtain ⟨rfl, -⟩ := h
  refine ⟨_, _, rfl, ?_⟩
  simp [maskRaw, rawOf, Alu.raw, Un.raw, CmpOp.raw, MemOp.raw, PadOp.raw, BrOff.raw, lty_low, type0, flag_minor, low4,
    low5, low6, sense5, off_pad]

theorem recEnd x0 : Statement (.recEnd x0) := by
  intro _ r l o h
  rw [raw_recEnd, Option.some.injEq, Prod.mk.injEq] at h
  obtain ⟨rfl, -⟩ := h
  refine ⟨_, _, rfl, ?_⟩
  simp [maskRaw, rawOf, Alu.raw, Un.raw, CmpOp.raw, MemOp.raw, PadOp.raw, BrOff.raw, lty_low, type0, flag_minor, low4,
    low5, low6, sense5, off_pad]

theorem recPlay x0 x1 x2 : Statement (.recPlay x0 x1 x2) := by
  intro _ r l o h
  rw [raw_recPlay, Option.some.injEq, Prod.mk.injEq] at h
  obtain ⟨rfl, -⟩ := h
  refine ⟨_, _, rfl, ?_⟩
  simp [maskRaw, rawOf, Alu.raw, Un.raw, CmpOp.raw, MemOp.raw, PadOp.raw, BrOff.raw, lty_low, type0, flag_minor, low4,
    low5, low6, sense5, off_pad]

theorem recDrop x0 : Statement (.recDrop x0) := by
  intro _ r l o h
  rw [raw_recDrop, Option.some.injEq, Prod.mk.injEq] at h
  obtain ⟨rfl, -⟩ := h
  refine ⟨_, _, rfl, ?_⟩
  simp [maskRaw, rawOf, Alu.raw, Un.raw, CmpOp.raw, MemOp.raw, PadOp.raw, BrOff.raw, lty_low, type0, flag_minor, low4,
    low5, low6, sense5, off_pad]

theorem recq x0 x1 : Statement (.recq x0 x1) := by
  intro _ r l o h
  rw [raw_recq, Option.some.injEq, Prod.mk.injEq] at h
  obtain ⟨rfl, -⟩ := h
  refine ⟨_, _, rfl, ?_⟩
  simp [maskRaw, rawOf, Alu.raw, Un.raw, CmpOp.raw, MemOp.raw, PadOp.raw, BrOff.raw, lty_low, type0, flag_minor, low4,
    low5, low6, sense5, off_pad]

theorem clauseIssue x0 : Statement (.clauseIssue x0) := by intro _ _ _ _ h; cases h
theorem longLatencyComplete x0 : Statement (.longLatencyComplete x0) := by intro _ _ _ _ h; cases h
theorem berthEmptyFile x0 x1 : Statement (.berthEmptyFile x0 x1) := by intro _ _ _ _ h; cases h
theorem berthAgeExpiry x0 x1 : Statement (.berthAgeExpiry x0 x1) := by intro _ _ _ _ h; cases h
theorem gangIdFree x0 : Statement (.gangIdFree x0) := by intro _ _ _ _ h; cases h
theorem blockedMemberTimeout x0 : Statement (.blockedMemberTimeout x0) := by intro _ _ _ _ h; cases h
theorem rejoinTimerExpiry x0 x1 : Statement (.rejoinTimerExpiry x0 x1) := by intro _ _ _ _ h; cases h
theorem yieldExpiry x0 x1 : Statement (.yieldExpiry x0 x1) := by intro _ _ _ _ h; cases h
theorem loadCapWindowEnd x0 : Statement (.loadCapWindowEnd x0) := by intro _ _ _ _ h; cases h
theorem labelCacheMissDone x0 : Statement (.labelCacheMissDone x0) := by intro _ _ _ _ h; cases h
theorem quayQueueRoom x0 : Statement (.quayQueueRoom x0) := by intro _ _ _ _ h; cases h
theorem dispatchDecision x0 : Statement (.dispatchDecision x0) := by intro _ _ _ _ h; cases h
theorem teamRetire x0 : Statement (.teamRetire x0) := by intro _ _ _ _ h; cases h
theorem roundIssue x0 x1 : Statement (.roundIssue x0 x1) := by intro _ _ _ _ h; cases h
theorem roundComplete x0 : Statement (.roundComplete x0) := by intro _ _ _ _ h; cases h
theorem sparsityEntryArrive x0 x1 x2 : Statement (.sparsityEntryArrive x0 x1 x2) := by intro _ _ _ _ h; cases h
theorem fifoEntryArrive x0 x1 : Statement (.fifoEntryArrive x0 x1) := by intro _ _ _ _ h; cases h
theorem fifoRoom x0 x1 : Statement (.fifoRoom x0 x1) := by intro _ _ _ _ h; cases h
theorem bankWritebackDone x0 x1 : Statement (.bankWritebackDone x0 x1) := by intro _ _ _ _ h; cases h
theorem awaitRelease x0 x1 : Statement (.awaitRelease x0 x1) := by intro _ _ _ _ h; cases h
theorem storeArriveHome x0 : Statement (.storeArriveHome x0) := by intro _ _ _ _ h; cases h
theorem wctReached x0 : Statement (.wctReached x0) := by intro _ _ _ _ h; cases h
theorem fillServe x0 x1 : Statement (.fillServe x0 x1) := by intro _ _ _ _ h; cases h
theorem leaseEnd x0 x1 : Statement (.leaseEnd x0 x1) := by intro _ _ _ _ h; cases h
theorem keySweepLine x0 : Statement (.keySweepLine x0) := by intro _ _ _ _ h; cases h
theorem pageResident x0 x1 : Statement (.pageResident x0 x1) := by intro _ _ _ _ h; cases h
theorem pageDeliver x0 x1 : Statement (.pageDeliver x0 x1) := by intro _ _ _ _ h; cases h
theorem trapEntry x0 x1 : Statement (.trapEntry x0 x1) := by intro _ _ _ _ h; cases h
theorem uncorrectableArrive x0 : Statement (.uncorrectableArrive x0) := by intro _ _ _ _ h; cases h
theorem preempt x0 : Statement (.preempt x0) := by intro _ _ _ _ h; cases h
theorem preemptSaveDone x0 : Statement (.preemptSaveDone x0) := by intro _ _ _ _ h; cases h
theorem resume x0 x1 : Statement (.resume x0 x1) := by intro _ _ _ _ h; cases h
theorem schedulerRoom x0 : Statement (.schedulerRoom x0) := by intro _ _ _ _ h; cases h
theorem jobSegmentDone x0 : Statement (.jobSegmentDone x0) := by intro _ _ _ _ h; cases h
theorem jobComplete x0 : Statement (.jobComplete x0) := by intro _ _ _ _ h; cases h
theorem collHeaderRound x0 x1 : Statement (.collHeaderRound x0 x1) := by intro _ _ _ _ h; cases h
theorem collContribution x0 : Statement (.collContribution x0) := by intro _ _ _ _ h; cases h
theorem mergeRecordAccept x0 : Statement (.mergeRecordAccept x0) := by intro _ _ _ _ h; cases h
theorem bulkWriteAccept x0 : Statement (.bulkWriteAccept x0) := by intro _ _ _ _ h; cases h
theorem recordAck x0 : Statement (.recordAck x0) := by intro _ _ _ _ h; cases h
theorem packageArrive x0 : Statement (.packageArrive x0) := by intro _ _ _ _ h; cases h
theorem arrivalMessage x0 : Statement (.arrivalMessage x0) := by intro _ _ _ _ h; cases h
theorem releaseMessage x0 : Statement (.releaseMessage x0) := by intro _ _ _ _ h; cases h
theorem applyDone x0 : Statement (.applyDone x0) := by intro _ _ _ _ h; cases h
theorem tideClose x0 : Statement (.tideClose x0) := by intro _ _ _ _ h; cases h
theorem deliverySend x0 : Statement (.deliverySend x0) := by intro _ _ _ _ h; cases h
theorem deliveryEnter x0 : Statement (.deliveryEnter x0) := by intro _ _ _ _ h; cases h
theorem departureWindowClear : Statement (.departureWindowClear) := by intro _ _ _ _ h; cases h
theorem packetReceive x0 x1 : Statement (.packetReceive x0 x1) := by intro _ _ _ _ h; cases h
theorem laneErasure x0 : Statement (.laneErasure x0) := by intro _ _ _ _ h; cases h
theorem linkRetire x0 : Statement (.linkRetire x0) := by intro _ _ _ _ h; cases h
theorem slotStart x0 : Statement (.slotStart x0) := by intro _ _ _ _ h; cases h
theorem slotTableWrite x0 x1 x2 x3 x4 x5 : Statement (.slotTableWrite x0 x1 x2 x3 x4 x5) := by intro _ _ _ _ h; cases h
theorem circuitChange x0 x1 : Statement (.circuitChange x0 x1) := by intro _ _ _ _ h; cases h
theorem drainMarkerAck : Statement (.drainMarkerAck) := by intro _ _ _ _ h; cases h
theorem relock : Statement (.relock) := by intro _ _ _ _ h; cases h
theorem tugFirmwareDownload x0 x1 x2 x3 : Statement (.tugFirmwareDownload x0 x1 x2 x3) := by intro _ _ _ _ h; cases h
theorem tugFault x0 : Statement (.tugFault x0) := by intro _ _ _ _ h; cases h
theorem groupTableChange x0 x1 x2 x3 x4 : Statement (.groupTableChange x0 x1 x2 x3 x4) := by intro _ _ _ _ h; cases h
theorem drainRound x0 : Statement (.drainRound x0) := by intro _ _ _ _ h; cases h
theorem launchCommand x0 x1 x2 x3 x4 : Statement (.launchCommand x0 x1 x2 x3 x4) := by intro _ _ _ _ h; cases h
theorem keyRotation x0 x1 : Statement (.keyRotation x0 x1) := by intro _ _ _ _ h; cases h
theorem spaceIdBinding x0 x1 x2 x3 : Statement (.spaceIdBinding x0 x1 x2 x3) := by intro _ _ _ _ h; cases h
theorem shootdown x0 x1 x2 : Statement (.shootdown x0 x1 x2) := by intro _ _ _ _ h; cases h
theorem shootdownDrainDone x0 : Statement (.shootdownDrainDone x0) := by intro _ _ _ _ h; cases h
theorem worldReset x0 : Statement (.worldReset x0) := by intro _ _ _ _ h; cases h
theorem scrub x0 x1 : Statement (.scrub x0 x1) := by intro _ _ _ _ h; cases h
theorem scrubReceipt x0 : Statement (.scrubReceipt x0) := by intro _ _ _ _ h; cases h
theorem worldCreate x0 : Statement (.worldCreate x0) := by intro _ _ _ _ h; cases h
theorem domainForm x0 x1 x2 : Statement (.domainForm x0 x1 x2) := by intro _ _ _ _ h; cases h
theorem attestationReport x0 x1 : Statement (.attestationReport x0 x1) := by intro _ _ _ _ h; cases h
theorem crashDump x0 : Statement (.crashDump x0) := by intro _ _ _ _ h; cases h
theorem debugRequest x0 x1 : Statement (.debugRequest x0 x1) := by intro _ _ _ _ h; cases h
theorem packageReset : Statement (.packageReset) := by intro _ _ _ _ h; cases h
theorem dieReset x0 : Statement (.dieReset x0) := by intro _ _ _ _ h; cases h
theorem snapctlWrite x0 : Statement (.snapctlWrite x0) := by intro _ _ _ _ h; cases h
theorem snapPin : Statement (.snapPin) := by intro _ _ _ _ h; cases h
theorem qosShareChange x0 x1 x2 x3 : Statement (.qosShareChange x0 x1 x2 x3) := by intro _ _ _ _ h; cases h
theorem bankTransfer x0 x1 x2 x3 : Statement (.bankTransfer x0 x1 x2 x3) := by intro _ _ _ _ h; cases h
theorem sysTableWrite x0 : Statement (.sysTableWrite x0) := by intro _ _ _ _ h; cases h
theorem memoryFault x0 x1 : Statement (.memoryFault x0 x1) := by intro _ _ _ _ h; cases h
theorem instrSnapshotLatch : Statement (.instrSnapshotLatch) := by intro _ _ _ _ h; cases h

end Row

end Sys2Proof.Laws
end

