-- ==== Sys2Proof/Laws/State.lean ====
section
/-! SUPPORT. One lemma per field per update of a package, each true by rfl: what the update leaves and what it writes. -/

namespace Sys2Proof.Machine

/-! ### setTeam -/

@[simp] theorem Package.setTeam_phys (p : Package) (t : Nat) (f : Team → Team) : (p.setTeam t f).phys = p.phys := rfl
@[simp] theorem Package.setTeam_now (p : Package) (t : Nat) (f : Team → Team) : (p.setTeam t f).now = p.now := rfl
@[simp] theorem Package.setTeam_agenda (p : Package) (t : Nat) (f : Team → Team) : (p.setTeam t f).agenda = p.agenda := rfl
@[simp] theorem Package.setTeam_inbox (p : Package) (t : Nat) (f : Team → Team) : (p.setTeam t f).inbox = p.inbox := rfl
@[simp] theorem Package.setTeam_out (p : Package) (t : Nat) (f : Team → Team) : (p.setTeam t f).out = p.out := rfl
@[simp] theorem Package.setTeam_sent (p : Package) (t : Nat) (f : Team → Team) : (p.setTeam t f).sent = p.sent := rfl
@[simp] theorem Package.setTeam_draws (p : Package) (t : Nat) (f : Team → Team) : (p.setTeam t f).draws = p.draws := rfl
@[simp] theorem Package.setTeam_picks (p : Package) (t : Nat) (f : Team → Team) : (p.setTeam t f).picks = p.picks := rfl
@[simp] theorem Package.setTeam_nextId (p : Package) (t : Nat) (f : Team → Team) : (p.setTeam t f).nextId = p.nextId := rfl
@[simp] theorem Package.setTeam_issue (p : Package) (t : Nat) (f : Team → Team) : (p.setTeam t f).issue = p.issue := rfl
@[simp] theorem Package.setTeam_issued (p : Package) (t : Nat) (f : Team → Team) : (p.setTeam t f).issued = p.issued := rfl
@[simp] theorem Package.setTeam_pipes (p : Package) (t : Nat) (f : Team → Team) : (p.setTeam t f).pipes = p.pipes := rfl
@[simp] theorem Package.setTeam_freed (p : Package) (t : Nat) (f : Team → Team) : (p.setTeam t f).freed = p.freed := rfl
@[simp] theorem Package.setTeam_teams (p : Package) (t : Nat) (f : Team → Team) : (p.setTeam t f).teams = mapIf (fun tm => tm.id == t) f p.teams := rfl
@[simp] theorem Package.setTeam_gangs (p : Package) (t : Nat) (f : Team → Team) : (p.setTeam t f).gangs = p.gangs := rfl
@[simp] theorem Package.setTeam_parts (p : Package) (t : Nat) (f : Team → Team) : (p.setTeam t f).parts = p.parts := rfl
@[simp] theorem Package.setTeam_cores (p : Package) (t : Nat) (f : Team → Team) : (p.setTeam t f).cores = p.cores := rfl
@[simp] theorem Package.setTeam_rounds (p : Package) (t : Nat) (f : Team → Team) : (p.setTeam t f).rounds = p.rounds := rfl
@[simp] theorem Package.setTeam_sparse (p : Package) (t : Nat) (f : Team → Team) : (p.setTeam t f).sparse = p.sparse := rfl
@[simp] theorem Package.setTeam_grids (p : Package) (t : Nat) (f : Team → Team) : (p.setTeam t f).grids = p.grids := rfl
@[simp] theorem Package.setTeam_quays (p : Package) (t : Nat) (f : Team → Team) : (p.setTeam t f).quays = p.quays := rfl
@[simp] theorem Package.setTeam_journal (p : Package) (t : Nat) (f : Team → Team) : (p.setTeam t f).journal = p.journal := rfl
@[simp] theorem Package.setTeam_jobs (p : Package) (t : Nat) (f : Team → Team) : (p.setTeam t f).jobs = p.jobs := rfl
@[simp] theorem Package.setTeam_accs (p : Package) (t : Nat) (f : Team → Team) : (p.setTeam t f).accs = p.accs := rfl
@[simp] theorem Package.setTeam_writes (p : Package) (t : Nat) (f : Team → Team) : (p.setTeam t f).writes = p.writes := rfl
@[simp] theorem Package.setTeam_lines (p : Package) (t : Nat) (f : Team → Team) : (p.setTeam t f).lines = p.lines := rfl
@[simp] theorem Package.setTeam_horizons (p : Package) (t : Nat) (f : Team → Team) : (p.setTeam t f).horizons = p.horizons := rfl
@[simp] theorem Package.setTeam_mem (p : Package) (t : Nat) (f : Team → Team) : (p.setTeam t f).mem = p.mem := rfl
@[simp] theorem Package.setTeam_glabels (p : Package) (t : Nat) (f : Team → Team) : (p.setTeam t f).glabels = p.glabels := rfl
@[simp] theorem Package.setTeam_epochs (p : Package) (t : Nat) (f : Team → Team) : (p.setTeam t f).epochs = p.epochs := rfl
@[simp] theorem Package.setTeam_bad (p : Package) (t : Nat) (f : Team → Team) : (p.setTeam t f).bad = p.bad := rfl
@[simp] theorem Package.setTeam_owners (p : Package) (t : Nat) (f : Team → Team) : (p.setTeam t f).owners = p.owners := rfl
@[simp] theorem Package.setTeam_code (p : Package) (t : Nat) (f : Team → Team) : (p.setTeam t f).code = p.code := rfl
@[simp] theorem Package.setTeam_banks (p : Package) (t : Nat) (f : Team → Team) : (p.setTeam t f).banks = p.banks := rfl
@[simp] theorem Package.setTeam_layouts (p : Package) (t : Nat) (f : Team → Team) : (p.setTeam t f).layouts = p.layouts := rfl
@[simp] theorem Package.setTeam_labels (p : Package) (t : Nat) (f : Team → Team) : (p.setTeam t f).labels = p.labels := rfl
@[simp] theorem Package.setTeam_labelBase (p : Package) (t : Nat) (f : Team → Team) : (p.setTeam t f).labelBase = p.labelBase := rfl
@[simp] theorem Package.setTeam_endorse (p : Package) (t : Nat) (f : Team → Team) : (p.setTeam t f).endorse = p.endorse := rfl
@[simp] theorem Package.setTeam_worlds (p : Package) (t : Nat) (f : Team → Team) : (p.setTeam t f).worlds = p.worlds := rfl
@[simp] theorem Package.setTeam_spaces (p : Package) (t : Nat) (f : Team → Team) : (p.setTeam t f).spaces = p.spaces := rfl
@[simp] theorem Package.setTeam_shoots (p : Package) (t : Nat) (f : Team → Team) : (p.setTeam t f).shoots = p.shoots := rfl
@[simp] theorem Package.setTeam_walks (p : Package) (t : Nat) (f : Team → Team) : (p.setTeam t f).walks = p.walks := rfl
@[simp] theorem Package.setTeam_pods (p : Package) (t : Nat) (f : Team → Team) : (p.setTeam t f).pods = p.pods := rfl
@[simp] theorem Package.setTeam_mans (p : Package) (t : Nat) (f : Team → Team) : (p.setTeam t f).mans = p.mans := rfl
@[simp] theorem Package.setTeam_dels (p : Package) (t : Nat) (f : Team → Team) : (p.setTeam t f).dels = p.dels := rfl
@[simp] theorem Package.setTeam_carveOut (p : Package) (t : Nat) (f : Team → Team) : (p.setTeam t f).carveOut = p.carveOut := rfl
@[simp] theorem Package.setTeam_groups (p : Package) (t : Nat) (f : Team → Team) : (p.setTeam t f).groups = p.groups := rfl
@[simp] theorem Package.setTeam_ports (p : Package) (t : Nat) (f : Team → Team) : (p.setTeam t f).ports = p.ports := rfl
@[simp] theorem Package.setTeam_circuit (p : Package) (t : Nat) (f : Team → Team) : (p.setTeam t f).circuit = p.circuit := rfl
@[simp] theorem Package.setTeam_migrate (p : Package) (t : Nat) (f : Team → Team) : (p.setTeam t f).migrate = p.migrate := rfl
@[simp] theorem Package.setTeam_moves (p : Package) (t : Nat) (f : Team → Team) : (p.setTeam t f).moves = p.moves := rfl
@[simp] theorem Package.setTeam_homeAt (p : Package) (t : Nat) (f : Team → Team) : (p.setTeam t f).homeAt = p.homeAt := rfl
@[simp] theorem Package.setTeam_sys (p : Package) (t : Nat) (f : Team → Team) : (p.setTeam t f).sys = p.sys := rfl

/-! ### setThread -/

@[simp] theorem Package.setThread_phys (p : Package) (w : Who) (f : Thread → Thread) : (p.setThread w f).phys = p.phys := rfl
@[simp] theorem Package.setThread_now (p : Package) (w : Who) (f : Thread → Thread) : (p.setThread w f).now = p.now := rfl
@[simp] theorem Package.setThread_agenda (p : Package) (w : Who) (f : Thread → Thread) : (p.setThread w f).agenda = p.agenda := rfl
@[simp] theorem Package.setThread_inbox (p : Package) (w : Who) (f : Thread → Thread) : (p.setThread w f).inbox = p.inbox := rfl
@[simp] theorem Package.setThread_out (p : Package) (w : Who) (f : Thread → Thread) : (p.setThread w f).out = p.out := rfl
@[simp] theorem Package.setThread_sent (p : Package) (w : Who) (f : Thread → Thread) : (p.setThread w f).sent = p.sent := rfl
@[simp] theorem Package.setThread_draws (p : Package) (w : Who) (f : Thread → Thread) : (p.setThread w f).draws = p.draws := rfl
@[simp] theorem Package.setThread_picks (p : Package) (w : Who) (f : Thread → Thread) : (p.setThread w f).picks = p.picks := rfl
@[simp] theorem Package.setThread_nextId (p : Package) (w : Who) (f : Thread → Thread) : (p.setThread w f).nextId = p.nextId := rfl
@[simp] theorem Package.setThread_issue (p : Package) (w : Who) (f : Thread → Thread) : (p.setThread w f).issue = p.issue := rfl
@[simp] theorem Package.setThread_issued (p : Package) (w : Who) (f : Thread → Thread) : (p.setThread w f).issued = p.issued := rfl
@[simp] theorem Package.setThread_pipes (p : Package) (w : Who) (f : Thread → Thread) : (p.setThread w f).pipes = p.pipes := rfl
@[simp] theorem Package.setThread_freed (p : Package) (w : Who) (f : Thread → Thread) : (p.setThread w f).freed = p.freed := rfl
@[simp] theorem Package.setThread_teams (p : Package) (w : Who) (f : Thread → Thread) : (p.setThread w f).teams = mapIf (fun tm => tm.id == w.team) (fun tm => tm.setThread w.lid f) p.teams := rfl
@[simp] theorem Package.setThread_gangs (p : Package) (w : Who) (f : Thread → Thread) : (p.setThread w f).gangs = p.gangs := rfl
@[simp] theorem Package.setThread_parts (p : Package) (w : Who) (f : Thread → Thread) : (p.setThread w f).parts = p.parts := rfl
@[simp] theorem Package.setThread_cores (p : Package) (w : Who) (f : Thread → Thread) : (p.setThread w f).cores = p.cores := rfl
@[simp] theorem Package.setThread_rounds (p : Package) (w : Who) (f : Thread → Thread) : (p.setThread w f).rounds = p.rounds := rfl
@[simp] theorem Package.setThread_sparse (p : Package) (w : Who) (f : Thread → Thread) : (p.setThread w f).sparse = p.sparse := rfl
@[simp] theorem Package.setThread_grids (p : Package) (w : Who) (f : Thread → Thread) : (p.setThread w f).grids = p.grids := rfl
@[simp] theorem Package.setThread_quays (p : Package) (w : Who) (f : Thread → Thread) : (p.setThread w f).quays = p.quays := rfl
@[simp] theorem Package.setThread_journal (p : Package) (w : Who) (f : Thread → Thread) : (p.setThread w f).journal = p.journal := rfl
@[simp] theorem Package.setThread_jobs (p : Package) (w : Who) (f : Thread → Thread) : (p.setThread w f).jobs = p.jobs := rfl
@[simp] theorem Package.setThread_accs (p : Package) (w : Who) (f : Thread → Thread) : (p.setThread w f).accs = p.accs := rfl
@[simp] theorem Package.setThread_writes (p : Package) (w : Who) (f : Thread → Thread) : (p.setThread w f).writes = p.writes := rfl
@[simp] theorem Package.setThread_lines (p : Package) (w : Who) (f : Thread → Thread) : (p.setThread w f).lines = p.lines := rfl
@[simp] theorem Package.setThread_horizons (p : Package) (w : Who) (f : Thread → Thread) : (p.setThread w f).horizons = p.horizons := rfl
@[simp] theorem Package.setThread_mem (p : Package) (w : Who) (f : Thread → Thread) : (p.setThread w f).mem = p.mem := rfl
@[simp] theorem Package.setThread_glabels (p : Package) (w : Who) (f : Thread → Thread) : (p.setThread w f).glabels = p.glabels := rfl
@[simp] theorem Package.setThread_epochs (p : Package) (w : Who) (f : Thread → Thread) : (p.setThread w f).epochs = p.epochs := rfl
@[simp] theorem Package.setThread_bad (p : Package) (w : Who) (f : Thread → Thread) : (p.setThread w f).bad = p.bad := rfl
@[simp] theorem Package.setThread_owners (p : Package) (w : Who) (f : Thread → Thread) : (p.setThread w f).owners = p.owners := rfl
@[simp] theorem Package.setThread_code (p : Package) (w : Who) (f : Thread → Thread) : (p.setThread w f).code = p.code := rfl
@[simp] theorem Package.setThread_banks (p : Package) (w : Who) (f : Thread → Thread) : (p.setThread w f).banks = p.banks := rfl
@[simp] theorem Package.setThread_layouts (p : Package) (w : Who) (f : Thread → Thread) : (p.setThread w f).layouts = p.layouts := rfl
@[simp] theorem Package.setThread_labels (p : Package) (w : Who) (f : Thread → Thread) : (p.setThread w f).labels = p.labels := rfl
@[simp] theorem Package.setThread_labelBase (p : Package) (w : Who) (f : Thread → Thread) : (p.setThread w f).labelBase = p.labelBase := rfl
@[simp] theorem Package.setThread_endorse (p : Package) (w : Who) (f : Thread → Thread) : (p.setThread w f).endorse = p.endorse := rfl
@[simp] theorem Package.setThread_worlds (p : Package) (w : Who) (f : Thread → Thread) : (p.setThread w f).worlds = p.worlds := rfl
@[simp] theorem Package.setThread_spaces (p : Package) (w : Who) (f : Thread → Thread) : (p.setThread w f).spaces = p.spaces := rfl
@[simp] theorem Package.setThread_shoots (p : Package) (w : Who) (f : Thread → Thread) : (p.setThread w f).shoots = p.shoots := rfl
@[simp] theorem Package.setThread_walks (p : Package) (w : Who) (f : Thread → Thread) : (p.setThread w f).walks = p.walks := rfl
@[simp] theorem Package.setThread_pods (p : Package) (w : Who) (f : Thread → Thread) : (p.setThread w f).pods = p.pods := rfl
@[simp] theorem Package.setThread_mans (p : Package) (w : Who) (f : Thread → Thread) : (p.setThread w f).mans = p.mans := rfl
@[simp] theorem Package.setThread_dels (p : Package) (w : Who) (f : Thread → Thread) : (p.setThread w f).dels = p.dels := rfl
@[simp] theorem Package.setThread_carveOut (p : Package) (w : Who) (f : Thread → Thread) : (p.setThread w f).carveOut = p.carveOut := rfl
@[simp] theorem Package.setThread_groups (p : Package) (w : Who) (f : Thread → Thread) : (p.setThread w f).groups = p.groups := rfl
@[simp] theorem Package.setThread_ports (p : Package) (w : Who) (f : Thread → Thread) : (p.setThread w f).ports = p.ports := rfl
@[simp] theorem Package.setThread_circuit (p : Package) (w : Who) (f : Thread → Thread) : (p.setThread w f).circuit = p.circuit := rfl
@[simp] theorem Package.setThread_migrate (p : Package) (w : Who) (f : Thread → Thread) : (p.setThread w f).migrate = p.migrate := rfl
@[simp] theorem Package.setThread_moves (p : Package) (w : Who) (f : Thread → Thread) : (p.setThread w f).moves = p.moves := rfl
@[simp] theorem Package.setThread_homeAt (p : Package) (w : Who) (f : Thread → Thread) : (p.setThread w f).homeAt = p.homeAt := rfl
@[simp] theorem Package.setThread_sys (p : Package) (w : Who) (f : Thread → Thread) : (p.setThread w f).sys = p.sys := rfl

/-! ### setWorld -/

@[simp] theorem Package.setWorld_phys (p : Package) (k : Nat) (f : World → World) : (p.setWorld k f).phys = p.phys := rfl
@[simp] theorem Package.setWorld_now (p : Package) (k : Nat) (f : World → World) : (p.setWorld k f).now = p.now := rfl
@[simp] theorem Package.setWorld_agenda (p : Package) (k : Nat) (f : World → World) : (p.setWorld k f).agenda = p.agenda := rfl
@[simp] theorem Package.setWorld_inbox (p : Package) (k : Nat) (f : World → World) : (p.setWorld k f).inbox = p.inbox := rfl
@[simp] theorem Package.setWorld_out (p : Package) (k : Nat) (f : World → World) : (p.setWorld k f).out = p.out := rfl
@[simp] theorem Package.setWorld_sent (p : Package) (k : Nat) (f : World → World) : (p.setWorld k f).sent = p.sent := rfl
@[simp] theorem Package.setWorld_draws (p : Package) (k : Nat) (f : World → World) : (p.setWorld k f).draws = p.draws := rfl
@[simp] theorem Package.setWorld_picks (p : Package) (k : Nat) (f : World → World) : (p.setWorld k f).picks = p.picks := rfl
@[simp] theorem Package.setWorld_nextId (p : Package) (k : Nat) (f : World → World) : (p.setWorld k f).nextId = p.nextId := rfl
@[simp] theorem Package.setWorld_issue (p : Package) (k : Nat) (f : World → World) : (p.setWorld k f).issue = p.issue := rfl
@[simp] theorem Package.setWorld_issued (p : Package) (k : Nat) (f : World → World) : (p.setWorld k f).issued = p.issued := rfl
@[simp] theorem Package.setWorld_pipes (p : Package) (k : Nat) (f : World → World) : (p.setWorld k f).pipes = p.pipes := rfl
@[simp] theorem Package.setWorld_freed (p : Package) (k : Nat) (f : World → World) : (p.setWorld k f).freed = p.freed := rfl
@[simp] theorem Package.setWorld_teams (p : Package) (k : Nat) (f : World → World) : (p.setWorld k f).teams = p.teams := rfl
@[simp] theorem Package.setWorld_gangs (p : Package) (k : Nat) (f : World → World) : (p.setWorld k f).gangs = p.gangs := rfl
@[simp] theorem Package.setWorld_parts (p : Package) (k : Nat) (f : World → World) : (p.setWorld k f).parts = p.parts := rfl
@[simp] theorem Package.setWorld_cores (p : Package) (k : Nat) (f : World → World) : (p.setWorld k f).cores = p.cores := rfl
@[simp] theorem Package.setWorld_rounds (p : Package) (k : Nat) (f : World → World) : (p.setWorld k f).rounds = p.rounds := rfl
@[simp] theorem Package.setWorld_sparse (p : Package) (k : Nat) (f : World → World) : (p.setWorld k f).sparse = p.sparse := rfl
@[simp] theorem Package.setWorld_grids (p : Package) (k : Nat) (f : World → World) : (p.setWorld k f).grids = p.grids := rfl
@[simp] theorem Package.setWorld_quays (p : Package) (k : Nat) (f : World → World) : (p.setWorld k f).quays = p.quays := rfl
@[simp] theorem Package.setWorld_journal (p : Package) (k : Nat) (f : World → World) : (p.setWorld k f).journal = p.journal := rfl
@[simp] theorem Package.setWorld_jobs (p : Package) (k : Nat) (f : World → World) : (p.setWorld k f).jobs = p.jobs := rfl
@[simp] theorem Package.setWorld_accs (p : Package) (k : Nat) (f : World → World) : (p.setWorld k f).accs = p.accs := rfl
@[simp] theorem Package.setWorld_writes (p : Package) (k : Nat) (f : World → World) : (p.setWorld k f).writes = p.writes := rfl
@[simp] theorem Package.setWorld_lines (p : Package) (k : Nat) (f : World → World) : (p.setWorld k f).lines = p.lines := rfl
@[simp] theorem Package.setWorld_horizons (p : Package) (k : Nat) (f : World → World) : (p.setWorld k f).horizons = p.horizons := rfl
@[simp] theorem Package.setWorld_mem (p : Package) (k : Nat) (f : World → World) : (p.setWorld k f).mem = p.mem := rfl
@[simp] theorem Package.setWorld_glabels (p : Package) (k : Nat) (f : World → World) : (p.setWorld k f).glabels = p.glabels := rfl
@[simp] theorem Package.setWorld_epochs (p : Package) (k : Nat) (f : World → World) : (p.setWorld k f).epochs = p.epochs := rfl
@[simp] theorem Package.setWorld_bad (p : Package) (k : Nat) (f : World → World) : (p.setWorld k f).bad = p.bad := rfl
@[simp] theorem Package.setWorld_owners (p : Package) (k : Nat) (f : World → World) : (p.setWorld k f).owners = p.owners := rfl
@[simp] theorem Package.setWorld_code (p : Package) (k : Nat) (f : World → World) : (p.setWorld k f).code = p.code := rfl
@[simp] theorem Package.setWorld_banks (p : Package) (k : Nat) (f : World → World) : (p.setWorld k f).banks = p.banks := rfl
@[simp] theorem Package.setWorld_layouts (p : Package) (k : Nat) (f : World → World) : (p.setWorld k f).layouts = p.layouts := rfl
@[simp] theorem Package.setWorld_labels (p : Package) (k : Nat) (f : World → World) : (p.setWorld k f).labels = p.labels := rfl
@[simp] theorem Package.setWorld_labelBase (p : Package) (k : Nat) (f : World → World) : (p.setWorld k f).labelBase = p.labelBase := rfl
@[simp] theorem Package.setWorld_endorse (p : Package) (k : Nat) (f : World → World) : (p.setWorld k f).endorse = p.endorse := rfl
@[simp] theorem Package.setWorld_worlds (p : Package) (k : Nat) (f : World → World) : (p.setWorld k f).worlds = mapIf (fun x => x.id == k) f p.worlds := rfl
@[simp] theorem Package.setWorld_spaces (p : Package) (k : Nat) (f : World → World) : (p.setWorld k f).spaces = p.spaces := rfl
@[simp] theorem Package.setWorld_shoots (p : Package) (k : Nat) (f : World → World) : (p.setWorld k f).shoots = p.shoots := rfl
@[simp] theorem Package.setWorld_walks (p : Package) (k : Nat) (f : World → World) : (p.setWorld k f).walks = p.walks := rfl
@[simp] theorem Package.setWorld_pods (p : Package) (k : Nat) (f : World → World) : (p.setWorld k f).pods = p.pods := rfl
@[simp] theorem Package.setWorld_mans (p : Package) (k : Nat) (f : World → World) : (p.setWorld k f).mans = p.mans := rfl
@[simp] theorem Package.setWorld_dels (p : Package) (k : Nat) (f : World → World) : (p.setWorld k f).dels = p.dels := rfl
@[simp] theorem Package.setWorld_carveOut (p : Package) (k : Nat) (f : World → World) : (p.setWorld k f).carveOut = p.carveOut := rfl
@[simp] theorem Package.setWorld_groups (p : Package) (k : Nat) (f : World → World) : (p.setWorld k f).groups = p.groups := rfl
@[simp] theorem Package.setWorld_ports (p : Package) (k : Nat) (f : World → World) : (p.setWorld k f).ports = p.ports := rfl
@[simp] theorem Package.setWorld_circuit (p : Package) (k : Nat) (f : World → World) : (p.setWorld k f).circuit = p.circuit := rfl
@[simp] theorem Package.setWorld_migrate (p : Package) (k : Nat) (f : World → World) : (p.setWorld k f).migrate = p.migrate := rfl
@[simp] theorem Package.setWorld_moves (p : Package) (k : Nat) (f : World → World) : (p.setWorld k f).moves = p.moves := rfl
@[simp] theorem Package.setWorld_homeAt (p : Package) (k : Nat) (f : World → World) : (p.setWorld k f).homeAt = p.homeAt := rfl
@[simp] theorem Package.setWorld_sys (p : Package) (k : Nat) (f : World → World) : (p.setWorld k f).sys = p.sys := rfl

/-! ### setTide -/

@[simp] theorem Package.setTide_phys (p : Package) (k : Nat) (f : Tide → Tide) : (p.setTide k f).phys = p.phys := rfl
@[simp] theorem Package.setTide_now (p : Package) (k : Nat) (f : Tide → Tide) : (p.setTide k f).now = p.now := rfl
@[simp] theorem Package.setTide_agenda (p : Package) (k : Nat) (f : Tide → Tide) : (p.setTide k f).agenda = p.agenda := rfl
@[simp] theorem Package.setTide_inbox (p : Package) (k : Nat) (f : Tide → Tide) : (p.setTide k f).inbox = p.inbox := rfl
@[simp] theorem Package.setTide_out (p : Package) (k : Nat) (f : Tide → Tide) : (p.setTide k f).out = p.out := rfl
@[simp] theorem Package.setTide_sent (p : Package) (k : Nat) (f : Tide → Tide) : (p.setTide k f).sent = p.sent := rfl
@[simp] theorem Package.setTide_draws (p : Package) (k : Nat) (f : Tide → Tide) : (p.setTide k f).draws = p.draws := rfl
@[simp] theorem Package.setTide_picks (p : Package) (k : Nat) (f : Tide → Tide) : (p.setTide k f).picks = p.picks := rfl
@[simp] theorem Package.setTide_nextId (p : Package) (k : Nat) (f : Tide → Tide) : (p.setTide k f).nextId = p.nextId := rfl
@[simp] theorem Package.setTide_issue (p : Package) (k : Nat) (f : Tide → Tide) : (p.setTide k f).issue = p.issue := rfl
@[simp] theorem Package.setTide_issued (p : Package) (k : Nat) (f : Tide → Tide) : (p.setTide k f).issued = p.issued := rfl
@[simp] theorem Package.setTide_pipes (p : Package) (k : Nat) (f : Tide → Tide) : (p.setTide k f).pipes = p.pipes := rfl
@[simp] theorem Package.setTide_freed (p : Package) (k : Nat) (f : Tide → Tide) : (p.setTide k f).freed = p.freed := rfl
@[simp] theorem Package.setTide_teams (p : Package) (k : Nat) (f : Tide → Tide) : (p.setTide k f).teams = p.teams := rfl
@[simp] theorem Package.setTide_gangs (p : Package) (k : Nat) (f : Tide → Tide) : (p.setTide k f).gangs = p.gangs := rfl
@[simp] theorem Package.setTide_parts (p : Package) (k : Nat) (f : Tide → Tide) : (p.setTide k f).parts = p.parts := rfl
@[simp] theorem Package.setTide_cores (p : Package) (k : Nat) (f : Tide → Tide) : (p.setTide k f).cores = p.cores := rfl
@[simp] theorem Package.setTide_rounds (p : Package) (k : Nat) (f : Tide → Tide) : (p.setTide k f).rounds = p.rounds := rfl
@[simp] theorem Package.setTide_sparse (p : Package) (k : Nat) (f : Tide → Tide) : (p.setTide k f).sparse = p.sparse := rfl
@[simp] theorem Package.setTide_grids (p : Package) (k : Nat) (f : Tide → Tide) : (p.setTide k f).grids = p.grids := rfl
@[simp] theorem Package.setTide_quays (p : Package) (k : Nat) (f : Tide → Tide) : (p.setTide k f).quays = p.quays := rfl
@[simp] theorem Package.setTide_journal (p : Package) (k : Nat) (f : Tide → Tide) : (p.setTide k f).journal = p.journal := rfl
@[simp] theorem Package.setTide_jobs (p : Package) (k : Nat) (f : Tide → Tide) : (p.setTide k f).jobs = p.jobs := rfl
@[simp] theorem Package.setTide_accs (p : Package) (k : Nat) (f : Tide → Tide) : (p.setTide k f).accs = p.accs := rfl
@[simp] theorem Package.setTide_writes (p : Package) (k : Nat) (f : Tide → Tide) : (p.setTide k f).writes = p.writes := rfl
@[simp] theorem Package.setTide_lines (p : Package) (k : Nat) (f : Tide → Tide) : (p.setTide k f).lines = p.lines := rfl
@[simp] theorem Package.setTide_horizons (p : Package) (k : Nat) (f : Tide → Tide) : (p.setTide k f).horizons = p.horizons := rfl
@[simp] theorem Package.setTide_mem (p : Package) (k : Nat) (f : Tide → Tide) : (p.setTide k f).mem = p.mem := rfl
@[simp] theorem Package.setTide_glabels (p : Package) (k : Nat) (f : Tide → Tide) : (p.setTide k f).glabels = p.glabels := rfl
@[simp] theorem Package.setTide_epochs (p : Package) (k : Nat) (f : Tide → Tide) : (p.setTide k f).epochs = p.epochs := rfl
@[simp] theorem Package.setTide_bad (p : Package) (k : Nat) (f : Tide → Tide) : (p.setTide k f).bad = p.bad := rfl
@[simp] theorem Package.setTide_owners (p : Package) (k : Nat) (f : Tide → Tide) : (p.setTide k f).owners = p.owners := rfl
@[simp] theorem Package.setTide_code (p : Package) (k : Nat) (f : Tide → Tide) : (p.setTide k f).code = p.code := rfl
@[simp] theorem Package.setTide_banks (p : Package) (k : Nat) (f : Tide → Tide) : (p.setTide k f).banks = p.banks := rfl
@[simp] theorem Package.setTide_layouts (p : Package) (k : Nat) (f : Tide → Tide) : (p.setTide k f).layouts = p.layouts := rfl
@[simp] theorem Package.setTide_labels (p : Package) (k : Nat) (f : Tide → Tide) : (p.setTide k f).labels = p.labels := rfl
@[simp] theorem Package.setTide_labelBase (p : Package) (k : Nat) (f : Tide → Tide) : (p.setTide k f).labelBase = p.labelBase := rfl
@[simp] theorem Package.setTide_endorse (p : Package) (k : Nat) (f : Tide → Tide) : (p.setTide k f).endorse = p.endorse := rfl
@[simp] theorem Package.setTide_spaces (p : Package) (k : Nat) (f : Tide → Tide) : (p.setTide k f).spaces = p.spaces := rfl
@[simp] theorem Package.setTide_shoots (p : Package) (k : Nat) (f : Tide → Tide) : (p.setTide k f).shoots = p.shoots := rfl
@[simp] theorem Package.setTide_walks (p : Package) (k : Nat) (f : Tide → Tide) : (p.setTide k f).walks = p.walks := rfl
@[simp] theorem Package.setTide_pods (p : Package) (k : Nat) (f : Tide → Tide) : (p.setTide k f).pods = p.pods := rfl
@[simp] theorem Package.setTide_mans (p : Package) (k : Nat) (f : Tide → Tide) : (p.setTide k f).mans = p.mans := rfl
@[simp] theorem Package.setTide_dels (p : Package) (k : Nat) (f : Tide → Tide) : (p.setTide k f).dels = p.dels := rfl
@[simp] theorem Package.setTide_carveOut (p : Package) (k : Nat) (f : Tide → Tide) : (p.setTide k f).carveOut = p.carveOut := rfl
@[simp] theorem Package.setTide_groups (p : Package) (k : Nat) (f : Tide → Tide) : (p.setTide k f).groups = p.groups := rfl
@[simp] theorem Package.setTide_ports (p : Package) (k : Nat) (f : Tide → Tide) : (p.setTide k f).ports = p.ports := rfl
@[simp] theorem Package.setTide_circuit (p : Package) (k : Nat) (f : Tide → Tide) : (p.setTide k f).circuit = p.circuit := rfl
@[simp] theorem Package.setTide_migrate (p : Package) (k : Nat) (f : Tide → Tide) : (p.setTide k f).migrate = p.migrate := rfl
@[simp] theorem Package.setTide_moves (p : Package) (k : Nat) (f : Tide → Tide) : (p.setTide k f).moves = p.moves := rfl
@[simp] theorem Package.setTide_homeAt (p : Package) (k : Nat) (f : Tide → Tide) : (p.setTide k f).homeAt = p.homeAt := rfl
@[simp] theorem Package.setTide_sys (p : Package) (k : Nat) (f : Tide → Tide) : (p.setTide k f).sys = p.sys := rfl

/-! ### setGang -/

@[simp] theorem Package.setGang_phys (p : Package) (c g t : Nat) (f : Gang → Gang) : (p.setGang c g t f).phys = p.phys := rfl
@[simp] theorem Package.setGang_now (p : Package) (c g t : Nat) (f : Gang → Gang) : (p.setGang c g t f).now = p.now := rfl
@[simp] theorem Package.setGang_agenda (p : Package) (c g t : Nat) (f : Gang → Gang) : (p.setGang c g t f).agenda = p.agenda := rfl
@[simp] theorem Package.setGang_inbox (p : Package) (c g t : Nat) (f : Gang → Gang) : (p.setGang c g t f).inbox = p.inbox := rfl
@[simp] theorem Package.setGang_out (p : Package) (c g t : Nat) (f : Gang → Gang) : (p.setGang c g t f).out = p.out := rfl
@[simp] theorem Package.setGang_sent (p : Package) (c g t : Nat) (f : Gang → Gang) : (p.setGang c g t f).sent = p.sent := rfl
@[simp] theorem Package.setGang_draws (p : Package) (c g t : Nat) (f : Gang → Gang) : (p.setGang c g t f).draws = p.draws := rfl
@[simp] theorem Package.setGang_picks (p : Package) (c g t : Nat) (f : Gang → Gang) : (p.setGang c g t f).picks = p.picks := rfl
@[simp] theorem Package.setGang_nextId (p : Package) (c g t : Nat) (f : Gang → Gang) : (p.setGang c g t f).nextId = p.nextId := rfl
@[simp] theorem Package.setGang_issue (p : Package) (c g t : Nat) (f : Gang → Gang) : (p.setGang c g t f).issue = p.issue := rfl
@[simp] theorem Package.setGang_issued (p : Package) (c g t : Nat) (f : Gang → Gang) : (p.setGang c g t f).issued = p.issued := rfl
@[simp] theorem Package.setGang_pipes (p : Package) (c g t : Nat) (f : Gang → Gang) : (p.setGang c g t f).pipes = p.pipes := rfl
@[simp] theorem Package.setGang_freed (p : Package) (c g t : Nat) (f : Gang → Gang) : (p.setGang c g t f).freed = p.freed := rfl
@[simp] theorem Package.setGang_teams (p : Package) (c g t : Nat) (f : Gang → Gang) : (p.setGang c g t f).teams = p.teams := rfl
@[simp] theorem Package.setGang_gangs (p : Package) (c g t : Nat) (f : Gang → Gang) : (p.setGang c g t f).gangs = mapIf (fun x => x.is c g t) f p.gangs := rfl
@[simp] theorem Package.setGang_parts (p : Package) (c g t : Nat) (f : Gang → Gang) : (p.setGang c g t f).parts = p.parts := rfl
@[simp] theorem Package.setGang_cores (p : Package) (c g t : Nat) (f : Gang → Gang) : (p.setGang c g t f).cores = p.cores := rfl
@[simp] theorem Package.setGang_rounds (p : Package) (c g t : Nat) (f : Gang → Gang) : (p.setGang c g t f).rounds = p.rounds := rfl
@[simp] theorem Package.setGang_sparse (p : Package) (c g t : Nat) (f : Gang → Gang) : (p.setGang c g t f).sparse = p.sparse := rfl
@[simp] theorem Package.setGang_grids (p : Package) (c g t : Nat) (f : Gang → Gang) : (p.setGang c g t f).grids = p.grids := rfl
@[simp] theorem Package.setGang_quays (p : Package) (c g t : Nat) (f : Gang → Gang) : (p.setGang c g t f).quays = p.quays := rfl
@[simp] theorem Package.setGang_journal (p : Package) (c g t : Nat) (f : Gang → Gang) : (p.setGang c g t f).journal = p.journal := rfl
@[simp] theorem Package.setGang_jobs (p : Package) (c g t : Nat) (f : Gang → Gang) : (p.setGang c g t f).jobs = p.jobs := rfl
@[simp] theorem Package.setGang_accs (p : Package) (c g t : Nat) (f : Gang → Gang) : (p.setGang c g t f).accs = p.accs := rfl
@[simp] theorem Package.setGang_writes (p : Package) (c g t : Nat) (f : Gang → Gang) : (p.setGang c g t f).writes = p.writes := rfl
@[simp] theorem Package.setGang_lines (p : Package) (c g t : Nat) (f : Gang → Gang) : (p.setGang c g t f).lines = p.lines := rfl
@[simp] theorem Package.setGang_horizons (p : Package) (c g t : Nat) (f : Gang → Gang) : (p.setGang c g t f).horizons = p.horizons := rfl
@[simp] theorem Package.setGang_mem (p : Package) (c g t : Nat) (f : Gang → Gang) : (p.setGang c g t f).mem = p.mem := rfl
@[simp] theorem Package.setGang_glabels (p : Package) (c g t : Nat) (f : Gang → Gang) : (p.setGang c g t f).glabels = p.glabels := rfl
@[simp] theorem Package.setGang_epochs (p : Package) (c g t : Nat) (f : Gang → Gang) : (p.setGang c g t f).epochs = p.epochs := rfl
@[simp] theorem Package.setGang_bad (p : Package) (c g t : Nat) (f : Gang → Gang) : (p.setGang c g t f).bad = p.bad := rfl
@[simp] theorem Package.setGang_owners (p : Package) (c g t : Nat) (f : Gang → Gang) : (p.setGang c g t f).owners = p.owners := rfl
@[simp] theorem Package.setGang_code (p : Package) (c g t : Nat) (f : Gang → Gang) : (p.setGang c g t f).code = p.code := rfl
@[simp] theorem Package.setGang_banks (p : Package) (c g t : Nat) (f : Gang → Gang) : (p.setGang c g t f).banks = p.banks := rfl
@[simp] theorem Package.setGang_layouts (p : Package) (c g t : Nat) (f : Gang → Gang) : (p.setGang c g t f).layouts = p.layouts := rfl
@[simp] theorem Package.setGang_labels (p : Package) (c g t : Nat) (f : Gang → Gang) : (p.setGang c g t f).labels = p.labels := rfl
@[simp] theorem Package.setGang_labelBase (p : Package) (c g t : Nat) (f : Gang → Gang) : (p.setGang c g t f).labelBase = p.labelBase := rfl
@[simp] theorem Package.setGang_endorse (p : Package) (c g t : Nat) (f : Gang → Gang) : (p.setGang c g t f).endorse = p.endorse := rfl
@[simp] theorem Package.setGang_worlds (p : Package) (c g t : Nat) (f : Gang → Gang) : (p.setGang c g t f).worlds = p.worlds := rfl
@[simp] theorem Package.setGang_spaces (p : Package) (c g t : Nat) (f : Gang → Gang) : (p.setGang c g t f).spaces = p.spaces := rfl
@[simp] theorem Package.setGang_shoots (p : Package) (c g t : Nat) (f : Gang → Gang) : (p.setGang c g t f).shoots = p.shoots := rfl
@[simp] theorem Package.setGang_walks (p : Package) (c g t : Nat) (f : Gang → Gang) : (p.setGang c g t f).walks = p.walks := rfl
@[simp] theorem Package.setGang_pods (p : Package) (c g t : Nat) (f : Gang → Gang) : (p.setGang c g t f).pods = p.pods := rfl
@[simp] theorem Package.setGang_mans (p : Package) (c g t : Nat) (f : Gang → Gang) : (p.setGang c g t f).mans = p.mans := rfl
@[simp] theorem Package.setGang_dels (p : Package) (c g t : Nat) (f : Gang → Gang) : (p.setGang c g t f).dels = p.dels := rfl
@[simp] theorem Package.setGang_carveOut (p : Package) (c g t : Nat) (f : Gang → Gang) : (p.setGang c g t f).carveOut = p.carveOut := rfl
@[simp] theorem Package.setGang_groups (p : Package) (c g t : Nat) (f : Gang → Gang) : (p.setGang c g t f).groups = p.groups := rfl
@[simp] theorem Package.setGang_ports (p : Package) (c g t : Nat) (f : Gang → Gang) : (p.setGang c g t f).ports = p.ports := rfl
@[simp] theorem Package.setGang_circuit (p : Package) (c g t : Nat) (f : Gang → Gang) : (p.setGang c g t f).circuit = p.circuit := rfl
@[simp] theorem Package.setGang_migrate (p : Package) (c g t : Nat) (f : Gang → Gang) : (p.setGang c g t f).migrate = p.migrate := rfl
@[simp] theorem Package.setGang_moves (p : Package) (c g t : Nat) (f : Gang → Gang) : (p.setGang c g t f).moves = p.moves := rfl
@[simp] theorem Package.setGang_homeAt (p : Package) (c g t : Nat) (f : Gang → Gang) : (p.setGang c g t f).homeAt = p.homeAt := rfl
@[simp] theorem Package.setGang_sys (p : Package) (c g t : Nat) (f : Gang → Gang) : (p.setGang c g t f).sys = p.sys := rfl

/-! ### leaveGang -/

@[simp] theorem Package.leaveGang_phys (p : Package) (w : Who) : (p.leaveGang w).phys = p.phys := rfl
@[simp] theorem Package.leaveGang_now (p : Package) (w : Who) : (p.leaveGang w).now = p.now := rfl
@[simp] theorem Package.leaveGang_agenda (p : Package) (w : Who) : (p.leaveGang w).agenda = p.agenda := rfl
@[simp] theorem Package.leaveGang_inbox (p : Package) (w : Who) : (p.leaveGang w).inbox = p.inbox := rfl
@[simp] theorem Package.leaveGang_out (p : Package) (w : Who) : (p.leaveGang w).out = p.out := rfl
@[simp] theorem Package.leaveGang_sent (p : Package) (w : Who) : (p.leaveGang w).sent = p.sent := rfl
@[simp] theorem Package.leaveGang_draws (p : Package) (w : Who) : (p.leaveGang w).draws = p.draws := rfl
@[simp] theorem Package.leaveGang_picks (p : Package) (w : Who) : (p.leaveGang w).picks = p.picks := rfl
@[simp] theorem Package.leaveGang_nextId (p : Package) (w : Who) : (p.leaveGang w).nextId = p.nextId := rfl
@[simp] theorem Package.leaveGang_issue (p : Package) (w : Who) : (p.leaveGang w).issue = p.issue := rfl
@[simp] theorem Package.leaveGang_issued (p : Package) (w : Who) : (p.leaveGang w).issued = p.issued := rfl
@[simp] theorem Package.leaveGang_pipes (p : Package) (w : Who) : (p.leaveGang w).pipes = p.pipes := rfl
@[simp] theorem Package.leaveGang_freed (p : Package) (w : Who) : (p.leaveGang w).freed = p.freed := rfl
@[simp] theorem Package.leaveGang_teams (p : Package) (w : Who) : (p.leaveGang w).teams = p.teams := rfl
@[simp] theorem Package.leaveGang_parts (p : Package) (w : Who) : (p.leaveGang w).parts = p.parts := rfl
@[simp] theorem Package.leaveGang_cores (p : Package) (w : Who) : (p.leaveGang w).cores = p.cores := rfl
@[simp] theorem Package.leaveGang_rounds (p : Package) (w : Who) : (p.leaveGang w).rounds = p.rounds := rfl
@[simp] theorem Package.leaveGang_sparse (p : Package) (w : Who) : (p.leaveGang w).sparse = p.sparse := rfl
@[simp] theorem Package.leaveGang_grids (p : Package) (w : Who) : (p.leaveGang w).grids = p.grids := rfl
@[simp] theorem Package.leaveGang_quays (p : Package) (w : Who) : (p.leaveGang w).quays = p.quays := rfl
@[simp] theorem Package.leaveGang_journal (p : Package) (w : Who) : (p.leaveGang w).journal = p.journal := rfl
@[simp] theorem Package.leaveGang_jobs (p : Package) (w : Who) : (p.leaveGang w).jobs = p.jobs := rfl
@[simp] theorem Package.leaveGang_accs (p : Package) (w : Who) : (p.leaveGang w).accs = p.accs := rfl
@[simp] theorem Package.leaveGang_writes (p : Package) (w : Who) : (p.leaveGang w).writes = p.writes := rfl
@[simp] theorem Package.leaveGang_lines (p : Package) (w : Who) : (p.leaveGang w).lines = p.lines := rfl
@[simp] theorem Package.leaveGang_horizons (p : Package) (w : Who) : (p.leaveGang w).horizons = p.horizons := rfl
@[simp] theorem Package.leaveGang_mem (p : Package) (w : Who) : (p.leaveGang w).mem = p.mem := rfl
@[simp] theorem Package.leaveGang_glabels (p : Package) (w : Who) : (p.leaveGang w).glabels = p.glabels := rfl
@[simp] theorem Package.leaveGang_epochs (p : Package) (w : Who) : (p.leaveGang w).epochs = p.epochs := rfl
@[simp] theorem Package.leaveGang_bad (p : Package) (w : Who) : (p.leaveGang w).bad = p.bad := rfl
@[simp] theorem Package.leaveGang_owners (p : Package) (w : Who) : (p.leaveGang w).owners = p.owners := rfl
@[simp] theorem Package.leaveGang_code (p : Package) (w : Who) : (p.leaveGang w).code = p.code := rfl
@[simp] theorem Package.leaveGang_banks (p : Package) (w : Who) : (p.leaveGang w).banks = p.banks := rfl
@[simp] theorem Package.leaveGang_layouts (p : Package) (w : Who) : (p.leaveGang w).layouts = p.layouts := rfl
@[simp] theorem Package.leaveGang_labels (p : Package) (w : Who) : (p.leaveGang w).labels = p.labels := rfl
@[simp] theorem Package.leaveGang_labelBase (p : Package) (w : Who) : (p.leaveGang w).labelBase = p.labelBase := rfl
@[simp] theorem Package.leaveGang_endorse (p : Package) (w : Who) : (p.leaveGang w).endorse = p.endorse := rfl
@[simp] theorem Package.leaveGang_worlds (p : Package) (w : Who) : (p.leaveGang w).worlds = p.worlds := rfl
@[simp] theorem Package.leaveGang_spaces (p : Package) (w : Who) : (p.leaveGang w).spaces = p.spaces := rfl
@[simp] theorem Package.leaveGang_shoots (p : Package) (w : Who) : (p.leaveGang w).shoots = p.shoots := rfl
@[simp] theorem Package.leaveGang_walks (p : Package) (w : Who) : (p.leaveGang w).walks = p.walks := rfl
@[simp] theorem Package.leaveGang_pods (p : Package) (w : Who) : (p.leaveGang w).pods = p.pods := rfl
@[simp] theorem Package.leaveGang_mans (p : Package) (w : Who) : (p.leaveGang w).mans = p.mans := rfl
@[simp] theorem Package.leaveGang_dels (p : Package) (w : Who) : (p.leaveGang w).dels = p.dels := rfl
@[simp] theorem Package.leaveGang_carveOut (p : Package) (w : Who) : (p.leaveGang w).carveOut = p.carveOut := rfl
@[simp] theorem Package.leaveGang_groups (p : Package) (w : Who) : (p.leaveGang w).groups = p.groups := rfl
@[simp] theorem Package.leaveGang_ports (p : Package) (w : Who) : (p.leaveGang w).ports = p.ports := rfl
@[simp] theorem Package.leaveGang_circuit (p : Package) (w : Who) : (p.leaveGang w).circuit = p.circuit := rfl
@[simp] theorem Package.leaveGang_migrate (p : Package) (w : Who) : (p.leaveGang w).migrate = p.migrate := rfl
@[simp] theorem Package.leaveGang_moves (p : Package) (w : Who) : (p.leaveGang w).moves = p.moves := rfl
@[simp] theorem Package.leaveGang_homeAt (p : Package) (w : Who) : (p.leaveGang w).homeAt = p.homeAt := rfl
@[simp] theorem Package.leaveGang_sys (p : Package) (w : Who) : (p.leaveGang w).sys = p.sys := rfl

/-! ### unfile -/

@[simp] theorem Package.unfile_phys (p : Package) (w : Who) : (p.unfile w).phys = p.phys := rfl
@[simp] theorem Package.unfile_now (p : Package) (w : Who) : (p.unfile w).now = p.now := rfl
@[simp] theorem Package.unfile_agenda (p : Package) (w : Who) : (p.unfile w).agenda = p.agenda := rfl
@[simp] theorem Package.unfile_inbox (p : Package) (w : Who) : (p.unfile w).inbox = p.inbox := rfl
@[simp] theorem Package.unfile_out (p : Package) (w : Who) : (p.unfile w).out = p.out := rfl
@[simp] theorem Package.unfile_sent (p : Package) (w : Who) : (p.unfile w).sent = p.sent := rfl
@[simp] theorem Package.unfile_draws (p : Package) (w : Who) : (p.unfile w).draws = p.draws := rfl
@[simp] theorem Package.unfile_picks (p : Package) (w : Who) : (p.unfile w).picks = p.picks := rfl
@[simp] theorem Package.unfile_nextId (p : Package) (w : Who) : (p.unfile w).nextId = p.nextId := rfl
@[simp] theorem Package.unfile_issue (p : Package) (w : Who) : (p.unfile w).issue = p.issue := rfl
@[simp] theorem Package.unfile_issued (p : Package) (w : Who) : (p.unfile w).issued = p.issued := rfl
@[simp] theorem Package.unfile_pipes (p : Package) (w : Who) : (p.unfile w).pipes = p.pipes := rfl
@[simp] theorem Package.unfile_freed (p : Package) (w : Who) : (p.unfile w).freed = p.freed := rfl
@[simp] theorem Package.unfile_teams (p : Package) (w : Who) : (p.unfile w).teams = p.teams := rfl
@[simp] theorem Package.unfile_gangs (p : Package) (w : Who) : (p.unfile w).gangs = p.gangs := rfl
@[simp] theorem Package.unfile_cores (p : Package) (w : Who) : (p.unfile w).cores = p.cores := rfl
@[simp] theorem Package.unfile_rounds (p : Package) (w : Who) : (p.unfile w).rounds = p.rounds := rfl
@[simp] theorem Package.unfile_sparse (p : Package) (w : Who) : (p.unfile w).sparse = p.sparse := rfl
@[simp] theorem Package.unfile_grids (p : Package) (w : Who) : (p.unfile w).grids = p.grids := rfl
@[simp] theorem Package.unfile_quays (p : Package) (w : Who) : (p.unfile w).quays = p.quays := rfl
@[simp] theorem Package.unfile_journal (p : Package) (w : Who) : (p.unfile w).journal = p.journal := rfl
@[simp] theorem Package.unfile_jobs (p : Package) (w : Who) : (p.unfile w).jobs = p.jobs := rfl
@[simp] theorem Package.unfile_accs (p : Package) (w : Who) : (p.unfile w).accs = p.accs := rfl
@[simp] theorem Package.unfile_writes (p : Package) (w : Who) : (p.unfile w).writes = p.writes := rfl
@[simp] theorem Package.unfile_lines (p : Package) (w : Who) : (p.unfile w).lines = p.lines := rfl
@[simp] theorem Package.unfile_horizons (p : Package) (w : Who) : (p.unfile w).horizons = p.horizons := rfl
@[simp] theorem Package.unfile_mem (p : Package) (w : Who) : (p.unfile w).mem = p.mem := rfl
@[simp] theorem Package.unfile_glabels (p : Package) (w : Who) : (p.unfile w).glabels = p.glabels := rfl
@[simp] theorem Package.unfile_epochs (p : Package) (w : Who) : (p.unfile w).epochs = p.epochs := rfl
@[simp] theorem Package.unfile_bad (p : Package) (w : Who) : (p.unfile w).bad = p.bad := rfl
@[simp] theorem Package.unfile_owners (p : Package) (w : Who) : (p.unfile w).owners = p.owners := rfl
@[simp] theorem Package.unfile_code (p : Package) (w : Who) : (p.unfile w).code = p.code := rfl
@[simp] theorem Package.unfile_banks (p : Package) (w : Who) : (p.unfile w).banks = p.banks := rfl
@[simp] theorem Package.unfile_layouts (p : Package) (w : Who) : (p.unfile w).layouts = p.layouts := rfl
@[simp] theorem Package.unfile_labels (p : Package) (w : Who) : (p.unfile w).labels = p.labels := rfl
@[simp] theorem Package.unfile_labelBase (p : Package) (w : Who) : (p.unfile w).labelBase = p.labelBase := rfl
@[simp] theorem Package.unfile_endorse (p : Package) (w : Who) : (p.unfile w).endorse = p.endorse := rfl
@[simp] theorem Package.unfile_worlds (p : Package) (w : Who) : (p.unfile w).worlds = p.worlds := rfl
@[simp] theorem Package.unfile_spaces (p : Package) (w : Who) : (p.unfile w).spaces = p.spaces := rfl
@[simp] theorem Package.unfile_shoots (p : Package) (w : Who) : (p.unfile w).shoots = p.shoots := rfl
@[simp] theorem Package.unfile_walks (p : Package) (w : Who) : (p.unfile w).walks = p.walks := rfl
@[simp] theorem Package.unfile_pods (p : Package) (w : Who) : (p.unfile w).pods = p.pods := rfl
@[simp] theorem Package.unfile_mans (p : Package) (w : Who) : (p.unfile w).mans = p.mans := rfl
@[simp] theorem Package.unfile_dels (p : Package) (w : Who) : (p.unfile w).dels = p.dels := rfl
@[simp] theorem Package.unfile_carveOut (p : Package) (w : Who) : (p.unfile w).carveOut = p.carveOut := rfl
@[simp] theorem Package.unfile_groups (p : Package) (w : Who) : (p.unfile w).groups = p.groups := rfl
@[simp] theorem Package.unfile_ports (p : Package) (w : Who) : (p.unfile w).ports = p.ports := rfl
@[simp] theorem Package.unfile_circuit (p : Package) (w : Who) : (p.unfile w).circuit = p.circuit := rfl
@[simp] theorem Package.unfile_migrate (p : Package) (w : Who) : (p.unfile w).migrate = p.migrate := rfl
@[simp] theorem Package.unfile_moves (p : Package) (w : Who) : (p.unfile w).moves = p.moves := rfl
@[simp] theorem Package.unfile_homeAt (p : Package) (w : Who) : (p.unfile w).homeAt = p.homeAt := rfl
@[simp] theorem Package.unfile_sys (p : Package) (w : Who) : (p.unfile w).sys = p.sys := rfl

/-! ### interrupt -/

@[simp] theorem Package.interrupt_phys (p : Package) (c : IntClass) (k n : Nat) : (p.interrupt c k n).phys = p.phys := rfl
@[simp] theorem Package.interrupt_now (p : Package) (c : IntClass) (k n : Nat) : (p.interrupt c k n).now = p.now := rfl
@[simp] theorem Package.interrupt_agenda (p : Package) (c : IntClass) (k n : Nat) : (p.interrupt c k n).agenda = p.agenda := rfl
@[simp] theorem Package.interrupt_inbox (p : Package) (c : IntClass) (k n : Nat) : (p.interrupt c k n).inbox = p.inbox := rfl
@[simp] theorem Package.interrupt_out (p : Package) (c : IntClass) (k n : Nat) : (p.interrupt c k n).out = p.out := rfl
@[simp] theorem Package.interrupt_sent (p : Package) (c : IntClass) (k n : Nat) : (p.interrupt c k n).sent = p.sent := rfl
@[simp] theorem Package.interrupt_draws (p : Package) (c : IntClass) (k n : Nat) : (p.interrupt c k n).draws = p.draws := rfl
@[simp] theorem Package.interrupt_picks (p : Package) (c : IntClass) (k n : Nat) : (p.interrupt c k n).picks = p.picks := rfl
@[simp] theorem Package.interrupt_nextId (p : Package) (c : IntClass) (k n : Nat) : (p.interrupt c k n).nextId = p.nextId := rfl
@[simp] theorem Package.interrupt_issue (p : Package) (c : IntClass) (k n : Nat) : (p.interrupt c k n).issue = p.issue := rfl
@[simp] theorem Package.interrupt_issued (p : Package) (c : IntClass) (k n : Nat) : (p.interrupt c k n).issued = p.issued := rfl
@[simp] theorem Package.interrupt_pipes (p : Package) (c : IntClass) (k n : Nat) : (p.interrupt c k n).pipes = p.pipes := rfl
@[simp] theorem Package.interrupt_freed (p : Package) (c : IntClass) (k n : Nat) : (p.interrupt c k n).freed = p.freed := rfl
@[simp] theorem Package.interrupt_teams (p : Package) (c : IntClass) (k n : Nat) : (p.interrupt c k n).teams = p.teams := rfl
@[simp] theorem Package.interrupt_gangs (p : Package) (c : IntClass) (k n : Nat) : (p.interrupt c k n).gangs = p.gangs := rfl
@[simp] theorem Package.interrupt_parts (p : Package) (c : IntClass) (k n : Nat) : (p.interrupt c k n).parts = p.parts := rfl
@[simp] theorem Package.interrupt_cores (p : Package) (c : IntClass) (k n : Nat) : (p.interrupt c k n).cores = p.cores := rfl
@[simp] theorem Package.interrupt_rounds (p : Package) (c : IntClass) (k n : Nat) : (p.interrupt c k n).rounds = p.rounds := rfl
@[simp] theorem Package.interrupt_sparse (p : Package) (c : IntClass) (k n : Nat) : (p.interrupt c k n).sparse = p.sparse := rfl
@[simp] theorem Package.interrupt_grids (p : Package) (c : IntClass) (k n : Nat) : (p.interrupt c k n).grids = p.grids := rfl
@[simp] theorem Package.interrupt_quays (p : Package) (c : IntClass) (k n : Nat) : (p.interrupt c k n).quays = p.quays := rfl
@[simp] theorem Package.interrupt_journal (p : Package) (c : IntClass) (k n : Nat) : (p.interrupt c k n).journal = p.journal := rfl
@[simp] theorem Package.interrupt_jobs (p : Package) (c : IntClass) (k n : Nat) : (p.interrupt c k n).jobs = p.jobs := rfl
@[simp] theorem Package.interrupt_accs (p : Package) (c : IntClass) (k n : Nat) : (p.interrupt c k n).accs = p.accs := rfl
@[simp] theorem Package.interrupt_writes (p : Package) (c : IntClass) (k n : Nat) : (p.interrupt c k n).writes = p.writes := rfl
@[simp] theorem Package.interrupt_lines (p : Package) (c : IntClass) (k n : Nat) : (p.interrupt c k n).lines = p.lines := rfl
@[simp] theorem Package.interrupt_horizons (p : Package) (c : IntClass) (k n : Nat) : (p.interrupt c k n).horizons = p.horizons := rfl
@[simp] theorem Package.interrupt_mem (p : Package) (c : IntClass) (k n : Nat) : (p.interrupt c k n).mem = p.mem := rfl
@[simp] theorem Package.interrupt_glabels (p : Package) (c : IntClass) (k n : Nat) : (p.interrupt c k n).glabels = p.glabels := rfl
@[simp] theorem Package.interrupt_epochs (p : Package) (c : IntClass) (k n : Nat) : (p.interrupt c k n).epochs = p.epochs := rfl
@[simp] theorem Package.interrupt_bad (p : Package) (c : IntClass) (k n : Nat) : (p.interrupt c k n).bad = p.bad := rfl
@[simp] theorem Package.interrupt_owners (p : Package) (c : IntClass) (k n : Nat) : (p.interrupt c k n).owners = p.owners := rfl
@[simp] theorem Package.interrupt_code (p : Package) (c : IntClass) (k n : Nat) : (p.interrupt c k n).code = p.code := rfl
@[simp] theorem Package.interrupt_banks (p : Package) (c : IntClass) (k n : Nat) : (p.interrupt c k n).banks = p.banks := rfl
@[simp] theorem Package.interrupt_layouts (p : Package) (c : IntClass) (k n : Nat) : (p.interrupt c k n).layouts = p.layouts := rfl
@[simp] theorem Package.interrupt_labels (p : Package) (c : IntClass) (k n : Nat) : (p.interrupt c k n).labels = p.labels := rfl
@[simp] theorem Package.interrupt_labelBase (p : Package) (c : IntClass) (k n : Nat) : (p.interrupt c k n).labelBase = p.labelBase := rfl
@[simp] theorem Package.interrupt_endorse (p : Package) (c : IntClass) (k n : Nat) : (p.interrupt c k n).endorse = p.endorse := rfl
@[simp] theorem Package.interrupt_worlds (p : Package) (c : IntClass) (k n : Nat) : (p.interrupt c k n).worlds = p.worlds := rfl
@[simp] theorem Package.interrupt_spaces (p : Package) (c : IntClass) (k n : Nat) : (p.interrupt c k n).spaces = p.spaces := rfl
@[simp] theorem Package.interrupt_shoots (p : Package) (c : IntClass) (k n : Nat) : (p.interrupt c k n).shoots = p.shoots := rfl
@[simp] theorem Package.interrupt_walks (p : Package) (c : IntClass) (k n : Nat) : (p.interrupt c k n).walks = p.walks := rfl
@[simp] theorem Package.interrupt_pods (p : Package) (c : IntClass) (k n : Nat) : (p.interrupt c k n).pods = p.pods := rfl
@[simp] theorem Package.interrupt_mans (p : Package) (c : IntClass) (k n : Nat) : (p.interrupt c k n).mans = p.mans := rfl
@[simp] theorem Package.interrupt_dels (p : Package) (c : IntClass) (k n : Nat) : (p.interrupt c k n).dels = p.dels := rfl
@[simp] theorem Package.interrupt_carveOut (p : Package) (c : IntClass) (k n : Nat) : (p.interrupt c k n).carveOut = p.carveOut := rfl
@[simp] theorem Package.interrupt_groups (p : Package) (c : IntClass) (k n : Nat) : (p.interrupt c k n).groups = p.groups := rfl
@[simp] theorem Package.interrupt_ports (p : Package) (c : IntClass) (k n : Nat) : (p.interrupt c k n).ports = p.ports := rfl
@[simp] theorem Package.interrupt_circuit (p : Package) (c : IntClass) (k n : Nat) : (p.interrupt c k n).circuit = p.circuit := rfl
@[simp] theorem Package.interrupt_migrate (p : Package) (c : IntClass) (k n : Nat) : (p.interrupt c k n).migrate = p.migrate := rfl
@[simp] theorem Package.interrupt_moves (p : Package) (c : IntClass) (k n : Nat) : (p.interrupt c k n).moves = p.moves := rfl
@[simp] theorem Package.interrupt_homeAt (p : Package) (c : IntClass) (k n : Nat) : (p.interrupt c k n).homeAt = p.homeAt := rfl

/-! ### setGlabel -/

@[simp] theorem Package.setGlabel_phys (p : Package) (g : Nat) (l : Lbl) : (p.setGlabel g l).phys = p.phys := rfl
@[simp] theorem Package.setGlabel_now (p : Package) (g : Nat) (l : Lbl) : (p.setGlabel g l).now = p.now := rfl
@[simp] theorem Package.setGlabel_agenda (p : Package) (g : Nat) (l : Lbl) : (p.setGlabel g l).agenda = p.agenda := rfl
@[simp] theorem Package.setGlabel_inbox (p : Package) (g : Nat) (l : Lbl) : (p.setGlabel g l).inbox = p.inbox := rfl
@[simp] theorem Package.setGlabel_out (p : Package) (g : Nat) (l : Lbl) : (p.setGlabel g l).out = p.out := rfl
@[simp] theorem Package.setGlabel_sent (p : Package) (g : Nat) (l : Lbl) : (p.setGlabel g l).sent = p.sent := rfl
@[simp] theorem Package.setGlabel_draws (p : Package) (g : Nat) (l : Lbl) : (p.setGlabel g l).draws = p.draws := rfl
@[simp] theorem Package.setGlabel_picks (p : Package) (g : Nat) (l : Lbl) : (p.setGlabel g l).picks = p.picks := rfl
@[simp] theorem Package.setGlabel_nextId (p : Package) (g : Nat) (l : Lbl) : (p.setGlabel g l).nextId = p.nextId := rfl
@[simp] theorem Package.setGlabel_issue (p : Package) (g : Nat) (l : Lbl) : (p.setGlabel g l).issue = p.issue := rfl
@[simp] theorem Package.setGlabel_issued (p : Package) (g : Nat) (l : Lbl) : (p.setGlabel g l).issued = p.issued := rfl
@[simp] theorem Package.setGlabel_pipes (p : Package) (g : Nat) (l : Lbl) : (p.setGlabel g l).pipes = p.pipes := rfl
@[simp] theorem Package.setGlabel_freed (p : Package) (g : Nat) (l : Lbl) : (p.setGlabel g l).freed = p.freed := rfl
@[simp] theorem Package.setGlabel_teams (p : Package) (g : Nat) (l : Lbl) : (p.setGlabel g l).teams = p.teams := rfl
@[simp] theorem Package.setGlabel_gangs (p : Package) (g : Nat) (l : Lbl) : (p.setGlabel g l).gangs = p.gangs := rfl
@[simp] theorem Package.setGlabel_parts (p : Package) (g : Nat) (l : Lbl) : (p.setGlabel g l).parts = p.parts := rfl
@[simp] theorem Package.setGlabel_cores (p : Package) (g : Nat) (l : Lbl) : (p.setGlabel g l).cores = p.cores := rfl
@[simp] theorem Package.setGlabel_rounds (p : Package) (g : Nat) (l : Lbl) : (p.setGlabel g l).rounds = p.rounds := rfl
@[simp] theorem Package.setGlabel_sparse (p : Package) (g : Nat) (l : Lbl) : (p.setGlabel g l).sparse = p.sparse := rfl
@[simp] theorem Package.setGlabel_grids (p : Package) (g : Nat) (l : Lbl) : (p.setGlabel g l).grids = p.grids := rfl
@[simp] theorem Package.setGlabel_quays (p : Package) (g : Nat) (l : Lbl) : (p.setGlabel g l).quays = p.quays := rfl
@[simp] theorem Package.setGlabel_journal (p : Package) (g : Nat) (l : Lbl) : (p.setGlabel g l).journal = p.journal := rfl
@[simp] theorem Package.setGlabel_jobs (p : Package) (g : Nat) (l : Lbl) : (p.setGlabel g l).jobs = p.jobs := rfl
@[simp] theorem Package.setGlabel_accs (p : Package) (g : Nat) (l : Lbl) : (p.setGlabel g l).accs = p.accs := rfl
@[simp] theorem Package.setGlabel_writes (p : Package) (g : Nat) (l : Lbl) : (p.setGlabel g l).writes = p.writes := rfl
@[simp] theorem Package.setGlabel_lines (p : Package) (g : Nat) (l : Lbl) : (p.setGlabel g l).lines = p.lines := rfl
@[simp] theorem Package.setGlabel_horizons (p : Package) (g : Nat) (l : Lbl) : (p.setGlabel g l).horizons = p.horizons := rfl
@[simp] theorem Package.setGlabel_mem (p : Package) (g : Nat) (l : Lbl) : (p.setGlabel g l).mem = p.mem := rfl
@[simp] theorem Package.setGlabel_glabels (p : Package) (g : Nat) (l : Lbl) : (p.setGlabel g l).glabels = spSet 0 p.glabels g l := rfl
@[simp] theorem Package.setGlabel_epochs (p : Package) (g : Nat) (l : Lbl) : (p.setGlabel g l).epochs = p.epochs := rfl
@[simp] theorem Package.setGlabel_bad (p : Package) (g : Nat) (l : Lbl) : (p.setGlabel g l).bad = p.bad := rfl
@[simp] theorem Package.setGlabel_owners (p : Package) (g : Nat) (l : Lbl) : (p.setGlabel g l).owners = p.owners := rfl
@[simp] theorem Package.setGlabel_code (p : Package) (g : Nat) (l : Lbl) : (p.setGlabel g l).code = p.code := rfl
@[simp] theorem Package.setGlabel_banks (p : Package) (g : Nat) (l : Lbl) : (p.setGlabel g l).banks = p.banks := rfl
@[simp] theorem Package.setGlabel_layouts (p : Package) (g : Nat) (l : Lbl) : (p.setGlabel g l).layouts = p.layouts := rfl
@[simp] theorem Package.setGlabel_labels (p : Package) (g : Nat) (l : Lbl) : (p.setGlabel g l).labels = p.labels := rfl
@[simp] theorem Package.setGlabel_labelBase (p : Package) (g : Nat) (l : Lbl) : (p.setGlabel g l).labelBase = p.labelBase := rfl
@[simp] theorem Package.setGlabel_endorse (p : Package) (g : Nat) (l : Lbl) : (p.setGlabel g l).endorse = p.endorse := rfl
@[simp] theorem Package.setGlabel_worlds (p : Package) (g : Nat) (l : Lbl) : (p.setGlabel g l).worlds = p.worlds := rfl
@[simp] theorem Package.setGlabel_spaces (p : Package) (g : Nat) (l : Lbl) : (p.setGlabel g l).spaces = p.spaces := rfl
@[simp] theorem Package.setGlabel_shoots (p : Package) (g : Nat) (l : Lbl) : (p.setGlabel g l).shoots = p.shoots := rfl
@[simp] theorem Package.setGlabel_walks (p : Package) (g : Nat) (l : Lbl) : (p.setGlabel g l).walks = p.walks := rfl
@[simp] theorem Package.setGlabel_pods (p : Package) (g : Nat) (l : Lbl) : (p.setGlabel g l).pods = p.pods := rfl
@[simp] theorem Package.setGlabel_mans (p : Package) (g : Nat) (l : Lbl) : (p.setGlabel g l).mans = p.mans := rfl
@[simp] theorem Package.setGlabel_dels (p : Package) (g : Nat) (l : Lbl) : (p.setGlabel g l).dels = p.dels := rfl
@[simp] theorem Package.setGlabel_carveOut (p : Package) (g : Nat) (l : Lbl) : (p.setGlabel g l).carveOut = p.carveOut := rfl
@[simp] theorem Package.setGlabel_groups (p : Package) (g : Nat) (l : Lbl) : (p.setGlabel g l).groups = p.groups := rfl
@[simp] theorem Package.setGlabel_ports (p : Package) (g : Nat) (l : Lbl) : (p.setGlabel g l).ports = p.ports := rfl
@[simp] theorem Package.setGlabel_circuit (p : Package) (g : Nat) (l : Lbl) : (p.setGlabel g l).circuit = p.circuit := rfl
@[simp] theorem Package.setGlabel_migrate (p : Package) (g : Nat) (l : Lbl) : (p.setGlabel g l).migrate = p.migrate := rfl
@[simp] theorem Package.setGlabel_moves (p : Package) (g : Nat) (l : Lbl) : (p.setGlabel g l).moves = p.moves := rfl
@[simp] theorem Package.setGlabel_homeAt (p : Package) (g : Nat) (l : Lbl) : (p.setGlabel g l).homeAt = p.homeAt := rfl
@[simp] theorem Package.setGlabel_sys (p : Package) (g : Nat) (l : Lbl) : (p.setGlabel g l).sys = p.sys := rfl

/-! ### poke -/

@[simp] theorem Package.poke_phys (p : Package) (pa n v : Nat) : (p.poke pa n v).phys = p.phys := rfl
@[simp] theorem Package.poke_now (p : Package) (pa n v : Nat) : (p.poke pa n v).now = p.now := rfl
@[simp] theorem Package.poke_agenda (p : Package) (pa n v : Nat) : (p.poke pa n v).agenda = p.agenda := rfl
@[simp] theorem Package.poke_inbox (p : Package) (pa n v : Nat) : (p.poke pa n v).inbox = p.inbox := rfl
@[simp] theorem Package.poke_out (p : Package) (pa n v : Nat) : (p.poke pa n v).out = p.out := rfl
@[simp] theorem Package.poke_sent (p : Package) (pa n v : Nat) : (p.poke pa n v).sent = p.sent := rfl
@[simp] theorem Package.poke_draws (p : Package) (pa n v : Nat) : (p.poke pa n v).draws = p.draws := rfl
@[simp] theorem Package.poke_picks (p : Package) (pa n v : Nat) : (p.poke pa n v).picks = p.picks := rfl
@[simp] theorem Package.poke_nextId (p : Package) (pa n v : Nat) : (p.poke pa n v).nextId = p.nextId := rfl
@[simp] theorem Package.poke_issue (p : Package) (pa n v : Nat) : (p.poke pa n v).issue = p.issue := rfl
@[simp] theorem Package.poke_issued (p : Package) (pa n v : Nat) : (p.poke pa n v).issued = p.issued := rfl
@[simp] theorem Package.poke_pipes (p : Package) (pa n v : Nat) : (p.poke pa n v).pipes = p.pipes := rfl
@[simp] theorem Package.poke_freed (p : Package) (pa n v : Nat) : (p.poke pa n v).freed = p.freed := rfl
@[simp] theorem Package.poke_teams (p : Package) (pa n v : Nat) : (p.poke pa n v).teams = p.teams := rfl
@[simp] theorem Package.poke_gangs (p : Package) (pa n v : Nat) : (p.poke pa n v).gangs = p.gangs := rfl
@[simp] theorem Package.poke_parts (p : Package) (pa n v : Nat) : (p.poke pa n v).parts = p.parts := rfl
@[simp] theorem Package.poke_cores (p : Package) (pa n v : Nat) : (p.poke pa n v).cores = p.cores := rfl
@[simp] theorem Package.poke_rounds (p : Package) (pa n v : Nat) : (p.poke pa n v).rounds = p.rounds := rfl
@[simp] theorem Package.poke_sparse (p : Package) (pa n v : Nat) : (p.poke pa n v).sparse = p.sparse := rfl
@[simp] theorem Package.poke_grids (p : Package) (pa n v : Nat) : (p.poke pa n v).grids = p.grids := rfl
@[simp] theorem Package.poke_quays (p : Package) (pa n v : Nat) : (p.poke pa n v).quays = p.quays := rfl
@[simp] theorem Package.poke_journal (p : Package) (pa n v : Nat) : (p.poke pa n v).journal = p.journal := rfl
@[simp] theorem Package.poke_jobs (p : Package) (pa n v : Nat) : (p.poke pa n v).jobs = p.jobs := rfl
@[simp] theorem Package.poke_accs (p : Package) (pa n v : Nat) : (p.poke pa n v).accs = p.accs := rfl
@[simp] theorem Package.poke_writes (p : Package) (pa n v : Nat) : (p.poke pa n v).writes = p.writes := rfl
@[simp] theorem Package.poke_lines (p : Package) (pa n v : Nat) : (p.poke pa n v).lines = p.lines := rfl
@[simp] theorem Package.poke_horizons (p : Package) (pa n v : Nat) : (p.poke pa n v).horizons = p.horizons := rfl
@[simp] theorem Package.poke_mem (p : Package) (pa n v : Nat) : (p.poke pa n v).mem = putBytes p.mem pa (toBytes n v) := rfl
@[simp] theorem Package.poke_glabels (p : Package) (pa n v : Nat) : (p.poke pa n v).glabels = p.glabels := rfl
@[simp] theorem Package.poke_bad (p : Package) (pa n v : Nat) : (p.poke pa n v).bad = p.bad := rfl
@[simp] theorem Package.poke_owners (p : Package) (pa n v : Nat) : (p.poke pa n v).owners = p.owners := rfl
@[simp] theorem Package.poke_banks (p : Package) (pa n v : Nat) : (p.poke pa n v).banks = p.banks := rfl
@[simp] theorem Package.poke_layouts (p : Package) (pa n v : Nat) : (p.poke pa n v).layouts = p.layouts := rfl
@[simp] theorem Package.poke_labels (p : Package) (pa n v : Nat) : (p.poke pa n v).labels = p.labels := rfl
@[simp] theorem Package.poke_labelBase (p : Package) (pa n v : Nat) : (p.poke pa n v).labelBase = p.labelBase := rfl
@[simp] theorem Package.poke_endorse (p : Package) (pa n v : Nat) : (p.poke pa n v).endorse = p.endorse := rfl
@[simp] theorem Package.poke_worlds (p : Package) (pa n v : Nat) : (p.poke pa n v).worlds = p.worlds := rfl
@[simp] theorem Package.poke_spaces (p : Package) (pa n v : Nat) : (p.poke pa n v).spaces = p.spaces := rfl
@[simp] theorem Package.poke_shoots (p : Package) (pa n v : Nat) : (p.poke pa n v).shoots = p.shoots := rfl
@[simp] theorem Package.poke_walks (p : Package) (pa n v : Nat) : (p.poke pa n v).walks = p.walks := rfl
@[simp] theorem Package.poke_pods (p : Package) (pa n v : Nat) : (p.poke pa n v).pods = p.pods := rfl
@[simp] theorem Package.poke_mans (p : Package) (pa n v : Nat) : (p.poke pa n v).mans = p.mans := rfl
@[simp] theorem Package.poke_dels (p : Package) (pa n v : Nat) : (p.poke pa n v).dels = p.dels := rfl
@[simp] theorem Package.poke_carveOut (p : Package) (pa n v : Nat) : (p.poke pa n v).carveOut = p.carveOut := rfl
@[simp] theorem Package.poke_groups (p : Package) (pa n v : Nat) : (p.poke pa n v).groups = p.groups := rfl
@[simp] theorem Package.poke_ports (p : Package) (pa n v : Nat) : (p.poke pa n v).ports = p.ports := rfl
@[simp] theorem Package.poke_circuit (p : Package) (pa n v : Nat) : (p.poke pa n v).circuit = p.circuit := rfl
@[simp] theorem Package.poke_migrate (p : Package) (pa n v : Nat) : (p.poke pa n v).migrate = p.migrate := rfl
@[simp] theorem Package.poke_moves (p : Package) (pa n v : Nat) : (p.poke pa n v).moves = p.moves := rfl
@[simp] theorem Package.poke_homeAt (p : Package) (pa n v : Nat) : (p.poke pa n v).homeAt = p.homeAt := rfl
@[simp] theorem Package.poke_sys (p : Package) (pa n v : Nat) : (p.poke pa n v).sys = p.sys := rfl

/-! ### pokeBytes -/

@[simp] theorem Package.pokeBytes_phys (p : Package) (pa : Nat) (bs : List Byte) : (p.pokeBytes pa bs).phys = p.phys := rfl
@[simp] theorem Package.pokeBytes_now (p : Package) (pa : Nat) (bs : List Byte) : (p.pokeBytes pa bs).now = p.now := rfl
@[simp] theorem Package.pokeBytes_agenda (p : Package) (pa : Nat) (bs : List Byte) : (p.pokeBytes pa bs).agenda = p.agenda := rfl
@[simp] theorem Package.pokeBytes_inbox (p : Package) (pa : Nat) (bs : List Byte) : (p.pokeBytes pa bs).inbox = p.inbox := rfl
@[simp] theorem Package.pokeBytes_out (p : Package) (pa : Nat) (bs : List Byte) : (p.pokeBytes pa bs).out = p.out := rfl
@[simp] theorem Package.pokeBytes_sent (p : Package) (pa : Nat) (bs : List Byte) : (p.pokeBytes pa bs).sent = p.sent := rfl
@[simp] theorem Package.pokeBytes_draws (p : Package) (pa : Nat) (bs : List Byte) : (p.pokeBytes pa bs).draws = p.draws := rfl
@[simp] theorem Package.pokeBytes_picks (p : Package) (pa : Nat) (bs : List Byte) : (p.pokeBytes pa bs).picks = p.picks := rfl
@[simp] theorem Package.pokeBytes_nextId (p : Package) (pa : Nat) (bs : List Byte) : (p.pokeBytes pa bs).nextId = p.nextId := rfl
@[simp] theorem Package.pokeBytes_issue (p : Package) (pa : Nat) (bs : List Byte) : (p.pokeBytes pa bs).issue = p.issue := rfl
@[simp] theorem Package.pokeBytes_issued (p : Package) (pa : Nat) (bs : List Byte) : (p.pokeBytes pa bs).issued = p.issued := rfl
@[simp] theorem Package.pokeBytes_pipes (p : Package) (pa : Nat) (bs : List Byte) : (p.pokeBytes pa bs).pipes = p.pipes := rfl
@[simp] theorem Package.pokeBytes_freed (p : Package) (pa : Nat) (bs : List Byte) : (p.pokeBytes pa bs).freed = p.freed := rfl
@[simp] theorem Package.pokeBytes_teams (p : Package) (pa : Nat) (bs : List Byte) : (p.pokeBytes pa bs).teams = p.teams := rfl
@[simp] theorem Package.pokeBytes_gangs (p : Package) (pa : Nat) (bs : List Byte) : (p.pokeBytes pa bs).gangs = p.gangs := rfl
@[simp] theorem Package.pokeBytes_parts (p : Package) (pa : Nat) (bs : List Byte) : (p.pokeBytes pa bs).parts = p.parts := rfl
@[simp] theorem Package.pokeBytes_cores (p : Package) (pa : Nat) (bs : List Byte) : (p.pokeBytes pa bs).cores = p.cores := rfl
@[simp] theorem Package.pokeBytes_rounds (p : Package) (pa : Nat) (bs : List Byte) : (p.pokeBytes pa bs).rounds = p.rounds := rfl
@[simp] theorem Package.pokeBytes_sparse (p : Package) (pa : Nat) (bs : List Byte) : (p.pokeBytes pa bs).sparse = p.sparse := rfl
@[simp] theorem Package.pokeBytes_grids (p : Package) (pa : Nat) (bs : List Byte) : (p.pokeBytes pa bs).grids = p.grids := rfl
@[simp] theorem Package.pokeBytes_quays (p : Package) (pa : Nat) (bs : List Byte) : (p.pokeBytes pa bs).quays = p.quays := rfl
@[simp] theorem Package.pokeBytes_journal (p : Package) (pa : Nat) (bs : List Byte) : (p.pokeBytes pa bs).journal = p.journal := rfl
@[simp] theorem Package.pokeBytes_jobs (p : Package) (pa : Nat) (bs : List Byte) : (p.pokeBytes pa bs).jobs = p.jobs := rfl
@[simp] theorem Package.pokeBytes_accs (p : Package) (pa : Nat) (bs : List Byte) : (p.pokeBytes pa bs).accs = p.accs := rfl
@[simp] theorem Package.pokeBytes_writes (p : Package) (pa : Nat) (bs : List Byte) : (p.pokeBytes pa bs).writes = p.writes := rfl
@[simp] theorem Package.pokeBytes_lines (p : Package) (pa : Nat) (bs : List Byte) : (p.pokeBytes pa bs).lines = p.lines := rfl
@[simp] theorem Package.pokeBytes_horizons (p : Package) (pa : Nat) (bs : List Byte) : (p.pokeBytes pa bs).horizons = p.horizons := rfl
@[simp] theorem Package.pokeBytes_mem (p : Package) (pa : Nat) (bs : List Byte) : (p.pokeBytes pa bs).mem = putBytes p.mem pa bs := rfl
@[simp] theorem Package.pokeBytes_glabels (p : Package) (pa : Nat) (bs : List Byte) : (p.pokeBytes pa bs).glabels = p.glabels := rfl
@[simp] theorem Package.pokeBytes_bad (p : Package) (pa : Nat) (bs : List Byte) : (p.pokeBytes pa bs).bad = p.bad := rfl
@[simp] theorem Package.pokeBytes_owners (p : Package) (pa : Nat) (bs : List Byte) : (p.pokeBytes pa bs).owners = p.owners := rfl
@[simp] theorem Package.pokeBytes_banks (p : Package) (pa : Nat) (bs : List Byte) : (p.pokeBytes pa bs).banks = p.banks := rfl
@[simp] theorem Package.pokeBytes_layouts (p : Package) (pa : Nat) (bs : List Byte) : (p.pokeBytes pa bs).layouts = p.layouts := rfl
@[simp] theorem Package.pokeBytes_labels (p : Package) (pa : Nat) (bs : List Byte) : (p.pokeBytes pa bs).labels = p.labels := rfl
@[simp] theorem Package.pokeBytes_labelBase (p : Package) (pa : Nat) (bs : List Byte) : (p.pokeBytes pa bs).labelBase = p.labelBase := rfl
@[simp] theorem Package.pokeBytes_endorse (p : Package) (pa : Nat) (bs : List Byte) : (p.pokeBytes pa bs).endorse = p.endorse := rfl
@[simp] theorem Package.pokeBytes_worlds (p : Package) (pa : Nat) (bs : List Byte) : (p.pokeBytes pa bs).worlds = p.worlds := rfl
@[simp] theorem Package.pokeBytes_spaces (p : Package) (pa : Nat) (bs : List Byte) : (p.pokeBytes pa bs).spaces = p.spaces := rfl
@[simp] theorem Package.pokeBytes_shoots (p : Package) (pa : Nat) (bs : List Byte) : (p.pokeBytes pa bs).shoots = p.shoots := rfl
@[simp] theorem Package.pokeBytes_walks (p : Package) (pa : Nat) (bs : List Byte) : (p.pokeBytes pa bs).walks = p.walks := rfl
@[simp] theorem Package.pokeBytes_pods (p : Package) (pa : Nat) (bs : List Byte) : (p.pokeBytes pa bs).pods = p.pods := rfl
@[simp] theorem Package.pokeBytes_mans (p : Package) (pa : Nat) (bs : List Byte) : (p.pokeBytes pa bs).mans = p.mans := rfl
@[simp] theorem Package.pokeBytes_dels (p : Package) (pa : Nat) (bs : List Byte) : (p.pokeBytes pa bs).dels = p.dels := rfl
@[simp] theorem Package.pokeBytes_carveOut (p : Package) (pa : Nat) (bs : List Byte) : (p.pokeBytes pa bs).carveOut = p.carveOut := rfl
@[simp] theorem Package.pokeBytes_groups (p : Package) (pa : Nat) (bs : List Byte) : (p.pokeBytes pa bs).groups = p.groups := rfl
@[simp] theorem Package.pokeBytes_ports (p : Package) (pa : Nat) (bs : List Byte) : (p.pokeBytes pa bs).ports = p.ports := rfl
@[simp] theorem Package.pokeBytes_circuit (p : Package) (pa : Nat) (bs : List Byte) : (p.pokeBytes pa bs).circuit = p.circuit := rfl
@[simp] theorem Package.pokeBytes_migrate (p : Package) (pa : Nat) (bs : List Byte) : (p.pokeBytes pa bs).migrate = p.migrate := rfl
@[simp] theorem Package.pokeBytes_moves (p : Package) (pa : Nat) (bs : List Byte) : (p.pokeBytes pa bs).moves = p.moves := rfl
@[simp] theorem Package.pokeBytes_homeAt (p : Package) (pa : Nat) (bs : List Byte) : (p.pokeBytes pa bs).homeAt = p.homeAt := rfl
@[simp] theorem Package.pokeBytes_sys (p : Package) (pa : Nat) (bs : List Byte) : (p.pokeBytes pa bs).sys = p.sys := rfl

/-! ### send -/

@[simp] theorem Package.send_phys (p : Package) (d k : Nat) (m : Msg) : (p.send d k m).phys = p.phys := rfl
@[simp] theorem Package.send_now (p : Package) (d k : Nat) (m : Msg) : (p.send d k m).now = p.now := rfl
@[simp] theorem Package.send_agenda (p : Package) (d k : Nat) (m : Msg) : (p.send d k m).agenda = p.agenda := rfl
@[simp] theorem Package.send_inbox (p : Package) (d k : Nat) (m : Msg) : (p.send d k m).inbox = p.inbox := rfl
@[simp] theorem Package.send_sent (p : Package) (d k : Nat) (m : Msg) : (p.send d k m).sent = p.sent + 1 := rfl
@[simp] theorem Package.send_draws (p : Package) (d k : Nat) (m : Msg) : (p.send d k m).draws = p.draws := rfl
@[simp] theorem Package.send_picks (p : Package) (d k : Nat) (m : Msg) : (p.send d k m).picks = p.picks := rfl
@[simp] theorem Package.send_nextId (p : Package) (d k : Nat) (m : Msg) : (p.send d k m).nextId = p.nextId := rfl
@[simp] theorem Package.send_issue (p : Package) (d k : Nat) (m : Msg) : (p.send d k m).issue = p.issue := rfl
@[simp] theorem Package.send_issued (p : Package) (d k : Nat) (m : Msg) : (p.send d k m).issued = p.issued := rfl
@[simp] theorem Package.send_pipes (p : Package) (d k : Nat) (m : Msg) : (p.send d k m).pipes = p.pipes := rfl
@[simp] theorem Package.send_freed (p : Package) (d k : Nat) (m : Msg) : (p.send d k m).freed = p.freed := rfl
@[simp] theorem Package.send_teams (p : Package) (d k : Nat) (m : Msg) : (p.send d k m).teams = p.teams := rfl
@[simp] theorem Package.send_gangs (p : Package) (d k : Nat) (m : Msg) : (p.send d k m).gangs = p.gangs := rfl
@[simp] theorem Package.send_parts (p : Package) (d k : Nat) (m : Msg) : (p.send d k m).parts = p.parts := rfl
@[simp] theorem Package.send_cores (p : Package) (d k : Nat) (m : Msg) : (p.send d k m).cores = p.cores := rfl
@[simp] theorem Package.send_rounds (p : Package) (d k : Nat) (m : Msg) : (p.send d k m).rounds = p.rounds := rfl
@[simp] theorem Package.send_sparse (p : Package) (d k : Nat) (m : Msg) : (p.send d k m).sparse = p.sparse := rfl
@[simp] theorem Package.send_grids (p : Package) (d k : Nat) (m : Msg) : (p.send d k m).grids = p.grids := rfl
@[simp] theorem Package.send_quays (p : Package) (d k : Nat) (m : Msg) : (p.send d k m).quays = p.quays := rfl
@[simp] theorem Package.send_journal (p : Package) (d k : Nat) (m : Msg) : (p.send d k m).journal = p.journal := rfl
@[simp] theorem Package.send_jobs (p : Package) (d k : Nat) (m : Msg) : (p.send d k m).jobs = p.jobs := rfl
@[simp] theorem Package.send_accs (p : Package) (d k : Nat) (m : Msg) : (p.send d k m).accs = p.accs := rfl
@[simp] theorem Package.send_writes (p : Package) (d k : Nat) (m : Msg) : (p.send d k m).writes = p.writes := rfl
@[simp] theorem Package.send_lines (p : Package) (d k : Nat) (m : Msg) : (p.send d k m).lines = p.lines := rfl
@[simp] theorem Package.send_horizons (p : Package) (d k : Nat) (m : Msg) : (p.send d k m).horizons = p.horizons := rfl
@[simp] theorem Package.send_mem (p : Package) (d k : Nat) (m : Msg) : (p.send d k m).mem = p.mem := rfl
@[simp] theorem Package.send_glabels (p : Package) (d k : Nat) (m : Msg) : (p.send d k m).glabels = p.glabels := rfl
@[simp] theorem Package.send_epochs (p : Package) (d k : Nat) (m : Msg) : (p.send d k m).epochs = p.epochs := rfl
@[simp] theorem Package.send_bad (p : Package) (d k : Nat) (m : Msg) : (p.send d k m).bad = p.bad := rfl
@[simp] theorem Package.send_owners (p : Package) (d k : Nat) (m : Msg) : (p.send d k m).owners = p.owners := rfl
@[simp] theorem Package.send_code (p : Package) (d k : Nat) (m : Msg) : (p.send d k m).code = p.code := rfl
@[simp] theorem Package.send_banks (p : Package) (d k : Nat) (m : Msg) : (p.send d k m).banks = p.banks := rfl
@[simp] theorem Package.send_layouts (p : Package) (d k : Nat) (m : Msg) : (p.send d k m).layouts = p.layouts := rfl
@[simp] theorem Package.send_labels (p : Package) (d k : Nat) (m : Msg) : (p.send d k m).labels = p.labels := rfl
@[simp] theorem Package.send_labelBase (p : Package) (d k : Nat) (m : Msg) : (p.send d k m).labelBase = p.labelBase := rfl
@[simp] theorem Package.send_endorse (p : Package) (d k : Nat) (m : Msg) : (p.send d k m).endorse = p.endorse := rfl
@[simp] theorem Package.send_worlds (p : Package) (d k : Nat) (m : Msg) : (p.send d k m).worlds = p.worlds := rfl
@[simp] theorem Package.send_spaces (p : Package) (d k : Nat) (m : Msg) : (p.send d k m).spaces = p.spaces := rfl
@[simp] theorem Package.send_shoots (p : Package) (d k : Nat) (m : Msg) : (p.send d k m).shoots = p.shoots := rfl
@[simp] theorem Package.send_walks (p : Package) (d k : Nat) (m : Msg) : (p.send d k m).walks = p.walks := rfl
@[simp] theorem Package.send_pods (p : Package) (d k : Nat) (m : Msg) : (p.send d k m).pods = p.pods := rfl
@[simp] theorem Package.send_mans (p : Package) (d k : Nat) (m : Msg) : (p.send d k m).mans = p.mans := rfl
@[simp] theorem Package.send_dels (p : Package) (d k : Nat) (m : Msg) : (p.send d k m).dels = p.dels := rfl
@[simp] theorem Package.send_carveOut (p : Package) (d k : Nat) (m : Msg) : (p.send d k m).carveOut = p.carveOut := rfl
@[simp] theorem Package.send_groups (p : Package) (d k : Nat) (m : Msg) : (p.send d k m).groups = p.groups := rfl
@[simp] theorem Package.send_ports (p : Package) (d k : Nat) (m : Msg) : (p.send d k m).ports = p.ports := rfl
@[simp] theorem Package.send_circuit (p : Package) (d k : Nat) (m : Msg) : (p.send d k m).circuit = p.circuit := rfl
@[simp] theorem Package.send_migrate (p : Package) (d k : Nat) (m : Msg) : (p.send d k m).migrate = p.migrate := rfl
@[simp] theorem Package.send_moves (p : Package) (d k : Nat) (m : Msg) : (p.send d k m).moves = p.moves := rfl
@[simp] theorem Package.send_homeAt (p : Package) (d k : Nat) (m : Msg) : (p.send d k m).homeAt = p.homeAt := rfl
@[simp] theorem Package.send_sys (p : Package) (d k : Nat) (m : Msg) : (p.send d k m).sys = p.sys := rfl

/-! ### setAcc -/

@[simp] theorem Package.setAcc_phys (p : Package) (k : Nat) (f : Acc → Acc) : (p.setAcc k f).phys = p.phys := rfl
@[simp] theorem Package.setAcc_now (p : Package) (k : Nat) (f : Acc → Acc) : (p.setAcc k f).now = p.now := rfl
@[simp] theorem Package.setAcc_agenda (p : Package) (k : Nat) (f : Acc → Acc) : (p.setAcc k f).agenda = p.agenda := rfl
@[simp] theorem Package.setAcc_inbox (p : Package) (k : Nat) (f : Acc → Acc) : (p.setAcc k f).inbox = p.inbox := rfl
@[simp] theorem Package.setAcc_out (p : Package) (k : Nat) (f : Acc → Acc) : (p.setAcc k f).out = p.out := rfl
@[simp] theorem Package.setAcc_sent (p : Package) (k : Nat) (f : Acc → Acc) : (p.setAcc k f).sent = p.sent := rfl
@[simp] theorem Package.setAcc_draws (p : Package) (k : Nat) (f : Acc → Acc) : (p.setAcc k f).draws = p.draws := rfl
@[simp] theorem Package.setAcc_picks (p : Package) (k : Nat) (f : Acc → Acc) : (p.setAcc k f).picks = p.picks := rfl
@[simp] theorem Package.setAcc_nextId (p : Package) (k : Nat) (f : Acc → Acc) : (p.setAcc k f).nextId = p.nextId := rfl
@[simp] theorem Package.setAcc_issue (p : Package) (k : Nat) (f : Acc → Acc) : (p.setAcc k f).issue = p.issue := rfl
@[simp] theorem Package.setAcc_issued (p : Package) (k : Nat) (f : Acc → Acc) : (p.setAcc k f).issued = p.issued := rfl
@[simp] theorem Package.setAcc_pipes (p : Package) (k : Nat) (f : Acc → Acc) : (p.setAcc k f).pipes = p.pipes := rfl
@[simp] theorem Package.setAcc_freed (p : Package) (k : Nat) (f : Acc → Acc) : (p.setAcc k f).freed = p.freed := rfl
@[simp] theorem Package.setAcc_teams (p : Package) (k : Nat) (f : Acc → Acc) : (p.setAcc k f).teams = p.teams := rfl
@[simp] theorem Package.setAcc_gangs (p : Package) (k : Nat) (f : Acc → Acc) : (p.setAcc k f).gangs = p.gangs := rfl
@[simp] theorem Package.setAcc_parts (p : Package) (k : Nat) (f : Acc → Acc) : (p.setAcc k f).parts = p.parts := rfl
@[simp] theorem Package.setAcc_cores (p : Package) (k : Nat) (f : Acc → Acc) : (p.setAcc k f).cores = p.cores := rfl
@[simp] theorem Package.setAcc_rounds (p : Package) (k : Nat) (f : Acc → Acc) : (p.setAcc k f).rounds = p.rounds := rfl
@[simp] theorem Package.setAcc_sparse (p : Package) (k : Nat) (f : Acc → Acc) : (p.setAcc k f).sparse = p.sparse := rfl
@[simp] theorem Package.setAcc_grids (p : Package) (k : Nat) (f : Acc → Acc) : (p.setAcc k f).grids = p.grids := rfl
@[simp] theorem Package.setAcc_quays (p : Package) (k : Nat) (f : Acc → Acc) : (p.setAcc k f).quays = p.quays := rfl
@[simp] theorem Package.setAcc_journal (p : Package) (k : Nat) (f : Acc → Acc) : (p.setAcc k f).journal = p.journal := rfl
@[simp] theorem Package.setAcc_jobs (p : Package) (k : Nat) (f : Acc → Acc) : (p.setAcc k f).jobs = p.jobs := rfl
@[simp] theorem Package.setAcc_accs (p : Package) (k : Nat) (f : Acc → Acc) : (p.setAcc k f).accs = mapIf (fun a => a.id == k) f p.accs := rfl
@[simp] theorem Package.setAcc_writes (p : Package) (k : Nat) (f : Acc → Acc) : (p.setAcc k f).writes = p.writes := rfl
@[simp] theorem Package.setAcc_lines (p : Package) (k : Nat) (f : Acc → Acc) : (p.setAcc k f).lines = p.lines := rfl
@[simp] theorem Package.setAcc_horizons (p : Package) (k : Nat) (f : Acc → Acc) : (p.setAcc k f).horizons = p.horizons := rfl
@[simp] theorem Package.setAcc_mem (p : Package) (k : Nat) (f : Acc → Acc) : (p.setAcc k f).mem = p.mem := rfl
@[simp] theorem Package.setAcc_glabels (p : Package) (k : Nat) (f : Acc → Acc) : (p.setAcc k f).glabels = p.glabels := rfl
@[simp] theorem Package.setAcc_epochs (p : Package) (k : Nat) (f : Acc → Acc) : (p.setAcc k f).epochs = p.epochs := rfl
@[simp] theorem Package.setAcc_bad (p : Package) (k : Nat) (f : Acc → Acc) : (p.setAcc k f).bad = p.bad := rfl
@[simp] theorem Package.setAcc_owners (p : Package) (k : Nat) (f : Acc → Acc) : (p.setAcc k f).owners = p.owners := rfl
@[simp] theorem Package.setAcc_code (p : Package) (k : Nat) (f : Acc → Acc) : (p.setAcc k f).code = p.code := rfl
@[simp] theorem Package.setAcc_banks (p : Package) (k : Nat) (f : Acc → Acc) : (p.setAcc k f).banks = p.banks := rfl
@[simp] theorem Package.setAcc_layouts (p : Package) (k : Nat) (f : Acc → Acc) : (p.setAcc k f).layouts = p.layouts := rfl
@[simp] theorem Package.setAcc_labels (p : Package) (k : Nat) (f : Acc → Acc) : (p.setAcc k f).labels = p.labels := rfl
@[simp] theorem Package.setAcc_labelBase (p : Package) (k : Nat) (f : Acc → Acc) : (p.setAcc k f).labelBase = p.labelBase := rfl
@[simp] theorem Package.setAcc_endorse (p : Package) (k : Nat) (f : Acc → Acc) : (p.setAcc k f).endorse = p.endorse := rfl
@[simp] theorem Package.setAcc_worlds (p : Package) (k : Nat) (f : Acc → Acc) : (p.setAcc k f).worlds = p.worlds := rfl
@[simp] theorem Package.setAcc_spaces (p : Package) (k : Nat) (f : Acc → Acc) : (p.setAcc k f).spaces = p.spaces := rfl
@[simp] theorem Package.setAcc_shoots (p : Package) (k : Nat) (f : Acc → Acc) : (p.setAcc k f).shoots = p.shoots := rfl
@[simp] theorem Package.setAcc_walks (p : Package) (k : Nat) (f : Acc → Acc) : (p.setAcc k f).walks = p.walks := rfl
@[simp] theorem Package.setAcc_pods (p : Package) (k : Nat) (f : Acc → Acc) : (p.setAcc k f).pods = p.pods := rfl
@[simp] theorem Package.setAcc_mans (p : Package) (k : Nat) (f : Acc → Acc) : (p.setAcc k f).mans = p.mans := rfl
@[simp] theorem Package.setAcc_dels (p : Package) (k : Nat) (f : Acc → Acc) : (p.setAcc k f).dels = p.dels := rfl
@[simp] theorem Package.setAcc_carveOut (p : Package) (k : Nat) (f : Acc → Acc) : (p.setAcc k f).carveOut = p.carveOut := rfl
@[simp] theorem Package.setAcc_groups (p : Package) (k : Nat) (f : Acc → Acc) : (p.setAcc k f).groups = p.groups := rfl
@[simp] theorem Package.setAcc_ports (p : Package) (k : Nat) (f : Acc → Acc) : (p.setAcc k f).ports = p.ports := rfl
@[simp] theorem Package.setAcc_circuit (p : Package) (k : Nat) (f : Acc → Acc) : (p.setAcc k f).circuit = p.circuit := rfl
@[simp] theorem Package.setAcc_migrate (p : Package) (k : Nat) (f : Acc → Acc) : (p.setAcc k f).migrate = p.migrate := rfl
@[simp] theorem Package.setAcc_moves (p : Package) (k : Nat) (f : Acc → Acc) : (p.setAcc k f).moves = p.moves := rfl
@[simp] theorem Package.setAcc_homeAt (p : Package) (k : Nat) (f : Acc → Acc) : (p.setAcc k f).homeAt = p.homeAt := rfl
@[simp] theorem Package.setAcc_sys (p : Package) (k : Nat) (f : Acc → Acc) : (p.setAcc k f).sys = p.sys := rfl

/-! ### setRound -/

@[simp] theorem Package.setRound_phys (p : Package) (k : Nat) (f : Round → Round) : (p.setRound k f).phys = p.phys := rfl
@[simp] theorem Package.setRound_now (p : Package) (k : Nat) (f : Round → Round) : (p.setRound k f).now = p.now := rfl
@[simp] theorem Package.setRound_agenda (p : Package) (k : Nat) (f : Round → Round) : (p.setRound k f).agenda = p.agenda := rfl
@[simp] theorem Package.setRound_inbox (p : Package) (k : Nat) (f : Round → Round) : (p.setRound k f).inbox = p.inbox := rfl
@[simp] theorem Package.setRound_out (p : Package) (k : Nat) (f : Round → Round) : (p.setRound k f).out = p.out := rfl
@[simp] theorem Package.setRound_sent (p : Package) (k : Nat) (f : Round → Round) : (p.setRound k f).sent = p.sent := rfl
@[simp] theorem Package.setRound_draws (p : Package) (k : Nat) (f : Round → Round) : (p.setRound k f).draws = p.draws := rfl
@[simp] theorem Package.setRound_picks (p : Package) (k : Nat) (f : Round → Round) : (p.setRound k f).picks = p.picks := rfl
@[simp] theorem Package.setRound_nextId (p : Package) (k : Nat) (f : Round → Round) : (p.setRound k f).nextId = p.nextId := rfl
@[simp] theorem Package.setRound_issue (p : Package) (k : Nat) (f : Round → Round) : (p.setRound k f).issue = p.issue := rfl
@[simp] theorem Package.setRound_issued (p : Package) (k : Nat) (f : Round → Round) : (p.setRound k f).issued = p.issued := rfl
@[simp] theorem Package.setRound_pipes (p : Package) (k : Nat) (f : Round → Round) : (p.setRound k f).pipes = p.pipes := rfl
@[simp] theorem Package.setRound_freed (p : Package) (k : Nat) (f : Round → Round) : (p.setRound k f).freed = p.freed := rfl
@[simp] theorem Package.setRound_teams (p : Package) (k : Nat) (f : Round → Round) : (p.setRound k f).teams = p.teams := rfl
@[simp] theorem Package.setRound_gangs (p : Package) (k : Nat) (f : Round → Round) : (p.setRound k f).gangs = p.gangs := rfl
@[simp] theorem Package.setRound_parts (p : Package) (k : Nat) (f : Round → Round) : (p.setRound k f).parts = p.parts := rfl
@[simp] theorem Package.setRound_cores (p : Package) (k : Nat) (f : Round → Round) : (p.setRound k f).cores = p.cores := rfl
@[simp] theorem Package.setRound_rounds (p : Package) (k : Nat) (f : Round → Round) : (p.setRound k f).rounds = mapIf (fun r => r.id == k) f p.rounds := rfl
@[simp] theorem Package.setRound_sparse (p : Package) (k : Nat) (f : Round → Round) : (p.setRound k f).sparse = p.sparse := rfl
@[simp] theorem Package.setRound_grids (p : Package) (k : Nat) (f : Round → Round) : (p.setRound k f).grids = p.grids := rfl
@[simp] theorem Package.setRound_quays (p : Package) (k : Nat) (f : Round → Round) : (p.setRound k f).quays = p.quays := rfl
@[simp] theorem Package.setRound_journal (p : Package) (k : Nat) (f : Round → Round) : (p.setRound k f).journal = p.journal := rfl
@[simp] theorem Package.setRound_jobs (p : Package) (k : Nat) (f : Round → Round) : (p.setRound k f).jobs = p.jobs := rfl
@[simp] theorem Package.setRound_accs (p : Package) (k : Nat) (f : Round → Round) : (p.setRound k f).accs = p.accs := rfl
@[simp] theorem Package.setRound_writes (p : Package) (k : Nat) (f : Round → Round) : (p.setRound k f).writes = p.writes := rfl
@[simp] theorem Package.setRound_lines (p : Package) (k : Nat) (f : Round → Round) : (p.setRound k f).lines = p.lines := rfl
@[simp] theorem Package.setRound_horizons (p : Package) (k : Nat) (f : Round → Round) : (p.setRound k f).horizons = p.horizons := rfl
@[simp] theorem Package.setRound_mem (p : Package) (k : Nat) (f : Round → Round) : (p.setRound k f).mem = p.mem := rfl
@[simp] theorem Package.setRound_glabels (p : Package) (k : Nat) (f : Round → Round) : (p.setRound k f).glabels = p.glabels := rfl
@[simp] theorem Package.setRound_epochs (p : Package) (k : Nat) (f : Round → Round) : (p.setRound k f).epochs = p.epochs := rfl
@[simp] theorem Package.setRound_bad (p : Package) (k : Nat) (f : Round → Round) : (p.setRound k f).bad = p.bad := rfl
@[simp] theorem Package.setRound_owners (p : Package) (k : Nat) (f : Round → Round) : (p.setRound k f).owners = p.owners := rfl
@[simp] theorem Package.setRound_code (p : Package) (k : Nat) (f : Round → Round) : (p.setRound k f).code = p.code := rfl
@[simp] theorem Package.setRound_banks (p : Package) (k : Nat) (f : Round → Round) : (p.setRound k f).banks = p.banks := rfl
@[simp] theorem Package.setRound_layouts (p : Package) (k : Nat) (f : Round → Round) : (p.setRound k f).layouts = p.layouts := rfl
@[simp] theorem Package.setRound_labels (p : Package) (k : Nat) (f : Round → Round) : (p.setRound k f).labels = p.labels := rfl
@[simp] theorem Package.setRound_labelBase (p : Package) (k : Nat) (f : Round → Round) : (p.setRound k f).labelBase = p.labelBase := rfl
@[simp] theorem Package.setRound_endorse (p : Package) (k : Nat) (f : Round → Round) : (p.setRound k f).endorse = p.endorse := rfl
@[simp] theorem Package.setRound_worlds (p : Package) (k : Nat) (f : Round → Round) : (p.setRound k f).worlds = p.worlds := rfl
@[simp] theorem Package.setRound_spaces (p : Package) (k : Nat) (f : Round → Round) : (p.setRound k f).spaces = p.spaces := rfl
@[simp] theorem Package.setRound_shoots (p : Package) (k : Nat) (f : Round → Round) : (p.setRound k f).shoots = p.shoots := rfl
@[simp] theorem Package.setRound_walks (p : Package) (k : Nat) (f : Round → Round) : (p.setRound k f).walks = p.walks := rfl
@[simp] theorem Package.setRound_pods (p : Package) (k : Nat) (f : Round → Round) : (p.setRound k f).pods = p.pods := rfl
@[simp] theorem Package.setRound_mans (p : Package) (k : Nat) (f : Round → Round) : (p.setRound k f).mans = p.mans := rfl
@[simp] theorem Package.setRound_dels (p : Package) (k : Nat) (f : Round → Round) : (p.setRound k f).dels = p.dels := rfl
@[simp] theorem Package.setRound_carveOut (p : Package) (k : Nat) (f : Round → Round) : (p.setRound k f).carveOut = p.carveOut := rfl
@[simp] theorem Package.setRound_groups (p : Package) (k : Nat) (f : Round → Round) : (p.setRound k f).groups = p.groups := rfl
@[simp] theorem Package.setRound_ports (p : Package) (k : Nat) (f : Round → Round) : (p.setRound k f).ports = p.ports := rfl
@[simp] theorem Package.setRound_circuit (p : Package) (k : Nat) (f : Round → Round) : (p.setRound k f).circuit = p.circuit := rfl
@[simp] theorem Package.setRound_migrate (p : Package) (k : Nat) (f : Round → Round) : (p.setRound k f).migrate = p.migrate := rfl
@[simp] theorem Package.setRound_moves (p : Package) (k : Nat) (f : Round → Round) : (p.setRound k f).moves = p.moves := rfl
@[simp] theorem Package.setRound_homeAt (p : Package) (k : Nat) (f : Round → Round) : (p.setRound k f).homeAt = p.homeAt := rfl
@[simp] theorem Package.setRound_sys (p : Package) (k : Nat) (f : Round → Round) : (p.setRound k f).sys = p.sys := rfl

/-! ### setJob -/

@[simp] theorem Package.setJob_phys (p : Package) (k : Nat) (f : Job → Job) : (p.setJob k f).phys = p.phys := rfl
@[simp] theorem Package.setJob_now (p : Package) (k : Nat) (f : Job → Job) : (p.setJob k f).now = p.now := rfl
@[simp] theorem Package.setJob_agenda (p : Package) (k : Nat) (f : Job → Job) : (p.setJob k f).agenda = p.agenda := rfl
@[simp] theorem Package.setJob_inbox (p : Package) (k : Nat) (f : Job → Job) : (p.setJob k f).inbox = p.inbox := rfl
@[simp] theorem Package.setJob_out (p : Package) (k : Nat) (f : Job → Job) : (p.setJob k f).out = p.out := rfl
@[simp] theorem Package.setJob_sent (p : Package) (k : Nat) (f : Job → Job) : (p.setJob k f).sent = p.sent := rfl
@[simp] theorem Package.setJob_draws (p : Package) (k : Nat) (f : Job → Job) : (p.setJob k f).draws = p.draws := rfl
@[simp] theorem Package.setJob_picks (p : Package) (k : Nat) (f : Job → Job) : (p.setJob k f).picks = p.picks := rfl
@[simp] theorem Package.setJob_nextId (p : Package) (k : Nat) (f : Job → Job) : (p.setJob k f).nextId = p.nextId := rfl
@[simp] theorem Package.setJob_issue (p : Package) (k : Nat) (f : Job → Job) : (p.setJob k f).issue = p.issue := rfl
@[simp] theorem Package.setJob_issued (p : Package) (k : Nat) (f : Job → Job) : (p.setJob k f).issued = p.issued := rfl
@[simp] theorem Package.setJob_pipes (p : Package) (k : Nat) (f : Job → Job) : (p.setJob k f).pipes = p.pipes := rfl
@[simp] theorem Package.setJob_freed (p : Package) (k : Nat) (f : Job → Job) : (p.setJob k f).freed = p.freed := rfl
@[simp] theorem Package.setJob_teams (p : Package) (k : Nat) (f : Job → Job) : (p.setJob k f).teams = p.teams := rfl
@[simp] theorem Package.setJob_gangs (p : Package) (k : Nat) (f : Job → Job) : (p.setJob k f).gangs = p.gangs := rfl
@[simp] theorem Package.setJob_parts (p : Package) (k : Nat) (f : Job → Job) : (p.setJob k f).parts = p.parts := rfl
@[simp] theorem Package.setJob_cores (p : Package) (k : Nat) (f : Job → Job) : (p.setJob k f).cores = p.cores := rfl
@[simp] theorem Package.setJob_rounds (p : Package) (k : Nat) (f : Job → Job) : (p.setJob k f).rounds = p.rounds := rfl
@[simp] theorem Package.setJob_sparse (p : Package) (k : Nat) (f : Job → Job) : (p.setJob k f).sparse = p.sparse := rfl
@[simp] theorem Package.setJob_grids (p : Package) (k : Nat) (f : Job → Job) : (p.setJob k f).grids = p.grids := rfl
@[simp] theorem Package.setJob_quays (p : Package) (k : Nat) (f : Job → Job) : (p.setJob k f).quays = p.quays := rfl
@[simp] theorem Package.setJob_journal (p : Package) (k : Nat) (f : Job → Job) : (p.setJob k f).journal = p.journal := rfl
@[simp] theorem Package.setJob_jobs (p : Package) (k : Nat) (f : Job → Job) : (p.setJob k f).jobs = mapIf (fun j => j.id == k) f p.jobs := rfl
@[simp] theorem Package.setJob_accs (p : Package) (k : Nat) (f : Job → Job) : (p.setJob k f).accs = p.accs := rfl
@[simp] theorem Package.setJob_writes (p : Package) (k : Nat) (f : Job → Job) : (p.setJob k f).writes = p.writes := rfl
@[simp] theorem Package.setJob_lines (p : Package) (k : Nat) (f : Job → Job) : (p.setJob k f).lines = p.lines := rfl
@[simp] theorem Package.setJob_horizons (p : Package) (k : Nat) (f : Job → Job) : (p.setJob k f).horizons = p.horizons := rfl
@[simp] theorem Package.setJob_mem (p : Package) (k : Nat) (f : Job → Job) : (p.setJob k f).mem = p.mem := rfl
@[simp] theorem Package.setJob_glabels (p : Package) (k : Nat) (f : Job → Job) : (p.setJob k f).glabels = p.glabels := rfl
@[simp] theorem Package.setJob_epochs (p : Package) (k : Nat) (f : Job → Job) : (p.setJob k f).epochs = p.epochs := rfl
@[simp] theorem Package.setJob_bad (p : Package) (k : Nat) (f : Job → Job) : (p.setJob k f).bad = p.bad := rfl
@[simp] theorem Package.setJob_owners (p : Package) (k : Nat) (f : Job → Job) : (p.setJob k f).owners = p.owners := rfl
@[simp] theorem Package.setJob_code (p : Package) (k : Nat) (f : Job → Job) : (p.setJob k f).code = p.code := rfl
@[simp] theorem Package.setJob_banks (p : Package) (k : Nat) (f : Job → Job) : (p.setJob k f).banks = p.banks := rfl
@[simp] theorem Package.setJob_layouts (p : Package) (k : Nat) (f : Job → Job) : (p.setJob k f).layouts = p.layouts := rfl
@[simp] theorem Package.setJob_labels (p : Package) (k : Nat) (f : Job → Job) : (p.setJob k f).labels = p.labels := rfl
@[simp] theorem Package.setJob_labelBase (p : Package) (k : Nat) (f : Job → Job) : (p.setJob k f).labelBase = p.labelBase := rfl
@[simp] theorem Package.setJob_endorse (p : Package) (k : Nat) (f : Job → Job) : (p.setJob k f).endorse = p.endorse := rfl
@[simp] theorem Package.setJob_worlds (p : Package) (k : Nat) (f : Job → Job) : (p.setJob k f).worlds = p.worlds := rfl
@[simp] theorem Package.setJob_spaces (p : Package) (k : Nat) (f : Job → Job) : (p.setJob k f).spaces = p.spaces := rfl
@[simp] theorem Package.setJob_shoots (p : Package) (k : Nat) (f : Job → Job) : (p.setJob k f).shoots = p.shoots := rfl
@[simp] theorem Package.setJob_walks (p : Package) (k : Nat) (f : Job → Job) : (p.setJob k f).walks = p.walks := rfl
@[simp] theorem Package.setJob_pods (p : Package) (k : Nat) (f : Job → Job) : (p.setJob k f).pods = p.pods := rfl
@[simp] theorem Package.setJob_mans (p : Package) (k : Nat) (f : Job → Job) : (p.setJob k f).mans = p.mans := rfl
@[simp] theorem Package.setJob_dels (p : Package) (k : Nat) (f : Job → Job) : (p.setJob k f).dels = p.dels := rfl
@[simp] theorem Package.setJob_carveOut (p : Package) (k : Nat) (f : Job → Job) : (p.setJob k f).carveOut = p.carveOut := rfl
@[simp] theorem Package.setJob_groups (p : Package) (k : Nat) (f : Job → Job) : (p.setJob k f).groups = p.groups := rfl
@[simp] theorem Package.setJob_ports (p : Package) (k : Nat) (f : Job → Job) : (p.setJob k f).ports = p.ports := rfl
@[simp] theorem Package.setJob_circuit (p : Package) (k : Nat) (f : Job → Job) : (p.setJob k f).circuit = p.circuit := rfl
@[simp] theorem Package.setJob_migrate (p : Package) (k : Nat) (f : Job → Job) : (p.setJob k f).migrate = p.migrate := rfl
@[simp] theorem Package.setJob_moves (p : Package) (k : Nat) (f : Job → Job) : (p.setJob k f).moves = p.moves := rfl
@[simp] theorem Package.setJob_homeAt (p : Package) (k : Nat) (f : Job → Job) : (p.setJob k f).homeAt = p.homeAt := rfl
@[simp] theorem Package.setJob_sys (p : Package) (k : Nat) (f : Job → Job) : (p.setJob k f).sys = p.sys := rfl

/-! ### setGrid -/

@[simp] theorem Package.setGrid_phys (p : Package) (k : Nat) (f : Grid → Grid) : (p.setGrid k f).phys = p.phys := rfl
@[simp] theorem Package.setGrid_now (p : Package) (k : Nat) (f : Grid → Grid) : (p.setGrid k f).now = p.now := rfl
@[simp] theorem Package.setGrid_agenda (p : Package) (k : Nat) (f : Grid → Grid) : (p.setGrid k f).agenda = p.agenda := rfl
@[simp] theorem Package.setGrid_inbox (p : Package) (k : Nat) (f : Grid → Grid) : (p.setGrid k f).inbox = p.inbox := rfl
@[simp] theorem Package.setGrid_out (p : Package) (k : Nat) (f : Grid → Grid) : (p.setGrid k f).out = p.out := rfl
@[simp] theorem Package.setGrid_sent (p : Package) (k : Nat) (f : Grid → Grid) : (p.setGrid k f).sent = p.sent := rfl
@[simp] theorem Package.setGrid_draws (p : Package) (k : Nat) (f : Grid → Grid) : (p.setGrid k f).draws = p.draws := rfl
@[simp] theorem Package.setGrid_picks (p : Package) (k : Nat) (f : Grid → Grid) : (p.setGrid k f).picks = p.picks := rfl
@[simp] theorem Package.setGrid_nextId (p : Package) (k : Nat) (f : Grid → Grid) : (p.setGrid k f).nextId = p.nextId := rfl
@[simp] theorem Package.setGrid_issue (p : Package) (k : Nat) (f : Grid → Grid) : (p.setGrid k f).issue = p.issue := rfl
@[simp] theorem Package.setGrid_issued (p : Package) (k : Nat) (f : Grid → Grid) : (p.setGrid k f).issued = p.issued := rfl
@[simp] theorem Package.setGrid_pipes (p : Package) (k : Nat) (f : Grid → Grid) : (p.setGrid k f).pipes = p.pipes := rfl
@[simp] theorem Package.setGrid_freed (p : Package) (k : Nat) (f : Grid → Grid) : (p.setGrid k f).freed = p.freed := rfl
@[simp] theorem Package.setGrid_teams (p : Package) (k : Nat) (f : Grid → Grid) : (p.setGrid k f).teams = p.teams := rfl
@[simp] theorem Package.setGrid_gangs (p : Package) (k : Nat) (f : Grid → Grid) : (p.setGrid k f).gangs = p.gangs := rfl
@[simp] theorem Package.setGrid_parts (p : Package) (k : Nat) (f : Grid → Grid) : (p.setGrid k f).parts = p.parts := rfl
@[simp] theorem Package.setGrid_cores (p : Package) (k : Nat) (f : Grid → Grid) : (p.setGrid k f).cores = p.cores := rfl
@[simp] theorem Package.setGrid_rounds (p : Package) (k : Nat) (f : Grid → Grid) : (p.setGrid k f).rounds = p.rounds := rfl
@[simp] theorem Package.setGrid_sparse (p : Package) (k : Nat) (f : Grid → Grid) : (p.setGrid k f).sparse = p.sparse := rfl
@[simp] theorem Package.setGrid_grids (p : Package) (k : Nat) (f : Grid → Grid) : (p.setGrid k f).grids = mapIf (fun x => x.id == k) f p.grids := rfl
@[simp] theorem Package.setGrid_quays (p : Package) (k : Nat) (f : Grid → Grid) : (p.setGrid k f).quays = p.quays := rfl
@[simp] theorem Package.setGrid_journal (p : Package) (k : Nat) (f : Grid → Grid) : (p.setGrid k f).journal = p.journal := rfl
@[simp] theorem Package.setGrid_jobs (p : Package) (k : Nat) (f : Grid → Grid) : (p.setGrid k f).jobs = p.jobs := rfl
@[simp] theorem Package.setGrid_accs (p : Package) (k : Nat) (f : Grid → Grid) : (p.setGrid k f).accs = p.accs := rfl
@[simp] theorem Package.setGrid_writes (p : Package) (k : Nat) (f : Grid → Grid) : (p.setGrid k f).writes = p.writes := rfl
@[simp] theorem Package.setGrid_lines (p : Package) (k : Nat) (f : Grid → Grid) : (p.setGrid k f).lines = p.lines := rfl
@[simp] theorem Package.setGrid_horizons (p : Package) (k : Nat) (f : Grid → Grid) : (p.setGrid k f).horizons = p.horizons := rfl
@[simp] theorem Package.setGrid_mem (p : Package) (k : Nat) (f : Grid → Grid) : (p.setGrid k f).mem = p.mem := rfl
@[simp] theorem Package.setGrid_glabels (p : Package) (k : Nat) (f : Grid → Grid) : (p.setGrid k f).glabels = p.glabels := rfl
@[simp] theorem Package.setGrid_epochs (p : Package) (k : Nat) (f : Grid → Grid) : (p.setGrid k f).epochs = p.epochs := rfl
@[simp] theorem Package.setGrid_bad (p : Package) (k : Nat) (f : Grid → Grid) : (p.setGrid k f).bad = p.bad := rfl
@[simp] theorem Package.setGrid_owners (p : Package) (k : Nat) (f : Grid → Grid) : (p.setGrid k f).owners = p.owners := rfl
@[simp] theorem Package.setGrid_code (p : Package) (k : Nat) (f : Grid → Grid) : (p.setGrid k f).code = p.code := rfl
@[simp] theorem Package.setGrid_banks (p : Package) (k : Nat) (f : Grid → Grid) : (p.setGrid k f).banks = p.banks := rfl
@[simp] theorem Package.setGrid_layouts (p : Package) (k : Nat) (f : Grid → Grid) : (p.setGrid k f).layouts = p.layouts := rfl
@[simp] theorem Package.setGrid_labels (p : Package) (k : Nat) (f : Grid → Grid) : (p.setGrid k f).labels = p.labels := rfl
@[simp] theorem Package.setGrid_labelBase (p : Package) (k : Nat) (f : Grid → Grid) : (p.setGrid k f).labelBase = p.labelBase := rfl
@[simp] theorem Package.setGrid_endorse (p : Package) (k : Nat) (f : Grid → Grid) : (p.setGrid k f).endorse = p.endorse := rfl
@[simp] theorem Package.setGrid_worlds (p : Package) (k : Nat) (f : Grid → Grid) : (p.setGrid k f).worlds = p.worlds := rfl
@[simp] theorem Package.setGrid_spaces (p : Package) (k : Nat) (f : Grid → Grid) : (p.setGrid k f).spaces = p.spaces := rfl
@[simp] theorem Package.setGrid_shoots (p : Package) (k : Nat) (f : Grid → Grid) : (p.setGrid k f).shoots = p.shoots := rfl
@[simp] theorem Package.setGrid_walks (p : Package) (k : Nat) (f : Grid → Grid) : (p.setGrid k f).walks = p.walks := rfl
@[simp] theorem Package.setGrid_pods (p : Package) (k : Nat) (f : Grid → Grid) : (p.setGrid k f).pods = p.pods := rfl
@[simp] theorem Package.setGrid_mans (p : Package) (k : Nat) (f : Grid → Grid) : (p.setGrid k f).mans = p.mans := rfl
@[simp] theorem Package.setGrid_dels (p : Package) (k : Nat) (f : Grid → Grid) : (p.setGrid k f).dels = p.dels := rfl
@[simp] theorem Package.setGrid_carveOut (p : Package) (k : Nat) (f : Grid → Grid) : (p.setGrid k f).carveOut = p.carveOut := rfl
@[simp] theorem Package.setGrid_groups (p : Package) (k : Nat) (f : Grid → Grid) : (p.setGrid k f).groups = p.groups := rfl
@[simp] theorem Package.setGrid_ports (p : Package) (k : Nat) (f : Grid → Grid) : (p.setGrid k f).ports = p.ports := rfl
@[simp] theorem Package.setGrid_circuit (p : Package) (k : Nat) (f : Grid → Grid) : (p.setGrid k f).circuit = p.circuit := rfl
@[simp] theorem Package.setGrid_migrate (p : Package) (k : Nat) (f : Grid → Grid) : (p.setGrid k f).migrate = p.migrate := rfl
@[simp] theorem Package.setGrid_moves (p : Package) (k : Nat) (f : Grid → Grid) : (p.setGrid k f).moves = p.moves := rfl
@[simp] theorem Package.setGrid_homeAt (p : Package) (k : Nat) (f : Grid → Grid) : (p.setGrid k f).homeAt = p.homeAt := rfl
@[simp] theorem Package.setGrid_sys (p : Package) (k : Nat) (f : Grid → Grid) : (p.setGrid k f).sys = p.sys := rfl

/-! ### setQuay -/

@[simp] theorem Package.setQuay_phys (p : Package) (k : Nat) (f : Quay → Quay) : (p.setQuay k f).phys = p.phys := rfl
@[simp] theorem Package.setQuay_now (p : Package) (k : Nat) (f : Quay → Quay) : (p.setQuay k f).now = p.now := rfl
@[simp] theorem Package.setQuay_agenda (p : Package) (k : Nat) (f : Quay → Quay) : (p.setQuay k f).agenda = p.agenda := rfl
@[simp] theorem Package.setQuay_inbox (p : Package) (k : Nat) (f : Quay → Quay) : (p.setQuay k f).inbox = p.inbox := rfl
@[simp] theorem Package.setQuay_out (p : Package) (k : Nat) (f : Quay → Quay) : (p.setQuay k f).out = p.out := rfl
@[simp] theorem Package.setQuay_sent (p : Package) (k : Nat) (f : Quay → Quay) : (p.setQuay k f).sent = p.sent := rfl
@[simp] theorem Package.setQuay_draws (p : Package) (k : Nat) (f : Quay → Quay) : (p.setQuay k f).draws = p.draws := rfl
@[simp] theorem Package.setQuay_picks (p : Package) (k : Nat) (f : Quay → Quay) : (p.setQuay k f).picks = p.picks := rfl
@[simp] theorem Package.setQuay_nextId (p : Package) (k : Nat) (f : Quay → Quay) : (p.setQuay k f).nextId = p.nextId := rfl
@[simp] theorem Package.setQuay_issue (p : Package) (k : Nat) (f : Quay → Quay) : (p.setQuay k f).issue = p.issue := rfl
@[simp] theorem Package.setQuay_issued (p : Package) (k : Nat) (f : Quay → Quay) : (p.setQuay k f).issued = p.issued := rfl
@[simp] theorem Package.setQuay_pipes (p : Package) (k : Nat) (f : Quay → Quay) : (p.setQuay k f).pipes = p.pipes := rfl
@[simp] theorem Package.setQuay_freed (p : Package) (k : Nat) (f : Quay → Quay) : (p.setQuay k f).freed = p.freed := rfl
@[simp] theorem Package.setQuay_teams (p : Package) (k : Nat) (f : Quay → Quay) : (p.setQuay k f).teams = p.teams := rfl
@[simp] theorem Package.setQuay_gangs (p : Package) (k : Nat) (f : Quay → Quay) : (p.setQuay k f).gangs = p.gangs := rfl
@[simp] theorem Package.setQuay_parts (p : Package) (k : Nat) (f : Quay → Quay) : (p.setQuay k f).parts = p.parts := rfl
@[simp] theorem Package.setQuay_cores (p : Package) (k : Nat) (f : Quay → Quay) : (p.setQuay k f).cores = p.cores := rfl
@[simp] theorem Package.setQuay_rounds (p : Package) (k : Nat) (f : Quay → Quay) : (p.setQuay k f).rounds = p.rounds := rfl
@[simp] theorem Package.setQuay_sparse (p : Package) (k : Nat) (f : Quay → Quay) : (p.setQuay k f).sparse = p.sparse := rfl
@[simp] theorem Package.setQuay_grids (p : Package) (k : Nat) (f : Quay → Quay) : (p.setQuay k f).grids = p.grids := rfl
@[simp] theorem Package.setQuay_quays (p : Package) (k : Nat) (f : Quay → Quay) : (p.setQuay k f).quays = mapIf (fun x => x.phys == k) f p.quays := rfl
@[simp] theorem Package.setQuay_journal (p : Package) (k : Nat) (f : Quay → Quay) : (p.setQuay k f).journal = p.journal := rfl
@[simp] theorem Package.setQuay_jobs (p : Package) (k : Nat) (f : Quay → Quay) : (p.setQuay k f).jobs = p.jobs := rfl
@[simp] theorem Package.setQuay_accs (p : Package) (k : Nat) (f : Quay → Quay) : (p.setQuay k f).accs = p.accs := rfl
@[simp] theorem Package.setQuay_writes (p : Package) (k : Nat) (f : Quay → Quay) : (p.setQuay k f).writes = p.writes := rfl
@[simp] theorem Package.setQuay_lines (p : Package) (k : Nat) (f : Quay → Quay) : (p.setQuay k f).lines = p.lines := rfl
@[simp] theorem Package.setQuay_horizons (p : Package) (k : Nat) (f : Quay → Quay) : (p.setQuay k f).horizons = p.horizons := rfl
@[simp] theorem Package.setQuay_mem (p : Package) (k : Nat) (f : Quay → Quay) : (p.setQuay k f).mem = p.mem := rfl
@[simp] theorem Package.setQuay_glabels (p : Package) (k : Nat) (f : Quay → Quay) : (p.setQuay k f).glabels = p.glabels := rfl
@[simp] theorem Package.setQuay_epochs (p : Package) (k : Nat) (f : Quay → Quay) : (p.setQuay k f).epochs = p.epochs := rfl
@[simp] theorem Package.setQuay_bad (p : Package) (k : Nat) (f : Quay → Quay) : (p.setQuay k f).bad = p.bad := rfl
@[simp] theorem Package.setQuay_owners (p : Package) (k : Nat) (f : Quay → Quay) : (p.setQuay k f).owners = p.owners := rfl
@[simp] theorem Package.setQuay_code (p : Package) (k : Nat) (f : Quay → Quay) : (p.setQuay k f).code = p.code := rfl
@[simp] theorem Package.setQuay_banks (p : Package) (k : Nat) (f : Quay → Quay) : (p.setQuay k f).banks = p.banks := rfl
@[simp] theorem Package.setQuay_layouts (p : Package) (k : Nat) (f : Quay → Quay) : (p.setQuay k f).layouts = p.layouts := rfl
@[simp] theorem Package.setQuay_labels (p : Package) (k : Nat) (f : Quay → Quay) : (p.setQuay k f).labels = p.labels := rfl
@[simp] theorem Package.setQuay_labelBase (p : Package) (k : Nat) (f : Quay → Quay) : (p.setQuay k f).labelBase = p.labelBase := rfl
@[simp] theorem Package.setQuay_endorse (p : Package) (k : Nat) (f : Quay → Quay) : (p.setQuay k f).endorse = p.endorse := rfl
@[simp] theorem Package.setQuay_worlds (p : Package) (k : Nat) (f : Quay → Quay) : (p.setQuay k f).worlds = p.worlds := rfl
@[simp] theorem Package.setQuay_spaces (p : Package) (k : Nat) (f : Quay → Quay) : (p.setQuay k f).spaces = p.spaces := rfl
@[simp] theorem Package.setQuay_shoots (p : Package) (k : Nat) (f : Quay → Quay) : (p.setQuay k f).shoots = p.shoots := rfl
@[simp] theorem Package.setQuay_walks (p : Package) (k : Nat) (f : Quay → Quay) : (p.setQuay k f).walks = p.walks := rfl
@[simp] theorem Package.setQuay_pods (p : Package) (k : Nat) (f : Quay → Quay) : (p.setQuay k f).pods = p.pods := rfl
@[simp] theorem Package.setQuay_mans (p : Package) (k : Nat) (f : Quay → Quay) : (p.setQuay k f).mans = p.mans := rfl
@[simp] theorem Package.setQuay_dels (p : Package) (k : Nat) (f : Quay → Quay) : (p.setQuay k f).dels = p.dels := rfl
@[simp] theorem Package.setQuay_carveOut (p : Package) (k : Nat) (f : Quay → Quay) : (p.setQuay k f).carveOut = p.carveOut := rfl
@[simp] theorem Package.setQuay_groups (p : Package) (k : Nat) (f : Quay → Quay) : (p.setQuay k f).groups = p.groups := rfl
@[simp] theorem Package.setQuay_ports (p : Package) (k : Nat) (f : Quay → Quay) : (p.setQuay k f).ports = p.ports := rfl
@[simp] theorem Package.setQuay_circuit (p : Package) (k : Nat) (f : Quay → Quay) : (p.setQuay k f).circuit = p.circuit := rfl
@[simp] theorem Package.setQuay_migrate (p : Package) (k : Nat) (f : Quay → Quay) : (p.setQuay k f).migrate = p.migrate := rfl
@[simp] theorem Package.setQuay_moves (p : Package) (k : Nat) (f : Quay → Quay) : (p.setQuay k f).moves = p.moves := rfl
@[simp] theorem Package.setQuay_homeAt (p : Package) (k : Nat) (f : Quay → Quay) : (p.setQuay k f).homeAt = p.homeAt := rfl
@[simp] theorem Package.setQuay_sys (p : Package) (k : Nat) (f : Quay → Quay) : (p.setQuay k f).sys = p.sys := rfl

/-! ### setMan -/

@[simp] theorem Package.setMan_phys (p : Package) (m : Manifest) : (p.setMan m).phys = p.phys := rfl
@[simp] theorem Package.setMan_now (p : Package) (m : Manifest) : (p.setMan m).now = p.now := rfl
@[simp] theorem Package.setMan_agenda (p : Package) (m : Manifest) : (p.setMan m).agenda = p.agenda := rfl
@[simp] theorem Package.setMan_inbox (p : Package) (m : Manifest) : (p.setMan m).inbox = p.inbox := rfl
@[simp] theorem Package.setMan_out (p : Package) (m : Manifest) : (p.setMan m).out = p.out := rfl
@[simp] theorem Package.setMan_sent (p : Package) (m : Manifest) : (p.setMan m).sent = p.sent := rfl
@[simp] theorem Package.setMan_draws (p : Package) (m : Manifest) : (p.setMan m).draws = p.draws := rfl
@[simp] theorem Package.setMan_picks (p : Package) (m : Manifest) : (p.setMan m).picks = p.picks := rfl
@[simp] theorem Package.setMan_nextId (p : Package) (m : Manifest) : (p.setMan m).nextId = p.nextId := rfl
@[simp] theorem Package.setMan_issue (p : Package) (m : Manifest) : (p.setMan m).issue = p.issue := rfl
@[simp] theorem Package.setMan_issued (p : Package) (m : Manifest) : (p.setMan m).issued = p.issued := rfl
@[simp] theorem Package.setMan_pipes (p : Package) (m : Manifest) : (p.setMan m).pipes = p.pipes := rfl
@[simp] theorem Package.setMan_freed (p : Package) (m : Manifest) : (p.setMan m).freed = p.freed := rfl
@[simp] theorem Package.setMan_teams (p : Package) (m : Manifest) : (p.setMan m).teams = p.teams := rfl
@[simp] theorem Package.setMan_gangs (p : Package) (m : Manifest) : (p.setMan m).gangs = p.gangs := rfl
@[simp] theorem Package.setMan_parts (p : Package) (m : Manifest) : (p.setMan m).parts = p.parts := rfl
@[simp] theorem Package.setMan_cores (p : Package) (m : Manifest) : (p.setMan m).cores = p.cores := rfl
@[simp] theorem Package.setMan_rounds (p : Package) (m : Manifest) : (p.setMan m).rounds = p.rounds := rfl
@[simp] theorem Package.setMan_sparse (p : Package) (m : Manifest) : (p.setMan m).sparse = p.sparse := rfl
@[simp] theorem Package.setMan_grids (p : Package) (m : Manifest) : (p.setMan m).grids = p.grids := rfl
@[simp] theorem Package.setMan_quays (p : Package) (m : Manifest) : (p.setMan m).quays = p.quays := rfl
@[simp] theorem Package.setMan_journal (p : Package) (m : Manifest) : (p.setMan m).journal = p.journal := rfl
@[simp] theorem Package.setMan_jobs (p : Package) (m : Manifest) : (p.setMan m).jobs = p.jobs := rfl
@[simp] theorem Package.setMan_accs (p : Package) (m : Manifest) : (p.setMan m).accs = p.accs := rfl
@[simp] theorem Package.setMan_writes (p : Package) (m : Manifest) : (p.setMan m).writes = p.writes := rfl
@[simp] theorem Package.setMan_lines (p : Package) (m : Manifest) : (p.setMan m).lines = p.lines := rfl
@[simp] theorem Package.setMan_horizons (p : Package) (m : Manifest) : (p.setMan m).horizons = p.horizons := rfl
@[simp] theorem Package.setMan_mem (p : Package) (m : Manifest) : (p.setMan m).mem = p.mem := rfl
@[simp] theorem Package.setMan_glabels (p : Package) (m : Manifest) : (p.setMan m).glabels = p.glabels := rfl
@[simp] theorem Package.setMan_epochs (p : Package) (m : Manifest) : (p.setMan m).epochs = p.epochs := rfl
@[simp] theorem Package.setMan_bad (p : Package) (m : Manifest) : (p.setMan m).bad = p.bad := rfl
@[simp] theorem Package.setMan_owners (p : Package) (m : Manifest) : (p.setMan m).owners = p.owners := rfl
@[simp] theorem Package.setMan_code (p : Package) (m : Manifest) : (p.setMan m).code = p.code := rfl
@[simp] theorem Package.setMan_banks (p : Package) (m : Manifest) : (p.setMan m).banks = p.banks := rfl
@[simp] theorem Package.setMan_layouts (p : Package) (m : Manifest) : (p.setMan m).layouts = p.layouts := rfl
@[simp] theorem Package.setMan_labels (p : Package) (m : Manifest) : (p.setMan m).labels = p.labels := rfl
@[simp] theorem Package.setMan_labelBase (p : Package) (m : Manifest) : (p.setMan m).labelBase = p.labelBase := rfl
@[simp] theorem Package.setMan_endorse (p : Package) (m : Manifest) : (p.setMan m).endorse = p.endorse := rfl
@[simp] theorem Package.setMan_worlds (p : Package) (m : Manifest) : (p.setMan m).worlds = p.worlds := rfl
@[simp] theorem Package.setMan_spaces (p : Package) (m : Manifest) : (p.setMan m).spaces = p.spaces := rfl
@[simp] theorem Package.setMan_shoots (p : Package) (m : Manifest) : (p.setMan m).shoots = p.shoots := rfl
@[simp] theorem Package.setMan_walks (p : Package) (m : Manifest) : (p.setMan m).walks = p.walks := rfl
@[simp] theorem Package.setMan_pods (p : Package) (m : Manifest) : (p.setMan m).pods = p.pods := rfl
@[simp] theorem Package.setMan_dels (p : Package) (m : Manifest) : (p.setMan m).dels = p.dels := rfl
@[simp] theorem Package.setMan_carveOut (p : Package) (m : Manifest) : (p.setMan m).carveOut = p.carveOut := rfl
@[simp] theorem Package.setMan_groups (p : Package) (m : Manifest) : (p.setMan m).groups = p.groups := rfl
@[simp] theorem Package.setMan_ports (p : Package) (m : Manifest) : (p.setMan m).ports = p.ports := rfl
@[simp] theorem Package.setMan_circuit (p : Package) (m : Manifest) : (p.setMan m).circuit = p.circuit := rfl
@[simp] theorem Package.setMan_migrate (p : Package) (m : Manifest) : (p.setMan m).migrate = p.migrate := rfl
@[simp] theorem Package.setMan_moves (p : Package) (m : Manifest) : (p.setMan m).moves = p.moves := rfl
@[simp] theorem Package.setMan_homeAt (p : Package) (m : Manifest) : (p.setMan m).homeAt = p.homeAt := rfl
@[simp] theorem Package.setMan_sys (p : Package) (m : Manifest) : (p.setMan m).sys = p.sys := rfl

/-! ### setGroup -/

@[simp] theorem Package.setGroup_phys (p : Package) (k : Nat) (f : Group → Group) : (p.setGroup k f).phys = p.phys := rfl
@[simp] theorem Package.setGroup_now (p : Package) (k : Nat) (f : Group → Group) : (p.setGroup k f).now = p.now := rfl
@[simp] theorem Package.setGroup_agenda (p : Package) (k : Nat) (f : Group → Group) : (p.setGroup k f).agenda = p.agenda := rfl
@[simp] theorem Package.setGroup_inbox (p : Package) (k : Nat) (f : Group → Group) : (p.setGroup k f).inbox = p.inbox := rfl
@[simp] theorem Package.setGroup_out (p : Package) (k : Nat) (f : Group → Group) : (p.setGroup k f).out = p.out := rfl
@[simp] theorem Package.setGroup_sent (p : Package) (k : Nat) (f : Group → Group) : (p.setGroup k f).sent = p.sent := rfl
@[simp] theorem Package.setGroup_draws (p : Package) (k : Nat) (f : Group → Group) : (p.setGroup k f).draws = p.draws := rfl
@[simp] theorem Package.setGroup_picks (p : Package) (k : Nat) (f : Group → Group) : (p.setGroup k f).picks = p.picks := rfl
@[simp] theorem Package.setGroup_nextId (p : Package) (k : Nat) (f : Group → Group) : (p.setGroup k f).nextId = p.nextId := rfl
@[simp] theorem Package.setGroup_issue (p : Package) (k : Nat) (f : Group → Group) : (p.setGroup k f).issue = p.issue := rfl
@[simp] theorem Package.setGroup_issued (p : Package) (k : Nat) (f : Group → Group) : (p.setGroup k f).issued = p.issued := rfl
@[simp] theorem Package.setGroup_pipes (p : Package) (k : Nat) (f : Group → Group) : (p.setGroup k f).pipes = p.pipes := rfl
@[simp] theorem Package.setGroup_freed (p : Package) (k : Nat) (f : Group → Group) : (p.setGroup k f).freed = p.freed := rfl
@[simp] theorem Package.setGroup_teams (p : Package) (k : Nat) (f : Group → Group) : (p.setGroup k f).teams = p.teams := rfl
@[simp] theorem Package.setGroup_gangs (p : Package) (k : Nat) (f : Group → Group) : (p.setGroup k f).gangs = p.gangs := rfl
@[simp] theorem Package.setGroup_parts (p : Package) (k : Nat) (f : Group → Group) : (p.setGroup k f).parts = p.parts := rfl
@[simp] theorem Package.setGroup_cores (p : Package) (k : Nat) (f : Group → Group) : (p.setGroup k f).cores = p.cores := rfl
@[simp] theorem Package.setGroup_rounds (p : Package) (k : Nat) (f : Group → Group) : (p.setGroup k f).rounds = p.rounds := rfl
@[simp] theorem Package.setGroup_sparse (p : Package) (k : Nat) (f : Group → Group) : (p.setGroup k f).sparse = p.sparse := rfl
@[simp] theorem Package.setGroup_grids (p : Package) (k : Nat) (f : Group → Group) : (p.setGroup k f).grids = p.grids := rfl
@[simp] theorem Package.setGroup_quays (p : Package) (k : Nat) (f : Group → Group) : (p.setGroup k f).quays = p.quays := rfl
@[simp] theorem Package.setGroup_journal (p : Package) (k : Nat) (f : Group → Group) : (p.setGroup k f).journal = p.journal := rfl
@[simp] theorem Package.setGroup_jobs (p : Package) (k : Nat) (f : Group → Group) : (p.setGroup k f).jobs = p.jobs := rfl
@[simp] theorem Package.setGroup_accs (p : Package) (k : Nat) (f : Group → Group) : (p.setGroup k f).accs = p.accs := rfl
@[simp] theorem Package.setGroup_writes (p : Package) (k : Nat) (f : Group → Group) : (p.setGroup k f).writes = p.writes := rfl
@[simp] theorem Package.setGroup_lines (p : Package) (k : Nat) (f : Group → Group) : (p.setGroup k f).lines = p.lines := rfl
@[simp] theorem Package.setGroup_horizons (p : Package) (k : Nat) (f : Group → Group) : (p.setGroup k f).horizons = p.horizons := rfl
@[simp] theorem Package.setGroup_mem (p : Package) (k : Nat) (f : Group → Group) : (p.setGroup k f).mem = p.mem := rfl
@[simp] theorem Package.setGroup_glabels (p : Package) (k : Nat) (f : Group → Group) : (p.setGroup k f).glabels = p.glabels := rfl
@[simp] theorem Package.setGroup_epochs (p : Package) (k : Nat) (f : Group → Group) : (p.setGroup k f).epochs = p.epochs := rfl
@[simp] theorem Package.setGroup_bad (p : Package) (k : Nat) (f : Group → Group) : (p.setGroup k f).bad = p.bad := rfl
@[simp] theorem Package.setGroup_owners (p : Package) (k : Nat) (f : Group → Group) : (p.setGroup k f).owners = p.owners := rfl
@[simp] theorem Package.setGroup_code (p : Package) (k : Nat) (f : Group → Group) : (p.setGroup k f).code = p.code := rfl
@[simp] theorem Package.setGroup_banks (p : Package) (k : Nat) (f : Group → Group) : (p.setGroup k f).banks = p.banks := rfl
@[simp] theorem Package.setGroup_layouts (p : Package) (k : Nat) (f : Group → Group) : (p.setGroup k f).layouts = p.layouts := rfl
@[simp] theorem Package.setGroup_labels (p : Package) (k : Nat) (f : Group → Group) : (p.setGroup k f).labels = p.labels := rfl
@[simp] theorem Package.setGroup_labelBase (p : Package) (k : Nat) (f : Group → Group) : (p.setGroup k f).labelBase = p.labelBase := rfl
@[simp] theorem Package.setGroup_endorse (p : Package) (k : Nat) (f : Group → Group) : (p.setGroup k f).endorse = p.endorse := rfl
@[simp] theorem Package.setGroup_worlds (p : Package) (k : Nat) (f : Group → Group) : (p.setGroup k f).worlds = p.worlds := rfl
@[simp] theorem Package.setGroup_spaces (p : Package) (k : Nat) (f : Group → Group) : (p.setGroup k f).spaces = p.spaces := rfl
@[simp] theorem Package.setGroup_shoots (p : Package) (k : Nat) (f : Group → Group) : (p.setGroup k f).shoots = p.shoots := rfl
@[simp] theorem Package.setGroup_walks (p : Package) (k : Nat) (f : Group → Group) : (p.setGroup k f).walks = p.walks := rfl
@[simp] theorem Package.setGroup_pods (p : Package) (k : Nat) (f : Group → Group) : (p.setGroup k f).pods = p.pods := rfl
@[simp] theorem Package.setGroup_mans (p : Package) (k : Nat) (f : Group → Group) : (p.setGroup k f).mans = p.mans := rfl
@[simp] theorem Package.setGroup_dels (p : Package) (k : Nat) (f : Group → Group) : (p.setGroup k f).dels = p.dels := rfl
@[simp] theorem Package.setGroup_carveOut (p : Package) (k : Nat) (f : Group → Group) : (p.setGroup k f).carveOut = p.carveOut := rfl
@[simp] theorem Package.setGroup_ports (p : Package) (k : Nat) (f : Group → Group) : (p.setGroup k f).ports = p.ports := rfl
@[simp] theorem Package.setGroup_circuit (p : Package) (k : Nat) (f : Group → Group) : (p.setGroup k f).circuit = p.circuit := rfl
@[simp] theorem Package.setGroup_migrate (p : Package) (k : Nat) (f : Group → Group) : (p.setGroup k f).migrate = p.migrate := rfl
@[simp] theorem Package.setGroup_moves (p : Package) (k : Nat) (f : Group → Group) : (p.setGroup k f).moves = p.moves := rfl
@[simp] theorem Package.setGroup_homeAt (p : Package) (k : Nat) (f : Group → Group) : (p.setGroup k f).homeAt = p.homeAt := rfl
@[simp] theorem Package.setGroup_sys (p : Package) (k : Nat) (f : Group → Group) : (p.setGroup k f).sys = p.sys := rfl

/-! ### setPort -/

@[simp] theorem Package.setPort_phys (p : Package) (x : Port) : (p.setPort x).phys = p.phys := rfl
@[simp] theorem Package.setPort_now (p : Package) (x : Port) : (p.setPort x).now = p.now := rfl
@[simp] theorem Package.setPort_agenda (p : Package) (x : Port) : (p.setPort x).agenda = p.agenda := rfl
@[simp] theorem Package.setPort_inbox (p : Package) (x : Port) : (p.setPort x).inbox = p.inbox := rfl
@[simp] theorem Package.setPort_out (p : Package) (x : Port) : (p.setPort x).out = p.out := rfl
@[simp] theorem Package.setPort_sent (p : Package) (x : Port) : (p.setPort x).sent = p.sent := rfl
@[simp] theorem Package.setPort_draws (p : Package) (x : Port) : (p.setPort x).draws = p.draws := rfl
@[simp] theorem Package.setPort_picks (p : Package) (x : Port) : (p.setPort x).picks = p.picks := rfl
@[simp] theorem Package.setPort_nextId (p : Package) (x : Port) : (p.setPort x).nextId = p.nextId := rfl
@[simp] theorem Package.setPort_issue (p : Package) (x : Port) : (p.setPort x).issue = p.issue := rfl
@[simp] theorem Package.setPort_issued (p : Package) (x : Port) : (p.setPort x).issued = p.issued := rfl
@[simp] theorem Package.setPort_pipes (p : Package) (x : Port) : (p.setPort x).pipes = p.pipes := rfl
@[simp] theorem Package.setPort_freed (p : Package) (x : Port) : (p.setPort x).freed = p.freed := rfl
@[simp] theorem Package.setPort_teams (p : Package) (x : Port) : (p.setPort x).teams = p.teams := rfl
@[simp] theorem Package.setPort_gangs (p : Package) (x : Port) : (p.setPort x).gangs = p.gangs := rfl
@[simp] theorem Package.setPort_parts (p : Package) (x : Port) : (p.setPort x).parts = p.parts := rfl
@[simp] theorem Package.setPort_cores (p : Package) (x : Port) : (p.setPort x).cores = p.cores := rfl
@[simp] theorem Package.setPort_rounds (p : Package) (x : Port) : (p.setPort x).rounds = p.rounds := rfl
@[simp] theorem Package.setPort_sparse (p : Package) (x : Port) : (p.setPort x).sparse = p.sparse := rfl
@[simp] theorem Package.setPort_grids (p : Package) (x : Port) : (p.setPort x).grids = p.grids := rfl
@[simp] theorem Package.setPort_quays (p : Package) (x : Port) : (p.setPort x).quays = p.quays := rfl
@[simp] theorem Package.setPort_journal (p : Package) (x : Port) : (p.setPort x).journal = p.journal := rfl
@[simp] theorem Package.setPort_jobs (p : Package) (x : Port) : (p.setPort x).jobs = p.jobs := rfl
@[simp] theorem Package.setPort_accs (p : Package) (x : Port) : (p.setPort x).accs = p.accs := rfl
@[simp] theorem Package.setPort_writes (p : Package) (x : Port) : (p.setPort x).writes = p.writes := rfl
@[simp] theorem Package.setPort_lines (p : Package) (x : Port) : (p.setPort x).lines = p.lines := rfl
@[simp] theorem Package.setPort_horizons (p : Package) (x : Port) : (p.setPort x).horizons = p.horizons := rfl
@[simp] theorem Package.setPort_mem (p : Package) (x : Port) : (p.setPort x).mem = p.mem := rfl
@[simp] theorem Package.setPort_glabels (p : Package) (x : Port) : (p.setPort x).glabels = p.glabels := rfl
@[simp] theorem Package.setPort_epochs (p : Package) (x : Port) : (p.setPort x).epochs = p.epochs := rfl
@[simp] theorem Package.setPort_bad (p : Package) (x : Port) : (p.setPort x).bad = p.bad := rfl
@[simp] theorem Package.setPort_owners (p : Package) (x : Port) : (p.setPort x).owners = p.owners := rfl
@[simp] theorem Package.setPort_code (p : Package) (x : Port) : (p.setPort x).code = p.code := rfl
@[simp] theorem Package.setPort_banks (p : Package) (x : Port) : (p.setPort x).banks = p.banks := rfl
@[simp] theorem Package.setPort_layouts (p : Package) (x : Port) : (p.setPort x).layouts = p.layouts := rfl
@[simp] theorem Package.setPort_labels (p : Package) (x : Port) : (p.setPort x).labels = p.labels := rfl
@[simp] theorem Package.setPort_labelBase (p : Package) (x : Port) : (p.setPort x).labelBase = p.labelBase := rfl
@[simp] theorem Package.setPort_endorse (p : Package) (x : Port) : (p.setPort x).endorse = p.endorse := rfl
@[simp] theorem Package.setPort_worlds (p : Package) (x : Port) : (p.setPort x).worlds = p.worlds := rfl
@[simp] theorem Package.setPort_spaces (p : Package) (x : Port) : (p.setPort x).spaces = p.spaces := rfl
@[simp] theorem Package.setPort_shoots (p : Package) (x : Port) : (p.setPort x).shoots = p.shoots := rfl
@[simp] theorem Package.setPort_walks (p : Package) (x : Port) : (p.setPort x).walks = p.walks := rfl
@[simp] theorem Package.setPort_pods (p : Package) (x : Port) : (p.setPort x).pods = p.pods := rfl
@[simp] theorem Package.setPort_mans (p : Package) (x : Port) : (p.setPort x).mans = p.mans := rfl
@[simp] theorem Package.setPort_dels (p : Package) (x : Port) : (p.setPort x).dels = p.dels := rfl
@[simp] theorem Package.setPort_carveOut (p : Package) (x : Port) : (p.setPort x).carveOut = p.carveOut := rfl
@[simp] theorem Package.setPort_groups (p : Package) (x : Port) : (p.setPort x).groups = p.groups := rfl
@[simp] theorem Package.setPort_circuit (p : Package) (x : Port) : (p.setPort x).circuit = p.circuit := rfl
@[simp] theorem Package.setPort_migrate (p : Package) (x : Port) : (p.setPort x).migrate = p.migrate := rfl
@[simp] theorem Package.setPort_moves (p : Package) (x : Port) : (p.setPort x).moves = p.moves := rfl
@[simp] theorem Package.setPort_homeAt (p : Package) (x : Port) : (p.setPort x).homeAt = p.homeAt := rfl
@[simp] theorem Package.setPort_sys (p : Package) (x : Port) : (p.setPort x).sys = p.sys := rfl

/-! ### putGroup -/

@[simp] theorem Package.putGroup_phys (p : Package) (g : Group) : (p.putGroup g).phys = p.phys := rfl
@[simp] theorem Package.putGroup_now (p : Package) (g : Group) : (p.putGroup g).now = p.now := rfl
@[simp] theorem Package.putGroup_agenda (p : Package) (g : Group) : (p.putGroup g).agenda = p.agenda := rfl
@[simp] theorem Package.putGroup_inbox (p : Package) (g : Group) : (p.putGroup g).inbox = p.inbox := rfl
@[simp] theorem Package.putGroup_out (p : Package) (g : Group) : (p.putGroup g).out = p.out := rfl
@[simp] theorem Package.putGroup_sent (p : Package) (g : Group) : (p.putGroup g).sent = p.sent := rfl
@[simp] theorem Package.putGroup_draws (p : Package) (g : Group) : (p.putGroup g).draws = p.draws := rfl
@[simp] theorem Package.putGroup_picks (p : Package) (g : Group) : (p.putGroup g).picks = p.picks := rfl
@[simp] theorem Package.putGroup_nextId (p : Package) (g : Group) : (p.putGroup g).nextId = p.nextId := rfl
@[simp] theorem Package.putGroup_issue (p : Package) (g : Group) : (p.putGroup g).issue = p.issue := rfl
@[simp] theorem Package.putGroup_issued (p : Package) (g : Group) : (p.putGroup g).issued = p.issued := rfl
@[simp] theorem Package.putGroup_pipes (p : Package) (g : Group) : (p.putGroup g).pipes = p.pipes := rfl
@[simp] theorem Package.putGroup_freed (p : Package) (g : Group) : (p.putGroup g).freed = p.freed := rfl
@[simp] theorem Package.putGroup_teams (p : Package) (g : Group) : (p.putGroup g).teams = p.teams := rfl
@[simp] theorem Package.putGroup_gangs (p : Package) (g : Group) : (p.putGroup g).gangs = p.gangs := rfl
@[simp] theorem Package.putGroup_parts (p : Package) (g : Group) : (p.putGroup g).parts = p.parts := rfl
@[simp] theorem Package.putGroup_cores (p : Package) (g : Group) : (p.putGroup g).cores = p.cores := rfl
@[simp] theorem Package.putGroup_rounds (p : Package) (g : Group) : (p.putGroup g).rounds = p.rounds := rfl
@[simp] theorem Package.putGroup_sparse (p : Package) (g : Group) : (p.putGroup g).sparse = p.sparse := rfl
@[simp] theorem Package.putGroup_grids (p : Package) (g : Group) : (p.putGroup g).grids = p.grids := rfl
@[simp] theorem Package.putGroup_quays (p : Package) (g : Group) : (p.putGroup g).quays = p.quays := rfl
@[simp] theorem Package.putGroup_journal (p : Package) (g : Group) : (p.putGroup g).journal = p.journal := rfl
@[simp] theorem Package.putGroup_jobs (p : Package) (g : Group) : (p.putGroup g).jobs = p.jobs := rfl
@[simp] theorem Package.putGroup_accs (p : Package) (g : Group) : (p.putGroup g).accs = p.accs := rfl
@[simp] theorem Package.putGroup_writes (p : Package) (g : Group) : (p.putGroup g).writes = p.writes := rfl
@[simp] theorem Package.putGroup_lines (p : Package) (g : Group) : (p.putGroup g).lines = p.lines := rfl
@[simp] theorem Package.putGroup_horizons (p : Package) (g : Group) : (p.putGroup g).horizons = p.horizons := rfl
@[simp] theorem Package.putGroup_mem (p : Package) (g : Group) : (p.putGroup g).mem = p.mem := rfl
@[simp] theorem Package.putGroup_glabels (p : Package) (g : Group) : (p.putGroup g).glabels = p.glabels := rfl
@[simp] theorem Package.putGroup_epochs (p : Package) (g : Group) : (p.putGroup g).epochs = p.epochs := rfl
@[simp] theorem Package.putGroup_bad (p : Package) (g : Group) : (p.putGroup g).bad = p.bad := rfl
@[simp] theorem Package.putGroup_owners (p : Package) (g : Group) : (p.putGroup g).owners = p.owners := rfl
@[simp] theorem Package.putGroup_code (p : Package) (g : Group) : (p.putGroup g).code = p.code := rfl
@[simp] theorem Package.putGroup_banks (p : Package) (g : Group) : (p.putGroup g).banks = p.banks := rfl
@[simp] theorem Package.putGroup_layouts (p : Package) (g : Group) : (p.putGroup g).layouts = p.layouts := rfl
@[simp] theorem Package.putGroup_labels (p : Package) (g : Group) : (p.putGroup g).labels = p.labels := rfl
@[simp] theorem Package.putGroup_labelBase (p : Package) (g : Group) : (p.putGroup g).labelBase = p.labelBase := rfl
@[simp] theorem Package.putGroup_endorse (p : Package) (g : Group) : (p.putGroup g).endorse = p.endorse := rfl
@[simp] theorem Package.putGroup_worlds (p : Package) (g : Group) : (p.putGroup g).worlds = p.worlds := rfl
@[simp] theorem Package.putGroup_spaces (p : Package) (g : Group) : (p.putGroup g).spaces = p.spaces := rfl
@[simp] theorem Package.putGroup_shoots (p : Package) (g : Group) : (p.putGroup g).shoots = p.shoots := rfl
@[simp] theorem Package.putGroup_walks (p : Package) (g : Group) : (p.putGroup g).walks = p.walks := rfl
@[simp] theorem Package.putGroup_pods (p : Package) (g : Group) : (p.putGroup g).pods = p.pods := rfl
@[simp] theorem Package.putGroup_mans (p : Package) (g : Group) : (p.putGroup g).mans = p.mans := rfl
@[simp] theorem Package.putGroup_dels (p : Package) (g : Group) : (p.putGroup g).dels = p.dels := rfl
@[simp] theorem Package.putGroup_carveOut (p : Package) (g : Group) : (p.putGroup g).carveOut = p.carveOut := rfl
@[simp] theorem Package.putGroup_ports (p : Package) (g : Group) : (p.putGroup g).ports = p.ports := rfl
@[simp] theorem Package.putGroup_circuit (p : Package) (g : Group) : (p.putGroup g).circuit = p.circuit := rfl
@[simp] theorem Package.putGroup_migrate (p : Package) (g : Group) : (p.putGroup g).migrate = p.migrate := rfl
@[simp] theorem Package.putGroup_moves (p : Package) (g : Group) : (p.putGroup g).moves = p.moves := rfl
@[simp] theorem Package.putGroup_homeAt (p : Package) (g : Group) : (p.putGroup g).homeAt = p.homeAt := rfl
@[simp] theorem Package.putGroup_sys (p : Package) (g : Group) : (p.putGroup g).sys = p.sys := rfl

/-! ### putSpace -/

@[simp] theorem Package.putSpace_phys (p : Package) (x : Space) : (p.putSpace x).phys = p.phys := rfl
@[simp] theorem Package.putSpace_now (p : Package) (x : Space) : (p.putSpace x).now = p.now := rfl
@[simp] theorem Package.putSpace_agenda (p : Package) (x : Space) : (p.putSpace x).agenda = p.agenda := rfl
@[simp] theorem Package.putSpace_inbox (p : Package) (x : Space) : (p.putSpace x).inbox = p.inbox := rfl
@[simp] theorem Package.putSpace_out (p : Package) (x : Space) : (p.putSpace x).out = p.out := rfl
@[simp] theorem Package.putSpace_sent (p : Package) (x : Space) : (p.putSpace x).sent = p.sent := rfl
@[simp] theorem Package.putSpace_draws (p : Package) (x : Space) : (p.putSpace x).draws = p.draws := rfl
@[simp] theorem Package.putSpace_picks (p : Package) (x : Space) : (p.putSpace x).picks = p.picks := rfl
@[simp] theorem Package.putSpace_nextId (p : Package) (x : Space) : (p.putSpace x).nextId = p.nextId := rfl
@[simp] theorem Package.putSpace_issue (p : Package) (x : Space) : (p.putSpace x).issue = p.issue := rfl
@[simp] theorem Package.putSpace_issued (p : Package) (x : Space) : (p.putSpace x).issued = p.issued := rfl
@[simp] theorem Package.putSpace_pipes (p : Package) (x : Space) : (p.putSpace x).pipes = p.pipes := rfl
@[simp] theorem Package.putSpace_freed (p : Package) (x : Space) : (p.putSpace x).freed = p.freed := rfl
@[simp] theorem Package.putSpace_teams (p : Package) (x : Space) : (p.putSpace x).teams = p.teams := rfl
@[simp] theorem Package.putSpace_gangs (p : Package) (x : Space) : (p.putSpace x).gangs = p.gangs := rfl
@[simp] theorem Package.putSpace_parts (p : Package) (x : Space) : (p.putSpace x).parts = p.parts := rfl
@[simp] theorem Package.putSpace_cores (p : Package) (x : Space) : (p.putSpace x).cores = p.cores := rfl
@[simp] theorem Package.putSpace_rounds (p : Package) (x : Space) : (p.putSpace x).rounds = p.rounds := rfl
@[simp] theorem Package.putSpace_sparse (p : Package) (x : Space) : (p.putSpace x).sparse = p.sparse := rfl
@[simp] theorem Package.putSpace_grids (p : Package) (x : Space) : (p.putSpace x).grids = p.grids := rfl
@[simp] theorem Package.putSpace_quays (p : Package) (x : Space) : (p.putSpace x).quays = p.quays := rfl
@[simp] theorem Package.putSpace_journal (p : Package) (x : Space) : (p.putSpace x).journal = p.journal := rfl
@[simp] theorem Package.putSpace_jobs (p : Package) (x : Space) : (p.putSpace x).jobs = p.jobs := rfl
@[simp] theorem Package.putSpace_accs (p : Package) (x : Space) : (p.putSpace x).accs = p.accs := rfl
@[simp] theorem Package.putSpace_writes (p : Package) (x : Space) : (p.putSpace x).writes = p.writes := rfl
@[simp] theorem Package.putSpace_lines (p : Package) (x : Space) : (p.putSpace x).lines = p.lines := rfl
@[simp] theorem Package.putSpace_horizons (p : Package) (x : Space) : (p.putSpace x).horizons = p.horizons := rfl
@[simp] theorem Package.putSpace_mem (p : Package) (x : Space) : (p.putSpace x).mem = p.mem := rfl
@[simp] theorem Package.putSpace_glabels (p : Package) (x : Space) : (p.putSpace x).glabels = p.glabels := rfl
@[simp] theorem Package.putSpace_epochs (p : Package) (x : Space) : (p.putSpace x).epochs = p.epochs := rfl
@[simp] theorem Package.putSpace_bad (p : Package) (x : Space) : (p.putSpace x).bad = p.bad := rfl
@[simp] theorem Package.putSpace_owners (p : Package) (x : Space) : (p.putSpace x).owners = p.owners := rfl
@[simp] theorem Package.putSpace_code (p : Package) (x : Space) : (p.putSpace x).code = p.code := rfl
@[simp] theorem Package.putSpace_banks (p : Package) (x : Space) : (p.putSpace x).banks = p.banks := rfl
@[simp] theorem Package.putSpace_layouts (p : Package) (x : Space) : (p.putSpace x).layouts = p.layouts := rfl
@[simp] theorem Package.putSpace_labels (p : Package) (x : Space) : (p.putSpace x).labels = p.labels := rfl
@[simp] theorem Package.putSpace_labelBase (p : Package) (x : Space) : (p.putSpace x).labelBase = p.labelBase := rfl
@[simp] theorem Package.putSpace_endorse (p : Package) (x : Space) : (p.putSpace x).endorse = p.endorse := rfl
@[simp] theorem Package.putSpace_worlds (p : Package) (x : Space) : (p.putSpace x).worlds = p.worlds := rfl
@[simp] theorem Package.putSpace_shoots (p : Package) (x : Space) : (p.putSpace x).shoots = p.shoots := rfl
@[simp] theorem Package.putSpace_walks (p : Package) (x : Space) : (p.putSpace x).walks = p.walks := rfl
@[simp] theorem Package.putSpace_pods (p : Package) (x : Space) : (p.putSpace x).pods = p.pods := rfl
@[simp] theorem Package.putSpace_mans (p : Package) (x : Space) : (p.putSpace x).mans = p.mans := rfl
@[simp] theorem Package.putSpace_dels (p : Package) (x : Space) : (p.putSpace x).dels = p.dels := rfl
@[simp] theorem Package.putSpace_carveOut (p : Package) (x : Space) : (p.putSpace x).carveOut = p.carveOut := rfl
@[simp] theorem Package.putSpace_groups (p : Package) (x : Space) : (p.putSpace x).groups = p.groups := rfl
@[simp] theorem Package.putSpace_ports (p : Package) (x : Space) : (p.putSpace x).ports = p.ports := rfl
@[simp] theorem Package.putSpace_circuit (p : Package) (x : Space) : (p.putSpace x).circuit = p.circuit := rfl
@[simp] theorem Package.putSpace_migrate (p : Package) (x : Space) : (p.putSpace x).migrate = p.migrate := rfl
@[simp] theorem Package.putSpace_moves (p : Package) (x : Space) : (p.putSpace x).moves = p.moves := rfl
@[simp] theorem Package.putSpace_homeAt (p : Package) (x : Space) : (p.putSpace x).homeAt = p.homeAt := rfl
@[simp] theorem Package.putSpace_sys (p : Package) (x : Space) : (p.putSpace x).sys = p.sys := rfl

/-! ### dropInbox -/

@[simp] theorem Package.dropInbox_phys (p : Package) (k : Nat) : (p.dropInbox k).phys = p.phys := rfl
@[simp] theorem Package.dropInbox_now (p : Package) (k : Nat) : (p.dropInbox k).now = p.now := rfl
@[simp] theorem Package.dropInbox_agenda (p : Package) (k : Nat) : (p.dropInbox k).agenda = p.agenda := rfl
@[simp] theorem Package.dropInbox_inbox (p : Package) (k : Nat) : (p.dropInbox k).inbox = p.inbox.eraseIdx k := rfl
@[simp] theorem Package.dropInbox_out (p : Package) (k : Nat) : (p.dropInbox k).out = p.out := rfl
@[simp] theorem Package.dropInbox_sent (p : Package) (k : Nat) : (p.dropInbox k).sent = p.sent := rfl
@[simp] theorem Package.dropInbox_draws (p : Package) (k : Nat) : (p.dropInbox k).draws = p.draws := rfl
@[simp] theorem Package.dropInbox_picks (p : Package) (k : Nat) : (p.dropInbox k).picks = p.picks := rfl
@[simp] theorem Package.dropInbox_nextId (p : Package) (k : Nat) : (p.dropInbox k).nextId = p.nextId := rfl
@[simp] theorem Package.dropInbox_issue (p : Package) (k : Nat) : (p.dropInbox k).issue = p.issue := rfl
@[simp] theorem Package.dropInbox_issued (p : Package) (k : Nat) : (p.dropInbox k).issued = p.issued := rfl
@[simp] theorem Package.dropInbox_pipes (p : Package) (k : Nat) : (p.dropInbox k).pipes = p.pipes := rfl
@[simp] theorem Package.dropInbox_freed (p : Package) (k : Nat) : (p.dropInbox k).freed = p.freed := rfl
@[simp] theorem Package.dropInbox_teams (p : Package) (k : Nat) : (p.dropInbox k).teams = p.teams := rfl
@[simp] theorem Package.dropInbox_gangs (p : Package) (k : Nat) : (p.dropInbox k).gangs = p.gangs := rfl
@[simp] theorem Package.dropInbox_parts (p : Package) (k : Nat) : (p.dropInbox k).parts = p.parts := rfl
@[simp] theorem Package.dropInbox_cores (p : Package) (k : Nat) : (p.dropInbox k).cores = p.cores := rfl
@[simp] theorem Package.dropInbox_rounds (p : Package) (k : Nat) : (p.dropInbox k).rounds = p.rounds := rfl
@[simp] theorem Package.dropInbox_sparse (p : Package) (k : Nat) : (p.dropInbox k).sparse = p.sparse := rfl
@[simp] theorem Package.dropInbox_grids (p : Package) (k : Nat) : (p.dropInbox k).grids = p.grids := rfl
@[simp] theorem Package.dropInbox_quays (p : Package) (k : Nat) : (p.dropInbox k).quays = p.quays := rfl
@[simp] theorem Package.dropInbox_journal (p : Package) (k : Nat) : (p.dropInbox k).journal = p.journal := rfl
@[simp] theorem Package.dropInbox_jobs (p : Package) (k : Nat) : (p.dropInbox k).jobs = p.jobs := rfl
@[simp] theorem Package.dropInbox_accs (p : Package) (k : Nat) : (p.dropInbox k).accs = p.accs := rfl
@[simp] theorem Package.dropInbox_writes (p : Package) (k : Nat) : (p.dropInbox k).writes = p.writes := rfl
@[simp] theorem Package.dropInbox_lines (p : Package) (k : Nat) : (p.dropInbox k).lines = p.lines := rfl
@[simp] theorem Package.dropInbox_horizons (p : Package) (k : Nat) : (p.dropInbox k).horizons = p.horizons := rfl
@[simp] theorem Package.dropInbox_mem (p : Package) (k : Nat) : (p.dropInbox k).mem = p.mem := rfl
@[simp] theorem Package.dropInbox_glabels (p : Package) (k : Nat) : (p.dropInbox k).glabels = p.glabels := rfl
@[simp] theorem Package.dropInbox_epochs (p : Package) (k : Nat) : (p.dropInbox k).epochs = p.epochs := rfl
@[simp] theorem Package.dropInbox_bad (p : Package) (k : Nat) : (p.dropInbox k).bad = p.bad := rfl
@[simp] theorem Package.dropInbox_owners (p : Package) (k : Nat) : (p.dropInbox k).owners = p.owners := rfl
@[simp] theorem Package.dropInbox_code (p : Package) (k : Nat) : (p.dropInbox k).code = p.code := rfl
@[simp] theorem Package.dropInbox_banks (p : Package) (k : Nat) : (p.dropInbox k).banks = p.banks := rfl
@[simp] theorem Package.dropInbox_layouts (p : Package) (k : Nat) : (p.dropInbox k).layouts = p.layouts := rfl
@[simp] theorem Package.dropInbox_labels (p : Package) (k : Nat) : (p.dropInbox k).labels = p.labels := rfl
@[simp] theorem Package.dropInbox_labelBase (p : Package) (k : Nat) : (p.dropInbox k).labelBase = p.labelBase := rfl
@[simp] theorem Package.dropInbox_endorse (p : Package) (k : Nat) : (p.dropInbox k).endorse = p.endorse := rfl
@[simp] theorem Package.dropInbox_worlds (p : Package) (k : Nat) : (p.dropInbox k).worlds = p.worlds := rfl
@[simp] theorem Package.dropInbox_spaces (p : Package) (k : Nat) : (p.dropInbox k).spaces = p.spaces := rfl
@[simp] theorem Package.dropInbox_shoots (p : Package) (k : Nat) : (p.dropInbox k).shoots = p.shoots := rfl
@[simp] theorem Package.dropInbox_walks (p : Package) (k : Nat) : (p.dropInbox k).walks = p.walks := rfl
@[simp] theorem Package.dropInbox_pods (p : Package) (k : Nat) : (p.dropInbox k).pods = p.pods := rfl
@[simp] theorem Package.dropInbox_mans (p : Package) (k : Nat) : (p.dropInbox k).mans = p.mans := rfl
@[simp] theorem Package.dropInbox_dels (p : Package) (k : Nat) : (p.dropInbox k).dels = p.dels := rfl
@[simp] theorem Package.dropInbox_carveOut (p : Package) (k : Nat) : (p.dropInbox k).carveOut = p.carveOut := rfl
@[simp] theorem Package.dropInbox_groups (p : Package) (k : Nat) : (p.dropInbox k).groups = p.groups := rfl
@[simp] theorem Package.dropInbox_ports (p : Package) (k : Nat) : (p.dropInbox k).ports = p.ports := rfl
@[simp] theorem Package.dropInbox_circuit (p : Package) (k : Nat) : (p.dropInbox k).circuit = p.circuit := rfl
@[simp] theorem Package.dropInbox_migrate (p : Package) (k : Nat) : (p.dropInbox k).migrate = p.migrate := rfl
@[simp] theorem Package.dropInbox_moves (p : Package) (k : Nat) : (p.dropInbox k).moves = p.moves := rfl
@[simp] theorem Package.dropInbox_homeAt (p : Package) (k : Nat) : (p.dropInbox k).homeAt = p.homeAt := rfl
@[simp] theorem Package.dropInbox_sys (p : Package) (k : Nat) : (p.dropInbox k).sys = p.sys := rfl

/-! ### wake -/

@[simp] theorem Package.wake_phys (p : Package) (c : Stall → Bool) : (p.wake c).phys = p.phys := rfl
@[simp] theorem Package.wake_now (p : Package) (c : Stall → Bool) : (p.wake c).now = p.now := rfl
@[simp] theorem Package.wake_agenda (p : Package) (c : Stall → Bool) : (p.wake c).agenda = p.agenda := rfl
@[simp] theorem Package.wake_inbox (p : Package) (c : Stall → Bool) : (p.wake c).inbox = p.inbox := rfl
@[simp] theorem Package.wake_out (p : Package) (c : Stall → Bool) : (p.wake c).out = p.out := rfl
@[simp] theorem Package.wake_sent (p : Package) (c : Stall → Bool) : (p.wake c).sent = p.sent := rfl
@[simp] theorem Package.wake_draws (p : Package) (c : Stall → Bool) : (p.wake c).draws = p.draws := rfl
@[simp] theorem Package.wake_picks (p : Package) (c : Stall → Bool) : (p.wake c).picks = p.picks := rfl
@[simp] theorem Package.wake_nextId (p : Package) (c : Stall → Bool) : (p.wake c).nextId = p.nextId := rfl
@[simp] theorem Package.wake_issue (p : Package) (c : Stall → Bool) : (p.wake c).issue = p.issue := rfl
@[simp] theorem Package.wake_pipes (p : Package) (c : Stall → Bool) : (p.wake c).pipes = p.pipes := rfl
@[simp] theorem Package.wake_freed (p : Package) (c : Stall → Bool) : (p.wake c).freed = p.freed := rfl
@[simp] theorem Package.wake_teams (p : Package) (c : Stall → Bool) : (p.wake c).teams = p.teams := rfl
@[simp] theorem Package.wake_parts (p : Package) (c : Stall → Bool) : (p.wake c).parts = p.parts := rfl
@[simp] theorem Package.wake_cores (p : Package) (c : Stall → Bool) : (p.wake c).cores = p.cores := rfl
@[simp] theorem Package.wake_rounds (p : Package) (c : Stall → Bool) : (p.wake c).rounds = p.rounds := rfl
@[simp] theorem Package.wake_sparse (p : Package) (c : Stall → Bool) : (p.wake c).sparse = p.sparse := rfl
@[simp] theorem Package.wake_grids (p : Package) (c : Stall → Bool) : (p.wake c).grids = p.grids := rfl
@[simp] theorem Package.wake_quays (p : Package) (c : Stall → Bool) : (p.wake c).quays = p.quays := rfl
@[simp] theorem Package.wake_journal (p : Package) (c : Stall → Bool) : (p.wake c).journal = p.journal := rfl
@[simp] theorem Package.wake_jobs (p : Package) (c : Stall → Bool) : (p.wake c).jobs = p.jobs := rfl
@[simp] theorem Package.wake_accs (p : Package) (c : Stall → Bool) : (p.wake c).accs = p.accs := rfl
@[simp] theorem Package.wake_writes (p : Package) (c : Stall → Bool) : (p.wake c).writes = p.writes := rfl
@[simp] theorem Package.wake_lines (p : Package) (c : Stall → Bool) : (p.wake c).lines = p.lines := rfl
@[simp] theorem Package.wake_horizons (p : Package) (c : Stall → Bool) : (p.wake c).horizons = p.horizons := rfl
@[simp] theorem Package.wake_mem (p : Package) (c : Stall → Bool) : (p.wake c).mem = p.mem := rfl
@[simp] theorem Package.wake_glabels (p : Package) (c : Stall → Bool) : (p.wake c).glabels = p.glabels := rfl
@[simp] theorem Package.wake_epochs (p : Package) (c : Stall → Bool) : (p.wake c).epochs = p.epochs := rfl
@[simp] theorem Package.wake_bad (p : Package) (c : Stall → Bool) : (p.wake c).bad = p.bad := rfl
@[simp] theorem Package.wake_owners (p : Package) (c : Stall → Bool) : (p.wake c).owners = p.owners := rfl
@[simp] theorem Package.wake_code (p : Package) (c : Stall → Bool) : (p.wake c).code = p.code := rfl
@[simp] theorem Package.wake_banks (p : Package) (c : Stall → Bool) : (p.wake c).banks = p.banks := rfl
@[simp] theorem Package.wake_layouts (p : Package) (c : Stall → Bool) : (p.wake c).layouts = p.layouts := rfl
@[simp] theorem Package.wake_labels (p : Package) (c : Stall → Bool) : (p.wake c).labels = p.labels := rfl
@[simp] theorem Package.wake_labelBase (p : Package) (c : Stall → Bool) : (p.wake c).labelBase = p.labelBase := rfl
@[simp] theorem Package.wake_endorse (p : Package) (c : Stall → Bool) : (p.wake c).endorse = p.endorse := rfl
@[simp] theorem Package.wake_worlds (p : Package) (c : Stall → Bool) : (p.wake c).worlds = p.worlds := rfl
@[simp] theorem Package.wake_spaces (p : Package) (c : Stall → Bool) : (p.wake c).spaces = p.spaces := rfl
@[simp] theorem Package.wake_shoots (p : Package) (c : Stall → Bool) : (p.wake c).shoots = p.shoots := rfl
@[simp] theorem Package.wake_walks (p : Package) (c : Stall → Bool) : (p.wake c).walks = p.walks := rfl
@[simp] theorem Package.wake_pods (p : Package) (c : Stall → Bool) : (p.wake c).pods = p.pods := rfl
@[simp] theorem Package.wake_mans (p : Package) (c : Stall → Bool) : (p.wake c).mans = p.mans := rfl
@[simp] theorem Package.wake_dels (p : Package) (c : Stall → Bool) : (p.wake c).dels = p.dels := rfl
@[simp] theorem Package.wake_carveOut (p : Package) (c : Stall → Bool) : (p.wake c).carveOut = p.carveOut := rfl
@[simp] theorem Package.wake_groups (p : Package) (c : Stall → Bool) : (p.wake c).groups = p.groups := rfl
@[simp] theorem Package.wake_ports (p : Package) (c : Stall → Bool) : (p.wake c).ports = p.ports := rfl
@[simp] theorem Package.wake_circuit (p : Package) (c : Stall → Bool) : (p.wake c).circuit = p.circuit := rfl
@[simp] theorem Package.wake_migrate (p : Package) (c : Stall → Bool) : (p.wake c).migrate = p.migrate := rfl
@[simp] theorem Package.wake_moves (p : Package) (c : Stall → Bool) : (p.wake c).moves = p.moves := rfl
@[simp] theorem Package.wake_homeAt (p : Package) (c : Stall → Bool) : (p.wake c).homeAt = p.homeAt := rfl
@[simp] theorem Package.wake_sys (p : Package) (c : Stall → Bool) : (p.wake c).sys = p.sys := rfl

/-! ### unstall -/

@[simp] theorem Package.unstall_phys (p : Package) (c : Stall → Bool) : (p.unstall c).phys = p.phys := rfl
@[simp] theorem Package.unstall_now (p : Package) (c : Stall → Bool) : (p.unstall c).now = p.now := rfl
@[simp] theorem Package.unstall_agenda (p : Package) (c : Stall → Bool) : (p.unstall c).agenda = p.agenda := rfl
@[simp] theorem Package.unstall_inbox (p : Package) (c : Stall → Bool) : (p.unstall c).inbox = p.inbox := rfl
@[simp] theorem Package.unstall_out (p : Package) (c : Stall → Bool) : (p.unstall c).out = p.out := rfl
@[simp] theorem Package.unstall_sent (p : Package) (c : Stall → Bool) : (p.unstall c).sent = p.sent := rfl
@[simp] theorem Package.unstall_draws (p : Package) (c : Stall → Bool) : (p.unstall c).draws = p.draws := rfl
@[simp] theorem Package.unstall_picks (p : Package) (c : Stall → Bool) : (p.unstall c).picks = p.picks := rfl
@[simp] theorem Package.unstall_nextId (p : Package) (c : Stall → Bool) : (p.unstall c).nextId = p.nextId := rfl
@[simp] theorem Package.unstall_issue (p : Package) (c : Stall → Bool) : (p.unstall c).issue = p.issue := rfl
@[simp] theorem Package.unstall_issued (p : Package) (c : Stall → Bool) : (p.unstall c).issued = p.issued := rfl
@[simp] theorem Package.unstall_pipes (p : Package) (c : Stall → Bool) : (p.unstall c).pipes = p.pipes := rfl
@[simp] theorem Package.unstall_freed (p : Package) (c : Stall → Bool) : (p.unstall c).freed = p.freed := rfl
@[simp] theorem Package.unstall_teams (p : Package) (c : Stall → Bool) : (p.unstall c).teams = p.teams := rfl
@[simp] theorem Package.unstall_parts (p : Package) (c : Stall → Bool) : (p.unstall c).parts = p.parts := rfl
@[simp] theorem Package.unstall_cores (p : Package) (c : Stall → Bool) : (p.unstall c).cores = p.cores := rfl
@[simp] theorem Package.unstall_rounds (p : Package) (c : Stall → Bool) : (p.unstall c).rounds = p.rounds := rfl
@[simp] theorem Package.unstall_sparse (p : Package) (c : Stall → Bool) : (p.unstall c).sparse = p.sparse := rfl
@[simp] theorem Package.unstall_grids (p : Package) (c : Stall → Bool) : (p.unstall c).grids = p.grids := rfl
@[simp] theorem Package.unstall_quays (p : Package) (c : Stall → Bool) : (p.unstall c).quays = p.quays := rfl
@[simp] theorem Package.unstall_journal (p : Package) (c : Stall → Bool) : (p.unstall c).journal = p.journal := rfl
@[simp] theorem Package.unstall_jobs (p : Package) (c : Stall → Bool) : (p.unstall c).jobs = p.jobs := rfl
@[simp] theorem Package.unstall_accs (p : Package) (c : Stall → Bool) : (p.unstall c).accs = p.accs := rfl
@[simp] theorem Package.unstall_writes (p : Package) (c : Stall → Bool) : (p.unstall c).writes = p.writes := rfl
@[simp] theorem Package.unstall_lines (p : Package) (c : Stall → Bool) : (p.unstall c).lines = p.lines := rfl
@[simp] theorem Package.unstall_horizons (p : Package) (c : Stall → Bool) : (p.unstall c).horizons = p.horizons := rfl
@[simp] theorem Package.unstall_mem (p : Package) (c : Stall → Bool) : (p.unstall c).mem = p.mem := rfl
@[simp] theorem Package.unstall_glabels (p : Package) (c : Stall → Bool) : (p.unstall c).glabels = p.glabels := rfl
@[simp] theorem Package.unstall_epochs (p : Package) (c : Stall → Bool) : (p.unstall c).epochs = p.epochs := rfl
@[simp] theorem Package.unstall_bad (p : Package) (c : Stall → Bool) : (p.unstall c).bad = p.bad := rfl
@[simp] theorem Package.unstall_owners (p : Package) (c : Stall → Bool) : (p.unstall c).owners = p.owners := rfl
@[simp] theorem Package.unstall_code (p : Package) (c : Stall → Bool) : (p.unstall c).code = p.code := rfl
@[simp] theorem Package.unstall_banks (p : Package) (c : Stall → Bool) : (p.unstall c).banks = p.banks := rfl
@[simp] theorem Package.unstall_layouts (p : Package) (c : Stall → Bool) : (p.unstall c).layouts = p.layouts := rfl
@[simp] theorem Package.unstall_labels (p : Package) (c : Stall → Bool) : (p.unstall c).labels = p.labels := rfl
@[simp] theorem Package.unstall_labelBase (p : Package) (c : Stall → Bool) : (p.unstall c).labelBase = p.labelBase := rfl
@[simp] theorem Package.unstall_endorse (p : Package) (c : Stall → Bool) : (p.unstall c).endorse = p.endorse := rfl
@[simp] theorem Package.unstall_worlds (p : Package) (c : Stall → Bool) : (p.unstall c).worlds = p.worlds := rfl
@[simp] theorem Package.unstall_spaces (p : Package) (c : Stall → Bool) : (p.unstall c).spaces = p.spaces := rfl
@[simp] theorem Package.unstall_shoots (p : Package) (c : Stall → Bool) : (p.unstall c).shoots = p.shoots := rfl
@[simp] theorem Package.unstall_walks (p : Package) (c : Stall → Bool) : (p.unstall c).walks = p.walks := rfl
@[simp] theorem Package.unstall_pods (p : Package) (c : Stall → Bool) : (p.unstall c).pods = p.pods := rfl
@[simp] theorem Package.unstall_mans (p : Package) (c : Stall → Bool) : (p.unstall c).mans = p.mans := rfl
@[simp] theorem Package.unstall_dels (p : Package) (c : Stall → Bool) : (p.unstall c).dels = p.dels := rfl
@[simp] theorem Package.unstall_carveOut (p : Package) (c : Stall → Bool) : (p.unstall c).carveOut = p.carveOut := rfl
@[simp] theorem Package.unstall_groups (p : Package) (c : Stall → Bool) : (p.unstall c).groups = p.groups := rfl
@[simp] theorem Package.unstall_ports (p : Package) (c : Stall → Bool) : (p.unstall c).ports = p.ports := rfl
@[simp] theorem Package.unstall_circuit (p : Package) (c : Stall → Bool) : (p.unstall c).circuit = p.circuit := rfl
@[simp] theorem Package.unstall_migrate (p : Package) (c : Stall → Bool) : (p.unstall c).migrate = p.migrate := rfl
@[simp] theorem Package.unstall_moves (p : Package) (c : Stall → Bool) : (p.unstall c).moves = p.moves := rfl
@[simp] theorem Package.unstall_homeAt (p : Package) (c : Stall → Bool) : (p.unstall c).homeAt = p.homeAt := rfl
@[simp] theorem Package.unstall_sys (p : Package) (c : Stall → Bool) : (p.unstall c).sys = p.sys := rfl

/-! ### uncount -/

@[simp] theorem Package.uncount_phys (p : Package) (k : Nat) : (p.uncount k).phys = p.phys := rfl
@[simp] theorem Package.uncount_now (p : Package) (k : Nat) : (p.uncount k).now = p.now := rfl
@[simp] theorem Package.uncount_agenda (p : Package) (k : Nat) : (p.uncount k).agenda = p.agenda := rfl
@[simp] theorem Package.uncount_inbox (p : Package) (k : Nat) : (p.uncount k).inbox = p.inbox := rfl
@[simp] theorem Package.uncount_out (p : Package) (k : Nat) : (p.uncount k).out = p.out := rfl
@[simp] theorem Package.uncount_sent (p : Package) (k : Nat) : (p.uncount k).sent = p.sent := rfl
@[simp] theorem Package.uncount_draws (p : Package) (k : Nat) : (p.uncount k).draws = p.draws := rfl
@[simp] theorem Package.uncount_picks (p : Package) (k : Nat) : (p.uncount k).picks = p.picks := rfl
@[simp] theorem Package.uncount_nextId (p : Package) (k : Nat) : (p.uncount k).nextId = p.nextId := rfl
@[simp] theorem Package.uncount_issue (p : Package) (k : Nat) : (p.uncount k).issue = p.issue := rfl
@[simp] theorem Package.uncount_issued (p : Package) (k : Nat) : (p.uncount k).issued = p.issued := rfl
@[simp] theorem Package.uncount_pipes (p : Package) (k : Nat) : (p.uncount k).pipes = p.pipes := rfl
@[simp] theorem Package.uncount_freed (p : Package) (k : Nat) : (p.uncount k).freed = p.freed := rfl
@[simp] theorem Package.uncount_teams (p : Package) (k : Nat) : (p.uncount k).teams = p.teams := rfl
@[simp] theorem Package.uncount_gangs (p : Package) (k : Nat) : (p.uncount k).gangs = p.gangs := rfl
@[simp] theorem Package.uncount_parts (p : Package) (k : Nat) : (p.uncount k).parts = p.parts := rfl
@[simp] theorem Package.uncount_cores (p : Package) (k : Nat) : (p.uncount k).cores = p.cores := rfl
@[simp] theorem Package.uncount_rounds (p : Package) (k : Nat) : (p.uncount k).rounds = p.rounds := rfl
@[simp] theorem Package.uncount_sparse (p : Package) (k : Nat) : (p.uncount k).sparse = p.sparse := rfl
@[simp] theorem Package.uncount_grids (p : Package) (k : Nat) : (p.uncount k).grids = p.grids := rfl
@[simp] theorem Package.uncount_quays (p : Package) (k : Nat) : (p.uncount k).quays = p.quays := rfl
@[simp] theorem Package.uncount_journal (p : Package) (k : Nat) : (p.uncount k).journal = p.journal := rfl
@[simp] theorem Package.uncount_jobs (p : Package) (k : Nat) : (p.uncount k).jobs = p.jobs := rfl
@[simp] theorem Package.uncount_accs (p : Package) (k : Nat) : (p.uncount k).accs = p.accs := rfl
@[simp] theorem Package.uncount_writes (p : Package) (k : Nat) : (p.uncount k).writes = p.writes := rfl
@[simp] theorem Package.uncount_horizons (p : Package) (k : Nat) : (p.uncount k).horizons = p.horizons := rfl
@[simp] theorem Package.uncount_mem (p : Package) (k : Nat) : (p.uncount k).mem = p.mem := rfl
@[simp] theorem Package.uncount_glabels (p : Package) (k : Nat) : (p.uncount k).glabels = p.glabels := rfl
@[simp] theorem Package.uncount_epochs (p : Package) (k : Nat) : (p.uncount k).epochs = p.epochs := rfl
@[simp] theorem Package.uncount_bad (p : Package) (k : Nat) : (p.uncount k).bad = p.bad := rfl
@[simp] theorem Package.uncount_owners (p : Package) (k : Nat) : (p.uncount k).owners = p.owners := rfl
@[simp] theorem Package.uncount_code (p : Package) (k : Nat) : (p.uncount k).code = p.code := rfl
@[simp] theorem Package.uncount_banks (p : Package) (k : Nat) : (p.uncount k).banks = p.banks := rfl
@[simp] theorem Package.uncount_layouts (p : Package) (k : Nat) : (p.uncount k).layouts = p.layouts := rfl
@[simp] theorem Package.uncount_labels (p : Package) (k : Nat) : (p.uncount k).labels = p.labels := rfl
@[simp] theorem Package.uncount_labelBase (p : Package) (k : Nat) : (p.uncount k).labelBase = p.labelBase := rfl
@[simp] theorem Package.uncount_endorse (p : Package) (k : Nat) : (p.uncount k).endorse = p.endorse := rfl
@[simp] theorem Package.uncount_worlds (p : Package) (k : Nat) : (p.uncount k).worlds = p.worlds := rfl
@[simp] theorem Package.uncount_spaces (p : Package) (k : Nat) : (p.uncount k).spaces = p.spaces := rfl
@[simp] theorem Package.uncount_shoots (p : Package) (k : Nat) : (p.uncount k).shoots = p.shoots := rfl
@[simp] theorem Package.uncount_walks (p : Package) (k : Nat) : (p.uncount k).walks = p.walks := rfl
@[simp] theorem Package.uncount_pods (p : Package) (k : Nat) : (p.uncount k).pods = p.pods := rfl
@[simp] theorem Package.uncount_mans (p : Package) (k : Nat) : (p.uncount k).mans = p.mans := rfl
@[simp] theorem Package.uncount_carveOut (p : Package) (k : Nat) : (p.uncount k).carveOut = p.carveOut := rfl
@[simp] theorem Package.uncount_groups (p : Package) (k : Nat) : (p.uncount k).groups = p.groups := rfl
@[simp] theorem Package.uncount_ports (p : Package) (k : Nat) : (p.uncount k).ports = p.ports := rfl
@[simp] theorem Package.uncount_circuit (p : Package) (k : Nat) : (p.uncount k).circuit = p.circuit := rfl
@[simp] theorem Package.uncount_migrate (p : Package) (k : Nat) : (p.uncount k).migrate = p.migrate := rfl
@[simp] theorem Package.uncount_moves (p : Package) (k : Nat) : (p.uncount k).moves = p.moves := rfl
@[simp] theorem Package.uncount_homeAt (p : Package) (k : Nat) : (p.uncount k).homeAt = p.homeAt := rfl
@[simp] theorem Package.uncount_sys (p : Package) (k : Nat) : (p.uncount k).sys = p.sys := rfl

/-! ### keep -/

@[simp] theorem Package.keep_phys (p : Package) (q : Package) : (p.keep q).phys = p.phys := rfl
@[simp] theorem Package.keep_now (p : Package) (q : Package) : (p.keep q).now = p.now := rfl
@[simp] theorem Package.keep_agenda (p : Package) (q : Package) : (p.keep q).agenda = p.agenda := rfl
@[simp] theorem Package.keep_inbox (p : Package) (q : Package) : (p.keep q).inbox = p.inbox := rfl
@[simp] theorem Package.keep_out (p : Package) (q : Package) : (p.keep q).out = p.out := rfl
@[simp] theorem Package.keep_sent (p : Package) (q : Package) : (p.keep q).sent = p.sent := rfl
@[simp] theorem Package.keep_draws (p : Package) (q : Package) : (p.keep q).draws = p.draws := rfl
@[simp] theorem Package.keep_picks (p : Package) (q : Package) : (p.keep q).picks = p.picks := rfl
@[simp] theorem Package.keep_nextId (p : Package) (q : Package) : (p.keep q).nextId = p.nextId := rfl
@[simp] theorem Package.keep_issue (p : Package) (q : Package) : (p.keep q).issue = p.issue := rfl
@[simp] theorem Package.keep_issued (p : Package) (q : Package) : (p.keep q).issued = p.issued := rfl
@[simp] theorem Package.keep_pipes (p : Package) (q : Package) : (p.keep q).pipes = p.pipes := rfl
@[simp] theorem Package.keep_freed (p : Package) (q : Package) : (p.keep q).freed = p.freed := rfl
@[simp] theorem Package.keep_teams (p : Package) (q : Package) : (p.keep q).teams = p.teams := rfl
@[simp] theorem Package.keep_gangs (p : Package) (q : Package) : (p.keep q).gangs = p.gangs := rfl
@[simp] theorem Package.keep_parts (p : Package) (q : Package) : (p.keep q).parts = p.parts := rfl
@[simp] theorem Package.keep_cores (p : Package) (q : Package) : (p.keep q).cores = p.cores := rfl
@[simp] theorem Package.keep_rounds (p : Package) (q : Package) : (p.keep q).rounds = p.rounds := rfl
@[simp] theorem Package.keep_sparse (p : Package) (q : Package) : (p.keep q).sparse = p.sparse := rfl
@[simp] theorem Package.keep_grids (p : Package) (q : Package) : (p.keep q).grids = p.grids := rfl
@[simp] theorem Package.keep_quays (p : Package) (q : Package) : (p.keep q).quays = p.quays := rfl
@[simp] theorem Package.keep_journal (p : Package) (q : Package) : (p.keep q).journal = p.journal := rfl
@[simp] theorem Package.keep_jobs (p : Package) (q : Package) : (p.keep q).jobs = p.jobs := rfl
@[simp] theorem Package.keep_accs (p : Package) (q : Package) : (p.keep q).accs = p.accs := rfl
@[simp] theorem Package.keep_writes (p : Package) (q : Package) : (p.keep q).writes = p.writes := rfl
@[simp] theorem Package.keep_lines (p : Package) (q : Package) : (p.keep q).lines = p.lines := rfl
@[simp] theorem Package.keep_horizons (p : Package) (q : Package) : (p.keep q).horizons = p.horizons := rfl
@[simp] theorem Package.keep_mem (p : Package) (q : Package) : (p.keep q).mem = p.mem := rfl
@[simp] theorem Package.keep_glabels (p : Package) (q : Package) : (p.keep q).glabels = p.glabels := rfl
@[simp] theorem Package.keep_epochs (p : Package) (q : Package) : (p.keep q).epochs = p.epochs := rfl
@[simp] theorem Package.keep_bad (p : Package) (q : Package) : (p.keep q).bad = p.bad := rfl
@[simp] theorem Package.keep_owners (p : Package) (q : Package) : (p.keep q).owners = p.owners := rfl
@[simp] theorem Package.keep_code (p : Package) (q : Package) : (p.keep q).code = p.code := rfl
@[simp] theorem Package.keep_banks (p : Package) (q : Package) : (p.keep q).banks = p.banks := rfl
@[simp] theorem Package.keep_layouts (p : Package) (q : Package) : (p.keep q).layouts = p.layouts := rfl
@[simp] theorem Package.keep_labels (p : Package) (q : Package) : (p.keep q).labels = q.labels := rfl
@[simp] theorem Package.keep_labelBase (p : Package) (q : Package) : (p.keep q).labelBase = p.labelBase := rfl
@[simp] theorem Package.keep_endorse (p : Package) (q : Package) : (p.keep q).endorse = p.endorse := rfl
@[simp] theorem Package.keep_worlds (p : Package) (q : Package) : (p.keep q).worlds = q.worlds := rfl
@[simp] theorem Package.keep_spaces (p : Package) (q : Package) : (p.keep q).spaces = p.spaces := rfl
@[simp] theorem Package.keep_shoots (p : Package) (q : Package) : (p.keep q).shoots = p.shoots := rfl
@[simp] theorem Package.keep_walks (p : Package) (q : Package) : (p.keep q).walks = p.walks := rfl
@[simp] theorem Package.keep_pods (p : Package) (q : Package) : (p.keep q).pods = p.pods := rfl
@[simp] theorem Package.keep_mans (p : Package) (q : Package) : (p.keep q).mans = p.mans := rfl
@[simp] theorem Package.keep_dels (p : Package) (q : Package) : (p.keep q).dels = p.dels := rfl
@[simp] theorem Package.keep_carveOut (p : Package) (q : Package) : (p.keep q).carveOut = p.carveOut := rfl
@[simp] theorem Package.keep_groups (p : Package) (q : Package) : (p.keep q).groups = p.groups := rfl
@[simp] theorem Package.keep_ports (p : Package) (q : Package) : (p.keep q).ports = p.ports := rfl
@[simp] theorem Package.keep_circuit (p : Package) (q : Package) : (p.keep q).circuit = p.circuit := rfl
@[simp] theorem Package.keep_migrate (p : Package) (q : Package) : (p.keep q).migrate = p.migrate := rfl
@[simp] theorem Package.keep_moves (p : Package) (q : Package) : (p.keep q).moves = p.moves := rfl
@[simp] theorem Package.keep_homeAt (p : Package) (q : Package) : (p.keep q).homeAt = p.homeAt := rfl

/-! ### forget -/

@[simp] theorem Package.forget_phys (p : Package) (g : Xlat → Bool) (l : WalkLine → Bool) : (p.forget g l).phys = p.phys := rfl
@[simp] theorem Package.forget_now (p : Package) (g : Xlat → Bool) (l : WalkLine → Bool) : (p.forget g l).now = p.now := rfl
@[simp] theorem Package.forget_agenda (p : Package) (g : Xlat → Bool) (l : WalkLine → Bool) : (p.forget g l).agenda = p.agenda := rfl
@[simp] theorem Package.forget_inbox (p : Package) (g : Xlat → Bool) (l : WalkLine → Bool) : (p.forget g l).inbox = p.inbox := rfl
@[simp] theorem Package.forget_out (p : Package) (g : Xlat → Bool) (l : WalkLine → Bool) : (p.forget g l).out = p.out := rfl
@[simp] theorem Package.forget_sent (p : Package) (g : Xlat → Bool) (l : WalkLine → Bool) : (p.forget g l).sent = p.sent := rfl
@[simp] theorem Package.forget_draws (p : Package) (g : Xlat → Bool) (l : WalkLine → Bool) : (p.forget g l).draws = p.draws := rfl
@[simp] theorem Package.forget_picks (p : Package) (g : Xlat → Bool) (l : WalkLine → Bool) : (p.forget g l).picks = p.picks := rfl
@[simp] theorem Package.forget_nextId (p : Package) (g : Xlat → Bool) (l : WalkLine → Bool) : (p.forget g l).nextId = p.nextId := rfl
@[simp] theorem Package.forget_issue (p : Package) (g : Xlat → Bool) (l : WalkLine → Bool) : (p.forget g l).issue = p.issue := rfl
@[simp] theorem Package.forget_issued (p : Package) (g : Xlat → Bool) (l : WalkLine → Bool) : (p.forget g l).issued = p.issued := rfl
@[simp] theorem Package.forget_pipes (p : Package) (g : Xlat → Bool) (l : WalkLine → Bool) : (p.forget g l).pipes = p.pipes := rfl
@[simp] theorem Package.forget_freed (p : Package) (g : Xlat → Bool) (l : WalkLine → Bool) : (p.forget g l).freed = p.freed := rfl
@[simp] theorem Package.forget_teams (p : Package) (g : Xlat → Bool) (l : WalkLine → Bool) : (p.forget g l).teams = p.teams := rfl
@[simp] theorem Package.forget_gangs (p : Package) (g : Xlat → Bool) (l : WalkLine → Bool) : (p.forget g l).gangs = p.gangs := rfl
@[simp] theorem Package.forget_parts (p : Package) (g : Xlat → Bool) (l : WalkLine → Bool) : (p.forget g l).parts = p.parts := rfl
@[simp] theorem Package.forget_rounds (p : Package) (g : Xlat → Bool) (l : WalkLine → Bool) : (p.forget g l).rounds = p.rounds := rfl
@[simp] theorem Package.forget_sparse (p : Package) (g : Xlat → Bool) (l : WalkLine → Bool) : (p.forget g l).sparse = p.sparse := rfl
@[simp] theorem Package.forget_grids (p : Package) (g : Xlat → Bool) (l : WalkLine → Bool) : (p.forget g l).grids = p.grids := rfl
@[simp] theorem Package.forget_quays (p : Package) (g : Xlat → Bool) (l : WalkLine → Bool) : (p.forget g l).quays = p.quays := rfl
@[simp] theorem Package.forget_journal (p : Package) (g : Xlat → Bool) (l : WalkLine → Bool) : (p.forget g l).journal = p.journal := rfl
@[simp] theorem Package.forget_jobs (p : Package) (g : Xlat → Bool) (l : WalkLine → Bool) : (p.forget g l).jobs = p.jobs := rfl
@[simp] theorem Package.forget_accs (p : Package) (g : Xlat → Bool) (l : WalkLine → Bool) : (p.forget g l).accs = p.accs := rfl
@[simp] theorem Package.forget_writes (p : Package) (g : Xlat → Bool) (l : WalkLine → Bool) : (p.forget g l).writes = p.writes := rfl
@[simp] theorem Package.forget_lines (p : Package) (g : Xlat → Bool) (l : WalkLine → Bool) : (p.forget g l).lines = p.lines := rfl
@[simp] theorem Package.forget_horizons (p : Package) (g : Xlat → Bool) (l : WalkLine → Bool) : (p.forget g l).horizons = p.horizons := rfl
@[simp] theorem Package.forget_mem (p : Package) (g : Xlat → Bool) (l : WalkLine → Bool) : (p.forget g l).mem = p.mem := rfl
@[simp] theorem Package.forget_glabels (p : Package) (g : Xlat → Bool) (l : WalkLine → Bool) : (p.forget g l).glabels = p.glabels := rfl
@[simp] theorem Package.forget_epochs (p : Package) (g : Xlat → Bool) (l : WalkLine → Bool) : (p.forget g l).epochs = p.epochs := rfl
@[simp] theorem Package.forget_bad (p : Package) (g : Xlat → Bool) (l : WalkLine → Bool) : (p.forget g l).bad = p.bad := rfl
@[simp] theorem Package.forget_owners (p : Package) (g : Xlat → Bool) (l : WalkLine → Bool) : (p.forget g l).owners = p.owners := rfl
@[simp] theorem Package.forget_code (p : Package) (g : Xlat → Bool) (l : WalkLine → Bool) : (p.forget g l).code = p.code := rfl
@[simp] theorem Package.forget_banks (p : Package) (g : Xlat → Bool) (l : WalkLine → Bool) : (p.forget g l).banks = p.banks := rfl
@[simp] theorem Package.forget_layouts (p : Package) (g : Xlat → Bool) (l : WalkLine → Bool) : (p.forget g l).layouts = p.layouts := rfl
@[simp] theorem Package.forget_labels (p : Package) (g : Xlat → Bool) (l : WalkLine → Bool) : (p.forget g l).labels = p.labels := rfl
@[simp] theorem Package.forget_labelBase (p : Package) (g : Xlat → Bool) (l : WalkLine → Bool) : (p.forget g l).labelBase = p.labelBase := rfl
@[simp] theorem Package.forget_endorse (p : Package) (g : Xlat → Bool) (l : WalkLine → Bool) : (p.forget g l).endorse = p.endorse := rfl
@[simp] theorem Package.forget_worlds (p : Package) (g : Xlat → Bool) (l : WalkLine → Bool) : (p.forget g l).worlds = p.worlds := rfl
@[simp] theorem Package.forget_spaces (p : Package) (g : Xlat → Bool) (l : WalkLine → Bool) : (p.forget g l).spaces = p.spaces := rfl
@[simp] theorem Package.forget_shoots (p : Package) (g : Xlat → Bool) (l : WalkLine → Bool) : (p.forget g l).shoots = p.shoots := rfl
@[simp] theorem Package.forget_walks (p : Package) (g : Xlat → Bool) (l : WalkLine → Bool) : (p.forget g l).walks = p.walks.filter (fun x => !l x) := rfl
@[simp] theorem Package.forget_pods (p : Package) (g : Xlat → Bool) (l : WalkLine → Bool) : (p.forget g l).pods = p.pods := rfl
@[simp] theorem Package.forget_mans (p : Package) (g : Xlat → Bool) (l : WalkLine → Bool) : (p.forget g l).mans = p.mans := rfl
@[simp] theorem Package.forget_dels (p : Package) (g : Xlat → Bool) (l : WalkLine → Bool) : (p.forget g l).dels = p.dels := rfl
@[simp] theorem Package.forget_carveOut (p : Package) (g : Xlat → Bool) (l : WalkLine → Bool) : (p.forget g l).carveOut = p.carveOut := rfl
@[simp] theorem Package.forget_groups (p : Package) (g : Xlat → Bool) (l : WalkLine → Bool) : (p.forget g l).groups = p.groups := rfl
@[simp] theorem Package.forget_ports (p : Package) (g : Xlat → Bool) (l : WalkLine → Bool) : (p.forget g l).ports = p.ports := rfl
@[simp] theorem Package.forget_circuit (p : Package) (g : Xlat → Bool) (l : WalkLine → Bool) : (p.forget g l).circuit = p.circuit := rfl
@[simp] theorem Package.forget_migrate (p : Package) (g : Xlat → Bool) (l : WalkLine → Bool) : (p.forget g l).migrate = p.migrate := rfl
@[simp] theorem Package.forget_moves (p : Package) (g : Xlat → Bool) (l : WalkLine → Bool) : (p.forget g l).moves = p.moves := rfl
@[simp] theorem Package.forget_homeAt (p : Package) (g : Xlat → Bool) (l : WalkLine → Bool) : (p.forget g l).homeAt = p.homeAt := rfl
@[simp] theorem Package.forget_sys (p : Package) (g : Xlat → Bool) (l : WalkLine → Bool) : (p.forget g l).sys = p.sys := rfl

/-! ### atHomes -/

@[simp] theorem Package.atHomes_phys (p : Package)  : (p.atHomes).phys = p.phys := rfl
@[simp] theorem Package.atHomes_now (p : Package)  : (p.atHomes).now = p.now := rfl
@[simp] theorem Package.atHomes_agenda (p : Package)  : (p.atHomes).agenda = p.agenda := rfl
@[simp] theorem Package.atHomes_inbox (p : Package)  : (p.atHomes).inbox = p.inbox := rfl
@[simp] theorem Package.atHomes_out (p : Package)  : (p.atHomes).out = p.out := rfl
@[simp] theorem Package.atHomes_sent (p : Package)  : (p.atHomes).sent = p.sent := rfl
@[simp] theorem Package.atHomes_draws (p : Package)  : (p.atHomes).draws = p.draws := rfl
@[simp] theorem Package.atHomes_picks (p : Package)  : (p.atHomes).picks = p.picks := rfl
@[simp] theorem Package.atHomes_nextId (p : Package)  : (p.atHomes).nextId = p.nextId := rfl
@[simp] theorem Package.atHomes_issue (p : Package)  : (p.atHomes).issue = p.issue := rfl
@[simp] theorem Package.atHomes_issued (p : Package)  : (p.atHomes).issued = p.issued := rfl
@[simp] theorem Package.atHomes_pipes (p : Package)  : (p.atHomes).pipes = p.pipes := rfl
@[simp] theorem Package.atHomes_freed (p : Package)  : (p.atHomes).freed = p.freed := rfl
@[simp] theorem Package.atHomes_teams (p : Package)  : (p.atHomes).teams = p.teams := rfl
@[simp] theorem Package.atHomes_gangs (p : Package)  : (p.atHomes).gangs = p.gangs := rfl
@[simp] theorem Package.atHomes_parts (p : Package)  : (p.atHomes).parts = p.parts := rfl
@[simp] theorem Package.atHomes_cores (p : Package)  : (p.atHomes).cores = p.cores := rfl
@[simp] theorem Package.atHomes_rounds (p : Package)  : (p.atHomes).rounds = p.rounds := rfl
@[simp] theorem Package.atHomes_sparse (p : Package)  : (p.atHomes).sparse = p.sparse := rfl
@[simp] theorem Package.atHomes_grids (p : Package)  : (p.atHomes).grids = p.grids := rfl
@[simp] theorem Package.atHomes_quays (p : Package)  : (p.atHomes).quays = p.quays := rfl
@[simp] theorem Package.atHomes_journal (p : Package)  : (p.atHomes).journal = p.journal := rfl
@[simp] theorem Package.atHomes_jobs (p : Package)  : (p.atHomes).jobs = p.jobs := rfl
@[simp] theorem Package.atHomes_accs (p : Package)  : (p.atHomes).accs = p.accs := rfl
@[simp] theorem Package.atHomes_writes (p : Package)  : (p.atHomes).writes = p.writes := rfl
@[simp] theorem Package.atHomes_lines (p : Package)  : (p.atHomes).lines = p.lines := rfl
@[simp] theorem Package.atHomes_horizons (p : Package)  : (p.atHomes).horizons = p.horizons := rfl
@[simp] theorem Package.atHomes_mem (p : Package)  : (p.atHomes).mem = p.mem := rfl
@[simp] theorem Package.atHomes_glabels (p : Package)  : (p.atHomes).glabels = p.glabels := rfl
@[simp] theorem Package.atHomes_epochs (p : Package)  : (p.atHomes).epochs = p.epochs := rfl
@[simp] theorem Package.atHomes_bad (p : Package)  : (p.atHomes).bad = p.bad := rfl
@[simp] theorem Package.atHomes_owners (p : Package)  : (p.atHomes).owners = p.owners := rfl
@[simp] theorem Package.atHomes_code (p : Package)  : (p.atHomes).code = p.code := rfl
@[simp] theorem Package.atHomes_banks (p : Package)  : (p.atHomes).banks = p.banks := rfl
@[simp] theorem Package.atHomes_layouts (p : Package)  : (p.atHomes).layouts = p.layouts := rfl
@[simp] theorem Package.atHomes_labels (p : Package)  : (p.atHomes).labels = p.labels := rfl
@[simp] theorem Package.atHomes_labelBase (p : Package)  : (p.atHomes).labelBase = p.labelBase := rfl
@[simp] theorem Package.atHomes_endorse (p : Package)  : (p.atHomes).endorse = p.endorse := rfl
@[simp] theorem Package.atHomes_worlds (p : Package)  : (p.atHomes).worlds = p.worlds := rfl
@[simp] theorem Package.atHomes_spaces (p : Package)  : (p.atHomes).spaces = p.spaces := rfl
@[simp] theorem Package.atHomes_shoots (p : Package)  : (p.atHomes).shoots = p.shoots := rfl
@[simp] theorem Package.atHomes_walks (p : Package)  : (p.atHomes).walks = p.walks := rfl
@[simp] theorem Package.atHomes_pods (p : Package)  : (p.atHomes).pods = p.pods := rfl
@[simp] theorem Package.atHomes_mans (p : Package)  : (p.atHomes).mans = p.mans := rfl
@[simp] theorem Package.atHomes_dels (p : Package)  : (p.atHomes).dels = p.dels := rfl
@[simp] theorem Package.atHomes_carveOut (p : Package)  : (p.atHomes).carveOut = p.carveOut := rfl
@[simp] theorem Package.atHomes_groups (p : Package)  : (p.atHomes).groups = p.groups := rfl
@[simp] theorem Package.atHomes_ports (p : Package)  : (p.atHomes).ports = p.ports := rfl
@[simp] theorem Package.atHomes_circuit (p : Package)  : (p.atHomes).circuit = p.circuit := rfl
@[simp] theorem Package.atHomes_migrate (p : Package)  : (p.atHomes).migrate = p.migrate := rfl
@[simp] theorem Package.atHomes_moves (p : Package)  : (p.atHomes).moves = p.moves := rfl
@[simp] theorem Package.atHomes_homeAt (p : Package)  : (p.atHomes).homeAt = p.now + 1 := rfl
@[simp] theorem Package.atHomes_sys (p : Package)  : (p.atHomes).sys = p.sys := rfl

/-! ### clearBank -/

@[simp] theorem Package.clearBank_phys (p : Package) (c b : Nat) : (p.clearBank c b).phys = p.phys := rfl
@[simp] theorem Package.clearBank_now (p : Package) (c b : Nat) : (p.clearBank c b).now = p.now := rfl
@[simp] theorem Package.clearBank_agenda (p : Package) (c b : Nat) : (p.clearBank c b).agenda = p.agenda := rfl
@[simp] theorem Package.clearBank_inbox (p : Package) (c b : Nat) : (p.clearBank c b).inbox = p.inbox := rfl
@[simp] theorem Package.clearBank_out (p : Package) (c b : Nat) : (p.clearBank c b).out = p.out := rfl
@[simp] theorem Package.clearBank_sent (p : Package) (c b : Nat) : (p.clearBank c b).sent = p.sent := rfl
@[simp] theorem Package.clearBank_draws (p : Package) (c b : Nat) : (p.clearBank c b).draws = p.draws := rfl
@[simp] theorem Package.clearBank_picks (p : Package) (c b : Nat) : (p.clearBank c b).picks = p.picks := rfl
@[simp] theorem Package.clearBank_nextId (p : Package) (c b : Nat) : (p.clearBank c b).nextId = p.nextId := rfl
@[simp] theorem Package.clearBank_issue (p : Package) (c b : Nat) : (p.clearBank c b).issue = p.issue := rfl
@[simp] theorem Package.clearBank_issued (p : Package) (c b : Nat) : (p.clearBank c b).issued = p.issued := rfl
@[simp] theorem Package.clearBank_pipes (p : Package) (c b : Nat) : (p.clearBank c b).pipes = p.pipes := rfl
@[simp] theorem Package.clearBank_freed (p : Package) (c b : Nat) : (p.clearBank c b).freed = p.freed := rfl
@[simp] theorem Package.clearBank_teams (p : Package) (c b : Nat) : (p.clearBank c b).teams = p.teams := rfl
@[simp] theorem Package.clearBank_gangs (p : Package) (c b : Nat) : (p.clearBank c b).gangs = p.gangs := rfl
@[simp] theorem Package.clearBank_parts (p : Package) (c b : Nat) : (p.clearBank c b).parts = p.parts := rfl
@[simp] theorem Package.clearBank_cores (p : Package) (c b : Nat) : (p.clearBank c b).cores = p.cores := rfl
@[simp] theorem Package.clearBank_rounds (p : Package) (c b : Nat) : (p.clearBank c b).rounds = p.rounds := rfl
@[simp] theorem Package.clearBank_sparse (p : Package) (c b : Nat) : (p.clearBank c b).sparse = p.sparse := rfl
@[simp] theorem Package.clearBank_grids (p : Package) (c b : Nat) : (p.clearBank c b).grids = p.grids := rfl
@[simp] theorem Package.clearBank_quays (p : Package) (c b : Nat) : (p.clearBank c b).quays = p.quays := rfl
@[simp] theorem Package.clearBank_journal (p : Package) (c b : Nat) : (p.clearBank c b).journal = p.journal := rfl
@[simp] theorem Package.clearBank_jobs (p : Package) (c b : Nat) : (p.clearBank c b).jobs = p.jobs := rfl
@[simp] theorem Package.clearBank_accs (p : Package) (c b : Nat) : (p.clearBank c b).accs = p.accs := rfl
@[simp] theorem Package.clearBank_writes (p : Package) (c b : Nat) : (p.clearBank c b).writes = p.writes := rfl
@[simp] theorem Package.clearBank_lines (p : Package) (c b : Nat) : (p.clearBank c b).lines = p.lines := rfl
@[simp] theorem Package.clearBank_horizons (p : Package) (c b : Nat) : (p.clearBank c b).horizons = p.horizons := rfl
@[simp] theorem Package.clearBank_mem (p : Package) (c b : Nat) : (p.clearBank c b).mem = p.mem := rfl
@[simp] theorem Package.clearBank_glabels (p : Package) (c b : Nat) : (p.clearBank c b).glabels = p.glabels := rfl
@[simp] theorem Package.clearBank_epochs (p : Package) (c b : Nat) : (p.clearBank c b).epochs = p.epochs := rfl
@[simp] theorem Package.clearBank_bad (p : Package) (c b : Nat) : (p.clearBank c b).bad = p.bad := rfl
@[simp] theorem Package.clearBank_owners (p : Package) (c b : Nat) : (p.clearBank c b).owners = p.owners := rfl
@[simp] theorem Package.clearBank_code (p : Package) (c b : Nat) : (p.clearBank c b).code = p.code := rfl
@[simp] theorem Package.clearBank_layouts (p : Package) (c b : Nat) : (p.clearBank c b).layouts = p.layouts := rfl
@[simp] theorem Package.clearBank_labels (p : Package) (c b : Nat) : (p.clearBank c b).labels = p.labels := rfl
@[simp] theorem Package.clearBank_labelBase (p : Package) (c b : Nat) : (p.clearBank c b).labelBase = p.labelBase := rfl
@[simp] theorem Package.clearBank_endorse (p : Package) (c b : Nat) : (p.clearBank c b).endorse = p.endorse := rfl
@[simp] theorem Package.clearBank_spaces (p : Package) (c b : Nat) : (p.clearBank c b).spaces = p.spaces := rfl
@[simp] theorem Package.clearBank_shoots (p : Package) (c b : Nat) : (p.clearBank c b).shoots = p.shoots := rfl
@[simp] theorem Package.clearBank_walks (p : Package) (c b : Nat) : (p.clearBank c b).walks = p.walks := rfl
@[simp] theorem Package.clearBank_pods (p : Package) (c b : Nat) : (p.clearBank c b).pods = p.pods := rfl
@[simp] theorem Package.clearBank_mans (p : Package) (c b : Nat) : (p.clearBank c b).mans = p.mans := rfl
@[simp] theorem Package.clearBank_dels (p : Package) (c b : Nat) : (p.clearBank c b).dels = p.dels := rfl
@[simp] theorem Package.clearBank_carveOut (p : Package) (c b : Nat) : (p.clearBank c b).carveOut = p.carveOut := rfl
@[simp] theorem Package.clearBank_groups (p : Package) (c b : Nat) : (p.clearBank c b).groups = p.groups := rfl
@[simp] theorem Package.clearBank_ports (p : Package) (c b : Nat) : (p.clearBank c b).ports = p.ports := rfl
@[simp] theorem Package.clearBank_circuit (p : Package) (c b : Nat) : (p.clearBank c b).circuit = p.circuit := rfl
@[simp] theorem Package.clearBank_migrate (p : Package) (c b : Nat) : (p.clearBank c b).migrate = p.migrate := rfl
@[simp] theorem Package.clearBank_moves (p : Package) (c b : Nat) : (p.clearBank c b).moves = p.moves := rfl
@[simp] theorem Package.clearBank_homeAt (p : Package) (c b : Nat) : (p.clearBank c b).homeAt = p.homeAt := rfl
@[simp] theorem Package.clearBank_sys (p : Package) (c b : Nat) : (p.clearBank c b).sys = p.sys := rfl

/-! ### journalSet -/

@[simp] theorem Package.journalSet_phys (p : Package) (q k a d : Nat) : (p.journalSet q k a d).phys = p.phys := rfl
@[simp] theorem Package.journalSet_now (p : Package) (q k a d : Nat) : (p.journalSet q k a d).now = p.now := rfl
@[simp] theorem Package.journalSet_agenda (p : Package) (q k a d : Nat) : (p.journalSet q k a d).agenda = p.agenda := rfl
@[simp] theorem Package.journalSet_inbox (p : Package) (q k a d : Nat) : (p.journalSet q k a d).inbox = p.inbox := rfl
@[simp] theorem Package.journalSet_out (p : Package) (q k a d : Nat) : (p.journalSet q k a d).out = p.out := rfl
@[simp] theorem Package.journalSet_sent (p : Package) (q k a d : Nat) : (p.journalSet q k a d).sent = p.sent := rfl
@[simp] theorem Package.journalSet_draws (p : Package) (q k a d : Nat) : (p.journalSet q k a d).draws = p.draws := rfl
@[simp] theorem Package.journalSet_picks (p : Package) (q k a d : Nat) : (p.journalSet q k a d).picks = p.picks := rfl
@[simp] theorem Package.journalSet_nextId (p : Package) (q k a d : Nat) : (p.journalSet q k a d).nextId = p.nextId := rfl
@[simp] theorem Package.journalSet_issue (p : Package) (q k a d : Nat) : (p.journalSet q k a d).issue = p.issue := rfl
@[simp] theorem Package.journalSet_issued (p : Package) (q k a d : Nat) : (p.journalSet q k a d).issued = p.issued := rfl
@[simp] theorem Package.journalSet_pipes (p : Package) (q k a d : Nat) : (p.journalSet q k a d).pipes = p.pipes := rfl
@[simp] theorem Package.journalSet_freed (p : Package) (q k a d : Nat) : (p.journalSet q k a d).freed = p.freed := rfl
@[simp] theorem Package.journalSet_teams (p : Package) (q k a d : Nat) : (p.journalSet q k a d).teams = p.teams := rfl
@[simp] theorem Package.journalSet_gangs (p : Package) (q k a d : Nat) : (p.journalSet q k a d).gangs = p.gangs := rfl
@[simp] theorem Package.journalSet_parts (p : Package) (q k a d : Nat) : (p.journalSet q k a d).parts = p.parts := rfl
@[simp] theorem Package.journalSet_cores (p : Package) (q k a d : Nat) : (p.journalSet q k a d).cores = p.cores := rfl
@[simp] theorem Package.journalSet_rounds (p : Package) (q k a d : Nat) : (p.journalSet q k a d).rounds = p.rounds := rfl
@[simp] theorem Package.journalSet_sparse (p : Package) (q k a d : Nat) : (p.journalSet q k a d).sparse = p.sparse := rfl
@[simp] theorem Package.journalSet_grids (p : Package) (q k a d : Nat) : (p.journalSet q k a d).grids = p.grids := rfl
@[simp] theorem Package.journalSet_quays (p : Package) (q k a d : Nat) : (p.journalSet q k a d).quays = p.quays := rfl
@[simp] theorem Package.journalSet_jobs (p : Package) (q k a d : Nat) : (p.journalSet q k a d).jobs = p.jobs := rfl
@[simp] theorem Package.journalSet_accs (p : Package) (q k a d : Nat) : (p.journalSet q k a d).accs = p.accs := rfl
@[simp] theorem Package.journalSet_writes (p : Package) (q k a d : Nat) : (p.journalSet q k a d).writes = p.writes := rfl
@[simp] theorem Package.journalSet_lines (p : Package) (q k a d : Nat) : (p.journalSet q k a d).lines = p.lines := rfl
@[simp] theorem Package.journalSet_horizons (p : Package) (q k a d : Nat) : (p.journalSet q k a d).horizons = p.horizons := rfl
@[simp] theorem Package.journalSet_mem (p : Package) (q k a d : Nat) : (p.journalSet q k a d).mem = p.mem := rfl
@[simp] theorem Package.journalSet_glabels (p : Package) (q k a d : Nat) : (p.journalSet q k a d).glabels = p.glabels := rfl
@[simp] theorem Package.journalSet_epochs (p : Package) (q k a d : Nat) : (p.journalSet q k a d).epochs = p.epochs := rfl
@[simp] theorem Package.journalSet_bad (p : Package) (q k a d : Nat) : (p.journalSet q k a d).bad = p.bad := rfl
@[simp] theorem Package.journalSet_owners (p : Package) (q k a d : Nat) : (p.journalSet q k a d).owners = p.owners := rfl
@[simp] theorem Package.journalSet_code (p : Package) (q k a d : Nat) : (p.journalSet q k a d).code = p.code := rfl
@[simp] theorem Package.journalSet_banks (p : Package) (q k a d : Nat) : (p.journalSet q k a d).banks = p.banks := rfl
@[simp] theorem Package.journalSet_layouts (p : Package) (q k a d : Nat) : (p.journalSet q k a d).layouts = p.layouts := rfl
@[simp] theorem Package.journalSet_labels (p : Package) (q k a d : Nat) : (p.journalSet q k a d).labels = p.labels := rfl
@[simp] theorem Package.journalSet_labelBase (p : Package) (q k a d : Nat) : (p.journalSet q k a d).labelBase = p.labelBase := rfl
@[simp] theorem Package.journalSet_endorse (p : Package) (q k a d : Nat) : (p.journalSet q k a d).endorse = p.endorse := rfl
@[simp] theorem Package.journalSet_worlds (p : Package) (q k a d : Nat) : (p.journalSet q k a d).worlds = p.worlds := rfl
@[simp] theorem Package.journalSet_spaces (p : Package) (q k a d : Nat) : (p.journalSet q k a d).spaces = p.spaces := rfl
@[simp] theorem Package.journalSet_shoots (p : Package) (q k a d : Nat) : (p.journalSet q k a d).shoots = p.shoots := rfl
@[simp] theorem Package.journalSet_walks (p : Package) (q k a d : Nat) : (p.journalSet q k a d).walks = p.walks := rfl
@[simp] theorem Package.journalSet_pods (p : Package) (q k a d : Nat) : (p.journalSet q k a d).pods = p.pods := rfl
@[simp] theorem Package.journalSet_mans (p : Package) (q k a d : Nat) : (p.journalSet q k a d).mans = p.mans := rfl
@[simp] theorem Package.journalSet_dels (p : Package) (q k a d : Nat) : (p.journalSet q k a d).dels = p.dels := rfl
@[simp] theorem Package.journalSet_carveOut (p : Package) (q k a d : Nat) : (p.journalSet q k a d).carveOut = p.carveOut := rfl
@[simp] theorem Package.journalSet_groups (p : Package) (q k a d : Nat) : (p.journalSet q k a d).groups = p.groups := rfl
@[simp] theorem Package.journalSet_ports (p : Package) (q k a d : Nat) : (p.journalSet q k a d).ports = p.ports := rfl
@[simp] theorem Package.journalSet_circuit (p : Package) (q k a d : Nat) : (p.journalSet q k a d).circuit = p.circuit := rfl
@[simp] theorem Package.journalSet_migrate (p : Package) (q k a d : Nat) : (p.journalSet q k a d).migrate = p.migrate := rfl
@[simp] theorem Package.journalSet_moves (p : Package) (q k a d : Nat) : (p.journalSet q k a d).moves = p.moves := rfl
@[simp] theorem Package.journalSet_homeAt (p : Package) (q k a d : Nat) : (p.journalSet q k a d).homeAt = p.homeAt := rfl

/-! ### journalMove -/

@[simp] theorem Package.journalMove_phys (p : Package) (hit : JEntry → Bool) (a d : Nat) : (p.journalMove hit a d).phys = p.phys := rfl
@[simp] theorem Package.journalMove_now (p : Package) (hit : JEntry → Bool) (a d : Nat) : (p.journalMove hit a d).now = p.now := rfl
@[simp] theorem Package.journalMove_agenda (p : Package) (hit : JEntry → Bool) (a d : Nat) : (p.journalMove hit a d).agenda = p.agenda := rfl
@[simp] theorem Package.journalMove_inbox (p : Package) (hit : JEntry → Bool) (a d : Nat) : (p.journalMove hit a d).inbox = p.inbox := rfl
@[simp] theorem Package.journalMove_out (p : Package) (hit : JEntry → Bool) (a d : Nat) : (p.journalMove hit a d).out = p.out := rfl
@[simp] theorem Package.journalMove_sent (p : Package) (hit : JEntry → Bool) (a d : Nat) : (p.journalMove hit a d).sent = p.sent := rfl
@[simp] theorem Package.journalMove_draws (p : Package) (hit : JEntry → Bool) (a d : Nat) : (p.journalMove hit a d).draws = p.draws := rfl
@[simp] theorem Package.journalMove_picks (p : Package) (hit : JEntry → Bool) (a d : Nat) : (p.journalMove hit a d).picks = p.picks := rfl
@[simp] theorem Package.journalMove_nextId (p : Package) (hit : JEntry → Bool) (a d : Nat) : (p.journalMove hit a d).nextId = p.nextId := rfl
@[simp] theorem Package.journalMove_issue (p : Package) (hit : JEntry → Bool) (a d : Nat) : (p.journalMove hit a d).issue = p.issue := rfl
@[simp] theorem Package.journalMove_issued (p : Package) (hit : JEntry → Bool) (a d : Nat) : (p.journalMove hit a d).issued = p.issued := rfl
@[simp] theorem Package.journalMove_pipes (p : Package) (hit : JEntry → Bool) (a d : Nat) : (p.journalMove hit a d).pipes = p.pipes := rfl
@[simp] theorem Package.journalMove_freed (p : Package) (hit : JEntry → Bool) (a d : Nat) : (p.journalMove hit a d).freed = p.freed := rfl
@[simp] theorem Package.journalMove_teams (p : Package) (hit : JEntry → Bool) (a d : Nat) : (p.journalMove hit a d).teams = p.teams := rfl
@[simp] theorem Package.journalMove_gangs (p : Package) (hit : JEntry → Bool) (a d : Nat) : (p.journalMove hit a d).gangs = p.gangs := rfl
@[simp] theorem Package.journalMove_parts (p : Package) (hit : JEntry → Bool) (a d : Nat) : (p.journalMove hit a d).parts = p.parts := rfl
@[simp] theorem Package.journalMove_cores (p : Package) (hit : JEntry → Bool) (a d : Nat) : (p.journalMove hit a d).cores = p.cores := rfl
@[simp] theorem Package.journalMove_rounds (p : Package) (hit : JEntry → Bool) (a d : Nat) : (p.journalMove hit a d).rounds = p.rounds := rfl
@[simp] theorem Package.journalMove_sparse (p : Package) (hit : JEntry → Bool) (a d : Nat) : (p.journalMove hit a d).sparse = p.sparse := rfl
@[simp] theorem Package.journalMove_grids (p : Package) (hit : JEntry → Bool) (a d : Nat) : (p.journalMove hit a d).grids = p.grids := rfl
@[simp] theorem Package.journalMove_quays (p : Package) (hit : JEntry → Bool) (a d : Nat) : (p.journalMove hit a d).quays = p.quays := rfl
@[simp] theorem Package.journalMove_jobs (p : Package) (hit : JEntry → Bool) (a d : Nat) : (p.journalMove hit a d).jobs = p.jobs := rfl
@[simp] theorem Package.journalMove_accs (p : Package) (hit : JEntry → Bool) (a d : Nat) : (p.journalMove hit a d).accs = p.accs := rfl
@[simp] theorem Package.journalMove_writes (p : Package) (hit : JEntry → Bool) (a d : Nat) : (p.journalMove hit a d).writes = p.writes := rfl
@[simp] theorem Package.journalMove_lines (p : Package) (hit : JEntry → Bool) (a d : Nat) : (p.journalMove hit a d).lines = p.lines := rfl
@[simp] theorem Package.journalMove_horizons (p : Package) (hit : JEntry → Bool) (a d : Nat) : (p.journalMove hit a d).horizons = p.horizons := rfl
@[simp] theorem Package.journalMove_mem (p : Package) (hit : JEntry → Bool) (a d : Nat) : (p.journalMove hit a d).mem = p.mem := rfl
@[simp] theorem Package.journalMove_glabels (p : Package) (hit : JEntry → Bool) (a d : Nat) : (p.journalMove hit a d).glabels = p.glabels := rfl
@[simp] theorem Package.journalMove_epochs (p : Package) (hit : JEntry → Bool) (a d : Nat) : (p.journalMove hit a d).epochs = p.epochs := rfl
@[simp] theorem Package.journalMove_bad (p : Package) (hit : JEntry → Bool) (a d : Nat) : (p.journalMove hit a d).bad = p.bad := rfl
@[simp] theorem Package.journalMove_owners (p : Package) (hit : JEntry → Bool) (a d : Nat) : (p.journalMove hit a d).owners = p.owners := rfl
@[simp] theorem Package.journalMove_code (p : Package) (hit : JEntry → Bool) (a d : Nat) : (p.journalMove hit a d).code = p.code := rfl
@[simp] theorem Package.journalMove_banks (p : Package) (hit : JEntry → Bool) (a d : Nat) : (p.journalMove hit a d).banks = p.banks := rfl
@[simp] theorem Package.journalMove_layouts (p : Package) (hit : JEntry → Bool) (a d : Nat) : (p.journalMove hit a d).layouts = p.layouts := rfl
@[simp] theorem Package.journalMove_labels (p : Package) (hit : JEntry → Bool) (a d : Nat) : (p.journalMove hit a d).labels = p.labels := rfl
@[simp] theorem Package.journalMove_labelBase (p : Package) (hit : JEntry → Bool) (a d : Nat) : (p.journalMove hit a d).labelBase = p.labelBase := rfl
@[simp] theorem Package.journalMove_endorse (p : Package) (hit : JEntry → Bool) (a d : Nat) : (p.journalMove hit a d).endorse = p.endorse := rfl
@[simp] theorem Package.journalMove_worlds (p : Package) (hit : JEntry → Bool) (a d : Nat) : (p.journalMove hit a d).worlds = p.worlds := rfl
@[simp] theorem Package.journalMove_spaces (p : Package) (hit : JEntry → Bool) (a d : Nat) : (p.journalMove hit a d).spaces = p.spaces := rfl
@[simp] theorem Package.journalMove_shoots (p : Package) (hit : JEntry → Bool) (a d : Nat) : (p.journalMove hit a d).shoots = p.shoots := rfl
@[simp] theorem Package.journalMove_walks (p : Package) (hit : JEntry → Bool) (a d : Nat) : (p.journalMove hit a d).walks = p.walks := rfl
@[simp] theorem Package.journalMove_pods (p : Package) (hit : JEntry → Bool) (a d : Nat) : (p.journalMove hit a d).pods = p.pods := rfl
@[simp] theorem Package.journalMove_mans (p : Package) (hit : JEntry → Bool) (a d : Nat) : (p.journalMove hit a d).mans = p.mans := rfl
@[simp] theorem Package.journalMove_dels (p : Package) (hit : JEntry → Bool) (a d : Nat) : (p.journalMove hit a d).dels = p.dels := rfl
@[simp] theorem Package.journalMove_carveOut (p : Package) (hit : JEntry → Bool) (a d : Nat) : (p.journalMove hit a d).carveOut = p.carveOut := rfl
@[simp] theorem Package.journalMove_groups (p : Package) (hit : JEntry → Bool) (a d : Nat) : (p.journalMove hit a d).groups = p.groups := rfl
@[simp] theorem Package.journalMove_ports (p : Package) (hit : JEntry → Bool) (a d : Nat) : (p.journalMove hit a d).ports = p.ports := rfl
@[simp] theorem Package.journalMove_circuit (p : Package) (hit : JEntry → Bool) (a d : Nat) : (p.journalMove hit a d).circuit = p.circuit := rfl
@[simp] theorem Package.journalMove_migrate (p : Package) (hit : JEntry → Bool) (a d : Nat) : (p.journalMove hit a d).migrate = p.migrate := rfl
@[simp] theorem Package.journalMove_moves (p : Package) (hit : JEntry → Bool) (a d : Nat) : (p.journalMove hit a d).moves = p.moves := rfl
@[simp] theorem Package.journalMove_homeAt (p : Package) (hit : JEntry → Bool) (a d : Nat) : (p.journalMove hit a d).homeAt = p.homeAt := rfl

/-! ### notify -/

@[simp] theorem Package.notify_phys (p : Package) (es : List JEntry) : (p.notify es).phys = p.phys := rfl
@[simp] theorem Package.notify_now (p : Package) (es : List JEntry) : (p.notify es).now = p.now := rfl
@[simp] theorem Package.notify_agenda (p : Package) (es : List JEntry) : (p.notify es).agenda = p.agenda := rfl
@[simp] theorem Package.notify_inbox (p : Package) (es : List JEntry) : (p.notify es).inbox = p.inbox := rfl
@[simp] theorem Package.notify_out (p : Package) (es : List JEntry) : (p.notify es).out = p.out := rfl
@[simp] theorem Package.notify_sent (p : Package) (es : List JEntry) : (p.notify es).sent = p.sent := rfl
@[simp] theorem Package.notify_draws (p : Package) (es : List JEntry) : (p.notify es).draws = p.draws := rfl
@[simp] theorem Package.notify_picks (p : Package) (es : List JEntry) : (p.notify es).picks = p.picks := rfl
@[simp] theorem Package.notify_nextId (p : Package) (es : List JEntry) : (p.notify es).nextId = p.nextId := rfl
@[simp] theorem Package.notify_issue (p : Package) (es : List JEntry) : (p.notify es).issue = p.issue := rfl
@[simp] theorem Package.notify_issued (p : Package) (es : List JEntry) : (p.notify es).issued = p.issued := rfl
@[simp] theorem Package.notify_pipes (p : Package) (es : List JEntry) : (p.notify es).pipes = p.pipes := rfl
@[simp] theorem Package.notify_freed (p : Package) (es : List JEntry) : (p.notify es).freed = p.freed := rfl
@[simp] theorem Package.notify_teams (p : Package) (es : List JEntry) : (p.notify es).teams = p.teams := rfl
@[simp] theorem Package.notify_gangs (p : Package) (es : List JEntry) : (p.notify es).gangs = p.gangs := rfl
@[simp] theorem Package.notify_parts (p : Package) (es : List JEntry) : (p.notify es).parts = p.parts := rfl
@[simp] theorem Package.notify_cores (p : Package) (es : List JEntry) : (p.notify es).cores = p.cores := rfl
@[simp] theorem Package.notify_rounds (p : Package) (es : List JEntry) : (p.notify es).rounds = p.rounds := rfl
@[simp] theorem Package.notify_sparse (p : Package) (es : List JEntry) : (p.notify es).sparse = p.sparse := rfl
@[simp] theorem Package.notify_grids (p : Package) (es : List JEntry) : (p.notify es).grids = p.grids := rfl
@[simp] theorem Package.notify_quays (p : Package) (es : List JEntry) : (p.notify es).quays = p.quays := rfl
@[simp] theorem Package.notify_journal (p : Package) (es : List JEntry) : (p.notify es).journal = p.journal := rfl
@[simp] theorem Package.notify_jobs (p : Package) (es : List JEntry) : (p.notify es).jobs = p.jobs := rfl
@[simp] theorem Package.notify_accs (p : Package) (es : List JEntry) : (p.notify es).accs = p.accs := rfl
@[simp] theorem Package.notify_writes (p : Package) (es : List JEntry) : (p.notify es).writes = p.writes := rfl
@[simp] theorem Package.notify_lines (p : Package) (es : List JEntry) : (p.notify es).lines = p.lines := rfl
@[simp] theorem Package.notify_horizons (p : Package) (es : List JEntry) : (p.notify es).horizons = p.horizons := rfl
@[simp] theorem Package.notify_mem (p : Package) (es : List JEntry) : (p.notify es).mem = p.mem := rfl
@[simp] theorem Package.notify_glabels (p : Package) (es : List JEntry) : (p.notify es).glabels = p.glabels := rfl
@[simp] theorem Package.notify_epochs (p : Package) (es : List JEntry) : (p.notify es).epochs = p.epochs := rfl
@[simp] theorem Package.notify_bad (p : Package) (es : List JEntry) : (p.notify es).bad = p.bad := rfl
@[simp] theorem Package.notify_owners (p : Package) (es : List JEntry) : (p.notify es).owners = p.owners := rfl
@[simp] theorem Package.notify_code (p : Package) (es : List JEntry) : (p.notify es).code = p.code := rfl
@[simp] theorem Package.notify_banks (p : Package) (es : List JEntry) : (p.notify es).banks = p.banks := rfl
@[simp] theorem Package.notify_layouts (p : Package) (es : List JEntry) : (p.notify es).layouts = p.layouts := rfl
@[simp] theorem Package.notify_labels (p : Package) (es : List JEntry) : (p.notify es).labels = p.labels := rfl
@[simp] theorem Package.notify_labelBase (p : Package) (es : List JEntry) : (p.notify es).labelBase = p.labelBase := rfl
@[simp] theorem Package.notify_endorse (p : Package) (es : List JEntry) : (p.notify es).endorse = p.endorse := rfl
@[simp] theorem Package.notify_worlds (p : Package) (es : List JEntry) : (p.notify es).worlds = p.worlds := rfl
@[simp] theorem Package.notify_spaces (p : Package) (es : List JEntry) : (p.notify es).spaces = p.spaces := rfl
@[simp] theorem Package.notify_shoots (p : Package) (es : List JEntry) : (p.notify es).shoots = p.shoots := rfl
@[simp] theorem Package.notify_walks (p : Package) (es : List JEntry) : (p.notify es).walks = p.walks := rfl
@[simp] theorem Package.notify_pods (p : Package) (es : List JEntry) : (p.notify es).pods = p.pods := rfl
@[simp] theorem Package.notify_mans (p : Package) (es : List JEntry) : (p.notify es).mans = p.mans := rfl
@[simp] theorem Package.notify_dels (p : Package) (es : List JEntry) : (p.notify es).dels = p.dels := rfl
@[simp] theorem Package.notify_carveOut (p : Package) (es : List JEntry) : (p.notify es).carveOut = p.carveOut := rfl
@[simp] theorem Package.notify_groups (p : Package) (es : List JEntry) : (p.notify es).groups = p.groups := rfl
@[simp] theorem Package.notify_ports (p : Package) (es : List JEntry) : (p.notify es).ports = p.ports := rfl
@[simp] theorem Package.notify_circuit (p : Package) (es : List JEntry) : (p.notify es).circuit = p.circuit := rfl
@[simp] theorem Package.notify_migrate (p : Package) (es : List JEntry) : (p.notify es).migrate = p.migrate := rfl
@[simp] theorem Package.notify_moves (p : Package) (es : List JEntry) : (p.notify es).moves = p.moves := rfl
@[simp] theorem Package.notify_homeAt (p : Package) (es : List JEntry) : (p.notify es).homeAt = p.homeAt := rfl

/-! ### releaseExt -/

@[simp] theorem Package.releaseExt_phys (p : Package) (w : Who) : (p.releaseExt w).phys = p.phys := rfl
@[simp] theorem Package.releaseExt_now (p : Package) (w : Who) : (p.releaseExt w).now = p.now := rfl
@[simp] theorem Package.releaseExt_agenda (p : Package) (w : Who) : (p.releaseExt w).agenda = p.agenda := rfl
@[simp] theorem Package.releaseExt_inbox (p : Package) (w : Who) : (p.releaseExt w).inbox = p.inbox := rfl
@[simp] theorem Package.releaseExt_out (p : Package) (w : Who) : (p.releaseExt w).out = p.out := rfl
@[simp] theorem Package.releaseExt_sent (p : Package) (w : Who) : (p.releaseExt w).sent = p.sent := rfl
@[simp] theorem Package.releaseExt_draws (p : Package) (w : Who) : (p.releaseExt w).draws = p.draws := rfl
@[simp] theorem Package.releaseExt_picks (p : Package) (w : Who) : (p.releaseExt w).picks = p.picks := rfl
@[simp] theorem Package.releaseExt_nextId (p : Package) (w : Who) : (p.releaseExt w).nextId = p.nextId := rfl
@[simp] theorem Package.releaseExt_issue (p : Package) (w : Who) : (p.releaseExt w).issue = p.issue := rfl
@[simp] theorem Package.releaseExt_issued (p : Package) (w : Who) : (p.releaseExt w).issued = p.issued := rfl
@[simp] theorem Package.releaseExt_pipes (p : Package) (w : Who) : (p.releaseExt w).pipes = p.pipes := rfl
@[simp] theorem Package.releaseExt_freed (p : Package) (w : Who) : (p.releaseExt w).freed = p.freed := rfl
@[simp] theorem Package.releaseExt_gangs (p : Package) (w : Who) : (p.releaseExt w).gangs = p.gangs := rfl
@[simp] theorem Package.releaseExt_parts (p : Package) (w : Who) : (p.releaseExt w).parts = p.parts := rfl
@[simp] theorem Package.releaseExt_cores (p : Package) (w : Who) : (p.releaseExt w).cores = p.cores := rfl
@[simp] theorem Package.releaseExt_rounds (p : Package) (w : Who) : (p.releaseExt w).rounds = p.rounds := rfl
@[simp] theorem Package.releaseExt_sparse (p : Package) (w : Who) : (p.releaseExt w).sparse = p.sparse := rfl
@[simp] theorem Package.releaseExt_grids (p : Package) (w : Who) : (p.releaseExt w).grids = p.grids := rfl
@[simp] theorem Package.releaseExt_quays (p : Package) (w : Who) : (p.releaseExt w).quays = p.quays := rfl
@[simp] theorem Package.releaseExt_journal (p : Package) (w : Who) : (p.releaseExt w).journal = p.journal := rfl
@[simp] theorem Package.releaseExt_jobs (p : Package) (w : Who) : (p.releaseExt w).jobs = p.jobs := rfl
@[simp] theorem Package.releaseExt_accs (p : Package) (w : Who) : (p.releaseExt w).accs = p.accs := rfl
@[simp] theorem Package.releaseExt_writes (p : Package) (w : Who) : (p.releaseExt w).writes = p.writes := rfl
@[simp] theorem Package.releaseExt_lines (p : Package) (w : Who) : (p.releaseExt w).lines = p.lines := rfl
@[simp] theorem Package.releaseExt_horizons (p : Package) (w : Who) : (p.releaseExt w).horizons = p.horizons := rfl
@[simp] theorem Package.releaseExt_mem (p : Package) (w : Who) : (p.releaseExt w).mem = p.mem := rfl
@[simp] theorem Package.releaseExt_glabels (p : Package) (w : Who) : (p.releaseExt w).glabels = p.glabels := rfl
@[simp] theorem Package.releaseExt_epochs (p : Package) (w : Who) : (p.releaseExt w).epochs = p.epochs := rfl
@[simp] theorem Package.releaseExt_bad (p : Package) (w : Who) : (p.releaseExt w).bad = p.bad := rfl
@[simp] theorem Package.releaseExt_owners (p : Package) (w : Who) : (p.releaseExt w).owners = p.owners := rfl
@[simp] theorem Package.releaseExt_code (p : Package) (w : Who) : (p.releaseExt w).code = p.code := rfl
@[simp] theorem Package.releaseExt_banks (p : Package) (w : Who) : (p.releaseExt w).banks = p.banks := rfl
@[simp] theorem Package.releaseExt_layouts (p : Package) (w : Who) : (p.releaseExt w).layouts = p.layouts := rfl
@[simp] theorem Package.releaseExt_labels (p : Package) (w : Who) : (p.releaseExt w).labels = p.labels := rfl
@[simp] theorem Package.releaseExt_labelBase (p : Package) (w : Who) : (p.releaseExt w).labelBase = p.labelBase := rfl
@[simp] theorem Package.releaseExt_endorse (p : Package) (w : Who) : (p.releaseExt w).endorse = p.endorse := rfl
@[simp] theorem Package.releaseExt_worlds (p : Package) (w : Who) : (p.releaseExt w).worlds = p.worlds := rfl
@[simp] theorem Package.releaseExt_spaces (p : Package) (w : Who) : (p.releaseExt w).spaces = p.spaces := rfl
@[simp] theorem Package.releaseExt_shoots (p : Package) (w : Who) : (p.releaseExt w).shoots = p.shoots := rfl
@[simp] theorem Package.releaseExt_walks (p : Package) (w : Who) : (p.releaseExt w).walks = p.walks := rfl
@[simp] theorem Package.releaseExt_pods (p : Package) (w : Who) : (p.releaseExt w).pods = p.pods := rfl
@[simp] theorem Package.releaseExt_mans (p : Package) (w : Who) : (p.releaseExt w).mans = p.mans := rfl
@[simp] theorem Package.releaseExt_dels (p : Package) (w : Who) : (p.releaseExt w).dels = p.dels := rfl
@[simp] theorem Package.releaseExt_carveOut (p : Package) (w : Who) : (p.releaseExt w).carveOut = p.carveOut := rfl
@[simp] theorem Package.releaseExt_groups (p : Package) (w : Who) : (p.releaseExt w).groups = p.groups := rfl
@[simp] theorem Package.releaseExt_ports (p : Package) (w : Who) : (p.releaseExt w).ports = p.ports := rfl
@[simp] theorem Package.releaseExt_circuit (p : Package) (w : Who) : (p.releaseExt w).circuit = p.circuit := rfl
@[simp] theorem Package.releaseExt_migrate (p : Package) (w : Who) : (p.releaseExt w).migrate = p.migrate := rfl
@[simp] theorem Package.releaseExt_moves (p : Package) (w : Who) : (p.releaseExt w).moves = p.moves := rfl
@[simp] theorem Package.releaseExt_homeAt (p : Package) (w : Who) : (p.releaseExt w).homeAt = p.homeAt := rfl
@[simp] theorem Package.releaseExt_sys (p : Package) (w : Who) : (p.releaseExt w).sys = p.sys := rfl

/-! ### haltTeam -/

@[simp] theorem Package.haltTeam_phys (p : Package) (t : Nat) : (p.haltTeam t).phys = p.phys := rfl
@[simp] theorem Package.haltTeam_now (p : Package) (t : Nat) : (p.haltTeam t).now = p.now := rfl
@[simp] theorem Package.haltTeam_agenda (p : Package) (t : Nat) : (p.haltTeam t).agenda = p.agenda := rfl
@[simp] theorem Package.haltTeam_inbox (p : Package) (t : Nat) : (p.haltTeam t).inbox = p.inbox := rfl
@[simp] theorem Package.haltTeam_out (p : Package) (t : Nat) : (p.haltTeam t).out = p.out := rfl
@[simp] theorem Package.haltTeam_sent (p : Package) (t : Nat) : (p.haltTeam t).sent = p.sent := rfl
@[simp] theorem Package.haltTeam_draws (p : Package) (t : Nat) : (p.haltTeam t).draws = p.draws := rfl
@[simp] theorem Package.haltTeam_picks (p : Package) (t : Nat) : (p.haltTeam t).picks = p.picks := rfl
@[simp] theorem Package.haltTeam_nextId (p : Package) (t : Nat) : (p.haltTeam t).nextId = p.nextId := rfl
@[simp] theorem Package.haltTeam_issue (p : Package) (t : Nat) : (p.haltTeam t).issue = p.issue := rfl
@[simp] theorem Package.haltTeam_issued (p : Package) (t : Nat) : (p.haltTeam t).issued = p.issued := rfl
@[simp] theorem Package.haltTeam_pipes (p : Package) (t : Nat) : (p.haltTeam t).pipes = p.pipes := rfl
@[simp] theorem Package.haltTeam_freed (p : Package) (t : Nat) : (p.haltTeam t).freed = p.freed := rfl
@[simp] theorem Package.haltTeam_gangs (p : Package) (t : Nat) : (p.haltTeam t).gangs = p.gangs := rfl
@[simp] theorem Package.haltTeam_parts (p : Package) (t : Nat) : (p.haltTeam t).parts = p.parts := rfl
@[simp] theorem Package.haltTeam_cores (p : Package) (t : Nat) : (p.haltTeam t).cores = p.cores := rfl
@[simp] theorem Package.haltTeam_rounds (p : Package) (t : Nat) : (p.haltTeam t).rounds = p.rounds := rfl
@[simp] theorem Package.haltTeam_sparse (p : Package) (t : Nat) : (p.haltTeam t).sparse = p.sparse := rfl
@[simp] theorem Package.haltTeam_grids (p : Package) (t : Nat) : (p.haltTeam t).grids = p.grids := rfl
@[simp] theorem Package.haltTeam_quays (p : Package) (t : Nat) : (p.haltTeam t).quays = p.quays := rfl
@[simp] theorem Package.haltTeam_journal (p : Package) (t : Nat) : (p.haltTeam t).journal = p.journal := rfl
@[simp] theorem Package.haltTeam_jobs (p : Package) (t : Nat) : (p.haltTeam t).jobs = p.jobs := rfl
@[simp] theorem Package.haltTeam_accs (p : Package) (t : Nat) : (p.haltTeam t).accs = p.accs := rfl
@[simp] theorem Package.haltTeam_writes (p : Package) (t : Nat) : (p.haltTeam t).writes = p.writes := rfl
@[simp] theorem Package.haltTeam_lines (p : Package) (t : Nat) : (p.haltTeam t).lines = p.lines := rfl
@[simp] theorem Package.haltTeam_horizons (p : Package) (t : Nat) : (p.haltTeam t).horizons = p.horizons := rfl
@[simp] theorem Package.haltTeam_mem (p : Package) (t : Nat) : (p.haltTeam t).mem = p.mem := rfl
@[simp] theorem Package.haltTeam_glabels (p : Package) (t : Nat) : (p.haltTeam t).glabels = p.glabels := rfl
@[simp] theorem Package.haltTeam_epochs (p : Package) (t : Nat) : (p.haltTeam t).epochs = p.epochs := rfl
@[simp] theorem Package.haltTeam_bad (p : Package) (t : Nat) : (p.haltTeam t).bad = p.bad := rfl
@[simp] theorem Package.haltTeam_owners (p : Package) (t : Nat) : (p.haltTeam t).owners = p.owners := rfl
@[simp] theorem Package.haltTeam_code (p : Package) (t : Nat) : (p.haltTeam t).code = p.code := rfl
@[simp] theorem Package.haltTeam_banks (p : Package) (t : Nat) : (p.haltTeam t).banks = p.banks := rfl
@[simp] theorem Package.haltTeam_layouts (p : Package) (t : Nat) : (p.haltTeam t).layouts = p.layouts := rfl
@[simp] theorem Package.haltTeam_labels (p : Package) (t : Nat) : (p.haltTeam t).labels = p.labels := rfl
@[simp] theorem Package.haltTeam_labelBase (p : Package) (t : Nat) : (p.haltTeam t).labelBase = p.labelBase := rfl
@[simp] theorem Package.haltTeam_endorse (p : Package) (t : Nat) : (p.haltTeam t).endorse = p.endorse := rfl
@[simp] theorem Package.haltTeam_worlds (p : Package) (t : Nat) : (p.haltTeam t).worlds = p.worlds := rfl
@[simp] theorem Package.haltTeam_spaces (p : Package) (t : Nat) : (p.haltTeam t).spaces = p.spaces := rfl
@[simp] theorem Package.haltTeam_shoots (p : Package) (t : Nat) : (p.haltTeam t).shoots = p.shoots := rfl
@[simp] theorem Package.haltTeam_walks (p : Package) (t : Nat) : (p.haltTeam t).walks = p.walks := rfl
@[simp] theorem Package.haltTeam_pods (p : Package) (t : Nat) : (p.haltTeam t).pods = p.pods := rfl
@[simp] theorem Package.haltTeam_mans (p : Package) (t : Nat) : (p.haltTeam t).mans = p.mans := rfl
@[simp] theorem Package.haltTeam_dels (p : Package) (t : Nat) : (p.haltTeam t).dels = p.dels := rfl
@[simp] theorem Package.haltTeam_carveOut (p : Package) (t : Nat) : (p.haltTeam t).carveOut = p.carveOut := rfl
@[simp] theorem Package.haltTeam_groups (p : Package) (t : Nat) : (p.haltTeam t).groups = p.groups := rfl
@[simp] theorem Package.haltTeam_ports (p : Package) (t : Nat) : (p.haltTeam t).ports = p.ports := rfl
@[simp] theorem Package.haltTeam_circuit (p : Package) (t : Nat) : (p.haltTeam t).circuit = p.circuit := rfl
@[simp] theorem Package.haltTeam_migrate (p : Package) (t : Nat) : (p.haltTeam t).migrate = p.migrate := rfl
@[simp] theorem Package.haltTeam_moves (p : Package) (t : Nat) : (p.haltTeam t).moves = p.moves := rfl
@[simp] theorem Package.haltTeam_homeAt (p : Package) (t : Nat) : (p.haltTeam t).homeAt = p.homeAt := rfl
@[simp] theorem Package.haltTeam_sys (p : Package) (t : Nat) : (p.haltTeam t).sys = p.sys := rfl

/-! ### commitCeilings -/

@[simp] theorem Package.commitCeilings_phys (p : Package) (t : Nat) : (p.commitCeilings t).phys = p.phys := rfl
@[simp] theorem Package.commitCeilings_now (p : Package) (t : Nat) : (p.commitCeilings t).now = p.now := rfl
@[simp] theorem Package.commitCeilings_agenda (p : Package) (t : Nat) : (p.commitCeilings t).agenda = p.agenda := rfl
@[simp] theorem Package.commitCeilings_inbox (p : Package) (t : Nat) : (p.commitCeilings t).inbox = p.inbox := rfl
@[simp] theorem Package.commitCeilings_out (p : Package) (t : Nat) : (p.commitCeilings t).out = p.out := rfl
@[simp] theorem Package.commitCeilings_sent (p : Package) (t : Nat) : (p.commitCeilings t).sent = p.sent := rfl
@[simp] theorem Package.commitCeilings_draws (p : Package) (t : Nat) : (p.commitCeilings t).draws = p.draws := rfl
@[simp] theorem Package.commitCeilings_picks (p : Package) (t : Nat) : (p.commitCeilings t).picks = p.picks := rfl
@[simp] theorem Package.commitCeilings_nextId (p : Package) (t : Nat) : (p.commitCeilings t).nextId = p.nextId := rfl
@[simp] theorem Package.commitCeilings_issue (p : Package) (t : Nat) : (p.commitCeilings t).issue = p.issue := rfl
@[simp] theorem Package.commitCeilings_issued (p : Package) (t : Nat) : (p.commitCeilings t).issued = p.issued := rfl
@[simp] theorem Package.commitCeilings_pipes (p : Package) (t : Nat) : (p.commitCeilings t).pipes = p.pipes := rfl
@[simp] theorem Package.commitCeilings_freed (p : Package) (t : Nat) : (p.commitCeilings t).freed = p.freed := rfl
@[simp] theorem Package.commitCeilings_gangs (p : Package) (t : Nat) : (p.commitCeilings t).gangs = p.gangs := rfl
@[simp] theorem Package.commitCeilings_parts (p : Package) (t : Nat) : (p.commitCeilings t).parts = p.parts := rfl
@[simp] theorem Package.commitCeilings_cores (p : Package) (t : Nat) : (p.commitCeilings t).cores = p.cores := rfl
@[simp] theorem Package.commitCeilings_rounds (p : Package) (t : Nat) : (p.commitCeilings t).rounds = p.rounds := rfl
@[simp] theorem Package.commitCeilings_sparse (p : Package) (t : Nat) : (p.commitCeilings t).sparse = p.sparse := rfl
@[simp] theorem Package.commitCeilings_grids (p : Package) (t : Nat) : (p.commitCeilings t).grids = p.grids := rfl
@[simp] theorem Package.commitCeilings_quays (p : Package) (t : Nat) : (p.commitCeilings t).quays = p.quays := rfl
@[simp] theorem Package.commitCeilings_journal (p : Package) (t : Nat) : (p.commitCeilings t).journal = p.journal := rfl
@[simp] theorem Package.commitCeilings_jobs (p : Package) (t : Nat) : (p.commitCeilings t).jobs = p.jobs := rfl
@[simp] theorem Package.commitCeilings_accs (p : Package) (t : Nat) : (p.commitCeilings t).accs = p.accs := rfl
@[simp] theorem Package.commitCeilings_writes (p : Package) (t : Nat) : (p.commitCeilings t).writes = p.writes := rfl
@[simp] theorem Package.commitCeilings_lines (p : Package) (t : Nat) : (p.commitCeilings t).lines = p.lines := rfl
@[simp] theorem Package.commitCeilings_horizons (p : Package) (t : Nat) : (p.commitCeilings t).horizons = p.horizons := rfl
@[simp] theorem Package.commitCeilings_mem (p : Package) (t : Nat) : (p.commitCeilings t).mem = p.mem := rfl
@[simp] theorem Package.commitCeilings_glabels (p : Package) (t : Nat) : (p.commitCeilings t).glabels = p.glabels := rfl
@[simp] theorem Package.commitCeilings_epochs (p : Package) (t : Nat) : (p.commitCeilings t).epochs = p.epochs := rfl
@[simp] theorem Package.commitCeilings_bad (p : Package) (t : Nat) : (p.commitCeilings t).bad = p.bad := rfl
@[simp] theorem Package.commitCeilings_owners (p : Package) (t : Nat) : (p.commitCeilings t).owners = p.owners := rfl
@[simp] theorem Package.commitCeilings_code (p : Package) (t : Nat) : (p.commitCeilings t).code = p.code := rfl
@[simp] theorem Package.commitCeilings_banks (p : Package) (t : Nat) : (p.commitCeilings t).banks = p.banks := rfl
@[simp] theorem Package.commitCeilings_layouts (p : Package) (t : Nat) : (p.commitCeilings t).layouts = p.layouts := rfl
@[simp] theorem Package.commitCeilings_labels (p : Package) (t : Nat) : (p.commitCeilings t).labels = p.labels := rfl
@[simp] theorem Package.commitCeilings_labelBase (p : Package) (t : Nat) : (p.commitCeilings t).labelBase = p.labelBase := rfl
@[simp] theorem Package.commitCeilings_endorse (p : Package) (t : Nat) : (p.commitCeilings t).endorse = p.endorse := rfl
@[simp] theorem Package.commitCeilings_worlds (p : Package) (t : Nat) : (p.commitCeilings t).worlds = p.worlds := rfl
@[simp] theorem Package.commitCeilings_spaces (p : Package) (t : Nat) : (p.commitCeilings t).spaces = p.spaces := rfl
@[simp] theorem Package.commitCeilings_shoots (p : Package) (t : Nat) : (p.commitCeilings t).shoots = p.shoots := rfl
@[simp] theorem Package.commitCeilings_walks (p : Package) (t : Nat) : (p.commitCeilings t).walks = p.walks := rfl
@[simp] theorem Package.commitCeilings_pods (p : Package) (t : Nat) : (p.commitCeilings t).pods = p.pods := rfl
@[simp] theorem Package.commitCeilings_mans (p : Package) (t : Nat) : (p.commitCeilings t).mans = p.mans := rfl
@[simp] theorem Package.commitCeilings_dels (p : Package) (t : Nat) : (p.commitCeilings t).dels = p.dels := rfl
@[simp] theorem Package.commitCeilings_carveOut (p : Package) (t : Nat) : (p.commitCeilings t).carveOut = p.carveOut := rfl
@[simp] theorem Package.commitCeilings_groups (p : Package) (t : Nat) : (p.commitCeilings t).groups = p.groups := rfl
@[simp] theorem Package.commitCeilings_ports (p : Package) (t : Nat) : (p.commitCeilings t).ports = p.ports := rfl
@[simp] theorem Package.commitCeilings_circuit (p : Package) (t : Nat) : (p.commitCeilings t).circuit = p.circuit := rfl
@[simp] theorem Package.commitCeilings_migrate (p : Package) (t : Nat) : (p.commitCeilings t).migrate = p.migrate := rfl
@[simp] theorem Package.commitCeilings_moves (p : Package) (t : Nat) : (p.commitCeilings t).moves = p.moves := rfl
@[simp] theorem Package.commitCeilings_homeAt (p : Package) (t : Nat) : (p.commitCeilings t).homeAt = p.homeAt := rfl
@[simp] theorem Package.commitCeilings_sys (p : Package) (t : Nat) : (p.commitCeilings t).sys = p.sys := rfl

/-! ### Updates of the machine -/

@[simp] theorem State.begin_others (s : State) (n : Nat) : (s.begin n).others = s.others := rfl
@[simp] theorem State.begin_net (s : State) (n : Nat) : (s.begin n).net = s.net := rfl
@[simp] theorem State.begin_choices (s : State) (n : Nat) : (s.begin n).choices = s.choices := rfl
@[simp] theorem State.begin_issue (s : State) (n : Nat) : (s.begin n).here.issue = s.here.issue.map (fun i => i.advance n) := rfl
@[simp] theorem State.begin_phys (s : State) (n : Nat) : (s.begin n).here.phys = s.here.phys := rfl
@[simp] theorem State.begin_now (s : State) (n : Nat) : (s.begin n).here.now = s.here.now := rfl
@[simp] theorem State.begin_agenda (s : State) (n : Nat) : (s.begin n).here.agenda = s.here.agenda := rfl
@[simp] theorem State.begin_inbox (s : State) (n : Nat) : (s.begin n).here.inbox = s.here.inbox := rfl
@[simp] theorem State.begin_out (s : State) (n : Nat) : (s.begin n).here.out = s.here.out := rfl
@[simp] theorem State.begin_sent (s : State) (n : Nat) : (s.begin n).here.sent = s.here.sent := rfl
@[simp] theorem State.begin_draws (s : State) (n : Nat) : (s.begin n).here.draws = s.here.draws := rfl
@[simp] theorem State.begin_picks (s : State) (n : Nat) : (s.begin n).here.picks = s.here.picks := rfl
@[simp] theorem State.begin_nextId (s : State) (n : Nat) : (s.begin n).here.nextId = s.here.nextId := rfl
@[simp] theorem State.begin_issued (s : State) (n : Nat) : (s.begin n).here.issued = s.here.issued := rfl
@[simp] theorem State.begin_pipes (s : State) (n : Nat) : (s.begin n).here.pipes = s.here.pipes := rfl
@[simp] theorem State.begin_freed (s : State) (n : Nat) : (s.begin n).here.freed = s.here.freed := rfl
@[simp] theorem State.begin_teams (s : State) (n : Nat) : (s.begin n).here.teams = s.here.teams := rfl
@[simp] theorem State.begin_gangs (s : State) (n : Nat) : (s.begin n).here.gangs = s.here.gangs := rfl
@[simp] theorem State.begin_parts (s : State) (n : Nat) : (s.begin n).here.parts = s.here.parts := rfl
@[simp] theorem State.begin_cores (s : State) (n : Nat) : (s.begin n).here.cores = s.here.cores := rfl
@[simp] theorem State.begin_rounds (s : State) (n : Nat) : (s.begin n).here.rounds = s.here.rounds := rfl
@[simp] theorem State.begin_sparse (s : State) (n : Nat) : (s.begin n).here.sparse = s.here.sparse := rfl
@[simp] theorem State.begin_grids (s : State) (n : Nat) : (s.begin n).here.grids = s.here.grids := rfl
@[simp] theorem State.begin_quays (s : State) (n : Nat) : (s.begin n).here.quays = s.here.quays := rfl
@[simp] theorem State.begin_journal (s : State) (n : Nat) : (s.begin n).here.journal = s.here.journal := rfl
@[simp] theorem State.begin_jobs (s : State) (n : Nat) : (s.begin n).here.jobs = s.here.jobs := rfl
@[simp] theorem State.begin_accs (s : State) (n : Nat) : (s.begin n).here.accs = s.here.accs := rfl
@[simp] theorem State.begin_writes (s : State) (n : Nat) : (s.begin n).here.writes = s.here.writes := rfl
@[simp] theorem State.begin_lines (s : State) (n : Nat) : (s.begin n).here.lines = s.here.lines := rfl
@[simp] theorem State.begin_horizons (s : State) (n : Nat) : (s.begin n).here.horizons = s.here.horizons := rfl
@[simp] theorem State.begin_mem (s : State) (n : Nat) : (s.begin n).here.mem = s.here.mem := rfl
@[simp] theorem State.begin_glabels (s : State) (n : Nat) : (s.begin n).here.glabels = s.here.glabels := rfl
@[simp] theorem State.begin_epochs (s : State) (n : Nat) : (s.begin n).here.epochs = s.here.epochs := rfl
@[simp] theorem State.begin_bad (s : State) (n : Nat) : (s.begin n).here.bad = s.here.bad := rfl
@[simp] theorem State.begin_owners (s : State) (n : Nat) : (s.begin n).here.owners = s.here.owners := rfl
@[simp] theorem State.begin_code (s : State) (n : Nat) : (s.begin n).here.code = s.here.code := rfl
@[simp] theorem State.begin_banks (s : State) (n : Nat) : (s.begin n).here.banks = s.here.banks := rfl
@[simp] theorem State.begin_layouts (s : State) (n : Nat) : (s.begin n).here.layouts = s.here.layouts := rfl
@[simp] theorem State.begin_labels (s : State) (n : Nat) : (s.begin n).here.labels = s.here.labels := rfl
@[simp] theorem State.begin_labelBase (s : State) (n : Nat) : (s.begin n).here.labelBase = s.here.labelBase := rfl
@[simp] theorem State.begin_endorse (s : State) (n : Nat) : (s.begin n).here.endorse = s.here.endorse := rfl
@[simp] theorem State.begin_worlds (s : State) (n : Nat) : (s.begin n).here.worlds = s.here.worlds := rfl
@[simp] theorem State.begin_spaces (s : State) (n : Nat) : (s.begin n).here.spaces = s.here.spaces := rfl
@[simp] theorem State.begin_shoots (s : State) (n : Nat) : (s.begin n).here.shoots = s.here.shoots := rfl
@[simp] theorem State.begin_walks (s : State) (n : Nat) : (s.begin n).here.walks = s.here.walks := rfl
@[simp] theorem State.begin_pods (s : State) (n : Nat) : (s.begin n).here.pods = s.here.pods := rfl
@[simp] theorem State.begin_mans (s : State) (n : Nat) : (s.begin n).here.mans = s.here.mans := rfl
@[simp] theorem State.begin_dels (s : State) (n : Nat) : (s.begin n).here.dels = s.here.dels := rfl
@[simp] theorem State.begin_carveOut (s : State) (n : Nat) : (s.begin n).here.carveOut = s.here.carveOut := rfl
@[simp] theorem State.begin_groups (s : State) (n : Nat) : (s.begin n).here.groups = s.here.groups := rfl
@[simp] theorem State.begin_ports (s : State) (n : Nat) : (s.begin n).here.ports = s.here.ports := rfl
@[simp] theorem State.begin_circuit (s : State) (n : Nat) : (s.begin n).here.circuit = s.here.circuit := rfl
@[simp] theorem State.begin_migrate (s : State) (n : Nat) : (s.begin n).here.migrate = s.here.migrate := rfl
@[simp] theorem State.begin_moves (s : State) (n : Nat) : (s.begin n).here.moves = s.here.moves := rfl
@[simp] theorem State.begin_homeAt (s : State) (n : Nat) : (s.begin n).here.homeAt = s.here.homeAt := rfl
@[simp] theorem State.begin_sys (s : State) (n : Nat) : (s.begin n).here.sys = s.here.sys := rfl

end Sys2Proof.Machine
end

