-- ==== Sys2Proof/Laws/Turn.lean ====
section
/-! SUPPORT. What the shared operations over the threads of a gang do: an effect that takes place in each active thread in turn is what
`each`, `eachThen`, `eachById` and `lift` make of its body (R30), and a trap in the only active thread is raised there (R31). -/

namespace Sys2Proof.Machine

theorem keep_self (p : Package) : p.keep p = p := rfl

/-- A body that takes effect in each thread of a list, each from what the one before it left, runs to their common end. -/
theorem foldThreads_inTurn {β : Type} {body : Who → PM β} {eff : Who → Package → Package → Prop}
    (h : ∀ w p q, eff w p q → ∃ b, body w p = .ok (b, q)) {team : Nat} {ls : List Nat} {p q : Package} (ht : InTurn eff team ls p q)
    (out : List (Nat × β)) : ∃ out', foldThreads body team ls p out = .done q out' := by
  induction ls generalizing p out with
  | nil => cases ht; exact ⟨_, rfl⟩
  | cons l ls ih =>
    obtain ⟨r, hr, ht⟩ := ht
    obtain ⟨b, hb⟩ := h _ _ _ hr
    simp only [foldThreads, hb]
    exact ih ht _

/-- The same where the threads give values, which arrive in their order. -/
theorem foldThreads_gives {β : Type} {body : Who → PM β} {eff : Who → Package → β → Package → Prop}
    (h : ∀ w p b q, eff w p b q → body w p = .ok (b, q)) {team : Nat} {ls : List Nat} {p q : Package} {vs : List (Nat × β)}
    (ht : InTurnGives eff team ls p vs q) (out : List (Nat × β)) :
    foldThreads body team ls p out = .done q (out.reverse ++ vs) := by
  induction ls generalizing p out vs with
  | nil => obtain ⟨rfl, rfl⟩ := ht; simp [foldThreads]
  | cons l ls ih =>
    obtain ⟨r, b, rest, hr, ht, rfl⟩ := ht
    simp only [foldThreads, h _ _ _ _ hr, ih ht]
    simp

theorem each_inTurn {body : Who → PM Unit} {eff : Who → Package → Package → Prop} (h : ∀ w p q, eff w p q → body w p = .ok ((), q))
    {p q : Package} {i : Issue} (hi : p.issue = some i) (ht : InTurn eff i.team i.active p q) : each body p = q := by
  obtain ⟨_, ho⟩ := foldThreads_inTurn (fun w p q hw => ⟨_, h w p q hw⟩) ht []
  simp only [each, eachThen, hi, ho]

theorem eachThen_inTurn {β : Type} {body : Who → PM β} {after : List (Nat × β) → Package → Package}
    {eff : Who → Package → β → Package → Prop} (h : ∀ w p b q, eff w p b q → body w p = .ok (b, q)) {p q : Package} {i : Issue}
    {vs : List (Nat × β)} (hi : p.issue = some i) (ht : InTurnGives eff i.team i.active p vs q) : eachThen body after p = after vs q := by
  simp only [eachThen, hi, foldThreads_gives h ht]
  simp

theorem eachById_inTurn {body : Who → PM Unit} {eff : Who → Package → Package → Prop} (h : ∀ w p q, eff w p q → body w p = .ok ((), q))
    {p q : Package} {i : Issue} (hi : p.issue = some i) (ht : InTurn eff i.team (sortBy id i.active) p q) : eachById body p = q := by
  obtain ⟨_, ho⟩ := foldThreads_inTurn (fun w p q hw => ⟨_, h w p q hw⟩) ht []
  simp only [eachById, eachByIdThen, hi, ho]

theorem eachByIdThen_inTurn {β : Type} {body : Who → PM β} {after : List (Nat × β) → Package → Package}
    {eff : Who → Package → β → Package → Prop} (h : ∀ w p b q, eff w p b q → body w p = .ok (b, q)) {p q : Package} {i : Issue}
    {vs : List (Nat × β)} (hi : p.issue = some i) (ht : InTurnGives eff i.team (sortBy id i.active) p vs q) :
    eachByIdThen body after p = after vs q := by
  simp only [eachByIdThen, hi, foldThreads_gives h ht]
  simp

/-- A trap of the only active thread, with what the effect had changed before it kept (R31). -/
theorem each_trap {body : Who → PM Unit} {p q : Package} {i j : Issue} {l : Nat} {c : Cause} {va : Nat} {vm : Mask} {lbl : Lbl} {aux : Nat}
    (hi : p.issue = some i) (hl : i.active = [l]) (hb : body ⟨i.team, l⟩ p = .error (.trap c va vm lbl aux none q))
    (hj : (p.keep q).issue = some j) : each body p = (p.keep q).raiseTrap ⟨i.team, l⟩ (j.request c va vm lbl aux) := by
  simp only [each, eachThen, hi, hl, foldThreads, hb, hj]

/-- PAGE in the only active thread. -/
theorem each_page {body : Who → PM Unit} {p q : Package} {i : Issue} {l : Nat} {va : Nat} {vm : Mask} {plain : Bool} (hi : p.issue = some i)
    (hl : i.active = [l]) (hb : body ⟨i.team, l⟩ p = .error (.page va vm plain q)) :
    each body p = (p.keep q).pageFault ⟨i.team, l⟩ va vm plain := by
  simp only [each, eachThen, hi, hl, foldThreads, hb]

/-- A wait of the only active thread holds the gang at the instruction (R64). -/
theorem each_wait {body : Who → PM Unit} {p : Package} {i : Issue} {l : Nat} {s : Stall} (hi : p.issue = some i) (hl : i.active = [l])
    (hb : body ⟨i.team, l⟩ p = .error (.wait s)) : each body p = p.hold s [l] := by
  simp only [each, eachThen, hi, hl, foldThreads, hb, List.filter, isWait]

theorem lift_next {f : Package → Package} {s : State} {q : Package} (h : f s.here = q) : lift f s = .next { s with here := q } := by
  subst h; rfl

end Sys2Proof.Machine
end

