-- ==== Sys2Proof/Laws/Thread.lean ====
section
/-! SUPPORT. Lemmas for proofs about one thread's effect: what the steps of a meaning answer, and how a completion follows from them. -/

namespace Sys2Proof.Laws

open Sys2Proof.Machine Sys2Proof.Claims

theorem completes_each {x : Instr} {body : Who → PM Unit} {eff} (hx : ∀ s, exec x s = lift (each body) s)
    (h : ∀ w p q, eff w p q → body w p = .ok ((), q)) : Completes x eff := by
  intro s i q hi ht
  rw [hx]
  exact lift_next (each_inTurn h hi ht)

theorem toWords_mod (n a b : Nat) (h : a % 2 ^ (32 * n) = b % 2 ^ (32 * n)) : toWords n a = toWords n b := by
  induction n generalizing a b with
  | zero => rfl
  | succ n ih =>
    have h1 : a % 2 ^ 32 = b % 2 ^ 32 := by
      have e : 2 ^ (32 * (n + 1)) = 2 ^ 32 * 2 ^ (32 * n) := by rw [← Nat.pow_add]; congr 1; omega
      rw [e] at h
      have := congrArg (· % 2 ^ 32) h
      simpa [Nat.mod_mul_right_mod] using this
    have h2 : a / 2 ^ 32 % 2 ^ (32 * n) = b / 2 ^ 32 % 2 ^ (32 * n) := by
      have e : 2 ^ (32 * (n + 1)) = 2 ^ 32 * 2 ^ (32 * n) := by rw [← Nat.pow_add]; congr 1; omega
      rw [e] at h
      have := congrArg (· / 2 ^ 32) h
      simpa [Nat.mod_mul_right_div_self] using this
    unfold toWords
    rw [ih _ _ h2]
    congr 1
    apply BitVec.eq_of_toNat_eq
    simpa using h1

theorem vout_mod (w : Who) (f : Fld) (n a b : Nat) (l : Lbl) (h : a % 2 ^ (32 * n) = b % 2 ^ (32 * n)) : vout w f n a l = vout w f n b l := by
  unfold vout out
  simp only [Package.putVal, toWords_mod n a b h, h]

theorem ok_bind {α β : Type} {m : PM α} {f : α → PM β} {p q : Package} {a : α} (h : Gives m p a q) : (m >>= f) p = f a q := by
  simp only [bind, StateT.bind, Except.bind, Gives] at *; rw [h]

theorem alu2_two {T : Type} {o : Alu T} {nd na nb e imm} {val : Nat → Nat → Nat → Prop} {f : Nat → Nat → Nat}
    (hv : ∀ x y v, val x y v → v < 2 ^ (32 * nd) → f x y % 2 ^ (32 * nd) = v) (w p q) (h : twoSource o nd na nb e imm val w p q) :
    alu2 w o nd na nb e imm f p = .ok ((), q) := by
  obtain ⟨x, lx, p₁, y, ly, p₂, lbl, p₃, v, h0, h1, h2, h3, hval, hlt, h4⟩ := h
  unfold alu2
  rw [ok_bind h0, ok_bind h1]; dsimp only
  rw [ok_bind h2]; dsimp only
  rw [ok_bind h3, vout_mod w o.d nd (f x y) v lbl (by rw [hv x y v hval hlt, Nat.mod_eq_of_lt hlt])]
  exact h4
theorem alu3_three {T : Type} {o : Alu T} {nd na nb e imm} {val : Nat → Nat → Nat → Nat → Prop} {f : Nat → Nat → Nat → Nat}
    (hv : ∀ d x y v, val d x y v → v < 2 ^ (32 * nd) → f d x y % 2 ^ (32 * nd) = v) (w p q) (h : threeSource o nd na nb e imm val w p q) :
    alu3 w o nd na nb e imm f p = .ok ((), q) := by
  obtain ⟨d, ld, p₀, x, lx, p₁, y, ly, p₂, lbl, p₃, v, h0, hd, h1, h2, h3, hval, hlt, h4⟩ := h
  unfold alu3
  rw [ok_bind h0, ok_bind hd]; dsimp only
  rw [ok_bind h1]; dsimp only
  rw [ok_bind h2]; dsimp only
  rw [ok_bind h3, vout_mod w o.d nd (f d x y) v lbl (by rw [hv d x y v hval hlt, Nat.mod_eq_of_lt hlt])]
  exact h4
theorem alu1_one {T : Type} {o : Un T} {n e imm} {val : Nat → Nat → Prop} {f : Nat → Nat}
    (hv : ∀ y v, val y v → v < 2 ^ (32 * n) → f y % 2 ^ (32 * n) = v) (w p q) (h : oneSource o n e imm val w p q) :
    alu1 w o n n e imm f p = .ok ((), q) := by
  obtain ⟨y, ly, p₁, lbl, p₂, v, h0, h1, h3, hval, hlt, h4⟩ := h
  unfold alu1
  rw [ok_bind h0, ok_bind h1]; dsimp only
  rw [ok_bind h3, vout_mod w o.d n (f y) v lbl (by rw [hv y v hval hlt, Nat.mod_eq_of_lt hlt])]
  exact h4
theorem mod_bits {w a v : Nat} (hv : v < 2 ^ w) (h : ∀ i < w, a.testBit i = v.testBit i) : a % 2 ^ w = v := by
  apply Nat.eq_of_testBit_eq
  intro i
  rw [Nat.testBit_mod_two_pow]
  by_cases hi : i < w
  · simp [hi, h i hi]
  · simp [hi, Nat.testBit_lt_two_pow (Nat.lt_of_lt_of_le hv (Nat.pow_le_pow_right (by omega) (Nat.le_of_not_lt hi)))]
theorem p_bind {α β : Type} (m : PM α) (f : α → PM β) (p : Package) : (m >>= f) p = (match m p with | .ok (a, q) => f a q | .error e => .error e) := by
  simp only [bind, StateT.bind, Except.bind]; cases m p <;> rfl
theorem p_map {α β : Type} (m : PM α) (f : α → β) (p : Package) : (f <$> m) p = (match m p with | .ok (a, q) => .ok (f a, q) | .error e => .error e) := by
  simp only [Functor.map, StateT.map, bind, Except.bind, pure, Except.pure]; cases m p <;> rfl
theorem p_ite {c : Prop} [Decidable c] {α : Type} (a b : PM α) (p : Package) : (if c then a else b) p = if c then a p else b p := by split <;> rfl
theorem p_thr (w : Who) (p : Package) : thr w p = match p.thread? w with | some th => .ok (th, p) | none => .error (.wait .other) := rfl
theorem p_team (w : Who) (p : Package) : teamOf w p = match p.team? w.team with | some th => .ok (th, p) | none => .error (.wait .other) := rfl
theorem p_issue (p : Package) : theIssue p = match p.issue with | some th => .ok (th, p) | none => .error (.wait .other) := rfl
theorem p_get (p : Package) : (get : PM Package) p = .ok (p, p) := rfl
theorem p_pure {α : Type} (a : α) (p : Package) : (pure a : PM α) p = .ok (a, p) := rfl
theorem p_modify (f : Package → Package) (p : Package) : (modify f : PM Unit) p = .ok ((), f p) := rfl
theorem p_setThr (w : Who) (f : Thread → Thread) (p : Package) : setThr w f p = .ok ((), p.setThread w f) := rfl
theorem p_setTeam (w : Who) (f : Team → Team) (p : Package) : setTeam w f p = .ok ((), p.setTeam w.team f) := rfl
theorem p_maskOf (l : Lbl) (p : Package) : maskOf l p = .ok (p.maskOf l, p) := rfl
theorem completes_then {β : Type} {x : Instr} {body : Who → PM β} {aft : List (Nat × β) → Package → Package} {eff} {after}
    (hx : ∀ s, exec x s = lift (eachThen body aft) s)
    (h : ∀ w p b q, eff w p b q → body w p = .ok (b, q)) (ha : ∀ vs q r, after vs q r → r = aft vs q) : CompletesThen x eff after := by
  intro s i vs q r hi ht har
  rw [hx]
  exact lift_next (by rw [eachThen_inTurn h hi ht, ha _ _ _ har])
theorem peeks_eq {β : Type} {read : Who → PM β} {p : Package} {i : Issue} {u : List (Nat × β)} (hi : p.issue = some i)
    (hu : u.map (fun (e : Nat × β) => e.1) = i.active) (hr : ∀ e ∈ u, ∃ r, read ⟨i.team, e.1⟩ p = .ok (e.2, r)) : peeks read p = u := by
  simp only [peeks, hi, ← hu, List.filterMap_map]
  clear hu
  induction u with
  | nil => rfl
  | cons e es ih =>
    obtain ⟨r, h⟩ := hr e List.mem_cons_self
    simp only [List.filterMap_cons, Function.comp, h]
    exact congrArg (e :: ·) (ih (fun e he => hr e (List.mem_cons_of_mem _ he)))
theorem across {β : Type} {x : Instr} {read : Who → PM β} {write : List (Nat × β) → Who → β → PM Unit} {reads} {eff}
    (hx : ∀ s, exec x s = lift (gather read write) s)
    (hr : ∀ w p b q, reads w p b q → read w p = .ok (b, q)) (he : ∀ u w b p q, eff u w b p q → write u w b p = .ok ((), q)) : AcrossGang x reads eff := by
  intro s i u q hi hu hr' ht
  rw [hx]
  refine lift_next ?_
  unfold gather
  rw [peeks_eq hi hu (fun e h => by obtain ⟨r, h⟩ := hr' e h; exact ⟨r, hr _ _ _ _ h⟩)]
  refine each_inTurn (eff := _) ?_ hi ht
  rintro w p q ⟨b, r, h1, h2⟩
  rw [p_bind, hr _ _ _ _ h1]
  exact he _ _ _ _ _ h2
theorem owed {w f n v lbl x p q} (h : ResultOwed w f n v lbl x p q) : lateResult w f n v lbl x p = .ok ((), q) := by
  obtain ⟨d, hd, i, tm, th, h1, h2, h3, rfl⟩ := h
  simp only [Gives] at hd
  simp only [lateResult, p_bind, hd, addAcc, p_issue, h1, p_team, h2, p_thr, h3, freshId, modifyGet, MonadStateOf.modifyGet, StateT.modifyGet, Package.fresh, p_modify, p_pure]
  rfl
theorem late_fp {w x lbl p} (h : noTrap w x p) : lateFp w x lbl p = .ok ((), p) := by
  obtain ⟨th, ht, h⟩ := h
  have e : (BitVec.ofNat 5 (th.fpctl.toNat / 256) &&& x) = 0#5 := by
    apply BitVec.eq_of_getLsbD_eq
    intro k hk
    have := h k hk
    have hd : (th.fpctl.toNat / 256).testBit k = th.fpctl.getLsbD (8 + k) := by
      rw [show (256 : Nat) = 2 ^ 8 from rfl, Nat.testBit_div_two_pow, Nat.add_comm]; rfl
    simp only [BitVec.getLsbD_and, BitVec.getLsbD_ofNat, hd]
    cases hx : x.getLsbD k with
    | false => simp
    | true => simp [this hx]
  simp [lateFp, p_bind, p_thr, ht, e, p_pure]
theorem label_ok {v : Nat} {p : Package} (h : v < 0xFFFF) (hl : p.live v = true) : labelOperand v p = .ok (BitVec.ofNat 16 v, p) := by
  simp [labelOperand, p_bind, p_get, h, hl, p_pure]
theorem p_world (w : Who) (p : Package) : worldOf w p = match (p.team? w.team).bind (fun tm => p.world? tm.world) with | some th => .ok (th, p) | none => .error (.wait .other) := rfl
theorem env_ok {w : Who} {p : Package} {th} (h : p.thread? w = some th) : env w p = .ok (th.ctxMask p ||| p.maskOf th.guardLbl, p) := by
  simp only [env, p_bind, p_thr, h, p_get, p_pure]

end Sys2Proof.Laws
end

