-- ==== Sys2Proof/Tests/Slice0.lean ====
section
/-! SUPPORT. Tests: ill-formed instructions that the check refuses, the decoding of words written out from the spec's encodings, results of
single instructions that the spec's entries work out, and for the hypotheses of the statements states that meet them. -/

namespace Sys2Proof.Tests

open Sys2Proof Sys2Proof.Machine Sys2Proof.Claims

set_option Elab.async false


/-- `nop`, the spec's word. -/
theorem test_decode_nop : decode [0x00000000#32] = .ok (.nop, []) := rfl
/-- `add.n32 v2, v2, o1`, the spec's word. -/
theorem test_decode_add : decode [0x040B8810#32] = .ok (.add { ty := .n32, d := 2, a := 2, b := .reg 113, lit := none }, []) := rfl
/-- `addc v4, v1, 5`, the word from the fields of the spec's table. -/
theorem test_decode_addc : decode [0x08042828#32] = .ok (.addc { ty := (), d := 4, a := 1, b := .imm 5, lit := none }, []) := rfl
/-- `isub.i32 o0, v1, 1`, the spec's word. -/
theorem test_decode_isub : decode [0xE0040839#32] = .ok (.isub { ty := .i32, d := 112, a := 1, b := .imm 1, lit := none }, []) := rfl
/-- `imul.i64 v8, v2, v6`, the word from the fields of the spec's table. -/
theorem test_decode_imul : decode [0x10083043#32] = .ok (.imul { ty := .i64, d := 8, a := 2, b := .reg 6, lit := none }, []) := rfl
/-- `imad.i32 v6, v4, v5`, the spec's word. -/
theorem test_decode_imad : decode [0x0C102851#32] = .ok (.imad { ty := .i32, d := 6, a := 4, b := .reg 5, lit := none }, []) := rfl
/-- `iabs.i32 v3, v2`, the spec's word. -/
theorem test_decode_iabs : decode [0x06001061#32] = .ok (.iabs false { ty := (), d := 3, b := .reg 2, lit := none }, []) := rfl
/-- `imin.i32 v4, v4, v5`, the spec's word. -/
theorem test_decode_imin : decode [0x08102871#32] = .ok (.imin { ty := .i32, d := 4, a := 4, b := .reg 5, lit := none }, []) := rfl
/-- `imax.n32 v4, lit(9), v7`, the word from the fields of the spec's table. -/
theorem test_decode_imax : decode [0x09F83880#32, 0x00000009#32] = .ok (.imax { ty := .n32, d := 4, a := 126, b := .reg 7, lit := some 9 }, []) := rfl
/-- `cmp.i32.lt p1, v4, 10`, the spec's word. -/
theorem test_decode_cmp : decode [0x82105099#32] = .ok (.cmp { ty := .i32, c := .lt, p := 1, a := 4, b := .imm 10, lit := none }, []) := rfl
/-- `lea v8, v2, v6, 2`, the spec's word. -/
theorem test_decode_lea : decode [0x100830A2#32] = .ok (.lea { ty := 2, d := 8, a := 2, b := .reg 6, lit := none }, []) := rfl
/-- `mov.n32 v5, s8`, the spec's word. -/
theorem test_decode_mov : decode [0x0A0040B4#32] = .ok (.mov { ty := .n32, d := 5, a := 0, b := .sreg 8, lit := none }, []) := rfl
/-- `movl.i32 v5, -300`, the spec's word. -/
theorem test_decode_movl : decode [0x0BF6A0C1#32] = .ok (.movl .i32 5 (BitVec.ofInt 14 (-300)), []) := rfl
/-- `and.n32 v7, v0, 23`, the spec's word. -/
theorem test_decode_and : decode [0x0E00B908#32] = .ok (.and { ty := .n32, d := 7, a := 0, b := .imm 23, lit := none }, []) := rfl
/-- `andn.n64 v6, v8, v10`, the word from the fields of the spec's table. -/
theorem test_decode_andn : decode [0x0C205112#32] = .ok (.andn { ty := .n64, d := 6, a := 8, b := .reg 10, lit := none }, []) := rfl
/-- `or.n32 v13, v13, v12`, the spec's word. -/
theorem test_decode_or : decode [0x1A346120#32] = .ok (.or { ty := .n32, d := 13, a := 13, b := .reg 12, lit := none }, []) := rfl
/-- `xor.n32 v3, v2, v4`, the spec's word. -/
theorem test_decode_xor : decode [0x06082130#32] = .ok (.xor { ty := .n32, d := 3, a := 2, b := .reg 4, lit := none }, []) := rfl
/-- `shl.n32 v11, v10, 16`, the spec's word. -/
theorem test_decode_shl : decode [0x16288148#32] = .ok (.shl { ty := .n32, d := 11, a := 10, b := .imm 16, lit := none }, []) := rfl
/-- `shr.n32 v12, v12, 2`, the spec's word. -/
theorem test_decode_shr : decode [0x18301158#32] = .ok (.shr { ty := .n32, d := 12, a := 12, b := .imm 2, lit := none }, []) := rfl
/-- `sar.n32 v4, v4, 16`, the spec's word. -/
theorem test_decode_sar : decode [0x08108168#32] = .ok (.sar { ty := .n32, d := 4, a := 4, b := .imm 16, lit := none }, []) := rfl
/-- `rol.n32 v3, v2, 8`, the spec's word. -/
theorem test_decode_rol : decode [0x06084178#32] = .ok (.rol { ty := .n32, d := 3, a := 2, b := .imm 8, lit := none }, []) := rfl
/-- `bfx.i32 v4, v2, v5`, the word from the fields of the spec's table. -/
theorem test_decode_bfx : decode [0x08082981#32] = .ok (.bfx { ty := .i32, d := 4, a := 2, b := .reg 5, lit := none }, []) := rfl
/-- `bfi.n64 v4, v2, v9`, the word from the fields of the spec's table. -/
theorem test_decode_bfi : decode [0x08084992#32] = .ok (.bfi { ty := .n64, d := 4, a := 2, b := .reg 9, lit := none }, []) := rfl
/-- `popc.n32 v3, v2`, the spec's word. -/
theorem test_decode_popc : decode [0x060011A0#32] = .ok (.popc { ty := .n32, d := 3, b := .reg 2, lit := none }, []) := rfl
/-- `clz.n64 v4, v2`, the word from the fields of the spec's table. -/
theorem test_decode_clz : decode [0x080011B2#32] = .ok (.clz { ty := .n64, d := 4, b := .reg 2, lit := none }, []) := rfl
/-- `brev.n32 v3, 5`, the word from the fields of the spec's table. -/
theorem test_decode_brev : decode [0x060029C8#32] = .ok (.brev { ty := .n32, d := 3, b := .imm 5, lit := none }, []) := rfl
/-- `prmb v4, v2, lit(0x9910)`, the spec's word. -/
theorem test_decode_prmb : decode [0x080BF1D0#32, 0x00009910#32] = .ok (.prmb { ty := (), d := 4, a := 2, b := .reg 126, lit := some 0x9910 }, []) := rfl
/-- `fadd.f64 v4, v2, v6`, the word from the fields of the spec's table. -/
theorem test_decode_fadd : decode [0x08083201#32] = .ok (.fadd { ty := .f64, d := 4, a := 2, b := .reg 6, lit := none }, []) := rfl
/-- `fmul.f32 v26, v20, v20`, the spec's word. -/
theorem test_decode_fmul : decode [0x3450A210#32] = .ok (.fmul { ty := .f32, d := 26, a := 20, b := .reg 20, lit := none }, []) := rfl
/-- `ffma.h16 v3, v2, v6`, the word from the fields of the spec's table. -/
theorem test_decode_ffma : decode [0x06083222#32] = .ok (.ffma { ty := .h16, d := 3, a := 2, b := .reg 6, lit := none }, []) := rfl
/-- `fmin.b16 v3, v2, v6`, the word from the fields of the spec's table. -/
theorem test_decode_fmin : decode [0x06083233#32] = .ok (.fmin { ty := .b16, d := 3, a := 2, b := .reg 6, lit := none }, []) := rfl
/-- `fmax.f32 v3, v2, s8`, the word from the fields of the spec's table. -/
theorem test_decode_fmax : decode [0x06084244#32] = .ok (.fmax { ty := .f32, d := 3, a := 2, b := .sreg 8, lit := none }, []) := rfl
/-- `fcmp.f32.lt p1, v4, v5`, the spec's word. -/
theorem test_decode_fcmp : decode [0x82102A50#32] = .ok (.fcmp { ty := false, c := .lt, p := 1, a := 4, b := .reg 5, lit := none }, []) := rfl
/-- `fsf.f32.sqrt v3, v2`, the spec's word. -/
theorem test_decode_fsf : decode [0x06081260#32] = .ok (.fsf .sqrt { ty := .f32, d := 3, b := .reg 2, lit := none }, []) := rfl
/-- `frnd.f32.rtz v3, v2`, the spec's word. -/
theorem test_decode_frnd : decode [0x06081270#32] = .ok (.frnd .rtz { ty := .f32, d := 3, b := .reg 2, lit := none }, []) := rfl
/-- `twosum.f32 v6, v0, v1`, the spec's word. -/
theorem test_decode_twosum : decode [0x0C000A80#32] = .ok (.twosum { ty := (), d := 6, a := 0, b := .reg 1, lit := none }, []) := rfl
/-- `twoprd.f32 v4, v2, v3`, the spec's word. -/
theorem test_decode_twoprd : decode [0x08081A90#32] = .ok (.twoprd { ty := (), d := 4, a := 2, b := .reg 3, lit := none }, []) := rfl
/-- `cfma.c32 v4, v0, v2`, the spec's word. -/
theorem test_decode_cfma : decode [0x080012A0#32] = .ok (.cfma 4 0 2, []) := rfl
/-- `cvt.e4m3.f32 v3, v2, 0`, the spec's word. -/
theorem test_decode_cvt : decode [0x070012B0#32] = .ok (.cvt 64 0 { ty := (), d := 3, b := .reg 2, lit := none }, []) := rfl
/-- `qpack v3, v16, v6, 1`, the spec's word. -/
theorem test_decode_qpack : decode [0x064032C1#32] = .ok (.qpack 3 16 6 1, []) := rfl
/-- `qunpk v8, v2, v6, 1, 1`, the spec's word. -/
theorem test_decode_qunpk : decode [0x100832D5#32] = .ok (.qunpk 8 2 6 1 1 none, []) := rfl
/-- `trap 5`, the spec's word. -/
theorem test_decode_trap : decode [0x00002B00#32] = .ok (.trap 5, []) := rfl
/-- `eret.resume`, the spec's word. -/
theorem test_decode_eretResume : decode [0x00000310#32] = .ok (.eretResume, []) := rfl
/-- `eret.restart`, the spec's word. -/
theorem test_decode_eretRestart : decode [0x00000311#32] = .ok (.eretRestart, []) := rfl
/-- `eret.skip`, the spec's word. -/
theorem test_decode_eretSkip : decode [0x00000312#32] = .ok (.eretSkip, []) := rfl
/-- `mfsr v40, trapcause`, the spec's word. -/
theorem test_decode_mfsr : decode [0x50010320#32] = .ok (.mfsr 40 0x20, []) := rfl
/-- `mtsr stochseed, v2`, the spec's word. -/
theorem test_decode_mtsr : decode [0x00088330#32] = .ok (.mtsr 2 16 none, []) := rfl
/-- `bkpt 7`, the word from the fields of the spec's table. -/
theorem test_decode_bkpt : decode [0x00003B40#32] = .ok (.bkpt 7, []) := rfl
/-- `snap`, the spec's word. -/
theorem test_decode_snap : decode [0x00000350#32] = .ok (.snap, []) := rfl
/-- `time v4`, the spec's word. -/
theorem test_decode_time : decode [0x08000360#32] = .ok (.time 4 false, []) := rfl
/-- `sel.n32 v6, p1, v5`, the spec's word. -/
theorem test_decode_sel : decode [0x0C042B80#32] = .ok (.sel false 1 { ty := .n32, d := 6, b := .reg 5, lit := none }, []) := rfl
/-- `plop.and p3, p1, p2`, the spec's word. -/
theorem test_decode_plop : decode [0x06041398#32] = .ok (.plop 3 1 2 8, []) := rfl
/-- `pmov v4, p2`, the spec's word. -/
theorem test_decode_pmov : decode [0x080013A0#32] = .ok (.pmov (.toReg 4 2), []) := rfl
/-- `shfl.xor v9, v8, 1`, the spec's word. -/
theorem test_decode_shfl : decode [0x12200BBB#32] = .ok (.shfl { ty := .xor, d := 9, a := 8, b := .imm 1, lit := none }, []) := rfl
/-- `vote.ballot v10, p2`, the spec's word. -/
theorem test_decode_vote : decode [0x140013C3#32] = .ok (.vote (.ballot 10) false 2, []) := rfl
/-- `rdx.i32.add v7, v6`, the spec's word. -/
theorem test_decode_rdx : decode [0x0E0033D1#32] = .ok (.rdx .add (.int .i32) 7 6 none, []) := rfl
/-- `scan.i32.add.excl v7, v6`, the spec's word. -/
theorem test_decode_scan : decode [0x0E2033E1#32] = .ok (.scan true .add (.int .i32) 7 6 none, []) := rfl
/-- `bra at offset +6`, the spec's word. -/
theorem test_decode_bra : decode [0x00003400#32] = .ok (.bra 6, []) := rfl
/-- `brc p1 at offset +8`, the spec's word. -/
theorem test_decode_brc : decode [0x02004410#32] = .ok (.brc false 1 (.short 8), []) := rfl
/-- `bdq.z at offset -3`, the word from the fields of the spec's table. -/
theorem test_decode_bdq : decode [0x41FFEC20#32] = .ok (.bdq true (.short (BitVec.ofInt 14 (-3))), []) := rfl
/-- `jmpi v6`, the spec's word. -/
theorem test_decode_jmpi : decode [0x00180430#32] = .ok (.jmpi 6, []) := rfl
/-- `call v30 at offset 0x10000`, the word from the fields of the spec's table. -/
theorem test_decode_call : decode [0x3C000448#32, 0x00010000#32] = .ok (.call 30 (.long 0x10000), []) := rfl
/-- `ret v30`, the spec's word. -/
theorem test_decode_ret : decode [0x00780450#32] = .ok (.ret 30, []) := rfl
/-- `reform 5`, the spec's word. -/
theorem test_decode_reform : decode [0x00002C68#32] = .ok (.reform (.imm 5) none, []) := rfl
/-- `exit`, the spec's word. -/
theorem test_decode_exit : decode [0x00000470#32] = .ok (.exit, []) := rfl
/-- `kill.team`, the spec's word. -/
theorem test_decode_killTeam : decode [0x00000480#32] = .ok (.killTeam, []) := rfl
/-- `kill.grid`, the spec's word. -/
theorem test_decode_killGrid : decode [0x00000481#32] = .ok (.killGrid, []) := rfl
/-- `yield`, the spec's word. -/
theorem test_decode_yield : decode [0x00000490#32] = .ok (.yield, []) := rfl
/-- `bar.lanes.pkg`, the word from the fields of the spec's table. -/
theorem test_decode_bar : decode [0x000004A6#32] = .ok (.bar true .pkg, []) := rfl
/-- `launch v4, 0`, the spec's word. -/
theorem test_decode_launch : decode [0x001004B0#32] = .ok (.launch 4 0 none, []) := rfl
/-- `cont v6, 3`, the word from the fields of the spec's table. -/
theorem test_decode_cont : decode [0x00181CC0#32] = .ok (.cont 6 3 none, []) := rfl
/-- `dqpush s14`, the spec's word. -/
theorem test_decode_dqpush : decode [0x000074D0#32] = .ok (.dqpush (.reg 14) false none, []) := rfl
/-- `dqpop v2`, the spec's word. -/
theorem test_decode_dqpop : decode [0x040004E0#32] = .ok (.dqpop 2, []) := rfl
/-- `winb 64`, the spec's word. -/
theorem test_decode_winb : decode [0x000104F0#32] = .ok (.winb 4, []) := rfl
/-- `ld.32.l2.acq v36, [v20+0]`, the spec's word. -/
theorem test_decode_ld : decode [0x48516502#32, 0x00000000#32] = .ok (.ld { x := .w32, d := 36, a := 20, policy := .l2, order := .acq, scope := .pkg, lit := none, off := some 0 }, []) := rfl
/-- `st.32.cc v4, [v2+0x10000]`, the spec's word. -/
theorem test_decode_st : decode [0x08082512#32, 0x00010000#32] = .ok (.st { x := .w32, d := 4, a := 2, policy := .cc, order := .plain, scope := .pkg, lit := none, off := some 0x10000 }, []) := rfl
/-- `lds.32 v4, [v2+0x40]`, the spec's word. -/
theorem test_decode_lds : decode [0x08082522#32, 0x00000040#32] = .ok (.lds .w32 { d := 4, a := 2, lit := none, off := some 0x40 }, []) := rfl
/-- `sts.32 v4, [v2+0x40]`, the spec's word. -/
theorem test_decode_sts : decode [0x08082532#32, 0x00000040#32] = .ok (.sts .w32 { d := 4, a := 2, lit := none, off := some 0x40 }, []) := rfl
/-- `fpush.32 v4, [v2]`, the spec's word. -/
theorem test_decode_fpush : decode [0x08080542#32] = .ok (.fpush .w32 { d := 4, a := 2, lit := none, off := none }, []) := rfl
/-- `fpop.128 v8, [v2]`, the word from the fields of the spec's table. -/
theorem test_decode_fpop : decode [0x10080554#32] = .ok (.fpop .w128 { d := 8, a := 2, lit := none, off := none }, []) := rfl
/-- `bank.pad.try p3, 5`, the word from the fields of the spec's table. -/
theorem test_decode_bank : decode [0x06140565#32] = .ok (.bank (some 3) 5 .pad, []) := rfl
/-- `fence.team`, the spec's word. -/
theorem test_decode_fence : decode [0x00000571#32] = .ok (.fence .team, []) := rfl
/-- `tlfence`, the spec's word. -/
theorem test_decode_tlfence : decode [0x00000580#32] = .ok (.tlfence, []) := rfl
/-- `disc v5, [v2]`, the spec's word. -/
theorem test_decode_disc : decode [0x0A080590#32] = .ok (.disc { d := 5, a := 2, lit := none, off := none }, []) := rfl
/-- `arm v3, [v2]`, the word from the fields of the spec's table. -/
theorem test_decode_arm : decode [0x060805A0#32] = .ok (.arm { d := 3, a := 2, lit := none, off := none }, []) := rfl
/-- `await lit(7), [v2+0x30]`, the word from the fields of the spec's table. -/
theorem test_decode_await : decode [0xFC0825B0#32, 0x00000007#32, 0x00000030#32] = .ok (.await { d := 126, a := 2, lit := some 7, off := some 0x30 }, []) := rfl
/-- `xacq`, the spec's word. -/
theorem test_decode_xacq : decode [0x000005C0#32] = .ok (.xacq, []) := rfl
/-- `xrel`, the spec's word. -/
theorem test_decode_xrel : decode [0x000005D0#32] = .ok (.xrel, []) := rfl
/-- `atom.n32.add.l2 v9, [v10+0]`, the spec's word. -/
theorem test_decode_atom : decode [0x12292600#32, 0x00000000#32] = .ok (.atom { x := .add32, d := 9, a := 10, policy := .l2, order := .plain, scope := .pkg, lit := none, off := some 0 }, []) := rfl
/-- `atomx.128.cas.acqrel v8, [v2]`, the spec's word. -/
theorem test_decode_atomx : decode [0x1008C610#32] = .ok (.atomx { x := .cas, d := 8, a := 2, policy := .cc, order := .acqrel, scope := .pkg, lit := none, off := none }, []) := rfl
/-- `red.f32.add v26, [v30]`, the spec's word. -/
theorem test_decode_red : decode [0x3478062A#32] = .ok (.red { x := .addf32, d := 26, a := 30, policy := .cc, order := .plain, scope := .pkg, lit := none, off := none }, []) := rfl
/-- `rgn`, the spec's word. -/
theorem test_decode_rgn : decode [0x00000630#32] = .ok (.rgn, []) := rfl
/-- `rgnc`, the spec's word. -/
theorem test_decode_rgnc : decode [0x00000640#32] = .ok (.rgnc, []) := rfl
/-- `lget.64 v12, v6`, the spec's word. -/
theorem test_decode_lget : decode [0x18003681#32] = .ok (.lget 12 (.pair (.reg 6)) none, []) := rfl
/-- `ljoin.64 v4, v4, v9`, the spec's word. -/
theorem test_decode_ljoin : decode [0x08104E91#32] = .ok (.ljoin true { ty := (), d := 4, a := 4, b := .reg 9, lit := none }, []) := rfl
/-- `lceil v5`, the spec's word. -/
theorem test_decode_lceil : decode [0x00002EA0#32] = .ok (.lceil (.reg 5) none, []) := rfl
/-- `endo v8`, the spec's word. -/
theorem test_decode_endo : decode [0x002006B0#32] = .ok (.endo 8, []) := rfl
/-- `decl v7, v6, zero`, the spec's word. -/
theorem test_decode_decl : decode [0x0E1BD6C0#32] = .ok (.decl false { ty := (), d := 7, a := 6, b := .reg 122, lit := none }, []) := rfl
/-- `mma.c32 a0, v12, v16, 0`, the spec's word. -/
theorem test_decode_mma : decode [0x000C2706#32] = .ok (.mma .c32 0 0 3 4 none, []) := rfl
/-- `mmasp.e4m3 a2, v8, v16, 1, 3`, the spec's word. -/
theorem test_decode_mmasp : decode [0x0409271E#32] = .ok (.mmasp .e4m3 3 2 1 2 4, []) := rfl
/-- `accld.c32 a5, v24, 2`, the word from the fields of the spec's table. -/
theorem test_decode_accld : decode [0x0A601721#32] = .ok (.accld .c32 5 24 2, []) := rfl
/-- `accst.c32.rnd v20, a0, 1`, the spec's word. -/
theorem test_decode_accst : decode [0x28000F34#32] = .ok (.accst .c32rnd 20 0 1, []) := rfl
/-- `sign 3, 200`, the spec's word. -/
theorem test_decode_sign : decode [0x06064740#32] = .ok (.sign 3 (.imm 200), []) := rfl
/-- `jwait f2`, the spec's word. -/
theorem test_decode_jwait : decode [0x00001750#32] = .ok (.jwait 2, []) := rfl
/-- `tide v4`, the word from the fields of the spec's table. -/
theorem test_decode_tide : decode [0x08000760#32] = .ok (.tide 4, []) := rfl
/-- `cpy.rel v12`, the word from the fields of the spec's table. -/
theorem test_decode_cpy : decode [0x00300781#32] = .ok (.cpy 12 true none, []) := rfl
/-- `cpym v12, v14`, the word from the fields of the spec's table. -/
theorem test_decode_cpym : decode [0x00307790#32] = .ok (.cpym 12 14 false none, []) := rfl
/-- `coll a9, v12`, the word from the fields of the spec's table. -/
theorem test_decode_coll : decode [0x123007A0#32] = .ok (.coll (some 9) 12 false none, []) := rfl
/-- `xperm.rel v4`, the spec's word. -/
theorem test_decode_xperm : decode [0x001007B1#32] = .ok (.xperm 4 true none, []) := rfl
/-- `rec.begin 0, s8, s10`, the spec's word. -/
theorem test_decode_recBegin : decode [0x002057C0#32] = .ok (.recBegin 0 8 10 none, []) := rfl
/-- `rec.end 0`, the spec's word. -/
theorem test_decode_recEnd : decode [0x000007C1#32] = .ok (.recEnd 0, []) := rfl
/-- `rec.play 0, s12`, the spec's word. -/
theorem test_decode_recPlay : decode [0x000067C2#32] = .ok (.recPlay 0 12 none, []) := rfl
/-- `rec.drop 0`, the spec's word. -/
theorem test_decode_recDrop : decode [0x000007C3#32] = .ok (.recDrop 0, []) := rfl
/-- `recq s16, 0`, the spec's word. -/
theorem test_decode_recq : decode [0x200007D0#32] = .ok (.recq 16 0, []) := rfl

/-! ### Single instructions -/

/-- A 64 KiB page with every permission, as a TLB holds it: mode and rule as R269 and R270 number them. -/
def page (k frame mode rule peer : Nat) : Xlat :=
  { space := 3, gen := 1, vpage := k, size := 65536, frame, r := true, w := true, x := true, mode, rule, grow := true, peer, label := 0
    mthr := 0, pte := 0x500000 }

/-- A package with a clause being issued in the lane thread or the pilot of a team in world 1: space 3 is bound, pages 1 to 4 (plain, of the pod
with rule OR, of the pod homed on another package, and MIGRATE homed there) are in the TLB, the frames are the world's, traps have their vectors and frames, a
tide is open, and manifest 0 is granted. -/
def bench (words : List Word) (pilot : Bool) (vals : List Nat) : Package :=
  let p := State.reset.here.fetching words
  let x := World.blank 1
  let tide : Tide := { size := 2, me := 0, phys := [0, 1], groups := [0, 0], step := 4, state := .running, causes := Causes.none
                       nextCauses := Causes.none, unacked := 0, members := [], merged := Causes.none, roots := [], rootMerged := Causes.none
                       rootStep := 4, status := 0, origin := 0, lost := 0, nextLost := 0, recs := [], spill := [], nextRecs := [], nextSpill := []
                       nextBulk := [] }
  let p := { p with
    worlds := [{ x with clusters := [(0, 0)], banks := [(0, 5, 9)], queues := [2], manifests := [(0, 4)], trapVec := 0x8000, pilotVec := 0x9000
                        peers := [{ logical := 0, phys := 0, state := .reachable }, { logical := 1, phys := 1, state := .reachable }]
                        tide := some tide }]
    spaces := [{ id := 3, gen := 1, root := 0x600000, world := 1, flushed := true }]
    owners := [(3, 1), (4, 1), (5, 1)]
    code := [(3, 1)]
    quays := [{ phys := 2, base := 0, cap := 4, items := [], tail := 0 }]
    mans := [Manifest.reset 4] }
  let p := p.setCore 0 (fun c => { c with tlb := [page 1 0x30000 0 0 0, page 2 0x40000 1 7 0, page 3 0x50000 1 7 1, page 4 0x60000 3 0 1] })
  let p := p.setTeam 0 (fun tm => { tm with space := 3, frameBase := some 0x700000, frameVa := 0x70000
                                            sregs := if pilot then setRegs tm.sregs 0 (vals.map (fun v => ⟨BitVec.ofNat 32 v, 0⟩)) else tm.sregs })
  let p := p.setThread ⟨0, 1⟩ (fun th =>
    { th with regs := if pilot then th.regs else setRegs th.regs 0 (vals.map (fun v => ⟨BitVec.ofNat 32 v, 0⟩)) })
  { p with issue := p.issue.map (fun i => if pilot then { i with active := [0], id := 0x1FF } else i) }

/-- The lane thread's clause, with values in its first registers. -/
def lane (vals : List Nat := []) : State := { State.reset with here := bench [0#32] false vals }

/-- The pilot's clause, with values in the first s-registers. -/
def pilot (vals : List Nat := []) : State := { State.reset with here := bench [0#32] true vals }

/-- The package after an instruction. -/
def after (s : State) (x : Instr) : Package :=
  match exec x s with
  | .next t => t.here
  | _ => s.here

/-- Main registers k to k + n − 1 of the lane thread. -/
def regs (p : Package) (k n : Nat) : List Nat := ((p.thread? ⟨0, 1⟩).map (fun th => ((th.regs.drop k).take n).map (·.val.toNat))).getD []

/-- FLAGS of the lane thread (R149). -/
def flags (p : Package) : Nat := ((p.thread? ⟨0, 1⟩).map (fun th => th.fpctl.toNat / 8 % 32)).getD 0

/-- A predicate of the lane thread. -/
def pred (p : Package) (k : Nat) : Bool := ((p.thread? ⟨0, 1⟩).map (fun th => (th.preds.getD k LBit.zero).val)).getD false

/-- The trap that the lane thread has taken, with TRAPAUX. -/
def trapped (p : Package) : Option (Cause × Nat) := (p.thread? ⟨0, 1⟩).bind (fun th => th.trap.map (fun t => (t.cause, th.trapRegs.aux.toNat)))

/-- A long-latency result on its way: its registers and its value. -/
def owed (p : Package) : List (Dst × Nat) :=
  p.accs.filterMap (fun a => match a.op with | .result r => some (r.dst, r.val) | _ => none)

def two {T : Type} (ty : T) (d a b : Fld) : Alu T := { ty, d, a, b := .reg b, lit := none }
def twoI {T : Type} (ty : T) (d a : Fld) (k : BitVec 7) : Alu T := { ty, d, a, b := .imm k, lit := none }
def one {T : Type} (ty : T) (d b : Fld) : Un T := { ty, d, b := .reg b, lit := none }

/-- By hand from R338: 2^32 − 1 plus 127 wraps. -/
theorem test_add_wraps : regs (after (lane [0, 0xFFFFFFFF]) (.add (twoI .n32 2 1 127))) 2 1 = [126] := by decide
/-- By hand from R339: the sum and the carry into the odd register. -/
theorem test_addc_carries : regs (after (lane [0, 0xFFFFFFFF, 1, 0, 9, 1]) (.addc (two () 4 1 2))) 4 2 = [1, 1] := by decide
/-- By hand from R90: an immediate of a signed type is sign-extended. -/
theorem test_isub_immediate : regs (after (lane [5]) (.isub (twoI .i32 1 0 0x7F))) 1 1 = [6] := by decide
theorem test_imul_wide : regs (after (lane [0xFFFFFFFF, 0, 2, 0]) (.imul (two .n64 4 0 2))) 4 2 = [0xFFFFFFFE, 1] := by decide
theorem test_imad : regs (after (lane [3, 5, 100]) (.imad (two .n32 2 0 1))) 2 1 = [115] := by decide
/-- R391: the magnitude of −2^31 is −2^31. -/
theorem test_iabs_least : regs (after (lane [0x80000000]) (.iabs false (one () 1 0))) 1 1 = [0x80000000] := by decide
theorem test_imin_signed : regs (after (lane [0xFFFFFFFF, 1]) (.imin (two .i32 2 0 1))) 2 1 = [0xFFFFFFFF] := by decide
theorem test_imax_natural : regs (after (lane [0xFFFFFFFF, 1]) (.imax (two .n32 2 0 1))) 2 1 = [0xFFFFFFFF] := by decide
theorem test_cmp_signed :
    pred (after (lane [0xFFFFFFFF, 1]) (.cmp { ty := .i32, c := .lt, p := 23, a := 0, b := .reg 1, lit := none })) 23 = true := by decide
/-- By hand from R404: the index −1 scaled by 4, over the whole pair. -/
theorem test_lea_negative : regs (after (lane [0, 0, 3, 0, 0xFFFFFFFF]) (.lea (two 2 6 2 4))) 6 2 = [0xFFFFFFFF, 0xFFFFFFFF] := by decide
theorem test_mov_pair : regs (after (lane [7, 8]) (.mov { ty := .n64, d := 2, a := 0, b := .reg 0, lit := none })) 2 2 = [7, 8] := by decide
/-- R413: the constant of `movl.i32 v5, -300`. -/
theorem test_movl_signed : regs (after lane (.movl .i32 5 (BitVec.ofInt 14 (-300)))) 5 1 = [0xFFFFFED4] := by decide
theorem test_and : regs (after (lane [0xFF]) (.and (twoI .n32 1 0 23))) 1 1 = [23] := by decide
theorem test_andn : regs (after (lane [0xFF, 0x0F]) (.andn (two .n32 2 0 1))) 2 1 = [0xF0] := by decide
theorem test_or : regs (after (lane [0xF0, 0x0F]) (.or (two .n32 2 0 1))) 2 1 = [0xFF] := by decide
theorem test_xor : regs (after (lane [0xFF, 0x0F]) (.xor (two .n32 2 0 1))) 2 1 = [0xF0] := by decide
/-- R439: a count of the width or more shifts every bit out. -/
theorem test_shl_out : regs (after (lane [0xFFFFFFFF]) (.shl (twoI .n32 1 0 32))) 1 1 = [0] := by decide
theorem test_shr : regs (after (lane [0x80000000]) (.shr (twoI .n32 1 0 31))) 1 1 = [1] := by decide
theorem test_sar_out : regs (after (lane [0x80000000]) (.sar (twoI .n32 1 0 100))) 1 1 = [0xFFFFFFFF] := by decide
theorem test_rol_modulo : regs (after (lane [0x80000001]) (.rol (twoI .n32 1 0 33))) 1 1 = [3] := by decide
/-- By hand from R350: F = 0x0304 names four bits at position 4, and their top bit is the sign. -/
theorem test_bfx_sign : regs (after (lane [0xF0, 0x0304]) (.bfx (two .i32 2 0 1))) 2 1 = [0xFFFFFFFF] := by decide
theorem test_bfi : regs (after (lane [0xA, 0x0304, 0xFFFFFFFF]) (.bfi (two .n32 2 0 1))) 2 1 = [0xFFFFFFAF] := by decide
theorem test_popc : regs (after (lane [0xF0F0F0F0, 1]) (.popc (one .n64 2 0))) 2 2 = [17, 0] := by decide
theorem test_clz_zero : regs (after lane (.clz (one .n64 2 0))) 2 2 = [64, 0] := by decide
theorem test_brev : regs (after (lane [6]) (.brev (one .n32 1 0))) 1 1 = [0x60000000] := by decide
/-- R421's example: selector 0x9910 sign-extends a half-word. -/
theorem test_prmb_sign :
    regs (after (lane [0, 0, 0xFED4]) (.prmb { ty := (), d := 4, a := 2, b := .reg 126, lit := some 0x9910 })) 4 1 = [0xFFFFFED4] := by decide
/-- R382's example: the exact sum is rounded once, and nothing is raised. -/
theorem test_ffma_once :
    (let p := after (lane [0x3F800800, 0x3F800800, 0xBF801000]) (.ffma (two .f32 2 0 1)); (regs p 2 1, flags p)) = ([0x33800000], 0) := by decide
/-- R382's example: the product alone is inexact. -/
theorem test_fmul_inexact :
    (let p := after (lane [0x3F800800, 0x3F800800]) (.fmul (two .f32 2 0 1)); (regs p 2 1, decide (flags p = 0))) = ([0x3F801000], false) := by decide
theorem test_fadd_cancels : regs (after (lane [0x3F801000, 0xBF801000]) (.fadd (two .f32 2 0 1))) 2 1 = [0] := by decide
/-- By hand from R383: −0 is less than +0. -/
theorem test_fmin_zero : regs (after (lane [0, 0x80000000]) (.fmin (two .f32 2 0 1))) 2 1 = [0x80000000] := by decide
theorem test_fmax_zero : regs (after (lane [0x80000000, 0]) (.fmax (two .f32 2 0 1))) 2 1 = [0] := by decide
/-- R384: −0 equals +0. -/
theorem test_fcmp_zero :
    pred (after (lane [0x80000000, 0]) (.fcmp { ty := false, c := .eq, p := 1, a := 0, b := .reg 1, lit := none })) 1 = true := by decide
/-- R389's result for the root of 2. -/
theorem test_fsf_sqrt : owed (after (lane [0x40000000]) (.fsf .sqrt (one .f32 1 0))) = [(.main 1, 0x3FB504F3)] := by decide +kernel
/-- R388's table for −2.5. -/
theorem test_frnd_directions : [RDir.rne, .rtz, .rdn, .rup, .rna].map (fun d => regs (after (lane [0xC0200000]) (.frnd d (one .f32 1 0))) 1 1) =
    [[0xC0000000], [0xC0000000], [0xC0400000], [0xC0000000], [0xC0400000]] := by decide
/-- R457's example: the tie goes to even, and the error is the term lost. -/
theorem test_twosum_tie :
    (let p := after (lane [0x3F800000, 0x33800000]) (.twosum (two () 2 0 1)); (regs p 2 2, flags p)) = ([0x3F800000, 0x33800000], 0) := by decide
theorem test_twoprd : regs (after (lane [0x3F800800, 0x3F800800]) (.twoprd (two () 2 0 1))) 2 2 = [0x3F801000, 0x33800000] := by decide
/-- By hand from R164: (1 + 2i)(3 + 4i) = −5 + 10i. -/
theorem test_cfma :
    regs (after (lane [0x3F800000, 0x40000000, 0x40400000, 0x40800000]) (.cfma 4 0 2)) 4 2 = [0xC0A00000, 0x41200000] := by decide
/-- R369's example, after a seed of 1. -/
theorem test_cvt_draws :
    (let s := lane [0, 0, 0x3A000000, 0xAABBCCDD]
     let s := { s with here := s.here.setThread ⟨0, 1⟩ (fun th => { th with seed := 1 }) }
     regs (after s (.cvt 64 0 (one () 3 2))) 3 1) = [0xAABBCC01] := by decide
/-- R424's example. -/
theorem test_qpack : regs (after (lane [0, 0, 0, 0, 0, 0, 0xCE00, 0, 0, 0, 0, 0, 0, 0, 0, 0, 0xBE800000, 0x3FA00000, 0x41300000, 0, 0, 0xC1300000, 0xC1000000, 0])
    (.qpack 3 16 6 1)) 3 1 = [0x888B385F] := by decide
/-- R424's example: 11 and +0. -/
theorem test_qunpk : regs (after (lane [0, 0, 0x888B385F, 0, 0, 0, 0xCE00]) (.qunpk 8 2 6 1 1 none)) 8 2 = [0x41300000, 0] := by decide
/-- R454: a software trap with its code. -/
theorem test_trap : trapped (after lane (.trap 5)) = some (.soft, 5) := by decide +kernel
theorem test_bkpt : trapped (after lane (.bkpt 9)) = some (.bkpt, 9) := by decide +kernel
theorem test_sel : regs (after (lane [1, 2]) (.sel true 3 (one .n32 1 0))) 1 1 = [1] := by decide
/-- R418: 0b1000 is the conjunction; of two false predicates it is false, and 0b0001 is true. -/
theorem test_plop : (pred (after lane (.plop 3 1 2 8)) 3, pred (after lane (.plop 3 1 2 1)) 3) = (false, true) := by decide
theorem test_pmov_load : pred (after (lane [0x800000]) (.pmov (.load 0 none))) 23 = true := by decide
/-- R103: register 0x00 is the thread's local id. -/
theorem test_mfsr : regs (after lane (.mfsr 3 0)) 3 1 = [1] := by decide
theorem test_mtsr_seed :
    ((after (lane [0, 0, 77]) (.mtsr 2 0x10 none)).thread? ⟨0, 1⟩).map (·.seed.toNat) = some 77 := by decide
theorem test_winb : ((after lane (.winb 3)).thread? ⟨0, 1⟩).map (·.wnext) = some (some 48) := by decide



/-! ### Ill-formed instructions that `Instr.wf` refuses, each beside a well-formed neighbour -/

/-- A memory form with base register 2 and plain order. -/
def mop {T : Type} (x : T) (d : Fld) : MemOp T := { x, d, a := 2, policy := .cc, order := .plain, scope := .pkg, lit := none, off := none }
def pad (d : Fld) : PadOp := { d, a := 2, lit := none, off := none }

/-- R78: an odd register as a pair, as destination and as source; the literal is a source and no destination (R79). -/
theorem wf_pair_destination : (Instr.add (two .n64 3 0 2)).wf = false ∧ (Instr.add (two .n64 2 0 2)).wf = true := by decide
theorem wf_pair_source : (Instr.add (two .n64 2 1 2)).wf = false ∧ (Instr.add (two .n64 2 0 3)).wf = false := by decide
theorem wf_dq_destination : (Instr.add (two .n32 123 0 1)).wf = false ∧ (Instr.add (two .n32 122 0 1)).wf = true := by decide
theorem wf_reserved_fields : (Instr.add (two .n32 0 124 1)).wf = false ∧ (Instr.add (two .n32 0 1 125)).wf = false ∧ (Instr.add (two .n32 0 1 127)).wf = false := by
  decide
/-- R83: a literal exactly when a field names it; D of a form that reads D names it too. -/
theorem wf_literal_missing : (Instr.add (two .n32 2 126 1)).wf = false ∧ (Instr.add { two .n32 2 126 1 with lit := some 5 }).wf = true := by decide
theorem wf_literal_extra : (Instr.add { two .n32 2 0 1 with lit := some 5 }).wf = false := by decide
theorem wf_literal_in_d : (Instr.imad { two .n32 126 0 1 with lit := some 5 }).wf = false ∧ (Instr.add { two .n32 126 0 1 with lit := some 5 }).wf = false := by decide
theorem wf_unary_literal : (Instr.popc (one .n32 2 126)).wf = false ∧ (Instr.popc { one .n32 2 126 with lit := some 5 }).wf = true := by decide
theorem wf_sreg_pair : (Instr.add { ty := .n64, d := 2, a := 0, b := .sreg 5, lit := none }).wf = false ∧
    (Instr.add { ty := .n64, d := 2, a := 0, b := .sreg 4, lit := none }).wf = true := by decide
/-- R84: predicates 0 to 23. -/
theorem wf_cmp_predicate : (Instr.cmp { ty := .i32, c := .lt, p := 24, a := 0, b := .reg 1, lit := none }).wf = false ∧
    (Instr.cmp { ty := .i32, c := .lt, p := 23, a := 0, b := .reg 1, lit := none }).wf = true := by decide
theorem wf_predicates : (Instr.sel true 24 (one .n32 1 0)).wf = false ∧ (Instr.plop 24 0 0 1).wf = false ∧ (Instr.plop 0 24 0 1).wf = false ∧
    (Instr.plop 0 0 24 1).wf = false ∧ (Instr.brc true 24 (.short 0)).wf = false ∧ (Instr.pmov (.toReg 0 24)).wf = false ∧
    (Instr.pmov (.toPred 24 0 none)).wf = false ∧ (Instr.vote (.all 24) true 0).wf = false ∧ (Instr.vote (.all 0) true 24).wf = false ∧
    (Instr.bank (some 24) 0 .pad).wf = false ∧ (Instr.lget 0 (.pred 24) none).wf = false := by decide
theorem wf_pmov_fields : (Instr.pmov (.save 126)).wf = false ∧ (Instr.pmov (.load 124 none)).wf = false ∧ (Instr.pmov (.toPred 0 126 none)).wf = false ∧
    (Instr.pmov (.load 126 none)).wf = false := by decide
theorem wf_ballot : (Instr.vote (.ballot 126) true 0).wf = false ∧ (Instr.vote (.ballot 122) true 0).wf = true := by decide
theorem wf_addc : (Instr.addc (two () 120 1 2)).wf = false ∧ (Instr.addc (two () 118 1 2)).wf = true := by decide
theorem wf_transforms : (Instr.twosum (two () 120 1 2)).wf = false ∧ (Instr.twoprd (two () 3 1 2)).wf = false ∧ (Instr.twosum (two () 118 1 2)).wf = true := by decide
theorem wf_cfma : (Instr.cfma 2 126 4).wf = false ∧ (Instr.cfma 2 4 126).wf = false ∧ (Instr.cfma 2 4 6).wf = true := by decide
/-- R412: without an s-register A is 0. -/
theorem wf_mov : (Instr.mov { ty := .n32, d := 2, a := 1, b := .reg 0, lit := none }).wf = false ∧
    (Instr.mov { ty := .n32, d := 122, a := 126, b := .sreg 3, lit := none }).wf = false ∧
    (Instr.mov { ty := .n32, d := 122, a := 126, b := .sreg 3, lit := some 1 }).wf = true := by decide
theorem wf_movl : (Instr.movl .i64 3 0).wf = false ∧ (Instr.movl .i64 2 0).wf = true := by decide
/-- R368: no code 0x42; an element beyond the format's; an immediate only for an integer source. -/
theorem wf_cvt : (Instr.cvt 0x42 0 { ty := (), d := 0, b := .reg 1, lit := none }).wf = false ∧
    (Instr.cvt 0x00 2 { ty := (), d := 0, b := .reg 1, lit := none }).wf = false ∧ (Instr.cvt 0x04 0 { ty := (), d := 0, b := .imm 1, lit := none }).wf = false ∧
    (Instr.cvt 0x00 0 { ty := (), d := 0, b := .imm 1, lit := none }).wf = true := by decide
theorem wf_fsf : (Instr.fsf .rcp (one .f64 2 0)).wf = false ∧ (Instr.fsf .sqrt (one .f64 2 0)).wf = true := by decide
theorem wf_rdx : (Instr.rdx .and .f32 0 1 none).wf = false ∧ (Instr.scan false .xor .f64 0 2 none).wf = false ∧ (Instr.rdx .and (.int .n32) 0 1 none).wf = true := by decide
theorem wf_qpack : (Instr.qpack 0 4 2 0).wf = false ∧ (Instr.qpack 0 122 2 0).wf = true ∧ (Instr.qpack 0 8 123 0).wf = false ∧ (Instr.qpack 0 8 2 0).wf = true := by decide
theorem wf_qunpk : (Instr.qunpk 1 4 2 0 0 none).wf = false ∧ (Instr.qunpk 2 4 126 0 0 none).wf = false ∧ (Instr.qunpk 2 4 2 0 0 none).wf = true := by decide
/-- R103: no register 0x12; an odd destination of a wide register. -/
theorem wf_mfsr : (Instr.mfsr 0 0x12).wf = false ∧ (Instr.mfsr 1 0x0B).wf = false ∧ (Instr.mfsr 120 0x00).wf = false ∧ (Instr.mfsr 1 0x00).wf = true := by decide
theorem wf_mtsr : (Instr.mtsr 0 0x28 none).wf = false ∧ (Instr.mtsr 1 0x21 none).wf = false ∧ (Instr.mtsr 123 0x0F none).wf = false ∧ (Instr.mtsr 1 0x0F none).wf = true := by
  decide
theorem wf_time : (Instr.time 1 false).wf = false ∧ (Instr.time 120 false).wf = false ∧ (Instr.time 122 false).wf = true := by decide
theorem wf_jumps : (Instr.jmpi 1).wf = false ∧ (Instr.ret 122).wf = false ∧ (Instr.call 120 (.short 0)).wf = false ∧ (Instr.call 122 (.short 0)).wf = true := by decide
theorem wf_reform : (Instr.reform (.reg 126) none).wf = false ∧ (Instr.reform (.reg 126) (some 1)).wf = true := by decide
theorem wf_launch : (Instr.launch 1 0 none).wf = false ∧ (Instr.cont 126 0 none).wf = false ∧ (Instr.launch 2 0 none).wf = true := by decide
theorem wf_dqpush : (Instr.dqpush (.sreg 0) false none).wf = false ∧ (Instr.dqpush (.reg 112) false none).wf = false ∧ (Instr.dqpush (.reg 121) false none).wf = false ∧
    (Instr.dqpush (.reg 111) false none).wf = true := by decide
theorem wf_dqpop : (Instr.dqpop 120).wf = false ∧ (Instr.dqpop 122).wf = true := by decide
/-- R91: the base is an even register; R235: a scope only with an order. -/
theorem wf_memory_base : (Instr.ld { mop .w32 0 with a := 3 }).wf = false ∧ (Instr.ld { mop .w32 0 with a := 120 }).wf = false ∧ (Instr.ld (mop .w32 0)).wf = true := by
  decide
theorem wf_memory_scope : (Instr.ld { mop .w32 0 with scope := .team }).wf = false ∧ (Instr.ld { mop .w32 0 with scope := .team, order := .acq }).wf = true := by decide
theorem wf_ld : (Instr.ld { mop .w32 0 with order := .rel }).wf = false ∧ (Instr.ld (mop .w32 120)).wf = false ∧ (Instr.ld (mop .w128 2)).wf = false := by decide
theorem wf_st : (Instr.st (mop .s8 0)).wf = false ∧ (Instr.st { mop .w128 126 with lit := some 0 }).wf = false ∧ (Instr.st { mop .w32 0 with order := .acq }).wf = false ∧
    (Instr.st { mop .w64 126 with lit := some 0 }).wf = true := by decide
theorem wf_scratchpad : (Instr.lds .w64 (pad 1)).wf = false ∧ (Instr.sts .s16 (pad 0)).wf = false ∧ (Instr.sts .w128 { pad 126 with lit := some 0 }).wf = false ∧
    (Instr.lds .w64 (pad 2)).wf = true := by decide
theorem wf_fifo : (Instr.fpush .w8 (pad 0)).wf = false ∧ (Instr.fpop .s16 (pad 0)).wf = false ∧ (Instr.fpush .w32 (pad 122)).wf = false ∧ (Instr.fpop .w32 (pad 122)).wf = true := by
  decide
theorem wf_pad_words : (Instr.disc (pad 122)).wf = false ∧ (Instr.arm (pad 126)).wf = false ∧ (Instr.await { pad 0 with a := 1 }).wf = false ∧ (Instr.arm (pad 0)).wf = true := by
  decide
/-- R343: a compare of .i64 names four registers; R345: an ATOMX.cas eight within one file. -/
theorem wf_atom : (Instr.atom (mop .cas64 2)).wf = false ∧ (Instr.atom (mop .add32 122)).wf = false ∧ (Instr.atom (mop .cas64 4)).wf = true := by decide
theorem wf_atomx : (Instr.atomx (mop .cas 108)).wf = false ∧ (Instr.atomx (mop .cas 2)).wf = false ∧ (Instr.atomx (mop .cas 104)).wf = true ∧
    (Instr.atomx (mop .exch 108)).wf = true := by decide
theorem wf_red : (Instr.red { mop .add32 0 with order := .acq }).wf = false ∧ (Instr.red (mop .add64 1)).wf = false ∧ (Instr.red { mop .add32 0 with order := .rel }).wf = true := by
  decide
/-- No immediate in these forms. -/
theorem wf_labels : (Instr.lget 0 (.one (.imm 1)) none).wf = false ∧ (Instr.lget 0 (.pair (.reg 1)) none).wf = false ∧ (Instr.ljoin false (twoI () 0 1 2)).wf = false ∧
    (Instr.lceil (.imm 1) none).wf = false ∧ (Instr.decl false (twoI () 0 1 2)).wf = false ∧ (Instr.lceil (.reg 1) none).wf = true := by decide
theorem wf_endo : (Instr.endo 2).wf = false ∧ (Instr.endo 122).wf = false ∧ (Instr.endo 4).wf = true := by decide
theorem wf_decl : (Instr.decl false (two () 120 1 2)).wf = false ∧ (Instr.decl false (two () 0 123 2)).wf = false ∧ (Instr.decl true (two () 2 3 4)).wf = false ∧
    (Instr.decl true (two () 2 4 5)).wf = true := by decide
/-- R409, R410: the groups of a lathe word, and the control literal of .q4 alone. -/
theorem wf_mma : (Instr.mma .b16 0 0 1 2 none).wf = false ∧ (Instr.mma .b16 0 0 30 0 none).wf = false ∧ (Instr.mma .q4 0 0 0 2 none).wf = false ∧
    (Instr.mma .b16 0 0 0 2 (some 0)).wf = false ∧ (Instr.mma .q4 0 0 0 2 (some 0xF0000000)).wf = false ∧ (Instr.mma .q4 0 0 0 2 (some 0)).wf = true := by decide
theorem wf_mmasp : (Instr.mmasp .h16 0 0 0 1 1).wf = false ∧ (Instr.mmasp .h16 0 0 0 1 2).wf = true := by decide
theorem wf_accumulator : (Instr.accld .f32 0 4 0).wf = false ∧ (Instr.accst .b16 2 0 0).wf = false ∧ (Instr.accst .f32 122 0 0).wf = false ∧
    (Instr.accld .f32 0 122 0).wf = true := by decide
theorem wf_jwait : (Instr.jwait 12).wf = false ∧ (Instr.jwait 11).wf = true := by decide
theorem wf_tide : (Instr.tide 3).wf = false ∧ (Instr.tide 122).wf = true := by decide
theorem wf_jobs : (Instr.cpy 1 false none).wf = false ∧ (Instr.cpym 2 126 false none).wf = false ∧ (Instr.coll none 126 false none).wf = false ∧
    (Instr.xperm 2 false (some 0)).wf = false ∧ (Instr.cpym 2 4 false none).wf = true := by decide
theorem wf_manifests : (Instr.recBegin 0 1 0 none).wf = false ∧ (Instr.recPlay 0 126 none).wf = false ∧ (Instr.recq 2 0).wf = false ∧ (Instr.recq 4 0).wf = true := by decide

/-! ### The hypotheses of the statements are met -/

/-- A state and an issue in which an effect takes place in every active thread. -/
def Meets (eff : Who → Package → Package → Prop) (s : State) : Prop :=
  ∃ i q, s.here.issue = some i ∧ InTurn eff i.team i.active s.here q

/-- The same for an effect that gives a value, with what follows it. -/
def MeetsThen {β : Type} (eff : Who → Package → β → Package → Prop) (fin : List (Nat × β) → Package → Package → Prop) (s : State) : Prop :=
  ∃ i vs q r, s.here.issue = some i ∧ InTurnGives eff i.team i.active s.here vs q ∧ fin vs q r

/-- The same for an effect across the gang. -/
def MeetsAcross {β : Type} (reads : Who → Package → β → Package → Prop) (eff : List (Nat × β) → Who → β → Package → Package → Prop)
    (s : State) : Prop :=
  ∃ i u q, s.here.issue = some i ∧ u.map (fun (e : Nat × β) => e.1) = i.active ∧ (∀ e ∈ u, ∃ r, reads ⟨i.team, e.1⟩ s.here e.2 r) ∧
    InTurn (fun w p q => ∃ b r, reads w p b r ∧ eff u w b r q) i.team i.active s.here q

/-- A state with another package in focus. -/
def on (s : State) (f : Package → Package) : State := { s with here := f s.here }

/-- The same at the last instruction of the clause. -/
def last (s : State) : State := on s (fun p => { p with issue := p.issue.map (fun i => { i with words := [] }) })

/-- What a lane gives: its operand, and the operand that selects. -/
def gives (v sel : Nat) : LaneVal := { val := v, own := 0, ctx := 0, sel := sel, selM := 0 }

/-- One thread in the gang. -/
theorem MeetsAcross.one {β : Type} {reads : Who → Package → β → Package → Prop} {eff : List (Nat × β) → Who → β → Package → Package → Prop}
    {s : State} (b : β) {i : Issue} {l : Nat} {r q : Package} (hi : s.here.issue = some i) (ha : i.active = [l]) (hr : reads ⟨i.team, l⟩ s.here b r)
    (he : eff [(l, b)] ⟨i.team, l⟩ b r q) : MeetsAcross reads eff s := by
  refine ⟨i, [(l, b)], q, hi, ha.symm, fun e h => ?_, ?_⟩
  · cases List.mem_singleton.mp h
    exact ⟨r, hr⟩
  · rw [ha]
    exact ⟨q, ⟨b, r, hr, he⟩, rfl⟩

/-- One thread in the gang. -/
theorem MeetsThen.one {β : Type} {eff : Who → Package → β → Package → Prop} {fin : List (Nat × β) → Package → Package → Prop}
    {s : State} (b : β) {i : Issue} {l : Nat} {q r : Package} (hi : s.here.issue = some i) (ha : i.active = [l]) (he : eff ⟨i.team, l⟩ s.here b q)
    (hf : fin [(l, b)] q r) : MeetsThen eff fin s := by
  refine ⟨i, [(l, b)], q, r, hi, ?_, hf⟩
  rw [ha]
  exact ⟨q, b, [], he, ⟨rfl, rfl⟩, rfl⟩

/-- What an effect answers, and the package that it leaves. -/
def valOf {α : Type} (m : PM α) (p : Package) : Option α :=
  match m p with
  | .ok (a, _) => some a
  | .error _ => none
def outOf {α : Type} (m : PM α) (p : Package) : Package :=
  match m p with
  | .ok (_, q) => q
  | .error _ => p

theorem gives_out {α : Type} {m : PM α} {p : Package} {a : α} (h : valOf m p = some a) : Gives m p a (outOf m p) := by
  unfold valOf at h
  unfold Gives outOf
  split at h
  · next b q hq => cases h; rw [hq]
  · cases h

/-- A decision 0 stands in the queue. -/
def decided (s : State) (v : Nat) : State := on s (fun p => p.setTeam 0 (fun tm => { tm with dq := { freed := 0, entries := [⟨BitVec.ofNat 32 v, 0⟩] } }))


theorem wit_nop : lane.here.issue.map (fun i => (i.active, i.words)) = some ([1], [0#32]) ∧ (Raw.ofWord 1#32).major = 0 ∧ (1#32) ≠ 0#32 := by
  decide

theorem wit_add : Meets (integerForm (twoI .n32 2 1 127) (fun x y v => v = (x + y) % 2 ^ 32)) (lane [0, 0xFFFFFFFF]) := by
  repeat' (first | rfl | decide | apply Exists.intro | apply And.intro)

theorem wit_isub : Meets (integerForm (twoI .i32 1 0 127) (fun x y v => (v : Int) = ((x : Int) - y) % 2 ^ 32)) (lane [5]) := by
  repeat' (first | rfl | decide | apply Exists.intro | apply And.intro)

theorem wit_imul : Meets (integerForm (two .n64 4 0 2) (fun x y v => v = x * y % 2 ^ 64)) (lane [0xFFFFFFFF, 0, 2, 0]) := by
  repeat' (first | rfl | decide | apply Exists.intro | apply And.intro)

theorem wit_imin :
    Meets (integerForm (two .i32 2 0 1) (fun x y v => v = (if valueIn .i32 y < valueIn .i32 x then y else x) % 2 ^ 32)) (lane [0xFFFFFFFF, 1]) := by
  repeat' (first | rfl | decide | apply Exists.intro | apply And.intro)

theorem wit_imax :
    Meets (integerForm (two .n32 2 0 1) (fun x y v => v = (if valueIn .n32 x < valueIn .n32 y then y else x) % 2 ^ 32)) (lane [0xFFFFFFFF, 1]) := by
  repeat' (first | rfl | decide | apply Exists.intro | apply And.intro)

theorem wit_lea :
    Meets (twoSource (two (2#2) 6 2 4) 2 2 1 .unsigned (iImm .i32) (fun x y v => (v : Int) = ((x : Int) + signed 32 y * 2 ^ 2) % 2 ^ 64)) (lane [0, 0, 3, 0, 0xFFFFFFFF]) := by
  repeat' (first | rfl | decide | apply Exists.intro | apply And.intro)

theorem wit_and :
    Meets (logicForm (two .n32 2 0 1) (fun x y v => ∀ i < 32, v.testBit i = (x.testBit i && y.testBit i))) (lane [0xFF, 0x0F]) := by
  repeat' (first | rfl | decide | apply Exists.intro | apply And.intro)
  try any_goals exact (0xf : Nat)
  all_goals decide

theorem wit_andn :
    Meets (logicForm (two .n32 2 0 1) (fun x y v => ∀ i < 32, v.testBit i = (x.testBit i && !y.testBit i))) (lane [0xFF, 0x0F]) := by
  repeat' (first | rfl | decide | apply Exists.intro | apply And.intro)
  try any_goals exact (0xf0 : Nat)
  all_goals decide

theorem wit_or : Meets (logicForm (two .n32 2 0 1) (fun x y v => ∀ i < 32, v.testBit i = (x.testBit i || y.testBit i))) (lane [0xFF, 0x0F]) := by
  repeat' (first | rfl | decide | apply Exists.intro | apply And.intro)
  try any_goals exact (0xff : Nat)
  all_goals decide

theorem wit_xor :
    Meets (logicForm (two .n32 2 0 1) (fun x y v => ∀ i < 32, v.testBit i = (x.testBit i != y.testBit i))) (lane [0xFF, 0x0F]) := by
  repeat' (first | rfl | decide | apply Exists.intro | apply And.intro)
  try any_goals exact (0xf0 : Nat)
  all_goals decide

/-- A count of the width. -/
theorem wit_shl :
    Meets (shiftForm (twoI .n32 1 0 32) (fun x c v => ∀ i < 32, v.testBit i = (decide (c ≤ i) && x.testBit (i - c)))) (lane [0xFFFFFFFF]) := by
  repeat' (first | rfl | decide | apply Exists.intro | apply And.intro)
  try any_goals exact (0 : Nat)
  all_goals decide

theorem wit_shr : Meets (shiftForm (twoI .n32 1 0 31) (fun x c v => ∀ i < 32, v.testBit i = fieldBit 32 x c i)) (lane [0x80000000]) := by
  repeat' (first | rfl | decide | apply Exists.intro | apply And.intro)
  try any_goals exact (1 : Nat)
  all_goals decide

/-- A count beyond the width. -/
theorem wit_sar :
    Meets (shiftForm (twoI .n32 1 0 127) (fun x c v => ∀ i < 32, v.testBit i = if i + c < 32 then x.testBit (i + c) else x.testBit 31)) (lane [0x80000000]) := by
  repeat' (first | rfl | decide | apply Exists.intro | apply And.intro)
  try any_goals exact (0xFFFFFFFF : Nat)
  all_goals decide

theorem wit_rol : Meets (shiftForm (twoI .n32 1 0 33) (fun x c v => ∀ i < 32, v.testBit ((i + c) % 32) = x.testBit i)) (lane [0x80000001]) := by
  repeat' (first | rfl | decide | apply Exists.intro | apply And.intro)
  try any_goals exact (3 : Nat)
  all_goals decide

theorem wit_bfx :
    Meets (twoSource (two ITy.i32 2 0 1) 1 1 1 .unsigned lImm (fun x f v => ∀ i < 32, v.testBit i = if i ≤ f / 256 % 256 then fieldBit 32 x (f % 256) i else fieldBit 32 x (f % 256) (f / 256 % 256))) (lane [0xF0, 0x0304]) := by
  repeat' (first | rfl | decide | apply Exists.intro | apply And.intro)
  try any_goals exact (0xFFFFFFFF : Nat)
  all_goals decide

theorem wit_prmb :
    Meets (twoSource { ty := (), d := 4, a := 2, b := .reg 126, lit := some 0x9910 } 1 2 1 .unsigned lImm (fun x sel v => ∀ k < 4, ∀ i < 8,
      v.testBit (8 * k + i) = x.testBit (8 * (sel / 16 ^ k % 8) + if sel.testBit (4 * k + 3) then 7 else i))) (lane [0, 0, 0xFED4]) := by
  repeat' (first | rfl | decide | apply Exists.intro | apply And.intro)
  try any_goals exact (0xFFFFFED4 : Nat)
  all_goals decide

theorem wit_imad :
    Meets (threeSource (two ITy.n32 2 0 1) 1 1 1 (iExt .n32) (iImm .n32) (fun d x y v => v = (x * y + d) % 2 ^ 32)) (lane [3, 5, 100]) := by
  repeat' (first | rfl | decide | apply Exists.intro | apply And.intro)

theorem wit_bfi :
    Meets (threeSource (two LTy.n32 2 0 1) 1 1 1 .unsigned lImm (fun d x f v => ∀ i < 32,
      v.testBit i = if f % 256 ≤ i ∧ i ≤ f % 256 + f / 256 % 256 then x.testBit (i - f % 256) else d.testBit i)) (lane [0xA, 0x0304, 0xFFFFFFFF]) := by
  repeat' (first | rfl | decide | apply Exists.intro | apply And.intro)
  try any_goals exact (0xFFFFFFAF : Nat)
  all_goals decide

theorem wit_addc : Meets (addcEffect (two () 4 1 2)) (lane [0, 0xFFFFFFFF, 1, 0, 9, 1]) := by
  repeat' (first | rfl | decide | apply Exists.intro | apply And.intro)

theorem wit_iabs : Meets (oneSource (one () 1 0) 1 .signed (iImm .i32) (fun y v => v = (signed 32 y).natAbs % 2 ^ 32)) (lane [0x80000000]) := by
  repeat' (first | rfl | decide | apply Exists.intro | apply And.intro)

theorem wit_popc :
    Meets (oneSource (one LTy.n64 2 0) 2 .unsigned lImm (fun y v => v = ((List.range 64).filter y.testBit).length)) (lane [0xF0F0F0F0, 1]) := by
  repeat' (first | rfl | decide | apply Exists.intro | apply And.intro)

/-- A zero source. -/
theorem wit_clz :
    Meets (oneSource (one LTy.n64 2 0) 2 .unsigned lImm (fun y v => (∀ i < v, y.testBit (63 - i) = false) ∧ v ≤ 64 ∧ (v < 64 → y.testBit (63 - v) = true))) lane := by
  repeat' (first | rfl | decide | apply Exists.intro | apply And.intro)
  try any_goals exact (64 : Nat)
  all_goals decide

theorem wit_brev : Meets (oneSource (one LTy.n32 1 0) 1 .unsigned lImm (fun y v => ∀ i < 32, v.testBit (31 - i) = y.testBit i)) (lane [6]) := by
  repeat' (first | rfl | decide | apply Exists.intro | apply And.intro)
  try any_goals exact (0x60000000 : Nat)
  all_goals decide

theorem wit_mov : Meets (movEffect { ty := .n64, d := 2, a := 0, b := .reg 0, lit := none }) (lane [7, 8]) := by
  repeat' (first | rfl | decide | apply Exists.intro | apply And.intro)

theorem wit_mov_sreg : Meets (movEffect { ty := .n32, d := 5, a := 0, b := .sreg 127, lit := none }) lane := by
  repeat' (first | rfl | decide | apply Exists.intro | apply And.intro)

/-- In the pilot the operand of A goes to the s-register that B names. -/
theorem wit_mov_pilot : Meets (movEffect { ty := .n32, d := 122, a := 4, b := .sreg 127, lit := none }) (pilot [0, 0, 0, 0, 9]) := by
  repeat' (first | rfl | decide | apply Exists.intro | apply And.intro)

theorem wit_movl : Meets (movlEffect .i32 5 (BitVec.ofInt 14 (-300))) lane := by
  repeat' (first | rfl | decide | apply Exists.intro | apply And.intro)

theorem wit_sel : Meets (selEffect true 3 (one .n32 1 0)) (lane [1, 2]) := by
  repeat' (first | rfl | decide | apply Exists.intro | apply And.intro)

theorem wit_cmp : Meets (cmpEffect { ty := .i32, c := .lt, p := 23, a := 0, b := .reg 1, lit := none }) (lane [0xFFFFFFFF, 1]) := by
  repeat' (first | rfl | decide | apply Exists.intro | apply And.intro)
  try any_goals exact true
  exact ⟨fun _ => by show (_ : Int) < _; decide, fun _ => rfl⟩

theorem wit_plop : Meets (plopEffect 3 1 2 1) lane := by
  repeat' (first | rfl | decide | apply Exists.intro | apply And.intro)

theorem wit_pmov_toReg : Meets (pmovToRegEffect 4 23) lane := by
  repeat' (first | rfl | decide | apply Exists.intro | apply And.intro)

theorem wit_pmov_toPred : Meets (pmovToPredEffect 23 0 none) (lane [5]) := by
  repeat' (first | rfl | decide | apply Exists.intro | apply And.intro)

theorem wit_pmov_save : Meets (pmovSaveEffect 4) lane := by
  refine ⟨_, _, rfl, _, ⟨_, 0, _, _, rfl, rfl, ?_, rfl, rfl⟩, rfl⟩
  intro k
  by_cases h : k < 24
  · have : ∀ k < 24, Nat.testBit 0 k = (decide (k < 24) && (List.getD (List.replicate 24 LBit.zero) k LBit.zero).val) := by decide
    exact this k h
  · simp [h]

theorem wit_pmov_load : Meets (pmovLoadEffect 0 none) (lane [0x800000]) := by
  repeat' (first | rfl | decide | apply Exists.intro | apply And.intro)

theorem wit_fadd :
    Meets (floatTwo (two .f32 2 0 1) (fun rm => perElement .f32 (fun x y => (fmtOf .f32).add rm x y))) (lane [0x3F801000, 0xBF801000]) := by
  repeat' (first | rfl | decide | apply Exists.intro | apply And.intro)

theorem wit_fmul :
    Meets (floatTwo (two .f32 2 0 1) (fun rm => perElement .f32 (fun x y => (fmtOf .f32).mul rm x y))) (lane [0x3F800800, 0x3F800800]) := by
  repeat' (first | rfl | decide | apply Exists.intro | apply And.intro)

theorem wit_fmin :
    Meets (floatTwo (two .f32 2 0 1) (fun _ => perElement .f32 (fun x y => minMax (fmtOf .f32) false x y))) (lane [0, 0x80000000]) := by
  repeat' (first | rfl | decide | apply Exists.intro | apply And.intro)

theorem wit_fmax :
    Meets (floatTwo (two .f32 2 0 1) (fun _ => perElement .f32 (fun x y => minMax (fmtOf .f32) true x y))) (lane [0, 0x80000000]) := by
  repeat' (first | rfl | decide | apply Exists.intro | apply And.intro)

theorem wit_ffma : Meets (ffmaEffect (two .f32 2 0 1)) (lane [0x3F800800, 0x3F800800, 0xBF801000]) := by
  repeat' (first | rfl | decide | apply Exists.intro | apply And.intro)

theorem wit_fcmp : Meets (fcmpEffect { ty := false, c := .eq, p := 1, a := 0, b := .reg 1, lit := none }) (lane [0x80000000, 0]) := by
  repeat' (first | rfl | decide | apply Exists.intro | apply And.intro)

theorem wit_frnd : Meets (frndEffect .rna (one .f32 1 0)) (lane [0xC0200000]) := by
  repeat' (first | rfl | decide | apply Exists.intro | apply And.intro)

theorem wit_twosum : Meets (transform (two () 2 0 1) twoSum) (lane [0x3F800000, 0x33800000]) := by
  repeat' (first | rfl | decide | apply Exists.intro | apply And.intro)

theorem wit_twoprd : Meets (transform (two () 2 0 1) twoProd) (lane [0x3F800800, 0x3F800800]) := by
  repeat' (first | rfl | decide | apply Exists.intro | apply And.intro)

theorem wit_cfma : Meets (cfmaEffect 4 0 2) (lane [0x3F800000, 0x40000000, 0x40400000, 0x40800000]) := by
  repeat' (first | rfl | decide | apply Exists.intro | apply And.intro)

theorem wit_cvt_draws : Meets (cvtEffect 64 0 (one () 3 2)) (lane [0, 0, 0x3A000000, 0xAABBCCDD]) := by
  repeat' (first | rfl | decide | apply Exists.intro | apply And.intro)

theorem wit_cvt_wide : Meets (cvtEffect 1 0 (one () 3 2)) (lane [0, 0, 0x3F800000]) :=
  ⟨_, _, rfl, _, ⟨0, 0, _, _, _, _, _, _, _, _, _, rfl, ⟨rfl, rfl, rfl⟩, rfl, rfl, rfl, rfl, rfl, rfl⟩, rfl⟩

theorem wit_cvt_narrow : Meets (cvtEffect 96 3 (one () 3 2)) (lane [0, 0, 0x3F800000]) :=
  ⟨_, _, rfl, _, ⟨0, 0, _, _, _, _, _, _, _, _, _, rfl, ⟨rfl, rfl, rfl⟩, rfl, rfl, rfl, rfl, rfl, rfl⟩, rfl⟩

theorem wit_qunpk : Meets (qunpkEffect 8 2 6 1 1 none) (lane [0, 0, 0x888B385F, 0, 0, 0, 0xCE00]) := by
  repeat' (first | rfl | decide | apply Exists.intro | apply And.intro)

theorem wit_qpack :
    Meets (qpackEffect 3 16 6 1) (lane [0, 0, 0, 0, 0, 0, 0xCE00, 0, 0, 0, 0, 0, 0, 0, 0, 0, 0xBE800000, 0x3FA00000, 0x41300000, 0, 0, 0xC1300000, 0xC1000000, 0]) := by
  repeat' (first | rfl | decide | apply Exists.intro | apply And.intro)


set_option maxRecDepth 20000 in
theorem wit_fsf : Meets (fsfEffect .sqrt (one .f32 1 0)) (lane [0x40000000]) := by
  repeat' (first | rfl | decide | apply Exists.intro | apply And.intro)

/-- The lane that the selector names is absent. -/
theorem wit_shfl_absent : MeetsAcross (shflReads (twoI .xor 1 0 1)) (shflEffect (twoI .xor 1 0 1)) (lane [7]) := by
  apply MeetsAcross.one (gives 7 1)
  repeat' (first | rfl | decide | trivial | apply Exists.intro | apply And.intro)
theorem wit_shfl_present : MeetsAcross (shflReads (twoI .idx 1 0 33)) (shflEffect (twoI .idx 1 0 33)) (lane [7]) := by
  apply MeetsAcross.one (gives 7 33)
  repeat' (first | rfl | decide | trivial | apply Exists.intro | apply And.intro)

theorem wit_rdx : MeetsAcross (rdxReads (.int .i32) 1 0 none) (rdxEffect .add (.int .i32) 1) (lane [7]) :=
  MeetsAcross.one _ rfl rfl rfl ⟨_, _, rfl, (fun h => by cases h), _, rfl, _, _, _, rfl, rfl, rfl, rfl⟩

theorem wit_scan : MeetsAcross (scanReads (.int .i32) 1 0 none) (scanEffect true .add (.int .i32) 1) (lane [7]) :=
  MeetsAcross.one _ rfl rfl rfl ⟨_, _, rfl, (fun h => by cases h), _, rfl, _, _, _, rfl, rfl, rfl, rfl⟩

theorem wit_vote_all : MeetsAcross (voteReads (.all 3) true 2) (voteEffect (.all 3)) lane :=
  MeetsAcross.one (gives 1 0) rfl rfl ⟨_, _, trivial, rfl, rfl, rfl, rfl, rfl, rfl, rfl⟩ ⟨_, _, rfl, true, by decide, rfl⟩
theorem wit_vote_any : MeetsAcross (voteReads (.any 3) false 2) (voteEffect (.any 3)) lane :=
  MeetsAcross.one (gives 0 0) rfl rfl ⟨_, _, trivial, rfl, rfl, rfl, rfl, rfl, rfl, rfl⟩ ⟨_, _, rfl, false, by decide, rfl⟩
theorem wit_vote_eq : MeetsAcross (voteReads (.eq 3) false 2) (voteEffect (.eq 3)) lane :=
  MeetsAcross.one (gives 0 0) rfl rfl ⟨_, _, trivial, rfl, rfl, rfl, rfl, rfl, rfl, rfl⟩ ⟨_, _, rfl, true, by decide, rfl⟩
theorem wit_vote_ballot : MeetsAcross (voteReads (.ballot 4) true 2) (voteEffect (.ballot 4)) lane :=
  MeetsAcross.one (gives 1 0) rfl rfl ⟨_, _, rfl, rfl, rfl, rfl, rfl, rfl, rfl, rfl⟩ ⟨_, _, rfl, rfl⟩

/-- A label table with owner 0 alone in entry 1, the world capable of owner 0, register 0 labelled with entry 1, and an endorsement of owner 0
from entry 1 to the public label. -/
def labelled (vals : List Nat) (l : Lbl := 0) : State :=
  on (lane vals) (fun p =>
    let p := { p with labels := [(0, 0), (1, 1)], worlds := p.worlds.map (fun (x : World) => { x with caps := 1 })
                      endorse := [(0, { uses := 1, frm := 1, dest := 0, world := 1, owner := 0, issuer := 1 })] }
    p.setThread ⟨0, 1⟩ (fun th => { th with regs := setRegs th.regs 0 [⟨BitVec.ofNat 32 (vals.headD 0), l⟩] }))

theorem wit_lget : Meets (lgetEffect 4 (.one (.reg 0)) none) (labelled [7] 1) := by
  repeat' (first | rfl | decide | apply Exists.intro | apply And.intro)
theorem wit_lget_pair : Meets (lgetEffect 4 (.pair (.reg 0)) none) (labelled [7] 1) := by
  repeat' (first | rfl | decide | apply Exists.intro | apply And.intro)
theorem wit_lget_pred : Meets (lgetEffect 4 (.pred 23) none) lane := by
  repeat' (first | rfl | decide | apply Exists.intro | apply And.intro)
theorem wit_ljoin : Meets (ljoinEffect false (two () 4 0 2)) (labelled [7, 0, 1]) := by
  repeat' (first | rfl | decide | apply Exists.intro | apply And.intro)
theorem wit_lceil : ∃ i vs q r, lane.here.issue = some i ∧ InTurnGives (lceilEffect (.reg 0) none) i.team (sortBy id i.active) lane.here vs q ∧
    heldAfter .lceil vs q r :=
  ⟨_, [(1, false)], _, _, rfl, ⟨_, false, [], ⟨_, rfl, .inr ⟨rfl, _, _, _, _, rfl, rfl, by decide, rfl, rfl, .inr ⟨rfl, rfl, by decide, rfl⟩⟩⟩, ⟨rfl, rfl⟩,
    rfl⟩, .inl ⟨by decide, rfl⟩⟩
/-- The pilot's gang may still come to an LCEIL in this cycle. -/
def beforePilot : State :=
  on lane (fun p => { p with gangs := p.gangs ++ p.gangs.map (fun g => { g with id := 0x1FF, lids := [0] }) })
theorem wit_lceil_waits : ∃ i vs q r, beforePilot.here.issue = some i ∧
    InTurnGives (lceilEffect (.reg 0) none) i.team (sortBy id i.active) beforePilot.here vs q ∧ heldAfter .lceil vs q r :=
  ⟨_, [(1, true)], _, _, rfl, ⟨_, true, [], ⟨_, rfl, .inr ⟨rfl, _, _, _, _, rfl, rfl, by decide, rfl, rfl, .inl ⟨rfl, rfl, rfl⟩⟩⟩, ⟨rfl, rfl⟩,
    rfl⟩, .inr ⟨⟨_, List.mem_cons_self, rfl⟩, _, rfl, rfl⟩⟩
theorem wit_endo : Meets (endoEffect 0) (labelled [0, 1, 0, 0x10001]) := by
  repeat' (first | rfl | decide | apply Exists.intro | apply And.intro)
theorem wit_decl : Meets (declEffect false (two () 4 0 122)) (labelled [7] 1) := by
  repeat' (first | rfl | decide | apply Exists.intro | apply And.intro)

theorem wit_bra : lane.here.issue.map (fun i => (i.hdr, ((i.hdr : Int) + 4 * (BitVec.ofInt 21 (-1)).toInt) % 2 ^ 64)) = some (4096, 4092) := by decide
theorem wit_brc_taken : MeetsThen (brcEffect true 2 (.short 0x2000)) brcAfter lane := by
  apply MeetsThen.one 18446744073709522944
  repeat' (first | rfl | decide | apply Exists.intro | apply And.intro)
theorem wit_brc_not : MeetsThen (brcEffect false 2 (.long 6)) brcAfter lane := by
  apply MeetsThen.one 4104
  repeat' (first | rfl | decide | apply Exists.intro | apply And.intro)

theorem wit_bdq_not : MeetsThen (bdqEffect false (.short 4)) bdqAfter (decided lane 0) := by
  apply MeetsThen.one 4104
  repeat' (first | rfl | decide | apply Exists.intro | apply And.intro)
theorem wit_bdq_taken : MeetsThen (bdqEffect false (.short 4)) bdqAfter (decided lane 5) := by
  apply MeetsThen.one 4112
  repeat' (first | rfl | decide | apply Exists.intro | apply And.intro)
theorem wit_jmpi : MeetsThen (jmpiEffect 0) endsAt (lane [0x1000, 0]) := by
  repeat' (first | rfl | decide | apply Exists.intro | apply And.intro)
theorem wit_ret : MeetsThen (retEffect 0) endsAt (lane [0x1000, 0]) := by
  repeat' (first | rfl | decide | apply Exists.intro | apply And.intro)
theorem wit_call : MeetsThen (callEffect 122 (.short 4)) callAfter lane := by
  apply MeetsThen.one 4112
  repeat' (first | rfl | decide | apply Exists.intro | apply And.intro)
theorem wit_reform : MeetsThen (reformEffect (.reg 0) none) reformAfter (last (lane [0x1FFFF])) := by
  apply MeetsThen.one 0xFFFF
  repeat' (first | rfl | decide | apply Exists.intro | apply And.intro)

/-! #### Traps, special registers, threads and launches -/

theorem wit_trap : Meets (fun w p q => ∃ c va vm lbl aux p₁ i, trapRaises 127 w p c va vm lbl aux p₁ ∧ p₁.issue = some i ∧
    q = p₁.raiseTrap w (i.request c va vm lbl aux)) lane := by
  repeat' (first | rfl | decide | apply Exists.intro | apply And.intro)
theorem wit_bkpt : Meets (fun w p q => ∃ c va vm lbl aux p₁ i, bkptRaises 127 w p c va vm lbl aux p₁ ∧ p₁.issue = some i ∧
    q = p₁.raiseTrap w (i.request c va vm lbl aux)) lane := by
  repeat' (first | rfl | decide | apply Exists.intro | apply And.intro)

/-- A team of a world under device debug, which a debugger has claimed. -/
def debugged (s : State) : State :=
  on s (fun p =>
    { p with worlds := p.worlds.map (fun (x : World) => { x with debug := true }), sys := { p.sys with devFuse := true, snapctl := 3 }
             teams := p.teams.map (fun (tm : Team) => { tm with debugStop := true }) })

theorem wit_bkpt_halts : MeetsThen bkptHaltEffect bkptHaltAfter (debugged lane) := by
  apply MeetsThen.one () rfl rfl
  · repeat' (first | rfl | decide | apply Exists.intro | apply And.intro)
  · exact ⟨_, rfl, .inr ⟨by decide, rfl⟩⟩

/-- What trap entry saves in the lane thread; the handler's clause is at its last instruction. -/
def saved : TrapSave :=
  { ops := List.replicate 8 ⟨9, 0⟩, x0 := Latch.empty, x1 := Latch.empty, ctx := [], cause := .soft, pc := 0x2000
    resume := { hdr := 0x2000, mid := none }, skip := some { hdr := 0x2000, mid := some 0x2008 }, guard := 0, wnext := none, yielding := false }
def handler (pc : Nat) : State :=
  last (on lane (fun p => p.setThread ⟨0, 1⟩ (fun th =>
    { th with trap := some saved, trapRegs := { th.trapRegs with pc := pc }, region := some { pc := 0x1800, rsb := [], held := none, release := none } })))

theorem wit_eretResume : MeetsThen eretResumeEffect eretResumeAfter (handler 0x2000) := by
  apply MeetsThen.one ({ hdr := 0x2000, mid := none }, saved)
  repeat' (first | rfl | decide | apply Exists.intro | apply And.intro)
/-- The handler has changed TRAPPC. -/
theorem wit_eretResume_moved : MeetsThen eretResumeEffect eretResumeAfter (handler 0x3000) := by
  apply MeetsThen.one ({ hdr := 0x3000, mid := none }, saved)
  repeat' (first | rfl | decide | apply Exists.intro | apply And.intro)
theorem wit_eretSkip : MeetsThen eretSkipEffect eretSkipAfter (handler 0x2000) := by
  apply MeetsThen.one ({ hdr := 0x2000, mid := some 0x2008 }, saved)
  repeat' (first | rfl | decide | apply Exists.intro | apply And.intro)
theorem wit_eretRestart : MeetsThen eretRestartEffect eretRestartAfter (handler 0x2000) := by
  apply MeetsThen.one ({ hdr := 0x1800, mid := none }, saved)
  repeat' (first | rfl | decide | apply Exists.intro | apply And.intro)

theorem wit_specialRegisters : ∃ i th tm x sp t, lane.here.issue = some i ∧ lane.here.thread? ⟨0, 1⟩ = some th ∧ lane.here.team? 0 = some tm ∧
    lane.here.world? tm.world = some x ∧ lane.here.space? tm.space = some sp ∧ x.tide = some t ∧
    Gives (mkLabel (th.ctxMask lane.here)) lane.here 0 lane.here := by
  repeat' (first | rfl | decide | apply Exists.intro | apply And.intro)

theorem wit_mfsr_odd : Meets (mfsrEffect 5 0x00) lane := by
  repeat' (first | rfl | decide | apply Exists.intro | apply And.intro)
theorem wit_mfsr_even : Meets (mfsrEffect 4 0x27) lane := by
  repeat' (first | rfl | decide | apply Exists.intro | apply And.intro)
theorem wit_mtsr_fpctl : Meets (mtsrEffect 0 0x0F none) (lane [4]) :=
  ⟨_, _, rfl, _, ⟨_, _, _, _, rfl, rfl, rfl, .inl ⟨rfl, by decide, _, _, rfl, rfl⟩⟩, rfl⟩
/-- A seed of 0. -/
theorem wit_mtsr_seed : Meets (mtsrEffect 0 0x10 none) (lane [0]) :=
  ⟨_, _, rfl, _, ⟨_, _, _, _, rfl, rfl, rfl, .inr (.inl ⟨rfl, _, _, rfl, rfl⟩)⟩, rfl⟩
theorem wit_mtsr_trapcause : Meets (mtsrEffect 0 0x20 none) (handler 0x2000) :=
  ⟨_, _, rfl, _, ⟨_, _, _, _, rfl, rfl, rfl, .inr (.inr (.inl ⟨rfl, rfl, rfl⟩))⟩, rfl⟩
theorem wit_mtsr_trappc : Meets (mtsrEffect 0 0x21 none) (handler 0x2000) :=
  ⟨_, _, rfl, _, ⟨_, _, _, _, rfl, rfl, rfl, .inr (.inr (.inr (.inl ⟨rfl, rfl, ⟨_, rfl, by decide⟩, rfl⟩)))⟩, rfl⟩
theorem wit_mtsr_trapva : Meets (mtsrEffect 0 0x22 none) (handler 0x2000) :=
  ⟨_, _, rfl, _, ⟨_, _, _, _, rfl, rfl, rfl, .inr (.inr (.inr (.inr (.inl ⟨rfl, rfl, rfl⟩))))⟩, rfl⟩
theorem wit_mtsr_traplbl : Meets (mtsrEffect 0 0x23 none) (handler 0x2000) :=
  ⟨_, _, rfl, _, ⟨_, _, _, _, rfl, rfl, rfl, .inr (.inr (.inr (.inr (.inr (.inl ⟨rfl, rfl, rfl⟩)))))⟩, rfl⟩
theorem wit_mtsr_trapaux : Meets (mtsrEffect 0 0x24 none) (handler 0x2000) :=
  ⟨_, _, rfl, _, ⟨_, _, _, _, rfl, rfl, rfl, .inr (.inr (.inr (.inr (.inr (.inr ⟨rfl, rfl, rfl⟩)))))⟩, rfl⟩
theorem wit_time : Meets (timeEffect 122 false) lane :=
  ⟨_, _, rfl, _, ⟨_, _, _, _, rfl, rfl, rfl, (fun h => by cases h), rfl, rfl⟩, rfl⟩
theorem wit_time_wait : Meets (timeEffect 4 true) lane :=
  ⟨_, _, rfl, _, ⟨_, _, _, _, rfl, rfl, rfl, (fun _ => ⟨rfl, rfl⟩), rfl, rfl⟩, rfl⟩
theorem wit_snap : Meets snapEffect (debugged lane) := ⟨_, _, rfl, _, ⟨_, _, _, rfl, rfl, rfl, .inr rfl, rfl⟩, rfl⟩

theorem wit_exit : MeetsThen exitEffect exitAfter lane := by
  apply MeetsThen.one ()
  repeat' (first | rfl | decide | apply Exists.intro | apply And.intro)
theorem wit_kill : ∃ i tm, lane.here.issue = some i ∧ i.active ≠ [] ∧ lane.here.team? i.team = some tm :=
  ⟨_, _, rfl, by decide, rfl⟩
theorem wit_yield : Meets yieldEffect lane := by
  repeat' (first | rfl | decide | apply Exists.intro | apply And.intro)
theorem wit_bar : MeetsThen (barEffect true .die) barAfter (last lane) := by
  apply MeetsThen.one ()
  repeat' (first | rfl | decide | apply Exists.intro | apply And.intro)

theorem wit_dqpush : Meets (dqpushEffect (.imm 127) true none) pilot :=
  ⟨_, _, rfl, _, ⟨_, _, _, _, _, _, rfl, rfl, rfl, (fun _ => rfl), rfl, by decide, rfl, rfl⟩, rfl⟩
theorem wit_dqpop : Meets (dqpopEffect 4) (decided lane 5) := by
  repeat' (first | rfl | decide | apply Exists.intro | apply And.intro)
theorem wit_winb : Meets (winbEffect 3) lane := ⟨_, _, rfl, _, ⟨_, by decide, rfl, by decide, by decide, rfl⟩, rfl⟩

/-- A team with an extended set of 64 registers, held by the thread given. -/
def extended (holder : Option Nat) : State :=
  on lane (fun p => p.setTeam 0 (fun tm => { tm with nx := 64, ext := [{ base := tm.extBase 1, regs := List.replicate 64 LReg.zero, holder }] }))

theorem wit_winb_extended : Meets (winbEffect 7) (extended (some 1)) := ⟨_, _, rfl, _, ⟨_, by decide, rfl, by decide, by decide, rfl⟩, rfl⟩
theorem wit_xacq_free : Meets xacqEffect (extended none) := ⟨_, _, rfl, _, ⟨_, by decide, rfl, by decide, .inr (.inr ⟨_, rfl, rfl, rfl⟩)⟩, rfl⟩
theorem wit_xacq_held : Meets xacqEffect (extended (some 1)) := ⟨_, _, rfl, _, ⟨_, by decide, rfl, by decide, .inr (.inl ⟨_, rfl, rfl, rfl⟩)⟩, rfl⟩
theorem wit_xrel_held : Meets xrelEffect (extended (some 1)) :=
  ⟨_, _, rfl, _, ⟨_, _, by decide, rfl, rfl, by decide, by decide, .inr ⟨rfl, rfl, rfl, rfl⟩⟩, rfl⟩
theorem wit_xrel_free : Meets xrelEffect (extended none) :=
  ⟨_, _, rfl, _, ⟨_, _, by decide, rfl, rfl, by decide, by decide, .inl ⟨rfl, rfl⟩⟩, rfl⟩

/-- A continuation record at va 0x10040 (one team of one thread in one core of world 1) with its descriptor (64 registers) at va 0x10080. -/
def recorded : State :=
  on (lane [0x10040, 0]) (fun p =>
    let r := setBits 63 0 0x10080 (setBits 405 400 1 (setBits 395 394 0 (setBits 393 352 (1 + 2 ^ 14 + 2 ^ 28) (setBits 351 288 (1 + 2 ^ 32 + 2 ^ 48) 0))))
    { p with mem := ((p.poke 0x30040 64 r).poke 0x30080 64 (4 * 2 ^ 64)).mem })

/-- The record, and the child record that LAUNCH makes of it. -/
def rec0 : Nat :=
  2582252340862611763742845408687140516176826335756610878628130841261275012948040901703710115625150510600320238708724924544
def rec1 : Nat :=
  2743642958243043550596340356937328758322432947808437375139993724472807019377789327223483047049969963707992112524666404992

theorem recorded_child : childRecord rec0 1 0 = rec1 := by decide +kernel

/-- The package after the reading of the record, and after the check of a record. -/
def recordedRead : Package := outOf (readRecord [] ⟨0, 1⟩ 0 0 none) recorded.here
def recordedChecked (r : Nat) : Package := outOf (checkRecord [] ⟨0, 1⟩ 0x10040 0 0 r) recordedRead

theorem recorded_read : Gives (readRecord [] ⟨0, 1⟩ 0 0 none) recorded.here (0x10040, 0, 2, rec0, 0) recordedRead :=
  gives_out (by decide +kernel)
theorem recorded_check : Gives (checkRecord [] ⟨0, 1⟩ 0x10040 0 0 rec0) recordedRead () (recordedChecked rec0) := gives_out (by decide +kernel)
theorem recorded_checkChild : Gives (checkRecord [] ⟨0, 1⟩ 0x10040 0 0 (childRecord rec0 1 0)) recordedRead () (recordedChecked rec1) := by
  rw [recorded_child]
  exact gives_out (by decide +kernel)
theorem recorded_room : (recordedChecked rec1).quayRoom 2 = true := by decide +kernel
theorem recorded_notFull : (recordedChecked rec0).quayFull 2 = false := by decide +kernel
set_option exponentiation.threshold 512 in
theorem wit_launch : Meets (launchEffect [] 0 0 none) recorded :=
  ⟨_, _, rfl, _, ⟨_, _, 0x10040, 0, 2, rec0, 0, recordedRead, recordedChecked rec1, rfl, rfl, rfl, rfl, rfl, by decide +kernel, recorded_read,
    recorded_checkChild, recorded_room, rfl⟩, rfl⟩
theorem wit_cont : ∃ i q, recorded.here.issue = some i ∧ InTurn (contEffect [] 0 0 none) i.team (sortBy id i.active) recorded.here q :=
  ⟨_, _, rfl, _, ⟨_, 0x10040, 0, 2, rec0, 0, recordedRead, recordedChecked rec0, rfl, rfl, rfl, recorded_read, recorded_check, recorded_notFull,
    rfl⟩, rfl⟩


/-! #### Memory -/

def mem {T : Type} (x : T) (d a : Fld) (order : MemOrder := .plain) (scope : Scope := .pkg) (off : Option Word := none) : MemOp T :=
  { x, d, a, policy := .cc, order, scope, lit := none, off }
def padOp (d a : Fld) (off : Option Word := none) : PadOp := { d, a, lit := none, off }

/-- The lane thread with an open region. -/
def regional (s : State) (r : Region) : State := on s (fun p => p.setThread ⟨0, 1⟩ (fun th => { th with region := some r }))
def openRegion : Region := { pc := 0x1800, rsb := [], held := none, release := none }

/-- The last bytes of a line of a local page. -/
theorem wit_ld : Meets (loadEffect (mem .w64 4 0 (off := some 56)) []) (lane [0x10000, 0]) := by
  refine ⟨_, _, rfl, _, ⟨0x10038, _, _, _, _, _, _, _, _, _, _, _, _, _, _, rfl, ⟨_, rfl, rfl⟩, ⟨_, rfl, by decide⟩, rfl, by decide, rfl, by decide, ⟨rfl, by decide⟩, rfl, rfl, rfl,
    .inr ⟨by decide, rfl, rfl⟩, rfl, rfl, rfl, ⟨_, _, _, rfl, rfl, rfl, rfl⟩, rfl⟩, rfl⟩
/-- An acquire from a local page. -/
theorem wit_ld_acquire : Meets (loadEffect (mem .w32 4 0 .acq .team) []) (lane [0x10000, 0]) := by
  refine ⟨_, _, rfl, _, ⟨0x10000, _, _, _, _, _, _, _, _, _, _, _, _, _, _, rfl, ⟨_, rfl, rfl⟩, ⟨_, rfl, by decide⟩, rfl, by decide, rfl, by decide, ⟨rfl, by decide⟩, rfl, rfl, rfl,
    .inl ⟨rfl, rfl⟩, rfl, rfl, rfl, ⟨_, _, _, rfl, rfl, rfl, rfl⟩, rfl⟩, rfl⟩
/-- A page that is homed on another package. -/
theorem wit_ld_remote : Meets (loadEffect (mem .w32 4 0) []) (lane [0x30000, 0]) := by
  refine ⟨_, _, rfl, _, ⟨0x30000, _, _, _, _, _, _, _, _, _, _, _, _, _, _, rfl, ⟨_, rfl, rfl⟩, ⟨_, rfl, by decide⟩, rfl, by decide, rfl, by decide, ⟨rfl, by decide⟩, rfl, rfl, rfl,
    ⟨rfl, rfl, fun h => by cases h⟩, rfl, rfl, rfl, ⟨_, _, _, rfl, rfl, rfl, rfl⟩, rfl⟩, rfl⟩
/-- An acquire from a MIGRATE page that is homed on the other package of the pod. -/
def paired (vals : List Nat) : State := { lane vals with others := [{ State.reset.here with phys := 1, owners := [(6, 1)] }] }
theorem wit_ld_migrate : Meets (loadEffect (mem .w32 4 0 .acq .team) (paired [0x40000, 0]).others) (paired [0x40000, 0]) := by
  refine ⟨_, _, rfl, _, ⟨0x40000, _, _, _, _, _, _, _, _, _, _, _, _, _, _, rfl, ⟨_, rfl, rfl⟩, ⟨_, rfl, by decide⟩, rfl, by decide, rfl, by decide, ⟨rfl, by decide⟩, rfl, rfl, rfl,
    ⟨rfl, rfl, fun _ => rfl⟩, rfl, rfl, rfl, ⟨_, _, _, rfl, rfl, rfl, rfl⟩, rfl⟩, rfl⟩

theorem wit_st_region : Meets (storeEffect (mem .w32 4 0 .rel) []) (regional (lane [0x10000, 0]) openRegion) := by
  refine ⟨_, _, rfl, _, ⟨_, _, _, 0x10000, _, _, _, rfl, rfl, ⟨_, rfl, rfl⟩, ⟨_, rfl, fun _ _ => rfl⟩, rfl, ⟨_, _, _, _, rfl, rfl, by decide, rfl, rfl⟩⟩, rfl⟩
theorem wit_st : Meets (storeEffect (mem .w32 4 0) []) (lane [0x10000, 0]) := by
  refine ⟨_, _, rfl, _, ⟨_, _, _, 0x10000, _, _, _, rfl, rfl, ⟨_, rfl, rfl⟩, ⟨_, rfl, by decide⟩, rfl, ⟨_, _, _, _, _, _, _, _, _, _, _, ⟨rfl, by decide⟩, rfl, rfl, rfl,
    .inr ⟨by decide, rfl, rfl⟩, ⟨_, _, _, rfl, rfl, rfl, rfl⟩, rfl, rfl⟩⟩, rfl⟩
theorem wit_st_release : Meets (storeEffect (mem .w32 4 0 .rel .team) []) (lane [0x10000, 0]) := by
  refine ⟨_, _, rfl, _, ⟨_, _, _, 0x10000, _, _, _, rfl, rfl, ⟨_, rfl, rfl⟩, ⟨_, rfl, by decide⟩, rfl, ⟨_, _, _, _, _, _, _, _, _, _, _, ⟨rfl, by decide⟩, rfl, rfl, rfl,
    .inl ⟨by decide, rfl⟩, ⟨_, _, _, rfl, rfl, rfl, rfl⟩, rfl, rfl⟩⟩, rfl⟩
/-- A pod page: the store is a merge record. -/
theorem wit_st_pod : Meets (storeEffect (mem .w32 4 0) []) (lane [0x20000, 0]) := by
  refine ⟨_, _, rfl, _, ⟨_, _, _, 0x20000, _, _, _, rfl, rfl, ⟨_, rfl, rfl⟩, ⟨_, rfl, by decide⟩, rfl, ⟨_, _, _, _, _, _, _, _, _, _, _, ⟨rfl, by decide⟩, rfl, rfl, rfl,
    .inr ⟨by decide, rfl, rfl⟩, ⟨_, _, _, rfl, rfl, rfl, rfl⟩, rfl, rfl⟩⟩, rfl⟩

theorem wit_atom : Meets (atomicEffect (.atom .add32) .acqrel .pkg .cc 4 0 none none 1 1 []) (lane [0x10000, 0]) := by
  refine ⟨_, _, rfl, _, ⟨_, _, _, 0x10000, _, _, _, _, _, _, rfl, rfl, ⟨_, rfl, rfl⟩, ⟨_, rfl, by decide⟩, rfl, rfl, rfl, rfl,
    ⟨⟨rfl, by decide⟩, _, _, _, _, rfl, ⟨rfl, ⟨_, _, _, _, _, _, rfl, .inl ⟨by decide, rfl⟩, rfl⟩⟩⟩⟩, rfl⟩
theorem wit_atom_held : Meets (atomicEffect (.atom .cas64) .plain .pkg .cc 4 0 none none 4 2 []) (regional (lane [0x10000, 0]) openRegion) := by
  refine ⟨_, _, rfl, _, ⟨_, _, _, 0x10000, _, _, _, _, _, _, rfl, rfl, ⟨_, rfl, rfl⟩, ⟨_, rfl, fun _ _ => rfl⟩, rfl, rfl, rfl, rfl, rfl⟩, rfl⟩
theorem wit_atomx : Meets (atomicEffect (.atomx .cas) .plain .pkg .cc 4 0 none none 8 4 []) (lane [0x10000, 0]) := by
  refine ⟨_, _, rfl, _, ⟨_, _, _, 0x10000, _, _, _, _, _, _, rfl, rfl, ⟨_, rfl, rfl⟩, ⟨_, rfl, by decide⟩, rfl, rfl, rfl, rfl,
    ⟨⟨rfl, by decide⟩, _, _, _, _, rfl, ⟨rfl, ⟨_, _, _, _, _, _, rfl, .inl ⟨by decide, rfl⟩, rfl⟩⟩⟩⟩, rfl⟩
theorem wit_red : Meets (atomicEffect (.red .xor64) .rel .thread .cc 4 0 none none 2 2 []) (lane [0x10000, 0]) := by
  refine ⟨_, _, rfl, _, ⟨_, _, _, 0x10000, _, _, _, _, _, _, rfl, rfl, ⟨_, rfl, rfl⟩, ⟨_, rfl, by decide⟩, rfl, rfl, rfl, rfl,
    ⟨⟨rfl, by decide⟩, _, _, _, _, rfl, ⟨rfl, ⟨_, _, _, _, _, _, rfl, .inl ⟨by decide, rfl⟩, rfl⟩⟩⟩⟩, rfl⟩
theorem wit_red_pod : Meets (atomicEffect (.red .or32) .plain .pkg .cc 4 0 none none 1 1 []) (lane [0x20000, 0]) := by
  refine ⟨_, _, rfl, _, ⟨_, _, _, 0x20000, _, _, _, _, _, _, rfl, rfl, ⟨_, rfl, rfl⟩, ⟨_, rfl, by decide⟩, rfl, rfl, rfl, rfl,
    ⟨⟨rfl, by decide⟩, _, _, _, _, rfl, ⟨_, _, _, _, _, rfl, rfl, ⟨_, _, _, rfl, rfl, rfl, rfl⟩, rfl, rfl⟩⟩⟩, rfl⟩
/-- An atomic on a sector that is marked with an error. -/
theorem wit_atom_bad : Meets (atomicEffect (.atom .add32) .plain .pkg .cc 4 0 none none 1 1 [])
    (on (lane [0x10000, 0]) (fun p => { p with bad := [0x1800] })) := by
  refine ⟨_, _, rfl, _, ⟨_, _, _, 0x10000, _, _, _, _, _, _, rfl, rfl, ⟨_, rfl, rfl⟩, ⟨_, rfl, by decide⟩, rfl, rfl, rfl, rfl,
    ⟨⟨rfl, by decide⟩, _, _, _, _, rfl, ⟨rfl, ⟨_, rfl⟩⟩⟩⟩, rfl⟩
theorem wit_atomic_step : ∃ tm, lane.here.team? 0 = some tm := ⟨_, rfl⟩


/-! #### Cluster SRAM, fences and regions -/

/-- Logical bank 5 of the cluster in a mode. -/
def banked (s : State) (mode : BankMode) (fifo : List FifoEntry := []) : State :=
  on s (fun p => { p with banks := [{ cluster := 0, phys := 9, mode, cells := [], free := 0, labels := [], fifo, pushed := fifo.map (·.lbl) }] })

theorem wit_lds : Meets (padLoadEffect .w128 (padOp 4 0)) (banked (lane [0x17FFF0, 0]) .pad) := by
  refine ⟨_, _, rfl, _, ⟨0x17FFF0, _, _, _, _, _, _, _, rfl, ⟨_, rfl, rfl⟩, ⟨_, rfl, by decide⟩, rfl, rfl, rfl, rfl, ⟨_, rfl, ⟨_, _, _, rfl, rfl, rfl, rfl⟩⟩⟩, rfl⟩
theorem wit_sts : Meets (padStoreEffect .w32 (padOp 0 0)) (banked (lane [0x140000, 0]) .pad) := by
  refine ⟨_, _, rfl, _, ⟨_, _, _, 0x140000, _, _, _, _, _, rfl, rfl, ⟨_, rfl, rfl⟩, rfl, ⟨_, rfl, by decide⟩, rfl, ⟨_, _, rfl, rfl, rfl, rfl⟩⟩, rfl⟩
theorem wit_sts_region : Meets (padStoreEffect .w32 (padOp 0 0)) (regional (banked (lane [0x140000, 0]) .pad) openRegion) := by
  refine ⟨_, _, rfl, _, ⟨_, _, _, 0x140000, _, _, _, _, _, rfl, rfl, ⟨_, rfl, rfl⟩, rfl, ⟨_, rfl, fun _ _ => rfl⟩, rfl, ⟨_, rfl, by decide, rfl⟩⟩, rfl⟩
theorem wit_fpush : Meets (fpushEffect .w64 (padOp 0 0)) (banked (lane [0x140000, 0]) .fifo) := by
  refine ⟨_, _, rfl, _, ⟨_, _, _, 0x140000, _, _, _, _, _, rfl, rfl, ⟨_, rfl, rfl⟩, rfl, by decide, rfl, rfl⟩, rfl⟩
theorem wit_fpop : Meets (fpopEffect .w128 (padOp 4 0)) (banked (lane [0x140000, 0]) .fifo) := by
  refine ⟨_, _, rfl, _, ⟨0x140000, _, _, _, _, _, rfl, ⟨_, rfl, rfl⟩, rfl, rfl, rfl, ⟨_, _, _, rfl, rfl, rfl, rfl⟩⟩, rfl⟩
theorem wit_fence : Meets (fenceEffect .pkg) lane := ⟨_, _, rfl, _, ⟨rfl, ⟨_, rfl, rfl⟩, rfl, rfl⟩, rfl⟩
theorem wit_tlfence : Meets tlfenceEffect lane := ⟨_, _, rfl, _, ⟨_, _, rfl, rfl, rfl, rfl, rfl, rfl⟩, rfl⟩
theorem wit_disc : Meets (discEffect (padOp 2 0) []) (lane [0x10000, 0, 1]) := by
  refine ⟨_, _, rfl, _, ⟨1, _, _, 0x10000, _, _, _, _, _, _, _, _, _, _, rfl, rfl, ⟨_, rfl, rfl⟩, rfl, rfl, by decide, by decide, rfl, rfl, rfl, rfl, rfl, rfl, rfl, rfl, rfl, rfl, rfl,
    rfl, rfl⟩, rfl⟩
theorem wit_bank : Meets (bankEffect none 5 .pad) pilot := by
  refine ⟨_, _, rfl, _, ⟨_, _, _, _, _, rfl, rfl, rfl, rfl, rfl, ⟨.inr rfl, rfl⟩⟩, rfl⟩
theorem wit_bank_try : Meets (bankEffect (some 3) 5 .pad) pilot := by
  refine ⟨_, _, rfl, _, ⟨_, _, _, _, _, rfl, rfl, rfl, rfl, rfl, .inl ⟨.inr rfl, rfl⟩⟩, rfl⟩
/-- A FIFO that still holds an entry: the try fails. -/
theorem wit_bank_fails : Meets (bankEffect (some 3) 5 .pad) (banked pilot .fifo [{ bytes := 4, val := 1, lbl := 0 }]) := by
  refine ⟨_, _, rfl, _, ⟨_, _, _, _, _, rfl, rfl, rfl, rfl, rfl, .inr ⟨by decide, by decide, rfl⟩⟩, rfl⟩
theorem wit_rgn : Meets rgnEffect (last lane) := ⟨_, _, rfl, _, ⟨_, _, rfl, rfl, rfl, rfl, rfl, rfl⟩, rfl⟩
/-- An empty region closes at once. -/
theorem wit_rgnc_empty : MeetsThen (rgncEffect []) (heldAfter .memory) (regional lane openRegion) := by
  apply MeetsThen.one false rfl rfl
  · refine ⟨_, _, rfl, rfl, .inr ⟨rfl, rfl, _, rfl, .inr ⟨rfl, [], _, none, _, rfl, rfl, rfl, ⟨rfl, rfl⟩,
    .inr ⟨(fun ⟨_, h, _⟩ => nomatch h), _, [], _, rfl, rfl, ?_⟩⟩⟩⟩
    refine Eq.mpr (if_pos ⟨rfl, rfl⟩) ?_
    exact ⟨_, rfl, rfl, rfl⟩
  · exact .inl ⟨by decide, rfl⟩
/-- A region with a store to a plain page and a held atomic. -/
def busyRegion : Region :=
  { pc := 0x1800
    rsb := [{ addr := 0x10000, data := 7, width := 4, need := 0, amask := 0, pad := false, policy := .cc, rel := false, scope := .pkg, since := 0 }]
    held := some { kind := .atom .add32, va := 0x10040, arg := 1, arg2 := 0, need := 0, low := 0, dst := .main 4, order := .plain, scope := .pkg
                   policy := .cc, flag := none }
    release := none }
theorem wit_rgnc : MeetsThen (rgncEffect []) (heldAfter .memory) (regional lane busyRegion) := by
  apply MeetsThen.one false rfl rfl
  · refine ⟨_, _, rfl, rfl, .inr ⟨rfl, rfl, _, rfl, .inr ⟨rfl, _, _, _, _, rfl, rfl, rfl, ⟨_, rfl, rfl⟩,
      .inr ⟨fun ⟨_, h, _, h'⟩ => absurd h' (by cases h; decide), _, _, _, rfl, rfl, Eq.mpr (if_neg (fun h => nomatch h.1))
        ⟨_, _, rfl, ⟨_, _, _, rfl, rfl, rfl, rfl⟩, _, _, _, rfl, .inr ⟨rfl, .inl ⟨_, _, _, _, rfl, rfl, .inr ⟨fun h => (nomatch h.1),
          fun h => absurd h.2 (by decide), rfl, Eq.mpr (if_neg (fun h => nomatch h)) ⟨_, _, _, rfl, ⟨_, _, _, rfl, rfl⟩, rfl⟩⟩⟩⟩, rfl⟩⟩⟩⟩⟩
  · exact .inl ⟨by decide, rfl⟩
/-- The same region with a closing atomic that releases: it waits for the store. -/
def releasingRegion : Region := { busyRegion with held := busyRegion.held.map (fun h => { h with order := .rel }) }
theorem wit_rgnc_waits : MeetsThen (rgncEffect []) (heldAfter .memory) (regional lane releasingRegion) := by
  apply MeetsThen.one true rfl rfl
  · refine ⟨_, _, rfl, rfl, .inr ⟨rfl, rfl, _, rfl, .inr ⟨rfl, _, _, _, _, rfl, rfl, rfl, ⟨_, rfl, rfl⟩,
    .inr ⟨?_, _, _, _, rfl, rfl, ?_⟩⟩⟩⟩
    · rintro ⟨c, h, _, h'⟩
      cases h
      exact absurd h' (by decide)
    refine Eq.mpr (if_neg (fun h => nomatch h.1)) ?_
    exact ⟨_, _, rfl, ⟨_, _, _, rfl, rfl, rfl, rfl⟩, _, _, _, rfl, .inr ⟨rfl, .inl ⟨_, _, _, _, rfl, rfl, .inl ⟨.inl ⟨rfl, by decide⟩, rfl, rfl⟩⟩⟩, rfl⟩
  · exact .inr ⟨⟨_, List.mem_cons_self, rfl⟩, _, rfl, rfl⟩
/-- An entry marked .rel that waits for the entry before it. -/
def relEntry : RsbEntry :=
  { addr := 0x10040, data := 7, width := 4, need := 0, amask := 0, pad := false, policy := .cc, rel := true, scope := .pkg, since := 10 }
theorem wit_rgnc_entry_waits : MeetsThen (rgncEffect []) (heldAfter .memory)
    (regional lane { busyRegion with rsb := busyRegion.rsb ++ [relEntry], held := none }) := by
  apply MeetsThen.one true rfl rfl
  · refine ⟨_, _, rfl, rfl, .inr ⟨rfl, rfl, _, rfl, .inr ⟨rfl, _, _, none, _, rfl, rfl, rfl, ⟨rfl, rfl⟩,
    .inr ⟨(fun ⟨_, h, _⟩ => nomatch h), _, _, _, rfl, rfl, ?_⟩⟩⟩⟩
    refine Eq.mpr (if_neg (fun h => nomatch h.1)) ?_
    exact ⟨_, _, rfl, ⟨_, _, _, rfl, rfl, rfl, rfl⟩, _, _, _, rfl, .inl ⟨fun h => (nomatch h), rfl, rfl⟩, rfl⟩
  · exact .inr ⟨⟨_, List.mem_cons_self, rfl⟩, _, rfl, rfl⟩
/-- A region under release, whose entries have been sent: its atomic is performed at the home. -/
def closingRegion : Region :=
  { busyRegion with rsb := [], release := some { acc := 0, todo := [], closing := some (page 1 0x30000 0 0 0, 0x30040, none), core := 0, epoch := 0 } }
theorem wit_rgnc_closes : MeetsThen (rgncEffect []) (heldAfter .memory) (regional lane closingRegion) := by
  apply MeetsThen.one false rfl rfl
  · exact ⟨_, _, rfl, rfl, .inr ⟨rfl, rfl, _, rfl, .inl ⟨_, rfl, _, _, _, rfl, .inr ⟨rfl, .inl ⟨_, _, _, _, rfl, rfl,
      .inr ⟨fun h => (nomatch h.1), fun h => absurd h.2 (by decide), rfl, Eq.mpr (if_neg (fun h => nomatch h)) ⟨_, _, _, rfl, ⟨_, _, _, rfl, rfl⟩, rfl⟩⟩⟩⟩, rfl⟩⟩⟩
  · exact .inl ⟨by decide, rfl⟩
/-- A RED on a pod page closes a region: its records are sent. -/
def podRegion : Region :=
  { closingRegion with
    held := some { kind := .red .or32, va := 0x20000, arg := 1, arg2 := 0, need := 0, low := 0, dst := .main 4, order := .plain, scope := .pkg
                   policy := .cc, flag := none }
    release := some { acc := 0, todo := [], closing := some (page 2 0x40000 1 7 0, 0x40000, none), core := 0, epoch := 0 } }
theorem wit_rgnc_pod : MeetsThen (rgncEffect []) (heldAfter .memory) (regional lane podRegion) := by
  apply MeetsThen.one false rfl rfl
  · exact ⟨_, _, rfl, rfl, .inr ⟨rfl, rfl, _, rfl, .inl ⟨_, rfl, _, _, _, rfl, .inr ⟨rfl, .inl ⟨_, _, _, _, rfl, rfl,
      .inr ⟨fun h => (nomatch h.1), fun h => (nomatch h.1), rfl, Eq.mpr (if_pos rfl) ⟨_, _, _, _, rfl, rfl, rfl⟩⟩⟩⟩, rfl⟩⟩⟩
  · exact .inl ⟨by decide, rfl⟩
/-- Another thread's closing atomic on the same granule is under way. -/
def contested : State :=
  on (regional lane busyRegion) (fun p => p.setTeam 0 (fun tm =>
    { tm with threads := mapIf (fun th => th.lid == 0) (fun th => { th with region := some closingRegion }) tm.threads }))
theorem wit_rgnc_contested : MeetsThen (rgncEffect []) (heldAfter .memory) contested := by
  apply MeetsThen.one true rfl rfl
  · refine ⟨_, _, rfl, rfl, .inr ⟨rfl, rfl, _, rfl, .inr ⟨rfl, _, _, _, _, rfl, rfl, rfl, ⟨_, rfl, rfl⟩,
    .inl ⟨⟨_, rfl, rfl, by decide⟩, rfl, rfl⟩⟩⟩⟩
  · exact .inr ⟨⟨_, List.mem_cons_self, rfl⟩, _, rfl, rfl⟩

/-- Bank 5 with an arrival word of zeros at its start. -/
def armable (s : State) : State :=
  on (banked s .pad) (fun p => { p with banks := p.banks.map (fun (b : Bank) => { b with cells := (List.range 16).map (fun k => (k, 0)) }) })
theorem wit_arm : Meets (armEffect (padOp 2 0)) (armable (lane [0x140000, 0, 5])) := by
  refine ⟨_, _, rfl, _, ⟨5, _, _, 0x140000, _, _, _, _, _, _, 5 + 2 ^ 96, rfl, rfl, ⟨_, rfl, rfl⟩, rfl, by decide, by decide, rfl, rfl, by decide, rfl⟩, rfl⟩
/-- A generation one above the operand, across the sign. -/
theorem wit_await : Meets (awaitEffect (padOp 2 0)) (armable (lane [0x140000, 0, 0xFFFFFFFF])) := by
  refine ⟨_, _, rfl, _, ⟨0xFFFFFFFF, _, _, 0x140000, _, _, _, rfl, rfl, ⟨_, rfl, rfl⟩, rfl, by decide, by decide⟩, rfl⟩


/-! #### The lathe, jobs and manifests -/

theorem wit_sign : Meets (signEffect 15 (.imm 0)) pilot :=
  ⟨_, _, rfl, _, ⟨_, 0, 0, 2#32, rfl, rfl, rfl, by decide, by decide, by decide, by decide, rfl⟩, rfl⟩
theorem wit_sign_sreg : Meets (signEffect 0 (.sreg 3)) pilot :=
  ⟨_, _, rfl, _, ⟨_, _, _, 2#32, rfl, rfl, rfl, by decide, by decide, by decide, by decide, rfl⟩, rfl⟩

/-- Sign-off register 1 armed for row 0 with the lane thread expected. -/
def armed (vals : List Nat) : State :=
  on (lane vals) (fun p => p.setTeam 0 (fun tm => tm.setSign 1 { SignReg.idle with state := .armed, expect := 2#32 }))

theorem wit_mma : MeetsThen (signsRound [src (latheField 0) 8, src (latheField 2) 8] 1 (.mma .b16 63 0 0 0 0)
    (fun w => signature w (latheField 0) (latheField 2) 8 8 none)) (thenIssues 1) (armed []) := by
  apply MeetsThen.one () rfl rfl
  · exact ⟨_, _, _, _, by decide, rfl, rfl, rfl, by decide, by decide, by decide, by decide, (fun h => by cases h), rfl, rfl⟩
  · exact ⟨_, _, rfl, rfl, .inr ⟨rfl, rfl, by decide, rfl⟩⟩
theorem wit_mma_scaled : MeetsThen (signsRound [src (latheField 0) 8, src (latheField 2) 8, src (ctlSA 0) 1, src (ctlSB 0) 1] 1
    (.mma .q4 0 0 0 (ctlJA 0) (ctlJB 0)) (fun w => signature w (latheField 0) (latheField 2) 8 8 (some 0))) (thenIssues 1) (armed []) := by
  apply MeetsThen.one () rfl rfl
  · exact ⟨_, _, _, _, by decide, rfl, rfl, rfl, by decide, by decide, by decide, by decide, (fun h => by cases h), rfl, rfl⟩
  · exact ⟨_, _, rfl, rfl, .inr ⟨rfl, rfl, by decide, rfl⟩⟩
theorem wit_mmasp : MeetsThen (signsRound [src (latheField 1) 4, src (latheField 2) 8] 1 (.mmasp .e5m2 3 2)
    (fun w => signature w (latheField 1) (latheField 2) 4 8 none)) (thenIssues 1) (armed []) := by
  apply MeetsThen.one () rfl rfl
  · exact ⟨_, _, _, _, by decide, rfl, rfl, rfl, by decide, by decide, by decide, by decide, (fun h => by cases h), rfl, rfl⟩
  · exact ⟨_, _, rfl, rfl, .inr ⟨rfl, rfl, by decide, rfl⟩⟩
theorem wit_accld : MeetsThen (signsRound [src (8 : Fld) 8] 1 (.accld .f32 5 false) (fun w => signature w 8 8 8 0 none)) (thenIssues 1) (armed []) := by
  apply MeetsThen.one () rfl rfl
  · exact ⟨_, _, _, _, by decide, rfl, rfl, rfl, by decide, by decide, by decide, by decide, (fun h => by cases h), rfl, rfl⟩
  · exact ⟨_, _, rfl, rfl, .inr ⟨rfl, rfl, by decide, rfl⟩⟩
/-- The source zero. -/
theorem wit_accld_zero : MeetsThen (signsRound [src (122 : Fld) 0] 1 (.accld .f32 5 true) (fun w => signature w 122 122 0 0 none)) (thenIssues 1) (armed []) := by
  apply MeetsThen.one () rfl rfl
  · exact ⟨_, _, _, _, by decide, rfl, rfl, rfl, by decide, by decide, by decide, by decide, (fun h => by cases h), rfl, rfl⟩
  · exact ⟨_, _, rfl, rfl, .inr ⟨rfl, rfl, by decide, rfl⟩⟩
theorem wit_accst : MeetsThen (signsRound [dst (20 : Fld) 4] 1 (.accst .c32rnd 0) (fun w => do
    let g ← signature w 20 20 0 0 none
    let r ← resolve w 20
    pure { g with dst := lockedRegs r 4, locks := lockedRegs r 4 })) (thenIssues 1) (armed []) := by
  apply MeetsThen.one () rfl rfl
  · exact ⟨_, _, _, _, by decide, rfl, rfl, rfl, by decide, by decide, by decide, by decide, (fun h => by cases h), rfl, rfl⟩
  · exact ⟨_, _, rfl, rfl, .inr ⟨rfl, rfl, by decide, rfl⟩⟩

/-- Another lane is expected too: the register collects. -/
theorem wit_mma_collects : MeetsThen (signsRound [src (latheField 0) 8, src (latheField 2) 8] 1 (.mma .b16 63 0 0 0 0)
    (fun w => signature w (latheField 0) (latheField 2) 8 8 none)) (thenIssues 1)
    (on lane (fun p => p.setTeam 0 (fun tm => tm.setSign 1 { SignReg.idle with state := .armed, expect := 6#32 }))) := by
  apply MeetsThen.one () rfl rfl
  · exact ⟨_, _, _, _, by decide, rfl, rfl, rfl, by decide, by decide, by decide, by decide, (fun h => by cases h), rfl, rfl⟩
  · exact ⟨_, _, rfl, rfl, .inl ⟨.inl (by decide), rfl⟩⟩

theorem wit_jwait : Meets (jwaitEffect 11) lane := ⟨_, _, rfl, _, ⟨rfl, _, rfl, rfl⟩, rfl⟩

/-- A card at va 0x10040 with a base, a PARAM word and the descriptors of regions 0 and 4; the team is bound to the tide, and the group 5 is live. -/
def carded (base param r0 w0 : Nat) : State :=
  on (lane [0x10040, 0, 1, 0]) (fun p =>
    let p := p.setTeam 0 (fun tm => { tm with tideBound := true })
    { p with mem := (p.poke 0x30040 64 (base / 32 * 2 ^ 12 + param * 2 ^ 96 + r0 * 2 ^ 128 + w0 * 2 ^ 384)).mem
             groups := [{ id := 5, seq := 3, rank := 0, world := 1, state := 1, gen := 0, used := 0, members := [0, 1], mlist := 0, acks := [], heads := [], datas := [] }] })
/-- A region descriptor: V, SP, OFF and LEN (R244). -/
def region (sp off len : Nat) : Nat := 2 ^ 63 + sp * 2 ^ 62 + off * 2 ^ 24 + len

/-- As `Meets`, with the other packages at hand. -/
def MeetsWith (eff : List Package → Who → Package → Package → Prop) (s : State) : Prop :=
  ∃ i q, s.here.issue = some i ∧ InTurn (eff s.others) i.team i.active s.here q

set_option maxRecDepth 100000
set_option exponentiation.threshold 600
theorem wit_cpy : MeetsWith (cpyEffect 0 true none) (carded 0x10000 0 (region 0 0 1) (region 0 8 1)) :=
  ⟨_, _, rfl, _, ⟨_, _, _, rfl, rfl, by decide +kernel, ⟨_, _, _, _, _, rfl, rfl, rfl, rfl, rfl, by decide +kernel, rfl⟩⟩, rfl⟩
theorem wit_cpym : MeetsWith (cpymEffect 0 2 false none) (carded 0x10000 0 (region 0 0 1) (region 1 0xA000 1)) :=
  ⟨_, _, rfl, _, ⟨_, _, _, _, _, rfl, rfl, by decide +kernel, ⟨_, _, _, _, _, rfl, rfl, rfl, rfl, rfl, by decide +kernel, rfl⟩⟩, rfl⟩
theorem wit_coll : MeetsWith (collEffect none 0 false none) (carded 0x10000 (5 * 2 ^ 20) (region 0 0 1) (region 0 8 1)) :=
  ⟨_, _, rfl, _, ⟨_, _, _, _, _, rfl, rfl, rfl, by decide +kernel, ⟨_, _, _, _, _, rfl, rfl, rfl, rfl, rfl, by decide +kernel, rfl⟩, rfl⟩, rfl⟩
theorem wit_coll_tile : MeetsWith (collEffect (some 63) 0 false none) (carded 0x10000 (5 * 2 ^ 20) 0 0) :=
  ⟨_, _, rfl, _, ⟨_, _, _, _, _, rfl, rfl, rfl, by decide +kernel, ⟨_, _, _, _, _, rfl, rfl, rfl, rfl, rfl, by decide +kernel, rfl⟩, rfl⟩, rfl⟩
theorem wit_xperm : MeetsWith (xpermEffect 0 false none) (carded 0x20000 0x32114000 (region 0 0 1) (region 0 0 1)) :=
  ⟨_, _, rfl, _, ⟨_, _, _, _, _, _, rfl, rfl, rfl, rfl, rfl, rfl, rfl, rfl, by decide +kernel, ⟨_, _, _, _, _, rfl, rfl, rfl, rfl, rfl, by decide +kernel, rfl⟩⟩, rfl⟩
theorem wit_tide : Meets (tideEffect 4) (last (carded 0 0 0 0)) :=
  ⟨_, _, rfl, _, ⟨_, _, _, _, _, _, _, _, rfl, rfl, rfl, rfl, rfl, rfl, rfl, rfl, rfl, rfl, rfl, rfl, rfl, rfl, ⟨_, _, _, rfl, rfl, rfl, rfl⟩, rfl⟩, rfl⟩
theorem wit_readCard : ∃ c q, Gives (readCard [] ⟨0, 1⟩ 0 true none []) (carded 0x10000 0 (region 0 0 1) (region 0 8 1)).here c q := ⟨_, _, rfl⟩

/-- The pilot with manifest 0 in a state, the carve-out set up, and an address and a count in its registers. -/
def manifest (st : ManState) : State :=
  on (pilot [0x10000, 0, 1]) (fun p => { p with mans := [{ Manifest.reset 4 with state := st }], carveOut := true })

theorem wit_recBegin : Meets (recBeginEffect 0 0 2 none) (manifest .recorded) := by
  refine ⟨_, _, rfl, _, ⟨_, 0x10000, _, _, 1, _, _, _, _, _, _, ⟨rfl, _, _, _, rfl, rfl, rfl, rfl⟩, rfl, rfl, rfl, rfl, rfl, by decide, by decide, rfl, rfl, rfl, rfl,
    by decide +kernel, ?_, rfl⟩, rfl⟩
  intro y hy hne
  cases List.mem_singleton.mp hy
  exact absurd rfl hne
theorem wit_recEnd : Meets (recEndEffect 0) (manifest .recording) := ⟨_, _, rfl, _, ⟨_, ⟨rfl, _, _, _, rfl, rfl, rfl, rfl⟩, .inl rfl, by decide, rfl⟩, rfl⟩
theorem wit_recPlay : Meets (recPlayEffect 0 2 none) (manifest .suspended) :=
  ⟨_, _, rfl, _, ⟨_, _, _, _, ⟨rfl, _, _, _, rfl, rfl, rfl, rfl⟩, rfl, rfl, by decide, .inl ⟨.inr rfl, rfl⟩⟩, rfl⟩
theorem wit_recPlay_playing : Meets (recPlayEffect 0 2 none) (manifest .playing) :=
  ⟨_, _, rfl, _, ⟨_, _, _, _, ⟨rfl, _, _, _, rfl, rfl, rfl, rfl⟩, rfl, rfl, by decide, .inr ⟨rfl, rfl⟩⟩, rfl⟩
theorem wit_recDrop : Meets (recDropEffect 0) (manifest .recorded) := ⟨_, _, rfl, _, ⟨_, ⟨rfl, _, _, _, rfl, rfl, rfl, rfl⟩, fun _ => by decide, rfl⟩, rfl⟩
theorem wit_recq : Meets (recqEffect 16 0) (manifest .recorded) :=
  ⟨_, _, rfl, _, ⟨_, _, _, _, ⟨rfl, _, _, _, rfl, rfl, rfl, rfl⟩, rfl, rfl, rfl, rfl⟩, rfl⟩


/-! #### Clauses, gangs and waits -/

/-- No clause is being issued; the gang stands at the header 0x10000, where a clause of one NOP lies. -/
def idle (f : Package → Package := id) : State :=
  on lane (fun p => f { (p.poke 0x30000 8 0xFF3F0) with
    issue := none, code := [(lineOf 0x30000, 1)]
    gangs := p.gangs.map (fun (g : Gang) => { g with point := { hdr := 0x10000, mid := none } }) })
/-- The gang of the lane thread. -/
def gang0 : Gang :=
  { core := 0, part := 0, id := 0, team := 0, lids := [1], point := { hdr := 0x10000, mid := none }, held := none, stall := .none, blocked := []
    since := [], yieldTo := 0 }
/-- With the gang in another condition. -/
def ganged (f : Gang → Gang) : State := idle (fun p => { p with gangs := p.gangs.map f })

theorem wit_clauseIssue : ∃ (s : State) (g x : Gang) (tm : Team) (h : Word) (ws : List Word) (p : Package), s.here.issue = none ∧
    s.here.gang? g.core g.id g.team = some x ∧ s.here.team? x.team = some tm ∧ tm.residence = .resident ∧ x.held = none ∧ x.point.mid = none ∧
    x.id < Config.loneGang ∧ (∀ l ∈ x.lids, ∀ th, s.here.thread? ⟨x.team, l⟩ = some th → th.errDue = none) ∧
    Gives (fetchClause ⟨x.team, x.lids.headD 0⟩ x.point.hdr)
      (Package.commitCeilings { s.here with issued := s.here.issued ++ [(x.core, x.id, x.team)] } x.team) (h, ws) p ∧
    (∀ l ∈ x.lids, Gives (popCtx ⟨x.team, l⟩ x.point.hdr (Config.ctxSize + 1)) p () p) ∧ p.gang? x.core x.id x.team = some x ∧
    (∀ l ∈ x.lids, ∀ tm', p.team? x.team = some tm' → tm'.parkAt l x.point.hdr = none) ∧ clauseOk x.pilot h ws = true ∧
    (∀ l ∈ x.lids, ∀ th, p.thread? ⟨x.team, l⟩ = some th → p.notReady tm h true 0 ws th = none) ∧ p.fifoLacks x h true ws = none ∧
    (holdsLoads x.pilot ws = true → p.loadCap x = true) ∧ p.pipesFree x (pipesOf 0 (splitWords x.pilot 8 ws)) = true := by
  refine ⟨idle, gang0, _, _, _, _, _, rfl, rfl, rfl, rfl, rfl, rfl, by decide, ?_, rfl, ?_, rfl, ?_, by decide, ?_, by decide, (fun h => by cases h), by decide⟩
  · intro l h th h'
    cases List.mem_singleton.mp h
    cases h'
    rfl
  · intro l h
    cases List.mem_singleton.mp h
    rfl
  · intro l h tm' h'
    cases List.mem_singleton.mp h
    cases h'
    rfl
  · intro l h th h'
    cases List.mem_singleton.mp h
    cases h'
    rfl
/-- A gang at a header, whose threads are distinct. -/
theorem wit_issueClause : ∃ g : Gang, g.point.mid = none ∧ g.lids.Nodup ∧ g.lids ≠ [] := ⟨gang0, rfl, by decide, by decide⟩
theorem wit_clauseHeld : ∃ (s : State) (g x : Gang) (tm : Team) (i : Issue), s.here.issue = none ∧ s.here.gang? g.core g.id g.team = some x ∧
    s.here.team? x.team = some tm ∧ (tm.residence = .resident ∨ tm.residence = .saving) ∧ x.held = some i ∧ x.id < Config.loneGang ∧
    s.here.pipesFree x (pipesOf i.vec (splitWords x.pilot 8 i.words)) = true :=
  ⟨on (ganged (fun g => { g with held := lane.here.issue })) (fun p => p.setTeam 0 (fun tm => { tm with residence := .saving })), gang0, _, _, _, rfl, rfl, rfl,
    .inr rfl, rfl, by decide, by decide⟩

/-- An entry of the filing queue, or of a berth, of core 0 and partition 0. -/
def filed : BerthEntry := { team := 0, lid := 1, point := { hdr := 0x10000, mid := none }, key := 0, since := 0 }
theorem wit_filingQueue : ∃ (s : State) (x : Partition), s.here.partition 0 0 = x ∧ x.queue ≠ [] :=
  ⟨idle (fun p => { p with parts := [{ core := 0, part := 0, berths := [], queue := [filed] }] }), _, rfl, by decide⟩
/-- At the very cycle in which the entry has waited 64. -/
theorem wit_berthAge : ∃ (s : State) (a : List BerthEntry) (e : BerthEntry) (b : List BerthEntry), (s.here.partition 0 0).berths = a ++ e :: b ∧ (∀ y ∈ a, s.here.now < y.since + 64) ∧ e.since + 64 ≤ s.here.now :=
  ⟨idle (fun p => { p with now := 64, parts := [{ core := 0, part := 0, berths := [{ filed with since := 1 }, filed], queue := [] }] }),
    [{ filed with since := 1 }], filed, [], rfl, by decide, by decide⟩
theorem wit_formGang : ∃ (p : Package) (k : BerthEntry), p.freeGangIds 0 ≠ [] ∧ k ∈ (p.partition 0 0).berths :=
  ⟨(idle (fun p => { p with parts := [{ core := 0, part := 0, berths := [filed], queue := [] }] })).here, filed, by decide +kernel, by decide⟩
theorem wit_gangIdFree : ∃ s : State, s.here.freeGangIds 0 ≠ [] := ⟨idle, by decide +kernel⟩
/-- At the very cycle in which a member has been blocked for 64. -/
theorem wit_blockedMember : ∃ (s : State) (g x : Gang) (bs : List (Nat × Nat)), s.here.gang? g.core g.id g.team = some x ∧ x.id < Config.loneGang ∧
    s.here.blockedIn x = bs ∧ (∃ l ∈ x.lids, ∀ b ∈ bs, b.1 ≠ l) ∧ (∃ b ∈ bs, b.2 + 64 ≤ s.here.now) :=
  ⟨idle (fun p => { p with now := 64, gangs := p.gangs.map (fun (g : Gang) =>
      { g with lids := [1, 2], blocked := [1], stall := .jwait, since := [(1, 0x10004, 0)] }) }), gang0, _, [(1, 0)], rfl, by decide, by decide,
    ⟨2, by decide, by decide⟩, ⟨(1, 0), by decide, by decide⟩⟩
theorem wit_setAside : ∃ th, idle.here.thread? ⟨gang0.team, 1⟩ = some th := ⟨_, rfl⟩
theorem wit_rejoinTimer : ∃ (s : State) (tm : Team) (r : DivRec) (t : Nat), s.here.team? 0 = some tm ∧ tm.divs.find? (fun r => r.id == 5) = some r ∧
    r.expires = some t ∧ t ≤ s.here.now :=
  ⟨idle (fun p => ({ p with now := 64 } : Package).setTeam 0 (fun tm =>
    { tm with divs := [{ id := 5, cam := 0, named := [1], parked := [], expires := some 64, left := none }] })), _, _, _, rfl, rfl, rfl, by decide⟩
theorem wit_yieldExpiry : ∃ (s : State) (th : Thread), s.here.thread? ⟨0, 1⟩ = some th ∧ th.yieldTo ≠ 0 ∧ th.yieldTo ≤ s.here.now :=
  ⟨idle (fun p => ({ p with now := 256 } : Package).setThread ⟨0, 1⟩ (fun th => { th with yieldTo := 256 })), _, rfl, by decide, by decide⟩

theorem wit_quayRoom : idle.here.quayRoom 2 = true := by decide
theorem wit_fifoRoom : ∃ (s : State) (b : Bank), s.here.bank? 0 9 = some b ∧ b.fifo.length < Config.fifoSize :=
  ⟨idle (fun p => { p with banks := [{ cluster := 0, phys := 9, mode := .fifo, cells := [], free := 0, labels := [], fifo := [], pushed := [] }] }), _, rfl, by decide⟩
theorem wit_bankWriteback : ∀ x ∈ idle.here.writes, x.cluster = 0 → x.cc = true → x.wct ≠ none := by decide
theorem wit_schedulerRoom : (idle.here.jobs.filter (fun j => j.team == 0 && j.kind != .chunk)).length < Config.jobSlots := by decide
theorem wit_loadCapWindow : ∃ s : State, (s.here.coreOr 0).win < s.here.now ∧ (s.here.now - (s.here.coreOr 0).win) % 4096 = 0 :=
  ⟨idle (fun p => { p with now := 4096 }), by decide, by decide⟩
theorem wit_departureWindow : ∃ s : State, s.here.now % 16384 = 0 ∧ s.here.now ≠ 0 := ⟨idle (fun p => { p with now := 16384 }), by decide, by decide⟩


/-! #### Teams, rounds and homes -/

/-- Space 3 maps one page of 1 GiB, in which virtual and physical addresses agree; the queue 2 holds the grid 0 of one team, whose descriptor
stands at 0x30000. -/
def queued : State :=
  idle (fun p =>
    let p := (((p.poke 0x600000 16 0x602001).poke 0x602000 16 0x604001).poke 0x604000 16 0x79).poke 0x30000 64 (2 ^ 64)
    let r := setBits 63 0 0x30000 (fetchTeam 0 0).record
    { p with
      worlds := p.worlds.map (fun (x : World) => { x with space := 3 })
      quays := p.quays.map (fun (k : Quay) => { k with items := [0] })
      grids := [{ id := 0, record := r, world := 1, queue := 2, journal := 0, slot := 0, next := 0, left := 1, parent := none, queued := true, tideBound := false
                  seq := none, chunks := 0, ready := 0 }] })

theorem wit_dispatch : ∃ (p : Package) (r : Runnable) (g : Grid), p = queued.here.raiseCounts 0 (queued.here.runnables 0) ∧
    p.bestRunnable 0 (queued.here.runnables 0) = some r ∧ p.grids.find? (fun g => g.id == r.grid) = some g ∧ g.next + 1 = recTeams g.record :=
  ⟨_, _, _, rfl, rfl, rfl, by decide⟩
theorem wit_startTeam : ∃ (g : Grid) (x : World), g ∈ queued.here.grids ∧ queued.here.world? g.world = some x := ⟨_, _, List.mem_cons_self, rfl⟩

/-- The team's body has ended, with the continuation `c`; it belongs to the grid 0. -/
def ended (c : Option (Nat × Nat × Nat)) (left : Nat := 1) : State :=
  on queued (fun p => { p with
    teams := p.teams.map (fun (tm : Team) => { tm with ended := true, join := 0, cont := c })
    grids := p.grids.map (fun (g : Grid) => { g with left }) })
theorem wit_retire : ∃ (tm : Team) (g : Grid), (ended none).here.team? 0 = some tm ∧ tm.ended = true ∧ tm.join = 0 ∧
    (ended none).here.grids.find? (fun g => g.id == tm.grid) = some g ∧ ((tm.cont.isSome ∨ g.parent.isSome) → (ended none).here.teamInFlight tm = false) ∧
    (∀ r q ref, tm.cont = some (r, q, ref) → tm.killed = true ∨ (ended none).here.quayRoom q = true) :=
  ⟨_, _, rfl, rfl, rfl, rfl, fun _ => by decide, fun _ _ _ h => by cases h⟩
/-- With a continuation into a queue that has room. -/
theorem wit_retire_cont : ∃ (tm : Team) (g : Grid), (ended (some (0, 2, 7))).here.team? 0 = some tm ∧ tm.ended = true ∧ tm.join = 0 ∧
    (ended (some (0, 2, 7))).here.grids.find? (fun g => g.id == tm.grid) = some g ∧
    ((tm.cont.isSome ∨ g.parent.isSome) → (ended (some (0, 2, 7))).here.teamInFlight tm = false) ∧
    (∀ r q ref, tm.cont = some (r, q, ref) → tm.killed = true ∨ (ended (some (0, 2, 7))).here.quayRoom q = true) :=
  ⟨_, _, rfl, rfl, rfl, rfl, fun _ => by decide, fun _ _ _ h => by cases h; exact .inr (by decide)⟩
/-- The record in its ring. -/
theorem wit_progress : ∃ (g : Grid) (pa : Nat), queued.here.grids.find? (fun g => g.id == 0) = some g ∧ queued.here.gridPa g = some pa ∧
    queued.here.wf = true := ⟨_, _, rfl, rfl, by decide +kernel⟩
theorem wit_gridLost : ∃ (tm : Team), (on (ended none) (fun p => { p with grids := [] })).here.team? 0 = some tm ∧ tm.ended = true ∧
    (on (ended none) (fun p => { p with grids := [] })).here.grids.find? (fun g => g.id == tm.grid) = none := ⟨_, rfl, rfl, rfl⟩
theorem wit_gridOpen : ∃ g, (ended none).here.grids.find? (fun g => g.id == 0) = some g ∧ (g.left ≠ 0 ∨ g.chunks ≠ 0) := ⟨_, rfl, .inl (by decide)⟩
theorem wit_gridDone : ∃ g, (ended none 0).here.grids.find? (fun g => g.id == 0) = some g ∧ g.left = 0 ∧ g.chunks = 0 := ⟨_, rfl, rfl, rfl⟩

/-- The register 15 has collected what it expects. -/
def collected : State :=
  idle (fun p => p.setTeam 0 (fun tm => tm.setSign 15
    { SignReg.idle with state := .collecting, signed := 2, expect := 2, op := some (.accld .f32 0 true) }))
theorem wit_roundIssue : ∃ (tm : Team) (op : LatheOp), collected.here.team? 0 = some tm ∧ 15 < tm.signs.length ∧ (tm.sign 15).state = .collecting ∧
    (tm.sign 15).signed = (tm.sign 15).expect ∧ (tm.sign 15).op = some op :=
  ⟨_, _, rfl, by decide, rfl, rfl, rfl⟩

/-- A round that waits for its slice, issued in the cycle before. -/
def round0 (op : LatheOp) : Round :=
  { id := 7, time := 0, k := 0, team := 0, core := 0, part := 0, row := 0, op, expect := 2, sigs := [], read := false, popped := [], stop := false }
def sliced (op : LatheOp) (f : Package → Package := id) : State := idle (fun p => f { p with now := 1, rounds := [round0 op] })
/-- A round that reads no queue. -/
theorem wit_roundComplete : ∃ (tm : Team) (p : Package) (r' : Round),
    (sliced (.accld .f32 0 true)).here.rounds.find? (fun r => r.id == 7) = some (round0 (.accld .f32 0 true)) ∧
    (sliced (.accld .f32 0 true)).here.team? 0 = some tm ∧ (round0 (.accld .f32 0 true)).stop = false ∧
    (round0 (.accld .f32 0 true)).time < (sliced (.accld .f32 0 true)).here.now ∧ (sliced (.accld .f32 0 true)).here.firstRound (round0 (.accld .f32 0 true)) = true ∧
    (sliced (.accld .f32 0 true)).here.tileHeld (round0 (.accld .f32 0 true)) tm = false ∧
    (sliced (.accld .f32 0 true)).here.popSparse (round0 (.accld .f32 0 true)) = (p, r') ∧ r'.op.groups ≤ r'.popped.length :=
  ⟨_, _, _, rfl, rfl, rfl, by decide, by decide, by decide, rfl, by decide⟩
/-- A round whose queue is empty. -/
theorem wit_roundStalls : ∃ (tm : Team) (p : Package) (r' : Round),
    (sliced (.mmasp .e5m2 3 2)).here.rounds.find? (fun r => r.id == 7) = some (round0 (.mmasp .e5m2 3 2)) ∧
    (sliced (.mmasp .e5m2 3 2)).here.team? 0 = some tm ∧ (round0 (.mmasp .e5m2 3 2)).stop = false ∧
    (round0 (.mmasp .e5m2 3 2)).time < (sliced (.mmasp .e5m2 3 2)).here.now ∧ (sliced (.mmasp .e5m2 3 2)).here.firstRound (round0 (.mmasp .e5m2 3 2)) = true ∧
    (sliced (.mmasp .e5m2 3 2)).here.tileHeld (round0 (.mmasp .e5m2 3 2)) tm = false ∧
    (sliced (.mmasp .e5m2 3 2)).here.popSparse (round0 (.mmasp .e5m2 3 2)) = (p, r') ∧ r'.popped.length < r'.op.groups :=
  ⟨_, _, _, rfl, rfl, rfl, by decide, by decide, by decide, rfl, by decide⟩
theorem wit_doRound : ∃ (p : Package) (r : Round) (tm : Team) (lbl : Lbl) (p₁ : Package), (∀ f t, r.op ≠ .accst f t) ∧
    p.labelFor (p.tileMask r (tm.tile r.core r.part r.op.tile)) = some (lbl, p₁) :=
  ⟨idle.here, round0 (.accld .f32 0 true), fetchTeam 0 0, _, _, (fun _ _ h => by cases h), rfl⟩
theorem wit_doStore : ∃ (p : Package) (r : Round) (tm : Team) (f : StForm) (n : Nat) (lbl : Lbl) (p₁ : Package) (ls : List Lbl) (p₂ : Package),
    r.op = .accst f n ∧ p.labelFor (p.tileMask r (tm.tile r.core r.part n)) = some (lbl, p₁) ∧ p₁.storeLabels (tm.tile r.core r.part n) r.sigs = some (ls, p₂) :=
  ⟨idle.here, round0 (.accst .c32rnd 5), fetchTeam 0 0, .c32rnd, 5, _, _, _, _, rfl, rfl, rfl⟩
/-- A label table whose every entry is live, for one owner set. -/
def fullTable (m : Mask) : List (Nat × Mask) := (List.range' 0 0xFFFF).map (fun k => (k, m))
theorem freeIndex_range (m : Mask) (n : Nat) : ∀ a, freeIndex a ((List.range' a n).map (fun k => (k, m))) = a + n := by
  induction n with
  | zero => intro a; rfl
  | succ n ih =>
    intro a
    rw [List.range'_succ, List.map_cons, freeIndex, if_pos rfl, ih]
    omega
/-- A table without a free entry: another owner set has no label. -/
theorem labelFor_full (p : Package) (a b : Mask) (h : a ≠ b) : ({ p with labels := fullTable a }).labelFor b = none := by
  have hf : ({ p with labels := fullTable a } : Package).findMask b = none := by
    simp only [Package.findMask, fullTable]
    rw [List.find?_eq_none.mpr]
    · rfl
    · intro x hx
      obtain ⟨k, -, rfl⟩ := List.mem_map.mp hx
      simpa using h
  unfold Package.labelFor
  rw [hf]
  have hk : freeIndex 0 (fullTable a) = 0xFFFF := freeIndex_range a 0xFFFF 0
  simp only
  rw [hk]
  rfl
theorem wit_roundFull : ∃ (p : Package) (r : Round) (tm : Team), p.labelFor (p.tileMask r (tm.tile r.core r.part r.op.tile)) = none := by
  refine ⟨{ idle.here with labels := fullTable 1 }, round0 (.accld .f32 0 true), fetchTeam 0 0, labelFor_full _ _ _ ?_⟩
  decide
/-- A stalled round, and an entry in its queue. -/
theorem wit_sparsityEntry : ∃ (s : State) (r : Round) (p : Package) (r' : Round),
    s.here.rounds.find? (fun r => r.core == 0 && r.part == 0 && r.stop && r.op.queue == some 3
      && s.here.sparse.any (fun x => x.core == 0 && x.part == 0 && x.q == 3 && x.team == r.team && !x.entries.isEmpty)) = some r ∧
    s.here.popSparse r = (p, r') :=
  ⟨idle (fun p => { p with rounds := [{ round0 (.mmasp .e5m2 3 2) with stop := true }], sparse := [{ core := 0, part := 0, q := 3, team := 0, entries := [(1, 0)] }] }),
    _, _, _, rfl, rfl⟩

/-- An outstanding access of the lane thread, number 4. -/
def acc4 (op : AccOp) : Acc :=
  { id := 4, team := 0, lid := 1, core := 0, cluster := 0, gang := 0, flag := none, hdr := 0x1000, pc := 0x1004, resume := { hdr := 0x1000, mid := none }, trapped := false
    epoch := 0, killed := false, op }
/-- A load of a byte at 0x30000 into register 5. -/
def load0 (stage : LStage) : LoadOp :=
  { va := 0x10000, pa := 0x30000, n := 1, policy := .cc, acq := false, scope := none, dst := .main 5, regs := 1, signed := true, mask := 0, ovl := []
    mode := 0, step := none, peer := none, stage }
def owing (op : AccOp) (f : Package → Package := id) : State := idle (fun p => f { p with accs := [acc4 op] })

/-- A signed byte with its sign set. -/
theorem wit_loadServed : ∃ (a : Acc) (o : LoadOp) (v : Nat) (m : Mask) (q : Package), (owing (.load (load0 (.served 0x80 0)))).here.acc? 4 = some a ∧
    a.op = .load o ∧ o.stage = .served v m ∧
    Finished (owing (.load (load0 (.served 0x80 0)))).here a o.dst o.regs (if o.signed then wrapInt 32 (intBits (8 * o.n) v) else v) m q :=
  ⟨_, _, _, _, _, rfl, rfl, rfl, _, _, rfl, rfl⟩
/-- A live copy, at the last time of its lease. -/
theorem wit_loadCopy : ∃ (s : State) (a : Acc) (o : LoadOp), s.here.acc? 4 = some a ∧ a.op = .load o ∧ o.stage = .sent ∧ o.peer = none ∧ o.policy = .cc ∧
    s.here.copyLive (lineOf o.pa) a.cluster = true ∧ s.here.podHeld (s.here.worldId a.team) o = false ∧ s.here.earlierRead ⟨a.team, a.lid⟩ a.id o.pa o.n = false ∧
    s.here.torn a o.pa o.n true = false :=
  ⟨owing (.load (load0 .sent)) (fun p => { p with now := 1024, lines := [{ addr := lineOf 0x30000, inL2 := true, maxl := 1024, last := 0, scope := none, tag := 0
                                                                           writer := none, copies := [{ cluster := 0, world := 1, lease := 1024, core := 0, gang := 0
                                                                                                        delivered := none, read := false, pod := false, free := false }] }] }),
    _, _, rfl, rfl, rfl, rfl, rfl, by decide, by decide, by decide, by decide⟩
theorem wit_resultReady : ∃ (s : State) (a : Acc) (r : LateOp) (q : Package), s.here.acc? 4 = some a ∧ a.op = .result r ∧ r.ready ≤ s.here.now ∧ r.fp = none ∧
    Finished s.here a r.dst r.regs r.val (s.here.maskOf r.lbl) q :=
  ⟨owing (.result { dst := .main 5, regs := 1, val := 9, lbl := 0, fp := none, ready := 0, acq := false, span := none }), _, _, _, rfl, rfl, by decide, rfl, _, _, rfl, rfl⟩
/-- A floating-point result that raises NX. -/
theorem wit_resultRaises : ∃ (s : State) (a : Acc) (r : LateOp) (th : Thread) (l : Lbl) (p₁ : Package) (fl : Lbl) (p₂ : Package), s.here.acc? 4 = some a ∧
    a.op = .result r ∧ r.ready ≤ s.here.now ∧ r.fp = some 1 ∧ s.here.thread? ⟨a.team, a.lid⟩ = some th ∧
    ({ s.here with accs := s.here.accs.filter (fun y => y.id != a.id) }).labelFor (s.here.maskOf r.lbl) = some (l, p₁) ∧
    p₁.labelFor (p₁.maskOf th.flagsLbl ||| s.here.maskOf r.lbl) = some (fl, p₂) :=
  ⟨owing (.result { dst := .main 5, regs := 1, val := 9, lbl := 0, fp := some 1, ready := 0, acq := false, span := none }), _, _, _, _, _, _, _,
    rfl, rfl, by decide, rfl, rfl, rfl, rfl⟩
theorem wit_storeDone : ∃ a, (owing .store).here.acc? 4 = some a ∧ a.killed = false ∧ a.op = .store ∧
    ∀ x ∈ (owing .store).here.writes, x.acc = a.id → x.wct ≠ none :=
  ⟨_, rfl, rfl, rfl, by decide⟩
theorem wit_podDone : ∃ a, (owing (.pod 0)).here.acc? 4 = some a ∧ a.killed = false ∧ a.op = .pod 0 := ⟨_, rfl, rfl, rfl⟩
theorem wit_rgncDone : ∃ a, (owing (.rgnc 0 (some 5))).here.acc? 4 = some a ∧ a.killed = false ∧ a.op = .rgnc 0 (some 5) ∧
    (∀ x ∈ (owing (.rgnc 0 (some 5))).here.writes, x.acc = a.id → x.wct ≠ none) ∧ (owing (.rgnc 0 (some 5))).here.closingPending a (some 5) = false :=
  ⟨_, rfl, rfl, rfl, by decide, by decide⟩
/-- A FIFO bank with one entry of two bytes, and a pop that waits there. -/
def popping : State :=
  owing (.pop 9 (.main 5) 4 0) (fun p =>
    { p with banks := [{ cluster := 0, phys := 9, mode := .fifo, cells := [], free := 0, labels := [], pushed := [0], fifo := [⟨2, 0x8001, 0⟩] }] })
theorem wit_fifoEntry : ∃ (b : Bank) (e : FifoEntry) (es : List FifoEntry) (a : Acc) (d : Dst) (n : Nat) (m : Mask) (q : Package),
    popping.here.bank? 0 9 = some b ∧ b.fifo = e :: es ∧ popping.here.firstPop 0 9 = some a ∧ a.op = .pop 9 d n m ∧
    ∃ p l p₁, p = popping.here.setBank { b with fifo := es } ∧
      ({ p with accs := popping.here.accs.filter (fun x => x.id != a.id) }).labelFor (popping.here.maskOf e.lbl ||| m) = some (l, p₁) ∧
      q = (((p₁.putVal ⟨a.team, a.lid⟩ d (n / 4) (e.val % 2 ^ (8 * n)) l).flagDone ⟨a.team, a.lid⟩ a.flag).wake
        (fun st => st == Stall.memory || st == Stall.other)).wake (fun st => st == Stall.fifo 0 9 || st == Stall.bank 0 9) :=
  ⟨_, _, _, _, _, _, _, _, rfl, rfl, rfl, rfl, _, _, _, rfl, rfl, rfl⟩

/-- A write of the byte at 0x30000 on its way. -/
def write0 (wct : Option Nat) : Write :=
  { id := 3, acc := 4, line := lineOf 0x30000, cells := [(0x30000, 7)], grow := [], wct, kind := .store, team := 0, lid := 1, world := 1, cluster := 0
    policy := .cc, cc := true, scope := none, key := 0, core := 0, epoch := 0, pte := none, disc := none }
def writing (wct : Option Nat) (op : AccOp := .store) : State := owing op (fun p => { p with writes := [write0 wct] })
theorem wit_storeArrives : ∃ x ∈ (writing none).here.writes, x.acc = 4 ∧ (writing none).here.mayArriveHome x = true :=
  ⟨write0 none, by decide, rfl, by decide⟩
/-- The WCT is reached. -/
theorem wit_wctReached : (writing (some 0)).here.wf = true ∧ ((writing (some 0)).here.writes.map (·.id)).Nodup ∧
    (∀ x ∈ (writing (some 0)).here.writes, x.disc = none ∧ (x.cells.map (·.1)).Nodup) ∧ dueAt (writing (some 0)).here (lineOf 0x30000) ≠ [] :=
  ⟨by decide, by decide, by decide, by decide⟩

theorem wit_fillServe : ∃ (a : Acc) (o : LoadOp), 4 < 2 ^ 64 ∧ (owing (.load (load0 .sent))).here.acc? 4 = some a ∧ a.op = .load o ∧ o.peer = none :=
  ⟨_, _, by decide, rfl, rfl, rfl⟩
theorem wit_fillAtOnce : ∃ (p : Package) (a : Acc) (o : LoadOp), o.stage = .sent ∧ p.podHeld (p.worldId a.team) o = false ∧ p.earlierRead ⟨a.team, a.lid⟩ a.id o.pa o.n = false ∧
    o.policy = .cc ∧ (p.lostMiss a o).answers (p.worldId a.team) (lineOf o.pa) a.cluster = none ∧
    ((p.lostMiss a o).noteFill (p.worldId a.team) (lineOf o.pa) a.cluster).pendingWct (lineOf o.pa) = 0 :=
  ⟨(owing (.load (load0 .sent))).here, acc4 (.load (load0 .sent)), load0 .sent, rfl, by decide, by decide, rfl, by decide, by decide⟩
/-- A store is pending on the line. -/
theorem wit_fillPending : ∃ (p : Package) (a : Acc) (o : LoadOp), o.stage = .sent ∧ p.podHeld (p.worldId a.team) o = false ∧ p.earlierRead ⟨a.team, a.lid⟩ a.id o.pa o.n = false ∧
    o.policy = .cc ∧ (p.lostMiss a o).answers (p.worldId a.team) (lineOf o.pa) a.cluster = none ∧
    ((p.lostMiss a o).noteFill (p.worldId a.team) (lineOf o.pa) a.cluster).pendingWct (lineOf o.pa) ≠ 0 ∧
    ((p.lostMiss a o).noteFill (p.worldId a.team) (lineOf o.pa) a.cluster).hasCache a.cluster = true :=
  ⟨(writing (some 5) (.load (load0 .sent))).here, acc4 (.load (load0 .sent)), load0 .sent, rfl, by decide, by decide, rfl, by decide, by decide, by decide⟩
theorem wit_fillWaits : ∃ (p : Package) (a : Acc) (o : LoadOp), o.stage = .waiting 5 ∧ p.podHeld (p.worldId a.team) o = false ∧
    p.earlierRead ⟨a.team, a.lid⟩ a.id o.pa o.n = false :=
  ⟨(owing (.load (load0 (.waiting 5)))).here, acc4 (.load (load0 (.waiting 5))), load0 (.waiting 5), rfl, by decide, by decide⟩
theorem wit_serveHere : ∃ (p : Package) (a : Acc) (o : LoadOp), o.policy = .cc ∧ p.hasCache a.cluster = true ∧ podMode o.mode = false ∧ o.scope = none :=
  ⟨(owing (.load (load0 .sent))).here, acc4 (.load (load0 .sent)), load0 .sent, rfl, by decide, rfl, rfl⟩
/-- A load of a page of the pod whose home is this package, which applies a step. -/
def applying (f : Package → Package := id) : State := idle (fun p => f { p with worlds := p.worlds.map (fun (x : World) =>
  { x with tide := x.tide.map (fun t => { t with state := .applying }) }) })
theorem wit_fillHeld : ∃ (p : Package) (a : Acc) (o : LoadOp), p.podHeld (p.worldId a.team) o = true :=
  ⟨applying.here, acc4 (.load (load0 .sent)), { load0 .sent with mode := 2 }, by decide⟩
/-- A remote load from package 1. -/
def asks (mode : Nat) (step : Option Nat) (wait : Nat) : Packet :=
  { src := 1, dst := 0, seq := 0, world := 1, key := 0, msg := .loadReq 4 0x30000 4 mode step 0x30000 2 (some .pkg) 9 wait }
/-- What the inbox holds of it, and whether its step is held. -/
def Asks (s : State) (mode : Nat) (step : Option Nat) (wait : Nat) (held : Bool) : Prop :=
  ∃ (m : Packet) (x : World), s.here.inboxAt 0 = some m ∧ s.here.world? m.world = some x ∧
    m.msg = .loadReq 4 0x30000 4 mode step 0x30000 2 (some .pkg) 9 wait ∧ 4 ≠ nobody ∧ step.any (fun n => x.tide.any (fun t => !t.serves n)) = held
/-- The step of the load is applied. -/
theorem wit_remoteHeld : Asks (applying (fun p => { p with inbox := [asks 1 (some 4) 0] })) 1 (some 4) 0 true := ⟨_, _, rfl, rfl, rfl, by decide, by decide⟩
/-- A store is pending on the line. -/
theorem wit_remotePending : Asks (on (writing (some 5)) (fun p => { p with inbox := [asks 3 none 0] })) 3 none 0 false ∧
    (on (writing (some 5)) (fun p => { p with inbox := [asks 3 none 0] })).here.pendingWct (lineOf 0x30000) ≠ 0 :=
  ⟨⟨_, _, rfl, rfl, rfl, by decide, by decide⟩, by decide⟩
theorem wit_remoteWaits : Asks (idle (fun p => { p with now := 4, inbox := [asks 3 none 5] })) 3 none 5 false := ⟨_, _, rfl, rfl, rfl, by decide, by decide⟩
/-- At the very cycle of its WCT. -/
theorem wit_remoteLoad : Asks (idle (fun p => { p with now := 5, inbox := [asks 3 none 5] })) 3 none 5 false := ⟨_, _, rfl, rfl, rfl, by decide, by decide⟩
theorem wit_remotePod : Asks (idle (fun p => { p with inbox := [asks 1 (some 4) 0] })) 1 (some 4) 0 false := ⟨_, _, rfl, rfl, rfl, by decide, by decide⟩
/-- The copy's lease ended in the cycle before; a delivery waits to be sent, and to enter. -/
def leased (sent : Bool) : State :=
  idle (fun p => { p with
    now := 1025
    dels := [{ id := 6, man := none, line := lineOf 0x30000, wct := 1025, dests := [0], sent }]
    lines := [{ addr := lineOf 0x30000, inL2 := true, maxl := 1024, last := 0, scope := none, tag := 0, writer := none
                copies := [{ cluster := 0, world := 1, lease := 1024, core := 0, gang := 0, delivered := none, read := false, pod := false, free := false }] }] })
theorem wit_leaseEnd : ∃ x ∈ ((leased false).here.line (lineOf 0x30000)).copies, x.cluster = 0 ∧ x.free = false ∧ x.lease < (leased false).here.now :=
  ⟨_, List.mem_cons_self, rfl, rfl, by decide⟩
theorem wit_deliverySend : ∃ d, (leased false).here.dels.find? (fun d => d.id == 6) = some d ∧ d.sent = false ∧ d.wct ≤ (leased false).here.now :=
  ⟨_, rfl, rfl, by decide⟩
theorem wit_deliveryEnter : ∃ d, (leased true).here.dels.find? (fun d => d.id == 6) = some d ∧ d.sent = true ∧ d.dests ≠ [] := ⟨_, rfl, rfl, by decide⟩

/-! #### Traps and pre-emption -/

/-- A lane thread, and the pilot. -/
theorem wit_trapEntry : ∃ (tm : Team) (th : Thread) (x : World) (base : Nat), idle.here.team? 0 = some tm ∧ idle.here.thread? ⟨0, 1⟩ = some th ∧
    idle.here.world? tm.world = some x ∧ tm.frameBase = some base ∧ x.trapVec ≠ 0 ∧ 2 ≤ th.ops.length ∧
    (∃ lo p₁ lx p₂, idle.here.labelFor (idle.here.joinOf ((tm.trapSaved th).map (·.lbl))) = some (lo, p₁) ∧
      p₁.labelFor (p₁.joinOf (if th.lid = 0 then [] else [th.x0.lbl, th.x1.lbl])) = some (lx, p₂)) :=
  ⟨_, _, _, _, rfl, rfl, rfl, rfl, by decide, by decide, _, _, _, _, rfl, rfl⟩
theorem wit_trapEntry_pilot : ∃ (tm : Team) (th : Thread) (x : World) (base : Nat), idle.here.team? 0 = some tm ∧ idle.here.thread? ⟨0, 0⟩ = some th ∧
    idle.here.world? tm.world = some x ∧ tm.frameBase = some base ∧ x.pilotVec ≠ 0 ∧ 258 ≤ tm.sregs.length ∧
    (∃ lo p₁ lx p₂, idle.here.labelFor (idle.here.joinOf ((tm.trapSaved th).map (·.lbl))) = some (lo, p₁) ∧
      p₁.labelFor (p₁.joinOf (if th.lid = 0 then [] else [th.x0.lbl, th.x1.lbl])) = some (lx, p₂)) :=
  ⟨_, _, _, _, rfl, rfl, rfl, rfl, by decide, by decide, _, _, _, _, rfl, rfl⟩

/-- The lane thread in another status, in a space whose tables map the first 1 GiB. -/
def standing (st : TStatus) : State := on queued (fun p => p.setThread ⟨0, 1⟩ (fun th => { th with status := st }))
theorem wit_trapEntryEvent : ∃ (th : Thread) (r : TrapReq),
    (standing (.trapping { cause := .soft, pc := 0x1004, va := 0, vmask := 0, lbl := 0, aux := 3, resume := ⟨0x1000, some 0x1004⟩, skip := none })).here.thread? ⟨0, 1⟩ = some th ∧
    th.status = .trapping r ∧
    (standing (.trapping { cause := .soft, pc := 0x1004, va := 0, vmask := 0, lbl := 0, aux := 3, resume := ⟨0x1000, some 0x1004⟩, skip := none })).here.trapWaits ⟨0, 1⟩ = false :=
  ⟨_, _, rfl, rfl, by decide⟩
/-- The last page that the tables map. -/
theorem wit_pageResident : ∃ (th : Thread) (tm : Team), (standing (.faulted 0x3FFFFFFF 0 false false)).here.thread? ⟨0, 1⟩ = some th ∧
    (standing (.faulted 0x3FFFFFFF 0 false false)).here.team? 0 = some tm ∧ th.status = .faulted 0x3FFFFFFF 0 false false ∧
    (standing (.faulted 0x3FFFFFFF 0 false false)).here.stillPage 0 0x3FFFFFFF = false ∧ tm.residence ≠ .saved :=
  ⟨_, _, rfl, rfl, rfl, by decide +kernel, by decide⟩
theorem wit_pageDeliver : ∃ (th : Thread) (tm : Team), (standing (.faulted 0x40000000 0 true false)).here.thread? ⟨0, 1⟩ = some th ∧
    (standing (.faulted 0x40000000 0 true false)).here.team? 0 = some tm ∧ th.status = .faulted 0x40000000 0 true false ∧ tm.residence ≠ .saved :=
  ⟨_, _, rfl, rfl, rfl, by decide⟩
theorem wit_uncorrectable : ∃ (s : State) (a : Acc) (o : LoadOp), s.here.acc? 4 = some a ∧ a.op = .load o ∧ o.stage = .bad 1 :=
  ⟨owing (.load (load0 (.bad 1))), _, _, rfl, rfl, rfl⟩
/-- Of two errors, the first was made in trap mode. -/
theorem wit_takeError : ∃ (th : Thread) (e : DefErr), (idle (fun p => p.setThread ⟨0, 1⟩ (fun th =>
      { th with errs := [{ pc := 0x1004, va := 0x10000, vmask := 0, aux := 1, trapped := true }, { pc := 0x1004, va := 0x10000, vmask := 0, aux := 2, trapped := false }] }))).here.thread? ⟨0, 1⟩
      = some th ∧ th.errs.find? (fun e => e.trapped || th.trap.isNone) = some e := ⟨_, _, rfl, rfl⟩

/-- The team in another residence. -/
def residing (r : Residence) : State := on queued (fun p => p.setTeam 0 (fun tm => { tm with residence := r, saved := [filed] }))
theorem wit_preempt : ∃ tm, (residing .resident).here.team? 0 = some tm ∧ tm.ended = false ∧ tm.residence = .resident := ⟨_, rfl, rfl, rfl⟩
theorem wit_preemptStops : ∃ (x : Gang) (tm : Team), (residing .saving).here.gang? gang0.core gang0.id gang0.team = some x ∧
    (residing .saving).here.team? x.team = some tm ∧ tm.residence = .saving ∧ x.held = none := ⟨_, _, rfl, rfl, rfl, rfl⟩
/-- A thread in a gang, and one in a berth. -/
theorem wit_pullGang : ∃ (tm : Team) (th : Thread), (residing .saving).here.team? 0 = some tm ∧ (residing .saving).here.thread? ⟨0, 1⟩ = some th ∧
    th.status = .gang 0 0 := ⟨_, _, rfl, rfl, rfl⟩
theorem wit_pullFiled : ∃ (s : State) (tm : Team) (th : Thread), s.here.team? 0 = some tm ∧ s.here.thread? ⟨0, 1⟩ = some th ∧ th.status = .filed ∧
    (∃ x ∈ s.here.parts, ∃ e ∈ x.berths ++ x.queue, e.team = 0 ∧ e.lid = 1) :=
  ⟨on (standing .filed) (fun p => { p with parts := [{ core := 0, part := 0, berths := [filed], queue := [] }] }), _, _, rfl, rfl, rfl,
    _, List.mem_cons_self, filed, List.mem_cons_self, rfl, rfl⟩
theorem wit_preemptSave : ∃ tm, (residing .saving).here.team? 0 = some tm ∧ tm.residence = .saving ∧ (residing .saving).here.saveReady tm = true :=
  ⟨_, rfl, rfl, by decide⟩
/-- On another core of the cluster. -/
theorem wit_resume : ∃ (tm : Team) (x : World), (residing .saved).here.team? 0 = some tm ∧ (residing .saved).here.world? tm.world = some x ∧
    tm.residence = .saved ∧ (residing .saved).here.coresFit tm [3] = true :=
  ⟨_, _, rfl, rfl, rfl, by decide⟩


/-! #### Jobs, tides and the fabric -/

/-- A copy of one granule from 0x30000 to 0x30040, accepted as job 4, in the space of `queued`. -/
def job4 (kind : JobKind) (card : Nat) : Job :=
  { Job.blank with id := 4, kind, team := 0, lid := 1, world := 1, space := 3, card, cardVa := 0x30080, sent := true, gid := 5, seq := 2 }
def copyCard (mode : Nat) : Nat := 0x30000 / 32 * 2 ^ 12 + mode * 2 ^ 124 + region 0 0 1 * 2 ^ 128 + region 0 2 1 * 2 ^ 384
def working (j : Job) (f : Package → Package := id) : State := on queued (fun p => f { p with jobs := [j] })

/-- Bytes whose write is over wait to be counted. -/
theorem wit_arrivalsDue : ∃ j, (working { job4 .cpy (copyCard 0) with arrivals := [⟨32, [9]⟩] }).here.jobs.find? (fun j => j.id == 4) = some j ∧
    (working { job4 .cpy (copyCard 0) with arrivals := [⟨32, [9]⟩] }).here.dueArrivals j ≠ [] := ⟨_, rfl, by decide⟩
theorem wit_copyRuns : ∃ j, (working (job4 .cpy (copyCard 0))).here.jobs.find? (fun j => j.id == 4) = some j ∧ (working (job4 .cpy (copyCard 0))).here.dueArrivals j = [] ∧
    j.done = false ∧ (working (job4 .cpy (copyCard 0))).here.mayRun j = true ∧ j.kind = .cpy ∧ cpyMode j.card = 0 ∧
    j.nextPieces j.shape j.srcAddr j.dstAddr ≠ [] := ⟨_, rfl, rfl, rfl, by decide, rfl, by decide +kernel, by decide +kernel⟩
theorem wit_sparseRuns : ∃ j, (working (job4 .cpy (copyCard 2))).here.jobs.find? (fun j => j.id == 4) = some j ∧ (working (job4 .cpy (copyCard 2))).here.dueArrivals j = [] ∧
    j.done = false ∧ (working (job4 .cpy (copyCard 2))).here.mayRun j = true ∧ j.kind = .cpy ∧ cpyMode j.card = 2 ∧ j.seg < (cardRegion j.card 0).len :=
  ⟨_, rfl, rfl, rfl, by decide, rfl, by decide +kernel, by decide +kernel⟩
theorem wit_cpymRuns : ∃ j, (working (job4 (.cpym 15) (copyCard 0))).here.jobs.find? (fun j => j.id == 4) = some j ∧
    (working (job4 (.cpym 15) (copyCard 0))).here.dueArrivals j = [] ∧ j.done = false ∧ (working (job4 (.cpym 15) (copyCard 0))).here.mayRun j = true ∧
    j.kind = .cpym 15 ∧ j.nextPieces j.shape j.srcAddr j.dstAddr ≠ [] := ⟨_, rfl, rfl, rfl, by decide, rfl, by decide +kernel⟩
theorem wit_xpermRuns : ∃ j, (working (job4 .xperm (copyCard 0))).here.jobs.find? (fun j => j.id == 4) = some j ∧ (working (job4 .xperm (copyCard 0))).here.dueArrivals j = [] ∧
    j.done = false ∧ (working (job4 .xperm (copyCard 0))).here.mayRun j = true ∧ j.kind = .xperm ∧ j.sent = true ∧ j.nextPieces j.shape j.srcAddr j.srcAddr ≠ [] :=
  ⟨_, rfl, rfl, rfl, by decide, rfl, rfl, by decide +kernel⟩
theorem wit_collRuns : ∃ j, (working (job4 (.coll (some 63)) 0)).here.jobs.find? (fun j => j.id == 4) = some j ∧ (working (job4 (.coll (some 63)) 0)).here.dueArrivals j = [] ∧
    j.done = false ∧ (working (job4 (.coll (some 63)) 0)).here.mayRun j = true ∧ j.kind = .coll (some 63) := ⟨_, rfl, rfl, rfl, by decide, rfl⟩
/-- An engine's work that is done, that waits, and that fails. -/
theorem wit_engRun : ∃ (m₁ m₂ m₃ : EM Unit) (q : Package), m₁ queued.here = .ok ((), q) ∧ m₂ queued.here = .error .wait ∧ m₃ queued.here = .error (.status 2) :=
  ⟨pure (), engWait, engFail 2, _, rfl, rfl, rfl⟩
theorem wit_cpyPiece : ∃ (gs : List (Nat × Mask)) (p₁ : Package) (ids : List Nat) (q : Package),
    cpyMode (copyCard 0) = 0 ∧ (job4 .cpy (copyCard 0)).layout = none ∧ (cardRegion (copyCard 0) 4).sp = false ∧ cardAw (copyCard 0) = false ∧
    (cardRegion (copyCard 0) 0).len = (cardRegion (copyCard 0) 4).len ∧
    (let j := job4 .cpy (copyCard 0)
     let c := j.shape.piece j.srcAddr j.dstAddr 0
     c.row = 0 ∧ engGranules [] j (cardRegion j.card 0).sp ((j.srcAddr + 32 * c.g) % 2 ^ 64) c.n (working j).here = .ok (gs, p₁) ∧
     engWriteVa [] j ((j.dstAddr + 32 * c.g) % 2 ^ 64) (fun i => j.podSeq + p₁.recordsBefore j c.row (c.g + i)) gs p₁ = .ok (.wrote ids, q)) := by
  have h : (let j := job4 .cpy (copyCard 0)
      let c := j.shape.piece j.srcAddr j.dstAddr 0
      match engGranules [] j (cardRegion j.card 0).sp ((j.srcAddr + 32 * c.g) % 2 ^ 64) c.n (working j).here with
      | .ok (gs, p₁) =>
        (match engWriteVa [] j ((j.dstAddr + 32 * c.g) % 2 ^ 64) (fun i => j.podSeq + p₁.recordsBefore j c.row (c.g + i)) gs p₁ with
        | .ok (.wrote _, _) => true
        | _ => false)
      | .error _ => false) = true := by decide +kernel
  dsimp only at h
  split at h
  · rename_i gs p₁ h₁
    split at h
    · rename_i ids q h₂
      exact ⟨gs, p₁, ids, q, by decide +kernel, rfl, by decide +kernel, by decide +kernel, by decide +kernel, by decide +kernel, h₁, h₂⟩
    · cases h
  · cases h

/-- Group 5 of two members, with the headers of SEQ 2 that it holds, and the job of its collective. -/
def grouped (hs : List CollHead) (opened : Bool) : State :=
  working { job4 (.coll (some 63)) 0 with opened } (fun p => { p with
    groups := [{ id := 5, seq := 3, rank := 0, world := 1, state := 1, gen := 0, used := 0, members := [0, 1], mlist := 0, acks := [], heads := hs, datas := [] }] })
theorem wit_headerRound : ∃ g, (grouped [⟨2, 0, 7, false⟩, ⟨2, 1, 7, false⟩] false).here.groups.find? (fun g => g.id == 5) = some g ∧
    ∀ r < g.members.length, ∃ h ∈ g.heads.filter (fun h => h.seq == 2), h.rank = r :=
  ⟨_, rfl, by decide⟩
theorem wit_contribution : ∃ (j : Job) (g : Group) (peers : List (PeerState × Nat)), (grouped [] true).here.jobs.find? (fun j => j.id == 4) = some j ∧
    (grouped [] true).here.collPeers j = some (g, peers) ∧ j.done = false ∧ j.opened = true ∧ j.destDone peers.length = false :=
  ⟨_, _, _, rfl, rfl, rfl, rfl, by decide⟩
theorem wit_jobStatus : ∃ j, (working { job4 .cpy (copyCard 0) with done := true }).here.jobs.find? (fun j => j.id == 4) = some j ∧
    (working { job4 .cpy (copyCard 0) with done := true }).here.dueArrivals j = [] ∧ (working { job4 .cpy (copyCard 0) with done := true }).here.jobQuiet j = true ∧
    j.kind ≠ .chunk ∧ j.posted = false ∧ (j.kind = .xperm → j.opened = false ∨ j.status = 6) :=
  ⟨_, rfl, rfl, by decide, by decide, rfl, fun h => by cases h⟩
/-- The card can be written; its page is not resident; its address is not canonical. -/
theorem wit_statusWrite : ∃ (x : Xlat) (pa : Nat) (p₁ : Package),
    engAccess [] (job4 .cpy (copyCard 0)) 0x30080 .store (working (job4 .cpy (copyCard 0))).here = .ok ((x, pa, none), p₁) ∧ x.pod = false ∧
    dominates (p₁.maskOf (p₁.homeLabel (granuleOf pa))) (job4 .cpy (copyCard 0)).mask = true := by
  have h : (match engAccess [] (job4 .cpy (copyCard 0)) 0x30080 .store (working (job4 .cpy (copyCard 0))).here with
      | .ok ((x, pa, none), p₁) => x.pod = false ∧ dominates (p₁.maskOf (p₁.homeLabel (granuleOf pa))) (job4 .cpy (copyCard 0)).mask = true
      | _ => False) := by
    have h : (match engAccess [] (job4 .cpy (copyCard 0)) 0x30080 .store (working (job4 .cpy (copyCard 0))).here with
      | .ok ((x, pa, none), p₁) => !x.pod && dominates (p₁.maskOf (p₁.homeLabel (granuleOf pa))) (job4 .cpy (copyCard 0)).mask
      | _ => false) = true := by decide +kernel
    split at h
    · simpa using h
    · cases h
  split at h
  · exact ⟨_, _, _, ‹_›, h⟩
  · exact h.elim
/-- How an engine's work stops. -/
def stopOf (m : EM Unit) (p : Package) : Option EStop :=
  match m p with
  | .ok _ => none
  | .error e => some e
theorem stopOf_error {m : EM Unit} {p : Package} {e : EStop} (h : stopOf m p = some e) : m p = .error e := by
  unfold stopOf at h
  split at h
  · cases h
  · next e' he => cases h; exact he
theorem wit_statusWaits : statusWrite [] { job4 .cpy (copyCard 0) with cardVa := 0x40000000 } 1 (working (job4 .cpy (copyCard 0))).here = .error .wait :=
  stopOf_error (by decide +kernel)
theorem wit_statusFails : statusWrite [] { job4 .cpy (copyCard 0) with cardVa := 2 ^ 60 } 1 (working (job4 .cpy (copyCard 0))).here = .error (.status 3) :=
  stopOf_error (by decide +kernel)
theorem wit_jobEnds : ∃ j, (working { job4 .cpy (copyCard 0) with done := true, posted := true }).here.jobs.find? (fun j => j.id == 4) = some j ∧
    (working { job4 .cpy (copyCard 0) with done := true, posted := true }).here.dueArrivals j = [] ∧
    (working { job4 .cpy (copyCard 0) with done := true, posted := true }).here.jobQuiet j = true ∧ j.kind ≠ .chunk ∧ j.posted = true :=
  ⟨_, rfl, rfl, by decide, by decide, rfl⟩
theorem wit_chunkEnds : ∃ j, (working { job4 .chunk 0 with done := true }).here.jobs.find? (fun j => j.id == 4) = some j ∧
    (working { job4 .chunk 0 with done := true }).here.dueArrivals j = [] ∧ (working { job4 .chunk 0 with done := true }).here.jobQuiet j = true ∧ j.kind = .chunk :=
  ⟨_, rfl, rfl, by decide, rfl⟩

/-- A record of a step, and a bulk write. -/
def merge0 (step : Nat) : MergeRec :=
  { step, pkg := 1, team := 0, lid := 1, depth := 0, seq := 0, rule := 7, emask := 0, pa := 0x40000, lbl := 0, val := 1, mask := 0
    grid := 0, ord := 0 }
def bulk0 (step : Nat) : Bulk := { step, pkg := 1, page := 0x40000, size := 65536, off := 0, data := [1], mask := 0, spill := false }
/-- A packet from package 1 at the head of the inbox, with the world's tide as `f` makes it. -/
def mailed (msg : Msg) (f : Tide → Tide := id) (g : World → World := id) (h : Package → Package := id) : State :=
  on lane (fun p => h { p with
    inbox := [{ src := 1, dst := 0, seq := 0, world := 1, key := 0, msg }]
    worlds := p.worlds.map (fun (x : World) => g { x with tide := x.tide.map f }) })

/-- Records of the running step, and of the next one across the wrap. -/
theorem wit_record : ∃ (m : Packet) (x : World) (t : Tide), (mailed (.record (merge0 4) 4)).here.inboxAt 0 = some m ∧ m.msg = .record (merge0 4) 4 ∧
    (mailed (.record (merge0 4) 4)).here.world? m.world = some x ∧ x.tide = some t ∧ (merge0 4).step = t.step := ⟨_, _, _, rfl, rfl, rfl, rfl, rfl⟩
theorem wit_record_next : ∃ (m : Packet) (x : World) (t : Tide), (mailed (.record (merge0 0) 4) (fun t => { t with step := 0xFFFFFFFF })).here.inboxAt 0 = some m ∧
    m.msg = .record (merge0 0) 4 ∧ (mailed (.record (merge0 0) 4) (fun t => { t with step := 0xFFFFFFFF })).here.world? m.world = some x ∧ x.tide = some t ∧
    (merge0 0).step = (t.step + 1) % 2 ^ 32 := ⟨_, _, _, rfl, rfl, rfl, rfl, by decide⟩
/-- Room in the buffer; room in the spill area alone; no room; no free label. -/
theorem wit_acceptMerge : ∃ (p : Package) (x y : World) (t : Tide) (lbl : Lbl) (p₁ : Package), p.labelFor (merge0 4).mask = some (lbl, p₁) ∧ (merge0 4).step = t.step ∧
    t.recs.length < x.halfRecords ∧ y.halfRecords ≤ t.recs.length ∧ y.halfSpill ≤ t.spill.length :=
  ⟨lane.here, { World.blank 1 with share := 1 }, World.blank 1, (lane.here.tideOf 1).get rfl, _, _, rfl, rfl, by decide, by decide, by decide⟩
theorem wit_acceptSpill : ∃ (x : World) (t : Tide), x.halfRecords ≤ t.recs.length ∧ t.spill.length < x.halfSpill ∧ t.step = 4 :=
  ⟨{ World.blank 1 with spillUnits := 1 }, (lane.here.tideOf 1).get rfl, by decide, by decide, rfl⟩
theorem wit_acceptNext : ∃ (p : Package) (x y : World) (t : Tide) (lbl : Lbl) (p₁ : Package), p.labelFor (merge0 5).mask = some (lbl, p₁) ∧ (merge0 5).step ≠ t.step ∧
    t.nextRecs.length + t.bulkUnits false < x.halfRecords ∧ y.halfRecords ≤ t.nextRecs.length + t.bulkUnits false ∧
    y.halfSpill ≤ t.nextSpill.length + t.bulkUnits true :=
  ⟨lane.here, { World.blank 1 with share := 1 }, World.blank 1, (lane.here.tideOf 1).get rfl, _, _, rfl, by decide, by decide, by decide, by decide⟩
theorem wit_acceptNextSpill : ∃ (x : World) (t : Tide), x.halfRecords ≤ t.nextRecs.length + t.bulkUnits false ∧
    t.nextSpill.length + t.bulkUnits true < x.halfSpill ∧ (merge0 5).step ≠ t.step :=
  ⟨{ World.blank 1 with spillUnits := 1 }, (lane.here.tideOf 1).get rfl, by decide, by decide, by decide⟩
theorem wit_acceptFull : ∃ (p : Package) (r : MergeRec), p.labelFor r.mask = none :=
  ⟨{ lane.here with labels := fullTable 1 }, merge0 4, labelFor_full _ _ _ (by decide)⟩
theorem wit_spillWrite : ∃ x : World, lane.here.wf = true ∧ x.spillBase ≠ 0 := ⟨{ World.blank 1 with spillBase := 2 ^ 30 }, by decide, by decide⟩
theorem wit_bulk : ∃ (m : Packet) (x : World) (t : Tide), (mailed (.bulk (bulk0 4) 4)).here.inboxAt 0 = some m ∧ m.msg = .bulk (bulk0 4) 4 ∧
    (mailed (.bulk (bulk0 4) 4)).here.world? m.world = some x ∧ x.tide = some t ∧ (bulk0 4).step = t.step := ⟨_, _, _, rfl, rfl, rfl, rfl, rfl⟩
/-- A write of the step; one of the next step into a share of 1 MiB, into a spill area of 1 MiB, and without either. -/
theorem wit_acceptBulk : ∃ (p : Package) (x y z : World) (t : Tide) (lbl : Lbl) (p₁ : Package), p.labelFor (bulk0 5).mask = some (lbl, p₁) ∧ (bulk0 5).step ≠ t.step ∧
    (bulk0 4).step = t.step ∧ t.nextRecs.length + t.bulkUnits false + ((bulk0 5).data.length + 31) / 32 ≤ x.halfRecords ∧
    y.halfRecords < t.nextRecs.length + t.bulkUnits false + ((bulk0 5).data.length + 31) / 32 ∧
    t.nextSpill.length + t.bulkUnits true + ((bulk0 5).data.length + 31) / 32 ≤ y.halfSpill ∧
    z.halfRecords < t.nextRecs.length + t.bulkUnits false + ((bulk0 5).data.length + 31) / 32 ∧
    z.halfSpill < t.nextSpill.length + t.bulkUnits true + ((bulk0 5).data.length + 31) / 32 :=
  ⟨lane.here, { World.blank 1 with share := 1 }, { World.blank 1 with spillUnits := 1 }, World.blank 1, (lane.here.tideOf 1).get rfl, _, _, rfl, by decide, rfl,
    by decide, by decide, by decide, by decide, by decide⟩
theorem wit_writeShadow : ((World.blank 1).shadowOf 0x40000 65536).size = (bulk0 4).size ∧ (bulk0 4).off + (bulk0 4).data.length ≤ (bulk0 4).size := by decide
theorem wit_ack : ∃ (m : Packet), (mailed (.ack 4 4 true false)).here.inboxAt 0 = some m ∧ m.msg = .ack 4 4 true false := ⟨_, rfl, rfl⟩
theorem wit_refused : ∃ (m : Packet), (mailed (.refused 4)).here.inboxAt 0 = some m ∧ m.msg = .refused 4 := ⟨_, rfl, rfl⟩

theorem wit_packageArrive : ∃ t, lane.here.tideOf 1 = some t ∧ t.state = .running ∧ lane.here.mayArrive 1 t = true := ⟨_, rfl, rfl, by decide⟩
/-- The first member of the group to report, and the last. -/
theorem wit_arrive_first : ∃ (m : Packet) (x : World) (t : Tide), (mailed (.arrive 1 false 4 Causes.none)).here.inboxAt 0 = some m ∧ m.msg = .arrive 1 false 4 Causes.none ∧
    (mailed (.arrive 1 false 4 Causes.none)).here.world? m.world = some x ∧ x.tide = some t ∧
    ¬∀ j < t.size, t.groups.getD j 0 = t.groups.getD t.me 0 → j ∈ adjoin 1 t.members := ⟨_, _, _, rfl, rfl, rfl, rfl, by decide⟩
theorem wit_arrive_last : ∃ (m : Packet) (x : World) (t : Tide), (mailed (.arrive 1 false 4 Causes.none) (fun t => { t with members := [0] })).here.inboxAt 0 = some m ∧
    m.msg = .arrive 1 false 4 Causes.none ∧ (mailed (.arrive 1 false 4 Causes.none) (fun t => { t with members := [0] })).here.world? m.world = some x ∧ x.tide = some t ∧
    ∀ j < t.size, t.groups.getD j 0 = t.groups.getD t.me 0 → j ∈ adjoin 1 t.members := ⟨_, _, _, rfl, rfl, rfl, rfl, by decide⟩
theorem wit_root_last : ∃ (m : Packet) (x : World) (t : Tide), (mailed (.arrive 0 true 4 Causes.none)).here.inboxAt 0 = some m ∧ m.msg = .arrive 0 true 4 Causes.none ∧
    (mailed (.arrive 0 true 4 Causes.none)).here.world? m.world = some x ∧ x.tide = some t ∧ (∀ j ∈ t.combiners, j ∈ adjoin 0 t.roots) ∧
    (mailed (.arrive 0 true 4 Causes.none)).here.allReachable [] m.world t = true := ⟨_, _, _, rfl, rfl, rfl, rfl, by decide, by decide⟩
/-- A member is absent: without a reset the root waits; with one it releases. -/
theorem wit_root_waits : ∃ (m : Packet) (x : World) (t : Tide),
    (mailed (.arrive 0 true 4 Causes.none) id (fun x => { x with peers := [{ logical := 1, phys := 1, state := .absent }] })).here.inboxAt 0 = some m ∧
    m.msg = .arrive 0 true 4 Causes.none ∧
    (mailed (.arrive 0 true 4 Causes.none) id (fun x => { x with peers := [{ logical := 1, phys := 1, state := .absent }] })).here.world? m.world = some x ∧
    x.tide = some t ∧ (∀ j ∈ t.combiners, j ∈ adjoin 0 t.roots) ∧
    (mailed (.arrive 0 true 4 Causes.none) id (fun x => { x with peers := [{ logical := 1, phys := 1, state := .absent }] })).here.allReachable [] m.world t = false ∧
    (t.rootMerged.join Causes.none).reset = none ∧ (t.rootMerged.join { Causes.none with reset := some 1 }).reset ≠ none :=
  ⟨_, _, _, rfl, rfl, rfl, rfl, by decide, by decide, rfl, by decide⟩
/-- Two groups, and the second has not reported. -/
theorem wit_root_first : ∃ (m : Packet) (x : World) (t : Tide), (mailed (.arrive 0 true 4 Causes.none) (fun t => { t with groups := [0, 1] })).here.inboxAt 0 = some m ∧
    m.msg = .arrive 0 true 4 Causes.none ∧ (mailed (.arrive 0 true 4 Causes.none) (fun t => { t with groups := [0, 1] })).here.world? m.world = some x ∧ x.tide = some t ∧
    ¬∀ j ∈ t.combiners, j ∈ adjoin 0 t.roots := ⟨_, _, _, rfl, rfl, rfl, rfl, by decide⟩
/-- COMPLETE, and an abort. -/
theorem wit_release (st : Nat) : ∃ (m : Packet) (t : Tide), (mailed (.release false 4 st 0) (fun t => { t with state := .arrived })).here.inboxAt 0 = some m ∧
    m.msg = .release false 4 st 0 ∧ (mailed (.release false 4 st 0) (fun t => { t with state := .arrived })).here.tideOf m.world = some t ∧ t.state = .arrived ∧ 4 = t.step :=
  ⟨_, _, rfl, rfl, rfl, rfl, rfl⟩
theorem wit_release_group : ∃ (m : Packet) (t : Tide), (mailed (.release true 4 0 0)).here.inboxAt 0 = some m ∧ m.msg = .release true 4 0 0 ∧
    (mailed (.release true 4 0 0)).here.tideOf m.world = some t := ⟨_, _, rfl, rfl, rfl⟩
def tidal (f : Tide → Tide) : State := mailed (.drain 0) f
theorem wit_applyDone : ∃ t, (tidal (fun t => { t with state := .applying })).here.tideOf 1 = some t ∧ t.state = .applying := ⟨_, rfl, rfl⟩
/-- With an XPERM of the step that waits. -/
theorem wit_tideClose : ∃ t, (on (tidal (fun t => { t with state := .closing })) (fun p => { p with jobs := [{ job4 .xperm 0 with step := 4, opened := true }] })).here.tideOf 1 = some t ∧
    t.state = .closing ∧ t.status ≠ 3 ∧ t.nextBulk = [] ∧ (∀ p ∈ [(tidal (fun t => { t with state := .closing })).here], p.movesDue 1 t.step = false) ∧
    (∀ x, (tidal (fun t => { t with state := .closing })).here.world? 1 = some x → x.resetting = false) ∧
    ∃ j ∈ (on (tidal (fun t => { t with state := .closing })) (fun p => { p with jobs := [{ job4 .xperm 0 with step := 4, opened := true }] })).here.jobs,
      j.world = 1 ∧ j.kind = .xperm ∧ j.step = t.step ∧ j.opened = true :=
  ⟨_, rfl, rfl, by decide, rfl, by decide, (fun x h => by cases h; rfl), _, List.mem_cons_self, rfl, rfl, rfl, rfl⟩
theorem wit_giveResults : ∃ (p : Package) (a : Acc) (tm : Team), p.accs = [a] ∧ p.team? a.team = some tm ∧ tm.world = 1 ∧ a.op = .tide (.main 4) 0 :=
  ⟨{ lane.here with accs := [acc4 (.tide (.main 4) 0)] }, _, _, rfl, rfl, rfl, rfl⟩
theorem wit_tideClose_reset : ∃ t, (tidal (fun t => { t with state := .closing, status := 3 })).here.tideOf 1 = some t ∧ t.state = .closing ∧ t.status = 3 ∧
    ∀ p ∈ [(tidal (fun t => { t with state := .closing, status := 3 })).here], p.movesDue 1 t.step = false := ⟨_, rfl, rfl, rfl, by decide⟩
theorem wit_applyTide : ∃ t : Tide, t.recs ++ t.spill = [merge0 4] := ⟨{ (lane.here.tideOf 1).get rfl with recs := [merge0 4] }, rfl⟩
/-- Elements of 8 bytes (SUM_I64), and of 4 (OR) with both elements named. -/
theorem wit_applyRec : ∃ x, lane.here.wf = true ∧ lane.here.world? 1 = some x ∧ elemSize ({ merge0 4 with rule := 3 } : MergeRec).rule = 8 := ⟨_, by decide, rfl, by decide⟩
theorem wit_applyRec_small : ∃ x, lane.here.wf = true ∧ lane.here.world? 1 = some x ∧ elemSize ({ merge0 4 with emask := 3 } : MergeRec).rule ≠ 8 := ⟨_, by decide, rfl, by decide⟩
theorem wit_mergeValue : (2 ^ 63 : Nat) < 2 ^ 64 ∧ (2 ^ 64 - 1 : Nat) < 2 ^ 64 := by decide

/-- A packet on the fabric for package 0. -/
def carried (msg : Msg) : Packet := { src := 1, dst := 0, seq := 0, world := 1, key := 0, msg }
theorem wit_packet : ∃ (s : State) (m : Packet), s.net.find? (fun m => m.src == 1 && m.seq == 0 && m.dst == s.here.phys) = some m ∧ s.mayReceive m = true ∧
    m.msg = .record (merge0 4) 4 :=
  ⟨{ lane with net := [carried (.record (merge0 4) 4)] }, _, rfl, by decide, rfl⟩
theorem wit_answer : ∃ m : Packet, m.msg = .loadResp 4 9 0 0 none := ⟨carried (.loadResp 4 9 0 0 none), rfl⟩
/-- A header for a live group, and one of another generation. -/
theorem wit_header : ∃ g, (grouped [] false).here.groupFor 5 0 = some g ∧ (grouped [] false).here.collOver g 2 = false ∧ (grouped [] false).here.groupFor 5 1 = none :=
  ⟨_, rfl, by decide, by decide⟩
theorem wit_lane : (lane.here.port 30).retired = false ∧ (lane.here.port 30).erasures = 0 := by decide
/-- The second lane of a link. -/
theorem wit_linkRetire : ∃ (p : Package), (p.port 30).retired = false ∧ 1 ≤ (p.port 30).erasures :=
  ⟨{ lane.here with ports := [{ Port.reset 30 with erasures := 1 }] }, by decide, by decide⟩
/-- A slot of the last optical port, before the last entry of its table, and the end of the rotation after it. -/
def slotted (slot : Nat) (ss : List Slot) : Package := { lane.here with now := 2 ^ 40, ports := [{ Port.reset 38 with slots := ss, slot }] }
def slot0 (idx : Nat) : Slot := { port := 38, idx, dest := 1, guard := 100, len := 1000, v := true }
theorem wit_slotStart : ∃ n, ((slotted 1 [slot0 0, slot0 63]).port 38).slotOver (2 ^ 40) = true ∧ ((slotted 1 [slot0 0, slot0 63]).port 38).slot ≠ 0 ∧
    nextSlot ((slotted 1 [slot0 0, slot0 63]).port 38).slots 1 = some n := ⟨_, by decide, by decide, rfl⟩
theorem wit_slotWraps : ∃ n ns, ((slotted 64 [slot0 63]).port 38).slotOver (2 ^ 40) = true ∧
    nextSlot ((slotted 64 [slot0 63]).port 38).slots ((slotted 64 [slot0 63]).port 38).slot = none ∧
    validSlots ((slotted 64 [slot0 63]).port 38).slots = n :: ns := ⟨_, _, by decide, rfl, rfl⟩
theorem wit_slotNone : (lane.here.port 31).slotOver lane.here.now = true ∧ (lane.here.port 31).slot = 0 ∧ (lane.here.port 31).pending = [] ∧
    validSlots (lane.here.port 31).slots = [] := by decide +kernel

theorem wit_circuitChange : lane.here.circuit = none ∧ lane.here.journalRoom systemQueue = true := ⟨rfl, by decide⟩
def switching (peers : List Nat) (dark : Bool) : State := on lane (fun p => { p with circuit := some { journal := 0, peers, tables := [(1, 1, 5)], dark } })
theorem wit_markers : ∃ c, (switching [] false).here.circuit = some c ∧ c.peers = [] := ⟨_, rfl, rfl⟩
theorem wit_relock : ∃ (c : Circuit) (x : World), (switching [] true).here.circuit = some c ∧ c.dark = true ∧ c.tables = [(1, 1, 4 + 1)] ∧
    (switching [] true).here.world? 1 = some x := ⟨_, _, rfl, rfl, rfl, rfl⟩
theorem wit_firmware : lane.here.journalRoom systemQueue = true ∧ lane.here.collsInFlight = [] := ⟨by decide, by decide⟩
/-- A generation that is not used, and one that is. -/
theorem wit_groupChange : (lane.here.groupOr 4095).used.testBit 15 = false ∧
    ((on lane (fun p => { p with groups := [{ lane.here.groupOr 4095 with used := 2 ^ 15 }] })).here.groupOr 4095).used.testBit 15 = true := by decide +kernel
theorem wit_drainRound : ∃ s : State, (s.here.groupOr 5).acks = [] ∧ (s.here.groupOr 5).used ≠ 0 :=
  ⟨on lane (fun p => { p with groups := [{ lane.here.groupOr 5 with used := 1, members := [0, 1] }] }), by decide, by decide⟩
/-- The last acknowledgement. -/
theorem wit_drainDone : ∃ s : State, (s.here.groupOr 5).acks = [s.here.phys] :=
  ⟨on lane (fun p => { p with groups := [{ lane.here.groupOr 5 with used := 1, acks := [0] }] }), by decide⟩


/-! #### System software -/

/-- The record of `fetchTeam` with its descriptor at 0x30000. -/
def launched : Nat := setBits 63 0 0x30000 (fetchTeam 0 0).record
def image0 : Placement := { bytes := [(0x30000, 5)], labels := [] }
/-- The checks of a record on the package with the image placed. -/
def checks (r : Nat) : Option (List (Nat × Nat)) :=
  (queued.here.systemWrite image0).bind (fun a => (queued.here.world? 1).map (fun x =>
    a.2.recordFaults r 1 (a.2.maskOf x.launchCeil) ((a.2.peekPa x.space (recKdesc r)).map (fun b => descValid (a.2.placedRead image0 b.1 64)) == some true)))
theorem wit_launchCommand : placementFits image0 = true ∧ checks launched = some [] ∧
    ((queued.here.world? 1).bind (fun x => x.quay? 0)).any (fun q => ((queued.here.systemWrite image0).any (fun a => a.2.quayRoom q))) = true ∧
    ((queued.here.world? 1).bind (fun x => x.quay? 9)) = none := by decide +kernel
/-- A record of 8,193 threads. -/
theorem wit_launchRejected : (checks (setBits 365 352 8193 launched)).bind (fun fs => fs.head?) = some (1, 352) := by decide +kernel
/-- The table is full, and the image needs a label. -/
theorem systemWrite_full {p : Package} {g m : Nat} (h : p.labelFor (BitVec.ofNat 128 m) = none) : p.systemWrite { bytes := [], labels := [(g, m)] } = none := by
  simp only [Package.systemWrite, Package.systemLabels, h, Option.map_none]
theorem wit_launchFull : ∃ (p : Package) (im : Placement), placementFits im = true ∧ p.systemWrite im = none :=
  ⟨{ lane.here with labels := fullTable 1 }, { bytes := [], labels := [(0, 2)] }, by decide, systemWrite_full (labelFor_full _ _ _ (by decide))⟩
theorem wit_acceptRecord : ∃ x, queued.here.quay? 2 = some x ∧ recCbound (fetchTeam 0 0).record = false := ⟨_, rfl, by decide +kernel⟩
theorem wit_keyRotation : ∃ x, lane.here.world? 1 = some x ∧ lane.here.journalRoom systemQueue = true ∧ x.sweep = none := ⟨_, rfl, by decide, rfl⟩
/-- The sweep in a frame of the world, and after its last frame. -/
def sweeping (ptr : Nat) : State := on lane (fun p => { p with worlds := p.worlds.map (fun (x : World) => { x with sweep := some ptr }) })
theorem wit_sweep : ∃ x, (sweeping (3 * 1024)).here.world? 1 = some x ∧ x.sweep = some (3 * 1024) ∧ (sweeping (3 * 1024)).here.nextFrame 1 (3 * 1024 / 1024) = some 3 ∧ x.epoch ≤ 1 :=
  ⟨_, rfl, rfl, by decide, by decide⟩
theorem wit_sweepEnds : ∃ x, (sweeping (6 * 1024)).here.world? 1 = some x ∧ x.sweep = some (6 * 1024) ∧ (sweeping (6 * 1024)).here.nextFrame 1 (6 * 1024 / 1024) = none :=
  ⟨_, rfl, rfl, by decide⟩
/-- The highest id, flushed. -/
theorem wit_spaceBinding : ∃ s : State, s.here.journalRoom systemQueue = true ∧ s.here.flushedSpace 65535 = true :=
  ⟨on lane (fun p => { p with spaces := [{ id := 65535, gen := 255, root := 0, world := 1, flushed := true }] }), by decide, by decide⟩
theorem wit_spaceBound : lane.here.journalRoom systemQueue = true ∧ lane.here.flushedSpace 3 = false := by decide +kernel
/-- A shootdown with nothing outstanding, and one that waits for a write that has no WCT. -/
def shooting (s : State) : State := on s (fun p => { p with shoots := [{ seq := 2, space := 3, lo := 0, pages := 1, epochs := [(0, 0)] }] })
theorem wit_shootdownDone : ∃ x : Shoot, (shooting lane).here.shoots.find? (fun x => x.seq == 2) = some x ∧ x.epochs ≠ [] ∧
    ∀ e ∈ x.epochs, (shooting lane).here.outstanding e.1 e.2 = false := ⟨_, rfl, by decide, by decide⟩
theorem wit_shootdownWaits : ∃ x : Shoot, (shooting (writing none)).here.shoots.find? (fun x => x.seq == 2) = some x ∧
    ∃ e ∈ x.epochs, (shooting (writing none)).here.outstanding e.1 e.2 = true := ⟨_, rfl, by decide⟩

/-- A package that has booted. -/
def started (f : Package → Package := id) : State := on lane (fun p => f { p with sys := { p.sys with booted := true } })
/-- A world whose only team is saved, without a domain. -/
def quiet : State :=
  started (fun p => { p with worlds := p.worlds.map (fun (x : World) => { x with tide := none })
                             teams := p.teams.map (fun (tm : Team) => { tm with residence := .saved }) })
/-- The highest world id; it takes a manifest and a bank of world 1, which is suspended. -/
theorem wit_worldCreate : ∃ w : WorldSpec, quiet.here.sys.booted = true ∧ quiet.here.sys.bootHalt = none ∧ specOk w = true ∧ (∀ tm ∈ quiet.here.teams, tm.world ≠ w.id) ∧
    (∀ g ∈ quiet.here.grids, g.world ≠ w.id) ∧ (∀ j ∈ quiet.here.jobs, j.world ≠ w.id) ∧ (∀ x, quiet.here.world? w.id = some x → x.resetting = false ∧ x.tide = none) ∧
    (∀ x ∈ quiet.here.worlds, x.id ≠ w.id → ((∃ e ∈ x.manifests, e.2 ∈ w.manifests) ∨ ∃ b ∈ x.banks, ∃ c ∈ w.banks, b.1 = c.1 ∧ b.2.2 = c.2.2) →
      quiet.here.suspended x.id = true) ∧ ∃ x ∈ quiet.here.worlds, x.id ≠ w.id ∧ (∃ e ∈ x.manifests, e.2 ∈ w.manifests) :=
  ⟨{ id := 62, caps := 3, clusters := [(0, 39)], banks := [(39, 31, 31), (0, 0, 9)], queues := [63], manifests := [15, 4], peers := [(0, 0)], debug := true }, rfl, rfl, by decide,
    by decide, by decide, by decide, (fun _ h => by cases h), by decide, by decide⟩
theorem wit_domainForm : ∃ x, quiet.here.world? 1 = some x ∧ x.tide = none ∧ x.resetting = false ∧ quiet.here.suspended 1 = true ∧ quiet.here.phys ∈ [0, 1] ∧
    ([0, 1] : List Nat).Nodup ∧ ∀ (k m : Nat), ([0, 1] : List Nat)[k]? = some m → ∃ y ∈ x.peers, y.logical = k ∧ y.phys = m := by
  refine ⟨_, rfl, rfl, rfl, by decide, by decide, by decide, fun k m h => ?_⟩
  match k, h with
  | 0, h => cases h; exact ⟨_, List.mem_cons_self, rfl, rfl⟩
  | 1, h => cases h; exact ⟨_, List.mem_cons_of_mem _ List.mem_cons_self, rfl, rfl⟩
theorem wit_worldReset : ∃ x, started.here.world? 1 = some x ∧ started.here.journalRoom systemQueue = true ∧ x.resetting = false := ⟨_, rfl, by decide, rfl⟩
/-- The last frame of the memory, and the one after it. -/
theorem wit_scrub : 65536 * (6291455 + 1) ≤ Config.memBytes ∧ started.here.journalRoom systemQueue = true ∧
    started.here.excluded (fun f => decide (6291455 ≤ f) && decide (f < 6291455 + 1)) = [] := ⟨by decide, by decide, by decide⟩
theorem wit_scrubBeyond : Config.memBytes < 65536 * (6291455 + 2) := by decide
/-- The write of a frame that is scrubbed. -/
def wipe : Write := { write0 (some 5) with kind := .engine, cells := [], grow := [(0x1800, 0)], disc := some (0x30000, 0) }
theorem wit_commitWipe : lane.here.wf = true ∧ wipe.disc = some (0x30000, 0) ∧ wipe.kind = .engine ∧ wipe.cells = [] ∧ ∀ e ∈ wipe.grow, e.2 = 0 := by decide
/-- A scrub of frames, and that of a world in reset, with the ids of its writes. -/
def scrubbing (world : Nat) (writes : Option (List Nat)) : State :=
  on quiet (fun p => { p with sys := { p.sys with scrubs := [{ seq := 9, journal := 0, world, tstart := 0, nframes := 1, excl := [], writes }] } })
theorem wit_receipt : ∃ r, (scrubbing 0 (some [3])).here.sys.scrubs.find? (fun r => r.seq == 9) = some r ∧ r.writes = some [3] ∧
    (∀ y ∈ (scrubbing 0 (some [3])).here.writes, y.id ∉ [3]) := ⟨_, rfl, rfl, by decide⟩
theorem wit_receiptWaits : ∃ r, (on (scrubbing 0 (some [3])) (fun p => { p with writes := [wipe] })).here.sys.scrubs.find? (fun r => r.seq == 9) = some r ∧
    r.writes = some [3] ∧ (∃ y ∈ (on (scrubbing 0 (some [3])) (fun p => { p with writes := [wipe] })).here.writes, y.id ∈ [3]) :=
  ⟨_, rfl, rfl, wipe, List.mem_cons_self, by decide⟩
theorem wit_worldReceipt : ∃ r x, (on (scrubbing 1 none) (fun p => { p with teams := [] })).here.sys.scrubs.find? (fun r => r.seq == 9) = some r ∧ r.writes = none ∧
    (on (scrubbing 1 none) (fun p => { p with teams := [] })).here.world? r.world = some x ∧
    (on (scrubbing 1 none) (fun p => { p with teams := [] })).here.resetReady x = true := ⟨_, _, rfl, rfl, rfl, by decide⟩
/-- The team stands on die 0. -/
theorem wit_dieReset : ∀ tm ∈ lane.here.teams, tm.occupies = true → ∀ c ∈ tm.cores, dieOfCore c ≠ 1 := by decide

theorem wit_reportWorld : ∃ x, (1 : Nat) ≠ 0 ∧ lane.here.world? 1 = some x := ⟨_, by decide, rfl⟩
theorem wit_debugDenied : ∃ x, lane.here.world? 1 = some x ∧ lane.here.debugs x = false := ⟨_, rfl, by decide⟩
theorem wit_debugGranted : ∃ x, (debugged lane).here.world? 1 = some x ∧ (debugged lane).here.debugs x = true := ⟨_, rfl, by decide⟩
theorem wit_snapPin : ∃ s : State, s.here.sys.snapctl.getLsbD 2 = true := ⟨on lane (fun p => { p with sys := { p.sys with snapctl := 5 } }), by decide⟩
theorem wit_snapLatch : ∃ s : State, ∃ t ∈ s.here.sys.snapAt, t ≤ s.here.now := ⟨on lane (fun p => { p with now := 32, sys := { p.sys with snapAt := [32] } }), 32, by decide, by decide⟩
theorem wit_snapshot : ∃ p : Package, p.sys.snapctl.getLsbD 0 = true := ⟨(on lane (fun p => { p with sys := { p.sys with snapctl := 1 } })).here, by decide⟩
theorem wit_share : ∃ x, lane.here.world? 1 = some x := ⟨_, rfl⟩
theorem wit_bankTransfer : ∃ x, quiet.here.world? 1 = some x ∧ quiet.here.suspended 1 = true ∧
    (∀ y ∈ quiet.here.worlds, (∃ z ∈ y.banks, z.1 = 39 ∧ z.2.2 = 31) → quiet.here.suspended y.id = true) := ⟨_, rfl, by decide, by decide⟩
/-- The last byte of the memory. -/
theorem wit_sysWrite : lastByte (.place { bytes := [(384 * 2 ^ 30 - 1, 7)], labels := [] }) < Config.memBytes ∧
    (∀ a b c d e f, SysWrite.place { bytes := [(384 * 2 ^ 30 - 1, 7)], labels := [] } ≠ .migrate a b c d e f) ∧
    ∀ f v, SysWrite.place { bytes := [(384 * 2 ^ 30 - 1, 7)], labels := [] } ≠ .frame f v := ⟨by decide, (fun _ _ _ _ _ _ h => by cases h), fun _ _ h => by cases h⟩
/-- The last frame, which nothing maps, and a frame that holds data. -/
theorem wit_frame : 65536 * 6291455 < Config.memBytes ∧ (on lane (fun p => { p with spaces := [] })).here.isScrubbed 6291455 = true ∧
    (∀ q ∈ [(on lane (fun p => { p with spaces := [] })).here], q.mapsFrame 0 6291455 = false) ∧ (idle).here.isScrubbed 3 = false := by decide +kernel
theorem wit_memoryFault : 384 * 2 ^ 30 - 1 < Config.memBytes ∧ Config.memBytes ≤ 384 * 2 ^ 30 := by decide

/-! #### The machine as a whole -/

/-- A clause with these words to come. -/
def reading (ws : List Word) : State := on lane (fun p => { p with issue := p.issue.map (fun i => { i with words := ws }) })

/-- A clause whose next word is an ADD, is no instruction, or is past its end. -/
theorem wit_step : ∃ i w ws x rest, (reading [0x040B8810]).here.issue = some i ∧ i.words = w :: ws ∧ decode (w :: ws) = .ok (x, rest) := ⟨_, _, _, _, _, rfl, rfl, rfl⟩
/-- The same for a thread that waits alone. -/
theorem wit_step_alone : ∃ (s : State) (i : Issue) (w : Word) (ws : List Word) (x : Instr) (rest : List Word), s.here.issue = some i ∧ i.words = w :: ws ∧
    decode (w :: ws) = .ok (x, rest) ∧ Config.loneGang ≤ i.id ∧ ∃ t, exec x (s.begin ((w :: ws).length - rest.length)) = .next t :=
  ⟨on (reading [0x040B8810]) (fun p => { p with issue := p.issue.map (fun i => { i with id := Config.loneGang }) }), _, _, _, _, _, rfl, rfl, rfl, by decide, _, rfl⟩
theorem wit_step_illegal : ∃ i w ws e, (reading [1]).here.issue = some i ∧ i.words = w :: ws ∧ decode (w :: ws) = .error e := ⟨_, _, _, _, rfl, rfl, rfl⟩
theorem wit_step_end : ∃ i, (reading []).here.issue = some i ∧ i.words = [] := ⟨_, rfl, rfl⟩
theorem wit_fetch : ∃ x q, Gives (fetchWord ⟨0, 1⟩ 0x10000) idle.here x q := ⟨_, _, rfl⟩
theorem wit_fetchClause : ∃ h ws q, Gives (fetchClause ⟨0, 1⟩ 0x10000) idle.here (h, ws) q := ⟨_, _, _, rfl⟩
/-- The state after reset has the form, and a step from it keeps the form. -/
theorem wit_stepKeepsForm : State.reset.Wf ∧ ∃ t, step State.reset = .next t := ⟨⟨by decide, (fun _ h => by cases h)⟩, _, rfl⟩
theorem wit_encode : (Instr.add (two .n32 2 1 0)).isWord = true ∧ (Instr.add (two .n32 2 1 0)).wf = true := by decide


/-! #### Clauses at their boundaries -/

/-- A word of major 0 that is not NOP. -/
theorem wit_nop_illegal : ∃ i w rest q, (reading [1]).here.issue = some i ∧ i.words = w :: rest ∧ (Raw.ofWord w).major = 0 ∧ w ≠ 0#32 ∧
    InTurn (fun v p r => ∃ j, p.issue = some j ∧ r = p.raiseTrap v (j.request .illop 0 0 0 w.toNat)) i.team i.active (reading [1]).here q :=
  ⟨_, _, _, _, rfl, rfl, by decide, by decide, _, ⟨_, rfl, rfl⟩, rfl⟩
/-- A remote acquire that has been judged, and none. -/
theorem wit_recordRemote : ∃ (s : State) (a : Acc) (o : LoadOp) (tm : Team), s.here.accs.filter (fun a => decide (4 ≤ a.id)) = [a] ∧ a.op = .load o ∧
    o.peer = some 1 ∧ o.scope = some .pkg ∧ s.here.team? a.team = some tm :=
  ⟨owing (.load { load0 .sent with peer := some 1, scope := some .pkg }), _, _, _, rfl, rfl, rfl, rfl, rfl⟩
theorem wit_recordNone : ∀ a ∈ (owing (.load (load0 .sent))).here.accs, 4 ≤ a.id → ∀ o, a.op = .load o → o.peer = none ∨ o.scope = none := by
  intro a h _ o ho
  cases List.mem_singleton.mp h
  cases ho
  exact .inl rfl
/-- Saved entries of a resumed team, whose queue is empty. -/
theorem wit_restoreSparse : ∃ (p : Package) (tm : Team) (e : SavedSparse), p.team? 0 = some tm ∧ tm.residence = .resident ∧ e ∈ tm.sparse ∧
    ∀ x ∈ p.sparse, ¬(x.core = tm.rowCore e.row ∧ x.part = tm.rowPart e.row ∧ x.q = e.q) :=
  ⟨(idle (fun p => p.setTeam 0 (fun tm => { tm with sparse := [⟨0, 3, 1, 0⟩] }))).here, _, ⟨0, 3, 1, 0⟩, rfl, rfl, List.mem_cons_self, by decide⟩

/-- A chunk at work; one whose header is due, its grid over. -/
theorem wit_chunkRuns : ∃ j, (working (job4 .chunk 0)).here.jobs.find? (fun j => j.id == 4) = some j ∧ (working (job4 .chunk 0)).here.dueArrivals j = [] ∧
    j.done = false ∧ (working (job4 .chunk 0)).here.mayRun j = true ∧ j.kind = .chunk ∧ (working (job4 .chunk 0)).here.headerDue j = false :=
  ⟨_, rfl, rfl, rfl, by decide, rfl, by decide⟩
def chunked : State :=
  on (grouped [] false) (fun p => { p with
    jobs := [{ job4 .chunk 0 with grid := some 0, sent := false }]
    grids := p.grids.map (fun (g : Grid) => { g with left := 0, seq := some 2, chunks := 1 }) })
theorem wit_headerDue : ∃ j, chunked.here.jobs.find? (fun j => j.id == 4) = some j ∧ chunked.here.dueArrivals j = [] ∧ chunked.here.headerDue j = true :=
  ⟨_, rfl, rfl, by decide⟩
/-- Headers that differ; headers of which one has the failure bit; and those of a collective that opens. -/
def headsOf (s : State) : List CollHead := (s.here.groups.flatMap (·.heads)).filter (fun h => h.seq == 2)
theorem wit_headers :
    (∃ h ∈ headsOf (grouped [⟨2, 0, 7, false⟩, ⟨2, 1, 8, false⟩] false), ∃ h' ∈ headsOf (grouped [⟨2, 0, 7, false⟩, ⟨2, 1, 8, false⟩] false), h.hash ≠ h'.hash) ∧
    (∀ h ∈ headsOf (grouped [⟨2, 0, 7, false⟩, ⟨2, 1, 7, true⟩] false), ∀ h' ∈ headsOf (grouped [⟨2, 0, 7, false⟩, ⟨2, 1, 7, true⟩] false), h.hash = h'.hash) ∧
    (∃ h ∈ headsOf (grouped [⟨2, 0, 7, false⟩, ⟨2, 1, 7, true⟩] false), h.fail = true) ∧
    (∀ h ∈ headsOf (grouped [⟨2, 0, 7, false⟩, ⟨2, 1, 7, false⟩] false), h.fail = false) ∧
    ((grouped [⟨2, 0, 7, false⟩, ⟨2, 1, 7, false⟩] false).here.jobs.map (·.id)).Nodup ∧
    ∃ j ∈ (grouped [⟨2, 0, 7, false⟩, ⟨2, 1, 7, false⟩] false).here.jobs, j.kind = .coll (some 63) ∧ j.gid = 5 ∧ j.seq = 2 ∧ j.gen = 0 ∧ j.done = false ∧
      j.opened = false := by
  refine ⟨by decide, by decide, by decide, by decide, by decide, _, List.mem_cons_self, rfl, rfl, rfl, rfl, rfl, rfl⟩

/-- A bulk write of the step of a tide that closes after an abort. -/
theorem wit_bulkDiscarded : ∃ (p : Package) (t : Tide) (lbl : Lbl) (p₁ : Package), p.labelFor (bulk0 4).mask = some (lbl, p₁) ∧ (bulk0 4).step = t.step ∧
    t.state = .closing ∧ t.status ≠ 0 :=
  ⟨lane.here, { (lane.here.tideOf 1).get rfl with state := .closing, status := 3 }, _, _, rfl, rfl, rfl, by decide⟩
/-- Two records of different rank for both elements, in the order of either acceptance. -/
def merges (rule : Nat) : Tide :=
  { (lane.here.tideOf 1).get rfl with recs := [{ merge0 4 with rule, emask := 3, pkg := 2 }], spill := [{ merge0 4 with rule, emask := 3 }] }
theorem wit_merges : ∃ x, lane.here.wf = true ∧ (lane.here.setWorld 1 World.flip).world? 1 = some x ∧
    (∀ rule ∈ [1, 2, 4, 9], ∀ y ∈ (merges rule).recs ++ (merges rule).spill, y.pa = 0x40000 ∧ y.emask.testBit 1 = true ∧ y.rule = rule) ∧
    (∀ rule ∈ [1, 9], ∀ y ∈ (merges rule).recs ++ (merges rule).spill, y ≠ { merge0 4 with rule, emask := 3, pkg := 2 } →
      y.rank < ({ merge0 4 with rule, emask := 3, pkg := 2 } : MergeRec).rank) ∧
    (∀ y ∈ (merges 2).recs ++ (merges 2).spill, y ≠ { merge0 4 with rule := 2, emask := 3 } → ({ merge0 4 with rule := 2, emask := 3 } : MergeRec).rank < y.rank) ∧
    ({ merge0 4 with rule := 4, emask := 3 } : MergeRec).rank < ({ merge0 4 with rule := 4, emask := 3, pkg := 2 } : MergeRec).rank := by
  refine ⟨_, by decide, rfl, by decide, by decide, by decide, by decide⟩

/-- The other package of the pod, with the bench's package. -/
def pod (f g : Package → Package := id) : State := { lane with here := f lane.here, others := [g { lane.here with phys := 1 }] }
/-- The entry of a table that names another package for a member, and one for a member that has no entry. -/
theorem wit_circuitQuiesces : (∀ q ∈ pod.here :: pod.others, q.circuit = none) ∧ pod.here.journalRoom systemQueue = true ∧
    (([(0, 1, 1, 5)] : List (Nat × Nat × Nat × Nat)).filter (fun e => e.1 == pod.here.phys)).map (·.2) = [(1, 1, 5)] ∧
    ∃ x, pod.here.world? 1 = some x ∧ x.peers.find? (fun y => y.logical == 9) = none ∧
      ∃ y, x.peers.find? (fun y => y.logical == 1) = some y ∧ y.phys + 1 ≠ 5 := ⟨by decide, by decide, rfl, _, rfl, rfl, _, rfl, by decide⟩
def circuited (peers : List Nat) (p : Package) : Package := { p with circuit := some { journal := 0, peers, tables := [], dark := false } }
theorem wit_circuitDark : (∀ q ∈ (pod (circuited []) (circuited [])).here :: (pod (circuited []) (circuited [])).others, ∀ c, q.circuit = some c → c.peers = []) ∧
    ∃ q ∈ (pod (circuited []) (circuited [0])).here :: (pod (circuited []) (circuited [0])).others, ∃ c, q.circuit = some c ∧ c.peers ≠ [] :=
  ⟨by simp [pod, circuited], _, List.mem_cons_of_mem _ List.mem_cons_self, _, rfl, by decide⟩
theorem wit_relockAbsent : ∃ (p : Package) (c : Circuit), p.circuit = some c ∧ c.dark = true ∧ c.tables = [(1, 1, 0)] :=
  ⟨{ lane.here with circuit := some { journal := 0, peers := [], tables := [(1, 1, 0)], dark := true } }, _, rfl, rfl, rfl⟩
theorem wit_relockNot : ∀ c, (circuited [0] lane.here).circuit = some c → c.dark = false := fun _ h => by cases h; rfl
/-- The values of a group's entry at their ends; a member list in frames without owner. -/
theorem wit_groupFits : groupFits 4095 15 1 63 0x100000 [0, 65535] = true ∧ lane.here.mayPlace 0 (memberList 0x100000 [0, 65535]) = true ∧
    groupFits 4096 15 1 63 0x100000 [0] = false ∧ lane.here.mayPlace 0 (memberList 0x30000 [0]) = false := by decide +kernel
/-- A group of both packages: it starts a round, ends it, and waits for the other's marker. -/
def drained (acks acks' : List Nat) : State :=
  let g : Group := { lane.here.groupOr 5 with used := 1, world := 1, members := [0, 1] }
  pod (fun p => { p with groups := [{ g with acks }] }) (fun p => { p with groups := [{ g with acks := acks' }] })
theorem wit_drains : (drained [] []).here.otherMembers ((drained [] []).here.groupOr 5) = [1] ∧ ((drained [] []).here.groupOr 5).acks = [] ∧
    ((drained [] []).here.groupOr 5).used ≠ 0 ∧ ((drained [0] [1]).here.groupOr 5).acks = [(drained [0] [1]).here.phys] ∧
    (∀ q ∈ (drained [0] [1]).others, q.phys ∈ [1] → (q.groupOr 5).acks = [q.phys]) ∧ ((drained [0] [1, 0]).here.groupOr 5).acks ≠ [] ∧
    ∃ q ∈ (drained [0] [1, 0]).others, q.phys ∈ [1] ∧ (q.groupOr 5).acks ≠ [q.phys] :=
  ⟨by decide, by decide, by decide, by decide, by decide, by decide, by decide⟩

/-- An image in the world's frames, and one in a frame of another tenant. -/
theorem wit_launchPlaces : queued.here.mayPlace 1 image0 = true ∧ (on queued (fun p => { p with owners := [(3, 2)] })).here.mayPlace 1 image0 = false := by decide
/-- The record's place in its ring can be written. -/
theorem wit_launchRing : (((queued.here.systemWrite image0).bind (fun a => (a.2.quay? 2).bind (fun y =>
    a.2.systemWrite (recordAt y.tailPa (setBits 191 128 0 (setBits 399 396 0 launched)))))).isSome) = true := by decide +kernel
/-- A reset that still waits for its teams, and one of a world that is gone. -/
theorem wit_receiptEarly : ∃ r x, (scrubbing 1 none).here.sys.scrubs.find? (fun r => r.seq == 9) = some r ∧ r.writes = none ∧
    (scrubbing 1 none).here.world? r.world = some x ∧ (scrubbing 1 none).here.resetReady x = false := ⟨_, _, rfl, rfl, rfl, by decide⟩
theorem wit_receiptNone : ∃ r, (scrubbing 62 none).here.sys.scrubs.find? (fun r => r.seq == 9) = some r ∧ r.writes = none ∧
    (scrubbing 62 none).here.world? r.world = none := ⟨_, rfl, rfl, rfl⟩

/-- The world is suspended, and it is not. -/
theorem wit_suspended : quiet.here.suspended 1 = true ∧ lane.here.suspended 1 = false := by decide
/-- Bytes in a frame of a tenant; in a frame without owner. -/
theorem wit_placeOwned : lane.here.ownerOf 0x30000 = 1 ∧ lane.here.ownerOf 0x100000 = 0 ∧
    (lane.here.systemWrite { bytes := [(0x100000, 7)], labels := [] }).isSome = true := by decide
theorem wit_installCode : (0x30004 : Nat) % 4 = 0 ∧ (0x30001 : Nat) % 4 ≠ 0 ∧ spWf (0 : BitVec 16) idle.here.code = true ∧ HeaderAt idle.here 0x30000 0 :=
  ⟨by decide, by decide, by decide, .first⟩
theorem wit_spaceBindings : ∃ sp, lane.here.space? 3 = some sp ∧ sp.gen = 1 ∧ sp.world = 1 ∧ ∀ sp, lane.here.space? 3 = some sp → sp.gen ≠ 2 ∨ sp.world ≠ 1 :=
  ⟨_, rfl, rfl, rfl, fun _ h => .inl (by cases h; decide)⟩
theorem wit_launchCeiling : (lane.here.labelFor (BitVec.ofNat 128 1)).isSome = true ∧ ({ lane.here with labels := fullTable 1 } : Package).labelFor (BitVec.ofNat 128 2) = none :=
  ⟨by decide, labelFor_full _ _ _ (by decide)⟩
theorem wit_peerStands : ∃ x, lane.here.world? 1 = some x ∧ (∃ y ∈ x.peers, y.logical = 1 ∧ y.phys = 1) ∧ ¬∃ y ∈ x.peers, y.logical = 1 ∧ y.phys = 2 :=
  ⟨_, rfl, by decide, by decide⟩
theorem wit_queueBase : (2 < 64 ∧ ∃ k < 15, 16777216 = 1024 * 2 ^ k) ∧ ∀ y, lane.here.quay? 2 = some y → y.items = [] := ⟨by decide, fun _ h => by cases h; rfl⟩
theorem wit_carveOut : (∀ m ∈ (manifest .empty).here.mans, m.state = .empty) ∧ ∃ m ∈ (manifest .recorded).here.mans, m.state ≠ .empty := by decide
theorem wit_labelBase : (0x200000 : Nat) % 2 ^ 21 = 0 ∧ (∀ k < 32, lane.here.ownerOf (0x200000 + 65536 * k) = 0) ∧ lane.here.ownerOf (65536 * 3) ≠ 0 := by decide
theorem wit_labelEntry : 0xFFFE < 0xFFFF ∧ (∀ e ∈ lane.here.labels, e.1 ≠ 0xFFFE ∧ e.2 ≠ BitVec.ofNat 128 2) ∧ ∃ e ∈ lane.here.labels, e.1 = 0 := by decide
theorem wit_retireFrame : (∀ r ∈ lane.here.sys.retired, r.1 ≠ 6291455) ∧
    ∃ r ∈ (on lane (fun p => { p with sys := { p.sys with retired := [(6291455, 1)] } })).here.sys.retired, r.1 = 6291455 := by decide
theorem wit_swapManifest : quiet.here.suspended 1 = true ∧ (∀ x ∈ quiet.here.worlds, x.id ≠ 1 → (∃ e ∈ x.manifests, e.2 = 4) → quiet.here.suspended x.id = true) ∧
    ((manifest .recorded).here.man 4).state ≠ .empty ∧ ((manifest .recorded).here.man 4).world ≠ 1 := by decide
theorem wit_resumeHalted : ∃ th th', (standing .halted).here.thread? ⟨0, 1⟩ = some th ∧ th.status = .halted ∧ lane.here.thread? ⟨0, 1⟩ = some th' ∧
    th'.status ≠ .halted := ⟨_, _, rfl, rfl, rfl, by decide⟩
theorem wit_clusters : placesOk [(39, 0)] = true ∧ placesOk [(40, 0)] = false := by decide
/-- A page that was asked to move, while the tide applies; the frame 7 of the other package is free, the frame 5 is mapped. -/
def moving : State :=
  pod (fun p => { p with moves := [(1, 0x60000, 1)], worlds := p.worlds.map (fun (x : World) => { x with tide := x.tide.map (fun t => { t with state := .applying }) }) })
theorem wit_moves : ∃ x q t, moving.here.world? 1 = some x ∧ (1, 0x60000, 1) ∈ moving.here.moves ∧ x.tide = some t ∧ t.state = .applying ∧
    moving.here.peerOf x false 1 = (.reachable, 1) ∧ moving.here.phys ≠ 1 ∧ moving.others.find? (fun q => q.phys == 1) = some q ∧ moving.here.wf = true ∧
    q.wf = true ∧ spWf 0 q.owners = true ∧ spWf (0 : BitVec 16) q.code = true ∧
    (q.systemLabels ((moving.here.pageImage 0x60000 65536).labels.map (fun g => (g.1, g.2.toNat)))).isSome = true :=
  ⟨_, _, _, rfl, by decide, rfl, rfl, by decide, by decide, rfl, by decide, by decide, by decide, by decide, by decide +kernel⟩
theorem wit_moveFrames : moving.freeFrames 1 0x70000 65536 = true ∧ moving.freeFrames 1 0x50000 65536 = false ∧ (0x70000 : Nat) % 65536 = 0 := by decide +kernel
/-- The label of the page has no place in the other package's table. -/
theorem systemLabels_full {p : Package} {g m : Nat} {ls : List (Nat × Nat)} (h : p.labelFor (BitVec.ofNat 128 m) = none) :
    p.systemLabels ((g, m) :: ls) = none := by
  simp only [Package.systemLabels, h]
theorem wit_moveLabels : ({ lane.here with labels := fullTable 1 } : Package).systemLabels [(0, 2)] = none :=
  systemLabels_full (labelFor_full _ _ _ (by decide))
theorem wit_repoint : lane.here.wf = true ∧ (4095 : Nat) < 4096 ∧ (2 ^ 48 - 65536) % 65536 = 0 ∧ 2 ^ 48 - 65536 < 2 ^ 48 := by decide

/-- The greatest and the least finite magnitudes, and a product of which the second part is exact. -/
theorem wit_exact : finiteIn .f32 0x7F7FFFFF = true ∧ finiteIn .f32 0x80000001 = true ∧ finiteIn .f64 0x7FEFFFFFFFFFFFFF = true ∧ finiteIn .f32 0x7F800000 = false ∧
    2 ^ 197 ≤ (unitsIn .f32 0x3F800800 * unitsIn .f32 0x3F800800).natAbs := by decide +kernel

end Sys2Proof.Tests
end

section
/-! SUPPORT. What updates of a team and of a thread leave to be read: the rules of the state's operations by which frames are proved. -/

namespace Sys2Proof.Machine

/-- An update that keeps the key of a search is seen by the search. -/
theorem find?_mapIf {α : Type} {c key : α → Bool} {f : α → α} (h : ∀ x, key (f x) = key x) (l : List α) :
    (mapIf c f l).find? key = (l.find? key).map (fun x => if c x then f x else x) := by
  have hk : key ∘ (fun x => if c x then f x else x) = key := by
    funext x
    simp only [Function.comp_apply]
    split
    · exact h x
    · rfl
  rw [mapIf, List.find?_map, hk]

/-- Two updates of the entries that satisfy one condition commute where they commute on each entry. -/
theorem mapIf_comm {α : Type} {c : α → Bool} {f g : α → α} (hf : ∀ x, c (f x) = c x) (hg : ∀ x, c (g x) = c x)
    (h : ∀ x, f (g x) = g (f x)) (l : List α) : mapIf c f (mapIf c g l) = mapIf c g (mapIf c f l) := by
  simp only [mapIf, List.map_map]
  refine List.map_congr_left fun x _ => ?_
  cases hc : c x <;> simp [hc, hf, hg, h]

/-! ### Teams of a package -/

theorem Package.id_of_team? {p : Package} {t : Nat} {tm : Team} (h : p.team? t = some tm) : tm.id = t := by
  simpa using List.find?_some h

theorem Package.team?_setTeam_self {F : Team → Team} (hid : ∀ tm, (F tm).id = tm.id) (p : Package) (t : Nat) :
    (p.setTeam t F).team? t = (p.team? t).map F := by
  rw [Package.team?, Package.setTeam_teams, find?_mapIf (fun tm => by rw [hid])]
  refine Option.map_congr fun tm h => ?_
  have hc : (tm.id == t) = true := by simpa using Package.id_of_team? h
  simp [hc]

theorem Package.team?_setTeam_of_ne {F : Team → Team} (hid : ∀ tm, (F tm).id = tm.id) (p : Package) {t u : Nat} (h : u ≠ t) :
    (p.setTeam t F).team? u = p.team? u := by
  rw [Package.team?, Package.setTeam_teams, find?_mapIf (fun tm => by rw [hid])]
  refine (Option.map_congr fun tm hu => ?_).trans Option.map_id'
  have hc : (tm.id == t) = false := by simpa [Package.id_of_team? hu] using h
  simp [hc]

theorem Package.setTeam_id (p : Package) (t : Nat) : p.setTeam t (fun tm => tm) = p := by
  simp [Package.setTeam, mapIf]

theorem Package.setTeam_comm {F G : Team → Team} (hF : ∀ tm, (F tm).id = tm.id) (hG : ∀ tm, (G tm).id = tm.id)
    (h : ∀ tm, F (G tm) = G (F tm)) (p : Package) (t : Nat) : (p.setTeam t G).setTeam t F = (p.setTeam t F).setTeam t G := by
  have e := mapIf_comm (c := fun tm => tm.id == t) (fun tm => by rw [hF]) (fun tm => by rw [hG]) h p.teams
  exact congrArg (fun ts => { p with teams := ts }) e

/-! ### Threads of a team -/

theorem Team.lid_of_thread? {tm : Team} {l : Nat} {th : Thread} (h : tm.thread? l = some th) : th.lid = l := by
  simpa using List.find?_some h

theorem Team.thread?_setThread_self {f : Thread → Thread} (hl : ∀ th, (f th).lid = th.lid) (tm : Team) (l : Nat) :
    (tm.setThread l f).thread? l = (tm.thread? l).map f := by
  refine (find?_mapIf (fun th => by rw [hl]) tm.threads).trans (Option.map_congr fun th h => ?_)
  have hc : (th.lid == l) = true := by simpa using Team.lid_of_thread? h
  simp [hc]

theorem Team.thread?_setThread_of_ne {f : Thread → Thread} (hl : ∀ th, (f th).lid = th.lid) (tm : Team) {l k : Nat} (h : k ≠ l) :
    (tm.setThread l f).thread? k = tm.thread? k := by
  refine (find?_mapIf (fun th => by rw [hl]) tm.threads).trans ((Option.map_congr fun th hk => ?_).trans Option.map_id')
  have hc : (th.lid == l) = false := by simpa [Team.lid_of_thread? hk] using h
  simp [hc]

theorem Team.setThread_comm {f g : Thread → Thread} (hf : ∀ th, (f th).lid = th.lid) (hg : ∀ th, (g th).lid = th.lid)
    (h : ∀ th, f (g th) = g (f th)) (tm : Team) (l : Nat) : (tm.setThread l g).setThread l f = (tm.setThread l f).setThread l g := by
  have e := mapIf_comm (c := fun th => th.lid == l) (fun th => by rw [hf]) (fun th => by rw [hg]) h tm.threads
  exact congrArg (fun ts => { tm with threads := ts }) e

theorem Package.thread?_setThread_self {f : Thread → Thread} (hl : ∀ th, (f th).lid = th.lid) (p : Package) (w : Who) :
    (p.setThread w f).thread? w = (p.thread? w).map f := by
  rw [Package.thread?, Package.setThread, Package.team?_setTeam_self (F := fun tm => tm.setThread w.lid f) (fun _ => rfl), Package.thread?]
  cases p.team? w.team with
  | none => rfl
  | some tm => exact Team.thread?_setThread_self hl tm w.lid

theorem Package.setThread_comm {f g : Thread → Thread} (hf : ∀ th, (f th).lid = th.lid) (hg : ∀ th, (g th).lid = th.lid)
    (h : ∀ th, f (g th) = g (f th)) (p : Package) (w : Who) : (p.setThread w g).setThread w f = (p.setThread w f).setThread w g :=
  Package.setTeam_comm (F := fun tm => tm.setThread w.lid f) (G := fun tm => tm.setThread w.lid g) (fun _ => rfl) (fun _ => rfl)
    (fun tm => Team.setThread_comm hf hg h tm w.lid) p w.team

/-- What freeing entries of the decision queue changes in a team: the queue alone (R50). -/
theorem Team.freeDQ_eq (tm : Team) : tm.freeDQ = { tm with dq := tm.freeDQ.dq } := by
  unfold Team.freeDQ
  split <;> rfl

@[simp] theorem Team.freeDQ_id (tm : Team) : tm.freeDQ.id = tm.id := by rw [Team.freeDQ_eq]

@[simp] theorem Team.freeDQ_thread? (tm : Team) (l : Nat) : tm.freeDQ.thread? l = tm.thread? l := by
  rw [Team.freeDQ_eq]
  rfl

/-! ### Writing a register -/

/-- A team with one register of a thread's extended set written (R74). -/
def Team.putExt (tm : Team) (lid i : Nat) (v : LReg) : Team :=
  { tm with ext := mapIf (fun e => e.base == tm.extBase lid) (fun e => { e with regs := e.regs.set i v }) tm.ext }

/-- What writing one register makes of the thread's team (R79). -/
def Team.putReg (tm : Team) (lid : Nat) (d : Dst) (n : Nat) (v : LReg) : Team :=
  match d with
  | .main i =>
    if i + n < tm.nregs then tm.setThread lid (fun th => { th with regs := th.regs.set (i + n) v }) else tm.putExt lid (i + n - tm.nregs) v
  | .op k => tm.setThread lid (fun th => { th with ops := th.ops.set (k + n) v })
  | .sreg k => { tm with sregs := tm.sregs.set (k + n) v }
  | .latch _ => tm
  | .discard => tm

theorem Team.putExt_extBlock? (tm : Team) (lid i : Nat) (v : LReg) :
    (tm.putExt lid i v).extBlock? lid = (tm.extBlock? lid).map (fun e => { e with regs := e.regs.set i v }) := by
  refine (find?_mapIf (f := fun e : ExtBlock => { e with regs := e.regs.set i v }) (fun _ => rfl) tm.ext).trans (Option.map_congr fun e he => ?_)
  have hc : (e.base == tm.extBase lid) = true := List.find?_some (p := fun e : ExtBlock => e.base == tm.extBase lid) he
  simp [hc]

theorem Package.putReg_eq_setTeam (p : Package) (w : Who) (d : Dst) (n : Nat) (v : LReg) :
    p.putReg w d n v = p.setTeam w.team (fun tm => tm.putReg w.lid d n v) := by
  cases d with
  | main i => rfl
  | op k => rfl
  | sreg k => rfl
  | latch b => exact (Package.setTeam_id p w.team).symm
  | discard => exact (Package.setTeam_id p w.team).symm

@[simp] theorem Team.putReg_id (tm : Team) (l : Nat) (d : Dst) (n : Nat) (v : LReg) : (tm.putReg l d n v).id = tm.id := by
  cases d with
  | main i =>
    simp only [Team.putReg]
    split <;> rfl
  | op k => rfl
  | sreg k => rfl
  | latch b => rfl
  | discard => rfl

@[simp] theorem Package.putRegs_issue (p : Package) (w : Who) (d : Dst) (l : Lbl) (n : Nat) (vs : List Word) :
    (p.putRegs w d l n vs).issue = p.issue := by
  induction vs generalizing p n with
  | nil => rfl
  | cons v vs ih => rw [Package.putRegs, ih, Package.putReg_eq_setTeam, Package.setTeam_issue]

@[simp] theorem Package.putVal_issue (p : Package) (w : Who) (d : Dst) (n v : Nat) (l : Lbl) : (p.putVal w d n v l).issue = p.issue :=
  Package.putRegs_issue ..

/-- Writing a register and writing the seed commute, for the seed is no register (R153). -/
theorem Team.putReg_setSeed (tm : Team) (l : Nat) (x : Word) (d : Dst) (n : Nat) (v : LReg) :
    (tm.setThread l (fun th => { th with seed := x })).putReg l d n v = (tm.putReg l d n v).setThread l (fun th => { th with seed := x }) := by
  cases d with
  | main i =>
    simp only [Team.putReg, apply_ite (fun tm : Team => tm.setThread l (fun th => { th with seed := x }))]
    exact ite_congr rfl (fun _ => Team.setThread_comm (fun _ => by rfl) (fun _ => by rfl) (fun _ => by rfl) tm l) (fun _ => rfl)
  | op k => exact Team.setThread_comm (fun _ => by rfl) (fun _ => by rfl) (fun _ => by rfl) tm l
  | sreg k => rfl
  | latch b => rfl
  | discard => rfl

theorem Package.putReg_setSeed (p : Package) (w : Who) (x : Word) (d : Dst) (n : Nat) (v : LReg) :
    (p.setThread w (fun th => { th with seed := x })).putReg w d n v = (p.putReg w d n v).setThread w (fun th => { th with seed := x }) := by
  simp only [Package.putReg_eq_setTeam, Package.setThread]
  exact Package.setTeam_comm (F := fun tm => tm.putReg w.lid d n v) (G := fun tm => tm.setThread w.lid _)
    (fun _ => Team.putReg_id ..) (fun _ => rfl) (fun tm => Team.putReg_setSeed tm w.lid x d n v) p w.team

theorem Package.putRegs_setSeed (p : Package) (w : Who) (x : Word) (d : Dst) (l : Lbl) (n : Nat) (vs : List Word) :
    (p.setThread w (fun th => { th with seed := x })).putRegs w d l n vs
      = (p.putRegs w d l n vs).setThread w (fun th => { th with seed := x }) := by
  induction vs generalizing p n with
  | nil => rfl
  | cons v vs ih => rw [Package.putRegs, Package.putReg_setSeed, ih, Package.putRegs]

end Sys2Proof.Machine
end

section
/-! SUPPORT. The frame `RegsFrame` as a relation: it is reflexive and transitive, its bounds may be widened, and each way in which a form that
computes changes a package lies in it. -/

namespace Sys2Proof.Claims

open Sys2Proof.Machine

/-- What `RegsFrame` says of the thread and its team, with a name for each part. -/
structure TeamFrame (written : Dst → Nat → Prop) (pops : Prop) (ps : List (BitVec 5)) (fp : Bool) (lid : Nat) (tm : Team) (th : Thread)
    (tm' : Team) (th' : Thread) : Prop where
  team : tm' = { tm with threads := tm'.threads, sregs := tm'.sregs, ext := tm'.ext, dq := tm'.dq }
  thread : th' = { th with regs := th'.regs, ops := th'.ops, preds := th'.preds, x0 := th'.x0, x1 := th'.x1, dqIdx := th'.dqIdx
                           fpctl := th'.fpctl, flagsLbl := th'.flagsLbl }
  regs : ∀ d k, ¬written d k → regAt tm' th' d k = regAt tm th d k
  extOther : ∀ e ∈ tm.ext, e.base ≠ tm.extBase lid → e ∈ tm'.ext
  extHolders : tm'.ext.map (fun e => (e.base, e.holder)) = tm.ext.map (fun e => (e.base, e.holder))
  preds : ∀ k : BitVec 5, k ∉ ps → th'.preds.getD k.toNat LBit.zero = th.preds.getD k.toNat LBit.zero
  flags : fp = false → th'.fpctl = th.fpctl ∧ th'.flagsLbl = th.flagsLbl
  fpctl : ∀ k, k < 3 ∨ 7 < k → th'.fpctl.getLsbD k = th.fpctl.getLsbD k
  queue : ¬pops → tm'.dq = tm.dq ∧ th'.dqIdx = th.dqIdx

section
variable {written written' : Dst → Nat → Prop} {pops pops' : Prop} {ps ps' : List (BitVec 5)} {fp fp' : Bool} {w : Who} {lid : Nat}
  {p q r : Package} {tm tm' tm'' : Team} {th th' th'' : Thread}

theorem regsFrame_iff : RegsFrame written pops ps fp w p q ↔
    q = { p with teams := q.teams, labels := q.labels } ∧ (∀ e ∈ p.labels, e ∈ q.labels) ∧ (∀ t, t ≠ w.team → q.team? t = p.team? t) ∧
    (∀ v, v ≠ w → q.thread? v = p.thread? v) ∧
    ∀ tm th, p.team? w.team = some tm → p.thread? w = some th → ∃ tm' th', q.team? w.team = some tm' ∧ q.thread? w = some th' ∧
      TeamFrame written pops ps fp w.lid tm th tm' th' := by
  constructor
  · rintro ⟨rest, labels, teams, threads, own⟩
    refine ⟨rest, labels, teams, threads, fun tm th htm hth => ?_⟩
    obtain ⟨tm', th', htm', hth', team, thread, regs, other, holders, preds, flags, ctl, queue⟩ := own tm th htm hth
    exact ⟨tm', th', htm', hth', team, thread, regs, other, holders, preds, flags, ctl, queue⟩
  · rintro ⟨rest, labels, teams, threads, own⟩
    refine ⟨rest, labels, teams, threads, fun tm th htm hth => ?_⟩
    obtain ⟨tm', th', htm', hth', f⟩ := own tm th htm hth
    exact ⟨tm', th', htm', hth', f.team, f.thread, f.regs, f.extOther, f.extHolders, f.preds, f.flags, f.fpctl, f.queue⟩

theorem RegsFrame.issue (h : RegsFrame written pops ps fp w p q) : q.issue = p.issue := by
  rw [(regsFrame_iff.mp h).1]

/-! ### The part about the thread and its team -/

theorem TeamFrame.refl : TeamFrame written pops ps fp lid tm th tm th :=
  ⟨rfl, rfl, fun _ _ _ => rfl, fun _ h _ => h, rfl, fun _ _ => rfl, fun _ => ⟨rfl, rfl⟩, fun _ _ => rfl, fun _ => ⟨rfl, rfl⟩⟩

theorem TeamFrame.trans (h : TeamFrame written pops ps fp lid tm th tm' th') (h' : TeamFrame written pops ps fp lid tm' th' tm'' th'') :
    TeamFrame written pops ps fp lid tm th tm'' th'' where
  team := by rw [h'.team, h.team]
  thread := by rw [h'.thread, h.thread]
  regs d k hk := (h'.regs d k hk).trans (h.regs d k hk)
  extOther e he hb := by
    have base : tm'.extBase lid = tm.extBase lid := by rw [h.team]; rfl
    exact h'.extOther e (h.extOther e he hb) (by rwa [base])
  extHolders := h'.extHolders.trans h.extHolders
  preds k hk := (h'.preds k hk).trans (h.preds k hk)
  flags hf := ⟨(h'.flags hf).1.trans (h.flags hf).1, (h'.flags hf).2.trans (h.flags hf).2⟩
  fpctl k hk := (h'.fpctl k hk).trans (h.fpctl k hk)
  queue hq := ⟨(h'.queue hq).1.trans (h.queue hq).1, (h'.queue hq).2.trans (h.queue hq).2⟩

theorem TeamFrame.mono (hw : ∀ d k, written d k → written' d k) (hq : pops → pops') (hp : ∀ k ∈ ps, k ∈ ps') (hf : fp = true → fp' = true)
    (h : TeamFrame written pops ps fp lid tm th tm' th') : TeamFrame written' pops' ps' fp' lid tm th tm' th' where
  team := h.team
  thread := h.thread
  regs d k hk := h.regs d k (fun hd => hk (hw d k hd))
  extOther := h.extOther
  extHolders := h.extHolders
  preds k hk := h.preds k (fun hd => hk (hp k hd))
  flags hf' := h.flags (by cases fp with | false => rfl | true => rw [hf rfl] at hf'; cases hf')
  fpctl := h.fpctl
  queue hk := h.queue (fun hd => hk (hq hd))

/-! ### The frame of a package -/

theorem RegsFrame.refl : RegsFrame written pops ps fp w p p :=
  regsFrame_iff.mpr ⟨rfl, fun _ h => h, fun _ _ => rfl, fun _ _ => rfl, fun tm th h h' => ⟨tm, th, h, h', .refl⟩⟩

theorem RegsFrame.trans (h : RegsFrame written pops ps fp w p q) (h' : RegsFrame written pops ps fp w q r) :
    RegsFrame written pops ps fp w p r := by
  obtain ⟨rest, labels, teams, threads, own⟩ := regsFrame_iff.mp h
  obtain ⟨rest', labels', teams', threads', own'⟩ := regsFrame_iff.mp h'
  refine regsFrame_iff.mpr ⟨by rw [rest', rest], fun e he => labels' e (labels e he), fun t ht => (teams' t ht).trans (teams t ht),
    fun v hv => (threads' v hv).trans (threads v hv), fun tm th htm hth => ?_⟩
  obtain ⟨tm', th', htm', hth', f⟩ := own tm th htm hth
  obtain ⟨tm'', th'', htm'', hth'', f'⟩ := own' tm' th' htm' hth'
  exact ⟨tm'', th'', htm'', hth'', f.trans f'⟩

/-- Wider bounds; those on the registers matter only where the thread exists. -/
theorem RegsFrame.mono (hw : ∀ th, p.thread? w = some th → ∀ d k, written d k → written' d k) (hq : pops → pops') (hp : ∀ k ∈ ps, k ∈ ps')
    (hf : fp = true → fp' = true) (h : RegsFrame written pops ps fp w p q) : RegsFrame written' pops' ps' fp' w p q := by
  obtain ⟨rest, labels, teams, threads, own⟩ := regsFrame_iff.mp h
  refine regsFrame_iff.mpr ⟨rest, labels, teams, threads, fun tm th htm hth => ?_⟩
  obtain ⟨tm', th', htm', hth', f⟩ := own tm th htm hth
  exact ⟨tm', th', htm', hth', f.mono (hw th hth) hq hp hf⟩

/-! ### What lies in the frame -/

/-- Entries may join the label table. -/
theorem regsFrame_labels {ls : List (Nat × Mask)} (h : ∀ e ∈ p.labels, e ∈ ls) : RegsFrame written pops ps fp w p { p with labels := ls } :=
  regsFrame_iff.mpr ⟨rfl, h, fun _ _ => rfl, fun _ _ => rfl, fun tm th htm hth => ⟨tm, th, htm, hth, .refl⟩⟩

/-- A change of the thread's team that leaves its other threads alone. -/
theorem regsFrame_setTeam {F : Team → Team} (hid : ∀ tm, (F tm).id = tm.id)
    (others : ∀ tm l, l ≠ w.lid → (F tm).thread? l = tm.thread? l)
    (own : ∀ tm th, p.thread? w = some th → tm.thread? w.lid = some th →
      ∃ th', (F tm).thread? w.lid = some th' ∧ TeamFrame written pops ps fp w.lid tm th (F tm) th') :
    RegsFrame written pops ps fp w p (p.setTeam w.team F) := by
  refine regsFrame_iff.mpr ⟨rfl, fun _ h => h, fun t ht => Package.team?_setTeam_of_ne hid p ht, fun v hv => ?_, fun tm th htm hth => ?_⟩
  · by_cases ht : v.team = w.team
    · have hl : v.lid ≠ w.lid := fun hl => hv (by cases v; cases w; cases ht; cases hl; rfl)
      rw [Package.thread?, Package.thread?, ht, Package.team?_setTeam_self hid]
      cases p.team? w.team with
      | none => rfl
      | some tm => exact others tm v.lid hl
    · rw [Package.thread?, Package.thread?, Package.team?_setTeam_of_ne hid p ht]
  · have htth : tm.thread? w.lid = some th := by rwa [Package.thread?, htm] at hth
    obtain ⟨th', hth', f⟩ := own tm th hth htth
    refine ⟨F tm, th', ?_, ?_, f⟩
    · rw [Package.team?_setTeam_self hid, htm, Option.map_some]
    · rw [Package.thread?, Package.team?_setTeam_self hid, htm, Option.map_some]
      exact hth'

/-- The register that a location names depends on the registers of the team and the thread alone. -/
theorem regAt_congr (team : tm' = { tm with threads := tm'.threads, dq := tm'.dq }) (lid : th'.lid = th.lid) (regs : th'.regs = th.regs)
    (ops : th'.ops = th.ops) (d : Dst) (k : Nat) : regAt tm' th' d k = regAt tm th d k := by
  rw [team]
  simp only [regAt, lid, regs, ops]
  rfl

/-- A change of the thread that leaves its registers alone. -/
theorem regsFrame_setThread {f : Thread → Thread}
    (rest : ∀ th, f th = { th with preds := (f th).preds, x0 := (f th).x0, x1 := (f th).x1, fpctl := (f th).fpctl, flagsLbl := (f th).flagsLbl })
    (preds : ∀ th, ∀ k : BitVec 5, k ∉ ps → (f th).preds.getD k.toNat LBit.zero = th.preds.getD k.toNat LBit.zero)
    (flags : ∀ th, p.thread? w = some th → fp = false → (f th).fpctl = th.fpctl ∧ (f th).flagsLbl = th.flagsLbl)
    (fpctl : ∀ th, p.thread? w = some th → ∀ k, k < 3 ∨ 7 < k → (f th).fpctl.getLsbD k = th.fpctl.getLsbD k) :
    RegsFrame written pops ps fp w p (p.setThread w f) := by
  have lid : ∀ th, (f th).lid = th.lid := fun th => by rw [rest]
  refine regsFrame_setTeam (fun _ => rfl) (fun tm l hl => Team.thread?_setThread_of_ne lid tm hl) (fun tm th hp hth => ⟨f th, ?_, ?_⟩)
  · rw [Team.thread?_setThread_self lid, hth, Option.map_some]
  · exact {
      team := rfl
      thread := by rw [rest]
      regs := fun d k _ => regAt_congr rfl (lid th) (by rw [rest]) (by rw [rest]) d k
      extOther := fun _ h _ => h
      extHolders := rfl
      preds := preds th
      flags := flags th hp
      fpctl := fpctl th hp
      queue := fun _ => ⟨rfl, by rw [rest]⟩ }

/-- What freeing entries of the decision queue leaves, for a form that may pop it. -/
theorem TeamFrame.freeDQ (hq : pops) : TeamFrame written pops ps fp lid tm th tm.freeDQ th where
  team := by rw [Team.freeDQ_eq]
  thread := rfl
  regs d k _ := regAt_congr (by rw [Team.freeDQ_eq]) rfl rfl rfl d k
  extOther e he _ := by rwa [Team.freeDQ_eq]
  extHolders := by rw [Team.freeDQ_eq]
  preds _ _ := rfl
  flags _ := ⟨rfl, rfl⟩
  fpctl _ _ := rfl
  queue hn := absurd hq hn

/-- Taking entries from the decision queue, for a form that may (R49, R50). -/
theorem regsFrame_takeDQ (hq : pops) (n : Nat) : RegsFrame written pops ps fp w p
    (p.setTeam w.team (fun tm => (tm.setThread w.lid (fun th => { th with dqIdx := th.dqIdx + n })).freeDQ)) := by
  refine regsFrame_setTeam (fun tm => Team.freeDQ_id _) (fun tm l hl => ?_) (fun tm th _ hth => ⟨{ th with dqIdx := th.dqIdx + n }, ?_, ?_⟩)
  · rw [Team.freeDQ_thread?, Team.thread?_setThread_of_ne (fun _ => by rfl) tm hl]
  · rw [Team.freeDQ_thread?, Team.thread?_setThread_self (fun _ => by rfl), hth, Option.map_some]
  · refine TeamFrame.trans (tm' := tm.setThread w.lid (fun th => { th with dqIdx := th.dqIdx + n })) ?_ (.freeDQ hq)
    exact ⟨rfl, rfl, fun d k _ => regAt_congr rfl rfl rfl rfl d k, fun _ h _ => h, rfl, fun _ _ => rfl, fun _ => ⟨rfl, rfl⟩,
      fun _ _ => rfl, fun hn => absurd hq hn⟩

/-! ### Writing registers -/

theorem getD_set_of_ne {α : Type} {i j : Nat} (h : i ≠ j) (l : List α) (a z : α) : (l.set i a).getD j z = l.getD j z := by
  rw [List.getD_eq_getElem?_getD, List.getD_eq_getElem?_getD, List.getElem?_set_ne h]

theorem TeamFrame.putMain {i : Nat} {v : LReg} (hw : ∀ j k, j + k = i → written (.main j) k) :
    TeamFrame written pops ps fp lid tm th (tm.setThread lid (fun th => { th with regs := th.regs.set i v })) { th with regs := th.regs.set i v } := by
  refine ⟨rfl, rfl, fun d k hk => ?_, fun _ h _ => h, rfl, fun _ _ => rfl, fun _ => ⟨rfl, rfl⟩, fun _ _ => rfl, fun _ => ⟨rfl, rfl⟩⟩
  cases d with
  | main j =>
    have hne : i ≠ j + k := fun h => hk (hw j k h.symm)
    simp only [regAt, getD_set_of_ne hne]
    rfl
  | op j => rfl
  | sreg j => rfl
  | latch b => rfl
  | discard => rfl

theorem TeamFrame.putExt {i : Nat} {v : LReg} (hth : th.lid = lid) (hi : tm.nregs ≤ i) (hw : ∀ j k, j + k = i → written (.main j) k) :
    TeamFrame written pops ps fp lid tm th (tm.putExt lid (i - tm.nregs) v) th := by
  refine ⟨rfl, rfl, fun d k hk => ?_, fun e he hb => ?_, ?_, fun _ _ => rfl, fun _ => ⟨rfl, rfl⟩, fun _ _ => rfl, fun _ => ⟨rfl, rfl⟩⟩
  · cases d with
    | main j =>
      have hne : i ≠ j + k := fun h => hk (hw j k h.symm)
      have hr : (tm.putExt lid (i - tm.nregs) v).nregs = tm.nregs := rfl
      simp only [regAt, hth, Team.putExt_extBlock?, hr]
      by_cases hj : j + k < tm.nregs
      · simp only [hj, if_true]
      · have hne' : i - tm.nregs ≠ j + k - tm.nregs := by omega
        cases tm.extBlock? lid with
        | none => rfl
        | some e => simp only [Option.map_some, getD_set_of_ne hne']
    | op j => rfl
    | sreg j => rfl
    | latch b => rfl
    | discard => rfl
  · have hc : (e.base == tm.extBase lid) = false := by simpa using hb
    exact List.mem_map.mpr ⟨e, he, by simp [hc]⟩
  · simp only [Team.putExt, mapIf, List.map_map]
    refine List.map_congr_left fun e _ => ?_
    simp only [Function.comp_apply]
    split <;> rfl

theorem TeamFrame.putOp {i : Nat} {v : LReg} (hw : ∀ j k, j + k = i → written (.op j) k) :
    TeamFrame written pops ps fp lid tm th (tm.setThread lid (fun th => { th with ops := th.ops.set i v })) { th with ops := th.ops.set i v } := by
  refine ⟨rfl, rfl, fun d k hk => ?_, fun _ h _ => h, rfl, fun _ _ => rfl, fun _ => ⟨rfl, rfl⟩, fun _ _ => rfl, fun _ => ⟨rfl, rfl⟩⟩
  cases d with
  | main j => rfl
  | op j =>
    have hne : i ≠ j + k := fun h => hk (hw j k h.symm)
    simp only [regAt, getD_set_of_ne hne]
  | sreg j => rfl
  | latch b => rfl
  | discard => rfl

theorem TeamFrame.putSreg {i : Nat} {v : LReg} (hw : ∀ j k, j + k = i → written (.sreg j) k) :
    TeamFrame written pops ps fp lid tm th { tm with sregs := tm.sregs.set i v } th := by
  refine ⟨rfl, rfl, fun d k hk => ?_, fun _ h _ => h, rfl, fun _ _ => rfl, fun _ => ⟨rfl, rfl⟩, fun _ _ => rfl, fun _ => ⟨rfl, rfl⟩⟩
  cases d with
  | main j => rfl
  | op j => rfl
  | sreg j =>
    have hne : i ≠ j + k := fun h => hk (hw j k h.symm)
    simp only [regAt, getD_set_of_ne hne]
  | latch b => rfl
  | discard => rfl

/-- Writing register n of a location, in the thread, leaves the registers outside the first N of the location. -/
theorem TeamFrame.putReg {d : Dst} {n N : Nat} {v : LReg} (hn : n < N) (hth : tm.thread? lid = some th) :
    ∃ th', (tm.putReg lid d n v).thread? lid = some th' ∧
      TeamFrame (fun e k => Dst.within e k d N) pops ps fp lid tm th (tm.putReg lid d n v) th' := by
  cases d with
  | main i =>
    have hw : ∀ j k, j + k = i + n → Dst.within (.main j) k (.main i) N := fun j k h => ⟨by omega, by omega⟩
    by_cases h : i + n < tm.nregs
    · refine ⟨{ th with regs := th.regs.set (i + n) v }, ?_, ?_⟩
      · simp only [Team.putReg, h, if_true]
        rw [Team.thread?_setThread_self (fun _ => by rfl), hth, Option.map_some]
      · simpa only [Team.putReg, h, if_true] using TeamFrame.putMain hw
    · refine ⟨th, ?_, ?_⟩
      · simp only [Team.putReg, h, if_false]
        exact hth
      · simpa only [Team.putReg, h, if_false] using TeamFrame.putExt (Team.lid_of_thread? hth) (Nat.le_of_not_lt h) hw
  | op i =>
    refine ⟨{ th with ops := th.ops.set (i + n) v }, ?_, TeamFrame.putOp fun j k h => ⟨by omega, by omega⟩⟩
    exact (Team.thread?_setThread_self (fun _ => by rfl) tm lid).trans (by rw [hth, Option.map_some])
  | sreg i => exact ⟨th, hth, TeamFrame.putSreg fun j k h => ⟨by omega, by omega⟩⟩
  | latch b => exact ⟨th, hth, .refl⟩
  | discard => exact ⟨th, hth, .refl⟩

theorem Team.putReg_others {d : Dst} {n l : Nat} {v : LReg} (h : l ≠ lid) : (tm.putReg lid d n v).thread? l = tm.thread? l := by
  cases d with
  | main i =>
    by_cases hi : i + n < tm.nregs
    · simp only [Team.putReg, hi, if_true]
      exact Team.thread?_setThread_of_ne (fun _ => by rfl) tm h
    · simp only [Team.putReg, hi, if_false]
      rfl
  | op k => exact Team.thread?_setThread_of_ne (fun _ => by rfl) tm h
  | sreg k => rfl
  | latch b => rfl
  | discard => rfl

theorem regsFrame_putReg {d : Dst} {n N : Nat} {v : LReg} (hn : n < N) :
    RegsFrame (fun e k => Dst.within e k d N) pops ps fp w p (p.putReg w d n v) := by
  rw [Package.putReg_eq_setTeam]
  exact regsFrame_setTeam (fun _ => Team.putReg_id ..) (fun _ _ h => Team.putReg_others h) (fun _ _ _ hth => TeamFrame.putReg hn hth)

theorem regsFrame_putRegs {d : Dst} {n N : Nat} {l : Lbl} {vs : List Word} (hn : n + vs.length ≤ N) :
    RegsFrame (fun e k => Dst.within e k d N) pops ps fp w p (p.putRegs w d l n vs) := by
  induction vs generalizing p n with
  | nil => exact .refl
  | cons v vs ih =>
    rw [List.length_cons] at hn
    exact (regsFrame_putReg (by omega)).trans (ih (by omega))

theorem length_toWords (n x : Nat) : (toWords n x).length = n := by
  induction n generalizing x with
  | zero => rfl
  | succ n ih => rw [toWords, List.length_cons, ih]

/-- Writing a result of n registers changes those n alone (R79, R113). -/
theorem regsFrame_putVal {d : Dst} {n v : Nat} {l : Lbl} : RegsFrame (fun e k => Dst.within e k d n) pops ps fp w p (p.putVal w d n v l) :=
  regsFrame_putRegs (Nat.le_of_eq ((Nat.zero_add _).trans (length_toWords n v)))

end

end Sys2Proof.Claims
end

section
/-! SUPPORT. What the steps of a form that computes answer, and the frame of each: its reads, its label, its exceptions and its write. -/

namespace Sys2Proof.Claims

open Sys2Proof.Machine

section
variable {α β : Type} {p q r : Package}

/-! ### Effects that give a value -/

theorem gives_bind {m : PM α} {f : α → PM β} {b : β} : Gives (m >>= f) p b q ↔ ∃ a r, Gives m p a r ∧ Gives (f a) r b q := by
  simp only [Gives, Laws.p_bind]
  cases h : m p with
  | error e => simp
  | ok x =>
    obtain ⟨a, r⟩ := x
    simp only [Except.ok.injEq, Prod.mk.injEq]
    exact ⟨fun h => ⟨a, r, ⟨rfl, rfl⟩, h⟩, fun ⟨_, _, ⟨ha, hr⟩, h⟩ => ha ▸ hr ▸ h⟩

theorem Gives.bind {m : PM α} {f : α → PM β} {a : α} {b : β} (h : Gives m p a r) (h' : Gives (f a) r b q) : Gives (m >>= f) p b q :=
  gives_bind.mpr ⟨a, r, h, h'⟩

theorem gives_pure {a b : α} : Gives (pure a) p b q ↔ b = a ∧ q = p := by
  simp [Gives, Laws.p_pure, eq_comm]

theorem gives_get {x : Package} : Gives get p x q ↔ x = p ∧ q = p := by
  simp [Gives, Laws.p_get, eq_comm]

theorem gives_modify {f : Package → Package} {u : Unit} : Gives (modify f) p u q ↔ q = f p := by
  simp [Gives, Laws.p_modify, eq_comm]

theorem gives_thr {w : Who} {th : Thread} : Gives (thr w) p th q ↔ p.thread? w = some th ∧ q = p := by
  rw [Gives, Laws.p_thr]
  cases p.thread? w <;> simp [eq_comm]

theorem gives_teamOf {w : Who} {tm : Team} : Gives (teamOf w) p tm q ↔ p.team? w.team = some tm ∧ q = p := by
  rw [Gives, Laws.p_team]
  cases p.team? w.team <;> simp [eq_comm]

theorem gives_theIssue {i : Issue} : Gives theIssue p i q ↔ p.issue = some i ∧ q = p := by
  rw [Gives, Laws.p_issue]
  cases p.issue <;> simp [eq_comm]

theorem gives_maskOf {l : Lbl} {m : Mask} : Gives (maskOf l) p m q ↔ m = p.maskOf l ∧ q = p := by
  simp [Gives, Laws.p_maskOf, eq_comm]

theorem gives_setThr {w : Who} {f : Thread → Thread} {u : Unit} : Gives (setThr w f) p u q ↔ q = p.setThread w f := gives_modify

theorem gives_setTeam {w : Who} {f : Team → Team} {u : Unit} : Gives (setTeam w f) p u q ↔ q = p.setTeam w.team f := gives_modify

theorem gives_mkLabel {m : Mask} {l : Lbl} : Gives (mkLabel m) p l q ↔ p.labelFor m = some (l, q) := by
  rw [Gives, mkLabel]
  cases h : p.labelFor m with
  | none => simp
  | some x =>
    obtain ⟨l', r⟩ := x
    simp only [Except.ok.injEq, Prod.mk.injEq, Option.some.injEq]

theorem gives_ite {c : Prop} [Decidable c] {m m' : PM α} {a : α} : Gives (if c then m else m') p a q ↔ if c then Gives m p a q else Gives m' p a q := by
  split <;> rfl

end

section
variable {ps : List (BitVec 5)} {fp : Bool} {us : List FieldUse} {w : Who} {p q r : Package} {f : Fld} {n v : Nat} {lbl : Lbl} {u : Unit}

/-! ### Places and labels -/

/-- The storage that a field names depends on the clause and the window base alone (R75, R79, R80). -/
theorem resolve_congr {d : Dst} (hi : q.issue = p.issue) (hw : (q.thread? w).map (·.wbase) = (p.thread? w).map (·.wbase))
    (h : Gives (resolve w f) q d r) : Gives (resolve w f) p d p ∧ r = q := by
  cases hp : w.isPilot with
  | true =>
    simp only [resolve, hp, if_true, gives_bind, gives_theIssue, gives_pure] at h ⊢
    obtain ⟨i, _, ⟨hq, rfl⟩, rfl, rfl⟩ := h
    exact ⟨⟨i, p, ⟨hi ▸ hq, rfl⟩, rfl, rfl⟩, rfl⟩
  | false =>
    simp only [resolve, hp, Bool.false_eq_true, if_false, gives_bind, gives_thr, gives_pure] at h ⊢
    obtain ⟨th, _, ⟨hq, rfl⟩, rfl, rfl⟩ := h
    rw [hq, Option.map_some, eq_comm, Option.map_eq_some_iff] at hw
    obtain ⟨th', hth', hb⟩ := hw
    exact ⟨⟨th', p, ⟨hth', rfl⟩, by rw [hb], rfl⟩, rfl⟩

theorem mem_insertBy {β : Type} {key : β → Nat} {x y : β} {l : List β} (h : y ∈ l) : y ∈ insertBy key x l := by
  induction l with
  | nil => cases h
  | cons z l ih =>
    rw [insertBy]
    split
    · exact List.mem_cons_of_mem x h
    · rcases List.mem_cons.mp h with rfl | h
      · exact List.mem_cons_self
      · exact List.mem_cons_of_mem z (ih h)

/-- A new label joins the table, and no entry leaves it (R108). -/
theorem labelFor_keeps {m : Mask} (h : p.labelFor m = some (lbl, q)) : ∀ e ∈ p.labels, e ∈ q.labels := by
  intro e he
  simp only [Package.labelFor] at h
  split at h
  · cases h
    exact he
  · split at h
    · cases h
      exact mem_insertBy he
    · cases h

theorem regsFrame_mkLabel {written : Dst → Nat → Prop} {pops : Prop} {m : Mask} (h : Gives (mkLabel m) p lbl q) :
    RegsFrame written pops ps fp w p q := by
  rw [gives_mkLabel] at h
  rw [(labelFor_spec h).1]
  exact regsFrame_labels (labelFor_keeps h)

/-! ### Before the write -/

/-- What the steps of a form before its write may change: nothing but the label table, the decision queue where a field names it, and the
FLAGS bits of a floating form. -/
def ReadFrame (us : List FieldUse) (fp : Bool) (w : Who) (p q : Package) : Prop :=
  RegsFrame (fun _ _ => False) (∃ u ∈ us, u.f.toNat = 123) [] fp w p q

theorem ReadFrame.refl : ReadFrame us fp w p p := RegsFrame.refl

theorem regsFrame_popDQ {written : Dst → Nat → Prop} {pops : Prop} {es : List LReg} (hq : pops) (h : Gives (popDQ w n) p es q) :
    RegsFrame written pops ps fp w p q := by
  simp only [popDQ, gives_bind, gives_thr, gives_teamOf] at h
  obtain ⟨th, _, ⟨-, rfl⟩, tm, _, ⟨-, rfl⟩, h⟩ := h
  split at h
  · simp only [gives_bind, gives_setTeam, gives_pure] at h
    obtain ⟨_, r, rfl, -, rfl⟩ := h
    exact regsFrame_takeDQ hq n
  · split at h <;> cases h

/-- A source field changes nothing, but that field 123 pops the decision queue (R22, R79). -/
theorem regsFrame_readField {written : Dst → Nat → Prop} {pops : Prop} {lit : Option Word} {e : Ext} {x : Nat × Mask}
    (hq : f.toNat = 123 → pops) (h : Gives (readField w n f lit e) p x q) : RegsFrame written pops ps fp w p q := by
  simp only [readField, gives_bind, gives_thr, gives_teamOf, gives_get, gives_ite, gives_pure] at h
  obtain ⟨th, _, ⟨-, rfl⟩, tm, _, ⟨-, rfl⟩, _, _, ⟨rfl, rfl⟩, h⟩ := h
  split at h
  · rw [h.2]; exact .refl
  split at h
  · rw [h.2]; exact .refl
  split at h
  next hf =>
    obtain ⟨es, r, hpop, -, rfl⟩ := h
    exact regsFrame_popDQ (hq (by simpa using hf)) hpop
  split at h
  · rw [h.2]; exact .refl
  split at h
  · rw [h.2]; exact .refl
  · obtain ⟨d, r, hd, -, rfl⟩ := h
    rw [(resolve_congr rfl rfl hd).2]
    exact .refl

theorem ReadFrame.trans (h : ReadFrame us fp w p q) (h' : ReadFrame us fp w q r) : ReadFrame us fp w p r := RegsFrame.trans h h'

/-- The frame goes on over a source field. -/
theorem ReadFrame.field {lit : Option Word} {e : Ext} {x : Nat × Mask} (h : ReadFrame us fp w p r)
    (hf : f.toNat = 123 → ∃ u ∈ us, u.f.toNat = 123) (hr : Gives (readField w n f lit e) r x q) : ReadFrame us fp w p q :=
  h.trans (regsFrame_readField hf hr)

theorem readSreg_keeps {b : BitVec 7} {x : Nat × Mask} (h : Gives (readSreg w n b) p x q) : q = p := by
  simp only [readSreg, gives_bind, gives_theIssue, gives_teamOf, gives_get, gives_pure] at h
  obtain ⟨i, _, ⟨-, rfl⟩, tm, _, ⟨-, rfl⟩, _, _, ⟨-, rfl⟩, -, rfl⟩ := h
  rfl

/-- The frame goes on over the B operand. -/
theorem ReadFrame.operandB {b : BOp} {lit : Option Word} {imm : BitVec 7 → Nat} {e : Ext} {x : Nat × Mask} (h : ReadFrame us fp w p r)
    (hb : ∀ u ∈ srcB b n, u ∈ us) (hr : Gives (readB w n b lit imm e) r x q) : ReadFrame us fp w p q := by
  cases b with
  | reg f => exact h.field (fun hf => ⟨src f n, hb _ (by simp [srcB]), hf⟩) hr
  | imm k =>
    rw [(gives_pure.mp hr).2]
    exact h
  | sreg s =>
    rw [readSreg_keeps hr]
    exact h

/-- The frame goes on over the label of the result. -/
theorem ReadFrame.label {m : Mask} (h : ReadFrame us fp w p r) (hl : Gives (resultLabel w m) r lbl q) : ReadFrame us fp w p q := by
  simp only [resultLabel, env, gives_bind, gives_thr, gives_get, gives_pure] at hl
  obtain ⟨_, _, ⟨th, _, ⟨-, rfl⟩, _, _, ⟨-, rfl⟩, -, rfl⟩, hl⟩ := hl
  exact h.trans (regsFrame_mkLabel hl)

/-- The frame of a floating form goes on over its exceptions, which set FLAGS bits alone (R149). -/
theorem ReadFrame.exceptions {x : Exc} (h : ReadFrame us true w p r) (hx : Gives (raiseFp w x lbl) r u q) : ReadFrame us true w p q := by
  simp only [raiseFp, gives_bind, gives_thr, gives_get] at hx
  obtain ⟨th, _, ⟨hth, rfl⟩, _, _, ⟨-, rfl⟩, fl, r', hl, hx⟩ := hx
  split at hx
  · cases hx
  · rw [gives_setThr] at hx
    rw [hx]
    have hth' : r'.thread? w = some th := by
      rw [gives_mkLabel] at hl
      rw [(labelFor_spec hl).1]
      exact hth
    refine (h.trans (regsFrame_mkLabel hl)).trans (regsFrame_setThread (fun _ => rfl) (fun _ _ _ => rfl) (fun _ _ h => by cases h) ?_)
    intro th₁ h₁ k hk
    obtain rfl : th = th₁ := by rw [hth'] at h₁; exact Option.some.inj h₁
    have hx : (x.toNat * 8).testBit k = false := by
      rw [show 8 = 2 ^ 3 from rfl, Nat.testBit_mul_two_pow]
      rcases hk with hk | hk
      · simp [Nat.not_le.mpr hk]
      · rw [Nat.testBit_lt_two_pow (Nat.lt_of_lt_of_le x.isLt (Nat.pow_le_pow_right (by decide) (by omega)))]
        simp
    simp [BitVec.getLsbD_or, BitVec.getLsbD_ofNat, hx]

/-! ### The write -/

/-- The latch of the pipe that the instruction ran in, written (R82). -/
def latched (i : Issue) (l : Latch) (th : Thread) : Thread := if i.onV0 then { th with x0 := l } else { th with x1 := l }

theorem gives_vout : Gives (vout w f n v lbl) p u q ↔ ∃ d i, Gives (resolve w f) p d p ∧ p.issue = some i ∧
    q = (p.putVal w d n v lbl).setThread w (latched i { regs := n, val := v % 2 ^ (32 * n), lbl }) := by
  simp only [vout, out, gives_bind, gives_modify, gives_theIssue, gives_setThr]
  constructor
  · rintro ⟨_, _, ⟨d, r, hd, rfl⟩, i, _, ⟨hi, rfl⟩, rfl⟩
    obtain rfl := (resolve_congr rfl rfl hd).2
    exact ⟨d, i, hd, by rwa [Package.putVal_issue] at hi, rfl⟩
  · rintro ⟨d, i, hd, hi, rfl⟩
    exact ⟨(), _, ⟨d, p, hd, rfl⟩, i, _, ⟨by rwa [Package.putVal_issue], rfl⟩, rfl⟩

theorem regsFrame_latched {written : Dst → Nat → Prop} {pops : Prop} (i : Issue) (l : Latch) :
    RegsFrame written pops ps fp w p (p.setThread w (latched i l)) := by
  have h : latched i l = if i.onV0 then fun th => { th with x0 := l } else fun th => { th with x1 := l } := by
    funext th
    rw [latched]
    split <;> rfl
  rw [h]
  split
  · exact regsFrame_setThread (fun _ => rfl) (fun _ _ _ => rfl) (fun _ _ _ => ⟨rfl, rfl⟩) (fun _ _ _ _ => rfl)
  · exact regsFrame_setThread (fun _ => rfl) (fun _ _ _ => rfl) (fun _ _ _ => ⟨rfl, rfl⟩) (fun _ _ _ _ => rfl)

/-- What comes before the write leaves the storage that a field names. -/
theorem ReadFrame.resolve {d : Dst} {th : Thread} (h : ReadFrame us fp w p r) (hth : p.thread? w = some th) (hd : Gives (resolve w f) r d r) :
    Gives (resolve w f) p d p := by
  refine (resolve_congr h.issue ?_ hd).1
  obtain ⟨-, -, -, -, own⟩ := regsFrame_iff.mp h
  obtain ⟨tm, htm, -⟩ := Option.bind_eq_some_iff.mp hth
  obtain ⟨tm', th', -, hth', fr⟩ := own tm th htm hth
  rw [hth, hth', Option.map_some, Option.map_some, fr.thread]

/-- A form that ends with its result in D keeps its frame: the registers of D alone change (R79, R82). -/
theorem ReadFrame.result (h : ReadFrame us fp w p r) (hu : dst f n ∈ us) (hv : Gives (vout w f n v lbl) r u q) : ComputeFrame us ps fp w p q := by
  obtain ⟨d, i, hd, -, rfl⟩ := gives_vout.mp hv
  have written : ∀ th, p.thread? w = some th → ∀ e k, Dst.within e k d n →
      ∃ u ∈ us, u.dst = true ∧ ∃ d, Gives (Machine.resolve w u.f) p d p ∧ Dst.within e k d u.n :=
    fun th hth e k hk => ⟨_, hu, rfl, d, h.resolve hth hd, hk⟩
  have reads : RegsFrame (fun e k => Dst.within e k d n) (∃ u ∈ us, u.f.toNat = 123) ps fp w p r :=
    RegsFrame.mono (fun _ _ _ _ hf => hf.elim) id (fun _ hk => by cases hk) id h
  exact ((reads.trans regsFrame_putVal).trans (regsFrame_latched i _)).mono written id (fun _ hk => hk) id

/-- A form that ends with a predicate keeps its frame: that predicate alone changes (R84). -/
theorem ReadFrame.predicate {c : BitVec 5} {b : Bool} (h : ReadFrame us fp w p r) (hv : Gives (writePred w c b lbl) r u q) :
    ComputeFrame us [c] fp w p q := by
  rw [writePred, gives_setThr] at hv
  rw [hv]
  have reads : ComputeFrame us [c] fp w p r := RegsFrame.mono (fun _ _ _ _ hf => hf.elim) id (fun _ hk => by cases hk) id h
  refine reads.trans (regsFrame_setThread (fun _ => rfl) (fun th k hk => getD_set_of_ne (fun hc => hk ?_) _ _ _) (fun _ _ _ => ⟨rfl, rfl⟩)
    (fun _ _ _ _ => rfl))
  rw [BitVec.eq_of_toNat_eq hc]
  exact List.mem_singleton_self k

/-- The result of a form is the same where the seed was written before it, and the seed stays as written. -/
theorem gives_vout_setSeed {x : Word} (h : Gives (vout w f n v lbl) (p.setThread w (fun th => { th with seed := x })) u q) :
    ∃ r, Gives (vout w f n v lbl) p u r ∧ q = r.setThread w (fun th => { th with seed := x }) := by
  obtain ⟨d, i, hd, hi, rfl⟩ := gives_vout.mp h
  have window : ((p.setThread w (fun th => { th with seed := x })).thread? w).map (·.wbase) = (p.thread? w).map (·.wbase) := by
    rw [Package.thread?_setThread_self (fun _ => by rfl), Option.map_map]
    rfl
  refine ⟨_, gives_vout.mpr ⟨d, i, (resolve_congr (p := p) (by rfl) window hd).1, hi, rfl⟩, ?_⟩
  rw [Package.putVal, Package.putRegs_setSeed, Package.putVal]
  refine Package.setThread_comm (fun th => ?_) (fun _ => by rfl) (fun th => ?_) _ w
  · rw [latched]
    split <;> rfl
  · rw [latched, latched]
    split <;> rfl

end

end Sys2Proof.Claims
end

section
/-! SUPPORT. The forms that compute: for each shape, that it completes with its effect and that its effect keeps its frame. -/

namespace Sys2Proof.Claims

open Sys2Proof.Machine

theorem inTurn_mono {eff frame : Who → Package → Package → Prop} (h : ∀ w p q, eff w p q → frame w p q) {team : Nat} {ls : List Nat}
    {p q : Package} (ht : InTurn eff team ls p q) : InTurn frame team ls p q := by
  induction ls generalizing p with
  | nil => exact ht
  | cons l ls ih =>
    obtain ⟨r, hr, ht⟩ := ht
    exact ⟨r, h _ _ _ hr, ih ht⟩

/-- A form whose body runs in each thread is framed where the effect makes the body succeed and keeps the frame. -/
theorem framed_each {x : Instr} {body : Who → PM Unit} {eff frame : Who → Package → Package → Prop} (hx : ∀ s, exec x s = lift (each body) s)
    (run : ∀ w p q, eff w p q → Gives (body w) p () q) (keep : ∀ w p q, eff w p q → frame w p q) : Framed x eff frame :=
  fun s i q hi ht => ⟨Laws.completes_each hx run s i q hi ht, inTurn_mono keep ht⟩

/-! ### Shapes whose result is a value modulo its width -/

/-- The result of a form of n registers: the value of `f`, modulo the width. -/
def wraps1 (n : Nat) (f : Nat → Nat) (a v : Nat) : Prop := v = f a % 2 ^ (32 * n)
def wraps2 (n : Nat) (f : Nat → Nat → Nat) (a b v : Nat) : Prop := v = f a b % 2 ^ (32 * n)
def wraps3 (n : Nat) (f : Nat → Nat → Nat → Nat) (d a b v : Nat) : Prop := v = f d a b % 2 ^ (32 * n)

theorem exists_wrapped (n x : Nat) : ∃ v < 2 ^ (32 * n), v = x % 2 ^ (32 * n) := ⟨_, Nat.mod_lt _ (Nat.two_pow_pos _), rfl⟩

section
variable {T : Type} {nd na nb n : Nat} {e : Ext} {imm : BitVec 7 → Nat} {x : Instr}

theorem twoSource_frame {o : Alu T} {val : Nat → Nat → Nat → Prop} {w : Who} {p q : Package} (h : twoSource o nd na nb e imm val w p q) :
    ComputeFrame ([dst o.d nd, src o.a na] ++ srcB o.b nb) [] false w p q := by
  obtain ⟨_, _, _, _, _, _, _, _, _, -, ha, hb, hl, -, -, hv⟩ := h
  exact (((ReadFrame.refl.field (fun hf => ⟨src o.a na, by simp, hf⟩) ha).operandB (fun _ => List.mem_append_right _) hb).label hl).result (by simp) hv

theorem threeSource_frame {o : Alu T} {val : Nat → Nat → Nat → Nat → Prop} {w : Who} {p q : Package}
    (h : threeSource o nd na nb e imm val w p q) : ComputeFrame ([dst o.d nd, src o.a na] ++ srcB o.b nb) [] false w p q := by
  obtain ⟨_, _, _, _, _, _, _, _, _, _, _, _, -, hd, ha, hb, hl, -, -, hv⟩ := h
  exact ((((ReadFrame.refl.field (fun hf => ⟨dst o.d nd, by simp, hf⟩) hd).field (fun hf => ⟨src o.a na, by simp, hf⟩) ha).operandB
    (fun _ => List.mem_append_right _) hb).label hl).result (by simp) hv

theorem oneSource_frame {o : Un T} {val : Nat → Nat → Prop} {w : Who} {p q : Package} (h : oneSource o n e imm val w p q) :
    ComputeFrame (dst o.d n :: srcB o.b n) [] false w p q := by
  obtain ⟨_, _, _, _, _, _, -, hb, hl, -, -, hv⟩ := h
  exact ((ReadFrame.refl.operandB (fun _ => List.mem_cons_of_mem _) hb).label hl).result (by simp) hv

theorem framed_alu2 {o : Alu T} (f : Nat → Nat → Nat) (hx : ∀ s, exec x s = lift (each (fun w => alu2 w o nd na nb e imm f)) s) :
    ∃ val, Framed x (twoSource o nd na nb e imm val) (ComputeFrame ([dst o.d nd, src o.a na] ++ srcB o.b nb) [] false) ∧
      ∀ a b, ∃ v < 2 ^ (32 * nd), val a b v :=
  ⟨wraps2 nd f, framed_each hx (Laws.alu2_two fun _ _ _ hv _ => hv.symm) (fun _ _ _ => twoSource_frame), fun a b => exists_wrapped nd (f a b)⟩

theorem framed_alu3 {o : Alu T} (f : Nat → Nat → Nat → Nat) (hx : ∀ s, exec x s = lift (each (fun w => alu3 w o nd na nb e imm f)) s) :
    ∃ val, Framed x (threeSource o nd na nb e imm val) (ComputeFrame ([dst o.d nd, src o.a na] ++ srcB o.b nb) [] false) ∧
      ∀ d a b, ∃ v < 2 ^ (32 * nd), val d a b v :=
  ⟨wraps3 nd f, framed_each hx (Laws.alu3_three fun _ _ _ _ hv _ => hv.symm) (fun _ _ _ => threeSource_frame),
    fun d a b => exists_wrapped nd (f d a b)⟩

theorem framed_alu1 {o : Un T} (f : Nat → Nat) (hx : ∀ s, exec x s = lift (each (fun w => alu1 w o n n e imm f)) s) :
    ∃ val, Framed x (oneSource o n e imm val) (ComputeFrame (dst o.d n :: srcB o.b n) [] false) ∧ ∀ a, ∃ v < 2 ^ (32 * n), val a v :=
  ⟨wraps1 n f, framed_each hx (Laws.alu1_one fun _ _ hv _ => hv.symm) (fun _ _ _ => oneSource_frame), fun a => exists_wrapped n (f a)⟩

end

/-! ### Integer and logic forms -/

theorem framed_integer (o : Alu ITy) (x : Instr) (hx : x ∈ [Instr.add o, .isub o, .imul o, .imin o, .imax o]) :
    ∃ val, Framed x (integerForm o val) (ComputeFrame ([dst o.d o.ty.regs, src o.a o.ty.regs] ++ srcB o.b o.ty.regs) [] false) ∧
      ∀ a b, ∃ v < 2 ^ (32 * o.ty.regs), val a b v := by
  simp only [List.mem_cons, List.not_mem_nil, or_false] at hx
  rcases hx with rfl | rfl | rfl | rfl | rfl
  · exact framed_alu2 (fun a b => a + b) (fun _ => rfl)
  · exact framed_alu2 (fun a b => wrapInt (32 * o.ty.regs) ((a : Int) - b)) (fun _ => rfl)
  · exact framed_alu2 (fun a b => a * b) (fun _ => rfl)
  · exact framed_alu2 (fun a b => if iVal o.ty b < iVal o.ty a then b else a) (fun _ => rfl)
  · exact framed_alu2 (fun a b => if iVal o.ty a < iVal o.ty b then b else a) (fun _ => rfl)

theorem framed_logic (o : Alu LTy) (x : Instr) (hx : x ∈ [Instr.and o, .andn o, .or o, .xor o]) :
    ∃ val, Framed x (logicForm o val) (ComputeFrame ([dst o.d o.ty.regs, src o.a o.ty.regs] ++ srcB o.b o.ty.regs) [] false) ∧
      ∀ a b, ∃ v < 2 ^ (32 * o.ty.regs), val a b v := by
  simp only [List.mem_cons, List.not_mem_nil, or_false] at hx
  rcases hx with rfl | rfl | rfl | rfl
  · exact framed_alu2 (fun a b => a &&& b) (fun _ => rfl)
  · exact framed_alu2 (fun a b => a &&& (2 ^ lBits o.ty - 1 - b % 2 ^ lBits o.ty)) (fun _ => rfl)
  · exact framed_alu2 (fun a b => a ||| b) (fun _ => rfl)
  · exact framed_alu2 (fun a b => a ^^^ b) (fun _ => rfl)

theorem framed_shift (o : Alu LTy) (x : Instr) (hx : x ∈ [Instr.shl o, .shr o, .sar o, .rol o]) :
    ∃ val, Framed x (shiftForm o val) (ComputeFrame ([dst o.d o.ty.regs, src o.a o.ty.regs] ++ srcB o.b 1) [] false) ∧
      ∀ a b, ∃ v < 2 ^ (32 * o.ty.regs), val a b v := by
  simp only [List.mem_cons, List.not_mem_nil, or_false] at hx
  rcases hx with rfl | rfl | rfl | rfl
  · exact framed_alu2 (shlVal (lBits o.ty)) (fun _ => rfl)
  · exact framed_alu2 (shrVal (lBits o.ty)) (fun _ => rfl)
  · exact framed_alu2 (sarVal (lBits o.ty)) (fun _ => rfl)
  · exact framed_alu2 (rolVal (lBits o.ty)) (fun _ => rfl)

theorem framed_count (o : Un LTy) (x : Instr) (hx : x ∈ [Instr.popc o, .clz o, .brev o]) :
    ∃ val, Framed x (oneSource o o.ty.regs .unsigned lImm val) (ComputeFrame (dst o.d o.ty.regs :: srcB o.b o.ty.regs) [] false) ∧
      ∀ a, ∃ v < 2 ^ (32 * o.ty.regs), val a v := by
  simp only [List.mem_cons, List.not_mem_nil, or_false] at hx
  rcases hx with rfl | rfl | rfl
  · exact framed_alu1 (popcount (lBits o.ty)) (fun _ => rfl)
  · exact framed_alu1 (leadingZeros (lBits o.ty)) (fun _ => rfl)
  · exact framed_alu1 (reverseBits (lBits o.ty)) (fun _ => rfl)

theorem framed_iabs (wide : Bool) (o : Un Unit) :
    ∃ val, Framed (.iabs wide o) (oneSource o (if wide then 2 else 1) .signed (iImm (if wide then .i64 else .i32)) val)
      (ComputeFrame (dst o.d (if wide then 2 else 1) :: srcB o.b (if wide then 2 else 1)) [] false) ∧
      ∀ a, ∃ v < 2 ^ (32 * if wide then 2 else 1), val a v := by
  cases wide with
  | false => exact framed_alu1 (fun b => (iVal .i32 b).natAbs) (fun _ => rfl)
  | true => exact framed_alu1 (fun b => (iVal .i64 b).natAbs) (fun _ => rfl)

theorem framed_lea (o : Alu (BitVec 2)) :
    ∃ val, Framed (.lea o) (twoSource o 2 2 1 .unsigned (iImm .i32) val) (ComputeFrame ([dst o.d 2, src o.a 2] ++ srcB o.b 1) [] false) ∧
      ∀ a b, ∃ v < 2 ^ 64, val a b v :=
  framed_alu2 (fun a b => wrapInt 64 ((a : Int) + intBits 32 b * 2 ^ o.ty.toNat)) (fun _ => rfl)

theorem addc_frame {o : Alu Unit} (hd : o.d.toNat ≤ 118) {w : Who} {p q : Package} (h : addcEffect o w p q) :
    ComputeFrame ([dst o.d 2, src o.a 1] ++ srcB o.b 1) [] false w p q := by
  obtain ⟨_, _, _, _, _, _, _, _, _, _, _, -, hc, ha, hb, hl, hv⟩ := h
  have carry : (o.d + 1).toNat ≠ 123 := by bv_omega
  exact ((((ReadFrame.refl.field (fun hf => absurd hf carry) hc).field (fun hf => ⟨src o.a 1, by simp, hf⟩) ha).operandB
    (fun _ => List.mem_append_right _) hb).label hl).result (by simp) hv

theorem framed_addc (o : Alu Unit) (hd : o.d.toNat ≤ 118) :
    Framed (.addc o) (addcEffect o) (ComputeFrame ([dst o.d 2, src o.a 1] ++ srcB o.b 1) [] false) := by
  refine framed_each (fun _ => rfl) (fun w p q h => ?_) (fun _ _ _ => addc_frame hd)
  obtain ⟨_, _, _, _, _, _, _, _, _, _, _, hp, hc, ha, hb, hl, hv⟩ := h
  exact Gives.bind hp (Gives.bind hc (Gives.bind ha (Gives.bind hb (Gives.bind hl hv))))

end Sys2Proof.Claims
end

section
/-! SUPPORT. The moves, selections and predicates: each completes with its effect and keeps its frame. -/

namespace Sys2Proof.Claims

open Sys2Proof.Machine

theorem intBits_toNat {n : Nat} (k : BitVec n) : intBits n k.toNat = k.toInt := by
  simp only [intBits, BitVec.toInt_eq_toNat_cond, Nat.mod_eq_of_lt k.isLt]

/-! ### MOV, MOVL and SEL -/

/-- A value read from B and written to D keeps the frame of these fields. -/
theorem move_frame {d : Fld} {b : BOp} {n : Nat} {lit : Option Word} {imm : BitVec 7 → Nat} {e : Ext} {w : Who} {p q : Package}
    (h : ∃ y ly p₁ lbl p₂, Passes w (dst d n :: srcB b n) p ∧ Gives (readB w n b lit imm e) p (y, ly) p₁ ∧
      Gives (resultLabel w ly) p₁ lbl p₂ ∧ Gives (vout w d n y lbl) p₂ () q) : ComputeFrame (dst d n :: srcB b n) [] false w p q := by
  obtain ⟨y, ly, p₁, lbl, p₂, -, hr, hl, hv⟩ := h
  exact ((ReadFrame.refl.operandB (fun _ => List.mem_cons_of_mem _) hr).label hl).result List.mem_cons_self hv

theorem mov_frame {o : Alu ITy} {w : Who} {p q : Package} (h : movEffect o w p q) : movFrame o w p q := by
  cases hb : o.b with
  | sreg b =>
    simp only [movEffect, hb, Who.isPilot, beq_iff_eq] at h
    simp only [movFrame, hb]
    split at h
    next hw =>
      obtain ⟨i, x, lx, p₁, lbl, p₂, -, -, hi, ha, hl, rfl⟩ := h
      rw [if_pos hw]
      intro j hj
      obtain rfl : i = j := Option.some.inj (hi.symm.trans hj)
      have reads : ReadFrame [src o.a o.ty.regs] false w p p₂ := (ReadFrame.refl.field (fun hf => ⟨src o.a o.ty.regs, by simp, hf⟩) ha).label hl
      refine RegsFrame.trans (reads.mono (fun _ _ _ _ hf => hf.elim) ?_ (fun _ hk => hk) id) regsFrame_putVal
      rintro ⟨u, hu, hf⟩
      rwa [List.mem_singleton.mp hu] at hf
    next hw =>
      obtain ⟨i, v, lbl, p₁, -, -, -, -, -, hl, hv⟩ := h
      rw [if_neg hw]
      exact (ReadFrame.refl.label hl).result (by simp) hv
  | reg f =>
    simp only [movEffect, hb] at h
    simp only [movFrame, hb]
    exact move_frame h
  | imm k =>
    simp only [movEffect, hb] at h
    simp only [movFrame, hb]
    exact move_frame h

theorem framed_mov (o : Alu ITy) : Framed (.mov o) (movEffect o) (movFrame o) := by
  refine framed_each (fun _ => rfl) (fun w p q h => ?_) (fun _ _ _ => mov_frame)
  cases hb : o.b with
  | sreg b =>
    simp only [movEffect, hb] at h
    dsimp only
    split at h
    next hw =>
      obtain ⟨i, x, lx, p₁, lbl, p₂, hd, hp, hi, ha, hl, rfl⟩ := h
      simp only [hw, if_true, hd, bne_self_eq_false, Bool.false_eq_true, if_false]
      exact Gives.bind hp (Gives.bind (gives_theIssue.mpr ⟨hi, rfl⟩) (Gives.bind ha (Gives.bind hl (gives_modify.mpr rfl))))
    next hw =>
      obtain ⟨i, v, lbl, p₁, ha, hp, hi, ht, rfl, hl, hv⟩ := h
      obtain ⟨tm, htm⟩ := Option.isSome_iff_exists.mp ht
      have sampled : Gives (readSreg w o.ty.regs b) p (valueOf ((i.sregs.drop b.toNat).take o.ty.regs),
          p.joinOf (labelsOf ((i.sregs.drop b.toNat).take o.ty.regs))) p := by
        simp only [readSreg, hw]
        exact Gives.bind (gives_theIssue.mpr ⟨hi, rfl⟩) (Gives.bind (gives_teamOf.mpr ⟨htm, rfl⟩) (Gives.bind (gives_get.mpr ⟨rfl, rfl⟩)
          (gives_pure.mpr ⟨rfl, rfl⟩)))
      simp only [hw, ha, bne_self_eq_false, Bool.false_eq_true, if_false]
      exact Gives.bind hp (Gives.bind sampled (Gives.bind hl hv))
  | reg f =>
    simp only [movEffect, hb] at h
    dsimp only
    obtain ⟨y, ly, p₁, lbl, p₂, hp, hr, hl, hv⟩ := h
    exact Gives.bind hp (Gives.bind hr (Gives.bind hl hv))
  | imm k =>
    simp only [movEffect, hb] at h
    dsimp only
    obtain ⟨y, ly, p₁, lbl, p₂, hp, hr, hl, hv⟩ := h
    exact Gives.bind hp (Gives.bind hr (Gives.bind hl hv))

theorem movl_frame {ty : ITy} {d : Fld} {k : BitVec 14} {w : Who} {p q : Package} (h : movlEffect ty d k w p q) :
    ComputeFrame [dst d ty.regs] [] false w p q := by
  obtain ⟨_, _, _, -, hl, -, hv⟩ := h
  exact (ReadFrame.refl.label hl).result (by simp) hv

theorem framed_movl (ty : ITy) (d : Fld) (k : BitVec 14) : Framed (.movl ty d k) (movlEffect ty d k) (ComputeFrame [dst d ty.regs] [] false) := by
  refine framed_each (fun _ => rfl) (fun w p q h => ?_) (fun _ _ _ => movl_frame)
  obtain ⟨lbl, p₁, v, hp, hl, hval, hv⟩ := h
  refine Gives.bind hp (Gives.bind hl ?_)
  rw [Gives, Laws.vout_mod w d ty.regs _ v lbl ?_]
  · exact hv
  · cases ty <;> simp only [ITy.regs, wrapInt, intBits_toNat, reduceCtorEq, or_self, or_true, true_or, if_true, if_false] at hval ⊢ <;> omega

theorem sel_frame {sense : Bool} {c : BitVec 5} {o : Un LTy} {w : Who} {p q : Package} (h : selEffect sense c o w p q) :
    ComputeFrame (dst o.d o.ty.regs :: srcB o.b o.ty.regs) [] false w p q := by
  obtain ⟨_, _, _, _, _, _, _, _, _, _, -, -, hd, hb, hl, hv⟩ := h
  exact (((ReadFrame.refl.field (fun hf => ⟨dst o.d o.ty.regs, by simp, hf⟩) hd).operandB (fun _ => List.mem_cons_of_mem _) hb).label hl).result
    (by simp) hv

theorem framed_sel (sense : Bool) (c : BitVec 5) (o : Un LTy) :
    Framed (.sel sense c o) (selEffect sense c o) (ComputeFrame (dst o.d o.ty.regs :: srcB o.b o.ty.regs) [] false) := by
  refine framed_each (fun _ => rfl) (fun w p q h => ?_) (fun _ _ _ => sel_frame)
  obtain ⟨_, _, _, _, _, _, _, _, _, _, hp, hc, hd, hb, hl, hv⟩ := h
  exact Gives.bind hp (Gives.bind hc (Gives.bind hd (Gives.bind hb (Gives.bind hl hv))))

/-! ### Comparisons and predicates -/

theorem signed_eq_toInt (n x : Nat) : signed n x = (BitVec.ofNat n x).toInt := by
  rw [BitVec.toInt_eq_msb_cond, BitVec.msb_eq_getLsbD_last, ← BitVec.testBit_toNat, BitVec.toNat_ofNat, signed]
  norm_cast

theorem intBits_eq_toInt (n x : Nat) : intBits n x = (BitVec.ofNat n x).toInt := by
  rw [← intBits_toNat, BitVec.toNat_ofNat, intBits, intBits, Nat.mod_mod]

theorem valueIn_eq (t : ITy) (x : Nat) : valueIn t x = iVal t x := by
  cases t with
  | n32 => rfl
  | i32 => exact (signed_eq_toInt 32 x).trans (intBits_eq_toInt 32 x).symm
  | n64 => rfl
  | i64 => exact (signed_eq_toInt 64 x).trans (intBits_eq_toInt 64 x).symm

theorem condHolds_iff (c : Cond) (a b : Int) : condHolds c a b = true ↔ holds c a b := by
  cases c <;> simp [condHolds, holds]

theorem cmp_frame {o : CmpOp ITy} {w : Who} {p q : Package} (h : cmpEffect o w p q) :
    ComputeFrame (src o.a o.ty.regs :: srcB o.b o.ty.regs) [o.p] false w p q := by
  obtain ⟨_, _, _, _, _, _, _, _, _, -, ha, hb, hl, -, hv⟩ := h
  exact (((ReadFrame.refl.field (fun hf => ⟨src o.a o.ty.regs, by simp, hf⟩) ha).operandB (fun _ => List.mem_cons_of_mem _) hb).label hl).predicate hv

theorem framed_cmp (o : CmpOp ITy) : Framed (.cmp o) (cmpEffect o) (ComputeFrame (src o.a o.ty.regs :: srcB o.b o.ty.regs) [o.p] false) := by
  refine framed_each (fun _ => rfl) (fun w p q h => ?_) (fun _ _ _ => cmp_frame)
  obtain ⟨x, _, _, y, _, _, _, _, r, hp, ha, hb, hl, hr, hv⟩ := h
  obtain rfl : condHolds o.c (iVal o.ty x) (iVal o.ty y) = r := by
    rw [Bool.eq_iff_iff, condHolds_iff, hr, valueIn_eq, valueIn_eq]
  exact Gives.bind hp (Gives.bind ha (Gives.bind hb (Gives.bind hl hv)))

theorem framed_plop (pd pa pb : BitVec 5) (tt : BitVec 4) :
    Framed (.plop pd pa pb tt) (plopEffect pd pa pb tt) (ComputeFrame [] [pd] false) := by
  refine framed_each (fun _ => rfl) (fun w p q h => ?_) (fun w p q h => ?_)
  · obtain ⟨a, _, b, _, _, _, ha, hb, hl, hv⟩ := h
    refine Gives.bind ha (Gives.bind hb (Gives.bind hl ?_))
    cases a <;> cases b <;> exact hv
  · obtain ⟨a, _, b, _, _, _, -, -, hl, hv⟩ := h
    exact (ReadFrame.refl.label hl).predicate hv

theorem framed_pmovToReg (d : Fld) (c : BitVec 5) : Framed (.pmov (.toReg d c)) (pmovToRegEffect d c) (ComputeFrame [dst d 1] [] false) := by
  refine framed_each (fun _ => rfl) (fun w p q h => ?_) (fun w p q h => ?_)
  · obtain ⟨b, _, _, _, hp, hc, hl, hv⟩ := h
    refine Gives.bind hp (Gives.bind hc (Gives.bind hl ?_))
    cases b <;> exact hv
  · obtain ⟨b, _, _, _, -, -, hl, hv⟩ := h
    exact (ReadFrame.refl.label hl).result (by simp) hv

theorem framed_pmovToPred (c : BitVec 5) (b : Fld) (lit : Option Word) :
    Framed (.pmov (.toPred c b lit)) (pmovToPredEffect c b lit) (ComputeFrame [src b 1] [c] false) := by
  refine framed_each (fun _ => rfl) (fun w p q h => ?_) (fun w p q h => ?_)
  · obtain ⟨x, _, _, _, _, hp, hb, hl, hv⟩ := h
    refine Gives.bind hp (Gives.bind hb (Gives.bind hl ?_))
    rwa [show decide (x ≠ 0) = (x != 0) by cases x <;> rfl] at hv
  · obtain ⟨x, _, _, _, _, -, hb, hl, hv⟩ := h
    exact ((ReadFrame.refl.field (fun hf => ⟨src b 1, by simp, hf⟩) hb).label hl).predicate hv

/-- The sum of the first n powers of two whose bits are set has these bits. -/
theorem testBit_sumBits (f : Nat → Bool) (n : Nat) : (List.range n).foldl (fun m k => m + (f k).toNat * 2 ^ k) 0 < 2 ^ n ∧
    ∀ k, ((List.range n).foldl (fun m k => m + (f k).toNat * 2 ^ k) 0).testBit k = (decide (k < n) && f k) := by
  induction n with
  | zero => simp
  | succ n ih =>
    obtain ⟨hlt, hbit⟩ := ih
    rw [List.range_succ, List.foldl_append, List.foldl_cons, List.foldl_nil, Nat.add_comm, Nat.mul_comm]
    refine ⟨?_, fun k => ?_⟩
    · have hb : (f n).toNat ≤ 1 := Bool.toNat_le _
      calc _ < 2 ^ n * (f n).toNat + 2 ^ n := Nat.add_lt_add_left hlt _
        _ ≤ 2 ^ n * 1 + 2 ^ n := Nat.add_le_add_right (Nat.mul_le_mul_left _ hb) _
        _ = 2 ^ (n + 1) := by rw [Nat.pow_succ]; omega
    · rw [Nat.testBit_two_pow_mul_add _ hlt, hbit]
      rcases Nat.lt_trichotomy k n with h | rfl | h
      · simp [h, Nat.lt_succ_of_lt h]
      · cases f k <;> simp
      · have hk : 0 < k - n := Nat.sub_pos_of_lt h
        rw [if_neg (by omega), Nat.testBit_lt_two_pow (Nat.lt_of_le_of_lt (Bool.toNat_le _) (Nat.one_lt_two_pow (Nat.ne_of_gt hk)))]
        simp [Nat.not_lt.mpr (Nat.succ_le_of_lt h)]

/-- The word that PMOV saves has the first 24 predicates as its bits (R419). -/
theorem predBits_eq {ps : List LBit} {v : Nat} (h : ∀ k, v.testBit k = (decide (k < 24) && (ps.getD k LBit.zero).val)) : predBits ps = v :=
  Nat.eq_of_testBit_eq fun k => ((testBit_sumBits (fun k => (ps.getD k LBit.zero).val) 24).2 k).trans (h k).symm

theorem framed_pmovSave (d : Fld) : Framed (.pmov (.save d)) (pmovSaveEffect d) (ComputeFrame [dst d 1] [] false) := by
  refine framed_each (fun _ => rfl) (fun w p q h => ?_) (fun w p q h => ?_)
  · obtain ⟨th, v, _, _, hp, hth, hbits, hl, hv⟩ := h
    rw [← predBits_eq hbits] at hv
    exact Gives.bind hp (Gives.bind (gives_thr.mpr ⟨hth, rfl⟩) (Gives.bind (gives_get.mpr ⟨rfl, rfl⟩) (Gives.bind hl hv)))
  · obtain ⟨th, v, _, _, -, -, -, hl, hv⟩ := h
    exact (ReadFrame.refl.label hl).result (by simp) hv

theorem framed_pmovLoad (b : Fld) (lit : Option Word) :
    Framed (.pmov (.load b lit)) (pmovLoadEffect b lit) (ComputeFrame [src b 1] ((List.range 32).map (BitVec.ofNat 5)) false) := by
  refine framed_each (fun _ => rfl) (fun w p q h => ?_) (fun w p q h => ?_)
  · obtain ⟨x, _, _, lbl, _, hp, hb, hl, rfl⟩ := h
    have bit : ∀ k, (x / 2 ^ k % 2 == 1) = x.testBit k := fun _ => Nat.testBit_eq_decide_div_mod_eq.symm
    refine Gives.bind hp (Gives.bind hb (Gives.bind hl (gives_setThr.mpr ?_)))
    simp only [bit]
  · obtain ⟨x, _, _, lbl, _, -, hb, hl, rfl⟩ := h
    have reads := (ReadFrame.refl (us := [src b 1]) (fp := false).field (fun hf => ⟨src b 1, by simp, hf⟩) hb).label hl
    refine (reads.mono (fun _ _ _ _ hf => hf.elim) id (fun _ hk => by cases hk) id).trans
      (regsFrame_setThread (fun _ => rfl) (fun _ k hk => absurd ?_ hk) (fun _ _ _ => ⟨rfl, rfl⟩) (fun _ _ _ _ => rfl))
    exact List.mem_map.mpr ⟨k.toNat, List.mem_range.mpr k.isLt, BitVec.ofNat_toNat ..⟩

end Sys2Proof.Claims
end

section
/-! SUPPORT. The floating forms and the conversions: each completes with its effect and keeps its frame; and the frame of every form that computes. -/

namespace Sys2Proof.Claims

open Sys2Proof.Machine

/-! ### Floating forms -/

theorem floatTwo_frame {o : Alu FTy} {f : RM → Nat → Nat → Nat × Exc} {w : Who} {p q : Package} (h : floatTwo o f w p q) :
    ComputeFrame ([dst o.d o.ty.regs, src o.a o.ty.regs] ++ srcB o.b o.ty.regs) [] true w p q := by
  obtain ⟨_, _, _, _, _, _, _, _, _, _, -, ha, hb, hl, -, hx, hv⟩ := h
  exact ((((ReadFrame.refl.field (fun hf => ⟨src o.a o.ty.regs, by simp, hf⟩) ha).operandB (fun _ => List.mem_append_right _) hb).label
    hl).exceptions hx).result (by simp) hv

theorem framed_fpu2 {x : Instr} {o : Alu FTy} (f : RM → Nat → Nat → Nat × Exc) (hx : ∀ s, exec x s = lift (each (fun w => fpu2 w o f)) s) :
    ∃ f, Framed x (floatTwo o f) (ComputeFrame ([dst o.d o.ty.regs, src o.a o.ty.regs] ++ srcB o.b o.ty.regs) [] true) := by
  refine ⟨f, framed_each hx (fun w p q h => ?_) (fun _ _ _ => floatTwo_frame)⟩
  obtain ⟨_, _, _, _, _, _, _, _, _, _, hp, ha, hb, hl, hrm, hx, hv⟩ := h
  exact Gives.bind hp (Gives.bind ha (Gives.bind hb (Gives.bind hl (Gives.bind hrm (Gives.bind hx hv)))))

theorem framed_float (o : Alu FTy) (x : Instr) (hx : x ∈ [Instr.fadd o, .fmul o, .fmin o, .fmax o]) :
    ∃ f, Framed x (floatTwo o f) (ComputeFrame ([dst o.d o.ty.regs, src o.a o.ty.regs] ++ srcB o.b o.ty.regs) [] true) := by
  simp only [List.mem_cons, List.not_mem_nil, or_false] at hx
  rcases hx with rfl | rfl | rfl | rfl
  · exact framed_fpu2 (fun rm a b => buildOf o.ty (fun k => (fmtOf o.ty).add rm (elemOf o.ty a k) (elemOf o.ty b k))) (fun _ => rfl)
  · exact framed_fpu2 (fun rm a b => buildOf o.ty (fun k => (fmtOf o.ty).mul rm (elemOf o.ty a k) (elemOf o.ty b k))) (fun _ => rfl)
  · exact framed_fpu2 (fun _ a b => buildOf o.ty (fun k => minMax (fmtOf o.ty) false (elemOf o.ty a k) (elemOf o.ty b k))) (fun _ => rfl)
  · exact framed_fpu2 (fun _ a b => buildOf o.ty (fun k => minMax (fmtOf o.ty) true (elemOf o.ty a k) (elemOf o.ty b k))) (fun _ => rfl)

theorem framed_ffma (o : Alu FTy) :
    Framed (.ffma o) (ffmaEffect o) (ComputeFrame ([dst o.d o.ty.regs, src o.a o.ty.regs] ++ srcB o.b o.ty.regs) [] true) := by
  refine framed_each (fun _ => rfl) (fun w p q h => ?_) (fun w p q h => ?_)
  · obtain ⟨_, _, _, _, _, _, _, _, _, _, _, _, _, hp, hd, ha, hb, hl, hrm, hx, hv⟩ := h
    exact Gives.bind hp (Gives.bind hd (Gives.bind ha (Gives.bind hb (Gives.bind hl (Gives.bind hrm (Gives.bind hx hv))))))
  · obtain ⟨_, _, _, _, _, _, _, _, _, _, _, _, _, -, hd, ha, hb, hl, -, hx, hv⟩ := h
    exact (((((ReadFrame.refl.field (fun hf => ⟨dst o.d o.ty.regs, by simp, hf⟩) hd).field (fun hf => ⟨src o.a o.ty.regs, by simp, hf⟩)
      ha).operandB (fun _ => List.mem_append_right _) hb).label hl).exceptions hx).result (by simp) hv

theorem framed_eft {x : Instr} {o : Alu Unit} (f : Nat → Nat → Nat × Nat × Exc) (hx : ∀ s, exec x s = lift (each (eft o f)) s) :
    ∃ f, Framed x (transform o f) (ComputeFrame ([dst o.d 2, src o.a 1] ++ srcB o.b 1) [] true) := by
  refine ⟨f, framed_each hx (fun w p q h => ?_) (fun w p q h => ?_)⟩
  · obtain ⟨_, _, _, _, _, _, _, _, _, hp, ha, hb, hl, hx, hv⟩ := h
    exact Gives.bind hp (Gives.bind ha (Gives.bind hb (Gives.bind hl (Gives.bind hx hv))))
  · obtain ⟨_, _, _, _, _, _, _, _, _, -, ha, hb, hl, hx, hv⟩ := h
    exact ((((ReadFrame.refl.field (fun hf => ⟨src o.a 1, by simp, hf⟩) ha).operandB (fun _ => List.mem_append_right _) hb).label
      hl).exceptions hx).result (by simp) hv

theorem framed_transform (o : Alu Unit) (x : Instr) (hx : x ∈ [Instr.twosum o, .twoprd o]) :
    ∃ f, Framed x (transform o f) (ComputeFrame ([dst o.d 2, src o.a 1] ++ srcB o.b 1) [] true) := by
  simp only [List.mem_cons, List.not_mem_nil, or_false] at hx
  rcases hx with rfl | rfl
  · exact framed_eft twoSum (fun _ => rfl)
  · exact framed_eft twoProd (fun _ => rfl)

theorem framed_frnd (dir : RDir) (o : Un FTy) :
    Framed (.frnd dir o) (frndEffect dir o) (ComputeFrame (dst o.d o.ty.regs :: srcB o.b o.ty.regs) [] true) := by
  refine framed_each (fun _ => rfl) (fun w p q h => ?_) (fun w p q h => ?_)
  · obtain ⟨_, _, _, _, _, _, _, hp, hb, hl, hrm, hx, hv⟩ := h
    exact Gives.bind hp (Gives.bind hb (Gives.bind hl (Gives.bind hrm (Gives.bind hx hv))))
  · obtain ⟨_, _, _, _, _, _, _, -, hb, hl, -, hx, hv⟩ := h
    exact (((ReadFrame.refl.operandB (fun _ => List.mem_cons_of_mem _) hb).label hl).exceptions hx).result (by simp) hv

theorem framed_cfma (d a b : Fld) : Framed (.cfma d a b) (cfmaEffect d a b) (ComputeFrame [dst d 2, src a 2, src b 2] [] true) := by
  refine framed_each (fun _ => rfl) (fun w p q h => ?_) (fun w p q h => ?_)
  · obtain ⟨_, _, _, _, _, _, _, _, _, _, _, _, _, hp, hd, ha, hb, hl, hrm, hx, hv⟩ := h
    exact Gives.bind hp (Gives.bind hd (Gives.bind ha (Gives.bind hb (Gives.bind hl (Gives.bind hrm (Gives.bind hx hv))))))
  · obtain ⟨_, _, _, _, _, _, _, _, _, _, _, _, _, -, hd, ha, hb, hl, -, hx, hv⟩ := h
    exact (((((ReadFrame.refl.field (fun hf => ⟨dst d 2, by simp, hf⟩) hd).field (fun hf => ⟨src a 2, by simp, hf⟩) ha).field
      (fun hf => ⟨src b 2, by simp, hf⟩) hb).label hl).exceptions hx).result (by simp) hv

theorem framed_fcmp (o : CmpOp Bool) : Framed (.fcmp o) (fcmpEffect o)
    (ComputeFrame (src o.a (if o.ty then 2 else 1) :: srcB o.b (if o.ty then 2 else 1)) [o.p] true) := by
  have hn : (if o.ty then FTy.f64 else FTy.f32).regs = if o.ty then 2 else 1 := by cases o.ty <;> rfl
  rw [← hn]
  refine framed_each (fun _ => rfl) (fun w p q h => ?_) (fun w p q h => ?_)
  · obtain ⟨_, _, _, _, _, _, _, _, _, hp, ha, hb, hl, hx, hv⟩ := h
    exact Gives.bind hp (Gives.bind ha (Gives.bind hb (Gives.bind hl (Gives.bind hx hv))))
  · obtain ⟨_, _, _, _, _, _, _, _, _, -, ha, hb, hl, hx, hv⟩ := h
    exact ((((ReadFrame.refl.field (fun hf => ⟨_, List.mem_cons_self, hf⟩) ha).operandB (fun _ => List.mem_cons_of_mem _) hb).label
      hl).exceptions hx).predicate hv

/-! ### Conversions -/

section
variable {us : List FieldUse} {w : Who} {p q r : Package} {f : Fld} {n v : Nat} {lbl : Lbl} {x : Word}

/-- A form without a draw keeps the frame of those that may take draws. -/
theorem ReadFrame.undrawn (h : ReadFrame us true w p r) (hu : dst f n ∈ us) (hv : Gives (vout w f n v lbl) r () q) : DrawFrame us w p q :=
  ⟨q, h.result hu hv, .inl rfl⟩

/-- A form with draws writes the seed that they leave, and its result (R153). -/
theorem ReadFrame.drawn (h : ReadFrame us true w p r) (hu : dst f n ∈ us)
    (hv : Gives (vout w f n v lbl) (r.setThread w (fun th => { th with seed := x })) () q) : DrawFrame us w p q := by
  obtain ⟨t, ht, rfl⟩ := gives_vout_setSeed hv
  exact ⟨t, h.result hu ht, .inr ⟨x, rfl⟩⟩

end

theorem cvtShape_narrow {code : BitVec 7} (e : BitVec 2) (h : ¬code.toNat < 64) : (cvtShape code e).nd = 1 := by
  simp only [cvtShape, h, if_false]

theorem cvt_frame {code : BitVec 7} {e : BitVec 2} {o : Un Unit} {w : Who} {p q : Package} (h : cvtEffect code e o w p q) :
    DrawFrame (dst o.d (cvtShape code e).nd :: srcB o.b (cvtShape code e).nb) w p q := by
  obtain ⟨d, ld, p₀, y, ly, p₁, th, rm, lbl, p₂, p₃, -, hd, hb, -, -, h⟩ := h
  have old : ReadFrame (dst o.d (cvtShape code e).nd :: srcB o.b (cvtShape code e).nb) true w p p₀ := by
    split at hd
    · exact ReadFrame.refl.field (fun hf => ⟨_, List.mem_cons_self, hf⟩) hd
    · rw [hd.2.2]
      exact .refl
  have reads := old.operandB (fun _ => List.mem_cons_of_mem _) hb
  split at h
  next =>
    obtain ⟨hl, hx, hv⟩ := h
    exact ((reads.label hl).exceptions hx).undrawn List.mem_cons_self hv
  next hc =>
    have hu : dst o.d 1 ∈ dst o.d (cvtShape code e).nd :: srcB o.b (cvtShape code e).nb := by rw [cvtShape_narrow e hc]; exact List.mem_cons_self
    split at h
    next =>
      obtain ⟨hl, hx, hv⟩ := h
      exact ((reads.label hl).exceptions hx).undrawn hu hv
    next =>
      obtain ⟨hl, hx, hv⟩ := h
      split at hv
      · exact ((reads.label hl).exceptions hx).drawn hu hv
      · exact ((reads.label hl).exceptions hx).undrawn hu hv

/-- A step taken in one of two ways, with what follows it written after each. -/
theorem gives_ite_bind {α β : Type} {p q r : Package} {c : Prop} [Decidable c] {m m' : PM α} {f : α → PM β} {a : α} {b : β}
    (h : Gives (if c then m else m') p a r) (h' : Gives (f a) r b q) : Gives (if c then m >>= f else m' >>= f) p b q := by
  by_cases hc : c
  · rw [if_pos hc] at h ⊢
    exact Gives.bind h h'
  · rw [if_neg hc] at h ⊢
    exact Gives.bind h h'

theorem framed_cvt (code : BitVec 7) (e : BitVec 2) (o : Un Unit) :
    Framed (.cvt code e o) (cvtEffect code e o) (DrawFrame (dst o.d (cvtShape code e).nd :: srcB o.b (cvtShape code e).nb)) := by
  refine framed_each (fun _ => rfl) (fun w p q h => ?_) (fun _ _ _ => cvt_frame)
  obtain ⟨d, ld, p₀, y, ly, p₁, th, rm, lbl, p₂, p₃, hp, hd, hb, hth, hrm, h⟩ := h
  simp only [← intBits_toNat] at hb
  have old : Gives (if (cvtShape code e).dsrc then readField w 1 o.d o.lit else pure (0, 0)) p (d, ld) p₀ := by
    split at hd
    next hs => rwa [if_pos hs]
    next hs =>
      obtain ⟨rfl, rfl, rfl⟩ := hd
      rw [if_neg hs]
      exact gives_pure.mpr ⟨rfl, rfl⟩
  refine Gives.bind hp (gives_ite_bind old (Gives.bind hb (Gives.bind (gives_thr.mpr ⟨hth, rfl⟩) (Gives.bind hrm ?_))))
  split at h
  next hc =>
    obtain ⟨hl, hx, hv⟩ := h
    rw [if_pos hc]
    exact Gives.bind hl (Gives.bind hx hv)
  next hc =>
    rw [if_neg hc]
    split at h
    next hf =>
      obtain ⟨hl, hx, hv⟩ := h
      rw [if_pos hf]
      exact Gives.bind hl (Gives.bind hx hv)
    next hf =>
      obtain ⟨hl, hx, hv⟩ := h
      rw [if_neg hf]
      refine Gives.bind (gives_maskOf.mpr ⟨rfl, rfl⟩) (Gives.bind hl (Gives.bind hx ?_))
      split at hv
      next hdraw =>
        simp only [hdraw, if_true]
        exact Gives.bind (a := ()) (gives_setThr.mpr rfl) hv
      next hdraw =>
        simp only [hdraw]
        exact hv

/-- The draws of the generator taken one after another (R153). -/
theorem foldl_draw (n : Nat) (x : Word) : (List.range n).foldl (fun v _ => draw v) x = n.repeat draw x := by
  induction n with
  | zero => rfl
  | succ n ih => rw [List.range_succ, List.foldl_append, ih]; rfl

theorem framed_qpack (d a b : Fld) (j : BitVec 2) : Framed (.qpack d a b j) (qpackEffect d a b j) (DrawFrame [dst d 1, src a 8, src b 1]) := by
  refine framed_each (fun _ => rfl) (fun w p q h => ?_) (fun w p q h => ?_)
  · obtain ⟨_, _, _, _, _, _, th, rm, _, _, _, hp, ha, hb, hth, hrm, hl, hx, hv⟩ := h
    simp only [← foldl_draw] at hx hv
    exact Gives.bind hp (Gives.bind ha (Gives.bind hb (Gives.bind (gives_thr.mpr ⟨hth, rfl⟩) (Gives.bind hrm
      (Gives.bind (gives_maskOf.mpr ⟨rfl, rfl⟩) (Gives.bind hl (Gives.bind hx (Gives.bind (a := ()) (gives_setThr.mpr rfl) hv))))))))
  · obtain ⟨_, _, _, _, _, _, th, rm, _, _, _, -, ha, hb, -, -, hl, hx, hv⟩ := h
    exact ((((ReadFrame.refl.field (fun hf => ⟨src a 8, by simp, hf⟩) ha).field (fun hf => ⟨src b 1, by simp, hf⟩) hb).label hl).exceptions
      hx).drawn (by simp) hv

theorem framed_qunpk (d a b : Fld) (k j : BitVec 2) (lit : Option Word) :
    Framed (.qunpk d a b k j lit) (qunpkEffect d a b k j lit) (ComputeFrame [dst d 2, src a 1, src b 1] [] false) := by
  refine framed_each (fun _ => rfl) (fun w p q h => ?_) (fun w p q h => ?_)
  · obtain ⟨_, _, _, _, _, _, _, _, hp, ha, hb, hl, hv⟩ := h
    exact Gives.bind hp (Gives.bind ha (Gives.bind hb (Gives.bind hl hv)))
  · obtain ⟨_, _, _, _, _, _, _, _, -, ha, hb, hl, hv⟩ := h
    exact (((ReadFrame.refl.field (fun hf => ⟨src a 1, by simp, hf⟩) ha).field (fun hf => ⟨src b 1, by simp, hf⟩) hb).label hl).result (by simp) hv

/-- Settles O53: each form completes with its effect, and its effect keeps the frame that its fields give. -/
theorem registerFormsFrame : Obligations.RegisterFormsFrame := by
  refine ⟨fun o => ⟨framed_integer o, ?_, ?_, framed_mov o⟩, framed_movl, framed_iabs, framed_lea,
    fun o => ⟨framed_logic o, framed_shift o, ?_⟩, fun o => ⟨framed_count o, fun sense c => framed_sel sense c o⟩,
    fun o => ⟨framed_transform o, ?_, framed_addc o⟩, fun o => ⟨framed_float o, framed_ffma o⟩, framed_frnd, framed_cfma, framed_cvt,
    framed_qpack, framed_qunpk, framed_cmp, framed_fcmp, framed_plop, framed_pmovToReg, framed_pmovToPred, framed_pmovSave, framed_pmovLoad⟩
  · exact framed_alu3 (fun d a b => a * b + d) (fun _ => rfl)
  · exact framed_alu2 (bfxVal o.ty) (fun _ => rfl)
  · exact framed_alu3 (bfiVal (lBits o.ty)) (fun _ => rfl)
  · exact framed_alu2 prmbVal (fun _ => rfl)

end Sys2Proof.Claims
end

section
/-! SUPPORT. A step keeps the form of the tables (R106 to R108, R193): the meaning of every word and event does, and so does the way in
which a step chooses what comes next. -/

namespace Sys2Proof.Machine

/-! ### Meanings -/

/-- Each constructor of `Instr` has its meaning, and each meaning keeps the form of the tables. -/
theorem okeeps_exec : ∀ x : Instr, OKeeps (exec x)
  | .nop => okeeps_execNop
  | .add _ => okeeps_execAdd _
  | .addc _ => okeeps_execAddc _
  | .isub _ => okeeps_execIsub _
  | .imul _ => okeeps_execImul _
  | .imad _ => okeeps_execImad _
  | .iabs _ _ => okeeps_execIabs _ _
  | .imin _ => okeeps_execImin _
  | .imax _ => okeeps_execImax _
  | .cmp _ => okeeps_execCmp _
  | .lea _ => okeeps_execLea _
  | .mov _ => okeeps_execMov _
  | .movl _ _ _ => okeeps_execMovl _ _ _
  | .and _ => okeeps_execAnd _
  | .andn _ => okeeps_execAndn _
  | .or _ => okeeps_execOr _
  | .xor _ => okeeps_execXor _
  | .shl _ => okeeps_execShl _
  | .shr _ => okeeps_execShr _
  | .sar _ => okeeps_execSar _
  | .rol _ => okeeps_execRol _
  | .bfx _ => okeeps_execBfx _
  | .bfi _ => okeeps_execBfi _
  | .popc _ => okeeps_execPopc _
  | .clz _ => okeeps_execClz _
  | .brev _ => okeeps_execBrev _
  | .prmb _ => okeeps_execPrmb _
  | .fadd _ => okeeps_execFadd _
  | .fmul _ => okeeps_execFmul _
  | .ffma _ => okeeps_execFfma _
  | .fmin _ => okeeps_execFmin _
  | .fmax _ => okeeps_execFmax _
  | .fcmp _ => okeeps_execFcmp _
  | .fsf _ _ => okeeps_execFsf _ _
  | .frnd _ _ => okeeps_execFrnd _ _
  | .twosum _ => okeeps_execTwosum _
  | .twoprd _ => okeeps_execTwoprd _
  | .cfma _ _ _ => okeeps_execCfma _ _ _
  | .cvt _ _ _ => okeeps_execCvt _ _ _
  | .qpack _ _ _ _ => okeeps_execQpack _ _ _ _
  | .qunpk _ _ _ _ _ _ => okeeps_execQunpk _ _ _ _ _ _
  | .trap _ => okeeps_execTrap _
  | .eretResume => okeeps_execEretResume
  | .eretRestart => okeeps_execEretRestart
  | .eretSkip => okeeps_execEretSkip
  | .mfsr _ _ => okeeps_execMfsr _ _
  | .mtsr _ _ _ => okeeps_execMtsr _ _ _
  | .bkpt _ => okeeps_execBkpt _
  | .snap => okeeps_execSnap
  | .time _ _ => okeeps_execTime _ _
  | .sel _ _ _ => okeeps_execSel _ _ _
  | .plop _ _ _ _ => okeeps_execPlop _ _ _ _
  | .pmov _ => okeeps_execPmov _
  | .shfl _ => okeeps_execShfl _
  | .vote _ _ _ => okeeps_execVote _ _ _
  | .rdx _ _ _ _ _ => okeeps_execRdx _ _ _ _ _
  | .scan _ _ _ _ _ _ => okeeps_execScan _ _ _ _ _ _
  | .bra _ => okeeps_execBra _
  | .brc _ _ _ => okeeps_execBrc _ _ _
  | .bdq _ _ => okeeps_execBdq _ _
  | .jmpi _ => okeeps_execJmpi _
  | .call _ _ => okeeps_execCall _ _
  | .ret _ => okeeps_execRet _
  | .reform _ _ => okeeps_execReform _ _
  | .exit => okeeps_execExit
  | .killTeam => okeeps_execKillTeam
  | .killGrid => okeeps_execKillGrid
  | .yield => okeeps_execYield
  | .bar _ _ => okeeps_execBar _ _
  | .launch _ _ _ => okeeps_execLaunch _ _ _
  | .cont _ _ _ => okeeps_execCont _ _ _
  | .dqpush _ _ _ => okeeps_execDqpush _ _ _
  | .dqpop _ => okeeps_execDqpop _
  | .winb _ => okeeps_execWinb _
  | .ld _ => okeeps_execLd _
  | .st _ => okeeps_execSt _
  | .lds _ _ => okeeps_execLds _ _
  | .sts _ _ => okeeps_execSts _ _
  | .fpush _ _ => okeeps_execFpush _ _
  | .fpop _ _ => okeeps_execFpop _ _
  | .bank _ _ _ => okeeps_execBank _ _ _
  | .fence _ => okeeps_execFence _
  | .tlfence => okeeps_execTlfence
  | .disc _ => okeeps_execDisc _
  | .arm _ => okeeps_execArm _
  | .await _ => okeeps_execAwait _
  | .xacq => okeeps_execXacq
  | .xrel => okeeps_execXrel
  | .atom _ => okeeps_execAtom _
  | .atomx _ => okeeps_execAtomx _
  | .red _ => okeeps_execRed _
  | .rgn => okeeps_execRgn
  | .rgnc => okeeps_execRgnc
  | .lget _ _ _ => okeeps_execLget _ _ _
  | .ljoin _ _ => okeeps_execLjoin _ _
  | .lceil _ _ => okeeps_execLceil _ _
  | .endo _ => okeeps_execEndo _
  | .decl _ _ => okeeps_execDecl _ _
  | .mma _ _ _ _ _ _ => okeeps_execMma _ _ _ _ _ _
  | .mmasp _ _ _ _ _ _ => okeeps_execMmasp _ _ _ _ _ _
  | .accld _ _ _ _ => okeeps_execAccld _ _ _ _
  | .accst _ _ _ _ => okeeps_execAccst _ _ _ _
  | .sign _ _ => okeeps_execSign _ _
  | .jwait _ => okeeps_execJwait _
  | .tide _ => okeeps_execTide _
  | .cpy _ _ _ => okeeps_execCpy _ _ _
  | .cpym _ _ _ _ => okeeps_execCpym _ _ _ _
  | .coll _ _ _ _ => okeeps_execColl _ _ _ _
  | .xperm _ _ _ => okeeps_execXperm _ _ _
  | .recBegin _ _ _ _ => okeeps_execRecBegin _ _ _ _
  | .recEnd _ => okeeps_execRecEnd _
  | .recPlay _ _ _ => okeeps_execRecPlay _ _ _
  | .recDrop _ => okeeps_execRecDrop _
  | .recq _ _ => okeeps_execRecq _ _
  | .clauseIssue _ => okeeps_execClauseIssue _
  | .longLatencyComplete _ => okeeps_execLongLatencyComplete _
  | .berthEmptyFile _ _ => okeeps_execBerthEmptyFile _ _
  | .berthAgeExpiry _ _ => okeeps_execBerthAgeExpiry _ _
  | .gangIdFree _ => okeeps_execGangIdFree _
  | .blockedMemberTimeout _ => okeeps_execBlockedMemberTimeout _
  | .rejoinTimerExpiry _ _ => okeeps_execRejoinTimerExpiry _ _
  | .yieldExpiry _ _ => okeeps_execYieldExpiry _ _
  | .loadCapWindowEnd _ => okeeps_execLoadCapWindowEnd _
  | .labelCacheMissDone _ => okeeps_execLabelCacheMissDone _
  | .quayQueueRoom _ => okeeps_execQuayQueueRoom _
  | .dispatchDecision _ => okeeps_execDispatchDecision _
  | .teamRetire _ => okeeps_execTeamRetire _
  | .roundIssue _ _ => okeeps_execRoundIssue _ _
  | .roundComplete _ => okeeps_execRoundComplete _
  | .sparsityEntryArrive _ _ _ => okeeps_execSparsityEntryArrive _ _ _
  | .fifoEntryArrive _ _ => okeeps_execFifoEntryArrive _ _
  | .fifoRoom _ _ => okeeps_execFifoRoom _ _
  | .bankWritebackDone _ _ => okeeps_execBankWritebackDone _ _
  | .awaitRelease _ _ => okeeps_execAwaitRelease _ _
  | .storeArriveHome _ => okeeps_execStoreArriveHome _
  | .wctReached _ => okeeps_execWctReached _
  | .fillServe _ _ => okeeps_execFillServe _ _
  | .leaseEnd _ _ => okeeps_execLeaseEnd _ _
  | .keySweepLine _ => okeeps_execKeySweepLine _
  | .pageResident _ _ => okeeps_execPageResident _ _
  | .pageDeliver _ _ => okeeps_execPageDeliver _ _
  | .trapEntry _ _ => okeeps_execTrapEntry _ _
  | .uncorrectableArrive _ => okeeps_execUncorrectableArrive _
  | .preempt _ => okeeps_execPreempt _
  | .preemptSaveDone _ => okeeps_execPreemptSaveDone _
  | .resume _ _ => okeeps_execResume _ _
  | .schedulerRoom _ => okeeps_execSchedulerRoom _
  | .jobSegmentDone _ => okeeps_execJobSegmentDone _
  | .jobComplete _ => okeeps_execJobComplete _
  | .collHeaderRound _ _ => okeeps_execCollHeaderRound _ _
  | .collContribution _ => okeeps_execCollContribution _
  | .mergeRecordAccept _ => okeeps_execMergeRecordAccept _
  | .bulkWriteAccept _ => okeeps_execBulkWriteAccept _
  | .recordAck _ => okeeps_execRecordAck _
  | .packageArrive _ => okeeps_execPackageArrive _
  | .arrivalMessage _ => okeeps_execArrivalMessage _
  | .releaseMessage _ => okeeps_execReleaseMessage _
  | .applyDone _ => okeeps_execApplyDone _
  | .tideClose _ => okeeps_execTideClose _
  | .deliverySend _ => okeeps_execDeliverySend _
  | .deliveryEnter _ => okeeps_execDeliveryEnter _
  | .departureWindowClear => okeeps_execDepartureWindowClear
  | .packetReceive _ _ => okeeps_execPacketReceive _ _
  | .laneErasure _ => okeeps_execLaneErasure _
  | .linkRetire _ => okeeps_execLinkRetire _
  | .slotStart _ => okeeps_execSlotStart _
  | .slotTableWrite _ _ _ _ _ _ => okeeps_execSlotTableWrite _ _ _ _ _ _
  | .circuitChange _ _ => okeeps_execCircuitChange _ _
  | .drainMarkerAck => okeeps_execDrainMarkerAck
  | .relock => okeeps_execRelock
  | .tugFirmwareDownload _ _ _ _ => okeeps_execTugFirmwareDownload _ _ _ _
  | .tugFault _ => okeeps_execTugFault _
  | .groupTableChange _ _ _ _ _ => okeeps_execGroupTableChange _ _ _ _ _
  | .drainRound _ => okeeps_execDrainRound _
  | .launchCommand _ _ _ _ _ => okeeps_execLaunchCommand _ _ _ _ _
  | .keyRotation _ _ => okeeps_execKeyRotation _ _
  | .spaceIdBinding _ _ _ _ => okeeps_execSpaceIdBinding _ _ _ _
  | .shootdown _ _ _ => okeeps_execShootdown _ _ _
  | .shootdownDrainDone _ => okeeps_execShootdownDrainDone _
  | .worldReset _ => okeeps_execWorldReset _
  | .scrub _ _ => okeeps_execScrub _ _
  | .scrubReceipt _ => okeeps_execScrubReceipt _
  | .worldCreate _ => okeeps_execWorldCreate _
  | .domainForm _ _ _ => okeeps_execDomainForm _ _ _
  | .attestationReport _ _ => okeeps_execAttestationReport _ _
  | .crashDump _ => okeeps_execCrashDump _
  | .debugRequest _ _ => okeeps_execDebugRequest _ _
  | .packageReset => okeeps_execPackageReset
  | .dieReset _ => okeeps_execDieReset _
  | .snapctlWrite _ => okeeps_execSnapctlWrite _
  | .snapPin => okeeps_execSnapPin
  | .qosShareChange _ _ _ _ => okeeps_execQosShareChange _ _ _ _
  | .bankTransfer _ _ _ _ => okeeps_execBankTransfer _ _ _ _
  | .sysTableWrite _ => okeeps_execSysTableWrite _
  | .memoryFault _ _ => okeeps_execMemoryFault _ _
  | .instrSnapshotLatch => okeeps_execInstrSnapshotLatch

theorem wf_exec {x : Instr} {s t : State} (hs : s.Wf) (ht : exec x s = .next t) : t.Wf := okeeps_exec x s hs t ht

/-! ### What comes next -/

variable {s t : State}

/-- The agenda and the choices are no part of the form. -/
theorem wf_takeInput {e : Instr} {rest : List Instr} (hs : s.Wf) (ht : s.takeInput e rest = .next t) : t.Wf := by
  have hs' : ({ s with here := { s.here with agenda := rest } } : State).Wf := hs
  unfold State.takeInput at ht
  split at ht
  · cases ht; exact hs'
  · exact wf_exec hs' ht

theorem wf_tick (hs : s.Wf) (ht : s.tick = .next t) : t.Wf := by
  unfold State.tick at ht
  split at ht
  · exact wf_exec hs ht
  · split at ht
    · exact wf_exec hs ht
    · cases ht; exact wf_pass hs

/-- One of some events, or the end of the cycle where there is none. -/
theorem wf_eventOrTick (o : Option Instr) (hs : s.Wf) (ht : (match o with | some e => exec e s | none => s.tick) = .next t) : t.Wf := by
  cases o with
  | some e => exact wf_exec hs ht
  | none => exact wf_tick hs ht

theorem wf_first (hs : s.Wf) (ht : s.first = .next t) : t.Wf := by
  unfold State.first at ht
  split at ht
  · split at ht
    · exact wf_takeInput hs ht
    · exact wf_eventOrTick _ hs ht
  · exact wf_eventOrTick _ hs ht

theorem wf_choose {c : Nat} (hs : s.Wf) (ht : s.choose c = .next t) : t.Wf := by
  unfold State.choose at ht
  extract_lets es at ht
  clear_value es
  split at ht
  · split at ht
    · split at ht
      · exact wf_takeInput hs ht
      · exact wf_eventOrTick _ hs ht
    · exact wf_eventOrTick _ hs ht
  · exact wf_eventOrTick _ hs ht

/-- What comes next by the first of the choices, or without one. -/
theorem wf_chosen (hs : s.Wf)
    (ht : (match s.choices with | [] => s.first | c :: cs => State.choose { s with choices := cs } c) = .next t) : t.Wf := by
  split at ht
  · exact wf_first hs ht
  next cs _ =>
    have hs' : ({ s with choices := cs } : State).Wf := hs
    exact wf_choose hs' ht

theorem wf_between (hs : s.Wf) (ht : s.between = .next t) : t.Wf := by
  unfold State.between at ht
  split at ht
  · exact wf_exec hs ht
  · split at ht
    · split at ht
      · exact wf_takeInput hs ht
      · exact wf_chosen hs ht
    · exact wf_chosen hs ht

/-! ### The clause that is being issued -/

/-- A thread outside its gang stays where the outcome leaves it, or is filed (R56). -/
theorem wf_lone {i : Issue} {o : Host.Outcome State Fault Refusal} (hs : s.Wf) (ho : ∀ u, o = .next u → u.Wf)
    (ht : s.lone i o = .next t) : t.Wf := by
  cases o with
  | next u =>
    simp only [State.lone] at ht
    split at ht
    · cases ht; exact ho _ rfl
    · cases ht; exact ⟨wf_fileLone _ _ hs.1, hs.2⟩
  | fault x => cases ht
  | refused x => cases ht

theorem wf_runWord {i : Issue} (hs : s.Wf) (ht : s.runWord i = .next t) : t.Wf := by
  unfold State.runWord at ht
  split at ht
  · cases ht; exact ⟨wf_endClause _ _ hs.1, hs.2⟩
  · split at ht
    · split at ht
      · exact wf_exec (wf_begin _ hs) ht
      · exact wf_lone hs (fun _ => wf_exec (wf_begin _ hs)) ht
    · cases ht; exact wf_illegal i hs

theorem wf_step (hs : s.Wf) (ht : step s = .next t) : t.Wf := by
  unfold step at ht
  split at ht
  · exact wf_runWord hs ht
  · exact wf_between hs ht

end Sys2Proof.Machine

namespace Sys2Proof.Claims

open Sys2Proof.Machine

/-- Settles O58: a step is one meaning, or the passing of a cycle, and each keeps the form. -/
theorem stepKeepsForm : Obligations.StepKeepsForm := fun _ _ => wf_step

/-- Settles O57: at reset memory and granule labels list nothing, so each reads 0, and entry 0 stands alone in the label table. -/
theorem resetKeepsForm : Obligations.ResetKeepsForm :=
  ⟨⟨wf_reset, fun _ h => absurd h List.not_mem_nil⟩, rfl, rfl, rfl, fun _ => rfl, fun _ => rfl⟩

end Sys2Proof.Claims
end

section
/-! SUPPORT. What a reset of a world leaves of the endorsement table (R136): ending its grids, dropping its manifests and scrubbing its frames
leave the table as it is, and the rest of the reset frees the world's entries. -/

namespace Sys2Proof.Machine

/-- A fold of which no step changes a part of the value leaves that part as it is. -/
theorem foldl_part {α β γ : Type} (part : α → γ) {f : α → β → α} (h : ∀ a b, part (f a b) = part a) (l : List β) (a : α) :
    part (l.foldl f a) = part a := by
  induction l generalizing a with
  | nil => rfl
  | cons b l ih => exact (ih (f a b)).trans (h a b)

@[simp] theorem Package.endGrids_endorse (p : Package) (x : World) : (p.endGrids x).endorse = p.endorse := rfl

@[simp] theorem Package.dropMan_endorse (p : Package) (m : Manifest) : (p.dropMan m).endorse = p.endorse := rfl

@[simp] theorem Package.putLine_endorse (p : Package) (l : Line) : (p.putLine l).endorse = p.endorse := by
  unfold Package.putLine
  split <;> rfl

@[simp] theorem Package.evictL2_endorse (p : Package) (line : Nat) : (p.evictL2 line).endorse = p.endorse := by
  unfold Package.evictL2
  extract_lets l die q
  have hq : q.endorse = p.endorse := Package.putLine_endorse ..
  split
  · rfl
  · split <;> exact hq

@[simp] theorem Package.pick_endorse (p : Package) (n : Nat) : (p.pick n).2.endorse = p.endorse := by
  unfold Package.pick
  split <;> rfl

@[simp] theorem Package.roomDie_endorse (p : Package) (line : Nat) : (p.roomDie line).endorse = p.endorse := by
  unfold Package.roomDie
  extract_lets near pods
  generalize (if p.carveOut then Config.l2Lines - Config.carveLines else Config.l2Lines) = room
  have hq := p.pick_endorse (near.length + pods.length)
  generalize p.pick (near.length + pods.length) = x at hq
  obtain ⟨n, q⟩ := x
  split
  · rfl
  · dsimp only
    split
    · split
      · exact hq
      · simpa using hq
    · simpa using hq

@[simp] theorem Package.roomL2_endorse (p : Package) (l : Line) : (p.roomL2 l).endorse = p.endorse := by
  unfold Package.roomL2
  split <;> simp

@[simp] theorem Package.setLine_endorse (p : Package) (l : Line) : (p.setLine l).endorse = p.endorse := by
  simp [Package.setLine]

@[simp] theorem Package.noteWct_endorse (p : Package) (x : Write) (wct : Nat) : (p.noteWct x wct).endorse = p.endorse := by
  unfold Package.noteWct
  extract_lets l kept writer near q
  have hq : q.endorse = p.endorse := by
    simp only [q]
    split <;> simp
  split <;> simpa using hq

@[simp] theorem Package.wipe_endorse (p : Package) (line : Nat) (cells : List Host.Cell) (granules : List Nat) (page : Option Nat) :
    (p.wipe line cells granules page).2.endorse = p.endorse := by
  simp [Package.wipe, Package.fresh]

@[simp] theorem Package.wipeSectors_endorse (p : Package) (frame n : Nat) : (p.wipeSectors frame n).2.endorse = p.endorse :=
  foldl_part (fun (acc : List Nat × Package) => acc.2.endorse) (fun acc _ => Package.wipe_endorse acc.2 _ _ _ _) _ _

@[simp] theorem Package.scrubFrames_endorse (p : Package) (frames : List Nat) : (p.scrubFrames frames).2.2.endorse = p.endorse := by
  unfold Package.scrubFrames
  refine foldl_part (fun (acc : List Nat × Package) => acc.2.endorse) (fun acc f => ?_) _ _
  split
  · exact Package.wipe_endorse acc.2 _ _ _ _
  · split
    · rfl
    · exact Package.wipeSectors_endorse acc.2 _ _

/-- A reset of a world frees the entries of the world or by it (R136). -/
theorem Package.clearWorld_endorse (p : Package) (x : World) (r : ScrubRun) :
    (p.clearWorld x r).endorse = p.endorse.filter (fun e => e.2.world != x.id && e.2.issuer != x.id) := by
  have mans : ∀ (ms : List Manifest) (q : Package), (ms.foldl Package.dropMan q).endorse = q.endorse :=
    foldl_part Package.endorse Package.dropMan_endorse
  simp [Package.clearWorld, mans]

end Sys2Proof.Machine

namespace Sys2Proof.Claims

open Sys2Proof.Machine

theorem answers_scrubReceipt_reset {s : State} {k : Nat} {r : ScrubRun} {x : World} (hr : s.here.sys.scrubs.find? (fun r => r.seq == k) = some r)
    (hw : r.writes = none) (hx : s.here.world? r.world = some x) (hd : s.here.resetReady x = true) :
    Answers (.scrubReceipt k) s (s.here.clearWorld x r) := by
  simp only [Answers, exec, execScrubReceipt, lift, hr, hw, hx, hd, if_true]

/-- Settles O52: the world's reset filters the table, and a package reset puts an empty one in its place. -/
theorem resetsFreeEndorsements : Obligations.ResetsFreeEndorsements :=
  ⟨Package.clearWorld_endorse, fun _ _ _ _ => answers_scrubReceipt_reset, fun _ => ⟨_, rfl, rfl⟩⟩

end Sys2Proof.Claims
end

section
/-! SUPPORT. What the operations of the lathe's rounds answer: the issue of a round, the effect of one, and the entries that go back into a queue. -/

namespace Sys2Proof.Machine

/-! ### Issue of a round (R175) -/

theorem SignReg.ready_iff {r : SignReg} : r.ready = true ↔ r.state = .collecting ∧ r.signed = r.expect ∧ r.op.isSome = true := by
  simp [SignReg.ready, and_assoc]

theorem Team.sign_setSign_self {tm : Team} {k : Nat} (h : k < tm.signs.length) (x : SignReg) : (tm.setSign k x).sign k = x := by
  simp [Team.sign, Team.setSign, List.getD, h]

theorem Team.sign_setSign_of_ne {j k : Nat} (h : j ≠ k) (tm : Team) (x : SignReg) : (tm.setSign k x).sign j = tm.sign j := by
  simp [Team.sign, Team.setSign, List.getD, h.symm]

/-- The round that a register issues (R175). -/
def Package.roundOf (p : Package) (tm : Team) (team k : Nat) (op : LatheOp) : Round :=
  { id := p.nextId, time := p.now, k, team, core := tm.rowCore (tm.sign k).row, part := tm.rowPart (tm.sign k).row, row := (tm.sign k).row, op
    expect := (tm.sign k).expect, sigs := (tm.sign k).sigs, read := false, popped := [], stop := false }

/-- A ready register issues its round, which joins the order of its slice, and is armed again (R175, R189). -/
theorem Package.issueRound_of_ready {p : Package} {team k : Nat} {tm : Team} {op : LatheOp} (ht : p.team? team = some tm)
    (hop : (tm.sign k).op = some op) (hr : (tm.sign k).ready = true) :
    p.issueRound team k = ({ p.setTeam team (fun tm' => tm'.setSign k (tm.sign k).issued) with
        nextId := p.nextId + 1
        rounds := insertRound (p.collBetween tm (p.roundOf tm team k op)) (p.roundOf tm team k op) p.rounds }).wake (fun st => st == Stall.sign) := by
  simp only [Package.issueRound, ht, hop, hr]
  rfl

theorem Package.team?_issueRound_of_ready {p : Package} {team k : Nat} {tm : Team} {op : LatheOp} (ht : p.team? team = some tm)
    (hop : (tm.sign k).op = some op) (hr : (tm.sign k).ready = true) :
    (p.issueRound team k).team? team = some (tm.setSign k (tm.sign k).issued) := by
  rw [Package.issueRound_of_ready ht hop hr]
  exact (Package.team?_setTeam_self (F := fun tm' => tm'.setSign k (tm.sign k).issued) (fun _ => rfl) p team).trans (by rw [ht]; rfl)

theorem Package.wake_gangs (p : Package) (c : Stall → Prop) [DecidablePred c] :
    (p.wake (fun st => decide (c st))).gangs = (Claims.freed c p).gangs := by
  simp [Package.wake, Claims.freed, mapIf]

/-! ### The effect of a round (R101, R122, R411) -/

@[simp] theorem Package.storeLabels_nil (p : Package) (t : Tile) : p.storeLabels t [] = some ([], p) := rfl

theorem Package.doRound_full {p : Package} {r : Round} {tm : Team} (h : p.labelFor (p.tileMask r (tm.tile r.core r.part r.op.tile)) = none) :
    p.doRound r tm = p.roundFull r := by
  simp only [Package.doRound, h]

/-- A round that is no ACCST gives its tile the words of the operation and the owners of R122. -/
theorem Package.doRound_tile {p p₁ : Package} {r : Round} {tm : Team} {lbl : Lbl} (hop : ∀ f t, r.op ≠ .accst f t)
    (h : p.labelFor (p.tileMask r (tm.tile r.core r.part r.op.tile)) = some (lbl, p₁)) :
    let t := tm.tile r.core r.part r.op.tile
    let p₂ := r.sigs.foldl (fun p g => p.flagDone ⟨r.team, g.lid⟩ g.flag) (p₁.setTeam r.team (fun tm => tm.setTile { t with words := r.words t, lbl }))
    p.doRound r tm = ({ p₂ with rounds := p₂.rounds.filter (fun x => x.id != r.id) }).wake (fun st => st == Stall.lock || st == Stall.exit) := by
  simp only [Package.doRound, h]
  cases hr : r.op with
  | accst f t => exact absurd hr (hop f t)
  | mma fmt t a b ja jb => rfl
  | mmasp fmt q t => rfl
  | accld form t z => rfl

/-- An ACCST gives its signers' registers the words of the tile, with the labels of R122. -/
theorem Package.doRound_accst {p p₁ p₂ : Package} {r : Round} {tm : Team} {f : StForm} {n : Nat} {lbl : Lbl} {ls : List Lbl}
    (hop : r.op = .accst f n) (h : p.labelFor (p.tileMask r (tm.tile r.core r.part n)) = some (lbl, p₁))
    (hl : p₁.storeLabels (tm.tile r.core r.part n) r.sigs = some (ls, p₂)) :
    let p₃ := r.sigs.foldl (fun p g => p.flagDone ⟨r.team, g.lid⟩ g.flag) (p₂.storeTile r.team f (tm.tile r.core r.part n) r.sigs ls)
    p.doRound r tm = ({ p₃ with rounds := p₃.rounds.filter (fun x => x.id != r.id) }).wake (fun st => st == Stall.lock || st == Stall.exit) := by
  simp only [Package.doRound, hop, LatheOp.tile, h, hl]

/-! ### Entries that a pre-emption had saved (R187) -/

/-- The queue of a team row takes the entries that were saved for it, in their order, once no entry stands there. -/
theorem Package.restoreSparse_of_open {p : Package} {t : Nat} {tm : Team} {e : SavedSparse} (ht : p.team? t = some tm)
    (hres : tm.residence = .resident) (he : e ∈ tm.sparse)
    (hopen : ∀ x ∈ p.sparse, ¬(x.core = tm.rowCore e.row ∧ x.part = tm.rowPart e.row ∧ x.q = e.q)) :
    { core := tm.rowCore e.row, part := tm.rowPart e.row, q := e.q, team := t
      entries := (tm.sparse.filter (fun y => y.row == e.row && y.q == e.q)).map (fun y => (y.pos, y.lbl)) } ∈ (p.restoreSparse t).sparse := by
  have hkey : (e.row, e.q) ∈ (tm.sparse.map (fun e => (e.row, e.q))).eraseDups :=
    List.mem_eraseDups.mpr (List.mem_map.mpr ⟨e, he, rfl⟩)
  have hfree : p.sparse.any (fun x => x.core == tm.rowCore e.row && x.part == tm.rowPart e.row && x.q == e.q) = false := by
    simpa only [List.any_eq_false, Bool.and_eq_true, beq_iff_eq, and_assoc] using hopen
  simp only [Package.restoreSparse, ht, hres, bne_self_eq_false]
  exact List.mem_append_right _ (List.mem_map.mpr ⟨(e.row, e.q), List.mem_filter.mpr ⟨hkey, by simp only [hfree, Bool.not_false]⟩, rfl⟩)

end Sys2Proof.Machine

namespace Sys2Proof.Claims

open Sys2Proof.Machine

/-! ### The events of the lathe -/

theorem answers_roundIssue (s : State) (t k : Nat) : Answers (.roundIssue t k) s (s.here.issueRound t k) := rfl

section
variable {s : State} {k : Nat} {r r' : Round} {tm : Team} {p : Package}

/-- The first round of a slice pops the entries that it needs, and stalls or takes effect (R188, R189). -/
theorem exec_roundComplete (hr : s.here.rounds.find? (fun r => r.id == k) = some r) (ht : s.here.team? r.team = some tm) (hstop : r.stop = false)
    (htime : r.time < s.here.now) (hfirst : s.here.firstRound r = true) (hheld : s.here.tileHeld r tm = false)
    (hpop : s.here.popSparse r = (p, r')) :
    exec (.roundComplete k) s = .next { s with here :=
      if r'.popped.length < r'.op.groups then
        (p.restoreAll.setRound k (fun _ => { r' with read := true, stop := true })).wake (fun st => st == Stall.lock || st == Stall.exit)
      else (p.restoreAll.setRound k (fun _ => { r' with read := true })).doRound { r' with read := true } tm } := by
  have hgo : (r.stop || decide (s.here.now ≤ r.time) || !s.here.firstRound r || s.here.tileHeld r tm) = false := by
    rw [hstop, decide_eq_false (Nat.not_le.mpr htime), hfirst, hheld]
    rfl
  simp only [exec, execRoundComplete, lift, hr, ht, hgo, hpop, Bool.false_eq_true, if_false]

theorem answers_sparsityEntryArrive {core part q : Nat}
    (hr : s.here.rounds.find? (fun r => r.core == core && r.part == part && r.stop && r.op.queue == some q
      && s.here.sparse.any (fun x => x.core == core && x.part == part && x.q == q && x.team == r.team && !x.entries.isEmpty)) = some r)
    (hpop : s.here.popSparse r = (p, r')) :
    Answers (.sparsityEntryArrive core part q) s (p.restoreAll.setRound r.id (fun _ => { r' with stop := decide (r'.popped.length < r'.op.groups) })) := by
  simp only [Answers, exec, execSparsityEntryArrive, lift, hr, hpop]

end

/-- Settles O36: each event and operation of the lathe answers what its equation above says. -/
theorem roundsComplete : Obligations.RoundsComplete := by
  refine ⟨fun s t k tm op ht hk hstate hsigned hop => ?_, fun s k r tm p r' hr ht hstop htime hfirst hheld hpop => ⟨fun hfew => ?_, fun hall => ?_⟩,
    fun p r tm lbl p₁ hop h => Package.doRound_tile hop h, fun p r tm f n lbl p₁ ls p₂ hop h hl => Package.doRound_accst hop h hl,
    fun p r tm h => Package.doRound_full h, fun s core part q r p r' hr hpop => answers_sparsityEntryArrive hr hpop,
    fun p t tm e ht hres he hopen => ⟨_, Package.restoreSparse_of_open ht hres he hopen, rfl, rfl, rfl, rfl, rfl⟩⟩
  · have hready : (tm.sign k).ready = true := SignReg.ready_iff.mpr ⟨hstate, hsigned, by simp [hop]⟩
    have hteam := Package.team?_issueRound_of_ready ht hop hready
    refine ⟨_, s.here.roundOf tm t k op, tm.setSign k (tm.sign k).issued, answers_roundIssue s t k, ?_⟩
    rw [Package.issueRound_of_ready ht hop hready] at hteam ⊢
    exact ⟨rfl, rfl, rfl, rfl, rfl, rfl, rfl, rfl, rfl, rfl, rfl, hteam, Team.sign_setSign_self hk _,
      fun j hj => Team.sign_setSign_of_ne hj tm _, rfl, Package.wake_gangs _ _⟩
  · have h := exec_roundComplete hr ht hstop htime hfirst hheld hpop
    rwa [if_pos hfew] at h
  · have h := exec_roundComplete hr ht hstop htime hfirst hheld hpop
    rwa [if_neg (Nat.not_lt.mpr hall)] at h

end Sys2Proof.Claims
end

section
/-! SUPPORT. The lathe words in a thread (R171, R173, R175): the lanes that SIGN expects, and that making a signature only reads. MMA, MMASP, ACCLD and ACCST
complete as their effect says in every state; SIGN does so where no two teams share a number, and two teams of one number refute the statement. -/

namespace Sys2Proof.Machine

/-! ### The lanes of a row -/

theorem getLsbD_oneBit {a l : Nat} (ha : a < 32) : (1#32 <<< a).getLsbD l = decide (a = l) := by
  rw [← BitVec.twoPow_eq, BitVec.getLsbD_twoPow]
  simp [ha]

/-- Setting one bit for each thread of a list that satisfies a condition. -/
theorem getLsbD_foldl_lanes {c : Thread → Bool} {l : Nat} (ths : List Thread) (m : BitVec 32) :
    (ths.foldl (fun m th => if c th then m ||| 1#32 <<< laneOf th.lid else m) m).getLsbD l = true ↔
      m.getLsbD l = true ∨ ∃ th ∈ ths, c th = true ∧ laneOf th.lid = l := by
  induction ths generalizing m with
  | nil => simp
  | cons th ths ih =>
    have lane : laneOf th.lid < 32 := Nat.mod_lt _ (by decide)
    rw [List.foldl_cons, ih]
    cases hc : c th <;> simp [hc, getLsbD_oneBit lane, or_assoc]

/-- Bit l of the lanes of a row stands for the live thread in lane l of it (R171). -/
theorem Team.getLsbD_rowLanes (tm : Team) (q l : Nat) :
    (tm.rowLanes q).getLsbD l = true ↔ ∃ th ∈ tm.liveLanes, rowOf th.lid = q ∧ laneOf th.lid = l := by
  simpa [Team.rowLanes] using getLsbD_foldl_lanes (c := fun th => rowOf th.lid == q) (l := l) tm.liveLanes 0

/-! ### Teams with numbers of their own -/

/-- No two teams of the package have one number, by which `setTeam` finds the team it updates. -/
def Package.teamsDistinct (p : Package) : Prop := (p.teams.map (·.id)).Nodup

theorem Package.teamsDistinct_setTeam {F : Team → Team} (hid : ∀ tm, (F tm).id = tm.id) {p : Package} (h : p.teamsDistinct) (t : Nat) :
    (p.setTeam t F).teamsDistinct := by
  have ids : (p.setTeam t F).teams.map (·.id) = p.teams.map (·.id) := by
    rw [Package.setTeam_teams, mapIf, List.map_map]
    refine List.map_congr_left fun tm _ => ?_
    rw [Function.comp_apply]
    split
    · exact hid tm
    · rfl
  rwa [Package.teamsDistinct, ids]

theorem eq_of_nodup_ids {ts : List Team} (h : (ts.map (·.id)).Nodup) {x y : Team} (hx : x ∈ ts) (hy : y ∈ ts) (e : x.id = y.id) : x = y := by
  induction ts with
  | nil => cases hx
  | cons t ts ih =>
    rw [List.map_cons, List.nodup_cons] at h
    obtain ⟨hnew, h⟩ := h
    rcases List.mem_cons.mp hx with rfl | hxt
    · rcases List.mem_cons.mp hy with rfl | hyt
      · rfl
      · exact absurd (e ▸ List.mem_map_of_mem hyt) hnew
    · rcases List.mem_cons.mp hy with rfl | hyt
      · exact absurd (e ▸ List.mem_map_of_mem hxt) hnew
      · exact ih h hxt hyt

/-- Where numbers are distinct, an update of a team is one of the team that the search finds. -/
theorem Package.setTeam_congr {F G : Team → Team} {p : Package} {t : Nat} {tm : Team} (h : p.teamsDistinct) (ht : p.team? t = some tm)
    (hFG : F tm = G tm) : p.setTeam t F = p.setTeam t G := by
  have only : ∀ x ∈ p.teams, x.id = t → x = tm := fun x hx hxt =>
    eq_of_nodup_ids h hx (List.mem_of_find?_eq_some ht) (hxt.trans (Package.id_of_team? ht).symm)
  have teams : mapIf (fun x => x.id == t) F p.teams = mapIf (fun x => x.id == t) G p.teams := by
    refine List.map_congr_left fun x hx => ?_
    split
    next hxt => rw [only x hx (by simpa using hxt), hFG]
    · rfl
  rw [Package.setTeam, Package.setTeam, teams]

/-- The package of a clause placed at the fetch after reset holds one team. -/
theorem Package.teamsDistinct_fetching_reset (words : List Word) : (Package.reset.fetching words).teamsDistinct :=
  List.nodup_cons.mpr ⟨List.not_mem_nil, List.Pairwise.nil⟩

/-! ### A round that is not ready -/

theorem Package.issueRound_of_not_ready {p : Package} {t k : Nat} {tm : Team} (ht : p.team? t = some tm) (h : (tm.sign k).ready = false) :
    p.issueRound t k = p := by
  cases hop : (tm.sign k).op <;> simp only [Package.issueRound, ht, h, hop]

end Sys2Proof.Machine

namespace Sys2Proof.Claims

open Sys2Proof.Machine

/-! ### SIGN (R171) -/

/-- What SIGN runs in each thread, as `execSign` gives it. -/
def signBody (k : BitVec 4) (row : SignRow) (w : Who) : PM Unit := do
  if !w.isPilot then prot 0x24
  else do
    let tm ← teamOf w
    let q ← match row with
      | .imm q => pure q.toNat
      | .sreg b => do
        let (v, _) ← readSreg w 1 b
        pure v
    if tm.rows ≤ q || 256 ≤ q then prot 0x20
    else do
      await ((tm.sign k.toNat).state != .collecting) .sign
      setTeam w (fun tm => tm.setSign k.toNat (SignReg.declare q (tm.rowLanes q)))

theorem exec_sign (k : BitVec 4) (row : SignRow) (s : State) : exec (.sign k row) s = lift (each (signBody k row)) s := rfl

section
variable {k : BitVec 4} {row : SignRow} {w : Who} {p q : Package}

theorem gives_await {c : Bool} {st : Stall} (h : c = true) : Gives (await c st) p () p := by
  simp [await, h, gives_pure]

/-- Where the teams have numbers of their own, SIGN declares the register as its effect says (R171, R174). -/
theorem signBody_runs (hd : p.teamsDistinct) (h : signEffect k row w p q) : Gives (signBody k row w) p () q := by
  obtain ⟨tm, n, lbl, e, hw, htm, hrow, hn, hmax, hst, he, rfl⟩ := h
  have hpilot : (!w.isPilot) = false := by simp [Who.isPilot, hw]
  have hrange : (decide (tm.rows ≤ n) || decide (256 ≤ n)) = false := by
    rw [Team.rows, decide_eq_false (Nat.not_le.mpr hn), decide_eq_false (Nat.not_le.mpr hmax), Bool.or_self]
  have hfree : ((tm.sign k.toNat).state != .collecting) = true := by simpa using hst
  have hlanes : e = tm.rowLanes n :=
    BitVec.eq_of_getLsbD_eq fun l hl => Bool.eq_iff_iff.mpr ((he l hl).trans (tm.getLsbD_rowLanes n l).symm)
  have hset : Gives (setTeam w (fun tm => tm.setSign k.toNat (SignReg.declare n (tm.rowLanes n)))) p () _ :=
    gives_setTeam.mpr (Package.setTeam_congr (F := fun tm => tm.setSign k.toNat (SignReg.declare n e)) hd htm (by rw [hlanes]))
  have htail := Gives.bind (f := fun _ => setTeam w _) (gives_await (st := .sign) hfree) hset
  cases row with
  | imm r =>
    subst hrow
    simp only [signBody, hpilot]
    refine Gives.bind (gives_teamOf.mpr ⟨htm, rfl⟩) (Gives.bind (gives_pure.mpr ⟨rfl, rfl⟩) ?_)
    simp only [hrange, Bool.false_eq_true, if_false]
    exact htail
  | sreg b =>
    simp only [signBody, hpilot]
    refine Gives.bind (gives_teamOf.mpr ⟨htm, rfl⟩) (Gives.bind hrow (Gives.bind (gives_pure.mpr ⟨rfl, rfl⟩) ?_))
    simp only [hrange, Bool.false_eq_true, if_false]
    exact htail

theorem signEffect_teamsDistinct (hd : p.teamsDistinct) (h : signEffect k row w p q) : q.teamsDistinct := by
  obtain ⟨_, n, _, e, _, _, _, _, _, _, _, rfl⟩ := h
  exact Package.teamsDistinct_setTeam (F := fun tm => tm.setSign k.toNat (SignReg.declare n e)) (fun _ => rfl) hd _

theorem signEffect_inTurn_distinct (hd : p.teamsDistinct) {team : Nat} {ls : List Nat} (h : InTurn (signEffect k row) team ls p q) :
    InTurn (fun w p q => p.teamsDistinct ∧ signEffect k row w p q) team ls p q := by
  induction ls generalizing p with
  | nil => exact h
  | cons l ls ih =>
    obtain ⟨r, hr, h⟩ := h
    exact ⟨r, ⟨hd, hr⟩, ih (signEffect_teamsDistinct hd hr) h⟩

/-- SIGN completes with its effect where no two teams have one number. -/
theorem sign_completes_of_teamsDistinct {s : State} {i : Issue} (hd : s.here.teamsDistinct) (hi : s.here.issue = some i)
    (h : InTurn (signEffect k row) i.team i.active s.here q) : exec (.sign k row) s = .next { s with here := q } := by
  rw [exec_sign]
  exact lift_next (each_inTurn (fun _ _ _ hw => signBody_runs hw.1 hw.2) hi (signEffect_inTurn_distinct hd h))

end

/-! ### The making of a signature (R122, R176) -/

/-- A meaning that only reads: where it gives a value, the package is as it was. -/
def Reads {α : Type} (m : PM α) : Prop := ∀ ⦃p a q⦄, Gives m p a q → q = p

section
variable {α β : Type} {w : Who}

theorem Reads.bind {m : PM α} {f : α → PM β} (h : Reads m) (h' : ∀ a, Reads (f a)) : Reads (m >>= f) := by
  intro p b q hb
  obtain ⟨a, r, ha, hb⟩ := gives_bind.mp hb
  rw [h' a hb, h ha]

theorem reads_pure (a : α) : Reads (pure a : PM α) := fun _ _ _ h => (gives_pure.mp h).2

theorem reads_get : Reads (get : PM Package) := fun _ _ _ h => (gives_get.mp h).2

theorem reads_thr : Reads (thr w) := fun _ _ _ h => (gives_thr.mp h).2

theorem reads_teamOf : Reads (teamOf w) := fun _ _ _ h => (gives_teamOf.mp h).2

theorem reads_theIssue : Reads theIssue := fun _ _ _ h => (gives_theIssue.mp h).2

theorem reads_resolve (f : Fld) : Reads (resolve w f) := fun _ _ _ h => (resolve_congr rfl rfl h).2

theorem reads_env : Reads (env w) := reads_thr.bind fun _ => reads_get.bind fun _ => reads_pure _

theorem reads_fieldRegs (f : Fld) (n : Nat) : Reads (fieldRegs w f n) :=
  reads_thr.bind fun _ => reads_teamOf.bind fun _ => (reads_resolve f).bind fun _ => reads_pure _

theorem reads_signature (a b : Fld) (na nb : Nat) (lit : Option Word) : Reads (signature w a b na nb lit) := by
  refine reads_theIssue.bind fun _ => reads_get.bind fun _ => reads_thr.bind fun _ => reads_env.bind fun _ =>
    (reads_fieldRegs a na).bind fun _ => (reads_fieldRegs b nb).bind fun _ => ?_
  cases lit with
  | none => exact (reads_pure _).bind fun _ => reads_pure _
  | some l => exact (reads_fieldRegs _ 1).bind fun _ => (reads_fieldRegs _ 1).bind fun _ => (reads_pure _).bind fun _ => reads_pure _

end

/-! ### The words that sign (R173, R175) -/

section
variable {w : Who} {p q r : Package} {k : Nat} {fields : List FieldUse} {op : LatheOp} {mk : Who → PM Signature} {x : Instr}

/-- A thread whose signature is admitted adds it to the register (R173). -/
theorem latheBody_runs (h : signsRound fields k op mk w p () q) : Gives (latheBody fields k op mk w) p () q := by
  obtain ⟨i, tm, g, p₁, hw, hpass, hi, htm, hstate, hrow, hexpect, hfree, hkey, hg, rfl⟩ := h
  have hlane : w.isPilot = false := by simp [Who.isPilot, hw]
  have admitted : ((tm.sign k).state == .idle || rowOf w.lid != (tm.sign k).row || (tm.sign k).expect &&& 1#32 <<< laneOf w.lid == 0) = false := by
    simpa [hstate, hrow] using hexpect
  have unsigned : ((tm.sign k).signed &&& 1#32 <<< laneOf w.lid != 0) = false := by simp [hfree]
  simp only [latheBody, hlane, Bool.false_eq_true, if_false]
  refine Gives.bind hpass (Gives.bind (gives_theIssue.mpr ⟨hi, rfl⟩) (Gives.bind (gives_teamOf.mpr ⟨htm, rfl⟩) ?_))
  simp only [admitted, unsigned, Bool.false_eq_true, if_false]
  by_cases hc : (tm.sign k).state = .collecting
  · obtain ⟨hword, hlit⟩ := hkey hc
    simp only [hc, hword, hlit, bne_self_eq_false, Bool.or_self, Bool.and_false, Bool.false_eq_true, if_false]
    exact Gives.bind hg (gives_setTeam.mpr rfl)
  · have first : ((tm.sign k).state != .collecting) = true := by simpa using hc
    simp only [beq_eq_false_iff_ne.mpr hc, first, Bool.false_and, Bool.false_eq_true, if_false, if_true]
    exact Gives.bind hg (gives_setTeam.mpr rfl)

/-- A signature leaves the clause that is being issued. -/
theorem signsRound_issue (reads : ∀ w, Reads (mk w)) {u : Unit} (h : signsRound fields k op mk w p u q) : q.issue = p.issue := by
  obtain ⟨_, _, _, _, _, _, _, _, _, _, _, _, _, hg, rfl⟩ := h
  rw [reads w hg, Package.setTeam_issue]

theorem inTurnGives_issue {β : Type} {eff : Who → Package → β → Package → Prop} (keeps : ∀ w p b q, eff w p b q → q.issue = p.issue)
    {team : Nat} {ls : List Nat} {vs : List (Nat × β)} (h : InTurnGives eff team ls p vs q) : q.issue = p.issue := by
  induction ls generalizing p vs with
  | nil => rw [h.1]
  | cons l ls ih =>
    obtain ⟨r, b, rest, hr, h, -⟩ := h
    rw [ih h, keeps _ _ _ _ hr]

/-- What follows the signatures is the issue of the round, which does nothing while the register is not ready (R175). -/
theorem thenIssues_issueRound {vs : List (Nat × Unit)} {i : Issue} (hi : q.issue = some i) (h : thenIssues k vs q r) :
    r = q.issueRound i.team k := by
  obtain ⟨j, tm, hj, htm, h⟩ := h
  obtain rfl : i = j := Option.some.inj (hi.symm.trans hj)
  rcases h with ⟨hwait, rfl⟩ | ⟨-, -, -, rfl⟩
  · refine (Package.issueRound_of_not_ready htm ?_).symm
    rw [← Bool.not_eq_true, SignReg.ready_iff]
    rintro ⟨hc, hs, hop⟩
    rcases hwait with hwait | hwait | hwait
    · exact hwait hs
    · exact hwait hc
    · simp [hwait] at hop
  · rfl

/-- A word that signs completes: each active thread adds its signature, and the round issues once every expected thread has signed (R173, R175). -/
theorem completesThen_signAll (hx : ∀ s, exec x s = signAll fields k op mk s) (reads : ∀ w, Reads (mk w)) :
    CompletesThen x (signsRound fields k op mk) (thenIssues k) := by
  intro s i vs q r hi ht hr
  have hq : q.issue = some i := (inTurnGives_issue (fun _ _ _ _ => signsRound_issue reads) ht).trans hi
  rw [hx, signAll]
  refine lift_next ?_
  rw [eachThen_inTurn (body := latheBody fields k op mk) (fun _ _ _ _ h => latheBody_runs h) hi ht, hi, thenIssues_issueRound hq hr]

theorem mma_completes (fmt : MFmt) (tile : BitVec 6) (k : BitVec 4) (a b : BitVec 5) (lit : Option Word) :
    CompletesThen (.mma fmt tile k a b lit)
      (signsRound ([src (latheField a) fmt.regs, src (latheField b) fmt.regs] ++ (match lit with
          | some l => [src (ctlSA l) 1, src (ctlSB l) 1]
          | none => [])) k.toNat
        (.mma fmt tile.toNat 0 0 ((lit.map ctlJA).getD 0) ((lit.map ctlJB).getD 0))
        (fun w => signature w (latheField a) (latheField b) fmt.regs fmt.regs lit)) (thenIssues k.toNat) := by
  cases lit <;> exact completesThen_signAll (fun _ => rfl) (fun _ => reads_signature _ _ _ _ _)

theorem mmasp_completes (fmt : SFmt) (sq : BitVec 2) (tile : BitVec 6) (k : BitVec 4) (a b : BitVec 5) :
    CompletesThen (.mmasp fmt sq tile k a b)
      (signsRound [src (latheField a) 4, src (latheField b) 8] k.toNat (.mmasp fmt sq.toNat tile.toNat)
        (fun w => signature w (latheField a) (latheField b) 4 8 none)) (thenIssues k.toNat) :=
  completesThen_signAll (fun _ => rfl) (fun _ => reads_signature _ _ _ _ _)

theorem accld_completes (form : LdForm) (tile : BitVec 6) (a : Fld) (k : BitVec 4) :
    CompletesThen (.accld form tile a k)
      (let n := if a = 122#7 then 0 else form.regs
       signsRound [src a n] k.toNat (.accld form tile.toNat (a = 122#7)) (fun w => signature w a a n 0 none)) (thenIssues k.toNat) := by
  have zero : (a.toNat == 122) = decide (a = 122#7) := by
    rw [Bool.eq_iff_iff, beq_iff_eq, decide_eq_true_iff, ← BitVec.toNat_inj]
    rfl
  refine completesThen_signAll (fun s => ?_) (fun _ => reads_signature _ _ _ _ _)
  simp only [exec, execAccld, zero, decide_eq_true_eq]

theorem accst_completes (form : StForm) (d : Fld) (tile : BitVec 6) (k : BitVec 4) :
    CompletesThen (.accst form d tile k)
      (signsRound [dst d form.regs] k.toNat (.accst form tile.toNat) (fun w => do
        let g ← signature w d d 0 0 none
        let r ← resolve w d
        pure { g with dst := lockedRegs r form.regs, locks := lockedRegs r form.regs })) (thenIssues k.toNat) :=
  completesThen_signAll (fun _ => rfl) 
    (fun _ => (reads_signature _ _ _ _ _).bind fun _ => (reads_resolve d).bind fun _ => reads_pure _)

end

/-! ### Two teams of one number -/

/-- The pilot of team 0 issues a clause, and a second record of number 0 stands behind the team's own, with no lane thread. -/
def twins : State :=
  let p := Package.reset.fetching [0#32]
  { State.reset with here := { p with teams := p.teams ++ [{ fetchTeam 0 0 with threads := [] }]
                                      issue := p.issue.map (fun i => { i with active := [0] }) } }

/-- Whether sign-off register 0 of the last team record is armed after an outcome. -/
def lastArmed : Host.Outcome State Fault Refusal → Bool
  | .next t => t.here.teams.getLast?.any (fun tm => (tm.sign 0).state == .armed)
  | _ => false

/-- The effect of SIGN gives every record of the number the lanes of the first one: lane 1, and the register is armed. -/
theorem signEffect_twins : ∃ i q, twins.here.issue = some i ∧ InTurn (signEffect 0 (.imm 0)) i.team i.active twins.here q ∧
    lastArmed (.next { twins with here := q }) = true :=
  ⟨_, _, rfl, ⟨_, ⟨_, 0, 0, 2#32, rfl, rfl, rfl, by decide +kernel, by decide, by decide, by decide, rfl⟩, rfl⟩, by decide +kernel⟩

/-- SIGN itself reads each record's own lanes: the last one has none and stays idle. -/
theorem exec_sign_twins : lastArmed (exec (.sign 0 (.imm 0)) twins) = false := by decide +kernel

/-- Refutes O29: the SIGN clause ranges over every state, also one with two team records of one number, where the effect writes the lanes of the first
record into both and SIGN writes each record's own. The model gives a new team a free number, so the fault is the missing hypothesis of the clause, not of SIGN:
`sign_completes_of_teamsDistinct` is the clause with it, and `mma_completes`, `mmasp_completes`, `accld_completes` and `accst_completes` are the other four. -/
theorem not_latheWordsSign : ¬ Obligations.LatheWordsSign := by
  intro h
  obtain ⟨i, q, hi, ht, harmed⟩ := signEffect_twins
  rw [← h.1 0 (.imm 0) twins i q hi ht, exec_sign_twins] at harmed
  exact Bool.false_ne_true harmed

end Sys2Proof.Claims
end

section
/-! SUPPORT. The manifest words in a pilot (R290, R291, R300, R302, R427 to R429): the manifest that a granted number names, when REC acts at the homes,
and the body of each word. -/

namespace Sys2Proof.Claims

open Sys2Proof.Machine

section
variable {α : Type} {w : Who} {p q : Package} {m : BitVec 4} {x : Manifest}

/-! ### The grant, the homes and the range -/

theorem gives_worldOf {wd : World} : Gives (worldOf w) p wd q ↔ (∃ tm, p.team? w.team = some tm ∧ p.world? tm.world = some wd) ∧ q = p := by
  rw [Gives, Laws.p_world, ← Option.bind_eq_some_iff]
  cases (p.team? w.team).bind (fun tm => p.world? tm.world) <;> simp [eq_comm]

/-- A pilot with the grant meets none of the faults that REC and RECQ check first (R290). -/
theorem Granted.manOf (h : Granted w m p x) : Gives (manOf w m) p x p := by
  obtain ⟨hw, tm, wd, e, htm, hwd, he, rfl⟩ := h
  have hpilot : (!w.isPilot) = false := by simp [Who.isPilot, hw]
  simp only [Machine.manOf, hpilot, Bool.false_eq_true, if_false]
  refine Gives.bind (gives_worldOf.mpr ⟨⟨tm, htm, hwd⟩, rfl⟩) (Gives.bind (gives_get.mpr ⟨rfl, rfl⟩) ?_)
  simp only [he]
  exact gives_pure.mpr ⟨rfl, rfl⟩

theorem gives_recTime (h : p.homeAt ≠ p.now + 1) : Gives recTime p () p :=
  Gives.bind (gives_get.mpr ⟨rfl, rfl⟩) (gives_await (bne_iff_ne.mpr h))

/-- REC acts on the package in a cycle in which nothing has reached a home before it (R300). -/
theorem gives_recTime_modify {f : Package → Package} (h : p.homeAt ≠ p.now + 1) (hq : q = f p) :
    Gives (do recTime; modify f) p () q :=
  Gives.bind (gives_recTime h) (gives_modify.mpr hq)

theorem gives_plainPage {m : PM α} {a : α} (h : Gives m p a q) : Gives (plainPage m) p a q := by
  rw [Gives] at h
  rw [Gives, plainPage, h]

end

/-! ### The words -/

theorem recBegin_completes (m : BitVec 4) (a b : Fld) (lit : Option Word) : Completes (.recBegin m a b lit) (recBeginEffect m a b lit) := by
  refine Laws.completes_each (fun _ => rfl) (fun w p q h => ?_)
  obtain ⟨x, va, la, p₁, n, ln, p₂, maps, p₃, tm, wd, hgrant, hpass, ha, hb, hcan, halign, hpos, hmax, hroom, hmaps, htm, hwd, htime, hfree, rfl⟩ := h
  have range : (va % 65536 != 0 || n == 0 || decide (16384 < n)) = false := by
    simp [halign, Nat.ne_of_gt hpos, hmax]
  have free : p₃.mans.any (fun y => y.phys != x.phys && y.state != .empty && (mapFrames p₃ wd maps).any (fun f => y.holds f.2)) = false := by
    simpa [List.any_eq_false] using hfree
  refine Gives.bind hpass (Gives.bind hgrant.manOf (Gives.bind ha (Gives.bind hb (Gives.bind (gives_get.mpr ⟨rfl, rfl⟩) ?_))))
  simp only [hcan, range, hroom, Bool.not_true, Bool.false_eq_true, if_false]
  refine Gives.bind (gives_plainPage hmaps) (Gives.bind (gives_teamOf.mpr ⟨htm, rfl⟩) (Gives.bind (gives_worldOf.mpr ⟨⟨tm, htm, hwd⟩, rfl⟩)
    (Gives.bind (gives_get.mpr ⟨rfl, rfl⟩) ?_)))
  simp only [free, Bool.false_eq_true, if_false]
  refine gives_recTime_modify htime ?_
  simp only [List.any_eq_true, beq_iff_eq]

theorem recEnd_completes (m : BitVec 4) : Completes (.recEnd m) (recEndEffect m) := by
  refine Laws.completes_each (fun _ => rfl) (fun w p q h => ?_)
  obtain ⟨x, hgrant, hstate, htime, hq⟩ := h
  refine Gives.bind hgrant.manOf ?_
  rcases hstate with hs | hs <;> simp only [hs] <;> exact gives_recTime_modify htime hq

theorem recPlay_completes (m : BitVec 4) (b : Fld) (lit : Option Word) : Completes (.recPlay m b lit) (recPlayEffect m b lit) := by
  refine Laws.completes_each (fun _ => rfl) (fun w p q h => ?_)
  obtain ⟨x, v, lv, p₁, hgrant, hpass, hb, htime, hplay⟩ := h
  have mth : v % 256 = bitsOf 7 0 v := rfl
  have uth : v / 256 % 256 = bitsOf 15 8 v := congrArg (· % 256) (Nat.shiftRight_eq_div_pow v 8).symm
  rw [mth, uth] at hplay
  refine Gives.bind hpass (Gives.bind hgrant.manOf (Gives.bind hb ?_))
  rcases hplay with ⟨hs, hq⟩ | ⟨hs, hq⟩
  · rcases hs with hs | hs <;> simp only [hs] <;> exact gives_recTime_modify htime hq
  · simp only [hs]
    exact gives_recTime_modify htime (hs ▸ hq)

theorem recDrop_completes (m : BitVec 4) : Completes (.recDrop m) (recDropEffect m) := by
  refine Laws.completes_each (fun _ => rfl) (fun w p q h => ?_)
  obtain ⟨x, hgrant, htime, hq⟩ := h
  refine Gives.bind hgrant.manOf ?_
  by_cases hs : x.state = .empty
  · rw [if_pos (beq_iff_eq.mpr hs)]
    rw [if_pos hs] at hq
    exact gives_pure.mpr ⟨rfl, hq⟩
  · rw [if_neg (by simpa using hs)]
    rw [if_neg hs] at hq
    exact gives_recTime_modify (htime hs) hq

theorem recq_completes (d : Fld) (m : BitVec 4) : Completes (.recq d m) (recqEffect d m) := by
  refine Laws.completes_each (fun _ => rfl) (fun w p q h => ?_)
  obtain ⟨x, lbl, p₁, _, hgrant, hpass, hl, rfl, hout⟩ := h
  exact Gives.bind hpass (Gives.bind hgrant.manOf (Gives.bind hl hout))

/-- Settles O31: each manifest word, in a pilot that holds the grant, runs past its faults and acts on the manifest as R300 and R302 say. -/
theorem manifestWordsComplete : Obligations.ManifestWordsComplete :=
  ⟨recBegin_completes, recEnd_completes, recPlay_completes, recDrop_completes, recq_completes⟩

end Sys2Proof.Claims
end

section
/-! SUPPORT. What the operations of the fabric leave to be read (R305, R306, R309, R313): an entry put into its table in order, a port and a group after their
update, an entry added to a journal, and the accesses and writes under way, of which moving lines and copies between the caches changes none. -/

namespace Sys2Proof.Machine

/-! ### Tables in the order of a key -/

section
variable {α : Type} {key : α → Nat} {x y : α} {l : List α}

theorem mem_insertBy_iff : y ∈ insertBy key x l ↔ y = x ∨ y ∈ l := by
  induction l with
  | nil => simp [insertBy]
  | cons z l ih =>
    rw [insertBy]
    split
    · simp
    · simp [ih, or_left_comm]

theorem mem_sortBy_iff : y ∈ sortBy key l ↔ y ∈ l := by
  have inserted : ∀ acc, y ∈ l.foldl (fun acc x => insertBy key x acc) acc ↔ y ∈ l ∨ y ∈ acc := by
    induction l with
    | nil => simp
    | cons z l ih =>
      intro acc
      simp only [List.foldl_cons, ih, mem_insertBy_iff, List.mem_cons, or_assoc, or_left_comm]
  simpa [sortBy] using inserted []

/-- The entry that replaces those of its key is the one that is found under it. -/
theorem find?_insertBy_replaced : (insertBy key x (l.filter (fun y => key y != key x))).find? (fun y => key y == key x) = some x := by
  induction l with
  | nil => simp [insertBy]
  | cons z l ih =>
    by_cases hz : key z = key x
    · simpa [List.filter_cons, hz] using ih
    · have hz' : (key z != key x) = true := by simpa using hz
      rw [List.filter_cons, if_pos hz', insertBy]
      split
      · simp
      · rw [List.find?_cons_of_neg (by simpa using hz)]
        exact ih

end

/-! ### Ports (R1, R306, R309) -/

@[simp] theorem Package.port_id (p : Package) (k : Nat) : (p.port k).id = k := by
  unfold Package.port
  cases h : p.ports.find? (fun x => x.id == k) with
  | none => rfl
  | some x => simpa using List.find?_some h

theorem Package.port_setPort (p : Package) {x : Port} {k : Nat} (h : x.id = k) : (p.setPort x).port k = x := by
  subst h
  simp only [Package.port, Package.setPort, find?_insertBy_replaced (key := Port.id), Option.getD_some]

@[simp] theorem Package.interrupt_port (p : Package) (c : IntClass) (world n k : Nat) : (p.interrupt c world n).port k = p.port k := rfl

@[simp] theorem Package.interrupt_ints_length (p : Package) (c : IntClass) (world n : Nat) :
    (p.interrupt c world n).sys.ints.length = p.sys.ints.length + 1 := by
  simp [Package.interrupt]

theorem Package.port_retireLink (p : Package) (k : Nat) :
    (p.retireLink k).port k = { p.port k with erasures := (p.port k).erasures + 1, retired := true } := by
  simp only [Package.retireLink, Package.interrupt_port]
  exact p.port_setPort (p.port_id k)

/-! ### Accesses and writes under way -/

/-- The accesses and the writes under way in a package. -/
def Package.traffic (p : Package) : List Acc × List Write := (p.accs, p.writes)

@[simp] theorem Package.putLine_traffic (p : Package) (l : Line) : (p.putLine l).traffic = p.traffic := by
  unfold Package.putLine
  split <;> rfl

@[simp] theorem Package.evictL2_traffic (p : Package) (line : Nat) : (p.evictL2 line).traffic = p.traffic := by
  unfold Package.evictL2
  extract_lets l die q
  have hq : q.traffic = p.traffic := Package.putLine_traffic ..
  split
  · rfl
  · split <;> exact hq

theorem Package.pick_eq (p : Package) (n : Nat) : (p.pick n).2 = { p with picks := p.picks.tail } := by
  unfold Package.pick
  cases p with | mk => split <;> simp_all

@[simp] theorem Package.pick_traffic (p : Package) (n : Nat) : (p.pick n).2.traffic = p.traffic := by
  rw [Package.pick_eq]
  rfl

@[simp] theorem Package.roomDie_traffic (p : Package) (line : Nat) : (p.roomDie line).traffic = p.traffic := by
  unfold Package.roomDie
  extract_lets near pods
  generalize (if p.carveOut then Config.l2Lines - Config.carveLines else Config.l2Lines) = room
  have hq := p.pick_traffic (near.length + pods.length)
  generalize p.pick (near.length + pods.length) = x at hq
  obtain ⟨n, q⟩ := x
  split
  · rfl
  · dsimp only
    split
    · split
      · exact hq
      · simpa using hq
    · simpa using hq

@[simp] theorem Package.roomL2_traffic (p : Package) (l : Line) : (p.roomL2 l).traffic = p.traffic := by
  unfold Package.roomL2
  split <;> simp

@[simp] theorem Package.setLine_traffic (p : Package) (l : Line) : (p.setLine l).traffic = p.traffic := by
  simp [Package.setLine]

@[simp] theorem Package.noteWct_traffic (p : Package) (x : Write) (wct : Nat) : (p.noteWct x wct).traffic = p.traffic := by
  unfold Package.noteWct
  extract_lets l kept writer near q
  have hq : q.traffic = p.traffic := by
    simp only [q]
    split
    · exact Package.putLine_traffic ..
    · exact Package.setLine_traffic ..
  split <;> exact hq

@[simp] theorem Package.copyLeaves_traffic (p : Package) (c : Copy) : (p.copyLeaves c).traffic = p.traffic := by
  unfold Package.copyLeaves Package.depart
  split
  · split
    · rfl
    · dsimp only
      split <;> rfl
  · rfl

@[simp] theorem Package.dropCopy_traffic (p : Package) (line cluster : Nat) : (p.dropCopy line cluster).traffic = p.traffic := by
  unfold Package.dropCopy
  dsimp only
  split <;> simp

@[simp] theorem Package.setCore_traffic (p : Package) (c : Nat) (f : Core → Core) : (p.setCore c f).traffic = p.traffic := by
  unfold Package.setCore
  split <;> rfl

@[simp] theorem Package.evictCopy_traffic (p : Package) (line cluster : Nat) : (p.evictCopy line cluster).traffic = p.traffic := by
  unfold Package.evictCopy
  split <;> simp

@[simp] theorem Package.roomCache_traffic (p : Package) (line cluster : Nat) : (p.roomCache line cluster).traffic = p.traffic := by
  unfold Package.roomCache
  extract_lets held pods
  have hq := p.pick_traffic (held.length + pods.length)
  generalize p.pick (held.length + pods.length) = x at hq
  obtain ⟨n, q⟩ := x
  split
  · rfl
  · dsimp only
    split
    · simpa using hq
    · split <;> exact hq

@[simp] theorem Package.putPod_traffic (p : Package) (c : PodCopy) : (p.putPod c).traffic = p.traffic := by
  unfold Package.putPod
  extract_lets old q r
  have hr : r.traffic = q.traffic := by
    simp only [r]
    split
    · exact Package.roomDie_traffic ..
    · exact Package.roomCache_traffic ..
  exact hr

end Sys2Proof.Machine
end

section
/-! SUPPORT. The events of links (R305, R306, R309, R314): what each kind of packet does, erased lanes and retired links, and the slots of an optical port. -/

namespace Sys2Proof.Claims

open Sys2Proof.Machine

/-! ### Packets (R305, R314) -/

theorem packetReceive_of_held {s : State} {src seq : Nat} {m : Packet}
    (held : s.net.find? (fun m => m.src == src && m.seq == seq && m.dst == s.here.phys) = some m) (may : s.mayReceive m = true) :
    exec (.packetReceive src seq) s = .next { s with
      here := s.here.receive m
      net := s.net.filter (fun y => !(y.src == src && y.seq == seq && y.dst == s.here.phys)) } := by
  simp only [exec, execPacketReceive, held, may, if_true]

section
variable {p : Package} {m : Packet} {gid gen : Nat} {h : CollHead}

/-- The copy of a pod line that an answer brings changes no access. -/
theorem answered_accs (p : Package) (world src acc v : Nat) (k : Mask) (b : Nat) (line : Option Nat) :
    (p.answered world src acc v k b line).accs = (p.setAcc acc (fun a => { a with op := a.op.answered v k b })).accs := by
  unfold Package.answered
  extract_lets kept
  have same : ((kept.map p.putPod).getD p).accs = p.accs := by
    cases kept with
    | none => rfl
    | some c => exact congrArg Prod.fst (p.putPod_traffic c)
  simp only [Package.setAcc_accs, same]

/-- An answer without a line leaves no copy at the reader. -/
theorem answered_without_line (p : Package) (world src acc v : Nat) (k : Mask) (b : Nat) :
    p.answered world src acc v k b none = p.setAcc acc (fun a => { a with op := a.op.answered v k b }) := by
  unfold Package.answered
  cases p.acc? acc <;> rfl

theorem receive_loadResp {acc v b : Nat} {k : Mask} {line : Option Nat} (hm : m.msg = .loadResp acc v k b line) :
    p.receive m = p.answered m.world m.src acc v k b line := by
  simp only [Package.receive, hm]

theorem receive_header_live {g : Group} (hm : m.msg = .header gid gen h) (live : p.groupFor gid gen = some g) (going : p.collOver g h.seq = false) :
    p.receive m = p.setGroup gid (fun g => { g with heads := g.heads ++ [h] }) := by
  simp only [Package.receive, hm, live, going, Bool.false_eq_true, if_false]

theorem receive_header_stale (hm : m.msg = .header gid gen h) (gone : p.groupFor gid gen = none) : p.receive m = p.countStale := by
  simp only [Package.receive, hm, gone]

theorem countStale_spec (p : Package) : p.countStale.groups = p.groups ∧ ∃ k, (p.countStale.port k).stale = (p.port k).stale + 1 := by
  unfold Package.countStale
  have hp := p.pick_eq 40
  generalize p.pick 40 = x at hp
  obtain ⟨k, q⟩ := x
  subst hp
  refine ⟨rfl, k, ?_⟩
  simp only [Package.port_setPort, Package.port_id]
  rfl

theorem receive_record {r : MergeRec} {acc : Nat} (hm : m.msg = .record r acc) : p.receive m = { p with inbox := p.inbox ++ [m] } := by
  simp only [Package.receive, hm]

end

/-! ### Links (R306) -/

section
variable {s : State} {k : Nat}

theorem laneErasure_first (hk : k < 31) (live : (s.here.port k).retired = false) (first : (s.here.port k).erasures = 0) :
    ∃ q, Answers (.laneErasure k) s q ∧ (q.port k).erasures = 1 ∧ (q.port k).retired = false ∧
      q.sys.ints.length = s.here.sys.ints.length + 1 ∧ q.inbox = s.here.inbox ∧ q.out = s.here.out := by
  refine ⟨(s.here.setPort { s.here.port k with erasures := 0 + 1 }).interrupt .erasure 0 2, ?_, ?_⟩
  · simp [Answers, exec, execLaneErasure, lift, electrical, hk, live, first]
  · simp [Package.port_setPort, live]

/-- LINK_RETIRE waits for a second failed lane. -/
theorem linkRetire_early (first : (s.here.port k).erasures = 0) : Answers (.linkRetire k) s s.here := by
  simp [Answers, exec, execLinkRetire, lift, first]

theorem answers_retireLink (hk : k < 31) (live : (s.here.port k).retired = false) (second : 1 ≤ (s.here.port k).erasures) :
    ∀ x ∈ [Instr.laneErasure k, .linkRetire k], Answers x s (s.here.retireLink k) := by
  intro x hx
  simp only [List.mem_cons, List.not_mem_nil, or_false] at hx
  rcases hx with rfl | rfl
  · simp [Answers, exec, execLaneErasure, lift, electrical, hk, live, second]
  · simp [Answers, exec, execLinkRetire, lift, electrical, hk, live, Nat.ne_of_gt second]

theorem retireLink_spec (p : Package) (k : Nat) : let q := p.retireLink k
    (q.port k).retired = true ∧ (q.port k).erasures = (p.port k).erasures + 1 ∧ (q.port k).queue = (p.port k).queue ∧
      q.sys.ints.length = p.sys.ints.length + 1 ∧ q.inbox = p.inbox ∧ q.out = p.out := by
  intro q
  have port : q.port k = _ := p.port_retireLink k
  rw [port]
  exact ⟨rfl, rfl, rfl, Package.interrupt_ints_length .., rfl, rfl⟩

end

/-! ### Slots (R309) -/

theorem mem_validSlots {e : Slot} {ss : List Slot} : e ∈ validSlots ss ↔ e ∈ ss ∧ e.v = true := by
  rw [validSlots, mem_sortBy_iff, List.mem_filter]

theorem mem_of_nextSlot {ss : List Slot} {k : Nat} {e : Slot} (h : nextSlot ss k = some e) : e ∈ ss ∧ e.v = true :=
  mem_validSlots.mp (List.mem_of_find?_eq_some h)

theorem optical_of_bounds {k : Nat} (lo : 31 ≤ k) (hi : k < 39) : optical k = true := by simp [optical, lo, hi]

theorem bound_between {lo hi v : Nat} (h : lo ≤ hi) : lo ≤ bound lo hi v ∧ bound lo hi v ≤ hi := by
  unfold bound
  split
  · omega
  · split <;> omega

theorem bound_of_between {lo hi v : Nat} (h : lo ≤ v) (h' : v ≤ hi) : bound lo hi v = v := by
  simp [bound, Nat.not_lt.mpr h, Nat.not_lt.mpr h']

/-- After the last slot of a rotation none is next. -/
theorem nextSlot_of_last {x : Port} (last : x.slot = 0 ∨ nextSlot x.slots x.slot = none) :
    (if x.slot = 0 then none else nextSlot x.slots x.slot) = none := by
  rcases last with h | h <;> simp [h]

/-- The written entries take effect at the start of a rotation; without one the table stays. -/
theorem Port.turned_eq (x : Port) : (if x.pending.isEmpty then x else { x with slots := x.pending, pending := [] }) =
    { x with slots := if x.pending = [] then x.slots else x.pending, pending := [] } := by
  obtain ⟨id, erasures, retired, slots, pending, slot, start, queue, used, firmware, stale⟩ := x
  cases pending <;> simp

section
variable {s : State} {k : Nat} (lo : 31 ≤ k) (hi : k < 39) (ended : (s.here.port k).slotOver s.here.now = true)
include lo hi ended

theorem slotStart_next {n : Slot} (inUse : (s.here.port k).slot ≠ 0) (next : nextSlot (s.here.port k).slots (s.here.port k).slot = some n) :
    Answers (.slotStart k) s (s.here.setPort { s.here.port k with slot := n.idx + 1, start := s.here.now, used := [] }) := by
  simp only [Answers, exec, execSlotStart, lift, optical_of_bounds lo hi, ended, Bool.not_true, Bool.or_false, Bool.false_eq_true, if_false, inUse, next]

section
variable {ss : List Slot} (last : (s.here.port k).slot = 0 ∨ nextSlot (s.here.port k).slots (s.here.port k).slot = none)
  (table : ss = (if (s.here.port k).pending = [] then (s.here.port k).slots else (s.here.port k).pending))
include last table

/-- A rotation whose table has no valid slot leaves no slot in use. -/
theorem slotStart_empty (valid : validSlots ss = []) :
    Answers (.slotStart k) s (s.here.setPort { s.here.port k with slots := ss, pending := [], slot := 0 }) := by
  simp only [Answers, exec, execSlotStart, lift, optical_of_bounds lo hi, ended, Bool.not_true, Bool.or_false, Bool.false_eq_true, if_false,
    nextSlot_of_last last, Port.turned_eq, ← table, valid]

/-- A rotation starts with the first valid slot of its table. -/
theorem slotStart_first {n : Slot} {ns : List Slot} (valid : validSlots ss = n :: ns) : Answers (.slotStart k) s
    (s.here.setPort { s.here.port k with slots := ss, pending := [], slot := n.idx + 1, start := s.here.now, used := [] }) := by
  simp only [Answers, exec, execSlotStart, lift, optical_of_bounds lo hi, ended, Bool.not_true, Bool.or_false, Bool.false_eq_true, if_false,
    nextSlot_of_last last, Port.turned_eq, ← table, valid]

end

end

theorem slotTableWrite_spec {s : State} {k i dest guard len : Nat} {v : Bool} (lo : 31 ≤ k) (hi : k < 39) (hidx : i < 64) :
    ∃ q e, Answers (.slotTableWrite k i dest guard len v) s q ∧ e ∈ (q.port k).pending ∧ e.idx = i ∧
      e.dest = dest % 4096 ∧ e.v = v ∧ 100 ≤ e.guard ∧ e.guard ≤ 65535 ∧ (100 ≤ guard → guard ≤ 65535 → e.guard = guard) ∧ 1000 ≤ e.len ∧
      e.len ≤ 16777215 ∧ (1000 ≤ len → len ≤ 16777215 → e.len = len) ∧ (q.port k).slots = (s.here.port k).slots := by
  have inside : (!optical k || decide (64 ≤ i)) = false := by simp [optical_of_bounds lo hi, Nat.not_le.mpr hidx]
  obtain ⟨g₁, g₂⟩ := bound_between (lo := 100) (hi := 65535) (v := guard) (by decide)
  obtain ⟨l₁, l₂⟩ := bound_between (lo := 1000) (hi := 16777215) (v := len) (by decide)
  refine ⟨s.here.setPort _, { port := k, idx := i, dest := dest % 4096, guard := bound 100 65535 guard, len := bound 1000 16777215 len, v },
    by simp only [Answers, exec, execSlotTableWrite, lift, inside, Bool.false_eq_true, if_false]; rfl, ?_⟩
  simp only [Package.port_setPort, Package.port_id, List.mem_append, List.mem_singleton, or_true, true_and, and_true]
  exact ⟨g₁, g₂, bound_of_between, l₁, l₂, bound_of_between⟩

/-- Settles O47: each kind of packet, lane, link and slot by its own lemma. -/
theorem linksCarryPackets : Obligations.LinksCarryPackets := by
  refine ⟨fun _ _ _ _ => packetReceive_of_held, fun p m acc v k b line hm => ?_, fun p m gid gen h hm => ?_, fun _ _ _ _ => receive_record,
    fun s k hk live => ⟨laneErasure_first hk live, linkRetire_early, fun second x hx => ?_⟩,
    fun s k lo hi ended => ⟨fun n inUse next => ?_, fun last ss table => ?_⟩,
    fun _ _ _ _ _ _ _ => slotTableWrite_spec⟩
  · rw [receive_loadResp hm]
    exact ⟨answered_accs .., fun bare => bare ▸ answered_without_line ..⟩
  · exact ⟨fun _ => receive_header_live hm, fun gone => receive_header_stale hm gone ▸ countStale_spec p⟩
  · exact ⟨_, answers_retireLink hk live second x hx, retireLink_spec s.here k⟩
  · exact ⟨_, slotStart_next lo hi ended inUse next, Package.port_setPort _ (Package.port_id _ _), mem_of_nextSlot next⟩
  · refine ⟨fun empty => ?_, fun n ns valid => ?_⟩
    · exact ⟨_, slotStart_empty lo hi ended last table empty, Package.port_setPort _ (Package.port_id _ _)⟩
    · exact ⟨_, slotStart_first lo hi ended last table valid, Package.port_setPort _ (Package.port_id _ _),
        mem_validSlots.mp (valid ▸ List.mem_cons_self)⟩

end Sys2Proof.Claims
end

section
/-! SUPPORT. What the operations of the fabric's commands answer (R311 to R314): entries of a journal, packets and writes that a run over a list adds,
the tables of peers that a circuit change quiesces and installs, and the group table. -/

namespace Sys2Proof.Machine

/-- A fold of which each step keeps what a part holds and adds to it what it owes its element leaves what it owes every element. -/
theorem exists_of_foldl {α β γ : Type} (part : α → List γ) {P : β → γ → Prop} {f : α → β → α} (keeps : ∀ a b, part a ⊆ part (f a b))
    (adds : ∀ a b, ∃ y ∈ part (f a b), P b y) (l : List β) (a : α) : ∀ b ∈ l, ∃ y ∈ part (l.foldl f a), P b y := by
  have keepsAll : ∀ (l : List β) a, part a ⊆ part (l.foldl f a) := by
    intro l
    induction l with
    | nil => exact fun a => List.Subset.refl _
    | cons b l ih => exact fun a => List.Subset.trans (keeps a b) (ih (f a b))
  induction l generalizing a with
  | nil => simp
  | cons c l ih =>
    intro b hb
    rcases List.mem_cons.mp hb with rfl | hb
    · obtain ⟨y, hy, hP⟩ := adds a b
      exact ⟨y, keepsAll l (f a b) hy, hP⟩
    · exact ih (f a c) b hb

/-! ### Journals (R328) -/

section
variable (p : Package) (queue detail kind world state : Nat)

@[simp] theorem Package.commandAdd_port (k : Nat) : (p.commandAdd queue detail kind world state).2.port k = p.port k := rfl

theorem Package.exists_commandAdd : ∃ e ∈ (p.commandAdd queue detail kind world state).2.journal, e.queue = queue ∧ e.detail = detail :=
  ⟨_, List.mem_append_right _ List.mem_cons_self, rfl, rfl⟩

end

/-! ### Packets to each of some packages (R305) -/

section
variable (p : Package) (world : Nat) (msg : Nat → Msg) (ks : List Nat)

theorem Package.exists_sendEach : ∀ k ∈ ks, ∃ m ∈ (ks.foldl (fun p k => p.send k world (msg k)) p).out, m.dst = k ∧ m.msg = msg k :=
  exists_of_foldl Package.out (fun _ _ => List.subset_append_left _ _) (fun _ _ => ⟨_, List.mem_append_right _ List.mem_cons_self, rfl, rfl⟩) ks p

@[simp] theorem Package.sendEach_worlds : (ks.foldl (fun p k => p.send k world (msg k)) p).worlds = p.worlds :=
  foldl_part Package.worlds (f := fun p k => p.send k world (msg k)) (fun _ _ => rfl) ks p

@[simp] theorem Package.sendEach_circuit : (ks.foldl (fun p k => p.send k world (msg k)) p).circuit = p.circuit :=
  foldl_part Package.circuit (f := fun p k => p.send k world (msg k)) (fun _ _ => rfl) ks p

@[simp] theorem Package.sendEach_groups : (ks.foldl (fun p k => p.send k world (msg k)) p).groups = p.groups :=
  foldl_part Package.groups (f := fun p k => p.send k world (msg k)) (fun _ _ => rfl) ks p

end

/-! ### Peers of a circuit change (R311) -/

/-- A peer as a circuit change leaves it: quiescing, where it was reachable and its package is one of those concerned. -/
def Peer.hushed (ks : List Nat) (q : Peer) : Peer := if ks.contains q.phys && q.state == .reachable then { q with state := .quiescing } else q

/-- A world as a circuit change leaves it, for the packages concerned and the entries of the command. -/
def World.hushed (ks : List Nat) (entries : List (Nat × Nat × Nat)) (x : World) : World :=
  entries.foldl World.quiesceFor { x with peers := x.peers.map (Peer.hushed ks) }

/-- The peers that a command's pairs of packages name for one of them. -/
def namedPeers (phys : Nat) (pairs : List (Nat × Nat)) : List Nat :=
  pairs.filterMap (fun c => if c.1 == phys then some c.2 else if c.2 == phys then some c.1 else none)

/-- The entries of a command's tables for one package. -/
def entriesFor (phys : Nat) (tables : List (Nat × Nat × Nat × Nat)) : List (Nat × Nat × Nat) := (tables.filter (fun e => e.1 == phys)).map (·.2)

/-- The packages that a circuit change concerns on one package. -/
def Package.concerned (p : Package) (pairs : List (Nat × Nat)) (tables : List (Nat × Nat × Nat × Nat)) : List Nat :=
  p.drained (namedPeers p.phys pairs) (entriesFor p.phys tables)

section
variable (p : Package) (pairs : List (Nat × Nat)) (tables : List (Nat × Nat × Nat × Nat)) (journal : Nat)

theorem Package.startCircuit_circuit : (p.startCircuit pairs tables journal).circuit =
    some { journal, peers := p.concerned pairs tables, tables := entriesFor p.phys tables, dark := false } :=
  Package.sendEach_circuit ..

theorem Package.startCircuit_worlds :
    (p.startCircuit pairs tables journal).worlds = p.worlds.map (World.hushed (p.concerned pairs tables) (entriesFor p.phys tables)) :=
  Package.sendEach_worlds ..

theorem Package.exists_startCircuit_marker : ∀ k ∈ p.concerned pairs tables,
    ∃ m ∈ (p.startCircuit pairs tables journal).out, m.dst = k ∧ m.msg = .peerDrain k :=
  Package.exists_sendEach _ 0 .peerDrain _

end

theorem mem_namedPeers {phys k : Nat} {pairs : List (Nat × Nat)} (h : k ≠ phys) :
    k ∈ namedPeers phys pairs ↔ (phys, k) ∈ pairs ∨ (k, phys) ∈ pairs := by
  simp only [namedPeers, List.mem_filterMap, Prod.exists]
  constructor
  · rintro ⟨a, b, hc, hk⟩
    by_cases ha : a = phys
    · simp only [ha, beq_self_eq_true, if_true, Option.some.injEq] at hk
      exact .inl (ha ▸ hk ▸ hc)
    · by_cases hb : b = phys
      · simp only [beq_eq_false_iff_ne.mpr ha, hb, beq_self_eq_true, Bool.false_eq_true, if_true, if_false, Option.some.injEq] at hk
        exact .inr (hb ▸ hk ▸ hc)
      · simp [ha, hb] at hk
  · rintro (hc | hc)
    · exact ⟨_, _, hc, by simp⟩
    · exact ⟨_, _, hc, by simp [h]⟩

theorem Package.mem_drained {p : Package} {named : List Nat} {entries : List (Nat × Nat × Nat)} {k : Nat} :
    k ∈ p.drained named entries ↔ k ≠ p.phys ∧ (k ∈ named ∨ ∃ e ∈ entries, ∃ x y, p.world? e.1 = some x ∧
      x.peers.find? (fun y => y.logical == e.2.1) = some y ∧ y.phys = k ∧ y.state ≠ .absent ∧ e.2.2 ≠ k + 1) := by
  rw [Package.drained, List.mem_eraseDups, List.mem_filter, and_comm, bne_iff_ne, List.mem_append, List.mem_filterMap]
  simp only [Option.bind_eq_some_iff, Option.ite_none_left_eq_some, Option.some.injEq, Bool.or_eq_true, beq_iff_eq, decide_eq_true_eq, not_or]
  refine and_congr_right fun _ => or_congr_right ⟨?_, ?_⟩
  · rintro ⟨e, he, y, ⟨x, hx, hy⟩, ⟨hs, hn⟩, rfl⟩
    exact ⟨e, he, x, y, hx, hy, rfl, hs, hn⟩
  · rintro ⟨e, he, x, y, hx, hy, rfl, hs, hn⟩
    exact ⟨e, he, y, ⟨x, hx, hy⟩, ⟨hs, hn⟩, rfl⟩

theorem World.mem_quiesce {x : World} {logical phys : Nat} {y : Peer} (h : y ∈ (x.quiesce logical phys).peers) :
    y ∈ x.peers ∨ y.state = .quiescing := by
  rcases List.mem_append.mp (mem_sortBy_iff.mp h) with h | h
  · exact .inl (List.mem_filter.mp h).1
  · exact .inr (by rw [List.mem_singleton.mp h])

theorem World.exists_quiesce (x : World) (logical phys : Nat) : ∃ y ∈ (x.quiesce logical phys).peers, y.logical = logical ∧ y.state = .quiescing :=
  ⟨{ logical, phys, state := .quiescing }, mem_sortBy_iff.mpr (List.mem_append_right _ List.mem_cons_self), rfl, rfl⟩

/-- An entry leaves a world's peers as they are or quiesces one. -/
theorem World.quiesceFor_cases (x : World) (e : Nat × Nat × Nat) : x.quiesceFor e = x ∨ ∃ phys, x.quiesceFor e = x.quiesce e.2.1 phys := by
  unfold World.quiesceFor
  split
  · exact .inl rfl
  · cases x.peers.find? (fun q => q.logical == e.2.1) with
    | none =>
      dsimp only
      split
      · exact .inl rfl
      · exact .inr ⟨_, rfl⟩
    | some q =>
      dsimp only
      generalize (if e.2.2 = 0 then q.state == .absent else q.state != .absent && q.phys == e.2.2 - 1) = same
      cases same
      · exact .inr ⟨q.phys, rfl⟩
      · exact .inl rfl

theorem World.quiesceFor_id (x : World) (e : Nat × Nat × Nat) : (x.quiesceFor e).id = x.id := by
  rcases x.quiesceFor_cases e with h | ⟨_, h⟩ <;> rw [h]
  rfl

theorem World.mem_quiesceFor {x : World} {e : Nat × Nat × Nat} {y : Peer} (h : y ∈ (x.quiesceFor e).peers) :
    y ∈ x.peers ∨ y.state = .quiescing := by
  rcases x.quiesceFor_cases e with he | ⟨_, he⟩ <;> rw [he] at h
  · exact .inl h
  · exact World.mem_quiesce h

/-- Whether an entry (logical number, and the package plus 1 or 0 for none) changes what a world reaches under the number (R311). -/
def changesReach (peers : List Peer) (logical n : Nat) : Prop :=
  match peers.find? (fun y => y.logical == logical) with
  | none => n ≠ 0
  | some y => n = 0 ∧ y.state ≠ .absent ∨ n ≠ 0 ∧ (y.state = .absent ∨ y.phys + 1 ≠ n)

theorem World.quiesceFor_of_changes {x : World} {logical n : Nat} (h : changesReach x.peers logical n) :
    ∃ phys, x.quiesceFor (x.id, logical, n) = x.quiesce logical phys := by
  unfold changesReach at h
  unfold World.quiesceFor
  cases hf : x.peers.find? (fun q => q.logical == logical) with
  | none =>
    rw [hf] at h
    exact ⟨n - 1, by simp [show n ≠ 0 from h]⟩
  | some q =>
    rw [hf] at h
    refine ⟨q.phys, ?_⟩
    rcases h with ⟨hn, hq⟩ | ⟨hn, hq⟩
    · simp [hn, hq]
    · have differs : (q.state != .absent && q.phys == n - 1) = false := by
        rcases hq with hq | hq
        · simp [hq]
        · simp [show q.phys ≠ n - 1 by omega]
      simp only [bne_self_eq_false, Bool.false_eq_true, if_false, hn, differs]

theorem Peer.hushed_logical (ks : List Nat) (q : Peer) : (q.hushed ks).logical = q.logical := by unfold Peer.hushed; split <;> rfl
theorem Peer.hushed_phys (ks : List Nat) (q : Peer) : (q.hushed ks).phys = q.phys := by unfold Peer.hushed; split <;> rfl

theorem Peer.hushed_absent (ks : List Nat) (q : Peer) : (q.hushed ks).state = .absent ↔ q.state = .absent := by
  unfold Peer.hushed
  split
  · rename_i h
    simp [(Bool.and_eq_true_iff.mp h).2 |> beq_iff_eq.mp]
  · rfl

theorem Peer.hushed_not_reachable {ks : List Nat} {q : Peer} (h : (q.hushed ks).phys ∈ ks) : (q.hushed ks).state ≠ .reachable := by
  rw [Peer.hushed_phys] at h
  unfold Peer.hushed
  cases hs : q.state <;> simp [h, hs]

/-- Quiescing the peers concerned does not change what an entry finds. -/
theorem changesReach_hushed {ks : List Nat} {peers : List Peer} {logical n : Nat} :
    changesReach (peers.map (Peer.hushed ks)) logical n ↔ changesReach peers logical n := by
  have key : ((fun y : Peer => y.logical == logical) ∘ Peer.hushed ks) = fun y => y.logical == logical := by
    funext y
    simp [Peer.hushed_logical]
  unfold changesReach
  rw [List.find?_map, key]
  cases peers.find? (fun y => y.logical == logical) <;> simp [Peer.hushed_absent, Peer.hushed_phys]

@[simp] theorem World.hushed_id (ks : List Nat) (entries : List (Nat × Nat × Nat)) (x : World) : (x.hushed ks entries).id = x.id :=
  foldl_part World.id World.quiesceFor_id entries _

theorem World.hushed_not_reachable {ks : List Nat} {entries : List (Nat × Nat × Nat)} {x : World} {y : Peer}
    (hy : y ∈ (x.hushed ks entries).peers) (hk : y.phys ∈ ks) : y.state ≠ .reachable := by
  have origin : ∀ (es : List (Nat × Nat × Nat)) (x : World), y ∈ (es.foldl World.quiesceFor x).peers → y ∈ x.peers ∨ y.state = .quiescing := by
    intro es
    induction es with
    | nil => exact fun x h => .inl h
    | cons e es ih => exact fun x h => (ih _ h).elim World.mem_quiesceFor .inr
  rcases origin entries _ hy with h | h
  · obtain ⟨q, -, rfl⟩ := List.mem_map.mp h
    exact Peer.hushed_not_reachable hk
  · simp [h]

/-- The only entry of a package's tables quiesces the peer whose reachability it changes. -/
theorem World.exists_hushed_quiescing {ks : List Nat} {x : World} {logical n : Nat} (h : changesReach x.peers logical n) :
    ∃ y ∈ (x.hushed ks [(x.id, logical, n)]).peers, y.logical = logical ∧ y.state = .quiescing := by
  obtain ⟨phys, hq⟩ := World.quiesceFor_of_changes (x := { x with peers := x.peers.map (Peer.hushed ks) }) (changesReach_hushed.mpr h)
  rw [World.hushed, List.foldl_cons, List.foldl_nil, hq]
  exact World.exists_quiesce ..

/-- A change of the worlds of a package that keeps their numbers is seen by the search for one. -/
theorem Package.world?_of_map {p q : Package} {f : World → World} (id : ∀ x, (f x).id = x.id) (h : q.worlds = p.worlds.map f) (w : Nat) :
    q.world? w = (p.world? w).map f := by
  have key : ((fun x : World => x.id == w) ∘ f) = fun x => x.id == w := by
    funext x
    simp [id]
  rw [Package.world?, h, List.find?_map, key]
  rfl

theorem Package.id_of_world? {p : Package} {w : Nat} {x : World} (h : p.world? w = some x) : x.id = w := by
  simpa using List.find?_some h

/-! ### Tables of a circuit change (R311) -/

/-- A peer as RELOCK finds it: reachable again, where it was quiescing. -/
def Peer.reopened (q : Peer) : Peer := if q.state == .quiescing then { q with state := .reachable } else q

/-- A world as RELOCK leaves it, for the entries of the command. -/
def World.reopened (entries : List (Nat × Nat × Nat)) (x : World) : World :=
  entries.foldl World.installPeer { x with peers := x.peers.map Peer.reopened }

theorem World.installPeer_id (x : World) (e : Nat × Nat × Nat) : (x.installPeer e).id = x.id := by
  unfold World.installPeer
  split <;> rfl

@[simp] theorem World.reopened_id (entries : List (Nat × Nat × Nat)) (x : World) : (x.reopened entries).id = x.id :=
  foldl_part World.id World.installPeer_id entries _

theorem World.exists_installPeer (x : World) (logical n : Nat) : ∃ y ∈ (x.installPeer (x.id, logical, n)).peers, y.logical = logical ∧
    (n = 0 → y.state = .absent) ∧ (n ≠ 0 → y.phys + 1 = n ∧ y.state = .reachable) := by
  simp only [World.installPeer, bne_self_eq_false, Bool.false_eq_true, if_false]
  refine ⟨_, mem_sortBy_iff.mpr (List.mem_append_right _ List.mem_cons_self), rfl, fun h => by simp [h], fun h => by simp [h]; omega⟩

section
variable {p : Package} {c : Circuit}

theorem Package.relock_of_light (light : ∀ c, p.circuit = some c → c.dark = false) : p.relock = p := by
  unfold Package.relock
  cases hc : p.circuit with
  | none => rfl
  | some c => simp [light c hc]

variable (hc : p.circuit = some c) (dark : c.dark = true)
include hc dark

theorem Package.relock_of_dark : p.relock =
    (({ p with circuit := none, worlds := p.worlds.map (World.reopened c.tables) }).journalSet systemQueue c.journal 2 0).wake
      (fun st => st == Stall.peer) := by
  unfold Package.relock
  simp only [hc, dark, Bool.not_true, Bool.false_eq_true, if_false]
  rfl

theorem Package.world?_relock (w : Nat) : p.relock.world? w = (p.world? w).map (World.reopened c.tables) := by
  rw [p.relock_of_dark hc dark]
  exact Package.world?_of_map (World.reopened_id _) rfl w

end

/-! ### Tugs (R312) -/

/-- Which collectives are on a tug is open, and asking changes nothing else. -/
theorem Package.onTug_eq (p : Package) (cs : List (Nat × Nat)) : ∃ picks, (p.onTug cs).2 = { p with picks } := by
  induction cs generalizing p with
  | nil => exact ⟨p.picks, rfl⟩
  | cons c cs ih =>
    obtain ⟨picks, h⟩ := ih (p.pick 2).2
    refine ⟨picks, ?_⟩
    rw [p.pick_eq] at h
    simp only [Package.onTug]
    split <;> simp [h, p.pick_eq]

/-! ### Groups (R313, R314) -/

@[simp] theorem Package.groupOr_id (p : Package) (i : Nat) : (p.groupOr i).id = i := by
  unfold Package.groupOr
  cases h : p.groups.find? (fun g => g.id == i) with
  | none => rfl
  | some g => simpa using List.find?_some h

theorem Package.mem_putGroup (p : Package) (g : Group) : g ∈ (p.putGroup g).groups := mem_insertBy_iff.mpr (.inl rfl)

theorem Package.exists_startDrain_group (p : Package) (i : Nat) :
    ∃ g ∈ (p.startDrain i).groups, g.id = i ∧ g.acks = p.phys :: p.otherMembers (p.groupOr i) := by
  refine ⟨{ p.groupOr i with acks := p.phys :: p.otherMembers (p.groupOr i), state := if (p.groupOr i).state = 1 then 2 else (p.groupOr i).state },
    ?_, p.groupOr_id i, rfl⟩
  rw [Package.startDrain, Package.sendEach_groups]
  exact p.mem_putGroup _

theorem Package.exists_startDrain_marker (p : Package) (i : Nat) :
    ∀ k ∈ p.otherMembers (p.groupOr i), ∃ m ∈ (p.startDrain i).out, m.dst = k ∧ m.msg = .drain i :=
  Package.exists_sendEach _ (p.groupOr i).world (fun _ => .drain i) _

theorem Package.exists_endDrain_group (p : Package) (i : Nat) :
    ∃ g ∈ (p.endDrain i).groups, g.id = i ∧ g.acks = [] ∧ g.used = (p.groupOr i).used &&& 2 ^ (p.groupOr i).gen :=
  ⟨_, p.mem_putGroup _, p.groupOr_id i, rfl, rfl⟩

/-! ### Writes of the system cores (R479) -/

theorem Package.noteWct_writes (p : Package) (x : Write) (wct : Nat) : (p.noteWct x wct).writes = p.writes :=
  congrArg Prod.snd (p.noteWct_traffic x wct)

/-- A placement of bytes alone writes each line that it touches once, with a WCT. -/
theorem Package.exists_systemWrite (p : Package) {m : Placement} (h : m.labels = []) : ∃ wct q, p.systemWrite m = some (wct, q) ∧
    ∀ c ∈ m.bytes, ∃ y ∈ q.writes, y.kind = .engine ∧ y.wct.isSome = true ∧ y.cells = m.bytes.filter (fun d => lineOf d.1 == lineOf c.1) := by
  refine ⟨_, _, by simp only [Package.systemWrite, h, Package.systemLabels, Option.map_some]; rfl, fun c hc => ?_⟩
  refine exists_of_foldl (fun acc : Nat × Package => acc.2.writes)
    (P := fun line y => y.kind = .engine ∧ y.wct.isSome = true ∧ y.cells = m.bytes.filter (fun d => lineOf d.1 == line)) ?_ ?_ _ _ (lineOf c.1) ?_
  · intro acc line
    simp only [Package.noteWct_writes]
    exact List.subset_append_left _ _
  · intro acc line
    simp only [Package.noteWct_writes]
    exact ⟨_, List.mem_append_right _ List.mem_cons_self, rfl, rfl, rfl⟩
  · exact List.mem_eraseDups.mpr (List.mem_append_left _ (List.mem_map_of_mem hc))

theorem le_of_mem_cellsOf {pa n v : Nat} {c : Host.Cell} (h : c ∈ cellsOf pa n v) : pa ≤ c.1 ∧ c.1 < pa + n := by
  obtain ⟨d, hd, rfl⟩ := List.mem_map.mp h
  have := List.mem_range.mp (List.of_mem_zip hd).1
  dsimp only
  omega

theorem mem_memberList {mlist j m : Nat} {ms : List Nat} {c : Host.Cell} (hm : ms[j]? = some m) (hc : c ∈ cellsOf (mlist + 2 * j) 2 m) :
    c ∈ (memberList mlist ms).bytes := by
  obtain ⟨hj, rfl⟩ := List.getElem?_eq_some_iff.mp hm
  refine List.mem_flatMap.mpr ⟨(j, ms[j]), ?_, hc⟩
  exact List.mem_iff_getElem.mpr ⟨j, by simpa using hj, by simp⟩

/-- The two bytes of a member stand in one line, and one write carries both. -/
theorem Package.exists_memberWrite (p : Package) {mlist : Nat} {ms : List Nat} (aligned : mlist % 64 = 0) :
    ∃ wct q, p.systemWrite (memberList mlist ms) = some (wct, q) ∧ ∀ j m, ms[j]? = some m →
      ∃ y ∈ q.writes, y.kind = .engine ∧ y.wct.isSome = true ∧ ∀ c ∈ cellsOf (mlist + 2 * j) 2 m, c ∈ y.cells := by
  obtain ⟨wct, q, hq, written⟩ := p.exists_systemWrite (m := memberList mlist ms) rfl
  refine ⟨wct, q, hq, fun j m hm => ?_⟩
  have first : (mlist + 2 * j, BitVec.ofNat 8 m) ∈ cellsOf (mlist + 2 * j) 2 m := by simp [cellsOf, List.range_succ, toBytes]
  obtain ⟨y, hy, kind, stamped, cells⟩ := written _ (mem_memberList hm first)
  refine ⟨y, hy, kind, stamped, fun c hc => ?_⟩
  rw [cells, List.mem_filter]
  refine ⟨mem_memberList hm hc, ?_⟩
  have := le_of_mem_cellsOf hc
  simp only [lineOf, beq_iff_eq]
  omega

end Sys2Proof.Machine
end

section
/-! SUPPORT. The commands of the fabric (R311 to R314): the change of circuits, the tugs, and the group table with its drain rounds. -/

namespace Sys2Proof.Claims

open Sys2Proof.Machine

/-! ### Circuits (R311) -/

theorem quiescedBy_startCircuit (p : Package) (pairs : List (Nat × Nat)) (tables : List (Nat × Nat × Nat × Nat)) (journal : Nat) :
    QuiescedBy pairs tables p (p.startCircuit pairs tables journal) := by
  refine ⟨_, p.startCircuit_circuit pairs tables journal, rfl, rfl, fun k => ?_, fun x hx y hy hk => ?_, p.exists_startCircuit_marker pairs tables journal,
    fun w l n x entries hx changes => ?_⟩
  · rw [Package.concerned, Package.mem_drained]
    refine and_congr_right fun hk => ?_
    rw [mem_namedPeers hk, or_assoc]
  · rw [Package.startCircuit_worlds] at hx
    obtain ⟨x₀, -, rfl⟩ := List.mem_map.mp hx
    exact World.hushed_not_reachable hy hk
  · obtain rfl := Package.id_of_world? hx
    refine ⟨_, by rw [Package.world?_of_map (World.hushed_id _ _) (p.startCircuit_worlds pairs tables journal), hx]; rfl, ?_⟩
    rw [show entriesFor p.phys tables = [(x.id, l, n)] from entries]
    exact World.exists_hushed_quiescing changes

theorem circuitChange_completes {s : State} {pairs : List (Nat × Nat)} {tables : List (Nat × Nat × Nat × Nat)}
    (idle : ∀ q ∈ s.here :: s.others, q.circuit = none) (room : s.here.journalRoom systemQueue = true) :
    ∃ t, exec (.circuitChange pairs tables) s = .next t ∧ t = { s with here := t.here, others := t.others } ∧
      QuiescedBy pairs tables s.here t.here ∧ t.others.length = s.others.length ∧
      ∀ (k : Nat) p, s.others[k]? = some p → ∃ q, t.others[k]? = some q ∧ QuiescedBy pairs tables p q := by
  have free : ((s.here :: s.others).any (fun q => q.circuit.isSome) || !s.here.journalRoom systemQueue) = false := by
    rw [room, Bool.not_true, Bool.or_false, List.any_eq_false]
    intro q hq
    simp [idle q hq]
  refine ⟨_, by simp only [exec, execCircuitChange, free, Bool.false_eq_true, if_false]; rfl, rfl, ?_, List.length_map _, fun k p hp => ?_⟩
  · exact quiescedBy_startCircuit (s.here.commandAdd systemQueue 0 5 0 1).2 pairs tables _
  · exact ⟨_, by rw [List.getElem?_map, hp]; rfl, quiescedBy_startCircuit p pairs tables 0⟩

theorem drainMarkerAck_done {s : State} (h : ∀ q ∈ s.here :: s.others, ∀ c, q.circuit = some c → c.peers = []) :
    exec .drainMarkerAck s = .next { s with here := darkened s.here, others := s.others.map darkened } := by
  have acked : (s.here :: s.others).all (fun q => q.circuit.all (fun c => c.peers.isEmpty)) = true := by
    simpa [Option.all_eq_true, -List.all_cons, List.all_eq_true] using h
  simp only [exec, execDrainMarkerAck, acked, if_true]
  rfl

theorem drainMarkerAck_waits {s : State} (h : ∃ q ∈ s.here :: s.others, ∃ c, q.circuit = some c ∧ c.peers ≠ []) :
    exec .drainMarkerAck s = .next s := by
  obtain ⟨q, hq, c, hc, hp⟩ := h
  have acked : (s.here :: s.others).all (fun q => q.circuit.all (fun c => c.peers.isEmpty)) = false :=
    List.all_eq_false.mpr ⟨q, hq, by simp [hc, hp]⟩
  simp only [exec, execDrainMarkerAck, acked, Bool.false_eq_true, if_false]

theorem relock_installs {p : Package} {c : Circuit} (hc : p.circuit = some c) (dark : c.dark = true) : p.relock.circuit = none ∧ sameStore p p.relock ∧
    ∀ w l n x, p.relock.world? w = some x →
      (c.tables = [(w, l, n + 1)] → ∃ y ∈ x.peers, y.logical = l ∧ y.phys = n ∧ y.state = .reachable) ∧
      (c.tables = [(w, l, 0)] → ∃ y ∈ x.peers, y.logical = l ∧ y.state = .absent) := by
  refine ⟨by rw [p.relock_of_dark hc dark]; rfl, by rw [p.relock_of_dark hc dark]; exact ⟨rfl, rfl, rfl⟩, fun w l n x hx => ?_⟩
  rw [Package.world?_relock hc dark, Option.map_eq_some_iff] at hx
  obtain ⟨x₀, hx₀, rfl⟩ := hx
  obtain rfl := Package.id_of_world? hx₀
  have installed := fun n => World.exists_installPeer { x₀ with peers := x₀.peers.map Peer.reopened } l n
  constructor
  · intro entries
    obtain ⟨y, hy, hl, -, hn⟩ := installed (n + 1)
    obtain ⟨hp, hs⟩ := hn (Nat.succ_ne_zero n)
    exact ⟨y, entries ▸ hy, hl, Nat.succ.inj hp, hs⟩
  · intro entries
    obtain ⟨y, hy, hl, hs, -⟩ := installed 0
    exact ⟨y, entries ▸ hy, hl, hs rfl⟩

/-! ### Tugs (R312) -/

theorem tugFirmwareDownload_signed {s : State} {k v : Nat} (hk : k < 40) (room : s.here.journalRoom systemQueue = true)
    (idle : s.here.collsInFlight = []) : ∃ q, Answers (.tugFirmwareDownload k v true true) s q ∧ (q.port k).firmware = v := by
  refine ⟨((s.here.setPort { s.here.port k with firmware := v }).commandAdd systemQueue 0 6 0 2).2, ?_, ?_⟩
  · simp [Answers, exec, execTugFirmwareDownload, lift, Nat.not_le.mpr hk, room, idle, Package.onTug]
  · simp [Package.port_setPort]

theorem tugFirmwareDownload_unsigned {s : State} {k v : Nat} {ed ml : Bool} (hk : k < 40) (room : s.here.journalRoom systemQueue = true)
    (unsigned : (ed && ml) = false) : ∃ q, Answers (.tugFirmwareDownload k v ed ml) s q ∧ q.ports = s.here.ports ∧
      ∃ e ∈ q.journal, e.queue = systemQueue ∧ e.detail = 11 := by
  refine ⟨(s.here.commandAdd systemQueue 11 6 0 4).2, ?_, rfl, Package.exists_commandAdd ..⟩
  simp only [Answers, exec, execTugFirmwareDownload, lift, Nat.not_le.mpr hk, room, unsigned, Bool.not_true, Bool.not_false, Bool.or_false,
    decide_false, Bool.false_eq_true, if_false, if_true]

/-- A job that a fault ends is done and has a status. -/
theorem finish_spec (j : Job) : (j.finish stFault).done = true ∧ (j.finish stFault).status ≠ 0 := by
  refine ⟨rfl, ?_⟩
  simp only [Job.finish, stFault]
  split <;> simp_all

theorem tugFault_reports {s : State} {k : Nat} (hk : k < 40) : ∃ q, Answers (.tugFault k) s q ∧ q.sys.ints.length = s.here.sys.ints.length + 1 ∧
    sameStore s.here q ∧ q.jobs.length = s.here.jobs.length ∧ ∀ j ∈ q.jobs, j ∈ s.here.jobs ∨ j.done = true ∧ j.status ≠ 0 := by
  obtain ⟨picks, hp⟩ := s.here.onTug_eq s.here.collsInFlight
  refine ⟨_, by simp only [Answers, exec, execTugFault, lift, Nat.not_le.mpr hk, if_false]; rfl, ?_⟩
  rw [hp]
  refine ⟨Package.interrupt_ints_length .., ⟨rfl, rfl, rfl⟩, List.length_map _, fun j hj => ?_⟩
  obtain ⟨j₀, h₀, rfl⟩ := List.mem_map.mp hj
  split
  · exact .inr (finish_spec j₀)
  · exact .inl h₀

/-! ### The group table (R313, R314) -/

section
variable {s : State} {i gen rank world mlist : Nat} {ms : List Nat} (fits : groupFits i gen rank world mlist ms = true)
  (room : s.here.journalRoom systemQueue = true) (place : s.here.mayPlace 0 (memberList mlist ms) = true)
include fits room place

theorem groupTableChange_live (named : ms ≠ []) (unused : (s.here.groupOr i).used.testBit gen = false) :
    ∃ q, Answers (.groupTableChange i gen rank world (mlist, ms)) s q ∧
      (∃ g ∈ q.groups, g.id = i ∧ g.state = 1 ∧ g.gen = gen ∧ g.seq = 0 ∧ g.rank = rank ∧ g.world = world ∧ g.members = ms ∧ g.mlist = mlist ∧
        g.used = (s.here.groupOr i).used ||| 2 ^ gen) ∧
      ∀ j m, ms[j]? = some m → ∃ y ∈ q.writes, y.kind = .engine ∧ y.wct.isSome = true ∧ ∀ c ∈ cellsOf (mlist + 2 * j) 2 m, c ∈ y.cells := by
  have aligned : mlist % 64 = 0 := by
    simp only [groupFits, Bool.and_eq_true, decide_eq_true_eq] at fits
    omega
  obtain ⟨wct, p, hp, written⟩ := s.here.exists_memberWrite (ms := ms) aligned
  refine ⟨_, by simp only [Answers, exec, execGroupTableChange, lift, fits, room, place, List.isEmpty_eq_false_iff.mpr named, unused, hp, Bool.not_true,
    Bool.or_false, Bool.false_eq_true, if_false, Option.map_some, Option.getD_some]; rfl, ?_, ?_⟩
  · exact ⟨_, Package.mem_putGroup _ _, rfl, rfl, rfl, rfl, rfl, rfl, rfl, rfl, rfl⟩
  · exact written

theorem groupTableChange_used (named : ms ≠ []) (used : (s.here.groupOr i).used.testBit gen = true) :
    ∃ q, Answers (.groupTableChange i gen rank world (mlist, ms)) s q ∧ q.groups = s.here.groups ∧ q.writes = s.here.writes ∧
      ∃ e ∈ q.journal, e.queue = systemQueue ∧ e.detail = 14 := by
  refine ⟨(s.here.commandAdd systemQueue 14 9 0 4).2, ?_, rfl, rfl, Package.exists_commandAdd ..⟩
  simp only [Answers, exec, execGroupTableChange, lift, fits, room, place, List.isEmpty_eq_false_iff.mpr named, used, Bool.not_true,
    Bool.or_false, Bool.false_eq_true, if_false, if_true]

end

theorem groupTableChange_free {s : State} {i gen rank world mlist : Nat} (fits : groupFits i gen rank world mlist [] = true)
    (room : s.here.journalRoom systemQueue = true) : ∃ q, Answers (.groupTableChange i gen rank world (mlist, [])) s q ∧
      ∃ g ∈ q.groups, g.id = i ∧ g.state = 0 ∧ g.used = (s.here.groupOr i).used := by
  have place : s.here.mayPlace 0 (memberList mlist []) = true := rfl
  refine ⟨_, by simp only [Answers, exec, execGroupTableChange, lift, fits, room, place, List.isEmpty_nil, Bool.not_true,
    Bool.or_false, Bool.false_eq_true, if_false, if_true]; rfl, ?_⟩
  exact ⟨_, Package.mem_putGroup _ _, s.here.groupOr_id i, rfl, rfl⟩

/-! ### Drain rounds (R314) -/

theorem map_members (f : Package → Package) (ks : List Nat) (ps : List Package) :
    mapIf (fun q => ks.contains q.phys) f ps = ps.map (fun q => if q.phys ∈ ks then f q else q) := by
  simp [mapIf]

section
variable {s : State} {i : Nat} {ks : List Nat} (hks : s.here.otherMembers (s.here.groupOr i) = ks)
include hks

theorem drainRound_starts (idle : (s.here.groupOr i).acks = []) (used : (s.here.groupOr i).used ≠ 0) : exec (.drainRound i) s = .next { s with
    here := s.here.startDrain i, others := s.others.map (fun q => if q.phys ∈ ks then q.startDrain i else q) } := by
  simp only [exec, execDrainRound, hks, idle, List.isEmpty_nil, if_true, used, if_false, map_members]

theorem drainRound_ends (here : (s.here.groupOr i).acks = [s.here.phys]) (others : ∀ q ∈ s.others, q.phys ∈ ks → (q.groupOr i).acks = [q.phys]) :
    exec (.drainRound i) s = .next { s with
      here := s.here.endDrain i, others := s.others.map (fun q => if q.phys ∈ ks then q.endDrain i else q) } := by
  have acked : (s.others.filter (fun q => ks.contains q.phys)).all (fun q => (q.groupOr i).acks == [q.phys]) = true := by
    refine List.all_eq_true.mpr fun q hq => ?_
    obtain ⟨hq, hk⟩ := List.mem_filter.mp hq
    exact beq_iff_eq.mpr (others q hq (List.contains_iff_mem.mp hk))
  simp only [exec, execDrainRound, hks, here, acked, List.isEmpty_cons, Bool.false_eq_true, if_false, beq_self_eq_true, Bool.and_self, if_true, map_members]

theorem drainRound_waits (busy : (s.here.groupOr i).acks ≠ [])
    (waits : (s.here.groupOr i).acks ≠ [s.here.phys] ∨ ∃ q ∈ s.others, q.phys ∈ ks ∧ (q.groupOr i).acks ≠ [q.phys]) : exec (.drainRound i) s = .next s := by
  have unacked : ((s.here.groupOr i).acks == [s.here.phys] &&
      (s.others.filter (fun q => ks.contains q.phys)).all (fun q => (q.groupOr i).acks == [q.phys])) = false := by
    rw [Bool.and_eq_false_iff]
    refine waits.imp (fun h => by simpa using h) fun ⟨q, hq, hk, h⟩ => ?_
    exact List.all_eq_false.mpr ⟨q, List.mem_filter.mpr ⟨hq, by simpa using hk⟩, by simpa using h⟩
  simp only [exec, execDrainRound, hks, List.isEmpty_eq_false_iff.mpr busy, unacked, Bool.false_eq_true, if_false]

end

/-- Settles O48: each command of the fabric by its own lemma. -/
theorem fabricCommandsComplete : Obligations.FabricCommandsComplete :=
  ⟨fun _ _ _ => circuitChange_completes, fun _ => drainMarkerAck_done, fun _ => drainMarkerAck_waits, fun _ => rfl, fun _ => Package.relock_of_light,
    fun _ _ => relock_installs, fun _ _ _ => tugFirmwareDownload_signed, fun _ _ _ _ _ => tugFirmwareDownload_unsigned, fun _ _ => tugFault_reports,
    fun _ _ _ _ _ _ _ fits named room place => ⟨groupTableChange_live fits room place named, groupTableChange_used fits room place named⟩,
    fun _ _ _ _ _ _ => groupTableChange_free,
    fun p i => ⟨p.exists_startDrain_group i, p.exists_startDrain_marker i, p.exists_endDrain_group i⟩,
    fun _ _ _ hks => ⟨drainRound_starts hks, drainRound_ends hks, drainRound_waits hks⟩⟩

end Sys2Proof.Claims
end

section
/-! SUPPORT. The results of the integer, logic and field forms bit for bit and modulo their widths, and that these forms complete with them. -/

namespace Sys2Proof.Claims

open Sys2Proof.Machine

theorem Framed.completes {x : Instr} {eff frame : Who → Package → Package → Prop} (h : Framed x eff frame) : Completes x eff :=
  fun s i q hi ht => (h s i q hi ht).1

/-! ### A result that is a value modulo its width -/

section
variable {T : Type} {nd na nb n : Nat} {e : Ext} {imm : BitVec 7 → Nat} {x : Instr}

theorem completes_alu2 {o : Alu T} {val : Nat → Nat → Nat → Prop} (f : Nat → Nat → Nat)
    (hx : ∀ s, exec x s = lift (each (fun w => alu2 w o nd na nb e imm f)) s)
    (hv : ∀ a b v, val a b v → v < 2 ^ (32 * nd) → f a b % 2 ^ (32 * nd) = v) : Completes x (twoSource o nd na nb e imm val) :=
  Laws.completes_each hx (Laws.alu2_two hv)

theorem completes_alu3 {o : Alu T} {val : Nat → Nat → Nat → Nat → Prop} (f : Nat → Nat → Nat → Nat)
    (hx : ∀ s, exec x s = lift (each (fun w => alu3 w o nd na nb e imm f)) s)
    (hv : ∀ d a b v, val d a b v → v < 2 ^ (32 * nd) → f d a b % 2 ^ (32 * nd) = v) : Completes x (threeSource o nd na nb e imm val) :=
  Laws.completes_each hx (Laws.alu3_three hv)

theorem completes_alu1 {o : Un T} {val : Nat → Nat → Prop} (f : Nat → Nat) (hx : ∀ s, exec x s = lift (each (fun w => alu1 w o n n e imm f)) s)
    (hv : ∀ b v, val b v → v < 2 ^ (32 * n) → f b % 2 ^ (32 * n) = v) : Completes x (oneSource o n e imm val) :=
  Laws.completes_each hx (Laws.alu1_one hv)

end

/-! ### Two's complement patterns -/

theorem wrapInt_cast (n : Nat) (x : Int) : (wrapInt n x : Int) = x % 2 ^ n := by
  have h : (0 : Int) ≤ x % ((2 ^ n : Nat) : Int) := Int.emod_nonneg _ (by positivity)
  rw [wrapInt, Int.toNat_of_nonneg h, Nat.cast_pow, Nat.cast_ofNat]

theorem wrapInt_lt (n : Nat) (x : Int) : wrapInt n x < 2 ^ n := by
  have h : (wrapInt n x : Int) < 2 ^ n := wrapInt_cast n x ▸ Int.emod_lt_of_pos _ (by positivity)
  exact_mod_cast h

/-- The pattern of an integer is the value that a statement names modulo the width. -/
theorem wrapInt_mod {n v : Nat} {x : Int} (h : (v : Int) = x % 2 ^ n) : wrapInt n x % 2 ^ n = v := by
  rw [Nat.mod_eq_of_lt (wrapInt_lt n x)]
  exact_mod_cast (wrapInt_cast n x).trans h.symm

/-! ### Integer forms -/

theorem integer_completes (o : Alu ITy) :
    Completes (.add o) (integerForm o (fun x y v => v = (x + y) % 2 ^ (32 * o.ty.regs))) ∧
    Completes (.isub o) (integerForm o (fun x y v => (v : Int) = ((x : Int) - y) % 2 ^ (32 * o.ty.regs))) ∧
    Completes (.imul o) (integerForm o (fun x y v => v = x * y % 2 ^ (32 * o.ty.regs))) ∧
    Completes (.imin o) (integerForm o (fun x y v => v = (if valueIn o.ty y < valueIn o.ty x then y else x) % 2 ^ (32 * o.ty.regs))) ∧
    Completes (.imax o) (integerForm o (fun x y v => v = (if valueIn o.ty x < valueIn o.ty y then y else x) % 2 ^ (32 * o.ty.regs))) := by
  refine ⟨completes_alu2 _ (fun _ => rfl) (fun _ _ _ h _ => h.symm), completes_alu2 _ (fun _ => rfl) (fun _ _ _ h _ => wrapInt_mod h),
    completes_alu2 _ (fun _ => rfl) (fun _ _ _ h _ => h.symm), completes_alu2 _ (fun _ => rfl) (fun _ _ _ h _ => ?_),
    completes_alu2 _ (fun _ => rfl) (fun _ _ _ h _ => ?_)⟩
  all_goals simp only [valueIn_eq] at h; exact h.symm

theorem lea_completes (o : Alu (BitVec 2)) : Completes (.lea o)
    (twoSource o 2 2 1 .unsigned (iImm .i32) (fun x y v => (v : Int) = ((x : Int) + signed 32 y * 2 ^ o.ty.toNat) % 2 ^ 64)) := by
  refine completes_alu2 (fun a b => wrapInt 64 ((a : Int) + intBits 32 b * 2 ^ o.ty.toNat)) (fun _ => rfl) (fun x y v h _ => wrapInt_mod ?_)
  rw [h, signed_eq_toInt, intBits_eq_toInt]

/-- Settles O2: each form's value modulo its width is the one that the statement names; a comparison as the type orders is that of `iVal`. -/
theorem integerTwoSourceResults : Obligations.IntegerTwoSourceResults := ⟨integer_completes, lea_completes⟩

/-! ### Bits of the logic forms -/

/-- Clearing the bits of a pattern by the complement of another (R340). -/
theorem testBit_complement {w y i : Nat} (hi : i < w) : (2 ^ w - 1 - y % 2 ^ w).testBit i = !y.testBit i := by
  rw [show 2 ^ w - 1 - y % 2 ^ w = 2 ^ w - (y % 2 ^ w + 1) by omega, Nat.testBit_two_pow_sub_succ (Nat.mod_lt _ (Nat.two_pow_pos w)),
    Nat.testBit_mod_two_pow]
  simp [hi]

theorem logic_completes (o : Alu LTy) :
    Completes (.and o) (logicForm o (fun x y v => ∀ i < 32 * o.ty.regs, v.testBit i = (x.testBit i && y.testBit i))) ∧
    Completes (.andn o) (logicForm o (fun x y v => ∀ i < 32 * o.ty.regs, v.testBit i = (x.testBit i && !y.testBit i))) ∧
    Completes (.or o) (logicForm o (fun x y v => ∀ i < 32 * o.ty.regs, v.testBit i = (x.testBit i || y.testBit i))) ∧
    Completes (.xor o) (logicForm o (fun x y v => ∀ i < 32 * o.ty.regs, v.testBit i = (x.testBit i != y.testBit i))) := by
  refine ⟨completes_alu2 _ (fun _ => rfl) (fun x y v h hv => Laws.mod_bits hv fun i hi => ?_),
    completes_alu2 _ (fun _ => rfl) (fun x y v h hv => Laws.mod_bits hv fun i hi => ?_),
    completes_alu2 _ (fun _ => rfl) (fun x y v h hv => Laws.mod_bits hv fun i hi => ?_),
    completes_alu2 _ (fun _ => rfl) (fun x y v h hv => Laws.mod_bits hv fun i hi => ?_)⟩
  · rw [h i hi, Nat.testBit_and]
  · rw [h i hi, Nat.testBit_and, lBits, testBit_complement hi]
  · rw [h i hi, Nat.testBit_or]
  · rw [h i hi, Nat.testBit_xor]

/-- Settles O3: each result has the bits that the operation gives its operands' bits. -/
theorem logicResults : Obligations.LogicResults := logic_completes

/-! ### Shifts and rotations (R438, R440) -/

theorem testBit_shlVal {w a c i : Nat} (hi : i < w) : (shlVal w a c).testBit i = (decide (c ≤ i) && a.testBit (i - c)) := by
  unfold shlVal
  split
  · simp [Nat.testBit_mod_two_pow, hi, Nat.testBit_mul_two_pow]
  · simp [show ¬c ≤ i by omega]

theorem testBit_shrVal {w a c i : Nat} : (shrVal w a c).testBit i = fieldBit w a c i := by
  unfold shrVal fieldBit
  split
  · rw [Nat.testBit_div_two_pow, Nat.testBit_mod_two_pow, Nat.add_comm]
  · simp [show ¬c + i < w by omega]

theorem testBit_wrapInt (n i : Nat) (x : Int) : (wrapInt n x).testBit i = (BitVec.ofInt n x).getLsbD i := by
  rw [← BitVec.testBit_toNat, BitVec.toNat_ofInt, wrapInt]

theorem testBit_sarVal {w a c i : Nat} (hi : i < w) :
    (sarVal w a c).testBit i = if i + c < w then a.testBit (i + c) else a.testBit (w - 1) := by
  have hs : BitVec.ofInt w (intBits w a / (2 ^ min c w : Nat)) = (BitVec.ofNat w a).sshiftRight (min c w) := by
    rw [intBits_eq_toInt, BitVec.sshiftRight, Int.shiftRight_eq_div_pow]
  rw [sarVal, testBit_wrapInt, hs, BitVec.getLsbD_sshiftRight, BitVec.msb_eq_getLsbD_last]
  simp only [BitVec.getLsbD_ofNat, show ¬w ≤ i by omega, show w - 1 < w by omega, decide_true, decide_false, Bool.not_false, Bool.true_and]
  by_cases h : i + c < w
  · simp [h, show min c w = c by omega, Nat.add_comm c i]
  · simp [h, show ¬min c w + i < w by omega]

theorem testBit_rolVal {w a c i : Nat} (hi : i < w) : (rolVal w a c).testBit ((i + c) % w) = a.testBit i := by
  have hk : c % w < w := Nat.mod_lt _ (by omega)
  have split : 2 ^ w = 2 ^ (c % w) * 2 ^ (w - c % w) := by rw [← Nat.pow_add, Nat.add_sub_of_le hk.le]
  have low : a % 2 ^ w / 2 ^ (w - c % w) < 2 ^ (c % w) := by
    rw [Nat.div_lt_iff_lt_mul (Nat.two_pow_pos _), ← split]
    exact Nat.mod_lt _ (Nat.two_pow_pos w)
  have high : a % 2 ^ w * 2 ^ (c % w) % 2 ^ w = 2 ^ (c % w) * (a % 2 ^ w % 2 ^ (w - c % w)) := by
    rw [Nat.mul_comm, split, Nat.mul_mod_mul_left]
  rw [rolVal, high, Nat.testBit_two_pow_mul_add _ low, ← Nat.add_mod_mod]
  by_cases wrap : i + c % w < w
  · rw [Nat.mod_eq_of_lt wrap, if_neg (by omega)]
    simp [Nat.testBit_mod_two_pow, hi, show i < w - c % w by omega]
  · rw [Nat.mod_eq_sub_mod (by omega), Nat.mod_eq_of_lt (by omega), if_pos (by omega), Nat.testBit_div_two_pow, Nat.testBit_mod_two_pow]
    simp [show i + c % w - w + (w - c % w) = i by omega, hi]

/-- Every bit of a rotated pattern comes from one of the operand. -/
theorem exists_rotated {w j : Nat} (c : Nat) (hj : j < w) : ∃ i < w, (i + c) % w = j := by
  have hc : c % w < w := Nat.mod_lt _ (by omega)
  refine ⟨(j + (w - c % w)) % w, Nat.mod_lt _ (by omega), ?_⟩
  rw [Nat.mod_add_mod, ← Nat.add_mod_mod, show j + (w - c % w) + c % w = j + w by omega, Nat.add_mod_right, Nat.mod_eq_of_lt hj]

theorem shift_completes (o : Alu LTy) :
    Completes (.shl o) (shiftForm o (fun x c v => ∀ i < 32 * o.ty.regs, v.testBit i = (decide (c ≤ i) && x.testBit (i - c)))) ∧
    Completes (.shr o) (shiftForm o (fun x c v => ∀ i < 32 * o.ty.regs, v.testBit i = fieldBit (32 * o.ty.regs) x c i)) ∧
    Completes (.sar o) (shiftForm o (fun x c v => ∀ i < 32 * o.ty.regs,
      v.testBit i = if i + c < 32 * o.ty.regs then x.testBit (i + c) else x.testBit (32 * o.ty.regs - 1))) ∧
    Completes (.rol o) (shiftForm o (fun x c v => ∀ i < 32 * o.ty.regs, v.testBit ((i + c) % (32 * o.ty.regs)) = x.testBit i)) := by
  refine ⟨completes_alu2 _ (fun _ => rfl) (fun x c v h hv => Laws.mod_bits hv fun i hi => ?_),
    completes_alu2 _ (fun _ => rfl) (fun x c v h hv => Laws.mod_bits hv fun i hi => ?_),
    completes_alu2 _ (fun _ => rfl) (fun x c v h hv => Laws.mod_bits hv fun i hi => ?_),
    completes_alu2 _ (fun _ => rfl) (fun x c v h hv => Laws.mod_bits hv fun j hj => ?_)⟩
  · rw [h i hi, lBits, testBit_shlVal hi]
  · rw [h i hi, lBits, testBit_shrVal]
  · rw [h i hi, lBits, testBit_sarVal hi]
  · obtain ⟨i, hi, rfl⟩ := exists_rotated c hj
    rw [h i hi, lBits, testBit_rolVal hi]

/-! ### Fields and bytes (R350, R421) -/

/-- The field that a word of BFX and BFI names: its position and its top bit (R350). -/
theorem bitsOf_low (f : Nat) : bitsOf 7 0 f = f % 256 := by simp [bitsOf]
theorem bitsOf_second (f : Nat) : bitsOf 15 8 f = f / 256 % 256 := by simp [bitsOf, Nat.shiftRight_eq_div_pow]

theorem testBit_intBits {n w i : Nat} (x : Nat) (hi : i < w) (hn : 0 < n) :
    (wrapInt w (intBits n x)).testBit i = if i < n then x.testBit i else x.testBit (n - 1) := by
  rw [testBit_wrapInt, intBits_eq_toInt, ← BitVec.signExtend, BitVec.getLsbD_signExtend, BitVec.msb_eq_getLsbD_last]
  simp only [BitVec.getLsbD_ofNat, hi, decide_true, Bool.true_and]
  split
  · next h => simp [h]
  · simp [hn]

theorem testBit_field {w x k n i : Nat} : (x % 2 ^ w / 2 ^ k % 2 ^ n).testBit i = (decide (i < n) && fieldBit w x k i) := by
  rw [Nat.testBit_mod_two_pow, Nat.testBit_div_two_pow, Nat.testBit_mod_two_pow, fieldBit, Nat.add_comm]

theorem testBit_bfxVal {t : ITy} {x f i : Nat} (hi : i < 32 * t.regs) : (bfxVal t x f).testBit i =
    if i ≤ f / 256 % 256 then fieldBit (32 * t.regs) x (f % 256) i
    else (t == .i32 || t == .i64) && fieldBit (32 * t.regs) x (f % 256) (f / 256 % 256) := by
  have unsigned : (x % 2 ^ (32 * t.regs) / 2 ^ (f % 256) % 2 ^ (f / 256 % 256 + 1) % 2 ^ (32 * t.regs)).testBit i =
      (decide (i ≤ f / 256 % 256) && fieldBit (32 * t.regs) x (f % 256) i) := by
    rw [Nat.testBit_mod_two_pow, testBit_field]
    simp [hi]
  have extended : (wrapInt (32 * t.regs) (intBits (f / 256 % 256 + 1) (x % 2 ^ (32 * t.regs) / 2 ^ (f % 256) % 2 ^ (f / 256 % 256 + 1)))).testBit i =
      if i ≤ f / 256 % 256 then fieldBit (32 * t.regs) x (f % 256) i else fieldBit (32 * t.regs) x (f % 256) (f / 256 % 256) := by
    rw [testBit_intBits _ hi (Nat.succ_pos _), testBit_field, testBit_field]
    by_cases h : i ≤ f / 256 % 256 <;> simp [h]
  simp only [bfxVal, bitsOf_low, bitsOf_second]
  cases t with
  | n32 => rw [unsigned]; by_cases h : i ≤ f / 256 % 256 <;> simp [h]
  | n64 => rw [unsigned]; by_cases h : i ≤ f / 256 % 256 <;> simp [h]
  | i32 => exact extended
  | i64 => exact extended

theorem testBit_bfiVal {w d x f i : Nat} (hi : i < w) : (bfiVal w d x f).testBit i =
    if f % 256 ≤ i ∧ i ≤ f % 256 + f / 256 % 256 then x.testBit (i - f % 256) else d.testBit i := by
  have mask : ∀ j < w, ((2 ^ (f / 256 % 256 + 1) - 1) * 2 ^ (f % 256) % 2 ^ w).testBit j =
      (decide (f % 256 ≤ j) && decide (j ≤ f % 256 + f / 256 % 256)) := by
    intro j hj
    rw [Nat.testBit_mod_two_pow, Nat.testBit_mul_two_pow, Nat.testBit_two_pow_sub_one]
    by_cases h : f % 256 ≤ j
    · simp only [hj, h, decide_true, Bool.true_and]
      exact decide_eq_decide.mpr (by omega)
    · simp [h]
  have keep : (2 ^ w - 1 - (2 ^ (f / 256 % 256 + 1) - 1) * 2 ^ (f % 256) % 2 ^ w).testBit i =
      !((2 ^ (f / 256 % 256 + 1) - 1) * 2 ^ (f % 256) % 2 ^ w).testBit i := by
    have h := testBit_complement (y := (2 ^ (f / 256 % 256 + 1) - 1) * 2 ^ (f % 256) % 2 ^ w) hi
    rwa [Nat.mod_mod] at h
  simp only [bfiVal, bitsOf_low, bitsOf_second]
  rw [Nat.testBit_or, Nat.testBit_and, Nat.testBit_and, keep, mask i hi, Nat.testBit_mod_two_pow, Nat.testBit_mul_two_pow]
  by_cases h : f % 256 ≤ i <;> by_cases h' : i ≤ f % 256 + f / 256 % 256 <;> simp [h, h', hi]

theorem testBit_byte {x k i : Nat} (hi : i < 8) : (x / 256 ^ k % 256).testBit i = x.testBit (8 * k + i) := by
  rw [show (256 : Nat) ^ k = 2 ^ (8 * k) by rw [Nat.pow_mul], show (256 : Nat) = 2 ^ 8 by rfl, Nat.testBit_mod_two_pow, Nat.testBit_div_two_pow,
    Nat.add_comm]
  simp [hi]

/-- A byte of PRMB: the pool byte, or its sign eight times (R421). -/
theorem testBit_prmbByte {pool sel k i : Nat} (hi : i < 8) : (prmbByte pool sel k).testBit i =
    pool.testBit (8 * (sel / 16 ^ k % 8) + if sel.testBit (4 * k + 3) then 7 else i) := by
  have named : sel / 16 ^ k % 16 % 8 = sel / 16 ^ k % 8 := Nat.mod_mod_of_dvd _ (by decide)
  have byteSign : ∀ b < 256, (if b < 128 then 0 else 255).testBit i = b.testBit 7 := by
    intro b hb
    split
    next h => rw [Nat.zero_testBit, Nat.testBit_lt_two_pow h]
    next h =>
      rw [show 255 = 2 ^ 8 - 1 by rfl, Nat.testBit_two_pow_sub_one, Nat.testBit_eq_decide_div_mod_eq]
      exact decide_eq_decide.mpr (by omega)
  have top : sel.testBit (4 * k + 3) = decide (8 ≤ sel / 16 ^ k % 16) := by
    have h : sel.testBit (4 * k + 3) = (sel / 16 ^ k).testBit 3 := by
      rw [show (16 : Nat) ^ k = 2 ^ (4 * k) by rw [Nat.pow_mul], Nat.testBit_div_two_pow, Nat.add_comm]
    rw [h, Nat.testBit_eq_decide_div_mod_eq]
    exact decide_eq_decide.mpr (by omega)
  simp only [prmbByte, named, top]
  by_cases h : sel / 16 ^ k % 16 < 8
  · rw [if_pos h, testBit_byte hi]
    simp [show ¬8 ≤ sel / 16 ^ k % 16 by omega]
  · rw [if_neg h, byteSign _ (Nat.mod_lt _ (by decide)), testBit_byte (by decide)]
    simp [show 8 ≤ sel / 16 ^ k % 16 by omega]

theorem prmbByte_lt (pool sel k : Nat) : prmbByte pool sel k < 256 := by
  unfold prmbByte
  have := Nat.mod_lt (pool / 256 ^ (sel / 16 ^ k % 16 % 8)) (show 0 < 256 by decide)
  dsimp only
  split_ifs <;> omega

theorem testBit_prmbVal {pool sel k i : Nat} (hk : k < 4) (hi : i < 8) : (prmbVal pool sel).testBit (8 * k + i) = (prmbByte pool sel k).testBit i := by
  have byte : prmbVal pool sel / 256 ^ k % 256 = prmbByte pool sel k := by
    have h0 := prmbByte_lt pool sel 0
    have h1 := prmbByte_lt pool sel 1
    have h2 := prmbByte_lt pool sel 2
    have h3 := prmbByte_lt pool sel 3
    unfold prmbVal
    interval_cases k <;> omega
  rw [← testBit_byte hi, byte]

theorem bfx_completes (o : Alu ITy) : Completes (.bfx o) (twoSource o o.ty.regs o.ty.regs 1 (iExt o.ty) lImm (fun x f v => ∀ i < 32 * o.ty.regs,
    v.testBit i = if i ≤ f / 256 % 256 then fieldBit (32 * o.ty.regs) x (f % 256) i
      else (o.ty == .i32 || o.ty == .i64) && fieldBit (32 * o.ty.regs) x (f % 256) (f / 256 % 256))) :=
  completes_alu2 _ (fun _ => rfl) (fun x f v h hv => Laws.mod_bits hv fun i hi => by rw [h i hi, testBit_bfxVal hi])

theorem prmb_completes (o : Alu Unit) : Completes (.prmb o) (twoSource o 1 2 1 .unsigned lImm (fun x sel v => ∀ k < 4, ∀ i < 8,
    v.testBit (8 * k + i) = x.testBit (8 * (sel / 16 ^ k % 8) + if sel.testBit (4 * k + 3) then 7 else i))) := by
  refine completes_alu2 _ (fun _ => rfl) (fun x sel v h hv => Laws.mod_bits hv fun j hj => ?_)
  obtain ⟨k, i, hk, hi, rfl⟩ : ∃ k i, k < 4 ∧ i < 8 ∧ j = 8 * k + i := ⟨j / 8, j % 8, by omega, by omega, by omega⟩
  rw [h k hk i hi, testBit_prmbVal hk hi, testBit_prmbByte hi]

/-- Settles O4: the bits of each form's value, position by position. -/
theorem shiftAndFieldResults : Obligations.ShiftAndFieldResults := ⟨shift_completes, bfx_completes, prmb_completes⟩

theorem bfi_completes (o : Alu LTy) : Completes (.bfi o) (threeSource o o.ty.regs o.ty.regs 1 .unsigned lImm (fun d x f v => ∀ i < 32 * o.ty.regs,
    v.testBit i = if f % 256 ≤ i ∧ i ≤ f % 256 + f / 256 % 256 then x.testBit (i - f % 256) else d.testBit i)) :=
  completes_alu3 _ (fun _ => rfl) (fun d x f v h hv => Laws.mod_bits hv fun i hi => by rw [h i hi, lBits, testBit_bfiVal hi])

theorem addc_completes (o : Alu Unit) : Completes (.addc o) (addcEffect o) := by
  refine Laws.completes_each (fun _ => rfl) (fun w p q h => ?_)
  obtain ⟨_, _, _, _, _, _, _, _, _, _, _, hp, hc, ha, hb, hl, hv⟩ := h
  exact Gives.bind hp (Gives.bind hc (Gives.bind ha (Gives.bind hb (Gives.bind hl hv))))

/-- Settles O5: IMAD and BFI are values modulo their width; ADDC reads its carry as a source of its own. -/
theorem threeSourceResults : Obligations.ThreeSourceResults :=
  ⟨fun _ => completes_alu3 (fun d a b => a * b + d) (fun _ => rfl) (fun _ _ _ _ h _ => h.symm), bfi_completes, addc_completes⟩

/-! ### One source (R354, R357, R391, R420) -/

theorem popcount_eq (n x : Nat) : popcount n x = ((List.range n).filter x.testBit).length := by
  induction n generalizing x with
  | zero => rfl
  | succ n ih =>
    have tail : ((List.range n).map Nat.succ).filter x.testBit = ((List.range n).filter (x / 2).testBit).map Nat.succ := by
      rw [List.filter_map]
      congr 2
      funext i
      exact Nat.testBit_succ x i
    rw [popcount, ih, List.range_succ_eq_map, List.filter_cons, tail]
    rcases Nat.mod_two_eq_zero_or_one x with h | h <;> simp [Nat.testBit_zero, h, Nat.add_comm]

theorem testBit_reverseBits (n x : Nat) : reverseBits n x < 2 ^ n ∧ ∀ i < n, (reverseBits n x).testBit (n - 1 - i) = x.testBit i := by
  induction n generalizing x with
  | zero => simp [reverseBits]
  | succ n ih =>
    obtain ⟨hlt, hbit⟩ := ih (x / 2)
    have hm : x % 2 < 2 := Nat.mod_lt _ (by decide)
    rw [reverseBits, Nat.mul_comm]
    refine ⟨?_, fun i hi => ?_⟩
    · rw [Nat.pow_succ]
      nlinarith [Nat.two_pow_pos n]
    · rw [Nat.testBit_two_pow_mul_add _ hlt]
      cases i with
      | zero => simp [Nat.testBit_zero]
      | succ i => rw [if_pos (by omega), show n + 1 - 1 - (i + 1) = n - 1 - i by omega, hbit i (by omega), Nat.testBit_succ]

/-- The count of zeros above the highest set bit is the only one whose bits are as the statement says (R357). -/
theorem leadingZeros_eq {w y v : Nat} (zeros : ∀ i < v, y.testBit (w - 1 - i) = false) (hv : v ≤ w)
    (one : v < w → y.testBit (w - 1 - v) = true) : leadingZeros w y = v := by
  have inside : ∀ i, (y % 2 ^ w).testBit i = (decide (i < w) && y.testBit i) := fun _ => Nat.testBit_mod_two_pow ..
  unfold leadingZeros
  dsimp only
  split
  next h =>
    rcases hv.lt_or_eq with hlt | rfl
    · have := inside (w - 1 - v)
      rw [h, one hlt] at this
      simp [show w - 1 - v < w by omega] at this
    · rfl
  next h =>
    have top : (y % 2 ^ w).testBit (y % 2 ^ w).log2 = true := Nat.testBit_log2 h
    obtain ⟨ht, hy⟩ : (y % 2 ^ w).log2 < w ∧ y.testBit (y % 2 ^ w).log2 = true := by simpa [inside] using top
    have above : v ≤ w - 1 - (y % 2 ^ w).log2 := by
      by_contra hn
      have := zeros (w - 1 - (y % 2 ^ w).log2) (by omega)
      rw [show w - 1 - (w - 1 - (y % 2 ^ w).log2) = (y % 2 ^ w).log2 by omega, hy] at this
      cases this
    have below : w - 1 - v ≤ (y % 2 ^ w).log2 := by
      rw [Nat.le_log2 h]
      refine Nat.ge_two_pow_of_testBit ?_
      rw [inside, one (by omega)]
      simp [show w - 1 - v < w by omega]
    omega

theorem iabs_completes (wide : Bool) (o : Un Unit) :
    Completes (.iabs wide o) (oneSource o (if wide then 2 else 1) .signed (iImm (if wide then .i64 else .i32))
      (fun y v => v = (signed (if wide then 64 else 32) y).natAbs % 2 ^ (if wide then 64 else 32))) := by
  cases wide with
  | false => exact completes_alu1 (fun b => (iVal .i32 b).natAbs) (fun _ => rfl) (fun b v h _ => by rw [h, ← valueIn_eq]; rfl)
  | true => exact completes_alu1 (fun b => (iVal .i64 b).natAbs) (fun _ => rfl) (fun b v h _ => by rw [h, ← valueIn_eq]; rfl)

theorem count_completes (o : Un LTy) :
    Completes (.popc o) (oneSource o o.ty.regs .unsigned lImm (fun y v => v = ((List.range (32 * o.ty.regs)).filter y.testBit).length)) ∧
    Completes (.clz o) (oneSource o o.ty.regs .unsigned lImm (fun y v =>
      (∀ i < v, y.testBit (32 * o.ty.regs - 1 - i) = false) ∧ v ≤ 32 * o.ty.regs ∧
      (v < 32 * o.ty.regs → y.testBit (32 * o.ty.regs - 1 - v) = true))) ∧
    Completes (.brev o) (oneSource o o.ty.regs .unsigned lImm (fun y v => ∀ i < 32 * o.ty.regs, v.testBit (32 * o.ty.regs - 1 - i) = y.testBit i)) := by
  refine ⟨completes_alu1 _ (fun _ => rfl) (fun y v h hv => ?_), completes_alu1 _ (fun _ => rfl) (fun y v h hv => ?_),
    completes_alu1 _ (fun _ => rfl) (fun y v h hv => Laws.mod_bits hv fun j hj => ?_)⟩
  · rw [lBits, popcount_eq, ← h, Nat.mod_eq_of_lt hv]
  · obtain ⟨zeros, le, one⟩ := h
    rw [lBits, leadingZeros_eq zeros le one, Nat.mod_eq_of_lt hv]
  · obtain ⟨i, hi, rfl⟩ : ∃ i < 32 * o.ty.regs, j = 32 * o.ty.regs - 1 - i := ⟨32 * o.ty.regs - 1 - j, by omega, by omega⟩
    rw [h i hi, lBits, (testBit_reverseBits _ y).2 i hi]

/-- Settles O6: the magnitude, the two counts and the reversed bits are those of the model's recursions. -/
theorem oneSourceResults : Obligations.OneSourceResults := ⟨iabs_completes, count_completes⟩

end Sys2Proof.Claims
end

section
/-! SUPPORT. The moves, predicates, floating forms and conversions complete (R142, R149): what the frames of these forms do not yet say of the values. -/

namespace Sys2Proof.Claims

open Sys2Proof.Machine

/-- Settles O7: each move is framed, and a framed form completes. -/
theorem movesComplete : Obligations.MovesComplete :=
  ⟨fun o => (framed_mov o).completes, fun ty d k => (framed_movl ty d k).completes, fun sense c o => (framed_sel sense c o).completes⟩

/-- Settles O8: each form on predicates is framed, and a framed form completes. -/
theorem predicateResults : Obligations.PredicateResults :=
  ⟨fun o => (framed_cmp o).completes, fun pd pa pb tt => (framed_plop pd pa pb tt).completes, fun d c => (framed_pmovToReg d c).completes,
    fun c b lit => (framed_pmovToPred c b lit).completes, fun d => (framed_pmovSave d).completes, fun b lit => (framed_pmovLoad b lit).completes⟩

/-- The model builds a result element by element (R142). -/
theorem buildOf_elements (t : FTy) (f : Nat → Nat → Nat × Exc) (x y : Nat) :
    buildOf t (fun k => f (elemOf t x k) (elemOf t y k)) = perElement t f x y := by
  cases t <;> simp [buildOf, perElement, elemOf]

theorem completes_fpu2 {x : Instr} {o : Alu FTy} {f : RM → Nat → Nat → Nat × Exc} (hx : ∀ s, exec x s = lift (each (fun w => fpu2 w o f)) s) :
    Completes x (floatTwo o f) := by
  refine Laws.completes_each hx (fun w p q h => ?_)
  obtain ⟨_, _, _, _, _, _, _, _, _, _, hp, ha, hb, hl, hrm, hx, hv⟩ := h
  exact Gives.bind hp (Gives.bind ha (Gives.bind hb (Gives.bind hl (Gives.bind hrm (Gives.bind hx hv)))))

/-- A floating form whose result is built of its elements' values. -/
theorem completes_elements {x : Instr} {o : Alu FTy} (f : RM → Nat → Nat → Nat × Exc)
    (hx : ∀ s, exec x s = lift (each (fun w => fpu2 w o (fun rm a b => buildOf o.ty (fun k => f rm (elemOf o.ty a k) (elemOf o.ty b k))))) s) :
    Completes x (floatTwo o (fun rm => perElement o.ty (f rm))) := by
  refine completes_fpu2 (fun s => ?_)
  simp only [hx, buildOf_elements]

theorem completes_eft {x : Instr} {o : Alu Unit} (f : Nat → Nat → Nat × Nat × Exc) (hx : ∀ s, exec x s = lift (each (eft o f)) s) :
    Completes x (transform o f) := by
  refine Laws.completes_each hx (fun w p q h => ?_)
  obtain ⟨_, _, _, _, _, _, _, _, _, hp, ha, hb, hl, hx, hv⟩ := h
  exact Gives.bind hp (Gives.bind ha (Gives.bind hb (Gives.bind hl (Gives.bind hx hv))))

/-- Settles O9: each element is the operation's value of the operands' elements. -/
theorem floatResults : Obligations.FloatResults :=
  ⟨fun o => ⟨completes_elements (fun rm => (fmtOf o.ty).add rm) (fun _ => rfl), completes_elements (fun rm => (fmtOf o.ty).mul rm) (fun _ => rfl),
      completes_elements (fun _ => minMax (fmtOf o.ty) false) (fun _ => rfl), completes_elements (fun _ => minMax (fmtOf o.ty) true) (fun _ => rfl),
      (framed_ffma o).completes⟩,
    fun o => (framed_fcmp o).completes⟩

/-- Settles O10: FRND and CFMA are framed, and the two transforms give a pair. -/
theorem transformResults : Obligations.TransformResults :=
  ⟨fun dir o => (framed_frnd dir o).completes, fun _ => ⟨completes_eft twoSum (fun _ => rfl), completes_eft twoProd (fun _ => rfl)⟩,
    fun d a b => (framed_cfma d a b).completes⟩

/-- Settles O11: each conversion is framed, draws included, and a framed form completes. -/
theorem conversionResults : Obligations.ConversionResults :=
  ⟨fun code e o => (framed_cvt code e o).completes, fun d a b k j lit => (framed_qunpk d a b k j lit).completes,
    fun d a b j => (framed_qpack d a b j).completes⟩

end Sys2Proof.Claims
end

section
/-! SUPPORT. The instructions across the gang complete (R120, R389, R426, R442, R445, R459): what each lane reads, the lane that SHFL names, the predicates
and the ballot of VOTE, and results that become outstanding. -/

namespace Sys2Proof.Claims

open Sys2Proof.Machine

section
variable {w : Who} {p q r : Package}

theorem gives_lateResult {f : Fld} {n v : Nat} {lbl : Lbl} {x : Option Exc} (h : ResultOwed w f n v lbl x p q) :
    Gives (lateResult w f n v lbl x) p () q := Laws.owed h

theorem gives_lateFp {x : Exc} {lbl : Lbl} (h : noTrap w x p) : Gives (lateFp w x lbl) p () p := Laws.late_fp h

theorem gives_ctxOf {m : Mask} : Gives (ctxOf w) p m q ↔ ∃ th, p.thread? w = some th ∧ m = th.ctxMask p ∧ q = p := by
  rw [ctxOf, gives_bind]
  constructor
  · rintro ⟨th, r, hth, h⟩
    obtain ⟨hth, rfl⟩ := gives_thr.mp hth
    obtain ⟨_, _, hg, h⟩ := gives_bind.mp h
    obtain ⟨rfl, rfl⟩ := gives_get.mp hg
    exact ⟨th, hth, gives_pure.mp h⟩
  · rintro ⟨th, hth, rfl, rfl⟩
    exact ⟨th, _, gives_thr.mpr ⟨hth, rfl⟩, Gives.bind (gives_get.mpr ⟨rfl, rfl⟩) (gives_pure.mpr ⟨rfl, rfl⟩)⟩

end

/-! ### FSF and SHFL (R389, R445) -/

theorem fsf_completes (fn : SFn) (o : Un FTy) : Completes (.fsf fn o) (fsfEffect fn o) := by
  refine Laws.completes_each (fun _ => rfl) (fun w p q h => ?_)
  obtain ⟨_, _, _, _, _, _, hp, hb, hl, hrm, hx, hr⟩ := h
  exact Gives.bind hp (Gives.bind hb (Gives.bind hl (Gives.bind hrm (Gives.bind (gives_lateFp hx) (gives_lateResult hr)))))

theorem shflLane_eq (m : ShMode) (l d : Nat) : shflLane m l d = shuffleFrom m l d := by
  cases m with
  | idx => rfl
  | up => exact (ite_not ..).symm.trans (if_congr (by omega) rfl rfl)
  | down => exact (ite_not ..).symm.trans (if_congr (by omega) rfl rfl)
  | xor => rfl

theorem shfl_across (o : Alu ShMode) : AcrossGang (.shfl o) (shflReads o) (shflEffect o) := by
  refine Laws.across (fun _ => rfl) (fun w p b r h => ?_) (fun u w b p q h => ?_)
  · obtain ⟨_, th, hp, ha, hb, hth, hc⟩ := h
    refine Gives.bind hp (Gives.bind ha (Gives.bind hb (Gives.bind (gives_ctxOf.mpr ⟨th, hth, rfl, rfl⟩) (gives_pure.mpr ⟨?_, rfl⟩))))
    rw [← hc]
  · obtain ⟨lbl, p₁, h⟩ := h
    by_cases pilot : w.lid = 0
    · rw [if_pos pilot] at h
      simp only [Who.isPilot, pilot, beq_self_eq_true, if_true]
      exact Gives.bind h.1 (gives_lateResult h.2)
    · rw [if_neg pilot] at h
      simp only [Who.isPilot, beq_iff_eq, pilot, if_false, shflLane_eq, laneOf]
      cases hl : shuffleFrom o.ty (w.lid % 32) b.sel with
      | none =>
        rw [hl] at h
        exact Gives.bind h.1 (gives_lateResult h.2)
      | some l =>
        rw [hl, Option.bind_some] at h
        cases hu : u.find? (fun e => e.1 % 32 == l) with
        | none =>
          rw [hu] at h
          simp only [hu]
          exact Gives.bind h.1 (gives_lateResult h.2)
        | some e =>
          obtain ⟨k, x⟩ := e
          rw [hu] at h
          simp only [hu]
          exact Gives.bind h.1 (gives_lateResult h.2)

/-! ### RDX and SCAN (R426, R442) -/

/-- A step taken under a condition, and what follows it in either case. -/
theorem gives_guarded {β : Type} {p q r : Package} {c : Prop} [Decidable c] {m : PM Unit} {f : Unit → PM β} {b : β}
    (h : if c then Gives m p () r else r = p) (h' : Gives (f ()) r b q) : Gives (if c then m >>= f else f ()) p b q := by
  by_cases hc : c
  · rw [if_pos hc] at h ⊢
    exact Gives.bind h h'
  · rw [if_neg hc] at h ⊢
    rwa [← h]

/-- The exceptions of a floating fold, none of which traps (R150). -/
theorem gives_foldFp {w : Who} {p : Package} {ty : RTy} {x : Exc} {lbl : Lbl} (hx : isFloat ty = true → noTrap w x p) :
    if isFloat ty = true then Gives (lateFp w x lbl) p () p else p = p := by
  split
  next hf => exact gives_lateFp (hx hf)
  next => rfl

theorem rdx_across (op : RedOp) (ty : RTy) (d b : Fld) (lit : Option Word) :
    AcrossGang (.rdx op ty d b lit) (rdxReads ty d b lit) (rdxEffect op ty d) := by
  refine Laws.across (fun _ => rfl) (fun w p b r h => h) (fun u w me p q h => ?_)
  obtain ⟨lbl, p₁, hl, hx, hr⟩ := h
  exact Gives.bind hl (gives_guarded (gives_foldFp hx) (gives_lateResult hr))

theorem scan_across (excl : Bool) (op : RedOp) (ty : RTy) (d b : Fld) (lit : Option Word) :
    AcrossGang (.scan excl op ty d b lit) (scanReads ty d b lit) (scanEffect excl op ty d) := by
  refine Laws.across (fun _ => rfl) (fun w p b r h => h) (fun u w me p q h => ?_)
  obtain ⟨lbl, p₁, hl, hx, hr⟩ := h
  simp only [← List.isEmpty_iff] at hx hr
  exact Gives.bind hl (gives_guarded (gives_foldFp hx) (gives_lateResult hr))

/-! ### VOTE (R459) -/

theorem foldl_add_eq_sum {α : Type} (f : α → Nat) (l : List α) (a : Nat) : l.foldl (fun n x => n + f x) a = a + (l.map f).sum := by
  induction l generalizing a with
  | nil => rfl
  | cons x xs ih => rw [List.foldl_cons, ih, List.map_cons, List.sum_cons, Nat.add_assoc]

theorem vote_across (op : VoteOp) (sense : Bool) (c : BitVec 5) : AcrossGang (.vote op sense c) (voteReads op sense c) (voteEffect op) := by
  refine Laws.across (fun _ => rfl) (fun w p v r h => ?_) (fun u w me p q h => ?_)
  · obtain ⟨b, th, hp, hc, hth, hval, hctx, hsel, hselM, rfl⟩ := h
    have value : ({ val := (b != sense).toNat, own := v.own, ctx := th.ctxMask r, sel := 0, selM := 0 } : LaneVal) = v := by
      rw [← hsel, ← hselM, ← hctx, show (b != sense).toNat = v.val by rw [hval]; cases b <;> cases sense <;> rfl]
    have read : Gives (do
        let (x, l) ← readPred w c
        let k ← ctxOf w
        pure ({ val := (x != sense).toNat, own := l, ctx := k, sel := 0, selM := 0 } : LaneVal)) r v r :=
      Gives.bind hc (Gives.bind (gives_ctxOf.mpr ⟨th, hth, rfl, rfl⟩) (gives_pure.mpr ⟨value.symm, rfl⟩))
    cases op with
    | ballot d => exact Gives.bind hp read
    | all _ => exact read
    | any _ => exact read
    | eq _ => exact read
  · obtain ⟨lbl, p₁, hl, h⟩ := h
    refine Gives.bind hl ?_
    have decided {c : BitVec 5} {a b : Bool} (hab : a = true ↔ b = true) (h : Gives (writePred w c a lbl) p₁ () q) :
        Gives (writePred w c b lbl) p₁ () q := Bool.eq_iff_iff.mpr hab ▸ h
    cases op with
    | all c =>
      obtain ⟨v, hv, h⟩ := h
      exact decided (hv.trans (by simp)) h
    | any c =>
      obtain ⟨v, hv, h⟩ := h
      exact decided (hv.trans (by simp)) h
    | eq c =>
      obtain ⟨v, hv, h⟩ := h
      exact decided (hv.trans (by simp)) h
    | ballot d =>
      have sum : u.foldl (fun n x => n + x.2.val * 2 ^ laneOf x.1) 0 = (u.map (fun e => e.2.val * 2 ^ (e.1 % 32))).sum := by
        rw [foldl_add_eq_sum (fun (x : Nat × LaneVal) => x.2.val * 2 ^ laneOf x.1), Nat.zero_add]
        rfl
      rw [← sum] at h
      exact h

/-- Settles O12: FSF in each thread; the others from what every active thread reads. -/
theorem crossLaneResults : Obligations.CrossLaneResults := ⟨fsf_completes, shfl_across, rdx_across, scan_across, vote_across⟩

end Sys2Proof.Claims
end

section
/-! SUPPORT. Labels as data (R129, R134, R135, R371, R378, R399, R406): what an operand that names a label gives, and that the five instructions complete. -/

namespace Sys2Proof.Claims

open Sys2Proof.Machine

section
variable {α : Type} {w : Who} {p q : Package}

theorem gives_if_pos {c : Prop} [Decidable c] {m m' : PM α} {a : α} (hc : c) (h : Gives m p a q) : Gives (if c then m else m') p a q := by
  rwa [if_pos hc]

theorem gives_if_neg {c : Prop} [Decidable c] {m m' : PM α} {a : α} (hc : ¬c) (h : Gives m' p a q) : Gives (if c then m else m') p a q := by
  rwa [if_neg hc]

theorem gives_env {th : Thread} (h : p.thread? w = some th) : Gives (env w) p (th.ctxMask p ||| p.maskOf th.guardLbl) p := Laws.env_ok h

theorem gives_labelOperand {v : Nat} (h : v < 0xFFFF) (live : p.live v = true) : Gives (labelOperand v) p (BitVec.ofNat 16 v) p :=
  Laws.label_ok h live

end

/-! ### LGET, LJOIN and LCEIL -/

theorem lget_completes (d : Fld) (src' : LgetSrc) (lit : Option Word) : Completes (.lget d src' lit) (lgetEffect d src' lit) := by
  refine Laws.completes_each (fun _ => rfl) (fun w p q h => ?_)
  obtain ⟨m, p₁, idx, p₂, lbl, p₃, hm, hidx, hl, hv⟩ := h
  have rest : Gives (do
      let idx ← mkLabel m
      let lbl ← resultLabel w 0
      vout w d 1 idx.toNat lbl) p₁ () q := Gives.bind hidx (Gives.bind hl hv)
  cases src' with
  | one b =>
    obtain ⟨v, hp, hb⟩ := hm
    exact Gives.bind hp (Gives.bind hb rest)
  | pair b =>
    obtain ⟨v, hp, hb⟩ := hm
    exact Gives.bind hp (Gives.bind hb rest)
  | pred c =>
    obtain ⟨v, hp, hc⟩ := hm
    exact Gives.bind hp (Gives.bind hc rest)

theorem ljoin_completes (wide : Bool) (o : Alu Unit) : Completes (.ljoin wide o) (ljoinEffect wide o) := by
  refine Laws.completes_each (fun _ => rfl) (fun w p q h => ?_)
  obtain ⟨_, _, _, v, _, _, _, _, hp, ha, hb, hlt, live, hl, hv⟩ := h
  exact Gives.bind hp (Gives.bind ha (Gives.bind hb (Gives.bind (gives_labelOperand hlt live) (Gives.bind (gives_maskOf.mpr ⟨rfl, rfl⟩)
    (Gives.bind hl hv)))))

/-- Holding the instruction for the threads that wait is what the statements say of it. -/
theorem holdRest_of_heldAfter {st : Stall} {outs : List (Nat × Bool)} {q r : Package} (h : heldAfter st outs q r) : holdRest st outs q = r := by
  rcases h with ⟨through, rfl⟩ | ⟨⟨o, ho, waits⟩, i, hi, rfl⟩
  · have none : outs.filter (·.2) = [] := List.filter_eq_nil_iff.mpr (fun o ho => by simp [through o ho])
    simp [holdRest, none]
  · have some : (outs.filter (·.2)).map (·.1) ≠ [] := by
      simp only [ne_eq, List.map_eq_nil_iff, List.filter_eq_nil_iff, not_forall]
      exact ⟨o, ho, by simp [waits]⟩
    simp only [holdRest, List.isEmpty_iff, some, if_false, hi, Option.map_some]

theorem gives_lceilBody {b : BOp} {lit : Option Word} {w : Who} {p q : Package} {wait : Bool} (h : lceilEffect b lit w p wait q) :
    Gives (lceilBody b lit w) p wait q := by
  obtain ⟨i, hi, h⟩ := h
  refine Gives.bind (gives_theIssue.mpr ⟨hi, rfl⟩) ?_
  rcases h with ⟨ran, rfl, rfl⟩ | ⟨fresh, v, lv, p₁, tm, hp, hb, hlt, live, htm, h⟩
  · exact gives_if_pos ran (gives_pure.mpr ⟨rfl, rfl⟩)
  · refine gives_if_neg (by simp [fresh]) (Gives.bind hp (Gives.bind hb (Gives.bind (gives_labelOperand hlt live)
      (Gives.bind (gives_teamOf.mpr ⟨htm, rfl⟩) (Gives.bind (gives_get.mpr ⟨rfl, rfl⟩) ?_)))))
    rcases h with ⟨early, rfl, rfl⟩ | ⟨turn, rfl, below, rfl⟩
    · exact gives_if_pos (by simp [early]) (gives_pure.mpr ⟨rfl, rfl⟩)
    · exact gives_if_neg (by simp [turn]) (gives_if_neg (by simp [below]) (Gives.bind (a := ()) (gives_setTeam.mpr rfl)
        (gives_pure.mpr ⟨rfl, rfl⟩)))

theorem lceil_completes (b : BOp) (lit : Option Word) (s : State) (i : Issue) (outs : List (Nat × Bool)) (q r : Package)
    (hi : s.here.issue = some i) (ht : InTurnGives (lceilEffect b lit) i.team (sortBy id i.active) s.here outs q) (hr : heldAfter .lceil outs q r) :
    exec (.lceil b lit) s = .next { s with here := r } :=
  lift_next ((eachByIdThen_inTurn (body := lceilBody b lit) (fun _ _ _ _ h => gives_lceilBody h) hi ht).trans (holdRest_of_heldAfter hr))

/-! ### ENDO and DECL -/

theorem endo_completes (a : Fld) : Completes (.endo a) (endoEffect a) := by
  refine Laws.completes_each (fun _ => rfl) (fun w p q h => ?_)
  obtain ⟨v, m, p₁, tm, x, th, k, hp, hr, htm, hx, hth, owns, caps, flt, flive, dlt, dlive, hasOwner, lacksOwner, uses, free, rfl⟩ := h
  refine Gives.bind hp (Gives.bind hr (Gives.bind (gives_worldOf.mpr ⟨⟨tm, htm, hx⟩, rfl⟩) (Gives.bind (gives_env hth) ?_)))
  refine gives_if_pos owns (gives_if_pos caps (Gives.bind (gives_get.mpr ⟨rfl, rfl⟩) (gives_if_pos ?_ (Gives.bind (gives_maskOf.mpr ⟨rfl, rfl⟩)
    (Gives.bind (gives_maskOf.mpr ⟨rfl, rfl⟩) (gives_if_pos ?_ (Gives.bind (gives_get.mpr ⟨rfl, rfl⟩) ?_)))))))
  · simp only [flt, flive, dlt, dlive, decide_true, Bool.and_self]
  · simp only [hasOwner, lacksOwner, bne_iff_ne.mpr uses, Bool.not_false, Bool.and_self]
  · simp only [free]
    exact gives_modify.mpr rfl

theorem decl_completes (wide : Bool) (o : Alu Unit) : Completes (.decl wide o) (declEffect wide o) := by
  refine Laws.completes_each (fun _ => rfl) (fun w p q h => ?_)
  obtain ⟨v, ms, p₁, dest, mb, p₂, tm, x, th, frm, p₃, hp, ha, hb, htm, hx, hth, hlt, live, above, hf, below, endorsed, hv⟩ := h
  refine Gives.bind hp (Gives.bind ha (Gives.bind hb (Gives.bind (gives_worldOf.mpr ⟨⟨tm, htm, hx⟩, rfl⟩) (Gives.bind (gives_env hth)
    (Gives.bind (gives_labelOperand hlt live) (Gives.bind (gives_maskOf.mpr ⟨rfl, rfl⟩) (gives_if_pos above (Gives.bind hf
    (gives_if_pos below (Gives.bind (gives_get.mpr ⟨rfl, rfl⟩) ?_))))))))))
  have all : (ownersOf ((ms ||| (th.ctxMask p₂ ||| p₂.maskOf th.guardLbl)) &&& ~~~p₂.maskOf (BitVec.ofNat 16 dest))).find?
      (fun k => (p₃.endorsement k x.id frm (BitVec.ofNat 16 dest)).isNone) = none := by
    rw [List.find?_eq_none]
    intro k hk
    obtain ⟨e, he⟩ := Option.isSome_iff_exists.mp (endorsed k hk)
    simp [he]
  simp only [all]
  exact Gives.bind (a := ()) (gives_modify.mpr rfl) hv

/-- Settles O13: each instruction in turn; LCEIL in ascending id, and held for the threads whose turn is not yet. -/
theorem labelInstructions : Obligations.LabelInstructions :=
  ⟨lget_completes, ljoin_completes, lceil_completes, endo_completes, decl_completes⟩

end Sys2Proof.Claims
end

section
/-! SUPPORT. Control flow (R92, R124, R125, R127, R348 to R355, R380, R392, R433, R434, R455, R469): the targets that threads give, the waits of a fence, and the traps
that threads raise in turn. -/

namespace Sys2Proof.Claims

open Sys2Proof.Machine

section
variable {w : Who} {p q : Package}

theorem team?_of_mkLabel {m : Mask} {l : Lbl} (h : Gives (mkLabel m) p l q) (t : Nat) : q.team? t = p.team? t := by
  rw [(labelFor_spec (gives_mkLabel.mp h)).1]
  rfl

theorem gives_ceilingOf {tm : Team} (h : p.team? w.team = some tm) : Gives (ceilingOf w) p (p.maskOf tm.ceiling) p :=
  Gives.bind (gives_teamOf.mpr ⟨h, rfl⟩) (gives_maskOf.mpr ⟨rfl, rfl⟩)

theorem gives_noRegion {va : Nat} {vm : Mask} {th : Thread} (h : p.thread? w = some th) (hr : th.region = none) :
    Gives (noRegion w va vm) p () p :=
  Gives.bind (gives_thr.mpr ⟨h, rfl⟩) (gives_if_neg (by simp [hr]) (gives_pure.mpr ⟨rfl, rfl⟩))

theorem gives_fenceAt {sc : Scope} (h : p.settled w sc p.nextId p.nextId = true) : Gives (fenceAt w sc) p () p :=
  Gives.bind (gives_get.mpr ⟨rfl, rfl⟩) (gives_await h)

end

/-! ### Targets -/

theorem eq_branchTo {hdr t : Nat} {off : Int} (h : targetOf hdr off t) : t = branchTo hdr off := by
  have e : (t : Int) = branchTo hdr off := Eq.trans h (wrapInt_cast 64 _).symm
  exact_mod_cast e

theorem eq_branchTo_words {hdr t : Nat} {off : BrOff} (h : targetOf hdr (match off with | .short o => o.toInt | .long o => o.toInt) t) :
    t = branchTo hdr (brWords off) := by
  cases off with
  | short o => rw [brWords, intBits_toNat]; exact eq_branchTo h
  | long o => rw [brWords, intBits_toNat]; exact eq_branchTo h

theorem goesTo_eq (outs : List (Nat × Nat)) (i : Issue) :
    (fun l => match outs.find? (fun x => x.1 == l) with | some x => x.2 | none => i.nextHdr) = goesTo outs i := by
  funext l
  unfold goesTo
  cases outs.find? (fun x => x.1 == l) <;> rfl

theorem endJump_of_endsAt {outs : List (Nat × Nat)} {q r : Package} (h : endsAt outs q r) : r = q.endJump outs := by
  obtain ⟨i, hi, rfl⟩ := h
  simp only [Package.endJump, hi]
  exact congrArg q.endClause (goesTo_eq outs i).symm

/-! ### BRA, BRC and BDQ -/

theorem bra_completes (off : BitVec 21) (s : State) (i : Issue) (t : Nat) (hi : s.here.issue = some i) (ht : targetOf i.hdr off.toInt t) :
    exec (.bra off) s = .next { s with here := s.here.endClause (fun _ => t) } := by
  rw [show exec (.bra off) s = execBra off s from rfl, execBra]
  refine lift_next ?_
  simp only [hi, intBits_toNat, eq_branchTo ht]

/-- A branch in one thread: its label, the check against the ceiling, the push and the target (R124, R125). -/
theorem gives_branchOn {w : Who} {p p₁ q : Package} {sense v : Bool} {off : BrOff} {m : Mask} {i : Issue} {th : Thread} {tm : Team} {bl : Lbl} {t : Nat}
    (hi : p.issue = some i) (hth : p.thread? w = some th) (htm : p.team? w.team = some tm)
    (hbl : Gives (mkLabel (m ||| p.maskOf th.guardLbl)) p bl p₁) (below : dominates (p₁.maskOf tm.ceiling) (p₁.maskOf bl) = true)
    (push : Gives (pushCtx w (tm.camFor i.hdr) bl) p₁ () q)
    (ht : if v != sense then targetOf i.hdr (match off with | .short o => o.toInt | .long o => o.toInt) t else t = i.nextHdr) :
    Gives (branchOn w sense off v m) p t q := by
  refine Gives.bind (gives_theIssue.mpr ⟨hi, rfl⟩) (Gives.bind (gives_teamOf.mpr ⟨htm, rfl⟩) (Gives.bind (gives_thr.mpr ⟨hth, rfl⟩)
    (Gives.bind (gives_get.mpr ⟨rfl, rfl⟩) (Gives.bind hbl (Gives.bind (gives_maskOf.mpr ⟨rfl, rfl⟩)
    (Gives.bind (gives_ceilingOf ((team?_of_mkLabel hbl _).trans htm)) (gives_if_neg (by simp [below]) (Gives.bind push (gives_pure.mpr ⟨?_, rfl⟩)))))))))
  split at ht
  next taken => rw [if_pos taken, eq_branchTo_words ht]
  next straight => rw [if_neg straight, ht]

theorem brc_completes (sense : Bool) (c : BitVec 5) (off : BrOff) : CompletesThen (.brc sense c off) (brcEffect sense c off) brcAfter := by
  refine Laws.completes_then (fun _ => rfl) (fun w p t q h => ?_) (fun _ _ _ h => h)
  obtain ⟨i, b, m, th, tm, bl, p₁, hi, hc, hth, htm, hbl, below, push, ht⟩ := h
  exact Gives.bind hc (gives_branchOn hi hth htm hbl below push ht)

/-- One popped entry as an operand: its value and its label's owners (R22). -/
theorem valueOf_single (e : LReg) : valueOf [e] = e.val.toNat := by simp [valueOf, ofWords]
theorem joinOf_single (p : Package) (e : LReg) : p.joinOf (labelsOf [e]) = p.maskOf e.lbl := by simp [labelsOf, Package.joinOf]

theorem bdq_completes (sense : Bool) (off : BrOff) : CompletesThen (.bdq sense off) (bdqEffect sense off) bdqAfter := by
  refine Laws.completes_then (fun _ => rfl) (fun w p t q h => ?_) (fun _ _ _ h => h)
  obtain ⟨e, p₀, i, th, tm, bl, p₁, lane, pop, hi, hth, htm, hbl, below, push, ht⟩ := h
  refine gives_if_neg (by simp [Who.isPilot, lane]) (Gives.bind pop (Gives.bind (gives_get.mpr ⟨rfl, rfl⟩) ?_))
  have nonzero : (valueOf [e] != 0) = decide (e.val ≠ 0) := by
    rw [valueOf_single, Bool.eq_iff_iff]
    simp [← BitVec.toNat_inj]
  rw [joinOf_single, nonzero]
  exact gives_branchOn hi hth htm hbl below push ht

/-- Settles O14: a target is the header plus the offset; the divergence record and the end of the clause are `endBranch`'s. -/
theorem branchesComplete : Obligations.BranchesComplete := ⟨bra_completes, brc_completes, bdq_completes⟩

/-! ### JMPI, RET, CALL and REFORM -/

theorem gives_jumpTarget {w : Who} {p q : Package} {a : Fld} {t : Nat} {m : Mask} {th : Thread} (hp : Passes w [src a 2] p)
    (hr : Gives (readField w 2 a none) p (t, m) q) (hth : q.thread? w = some th) (owns : dominates (th.ctxMask q) m = true) :
    Gives (jumpTarget a w) p t q := by
  have label : Gives (targetLabel w t m) q () q :=
    Gives.bind (gives_thr.mpr ⟨hth, rfl⟩) (Gives.bind (gives_get.mpr ⟨rfl, rfl⟩) (gives_if_pos owns (gives_pure.mpr ⟨rfl, rfl⟩)))
  exact Gives.bind hp (Gives.bind hr (Gives.bind label (gives_pure.mpr ⟨rfl, rfl⟩)))

theorem jmpi_completes (a : Fld) : CompletesThen (.jmpi a) (jmpiEffect a) endsAt := by
  refine Laws.completes_then (fun _ => rfl) (fun w p t q h => ?_) (fun _ _ _ => endJump_of_endsAt)
  obtain ⟨m, th, hp, hr, hth, owns⟩ := h
  exact gives_jumpTarget hp hr hth owns

theorem ret_completes (a : Fld) : CompletesThen (.ret a) (retEffect a) endsAt := by
  refine Laws.completes_then (fun _ => rfl) (fun w p t q h => ?_) (fun _ _ _ => endJump_of_endsAt)
  obtain ⟨m, th, hp, hr, hth, owns⟩ := h
  exact gives_jumpTarget hp hr hth owns

theorem call_completes (d : Fld) (off : BrOff) : CompletesThen (.call d off) (callEffect d off) callAfter := by
  refine Laws.completes_then (fun _ => rfl) (fun w p t q h => ?_) (fun outs q r h => ?_)
  · obtain ⟨i, lbl, p₁, hp, hi, hl, hv, ht⟩ := h
    exact Gives.bind hp (Gives.bind (gives_theIssue.mpr ⟨hi, rfl⟩) (Gives.bind hl (Gives.bind hv (gives_pure.mpr ⟨eq_branchTo_words ht, rfl⟩))))
  · obtain ⟨i, hi, rfl⟩ := h
    simp only [hi]

theorem reform_completes (b : BOp) (lit : Option Word) : CompletesThen (.reform b lit) (reformEffect b lit) reformAfter := by
  refine Laws.completes_then (fun _ => rfl) (fun w p k q h => ?_) (fun outs q r h => ?_)
  · obtain ⟨i, v, m, hi, last, hp, hb, hk⟩ := h
    refine Gives.bind (gives_theIssue.mpr ⟨hi, rfl⟩) (gives_if_neg (by simp [Issue.last, last]) (Gives.bind hp (Gives.bind hb
      (gives_pure.mpr ⟨BitVec.eq_of_toNat_eq ?_, rfl⟩))))
    rw [hk, BitVec.toNat_ofNat]
  · obtain ⟨i, hi, rfl⟩ := h
    have keys : (fun l => match outs.find? (fun x => x.1 == l) with | some x => x.2 | none => 0) =
        fun l => ((outs.find? (fun x => x.1 == l)).map (·.2)).getD 0 := by
      funext l
      cases outs.find? (fun x => x.1 == l) <;> rfl
    simp only [hi]
    exact congrArg _ keys.symm

/-- Settles O15: the targets that the threads' pairs give, where the context has their owners; CALL's link and REFORM's keys. -/
theorem jumpsComplete : Obligations.JumpsComplete := ⟨jmpi_completes, ret_completes, call_completes, reform_completes⟩

/-! ### TRAP and BKPT (R351, R455) -/

/-- Each thread of a list raises its trap from what the one before it left, and gives no value (R31). -/
theorem foldThreads_traps {β : Type} {body : Who → PM β} {raises : Who → Package → Cause → Nat → Mask → Lbl → Nat → Package → Prop}
    (h : ∀ w p c va vm lbl aux p₁, raises w p c va vm lbl aux p₁ → body w p = .error (.trap c va vm lbl aux none p₁) ∧ p.keep p₁ = p₁)
    {team : Nat} {ls : List Nat} {p q : Package}
    (ht : InTurn (fun w p q => ∃ c va vm lbl aux p₁ i, raises w p c va vm lbl aux p₁ ∧ p₁.issue = some i ∧
      q = p₁.raiseTrap w (i.request c va vm lbl aux)) team ls p q) (out : List (Nat × β)) :
    foldThreads body team ls p out = .done q out.reverse := by
  induction ls generalizing p with
  | nil => cases ht; rfl
  | cons l ls ih =>
    obtain ⟨r, ⟨c, va, vm, lbl, aux, p₁, i, hraise, hi, rfl⟩, ht⟩ := ht
    obtain ⟨hb, hkeep⟩ := h _ _ _ _ _ _ _ _ hraise
    simp only [foldThreads, hb, hkeep, hi]
    exact ih ht

theorem trapsEach_of_body {β : Type} {x : Instr} {body : Who → PM β} {after : List (Nat × β) → Package → Package}
    {raises : Who → Package → Cause → Nat → Mask → Lbl → Nat → Package → Prop} (hx : ∀ s, exec x s = lift (eachThen body after) s)
    (hafter : ∀ q, after [] q = q)
    (h : ∀ w p c va vm lbl aux p₁, raises w p c va vm lbl aux p₁ → body w p = .error (.trap c va vm lbl aux none p₁) ∧ p.keep p₁ = p₁) :
    TrapsEach x raises := by
  intro s i q hi ht
  rw [hx]
  refine lift_next ?_
  simp only [eachThen, hi, foldThreads_traps h ht, List.reverse_nil, hafter]

theorem keep_of_resultLabel {w : Who} {p q : Package} {m : Mask} {lbl : Lbl} (h : Gives (resultLabel w m) p lbl q) : p.keep q = q := by
  obtain ⟨g, r, hg, hl⟩ := gives_bind.mp h
  obtain rfl := reads_env hg
  rw [(labelFor_spec (gives_mkLabel.mp hl)).1]
  rfl

theorem trap_traps (code : BitVec 7) : TrapsEach (.trap code) (trapRaises code) := by
  refine trapsEach_of_body (after := fun _ q => q) (fun _ => rfl) (fun _ => rfl) (fun w p c va vm lbl aux p₁ h => ?_)
  obtain ⟨rfl, rfl, rfl, rfl, hl⟩ := h
  exact ⟨Laws.ok_bind hl, keep_of_resultLabel hl⟩

section
variable {w : Who} {p : Package} {tm : Team} {x : World}

/-- BKPT reads its team, its world and whether device debug has the team. -/
theorem bkpt_reads {β : Type} {f : Team → World → Package → PM β} (htm : p.team? w.team = some tm) (hx : p.world? tm.world = some x) :
    (do let tm ← teamOf w; let wd ← worldOf w; let p ← get; f tm wd p) p = f tm x p p := by
  rw [Laws.ok_bind (gives_teamOf.mpr ⟨htm, rfl⟩), Laws.ok_bind (gives_worldOf.mpr ⟨⟨tm, htm, hx⟩, rfl⟩), Laws.ok_bind (gives_get.mpr ⟨rfl, rfl⟩)]

end

theorem bkpt_traps (code : BitVec 7) : TrapsEach (.bkpt code) (bkptRaises code) := by
  refine trapsEach_of_body (fun _ => rfl) (fun q => ?_) (fun w p c va vm lbl aux p₁ h => ?_)
  · cases q.issue <;> rfl
  · obtain ⟨rfl, rfl, rfl, rfl, rfl, rfl, tm, x, htm, hx, free⟩ := h
    refine ⟨?_, keep_self _⟩
    rw [bkpt_reads htm hx]
    simp only [free]
    rfl

theorem bkpt_halts (code : BitVec 7) : CompletesThen (.bkpt code) bkptHaltEffect bkptHaltAfter := by
  refine Laws.completes_then (fun _ => rfl) (fun w p b q h => ?_) (fun outs q r h => ?_)
  · obtain ⟨rfl, tm, x, htm, hx, debugs, stop⟩ := h
    rw [bkpt_reads htm hx]
    simp only [debugs, stop]
    rfl
  · obtain ⟨i, hi, ⟨rfl, rfl⟩ | ⟨some, rfl⟩⟩ := h
    · simp only [hi]
      rfl
    · simp only [hi, List.isEmpty_iff, some, if_false, Package.haltTeam, beq_iff_eq]

/-- Settles O16: TRAP and BKPT raise their traps thread by thread; under device debug the threads halt and the team with them. -/
theorem softwareTrapsAreTaken : Obligations.SoftwareTrapsAreTaken := ⟨trap_traps, bkpt_traps, bkpt_halts⟩

end Sys2Proof.Claims
end

section
/-! SUPPORT. Special registers, the ends of threads, barriers, the decision queue, the window and the extended set (R49, R50, R76, R154, R331, R348, R374 to R376,
R380, R395, R396, R407, R415, R447, R453, R460 to R463, R469). -/

namespace Sys2Proof.Claims

open Sys2Proof.Machine

/-! ### MFSR, MTSR, TIME and SNAP -/

theorem mfsr_completes (d : Fld) (n : BitVec 7) : Completes (.mfsr d n) (mfsrEffect d n) := by
  refine Laws.completes_each (fun _ => rfl) (fun w p q h => ?_)
  obtain ⟨v, m, _, _, _, hp, hs, hl, hv⟩ := h
  exact Gives.bind hp (Gives.bind hs (Gives.bind hl hv))

theorem fpctl_of (v : Nat) : BitVec.ofNat 32 v &&& 0x1FFF#32 = BitVec.ofNat 32 (v % 2 ^ 13) := by
  apply BitVec.eq_of_toNat_eq
  rw [BitVec.toNat_and, show (0x1FFF#32).toNat = 2 ^ 13 - 1 by rfl, Nat.and_two_pow_sub_one_eq_mod, BitVec.toNat_ofNat, BitVec.toNat_ofNat]
  omega

theorem seedOf_of (v : Nat) : seedOf (BitVec.ofNat 32 v) = if v % 2 ^ 32 = 0 then 0x6D2B79F5#32 else BitVec.ofNat 32 v := by
  have zero : BitVec.ofNat 32 v = 0 ↔ v % 2 ^ 32 = 0 := by
    rw [← BitVec.toNat_inj, BitVec.toNat_ofNat]
    rfl
  simp only [seedOf, zero]

theorem gives_targetLabel {w : Who} {p : Package} {v : Nat} {m : Mask} {th : Thread} (hth : p.thread? w = some th)
    (owns : dominates (th.ctxMask p) m = true) : Gives (targetLabel w v m) p () p :=
  Gives.bind (gives_thr.mpr ⟨hth, rfl⟩) (Gives.bind (gives_get.mpr ⟨rfl, rfl⟩) (gives_if_pos owns (gives_pure.mpr ⟨rfl, rfl⟩)))

theorem mtsr_completes (a : Fld) (n : BitVec 7) (lit : Option Word) : Completes (.mtsr a n lit) (mtsrEffect a n lit) := by
  refine Laws.completes_each (fun _ => rfl) (fun w p q h => ?_)
  obtain ⟨th, v, m, p₁, hp, hth, hr, h⟩ := h
  refine Gives.bind hp (Gives.bind (gives_thr.mpr ⟨hth, rfl⟩) ?_)
  rcases h with ⟨hk, hv, lbl, p₂, hl, rfl⟩ | ⟨hk, lbl, p₂, hl, rfl⟩ | ⟨hk, trap, rfl⟩ | ⟨hk, trap, ⟨t, ht, owns⟩, rfl⟩ | ⟨hk, trap, rfl⟩ |
    ⟨hk, trap, rfl⟩ | ⟨hk, trap, rfl⟩
  case inl =>
    simp only [hk] at hr ⊢
    refine gives_if_neg (by decide) (gives_if_neg (by simp) (Gives.bind hr (gives_if_neg ?_ (gives_if_pos (by decide) (Gives.bind hl ?_)))))
    · simpa using hv
    · rw [fpctl_of]
      exact gives_setThr.mpr rfl
  case inr.inl =>
    simp only [hk] at hr ⊢
    refine gives_if_neg (by decide) (gives_if_neg (by simp) (Gives.bind hr (gives_if_neg (by simp) (gives_if_neg (by decide) (gives_if_pos (by decide)
      (Gives.bind hl ?_))))))
    rw [seedOf_of]
    exact gives_setThr.mpr rfl
  case inr.inr.inr.inl =>
    have inTrap : th.trap.isNone = false := by simpa using trap
    simp only [hk] at hr ⊢
    exact gives_if_neg (by decide) (gives_if_neg (by simp [inTrap]) (Gives.bind hr (gives_if_neg (by simp) (gives_if_neg (by decide)
      (gives_if_neg (by decide) (gives_if_pos (by decide) (Gives.bind (gives_targetLabel ht owns) (gives_setThr.mpr rfl))))))))
  case inr.inr.inl | inr.inr.inr.inr.inl | inr.inr.inr.inr.inr.inl | inr.inr.inr.inr.inr.inr =>
    have inTrap : th.trap.isNone = false := by simpa using trap
    simp only [hk] at hr ⊢
    exact gives_if_neg (by decide) (gives_if_neg (by simp [inTrap]) (Gives.bind hr (gives_if_neg (by simp) (gives_if_neg (by decide)
      (gives_if_neg (by decide) (gives_if_neg (by decide) (gives_setThr.mpr rfl)))))))

theorem time_completes (d : Fld) (wait : Bool) : Completes (.time d wait) (timeEffect d wait) := by
  refine Laws.completes_each (fun _ => rfl) (fun w p q h => ?_)
  obtain ⟨i, th, lbl, p₁, hp, hi, hth, settled, hl, hv⟩ := h
  refine Gives.bind hp (Gives.bind (gives_theIssue.mpr ⟨hi, rfl⟩) (Gives.bind (gives_get.mpr ⟨rfl, rfl⟩) ?_))
  cases wait with
  | false => exact Gives.bind hl hv
  | true =>
    obtain ⟨region, done⟩ := settled rfl
    exact Gives.bind (gives_noRegion hth region) (Gives.bind (gives_fenceAt done) (Gives.bind hl hv))

theorem snap_completes : Completes .snap snapEffect := by
  refine Laws.completes_each (fun _ => rfl) (fun w p q h => ?_)
  obtain ⟨tm, x, i, htm, hx, hi, allowed, hq⟩ := h
  refine Gives.bind (gives_worldOf.mpr ⟨⟨tm, htm, hx⟩, rfl⟩) (Gives.bind (gives_get.mpr ⟨rfl, rfl⟩) (gives_if_neg ?_ ?_))
  · rcases allowed with h | h <;> simp [h]
  · split at hq
    next armed =>
      exact gives_if_pos armed (Gives.bind (gives_theIssue.mpr ⟨hi, rfl⟩) (Gives.bind (r := _) (a := ()) (gives_modify.mpr rfl) (gives_setThr.mpr hq)))
    next idle => exact gives_if_neg idle (gives_pure.mpr ⟨rfl, hq⟩)

/-- Settles O19: each instruction by the registers that it names. -/
theorem specialRegistersComplete : Obligations.SpecialRegistersComplete := ⟨mfsr_completes, mtsr_completes, time_completes, snap_completes⟩

/-! ### EXIT, KILL, YIELD and BAR -/

theorem exit_completes : CompletesThen .exit exitEffect exitAfter := by
  refine Laws.completes_then (fun _ => rfl) (fun w p b q h => ?_) (fun outs q r h => ?_)
  · obtain ⟨rfl, round, result⟩ := h
    exact Gives.bind (gives_get.mpr ⟨rfl, rfl⟩) (Gives.bind (gives_await (by simp [round])) (gives_await (by simp [result])))
  · obtain ⟨i, hi, rfl⟩ := h
    simp only [hi]

theorem killTeam_completes (s : State) (i : Issue) (hi : s.here.issue = some i) (active : i.active ≠ []) :
    exec .killTeam s = .next { s with here := s.here.killTeam i.team } := by
  rw [show exec .killTeam s = execKillTeam s from rfl, execKillTeam]
  refine lift_next ?_
  simp only [hi, List.isEmpty_iff, active, if_false]

theorem killGrid_completes (s : State) (i : Issue) (tm : Team) (hi : s.here.issue = some i) (active : i.active ≠ [])
    (htm : s.here.team? i.team = some tm) : exec .killGrid s = .next { s with here := (s.here.killTeam i.team).killGrid tm.grid 1 } := by
  rw [show exec .killGrid s = execKillGrid s from rfl, execKillGrid]
  refine lift_next ?_
  simp only [hi, List.isEmpty_iff, active, if_false, htm]

theorem barFence_eq (sc : BarScope) : barFence sc = if sc = .team then .team else .pkg := by cases sc <;> rfl

theorem bar_completes (lanes : Bool) (sc : BarScope) : CompletesThen (.bar lanes sc) (barEffect lanes sc) barAfter := by
  refine Laws.completes_then (fun _ => rfl) (fun w p b q h => ?_) (fun outs q r h => ?_)
  · obtain ⟨i, th, hi, last, hth, region, settled, rfl⟩ := h
    rw [← barFence_eq] at settled
    exact Gives.bind (gives_theIssue.mpr ⟨hi, rfl⟩) (gives_if_neg (by simp [Issue.last, last]) (Gives.bind (gives_noRegion hth region)
      (Gives.bind (gives_fenceAt settled) (gives_setTeam.mpr rfl))))
  · obtain ⟨i, hi, rfl⟩ := h
    simp only [hi]

theorem yield_completes : Completes .yield yieldEffect := Laws.completes_each (fun _ => rfl) (fun _ _ _ h => gives_setThr.mpr h)

/-- Settles O20: what each thread waits for, and then the end of the threads, of the teams, or of the barrier. -/
theorem threadEndsAndBarriers : Obligations.ThreadEndsAndBarriers :=
  ⟨exit_completes, killTeam_completes, killGrid_completes, yield_completes, bar_completes⟩

/-! ### The decision queue, the window and the extended set -/

theorem dqpush_completes (b : BOp) (rel : Bool) (lit : Option Word) : Completes (.dqpush b rel lit) (dqpushEffect b rel lit) := by
  refine Laws.completes_each (fun _ => rfl) (fun w p q h => ?_)
  obtain ⟨v, m, p₁, tm, lbl, p₂, pilot, hp, hb, settled, htm, room, hl, rfl⟩ := h
  refine gives_if_neg (by simp [Who.isPilot, pilot]) (Gives.bind hp (Gives.bind hb ?_))
  have fenced : if rel = true then Gives (fenceAt w .pkg) p₁ () p₁ else p₁ = p₁ := by
    split
    next h => exact gives_fenceAt (settled h)
    next => rfl
  exact gives_guarded fenced (Gives.bind (gives_teamOf.mpr ⟨htm, rfl⟩) (Gives.bind (gives_await (by simp [room])) (Gives.bind hl (gives_setTeam.mpr rfl))))

theorem dqpop_completes (d : Fld) : Completes (.dqpop d) (dqpopEffect d) := by
  refine Laws.completes_each (fun _ => rfl) (fun w p q h => ?_)
  obtain ⟨e, p₁, lbl, p₂, lane, hp, pop, hl, hv⟩ := h
  refine Gives.bind hp (gives_if_neg (by simp [Who.isPilot, lane]) (Gives.bind pop (Gives.bind (gives_get.mpr ⟨rfl, rfl⟩) ?_)))
  rw [valueOf_single, joinOf_single]
  exact Gives.bind hl hv

theorem winb_completes (k : BitVec 4) : Completes (.winb k) (winbEffect k) := by
  refine Laws.completes_each (fun _ => rfl) (fun w p q h => ?_)
  obtain ⟨tm, lane, htm, inside, holds, rfl⟩ := h
  refine gives_if_neg (by simp [Who.isPilot, lane]) (Gives.bind (gives_teamOf.mpr ⟨htm, rfl⟩) (gives_if_neg (by omega) (gives_if_neg ?_
    (gives_setThr.mpr rfl))))
  simpa using holds

theorem xacq_completes : Completes .xacq xacqEffect := by
  refine Laws.completes_each (fun _ => rfl) (fun w p q h => ?_)
  obtain ⟨tm, lane, htm, hnx, h⟩ := h
  refine gives_if_neg (by simp [Who.isPilot, lane]) (Gives.bind (gives_teamOf.mpr ⟨htm, rfl⟩) (gives_if_neg hnx ?_))
  rcases h with ⟨hx, rfl⟩ | ⟨e, hx, own, rfl⟩ | ⟨e, hx, free, rfl⟩
  · simp only [hx]
    exact gives_pure.mpr ⟨rfl, rfl⟩
  · simp only [hx]
    exact gives_if_pos (by simp [own]) (gives_pure.mpr ⟨rfl, rfl⟩)
  · simp only [hx]
    exact gives_if_neg (by simp [free]) (gives_if_neg (by simp [free]) (gives_setTeam.mpr rfl))

theorem xrel_completes : Completes .xrel xrelEffect := by
  refine Laws.completes_each (fun _ => rfl) (fun w p q h => ?_)
  obtain ⟨tm, th, lane, htm, hth, hnx, low, h⟩ := h
  refine gives_if_neg (by simp [Who.isPilot, lane]) (Gives.bind (gives_teamOf.mpr ⟨htm, rfl⟩) (Gives.bind (gives_thr.mpr ⟨hth, rfl⟩)
    (Gives.bind (gives_get.mpr ⟨rfl, rfl⟩) (gives_if_neg hnx (gives_if_neg (by omega) ?_)))))
  rcases h with ⟨free, rfl⟩ | ⟨holds, locked, owed, rfl⟩
  · exact gives_if_pos (by simp [free]) (gives_pure.mpr ⟨rfl, rfl⟩)
  · exact gives_if_neg (by simp [holds]) (Gives.bind (gives_await (by simp [locked])) (Gives.bind (gives_await (by simp [owed])) (gives_modify.mpr rfl)))

/-- Settles O21: each instruction in a thread that need not wait. -/
theorem queueAndWindowComplete : Obligations.QueueAndWindowComplete :=
  ⟨dqpush_completes, dqpop_completes, winb_completes, xacq_completes, xrel_completes⟩

end Sys2Proof.Claims
end

section
/-! SUPPORT. What the steps of a memory access leave as it is (R211 to R217, R240, R241, R307): a package seen without the fields that walks or caches may
change, and the steps that keep what is seen; and the steps that every access shares. -/

namespace Sys2Proof.Claims

open Sys2Proof.Machine

/-! ### Steps that keep a part of the package -/

/-- A step keeps what `part` shows of the package. -/
def Spares {α β : Type} (part : Package → β) (m : PM α) : Prop := ∀ ⦃p a q⦄, Gives m p a q → part q = part p

section
variable {α β γ : Type} {part : Package → γ}

theorem Reads.spares {m : PM α} (h : Reads m) : Spares part m := fun _ _ _ hm => congrArg part (h hm)

theorem Spares.bind {m : PM α} {f : α → PM β} (h : Spares part m) (h' : ∀ a, Spares part (f a)) : Spares part (m >>= f) := by
  intro p b q hb
  obtain ⟨a, r, ha, hb⟩ := gives_bind.mp hb
  exact (h' a hb).trans (h ha)

theorem Spares.ite {c : Prop} [Decidable c] {m m' : PM α} (h : Spares part m) (h' : Spares part m') : Spares part (if c then m else m') := by
  split
  · exact h
  · exact h'

theorem spares_pure (a : α) : Spares part (pure a : PM α) := (reads_pure a).spares

theorem spares_modify {f : Package → Package} (h : ∀ p, part (f p) = part p) : Spares part (modify f) :=
  fun p _ _ hm => (congrArg part (gives_modify.mp hm)).trans (h p)

theorem spares_modifyGet {f : Package → α × Package} (h : ∀ p, part (f p).2 = part p) : Spares part (modifyGet f : PM α) :=
  fun p _ _ hm => (congrArg (fun r : Except Stop (α × Package) => match r with | .ok x => part x.2 | .error _ => part p) hm).symm.trans (h p)

/-- A step that stops gives nothing. -/
theorem spares_stop {s : Package → Stop} : Spares part (fun p => .error (s p) : PM α) := fun _ _ _ hm => nomatch hm

theorem spares_trap {c : Cause} {va : Nat} {lbl : Lbl} {aux : Nat} {vm : Mask} : Spares part (trap c va lbl aux vm : PM α) := spares_stop

theorem spares_wait {s : Stall} : Spares part (waitFor s : PM α) := spares_stop

end

/-! ### Translation, reachability and ownership -/

/-- A package seen without its cores, walk caches, memory, sectors, code lines and picks, which taking a translation may change (R213, R217). -/
def unwalked (p : Package) : Package := { p with cores := [], walks := [], mem := [], epochs := [], code := [], picks := [] }

theorem unwalked_setLane (p : Package) (core lane : Nat) (x : Xlat) : unwalked (p.setLane core lane x) = unwalked p := by
  unfold Package.setLane Package.setCore
  split <;> rfl

theorem unwalked_setCore (p : Package) (core : Nat) (f : Core → Core) : unwalked (p.setCore core f) = unwalked p := by
  unfold Package.setCore
  split <;> rfl

theorem unwalked_pick (p : Package) (n : Nat) : unwalked (p.pick n).2 = unwalked p := by
  rw [Package.pick_eq]
  rfl

theorem unwalked_cacheXlat (p : Package) (core lane : Nat) (x : Xlat) : unwalked (p.cacheXlat core lane x) = unwalked p := by
  unfold Package.cacheXlat
  dsimp only
  split
  · exact (unwalked_setCore _ _ _).trans (unwalked_setLane _ _ _ _)
  · exact (unwalked_setCore _ _ _).trans ((unwalked_pick _ _).trans (unwalked_setLane _ _ _ _))

theorem unwalked_markPte (p : Package) (x : Xlat) (store : Bool) : unwalked (p.markPte x store) = unwalked p := by
  unfold Package.markPte
  dsimp only
  split_ifs <;> rfl

theorem spares_translate (w : Who) (va : Nat) (vm : Mask) (use : Use) : Spares unwalked (translate w va vm use) := by
  refine reads_teamOf.spares.bind fun tm => reads_get.spares.bind fun p => ?_
  dsimp only
  split
  · exact spares_stop
  · have permitted (x : Xlat) : Spares unwalked (if use.reads && !x.r then prot 0x40 va vm else if use.writes && !x.w then prot 0x41 va vm
        else if use == .fetch && !x.x then prot 0x42 va vm
        else do modify (fun p => p.markPte x (use == .store || use == .atomic)); pure x : PM Xlat) :=
      .ite spares_trap (.ite spares_trap (.ite spares_trap ((spares_modify fun _ => unwalked_markPte _ _ _).bind fun _ => spares_pure _)))
    split
    · exact (spares_modify fun _ => unwalked_setLane _ _ _ _).bind fun _ => (spares_pure _).bind permitted
    · split
      · exact spares_stop.bind permitted
      · exact spares_trap.bind permitted
      · split
        · exact spares_trap.bind permitted
        · refine (spares_modifyGet fun _ => unwalked_pick _ _).bind fun keep => (spares_modify fun q => ?_).bind fun _ =>
            (spares_modify fun _ => unwalked_cacheXlat _ _ _ _).bind fun _ => (spares_pure _).bind permitted
          split <;> rfl

theorem reads_worldOf {w : Who} : Reads (worldOf w) := fun _ _ _ h => (gives_worldOf.mp h).2

theorem spares_reach (w : Who) (va : Nat) (vm : Mask) (x : Xlat) : Spares unwalked (reach w va vm x) := by
  refine reads_worldOf.spares.bind fun wd => reads_get.spares.bind fun p => .ite (spares_pure _) ?_
  split
  · exact spares_trap
  · exact spares_wait
  · exact spares_pure _

theorem spares_access (others : List Package) (w : Who) (va : Nat) (vm : Mask) (use : Use) : Spares unwalked (access others w va vm use) :=
  (spares_translate w va vm use).bind fun x => (spares_reach w va vm x).bind fun _ => reads_get.spares.bind fun _ => reads_teamOf.spares.bind fun _ =>
    .ite (spares_pure _) spares_trap

/-! ### Lines -/

/-- A package seen without what homes and caches hold of lines. -/
def uncached (p : Package) : Package := { p with lines := [], horizons := [], pods := [], picks := [], mans := [], homeAt := 0 }

theorem uncached_putLine (p : Package) (l : Line) : uncached (p.putLine l) = uncached p := by
  unfold Package.putLine
  split <;> rfl

theorem uncached_evictL2 (p : Package) (line : Nat) : uncached (p.evictL2 line) = uncached p := by
  unfold Package.evictL2
  dsimp only
  split_ifs
  · rfl
  · exact uncached_putLine p _
  · exact uncached_putLine p _

theorem uncached_pick (p : Package) (n : Nat) : uncached (p.pick n).2 = uncached p := by
  rw [Package.pick_eq]
  rfl

theorem uncached_roomDie (p : Package) (line : Nat) : uncached (p.roomDie line) = uncached p := by
  have evicted (n a : Nat) : uncached ((p.pick n).2.evictL2 a) = uncached p := (uncached_evictL2 _ _).trans (uncached_pick _ _)
  unfold Package.roomDie
  dsimp only
  generalize (if p.carveOut = true then Config.l2Lines - Config.carveLines else Config.l2Lines) = most
  split
  · rfl
  · split
    · split
      · exact uncached_pick p _
      · exact evicted _ _
    · exact evicted _ _

theorem uncached_setLine (p : Package) (l : Line) : uncached (p.setLine l) = uncached p := by
  refine (uncached_putLine _ _).trans ?_
  unfold Package.roomL2
  split
  · rfl
  · exact uncached_roomDie _ _

theorem uncached_recordScope_of_match {p : Package} {world pa tag : Nat} {s : Scope} (h : (p.lineIn (lineOf pa)).mismatch tag s = false) :
    uncached (p.recordScope world pa tag s) = uncached p := by
  unfold Package.recordScope
  dsimp only
  rw [if_neg (by simp [h])]
  exact uncached_setLine _ _

theorem spares_scopeCheck (w : Who) (va pa : Nat) (vm : Mask) (s : Scope) : Spares uncached (scopeCheck w va pa vm s) := by
  intro p done q h
  obtain ⟨tm, r, htm, hw⟩ := gives_bind.mp h
  obtain ⟨wd, r', hwd, hp⟩ := gives_bind.mp hw
  obtain ⟨_, _, hg, hs⟩ := gives_bind.mp hp
  obtain ⟨rfl, rfl⟩ := gives_get.mp hg
  rw [← reads_teamOf htm, ← reads_worldOf hwd]
  dsimp only at hs
  split at hs
  · split at hs
    · cases hs
    next ok =>
      obtain ⟨_, _, hm, hr⟩ := gives_bind.mp hs
      obtain rfl := gives_modify.mp hm
      obtain ⟨-, rfl⟩ := gives_pure.mp hr
      exact uncached_recordScope_of_match (by simpa using ok)
  · obtain ⟨-, rfl⟩ := gives_pure.mp hs
    rfl

end Sys2Proof.Claims
end

section
/-! SUPPORT. The steps that every memory access shares: the address, the orders it waits for, the scope record and the outstanding access (R21, R85, R91, R222, R236,
R237, R241), and loads (R400 to R402). -/

namespace Sys2Proof.Claims

open Sys2Proof.Machine

theorem gives_modify_bind {β : Type} {f : Package → Package} {g : Unit → PM β} {p q : Package} {b : β} (h : Gives (g ()) (f p) b q) :
    Gives (modify f >>= g) p b q := Gives.bind (gives_modify.mpr rfl) h

theorem completesWith_each {x : Instr} {body : State → Who → PM Unit} {eff : List Package → Who → Package → Package → Prop}
    (hx : ∀ s, exec x s = lift (each (body s)) s) (h : ∀ s w p q, eff s.others w p q → Gives (body s w) p () q) : CompletesWith x eff := by
  intro s i q hi ht
  rw [hx]
  exact lift_next (each_inTurn (h s) hi ht)

section
variable {w : Who} {p q : Package}

theorem Addressed.gives {a : Fld} {off : Option Word} {va : Nat} {la : Mask} (h : Addressed w a off p va la q) :
    Gives (effAddr w a off) p (va, la) q := by
  obtain ⟨base, hb, hv⟩ := h
  refine Gives.bind hb (gives_pure.mpr ⟨Prod.ext ?_ rfl, rfl⟩)
  have offset : intBits 32 (off.getD 0).toNat = (off.getD 0).toInt := intBits_toNat _
  have wrapped := wrapInt_cast 64 (off.getD 0).toInt
  rw [offset]
  dsimp only
  omega

theorem gives_noHeld {va : Nat} {vm : Mask} (h : nothingHeld w p) : Gives (noHeld w va vm) p () p := by
  obtain ⟨th, hth, none⟩ := h
  refine Gives.bind (gives_thr.mpr ⟨hth, rfl⟩) (gives_if_neg ?_ (gives_pure.mpr ⟨rfl, rfl⟩))
  cases hr : th.region with
  | none => simp [Thread.buffering, hr]
  | some r =>
    cases ht : th.trap with
    | none => simpa [Thread.buffering, hr, ht] using none
    | some t => simp [Thread.buffering, ht]

theorem gives_gate (h : p.acquiring w = false) : Gives (gate w) p () p :=
  Gives.bind (gives_get.mpr ⟨rfl, rfl⟩) (gives_await (by simp [h]))

theorem gives_release {o : MemOrder} {s : Scope} (h : orderly w o s p) : Gives (release w o s) p () p := by
  unfold release
  split
  next rel => exact gives_fenceAt (h.2 rel)
  next => exact gives_pure.mpr ⟨rfl, rfl⟩

theorem Outstanding.gives {op : AccOp} (h : Outstanding w op p q) : Gives (addAcc w op) p p.nextId q := by
  obtain ⟨i, tm, th, hi, htm, hth, rfl⟩ := h
  exact Gives.bind (gives_theIssue.mpr ⟨hi, rfl⟩) (Gives.bind (gives_teamOf.mpr ⟨htm, rfl⟩) (Gives.bind (gives_thr.mpr ⟨hth, rfl⟩) rfl))

theorem ScopeJudged.gives {va pa : Nat} {la : Mask} {s : Scope} {now : Prop} [Decidable now] {done : Bool}
    (h : ScopeJudged w va pa la s now p done q) : Gives (if now then scopeCheck w va pa la s else pure true) p done q := by
  obtain ⟨yes, h⟩ | ⟨no, rfl, rfl⟩ := h
  · exact gives_if_pos yes h
  · exact gives_if_neg no (gives_pure.mpr ⟨rfl, rfl⟩)

/-- Taking a translation leaves teams and worlds as they are. -/
theorem same_of_access {others : List Package} {va : Nat} {vm : Mask} {use : Use} {x : Xlat × Nat × Option Nat}
    (h : Gives (access others w va vm use) p x q) : q.teams = p.teams ∧ q.worlds = p.worlds := by
  have seen := spares_access _ _ _ _ _ h
  have teams := congrArg Package.teams seen
  have worlds := congrArg Package.worlds seen
  exact ⟨teams, worlds⟩

/-- So does a judgement of a scope that traps nothing. -/
theorem ScopeJudged.same {va pa : Nat} {la : Mask} {s : Scope} {now : Prop} {done : Bool} (h : ScopeJudged w va pa la s now p done q) :
    q.teams = p.teams ∧ q.worlds = p.worlds := by
  obtain ⟨-, h⟩ | ⟨-, -, rfl⟩ := h
  · have seen := spares_scopeCheck _ _ _ _ _ h
    have teams := congrArg Package.teams seen
    have worlds := congrArg Package.worlds seen
    exact ⟨teams, worlds⟩
  · exact ⟨rfl, rfl⟩

theorem team?_of_teams (h : q.teams = p.teams) (t : Nat) : q.team? t = p.team? t := by simp only [Package.team?, h]

theorem thread?_of_teams (h : q.teams = p.teams) (w : Who) : q.thread? w = p.thread? w := by simp only [Package.thread?, team?_of_teams h]

theorem world?_of_worlds (h : q.worlds = p.worlds) (k : Nat) : q.world? k = p.world? k := by simp only [Package.world?, h]

end

/-! ### LD -/

theorem ld_body {m : MemOp Width} {others : List Package} {w : Who} {p q : Package} (h : loadEffect m others w p q) :
    Gives (ldBody others m w) p () q := by
  obtain ⟨va, la, p₁, th, x, pa, home, p₂, tm, wd, done, p₃, d, g, p₄, hp, ha, free, hth, out, canon, inLine, order, hacc, htm, hwd, judged, apart, hg, hd,
    owed, hq⟩ := h
  refine Gives.bind hp (Gives.bind ha.gives (Gives.bind (gives_noHeld free) (Gives.bind (gives_thr.mpr ⟨hth, rfl⟩) (gives_if_neg ?_ (gives_if_neg ?_
    (gives_if_neg (by omega) (Gives.bind (gives_gate order.1) (Gives.bind (gives_release order) (Gives.bind hacc ?_)))))))))
  · cases ho : m.order <;> simp [out, ho]
  · simp [canon]
  · obtain ⟨teams, worlds⟩ : p₃.teams = p₁.teams ∧ p₃.worlds = p₂.worlds := by
      cases home with
      | none => exact ⟨judged.same.1.trans (same_of_access hacc).1, judged.same.2⟩
      | some k =>
        obtain ⟨-, rfl, -⟩ := judged
        exact ⟨(same_of_access hacc).1, rfl⟩
    suffices put : Gives (putLoad m w va la x pa home done) p₃ () q by
      cases home with
      | none => exact gives_ite_bind judged.gives put
      | some k =>
        obtain ⟨rfl, rfl, remote⟩ := judged
        refine gives_guarded ?_ put
        split
        · exact remote ‹_›
        · rfl
    subst hq
    have hth₃ := (thread?_of_teams teams w).trans hth
    have htm₃ : p₃.team? w.team = some tm := by
      rw [team?_of_teams teams, ← team?_of_teams (same_of_access hacc).1]
      exact htm
    refine Gives.bind (gives_thr.mpr ⟨hth₃, rfl⟩) (Gives.bind (gives_teamOf.mpr ⟨htm₃, rfl⟩) (Gives.bind (gives_worldOf.mpr ⟨⟨tm, htm₃, (world?_of_worlds worlds _).trans hwd⟩, rfl⟩)
        (Gives.bind hg (Gives.bind (gives_get.mpr ⟨rfl, rfl⟩) (Gives.bind (gives_await (by simp [apart])) (Gives.bind hd ?_))))))
    rw [show (if x.mode = 3 then Policy.l2 else m.policy) = if (x.mode == 3) = true then .l2 else m.policy by simp only [beq_iff_eq]] at owed ⊢
    refine Gives.bind owed.gives (gives_modify_bind ?_)
    cases home with
    | none => exact gives_pure.mpr ⟨rfl, rfl⟩
    | some k =>
      dsimp only
      split <;> exact gives_modify.mpr rfl

theorem ld_completes (m : MemOp Width) (s : State) (i : Issue) (q : Package) (hi : s.here.issue = some i)
    (h : InTurn (loadEffect m s.others) i.team i.active s.here q) : exec (.ld m) s = .next (({ s with here := q } : State).recordRemote s.here.nextId) := by
  rw [show exec (.ld m) s = execLd m s from rfl, execLd, lift_next (each_inTurn (body := ldBody s.others m) (fun _ _ _ => ld_body) hi h)]

theorem recordRemote_one {s : State} {n k : Nat} {a : Acc} {o : LoadOp} {sc : Scope} {tm : Team}
    (one : s.here.accs.filter (fun a => decide (n ≤ a.id)) = [a]) (op : a.op = .load o) (peer : o.peer = some k) (scope : o.scope = some sc)
    (htm : s.here.team? a.team = some tm) : s.recordRemote n = { s with
      here := s.here.setAcc a.id (fun a => { a with op := .load { o with scope := none } })
      others := s.others.map (fun q => if q.phys = k then q.recordScope tm.world o.pa tm.tag sc else q) } := by
  simp only [State.recordRemote, one, List.foldl_cons, List.foldl_nil, op, htm, peer, scope, mapIf, beq_iff_eq]

theorem recordRemote_none {s : State} {n : Nat} (none : ∀ a ∈ s.here.accs, n ≤ a.id → ∀ o, a.op = .load o → o.peer = none ∨ o.scope = none) :
    s.recordRemote n = s := by
  refine (List.foldl_ext _ (fun s _ => s) s fun t a ha => ?_).trans (List.foldl_fixed _)
  obtain ⟨mem, new⟩ := List.mem_filter.mp ha
  split
  next o tm op htm =>
    rcases none a mem (of_decide_eq_true new) o op with h | h <;> simp [h]
  next => rfl

/-- Settles O23: each thread's load becomes outstanding; a scope record that is judged at issue is written at its home. -/
theorem loadsBecomeOutstanding : Obligations.LoadsBecomeOutstanding :=
  ⟨ld_completes, fun _ _ _ _ _ _ _ => recordRemote_one, fun _ _ => recordRemote_none⟩

end Sys2Proof.Claims
end

section
/-! SUPPORT. Stores (R448 to R450): into the region's buffer, or on their way to the home. -/

namespace Sys2Proof.Claims

open Sys2Proof.Machine

section
variable {w : Who} {p q : Package}

theorem teams_of_mkLabel {m : Mask} {l : Lbl} (h : Gives (mkLabel m) p l q) : q.teams = p.teams := by
  rw [(labelFor_spec (gives_mkLabel.mp h)).1]

theorem teams_of_resultLabel {m : Mask} {l : Lbl} (h : Gives (resultLabel w m) p l q) : q.teams = p.teams := by
  obtain ⟨g, r, hg, hl⟩ := gives_bind.mp h
  obtain rfl := reads_env hg
  exact teams_of_mkLabel hl

/-- The thread's buffer takes one more entry (R221). -/
theorem gives_buffer {th : Thread} {r : Region} {e : RsbEntry} {vm : Mask} (hth : p.thread? w = some th) (hr : th.region = some r)
    (room : r.rsb.length < Config.rsbSize) :
    Gives (buffer w e vm) p () (p.setThread w (fun th => { th with region := some { r with rsb := r.rsb ++ [e] } })) := by
  refine Gives.bind (gives_thr.mpr ⟨hth, rfl⟩) ?_
  simp only [hr]
  exact gives_if_neg (by omega) (gives_setThr.mpr rfl)

theorem gives_flagNow {i : Issue} (hi : p.issue = some i) : Gives (flagNow w) p () (p.flagDone w (flagOfIndex i.hdrWord i.long)) :=
  Gives.bind (gives_theIssue.mpr ⟨hi, rfl⟩) (gives_modify.mpr rfl)

end

theorem st_body {m : MemOp Width} {others : List Package} {w : Who} {p q : Package} (h : storeEffect m others w p q) :
    Gives (stBody others m w) p () q := by
  obtain ⟨v, lv, p₀, va, la, p₁, th, hp, hv, ha, free, hth, h⟩ := h
  refine Gives.bind hp (Gives.bind hv (Gives.bind ha.gives (Gives.bind (gives_thr.mpr ⟨hth, rfl⟩) (Gives.bind (gives_noHeld free) ?_))))
  split at h
  next buffering =>
    obtain ⟨need, p₂, r, i, hl, hr, room, hi, rfl⟩ := h
    have hth₂ := (thread?_of_teams (teams_of_resultLabel hl) w).trans hth
    exact gives_if_pos buffering (Gives.bind hl (Gives.bind (gives_get.mpr ⟨rfl, rfl⟩) (Gives.bind (gives_buffer hth₂ hr room)
      (gives_flagNow (i := i) ((Package.setThread_issue _ _ _).trans hi)))))
  next straight =>
    obtain ⟨x, pa, home, p₂, need, p₃, done, p₄, p₅, left, p₆, order, hacc, hl, label, judged, owed, sent, rfl⟩ := h
    refine gives_if_neg straight (Gives.bind (gives_gate order.1) (Gives.bind (gives_release order) (Gives.bind hacc (Gives.bind hl (Gives.bind label ?_)))))
    refine gives_ite_bind (a := done) (r := p₄) ?_ (Gives.bind owed.gives (Gives.bind sent (gives_modify.mpr rfl)))
    have judged' := judged.gives
    simpa using judged'

/-- Settles O24: a store either joins the region's buffer or, its checks passed, becomes outstanding and is sent. -/
theorem storesBecomeOutstanding : Obligations.StoresBecomeOutstanding :=
  fun _ => completesWith_each (fun _ => rfl) (fun _ _ _ _ => st_body)

end Sys2Proof.Claims
end

section
/-! SUPPORT. Atomics (R118, R222, R230, R233, R342 to R345, R430 to R432): held in a region, sent to a pod page, or performed at the home. -/

namespace Sys2Proof.Claims

open Sys2Proof.Machine

/-! ### What performing an atomic leaves as it is -/

theorem uncached_copyLeaves (p : Package) (c : Copy) : uncached (p.copyLeaves c) = uncached p := by
  unfold Package.copyLeaves Package.depart
  dsimp only
  split
  · split_ifs <;> rfl
  · rfl

theorem uncached_dropCopy (p : Package) (line cluster : Nat) : uncached (p.dropCopy line cluster) = uncached p := by
  unfold Package.dropCopy
  dsimp only
  split
  · rfl
  · exact (uncached_copyLeaves _ _).trans (uncached_setLine _ _)

theorem uncached_storeCopy (p : Package) (x : Write) : uncached (p.storeCopy x) = uncached p := by
  unfold Package.storeCopy
  dsimp only
  split_ifs
  · rfl
  · exact uncached_dropCopy _ _ _
  · rfl
  · split
    · rfl
    · exact (uncached_copyLeaves _ _).trans (uncached_setLine _ _)

/-- The writes on their way and the memory. -/
def stores (p : Package) : List Write × List Host.Cell := (p.writes, p.mem)

theorem stores_of_uncached {p q : Package} (h : uncached q = uncached p) : stores q = stores p := by
  have seen := congrArg stores h
  exact seen

theorem stores_noteWct (p : Package) (x : Write) (wct : Nat) : stores (p.noteWct x wct) = stores p := by
  have placed (l l' : Line) (c : Bool) : stores (if c then p.putLine l else p.setLine l') = stores p := by
    cases c
    · exact stores_of_uncached (uncached_setLine p l')
    · exact stores_of_uncached (uncached_putLine p l)
  unfold Package.noteWct
  dsimp only
  split
  · exact placed _ _ _
  · exact placed _ _ _

theorem stores_recordScope (p : Package) (world pa tag : Nat) (s : Scope) : stores (p.recordScope world pa tag s) = stores p := by
  unfold Package.recordScope
  dsimp only
  refine (stores_of_uncached (uncached_setLine _ _)).trans ?_
  split <;> rfl

/-- The write of an atomic noted at its line, in its thread and in its cluster's copy, its scope recorded. -/
theorem stores_performed (p : Package) (x : Write) (wct world pa tag : Nat) (s : Scope) (c : Bool) :
    stores (if c then ((p.noteWct x wct).storeCopy x).recordScope world pa tag s else (p.noteWct x wct).storeCopy x) = stores p := by
  have noted : stores ((p.noteWct x wct).storeCopy x) = stores p := (stores_of_uncached (uncached_storeCopy _ _)).trans (stores_noteWct _ _ _)
  cases c
  · exact noted
  · exact (stores_recordScope _ _ _ _ _).trans noted

/-! ### The WCT of an atomic (R230) -/

theorem le_pendingMax {p : Package} {line t : Nat} {y : Write} (mem : y ∈ p.writes) (covers : y.covers line = true) (wct : y.wct = some t) :
    t ≤ p.pendingMax line := by
  have grows (ws : List Write) (m : Nat) : m ≤ ws.foldl (fun m x => if x.covers line then max m (x.wct.getD 0) else m) m := by
    induction ws generalizing m with
    | nil => exact le_rfl
    | cons x ws ih =>
      refine le_trans ?_ (ih _)
      dsimp only
      split
      · exact le_max_left _ _
      · exact le_rfl
  have reaches (ws : List Write) (m : Nat) (h : y ∈ ws) : t ≤ ws.foldl (fun m x => if x.covers line then max m (x.wct.getD 0) else m) m := by
    induction ws generalizing m with
    | nil => cases h
    | cons x ws ih =>
      rcases List.mem_cons.mp h with rfl | h
      · rw [List.foldl_cons, if_pos covers, wct]
        exact (le_max_right _ _).trans (grows ws _)
      · exact ih _ h
  exact reaches _ _ mem

theorem lt_nextWct (p : Package) (line : Nat) : p.now < p.nextWct line ∧ (p.lineIn line).maxl < p.nextWct line ∧ p.pendingMax line < p.nextWct line := by
  unfold Package.nextWct
  dsimp only
  omega

/-- The bytes of a value, one by one. -/
theorem toBytes_eq_map (n v : Nat) : toBytes n v = (List.range n).map (fun j => BitVec.ofNat 8 (v / 256 ^ j)) := by
  induction n generalizing v with
  | zero => rfl
  | succ n ih =>
    rw [toBytes, ih, List.range_succ_eq_map, List.map_cons, List.map_map]
    refine congrArg₂ _ (by simp) (List.map_congr_left fun j _ => ?_)
    simp [Nat.div_div_eq_div_mul, pow_succ, mul_comm]

theorem cellsOf_eq_map (pa n v : Nat) : cellsOf pa n v = (List.range n).map (fun j => (pa + j, BitVec.ofNat 8 (v / 256 ^ j))) := by
  have paired := List.zip_map' (f := id) (g := fun j => BitVec.ofNat 8 (v / 256 ^ j)) (l := List.range n)
  rw [List.map_id] at paired
  rw [cellsOf, toBytes_eq_map, paired, List.map_map]
  rfl

/-- An atomic performed at its home (R230, R233, R343). -/
theorem atHome_performs {p : Package} {w : Who} {tm : Team} (h : HeldAtomic) (k pa : Nat) (pte : Option Nat) (grow : Option Lbl) (rec_ : Bool)
    (htm : p.team? w.team = some tm) :
    ∃ q old wct x, p.atHome w h k pa pte grow rec_ = (q, old, wct) ∧ q.writes = p.writes ++ [x] ∧ q.mem = p.mem ∧
      old = ofBytes (p.bytesUnder p.arrived pa h.kind.bytes) ∧ p.now < wct ∧ (p.lineIn (lineOf pa)).maxl < wct ∧
      (∀ y ∈ p.writes, y.covers (lineOf pa) = true → ∀ t, y.wct = some t → t < wct) ∧
      x.wct = some wct ∧ x.line = lineOf pa ∧ x.acc = k ∧ x.disc = none ∧ x.grow = (grow.map (fun l => (granuleOf pa, l))).toList ∧
      x.cells = (match h.kind.apply old h.arg h.arg2 with
        | some v => (List.range h.kind.bytes).map (fun j => (pa + j, BitVec.ofNat 8 (v / 256 ^ j)))
        | none => []) := by
  obtain ⟨later, leased, ordered⟩ := lt_nextWct p (lineOf pa)
  unfold Package.atHome
  simp only [htm]
  refine ⟨_, _, _, _, rfl, congrArg Prod.fst (stores_performed _ _ _ _ _ _ _ _), congrArg Prod.snd (stores_performed _ _ _ _ _ _ _ _), rfl, later, leased,
    fun y mem covers t wct => (le_pendingMax mem covers wct).trans_lt ordered, rfl, rfl, rfl, rfl, rfl, ?_⟩
  dsimp only
  cases h.kind.apply (ofBytes (p.bytesUnder p.arrived pa h.kind.bytes)) h.arg h.arg2 with
  | some v => exact cellsOf_eq_map _ _ _
  | none => rfl

/-! ### ATOM, ATOMX and RED -/

theorem atomic_body {kind : AtomKind} {order : MemOrder} {scope : Scope} {policy : Policy} {m a : Fld} {off lit : Option Word} {nd nx : Nat}
    {others : List Package} {w : Who} {p q : Package} (h : atomicEffect kind order scope policy m a off lit nd nx others w p q) :
    Gives (atomBody others (heldOf kind order scope policy) m a off lit nd nx w) p () q := by
  obtain ⟨v, lv, p₀, va, la, p₁, i, g, d, th, hp, hv, ha, free, hi, hg, hd, hth, h⟩ := h
  refine Gives.bind hp (Gives.bind hv (Gives.bind ha.gives (Gives.bind (gives_noHeld free) (Gives.bind (gives_theIssue.mpr ⟨hi, rfl⟩) (Gives.bind hg
    (Gives.bind hd (Gives.bind (gives_thr.mpr ⟨hth, rfl⟩) ?_)))))))
  dsimp only at h
  split at h
  next buffering => exact gives_if_pos buffering (gives_setThr.mpr h)
  next straight =>
    obtain ⟨order, x, pa, home, p₂, hacc, h⟩ := h
    refine gives_if_neg straight (Gives.bind (gives_gate order.1) (Gives.bind (gives_release order) (Gives.bind hacc ?_)))
    dsimp only
    split at h
    next pod =>
      obtain ⟨need, p₃, p₄, left, p₅, hl, label, owed, sent, rfl⟩ := h
      exact gives_if_pos pod (Gives.bind hl (Gives.bind label (Gives.bind owed.gives (Gives.bind sent (gives_modify.mpr rfl)))))
    next line =>
      obtain ⟨ready, h⟩ := h
      refine gives_if_neg line (Gives.bind (gives_get.mpr ⟨rfl, rfl⟩) (Gives.bind (gives_await ready) ?_))
      split at h
      next aux bad =>
        obtain ⟨k, hk⟩ := h
        simp only [heldOf, Issue.flag, bad]
        exact Gives.bind hk (gives_pure.mpr ⟨rfl, rfl⟩)
      next bad =>
        obtain ⟨old, grow, p₃, done, p₄, k, hgrow, judged, perform⟩ := h
        simp only [heldOf, Issue.flag, bad]
        exact Gives.bind hgrow (gives_ite_bind judged.gives (Gives.bind perform (gives_pure.mpr ⟨rfl, rfl⟩)))

theorem atomx_registers (x : AtomxOp) : (if x = .cas then 8 else 4) = if (x == .cas) = true then 8 else 4 := by cases x <;> rfl

/-- Settles O25: an atomic is held, sent, or performed at its home, where its write gets a WCT above those of its line. -/
theorem atomicsComplete : Obligations.AtomicsComplete := by
  refine ⟨fun m => ?_, fun m => ?_, fun m => ?_, fun p w h k pa pte grow rec_ tm htm => atHome_performs h k pa pte grow rec_ htm⟩
  · exact completesWith_each (fun _ => rfl) (fun _ _ _ _ => atomic_body)
  · rw [atomx_registers]
    exact completesWith_each (fun _ => rfl) (fun _ _ _ _ => atomic_body)
  · exact completesWith_each (fun _ => rfl) (fun _ _ _ _ => atomic_body)

end Sys2Proof.Claims
end

section
/-! SUPPORT. Cluster SRAM and FIFO banks (R198 to R200, R221, R386, R387, R400, R403, R448, R451). -/

namespace Sys2Proof.Claims

open Sys2Proof.Machine

/-! ### LDS and STS -/

theorem foldl_zip_self {α β γ : Type} (l : List α) (f : α → β) (g : γ → α × β → γ) (c : γ) :
    (l.zip (l.map f)).foldl g c = l.foldl (fun c a => g c (a, f a)) c := by
  rw [List.zip_map_right, List.foldl_map]
  induction l generalizing c with
  | nil => rfl
  | cons a l ih => exact ih _

theorem map_zip_self {α β γ : Type} (l : List α) (f : α → β) (g : α × β → γ) : (l.zip (l.map f)).map g = l.map (fun a => g (a, f a)) := by
  induction l with
  | nil => rfl
  | cons a l ih => exact congrArg _ ih

theorem lds_completes (wd : Width) (m : PadOp) : Completes (.lds wd m) (padLoadEffect wd m) := by
  refine Laws.completes_each (fun _ => rfl) (fun w p q h => ?_)
  obtain ⟨ea, la, p₁, b, off, th, lbl, p₂, hp, ha, free, noAcquire, at_, hth, hl, owed⟩ := h
  refine Gives.bind hp (Gives.bind ha.gives (Gives.bind (gives_noHeld free) (Gives.bind (gives_gate noAcquire) (Gives.bind at_ (Gives.bind (gives_thr.mpr ⟨hth, rfl⟩)
    (Gives.bind (gives_get.mpr ⟨rfl, rfl⟩) ?_))))))
  dsimp only
  rw [foldl_zip_self, map_zip_self]
  rw [Package.joinOf, List.foldl_map] at hl
  exact Gives.bind hl (gives_lateResult owed)

theorem sts_completes (wd : Width) (m : PadOp) : Completes (.sts wd m) (padStoreEffect wd m) := by
  refine Laws.completes_each (fun _ => rfl) (fun w p q h => ?_)
  obtain ⟨v, lv, p₀, ea, la, p₁, th, need, p₂, hp, hv, ha, hth, free, hl, h⟩ := h
  refine Gives.bind hp (Gives.bind hv (Gives.bind ha.gives (Gives.bind (gives_thr.mpr ⟨hth, rfl⟩) (Gives.bind (gives_noHeld free) ?_))))
  split at h
  next buffering =>
    obtain ⟨r, hr, room, rfl⟩ := h
    have hth₂ := (thread?_of_teams (teams_of_resultLabel hl) w).trans hth
    exact gives_if_pos buffering (Gives.bind hl (Gives.bind (gives_get.mpr ⟨rfl, rfl⟩) (gives_buffer hth₂ hr room)))
  next straight =>
    obtain ⟨b, off, noAcquire, at_, label, rfl⟩ := h
    exact gives_if_neg straight (Gives.bind (gives_gate noAcquire) (Gives.bind at_ (Gives.bind hl (Gives.bind label (gives_modify.mpr rfl)))))

/-! ### FPUSH and FPOP -/

theorem fpush_completes (wd : Width) (m : PadOp) : Completes (.fpush wd m) (fpushEffect wd m) := by
  refine Laws.completes_each (fun _ => rfl) (fun w p q h => ?_)
  obtain ⟨v, lv, p₀, ea, la, p₁, b, lbl, p₂, hp, hv, ha, hb, room, hl, rfl⟩ := h
  exact Gives.bind hp (Gives.bind hv (Gives.bind ha.gives (Gives.bind hb (Gives.bind (gives_await (by simp [room])) (Gives.bind hl (gives_modify.mpr rfl))))))

theorem fpop_completes (wd : Width) (m : PadOp) : Completes (.fpop wd m) (fpopEffect wd m) := by
  refine Laws.completes_each (fun _ => rfl) (fun w p q h => ?_)
  obtain ⟨ea, la, p₁, b, g, d, hp, ha, hb, hg, hd, owed⟩ := h
  exact Gives.bind hp (Gives.bind ha.gives (Gives.bind hb (Gives.bind hg (Gives.bind hd (Gives.bind owed.gives (gives_pure.mpr ⟨rfl, rfl⟩))))))

/-- Settles O26: each access at the bank that its address names, or in the region's buffer. -/
theorem scratchpadAccessesComplete : Obligations.ScratchpadAccessesComplete := ⟨lds_completes, sts_completes, fpush_completes, fpop_completes⟩

/-! ### FENCE, TLFENCE and DISC -/

theorem fence_completes (sc : Scope) : Completes (.fence sc) (fenceEffect sc) := by
  refine Laws.completes_each (fun _ => rfl) (fun w p q h => ?_)
  obtain ⟨rfl, ⟨th, hth, region⟩, noAcquire, settled⟩ := h
  exact Gives.bind (gives_noRegion hth region) (Gives.bind (gives_gate noAcquire) (gives_fenceAt settled))

theorem tlfence_completes : Completes .tlfence tlfenceEffect := by
  refine Laws.completes_each (fun _ => rfl) (fun w p q h => ?_)
  obtain ⟨th, tm, hth, region, noAcquire, settled, htm, rfl⟩ := h
  exact Gives.bind (gives_noRegion hth region) (Gives.bind (gives_gate noAcquire) (Gives.bind (gives_fenceAt settled)
    (Gives.bind (gives_teamOf.mpr ⟨htm, rfl⟩) (gives_modify.mpr rfl))))

theorem disc_completes (m : PadOp) : CompletesWith (.disc m) (discEffect m) := by
  refine completesWith_each (fun _ => rfl) (fun s w p q h => ?_)
  obtain ⟨n, ln, p₀, va, la, p₁, th, last, ps, p₂, hs, need, p₃, p₄, hp, hn, ha, hth, region, some, most, aligned, hlast, canon, canonLast, noAcquire, pages,
    reaches, owners, kinds, hl, clean, owed, sent⟩ := h
  have count : min n 65536 = n := by omega
  refine Gives.bind hp (Gives.bind hn (Gives.bind ha.gives (Gives.bind (gives_noRegion hth region) ?_)))
  dsimp only
  rw [count, ← hlast]
  exact gives_if_neg (by simp [canon]) (gives_if_neg (by simp [canonLast]) (gives_if_neg (by simp [aligned]; omega) (Gives.bind (gives_gate noAcquire)
    (Gives.bind pages (Gives.bind reaches (Gives.bind owners (Gives.bind kinds (Gives.bind hl (Gives.bind (gives_maskOf.mpr ⟨rfl, rfl⟩)
    (gives_if_neg (by simp [clean]) (Gives.bind owed sent)))))))))))

/-! ### BANK -/

theorem bank_completes (try_ : Option (BitVec 5)) (b : BitVec 5) (mode : BankMode) : Completes (.bank try_ b mode) (bankEffect try_ b mode) := by
  refine Laws.completes_each (fun _ => rfl) (fun w p q h => ?_)
  obtain ⟨tm, wd, phys, lbl, p₁, pilot, htm, hwd, hbank, hl, h⟩ := h
  refine gives_if_neg (by simp [Who.isPilot, pilot]) (Gives.bind (gives_teamOf.mpr ⟨htm, rfl⟩) (Gives.bind (gives_worldOf.mpr ⟨⟨tm, htm, hwd⟩, rfl⟩)
    (Gives.bind (gives_get.mpr ⟨rfl, rfl⟩) ?_)))
  simp only [hbank]
  refine Gives.bind hl ?_
  have switched : (if (p.bankMode tm.cluster phys == mode) = true then p₁ else p₁.switchBank tm.cluster phys mode) =
      if p.bankMode tm.cluster phys = mode then p₁ else p₁.switchBank tm.cluster phys mode := by simp only [beq_iff_eq]
  have may : (p.bankMode tm.cluster phys == mode || p.bankFree tm.world tm.cluster b.toNat phys (p.bankMode tm.cluster phys)) = true ↔
      p.bankMode tm.cluster phys = mode ∨ p.bankFree tm.world tm.cluster b.toNat phys (p.bankMode tm.cluster phys) = true := by simp
  dsimp only at h
  rw [← may, ← switched] at h
  generalize (p.bankMode tm.cluster phys == mode || p.bankFree tm.world tm.cluster b.toNat phys (p.bankMode tm.cluster phys)) = ok at h ⊢
  cases try_ with
  | none =>
    obtain ⟨rfl, rfl⟩ := h
    exact gives_modify_bind (gives_pure.mpr ⟨rfl, rfl⟩)
  | some c =>
    rcases h with ⟨rfl, answer⟩ | ⟨busy, inMode, answer⟩
    · exact gives_modify_bind answer
    · rw [Bool.not_eq_true] at busy
      subst busy
      exact gives_if_neg (by simpa using inMode) answer

/-! ### Arrival words -/

theorem ofBytes_lt (bs : List Byte) : ofBytes bs < 256 ^ bs.length := by
  induction bs with
  | nil => simp [ofBytes]
  | cons b bs ih =>
    have := b.isLt
    rw [ofBytes, List.length_cons, pow_succ]
    omega

/-- The word that ARM writes is the one that its fields name (R203, R204). -/
theorem armed_word {x y t : Nat} (hx : x < 2 ^ 128) (hy : y < 2 ^ 128) (ht : t < 2 ^ 32) (target : awTarget y = t) (count : awCount y = 0)
    (gen : awGen y = awGen x) (armed : bitsOf 96 96 y = 1) (once : bitsOf 97 97 y = 0) (rest : bitsOf 127 98 y = 0) :
    setBits 127 98 0 (setBits 97 96 1 (setBits 63 32 0 (setBits 31 0 t x))) = y := by
  simp only [awTarget, awCount, awGen, setBits, bitsOf, Nat.shiftRight_eq_div_pow] at *
  norm_num at *
  omega

theorem arm_completes (m : PadOp) : Completes (.arm m) (armEffect m) := by
  refine Laws.completes_each (fun _ => rfl) (fun w p q h => ?_)
  obtain ⟨t, lt, p₀, ea, la, p₁, b, off, need, p₂, y, hp, ht, ha, at_, pos, small, hl, clean, ⟨target, count, gen, armed, once, rest, hy⟩, rfl⟩ := h
  have hx : ofBytes (b.bytes off 16) < 2 ^ 128 := by simpa [Bank.bytes] using ofBytes_lt (b.bytes off 16)
  refine Gives.bind hp (Gives.bind ht (Gives.bind ha.gives (Gives.bind at_ (gives_if_neg (by omega) (Gives.bind hl (Gives.bind (gives_maskOf.mpr ⟨rfl, rfl⟩)
    (gives_if_neg (by simp [clean]) (gives_modify.mpr ?_))))))))
  rw [armed_word hx hy small target count gen armed once rest]

theorem await_completes (m : PadOp) : Completes (.await m) (awaitEffect m) := by
  refine Laws.completes_each (fun _ => rfl) (fun w p q h => ?_)
  obtain ⟨v, lv, p₀, ea, la, b, off, hp, hv, ha, at_, past, small⟩ := h
  rw [signed_eq_toInt, ← intBits_eq_toInt] at past
  exact Gives.bind hp (Gives.bind hv (Gives.bind ha.gives (Gives.bind at_ (gives_await (decide_eq_true past)))))

/-- Settles O27: each instruction in a thread for which what it waits for is done. -/
theorem fencesBanksAndArrivalWords : Obligations.FencesBanksAndArrivalWords :=
  ⟨fence_completes, tlfence_completes, disc_completes, bank_completes, arm_completes, await_completes⟩

end Sys2Proof.Claims
end

section
/-! SUPPORT. Regions (R117, R118, R220, R223, R242, R243, R435, R436): their opening, and the checks and the release of RGNC. -/

namespace Sys2Proof.Claims

open Sys2Proof.Machine

theorem rgn_completes : Completes .rgn rgnEffect := by
  refine Laws.completes_each (fun _ => rfl) (fun w p q h => ?_)
  obtain ⟨i, th, hi, last, hth, trap, region, rfl⟩ := h
  exact Gives.bind (gives_theIssue.mpr ⟨hi, rfl⟩) (Gives.bind (gives_thr.mpr ⟨hth, rfl⟩) (gives_if_neg (by simp [Issue.last, last])
    (gives_if_neg (by simp [trap]) (gives_if_neg (by simp [region]) (gives_setThr.mpr rfl)))))

section
variable {w : Who} {p q : Package}

theorem gives_performClosing {acc : Nat} {h : HeldAtomic} {x : Xlat} {pa : Nat} {home : Option Nat} {done : Bool}
    (hc : closingDone w acc h x pa home p done q) : Gives (performClosing w acc h x pa home) p done q := by
  have held : (releases h.order && !p.settled w h.scope p.nextId acc) = true ↔ releases h.order = true ∧ p.settled w h.scope p.nextId acc = false := by simp
  have early : (!p.atomReady w p.nextId pa h.kind.bytes) = true ↔ p.atomReady w p.nextId pa h.kind.bytes = false := by simp
  refine Gives.bind (gives_get.mpr ⟨rfl, rfl⟩) ?_
  rcases hc with ⟨waits, rfl, rfl⟩ | ⟨notHeld, notEarly, rfl, hc⟩
  · by_cases hh : (releases h.order && !q.settled w h.scope q.nextId acc) = true
    · exact gives_if_pos hh (gives_pure.mpr ⟨rfl, rfl⟩)
    · obtain ⟨line, notReady⟩ := waits.resolve_left (mt held.mpr hh)
      exact gives_if_neg hh (gives_if_neg (by simp [line]) (gives_if_pos (early.mpr notReady) (gives_pure.mpr ⟨rfl, rfl⟩)))
  · refine gives_if_neg (mt held.mp notHeld) ?_
    split at hc
    next pod =>
      obtain ⟨need, p₁, n, p₂, hl, sent, rfl⟩ := hc
      exact gives_if_pos pod (Gives.bind hl (Gives.bind sent (gives_modify_bind (gives_modify_bind (gives_pure.mpr ⟨rfl, rfl⟩)))))
    next line =>
      obtain ⟨wd, k, p₁, hwd, hk, rfl⟩ := hc
      refine gives_if_neg line (gives_if_neg (fun e => notEarly ⟨by simpa using line, early.mp e⟩) (Gives.bind hwd ?_))
      cases bad : p.atomBad h pa with
      | some aux =>
        simp only [bad] at hk ⊢
        exact Gives.bind hk (gives_modify_bind (gives_pure.mpr ⟨rfl, rfl⟩))
      | none =>
        simp only [bad] at hk ⊢
        obtain ⟨old, l, p₂, growth, perform⟩ := hk
        exact Gives.bind growth (Gives.bind perform (gives_modify_bind (gives_pure.mpr ⟨rfl, rfl⟩)))

theorem gives_runRelease {r : Region} {x : Release} {wait : Bool} (h : regionRuns w r x p wait q) : Gives (runRelease w r x) p wait q := by
  obtain ⟨todo, p₁, p₂, entries, h, rfl⟩ := h
  refine Gives.bind entries ?_
  have after (done : Bool) : Gives (do
      setThr w (fun th => { th with region := if done then none else some { r with rsb := [], release := some { x with todo } } })
      pure (!done) : PM Bool) p₂ (!done)
      (p₂.setThread w (fun th => { th with region := if !done then some { r with rsb := [], release := some { x with todo } } else none })) := by
    refine Gives.bind (a := ()) (gives_setThr.mpr rfl) (gives_pure.mpr ⟨rfl, ?_⟩)
    cases done <;> rfl
  rcases h with ⟨left, rfl, rfl⟩ | ⟨rfl, ⟨y, pa, home, h, closing, held, perform⟩ | ⟨without, rfl, rfl⟩⟩
  · exact gives_if_pos (by simpa using left) (after false)
  · obtain ⟨done, rfl⟩ : ∃ done, wait = !done := ⟨!wait, (Bool.not_not wait).symm⟩
    rw [Bool.not_not] at perform
    have after := after done
    simp only [closing, held] at after ⊢
    exact gives_if_neg (by simp) (Gives.bind (gives_performClosing perform) after)
  · refine gives_if_neg (by simp) ?_
    rcases without with none | none
    · simp only [none]
      exact after true
    · cases hx : x.closing <;> simp only [none] <;> exact after true

/-- The access of the closing atomic, where one is held, before what follows it. -/
theorem gives_closingAccess {β : Type} {others : List Package} {r : Region} {p₂ : Package} {cl : Option (HeldAtomic × Xlat × Nat × Option Nat)}
    {f : Option (HeldAtomic × Xlat × Nat × Option Nat) → PM β} {b : β}
    (closing : match r.held with
      | some h => ∃ c, cl = some (h, c) ∧ Gives (atomicAccess others w h h.low) p c p₂
      | none => cl = none ∧ p₂ = p) (rest : Gives (f cl) p₂ b q) :
    Gives (match r.held with
      | some h => do
        let c ← atomicAccess others w h h.low
        let y ← pure (some (h, c))
        f y
      | none => do
        let y ← pure none
        f y) p b q := by
  cases held : r.held with
  | none =>
    simp only [held] at closing
    obtain ⟨rfl, rfl⟩ := closing
    exact rest
  | some h =>
    simp only [held] at closing
    obtain ⟨c, rfl, access⟩ := closing
    exact Gives.bind access rest

theorem gives_rgncSend {others : List Package} {r : Region} {wait : Bool} (h : regionStarts others w r p wait q) : Gives (rgncSend others w r) p wait q := by
  obtain ⟨ts, p₁, cl, p₂, noAcquire, targets, labels, closing, h⟩ := h
  refine Gives.bind (gives_gate noAcquire) (Gives.bind targets (Gives.bind labels (gives_closingAccess closing (Gives.bind (gives_get.mpr ⟨rfl, rfl⟩) ?_))))
  have busy : cl.any (fun c => !c.2.1.pod && p₂.reserved w (granuleOf c.2.2.1)) = true ↔
      ∃ c, cl = some c ∧ c.2.1.pod = false ∧ p₂.reserved w (granuleOf c.2.2.1) = true := by cases cl <;> simp
  dsimp only at h
  rw [← busy] at h
  rcases h with ⟨waits, rfl, rfl⟩ | ⟨free, p₃, es, p₄, check, all, h⟩
  · exact gives_if_pos waits (gives_pure.mpr ⟨rfl, rfl⟩)
  · refine gives_if_neg free ?_
    have rest : Gives (if es.isEmpty && cl.isNone then do
          setThr w (fun th => { th with region := none })
          flagNow w
          pure false
        else do
          let tm ← teamOf w
          let k ← addAcc w (.rgnc 0 none)
          runRelease w r { acc := k, todo := es, closing := cl.map (·.2), core := tm.coreOf w.lid, epoch := (p₂.coreOr (tm.coreOf w.lid)).epoch })
        p₄ wait q := by
      split at h
      next nothing =>
        obtain ⟨i, hi, rfl, rfl⟩ := h
        exact gives_if_pos (by simp [nothing.1, nothing.2]) (Gives.bind (a := ()) (gives_setThr.mpr rfl)
          (Gives.bind (gives_flagNow (i := i) ((Package.setThread_issue _ _ _).trans hi)) (gives_pure.mpr ⟨rfl, rfl⟩)))
      next something =>
        obtain ⟨tm, p₅, htm, owed, runs⟩ := h
        exact gives_if_neg (by simpa using something) (Gives.bind (gives_teamOf.mpr ⟨htm, rfl⟩) (Gives.bind owed.gives (gives_runRelease runs)))
    cases cl with
    | none =>
      obtain rfl := check
      exact Gives.bind all rest
    | some c => exact Gives.bind check (Gives.bind all rest)

theorem gives_rgncBody {others : List Package} {wait : Bool} (h : rgncEffect others w p wait q) : Gives (rgncBody others w) p wait q := by
  obtain ⟨i, th, hi, hth, h⟩ := h
  refine Gives.bind (gives_theIssue.mpr ⟨hi, rfl⟩) (Gives.bind (gives_thr.mpr ⟨hth, rfl⟩) ?_)
  rcases h with ⟨ran, rfl, rfl⟩ | ⟨fresh, trap, r, region, ⟨x, released, runs⟩ | ⟨whole, starts⟩⟩
  · exact gives_if_pos ran (gives_pure.mpr ⟨rfl, rfl⟩)
  · refine gives_if_neg (by simp [fresh]) (gives_if_neg (by simp [trap]) ?_)
    simp only [region, released]
    exact gives_runRelease runs
  · refine gives_if_neg (by simp [fresh]) (gives_if_neg (by simp [trap]) ?_)
    simp only [region, whole]
    exact gives_rgncSend starts

end

theorem rgnc_completes : CompletesThenWith .rgnc rgncEffect (heldAfter .memory) := by
  intro s i vs q r hi ht hr
  rw [show exec .rgnc s = lift (eachThen (rgncBody s.others) (holdRest .memory)) s from rfl]
  exact lift_next ((eachThen_inTurn (body := rgncBody s.others) (fun _ _ _ _ => gives_rgncBody) hi ht).trans (holdRest_of_heldAfter hr))

/-- Settles O28: a region opens at the next header; RGNC checks all its entries and then releases them, and its closing atomic last. -/
theorem regionsComplete : Obligations.RegionsComplete := ⟨rgn_completes, rgnc_completes⟩

end Sys2Proof.Claims
end

section
/-! SUPPORT. Job words (R244 to R247, R288, R315, R359 to R367, R394, R452, R465 to R467): the card, and the acceptance of a job. -/

namespace Sys2Proof.Claims

open Sys2Proof.Machine

theorem jwait_completes (f : BitVec 4) : Completes (.jwait f) (jwaitEffect f) := by
  refine Laws.completes_each (fun _ => rfl) (fun w p q h => ?_)
  obtain ⟨rfl, th, hth, zero⟩ := h
  exact Gives.bind (gives_thr.mpr ⟨hth, rfl⟩) (gives_await (beq_iff_eq.mpr zero))

/-! ### The acceptance of a job (R247) -/

theorem gives_unless_zero {n : Nat} {m : PM Unit} {p r : Package} (h : Gives m p () r) :
    if (n != 0) = true then Gives m p () (if n = 0 then p else r) else (if n = 0 then p else r) = p := by
  cases n with
  | zero => rfl
  | succ n => exact h

theorem JobTaken.gives {others : List Package} {w : Who} {c : Card} {kind : JobKind} {more : Mask} {f : Job → Job} {p q : Package}
    (h : JobTaken others w c kind more f p q) : Gives (acceptJob others w c kind more f) p () q := by
  obtain ⟨i, tm, th, wd, g, hi, htm, hth, hwd, hg, room, rfl⟩ := h
  refine Gives.bind (gives_theIssue.mpr ⟨hi, rfl⟩) (Gives.bind (gives_teamOf.mpr ⟨htm, rfl⟩) (Gives.bind (gives_thr.mpr ⟨hth, rfl⟩)
    (Gives.bind (gives_worldOf.mpr ⟨⟨tm, htm, hwd⟩, rfl⟩) (Gives.bind (gives_get.mpr ⟨rfl, rfl⟩) (Gives.bind (gives_await (decide_eq_true room))
    (Gives.bind hg (Gives.bind (a := p.nextId) (r := { p with nextId := p.nextId + 1 }) rfl (Gives.bind (gives_get.mpr ⟨rfl, rfl⟩) ?_))))))))
  exact gives_guarded (gives_unless_zero (gives_setThr.mpr rfl)) (gives_modify.mpr rfl)

theorem cpy_completes (a : Fld) (rel : Bool) (lit : Option Word) : CompletesWith (.cpy a rel lit) (cpyEffect a rel lit) := by
  refine completesWith_each (fun _ => rfl) (fun s w p q h => ?_)
  obtain ⟨c, p₁, tm, card, htm, ok, taken⟩ := h
  exact Gives.bind card (Gives.bind (gives_teamOf.mpr ⟨htm, rfl⟩) (gives_if_neg (by simp [ok]) taken.gives))

theorem cpym_completes (a b : Fld) (rel : Bool) (lit : Option Word) : CompletesWith (.cpym a b rel lit) (cpymEffect a b rel lit) := by
  refine completesWith_each (fun _ => rfl) (fun s w p q h => ?_)
  obtain ⟨c, p₁, m, lm, p₂, card, mask, ⟨rv, rsp, dv, dsp, len, only, param⟩, taken⟩ := h
  exact Gives.bind card (Gives.bind mask (gives_if_neg (by simp [rv, rsp, dv, dsp, len, only, param]) taken.gives))

theorem coll_completes (tile : Option (BitVec 6)) (a : Fld) (rel : Bool) (lit : Option Word) :
    CompletesWith (.coll tile a rel lit) (collEffect tile a rel lit) := by
  refine completesWith_each (fun _ => rfl) (fun s w p q h => ?_)
  obtain ⟨c, p₁, tm, g, p₂, card, htm, group, ok, taken, rfl⟩ := h
  refine Gives.bind card (Gives.bind (gives_teamOf.mpr ⟨htm, rfl⟩) (Gives.bind (gives_get.mpr ⟨rfl, rfl⟩) ?_))
  simp only [group]
  exact gives_if_neg (by simp [ok]) (Gives.bind taken.gives (gives_modify.mpr rfl))

theorem xperm_completes (a : Fld) (rel : Bool) (lit : Option Word) : CompletesWith (.xperm a rel lit) (xpermEffect a rel lit) := by
  refine completesWith_each (fun _ => rfl) (fun s w p q h => ?_)
  obtain ⟨c, p₁, tm, wd, t, th, hp, hth, region, card, htm, hwd, tide, bound, ok, taken⟩ := h
  refine Gives.bind hp (Gives.bind (gives_noRegion hth region) (Gives.bind card (Gives.bind (gives_teamOf.mpr ⟨htm, rfl⟩)
    (Gives.bind (gives_worldOf.mpr ⟨⟨tm, htm, hwd⟩, rfl⟩) ?_))))
  simp only [tide]
  exact gives_if_neg (by simp [bound]) (gives_if_neg (by simp [ok]) taken.gives)

theorem tide_completes (d : Fld) : Completes (.tide d) (tideEffect d) := by
  refine Laws.completes_each (fun _ => rfl) (fun w p q h => ?_)
  obtain ⟨i, th, tm, wd, lbl, p₁, r, p₂, hi, last, hp, hth, trap, region, htm, bound, hwd, tide, noAcquire, settled, hl, hr, owed, rfl⟩ := h
  refine Gives.bind (gives_theIssue.mpr ⟨hi, rfl⟩) (gives_if_neg (by simp [Issue.last, last]) (Gives.bind hp (Gives.bind (gives_thr.mpr ⟨hth, rfl⟩)
    (gives_if_neg (by simp [trap]) (Gives.bind (gives_teamOf.mpr ⟨htm, rfl⟩) (Gives.bind (gives_worldOf.mpr ⟨⟨tm, htm, hwd⟩, rfl⟩) (gives_if_neg ?_
    (Gives.bind (gives_noRegion hth region) (Gives.bind (gives_gate noAcquire) (Gives.bind (gives_fenceAt settled) (Gives.bind hl (Gives.bind hr
    (Gives.bind owed.gives (gives_setThr.mpr rfl))))))))))))))
  simp [bound, Option.isSome_iff_ne_none.mp tide]

/-! ### The card (R218, R244, R245) -/

section
variable {w : Who} {p q : Package}

theorem reads_trap {α : Type} {c : Cause} {va : Nat} {lbl : Lbl} {aux : Nat} {vm : Mask} : Reads (trap c va lbl aux vm : PM α) := fun _ _ _ h => nomatch h

theorem passes_of_gives {us : List FieldUse} (h : Gives (checkFields w us) p () q) : Passes w us p ∧ q = p := by
  have reads : Reads (checkFields w us) := by
    unfold checkFields
    split
    · split
      · exact reads_theIssue.bind fun _ => reads_trap
      · split
        · exact reads_trap
        · exact reads_pure _
    · refine reads_thr.bind fun th => reads_teamOf.bind fun tm => ?_
      dsimp only
      split
      · exact reads_trap
      · split
        · exact reads_trap
        · exact reads_pure _
  obtain rfl := reads h
  exact ⟨h, rfl⟩

theorem await_of_gives {c : Bool} {st : Stall} (h : Gives (await c st) p () q) : c = true ∧ q = p := by
  cases c with
  | false => cases h
  | true => exact ⟨rfl, (gives_pure.mp h).2⟩

theorem nothingHeld_of_gives {va : Nat} {vm : Mask} (h : Gives (noHeld w va vm) p () q) : nothingHeld w p ∧ q = p := by
  obtain ⟨th, r, hthr, hheld⟩ := gives_bind.mp h
  obtain ⟨hth, rfl⟩ := gives_thr.mp hthr
  split at hheld
  · cases hheld
  next free =>
    refine ⟨⟨th, hth, fun region trap => ?_⟩, (gives_pure.mp hheld).2⟩
    obtain ⟨r, hr⟩ := Option.isSome_iff_exists.mp region
    simpa [Thread.buffering, hr, trap] using free

theorem acquiring_of_gives (h : Gives (gate w) p () q) : p.acquiring w = false ∧ q = p := by
  obtain ⟨_, r, hget, hwait⟩ := gives_bind.mp h
  obtain ⟨rfl, rfl⟩ := gives_get.mp hget
  obtain ⟨free, rfl⟩ := await_of_gives hwait
  exact ⟨by simpa using free, rfl⟩

theorem settled_of_gives {s : Scope} (h : Gives (fenceAt w s) p () q) : p.settled w s p.nextId p.nextId = true ∧ q = p := by
  obtain ⟨_, r, hget, hwait⟩ := gives_bind.mp h
  obtain ⟨rfl, rfl⟩ := gives_get.mp hget
  exact await_of_gives hwait

/-- What follows a fence that is made under a condition. -/
theorem settled_of_guarded {β : Type} {c : Prop} [Decidable c] {s : Scope} {f : Unit → PM β} {b : β}
    (h : Gives (if c then fenceAt w s >>= f else f ()) p b q) : (c → p.settled w s p.nextId p.nextId = true) ∧ Gives (f ()) p b q := by
  split at h
  · obtain ⟨_, _, hfence, hrest⟩ := gives_bind.mp h
    obtain ⟨settled, rfl⟩ := settled_of_gives hfence
    exact ⟨fun _ => settled, hrest⟩
  next no => exact ⟨fun yes => absurd yes no, h⟩

end

theorem readCard_iff (os : List Package) (w : Who) (a : Fld) (rel : Bool) (lit : Option Word) (more : List FieldUse) (p : Package) (c : Card) (q : Package) :
    Gives (readCard os w a rel lit more) p c q ↔
      ∃ la p₁ v m th, Passes w (src a 2 :: more) p ∧ Gives (readField w 2 a lit) p (c.va, la) p₁ ∧ nothingHeld w p₁ ∧ p₁.acquiring w = false ∧
        (rel = true → p₁.settled w .pkg p₁.nextId p₁.nextId = true) ∧ c.va % 64 = 0 ∧ Gives (loadNow os w c.va la 64) p₁ (v, m) q ∧
        q.thread? w = some th ∧ c.pair = la ∧ cardValid c.bits = true ∧
        c.bits = (overBytes th.buffer c.va 64).foldl (fun v x => setBits (8 * x.1 + 7) (8 * x.1) x.2.toNat v) v ∧
        c.mask = m ||| q.joinOf (overNeeds th.buffer c.va 64) := by
  constructor
  · intro h
    obtain ⟨_, _, hcheck, hread⟩ := gives_bind.mp h
    obtain ⟨hp, rfl⟩ := passes_of_gives hcheck
    obtain ⟨⟨va, la⟩, p₁, hr, hheld⟩ := gives_bind.mp hread
    obtain ⟨_, _, hfree, hgate⟩ := gives_bind.mp hheld
    obtain ⟨free, rfl⟩ := nothingHeld_of_gives hfree
    obtain ⟨_, _, hacquire, hfence⟩ := gives_bind.mp hgate
    obtain ⟨noAcquire, rfl⟩ := acquiring_of_gives hacquire
    dsimp only at hfence
    obtain ⟨settled, hline⟩ := settled_of_guarded hfence
    split at hline
    · cases hline
    next aligned =>
      obtain ⟨⟨v, m⟩, _, load, hthr⟩ := gives_bind.mp hline
      obtain ⟨th, _, hth, hget⟩ := gives_bind.mp hthr
      obtain ⟨hth, rfl⟩ := gives_thr.mp hth
      obtain ⟨_, _, hget, hvalid⟩ := gives_bind.mp hget
      obtain ⟨rfl, rfl⟩ := gives_get.mp hget
      split at hvalid
      · cases hvalid
      next valid =>
        obtain ⟨rfl, rfl⟩ := gives_pure.mp hvalid
        exact ⟨la, _, v, m, th, hp, hr, free, noAcquire, settled, by simpa using aligned, load, hth, rfl, by simpa using valid, rfl, rfl⟩
  · rintro ⟨la, p₁, v, m, th, hp, hr, free, noAcquire, settled, aligned, load, hth, hpair, valid, hbits, hmask⟩
    obtain ⟨va, pair, bits, mask⟩ := c
    dsimp only at *
    subst hpair hbits hmask
    refine Gives.bind hp (Gives.bind hr (Gives.bind (gives_noHeld free) (Gives.bind (gives_gate noAcquire) (gives_guarded (r := p₁) ?_ ?_))))
    · split
      next now => exact gives_fenceAt (settled now)
      next => rfl
    · exact gives_if_neg (by simp [aligned]) (Gives.bind load (Gives.bind (gives_thr.mpr ⟨hth, rfl⟩) (Gives.bind (gives_get.mpr ⟨rfl, rfl⟩)
        (gives_if_neg (by simp [valid]) (gives_pure.mpr ⟨rfl, rfl⟩)))))

/-- Settles O30: each job word once its card passes the checks of its kind; a card reads as the loads of its bytes. -/
theorem jobWordsComplete : Obligations.JobWordsComplete :=
  ⟨jwait_completes, cpy_completes, cpym_completes, coll_completes, xperm_completes, tide_completes, readCard_iff⟩

end Sys2Proof.Claims
end

section
/-! SUPPORT. Scrubs and their receipts (R325 to R327): the writes of the system cores that zero frames, what they leave as it is, and the receipt. -/

namespace Sys2Proof.Claims

open Sys2Proof.Machine

/-! ### Entries of a sparse table that a predicate keeps -/

theorem spGet_filter_key {α : Type} {d : α} (c : Nat → Bool) (l : List (Nat × α)) (a : Nat) :
    spGet d (l.filter (fun e => c e.1)) a = if c a then spGet d l a else d := by
  induction l with
  | nil => simp [spGet]
  | cons e l ih =>
    obtain ⟨k, v⟩ := e
    rw [List.filter_cons]
    by_cases hk : a = k
    · subst hk
      by_cases hc : c a = true
      · simp [hc, spGet]
      · simp [hc, ih]
    · by_cases hc : c k = true
      · simp [hc, spGet, hk, ih]
      · simp [hc, spGet, hk, ih]

theorem mem_of_spGet_ne {α : Type} {d : α} {l : List (Nat × α)} {a : Nat} (h : spGet d l a ≠ d) : a ∈ l.map (·.1) := by
  induction l with
  | nil => exact absurd rfl h
  | cons e l ih =>
    obtain ⟨k, v⟩ := e
    by_cases hk : a = k
    · simp [hk]
    · rw [spGet, if_neg hk] at h
      exact List.mem_cons_of_mem _ (ih h)

/-! ### A write of the system cores at its home -/

/-- A package seen without what homes and caches hold of lines, without the writes on their way and without the next identifier. -/
def unwritten (p : Package) : Package := { uncached p with writes := [], nextId := 0 }

theorem unwritten_of_uncached {p q : Package} (h : uncached q = uncached p) : unwritten q = unwritten p := congrArg (fun p => { p with writes := [], nextId := 0 }) h

theorem uncached_noteWct {p : Package} {x : Write} {wct : Nat} (engine : x.kind = .engine) : uncached (p.noteWct x wct) = uncached p := by
  unfold Package.noteWct
  dsimp only
  rw [if_pos (by simp [engine])]
  split
  · exact uncached_putLine p _
  · exact uncached_setLine p _

/-- The write by which a wipe goes to its home. -/
theorem wipe_write (p : Package) (line : Nat) (cells : List Host.Cell) (gs : List Nat) (page : Option Nat) :
    ∃ x wct, (p.wipe line cells gs page).2.writes = p.writes ++ [x] ∧ x.id = (p.wipe line cells gs page).1 ∧ x.wct = some wct ∧
      x.disc = page.map (fun a => (a, 0)) ∧ x.cells = cells ∧ x.kind = .engine ∧ x.grow = gs.map (fun g => (g, 0)) := by
  have kept (q : Package) (x : Write) (wct : Nat) : (q.noteWct x wct).writes = q.writes := congrArg Prod.fst (stores_noteWct q x wct)
  exact ⟨_, _, kept _ _ _, rfl, rfl, rfl, rfl, rfl, rfl⟩

theorem unwritten_wipe (p : Package) (line : Nat) (cells : List Host.Cell) (gs : List Nat) (page : Option Nat) :
    unwritten (p.wipe line cells gs page).2 = unwritten p := by
  refine (unwritten_of_uncached (uncached_noteWct rfl)).trans rfl

/-! ### The scrub of frames (R325, R326) -/

/-- One frame of a scrub: a frame without an error is zeroed by one write, one with an error up to it, and a retired one not at all. -/
def scrubStep (excl : List (Nat × Nat)) (acc : List Nat × Package) (f : Nat) : List Nat × Package :=
  match excl.find? (fun e => e.1 == f) with
  | none =>
    let r := acc.2.wipe (1024 * f) [] (acc.2.labelled (2048 * f) (2048 * (f + 1))) (some (65536 * f))
    (acc.1 ++ [r.1], r.2)
  | some e =>
    if e.2 = 1 then acc
    else
      let r := acc.2.wipeSectors f (((acc.2.firstError f).getD (2048 * f)) - 2048 * f)
      (acc.1 ++ r.1, r.2)

theorem scrubFrames_eq (p : Package) (frames : List Nat) :
    p.scrubFrames frames = (let excl := p.excluded (fun f => frames.contains f)
      let r := frames.foldl (scrubStep excl) ([], { p with sys := { p.sys with retired := p.sys.retired ++ excl.filter (fun e => e.2 == 2) } })
      (excl, r.1, r.2)) := rfl

theorem unwritten_wipeSectors (p : Package) (f n : Nat) : unwritten (p.wipeSectors f n).2 = unwritten p :=
  foldl_part (fun (acc : List Nat × Package) => unwritten acc.2) (fun acc _ => unwritten_wipe acc.2 _ _ _ _) _ _

theorem unwritten_scrubStep (excl : List (Nat × Nat)) (acc : List Nat × Package) (f : Nat) : unwritten (scrubStep excl acc f).2 = unwritten acc.2 := by
  unfold scrubStep
  split
  · exact unwritten_wipe _ _ _ _ _
  · split
    · rfl
    · exact unwritten_wipeSectors _ _ _

theorem unwritten_scrubSteps (excl : List (Nat × Nat)) (frames : List Nat) (acc : List Nat × Package) :
    unwritten (frames.foldl (scrubStep excl) acc).2 = unwritten acc.2 :=
  foldl_part (fun (acc : List Nat × Package) => unwritten acc.2) (unwritten_scrubStep excl) frames acc

/-- A write that an identifier of a list names stays so. -/
def Lists (acc : List Nat × Package) (y : Write) : Prop := y ∈ acc.2.writes ∧ y.id ∈ acc.1

theorem wipeSectors_writes (p : Package) (f n : Nat) : ∀ y ∈ p.writes, y ∈ (p.wipeSectors f n).2.writes := by
  intro y hy
  have kept (ks : List Nat) (acc : List Nat × Package) (h : y ∈ acc.2.writes) :
      y ∈ (ks.foldl (fun (acc : List Nat × Package) k =>
        let lo := 65536 * f + 64 * k
        let bytes := if 2 * k + 1 < n then 64 else 32
        let g := 2048 * f + 2 * k
        let r := acc.2.wipe (1024 * f + k) (cellsOf lo bytes 0) (acc.2.labelled g (g + bytes / 32)) none
        (acc.1 ++ [r.1], r.2)) acc).2.writes := by
    induction ks generalizing acc with
    | nil => exact h
    | cons k ks ih =>
      refine ih _ ?_
      obtain ⟨x, _, hw, -⟩ := wipe_write acc.2 (1024 * f + k) (cellsOf (65536 * f + 64 * k) (if 2 * k + 1 < n then 64 else 32) 0)
        (acc.2.labelled (2048 * f + 2 * k) (2048 * f + 2 * k + (if 2 * k + 1 < n then 64 else 32) / 32)) none
      dsimp only
      rw [hw]
      exact List.mem_append_left _ h
  exact kept _ _ hy

theorem Lists.scrubStep {excl : List (Nat × Nat)} {acc : List Nat × Package} {y : Write} (h : Lists acc y) (f : Nat) : Lists (scrubStep excl acc f) y := by
  unfold Claims.scrubStep
  split
  · obtain ⟨x, _, hw, -⟩ := wipe_write acc.2 (1024 * f) [] (acc.2.labelled (2048 * f) (2048 * (f + 1))) (some (65536 * f))
    exact ⟨hw ▸ List.mem_append_left _ h.1, List.mem_append_left _ h.2⟩
  · split
    · exact h
    · exact ⟨wipeSectors_writes _ _ _ y h.1, List.mem_append_left _ h.2⟩

theorem Lists.scrubSteps {excl : List (Nat × Nat)} {acc : List Nat × Package} {y : Write} (h : Lists acc y) (frames : List Nat) :
    Lists (frames.foldl (Claims.scrubStep excl) acc) y := by
  induction frames generalizing acc with
  | nil => exact h
  | cons f frames ih => exact ih (h.scrubStep f)

/-- The write that zeroes a whole frame and makes its granules public (R325). -/
def Wipes (p : Package) (f : Nat) (y : Write) : Prop :=
  y.wct.isSome = true ∧ y.disc = some (65536 * f, 0) ∧ y.cells = [] ∧ y.kind = .engine ∧
    ∀ g, 2048 * f ≤ g → g < 2048 * (f + 1) → p.glabel g ≠ 0 → (g, 0) ∈ y.grow

theorem mem_labelled {p : Package} {lo hi g : Nat} (h : lo ≤ g) (h' : g < hi) (labelled : p.glabel g ≠ 0) : g ∈ p.labelled lo hi := by
  refine List.mem_eraseDups.mpr (List.mem_filter.mpr ⟨List.mem_append_left _ (mem_of_spGet_ne labelled), ?_⟩)
  simp [h, h']

theorem scrubStep_wipes {excl : List (Nat × Nat)} (acc : List Nat × Package) {f : Nat} (clear : ∀ e ∈ excl, e.1 ≠ f) :
    ∃ y, Lists (scrubStep excl acc f) y ∧ Wipes acc.2 f y := by
  have none : excl.find? (fun e => e.1 == f) = none := List.find?_eq_none.mpr (fun e he => by simpa using clear e he)
  obtain ⟨x, wct, hw, hid, hwct, hdisc, hcells, hkind, hgrow⟩ :=
    wipe_write acc.2 (1024 * f) [] (acc.2.labelled (2048 * f) (2048 * (f + 1))) (some (65536 * f))
  refine ⟨x, ?_, by simp [hwct], hdisc, hcells, hkind, fun g lo hi labelled => ?_⟩
  · simp only [scrubStep, none]
    exact ⟨hw ▸ List.mem_append_right _ List.mem_cons_self, by simp [hid]⟩
  · rw [hgrow]
    exact List.mem_map.mpr ⟨g, mem_labelled lo hi labelled, rfl⟩

theorem scrubSteps_wipe {excl : List (Nat × Nat)} {frames : List Nat} (acc : List Nat × Package) {f : Nat} (hf : f ∈ frames)
    (clear : ∀ e ∈ excl, e.1 ≠ f) : ∃ y, Lists (frames.foldl (scrubStep excl) acc) y ∧ Wipes acc.2 f y := by
  induction frames generalizing acc with
  | nil => cases hf
  | cons f' frames ih =>
    rcases List.mem_cons.mp hf with rfl | hf
    · obtain ⟨y, listed, wipes⟩ := scrubStep_wipes acc clear
      exact ⟨y, listed.scrubSteps frames, wipes⟩
    · obtain ⟨y, listed, hwct, hdisc, hcells, hkind, hgrow⟩ := ih (scrubStep excl acc f') hf
      have same : (scrubStep excl acc f').2.glabels = acc.2.glabels := by
        have seen := congrArg Package.glabels (unwritten_scrubStep excl acc f')
        exact seen
      exact ⟨y, listed, hwct, hdisc, hcells, hkind, fun g lo hi labelled => hgrow g lo hi (by simpa only [Package.glabel, same] using labelled)⟩

theorem unwritten_scrubFrames (p : Package) (frames : List Nat) : unwritten (p.scrubFrames frames).2.2 =
    unwritten { p with sys := { p.sys with retired := p.sys.retired ++ (p.scrubFrames frames).1.filter (fun e => e.2 == 2) } } := by
  rw [scrubFrames_eq]
  exact unwritten_scrubSteps _ _ _

theorem scrubFrames_wipe (p : Package) {frames : List Nat} {f : Nat} (hf : f ∈ frames) (clear : ∀ e ∈ (p.scrubFrames frames).1, e.1 ≠ f) :
    ∃ y ∈ (p.scrubFrames frames).2.2.writes, y.id ∈ (p.scrubFrames frames).2.1 ∧ Wipes p f y := by
  rw [scrubFrames_eq] at clear ⊢
  obtain ⟨y, ⟨mem, id⟩, wipes⟩ := scrubSteps_wipe _ hf clear
  exact ⟨y, mem, id, wipes⟩

theorem sameStore_of_unwritten {p q : Package} (h : unwritten q = unwritten p) : sameStore p q := by
  have mem := congrArg Package.mem h
  have glabels := congrArg Package.glabels h
  have labels := congrArg Package.labels h
  exact ⟨mem, glabels, labels⟩

theorem contains_frames (lo n f : Nat) : ((List.range n).map (lo + ·)).contains f = (decide (lo ≤ f) && decide (f < lo + n)) := by
  rw [Bool.eq_iff_iff]
  simp only [List.contains_iff_mem, List.mem_map, List.mem_range, Bool.and_eq_true, decide_eq_true_eq]
  constructor
  · rintro ⟨k, hk, rfl⟩
    omega
  · rintro ⟨hlo, hhi⟩
    exact ⟨f - lo, by omega, by omega⟩

theorem scrub_completes {s : State} {lo n : Nat} (inside : 65536 * (lo + n) ≤ Config.memBytes) (room : s.here.journalRoom systemQueue = true) :
    ∃ q r ids, Answers (.scrub lo n) s q ∧ sameStore s.here q ∧ r ∈ q.sys.scrubs ∧ r.world = 0 ∧ r.nframes = n ∧ r.writes = some ids ∧
      r.excl = s.here.excluded (fun f => decide (lo ≤ f) && decide (f < lo + n)) ∧
      q.sys.retired = s.here.sys.retired ++ r.excl.filter (fun e => e.2 == 2) ∧
      ∀ f, lo ≤ f → f < lo + n → (∀ e ∈ r.excl, e.1 ≠ f) → ∃ y ∈ q.writes, y.id ∈ ids ∧ Wipes s.here f y := by
  let p := (s.here.commandAdd systemQueue 0 8 0 1).2.fresh.2
  let frames := (List.range n).map (lo + ·)
  have excl : (p.scrubFrames frames).1 = s.here.excluded (fun f => decide (lo ≤ f) && decide (f < lo + n)) := by
    rw [← funext (contains_frames lo n)]
    rfl
  have seen := unwritten_scrubFrames p frames
  have same := sameStore_of_unwritten seen
  have retired := congrArg (fun p : Package => p.sys.retired) seen
  let r := (p.scrubFrames frames).2.2
  let run : ScrubRun := { seq := (s.here.commandAdd systemQueue 0 8 0 1).2.nextId, journal := (s.here.commandAdd systemQueue 0 8 0 1).1, world := 0
                          tstart := r.time, nframes := n, excl := (p.scrubFrames frames).1, writes := some (p.scrubFrames frames).2.1 }
  refine ⟨{ r with sys := { r.sys with scrubs := r.sys.scrubs ++ [run] } }, run, (p.scrubFrames frames).2.1, ?_, ?_,
    List.mem_append_right _ List.mem_cons_self, rfl, rfl, rfl, excl, ?_, ?_⟩
  · rw [Answers, show exec (.scrub lo n) s = execScrub lo n s from rfl, execScrub, if_neg (by omega)]
    refine lift_next ?_
    simp only [room]
    rfl
  · exact same
  · exact retired
  · intro f hlo hhi clear
    exact scrubFrames_wipe p (List.contains_iff_mem.mp ((contains_frames lo n f).trans (by simp [hlo, hhi]))) clear

theorem scrub_beyond {s : State} {lo n : Nat} (beyond : Config.memBytes < 65536 * (lo + n)) :
    exec (.scrub lo n) s = .fault (.noSuchAddress (65536 * (lo + n))) := by
  rw [show exec (.scrub lo n) s = execScrub lo n s from rfl, execScrub, if_pos beyond]

/-! ### The commit of such a write -/

theorem uncached_dropLine (p : Package) (line : Nat) : uncached (p.dropLine line) = uncached p :=
  foldl_part uncached (fun p c => uncached_dropCopy p line c) _ _

theorem glabel_foldl_public (grow : List (Nat × Lbl)) (table : List (Nat × Lbl)) (wf : spWf (0 : Lbl) table = true) (public_ : ∀ e ∈ grow, e.2 = 0) (g : Nat) :
    spGet 0 (grow.foldl (fun t e => spSet 0 t e.1 e.2) table) g = if grow.any (fun e => e.1 == g) then 0 else spGet 0 table g := by
  induction grow generalizing table with
  | nil => simp
  | cons e grow ih =>
    rw [List.foldl_cons, ih _ (spWf_spSet wf) (fun e he => public_ e (List.mem_cons_of_mem _ he)), List.any_cons, public_ e List.mem_cons_self]
    by_cases he : e.1 = g
    · subst he
      rw [spGet_spSet_same _ _ _ _ wf]
      simp
    · simp [he, spGet_spSet_ne _ _ _ _ _ (Ne.symm he)]

theorem commit_wipes {p : Package} {y : Write} {page pte : Nat} (wf : p.wf = true) (disc : y.disc = some (page, pte)) (engine : y.kind = .engine)
    (cells : y.cells = []) :
    (∀ a, page ≤ a → a < page + 65536 → (p.commit y).byteAt a = 0) ∧
    (∀ a, a < page ∨ page + 65536 ≤ a → (p.commit y).byteAt a = p.byteAt a) ∧
    ∀ g, (∀ e ∈ y.grow, e.2 = 0) → (p.commit y).glabel g = if y.grow.any (fun e => e.1 == g) then 0 else p.glabel g := by
  have seen : (p.commit y).mem = p.mem.filter (fun c => !(decide (page ≤ c.1) && decide (c.1 < page + 65536))) ∧
      (p.commit y).glabels = y.grow.foldl (fun g e => spSet 0 g e.1 e.2) p.glabels := by
    have dropped (q : Package) (ls : List Nat) : uncached (ls.foldl Package.dropLine q) = uncached q := foldl_part uncached uncached_dropLine ls q
    have mem (q : Package) (ls : List Nat) : (ls.foldl Package.dropLine q).mem = q.mem := by
      have seen := congrArg Package.mem (dropped q ls)
      exact seen
    have glabels (q : Package) (ls : List Nat) : (ls.foldl Package.dropLine q).glabels = q.glabels := by
      have seen := congrArg Package.glabels (dropped q ls)
      exact seen
    unfold Package.commit
    simp only [disc, cells, engine]
    exact ⟨mem _ _, glabels _ _⟩
  have byte (a : Nat) : (p.commit y).byteAt a = if (!(decide (page ≤ a) && decide (a < page + 65536))) = true then p.byteAt a else 0 := by
    rw [Package.byteAt, seen.1]
    exact spGet_filter_key (fun a => !(decide (page ≤ a) && decide (a < page + 65536))) p.mem a
  refine ⟨fun a hlo hhi => ?_, fun a out => ?_, fun g public_ => ?_⟩
  · rw [byte, if_neg (by simp [hlo, hhi])]
  · rw [byte, if_pos (by simp; omega)]
  · rw [Package.glabel, seen.2]
    exact glabel_foldl_public _ _ ((wf_iff p).mp wf).2.1 public_ g

/-! ### Receipts (R327) -/

theorem world?_setWorld {p : Package} {w : Nat} {f : World → World} (id : ∀ x, (f x).id = x.id) : (p.setWorld w f).world? w = (p.world? w).map f := by
  rw [Package.world?_of_map (p := p) (f := fun x => if x.id == w then f x else x) (fun x => by split <;> simp [id]) rfl]
  cases hx : p.world? w with
  | none => rfl
  | some x => simp [Package.id_of_world? hx]

theorem endScrub_gives {p : Package} (r : ScrubRun) : ∃ y, (p.endScrub r).sys.receipts = p.sys.receipts ++ [y] ∧ y.world = r.world ∧
    y.nframes = r.nframes - r.excl.length ∧ y.tstart = r.tstart ∧ y.tend = p.time ∧ y.excl = r.excl ∧ y.pkg = p.phys ∧
    (∀ z ∈ (p.endScrub r).sys.scrubs, z.seq ≠ r.seq) ∧ sameStore p (p.endScrub r) ∧
    (r.world ≠ 0 → (∀ o ∈ (p.endScrub r).owners, o.2 ≠ r.world) ∧ ∀ x, (p.endScrub r).world? r.world = some x → x.resetting = false) := by
  by_cases system : r.world = 0
  · simp only [Package.endScrub, if_pos system]
    refine ⟨_, rfl, rfl, rfl, rfl, rfl, rfl, rfl, fun z hz => ?_, ⟨rfl, rfl, rfl⟩, fun h => absurd system h⟩
    simpa using (List.mem_filter.mp hz).2
  · simp only [Package.endScrub, if_neg system]
    refine ⟨_, rfl, rfl, rfl, rfl, rfl, rfl, rfl, fun z hz => ?_, ⟨rfl, rfl, rfl⟩, fun _ => ⟨fun o ho => ?_, fun x hx => ?_⟩⟩
    · simpa using (List.mem_filter.mp hz).2
    · simpa using (List.mem_filter.mp ho).2
    · obtain ⟨y, -, rfl⟩ := Option.map_eq_some_iff.mp
        ((world?_setWorld (p := p) (w := r.world) (f := fun x => { x with resetting := false }) (fun _ => rfl)).symm.trans hx)
      rfl

section
variable {s : State} {k : Nat} {r : ScrubRun}

theorem answers_scrubReceipt (found : s.here.sys.scrubs.find? (fun r => r.seq == k) = some r) {q : Package}
    (h : (match r.writes with
      | some ids => if s.here.writes.any (fun x => ids.contains x.id) then s.here else s.here.endScrub r
      | none => match s.here.world? r.world with
        | some x => if s.here.resetReady x then s.here.clearWorld x r else s.here
        | none => s.here.endScrub r) = q) : Answers (.scrubReceipt k) s q := by
  subst h
  rw [Answers, show exec (.scrubReceipt k) s = execScrubReceipt k s from rfl, execScrubReceipt]
  refine lift_next ?_
  simp only [found] <;> rfl

theorem scrubReceipt_waits {ids : List Nat} (found : s.here.sys.scrubs.find? (fun r => r.seq == k) = some r) (writes : r.writes = some ids)
    (pending : ∃ y ∈ s.here.writes, y.id ∈ ids) : Answers (.scrubReceipt k) s s.here := by
  refine answers_scrubReceipt found ?_
  obtain ⟨y, hy, hid⟩ := pending
  simp only [writes]
  exact if_pos (List.any_eq_true.mpr ⟨y, hy, by simpa using hid⟩)

theorem scrubReceipt_done {ids : List Nat} (found : s.here.sys.scrubs.find? (fun r => r.seq == k) = some r) (writes : r.writes = some ids)
    (done : ∀ y ∈ s.here.writes, y.id ∉ ids) : Answers (.scrubReceipt k) s (s.here.endScrub r) := by
  refine answers_scrubReceipt found ?_
  simp only [writes]
  refine if_neg (fun h => ?_)
  obtain ⟨y, hy, hid⟩ := List.any_eq_true.mp h
  exact done y hy (by simpa using hid)

theorem scrubReceipt_gives {ids : List Nat} (found : s.here.sys.scrubs.find? (fun r => r.seq == k) = some r) (writes : r.writes = some ids)
    (done : ∀ y ∈ s.here.writes, y.id ∉ ids) :
    ∃ q y, Answers (.scrubReceipt k) s q ∧ q.sys.receipts = s.here.sys.receipts ++ [y] ∧ y.world = r.world ∧
      y.nframes = r.nframes - r.excl.length ∧ y.tstart = r.tstart ∧ y.tend = s.here.time ∧ y.excl = r.excl ∧ y.pkg = s.here.phys ∧
      (∀ z ∈ q.sys.scrubs, z.seq ≠ k) ∧ sameStore s.here q ∧
      (r.world ≠ 0 → (∀ o ∈ q.owners, o.2 ≠ r.world) ∧ ∀ x, q.world? r.world = some x → x.resetting = false) := by
  obtain rfl : r.seq = k := by simpa using List.find?_some found
  obtain ⟨y, given⟩ := endScrub_gives (p := s.here) r
  exact ⟨_, y, scrubReceipt_done found writes done, given⟩

theorem scrubReceipt_early {x : World} (found : s.here.sys.scrubs.find? (fun r => r.seq == k) = some r) (writes : r.writes = none)
    (hx : s.here.world? r.world = some x) (early : s.here.resetReady x = false) : Answers (.scrubReceipt k) s s.here := by
  refine answers_scrubReceipt found ?_
  simp only [writes, hx, early, Bool.false_eq_true, if_false]

theorem scrubReceipt_noWorld (found : s.here.sys.scrubs.find? (fun r => r.seq == k) = some r) (writes : r.writes = none)
    (gone : s.here.world? r.world = none) :
    ∃ q y, Answers (.scrubReceipt k) s q ∧ q.sys.receipts = s.here.sys.receipts ++ [y] ∧ y.world = r.world ∧ ∀ z ∈ q.sys.scrubs, z.seq ≠ k := by
  obtain rfl : r.seq = k := by simpa using List.find?_some found
  obtain ⟨y, receipts, world, -, -, -, -, -, scrubs, -⟩ := endScrub_gives (p := s.here) r
  refine ⟨_, y, answers_scrubReceipt found ?_, receipts, world, scrubs⟩
  simp only [writes, gone]

/-! ### Steps 3 and 4 of a reset (R325) -/

/-- The package after a world's grids have ended and its manifests have been dropped, whose frames are then scrubbed. -/
def unmanned (p : Package) (x : World) : Package :=
  (p.mans.filter (fun m => m.world == x.id && m.state != .empty)).foldl Package.dropMan (p.endGrids x)

/-- The frames of a world. -/
def worldFrames (p : Package) (x : World) : List Nat := (p.owners.filter (fun o => o.2 == x.id)).map (·.1)

theorem unmanned_grids (p : Package) (x : World) : (unmanned p x).grids = p.grids.filter (fun g => g.world != x.id) :=
  foldl_part Package.grids (f := Package.dropMan) (fun _ _ => rfl) _ _

theorem unmanned_scrubs (p : Package) (x : World) : (unmanned p x).sys.scrubs = p.sys.scrubs :=
  foldl_part (fun p : Package => p.sys.scrubs) (f := Package.dropMan) (fun _ _ => rfl) _ _

theorem clearWorld_clears {p : Package} {x : World} (hr : r ∈ p.sys.scrubs) :
    (∀ e ∈ (p.clearWorld x r).endorse, e.2.world ≠ x.id ∧ e.2.issuer ≠ x.id) ∧
    (∀ y, (p.clearWorld x r).world? x.id = some y → y.keys = [none, none]) ∧ (∀ g ∈ (p.clearWorld x r).grids, g.world ≠ x.id) ∧
    ∃ z ∈ (p.clearWorld x r).sys.scrubs, z.seq = r.seq ∧ z.writes.isSome = true := by
  refine ⟨fun e he => ?_, fun y hy => ?_, fun g hg => ?_, ?_⟩
  · rw [Package.clearWorld_endorse] at he
    simpa using (List.mem_filter.mp he).2
  · obtain ⟨z, -, rfl⟩ := Option.map_eq_some_iff.mp ((world?_setWorld (p := ((unmanned p x).scrubFrames (worldFrames (unmanned p x) x)).2.2) (w := x.id)
      (f := fun x => { x with keys := [none, none], epoch := 0, sweep := none, shadows := [] }) (fun _ => rfl)).symm.trans hy)
    rfl
  · have kept : (p.clearWorld x r).grids = p.grids.filter (fun g => g.world != x.id) :=
      (congrArg Package.grids (unwritten_scrubFrames (unmanned p x) (worldFrames (unmanned p x) x))).trans (unmanned_grids p x)
    rw [kept] at hg
    simpa using (List.mem_filter.mp hg).2
  · have kept : ((unmanned p x).scrubFrames (worldFrames (unmanned p x) x)).2.2.sys.scrubs = p.sys.scrubs :=
      (congrArg (fun p : Package => p.sys.scrubs) (unwritten_scrubFrames (unmanned p x) (worldFrames (unmanned p x) x))).trans
        (unmanned_scrubs p x)
    refine ⟨_, List.mem_map_of_mem (kept ▸ hr), ?_⟩
    simp

end

end Sys2Proof.Claims
end

section
/-! SUPPORT. The reset of a world (R265, R266, R325): killing a team changes no team's number or world and marks no other, so that every team of the world
that still stands is killed. -/

namespace Sys2Proof.Claims

open Sys2Proof.Machine

/-! ### The roll of the teams: what killing threads leaves of it -/

/-- The number, the world and the kill mark of each team. -/
def roll (p : Package) : List (Nat × Nat × Bool) := p.teams.map (fun tm => (tm.id, tm.world, tm.killed))

section
variable (p : Package)

/-- An update of a team that keeps its number, its world and its mark. -/
theorem roll_setTeam {t : Nat} {f : Team → Team} (h : ∀ tm, ((f tm).id, (f tm).world, (f tm).killed) = (tm.id, tm.world, tm.killed)) :
    roll (p.setTeam t f) = roll p := by
  simp only [roll, Package.setTeam, mapIf, List.map_map]
  refine List.map_congr_left fun tm _ => ?_
  dsimp only [Function.comp]
  split
  · exact h tm
  · rfl

theorem roll_setThread (w : Who) (f : Thread → Thread) : roll (p.setThread w f) = roll p := roll_setTeam p fun _ => rfl

theorem roll_setPartition (x : Partition) : roll (p.setPartition x) = roll p := by
  unfold Package.setPartition
  split <;> rfl

theorem roll_pick (n : Nat) : roll (p.pick n).2 = roll p := by
  rw [Package.pick_eq]
  rfl

theorem roll_drainPart (core part : Nat) : roll (p.drainPart core part) = roll p := by
  unfold Package.drainPart
  dsimp only
  split
  · rfl
  · exact roll_setPartition p _

theorem roll_setThreads (team : Nat) (f : Thread → Thread) (ls : List Nat) : roll (ls.foldl (fun p l => p.setThread ⟨team, l⟩ f) p) = roll p :=
  foldl_part roll (fun p _ => roll_setThread p _ f) ls p

theorem roll_formGang (core part : Nat) (k : BerthEntry) : roll (p.formGang core part k) = roll p := by
  unfold Package.formGang
  dsimp only
  split
  · rfl
  · exact (roll_setThreads _ _ _ _).trans ((roll_setPartition _ _).trans (roll_pick _ _))

theorem roll_settlePart (core part n : Nat) : roll (Package.settlePart core part n p) = roll p := by
  induction n generalizing p with
  | zero => rfl
  | succ n ih =>
    unfold Package.settlePart
    dsimp only
    split
    · split
      · exact roll_drainPart _ _ _
      · exact (ih _).trans ((roll_formGang _ _ _ _).trans (roll_drainPart _ _ _))
    · exact roll_drainPart _ _ _

theorem roll_settle : roll p.settle = roll p := foldl_part roll (fun p _ => roll_settlePart p _ _ _) _ p

theorem roll_fileAll (team : Nat) (xs : List (Nat × Point × BitVec 16)) : roll (p.fileAll team xs) = roll p := by
  unfold Package.fileAll
  split
  · rfl
  · refine (roll_settle _).trans ((foldl_part roll (fun p x => ?_) xs _).trans (foldl_part roll (f := fun p x => p.leaveGang ⟨team, x.1⟩) (fun _ _ => rfl) xs p))
    split
    · exact roll_setThread _ _ _
    · exact (roll_setPartition _ _).trans (roll_setThread _ _ _)

theorem roll_releaseRec (team : Nat) (r : DivRec) : roll (p.releaseRec team r) = roll p := by
  unfold Package.releaseRec
  split
  · rfl
  · exact (roll_fileAll _ _ _).trans (roll_setTeam p fun _ => rfl)

theorem roll_leaveRecs (w : Who) : roll (p.leaveRecs w) = roll p := by
  unfold Package.leaveRecs Package.releaseDone
  split
  · exact roll_setTeam p fun _ => rfl
  · exact (foldl_part roll (fun p r => roll_releaseRec p _ r) _ _).trans (roll_setTeam p fun _ => rfl)

theorem roll_bodyEnd (team : Nat) : roll (p.bodyEnd team) = roll p := by
  unfold Package.bodyEnd
  split
  · rfl
  · split
    · rfl
    · split <;> exact roll_setTeam p fun _ => rfl

theorem freeDQ_roll (tm : Team) : (tm.freeDQ.id, tm.freeDQ.world, tm.freeDQ.killed) = (tm.id, tm.world, tm.killed) := by
  unfold Team.freeDQ
  split <;> rfl

theorem openBar_roll (tm : Team) : (tm.openBar.id, tm.openBar.world, tm.openBar.killed) = (tm.id, tm.world, tm.killed) := by
  unfold Team.openBar
  split
  · rfl
  · dsimp only
    split <;> rfl

theorem roll_releaseExt (w : Who) : roll (p.releaseExt w) = roll p := roll_setTeam p fun _ => rfl

theorem roll_endThread (w : Who) : roll (p.endThread w) = roll p := by
  unfold Package.endThread
  refine (roll_settle _).trans ((roll_bodyEnd _ _).trans ((roll_leaveRecs _ _).trans ((roll_setTeam _ fun tm => ?_).trans
    ((roll_releaseExt _ w).trans ?_))))
  · exact (openBar_roll _).trans (freeDQ_roll _)
  · exact roll_setThread ((p.leaveGang w).unfile w) w _

theorem roll_abortJobs (team : Nat) : roll (p.abortJobs team) = roll p := by
  unfold Package.abortJobs
  split <;> rfl

theorem roll_killThread (w : Who) : roll (p.killThread w) = roll p := by
  unfold Package.killThread
  split
  · exact roll_setThread _ _ _
  · exact (roll_abortJobs _ _).trans (roll_endThread _ _)

/-! ### Killing teams -/

/-- An entry of the roll with the mark, where its number is one of some. -/
def marked (ts : List Nat) (e : Nat × Nat × Bool) : Nat × Nat × Bool := if e.1 ∈ ts then (e.1, e.2.1, true) else e

theorem roll_killTeam (t : Nat) : roll (p.killTeam t) = (roll p).map (marked [t]) := by
  unfold Package.killTeam
  split
  next none =>
    rw [roll, List.map_map]
    refine List.map_congr_left fun tm htm => ?_
    have other : tm.id ≠ t := by simpa using List.find?_eq_none.mp none tm htm
    simp [marked, other]
  next tm found =>
    refine (foldl_part roll (fun p l => roll_killThread p ⟨t, l⟩) _ _).trans ?_
    simp only [roll, Package.setTeam, mapIf, List.map_map]
    refine List.map_congr_left fun tm _ => ?_
    by_cases h : tm.id = t <;> simp [marked, h]

theorem roll_killTeams (ts : List Nat) : roll (ts.foldl (fun p t => p.killTeam t) p) = (roll p).map (marked ts) := by
  induction ts generalizing p with
  | nil => exact (List.map_id'' (fun e => by simp [marked]) _).symm
  | cons t ts ih =>
    rw [List.foldl_cons, ih, roll_killTeam, List.map_map]
    refine List.map_congr_left fun e _ => ?_
    by_cases h : e.1 = t <;> by_cases h' : e.1 ∈ ts <;> simp [marked, h, h']

theorem roll_restoreSparse (t : Nat) : roll (p.restoreSparse t) = roll p := by
  unfold Package.restoreSparse
  split
  · rfl
  · split
    · rfl
    · exact roll_setTeam _ fun _ => rfl

theorem roll_restoreAll : roll p.restoreAll = roll p := 
  foldl_part roll (f := fun (p : Package) (tm : Team) => p.restoreSparse tm.id) (fun p tm => roll_restoreSparse p tm.id) _ p

theorem roll_dropTeam (t : Nat) : ∀ e ∈ roll (p.dropTeam t), e ∈ roll p := by
  intro e he
  rw [Package.dropTeam, roll_restoreAll] at he
  obtain ⟨tm, htm, rfl⟩ := List.mem_map.mp he
  exact List.mem_map_of_mem (List.mem_filter.mp htm).1

theorem roll_dropTeams (ts : List Nat) : ∀ e ∈ roll (ts.foldl (fun p t => p.dropTeam t) p), e ∈ roll p := by
  induction ts generalizing p with
  | nil => exact fun _ h => h
  | cons t ts ih => exact fun e he => roll_dropTeam p t e (ih _ e he)

/-- After the first step of a reset the teams of the world that still stand are killed (R325). -/
theorem killed_of_endWorld (x : World) : ∀ tm ∈ (p.endWorld x).teams, tm.world = x.id → tm.killed = true := by
  intro tm htm here
  have listed : (tm.id, tm.world, tm.killed) ∈ roll (p.endWorld x) := List.mem_map_of_mem htm
  obtain ⟨e, he, same⟩ := List.mem_map.mp (roll_killTeams p _ ▸ roll_dropTeams _ _ _ listed)
  obtain ⟨tm₀, htm₀, rfl⟩ := List.mem_map.mp he
  have world : tm₀.world = tm.world := by
    have seen := congrArg (fun e => e.2.1) same
    dsimp only [marked] at seen
    split at seen <;> exact seen
  have mine : tm₀.id ∈ (p.teams.filter (fun tm => tm.world == x.id)).map (·.id) :=
    List.mem_map_of_mem (List.mem_filter.mpr ⟨htm₀, by simp [world, here]⟩)
  rw [marked, if_pos mine] at same
  exact (congrArg (fun e => e.2.2) same).symm

/-! ### The end of a world's teams, jobs and grids -/

theorem endWorld_jobs (x : World) : ∀ j ∈ (p.endWorld x).jobs, j.world = x.id → j.posted = true ∨ j.done = true ∧ j.status = 6 := by
  intro j hj here
  obtain ⟨j₀, -, rfl⟩ := List.mem_map.mp hj
  have mine : j₀.world = x.id := by
    dsimp only at here
    split at here
    next h => simpa using h
    · exact here
  rw [if_pos (by simpa using mine)]
  unfold Job.abort
  split
  next posted => exact .inl posted
  · exact .inr ⟨rfl, rfl⟩

/-- When some journal entries become aborted, each entry is at its end, or was none of them. -/
theorem mem_journalMove_abort {p : Package} {hit : JEntry → Bool} {d : Nat} {e : JEntry} (he : e ∈ (p.journalMove hit 3 d).journal) :
    e.terminal = true ∨ e ∈ p.journal ∧ (hit e && !e.terminal) = false := by
  obtain ⟨e₀, he₀, rfl⟩ := List.mem_map.mp he
  dsimp only
  by_cases h : (hit e₀ && !e₀.terminal) = true
  · rw [if_pos h]
    exact .inl rfl
  · rw [if_neg h]
    exact .inr ⟨he₀, Bool.eq_false_iff.mpr h⟩

theorem endWorld_journal (x : World) : ∀ e ∈ (p.endWorld x).journal, e.world = x.id → e.queue ∈ x.queues → e.terminal = true := by
  intro e he here queue
  rcases mem_journalMove_abort he with ended | ⟨-, open_⟩
  · exact ended
  · simpa [here, queue] using open_

theorem endWorld_grids (x : World) : ∀ g ∈ (p.endWorld x).grids, g.world ≠ x.id := by
  intro g hg
  simpa using (List.mem_filter.mp hg).2

theorem sendReset_keeps (world : Nat) : (p.sendReset world).teams = p.teams ∧ (p.sendReset world).jobs = p.jobs ∧
    (p.sendReset world).journal = p.journal ∧ (p.sendReset world).grids = p.grids ∧ (p.sendReset world).sys = p.sys := by
  unfold Package.sendReset
  split
  · exact ⟨rfl, rfl, rfl, rfl, rfl⟩
  · split <;> exact ⟨rfl, rfl, rfl, rfl, rfl⟩

theorem world?_setTide (w : Nat) (f : Tide → Tide) : (p.setTide w f).world? w = (p.world? w).map (fun x => { x with tide := x.tide.map f }) :=
  world?_setWorld (fun _ => rfl)

/-- A message about a reset leaves the marks of the worlds' resets. -/
theorem sendReset_resetting (world : Nat) : ∀ y, (p.sendReset world).world? world = some y → ∃ x, p.world? world = some x ∧ y.resetting = x.resetting := by
  intro y hy
  unfold Package.sendReset at hy
  split at hy
  · exact ⟨y, hy, rfl⟩
  · split at hy
    · rw [world?_setTide] at hy
      obtain ⟨x, hx, rfl⟩ := Option.map_eq_some_iff.mp hy
      exact ⟨x, hx, rfl⟩
    · exact ⟨y, hy, rfl⟩
    · exact ⟨y, hy, rfl⟩

end

/-! ### The reset (R266, R325) -/

/-- The scrub that a reset will begin. -/
def resetRun (p : Package) (world seq journal : Nat) : ScrubRun :=
  { seq, journal, world, tstart := p.time, nframes := 0, excl := [], writes := none }

/-- The package once a world whose teams, jobs and grids are gone is marked, its scrub noted and its domain told. -/
def resetNoted (p : Package) (world seq journal : Nat) : Package :=
  let p := p.setWorld world (fun x => { x with resetting := true })
  ({ p with sys := { p.sys with scrubs := p.sys.scrubs ++ [resetRun p world seq journal] } }).sendReset world

theorem resetNoted_keeps (p : Package) (world seq journal : Nat) :
    (resetNoted p world seq journal).teams = p.teams ∧ (resetNoted p world seq journal).jobs = p.jobs ∧
    (resetNoted p world seq journal).journal = p.journal ∧ (resetNoted p world seq journal).grids = p.grids :=
  let ⟨teams, jobs, journal, grids, _⟩ := sendReset_keeps _ world
  ⟨teams, jobs, journal, grids⟩

theorem resetNoted_resetting (p : Package) (world seq journal : Nat) :
    ∀ y, (resetNoted p world seq journal).world? world = some y → y.resetting = true := by
  intro y hy
  obtain ⟨z, hz, same⟩ := sendReset_resetting _ world y hy
  obtain ⟨z₀, -, rfl⟩ := Option.map_eq_some_iff.mp
    ((world?_setWorld (p := p) (w := world) (f := fun x => { x with resetting := true }) (fun _ => rfl)).symm.trans hz)
  exact same

theorem resetNoted_scrub (p : Package) (world seq journal : Nat) : ∃ r ∈ (resetNoted p world seq journal).sys.scrubs, r.world = world ∧ r.writes = none := by
  obtain ⟨-, -, -, -, sys⟩ := sendReset_keeps (let p := p.setWorld world (fun x => { x with resetting := true })
    { p with sys := { p.sys with scrubs := p.sys.scrubs ++ [resetRun p world seq journal] } }) world
  rw [resetNoted, sys]
  exact ⟨_, List.mem_append_right _ List.mem_cons_self, rfl, rfl⟩

theorem worldReset_completes {s : State} {world : Nat} {x : World} (hx : s.here.world? world = some x) (room : s.here.journalRoom systemQueue = true)
    (first : x.resetting = false) : ∃ q, Answers (.worldReset world) s q ∧
    (∀ tm ∈ q.teams, tm.world = world → tm.killed = true) ∧
    (∀ j ∈ q.jobs, j.world = world → j.posted = true ∨ j.done = true ∧ j.status = 6) ∧
    (∀ e ∈ q.journal, e.world = world → e.queue ∈ x.queues → e.terminal = true) ∧ (∀ g ∈ q.grids, g.world ≠ world) ∧
    (∀ y, q.world? world = some y → y.resetting = true) ∧ ∃ r ∈ q.sys.scrubs, r.world = world ∧ r.writes = none := by
  obtain rfl := Package.id_of_world? hx
  generalize ended : (s.here.commandAdd systemQueue 0 7 0 1).2.fresh.2 = p
  obtain ⟨teams, jobs, journal, grids⟩ := resetNoted_keeps (p.endWorld x) x.id (s.here.commandAdd systemQueue 0 7 0 1).2.nextId
    (s.here.commandAdd systemQueue 0 7 0 1).1
  refine ⟨_, ?_, teams ▸ killed_of_endWorld p x, jobs ▸ endWorld_jobs p x, journal ▸ endWorld_journal p x, grids ▸ endWorld_grids p x,
    resetNoted_resetting _ _ _ _, resetNoted_scrub _ _ _ _⟩
  rw [Answers, show exec (.worldReset x.id) s = execWorldReset x.id s from rfl, execWorldReset]
  refine lift_next ?_
  simp only [hx, room, first]
  rw [← ended]
  rfl

end Sys2Proof.Claims
end

section
/-! SUPPORT. Worlds that are made, domains that are formed, and the resets of a package and of a die (R319, R321, R324, R482). -/

namespace Sys2Proof.Claims

open Sys2Proof.Machine

/-! ### Worlds that lose manifests and banks (R290, R196) -/

theorem takeManifest_worlds (p : Package) (world k : Nat) : (p.takeManifest world k).worlds =
    mapIf (fun x => x.id != world) (fun x => { x with manifests := x.manifests.filter (fun e => e.2 != k) }) p.worlds := by
  unfold Package.takeManifest
  dsimp only
  split <;> rfl

/-- A world that stands after another one took manifests is one from before without them. -/
theorem mem_takeManifests {p : Package} {world : Nat} {ks : List Nat} {y : World} (hy : y ∈ (ks.foldl (fun p k => p.takeManifest world k) p).worlds) :
    ∃ z ∈ p.worlds, y = { z with manifests := y.manifests } ∧ ∀ m ∈ y.manifests, m ∈ z.manifests ∧ (y.id ≠ world → m.2 ∉ ks) := by
  induction ks generalizing p with
  | nil => exact ⟨y, hy, rfl, fun m hm => ⟨hm, fun _ => List.not_mem_nil⟩⟩
  | cons k ks ih =>
    obtain ⟨z, hz, same, fewer⟩ := ih hy
    rw [takeManifest_worlds] at hz
    obtain ⟨z₀, hz₀, rfl⟩ := List.mem_map.mp hz
    have id : y.id = z₀.id := by
      rw [same]
      dsimp only
      split <;> rfl
    by_cases other : z₀.id = world
    · rw [if_neg (by simpa using other)] at same fewer
      exact ⟨z₀, hz₀, same, fun m hm => ⟨(fewer m hm).1, fun h => absurd (id.trans other) h⟩⟩
    · rw [if_pos (by simpa using other)] at same fewer
      refine ⟨z₀, hz₀, same, fun m hm => ?_⟩
      obtain ⟨kept, rest⟩ := fewer m hm
      obtain ⟨kept, ne⟩ := List.mem_filter.mp kept
      exact ⟨kept, fun h => List.not_mem_cons_of_ne_of_not_mem (by simpa using ne) (rest h)⟩

/-- Banks of the worlds after some banks were cleared. -/
theorem mem_clearBanks {p : Package} {bs : List (Nat × Nat × Nat)} {y : World} (hy : y ∈ (bs.foldl (fun p b => p.clearBank b.1 b.2.2) p).worlds) :
    ∃ z ∈ p.worlds, y = { z with banks := y.banks } ∧ ∀ b ∈ y.banks, b ∈ z.banks ∧ ∀ c ∈ bs, ¬(b.1 = c.1 ∧ b.2.2 = c.2.2) := by
  induction bs generalizing p with
  | nil => exact ⟨y, hy, rfl, fun b hb => ⟨hb, fun c hc => absurd hc List.not_mem_nil⟩⟩
  | cons c bs ih =>
    obtain ⟨z, hz, same, fewer⟩ := ih hy
    obtain ⟨z₀, hz₀, rfl⟩ := List.mem_map.mp hz
    refine ⟨z₀, hz₀, same, fun b hb => ?_⟩
    obtain ⟨kept, rest⟩ := fewer b hb
    obtain ⟨kept, ne⟩ := List.mem_filter.mp kept
    refine ⟨kept, fun d hd => ?_⟩
    rcases List.mem_cons.mp hd with rfl | hd
    · simpa [-not_and, not_and_or] using ne
    · exact rest d hd

theorem clearBanks_banks {p : Package} {bs : List (Nat × Nat × Nat)} {z : Bank} (hz : z ∈ (bs.foldl (fun p b => p.clearBank b.1 b.2.2) p).banks) :
    z ∈ p.banks ∧ ∀ b ∈ bs, ¬(z.cluster = b.1 ∧ z.phys = b.2.2) := by
  induction bs generalizing p with
  | nil => exact ⟨hz, fun b hb => absurd hb List.not_mem_nil⟩
  | cons c bs ih =>
    obtain ⟨kept, rest⟩ := ih hz
    obtain ⟨kept, ne⟩ := List.mem_filter.mp kept
    refine ⟨kept, fun b hb => ?_⟩
    rcases List.mem_cons.mp hb with rfl | hb
    · simpa [-not_and, not_and_or] using ne
    · exact rest b hb

/-! ### WORLD_CREATE (R319, R321) -/

/-- The world that a description makes. -/
def createdWorld (w : WorldSpec) : World :=
  { World.blank w.id with caps := BitVec.ofNat 128 w.caps, clusters := w.clusters, banks := w.banks, queues := w.queues
                          manifests := numbered w.manifests, peers := w.peers.map (fun q => { logical := q.1, phys := q.2, state := .reachable })
                          debug := w.debug, keys := [some (Config.worldKey w.id), none] }

theorem mem_numbered {xs : List Nat} {k m : Nat} (h : xs[k]? = some m) : (k, m) ∈ numbered xs := by
  obtain ⟨hk, rfl⟩ := List.getElem?_eq_some_iff.mp h
  refine List.mem_iff_getElem.mpr ⟨k, by simpa [numbered] using hk, ?_⟩
  simp [numbered]

theorem find?_of_unique {l : List World} {x : World} (hx : x ∈ l) (unique : ∀ y ∈ l, y.id = x.id → y = x) : l.find? (fun y => y.id == x.id) = some x := by
  cases found : l.find? (fun y => y.id == x.id) with
  | none => exact absurd (beq_self_eq_true x.id) (List.find?_eq_none.mp found x hx)
  | some y => rw [unique y (List.mem_of_find?_eq_some found) (by simpa using List.find?_some found)]

/-- The package once the world's manifests and banks have left every other world. -/
def vacated (p : Package) (w : WorldSpec) : Package :=
  w.banks.foldl (fun p b => p.clearBank b.1 b.2.2) (w.manifests.foldl (fun p k => p.takeManifest w.id k) p)

theorem mem_vacated {p : Package} {w : WorldSpec} {y : World} (hy : y ∈ (vacated p w).worlds) (other : y.id ≠ w.id) :
    ∃ z ∈ p.worlds, y = { z with manifests := y.manifests, banks := y.banks } ∧
      (∀ m ∈ y.manifests, m ∈ z.manifests ∧ m.2 ∉ w.manifests) ∧ ∀ b ∈ y.banks, b ∈ z.banks ∧ ∀ c ∈ w.banks, ¬(b.1 = c.1 ∧ b.2.2 = c.2.2) := by
  obtain ⟨z, hz, same, banks⟩ := mem_clearBanks hy
  obtain ⟨z₀, hz₀, same₀, mans⟩ := mem_takeManifests hz
  have id : y.id = z.id := by rw [same]
  have manifests : y.manifests = z.manifests := by rw [same]
  have banks₀ : z.banks = z₀.banks := by rw [same₀]
  refine ⟨z₀, hz₀, ?_, fun m hm => ?_, fun b hb => ?_⟩
  · rw [manifests]
    rw [same₀] at same
    exact same
  · obtain ⟨kept, free⟩ := mans m (manifests ▸ hm)
    exact ⟨kept, free (id ▸ other)⟩
  · exact banks₀ ▸ banks b hb

section
variable {s : State}

theorem holdersSuspended_of {p : Package} {world : Nat} {ms : List Nat} {bs : List (Nat × Nat × Nat)}
    (h : ∀ x ∈ p.worlds, x.id ≠ world → ((∃ e ∈ x.manifests, e.2 ∈ ms) ∨ ∃ b ∈ x.banks, ∃ c ∈ bs, b.1 = c.1 ∧ b.2.2 = c.2.2) → p.suspended x.id = true) :
    p.holdersSuspended world ms (bs.map (fun b => (b.1, b.2.2))) = true := by
  refine List.all_eq_true.mpr fun x hx => ?_
  by_cases other : x.id = world
  · simp [other]
  · by_cases holds : (∃ e ∈ x.manifests, e.2 ∈ ms) ∨ ∃ b ∈ x.banks, ∃ c ∈ bs, b.1 = c.1 ∧ b.2.2 = c.2.2
    · simp [h x hx other holds]
    · obtain ⟨mans, banks⟩ := not_or.mp holds
      have mans : x.manifests.any (fun e => ms.contains e.2) = false :=
        List.any_eq_false.mpr fun e he hit => mans ⟨e, he, by simpa using hit⟩
      have banks : x.banks.any (fun b => (bs.map (fun b => (b.1, b.2.2))).contains (b.1, b.2.2)) = false :=
        List.any_eq_false.mpr fun b hb hit => by
          obtain ⟨c, hc, same⟩ := List.mem_map.mp (List.contains_iff_mem.mp hit)
          obtain ⟨cluster, phys⟩ := Prod.mk.inj same
          exact banks ⟨b, hb, c, hc, cluster.symm, phys.symm⟩
      rw [mans, banks]
      exact Bool.or_true _

theorem worldCreate_completes {w : WorldSpec} (booted : s.here.sys.booted = true) (halt : s.here.sys.bootHalt = none) (ok : specOk w = true)
    (teams : ∀ tm ∈ s.here.teams, tm.world ≠ w.id) (grids : ∀ g ∈ s.here.grids, g.world ≠ w.id) (jobs : ∀ j ∈ s.here.jobs, j.world ≠ w.id)
    (old : ∀ x, s.here.world? w.id = some x → x.resetting = false ∧ x.tide = none)
    (holders : ∀ x ∈ s.here.worlds, x.id ≠ w.id →
      ((∃ e ∈ x.manifests, e.2 ∈ w.manifests) ∨ ∃ b ∈ x.banks, ∃ c ∈ w.banks, b.1 = c.1 ∧ b.2.2 = c.2.2) → s.here.suspended x.id = true) :
    ∃ q x, Answers (.worldCreate w) s q ∧ q.world? w.id = some x ∧ x.caps = BitVec.ofNat 128 w.caps ∧ x.debug = w.debug ∧ x.queues = w.queues ∧
      x.banks = w.banks ∧ x.clusters = w.clusters ∧ x.tide = none ∧ x.keys = [some (Config.worldKey w.id), none] ∧ x.epoch = 0 ∧
      (∀ k m, w.manifests[k]? = some m → (k, m) ∈ x.manifests) ∧
      (∀ b ∈ w.banks, ∀ z ∈ q.banks, ¬(z.cluster = b.1 ∧ z.phys = b.2.2)) ∧
      ∀ y ∈ q.worlds, y.id ≠ w.id → ∃ z ∈ s.here.worlds, y = { z with manifests := y.manifests, banks := y.banks } ∧
        (∀ m ∈ y.manifests, m ∈ z.manifests ∧ m.2 ∉ w.manifests) ∧ ∀ b ∈ y.banks, b ∈ z.banks ∧ ∀ c ∈ w.banks, ¬(b.1 = c.1 ∧ b.2.2 = c.2.2) := by
  let p := vacated s.here w
  have listed (y : World) : y ∈ sortBy World.id (p.worlds.filter (fun y => y.id != w.id) ++ [createdWorld w]) ↔
      y ∈ p.worlds ∧ y.id ≠ w.id ∨ y = createdWorld w := by
    rw [mem_sortBy_iff, List.mem_append, List.mem_filter, List.mem_singleton, bne_iff_ne]
  have unheld : (s.here.teams.any (fun tm => tm.world == w.id) || s.here.grids.any (fun g => g.world == w.id) || s.here.jobs.any (fun j => j.world == w.id)
      || (s.here.world? w.id).any (fun x => x.resetting || x.tide.isSome)) = false := by
    simp only [Bool.or_eq_false_iff, List.any_eq_false, beq_iff_eq]
    refine ⟨⟨⟨teams, grids⟩, jobs⟩, ?_⟩
    cases hx : s.here.world? w.id with
    | none => rfl
    | some x => simp [old x hx]
  refine ⟨{ p with worlds := sortBy World.id (p.worlds.filter (fun y => y.id != w.id) ++ [createdWorld w]) }, createdWorld w, ?_, ?_, rfl, rfl, rfl, rfl, rfl,
    rfl, rfl, rfl, fun k m h => mem_numbered h, fun b hb z hz => (clearBanks_banks hz).2 b hb, fun y hy other => ?_⟩
  · rw [Answers, show exec (.worldCreate w) s = execWorldCreate w s from rfl, execWorldCreate]
    refine lift_next ?_
    simp only [booted, halt, ok, unheld, holdersSuspended_of holders]
    rfl
  · refine find?_of_unique (x := createdWorld w) ((listed _).mpr (.inr rfl)) (fun y hy id => ?_)
    exact ((listed y).mp hy).resolve_left (fun h => h.2 id)
  · rcases (listed y).mp hy with ⟨hy, -⟩ | rfl
    · exact mem_vacated hy other
    · exact absurd rfl other

/-! ### DOMAIN_FORM (R267, R482) -/

theorem setWorld_found {p : Package} {w : Nat} {f : World → World} {x : World} (hx : p.world? w = some x) (id : ∀ x, (f x).id = x.id) :
    (p.setWorld w f).world? w = some (f x) := by
  rw [world?_setWorld id, hx]
  rfl

/-- The domain of a world at its first step. -/
def formedTide (me : Nat) (ms gs : List Nat) : Tide :=
  { size := ms.length, me := ms.idxOf me, phys := ms, groups := gs, step := 0, state := .running, causes := Causes.none
    nextCauses := Causes.none, unacked := 0, members := [], merged := Causes.none, roots := [], rootMerged := Causes.none, rootStep := 0, status := 0
    origin := 0, lost := 0, nextLost := 0, recs := [], spill := [], nextRecs := [], nextSpill := [], nextBulk := [] }

theorem domainForm_completes {world : Nat} {ms gs : List Nat} {x : World} (hx : s.here.world? world = some x) (tide : x.tide = none)
    (resetting : x.resetting = false) (suspended : s.here.suspended world = true) (member : s.here.phys ∈ ms) (len : ms.length = gs.length)
    (few : ms.length ≤ 4096) (nodup : ms.Nodup) (peers : ∀ k m, ms[k]? = some m → ∃ y ∈ x.peers, y.logical = k ∧ y.phys = m) :
    ∃ q y t, Answers (.domainForm world ms gs) s q ∧ q.world? world = some y ∧ y.tide = some t ∧ t.size = ms.length ∧
      t.me = ms.idxOf s.here.phys ∧ t.phys = ms ∧ t.groups = gs ∧ t.step = 0 ∧ t.state = .running ∧ t.recs = [] ∧ t.unacked = 0 := by
  have known : (List.range ms.length).all (fun k => x.peers.any (fun q => q.logical == k && ms[k]? == some q.phys)) = true := by
    refine List.all_eq_true.mpr fun k hk => ?_
    have at_ := List.getElem?_eq_getElem (List.mem_range.mp hk)
    obtain ⟨y, hy, logical, phys⟩ := peers k _ at_
    exact List.any_eq_true.mpr ⟨y, hy, by simp [logical, at_, phys]⟩
  have same : (ms.length != gs.length) = false := by simp [len]
  have size : ¬4096 < ms.length := by omega
  refine ⟨s.here.setWorld world (fun x => { x with tide := some (formedTide s.here.phys ms gs) }), { x with tide := some (formedTide s.here.phys ms gs) }, _,
    ?_, ?_, rfl, rfl, rfl, rfl, rfl, rfl, rfl, rfl, rfl⟩
  · rw [Answers, show exec (.domainForm world ms gs) s = execDomainForm world ms gs s from rfl, execDomainForm]
    refine lift_next ?_
    simp only [hx, tide, resetting, suspended, known, List.contains_iff_mem.mpr member, same, size, nodup]
    rfl
  · exact setWorld_found hx fun _ => rfl

/-! ### PACKAGE_RESET (R324, R319) -/

/-- Booting keeps the flash and the fuses, and completes only over images that verify. -/
theorem bootFrom_keeps (y : System) (k n : Nat) : (y.bootFrom k n).flash = y.flash ∧ (y.bootFrom k n).devFuse = y.devFuse ∧ (y.bootFrom k n).keyId = y.keyId ∧
    ((y.bootFrom k n).booted = true → y.booted = true ∨ ∀ j, k ≤ j → j < k + n → (y.image j).isSome = true) := by
  induction n generalizing y k with
  | zero => exact ⟨rfl, rfl, rfl, fun _ => .inr fun j hlo hhi => by omega⟩
  | succ n ih =>
    unfold System.bootFrom
    split
    · exact ⟨rfl, rfl, rfl, .inl⟩
    next f image =>
      obtain ⟨flash, devFuse, keyId, booted⟩ := ih { y with mrs := y.mrs.set k (sha384 (toBytes 48 (y.mrs.getD k 0) ++ toBytes 48 f.hash)) } (k + 1)
      refine ⟨flash, devFuse, keyId, fun h => (booted h).imp_right fun images j hlo hhi => ?_⟩
      rcases Nat.eq_or_lt_of_le hlo with rfl | hlo
      · rw [image]
        rfl
      · exact images j hlo (by omega)

/-- The system block after the boot that a package reset begins. -/
def rebooted (y : System) : System :=
  { System.reset with flash := y.flash, keyId := y.keyId, devFuse := y.devFuse, retired := y.retired }.boot

theorem packageReset_completes : ∃ q, Answers .packageReset s q ∧ q.mem = [] ∧ q.labels = [(0, 0)] ∧ q.teams = [] ∧ q.gangs = [] ∧ q.endorse = [] ∧
    q.mans = [] ∧ q.banks = [] ∧ q.now = 0 ∧ q.sys.flash = s.here.sys.flash ∧ q.sys.devFuse = s.here.sys.devFuse ∧ q.sys.keyId = s.here.sys.keyId ∧
    (q.sys.booted = true → ∀ k < 4, (s.here.sys.image k).isSome) ∧ q.worlds = (if q.sys.booted then [World.own 0, World.own 63] else []) ∧
    ∀ e ∈ q.journal, e.terminal = true := by
  obtain ⟨flash, devFuse, keyId, booted⟩ := bootFrom_keeps { { System.reset with
    flash := s.here.sys.flash, keyId := s.here.sys.keyId, devFuse := s.here.sys.devFuse, retired := s.here.sys.retired } with
    mrs := [0, 0, 0, 0], bootHalt := none, booted := false } 0 4
  refine ⟨_, by rw [Answers, show exec .packageReset s = execPackageReset s from rfl, execPackageReset]; exact lift_next rfl,
    rfl, rfl, rfl, rfl, rfl, rfl, rfl, rfl, flash, devFuse, keyId, fun h k hk => ?_, rfl, fun e he => ?_⟩
  · rcases booted h with h | images
    · cases h
    · exact images k (by omega) (by omega)
  · rcases mem_journalMove_abort he with ended | ⟨-, open_⟩
    · exact ended
    · simpa using open_

/-! ### DIE_RESET (R324) -/

/-- The copies of lines in the clusters of a die, each with its line. -/
def lostCopies (p : Package) (die : Nat) : List (Nat × Nat) :=
  p.lines.flatMap (fun l => (l.copies.filter (fun c => dieOfCluster c.cluster == die)).map (fun (c : Copy) => (l.addr, c.cluster)))

/-- The package without what the caches, cores and cluster memories of a die hold. -/
def dieCleared (p : Package) (die : Nat) : Package :=
  let p := (lostCopies p die).foldl (fun (p : Package) c => p.dropCopy c.1 c.2) p
  { p with cores := mapIf (fun c => dieOfCore c.id == die) (fun c => Core.reset c.id) p.cores
           parts := p.parts.filter (fun x => dieOfCore x.core != die)
           banks := p.banks.filter (fun b => dieOfCluster b.cluster != die)
           pods := p.pods.filter (fun c => c.cluster.all (fun k => dieOfCluster k != die))
           walks := p.walks.filter (fun l => l.die != die)
           layouts := p.layouts.filter (fun l => l.die != die) }

theorem dieReset_completes {die : Nat} (saved : ∀ tm ∈ s.here.teams, tm.occupies = true → ∀ c ∈ tm.cores, dieOfCore c ≠ die) :
    ∃ q, Answers (.dieReset die) s q ∧ sameStore s.here q ∧
      (∀ c ∈ q.cores, dieOfCore c.id = die → c = Core.reset c.id) ∧ (∀ b ∈ q.banks, dieOfCluster b.cluster ≠ die) ∧
      (∀ c ∈ q.pods, ∀ k, c.cluster = some k → dieOfCluster k ≠ die) ∧ (∀ l ∈ q.layouts, l.die ≠ die) ∧ ∀ l ∈ q.walks, l.die ≠ die := by
  have none : s.here.teams.any (fun tm => tm.cores.any (fun c => dieOfCore c == die) && tm.occupies) = false := by
    refine List.any_eq_false.mpr fun tm htm hit => ?_
    obtain ⟨cores, occupies⟩ := Bool.and_eq_true_iff.mp hit
    obtain ⟨c, hc, same⟩ := List.any_eq_true.mp cores
    exact saved tm htm occupies c hc (by simpa using same)
  have kept : uncached ((lostCopies s.here die).foldl (fun (p : Package) c => p.dropCopy c.1 c.2) s.here) = uncached s.here :=
    foldl_part uncached (f := fun (p : Package) (c : Nat × Nat) => p.dropCopy c.1 c.2) (fun p c => uncached_dropCopy p c.1 c.2) _ s.here
  refine ⟨dieCleared s.here die, ?_, ?_, fun c hc here => ?_, fun b hb => ?_, fun c hc k hk => ?_, fun l hl => ?_, fun l hl => ?_⟩
  · rw [Answers, show exec (.dieReset die) s = execDieReset die s from rfl, execDieReset]
    refine lift_next (if_neg ?_)
    simp [none]
  · obtain ⟨mem, glabels, labels⟩ := sameStore_of_unwritten (unwritten_of_uncached kept)
    exact ⟨mem, glabels, labels⟩
  · obtain ⟨c₀, -, rfl⟩ := List.mem_map.mp hc
    dsimp only at here ⊢
    split at here
    next hit => rw [if_pos hit]; rfl
    next hit => exact absurd here (by simpa using hit)
  · simpa using (List.mem_filter.mp hb).2
  · simpa [hk] using (List.mem_filter.mp hc).2
  · simpa using (List.mem_filter.mp hl).2
  · simpa using (List.mem_filter.mp hl).2

end

/-! ### The statement -/

/-- Settles O50: each event by what its step leaves; the world's reset by the roll of the teams, which killing a team changes by its mark alone. -/
theorem worldsAndResetsComplete : Obligations.WorldsAndResetsComplete := by
  unfold Obligations.WorldsAndResetsComplete
  refine ⟨fun s w booted halt ok teams grids jobs old holders => worldCreate_completes booted halt ok teams grids jobs old holders,
    fun s world ms gs x hx tide resetting suspended member len few nodup peers =>
      domainForm_completes hx tide resetting suspended member len few nodup peers,
    fun s world x hx room first => worldReset_completes hx room first, fun s lo n inside room => scrub_completes inside room,
    fun p y page pte wf disc engine cells => commit_wipes wf disc engine cells, ⟨rfl, fun s lo n beyond => scrub_beyond beyond⟩,
    fun s k r ids found writes => ⟨scrubReceipt_waits found writes, scrubReceipt_gives found writes⟩, fun s k r x found writes hx ready => ?_,
    fun s k r x found writes hx early => scrubReceipt_early found writes hx early, fun s k r found writes gone => scrubReceipt_noWorld found writes gone,
    fun s => packageReset_completes, fun s die saved => dieReset_completes saved⟩
  obtain ⟨endorse, keys, grids, scrub⟩ := clearWorld_clears (x := x) (List.mem_of_find?_eq_some found)
  obtain rfl : r.seq = k := by simpa using List.find?_some found
  exact ⟨_, answers_scrubReceipt_reset found writes hx ready, endorse, keys, grids, scrub⟩

end Sys2Proof.Claims
end

section
/-! SUPPORT. The services of the system cores that answer at once: reports, dumps, debug requests, snapshots, shares, banks and memory faults
(R320, R322, R330 to R333, R447, R196, R111, R194). -/

namespace Sys2Proof.Claims

open Sys2Proof.Machine

theorem answers_lift {x : Instr} {s : State} {f : Package → Package} (h : exec x s = lift f s) : Answers x s (f s.here) := h.trans (lift_next rfl)

/-! ### What belongs to a protected world (R332) -/

theorem hides_iff {p : Package} {w : Nat} : p.hides w = true ↔ ∃ x ∈ p.worlds, x.id = w ∧ x.isProtected = true := by
  simp [Package.hides]

theorem hides_not_iff {p : Package} {w : Nat} : (!p.hides w) = true ↔ ∀ x ∈ p.worlds, x.id = w → x.isProtected = false := by
  simp [Package.hides]

/-! ### Reports and dumps (R320, R333) -/

section
variable {s : State}

theorem attestationReport_completes (nonce world : Nat) : ∃ q r, Answers (.attestationReport nonce world) s q ∧
    q.sys.reports = s.here.sys.reports ++ [r] ∧ r.nonce = nonce % 2 ^ 512 ∧ r.mrs = s.here.sys.mrs ∧
    r.fuse = s.here.sys.devFuse ∧ r.keys = s.here.sys.keyId ∧ r.pkg = s.here.phys ∧ (world = 0 → r.world = none) ∧
    (∀ x, world ≠ 0 → s.here.world? world = some x → r.world = some (x.debug, x.caps)) := by
  refine ⟨_, _, answers_lift (show exec (.attestationReport nonce world) s = execAttestationReport nonce world s from rfl), rfl, rfl, rfl, rfl, rfl, rfl,
    fun h => if_pos h, fun x h hx => ?_⟩
  exact (if_neg h).trans (congrArg (Option.map (fun x : World => (x.debug, x.caps))) hx)

theorem crashDump_completes (flash : Bool) : ∃ q d, Answers (.crashDump flash) s q ∧ q.sys.dumps = s.here.sys.dumps ++ [d] ∧ d.toFlash = flash ∧
    (∀ o ∈ s.here.owners, o.1 ∈ d.omitted ↔ ∃ w, (o.1, w) ∈ s.here.owners ∧ ∃ x ∈ s.here.worlds, x.id = w ∧ x.isProtected = true) ∧
    (∀ c, c ∈ d.mem ↔ c ∈ s.here.mem ∧ ∀ x ∈ s.here.worlds, x.id = s.here.ownerOf c.1 → x.isProtected = false) ∧
    (∀ tm, tm ∈ d.teams ↔ tm ∈ s.here.teams ∧ ∀ x ∈ s.here.worlds, x.id = tm.world → x.isProtected = false) ∧
    (∀ e, e ∈ d.keys ↔ ∃ x ∈ s.here.worlds, e = (x.id, x.keys) ∧ ∀ y ∈ s.here.worlds, y.id = x.id → y.isProtected = false) ∧ d.snaps = s.here.snapRead := by
  refine ⟨_, _, answers_lift (show exec (.crashDump flash) s = execCrashDump flash s from rfl), rfl, rfl, fun o _ => ?_, fun c => ?_, fun tm => ?_,
    fun e => ?_, rfl⟩
  · simp only [List.mem_map, List.mem_filter, hides_iff]
    constructor
    · rintro ⟨o', ⟨ho, hidden⟩, same⟩
      exact ⟨o'.2, by rwa [← same], hidden⟩
    · rintro ⟨w, ho, hidden⟩
      exact ⟨(o.1, w), ⟨ho, hidden⟩, rfl⟩
  · rw [List.mem_filter, hides_not_iff]
  · rw [List.mem_filter, hides_not_iff]
  · simp only [List.mem_map, List.mem_filter, hides_not_iff]
    constructor
    · rintro ⟨x, ⟨hx, shown⟩, rfl⟩
      exact ⟨x, hx, rfl, shown⟩
    · rintro ⟨x, hx, rfl, shown⟩
      exact ⟨x, ⟨hx, shown⟩, rfl⟩

theorem snapRead_shows (p : Package) : p.snapRead.length = p.sys.snaps.length ∧ ∀ (k : Nat) x y, p.sys.snaps[k]? = some x → p.snapRead[k]? = some y →
    y.time = x.time ∧ y.sources = x.sources ∧
    (∀ tm, tm ∈ y.teams ↔ tm ∈ x.teams ∧ ∀ z ∈ p.worlds, z.id = tm.world → z.isProtected = false) ∧
    (∀ b, b ∈ y.banks ↔ b ∈ x.banks ∧ ∀ z ∈ p.worlds, z.id = b.1 → z.isProtected = false) ∧
    (∀ j, j ∈ y.jobs ↔ j ∈ x.jobs ∧ ∀ z ∈ p.worlds, z.id = j.world → z.isProtected = false) ∧
    ∀ a, a ∈ y.accs ↔ a ∈ x.accs ∧ ∀ tm ∈ x.teams, tm.id = a.team → ∀ z ∈ p.worlds, z.id = tm.world → z.isProtected = false := by
  refine ⟨List.length_map _, fun k x y hx hy => ?_⟩
  obtain rfl : x.shown p.hides = y := by
    rw [Package.snapRead, List.getElem?_map, hx] at hy
    exact Option.some.inj hy
  refine ⟨rfl, rfl, fun tm => ?_, fun b => ?_, fun j => ?_, fun a => ?_⟩
  · exact List.mem_filter.trans (and_congr_right fun _ => hides_not_iff)
  · exact List.mem_filter.trans (and_congr_right fun _ => hides_not_iff)
  · exact List.mem_filter.trans (and_congr_right fun _ => hides_not_iff)
  · refine List.mem_filter.trans (and_congr_right fun _ => ?_)
    rw [Bool.not_eq_true', List.any_eq_false]
    refine forall₂_congr fun tm _ => ?_
    rw [Bool.and_eq_true, not_and, beq_iff_eq, Bool.not_eq_true, ← Bool.not_eq_true', hides_not_iff]

/-! ### Device debug (R332) -/

/-- The package after a debug request was answered. -/
def answered (p : Package) (ok : Bool) : Package := { p with sys := { p.sys with console := p.sys.console ++ [ok] } }

theorem debugRequest_refused {world kind : Nat} {x : World} (hx : s.here.world? world = some x) (device : kind ≤ 2) (off : s.here.debugs x = false) :
    ∃ q, Answers (.debugRequest world kind) s q ∧ q.teams = s.here.teams ∧ q.sys = { s.here.sys with console := s.here.sys.console ++ [false] } := by
  refine ⟨answered s.here false, ?_, rfl, rfl⟩
  rw [Answers, show exec (.debugRequest world kind) s = execDebugRequest world kind s from rfl, execDebugRequest]
  refine lift_next ?_
  simp only [hx, Option.any_some, off, if_pos device]
  rfl

theorem debugRequest_halts {world : Nat} {x : World} (hx : s.here.world? world = some x) (on : s.here.debugs x = true) :
    ∃ q, Answers (.debugRequest world 0) s q ∧
    (∀ tm ∈ q.teams, tm.world = world → tm.ended = false → tm.residence ≠ .resident) ∧ q.sys.console = s.here.sys.console ++ [true] := by
  refine ⟨(answered s.here true).haltWorld world .resident .halted, ?_, fun tm htm here live => ?_, rfl⟩
  · rw [Answers, show exec (.debugRequest world 0) s = execDebugRequest world 0 s from rfl, execDebugRequest]
    refine lift_next ?_
    simp only [hx, Option.any_some, on]
    rfl
  obtain ⟨tm₀, -, rfl⟩ := List.mem_map.mp htm
  dsimp only at here live ⊢
  split
  · exact nofun
  next kept =>
    rw [if_neg kept] at here live
    simpa [here, live] using kept

theorem debugRequest_reads {world : Nat} {x : World} (hx : s.here.world? world = some x) (on : s.here.debugs x = true) :
    ∃ q d, Answers (.debugRequest world 2) s q ∧ q.teams = s.here.teams ∧
    q.sys.dumps = s.here.sys.dumps ++ [d] ∧ ∀ tm, tm ∈ d.teams ↔ tm ∈ s.here.teams ∧ tm.world = world := by
  let d : Dump := { toFlash := false, omitted := [], mem := [], teams := s.here.teams.filter (fun tm => tm.world == world), keys := [], snaps := [] }
  refine ⟨{ answered s.here true with sys := { (answered s.here true).sys with dumps := s.here.sys.dumps ++ [d] } }, d, ?_, rfl, rfl, fun tm => ?_⟩
  · rw [Answers, show exec (.debugRequest world 2) s = execDebugRequest world 2 s from rfl, execDebugRequest]
    refine lift_next ?_
    simp only [hx, Option.any_some, on]
    rfl
  · simp [d, List.mem_filter]

/-! ### Snapshots (R330, R331, R447) -/

theorem snapctl_mask : ∀ k < 32, (0xFF00003F#32).getLsbD k = (decide (k < 6) || decide (24 ≤ k)) := by decide

theorem snapctlWrite_completes (v : Word) : ∃ q, Answers (.snapctlWrite v) s q ∧
    q = { s.here with sys := { s.here.sys with snapctl := q.sys.snapctl } } ∧
    ∀ k < 32, q.sys.snapctl.getLsbD k = (v.getLsbD k && (decide (k < 6) || decide (24 ≤ k))) := by
  refine ⟨_, answers_lift (show exec (.snapctlWrite v) s = execSnapctlWrite v s from rfl), rfl, fun k hk => ?_⟩
  exact (BitVec.getLsbD_and ..).trans (congrArg _ (snapctl_mask k hk))

theorem snapPin_latches (armed : s.here.sys.snapctl.getLsbD 2 = true) : Answers .snapPin s (s.here.snapshot 0) := by
  rw [Answers, show exec .snapPin s = execSnapPin s from rfl, execSnapPin]
  exact lift_next (if_pos armed)

theorem instrSnapshotLatch_latches (due : ∃ t ∈ s.here.sys.snapAt, t ≤ s.here.now) : Answers .instrSnapshotLatch s
    (({ s.here with sys := { s.here.sys with snapAt := s.here.sys.snapAt.filter (fun t => decide (s.here.now < t)) } }).snapshot 1) := by
  rw [Answers, show exec .instrSnapshotLatch s = execInstrSnapshotLatch s from rfl, execInstrSnapshotLatch]
  obtain ⟨t, ht, le⟩ := due
  exact lift_next (if_pos (List.any_eq_true.mpr ⟨t, ht, by simpa using le⟩))

theorem snapshot_latches (p : Package) (src : Nat) (armed : p.sys.snapctl.getLsbD 0 = true) :
    ∃ x, (p.snapshot src).sys.snaps = p.sys.snaps ++ [x] ∧ x.time = p.time ∧ x.sources = [src] ∧
    x.teams = p.teams ∧ x.gangs = p.gangs ∧ x.parts = p.parts ∧ x.cores = p.cores ∧ x.rounds = p.rounds ∧ x.accs = p.accs ∧ x.writes = p.writes ∧
    x.jobs = p.jobs ∧ x.mans = p.mans ∧ x.ports = p.ports ∧ x.banks.map (·.2) = p.banks ∧
    (p.snapshot src).sys.snapctl.getLsbD 0 = false ∧ (p.snapshot src).sys.ints.length = p.sys.ints.length + 1 := by
  simp only [Package.snapshot, if_pos armed]
  refine ⟨_, rfl, rfl, rfl, rfl, rfl, rfl, rfl, rfl, rfl, rfl, rfl, rfl, rfl, ?_, ?_, ?_⟩
  · simp [Package.latched, Function.comp_def]
  · simp [Package.interrupt]
  · simp [Package.interrupt]

/-! ### Shares (R322) -/

theorem spFind_spPut_same {α : Type} (l : List (Nat × α)) (a : Nat) (v : α) : spFind (spPut l a v) a = some v := by
  induction l with
  | nil => simp [spPut, spFind]
  | cons e l ih =>
    obtain ⟨b, w⟩ := e
    rw [spPut]
    split
    · simp [spFind]
    · split
      · simp [spFind]
      next ne => rw [spFind, if_neg ne, ih]

theorem find?_eq_spFind {α : Type} (l : List (Nat × α)) (a : Nat) : (l.find? (fun e => e.1 == a)).map (·.2) = spFind l a := by
  induction l with
  | nil => rfl
  | cons e l ih =>
    obtain ⟨b, w⟩ := e
    rw [spFind, List.find?_cons]
    by_cases h : a = b
    · simp [h]
    · have other : (b == a) = false := by simp [Ne.symm h]
      simpa [h, other] using ih

theorem qosShareChange_completes {world unit w : Nat} {x : World} (hx : s.here.world? world = some x) :
    (1 ≤ w → w ≤ 255 → ∃ q y, Answers (.qosShareChange world 0 unit w) s q ∧ q.world? world = some y ∧ y.weight unit = w) ∧
    (1 ≤ w → w ≤ 255 → ∃ q y, Answers (.qosShareChange world 1 unit w) s q ∧ q.world? world = some y ∧ spFind y.memWeights unit = some w) ∧
    (w < 2 ^ 20 → ∃ q y, Answers (.qosShareChange world 2 unit w) s q ∧ q.world? world = some y ∧ spFind y.allowances unit = some w) ∧
    (w = 0 ∨ 255 < w → ∀ k < 2, Answers (.qosShareChange world k unit w) s s.here) := by
  have arm (k : Nat) : exec (.qosShareChange world k unit w) s = execQosShareChange world k unit w s := rfl
  have legal (lo : 1 ≤ w) (hi : w ≤ 255) : (decide (1 ≤ w) && decide (w ≤ 255)) = true := by simp [lo, hi]
  refine ⟨fun lo hi => ?_, fun lo hi => ?_, fun few => ?_, fun bad k hk => ?_⟩
  · refine ⟨_, { x with weights := spPut x.weights unit w }, (arm 0).trans (lift_next (if_pos (legal lo hi))), setWorld_found hx fun _ => rfl, ?_⟩
    rw [World.weight, find?_eq_spFind, spFind_spPut_same]
    rfl
  · exact ⟨_, { x with memWeights := spPut x.memWeights unit w }, (arm 1).trans (lift_next (if_pos (legal lo hi))), setWorld_found hx fun _ => rfl,
      spFind_spPut_same _ _ _⟩
  · exact ⟨_, { x with allowances := spPut x.allowances unit w }, (arm 2).trans (lift_next (if_pos few)), setWorld_found hx fun _ => rfl,
      spFind_spPut_same _ _ _⟩
  · have illegal : ¬(decide (1 ≤ w) && decide (w ≤ 255)) = true := by simp; omega
    interval_cases k
    · exact (arm 0).trans (lift_next (if_neg illegal))
    · exact (arm 1).trans (lift_next (if_neg illegal))

/-! ### Banks (R196) -/

theorem bankTransfer_completes {c b world l : Nat} {x : World} (hc : c < 40) (hb : b < 32) (hl : l < 32) (hx : s.here.world? world = some x)
    (suspended : s.here.suspended world = true)
    (holders : ∀ y ∈ s.here.worlds, (∃ z ∈ y.banks, z.1 = c ∧ z.2.2 = b) → s.here.suspended y.id = true) :
    ∃ q y, Answers (.bankTransfer c b world l) s q ∧ q.world? world = some y ∧ (c, l, b) ∈ y.banks ∧ (∀ z ∈ q.banks, z.cluster = c → z.phys ≠ b) ∧
      ∀ v ∈ q.worlds, v.id ≠ world → ∀ z ∈ v.banks, z.1 = c → z.2.2 ≠ b := by
  have held : ((s.here.worlds.filter (fun x => x.banks.any (fun z => z.1 == c && z.2.2 == b))).all (fun x => s.here.suspended x.id)) = true := by
    refine List.all_eq_true.mpr fun y hy => ?_
    obtain ⟨hy, holds⟩ := List.mem_filter.mp hy
    obtain ⟨z, hz, same⟩ := List.any_eq_true.mp holds
    exact holders y hy ⟨z, hz, by simpa using same⟩
  have cleared : (s.here.clearBank c b).world? world =
      some { x with banks := x.banks.filter (fun z => !(z.1 == c && z.2.2 == b)) } := by
    rw [Package.world?_of_map (p := s.here) (f := fun x => { x with banks := x.banks.filter (fun z => !(z.1 == c && z.2.2 == b)) }) (fun _ => rfl) rfl, hx]
    rfl
  refine ⟨_, _, ?_, setWorld_found cleared (f := fun x => { x with banks := x.banks.filter (fun z => !(z.1 == c && z.2.1 == l)) ++ [(c, l, b)] }) fun _ => rfl,
    List.mem_append_right _ List.mem_cons_self, fun z hz here => ?_, fun v hv other z hz here => ?_⟩
  · rw [Answers, show exec (.bankTransfer c b world l) s = execBankTransfer c b world l s from rfl, execBankTransfer]
    refine lift_next ?_
    rw [if_neg ?_]
    have cluster : ¬40 ≤ c := by omega
    simp [suspended, held, clusterCount, cluster, hb, hl]
  · simpa [here] using (List.mem_filter.mp hz).2
  · obtain ⟨v₀, hv₀, rfl⟩ := List.mem_map.mp hv
    obtain ⟨v₁, -, rfl⟩ := List.mem_map.mp hv₀
    dsimp only at hz other
    split at hz
    next hit => exact absurd (by simpa using hit) (by simpa [hit] using other)
    · simpa [here] using (List.mem_filter.mp hz).2

/-! ### Memory faults (R111, R194) -/

theorem memoryFault_completes {a : Nat} (inside : a < Config.memBytes) :
    (∃ q, Answers (.memoryFault a false) s q ∧ a / 32 ∈ q.bad ∧ sameStore s.here q) ∧
    (∃ q, Answers (.memoryFault a true) s q ∧ q.mem = s.here.mem ∧ q = s.here.setGlabel (a / 32) 0xFFFF#16) := by
  have arm (l : Bool) : exec (.memoryFault a l) s = execMemoryFault a l s := rfl
  have marked : a / 32 ∈ if s.here.bad.contains (granuleOf a) then s.here.bad else insertBy id (granuleOf a) s.here.bad := by
    split
    next hit => exact List.contains_iff_mem.mp hit
    · exact mem_insertBy_iff.mpr (.inl rfl)
  exact ⟨⟨_, (arm false).trans ((if_neg (by omega)).trans (lift_next rfl)), marked, rfl, rfl, rfl⟩,
    ⟨_, (arm true).trans ((if_neg (by omega)).trans (lift_next rfl)), rfl, rfl⟩⟩

theorem memoryFault_beyond {a : Nat} (l : Bool) (beyond : Config.memBytes ≤ a) : exec (.memoryFault a l) s = .fault (.noSuchAddress a) :=
  (show exec (.memoryFault a l) s = execMemoryFault a l s from rfl).trans (if_pos beyond)

end

end Sys2Proof.Claims
end

section
/-! SUPPORT. Installing a kernel sets the clause-start bits of its headers and clears those of the words between (R97). -/

namespace Sys2Proof.Claims

open Sys2Proof.Machine

/-! ### Clause-start bits -/

/-- Whether a map of the code lines has the clause-start bit of a word. -/
def startAt (code : List (Nat × BitVec 16)) (a : Nat) : Bool := (spGet 0 code (lineOf a)).getLsbD (a % 64 / 4)

/-- The clause-start bit of a word of a line. -/
def startBit (a : Nat) : BitVec 16 := 1#16 <<< (a % 64 / 4)

theorem startBit_getLsbD (a b : Nat) : (startBit a).getLsbD (b % 64 / 4) = decide (a % 64 / 4 = b % 64 / 4) := by
  have inside : b % 64 / 4 < 16 := by omega
  rw [startBit, BitVec.getLsbD_shiftLeft, BitVec.getLsbD_one]
  by_cases h : a % 64 / 4 = b % 64 / 4
  · simp [h, inside]
  · simp [h, inside]
    omega

section
variable {code : List (Nat × BitVec 16)}

/-- Of the words of a line, the write of a bit changes that word alone. -/
theorem startAt_write (wf : spWf (0 : BitVec 16) code = true) (f : BitVec 16 → BitVec 16) (a b : Nat) :
    startAt (spSet 0 code (lineOf a) (f (spGet 0 code (lineOf a)))) b =
      if lineOf b = lineOf a then (f (spGet 0 code (lineOf b))).getLsbD (b % 64 / 4) else startAt code b := by
  unfold startAt
  split
  next line => rw [line, spGet_spSet_same _ _ _ _ wf]
  next line => rw [spGet_spSet_ne _ _ _ _ _ line]

theorem startAt_set (wf : spWf (0 : BitVec 16) code = true) {a b : Nat} (ha : a % 4 = 0) (hb : b % 4 = 0) :
    startAt (spSet 0 code (lineOf a) (spGet 0 code (lineOf a) ||| startBit a)) b = (startAt code b || decide (b = a)) := by
  rw [startAt_write wf (· ||| startBit a)]
  split
  next line =>
    rw [BitVec.getLsbD_or, startBit_getLsbD]
    refine congrArg _ (decide_eq_decide.mpr ?_)
    simp only [lineOf] at line
    omega
  next line =>
    have other : b ≠ a := fun h => line (congrArg lineOf h)
    simp [other]

theorem startAt_clear (wf : spWf (0 : BitVec 16) code = true) {a b : Nat} (ha : a % 4 = 0) (hb : b % 4 = 0) :
    startAt (spSet 0 code (lineOf a) (spGet 0 code (lineOf a) &&& ~~~startBit a)) b = (startAt code b && !decide (b = a)) := by
  rw [startAt_write wf (· &&& ~~~startBit a)]
  split
  next line =>
    have inside : b % 64 / 4 < 16 := by omega
    rw [BitVec.getLsbD_and, BitVec.getLsbD_not, startBit_getLsbD, decide_eq_true inside, Bool.true_and]
    refine congrArg (fun c => startAt code b && !c) (decide_eq_decide.mpr ?_)
    simp only [lineOf] at line
    omega
  next line =>
    have other : b ≠ a := fun h => line (congrArg lineOf h)
    simp [other]

end

/-! ### The words of a kernel -/

/-- The words that are left of a clause at the word k of a kernel whose headers have these lengths. -/
def skipAt (len : Nat → Nat) : Nat → Nat
  | 0 => 0
  | k + 1 => match skipAt len k with
    | 0 => len k
    | n + 1 => n

theorem skipAt_header {len : Nat → Nat} {k : Nat} (h : skipAt len k = 0) : skipAt len (k + 1) = len k := by rw [skipAt, h]

theorem skipAt_within {len : Nat → Nat} {k n : Nat} (h : skipAt len k = n + 1) : skipAt len (k + 1) = n := by rw [skipAt, h]

theorem skipAt_after {len : Nat → Nat} {k n : Nat} (i : Nat) (h : skipAt len k = i + n) : skipAt len (k + i) = n := by
  induction i generalizing k with
  | zero => simpa using h
  | succ i ih =>
    rw [show k + (i + 1) = k + 1 + i by omega]
    exact ih (skipAt_within (h.trans (by omega)))

/-- The length of the clause whose header is the word k. -/
def clauseLen (p : Package) (pa k : Nat) : Nat := bitsOf 11 9 (p.readPa (pa + 4 * k) 4)

section
variable {p : Package} {pa : Nat}

/-- The word after those that are left of a clause is a header. -/
theorem headerAt_skip (k : Nat) : HeaderAt p pa (k + skipAt (clauseLen p pa) k) := by
  induction k with
  | zero => exact .first
  | succ k ih =>
    cases h : skipAt (clauseLen p pa) k with
    | zero =>
      rw [skipAt_header h]
      rw [h] at ih
      exact .next k ih
    | succ n =>
      rw [skipAt_within h]
      rw [h] at ih
      rwa [show k + 1 + n = k + (n + 1) by omega]

theorem headerAt_iff (k : Nat) : HeaderAt p pa k ↔ skipAt (clauseLen p pa) k = 0 := by
  constructor
  · intro h
    induction h with
    | first => rfl
    | next k _ ih => exact skipAt_after (clauseLen p pa k) (skipAt_header ih)
  · intro h
    have header := headerAt_skip (p := p) (pa := pa) k
    rwa [h] at header

/-- The read of a header in the walk gives the length of its clause. -/
theorem clauseLen_read (k : Nat) : bitsOf 11 9 (BitVec.ofNat 32 (p.readPa (pa + 4 * k) 4)).toNat = clauseLen p pa k := by
  rw [clauseLen, BitVec.toNat_ofNat]
  simp only [bitsOf, Nat.shiftRight_eq_div_pow]
  omega

end

/-! ### The walk -/

/-- The map of the code lines after one word of the walk: its bit is set where no word is left of a clause. -/
def walkWord (skip pa : Nat) (code : List (Nat × BitVec 16)) : List (Nat × BitVec 16) :=
  if skip = 0 then spSet 0 code (lineOf pa) (spGet 0 code (lineOf pa) ||| startBit pa)
  else spSet 0 code (lineOf pa) (spGet 0 code (lineOf pa) &&& ~~~startBit pa)

theorem spWf_walkWord {skip pa : Nat} {code : List (Nat × BitVec 16)} (wf : spWf (0 : BitVec 16) code = true) :
    spWf (0 : BitVec 16) (walkWord skip pa code) = true := by
  unfold walkWord
  split <;> exact spWf_spSet wf

theorem startAt_walkWord_same {skip pa : Nat} {code : List (Nat × BitVec 16)} (wf : spWf (0 : BitVec 16) code = true) (aligned : pa % 4 = 0) :
    startAt (walkWord skip pa code) pa = decide (skip = 0) := by
  unfold walkWord
  split
  next h => rw [startAt_set wf aligned aligned, decide_eq_true rfl, Bool.or_true, decide_eq_true h]
  next h => rw [startAt_clear wf aligned aligned, decide_eq_true rfl, Bool.not_true, Bool.and_false, decide_eq_false h]

theorem startAt_walkWord_other {skip pa a : Nat} {code : List (Nat × BitVec 16)} (wf : spWf (0 : BitVec 16) code = true) (aligned : pa % 4 = 0)
    (ha : a % 4 = 0) (other : a ≠ pa) : startAt (walkWord skip pa code) a = startAt code a := by
  unfold walkWord
  split
  · rw [startAt_set wf aligned ha, decide_eq_false other, Bool.or_false]
  · rw [startAt_clear wf aligned ha, decide_eq_false other, Bool.not_false, Bool.and_true]

section
variable {p : Package} {pa : Nat}

/-- The walk from the word k of a kernel on takes one word, and goes on with the words that are then left of its clause. -/
theorem walkClauses_word (k n : Nat) (code : List (Nat × BitVec 16)) :
    walkClauses (fun a => BitVec.ofNat 32 (p.readPa a 4)) (pa + 4 * k) (skipAt (clauseLen p pa) k) (n + 1) code =
      walkClauses (fun a => BitVec.ofNat 32 (p.readPa a 4)) (pa + 4 * (k + 1)) (skipAt (clauseLen p pa) (k + 1)) n
        (walkWord (skipAt (clauseLen p pa) k) (pa + 4 * k) code) := by
  rw [show pa + 4 * (k + 1) = pa + 4 * k + 4 by omega]
  cases h : skipAt (clauseLen p pa) k with
  | zero =>
    rw [walkClauses, skipAt_header h, clauseLen_read]
    rfl
  | succ m =>
    rw [walkClauses, skipAt_within h]
    rfl

theorem startAt_walk_other (aligned : pa % 4 = 0) {a : Nat} (ha : a % 4 = 0) (n k : Nat) {code : List (Nat × BitVec 16)}
    (wf : spWf (0 : BitVec 16) code = true) (outside : ∀ j, k ≤ j → j < k + n → a ≠ pa + 4 * j) :
    startAt (walkClauses (fun a => BitVec.ofNat 32 (p.readPa a 4)) (pa + 4 * k) (skipAt (clauseLen p pa) k) n code) a = startAt code a := by
  induction n generalizing k code with
  | zero => rw [walkClauses]
  | succ n ih =>
    rw [walkClauses_word, ih (k + 1) (spWf_walkWord wf) (fun j hlo hhi => outside j (by omega) (by omega))]
    exact startAt_walkWord_other wf (by omega) ha (outside k (by omega) (by omega))

theorem startAt_walk (aligned : pa % 4 = 0) (n k : Nat) {code : List (Nat × BitVec 16)} (wf : spWf (0 : BitVec 16) code = true) {j : Nat} (hlo : k ≤ j)
    (hhi : j < k + n) :
    startAt (walkClauses (fun a => BitVec.ofNat 32 (p.readPa a 4)) (pa + 4 * k) (skipAt (clauseLen p pa) k) n code) (pa + 4 * j) =
      decide (skipAt (clauseLen p pa) j = 0) := by
  induction n generalizing k code with
  | zero => omega
  | succ n ih =>
    rw [walkClauses_word]
    rcases Nat.eq_or_lt_of_le hlo with rfl | hlo
    · rw [startAt_walk_other aligned (by omega) n (k + 1) (spWf_walkWord wf) (fun j hlo _ => by omega)]
      exact startAt_walkWord_same wf (by omega)
    · exact ih (k + 1) (spWf_walkWord wf) hlo (by omega)

theorem installCode_installs (p : Package) (pa n : Nat) :
    (pa % 4 ≠ 0 → p.installCode pa n = p) ∧
    (pa % 4 = 0 → spWf (0 : BitVec 16) p.code = true → p.installCode pa n = { p with code := (p.installCode pa n).code } ∧
      (∀ k < n, (p.installCode pa n).clauseStart (pa + 4 * k) = true ↔ HeaderAt p pa k) ∧
      ∀ a, a % 4 = 0 → (∀ k < n, a ≠ pa + 4 * k) → (p.installCode pa n).clauseStart a = p.clauseStart a) := by
  refine ⟨fun odd => if_pos (by simpa using odd), fun aligned wf => ?_⟩
  have installed : p.installCode pa n = { p with code := walkClauses (fun a => BitVec.ofNat 32 (p.readPa a 4)) pa 0 n p.code } :=
    if_neg (by simpa using aligned)
  rw [installed]
  refine ⟨rfl, fun k hk => ?_, fun a ha outside => ?_⟩
  · rw [headerAt_iff, ← decide_eq_true_iff (p := skipAt _ k = 0), ← startAt_walk aligned n 0 wf (Nat.zero_le k) (by omega)]
    exact Iff.rfl
  · exact startAt_walk_other aligned ha n 0 wf (fun j _ hhi => outside j (by omega))

end

end Sys2Proof.Claims
end

section
/-! SUPPORT. SYS_TABLE_WRITE: what each write of system software leaves of the package (R97, R107, R211, R217, R218, R241, R274, R290, R294, R318 to R323,
R332, R351). -/

namespace Sys2Proof.Claims

open Sys2Proof.Machine

section
variable {p : Package} {world : Nat} {f : World → World}

/-! ### A change of one world -/

theorem setWorld_eq (p : Package) (world : Nat) (f : World → World) :
    p.setWorld world f = { p with worlds := p.worlds.map (fun x => if x.id = world then f x else x) } := by
  simp only [Package.setWorld, mapIf, beq_iff_eq]

/-- The other worlds are those from before. -/
theorem mem_setWorld_other (id : ∀ x, (f x).id = x.id) {y : World} (hy : y ∈ (p.setWorld world f).worlds) (other : y.id ≠ world) : y ∈ p.worlds := by
  obtain ⟨y₀, hy₀, rfl⟩ := List.mem_map.mp hy
  dsimp only at other ⊢
  split at other
  next hit => exact absurd ((id y₀).trans (by simpa using hit)) other
  next miss => rwa [if_neg miss]

theorem worldChanged_if {ok c : Prop} [Decidable c] (h : c ↔ ok) : WorldChanged world ok f p (if c then p.setWorld world f else p) := by
  refine ⟨fun hok => ?_, fun hno => if_neg (fun hc => hno (h.mp hc))⟩
  rw [if_pos (h.mpr hok), setWorld_eq]

theorem worldChanged_suspended : WorldChanged world (p.suspended world = true) f p (p.setSuspended world f) := worldChanged_if Iff.rfl

/-- A change that has a condition of its own, besides that the world is suspended. -/
theorem worldChanged_suspended_if {ok c : Prop} [Decidable c] (h : c ∧ p.suspended world = true ↔ ok) :
    WorldChanged world ok f p (if c then p.setSuspended world f else p) := by
  by_cases hc : c
  · rw [if_pos hc]
    exact worldChanged_if (iff_of_iff_of_iff h hc)
  · rw [if_neg hc]
    exact ⟨fun hok => absurd (h.mpr hok).1 hc, fun _ => rfl⟩
where
  iff_of_iff_of_iff {a b ok : Prop} (h : a ∧ b ↔ ok) (ha : a) : b ↔ ok := (and_iff_right ha).symm.trans h

theorem always_changed : WorldChanged world True f p (p.setWorld world f) := ⟨fun _ => setWorld_eq p world f, fun h => absurd trivial h⟩

/-! ### Memory and code -/

theorem mine_iff (pa : Nat) : (p.ownerOf pa == 0 || p.ownerOf pa == 63 || p.ownerOf pa == 0) = true ↔ p.ownerOf pa = 0 ∨ p.ownerOf pa = 63 := by
  simp only [Bool.or_eq_true, beq_iff_eq]
  tauto

theorem mayPlace_iff (m : Placement) : p.mayPlace 0 m = true ↔
    (∀ c ∈ m.bytes, p.ownerOf c.1 = 0 ∨ p.ownerOf c.1 = 63) ∧ ∀ l ∈ m.labels, p.ownerOf (32 * l.1) = 0 ∨ p.ownerOf (32 * l.1) = 63 := by
  simp only [Package.mayPlace, Bool.and_eq_true, List.all_eq_true, mine_iff]

theorem place_writes (m : Placement) : TableWritten p (p.sysWrite (.place m)) (.place m) := by
  refine ⟨fun foreign => if_pos ?_, fun bytes labels => ?_⟩
  · rw [Bool.not_eq_true', ← Bool.not_eq_true, mayPlace_iff]
    rintro ⟨bytes, labels⟩
    rcases foreign with ⟨c, hc, owned⟩ | ⟨l, hl, owned⟩
    · exact not_or.mpr owned (bytes c hc)
    · exact not_or.mpr owned (labels l hl)
  · have may := (mayPlace_iff m).mpr ⟨bytes, labels⟩
    refine ⟨fun none => ?_, fun r written => ?_⟩ <;> simp only [Package.sysWrite, may, Bool.not_true, Bool.false_eq_true, if_false]
    · rw [none]
    · rw [written]

/-! ### Spaces -/

theorem space?_putSpace (sp : Space) : (p.putSpace sp).space? sp.id = some sp := by
  have none : (p.spaces.filter (fun y => y.id != sp.id)).find? (fun y => y.id == sp.id) = none :=
    List.find?_eq_none.mpr fun y hy => by simpa using (List.mem_filter.mp hy).2
  simp [Package.space?, Package.putSpace, List.find?_append, none]

theorem mem_putSpace {sp y : Space} (other : y.id ≠ sp.id) : y ∈ (p.putSpace sp).spaces ↔ y ∈ p.spaces := by
  have ne : y ≠ sp := fun h => other (congrArg Space.id h)
  simp [Package.putSpace, other, ne]

theorem id_of_space? {k : Nat} {sp : Space} (h : p.space? k = some sp) : sp.id = k := by simpa using List.find?_some h

theorem space_writes (id gen root world : Nat) : TableWritten p (p.sysWrite (.space id gen root world)) (.space id gen root world) := by
  refine ⟨fun sp hsp same_gen same_world => ?_, fun stale => ?_⟩
  · have written : p.sysWrite (.space id gen root world) = p.putSpace { sp with root := root } := by
      simp only [Package.sysWrite, Package.writeSpace, hsp, same_gen, same_world, decide_true, Bool.and_self, if_true]
    obtain rfl := id_of_space? hsp
    rw [written]
    exact ⟨rfl, space?_putSpace { sp with root := root }, fun y other => mem_putSpace other⟩
  · simp only [Package.sysWrite, Package.writeSpace]
    split
    next sp hsp => exact if_neg (by simpa [-not_and, not_and_or] using stale sp hsp)
    · rfl

theorem worldSpace_writes (world space : Nat) : TableWritten p (p.sysWrite (.worldSpace world space)) (.worldSpace world space) := by
  refine worldChanged_suspended_if ?_
  simp only [Option.any_eq_true, beq_iff_eq]
  exact and_comm

theorem flush_writes (space : Nat) : TableWritten p (p.sysWrite (.flush space)) (.flush space) := by
  let sp : Space := (p.space? space).getD { id := space, gen := 0, root := 0, world := 0, flushed := false }
  have id : sp.id = space := by
    dsimp only [sp]
    cases h : p.space? space with
    | none => rfl
    | some sp => exact id_of_space? h
  let gone := p.forget (fun t => t.space == space) (fun l => l.space == space)
  have written : p.sysWrite (.flush space) = gone.putSpace { sp with flushed := true } := rfl
  have found : (gone.putSpace { sp with flushed := true }).space? space = some { sp with flushed := true } := by
    have found := space?_putSpace (p := gone) { sp with flushed := true }
    exact (congrArg (gone.putSpace { sp with flushed := true }).space? id).symm.trans found
  rw [written]
  refine ⟨rfl, ?_, fun sp' hsp' => ?_, fun y other => mem_putSpace (fun h => other (h.trans id))⟩
  · have walks : (gone.putSpace { sp with flushed := true }).walks.all (fun l => l.space != space) = true :=
      List.all_eq_true.mpr fun l hl => by simpa using (List.mem_filter.mp hl).2
    have cores : (gone.putSpace { sp with flushed := true }).cores.all
        (fun c => c.tlb.all (fun t => t.space != space) && c.lanes.all (fun l => l.2.space != space)) = true := by
      refine List.all_eq_true.mpr fun c hc => ?_
      obtain ⟨c₀, -, rfl⟩ := List.mem_map.mp hc
      refine Bool.and_eq_true_iff.mpr ⟨List.all_eq_true.mpr fun t ht => ?_, List.all_eq_true.mpr fun l hl => ?_⟩
      · simpa using (List.mem_filter.mp ht).2
      · simpa using (List.mem_filter.mp hl).2
    rw [Package.flushedSpace, found, walks, cores]
    rfl
  · rw [found]
    simp only [sp, hsp', Option.getD_some]

/-! ### Ceilings and peers -/

theorem launchCeiling_writes (world m : Nat) : TableWritten p (p.sysWrite (.launchCeiling world m)) (.launchCeiling world m) := by
  refine ⟨fun full => ?_, fun l p₁ labelled => ?_⟩
  · simp only [Package.sysWrite, full]
  · simp only [Package.sysWrite, labelled]
    have teams : p₁.teams = p.teams := by rw [(labelFor_spec labelled).1]
    exact worldChanged_if (by rw [Package.suspended, Package.suspended, teams])

theorem peerStateOf_eq (n : Nat) : peerStateOf n = if n = 0 then .reachable else if n = 1 then .quiescing else .absent := by
  match n with
  | 0 => rfl
  | 1 => rfl
  | n + 2 => rfl

theorem peer_writes (world logical phys state : Nat) : TableWritten p (p.sysWrite (.peer world logical phys state)) (.peer world logical phys state) := by
  let e : Peer := { logical, phys, state := peerStateOf state }
  let change := fun (x : World) => { x with peers := sortBy Peer.logical (x.peers.filter (fun (y : Peer) => y.logical != logical) ++ [e]) }
  have stands_iff : (p.world? world).any (fun x => x.peers.any (fun y => y.logical == logical && y.phys == phys)) = true ↔
      ∃ x, p.world? world = some x ∧ ∃ y ∈ x.peers, y.logical = logical ∧ y.phys = phys := by
    simp only [Option.any_eq_true, List.any_eq_true, Bool.and_eq_true, beq_iff_eq]
  refine ⟨fun none active => if_pos ?_, fun may => ?_⟩
  · rw [← stands_iff, Bool.not_eq_true] at none
    rw [none, active]
    rfl
  · have written : p.sysWrite (.peer world logical phys state) = (p.setWorld world change).wake (fun st => st == Stall.peer) := by
      refine if_neg ?_
      rw [← stands_iff] at may
      rcases may with may | may <;> simp [may]
    rw [written]
    refine ⟨rfl, fun g hg => ?_, fun x hx => ⟨change x, setWorld_found hx fun _ => rfl, rfl, fun y => ?_⟩⟩
    · obtain ⟨g₀, -, rfl⟩ := List.mem_map.mp hg
      dsimp only
      split
      · exact nofun
      next free => simpa using free
    · rw [← peerStateOf_eq]
      simp only [change, mem_sortBy_iff, List.mem_append, List.mem_filter, List.mem_singleton, bne_iff_ne]
      exact or_comm

/-! ### Queues, shares and labels -/

theorem id_of_quay? {k : Nat} {y : Quay} (h : p.quay? k = some y) : y.phys = k := by simpa using List.find?_some h

theorem queueBase_writes (phys base cap : Nat) : TableWritten p (p.sysWrite (.queueBase phys base cap)) (.queueBase phys base cap) := by
  have refused_iff : (decide (64 ≤ phys) || !(List.range 15).any (fun k => cap == 1024 * 2 ^ k) || (p.quay? phys).any (fun q => !q.items.isEmpty)) = true ↔
      ¬(phys < 64 ∧ (∃ k < 15, cap = 1024 * 2 ^ k) ∧ ∀ y, p.quay? phys = some y → y.items = []) := by
    rw [← not_iff_not, not_not, Bool.not_eq_true, Bool.or_eq_false_iff, Bool.or_eq_false_iff, decide_eq_false_iff_not, Nat.not_le, Bool.not_eq_false',
      List.any_eq_true, and_assoc]
    refine and_congr_right fun _ => and_congr (by simp) ?_
    cases p.quay? phys with
    | none => simp
    | some y => simp
  refine ⟨fun refused => if_pos (refused_iff.mpr refused), fun ok => ?_⟩
  have written : p.sysWrite (.queueBase phys base cap) =
      { p with quays := p.quays.filter (fun q => q.phys != phys) ++ [{ phys, base, cap, items := [], tail := 0 }] } :=
    if_neg (fun refused => refused_iff.mp refused ok)
  have none : (p.quays.filter (fun q => q.phys != phys)).find? (fun q => q.phys == phys) = none :=
    List.find?_eq_none.mpr fun y hy => by simpa using (List.mem_filter.mp hy).2
  rw [written]
  refine ⟨rfl, ?_, fun y other => ?_⟩
  · simp [Package.quay?, List.find?_append, none]
  · have ne : y ≠ { phys, base, cap, items := [], tail := 0 } := fun h => other (congrArg Quay.phys h)
    simp [other, ne]

theorem share_writes (world units base n : Nat) : TableWritten p (p.sysWrite (.share world units base n)) (.share world units base n) := by
  have sum := foldl_add_eq_sum World.share (p.worlds.filter (fun x => x.id != world)) 0
  rw [Nat.zero_add] at sum
  have written : p.sysWrite (.share world units base n) = if ((p.worlds.filter (fun x => x.id != world)).map World.share).sum + units ≤ 32
      then p.setSuspended world (fun x => { x with share := units, spillBase := base, spillUnits := n }) else p := by
    rw [← sum]
    simp only [← Nat.not_lt, ite_not]
    rfl
  rw [written]
  exact worldChanged_suspended_if and_comm

theorem carveOut_writes (on : Bool) : TableWritten p (p.sysWrite (.carveOut on)) (.carveOut on) := by
  refine ⟨fun empty => if_neg ?_, fun ⟨m, hm, used⟩ => if_pos (List.any_eq_true.mpr ⟨m, hm, by simpa using used⟩)⟩
  rw [Bool.not_eq_true, List.any_eq_false]
  exact fun m hm => by simp [empty m hm]

theorem labelBase_writes (pa : Nat) : TableWritten p (p.sysWrite (.labelBase pa)) (.labelBase pa) := by
  have refused_iff : (pa % 2 ^ 21 != 0 || (List.range 32).any (fun k => p.ownerOf (pa + 65536 * k) != 0)) = true ↔
      ¬(pa % 2 ^ 21 = 0 ∧ ∀ k < 32, p.ownerOf (pa + 65536 * k) = 0) := by
    rw [← not_iff_not, not_not, Bool.not_eq_true, Bool.or_eq_false_iff]
    exact and_congr (by simp) (by simp)
  exact ⟨fun ok => if_neg (fun refused => refused_iff.mp refused ok), fun bad => if_pos (refused_iff.mpr bad)⟩

theorem labelEntry_writes (idx m : Nat) : TableWritten p (p.sysWrite (.labelEntry idx m)) (.labelEntry idx m) := by
  have refused_iff : (decide (0xFFFF ≤ idx) || p.live idx || (p.findMask (BitVec.ofNat 128 m)).isSome) = true ↔
      ¬(idx < 0xFFFF ∧ ∀ e ∈ p.labels, e.1 ≠ idx ∧ e.2 ≠ BitVec.ofNat 128 m) := by
    rw [← not_iff_not, not_not, Bool.not_eq_true, Bool.or_eq_false_iff, Bool.or_eq_false_iff, decide_eq_false_iff_not, Nat.not_le, and_assoc]
    refine and_congr_right fun _ => ?_
    rw [Package.live, Package.findMask, Option.isSome_map, List.any_eq_false, Option.isSome_eq_false_iff, Option.isNone_iff_eq_none, List.find?_eq_none,
      ← forall₂_and]
    simp only [beq_iff_eq, ne_eq]
  refine ⟨fun ok => ?_, fun bad => if_pos (refused_iff.mpr bad)⟩
  have written : p.sysWrite (.labelEntry idx m) = { p with labels := insertBy (·.1) (idx, BitVec.ofNat 128 m) p.labels } :=
    if_neg (fun refused => refused_iff.mp refused ok)
  rw [written]
  exact ⟨rfl, fun e => mem_insertBy_iff⟩

/-! ### Manifests, teams, threads and images -/

theorem retireFrame_writes (f : Nat) : TableWritten p (p.sysWrite (.retireFrame f)) (.retireFrame f) := by
  refine ⟨fun ⟨r, hr, same⟩ => if_pos (List.any_eq_true.mpr ⟨r, hr, by simpa using same⟩), fun fresh => if_neg ?_⟩
  rw [Bool.not_eq_true, List.any_eq_false]
  exact fun r hr => by simpa using fresh r hr

theorem phys_of_man (k : Nat) : (p.man k).phys = k := by
  unfold Package.man
  cases h : p.mans.find? (fun m => m.phys == k) with
  | none => rfl
  | some m => simpa using List.find?_some h

theorem man_dropMan (k : Nat) : ((p.dropMan (p.man k)).man k) = { p.man k with state := .empty, frames := [], maps := [], entries := [] } := by
  let m : Manifest := { p.man k with state := .empty, frames := [], maps := [], entries := [] }
  have phys : m.phys = k := phys_of_man k
  have none : (p.mans.filter (fun x => x.phys != m.phys)).find? (fun x => x.phys == k) = none :=
    List.find?_eq_none.mpr fun y hy => by simpa [phys] using (List.mem_filter.mp hy).2
  have found : (p.dropMan (p.man k)).mans.find? (fun x => x.phys == k) = some m := by
    rw [show (p.dropMan (p.man k)).mans = p.mans.filter (fun x => x.phys != m.phys) ++ [m] from rfl, List.find?_append, none]
    simp [phys]
  rw [Package.man, found]
  rfl

theorem takeManifest_stores (world k : Nat) : sameStore p (p.takeManifest world k) := by
  unfold Package.takeManifest
  dsimp only
  split <;> exact ⟨rfl, rfl, rfl⟩

theorem takeManifest_empties {world k : Nat} (used : (p.man k).state ≠ .empty) (other : (p.man k).world ≠ world) :
    ((p.takeManifest world k).man k).state = .empty ∧ ((p.takeManifest world k).man k).entries = [] := by
  let lose := fun (x : World) => { x with manifests := x.manifests.filter (fun e => e.2 != k) }
  let taken : Package := { p with worlds := mapIf (fun x => x.id != world) lose p.worlds }
  have dropped : p.takeManifest world k = taken.dropMan (taken.man k) := by
    refine if_neg ?_
    rw [Bool.or_eq_true, beq_iff_eq, beq_iff_eq, not_or]
    exact ⟨used, other⟩
  rw [dropped, man_dropMan]
  exact ⟨rfl, rfl⟩

theorem world?_takeManifest {world k : Nat} {x : World} (hx : p.world? world = some x) : (p.takeManifest world k).world? world = some x := by
  have map := Package.world?_of_map (p := p) (q := p.takeManifest world k) (fun x => by split <;> rfl) (takeManifest_worlds p world k) world
  rw [map, hx]
  simp [Package.id_of_world? hx]

theorem swapManifest_writes (world logical phys : Nat) :
    TableWritten p (p.sysWrite (.swapManifest world logical phys)) (.swapManifest world logical phys) := by
  have holders_iff : p.holdersSuspended world [phys] [] = true ↔
      ∀ x ∈ p.worlds, x.id ≠ world → (∃ e ∈ x.manifests, e.2 = phys) → p.suspended x.id = true := by
    refine List.all_eq_true.trans (forall₂_congr fun x _ => ?_)
    have holds : x.manifests.any (fun e => [phys].contains e.2) = true ↔ ∃ e ∈ x.manifests, e.2 = phys := by simp
    have banks : x.banks.any (fun b => ([] : List (Nat × Nat)).contains (b.1, b.2.2)) = false := List.any_eq_false.mpr fun b _ => by simp
    rw [banks, Bool.or_false, Bool.or_eq_true, Bool.or_eq_true, beq_iff_eq, Bool.not_eq_true', ← Bool.not_eq_true, holds, or_assoc, or_iff_not_imp_left, or_comm, ← imp_iff_not_or]
  have refused_iff : (decide (16 ≤ logical) || decide (16 ≤ phys) || !p.suspended world || !p.holdersSuspended world [phys] []) = true ↔
      ¬(logical < 16 ∧ phys < 16 ∧ p.suspended world = true ∧
        ∀ x ∈ p.worlds, x.id ≠ world → (∃ e ∈ x.manifests, e.2 = phys) → p.suspended x.id = true) := by
    rw [← holders_iff, ← not_iff_not, not_not, Bool.not_eq_true, Bool.or_eq_false_iff, Bool.or_eq_false_iff, Bool.or_eq_false_iff,
      decide_eq_false_iff_not, decide_eq_false_iff_not, Nat.not_le, Nat.not_le, Bool.not_eq_false', Bool.not_eq_false', and_assoc, and_assoc]
  refine ⟨fun bad => if_pos (refused_iff.mpr bad), fun ok => ?_⟩
  have written : p.sysWrite (.swapManifest world logical phys) = (p.takeManifest world phys).setWorld world (fun x => x.grantManifest logical phys) :=
    if_neg (fun refused => refused_iff.mp refused ok)
  rw [written]
  refine ⟨fun x hx => ⟨x.grantManifest logical phys, setWorld_found (world?_takeManifest hx) fun _ => rfl, rfl, fun e => ?_⟩, fun y hy other e he => ?_,
    takeManifest_stores world phys, fun used foreign => takeManifest_empties used foreign⟩
  · simp only [World.grantManifest, List.mem_append, List.mem_filter, List.mem_singleton, Bool.and_eq_true, bne_iff_ne]
    exact or_comm
  · have kept := mem_setWorld_other (p := p.takeManifest world phys) (f := fun x => x.grantManifest logical phys) (fun _ => rfl) hy other
    obtain ⟨_, _, _, free⟩ := mem_takeManifests (ks := [phys]) kept
    exact List.ne_of_not_mem_cons ((free e he).2 other)

theorem claimTeam_writes (team : Nat) (on : Bool) : TableWritten p (p.sysWrite (.claimTeam team on)) (.claimTeam team on) := by
  show p.setTeam team (fun tm => { tm with debugStop := on }) = _
  simp only [Package.setTeam, mapIf, beq_iff_eq]

theorem resumeHalted_writes (team lid : Nat) : TableWritten p (p.sysWrite (.resumeHalted team lid)) (.resumeHalted team lid) := by
  refine ⟨fun th hth halted => ?_, fun running => ?_⟩ <;> simp only [Package.sysWrite, Package.resumeThread]
  · simp only [hth, halted, beq_self_eq_true, if_true, Package.setTeam, mapIf, beq_iff_eq]
  · split
    next th hth => exact if_neg (by simpa using running th hth)
    · rfl

theorem flashImage_writes (k copy hash ed ml : Nat) :
    TableWritten p (p.sysWrite (.flashImage k copy hash ed ml)) (.flashImage k copy hash ed ml) := by
  refine ⟨rfl, fun g => ?_⟩
  refine List.mem_append.trans (or_comm.trans (or_congr List.mem_singleton (List.mem_filter.trans (and_congr_right fun _ => ?_))))
  simp [-not_and, not_and_or]

theorem clusters_writes (world : Nat) (cs : List (Nat × Nat)) : TableWritten p (p.sysWrite (.clusters world cs)) (.clusters world cs) :=
  worldChanged_suspended_if Iff.rfl

theorem queues_writes (world : Nat) (qs : List Nat) : TableWritten p (p.sysWrite (.queues world qs)) (.queues world qs) := by
  refine worldChanged_suspended_if ?_
  simp [and_assoc]

/-! ### Every write -/

theorem sysWrite_writes (p : Package) (w : SysWrite) : TableWritten p (p.sysWrite w) w := by
  cases w with
  | place m => exact place_writes m
  | frame | migrate => exact trivial
  | installCode pa n => exact installCode_installs p pa n
  | space id gen root world => exact space_writes id gen root world
  | worldSpace world space => exact worldSpace_writes world space
  | trapVec | pilotVec | recordArea | trapBlocks | caps => exact worldChanged_suspended
  | launchCeiling world m => exact launchCeiling_writes world m
  | peer world logical phys state => exact peer_writes world logical phys state
  | scopeTraps | interruptTarget => exact always_changed
  | queueBase phys base cap => exact queueBase_writes phys base cap
  | share world units base n => exact share_writes world units base n
  | carveOut on => exact carveOut_writes on
  | labelBase pa => exact labelBase_writes pa
  | labelEntry idx m => exact labelEntry_writes idx m
  | fuse | firmwareKey | sworld => exact rfl
  | retireFrame f => exact retireFrame_writes f
  | swapManifest world logical phys => exact swapManifest_writes world logical phys
  | flush space => exact flush_writes space
  | claimTeam team on => exact claimTeam_writes team on
  | resumeHalted team lid => exact resumeHalted_writes team lid
  | flashImage k copy hash ed ml => exact flashImage_writes k copy hash ed ml
  | clusters world cs => exact clusters_writes world cs
  | queues world qs => exact queues_writes world qs

end

theorem sysTableWrite_writes {s : State} {w : SysWrite} (inside : lastByte w < Config.memBytes) (migrate : ∀ a b c d e f, w ≠ .migrate a b c d e f)
    (frame : ∀ f v, w ≠ .frame f v) : ∃ q, Answers (.sysTableWrite w) s q ∧ TableWritten s.here q w := by
  refine ⟨s.here.sysWrite w, ?_, sysWrite_writes _ _⟩
  rw [Answers, show exec (.sysTableWrite w) s = execSysTableWrite w s from rfl, execSysTableWrite, if_neg (by omega)]
  · exact lift_next rfl
  · exact migrate
  · exact frame

end Sys2Proof.Claims
end

section
/-! SUPPORT. The move of a page (R216): the sparse tables after many writes, the page at its new home, and the entries that name it. -/

namespace Sys2Proof.Claims

open Sys2Proof.Machine

/-! ### Sparse tables: keys, and many writes -/

section
variable {α β : Type}

theorem spGet_of_not_mem {d : α} {l : List (Nat × α)} {a : Nat} (h : a ∉ l.map (·.1)) : spGet d l a = d := by
  by_contra listed
  exact h (mem_of_spGet_ne listed)

/-- A table whose keys are moved and whose values are mapped. -/
theorem spGet_map {d : α} (φ : α → β) {g : Nat → Nat} {l : List (Nat × α)} {a b : Nat} (h : ∀ e ∈ l, g e.1 = b ↔ e.1 = a) :
    spGet (φ d) (l.map (fun e => (g e.1, φ e.2))) b = φ (spGet d l a) := by
  induction l with
  | nil => rfl
  | cons e l ih =>
    obtain ⟨k, v⟩ := e
    have here := h (k, v) List.mem_cons_self
    rw [List.map_cons, spGet, spGet, ih (fun e he => h e (List.mem_cons_of_mem _ he))]
    by_cases hk : a = k
    · rw [if_pos (here.mpr hk.symm).symm, if_pos hk]
    · rw [if_neg (fun hb => hk (here.mp hb.symm).symm), if_neg hk]

theorem spWfFrom_keys [DecidableEq α] {d : α} {l : List (Nat × α)} {lo : Nat} (h : spWfFrom d lo l = true) :
    (l.map (·.1)).Nodup ∧ ∀ k ∈ l.map (·.1), lo ≤ k := by
  induction l generalizing lo with
  | nil => simp
  | cons e l ih =>
    obtain ⟨b, v⟩ := e
    simp only [spWfFrom, Bool.and_eq_true, decide_eq_true_eq] at h
    obtain ⟨⟨le, -⟩, rest⟩ := h
    obtain ⟨nodup, above⟩ := ih rest
    refine ⟨List.nodup_cons.mpr ⟨fun hb => absurd (above b hb) (by omega), nodup⟩, fun k hk => ?_⟩
    rcases List.mem_cons.mp hk with rfl | hk
    · exact le
    · exact Nat.le_of_succ_le (Nat.succ_le_of_lt (Nat.lt_of_le_of_lt le (above k hk)))

theorem spWf_keys [DecidableEq α] {d : α} {l : List (Nat × α)} (h : spWf d l = true) : (l.map (·.1)).Nodup := (spWfFrom_keys h).1

section
variable [DecidableEq α] {d : α} {es t : List (Nat × α)} {k : Nat}

/-- Writing the entries of a table into another one. -/
def putAll (d : α) (t es : List (Nat × α)) : List (Nat × α) := es.foldl (fun t e => spSet d t e.1 e.2) t

theorem spGet_putAll_outside (h : k ∉ es.map (·.1)) : spGet d (putAll d t es) k = spGet d t k := by
  induction es generalizing t with
  | nil => rfl
  | cons e es ih =>
    obtain ⟨ne, rest⟩ := not_or.mp (fun hk => h (List.mem_cons.mpr hk))
    exact (ih rest).trans (spGet_spSet_ne _ _ _ _ _ ne)

/-- Where the other table lists nothing, it is the written entries that are read. -/
theorem spGet_putAll (wf : spWf d t = true) (nodup : (es.map (·.1)).Nodup) (free : spGet d t k = d) : spGet d (putAll d t es) k = spGet d es k := by
  induction es generalizing t with
  | nil => exact free
  | cons e es ih =>
    obtain ⟨b, v⟩ := e
    obtain ⟨once, nodup⟩ := List.nodup_cons.mp nodup
    by_cases hk : k = b
    · subst hk
      rw [putAll, List.foldl_cons]
      rw [show spGet d ((k, v) :: es) k = v from if_pos rfl]
      exact (spGet_putAll_outside once).trans (spGet_spSet_same _ _ _ _ wf)
    · rw [show spGet d ((b, v) :: es) k = spGet d es k from if_neg hk]
      exact ih (spWf_spSet wf) nodup ((spGet_spSet_ne _ _ _ _ _ hk).trans free)

theorem spGet_fill (wf : spWf d t = true) (v : α) (b : Nat) (ks : List Nat) :
    spGet d (ks.foldl (fun t k => spSet d t (b + k) v) t) k = if ∃ j ∈ ks, k = b + j then v else spGet d t k := by
  induction ks generalizing t with
  | nil => simp
  | cons j ks ih =>
    rw [List.foldl_cons, ih (spWf_spSet wf)]
    by_cases later : ∃ j ∈ ks, k = b + j
    · obtain ⟨j', hj', rfl⟩ := later
      rw [if_pos ⟨j', hj', rfl⟩, if_pos ⟨j', List.mem_cons_of_mem _ hj', rfl⟩]
    · rw [if_neg later]
      by_cases now : k = b + j
      · rw [if_pos ⟨j, List.mem_cons_self, now⟩, now, spGet_spSet_same _ _ _ _ wf]
      · rw [spGet_spSet_ne _ _ _ _ _ now, if_neg]
        rintro ⟨j', hj', h⟩
        rcases List.mem_cons.mp hj' with rfl | hj'
        · exact now h
        · exact later ⟨j', hj', h⟩

end

/-- Keys that are moved by a map that is one to one on them stay different. -/
theorem nodup_map_keys {l : List (Nat × α)} {g : Nat → Nat} (φ : α → β) (nodup : (l.map (·.1)).Nodup)
    (inj : ∀ e ∈ l, ∀ e' ∈ l, g e.1 = g e'.1 → e.1 = e'.1) : ((l.map (fun e => (g e.1, φ e.2))).map (·.1)).Nodup := by
  rw [List.map_map]
  refine (List.nodup_map_iff_inj_on (List.Nodup.of_map _ nodup)).mpr fun e he e' he' same => ?_
  exact List.inj_on_of_nodup_map nodup he he' (inj e he e' he' same)

end

theorem putCells_eq (m cs : List Host.Cell) : putCells m cs = putAll 0 m cs := by
  induction cs generalizing m with
  | nil => rfl
  | cons c cs ih => exact ih _

/-! ### Entries that are rewritten (R216, R217) -/

theorem readPa_of_bytes {p : Package} (n : Nat) {pa v : Nat} (h : ∀ k < n, p.byteAt (pa + k) = BitVec.ofNat 8 (v / 256 ^ k)) :
    p.readPa pa n = v % 256 ^ n := by
  induction n generalizing pa v with
  | zero => simp [Package.readPa, Nat.mod_one]
  | succ n ih =>
    have first := h 0 (by omega)
    have rest : p.readPa (pa + 1) n = v / 256 % 256 ^ n := ih fun k hk => by
      rw [show pa + 1 + k = pa + (k + 1) by omega, h (k + 1) (by omega), Nat.div_div_eq_div_mul, pow_succ']
    rw [Nat.add_zero, pow_zero, Nat.div_one] at first
    rw [Package.readPa, rest, first, BitVec.toNat_ofNat, pow_succ' 256 n]
    exact Nat.mod_mul.symm

/-- What was written into memory is read again (R17). -/
theorem readPa_poke {p : Package} (wf : p.wf = true) (pa n v : Nat) : (p.poke pa n v).readPa pa n = v % 256 ^ n := by
  refine readPa_of_bytes n fun k hk => ?_
  have written := spGet_putBytes_at p.mem pa (toBytes n v) k ((wf_iff p).mp wf).1 (by simpa using hk)
  refine Eq.trans written ?_
  simp [toBytes_eq_map]

/-- An entry with a peer and a frame put in their fields. -/
theorem entry_fields {e peer fr : Nat} (hp : peer < 2 ^ 12) (hf : fr < 2 ^ 32) :
    bitsOf 111 100 (setBits 111 100 peer (setBits 47 16 fr e) % 256 ^ 16) = peer ∧ bitsOf 47 16 (setBits 111 100 peer (setBits 47 16 fr e) % 256 ^ 16) = fr := by
  simp only [bitsOf, setBits, Nat.shiftRight_eq_div_pow]
  norm_num at hp hf ⊢
  omega

theorem repoint_names {p : Package} {pte peer frame : Nat} (wf : p.wf = true) (hp : peer < 4096) (aligned : frame % 65536 = 0) (hf : frame < 2 ^ 48) :
    bitsOf 111 100 ((p.repoint pte peer frame).readPa pte 16) = peer ∧ 65536 * bitsOf 47 16 ((p.repoint pte peer frame).readPa pte 16) = frame ∧
    (∀ c ∈ (p.repoint pte peer frame).cores, (∀ t ∈ c.tlb, t.pte ≠ pte) ∧ ∀ l ∈ c.lanes, l.2.pte ≠ pte) ∧
    (∀ l ∈ (p.repoint pte peer frame).walks, l.pte ≠ pte) ∧
    ∀ a, a < pte ∨ pte + 16 ≤ a → (p.repoint pte peer frame).byteAt a = p.byteAt a := by
  let e := setBits 111 100 peer (setBits 47 16 (frame / 65536) (p.readPa pte 16))
  let gone := p.forget (fun t => t.pte == pte) (fun l => l.pte == pte)
  have read : (p.repoint pte peer frame).readPa pte 16 = e % 256 ^ 16 := readPa_poke (p := gone) wf pte 16 e
  obtain ⟨hpeer, hframe⟩ := entry_fields (e := p.readPa pte 16) (peer := peer) (fr := frame / 65536) (by omega) (by omega)
  rw [read]
  refine ⟨hpeer, ?_, fun c hc => ?_, fun l hl => ?_, fun a outside => ?_⟩
  · rw [hframe]
    omega
  · obtain ⟨c₀, -, rfl⟩ := List.mem_map.mp hc
    exact ⟨fun t ht => by simpa using (List.mem_filter.mp ht).2, fun l hl => by simpa using (List.mem_filter.mp hl).2⟩
  · simpa using (List.mem_filter.mp hl).2
  · exact byteAt_poke_outside gone pte 16 e a outside

/-! ### The owner of a frame (R211) -/

section
variable {s : State}

theorem giveFrame_gives {f world : Nat} (inside : 65536 * f < Config.memBytes) :
    ((s.here.isScrubbed f = true ∧ ∀ q ∈ s.here :: s.others, q.mapsFrame s.here.phys f = false) →
      Answers (.sysTableWrite (.frame f world)) s { s.here with owners := spSet 0 s.here.owners f (world % 64) }) ∧
    ((s.here.isScrubbed f = false ∨ ∃ q ∈ s.here :: s.others, q.mapsFrame s.here.phys f = true) →
      Answers (.sysTableWrite (.frame f world)) s s.here) := by
  have run : exec (.sysTableWrite (.frame f world)) s = .next (s.giveFrame f world) :=
    (show exec (.sysTableWrite (.frame f world)) s = execSysTableWrite (.frame f world) s from rfl).trans (if_neg (Nat.not_le.mpr inside))
  refine ⟨fun ⟨scrubbed, unmapped⟩ => run.trans (congrArg _ (if_neg ?_)), fun held => run.trans (congrArg _ (if_pos ?_))⟩
  · rw [scrubbed, Bool.not_true, Bool.or_false, Bool.not_eq_true, List.any_eq_false]
    exact fun q hq => by simp [unmapped q hq]
  · rcases held with unscrubbed | ⟨q, hq, maps⟩
    · rw [unscrubbed]
      exact Bool.or_true _
    · rw [List.any_eq_true.mpr ⟨q, hq, maps⟩]
      rfl

end

end Sys2Proof.Claims
end

section
/-! SUPPORT. The page of a move at its new home (R216): its owner sets get labels there, and its bytes, labels and marked sectors stand in the new frames. -/

namespace Sys2Proof.Claims

open Sys2Proof.Machine

/-! ### Labels of owner sets (R106, R108) -/

theorem spGet_of_mem {α : Type} {d v : α} {l : List (Nat × α)} {a : Nat} (nodup : (l.map (·.1)).Nodup) (h : (a, v) ∈ l) : spGet d l a = v := by
  induction l with
  | nil => cases h
  | cons e l ih =>
    obtain ⟨b, w⟩ := e
    obtain ⟨once, nodup⟩ := List.nodup_cons.mp nodup
    rcases List.mem_cons.mp h with same | h
    · cases same
      exact if_pos rfl
    · have other : a ≠ b := fun same => once (List.mem_map.mpr ⟨(a, v), h, same⟩)
      rw [spGet, if_neg other]
      exact ih nodup h

theorem labelsWfFrom_keys {lo : Nat} {seen : List Mask} {es : List (Nat × Mask)} (h : labelsWfFrom lo seen es = true) :
    (es.map (·.1)).Nodup ∧ ∀ e ∈ es, lo ≤ e.1 ∧ e.1 < 0xFFFF := by
  induction es generalizing lo seen with
  | nil => simp
  | cons e es ih =>
    simp only [labelsWfFrom, Bool.and_eq_true, decide_eq_true_eq] at h
    obtain ⟨⟨⟨le, lt⟩, -⟩, rest⟩ := h
    obtain ⟨nodup, bounds⟩ := ih rest
    refine ⟨List.nodup_cons.mpr ⟨fun he => ?_, nodup⟩, fun e' he' => ?_⟩
    · obtain ⟨e', he', same⟩ := List.mem_map.mp he
      have above := (bounds e' he').1
      dsimp only at same
      omega
    · rcases List.mem_cons.mp he' with rfl | he'
      · exact ⟨le, lt⟩
      · exact ⟨by have := (bounds e' he').1; omega, (bounds e' he').2⟩

/-- The label table lists each index once, below the reserved one, and the public label first. -/
theorem labelsWf_keys {es : List (Nat × Mask)} (h : labelsWf es = true) : (es.map (·.1)).Nodup ∧ (∀ e ∈ es, e.1 < 0xFFFF) ∧ (0, 0) ∈ es := by
  cases es with
  | nil => cases h
  | cons e es =>
    obtain ⟨first, rest⟩ := Bool.and_eq_true_iff.mp h
    obtain rfl : e = (0, 0) := by simpa using first
    obtain ⟨nodup, bounds⟩ := labelsWfFrom_keys rest
    refine ⟨List.nodup_cons.mpr ⟨fun he => ?_, nodup⟩, fun e' he' => ?_, List.mem_cons_self⟩
    · obtain ⟨e', he', same⟩ := List.mem_map.mp he
      have above := (bounds e' he').1
      dsimp only at same
      omega
    · rcases List.mem_cons.mp he' with rfl | he'
      · show (0 : Nat) < 0xFFFF
        omega
      · exact (bounds e' he').2

section
variable {p q : Package}

theorem maskOf_eq_spGet (p : Package) (l : Lbl) : p.maskOf l = spGet 0 p.labels l.toNat := by
  unfold Package.maskOf
  generalize p.labels = es
  induction es with
  | nil => rfl
  | cons e es ih =>
    obtain ⟨k, m⟩ := e
    rw [List.find?_cons, spGet]
    by_cases h : l.toNat = k
    · simp [h]
    · have other : (k == l.toNat) = false := by simp [Ne.symm h]
      simpa [h, other] using ih

theorem maskOf_listed (wf : p.wf = true) {l : Lbl} {m : Mask} (h : (l.toNat, m) ∈ p.labels) : p.maskOf l = m := by
  rw [maskOf_eq_spGet]
  exact spGet_of_mem (labelsWf_keys ((wf_iff p).mp wf).2.2).1 h

theorem maskOf_public (wf : p.wf = true) : p.maskOf 0 = 0 := maskOf_listed wf (labelsWf_keys ((wf_iff p).mp wf).2.2).2.2

theorem labelFor_lists (wf : p.wf = true) {m : Mask} {l : Lbl} (h : p.labelFor m = some (l, q)) : (l.toNat, m) ∈ q.labels := by
  have small {k : Nat} (hk : k < 0xFFFF) : (BitVec.ofNat 16 k).toNat = k := by
    rw [BitVec.toNat_ofNat, Nat.mod_eq_of_lt (by omega)]
  simp only [Package.labelFor] at h
  split at h
  next k found =>
    cases h
    obtain ⟨e, he, rfl⟩ := Option.map_eq_some_iff.mp found
    have listed := List.mem_of_find?_eq_some he
    obtain rfl : e.2 = m := by simpa using List.find?_some he
    rwa [small ((labelsWf_keys ((wf_iff p).mp wf).2.2).2.1 e listed)]
  · split at h
    next free =>
      cases h
      rw [small free]
      exact mem_insertBy_iff.mpr (.inl rfl)
    · cases h

/-- The labels that the system cores place name the owner sets, each at its granule. -/
theorem systemLabels_spec (wf : p.wf = true) {ls : List (Nat × Nat)} {gs : List (Nat × Lbl)} (h : p.systemLabels ls = some (gs, q)) :
    q = { p with labels := q.labels } ∧ q.wf = true ∧ (∀ e ∈ p.labels, e ∈ q.labels) ∧
    List.Forall₂ (fun a b => b.1 = a.1 ∧ (b.2.toNat, BitVec.ofNat 128 a.2) ∈ q.labels) ls gs := by
  induction ls generalizing p gs with
  | nil =>
    cases h
    exact ⟨rfl, wf, fun _ he => he, .nil⟩
  | cons a ls ih =>
    obtain ⟨g, m⟩ := a
    rw [Package.systemLabels] at h
    split at h
    · cases h
    next l p₁ labelled =>
      obtain ⟨⟨gs', q'⟩, rest, same⟩ := Option.map_eq_some_iff.mp h
      cases same
      have wf₁ := wf_labelFor labelled wf
      obtain ⟨frame, wf', kept, each⟩ := ih wf₁ rest
      have frame₁ := (labelFor_spec labelled).1
      refine ⟨?_, wf', fun e he => kept e (labelFor_keeps labelled e he), .cons ⟨rfl, kept _ (labelFor_lists wf labelled)⟩ each⟩
      rw [frame, frame₁]

/-- The owner sets that placed labels name are read at their granules. -/
theorem maskOf_placed (wf : q.wf = true) {ls : List (Nat × Mask)} {gs : List (Nat × Lbl)} (g : Nat)
    (h : List.Forall₂ (fun a b => b.1 = a.1 ∧ (b.2.toNat, a.2) ∈ q.labels) ls gs) : q.maskOf (spGet 0 gs g) = spGet 0 ls g := by
  induction h with
  | nil => exact maskOf_public wf
  | @cons a b _ _ same _ ih =>
    obtain ⟨key, listed⟩ := same
    rw [spGet, spGet, key]
    split
    · exact maskOf_listed wf listed
    · exact ih

theorem keys_placed {ls : List (Nat × Mask)} {gs : List (Nat × Lbl)} (h : List.Forall₂ (fun a b => b.1 = a.1 ∧ (b.2.toNat, a.2) ∈ q.labels) ls gs) :
    gs.map (·.1) = ls.map (·.1) := by
  induction h with
  | nil => rfl
  | cons same _ ih => rw [List.map_cons, List.map_cons, same.1, ih]

end

/-! ### The page in its new frames -/

/-- Whether an address lies in a page, and outside some frames. -/
def inPage (page size a : Nat) : Bool := decide (page ≤ a) && decide (a < page + size)
def offPage (frame size a : Nat) : Bool := decide (a < frame) || decide (frame + size ≤ a)

theorem inPage_iff {page size a : Nat} : inPage page size a = true ↔ page ≤ a ∧ a < page + size := by simp [inPage]
theorem offPage_iff {frame size a : Nat} : offPage frame size a = true ↔ a < frame ∨ frame + size ≤ a := by simp [offPage]

/-- The package with the page of another one in its frames, before the copies of their lines are dropped. -/
def landed (q : Package) (world frame size : Nat) (im : PageImage) (labels : List (Nat × Lbl)) : Package :=
  { q with mem := putAll 0 (q.mem.filter (fun c => offPage frame size c.1)) (im.bytes.map (fun (c : Host.Cell) => (frame + c.1, c.2)))
           glabels := putAll 0 (q.glabels.filter (fun g => offPage frame size (32 * g.1))) (labels.map (fun g => (frame / 32 + g.1, g.2)))
           bad := im.bad.foldl (fun b g => insertBy id (frame / 32 + g) b) (q.bad.filter (fun g => offPage frame size (32 * g)))
           code := q.code.filter (fun c => offPage frame size (64 * c.1))
           owners := (List.range (size / 65536)).foldl (fun o k => spSet 0 o (frame / 65536 + k) world) q.owners }

theorem setGlabels_eq (b : Nat) (labels : List (Nat × Lbl)) (q : Package) : labels.foldl (fun (p : Package) g => p.setGlabel (b + g.1) g.2) q =
    { q with glabels := putAll 0 q.glabels (labels.map (fun g => (b + g.1, g.2))) } := by
  induction labels generalizing q with
  | nil => rfl
  | cons g labels ih => exact ih _

theorem takePage_eq (q : Package) (world frame size : Nat) (im : PageImage) (labels : List (Nat × Lbl)) :
    q.takePage world frame size im labels = (landed q world frame size im labels).dropPage frame size := by
  refine (congrArg (fun p : Package => p.dropPage frame size) (setGlabels_eq (frame / 32) labels _)).trans ?_
  simp only [putCells_eq]
  rfl

theorem uncached_dropPage (p : Package) (page size : Nat) : uncached (p.dropPage page size) = uncached p := foldl_part uncached uncached_dropLine _ p

section
variable {p q q₁ : Package} {world page size frame : Nat} {labels : List (Nat × Lbl)}

/-- What the page holds of a table whose keys lie in it, at the keys of its new place. -/
theorem spGet_page {α β : Type} {d : α} (φ : α → β) {table : List (Nat × α)} {unit b : Nat} (k : Nat) (hu : 0 < unit) (hp : page = unit * b)
    (inside : unit * k < size) : spGet (φ d) ((table.filter (fun c => inPage page size (unit * c.1))).map (fun c => (c.1 - b, φ c.2))) k =
      φ (spGet d table (b + k)) := by
  have here : inPage page size (unit * (b + k)) = true := by
    rw [inPage_iff, Nat.mul_add]
    omega
  rw [spGet_map φ (g := (· - b)) (a := b + k), spGet_filter_key (fun a => inPage page size (unit * a)), if_pos here]
  intro e he
  have above := (inPage_iff.mp (List.mem_filter.mp he).2).1
  rw [hp] at above
  have := Nat.le_of_mul_le_mul_left above hu
  omega

theorem nodup_page {α β : Type} (φ : α → β) {table : List (Nat × α)} {unit b : Nat} (hu : 0 < unit) (hp : page = unit * b)
    (nodup : (table.map (·.1)).Nodup) :
    (((table.filter (fun c => inPage page size (unit * c.1))).map (fun c => (c.1 - b, φ c.2))).map (·.1)).Nodup := by
  refine nodup_map_keys (g := (· - b)) φ (nodup.sublist (List.filter_sublist.map _)) fun e he e' he' same => ?_
  have above (e : Nat × α) (he : e ∈ table.filter (fun c => inPage page size (unit * c.1))) : b ≤ e.1 := by
    have above := (inPage_iff.mp (List.mem_filter.mp he).2).1
    rw [hp] at above
    exact Nat.le_of_mul_le_mul_left above hu
  have := above e he
  have := above e' he'
  omega

/-- A table into whose frames entries are put: these are read there, and the old ones elsewhere. -/
theorem spGet_frames {α : Type} [DecidableEq α] {d : α} {table es : List (Nat × α)} {unit b : Nat} (hf : frame = unit * b)
    (wf : spWf d table = true) (nodup : (es.map (·.1)).Nodup) (few : ∀ e ∈ es, unit * e.1 < size) (k : Nat) :
    (unit * k < size → spGet d (putAll d (table.filter (fun c => offPage frame size (unit * c.1))) (es.map (fun e => (b + e.1, e.2)))) (b + k) = spGet d es k) ∧
    (unit * k < frame ∨ frame + size ≤ unit * k →
      spGet d (putAll d (table.filter (fun c => offPage frame size (unit * c.1))) (es.map (fun e => (b + e.1, e.2)))) k = spGet d table k) := by
  constructor
  · intro inside
    have covered : ¬offPage frame size (unit * (b + k)) = true := by
      rw [offPage_iff, Nat.mul_add]
      omega
    have moved : ((es.map (fun e => (b + e.1, e.2))).map (·.1)).Nodup :=
      nodup_map_keys (g := (b + ·)) id nodup fun _ _ _ _ same => Nat.add_left_cancel same
    rw [spGet_putAll (spWf_filter _ wf) moved (by rw [spGet_filter_key (fun a => offPage frame size (unit * a)), if_neg covered])]
    exact spGet_map id (g := (b + ·)) fun e _ => Nat.add_left_cancel_iff
  · intro outside
    rw [spGet_putAll_outside, spGet_filter_key (fun a => offPage frame size (unit * a)), if_pos (offPage_iff.mpr outside)]
    intro hk
    rw [List.map_map] at hk
    obtain ⟨e, he, rfl⟩ := List.mem_map.mp hk
    have small := few e he
    have place : unit * (b + e.1) = frame + unit * e.1 := by rw [Nat.mul_add, hf]
    rw [Function.comp_apply, place] at outside
    omega

theorem few_page {α β : Type} (φ : α → β) {table : List (Nat × α)} {unit b : Nat} (hp : page = unit * b) :
    ∀ e ∈ (table.filter (fun c => inPage page size (unit * c.1))).map (fun c => (c.1 - b, φ c.2)), unit * e.1 < size := by
  intro e he
  obtain ⟨c, hc, rfl⟩ := List.mem_map.mp he
  obtain ⟨lo, hi⟩ := inPage_iff.mp (List.mem_filter.mp hc).2
  rw [Nat.mul_sub]
  omega

theorem mem_foldl_insertBy (b : Nat) (ks l : List Nat) (x : Nat) : x ∈ ks.foldl (fun l g => insertBy id (b + g) l) l ↔ (∃ g ∈ ks, x = b + g) ∨ x ∈ l := by
  induction ks generalizing l with
  | nil => simp
  | cons k ks ih => simp [ih, mem_insertBy_iff, or_assoc, or_left_comm]

end

end Sys2Proof.Claims
end

section
/-! SUPPORT. The move of a page (R216): what stands at the new home, and when the system cores make the move. -/

namespace Sys2Proof.Claims

open Sys2Proof.Machine

section
variable {p q q₁ : Package} {world page size frame : Nat} {labels : List (Nat × Lbl)}

/-! ### What stands at the new home -/

theorem landed_bytes (hmem : Memory.wf p.mem = true) (hmem₁ : Memory.wf q₁.mem = true) :
    (∀ a < size, (landed q₁ world frame size (p.pageImage page size) labels).byteAt (frame + a) = p.byteAt (page + a)) ∧
    ∀ a, a < frame ∨ frame + size ≤ a → (landed q₁ world frame size (p.pageImage page size) labels).byteAt a = q₁.byteAt a := by
  have put (a : Nat) := spGet_frames (frame := frame) (size := size) (unit := 1) (b := frame) (table := q₁.mem)
    (es := (p.mem.filter (fun c => inPage page size (1 * c.1))).map (fun c => (c.1 - page, id c.2))) (by omega) hmem₁
    (nodup_page id (by omega) (by omega) (spWf_keys hmem)) (few_page id (by omega)) a
  simp only [Nat.one_mul] at put
  refine ⟨fun a inside => ((put a).1 inside).trans ?_, fun a outside => (put a).2 outside⟩
  have held := spGet_page (d := (0 : Byte)) id (table := p.mem) (page := page) (size := size) (unit := 1) (b := page) a (by omega) (by omega) (by omega)
  simp only [Nat.one_mul] at held
  exact held

/-- The owner sets of a page, by their place in it. -/
theorem pageImage_labels (wf : p.wf = true) (hp : page % 32 = 0) {g : Nat} (inside : 32 * g < size) :
    spGet 0 (p.pageImage page size).labels g = p.maskOf (p.glabel (page / 32 + g)) := by
  have held := spGet_page (d := (0 : Lbl)) p.maskOf (table := p.glabels) (page := page) (size := size) (unit := 32) (b := page / 32) g (by omega) (by omega)
    inside
  rwa [maskOf_public wf] at held

theorem landed_labels (wf : p.wf = true) (wf₁ : q₁.wf = true) (hp : page % 32 = 0) (hf : frame % 32 = 0)
    (hl : List.Forall₂ (fun a b => b.1 = a.1 ∧ (b.2.toNat, a.2) ∈ q₁.labels) (p.pageImage page size).labels labels) :
    (∀ g, 32 * g < size → q₁.maskOf ((landed q₁ world frame size (p.pageImage page size) labels).glabel (frame / 32 + g)) =
      p.maskOf (p.glabel (page / 32 + g))) ∧
    ∀ g, 32 * g < frame ∨ frame + size ≤ 32 * g → (landed q₁ world frame size (p.pageImage page size) labels).glabel g = q₁.glabel g := by
  have keys := keys_placed hl
  have nodup : (labels.map (·.1)).Nodup := by
    rw [keys]
    exact nodup_page p.maskOf (by omega) (by omega) (spWf_keys ((wf_iff p).mp wf).2.1)
  have few : ∀ e ∈ labels, 32 * e.1 < size := by
    intro e he
    obtain ⟨e', he', same⟩ := List.mem_map.mp (keys ▸ List.mem_map_of_mem (f := Prod.fst) he)
    rw [← same]
    exact few_page p.maskOf (by omega) e' he'
  have put (g : Nat) := spGet_frames (d := (0 : Lbl)) (frame := frame) (size := size) (unit := 32) (b := frame / 32) (by omega)
    ((wf_iff q₁).mp wf₁).2.1 nodup few g
  refine ⟨fun g inside => ?_, fun g outside => (put g).2 outside⟩
  rw [← pageImage_labels wf hp inside, ← maskOf_placed wf₁ g hl]
  exact congrArg q₁.maskOf ((put g).1 inside)

theorem landed_bad (hp : page % 32 = 0) (hf : frame % 32 = 0) :
    (∀ g, 32 * g < size → (frame / 32 + g ∈ (landed q₁ world frame size (p.pageImage page size) labels).bad ↔ page / 32 + g ∈ p.bad)) ∧
    ∀ g, 32 * g < frame ∨ frame + size ≤ 32 * g → (g ∈ (landed q₁ world frame size (p.pageImage page size) labels).bad ↔ g ∈ q₁.bad) := by
  have listed (x : Nat) : x ∈ (landed q₁ world frame size (p.pageImage page size) labels).bad ↔
      (∃ g ∈ p.bad, inPage page size (32 * g) = true ∧ x = frame / 32 + (g - page / 32)) ∨ x ∈ q₁.bad ∧ offPage frame size (32 * x) = true := by
    refine (mem_foldl_insertBy _ _ _ _).trans (or_congr ?_ List.mem_filter)
    constructor
    · rintro ⟨_, hg', rfl⟩
      obtain ⟨g, hg, rfl⟩ := List.mem_map.mp hg'
      obtain ⟨hg, inside⟩ := List.mem_filter.mp hg
      exact ⟨g, hg, inside, rfl⟩
    · rintro ⟨g, hg, inside, rfl⟩
      exact ⟨_, List.mem_map_of_mem (List.mem_filter.mpr ⟨hg, inside⟩), rfl⟩
  refine ⟨fun g inside => (listed _).trans ⟨?_, fun hg => .inl ⟨_, hg, ?_, ?_⟩⟩, fun g outside => (listed _).trans ⟨?_, fun hg => .inr ⟨hg, ?_⟩⟩⟩
  · rintro (⟨g', hg', inside', same⟩ | ⟨-, off⟩)
    · have := inPage_iff.mp inside'
      rwa [show page / 32 + g = g' by omega]
    · have := offPage_iff.mp off
      omega
  · rw [inPage_iff]
    omega
  · omega
  · rintro (⟨g', -, inside', same⟩ | ⟨hg, -⟩)
    · have := inPage_iff.mp inside'
      omega
    · exact hg
  · rwa [offPage_iff]

theorem landed_code (hf : frame % 64 = 0) (hs : size % 64 = 0) (im : PageImage) :
    ∀ a < size, (landed q₁ world frame size im labels).clauseStart (frame + a) = false := by
  intro a inside
  have covered : ¬offPage frame size (64 * lineOf (frame + a)) = true := by
    rw [offPage_iff, lineOf]
    omega
  have gone : spGet 0 (landed q₁ world frame size im labels).code (lineOf (frame + a)) = 0 :=
    (spGet_filter_key (fun l => offPage frame size (64 * l)) q₁.code _).trans (if_neg covered)
  rw [Package.clauseStart, gone]
  exact BitVec.getLsbD_zero

theorem landed_owners (hf : frame % 65536 = 0) (hs : size % 65536 = 0) (hown : spWf 0 q₁.owners = true) (im : PageImage) :
    ∀ a < size, (landed q₁ world frame size im labels).ownerOf (frame + a) = world := by
  intro a inside
  refine (spGet_fill hown world (frame / 65536) (List.range (size / 65536))).trans (if_pos ⟨a / 65536, List.mem_range.mpr (by omega), ?_⟩)
  norm_num
  omega

theorem landed_moved (wf : p.wf = true) (wf₁ : q₁.wf = true) (same : q₁ = { q with labels := q₁.labels }) (hown : spWf 0 q.owners = true)
    (hp : page % 65536 = 0) (hf : frame % 65536 = 0) (hs : size % 65536 = 0)
    (hl : List.Forall₂ (fun a b => b.1 = a.1 ∧ (b.2.toNat, a.2) ∈ q₁.labels) (p.pageImage page size).labels labels) :
    PageMoved world page size frame p q (landed q₁ world frame size (p.pageImage page size) labels) := by
  obtain ⟨bytes, bytes'⟩ := landed_bytes (world := world) (page := page) (size := size) (frame := frame) (labels := labels) ((wf_iff p).mp wf).1 ((wf_iff q₁).mp wf₁).1
  obtain ⟨owners, owners'⟩ := landed_labels (world := world) (frame := frame) wf wf₁ (by omega) (by omega) hl
  obtain ⟨bad, bad'⟩ := landed_bad (p := p) (q₁ := q₁) (world := world) (page := page) (size := size) (frame := frame) (labels := labels) (by omega) (by omega)
  have byte (a : Nat) : q₁.byteAt a = q.byteAt a := by rw [same]; rfl
  have glabel (g : Nat) : q₁.glabel g = q.glabel g := by rw [same]; rfl
  have sectors : q₁.bad = q.bad := by rw [same]
  have owned : q₁.owners = q.owners := by rw [same]
  refine ⟨bytes, fun a outside => (bytes' a outside).trans (byte a), fun g inside => ⟨owners g (by omega), bad g (by omega)⟩,
    fun g outside => ⟨(owners' g (by omega)).trans (glabel g), sectors ▸ bad' g (by omega)⟩, landed_code (by omega) (by omega) _,
    landed_owners hf hs (owned ▸ hown) _⟩

/-- A package with the page of another one in its frames (R216). -/
theorem takePage_moved (wf : p.wf = true) (wfq : q.wf = true) (hown : spWf 0 q.owners = true)
    (hp : page % 65536 = 0) (hf : frame % 65536 = 0) (hs : size % 65536 = 0)
    (placed : q.systemLabels ((p.pageImage page size).labels.map (fun g => (g.1, g.2.toNat))) = some (labels, q₁)) :
    PageMoved world page size frame p q (q₁.takePage world frame size (p.pageImage page size) labels) := by
  obtain ⟨same, wf₁, -, each⟩ := systemLabels_spec wfq placed
  rw [List.forall₂_map_left_iff] at each
  simp only [BitVec.ofNat_toNat, BitVec.setWidth_eq] at each
  have kept : uncached (q₁.takePage world frame size (p.pageImage page size) labels) =
      uncached (landed q₁ world frame size (p.pageImage page size) labels) := by
    rw [takePage_eq]
    exact uncached_dropPage _ _ _
  have moved : PageMoved world page size frame p q (uncached (q₁.takePage world frame size (p.pageImage page size) labels)) := by
    rw [kept]
    exact landed_moved wf wf₁ same hown hp hf hs each
  exact moved

theorem takePage_phys (q : Package) (im : PageImage) : (q.takePage world frame size im labels).phys = q.phys := by
  rw [takePage_eq]
  have kept := congrArg Package.phys (uncached_dropPage (landed q world frame size im labels) frame size)
  exact kept

end

/-! ### When the system cores make the move -/

section
variable {s : State} {world page size peer frame : Nat} {es : List (Nat × Nat)}

/-- The world's home asked for the move, and its tide applies or closes. -/
def Moving (s : State) (world page peer : Nat) : Prop :=
  ∃ x, s.here.world? world = some x ∧ (world, page, peer) ∈ s.here.moves ∧ ∃ t, x.tide = some t ∧ (t.state = .applying ∨ t.state = .closing)

/-- The size and the alignment of a page that may be moved. -/
def legalMove (page size frame : Nat) : Bool := (size == 2 ^ 16 || size == 2 ^ 21 || size == 2 ^ 30) && frame % size == 0 && page % size == 0

theorem legalMove_iff : legalMove page size frame = true ↔ (size = 2 ^ 16 ∨ size = 2 ^ 21 ∨ size = 2 ^ 30) ∧ frame % size = 0 ∧ page % size = 0 := by
  simp only [legalMove, Bool.and_eq_true, Bool.or_eq_true, beq_iff_eq, or_assoc, and_assoc]

/-- Pages that may be moved are whole frames. -/
theorem legalMove_frames (h : legalMove page size frame = true) : size % 65536 = 0 ∧ frame % 65536 = 0 ∧ page % 65536 = 0 ∧ size ≠ 0 := by
  obtain ⟨rfl | rfl | rfl, hf, hp⟩ := legalMove_iff.mp h <;> omega

/-- The state once the move is no longer asked for. -/
def unasked (s : State) (world page peer : Nat) : State :=
  { s with here := { s.here with moves := s.here.moves.filter (fun m => m != (world, page, peer)) } }

theorem exec_migrate (inside : lastByte (.migrate world page size peer frame es) < Config.memBytes) :
    exec (.sysTableWrite (.migrate world page size peer frame es)) s = .next (s.migratePage world page size peer frame es) :=
  (show exec (.sysTableWrite (.migrate world page size peer frame es)) s = execSysTableWrite (.migrate world page size peer frame es) s from rfl).trans
    (if_neg (Nat.not_le.mpr inside))

/-- The move where it is asked for in its time. -/
def madeMove (s : State) (world page size peer frame : Nat) (es : List (Nat × Nat)) (x : World) : State :=
  if size = 0 then unasked s world page peer
  else if !legalMove page size frame || (s.here.peerOf x false peer).1 != .reachable || (s.here.peerOf x false peer).2 == s.here.phys ||
      !s.freeFrames (s.here.peerOf x false peer).2 frame size then s
  else
    let home := (s.here.peerOf x false peer).2
    let im := s.here.pageImage page size
    match s.others.find? (fun q => q.phys == home) with
    | none => s
    | some q =>
      match q.systemLabels (im.labels.map (fun g => (g.1, g.2.toNat))) with
      | none => (unasked s world page peer).onPackage home Package.labelsFull
      | some (ls, q) =>
        es.foldl (fun s e => s.onPackage e.1 (fun q => q.repoint e.2 peer frame))
          (((unasked s world page peer).onPackage home (fun _ => q.takePage world frame size im ls)).onPackage s.here.phys (fun q => q.dropPage page size))

theorem asked_iff {x : World} (hx : s.here.world? world = some x) :
    (s.here.moves.contains (world, page, peer) && x.tide.any (fun t => t.state == .applying || t.state == .closing)) = true ↔ Moving s world page peer := by
  simp only [Bool.and_eq_true, List.contains_iff_mem, Option.any_eq_true, Bool.or_eq_true, beq_iff_eq]
  constructor
  · rintro ⟨asked, t, ht, state⟩
    exact ⟨x, hx, asked, t, ht, state⟩
  · rintro ⟨y, hy, asked, t, ht, state⟩
    obtain rfl : x = y := Option.some.inj (hx.symm.trans hy)
    exact ⟨asked, t, ht, state⟩

theorem migratePage_idle (idle : ¬Moving s world page peer) : s.migratePage world page size peer frame es = s := by
  unfold State.migratePage
  dsimp only
  split
  · rfl
  next x hx =>
    refine if_pos ?_
    rw [← asked_iff hx, Bool.not_eq_true] at idle
    rw [← Bool.not_and, idle]
    rfl

theorem migratePage_asked (moving : Moving s world page peer) {x : World} (hx : s.here.world? world = some x) :
    s.migratePage world page size peer frame es = madeMove s world page size peer frame es x := by
  have asked := (asked_iff hx).mpr moving
  unfold State.migratePage
  simp only [hx]
  refine (if_neg ?_).trans rfl
  rw [← Bool.not_and, asked]
  exact Bool.false_ne_true

end

end Sys2Proof.Claims
end

section
/-! SUPPORT. The services of the system cores (R320, R322, R330 to R333, R196, R211, R216), put together. -/

namespace Sys2Proof.Claims

open Sys2Proof.Machine

section
variable {s : State} {world page size peer frame home : Nat} {es : List (Nat × Nat)} {x : World} {q : Package}

/-! ### The outcomes of a move -/

theorem madeMove_none : madeMove s world page 0 peer frame es x = unasked s world page peer := if_pos rfl

theorem madeMove_held (some_ : size ≠ 0) (held : legalMove page size frame = false ∨
    s.here.peerOf x false peer = (.reachable, home) ∧ s.freeFrames home frame size = false) : madeMove s world page size peer frame es x = s := by
  refine (if_neg some_).trans (if_pos ?_)
  rcases held with illegal | ⟨there, busy⟩
  · simp [illegal]
  · simp [there, busy]

/-- The state after the page was copied, before its entries are rewritten. -/
def pageCopied (s : State) (world page size peer frame home : Nat) (q : Package) (labels : List (Nat × Lbl)) : State :=
  ((unasked s world page peer).onPackage home (fun _ => q.takePage world frame size (s.here.pageImage page size) labels)).onPackage s.here.phys
    (fun q => q.dropPage page size)

section
variable (legal : legalMove page size frame = true) (there : s.here.peerOf x false peer = (.reachable, home)) (away : home ≠ s.here.phys)
  (found : s.others.find? (fun q => q.phys == home) = some q) (free : s.freeFrames home frame size = true)
include legal there away found free

theorem madeMove_full (full : q.systemLabels ((s.here.pageImage page size).labels.map (fun g => (g.1, g.2.toNat))) = none) :
    madeMove s world page size peer frame es x = (unasked s world page peer).onPackage home Package.labelsFull := by
  refine (if_neg (legalMove_frames legal).2.2.2).trans ((if_neg ?_).trans ?_)
  · simp [legal, there, away, free]
  · simp only [there, found, full]

theorem madeMove_copies {labels : List (Nat × Lbl)} {q₁ : Package}
    (placed : q.systemLabels ((s.here.pageImage page size).labels.map (fun g => (g.1, g.2.toNat))) = some (labels, q₁)) :
    madeMove s world page size peer frame es x =
      es.foldl (fun s e => s.onPackage e.1 (fun q => q.repoint e.2 peer frame)) (pageCopied s world page size peer frame home q₁ labels) := by
  refine (if_neg (legalMove_frames legal).2.2.2).trans ((if_neg ?_).trans ?_)
  · simp [legal, there, away, free]
  · simp only [there, found, placed]
    rfl

end

theorem unasked_onPackage_away (away : home ≠ s.here.phys) (f : Package → Package) : (unasked s world page peer).onPackage home f =
    { unasked s world page peer with others := s.others.map (fun y => if y.phys = home then f y else y) } := by
  refine (if_neg (Ne.symm away)).trans ?_
  simp only [mapIf, beq_iff_eq]
  rfl

/-- Once the page is copied the old home has dropped it, and the new one holds it. -/
theorem pageCopied_others (away : home ≠ s.here.phys) (found : s.others.find? (fun q => q.phys == home) = some q) {q₁ : Package}
    {labels : List (Nat × Lbl)} (same : q₁.phys = home) :
    (pageCopied s world page size peer frame home q₁ labels).here = (unasked s world page peer).here.dropPage page size ∧
    (pageCopied s world page size peer frame home q₁ labels).others.find? (fun q => q.phys == home) =
      some (q₁.takePage world frame size (s.here.pageImage page size) labels) := by
  rw [pageCopied, unasked_onPackage_away away]
  refine ⟨congrArg State.here (if_pos rfl), ?_⟩
  refine (congrArg (fun t : State => t.others.find? (fun q => q.phys == home)) (if_pos rfl)).trans ?_
  have key : ((fun q : Package => q.phys == home) ∘
      fun y => if y.phys = home then q₁.takePage world frame size (s.here.pageImage page size) labels else y) = fun q => q.phys == home := by
    funext y
    dsimp only [Function.comp]
    split
    next h => rw [takePage_phys, same, h]
    · rfl
  rw [List.find?_map, key, found]
  have phys : q.phys = home := by simpa using List.find?_some found
  simp [phys]

/-! ### What the write of a move answers -/

section
variable (inside : lastByte (.migrate world page size peer frame es) < Config.memBytes)
include inside

theorem migrate_idle (idle : ¬Moving s world page peer) : exec (.sysTableWrite (.migrate world page size peer frame es)) s = .next s :=
  (exec_migrate inside).trans (congrArg _ (migratePage_idle idle))

theorem migrate_asked (moving : Moving s world page peer) (hx : s.here.world? world = some x) :
    exec (.sysTableWrite (.migrate world page size peer frame es)) s = .next (madeMove s world page size peer frame es x) :=
  (exec_migrate inside).trans (congrArg _ (migratePage_asked moving hx))

theorem migrate_givenUp (moving : Moving s world page peer) (none : size = 0) :
    exec (.sysTableWrite (.migrate world page size peer frame es)) s = .next (unasked s world page peer) := by
  obtain ⟨x, hx, -⟩ := id moving
  subst none
  exact (migrate_asked inside moving hx).trans (congrArg _ madeMove_none)

theorem migrate_illegal (moving : Moving s world page peer) (some_ : size ≠ 0)
    (illegal : ¬((size = 2 ^ 16 ∨ size = 2 ^ 21 ∨ size = 2 ^ 30) ∧ frame % size = 0 ∧ page % size = 0)) :
    exec (.sysTableWrite (.migrate world page size peer frame es)) s = .next s := by
  obtain ⟨x, hx, -⟩ := id moving
  have illegal : legalMove page size frame = false := Bool.eq_false_iff.mpr fun h => illegal (legalMove_iff.mp h)
  exact (migrate_asked inside moving hx).trans (congrArg _ (madeMove_held (home := 0) some_ (.inl illegal)))

section
variable (moving : Moving s world page peer) (legal : legalMove page size frame = true) (hx : s.here.world? world = some x)
  (there : s.here.peerOf x false peer = (.reachable, home)) (away : home ≠ s.here.phys) (found : s.others.find? (fun q => q.phys == home) = some q)
include moving legal hx there

theorem migrate_busy (busy : s.freeFrames home frame size = false) : exec (.sysTableWrite (.migrate world page size peer frame es)) s = .next s :=
  (migrate_asked inside moving hx).trans (congrArg _ (madeMove_held (legalMove_frames legal).2.2.2 (.inr ⟨there, busy⟩)))

variable (free : s.freeFrames home frame size = true)
include away found free

theorem migrate_full (full : q.systemLabels ((s.here.pageImage page size).labels.map (fun g => (g.1, g.2.toNat))) = none) :
    exec (.sysTableWrite (.migrate world page size peer frame es)) s =
      .next { unasked s world page peer with others := s.others.map (fun y => if y.phys = home then y.labelsFull else y) } :=
  (migrate_asked inside moving hx).trans
    (congrArg _ ((madeMove_full legal there away found free full).trans (unasked_onPackage_away away Package.labelsFull)))

variable {labels : List (Nat × Lbl)} {q₁ : Package}
  (placed : q.systemLabels ((s.here.pageImage page size).labels.map (fun g => (g.1, g.2.toNat))) = some (labels, q₁))
include placed

theorem migrate_copies : exec (.sysTableWrite (.migrate world page size peer frame es)) s =
    .next (es.foldl (fun s e => s.onPackage e.1 (fun q => q.repoint e.2 peer frame)) (pageCopied s world page size peer frame home q₁ labels)) :=
  (migrate_asked inside moving hx).trans (congrArg _ (madeMove_copies legal there away found free placed))

/-- Without entries to rewrite, the page stands at its new home and the old one has dropped it. -/
theorem migrate_moves (wf : s.here.wf = true) (wfq : q.wf = true) (hown : spWf 0 q.owners = true) (alone : es = []) :
    ∃ t q₂, exec (.sysTableWrite (.migrate world page size peer frame es)) s = .next t ∧
      t.here.moves = s.here.moves.filter (fun m => m != (world, page, peer)) ∧ sameStore s.here t.here ∧
      t.others.find? (fun q => q.phys == home) = some q₂ ∧ PageMoved world page size frame s.here q q₂ := by
  obtain ⟨hs, hf, hp, -⟩ := legalMove_frames legal
  have phys : q₁.phys = home := by
    rw [(systemLabels_spec wfq placed).1]
    simpa using List.find?_some found
  obtain ⟨dropped, arrived⟩ := pageCopied_others (world := world) (page := page) (size := size) (peer := peer) (frame := frame) (labels := labels)
    away found phys
  have kept := uncached_dropPage (unasked s world page peer).here page size
  have moves := congrArg Package.moves kept
  obtain ⟨mem, glabels, tables⟩ := sameStore_of_unwritten (unwritten_of_uncached kept)
  have run := migrate_copies inside moving legal hx there away found free placed
  subst alone
  refine ⟨_, _, run, ?_, ?_, arrived, takePage_moved wf wfq hown hp hf hs placed⟩
  · rw [List.foldl_nil, dropped]
    exact moves
  · rw [List.foldl_nil, dropped]
    exact ⟨mem, glabels, tables⟩

end

end

/-- A further entry is rewritten after the others. -/
theorem migrate_repoints {e : List (Nat × Nat)} {e' : Nat × Nat} {labels : List (Nat × Lbl)} {q₁ : Package} {t : State}
    (inside : lastByte (.migrate world page size peer frame e) < Config.memBytes) (moving : Moving s world page peer)
    (legal : legalMove page size frame = true) (hx : s.here.world? world = some x) (there : s.here.peerOf x false peer = (.reachable, home))
    (away : home ≠ s.here.phys) (found : s.others.find? (fun q => q.phys == home) = some q) (free : s.freeFrames home frame size = true)
    (placed : q.systemLabels ((s.here.pageImage page size).labels.map (fun g => (g.1, g.2.toNat))) = some (labels, q₁))
    (before : exec (.sysTableWrite (.migrate world page size peer frame e)) s = .next t) :
    exec (.sysTableWrite (.migrate world page size peer frame (e ++ [e']))) s = .next (t.onPackage e'.1 (fun q => q.repoint e'.2 peer frame)) := by
  have after := migrate_copies (es := e ++ [e']) inside moving legal hx there away found free placed
  rw [migrate_copies inside moving legal hx there away found free placed] at before
  rw [after, List.foldl_append, ← Host.Outcome.next.inj before]
  rfl

end

/-- Settles O51: each service by the package that its event answers; the move of a page by what the sparse tables read once its entries are put into them. -/
theorem servicesComplete : Obligations.ServicesComplete := by
  unfold Obligations.ServicesComplete
  exact ⟨fun _ nonce world => attestationReport_completes nonce world, fun _ f => crashDump_completes f, snapRead_shows,
    fun _ _ _ _ hx device off => debugRequest_refused hx device off, fun _ _ _ hx on => debugRequest_halts hx on,
    fun _ _ _ hx on => debugRequest_reads hx on, fun _ v => snapctlWrite_completes v, fun _ armed => snapPin_latches armed,
    fun _ due => instrSnapshotLatch_latches due, fun p src armed => snapshot_latches p src armed, fun _ _ _ _ _ hx => qosShareChange_completes hx,
    fun _ _ _ _ _ _ hc hb hl hx suspended holders => bankTransfer_completes hc hb hl hx suspended holders,
    fun _ _ inside migrate frame => sysTableWrite_writes inside migrate frame, 
    fun s world page size peer frame es inside => ⟨migrate_idle inside, migrate_givenUp inside, migrate_illegal inside,
      fun x home q moving legal hx there away found => ⟨migrate_busy inside moving (legalMove_iff.mpr legal) hx there, fun free wf wfq hown _ =>
        ⟨fun labels q₁ placed => ⟨migrate_moves inside moving (legalMove_iff.mpr legal) hx there away found free placed wf wfq hown,
          fun e e' t last before => last ▸ migrate_repoints inside moving (legalMove_iff.mpr legal) hx there away found free placed before⟩,
        migrate_full inside moving (legalMove_iff.mpr legal) hx there away found free⟩⟩⟩,
    fun _ _ _ _ wf hp aligned hf => repoint_names wf hp aligned hf, fun _ _ _ inside => giveFrame_gives inside,
    fun _ _ inside => memoryFault_completes inside, fun _ _ l beyond => memoryFault_beyond l beyond⟩

end Sys2Proof.Claims
end
